-- ==== Sys2Proof/Word.lean ====
section
/-!
DEFINITION. The words of the EV3216 model: bytes, register words, and the one shape of sparse table
(a list of key and value pairs, keys strictly rising) in which everything that the spec numbers is held.
-/

namespace Sys2Proof

/-- A byte of memory, of a packet or of a record. -/
abbrev Byte := BitVec 8

/-- A register: registers are 32 bits wide (R16). -/
abbrev Word := BitVec 32

/-- A sparse table keyed by number. Canonical form: keys strictly rising, no entry equal to what an
unlisted key reads as (Machine/SMap.lean). -/
abbrev SMap (α : Type) := List (Nat × α)

end Sys2Proof
end

