-- ==== Sys2Proof/Machine/SMap.lean ====
section
/-!
DEFINITION. Sparse tables in canonical form: keys strictly rising, no entry equal to the value that an unlisted key
reads as. Also sorted sets of numbers, for marks such as poison. Equal tables are equal data.
-/

namespace Sys2Proof

/-- The entry listed at a key, if there is one. -/
def SMap.find? {α : Type} : SMap α → Nat → Option α
  | [], _ => none
  | (j, a) :: m, k => if j = k then some a else SMap.find? m k

/-- The value at a key, where an unlisted key reads as dflt. -/
def SMap.get {α : Type} (m : SMap α) (dflt : α) (k : Nat) : α := (m.find? k).getD dflt

/-- Put an entry in place, keeping the keys rising. -/
def SMap.insert {α : Type} : SMap α → Nat → α → SMap α
  | [], k, v => [(k, v)]
  | (j, a) :: m, k, v =>
    if k < j then (k, v) :: (j, a) :: m
    else if k = j then (k, v) :: m
    else (j, a) :: SMap.insert m k v

/-- Take an entry away. -/
def SMap.erase {α : Type} (m : SMap α) (k : Nat) : SMap α := m.filter fun e => e.1 ≠ k

/-- Set the value at a key; a value equal to what an unlisted key reads as removes the entry. -/
def SMap.put {α : Type} [DecidableEq α] (m : SMap α) (dflt : α) (k : Nat) (v : α) : SMap α :=
  if v = dflt then m.erase k else m.insert k v

/-- Change the value at a key. -/
def SMap.upd {α : Type} [DecidableEq α] (m : SMap α) (dflt : α) (k : Nat) (f : α → α) : SMap α :=
  m.put dflt k (f (m.get dflt k))

/-- Drop every entry whose key lies in [lo, hi). -/
def SMap.dropRange {α : Type} (m : SMap α) (lo hi : Nat) : SMap α :=
  m.filter fun e => e.1 < lo || hi ≤ e.1

/-- The entries whose key lies in [lo, hi). -/
def SMap.range {α : Type} (m : SMap α) (lo hi : Nat) : SMap α :=
  m.filter fun e => lo ≤ e.1 && e.1 < hi

/-- Keys strictly rising above a bound. -/
def SMap.rising {α : Type} : SMap α → Nat → Bool
  | [], _ => true
  | (j, _) :: m, b => b ≤ j && SMap.rising m (j + 1)

/-- The canonical form, for a table whose unlisted keys read as dflt. -/
def SMap.wf {α : Type} [DecidableEq α] (dflt : α) (m : SMap α) : Bool :=
  SMap.rising m 0 && m.all fun e => !decide (e.2 = dflt)

/-- A set of numbers, as a strictly rising list. -/
abbrev SSet := List Nat

/-- Add a number to a set. -/
def SSet.add : SSet → Nat → SSet
  | [], k => [k]
  | j :: m, k => if k < j then k :: j :: m else if k = j then j :: m else j :: SSet.add m k

/-- Take a number out of a set. -/
def SSet.del (m : SSet) (k : Nat) : SSet := m.filter (· ≠ k)

/-- Add the numbers lo, lo + 1, …, lo + n − 1. -/
def SSet.addRange (m : SSet) (lo : Nat) : Nat → SSet
  | 0 => m
  | n + 1 => SSet.addRange (m.add (lo + n)) lo n

/-- Take out every number of [lo, hi). -/
def SSet.dropRange (m : SSet) (lo hi : Nat) : SSet := m.filter fun j => j < lo || hi ≤ j

/-- Set or clear one number. -/
def SSet.set (m : SSet) (k : Nat) (b : Bool) : SSet := if b then m.add k else m.del k

/-- Some number of [lo, hi) is in the set. -/
def SSet.meets (m : SSet) (lo hi : Nat) : Bool := m.any fun j => lo ≤ j && j < hi

end Sys2Proof
end

