-- ==== Sys2Proof/Syntax.lean ====
section
/-!
DEFINITION. The commands of the EV3216 block, one constructor for each row of spec/opcode_table.json, in the
table's order. The table gives no row any bits: the operands are those that the row's rule speaks of.
A command is something the outside does to the device (a register access, a ring entry, a message, a packet, a
pin) or an event of the device's own that the spec names as one whole step (a deadline passing, data arriving).
-/

namespace Sys2Proof

/-- The window through which one PCI Express function reaches the device (R61): the physical function's, or
virtual function n's, which is partition n's (R108). -/
inductive View where
  | pf
  | vf (n : Fin 16)
  deriving DecidableEq, Repr

/-- The block types of R78. -/
inductive Blk where
  | devc | part | mvec | clst | opte | nwch | rede | isle | core | hbmc | tier | flsh | lend | pcie | ring
  | dmae | ethp | fabt | tokx | strm | deco | pwrc | secc | errm | side | mgmt
  deriving DecidableEq, Repr

/-- A register page: a block type and the instance number of R78 (a core's physical instance, an island's
number, otherwise the block's own number). -/
structure Page where
  blk : Blk
  inst : Nat
  deriving DecidableEq, Repr

/-- A core as descriptors and programs name it: cluster and logical number (R37). -/
structure CoreId where
  cluster : Fin 16
  core : Fin 16
  deriving DecidableEq, Repr

/-- An engine of a core, by its queue number (R231): 0 load, 1 array, 2 vector, 3 store. -/
structure EngineId where
  at_ : CoreId
  queue : Fin 4
  deriving DecidableEq, Repr

/-- A submission ring of a partition (R549). -/
structure RingId where
  part : Fin 16
  ring : Fin 4
  deriving DecidableEq, Repr

/-- What every submission entry carries (R553): its tag, the quiet flag, and whether every reserved bit and
unused byte of the entry is zero. -/
structure Entry where
  tag : BitVec 64
  quiet : Bool
  clean : Bool
  deriving DecidableEq, Repr

/-- A DMA channel (R563). -/
structure ChanId where
  eng : Fin 32
  ch : Fin 8
  deriving DecidableEq, Repr

/-- A sub-port of an Ethernet port (R471). -/
structure SubId where
  port : Fin 12
  sub : Fin 4
  deriving DecidableEq, Repr

/-- A frame as the MAC receives it (R475): the bytes from the destination address to the last byte before the
FCS, whether the FCS is right, and whether an uncorrectable FEC codeword lies inside it. -/
structure RxFrame where
  bytes : List Byte
  fcsOk : Bool
  fecBad : Bool
  deriving DecidableEq, Repr

/-- An ebb message (R495), after its fields are taken from the 46-byte payload; clean says that magic, version
and reserved bytes are right. -/
structure EbbMsg where
  src : BitVec 48
  seq : BitVec 16
  lanes : Byte
  flags : Byte
  clean : Bool
  deriving DecidableEq, Repr

/-- A transport packet as it arrives (R509), with the peer link and sub-port on which it came: the header's
fields, the sealed payload and the tag. headerOk says that the reserved bits and bytes of the header are zero
and that len agrees with the datagram (R515 step 1). ecnCe says that the packet's ECN field is CE (R526). -/
structure Packet where
  link : Nat
  sub : SubId
  ver : Byte
  flags : Byte
  part : Byte
  srcDev : BitVec 16
  dstDev : BitVec 16
  srcEpoch : BitVec 32
  dstEpoch : BitVec 32
  flow : BitVec 16
  key : Fin 2
  ce : Byte
  psn : BitVec 32
  ack : BitVec 32
  ctr : BitVec 48
  sealed : List Byte
  gcmTag : List Byte
  headerOk : Bool
  ecnCe : Bool
  deriving DecidableEq, Repr

/-- A message of R441 as it arrives at an engine of this device, with the device and partition that sent it. -/
structure RedMsg where
  fromDev : BitVec 16
  level : Fin 2
  ring : Byte
  fmt : Byte
  tag : BitVec 32
  piece : BitVec 32
  elems : BitVec 32
  count : BitVec 32
  pieceLen : BitVec 16
  sender : BitVec 16
  payload : List Byte
  deriving DecidableEq, Repr

/-- A lending message of R324, with the device it came from. -/
structure LendMsg where
  fromDev : BitVec 16
  part : Fin 16
  lease : BitVec 32
  first : BitVec 32
  frames : BitVec 32
  grace : BitVec 32
  deriving DecidableEq, Repr

/-- A tree control message of R537, with the node it came from and the local partition it is for. -/
structure TreeMsg where
  part : Fin 16
  fromNode : Nat
  tag : BitVec 32
  offset : BitVec 64
  deriving DecidableEq, Repr

/-- The sender of a SPDM request (R673): PCI Express DOE on the PF, or MCTP on the management interface. -/
inductive SpdmVia where
  | doe
  | mctp
  deriving DecidableEq, Repr

/-- The two sideband inputs of R654. -/
inductive SideIn where
  | halt
  | brake
  deriving DecidableEq, Repr

/-- The commands and events of the block. -/
inductive Instr where
  /-- REGISTER_WRITE (R18): a write of size bytes at an offset of a view's BAR0. -/
  | registerWrite (v : View) (offset : Nat) (size : Nat) (value : Word)
  /-- COUNTER_LOW_READ (R93). -/
  | counterLowRead (v : View) (p : Page) (n : Fin 128)
  /-- COUNTER_64_READ (R94). -/
  | counter64Read (v : View) (p : Page) (n : Fin 128)
  /-- RC_READ (R21): a read of the register with an RC field at off; inc increments arrive in the same cycle. -/
  | rcRead (v : View) (p : Page) (off : Nat) (inc : Nat)
  /-- PART_VIOL_READ (R113). -/
  | partViolRead (v : View)
  /-- TIER_FAULT_INFO_READ (R300). -/
  | tierFaultInfoRead (v : View)
  /-- ISLE_TIMER_LO_READ (R53). -/
  | isleTimerLoRead (v : View) (isle : Nat)
  /-- BLK_NEG_WRITE (R98). -/
  | blkNegWrite (v : View) (p : Page) (major minor : Byte)
  /-- BLK_EVT_WRITE (R91): the word written; the event bits, and the error code if nonzero, that arrive in the
  same access cycle (R20, R91). -/
  | blkEvtWrite (v : View) (p : Page) (w : Word) (arriving : Word) (newErr : BitVec 16)
  /-- BLOCK_ENABLE (R85, R86): enable written 1, with the quiesce bit of the same write. -/
  | blockEnable (v : View) (p : Page) (quiesce : Bool)
  /-- BLOCK_READY (R85). -/
  | blockReady (p : Page)
  /-- BLOCK_QUIESCE (R85). -/
  | blockQuiesce (v : View) (p : Page)
  /-- BLOCK_UNQUIESCE (R85). -/
  | blockUnquiesce (v : View) (p : Page)
  /-- BLOCK_DISABLE (R85). -/
  | blockDisable (v : View) (p : Page)
  /-- BLOCK_DRAINED (R85). -/
  | blockDrained (p : Page)
  /-- BLOCK_RESET (R726). -/
  | blockReset (v : View) (p : Page)
  /-- EVENT_SUMMARY_WRITE (R547): summary word i of the view written with w. -/
  | eventSummaryWrite (v : View) (n : Fin 64) (w : Word)
  /-- COMMIT_STAGE (R123): COMMIT_CTL written with stage 1; the write's other two action bits. -/
  | commitStage (sealBit abortBit : Bool)
  /-- STAGED_FIELD_WRITE (R118): staged word i of the partition that PART_SEL selects. -/
  | stagedFieldWrite (n : Fin 32) (value : Word)
  /-- COMMIT_SEAL (R124): COMMIT_CTL written with seal 1; the write's other two action bits. -/
  | commitSeal (stageBit abortBit : Bool)
  /-- COMMIT_ABORT (R126): COMMIT_CTL written with abort 1; the write's other two action bits. -/
  | commitAbort (stageBit sealBit : Bool)
  /-- COMMIT_QUERY (R138). -/
  | commitQuery (tag : BitVec 5)
  /-- COMMIT_SIGN (R127): M, the ECDSA signature and the LMS signature of the message. -/
  | commitSign (tag : BitVec 5) (m ecdsa lms : List Byte)
  /-- COMMIT_WINDOW_EXPIRE (R130). -/
  | commitWindowExpire
  /-- COMMIT_POINT (R123 step 6). -/
  | commitPoint
  /-- COMMIT_DRAIN_IDLE (R131 step 3). -/
  | commitDrainIdle
  /-- COMMIT_DRAIN_GRACE_EXPIRE (R131 steps 3 and 4). -/
  | commitDrainGraceExpire
  /-- COMMIT_SCRUB_DONE (R131 steps 5 and 6). -/
  | commitScrubDone
  /-- ENROLL (R136): the two public keys and the two signatures. -/
  | enroll (tag : BitVec 5) (ecKey lmsKey ecSig lmsSig : List Byte)
  /-- PART_RESET (R560), an entry of the operator's submission ring. -/
  | partReset (e : Entry) (part : Byte)
  /-- PARTITION_RESET_DRAIN_LIMIT (R135). -/
  | partitionResetDrainLimit (p : Fin 16)
  /-- PARTITION_RESET_DONE (R135). -/
  | partitionResetDone (p : Fin 16)
  /-- VF_FLR (R110). -/
  | vfFlr (n : Fin 16)
  /-- VF_ENABLE_CHANGE (R109): bit n is VF n's enable in the SR-IOV capability. -/
  | vfEnableChange (mask : BitVec 16)
  /-- NOP (R244) at the head of an engine's queue. -/
  | nop (e : EngineId)
  /-- END (R241) at the head of an engine's queue. -/
  | endOp (e : EngineId)
  /-- LOAD (R269). -/
  | load (c : CoreId)
  /-- FETCH (R269). -/
  | fetch (c : CoreId)
  /-- STORE (R253). -/
  | store (c : CoreId)
  /-- SUBMIT (R255). -/
  | submit (c : CoreId)
  /-- POST (R256). -/
  | post (c : CoreId)
  /-- MATMUL (R189). -/
  | matmul (c : CoreId)
  /-- ADD (R244). -/
  | add (c : CoreId)
  /-- SUB (R244). -/
  | sub (c : CoreId)
  /-- MUL (R244). -/
  | mul (c : CoreId)
  /-- FMA (R244). -/
  | fma (c : CoreId)
  /-- NEG (R244). -/
  | neg (c : CoreId)
  /-- ABS (R244). -/
  | abs (c : CoreId)
  /-- MIN (R244). -/
  | min (c : CoreId)
  /-- MAX (R244). -/
  | max (c : CoreId)
  /-- CMP_EQ (R245). -/
  | cmpEq (c : CoreId)
  /-- CMP_LT (R245). -/
  | cmpLt (c : CoreId)
  /-- CMP_LE (R245). -/
  | cmpLe (c : CoreId)
  /-- CVT (R172). -/
  | cvt (c : CoreId)
  /-- FILL (R172). -/
  | fill (c : CoreId)
  /-- RCP (R244). -/
  | rcp (c : CoreId)
  /-- DIV (R244). -/
  | div (c : CoreId)
  /-- SQRT (R244). -/
  | sqrt (c : CoreId)
  /-- RSQRT (R244). -/
  | rsqrt (c : CoreId)
  /-- EXP (R244). -/
  | exp (c : CoreId)
  /-- EXP2 (R244). -/
  | exp2 (c : CoreId)
  /-- TANH (R244). -/
  | tanh (c : CoreId)
  /-- SIGMOID (R244). -/
  | sigmoid (c : CoreId)
  /-- GELU (R245). -/
  | gelu (c : CoreId)
  /-- LOG (R244). -/
  | log (c : CoreId)
  /-- LOG2 (R244). -/
  | log2 (c : CoreId)
  /-- ROWSUM (R244). -/
  | rowsum (c : CoreId)
  /-- ROWMAX (R245). -/
  | rowmax (c : CoreId)
  /-- ROWMIN (R245). -/
  | rowmin (c : CoreId)
  /-- MATMUL_DONE (R58): the oldest array operation in flight completes. -/
  | matmulDone (c : CoreId)
  /-- VECTOR_OP_DONE (R264): the oldest vector operation in flight completes. -/
  | vectorOpDone (c : CoreId)
  /-- LOAD_DATA_ARRIVE (R270): request i of the load engine's outstanding requests returns. -/
  | loadDataArrive (c : CoreId) (n : Nat)
  /-- STORE_DONE (R58): the oldest STORE in flight is acknowledged. -/
  | storeDone (c : CoreId)
  /-- SUBMIT_DELIVERED (R255). -/
  | submitDelivered (c : CoreId)
  /-- POST_COMPLETION_WRITTEN (R557). -/
  | postCompletionWritten (c : CoreId)
  /-- SIGNAL_ARRIVE (R259): signal i of those under way reaches its counter. -/
  | signalArrive (n : Nat)
  /-- ENGINE_SKIP_HEAD (R268). -/
  | engineSkipHead (v : View) (e : EngineId)
  /-- ENGINE_RESTART (R241). -/
  | engineRestart (v : View) (e : EngineId)
  /-- EVENT_COUNTER_WRITE (R262): counter i of a core (scope 0) or of a cluster (scope 1). -/
  | eventCounterWrite (v : View) (c : CoreId) (scope : Bool) (n : Fin 256) (value : Word)
  /-- MATVEC (R257): unit d starts the head of its queue. -/
  | matvec (d : Fin 4)
  /-- MATVEC_DONE (R225). -/
  | matvecDone (d : Fin 4)
  /-- LAUNCH (R558). -/
  | launch (r : RingId) (e : Entry) (clusters : BitVec 16) (flags : Byte) (table : BitVec 64)
  /-- PARK (R278). -/
  | park (r : RingId) (e : Entry) (slot : Byte) (clusters : BitVec 16)
  /-- PARK_QUIESCED (R278): the PARK (or SWITCH) in progress on the ring finds every unit quiesced. -/
  | parkQuiesced (r : RingId)
  /-- RESUME (R281). -/
  | resume (r : RingId) (e : Entry) (slot : Byte)
  /-- SWITCH (R277). -/
  | switch (r : RingId) (e : Entry) (parkSlot resumeSlot : Byte)
  /-- IMPORT (R284). -/
  | importShelf (r : RingId) (e : Entry) (slot : Byte) (addr : BitVec 64)
  /-- EXPORT_SHARD (R389). -/
  | exportShard (r : RingId) (e : Entry) (record holding dst cap : BitVec 64)
  /-- IMPORT_SHARD (R392). -/
  | importShard (r : RingId) (e : Entry) (src len target : BitVec 64)
  /-- TREE_START (R536). -/
  | treeStart (r : RingId) (e : Entry) (record : BitVec 64)
  /-- SQ_TAIL_DOORBELL (R550): ring of the function written with a new tail. -/
  | sqTailDoorbell (v : View) (fn : View) (ring : Fin 4) (value : Word)
  /-- SQ_READ_BUS_ERROR (R561). -/
  | sqReadBusError (fn : View) (ring : Fin 4)
  /-- SQ_RING_ENABLE (R561): a write of the ring's CFG register. -/
  | sqRingEnable (v : View) (fn : View) (ring : Fin 4) (value : Word)
  /-- CQ_HEAD_DOORBELL (R556). -/
  | cqHeadDoorbell (v : View) (fn : View) (value : Word)
  /-- CQ_WRITE_BUS_ERROR (R562). -/
  | cqWriteBusError (fn : View)
  /-- DMA_TAIL_DOORBELL (R563). -/
  | dmaTailDoorbell (v : View) (c : ChanId) (value : Word)
  /-- DMA_DESCRIPTOR_START (R567). -/
  | dmaDescriptorStart (c : ChanId)
  /-- DMA_DESCRIPTOR_DONE (R568): for a host-to-device descriptor, the bytes that came from the host, and the
  64-byte pieces of them that came in poisoned TLPs (R570). -/
  | dmaDescriptorDone (c : ChanId) (data : List Byte) (poisoned : List Nat)
  /-- DMA_BUS_ERROR (R572): the channel and direction of the failing request, its cause code, its address. -/
  | dmaBusError (c : ChanId) (toHost : Bool) (cause : BitVec 4) (addr : BitVec 64)
  /-- DMA_SKIP (R571). -/
  | dmaSkip (v : View) (c : ChanId)
  /-- DMA_RESTART_REPLAY (R575): restart written 1 with mode 0. -/
  | dmaRestartReplay (v : View) (e : Fin 32)
  /-- DMA_RESTART_FLUSH (R575): restart written 1 with mode 1. -/
  | dmaRestartFlush (v : View) (e : Fin 32)
  /-- DMA_MAINT_WRITE (R576). -/
  | dmaMaintWrite (v : View) (e : Fin 32) (on : Bool)
  /-- MAP (R296): TIER_MAP_CMD of the view written 1. -/
  | map (v : View)
  /-- UNMAP (R295). -/
  | unmap (v : View)
  /-- FLUSH (R305). -/
  | flush (v : View)
  /-- INVALIDATE (R306). -/
  | invalidate (v : View)
  /-- PROBE (R296). -/
  | probe (v : View)
  /-- MAP_COMMAND_DONE (R299). -/
  | mapCommandDone
  /-- FLUSH_DONE (R305). -/
  | flushDone
  /-- CHUNK_FILL_DONE (R303): the chunk of the partition at va is filled from its home; the home's bytes where
  the home lies outside the device (T2, T3), whether the home failed (R300), and the granules of the chunk that
  cannot be recovered (R636). -/
  | chunkFillDone (p : Fin 16) (va : Nat) (data : List Byte) (failed : Bool) (lost : List Nat)
  /-- WRITE_BACK_DONE (R340). -/
  | writeBackDone (p : Fin 16) (va : Nat)
  /-- WRITE_BACK_FAIL (R635). -/
  | writeBackFail (p : Fin 16) (va : Nat)
  /-- WRITE_BACK_RETRY (R635). -/
  | writeBackRetry (p : Fin 16) (va : Nat)
  /-- TIER_CACHE_WRITE (R302). -/
  | tierCacheWrite (v : View) (value : Word)
  /-- PILOT_ENABLE (R316): a write of TIER_PILOT_CTR. -/
  | pilotEnable (v : View) (value : Word)
  /-- PILOT_PASS (R312). -/
  | pilotPass (p : Fin 16)
  /-- PILOT_STAGING_DONE (R312): staging of table entry i ends. -/
  | pilotStagingDone (p : Fin 16) (n : Nat)
  /-- LEND_PCHS_WRITE (R327). -/
  | lendPchsWrite (v : View) (stack : Fin 8) (value : Word)
  /-- LEASE_REQ (R325), received. -/
  | leaseReq (m : LendMsg)
  /-- LEASE_REQ_TIMEOUT (R325) of the partition's MAP in progress. -/
  | leaseReqTimeout (p : Fin 16)
  /-- LEASE_GRANT (R326), received. -/
  | leaseGrant (m : LendMsg)
  /-- RECLAIM (R330), received. -/
  | reclaim (m : LendMsg)
  /-- T3_PAGE_RELOCATED (R330): the copy of the partition's page at va to its new home completes; the bytes that
  the lender gave for the parts that are not cached. -/
  | t3PageRelocated (p : Fin 16) (va : Nat) (data : List Byte)
  /-- RELEASE (R326), received. -/
  | release (m : LendMsg)
  /-- RECLAIM_DEADLINE (R331) of a lease lent. -/
  | reclaimDeadline (lease : Nat)
  /-- REVOKED (R331), received. -/
  | revoked (m : LendMsg)
  /-- POWER_LOSS_SEQUENCE (R345). -/
  | powerLossSequence
  /-- POWER_LOSS_SEQUENCE_DONE (R345). -/
  | powerLossSequenceDone
  /-- INPUT_RECOVER (R347). -/
  | inputRecover
  /-- FLASH_MOUNT_DONE (R348): whether the mount succeeded, the entries replayed, and the reserve in percent. -/
  | flashMountDone (ok : Bool) (replayed : Nat)
  /-- FLASH_REBUILD (R698), an entry of the operator's submission ring. -/
  | flashRebuild (e : Entry) (sound : Bool)
  /-- WRITE_BUDGET_REFILL (R350). -/
  | writeBudgetRefill
  /-- WEAR_LEVELLING (R343): chunks moved, and the spread of erase counts after. -/
  | wearLevelling (chunks : Nat) (spread : Nat)
  /-- READ_DISTURB_REFRESH (R343): chunks relocated. -/
  | readDisturbRefresh (chunks : Nat)
  /-- BAD_BLOCK_RETIRE (R343): live chunks of the block rebuilt from parity, and those that parity cannot
  recover. -/
  | badBlockRetire (chunks : Nat) (unrecovered : List Nat)
  /-- GARBAGE_COLLECTION (R343): chunks relocated. -/
  | garbageCollection (chunks : Nat)
  /-- OPT_UPDATE (R371). -/
  | optUpdate (c : Fin 16)
  /-- OPT_LATE (R383). -/
  | optLate (c : Fin 16)
  /-- OPT_DIGCMP (R380). -/
  | optDigcmp (c : Fin 16)
  /-- OPT_UPDATE_DONE (R371). -/
  | optUpdateDone (c : Fin 16)
  /-- OPTE_SKIP_HEAD (R365). -/
  | opteSkipHead (v : View) (c : Fin 16)
  /-- SCALE_REPORT (R399): report i of those under way to the cluster's scale table arrives. -/
  | scaleReport (c : Fin 16) (n : Nat)
  /-- CONVERSION_PASS (R406): producer i of those of the cluster that await conversion. -/
  | conversionPass (c : Fin 16) (n : Nat)
  /-- SCALE_ROLL (R401). -/
  | scaleRoll (c : Fin 16) (entry : Nat)
  /-- HW_RECOMPUTE_DONE (R416) of the core's captured tile-segment. -/
  | hwRecomputeDone (c : CoreId)
  /-- SC_READ (R421): NWCH_SC_CMD written 1. -/
  | scRead (v : View) (c : Fin 16)
  /-- SC_WRITE (R421). -/
  | scWrite (v : View) (c : Fin 16)
  /-- SC_SETTLE (R421). -/
  | scSettle (v : View) (c : Fin 16)
  /-- SC_FREE (R421). -/
  | scFree (v : View) (c : Fin 16)
  /-- SC_CALIBRATE (R421). -/
  | scCalibrate (v : View) (c : Fin 16)
  /-- SC_OP (R423). -/
  | scOp (c : Fin 16)
  /-- NWCH_SKIP_HEAD (R423). -/
  | nwchSkipHead (v : View) (c : Fin 16)
  /-- RED_CHAIN (R435). -/
  | redChain (c : Fin 16)
  /-- RED_GATHER (R445). -/
  | redGather (c : Fin 16)
  /-- PIPE_SEND (R450). -/
  | pipeSend (c : Fin 16)
  /-- PIPE_FREE (R451). -/
  | pipeFree (c : Fin 16)
  /-- TOK_ROUTE (R459). -/
  | tokRoute (c : Fin 16)
  /-- TOK_RETURN (R463). -/
  | tokReturn (c : Fin 16)
  /-- TOK_COMBINE (R465). -/
  | tokCombine (c : Fin 16)
  /-- RUNNING_SUM (R436) arrives at the cluster's reduction engine. -/
  | runningSum (c : Fin 16) (m : RedMsg)
  /-- FINISHED_BYTES (R437). -/
  | finishedBytes (c : Fin 16) (m : RedMsg)
  /-- GATHER_BYTES (R445). -/
  | gatherBytes (c : Fin 16) (m : RedMsg)
  /-- PIPE_DATA (R450), for the link record at rec. -/
  | pipeData (c : Fin 16) (record : Nat) (m : RedMsg)
  /-- PIPE_CREDIT (R451), for the link record at rec. -/
  | pipeCredit (c : Fin 16) (record : Nat) (m : RedMsg)
  /-- TOKEN_ROWS (R462), for partition p at the token exchange engine of die d. -/
  | tokenRows (d : Fin 4) (p : Fin 16) (m : RedMsg)
  /-- TOKEN_RETURN (R464), at cluster c. -/
  | tokenReturn (c : Fin 16) (m : RedMsg)
  /-- REDE_NO_PROGRESS_TIMEOUT (R443) of a queue's active descriptor. -/
  | redeNoProgressTimeout (c : Fin 16) (q : Fin 3)
  /-- SLOT_TAG_TIMEOUT (R467). -/
  | slotTagTimeout (d : Fin 4) (p : Fin 16) (slot : Fin 256) (tag : BitVec 32)
  /-- REDE_SKIP_HEAD (R429). -/
  | redeSkipHead (v : View) (c : Fin 16) (q : Fin 3)
  /-- FRAME_RECEIVE (R475). -/
  | frameReceive (s : SubId) (f : RxFrame)
  /-- PFC_REFRESH (R482). -/
  | pfcRefresh (s : SubId) (pri : Fin 8)
  /-- PFC_FRAME (R483): the class-enable vector and the eight times. -/
  | pfcFrame (s : SubId) (vec : Byte) (times : List (BitVec 16))
  /-- PFC_PAUSE_EXPIRE (R483). -/
  | pfcPauseExpire (s : SubId) (pri : Fin 8)
  /-- FRAME_TRANSMIT (R487). -/
  | frameTransmit (s : SubId)
  /-- LINK_UP (R496). -/
  | linkUp (s : SubId)
  /-- LINK_DOWN (R520). -/
  | linkDown (s : SubId)
  /-- ETHP_MODE_WRITE (R493). -/
  | ethpModeWrite (v : View) (port : Fin 12) (value : Word)
  /-- QP_ENABLE (R493): a write of ETHP_QPq_CFG with enable 1. -/
  | qpEnable (v : View) (port : Fin 12) (q : Fin 64) (value : Word)
  /-- EBB_CTL_WRITE (R502). -/
  | ebbCtlWrite (v : View) (port : Fin 12) (value : Word)
  /-- CAP_SEND (R496). -/
  | capSend (s : SubId)
  /-- CAP (R496), received. -/
  | cap (s : SubId) (m : EbbMsg)
  /-- EBB_WINDOW (R497): bytes sent and received in the window. -/
  | ebbWindow (s : SubId)
  /-- SHED_REQ (R498), received. -/
  | shedReq (s : SubId) (m : EbbMsg)
  /-- SHED_REQ_RESEND (R498). -/
  | shedReqResend (s : SubId)
  /-- SHED_ACK (R498), received. -/
  | shedAck (s : SubId) (m : EbbMsg)
  /-- SHED_NAK (R498), received. -/
  | shedNak (s : SubId) (m : EbbMsg)
  /-- EBB_RATE_WINDOW (R500). -/
  | ebbRateWindow (s : SubId)
  /-- WAKE (R500), received. -/
  | wake (s : SubId) (m : EbbMsg)
  /-- WAKE_ACK (R500), received. -/
  | wakeAck (s : SubId) (m : EbbMsg)
  /-- WAKE_RESEND (R502). -/
  | wakeResend (s : SubId)
  /-- EBB_ALIGNED (R498). -/
  | ebbAligned (s : SubId)
  /-- EBB_ALIGN_TIMEOUT (R502). -/
  | ebbAlignTimeout (s : SubId)
  /-- DATA (R522), received. -/
  | data (k : Packet)
  /-- CTRL (R510), received. -/
  | ctrl (k : Packet)
  /-- ACK (R524), received. -/
  | ack (k : Packet)
  /-- KEEPALIVE (R527), received. -/
  | keepalive (k : Packet)
  /-- HELLO (R517), received. -/
  | hello (k : Packet)
  /-- HELLO_ACK (R517), received. -/
  | helloAck (k : Packet)
  /-- FENCED (R533), received. -/
  | fenced (k : Packet)
  /-- HELLO_RESEND (R516) on a peer link. -/
  | helloResend (link : Nat)
  /-- ACK_DELAY_EXPIRE (R523) of a receiving flow. -/
  | ackDelayExpire (dev : BitVec 16) (flow : BitVec 16)
  /-- RETRANSMIT_TIMEOUT (R524) of a sending flow. -/
  | retransmitTimeout (dev : BitVec 16) (flow : BitVec 16)
  /-- RATE_WINDOW (R525). -/
  | rateWindow
  /-- KEEPALIVE_SEND (R527) on a peer link. -/
  | keepaliveSend (link : Nat)
  /-- KEEPALIVE_CHECK (R528). -/
  | keepaliveCheck
  /-- FABT_SELF_WRITE (R534). -/
  | fabtSelfWrite (v : View) (value : Word)
  /-- FABT_EPOCH_WRITE (R534). -/
  | fabtEpochWrite (v : View) (value : Word)
  /-- FABT_TBL_READ (R507). -/
  | fabtTblRead (v : View)
  /-- FABT_TBL_WRITE (R507). -/
  | fabtTblWrite (v : View)
  /-- TACK (R538), received. -/
  | tack (m : TreeMsg)
  /-- PEELED (R539), received. -/
  | peeled (m : TreeMsg)
  /-- GRAFT (R539), received. -/
  | graft (m : TreeMsg)
  /-- TREE_ROUND (R538) of a tree of the partition. -/
  | treeRound (p : Fin 16) (tag : BitVec 32)
  /-- STREAM_PACKET (R581): the bytes after the EtherType (raw) or after the UDP header. -/
  | streamPacket (ctx : Fin 48) (bytes : List Byte)
  /-- ASSEMBLY_TIMEOUT (R585). -/
  | assemblyTimeout (ctx : Fin 48)
  /-- DECODE_START (R602). -/
  | decodeStart (deco : Fin 6)
  /-- DECODE_DONE (R588) of the picture in service. -/
  | decodeDone (deco : Fin 6)
  /-- SLOT_ARM (R595). -/
  | slotArm (v : View) (ctx : Fin 48) (slot : Fin 2)
  /-- BATCH_TIMEOUT (R599). -/
  | batchTimeout (ctx : Fin 48)
  /-- ISLE_STATE_REQ (R605). -/
  | isleStateReq (v : View) (isle : Nat) (req : BitVec 3)
  /-- ISLAND_DESCENT_START (R727). -/
  | islandDescentStart (isle : Nat)
  /-- ISLAND_DESCENT_DONE (R727). -/
  | islandDescentDone (isle : Nat)
  /-- ISLAND_AUTO_IDLE (R607). -/
  | islandAutoIdle (isle : Nat)
  /-- ISLAND_EXIT_DONE (R608). -/
  | islandExitDone (isle : Nat)
  /-- SRAM_SAVE_DONE (R609). -/
  | sramSaveDone (isle : Nat)
  /-- SRAM_RESTORE_DONE (R609). -/
  | sramRestoreDone (isle : Nat)
  /-- ISLE_FREQ_WRITE (R610). -/
  | isleFreqWrite (v : View) (isle : Nat) (value : Word)
  /-- FREQ_CHANGE_APPLY (R46). -/
  | freqChangeApply (isle : Nat)
  /-- GOVERNOR_UPDATE (R616): the input power in milliwatts, the voltage in 10 mV and the current in 10 mA
  measured. -/
  | governorUpdate (powerMw : Nat) (volt : BitVec 16) (amp : BitVec 16)
  /-- CAP_WINDOW (R620): the average input power of the window, in milliwatts. -/
  | capWindow (avgMw : Nat)
  /-- THERMAL_READING (R621): the hottest sensor of each compute die, in degrees. -/
  | thermalReading (t0 t1 t2 t3 : Byte)
  /-- UNDERVOLTAGE (R612). -/
  | undervoltage
  /-- UNDERVOLTAGE_RELEASE (R612). -/
  | undervoltageRelease
  /-- OVERVOLTAGE (R716). -/
  | overvoltage
  /-- OVERVOLTAGE_RECOVER (R716). -/
  | overvoltageRecover
  /-- DEVICE_RUN (R624): PWRC_DEV.target written 0. -/
  | deviceRun (v : View)
  /-- DEVICE_QUIET (R625). -/
  | deviceQuiet (v : View)
  /-- DEVICE_STANDBY (R626). -/
  | deviceStandby (v : View)
  /-- DEVICE_DORMANT (R626). -/
  | deviceDormant (v : View)
  /-- AUTO_QUIET (R625). -/
  | autoQuiet
  /-- DEVICE_WAKE (R624). -/
  | deviceWake
  /-- POWER (R627). -/
  | power (tag : BitVec 5) (target : Byte)
  /-- ERROR_DETECT (R631): a code of R631 or of the reporting block, its source page, the address kind and
  address of the record. -/
  | errorDetect (code : BitVec 16) (src : Page) (akind : Fin 4) (addr : BitVec 64)
  /-- SRAM_SCRUB_PASS (R630) of a core: SECDED words found corrected, and granules found uncorrectable. -/
  | sramScrubPass (inst : Nat) (corrected : Nat) (bad : List Nat)
  /-- HBM_SCRUB_PASS (R630) of a controller. -/
  | hbmScrubPass (stack : Fin 8) (corrected : Nat) (bad : List Nat)
  /-- ERRM_POP (R638). -/
  | errmPop (v : View)
  /-- CORE_PROBE (R647) of a slot: whether it answered. -/
  | coreProbe (c : Fin 16) (slot : Fin 17) (answered : Bool)
  /-- DEAD_SLOT_REVIVE (R651). -/
  | deadSlotRevive (c : Fin 16) (slot : Fin 17)
  /-- SLOT_RETURN (R651). -/
  | slotReturn (v : View) (c : Fin 16) (slot : Fin 17)
  /-- SLOT_TEST_DONE (R651). -/
  | slotTestDone (c : Fin 16) (slot : Fin 17) (pass : Bool)
  /-- SLOT_RETIRE (R647). -/
  | slotRetire (v : View) (c : Fin 16) (slot : Fin 17)
  /-- CLUSTER_REINSTATE (R653). -/
  | clusterReinstate (v : View) (c : Fin 16)
  /-- HALT_N_ASSERT (R656): qualified by a held low, or by chatter. -/
  | haltNAssert (chatter : Bool)
  /-- PWRBRAKE_N_ASSERT (R622). -/
  | pwrbrakeNAssert (chatter : Bool)
  /-- SIDEBAND_DEASSERT (R654). -/
  | sidebandDeassert (n : SideIn)
  /-- SIDEBAND_GLITCH (R654). -/
  | sidebandGlitch (n : SideIn)
  /-- SIDEBAND_HELD_10S (R657). -/
  | sidebandHeld10s (n : SideIn)
  /-- SIDE_RESUME (R658). -/
  | sideResume (v : View) (halt brake : Bool)
  /-- FW_LOAD (R668): SECC_FW_CMD written 1. -/
  | fwLoad (v : View)
  /-- FW_LOAD_DONE (R668): the bytes read from the host, or a bus error. -/
  | fwLoadDone (bundle : List Byte) (busError : Bool)
  /-- FW_SELECT (R668): SECC_FW_CMD written 2. -/
  | fwSelect (v : View)
  /-- SVN_COMMIT (R666). -/
  | svnCommit (v : View)
  /-- SVN_AUTO_COMMIT (R666). -/
  | svnAutoCommit
  /-- KEY_INSTALL (R680). -/
  | keyInstall (v : View)
  /-- KEY_CLEAR (R680). -/
  | keyClear (v : View)
  /-- KEY_SET_TRANSMIT (R680). -/
  | keySetTransmit (v : View)
  /-- GET_VERSION (R672). -/
  | getVersion (via : SpdmVia) (req : List Byte)
  /-- GET_CAPABILITIES (R672). -/
  | getCapabilities (via : SpdmVia) (req : List Byte)
  /-- NEGOTIATE_ALGORITHMS (R672). -/
  | negotiateAlgorithms (via : SpdmVia) (req : List Byte)
  /-- GET_DIGESTS (R672). -/
  | getDigests (via : SpdmVia) (req : List Byte)
  /-- GET_CERTIFICATE (R671): slot, offset and length of the request. -/
  | getCertificate (via : SpdmVia) (slot : Fin 8) (offset len : BitVec 16)
  /-- CHALLENGE (R672). -/
  | challenge (via : SpdmVia) (req : List Byte)
  /-- GET_MEASUREMENTS (R674): the block index asked for, 0 for the count and 0xFF for all. -/
  | getMeasurements (via : SpdmVia) (index : Byte) (req : List Byte)
  /-- CHUNK_GET (R672). -/
  | chunkGet (via : SpdmVia) (handle : Byte) (seq : BitVec 16)
  /-- RESPOND_IF_READY (R672). -/
  | respondIfReady (via : SpdmVia) (req : List Byte)
  /-- SPDM_UNSUPPORTED_REQUEST (R672). -/
  | spdmUnsupportedRequest (via : SpdmVia) (code : Byte)
  /-- MANAGEMENT_UNKNOWN_REQUEST (R677). -/
  | managementUnknownRequest (tag : BitVec 5) (code : Byte)
  /-- SET_ENDPOINT_ID (R677). -/
  | setEndpointId (tag : BitVec 5) (eid : Byte)
  /-- GET_ENDPOINT_ID (R677). -/
  | getEndpointId (tag : BitVec 5)
  /-- GET_MCTP_VERSION_SUPPORT (R677). -/
  | getMctpVersionSupport (tag : BitVec 5) (msgType : Byte)
  /-- GET_MESSAGE_TYPE_SUPPORT (R677). -/
  | getMessageTypeSupport (tag : BitVec 5)
  /-- GET_VENDOR_DEFINED_MSG_SUPPORT (R677). -/
  | getVendorDefinedMsgSupport (tag : BitVec 5) (selector : Byte)
  /-- ENTDAA (R711): the address that the bus controller assigns. -/
  | entdaa (addr : BitVec 7)
  /-- SETDASA (R711): the static address named and the dynamic address given. -/
  | setdasa (static addr : BitVec 7)
  /-- AUX_POWER_UP (R684): the levels of PROV_N, SRIS_N and PERST#. -/
  | auxPowerUp (provN srisN perst : Bool)
  /-- MAIN_INPUT_IN_RANGE (R684). -/
  | mainInputInRange
  /-- STARTUP_STEP_DONE (R684): the step under way ends; ok is false where it fails (R687), with the status or
  the stack that failed; bad slots of step 3 as core instances. -/
  | startupStepDone (ok : Bool) (detail : Byte) (badSlots : List Nat)
  /-- PERST_ASSERT (R693). -/
  | perstAssert
  /-- PERST_DEASSERT (R684). -/
  | perstDeassert
  /-- HOT_RESET (R689). -/
  | hotReset
  /-- PF_FLR (R689). -/
  | pfFlr
  /-- DEVICE_RESET (R696). -/
  | deviceReset (e : Entry) (flags : Byte)
  /-- RECOVER_LOAD (R697): the arguments, and what the gather brought (the pages' bytes in order, or a bus
  error); pagesAligned says that every table entry is a multiple of 4,096. -/
  | recoverLoad (e : Entry) (table : BitVec 64) (entries : BitVec 32) (slot : Byte) (bundle : List Byte) (busError pagesAligned : Bool)
  /-- STATUS (R696). -/
  | status (e : Entry)
  /-- RECOVERY (R699). -/
  | recovery (tag : BitVec 5)
  /-- AUX_POWER_LOSS (R130). -/
  | auxPowerLoss
  /-- PCIE_LINK_DOWN (R693). -/
  | pcieLinkDown
  /-- PCIE_LINK_RETRAIN (R544): the rate code, FLIT mode and width trained. -/
  | pcieLinkRetrain (rate : BitVec 3) (flit : Bool) (width : BitVec 5)
  /-- MSIX_VECTOR_UNMASK (R548). -/
  | msixVectorUnmask (fn : View) (vec : Fin 2048)
  /-- ATS_INVALIDATE_REQUEST (R543). -/
  | atsInvalidateRequest (fn : View) (addr : BitVec 64) (len : Nat)
  /-- PROV_N_CHANGE (R136). -/
  | provNChange (level : Bool)
  /-- ELVUO_CAPABLE_EXPIRE (R496). -/
  | elvuoCapableExpire (s : SubId)
  /-- TREE_DATA (R538): a DATA message of a tree of the partition arrives with bytes at an offset. -/
  | treeData (m : TreeMsg) (bytes : List Byte)
  /-- DEVICE_STATE_CHANGE_DONE (R624). -/
  | deviceStateChangeDone
  deriving DecidableEq, Repr

end Sys2Proof
end

