-- ==== Sys2Proof/Machine/Pages.lean ====
section
/-!
DEFINITION. Pages, islands and views as numbers, and the facts about block types that R78 and R42 give.
-/

namespace Sys2Proof

/-- The place of a block type in the model's numbering of pages. -/
def Blk.idx : Blk → Nat
  | .devc => 0 | .part => 1 | .mvec => 2 | .clst => 3 | .opte => 4 | .nwch => 5 | .rede => 6 | .isle => 7
  | .core => 8 | .hbmc => 9 | .tier => 10 | .flsh => 11 | .lend => 12 | .pcie => 13 | .ring => 14 | .dmae => 15
  | .ethp => 16 | .fabt => 17 | .tokx => 18 | .strm => 19 | .deco => 20 | .pwrc => 21 | .secc => 22 | .errm => 23
  | .side => 24 | .mgmt => 25

/-- All block types, in the order of Blk.idx. -/
def Blk.all : List Blk :=
  [.devc, .part, .mvec, .clst, .opte, .nwch, .rede, .isle, .core, .hbmc, .tier, .flsh, .lend, .pcie, .ring, .dmae,
   .ethp, .fabt, .tokx, .strm, .deco, .pwrc, .secc, .errm, .side, .mgmt]

/-- Block type codes (R78). -/
def Blk.code : Blk → Nat
  | .devc => 0x10 | .part => 0x11 | .mvec => 0x25 | .clst => 0x20 | .opte => 0x23 | .nwch => 0x24 | .rede => 0x26
  | .isle => 0x71 | .core => 0x21 | .hbmc => 0x30 | .tier => 0x31 | .flsh => 0x32 | .lend => 0x33 | .pcie => 0x40
  | .ring => 0x42 | .dmae => 0x41 | .ethp => 0x50 | .fabt => 0x51 | .tokx => 0x52 | .strm => 0x60 | .deco => 0x61
  | .pwrc => 0x70 | .secc => 0x80 | .errm => 0x90 | .side => 0x91 | .mgmt => 0xA0

/-- Kinds of island by number (R42): 0 core, 1 cluster fabric, 2 mesh, 3 I/O die, 4 HBM controller, 5 port. -/
def isleKind (i : Nat) : Option Nat :=
  if i < 272 then some 0 else if i < 0x120 then some 1 else if i < 0x124 then some 2 else if i = 0x124 then some 3
  else if 0x128 ≤ i ∧ i < 0x130 then some 4 else if 0x130 ≤ i ∧ i < 0x13C then some 5 else none

/-- How many instances a block type has (R78); an island's number is judged by isleKind. -/
def Blk.count : Blk → Nat
  | .mvec => 4 | .clst | .opte | .nwch | .rede | .ring => 16 | .core => 272 | .hbmc => 8 | .dmae => 32 | .ethp => 12
  | .tokx => 4 | .strm => 48 | .deco => 6 | .isle => 0x13C
  | .devc | .part | .tier | .flsh | .lend | .pcie | .fabt | .pwrc | .secc | .errm | .side | .mgmt => 1

/-- The page exists on the module. -/
def Page.valid (p : Page) : Bool :=
  p.inst < p.blk.count && (p.blk != .isle || (isleKind p.inst).isSome)

/-- Pages are numbered block type × 4096 + instance. -/
def Page.key (p : Page) : Nat := p.blk.idx * 4096 + p.inst

/-- The page of a number. -/
def Page.ofKey (k : Nat) : Page := ⟨Blk.all.getD (k / 4096) .devc, k % 4096⟩

/-- Functions: 0 for the PF, n + 1 for VF n (R69). -/
def View.key : View → Nat
  | .pf => 0
  | .vf n => n.val + 1

/-- The view of a function number. -/
def View.ofKey (k : Nat) : View := if h : 0 < k ∧ k < 17 then .vf ⟨k - 1, by omega⟩ else .pf

/-- All seventeen views. -/
def View.all : List View := .pf :: (List.finRange 16).map View.vf

/-- The partition that a view belongs to. -/
def View.part : View → Option Nat
  | .pf => none
  | .vf n => some n.val

/-- The key of a page's header state in a view. -/
def hkey (v : View) (p : Page) : Nat := p.key * 32 + v.key

/-- A view as a partition's number, if it is one. -/
def viewOf (part : Nat) : View := View.ofKey (part + 1)

/-- The block is shared among partitions (R79) or absent from VF views. -/
def Page.shared (p : Page) : Bool :=
  match p.blk with
  | .devc | .part | .hbmc | .tier | .flsh | .lend | .ethp | .fabt | .tokx | .deco | .pwrc | .errm
  | .pcie | .secc | .side | .mgmt => true
  | .isle => 0x120 ≤ p.inst
  | .mvec | .clst | .opte | .nwch | .rede | .core | .ring | .dmae | .strm => false

/-- Vectors of a function (R543). -/
def View.vectors : View → Nat
  | .pf => 2048
  | .vf _ => 64

/-- A page's offset in PF BAR0 in the reference placement (R78). -/
def Page.pfBase (p : Page) : Nat :=
  let win (c : Nat) : Nat := 0x100000 + c * 0x100000
  match p.blk with
  | .devc => 0x10000 | .part => 0x11000 | .mvec => 0x14000 + p.inst * 0x1000 | .clst => win p.inst
  | .opte => win p.inst + 0x1000 | .nwch => win p.inst + 0x2000 | .rede => win p.inst + 0x3000
  | .core => win (p.inst / 17) + 0x10000 + p.inst % 17 * 0x1000
  | .isle => if p.inst < 272 then win (p.inst / 17) + 0x30000 + p.inst % 17 * 0x1000
             else if p.inst < 0x120 then win (p.inst - 0x110) + 0x4000 else 0x2410000 + (p.inst - 0x120) * 0x1000
  | .hbmc => 0x2000000 + p.inst * 0x1000 | .tier => 0x2008000 | .flsh => 0x2009000 | .lend => 0x200A000
  | .pcie => 0x2100000 | .ring => 0x2101000 + p.inst * 0x1000 | .dmae => 0x2120000 + p.inst * 0x1000
  | .ethp => 0x2200000 + p.inst * 0x1000 | .fabt => 0x2210000 | .tokx => 0x2211000 + p.inst * 0x1000
  | .strm => 0x2300000 + p.inst * 0x1000 | .deco => 0x2330000 + p.inst * 0x1000 | .pwrc => 0x2400000
  | .secc => 0x2500000 | .errm => 0x2501000 | .side => 0x2502000 | .mgmt => 0x2503000

/-- The die of a decode engine (R28). -/
def decoDie (e : Nat) : Nat := if e < 4 then e / 2 else Nat.min 3 (e - 2)

/-- The cluster that a page lies in. -/
def Page.cluster? (p : Page) : Option Nat :=
  match p.blk with
  | .core => some (p.inst / 17)
  | .clst | .opte | .nwch | .rede => some p.inst
  | .isle => if p.inst < 272 then some (p.inst / 17) else if p.inst < 0x120 then some (p.inst - 0x110) else none
  | .devc | .part | .mvec | .hbmc | .tier | .flsh | .lend | .pcie | .ring | .dmae | .ethp | .fabt | .tokx | .strm
  | .deco | .pwrc | .secc | .errm | .side | .mgmt => none

/-- The page belongs to a core: its own page or its island's. -/
def Page.ofCore (p : Page) : Bool := p.blk = .core || (p.blk = .isle && p.inst < 272)

/-- Where a page stands (R28, R70, R731): compute die 0 to 3, 4 the I/O die, 0xFF a stream context, whose die follows
its engine. -/
def Page.dieOf (p : Page) : Nat :=
  match p.cluster? with
  | some c => c / 4
  | none =>
    match p.blk with
    | .mvec | .tokx => p.inst
    | .isle => if p.inst < 0x124 then p.inst - 0x120 else if p.inst < 0x128 then 4
               else if p.inst < 0x130 then (p.inst - 0x128) / 2 else (p.inst - 0x130) / 3
    | .hbmc => p.inst / 2
    | .ethp => p.inst / 3
    | .deco => decoDie p.inst
    | .strm => 0xFF
    | .core | .clst | .opte | .nwch | .rede | .devc | .part | .tier | .flsh | .lend | .pcie | .ring | .dmae | .fabt
    | .pwrc | .secc | .errm | .side | .mgmt => 4

/-- Bytes from one page of a run to the next (R78); none for a block with one page. -/
def Page.stride (p : Page) : Nat :=
  match p.blk with
  | .clst | .opte | .nwch | .rede => 0x100000
  | .isle => if 272 ≤ p.inst ∧ p.inst < 0x120 then 0x100000 else 0x1000
  | .mvec | .core | .hbmc | .ring | .dmae | .ethp | .tokx | .strm | .deco => 0x1000
  | .devc | .part | .tier | .flsh | .lend | .pcie | .fabt | .pwrc | .secc | .errm | .side | .mgmt => 0

/-- Sub-ports are numbered 4 × port + sub-port. -/
def subKey (port sub : Nat) : Nat := 4 * port + sub
def SubId.key (s : SubId) : Nat := subKey s.port.val s.sub.val

/-- A sub-port by its number. -/
def SubId.ofKey (k : Nat) : SubId :=
  ⟨⟨k / 4 % 12, Nat.mod_lt _ (by decide)⟩, ⟨k % 4, Nat.mod_lt _ (by decide)⟩⟩

end Sys2Proof
end

