-- ==== Sys2Proof/WellFormed.lean ====
section
/-!
DEFINITION. Which commands are well formed: their numbers name something that every module has, and their byte strings
have the lengths that the spec's formats give. Every other operand is judged by the command's own meaning.
-/

namespace Sys2Proof

/-- An island's number is one of R42. -/
def isleOk (i : Nat) : Bool := (isleKind i).isSome

/-- Bytes of a view's BAR0 (R61). -/
def View.barSize : View → Nat
  | .pf => 0x10000000
  | .vf _ => 0x2000000

/-- A transport packet: its link is one of 1,024 (R507), its tag is 16 bytes (R509). -/
def Packet.ok (k : Packet) : Bool := k.link < 1024 && k.gcmTag.length == 16

/-- The bits of a DMA cause or address kind and the like are carried by their types; here are the checks that types do
not make. -/
def Instr.wf : Instr → Bool
  | .registerWrite v off size _ => off < v.barSize && (size == 1 || size == 2 || size == 4 || size == 8)
  | .counterLowRead _ p _ | .counter64Read _ p _ => p.valid
  | .rcRead _ p off _ => p.valid && off < 0x1000
  | .blkNegWrite _ p _ _ | .blkEvtWrite _ p _ _ _ | .blockEnable _ p _ | .blockReady p | .blockQuiesce _ p
  | .blockUnquiesce _ p | .blockDisable _ p | .blockDrained p | .blockReset _ p => p.valid
  | .errorDetect _ p _ _ => p.valid
  | .isleTimerLoRead _ i | .isleStateReq _ i _ | .islandDescentStart i | .islandDescentDone i | .islandAutoIdle i
  | .islandExitDone i | .sramSaveDone i | .sramRestoreDone i | .isleFreqWrite _ i _ | .freqChangeApply i => isleOk i
  | .sramScrubPass i _ _ => i < 272
  | .pfcFrame _ _ times => times.length == 8
  | .data k | .ctrl k | .ack k | .keepalive k | .hello k | .helloAck k | .fenced k => k.ok
  | .helloResend l | .keepaliveSend l => l < 1024
  | .scaleRoll _ e => e < 1024
  | _ => true

end Sys2Proof
end

