-- ==== Sys2Proof/Decode.lean ====
section
/-!
DEFINITION. The opcode table gives no row any bits, so no word spells a command.
-/

namespace Sys2Proof

/-- The rows of the table that give bits: none. -/
def bitRows : List (Nat × Nat × Instr) := []

/-- The command that a word of nbits bits spells by the table's bits. -/
def decodeTableWord (nbits w : Nat) : Option Instr :=
  (bitRows.find? fun r => r.1 == nbits && r.2.1 == w).map fun r => r.2.2

end Sys2Proof
end

