-- ==== Sys2Proof/Config.lean ====
section
/-!
DEFINITION. What the spec leaves open, as constants without a body: nothing in Lean can evaluate them or prove a
value of them. The first argument n of a free value is a counter that the step reads and advances (State.free), so
that each use is a fresh value. The cryptographic functions and the two media codecs are external standards that the
spec names and does not define; they too are constants without a body.
-/

namespace Sys2Proof.Config

/-- SHA-384 (FIPS 180), first output byte in the most significant byte. -/
opaque sha384 : List Byte → BitVec 384

/-- ECDSA over P-384 with SHA-384: a public key, a message, a signature r then s. -/
opaque ecdsaVerify : List Byte → List Byte → List Byte → Bool

/-- ECDSA over P-384 with SHA-384: signing with the device's key of the number given. -/
opaque ecdsaSign : Nat → List Byte → List Byte

/-- LMS (RFC 8554): a public key, a message, a signature of one tree. -/
opaque lmsVerify : List Byte → List Byte → List Byte → Bool

/-- AES-256-GCM opening: key, counter block, associated data, sealed text, tag. -/
opaque gcmOpen : List Byte → List Byte → List Byte → List Byte → List Byte → Option (List Byte)

/-- AES-256-GCM sealing: key, counter block, associated data, plain text; the sealed text and the tag. -/
opaque gcmSeal : List Byte → List Byte → List Byte → List Byte → List Byte × List Byte

/-- What a media decoder finds in a picture's headers: whether decoding can start there (IRAP, or a JPEG picture),
whether the formats of R587 cover it, its coded size. -/
structure PicInfo where
  irap : Bool
  supported : Bool
  width : Nat
  height : Nat
  deriving DecidableEq, Repr, Inhabited

/-- A picture that leaves a decoder: which picture of the stream it is, its size, 10-bit samples, how many luma samples
a chroma sample spans each way, one component only, and its planes row by row. -/
structure Decoded where
  index : Nat
  width : Nat
  height : Nat
  ten : Bool
  subX : Nat
  subY : Nat
  mono : Bool
  luma : List Nat
  cb : List Nat
  cr : List Nat
  deriving DecidableEq, Repr, Inhabited

/-- The headers of a picture (ITU-T T.81, RFC 2435, H.265): codec, transport, earlier pictures, the picture. -/
opaque pictureInfo : Nat → Nat → List (List Byte) → List Byte → PicInfo

/-- The decoding of a picture: codec, transport, earlier pictures, the picture; none where it holds a bitstream error,
else the pictures that leave in output order, their index counting the earlier pictures and then this one. -/
opaque decodePicture : Nat → Nat → List (List Byte) → List Byte → Option (List Decoded)

/-- The FP32 candidate of a vector operation of class V2 or V3 (R171): use n, opcode, operands, element. -/
opaque vecResult : Nat → Nat → Word → Word → Nat → Word

/-- A free bit string: use n, what it is for, its width. -/
opaque freeBits : Nat → Nat → (w : Nat) → BitVec w

/-- A free number: use n, what it is for. -/
opaque freeNat : Nat → Nat → Nat

/-- A free Bool: use n, what it is for. -/
opaque freeBool : Nat → Nat → Bool

/-- The device serial, 16 bytes from fuses (COMMIT_SERIALn). -/
opaque serial : BitVec 128

/-- The device's permanent I3C provisioned identifier and the like, from fuses. -/
opaque fuseBits : Nat → (w : Nat) → BitVec w


/-- The certificate chain of SPDM slot 0 (R671), for the images that run. -/
opaque certChain : List Byte → List Byte

/-- The tick that a local timer reads after n nominal ticks, before it is brought within ±0.5 % (R48): island. -/
opaque timerRate : Nat → Nat → Nat

end Sys2Proof.Config
end

