-- ==== Sys2Proof/Machine/Bytes.lean ====
section
/-!
DEFINITION. Little-endian fields of byte strings (R16), and bit fields of words (R15).
-/

namespace Sys2Proof

/-- Bits h down to l of a number (R15). -/
def bits (w : Nat) (h l : Nat) : Nat := (w >>> l) % 2 ^ (h + 1 - l)

/-- Bit n of a number. -/
def bit (w : Nat) (n : Nat) : Bool := w.testBit n

/-- A Bool as a bit. -/
def b2n (b : Bool) : Nat := if b then 1 else 0

/-- The number of bits set among the low n bits. -/
def popCount (w : Nat) : Nat → Nat
  | 0 => 0
  | n + 1 => b2n (w.testBit n) + popCount w n

/-- The numbers below n whose bit is set, in ascending order. -/
def bitsSet (w n : Nat) : List Nat := (List.range n).filter (fun i => w.testBit i)

/-- The number that a little-endian byte string spells. -/
def leNat : List Byte → Nat
  | [] => 0
  | b :: bs => b.toNat + 256 * leNat bs

/-- n bytes of a number, least significant first. -/
def leBytes : Nat → Nat → List Byte
  | 0, _ => []
  | n + 1, v => BitVec.ofNat 8 v :: leBytes n (v / 256)

/-- The number that a big-endian byte string spells. -/
def beNat (bs : List Byte) : Nat := bs.foldl (fun a b => a * 256 + b.toNat) 0

/-- n bytes of a number, most significant first. -/
def beBytes (n v : Nat) : List Byte := (leBytes n v).reverse

/-- The little-endian field of n bytes at an offset; bytes beyond the end read as zero. -/
def fld (bs : List Byte) (off n : Nat) : Nat := leNat ((bs.drop off).take n)

/-- The big-endian field of n bytes at an offset. -/
def fldBE (bs : List Byte) (off n : Nat) : Nat := beNat ((bs.drop off).take n)

/-- Bytes [off, off + n) are all zero. -/
def zeros (bs : List Byte) (off n : Nat) : Bool := ((bs.drop off).take n).all (· == 0#8)

/-- n zero bytes. -/
def zbytes (n : Nat) : List Byte := List.replicate n 0#8

/-- Pad or cut to n bytes. -/
def padTo (n : Nat) (bs : List Byte) : List Byte := (bs ++ zbytes n).take n

/-- Replace the bytes at an offset. -/
def splice (bs : List Byte) (off : Nat) (new : List Byte) : List Byte :=
  bs.take off ++ new ++ bs.drop (off + new.length)

/-- Ceiling division. -/
def cdiv (a b : Nat) : Nat := (a + b - 1) / b

/-- Cut a list into pieces of n. -/
def chunksOf {α : Type} (n : Nat) (fuel : Nat) (l : List α) : List (List α) :=
  match fuel with
  | 0 => []
  | f + 1 => if l.isEmpty then [] else l.take n :: chunksOf n f (l.drop n)

end Sys2Proof
end

