-- ==== Sys2Proof/Machine/NumFmt.lean ====
section
/-!
DEFINITION. Number formats (R139–R164): values, element encodings, block and tensor scales, and the conversions
with their overflows. A value is exact: a sign, a whole number and a power of two.
-/

namespace Sys2Proof

/-- What an encoding stands for. fin holds sign, significand (not zero) and exponent: (−1)^s × m × 2^e. -/
inductive Val where
  | nan
  | inf (neg : Bool)
  | zero (neg : Bool)
  | fin (neg : Bool) (m : Nat) (e : Int)
  deriving DecidableEq, Repr

namespace Val

/-- The sign, for every value but NaN. -/
def isNeg : Val → Bool
  | nan => false
  | inf s | zero s | fin s _ _ => s

/-- A value that is neither infinite nor NaN. -/
def finite : Val → Bool
  | zero _ | fin _ _ _ => true
  | _ => false

/-- Sign and whole number over a power of two, zero being +0. -/
def ofInt (i : Int) (e : Int) : Val := if i = 0 then zero false else fin (i < 0) i.natAbs e

/-- The signed significand. -/
def sig : Val → Int
  | fin s m _ => if s then -(m : Int) else m
  | _ => 0

/-- The exponent. -/
def exp : Val → Int
  | fin _ _ e => e
  | _ => 0

/-- −x. -/
def neg : Val → Val
  | nan => nan
  | inf s => inf (!s)
  | zero s => zero (!s)
  | fin s m e => fin (!s) m e

/-- |x|. -/
def abs : Val → Val
  | nan => nan
  | inf _ => inf false
  | zero _ => zero false
  | fin _ m e => fin false m e

/-- x × 2^k. -/
def scale (k : Int) : Val → Val
  | fin s m e => fin s m (e + k)
  | v => v

/-- The exact sum (R153, R157). -/
def add : Val → Val → Val
  | nan, _ | _, nan => nan
  | inf s, inf t => if s = t then inf s else nan
  | inf s, _ => inf s
  | _, inf t => inf t
  | zero s, zero t => zero (s && t)
  | zero _, v => v
  | v, zero _ => v
  | fin s m e, fin t n f =>
    let g := min e f
    let a : Int := ((fin s m e).sig) * 2 ^ (e - g).toNat
    let b : Int := ((fin t n f).sig) * 2 ^ (f - g).toNat
    ofInt (a + b) g

/-- The exact product (R153). -/
def mul : Val → Val → Val
  | nan, _ | _, nan => nan
  | inf _, zero _ | zero _, inf _ => nan
  | inf s, v => inf (xor s v.isNeg)
  | v, inf s => inf (xor s v.isNeg)
  | zero s, v => zero (xor s v.isNeg)
  | v, zero s => zero (xor s v.isNeg)
  | fin s m e, fin t n f => fin (xor s t) (m * n) (e + f)

/-- x < y, with no operand NaN; −0 equals +0. -/
def lt (x y : Val) : Bool :=
  match x, y with
  | nan, _ | _, nan => false
  | inf s, inf t => s && !t
  | inf s, _ => s
  | _, inf t => !t
  | _, _ => (add x (neg y)).isNeg && (match add x (neg y) with | fin _ _ _ => true | _ => false)

/-- x = y in value; NaN equals nothing. -/
def eqv (x y : Val) : Bool :=
  match x, y with
  | nan, _ | _, nan => false
  | _, _ => !lt x y && !lt y x

/-- min and max under R157: −0 below +0; NaN gives NaN. -/
def minV (x y : Val) : Val :=
  match x, y with
  | nan, _ | _, nan => nan
  | zero s, zero t => zero (s || t)
  | _, _ => if lt y x then y else x

def maxV (x y : Val) : Val :=
  match x, y with
  | nan, _ | _, nan => nan
  | zero s, zero t => zero (s && t)
  | _, _ => if lt x y then y else x

/-- ⌊log₂ |x|⌋ of a finite value that is not zero. -/
def log2 : Val → Int
  | fin _ m e => (Nat.log2 m : Int) + e
  | _ => 0

end Val

/-- Round m × 2^e to p significant bits, ties to even, the exponent unbounded (R159, R160 step 1). -/
def rne (p m : Nat) (e : Int) : Nat × Int :=
  let n := Nat.log2 m + 1
  if n ≤ p then (m, e)
  else
    let s := n - p
    let q := m >>> s
    let r := m % 2 ^ s
    let h := 2 ^ (s - 1)
    (if h < r ∨ (r = h ∧ q % 2 = 1) then q + 1 else q, e + s)

/-- A floating format (R142): exponent and mantissa field widths, bias, and which encodings are special. -/
structure FloatFmt where
  eBits : Nat
  mBits : Nat
  bias : Nat
  /-- e at its maximum is infinity and NaN. -/
  ieee : Bool
  /-- Only the all-ones encoding is NaN. -/
  nanTop : Bool
  deriving DecidableEq, Repr

namespace FloatFmt

def fp32 : FloatFmt := ⟨8, 23, 127, true, false⟩
def bf16 : FloatFmt := ⟨8, 7, 127, true, false⟩
def fp16 : FloatFmt := ⟨5, 10, 15, true, false⟩
def e4m3 : FloatFmt := ⟨4, 3, 7, false, true⟩
def e5m2 : FloatFmt := ⟨5, 2, 15, true, false⟩
def e3m2 : FloatFmt := ⟨3, 2, 3, false, false⟩
def e2m3 : FloatFmt := ⟨2, 3, 1, false, false⟩
def e2m1 : FloatFmt := ⟨2, 1, 1, false, false⟩

/-- Width of an encoding in bits. -/
def width (f : FloatFmt) : Nat := 1 + f.eBits + f.mBits

/-- The largest exponent of a normal number. -/
def emax (f : FloatFmt) : Int := (2 ^ f.eBits - 1 : Nat) - (if f.ieee then 1 else 0) - f.bias

/-- The exponent of the smallest normal number. -/
def emin (f : FloatFmt) : Int := 1 - (f.bias : Int)

/-- The largest significand (of mBits + 1 bits) at the largest exponent. -/
def topSig (f : FloatFmt) : Nat := 2 ^ (f.mBits + 1) - (if f.nanTop then 2 else 1)

/-- The value of an encoding, subnormals read as zero (R142, R152). -/
def decode (f : FloatFmt) (w : Nat) : Val :=
  let s := w.testBit (f.eBits + f.mBits)
  let e := (w >>> f.mBits) % 2 ^ f.eBits
  let m := w % 2 ^ f.mBits
  if e = 0 then .zero s
  else if f.ieee ∧ e = 2 ^ f.eBits - 1 then (if m = 0 then .inf s else .nan)
  else if f.nanTop ∧ e = 2 ^ f.eBits - 1 ∧ m = 2 ^ f.mBits - 1 then .nan
  else .fin s (2 ^ f.mBits + m) ((e : Int) - f.bias - f.mBits)

/-- The sign bit in place. -/
def signBit (f : FloatFmt) (s : Bool) : Nat := if s then 2 ^ (f.eBits + f.mBits) else 0

/-- The canonical NaN (R154). -/
def nanBits (f : FloatFmt) : Nat :=
  if f.ieee then
    (2 ^ f.eBits - 1) * 2 ^ f.mBits + 2 ^ (f.mBits - 1)
  else 2 ^ (f.eBits + f.mBits) - 1

/-- Infinity. -/
def infBits (f : FloatFmt) (s : Bool) : Nat := f.signBit s + (2 ^ f.eBits - 1) * 2 ^ f.mBits

end FloatFmt

/-- What a conversion counts (R155). -/
structure OvfCnt where
  inf : Nat
  nan : Nat
  blk : Nat
  deriving DecidableEq, Repr

namespace OvfCnt
def none : OvfCnt := ⟨0, 0, 0⟩
def add (a b : OvfCnt) : OvfCnt := ⟨a.inf + b.inf, a.nan + b.nan, a.blk + b.blk⟩
end OvfCnt

/-- The outcome of converting one element: its bits, and whether it overflowed or was an infinity without a form. -/
structure Elem where
  bits : Nat
  ovf : Bool
  deriving DecidableEq, Repr

/-- R160 and R155: a value to a floating format. ovf is set for an overflow of R155 and for an infinity that E4M3
turns into NaN. Formats with neither infinity nor NaN answer ovf with zero bits. -/
def FloatFmt.conv (f : FloatFmt) (v : Val) : Elem :=
  match v with
  | .nan => ⟨f.nanBits, false⟩
  | .inf s => if f.ieee then ⟨f.infBits s, false⟩ else ⟨if f.nanTop then f.nanBits else 0, true⟩
  | .zero s => ⟨f.signBit s, false⟩
  | .fin s m e =>
    let (q, g) := rne (f.mBits + 1) m e
    let x : Int := (Nat.log2 q : Int) + g
    let sg := q <<< (f.mBits - Nat.log2 q)
    if f.emax < x ∨ (x = f.emax ∧ f.topSig < (if Nat.log2 q ≤ f.mBits then sg else 2 ^ f.mBits)) then
      ⟨if f.ieee then f.infBits s else if f.nanTop then f.nanBits else 0, true⟩
    else if x < f.emin then ⟨f.signBit s, false⟩
    else
      let frac := (if Nat.log2 q ≤ f.mBits then sg else 2 ^ f.mBits) - 2 ^ f.mBits
      ⟨f.signBit s + (x + f.bias).toNat * 2 ^ f.mBits + frac, false⟩

/-- The FP32 word of a value, under R160. -/
def f32 (v : Val) : Word := BitVec.ofNat 32 (FloatFmt.fp32.conv v).bits

/-- The value of an FP32 word. -/
def vOf (w : Word) : Val := FloatFmt.fp32.decode w.toNat

/-- R169: one step of a running sum. -/
def fadd (a b : Word) : Word := f32 ((vOf a).add (vOf b))

/-- An FP32 multiplication, one rounding. -/
def fmul (a b : Word) : Word := f32 ((vOf a).mul (vOf b))

/-- FP32 fused multiply-add, one rounding. -/
def ffma (a b c : Word) : Word := f32 (((vOf a).mul (vOf b)).add (vOf c))

/-! ### Format codes (R139) -/

/-- The floating encoding of an element of a format code; none for MXINT8 and reserved codes. -/
def elemFmt : Nat → Option FloatFmt
  | 0 => some .fp32
  | 1 => some .bf16
  | 2 => some .fp16
  | 3 | 5 => some .e4m3
  | 4 | 6 => some .e5m2
  | 7 => some .e3m2
  | 8 => some .e2m3
  | 9 => some .e2m1
  | _ => none

/-- The codes of R139 that are not reserved. -/
def fmtKnown (c : Nat) : Bool := c ≤ 0xA
def fmtArrayIn (c : Nat) : Bool := 1 ≤ c && c ≤ 0xA
def fmtVecIn (c : Nat) : Bool := c ≤ 2
def fmtMx (c : Nat) : Bool := 5 ≤ c && c ≤ 0xA
def fmtTensor (c : Nat) : Bool := c == 3 || c == 4

/-- Element bits (R139). -/
def fmtBits : Nat → Nat
  | 0 => 32
  | 1 | 2 => 16
  | 7 | 8 => 6
  | 9 => 4
  | _ => 8

/-- Depth d of an operand's class (R176). -/
def fmtDepth : Nat → Nat
  | 1 | 2 => 4
  | 9 => 16
  | _ => 8

/-- The number of elements stored in a row of n: MX rows are padded to blocks of 32 (R149). -/
def rowElems (c n : Nat) : Nat := if fmtMx c then cdiv n 32 * 32 else n

/-- The element bytes of a row of n elements (R144, R148). -/
def rowBytes (c n : Nat) : Nat := rowElems c n * fmtBits c / 8

/-- A row's pitch (R247). -/
def pitch32 (bytes : Nat) : Nat := cdiv bytes 32 * 32
def rowPitch (c n : Nat) : Nat := pitch32 (rowBytes c n)

/-- The element of index i in a row's bytes, as bits (R144, R148). -/
def elemBits (c i : Nat) (row : List Byte) : Nat :=
  match fmtBits c with
  | 32 => fld row (4 * i) 4
  | 16 => fld row (2 * i) 2
  | 6 => (fld row (3 * (i / 4)) 3 >>> (6 * (i % 4))) % 64
  | 4 => (fld row (i / 2) 1 >>> (4 * (i % 2))) % 16
  | _ => fld row i 1

/-- The value of an element before its scale (R142, R143, R152). -/
def elemVal (c b : Nat) : Val :=
  match elemFmt c with
  | some f => f.decode b
  | none =>
    let n : Int := if b < 128 then b else (b : Int) - 256
    Val.ofInt n (-6)

/-- The element under its MX scale byte (R147); formats without a block scale ignore it. -/
def scaledVal (c b s : Nat) : Val :=
  if fmtMx c then (if s = 0xFF then .nan else (elemVal c b).scale ((s : Int) - 127)) else elemVal c b

/-- R164: into FP32. -/
def toF32 (c b s : Nat) : Word := f32 (scaledVal c b s)

/-- The values of a row of n elements: element bytes and, for MX, one scale byte a block. -/
def decodeRow (c n : Nat) (row scales : List Byte) : List Val :=
  (List.range n).map fun i => scaledVal c (elemBits c i row) ((scales.getD (i / 32) 0#8).toNat)

/-- Pack element bits into bytes (R144, R148). -/
def packElems (c : Nat) (es : List Nat) : List Byte :=
  match fmtBits c with
  | 32 => es.flatMap (leBytes 4)
  | 16 => es.flatMap (leBytes 2)
  | 6 => (chunksOf 4 es.length es).flatMap fun q =>
      leBytes 3 (q.getD 0 0 + q.getD 1 0 * 64 + q.getD 2 0 * 4096 + q.getD 3 0 * 262144)
  | 4 => (chunksOf 2 es.length es).flatMap fun q => leBytes 1 (q.getD 0 0 + q.getD 1 0 * 16)
  | _ => es.flatMap (leBytes 1)

/-- An element of MXINT8 under block exponent x (R161): the integer and whether it overflows. -/
def convInt8 (v : Val) (x : Int) : Elem :=
  match v with
  | .fin s m e =>
    let k := e + 6 - x
    let q := if 0 ≤ k then m * 2 ^ k.toNat
      else
        let d := 2 ^ (-k).toNat
        let r := m % d
        if d < 2 * r ∨ (2 * r = d ∧ m / d % 2 = 1) then m / d + 1 else m / d
    if 127 < q then ⟨0, true⟩ else ⟨if s then (256 - q) % 256 else q, false⟩
  | _ => ⟨0, false⟩

/-- convert(v, f, x) of R162: an element under block exponent x. -/
def convElem (c : Nat) (v : Val) (x : Int) : Elem :=
  match elemFmt c with
  | some f => f.conv (v.scale (-x))
  | none => convInt8 v x

/-- A value on its way to an output, and whether it became infinite on the way (R724). -/
structure Outgoing where
  v : Val
  ovf : Bool
  deriving DecidableEq, Repr

/-- emax(f) of R162. -/
def mxEmax : Nat → Int
  | 5 => 8
  | 6 => 15
  | 7 => 4
  | 8 | 9 => 2
  | _ => 0

/-- The element format has neither infinity nor NaN (R155, R162). -/
def mxPlain (c : Nat) : Bool := 7 ≤ c && c ≤ 0xA

/-- The count of one overflowing element in an unscaled or MXFP8 format (R155). -/
def ovfOf (c : Nat) : OvfCnt := if c = 3 ∨ c = 5 then ⟨0, 1, 0⟩ else ⟨1, 0, 0⟩

/-- One value into an unblocked format (codes 0–4), R160 and R724. -/
def convPlain (c : Nat) (o : Outgoing) : Nat × OvfCnt :=
  match elemFmt c with
  | some f =>
    let e := f.conv o.v
    (e.bits, if e.ovf || o.ovf then ovfOf c else .none)
  | none => (0, .none)

/-- The larger magnitude of two. -/
def maxAbs (a : Val) (v : Val) : Val := if v.finite then Val.maxV a v.abs else a

/-- The block exponent of R162. -/
def mxExponent (c : Nat) (vs : List Val) : Int :=
  match vs.foldl maxAbs (.zero false) with
  | .fin s m e =>
    let x := Val.log2 (.fin s m e) - mxEmax c
    let x := if (convElem c (.fin s m e) x).ovf then x + 1 else x
    if x < -127 then -127 else x
  | _ => -127

/-- A block that reads as NaN: scale 0xFF and zero element bits. -/
def nanBlock (n : Nat) : List Nat × Nat × OvfCnt := (List.replicate n 0, 0xFF, ⟨0, 0, 1⟩)

/-- Elements of one block under a block exponent that is settled. -/
def blockElems (c : Nat) (os : List Outgoing) (x : Int) : List Nat × OvfCnt :=
  let es := os.map fun o => let e := convElem c o.v x; (e.bits, e.ovf || o.ovf)
  (es.map (·.1), (es.filter (·.2)).foldl (fun a _ => a.add (ovfOf c)) .none)

/-- One MX block of 32 values, with a computed (R162) or a supplied scale (R163): elements, scale byte, counts. -/
def convBlock (c : Nat) (os : List Outgoing) (supplied : Option Nat) : List Nat × Nat × OvfCnt :=
  let n := os.length
  let bad := os.any fun o => !o.v.finite
  match supplied with
  | some s =>
    if s = 0xFF then nanBlock n
    else if mxPlain c && bad then nanBlock n
    else
      let x := (s : Int) - 127
      if mxPlain c && os.any (fun o => (convElem c o.v x).ovf) then nanBlock n
      else let (es, k) := blockElems c os x; (es, s, k)
  | none =>
    if mxPlain c && bad then nanBlock n
    else
      let x := mxExponent c (os.map (·.v))
      if 127 < x then nanBlock n
      else if mxPlain c && os.any (fun o => (convElem c o.v x).ovf) then nanBlock n
      else let (es, k) := blockElems c os x; (es, (x + 127).toNat, k)

/-- A row of outgoing values to element bytes and scale bytes of a format (R149 pads MX rows with zeros). -/
def encodeRow (c : Nat) (os : List Outgoing) (supplied : Option Nat) : List Byte × List Byte × OvfCnt :=
  if fmtMx c then
    let pad := os ++ List.replicate (rowElems c os.length - os.length) ⟨.zero false, false⟩
    let bs := (chunksOf 32 pad.length pad).map fun b => convBlock c b supplied
    (packElems c (bs.flatMap (·.1)), bs.map (fun b => BitVec.ofNat 8 b.2.1), bs.foldl (fun a b => a.add b.2.2) .none)
  else
    let es := os.map (convPlain c)
    (packElems c (es.map (·.1)), [], es.foldl (fun a e => a.add e.2) .none)

end Sys2Proof
end

