-- ==== Sys2Proof/Machine/Arith.lean ====
section
/-!
DEFINITION. Vector arithmetic by element (R244, R245, R171). Class V1 is exact with one rounding. Classes V2 and V3
promise a bound and no bits: the result is a candidate that nothing constrains, taken where it lies within the bound
of R171 about a close enclosure of the exact result, and the rounding of that enclosure elsewhere. Enclosures are
fixed-point numbers with 400 fraction bits, so their own error (below 2^-380 absolute, or relative where a power of
two is split off) is far inside the slack of 2^-60 that the acceptance test adds.
-/

namespace Sys2Proof

/-- Fraction bits of the fixed-point enclosures. -/
def fxBits : Nat := 400
def fxOne : Int := 2 ^ 400

/-- ⌊ln 2 × 2^400⌋. -/
def fxLn2 : Int := 1789879222497203190815761498240779176894896805856420935579692301363062920687047601279850318367644315849030039181347319086

/-- ⌊(2π)^(−1/2) × 2^400⌋. -/
def fxInvSqrt2Pi : Int := 1030168654930312834579443762448291520423692007902432556621662294693524574739340080541057368303018433395121189280430287636

/-- A finite value as a fixed-point number; exact for every FP32 value. -/
def fxOf (v : Val) : Int :=
  let k := v.exp + (fxBits : Int)
  if 0 ≤ k then v.sig * 2 ^ k.toNat else v.sig / 2 ^ (-k).toNat

/-- A fixed-point number times 2^k as a value. -/
def fxVal (i k : Int) : Val := Val.ofInt i (k - (fxBits : Int))

/-- Fixed-point product. -/
def fxMul (a b : Int) : Int := a * b / fxOne

/-- The terms of Σ rⁿ/n! from a term on. -/
def fxExpTerms (r : Int) : Nat → Int → Int → Int
  | 0, _, acc => acc
  | fuel + 1, t, acc =>
    let n : Int := (120 - fuel : Nat)
    let t := fxMul t r / n
    if t = 0 then acc else fxExpTerms r fuel t (acc + t)

/-- e^r for r in [0, ln 2). -/
def fxExp (r : Int) : Int := fxExpTerms r 120 fxOne fxOne

/-- e^x for a fixed-point x, as a fixed-point number and the power of two split off. -/
def fxExpSplit (x : Int) : Int × Int :=
  let k := x / fxLn2
  (fxExp (x - k * fxLn2), k)

/-- Σ t^(2n+1)/(2n+1) for small t. -/
def fxAtanhTerms (t2 : Int) : Nat → Int → Int → Int
  | 0, _, acc => acc
  | fuel + 1, t, acc =>
    let n : Int := (2 * (199 - fuel) + 1 : Nat)
    let t := fxMul t t2
    fxAtanhTerms t2 fuel t (acc + t / n)

/-- ln of a positive value. -/
def fxLog (m : Nat) (e : Int) : Int :=
  let l := Nat.log2 m
  let z : Int := ((m : Int) * fxOne) / 2 ^ l
  let t := (z - fxOne) * fxOne / (z + fxOne)
  2 * fxAtanhTerms (fxMul t t) 199 t t + ((l : Int) + e) * fxLn2

/-- Σ (−1)ⁿ x^(2n+1) / (2ⁿ n! (2n+1)). -/
def fxErfTerms (x2 : Int) : Nat → Nat → Int → Int → Int
  | 0, _, _, acc => acc
  | fuel + 1, n, t, acc =>
    let t := -(fxMul t x2) / (2 * ((n : Int) + 1))
    fxErfTerms x2 fuel (n + 1) t (acc + t / (2 * (n : Int) + 3))

/-- Φ(x), the standard normal distribution function, for |x| below 15. -/
def fxPhi (x : Int) : Int := fxOne / 2 + fxMul fxInvSqrt2Pi (fxErfTerms (fxMul x x) 700 0 x x)

/-- Integer square root by bits, from bit k down. -/
def isqrtFrom (n : Nat) : Nat → Nat → Nat
  | 0, r => r
  | k + 1, r => let c := r + 2 ^ k; isqrtFrom n k (if c * c ≤ n then c else r)

/-- ⌊√n⌋. -/
def isqrt (n : Nat) : Nat := isqrtFrom n (Nat.log2 n / 2 + 1) 0

/-- m × 2^e over n × 2^f, to 64 bits and more, rounded down. -/
def quotVal (s : Bool) (m : Nat) (e : Int) (n : Nat) (f : Int) : Val :=
  let k := 64 + Nat.log2 n
  .fin s (m * 2 ^ k / n * 2 + 1) (e - f - k - 1)

/-- √(m × 2^e) to 64 bits and more, rounded down. -/
def sqrtVal (m : Nat) (e : Int) : Val :=
  let e2 := e / 2
  let m2 := if e % 2 = 0 then m else 2 * m
  .fin false (isqrt (m2 * 2 ^ 160) * 2 + 1) (e2 - 81)

/-- The exact result of a V2 or V3 operation, closely enclosed; none where the spec states no result (a division
by zero of a finite number that is not zero, the logarithm of zero). -/
def encl (op : Nat) (a b : Val) : Option Val :=
  match op, a, b with
  | 0x50, .nan, _ => some .nan
  | 0x50, .inf s, _ => some (.zero s)
  | 0x50, .zero _, _ => none
  | 0x50, .fin s m e, _ => some (quotVal s 1 0 m e)
  | 0x51, .nan, _ | 0x51, _, .nan => some .nan
  | 0x51, .inf _, .inf _ | 0x51, .zero _, .zero _ => some .nan
  | 0x51, .inf s, b => some (.inf (xor s b.isNeg))
  | 0x51, a, .inf t => some (.zero (xor a.isNeg t))
  | 0x51, .zero s, b => some (.zero (xor s b.isNeg))
  | 0x51, .fin _ _ _, .zero _ => none
  | 0x51, .fin s m e, .fin t n f => some (quotVal (xor s t) m e n f)
  | 0x52, .zero s, _ => some (.zero s)
  | 0x52, .inf false, _ => some (.inf false)
  | 0x52, .fin false m e, _ => some (sqrtVal m e)
  | 0x52, _, _ => some .nan
  | 0x53, .zero _, _ => none
  | 0x53, .inf false, _ => some (.zero false)
  | 0x53, .fin false m e, _ =>
    match sqrtVal m e with
    | .fin _ r g => some (quotVal false 1 0 r g)
    | _ => some .nan
  | 0x53, _, _ => some .nan
  | 0x58, .inf s, _ | 0x59, .inf s, _ => some (if s then .zero false else .inf false)
  | 0x58, .zero _, _ | 0x59, .zero _, _ => some (.fin false 1 0)
  | 0x58, .fin s m e, _ => let (r, k) := fxExpSplit (fxOf (.fin s m e)); some (fxVal r k)
  | 0x59, .fin s m e, _ =>
    let x := fxOf (.fin s m e)
    let k := x / fxOne
    some (fxVal (fxExp (fxMul (x - k * fxOne) fxLn2)) k)
  | 0x5A, .inf s, _ => some (.fin s 1 0)
  | 0x5A, .zero s, _ => some (.zero s)
  | 0x5A, .fin s m e, _ =>
    if 100 ≤ (Nat.log2 m : Int) + e + 90 then some (.fin s 1 0)
    else
      let (r, k) := fxExpSplit (2 * fxOf (.fin false m e))
      let y := r * 2 ^ k.toNat
      some (fxVal (let q := (y - fxOne) * fxOne / (y + fxOne); if s then -q else q) 0)
  | 0x5B, .inf s, _ => some (if s then .zero false else .fin false 1 0)
  | 0x5B, .zero _, _ => some (.fin false 1 (-1))
  | 0x5B, .fin s m e, _ =>
    if 100 ≤ (Nat.log2 m : Int) + e + 90 then some (if s then .zero false else .fin false 1 0)
    else
      let (r, k) := fxExpSplit (fxOf (.fin true m e))
      let y := if 0 ≤ k then r * 2 ^ k.toNat else r / 2 ^ (-k).toNat
      let q := fxOne * fxOne / (fxOne + y)
      some (fxVal (if s then fxOne - q else q) 0)
  | 0x5C, .inf s, _ => some (if s then .zero true else .inf false)
  | 0x5C, .zero s, _ => some (.zero s)
  | 0x5C, .fin s m e, _ =>
    if Val.lt (.fin false 15 0) (.fin false m e) then some (if s then .zero true else .fin s m e)
    else let x := fxOf (.fin s m e); some (fxVal (fxMul x (fxPhi x)) 0)
  | 0x5D, .zero _, _ | 0x5E, .zero _, _ => none
  | 0x5D, .inf false, _ | 0x5E, .inf false, _ => some (.inf false)
  | 0x5D, .fin false m e, _ => some (fxVal (fxLog m e) 0)
  | 0x5E, .fin false m e, _ => some (fxVal (fxLog m e * fxOne / fxLn2) 0)
  | _, _, _ => some .nan

/-- The bound of R171 about an enclosure, with the slack of the enclosure. -/
def enclBound (op : Nat) (a : Val) : Val :=
  let r (k : Int) := (a.abs.scale (-k)).add (a.abs.scale (-60))
  if op ≤ 0x53 then Val.maxV (r 23) (.fin false 1 (-126))
  else if op ≤ 0x5C then (r 21).add (.fin false 1 (-126))
  else (r 21).add (.fin false 1 (-24))

/-- An FP32 result and whether it overflowed at the FP32 stage (R724). -/
structure Res where
  v : Val
  ovf : Bool
  deriving DecidableEq, Repr

/-- A value rounded into FP32. -/
def roundRes (v : Val) : Res := let e := FloatFmt.fp32.conv v; ⟨FloatFmt.fp32.decode e.bits, e.ovf⟩

/-- Classes V2 and V3: the candidate where R171 admits it, else the rounded enclosure; a candidate that nothing
constrains where the spec states no result. -/
def transc (n op i : Nat) (a b : Word) : Res :=
  let c := vOf (Config.vecResult n op a b i)
  match encl op (vOf a) (vOf b) with
  | none => ⟨c, false⟩
  | some (.fin s m e) =>
    let x : Int := (Nat.log2 m : Int) + e
    let r := roundRes (.fin s m e)
    if r.ovf || 127 < x then r
    else
      let t : Val := if x < -300 then .zero s else .fin s m e
      let d := c.add t.neg
      if c.finite && !Val.lt (enclBound op t) d.abs then ⟨c, false⟩
      else roundRes t
  | some v => roundRes v

/-- One element of a vector operation that has no row (R244, R245): opcode, sources, the immediate of FILL. -/
def vecElem (n op i : Nat) (a b c : Word) : Res :=
  let x := vOf a; let y := vOf b
  match op with
  | 0x40 => roundRes (x.add y)
  | 0x41 => roundRes (x.add y.neg)
  | 0x42 => roundRes (x.mul y)
  | 0x43 => roundRes ((x.mul y).add (vOf c))
  | 0x44 => ⟨x.neg, false⟩
  | 0x45 => ⟨x.abs, false⟩
  | 0x46 => ⟨Val.minV x y, false⟩
  | 0x47 => ⟨Val.maxV x y, false⟩
  | 0x48 => ⟨if Val.eqv x y then .fin false 1 0 else .zero false, false⟩
  | 0x49 => ⟨if Val.lt x y then .fin false 1 0 else .zero false, false⟩
  | 0x4A => ⟨if Val.lt x y || Val.eqv x y then .fin false 1 0 else .zero false, false⟩
  | 0x4B | 0x4C => ⟨x, false⟩
  | _ => transc n op i a b

/-- Whether a step s + p became infinite from finite operands. -/
def sumOvf (s p : Val) : Bool := s.finite && p.finite && (FloatFmt.fp32.conv (s.add p)).ovf

/-- ROWSUM of a row: ascending index order, fresh start (R167), and whether the sum overflowed. -/
def rowSum : List Word → Res
  | [] => ⟨.zero false, false⟩
  | w :: ws =>
    let r := ws.foldl (fun (a : Val × Bool) p =>
      (vOf (f32 (a.1.add (vOf p))), a.2 || sumOvf a.1 (vOf p))) (vOf w, false)
    ⟨r.1, r.2⟩

/-- ROWMAX and ROWMIN: NaN where the row contains one (R245). -/
def rowFold (f : Val → Val → Val) : List Word → Res
  | [] => ⟨.zero false, false⟩
  | w :: ws => ⟨ws.foldl (fun a p => f a (vOf p)) (vOf w), false⟩

end Sys2Proof
end

