-- ==== Sys2Proof/Machine/Array.lean ====
section
/-!
DEFINITION. The array engine's work on operands in SRAM, as functions of what is read (R176–R220, R246–R249,
R271–R275): operands with their formats, scales, 2:4 and block sparsity and transposed reads; the sequential FP32
sums; the issue ratio and the cycles; the drain converter. Nothing here knows the machine's state: rd reads SRAM
bytes, pz says whether a poisoned granule lies in a range.
-/

namespace Sys2Proof

/-- The fields of a MATMUL body (R246). -/
structure Mm where
  aBase : Nat
  aFmt : Nat
  aTrans : Bool
  aConv : Nat
  bBase : Nat
  bFmt : Nat
  bTrans : Bool
  bConv : Nat
  oBase : Nat
  oFmt : Nat
  oGrad : Bool
  oSupplied : Bool
  spBase : Nat
  spPresent : Bool
  gang : Nat
  svBase : Nat
  seg : Nat
  m : Nat
  n : Nat
  k : Nat
  kScale : Nat
  scA : Nat
  scB : Nat
  scO : Nat
  deriving DecidableEq, Repr

/-- R246: the body, offsets in bytes. -/
def Mm.of (d : List Byte) : Mm :=
  let a := fld d 0x20 4; let b := fld d 0x24 4; let o := fld d 0x28 4
  let sp := fld d 0x2C 4; let sv := fld d 0x30 4; let sc := fld d 0x3C 4
  { aBase := bits a 20 0 * 32, aFmt := bits a 24 21, aTrans := bit a 25, aConv := bits a 27 26,
    bBase := bits b 20 0 * 32, bFmt := bits b 24 21, bTrans := bit b 25, bConv := bits b 27 26,
    oBase := bits o 20 0 * 32, oFmt := bits o 24 21, oGrad := bit o 25, oSupplied := bit o 26,
    spBase := bits sp 20 0 * 32, spPresent := bit sp 21, gang := bits sp 24 22,
    svBase := bits sv 20 0 * 32, seg := bits sv 31 21,
    m := fld d 0x34 2, n := fld d 0x36 2, k := fld d 0x38 3, kScale := fld d 0x3B 1,
    scA := bits sc 9 0, scB := bits sc 19 10, scO := bits sc 29 20 }

/-- a × b of a gang code (R181). -/
def gangShape : Nat → Nat × Nat
  | 0 => (1, 1)
  | 1 => (2, 2)
  | 2 => (2, 4)
  | 3 => (4, 4)
  | 4 => (4, 8)
  | _ => (1, 32)

/-- The sparsity record (R199). -/
structure SpRec where
  kind : Nat
  idxOff : Nat
  listOff : Nat
  kb : Nat
  nb : Nat
  clean : Bool
  deriving DecidableEq, Repr

def SpRec.of (r : List Byte) : SpRec :=
  { kind := fld r 0 1, idxOff := fld r 4 4, listOff := fld r 8 4, kb := fld r 12 2, nb := fld r 14 2,
    clean := fld r 0 1 < 4 && zeros r 1 3 }

def SpRec.none : SpRec := ⟨0, 0, 0, 0, 0, true⟩
def SpRec.sp24 (r : SpRec) : Bool := bit r.kind 0
def SpRec.blocks (r : SpRec) : Bool := bit r.kind 1

/-- An operand element: its value and whether a granule it was read from is poisoned. -/
structure El where
  v : Val
  bad : Bool
  deriving DecidableEq, Repr

/-- Where a stored matrix stands: rows of n elements, its scale array after it (R247). -/
structure Region where
  base : Nat
  rows : Nat
  cols : Nat
  fmt : Nat
  deriving DecidableEq, Repr

def Region.pitch (g : Region) : Nat := rowPitch g.fmt g.cols
def Region.scaleBase (g : Region) : Nat := g.base + g.rows * g.pitch
def Region.scaleRow (g : Region) : Nat := if fmtMx g.fmt then cdiv g.cols 32 else 0
def Region.bytes (g : Region) : Nat := g.rows * g.pitch + g.rows * g.scaleRow

section
variable (rd : Nat → Nat → List Byte) (pz : Nat → Nat → Bool)

/-- Row r of a stored matrix. -/
def readRow (g : Region) (r : Nat) : List El :=
  let b := g.base + r * g.pitch
  let s := g.scaleBase + r * g.scaleRow
  let row := rd b (rowBytes g.fmt g.cols)
  let sc := rd s g.scaleRow
  (List.range g.cols).map fun i =>
    ⟨scaledVal g.fmt (elemBits g.fmt i row) ((sc.getD (i / 32) 0#8).toNat),
     pz (b + i * fmtBits g.fmt / 8) (cdiv (fmtBits g.fmt) 8) || (fmtMx g.fmt && pz (s + i / 32) 1)⟩

/-- A stored matrix, row by row. -/
def readRows (g : Region) : List (List El) := (List.range g.rows).map (readRow rd pz g)
end

/-- Column i of rows. -/
def column (rows : List (List El)) (i : Nat) : List El := rows.map fun r => r.getD i ⟨.zero false, false⟩

/-- What the read converter counts (R217). -/
structure RdCnt where
  inf : Nat
  nan : Nat
  deriving DecidableEq, Repr

/-- Widen (R215): decoded with its scale into BF16, exact but for the limits of R164. -/
def widen (l : List El) : List El × RdCnt :=
  let r := l.map fun x => (⟨vOf (f32 x.v), x.bad⟩ : El)
  (r, ⟨((l.zip r).filter fun p => p.1.v.finite && !p.2.v.finite).length, 0⟩)

/-- Reblock (R215): FP32 values re-encoded along k in blocks of 32 under R162. -/
def reblock (c : Nat) (l : List El) : List El × RdCnt :=
  let bs := (chunksOf 32 l.length l).map fun b =>
    let pad := b.map (fun x => (⟨vOf (f32 x.v), false⟩ : Outgoing)) ++ List.replicate (32 - b.length) ⟨.zero false, false⟩
    let (es, s, k) := convBlock c pad none
    let bad := b.any (·.bad)
    ((es.take b.length).map (fun e => (⟨scaledVal c e s, bad⟩ : El)), k.blk)
  (bs.flatMap (·.1), ⟨0, (bs.map (·.2)).foldl (· + ·) 0⟩)

/-- One line of an operand along k: the positions that take a step, with ascending k, and what was met. -/
structure Line where
  els : List (Nat × El)
  /-- 2:4 groups with an invalid nibble (R197). -/
  badNib : Nat
  /-- The line read an invalid nibble or a poisoned sparsity granule. -/
  spoiled : Bool
  cnt : RdCnt
  deriving DecidableEq, Repr

/-- Number the elements of a list. -/
def enumFrom {α : Type} : Nat → List α → List (Nat × α)
  | _, [] => []
  | k, x :: xs => (k, x) :: enumFrom (k + 1) xs

/-- Expand stored values under their index nibbles (R192–R197), at logical positions 0, 1, … of the line;
dense is the transposed read of R216, where pruned positions are zeros that take their step. -/
def expand24 (dense : Bool) (idx : List Byte) : List El → Nat → Nat → List (Nat × El) × Nat
  | x :: y :: rest, g, bad =>
    let nib := ((idx.getD (g / 2) 0#8).toNat >>> (4 * (g % 2))) % 16
    let lo := nib % 4
    let hi := nib / 4
    let (tail, bad') := expand24 dense idx rest (g + 1) (if lo < hi then bad else bad + 1)
    let z : El := ⟨.zero false, false⟩
    let at_ (i : Nat) : El := if lo < hi then (if i = lo then x else if i = hi then y else z) else z
    let own := if dense then [0, 1, 2, 3].map (fun i => (4 * g + i, at_ i))
      else if lo < hi then [(4 * g + lo, x), (4 * g + hi, y)] else []
    (own ++ tail, bad')
  | _, _, bad => ([], bad)

/-- Rows of A: M lines of K elements (R180, R213, R215). -/
def linesA (rd : Nat → Nat → List Byte) (pz : Nat → Nat → Bool) (q : Mm) : List Line :=
  let plain (l : List El) (c : RdCnt) : Line := ⟨enumFrom 0 l, 0, false, c⟩
  if q.aTrans then
    let rows := readRows rd pz ⟨q.aBase, q.k, q.m, q.aFmt⟩
    (List.range q.m).map fun i =>
      let l := column rows i
      if q.aConv = 1 then let (l, c) := widen l; plain l c
      else if q.aConv = 2 then let (l, c) := reblock q.aFmt l; plain l c
      else plain l ⟨0, 0⟩
  else (readRows rd pz ⟨q.aBase, q.m, q.k, q.aFmt⟩).map fun l => plain l ⟨0, 0⟩

/-- Stored values of a 2:4 line of K logical positions (R195, R196). -/
def stored24 (fmt k : Nat) : Nat := (if fmtMx fmt then cdiv k 64 * 64 else cdiv k 8 * 8) / 2

/-- A strip of a block list (R200, R206): the present block rows, and whether the list broke R200 there. -/
def stripRows (lst : List Byte) (nb kb j : Nat) : List Nat × Bool :=
  let off (i : Nat) := fld lst (4 * i) 4
  let lo := off j
  let hi := off (j + 1)
  let row (i : Nat) := fld lst (4 * (nb + 1) + 2 * i) 2
  if j = 0 ∧ lo ≠ 0 then ([], true)
  else if hi < lo then ([], true)
  else
    let all := (List.range (hi - lo)).map fun i => row (lo + i)
    let rec good : List Nat → Nat → List Nat
      | [], _ => []
      | r :: rs, b => if b ≤ r ∧ r < kb then r :: good rs (r + 1) else []
    let g := good all 0
    (g, g.length ≠ all.length)

/-- Columns of B (R180, R192–R206, R213–R216): N lines, and for block sparsity the strips' block rows. -/
structure OperB where
  lines : List Line
  strips : List (List Nat × Bool)
  deriving DecidableEq, Repr

/-- The logical k of position i of a compacted column. -/
def uncompact (rows : List Nat) (i : Nat) : Nat := rows.getD (i / 16) 0 * 16 + i % 16

section
variable (rd : Nat → Nat → List Byte) (pz : Nat → Nat → Bool)

/-- The index bytes of a line of B, and whether a poisoned granule lies in them or in the record. -/
def idxBytes (q : Mm) (off n : Nat) : List Byte × Bool :=
  (rd off n, pz off n || pz q.spBase 16)

/-- B without block sparsity. -/
def linesB (q : Mm) (s : SpRec) : List Line :=
  let ks := if s.sp24 then stored24 q.bFmt q.k else q.k
  let raw : List (List El) :=
    if q.bTrans then
      let rows := readRows rd pz ⟨q.bBase, ks, q.n, q.bFmt⟩
      (List.range q.n).map (column rows)
    else readRows rd pz ⟨q.bBase, q.n, ks, q.bFmt⟩
  (enumFrom 0 raw).map fun (j, l) =>
    let (l, c) := if q.bTrans && q.bConv = 1 then widen l else (l, ⟨0, 0⟩)
    let ln : Line :=
      if s.sp24 then
        let nby := ks / 4
        let (ix, bad) := idxBytes rd pz q (q.spBase + s.idxOff + j * nby) nby
        let (es, nbad) := expand24 q.bTrans ix l 0 0
        ⟨es.filter (fun (e : Nat × El) => decide (e.1 < q.k)), nbad, bad || 0 < nbad, c⟩
      else ⟨enumFrom 0 l, 0, false, c⟩
    if q.bTrans && q.bConv = 2 then
      let (l, c) := reblock q.bFmt (ln.els.map (·.2))
      { ln with els := enumFrom 0 l, cnt := ⟨c.inf + ln.cnt.inf, c.nan + ln.cnt.nan⟩ }
    else ln

/-- One column of a strip of a block-sparse B: base of its elements, of its scales, of its indices (R201, R202). -/
def lineBlk (q : Mm) (s : SpRec) (st : List Nat × Bool) (kc ks nby b sb ib : Nat) : Line :=
  let row := rd b (rowBytes q.bFmt ks)
  let sc := rd sb (if fmtMx q.bFmt then cdiv ks 32 else 0)
  let l : List El := (List.range ks).map fun e =>
    ⟨scaledVal q.bFmt (elemBits q.bFmt e row) ((sc.getD (e / 32) 0#8).toNat),
      pz (b + e * fmtBits q.bFmt / 8) (cdiv (fmtBits q.bFmt) 8) || (fmtMx q.bFmt && pz (sb + e / 32) 1)⟩
  let ln : Line :=
    if s.sp24 then
      let (ix, bad) := idxBytes rd pz q ib nby
      let (es, nbad) := expand24 false ix l 0 0
      ⟨es.filter (fun (e : Nat × El) => decide (e.1 < kc)), nbad, bad || 0 < nbad || st.2, ⟨0, 0⟩⟩
    else ⟨enumFrom 0 l, 0, st.2 || pz q.spBase 16, ⟨0, 0⟩⟩
  let els := (ln.els.map (fun (e : Nat × El) => (uncompact st.1 e.1, e.2))).filter
    (fun (e : Nat × El) => decide (e.1 < q.k))
  { ln with els := els }

/-- Block-sparse B, strip by strip (R201, R202): base of the strip's elements, of its scales, of its indices. -/
def linesBlk (q : Mm) (s : SpRec) : List (List Nat × Bool) → Nat → Nat → Nat → Nat → List Line
  | [], _, _, _, _ => []
  | st :: rest, j, base, sbase, ibase =>
    let cols := min 16 (q.n - 16 * j)
    let kc := 16 * st.1.length
    let ks := if s.sp24 then stored24 q.bFmt kc else kc
    let g : Region := ⟨base, cols, ks, q.bFmt⟩
    let nby := if s.sp24 then ks / 4 else 0
    (List.range cols).map (fun i =>
      lineBlk rd pz q s st kc ks nby (base + i * g.pitch) (sbase + i * g.scaleRow) (ibase + i * nby)) ++
      linesBlk q s rest (j + 1) (base + pitch32 (cols * g.pitch)) (sbase + cols * g.scaleRow) (ibase + cols * nby)

/-- The element bytes of a block-sparse B, after which its scale array stands. -/
def blkElemBytes (q : Mm) (s : SpRec) : List (List Nat × Bool) → Nat → Nat
  | [], _ => 0
  | st :: rest, j =>
    let cols := min 16 (q.n - 16 * j)
    let kc := 16 * st.1.length
    pitch32 (cols * rowPitch q.bFmt (if s.sp24 then stored24 q.bFmt kc else kc)) + blkElemBytes q s rest (j + 1)

/-- Operand B. -/
def operandB (q : Mm) (s : SpRec) : OperB :=
  if s.blocks then
    let nb := cdiv q.n 16
    let kb := cdiv q.k 16
    let lst0 := rd (q.spBase + s.listOff) (4 * (nb + 1))
    let total := fld lst0 (4 * nb) 4
    let lst := lst0 ++ rd (q.spBase + s.listOff + 4 * (nb + 1)) (2 * total)
    let badList := pz (q.spBase + s.listOff) (4 * (nb + 1) + 2 * total)
    let strips := (List.range nb).map (stripRows lst nb kb)
    let sb := q.bBase + blkElemBytes q s strips 0
    let ls := linesBlk rd pz q s strips 0 q.bBase sb (q.spBase + s.idxOff)
    ⟨ls.map fun l => { l with spoiled := l.spoiled || badList }, strips⟩
  else ⟨linesB rd pz q s, []⟩
end

/-- The product of two elements in FP32 (R165, R207, R208). -/
def prod32 (a b : Val) : Word := f32 (a.mul b)

/-- Gated (R207): one side zero, the other finite. -/
def isGated (a b : Val) : Bool :=
  match a, b with
  | .zero _, v => v.finite
  | v, .zero _ => v.finite
  | _, _ => false

/-- One output over one segment: its starting value, its products in order, its sum, whether it read poison. -/
structure SegOut where
  start : Option Word
  prods : List Word
  sum : Option Word
  gated : Nat
  bad : Bool
  deriving DecidableEq, Repr

def SegOut.open_ (s : Option Word) : SegOut := ⟨s, [], s, 0, false⟩

/-- R167: one more product. -/
def SegOut.step (o : SegOut) (a b : El) : SegOut :=
  let p := prod32 a.v b.v
  { o with
    prods := p :: o.prods
    sum := some (match o.sum with | none => p | some s => fadd s p)
    gated := o.gated + b2n (isGated a.v b.v)
    bad := o.bad || a.bad || b.bad }

/-- R166–R168, R271: an output along A's line, with B's positions; a segment ends before each cut. Segments come
newest first. A spilled cell that has taken no step leaves +0. -/
def runSegs : List (Nat × El) → List (Nat × El) → List Nat → SegOut → List SegOut → List SegOut
  | [], _, cuts, cur, done => (List.replicate cuts.length (SegOut.open_ (some (cur.sum.getD 0#32)))) ++ cur :: done
  | (k, a) :: as, bs, cuts, cur, done =>
    let (cuts, cur, done) := match cuts with
      | c :: cs => if c ≤ k then (cs, SegOut.open_ (some (cur.sum.getD 0#32)), cur :: done) else (cuts, cur, done)
      | [] => (cuts, cur, done)
    match bs with
    | (j, b) :: bs' => if j = k then runSegs as bs' cuts (cur.step a b) done else runSegs as bs cuts cur done
    | [] => runSegs as [] cuts cur done

/-- The finished sum of an output (R205). -/
def SegOut.final (o : SegOut) : Word := o.sum.getD 0#32

/-- Issue shape of an operation (R176–R178, R181, R188). -/
structure Shape where
  a : Nat
  b : Nat
  g : Nat
  d : Nat
  ka : Nat
  /-- slow of R188 as a fraction. -/
  num : Nat
  den : Nat
  deriving DecidableEq, Repr

/-- The larger of two fractions. -/
def fracMax (p q : Nat × Nat) : Nat × Nat := if p.1 * q.2 < q.1 * p.2 then q else p

/-- R177: the class of an operand as the arrays consume it; widened operands arrive as BF16. -/
def consumed (fmt : Nat) (trans : Bool) (conv : Nat) : Nat := if trans && conv = 1 then 1 else fmt

/-- R188: slow, with c the data port's bytes per cycle. -/
def shapeOf (q : Mm) (s : SpRec) (c : Nat) : Shape :=
  let (a, b) := gangShape q.gang
  let g := 32 / (a * b)
  let d := min (fmtDepth (consumed q.aFmt q.aTrans q.aConv)) (fmtDepth (consumed q.bFmt q.bTrans q.bConv))
  let sp := b2n (s.sp24 && !q.bTrans)
  let ka := d * (1 + sp)
  let kb := d
  let data8 := g * (4 * a * ka * fmtBits q.aFmt + 4 * b * kb * fmtBits q.bFmt)
  let meta32 := g * (4 * a * ka * b2n (fmtMx q.aFmt) + 4 * b * kb * b2n (fmtMx q.bFmt) + sp * 4 * b * kb * 8)
  let sl := fracMax (fracMax (1, 1) (data8, 8 * c)) (meta32, 32 * 256)
  ⟨a, b, g, d, ka, sl.1, sl.2⟩

/-- ratio × 32,768, rounded down (CORE_ARR_STS). -/
def Shape.ratioFix (h : Shape) : Nat := 32768 * h.den / h.num

/-- The tiles of an operation in row-major order, as tile row and tile column (R182). -/
def tilesOf (q : Mm) (h : Shape) : List (Nat × Nat) :=
  (List.range (cdiv q.m (4 * h.a))).flatMap fun i => (List.range (cdiv q.n (4 * h.b))).map fun j => (i, j)

/-- The block rows that a tile steps through (R204): the union of its strips', ascending. -/
def unionRows (strips : List (List Nat × Bool)) : SSet := strips.foldl (fun u s => s.1.foldl SSet.add u) []

/-- The logical positions that a tile takes, as the count before block skipping ends and the k of step i. -/
structure TileSteps where
  positions : Nat
  rows : Option (List Nat)
  deriving DecidableEq, Repr

def tileSteps (q : Mm) (h : Shape) (strips : List (List Nat × Bool)) (j : Nat) : TileSteps :=
  if strips.isEmpty then ⟨q.k, none⟩
  else
    let u := unionRows ((strips.drop (4 * h.b * j / 16)).take (cdiv (4 * h.b * (j + 1)) 16 - 4 * h.b * j / 16))
    ⟨(u.map fun r => min 16 (q.k - 16 * r)).foldl (· + ·) 0, some u⟩

/-- The strips that the tiles of a wave cover and whose list breaks R200, each once (R206). -/
def brokenStrips (h : Shape) (strips : List (List Nat × Bool)) (wave : List (Nat × Nat)) : Nat :=
  ((enumFrom 0 strips).filter fun (e : Nat × (List Nat × Bool)) =>
    e.2.2 && wave.any fun t => decide (4 * h.b * t.2 < 16 * e.1 + 16) && decide (16 * e.1 < 4 * h.b * (t.2 + 1))).length

def TileSteps.steps (t : TileSteps) (h : Shape) : Nat := cdiv t.positions h.ka

/-- The k at which taken position i stands. -/
def TileSteps.kAt (t : TileSteps) (i : Nat) : Nat :=
  match t.rows with
  | none => i
  | some rs => uncompact rs i

/-- The positions at which segments after the first begin (R271). -/
def TileSteps.cuts (t : TileSteps) (h : Shape) (seg : Nat) : List Nat :=
  if seg = 0 then []
  else (List.range (cdiv (t.steps h) (4 * seg) - 1)).map fun i => t.kAt ((i + 1) * 4 * seg * h.ka)

/-- R190: cycles of an operation without its issue overhead: waves of G tiles. Answers steps, cycles, and the
cycles that slow cost. -/
def waveCycles (h : Shape) (c outB resumeBit seg : Nat) : List (List TileSteps) → Nat × Nat × Nat
  | [] => (0, 0, 0)
  | w :: ws =>
    let steps := (w.map fun t => t.steps h).foldl max 0
    let resumes := resumeBit + (if seg = 0 then 0 else cdiv steps (4 * seg) - 1)
    let slowed := cdiv (steps * h.num) h.den
    let per := max slowed (max 1 outB) + resumes * cdiv 2048 c
    let r := waveCycles h c outB resumeBit seg ws
    (r.1 + steps, r.2.1 + per, r.2.2 + (slowed - steps))

/-- A tile-segment of hardware mode (R414): micro-array, its outputs, and its count of steps. -/
structure TileSeg where
  array : Nat
  steps : Nat
  outs : List SegOut
  deriving DecidableEq, Repr

/-- What an array operation computes. -/
structure MatRes where
  sums : List (List Word)
  bad : List (List Bool)
  /-- By cell: the sum spilled before the last segment with its poison, where there is more than one. -/
  mid : List (List (Option (Word × Bool)))
  gated : Nat
  badNib : Nat
  badList : Nat
  rdCnt : RdCnt
  blkSkipped : Nat
  steps : Nat
  cycles : Nat
  lost : Nat
  tiles : Nat
  /-- Tile spills at segment ends. -/
  spills : Nat
  tileSegs : List TileSeg
  readBad : Bool
  deriving DecidableEq, Repr

/-- Tile-segments of the micro-arrays of a tile, segment by segment; grid holds each output's segments in order. -/
def tileSegsOf (q : Mm) (h : Shape) (grid : List (List (List SegOut))) (ti tj gang : Nat) (steps : Nat) (seg : Nat) :
    List TileSeg :=
  (List.range (h.a * h.b)).flatMap fun u =>
    let r0 := 4 * h.a * ti + 4 * (u / h.b)
    let c0 := 4 * h.b * tj + 4 * (u % h.b)
    let cells := (List.range 4).flatMap fun i => (List.range 4).map fun j => (r0 + i, c0 + j)
    let cells := cells.filter fun rc => rc.1 < q.m && rc.2 < q.n
    if cells.isEmpty then []
    else
      let nseg := if seg = 0 then 1 else max 1 (cdiv steps (4 * seg))
      (List.range nseg).map fun s =>
        ⟨gang * h.a * h.b + u, if seg = 0 then steps else min (4 * seg) (steps - s * 4 * seg),
         cells.map fun rc => ((grid.getD rc.1 []).getD rc.2 []).getD s (SegOut.open_ none)⟩

/-- The sum of a list of counts. -/
def sumN (l : List Nat) : Nat := l.foldl (· + ·) 0

/-- One output of an operation: its segments in order, and whether what it resumed from or its line is poisoned. -/
structure Cell where
  segs : List SegOut
  spoiled : Bool
  deriving DecidableEq, Repr

/-- The sums after segment i from the end, with their poison. -/
def Cell.last (x : Cell) : SegOut := x.segs.getLastD (SegOut.open_ none)
def Cell.bad (x : Cell) : Bool := x.spoiled || x.segs.any (·.bad)
def Cell.mid (x : Cell) : Cell := ⟨x.segs.dropLast, x.spoiled⟩

/-- The outputs of an operation, row by row. -/
def matGrid (q : Mm) (h : Shape) (as bs : List Line) (tstep : Nat → TileSteps) (start : Option (List (List El))) :
    List (List Cell) :=
  (enumFrom 0 as).map fun (ra : Nat × Line) => (enumFrom 0 bs).map fun (cb : Nat × Line) =>
    let st : Option El := start.map fun (g : List (List El)) => (g.getD ra.1 []).getD cb.1 ⟨.zero false, false⟩
    ⟨(runSegs ra.2.els cb.2.els ((tstep (cb.1 / (4 * h.b))).cuts h q.seg)
        (SegOut.open_ (st.map fun (e : El) => f32 e.v)) []).reverse,
     (match st with | some e => e.bad | none => false) || ra.2.spoiled || cb.2.spoiled⟩

/-- The whole operation (R182–R206, R271): start gives the resumed sums with their poison, or none when fresh. -/
def matRun (rd : Nat → Nat → List Byte) (pz : Nat → Nat → Bool) (q : Mm) (s : SpRec) (c outB : Nat)
    (start : Option (List (List El))) (hw : Bool) : MatRes :=
  let h := shapeOf q s c
  let as := linesA rd pz q
  let ob := operandB rd pz q s
  let tiles := tilesOf q h
  let tstep (j : Nat) : TileSteps := tileSteps q h ob.strips j
  let tcols := List.range (cdiv q.n (4 * h.b))
  let grid := matGrid q h as ob.lines tstep start
  let waves : List (List TileSteps) := chunksOf h.g tiles.length (tiles.map fun t => tstep t.2)
  let cyc := waveCycles h c outB (b2n start.isSome) q.seg waves
  let kb := cdiv q.k 16
  { sums := grid.map fun (row : List Cell) => row.map fun x => x.last.final
    bad := grid.map fun (row : List Cell) => row.map Cell.bad
    mid := if tcols.any fun j => (tstep j).cuts h q.seg ≠ [] then
        grid.map fun (row : List Cell) => row.map fun x =>
          if x.segs.length < 2 then none else some (x.mid.last.final, x.mid.bad)
      else []
    gated := sumN (grid.map fun (row : List Cell) => sumN (row.map fun x => sumN (x.segs.map (·.gated))))
    badNib := sumN (ob.lines.map (·.badNib))
    badList := sumN ((chunksOf h.g tiles.length tiles).map (brokenStrips h ob.strips))
    rdCnt := (as ++ ob.lines).foldl (fun a l => ⟨a.inf + l.cnt.inf, a.nan + l.cnt.nan⟩) ⟨0, 0⟩
    blkSkipped := if ob.strips.isEmpty then 0
      else sumN (tiles.map fun t => kb - (match (tstep t.2).rows with | some u => u.length | none => kb))
    steps := cyc.1
    cycles := cyc.2.1
    lost := cyc.2.2
    tiles := tiles.length
    spills := sumN (tiles.map fun t => ((tstep t.2).cuts h q.seg).length)
    tileSegs := if hw then
        (enumFrom 0 tiles).flatMap fun (it : Nat × (Nat × Nat)) =>
          tileSegsOf q h (grid.map fun (row : List Cell) => row.map (·.segs)) it.2.1 it.2.2 (it.1 % h.g)
            ((tstep it.2.2).steps h) q.seg
      else []
    readBad := grid.any fun (row : List Cell) => row.any Cell.bad }

/-- A block of quantisation mode (R418): the originals and the decoded results. -/
structure QBlock where
  orig : List Word
  back : List Word
  deriving DecidableEq, Repr

/-- The conversion blocks of one line that the reblocking read converter writes (R418). -/
def rbBlocks (c : Nat) (l : List El) : List QBlock :=
  (chunksOf 32 l.length (l.zip (reblock c l).1)).map fun (b : List (El × El)) =>
    ⟨b.map fun x => f32 x.1.v, b.map fun x => f32 x.2.v⟩

/-- The conversion blocks of the operands of a MATMUL that are reblocked: A's, then B's. -/
def reblocked (rd : Nat → Nat → List Byte) (pz : Nat → Nat → Bool) (q : Mm) (s : SpRec) : List QBlock × List QBlock :=
  (if q.aTrans && q.aConv = 2 then
      (linesA rd pz { q with aConv := 0 }).flatMap fun (l : Line) => rbBlocks q.aFmt (l.els.map (·.2)) else [],
   if q.bTrans && q.bConv = 2 then
      (linesB rd pz { q with bConv := 0 } s).flatMap fun (l : Line) => rbBlocks q.bFmt (l.els.map (·.2)) else [])

/-- What a converter leaves for one output: rows of element bytes and of scale bytes with the element indices that
carry poison, what it counts, and what it reports (R218, R220, R397). -/
structure Drained where
  rows : List (List Byte × List Byte × List Nat)
  cnt : OvfCnt
  amax : Word
  nonfinite : Bool
  elems : Nat
  zeros : Nat
  blocks : List QBlock
  deriving DecidableEq, Repr

/-- The larger of two FP32 magnitudes. -/
def amaxOf (vs : List Val) : Word := f32 (vs.foldl maxAbs (.zero false))

/-- One converted row: element bytes, scale bytes, counts, and the values read back. -/
structure DrainRow where
  es : List Byte
  sc : List Byte
  cnt : OvfCnt
  back : List Val
  deriving DecidableEq, Repr

/-- R249: a per-tensor FP8 output is multiplied by 2^(−t_o) before conversion. -/
def outgoing (fmt : Nat) (tOut : Int) (r : Res) : Outgoing :=
  if fmtTensor fmt then
    let e := FloatFmt.fp32.conv (r.v.scale (-tOut))
    ⟨FloatFmt.fp32.decode e.bits, r.ovf || (r.v.finite && e.ovf)⟩
  else ⟨r.v, r.ovf⟩

/-- R160, R218: one row. -/
def drainRow (fmt : Nat) (tOut : Int) (supplied : Option Nat) (row : List Res) : DrainRow :=
  let (es, sc, k) := encodeRow fmt (row.map (outgoing fmt tOut)) supplied
  ⟨es, sc, k, (List.range row.length).map fun i =>
    scaledVal fmt (elemBits fmt i es) ((sc.getD (i / 32) 0#8).toNat)⟩

/-- A value that is zero. -/
def isZero : Val → Bool
  | .zero _ => true
  | _ => false

/-- Convert rows of FP32 stage values (R160, R218, R249, R724). The amax is that of the values received, before
any scaling by 2^(−t). -/
def drainRows (fmt : Nat) (tOut : Int) (supplied : Option Nat) (rows : List (List Res)) (bad : List (List Bool)) : Drained :=
  let parts : List DrainRow := rows.map (drainRow fmt tOut supplied)
  let all : List Res := rows.flatten
  { rows := (parts.zip bad).map fun (p : DrainRow × List Bool) =>
      (p.1.es, p.1.sc, (enumFrom 0 p.2).filterMap fun (x : Nat × Bool) => if x.2 then some x.1 else none)
    cnt := parts.foldl (fun a p => a.add p.cnt) .none
    amax := amaxOf (all.map (·.v))
    nonfinite := all.any fun r => !r.v.finite
    elems := all.length
    zeros := sumN (parts.map fun p => (p.back.filter isZero).length)
    blocks := if fmt = 0 then [] else (rows.zip parts).flatMap fun (rp : List Res × DrainRow) =>
      (chunksOf 32 rp.1.length (rp.1.zip rp.2.back)).map fun (b : List (Res × Val)) =>
        ⟨b.map (fun x => f32 x.1.v), b.map (fun x => f32 (if fmtTensor fmt then x.2.scale tOut else x.2))⟩ }

/-- The finished sums under R166: one multiplication by 2^(ta + tb). -/
def scaleSums (t : Int) (sums : List (List Word)) : List (List Res) :=
  sums.map fun row => row.map fun w =>
    let v := vOf w
    let e := FloatFmt.fp32.conv (v.scale t)
    ⟨FloatFmt.fp32.decode e.bits, v.finite && e.ovf⟩

end Sys2Proof
end

