-- ==== Sys2Proof/Machine/Types.lean ====
section
/-!
DEFINITION. The parts of the state that belong to register pages, partitions, the dual commit, interrupts, cores,
matrix-vector units, the numerics watch, islands, the cluster monitor and the error manager. Each comes with its
value at reset, which is also what an unlisted instance reads as.
-/

namespace Sys2Proof.Machine

/-- An operation descriptor: 64 bytes (R235). -/
abbrev Desc := List Byte

/-! ### Register pages (chapter 2) -/

/-- BLK_STS.state (R85). -/
inductive BlkState where
  | disabled | enabling | running | quiescing | quiesced | halted | resetting | absent
  deriving DecidableEq, Repr

/-- The code of BLK_STS.state. -/
def BlkState.code : BlkState → Nat
  | .disabled => 0 | .enabling => 1 | .running => 2 | .quiescing => 3
  | .quiesced => 4 | .halted => 5 | .resetting => 6 | .absent => 7

/-- A page's BLK_CTL and BLK_STS.state. -/
structure PageSt where
  state : BlkState
  enable : Bool
  quiesce : Bool
  deriving DecidableEq, Repr

def PageSt.reset : PageSt := ⟨.disabled, false, false⟩

/-- The header state that each view keeps of its own (R81): the version in force, events, their enables, the first
error with its partition, the errors after it. -/
structure Hdr where
  neg : Option (Nat × Nat)
  evt : Word
  evtEn : Word
  errCode : BitVec 16
  errPart : Byte
  errCnt : Word
  deriving DecidableEq, Repr

def Hdr.reset : Hdr := ⟨none, 0, 0, 0, 0, 0⟩

/-- Register pages: block states by page; headers by page and view; counters and snapshots by page, view and number
(R92–R95); plain registers by page, scope and offset; manifest generations by view. -/
structure Pages where
  st : SMap PageSt
  hdr : SMap Hdr
  ctr : SMap Nat
  snap : SMap Word
  regs : SMap Word
  gen : SMap Nat
  deriving DecidableEq, Repr

/-! ### Partitions (chapter 3) -/

/-- PART_STATE.state. -/
inductive PartState where
  | running | draining | scrubbing | halted
  deriving DecidableEq, Repr

/-- One partition's own state: PART_STATE (Empty is not being active), PART_VIOL and PART_VIOL_ADDR, whether a reset is
in progress (R135), and its drain deadline. -/
structure PartSt where
  state : PartState
  viol : Word
  violAddr : Option Nat
  inReset : Bool
  drainBy : Nat
  deriving DecidableEq, Repr

def PartSt.reset : PartSt := ⟨.running, 0, none, false, 0⟩

/-- COMMIT_STS.state. -/
inductive CommitState where
  | idle | staging | sealed | verifying | applying
  deriving DecidableEq, Repr

/-- The dual commit: registers, what was captured at seal, what verification leaves for the commit point, and how
far the application has come. -/
structure Commit where
  state : CommitState
  outcome : Byte
  count : BitVec 64
  captured : BitVec 64
  deadline : Nat
  digest : BitVec 384
  signTag : Option (BitVec 5)
  signQ : Nat
  drainBy : Nat
  forced : Bool
  scrubbing : Bool
  deriving DecidableEq, Repr

def Commit.reset : Commit := ⟨.idle, 0, 0, 0, 0, 0, none, 0, 0, false, false⟩

/-- The protected store of the security controller: what survives loss of power (R111, R122, R123, R136). -/
structure Store where
  table : SMap Word
  leafQ : Option Nat
  ecKey : List Byte
  lmsKey : List Byte
  enrolled : Bool
  nsChange : SSet
  deriving DecidableEq, Repr

/-- Partition tables: word i of partition n at key 32 n + i (R114); the live table and the staged one. -/
structure Parts where
  live : SMap Word
  staged : SMap Word
  commit : Commit
  st : SMap PartSt
  vfEnabled : SSet
  deriving DecidableEq, Repr

/-! ### Interrupts (R546–R548) -/

/-- Event summaries (view × 2048 + entry), unmasked vectors and pending bits (function × 2048 + vector), and the
functions whose Bus Master Enable is set. -/
structure Irq where
  summary : SSet
  unmasked : SSet
  pba : SSet
  bme : SSet
  deriving DecidableEq, Repr

/-! ### Cores (chapters 5, 6, 10) -/

/-- One of a core's four engines: its queue, head first, its flags (CORE_ENGn_STS), and whether the head's predicate
was evaluated and chose to run while a reservation is missing (R210). -/
structure Engine where
  queue : List Desc
  stopped : Bool
  ended : Bool
  reason : Nat
  go : Bool
  deriving DecidableEq, Repr

def Engine.reset : Engine := ⟨[], false, false, 0, false⟩

/-- A request of a LOAD or FETCH (R269): far address, bytes, offset in own SRAM or in the fetch buffer. -/
structure Req where
  far : Nat
  len : Nat
  near : Nat
  deriving DecidableEq, Repr

/-- A LOAD or FETCH that has issued, or a NOP or a skipped descriptor whose signal waits for the ones before it
(R260): the first byte not yet asked for (line and position), the requests out, a FETCH's bytes as they come, whether
a fault or poison was met and a record of poison written, and whether its work is finished. -/
structure LoadOp where
  desc : Desc
  line : Nat
  pos : Nat
  out : List Req
  got : SMap Byte
  bad : Bool
  sawPoison : Bool
  entered : Bool
  deriving DecidableEq, Repr

/-- A write that an issued operation will make: the place (a memory key), the bytes, and the offsets among them that
carry poison. -/
structure MemWr where
  key : Nat
  bytes : List Byte
  bad : List Nat
  deriving DecidableEq, Repr

/-- A report to a scale-table entry (R397). -/
structure Report where
  entry : Nat
  amax : Word
  nonfinite : Bool
  elems : Nat
  zeros : Nat
  grad : Bool
  deriving DecidableEq, Repr

/-- How an array or vector operation ends: its writes, the counters of the CORE page it adds to, the core whose
counter ring_in it adds to, the spill buffers that then hold running sums (core instance and offset), its report. -/
structure Flight where
  desc : Desc
  writes : List MemWr
  counts : List (Nat × Nat)
  ringIn : Option (Nat × Nat)
  filled : List (Nat × Nat)
  report : Option Report
  /-- Pass 1 of a calibrating producer (R406): awaits conversion instead of signalling. -/
  await : Bool
  /-- t of the operands, fixed at issue (R402). -/
  tIn : Int
  /-- Conversion blocks with the entry that their destination names (R418). -/
  blocks : List (Nat × QBlock)
  tileSegs : List TileSeg
  /-- µW of the power grant that it holds (R617). -/
  charge : Nat
  /-- The use number of the free values that it draws: the same in both passes (R406). -/
  use : Nat
  deriving DecidableEq, Repr

/-- What a store-engine operation is waiting for. -/
inductive StKind where
  | store | submit (target : Nat) | post | nop
  deriving DecidableEq, Repr

/-- A store-engine operation in flight: the lines read at issue, and whether its work is finished. A NOP or a skipped
descriptor stands here done, its signal behind those before it (R260). -/
structure StFlight where
  desc : Desc
  kind : StKind
  data : List Byte
  bad : List Nat
  done : Bool
  deriving DecidableEq, Repr

/-- A head whose ratio or rate is fixed and whose power grant is asked for (R189, R617): µW, granted or not, and
whether its predicate chose skip (R210). -/
structure Plan where
  charge : Nat
  granted : Bool
  num : Nat
  den : Nat
  deriving DecidableEq, Repr

/-- A residence window (R280): shelf slot, SRAM offset, length, intact, order of parking. -/
structure ResWin where
  slot : Nat
  base : Nat
  len : Nat
  intact : Bool
  stamp : Nat
  deriving DecidableEq, Repr

/-- A resident region of the context that a cluster runs (R284): logical core, SRAM offset, length, home address. -/
structure Resident where
  core : Nat
  base : Nat
  len : Nat
  home : Nat
  deriving DecidableEq, Repr

/-- A captured tile-segment (R415). -/
structure Capture where
  seg : TileSeg
  count : Nat
  deriving DecidableEq, Repr

/-- A producer that awaits conversion (R406): the core that issued or submitted it, the queue it came from (4 for a
matrix-vector unit), its descriptor, its entry, t of its operands, and whether its entry has settled with it. -/
structure Await where
  core : Nat
  queue : Nat
  desc : Desc
  entry : Nat
  tIn : Int
  settled : Bool
  /-- The settled t. -/
  tOut : Int
  /-- µW that its conversion pass has to be granted (R617; none for a MATMUL), and whether it was. -/
  charge : Nat
  granted : Bool
  use : Nat
  deriving DecidableEq, Repr

/-- A physical core. -/
structure Core where
  ld : Engine
  ar : Engine
  ve : Engine
  st : Engine
  loads : List LoadOp
  arr : List Flight
  vec : List Flight
  sto : List StFlight
  arrPlan : Option Plan
  vecPlan : Option Plan
  wins : SMap ResWin
  emptySpill : SSet
  gang : Nat
  ratio : Nat
  segCount : Nat
  blkCount : Nat
  capture : Option Capture
  deriving DecidableEq, Repr

def Core.reset : Core :=
  { ld := .reset, ar := .reset, ve := .reset, st := .reset, loads := [], arr := [], vec := [], sto := [],
    arrPlan := none, vecPlan := none, wins := [], emptySpill := [], gang := 0, ratio := 0,
    segCount := 0, blkCount := 0, capture := none }

/-- A signal under way (R58, R259): its word, the partition that sends it, and the channel that keeps its order. -/
structure Sig where
  word : Word
  part : Fin 16
  src : Nat
  deriving DecidableEq, Repr

/-- A matrix-vector unit (R229): queue of descriptors with the submitting core, the operation in progress. -/
structure Mvec where
  queue : List (Nat × Desc)
  plan : Option Plan
  cur : Option (Nat × Flight)
  rowsLeft : Nat
  deriving DecidableEq, Repr

def Mvec.reset : Mvec := ⟨[], none, none, 0⟩

/-! ### Numerics watch (chapter 10) -/

/-- ScState of an entry. -/
inductive EntState where
  | free | live | calibrating
  deriving DecidableEq, Repr

/-- A scale-table entry (R395). -/
structure Entry192 where
  state : EntState
  version : Nat
  fmt : Nat
  grad : Bool
  nonfin : Bool
  settled : Bool
  scale : Byte
  hlen : Nat
  hpos : Nat
  hcount : Nat
  margin : Nat
  calLeft : Nat
  stepCtr : Nat
  silThr : Nat
  producers : Nat
  silRun : Nat
  stepAmax : Word
  reports : Nat
  zeros : Nat
  elements : Nat
  lastZf : Word
  lastRoll : Word
  qErr : Word
  qSig : Word
  qCount : Nat
  history : List Word
  deriving DecidableEq, Repr

/-- The zeroed entry, which is Free (R396). -/
def Entry192.reset : Entry192 :=
  { state := .free, version := 0, fmt := 0, grad := false, nonfin := false, settled := false, scale := 0, hlen := 0, hpos := 0,
    hcount := 0, margin := 0, calLeft := 0, stepCtr := 0, silThr := 0, producers := 0, silRun := 0, stepAmax := 0,
    reports := 0, zeros := 0, elements := 0, lastZf := 0, lastRoll := 0, qErr := 0, qSig := 0, qCount := 0,
    history := [] }

/-- A numerics watch unit: its entries, reports under way, producers awaiting, SC_OP queue, and the RO registers. -/
structure Nwch where
  entries : SMap Entry192
  reports : List Report
  awaits : List Await
  queue : List (Nat × Desc)
  stopped : Bool
  reason : Nat
  scStatus : Nat
  hwLast : Option (Nat × Nat × Nat)
  qLast : Option Nat
  silentLast : Option Nat
  deriving DecidableEq, Repr

def Nwch.reset : Nwch :=
  { entries := [], reports := [], awaits := [], queue := [], stopped := false, reason := 0, scStatus := 0,
    hwLast := none, qLast := none, silentLast := none }

/-! ### Islands (chapters 1 and 16) -/

/-- Island states (R603). -/
inductive IsleState where
  | fired | held | banked | damped | cold
  deriving DecidableEq, Repr

def IsleState.code : IsleState → Nat
  | .fired => 0 | .held => 1 | .banked => 2 | .damped => 3 | .cold => 4

def IsleState.ofCode : Nat → Option IsleState
  | 0 => some .fired | 1 => some .held | 2 => some .banked | 3 => some .damped | 4 => some .cold
  | _ => none

/-- Descending, exiting, saving or restoring, or at rest (R608, R609, R727). -/
inductive IsleMove where
  | rest | descending | exiting | saving | restoring
  deriving DecidableEq, Repr

/-- An island: the local timer as nominal ticks since it started and the ticks it shows (R47, R48); the state, the
request, the movement, a wake that waits for the descent to end; the clock target, and the effective frequency (25 MHz). -/
structure Isle where
  ticks : Nat
  timer : Nat
  state : IsleState
  req : IsleState
  move : IsleMove
  wake : Bool
  target : Nat
  eff : Nat
  /-- The SRAM stands in the save area (R609). -/
  saved : Bool
  deriving DecidableEq, Repr

/-! ### Cluster monitor (chapter 17) -/

/-- Slot states of CLST_SLOTS. -/
inductive SlotState where
  | active | spare | dead | fenced | defective | testing | absent
  deriving DecidableEq, Repr

def SlotState.code : SlotState → Nat
  | .active => 0 | .spare => 1 | .dead => 2 | .fenced => 3 | .defective => 4 | .testing => 5 | .absent => 6

/-- CLST_SHELF.state. -/
inductive ShelfState where
  | empty | running | parking | resuming
  deriving DecidableEq, Repr

/-- A cluster: map from logical core to slot and incarnation, slot states, probe misses by slot, withdrawn or not,
the shelf context, its slot and its resident regions, and parked (signals dropped under R279). -/
structure Clus where
  map : List (Nat × Nat)
  slots : List SlotState
  misses : SMap Nat
  withdrawn : Bool
  shelf : ShelfState
  shelfSlot : Nat
  regions : List Resident
  parked : Bool
  deriving DecidableEq, Repr

/-- R38 with seventeen working slots: logical core n on slot n, slot 16 the spare. -/
def Clus.reset : Clus :=
  { map := (List.range 16).map fun n => (n, 0)
    slots := (List.range 17).map fun n => if n = 16 then .spare else .active
    misses := [], withdrawn := false, shelf := .empty, shelfSlot := 0, regions := [], parked := false }

/-! ### Error manager (chapter 17) -/

/-- Severities of R631. -/
inductive Sev where
  | c | p | u | i
  deriving DecidableEq, Repr

def Sev.code : Sev → Nat | .c => 0 | .p => 1 | .u => 2 | .i => 3

/-- Containment domains of R641. -/
inductive Dom where
  | none | core (inst : Nat) | cluster (c : Nat) | part (p : Nat) | device
  deriving DecidableEq, Repr

def Dom.code : Dom → Nat | .none => 0 | .core _ => 1 | .cluster _ => 2 | .part _ => 3 | .device => 4

/-- An error record (R637). -/
structure ErrRec where
  seq : BitVec 32
  code : BitVec 16
  blk : Nat
  inst : Nat
  sev : Sev
  dom : Dom
  part : Nat
  akind : Nat
  escalated : Bool
  island : Nat
  stamp : Nat
  addr : BitVec 64
  deriving DecidableEq, Repr

/-- The error manager: its queue, the next sequence number, the domains being handled, corrected counts by page. -/
structure Errm where
  queue : List ErrRec
  seq : BitVec 32
  handled : List Dom
  ce : SMap Nat
  deriving DecidableEq, Repr

def Errm.reset : Errm := ⟨[], 0, [], []⟩

/-- One sideband input (R654–R658). -/
structure Side where
  level : Bool
  asserted : Bool
  effect : Bool
  chatter : Bool
  held10 : Bool
  /-- I/O die timer at assertion (R657). -/
  since : Nat
  deriving DecidableEq, Repr

def Side.reset : Side := ⟨true, false, false, false, false, 0⟩

end Sys2Proof.Machine
end

