-- ==== Sys2Proof/Machine/Types2.lean ====
section
/-!
DEFINITION. The parts of the state that belong to the memory tiers, the flash, lending, shelves, command rings, DMA
engines, the optimiser, reduction and token exchange engines; and what the device puts out.
-/

namespace Sys2Proof.Machine

/-! ### Memory tiers (chapter 7) -/

/-- The home of a page and its backing (R286, R296). t1: offset in the partition's T1 space. t3: index of the lease
in the list of leases borrowed by its identifier and lender, frame, byte offset in the frame. -/
inductive Home where
  | t0 (cluster core off : Nat)
  | t1 (off : Nat)
  | t2 (bus : Nat)
  | t3 (dev lease frame sub : Nat)
  | t3gone
  | t4 (ns off : Nat)
  | aperture (cluster off : Nat)
  deriving DecidableEq, Repr

/-- A mapped page: 2 MiB or 64 KiB, writable or not, home (R294). -/
structure Pg where
  big : Bool
  writable : Bool
  home : Home
  deriving DecidableEq, Repr

/-- The tier number of a home (R286). -/
def Home.tier : Home → Nat
  | .t0 .. => 0 | .t1 _ => 1 | .t2 _ => 2 | .t3 .. => 3 | .t3gone => 3 | .t4 .. => 4 | .aperture .. => 5

/-- A cache frame (R302): its T1 offset, the chunks valid, the sectors dirty, when it was last used, the chunks
whose fill is under way with the agent that asked (R300), the chunks whose write-back is asked for, and by chunk the
failures of their write-back with the time of the next try (R635). -/
structure Frame where
  slot : Nat
  valid : SSet
  dirty : SSet
  lru : Nat
  filling : SMap Nat
  wb : SSet
  fails : SMap (Nat × Nat)
  deriving DecidableEq, Repr

/-- A map command that waits or runs (R297): who sent it, for which partition, and its window. -/
structure MapCmd where
  view : Nat
  part : Fin 16
  cmd : Nat
  va : Nat
  bk : Nat
  arg : Nat
  sig : Word
  /-- Begun or not; the sectors still to be written before it ends (R295, R305), as sectKey. -/
  begun : Bool
  left : SSet
  deriving DecidableEq, Repr

/-- The map window's own result registers, by view: ARG and BK after PROBE stand in the plain registers; busy,
status, pages done here (TIER_MAP_STS). -/
structure MapSts where
  busy : Bool
  status : Nat
  done : Nat
  deriving DecidableEq, Repr

/-- A partition's pilot schedule (R310–R316): running, table fault, the counter's last value and the multiple of
2^32 added to it, staged marks m(e), pinned entries with the pages (keys of Tier.pages) that they pin, entries whose
staging is under way, the next entry to stage. -/
structure Pilot where
  running : Bool
  fault : Bool
  last : Nat
  wraps : Nat
  marks : SMap Nat
  pinned : SMap (List Nat)
  staging : SSet
  next : Nat
  deriving DecidableEq, Repr

def Pilot.reset : Pilot := ⟨false, false, 0, 0, [], [], [], 0⟩

/-- The first fault of a partition (TIER_FAULT), and whether a read has rearmed the record (R300). -/
structure TierFault where
  va : Nat
  code : Nat
  agent : Nat
  armed : Bool
  deriving DecidableEq, Repr

/-- A LEASE_REQ that waits for its answer (R325): peer index, device asked, frames still wanted, deadline. -/
structure LeaseWait where
  part : Fin 16
  peer : Nat
  dev : Nat
  want : Nat
  by_ : Nat
  deriving DecidableEq, Repr

/-- A lease borrowed: lender, its epoch's identifier, partition, frames it still holds. -/
structure Lease where
  dev : Nat
  id : Nat
  part : Fin 16
  frames : SSet
  /-- Frames under RECLAIM, not yet released (R330), and those dealt with but not yet sent in a RELEASE. -/
  reclaim : SSet
  dealt : SSet
  /-- Lenders have been asked for frames that take the place of those under reclaim (R330 step 1). -/
  asked : Bool
  deriving DecidableEq, Repr

/-- A lease lent: borrower, partition, its frames as index in the lease and physical frame (pseudo-channel × 1,152 +
frame), the frames under reclaim, the deadline, and whether a dual commit caused it. -/
structure Lent where
  id : Nat
  dev : Nat
  part : Nat
  frames : SMap Nat
  reclaim : SSet
  deadline : Option Nat
  deriving DecidableEq, Repr

/-- The tier manager: pages by partition × 2^40 + (va div 64 KiB), frames under the same keys, cache pool size in
2 MiB units by partition, map commands in order, status by view, pilot by partition, fault record by partition, use
stamp, misses and write-backs that have been counted as waiting (R304, R308), and lending. -/
structure Tier where
  pages : SMap Pg
  frames : SMap Frame
  pool : SMap Nat
  cmds : List MapCmd
  sts : SMap MapSts
  pilot : SMap Pilot
  fault : SMap TierFault
  stamp : Nat
  poolWaits : SSet
  budWaits : SSet
  wait : Option LeaseWait
  leases : List Lease
  lent : List Lent
  nextLease : Nat
  deriving DecidableEq, Repr

def Tier.reset : Tier := ⟨[], [], [], [], [], [], [], 0, [], [], none, [], [], 1⟩

/-! ### Flash (chapter 8) -/

/-- FLSH_STATE.state (R353). -/
inductive FlashState where
  | unmounted | mounting | normal | degraded | readOnly | failed
  deriving DecidableEq, Repr

def FlashState.code : FlashState → Nat
  | .unmounted => 0 | .mounting => 1 | .normal => 2 | .degraded => 3 | .readOnly => 4 | .failed => 5

/-- The flash controller: state, clean shutdown, charged bytes, spread of erase counts, spare blocks and the factory
size of the reserve, entries replayed, dump_ok, whether the power-loss sequence runs and whether the input has
recovered within it, bytes below the cap of each partition's credit (R350), namespaces' key generations, and chunks marked unrecoverable with
their granules (R636), keyed namespace × 2^32 + chunk. -/
structure Flash where
  state : FlashState
  clean : Bool
  charged : Nat
  spread : Nat
  spare : Nat
  spareFull : Nat
  replayed : Nat
  dumpOk : Bool
  plp : Bool
  recovered : Bool
  spent : SMap Nat
  keyGen : SMap Nat
  marked : SMap (List Nat)
  life90 : Bool
  deriving DecidableEq, Repr

/-! ### Shelves and rings (chapters 6 and 14) -/

/-- A command of a submission ring in progress that ends in a later event: PARK; SWITCH, which parks first; a resume
with the pieces that it has yet to reload (core instance, SRAM offset, home address, length); a partition reset. -/
inductive RunCmd where
  | park (slot : Nat) (clusters : Nat)
  | switch (slot resume : Nat) (clusters : Nat)
  | resume (slot : Nat) (clusters : Nat) (left : List (Nat × Nat × Nat × Nat))
  | partReset (p : Nat)
  deriving DecidableEq, Repr

/-- A completion that waits for room in its ring (R554, R555). -/
structure Compl where
  tag : Nat
  status : Nat
  kind : Nat
  ring : Nat
  detail : Nat
  head : Nat
  deriving DecidableEq, Repr

/-- A RING page's rings; the operator's stand in the same form (R560). By submission ring: head, tail, halted, the
command that runs across steps with its entry and the head after it was read. The completion ring: head, tail, entries
that software has not released, phase, armed, completions that wait. -/
structure Ring where
  heads : SMap Nat
  tails : SMap Nat
  halted : SSet
  running : SMap (RunCmd × Entry × Nat)
  cqHead : Nat
  cqTail : Nat
  cqUsed : Nat
  phase : Bool
  armed : Bool
  held : List Compl
  deriving DecidableEq, Repr

def Ring.reset : Ring :=
  { heads := [], tails := [], halted := [], running := [], cqHead := 0, cqTail := 0, cqUsed := 0, phase := false,
    armed := false, held := [] }

/-- A DMA channel (R563–R571): head, tail, descriptors started and not done, oldest first, flags. -/
structure Chan where
  head : Nat
  tail : Nat
  run : List Desc
  stopped : Bool
  abandoned : Bool
  reason : Nat
  deriving DecidableEq, Repr

def Chan.reset : Chan := ⟨0, 0, [], false, false, 0⟩

/-- A DMA engine: maintenance, the halt record (channel, direction, cause, address) with its valid bit. -/
structure Dmae where
  maint : Bool
  halt : Nat × Bool × Nat × Nat
  valid : Bool
  chans : SMap Chan
  deriving DecidableEq, Repr

def Dmae.reset : Dmae := ⟨false, (0, false, 0, 0), false, []⟩

/-! ### Cluster engines (chapters 9 and 11) -/

/-- A queue of a cluster engine: descriptors with the submitting core's instance, and its refusal state. -/
structure EngQ where
  queue : List (Nat × Desc)
  stopped : Bool
  reason : Nat
  deriving DecidableEq, Repr

def EngQ.reset : EngQ := ⟨[], false, 0⟩

/-- A write by device virtual address: the bytes, and the offsets among them that carry poison. -/
structure VaWr where
  va : Nat
  bytes : List Byte
  bad : List Nat
  deriving DecidableEq, Repr

/-- An update in progress: what it writes, in order, the counters that it adds to, the elements that it writes and
its iterations (R371). -/
structure OptRun where
  desc : Desc
  writes : List VaWr
  counts : List (Nat × Nat)
  elems : Nat
  iters : Nat
  deriving DecidableEq, Repr

/-- An optimiser engine: its queue, the update in progress, and the ready identifier of a held head (R383). -/
structure Opte where
  q : EngQ
  cur : Option OptRun
  held : Option Nat
  deriving DecidableEq, Repr

def Opte.reset : Opte := ⟨.reset, none, none⟩

/-- A member of a group (R425): device number, physical cluster, partition. -/
structure Member where
  dev : Nat
  cluster : Nat
  part : Nat
  deriving DecidableEq, Repr

/-- A group record (R432): inner members and rings, outer members and rings, this member's indices, piece ÷ 256. -/
structure Group where
  inner : List Member
  rings : List (List Nat)
  outer : List Member
  orings : List (List Nat)
  meIn : Nat
  meOut : Nat
  piece : Nat
  deriving DecidableEq, Repr

/-- The active queue-0 descriptor of a reduction engine (R430): its group; the pieces that this member begins, those to
which it has yet to add on an inner chain, those on whose outer chain it stands as its node's inner tail, those not yet
written to dst; node partials and outer sums that wait for each other; and when it last made progress (fabric
timer). -/
structure RedAct where
  desc : Desc
  grp : Group
  start : SSet
  todo : SSet
  outs : SSet
  left : SSet
  mids : SMap (List Word)
  ys : SMap (List Word)
  since : Nat
  deriving DecidableEq, Repr

/-- A kept row at its source that has not come back (R464): row of the return buffer, member, slot, position, the
member's device. -/
structure TokRow where
  row : Nat
  member : Nat
  slot : Nat
  pos : Nat
  dev : Nat
  deriving DecidableEq, Repr

/-- Token exchange at a source (R459–R465): a tag routed, with what the combine needs; the tokens dropped for a NaN; the
kept rows not yet back; and the status that the combine will end with. -/
structure TokRun where
  tag : Nat
  ret : Nat
  rowBytes : Nat
  k : Nat
  nan : SSet
  open_ : List TokRow
  status : Nat
  deriving DecidableEq, Repr

/-- A reduction engine: its queues, the active queue-0 descriptor, messages held for the next (R442), the peer of a held
PIPE_SEND, the combine in progress with the time of its last progress, routed tags, tags of queue 0 that have ended,
and REDE_LAST. -/
structure Rede where
  q0 : EngQ
  q1 : EngQ
  q2 : EngQ
  act : Option RedAct
  held : List (Nat × RedMsg)
  pipe : Option Nat
  comb : Option (Desc × Nat)
  runs : List TokRun
  ended : SSet
  lastStatus : Nat
  lastOp : Nat
  deriving DecidableEq, Repr

def Rede.reset : Rede :=
  { q0 := .reset, q1 := .reset, q2 := .reset, act := none, held := [], pipe := none, comb := none, runs := [],
    ended := [], lastStatus := 0, lastOp := 0 }

/-- A receiving slot's open tag (R462, R467): sources heard, rows written, rows in all, and the cluster fabric timer at
its last message. -/
structure SlotTag where
  die : Nat
  part : Nat
  slot : Nat
  tag : Nat
  heard : SSet
  rows : SSet
  total : Nat
  since : Nat
  deriving DecidableEq, Repr

/-- The token exchange engines: open tags, tags completed (die, partition, slot, tag), and the device from which each
source of a slot was last heard, keyed ((die × 16 + partition) × 256 + slot) × 65,536 + source. -/
structure Tokx where
  open_ : List SlotTag
  done : List (Nat × Nat × Nat × Nat)
  srcs : SMap Nat
  deriving DecidableEq, Repr

def Tokx.reset : Tokx := ⟨[], [], []⟩

/-! ### What the device puts out -/

/-- A frame in a sub-port's transmit share (R480, R486): its priority, the queue pair that offered it (none for the
frames of firmware), the partition it counts for, the VLAN ID of its tag, the peer link it goes to, its length on the
wire, the IP version and addresses (R507), the byte of DSCP and ECN and the UDP port (R508), and the UDP payload: the
40-byte transport header, the sealed payload, the 16-byte tag (R509, R511). -/
structure TxItem where
  pri : Nat
  qp : Option Nat
  part : Nat
  vid : Option Nat
  link : Nat
  len : Nat
  ipv6 : Bool
  src : List Byte
  dst : List Byte
  tos : Nat
  port : Nat
  payload : List Byte
  deriving DecidableEq, Repr

/-- Something that leaves the device, or that a reader of it receives. -/
inductive Output where
  /-- A read through a view returns a value. -/
  | read (v : View) (value : Nat)
  /-- An MSI-X message of a function's vector (R546). -/
  | msix (fn : View) (vec : Nat)
  /-- A write to host memory as a bus address of a function; the poisoned 64 B pieces travel with EP set (R633). -/
  | hostWrite (fn : View) (bus : Nat) (bytes : List Byte) (poisoned : List Nat)
  /-- A write-back to a T2 home: bytes before encryption under the partition's key (R289). -/
  | t2Write (part : Nat) (bus : Nat) (bytes : List Byte)
  /-- A write-back to a T3 home: lender, lease, frame, byte offset. -/
  | t3Write (dev lease frame off : Nat) (bytes : List Byte)
  /-- A lending message to a device: code, partition, lease, first, frames, grace (R324). -/
  | lend (dev : Nat) (code part lease first frames grace : Nat)
  /-- A message of R441 to a member: device, cluster, partition. -/
  | red (dev cluster part : Nat) (type : Nat) (m : RedMsg)
  /-- An Ethernet frame on a sub-port, from its destination address up to the FCS. -/
  | frame (s : SubId) (bytes : List Byte)
  /-- A PFC frame: enable vector and times (R482). -/
  | pfc (s : SubId) (vec : Byte) (times : List Nat)
  /-- An ebb message: type, sequence, lanes, flags (R495). -/
  | ebb (s : SubId) (type : Nat) (seq lanes flags : Nat)
  /-- A tree message to a node: type, partition, tag, offset, bytes (R537). -/
  | tree (part node type tag offset : Nat) (bytes : List Byte)
  /-- The response to a management message. -/
  | mgmt (tag : Nat) (bytes : List Byte)
  /-- The response to a SPDM request. -/
  | spdm (via : SpdmVia) (bytes : List Byte)
  deriving DecidableEq, Repr

end Sys2Proof.Machine
end

