-- ==== Sys2Proof/Machine/Types3.lean ====
section
/-!
DEFINITION. The parts of the state that belong to the Ethernet ports, the fabric transport, the stream contexts and
decode engines, power, the security controller, start-up and the management endpoint.
-/

namespace Sys2Proof.Machine

/-! ### Ethernet ports (chapter 12) -/

/-- A frame in a sub-port's receive share (R480): its priority, the queue pair it was delivered to, its length, and
whether it was marked CE. -/
structure RxItem where
  pri : Nat
  qp : Nat
  len : Nat
  deriving DecidableEq, Repr

/-- A request of the ebb that waits for its answer (R498, R502): sequence, lanes, how often it was sent, when. -/
structure EbbReq where
  seq : Nat
  lanes : Nat
  tries : Nat
  at_ : Nat
  deriving DecidableEq, Repr

/-- A hold of R498 step 3: the lanes switched to, since when, and whether it is a wake. -/
structure EbbHold where
  lanes : Nat
  since : Nat
  wake : Bool
  deriving DecidableEq, Repr

/-- A sub-port: lanes in use (0 down), low-power idle, the two shares, the deficit round robin (R487), pauses by
priority (R483) as the port timer at which they end, priorities for which an xoff stands with the time it was last
sent (R482), and the ebb of R495–R502. -/
structure SubPort where
  lanes : Nat
  lpi : Bool
  tx : List TxItem
  rx : List RxItem
  deficit : SMap Nat
  turn : Nat
  lastQp : SMap Nat
  pause : SMap Nat
  xoff : SMap Nat
  capUntil : Nat
  capAt : Nat
  seq : Nat
  req : Option EbbReq
  wakeReq : Option EbbReq
  hold : Option EbbHold
  wakeNext : Bool
  fails : Nat
  locked : Bool
  noReqUntil : Nat
  winFrom : Nat
  winTx : Nat
  winRx : Nat
  winBad : Bool
  rateFrom : Nat
  rateTx : Nat
  rateRx : Nat
  deriving DecidableEq, Repr

def SubPort.reset : SubPort :=
  { lanes := 0, lpi := false, tx := [], rx := [], deficit := [], turn := 0, lastQp := [], pause := [], xoff := [],
    capUntil := 0, capAt := 0, seq := 0, req := none, wakeReq := none, hold := none, wakeNext := false, fails := 0,
    locked := false, noReqUntil := 0, winFrom := 0, winTx := 0, winRx := 0, winBad := false, rateFrom := 0,
    rateTx := 0, rateRx := 0 }

/-- The twelve ports: sub-port s of port p at key 4 p + s; the sub-port that last failed an ebb, by port. -/
structure Eth where
  subs : SMap SubPort
  failSub : SMap Nat
  deriving DecidableEq, Repr

def Eth.reset : Eth := ⟨[], []⟩

/-! ### Fabric transport (chapter 13) -/

/-- FABT_STATE.state. -/
inductive FabState where
  | off | member | fenced
  deriving DecidableEq, Repr

def FabState.code : FabState → Nat | .off => 0 | .member => 1 | .fenced => 2

/-- Peer states of R506. -/
inductive PeerState where
  | up | down | dead
  deriving DecidableEq, Repr

/-- What is kept of a device number: known epoch, serial, state. -/
structure Peer where
  epoch : Nat
  serial : List Byte
  state : PeerState
  deriving DecidableEq, Repr

/-- Link states of a peer-link entry. -/
inductive LinkState where
  | unset | hello | up | down | refused
  deriving DecidableEq, Repr

def LinkState.code : LinkState → Nat | .unset => 0 | .hello => 1 | .up => 2 | .down => 3 | .refused => 4

/-- A peer link (R507): the entry's bytes as written, its state, the chosen version, the payload size in force, the
miss count, whether a packet came or went since the last boundary, the HELLO exchange, and when FENCED was last
sent on it. -/
structure PLink where
  entry : List Byte
  state : LinkState
  major : Nat
  minor : Nat
  psize : Nat
  misses : Nat
  heard : Bool
  spoke : Bool
  helloAt : Nat
  sent : Bool
  got : Bool
  fencedAt : Option Nat
  deriving DecidableEq, Repr

def PLink.reset : PLink := ⟨zbytes 32, .unset, 0, 0, 8192, 0, false, false, 0, false, false, none⟩

/-- A packet of a flow: type, flags (first, last, syn), body, when it was last sent, whether it was ever sent. -/
structure FlowPkt where
  psn : Nat
  type : Nat
  flags : Nat
  body : List Byte
  at_ : Nat
  sent : Bool
  deriving DecidableEq, Repr

/-- The sending end of a flow (R519–R525): packets without an acknowledgement and packets that wait, oldest first;
rate in Gb/s as thousandths. -/
structure SendFlow where
  dev : Nat
  flow : Nat
  next : Nat
  started : Bool
  link : Option Nat
  unacked : List FlowPkt
  waiting : List FlowPkt
  rate : Nat
  acked : Nat
  marked : Nat
  k : Nat
  deriving DecidableEq, Repr

/-- The receiving end of a flow (R521–R523): next psn, packets held out of order, packets since the last ACK with
the time of the first, CE count, and the bytes of the message under way. -/
structure RecvFlow where
  dev : Nat
  flow : Nat
  e : Nat
  held : SMap (Nat × Nat × List Byte)
  since : Nat
  first : Option Nat
  ce : Nat
  link : Nat
  msg : List Byte
  deriving DecidableEq, Repr

/-- A child of a tree node (R538–R540): node, its last TACK, the next byte to send it, consecutive rounds behind;
peeled or not, and in which order. -/
structure TreeKid where
  node : Nat
  ack : Nat
  sent : Nat
  late : Nat
  peeled : Option Nat
  deriving DecidableEq, Repr

/-- A relay tree at this node (R536): partition, record address, the record's fields, server, bytes held in order,
children, whether this node was peeled, the number of peels so far, whether a child was lost, and the next round. -/
structure Tree where
  part : Fin 16
  record : Nat
  nodes : Nat
  me : Nat
  window : Nat
  length : Nat
  object : Nat
  tag : Nat
  sig : Word
  lagThr : Nat
  rounds : Nat
  table : List (Nat × Nat × Nat)
  server : Option Nat
  held : Nat
  kids : List TreeKid
  peeled : Bool
  peels : Nat
  lost : Bool
  roundAt : Nat
  deriving DecidableEq, Repr

/-- The fabric transport: state, the identity under which it was fenced, local addresses, peers, links, flows,
transmit counters by part × 2 + slot with those exhausted, highest syn counters by (device × 256 + part) × 2 + slot,
trees, the table window's words and status, rate window and keepalive boundaries. -/
structure Fab where
  state : FabState
  fencedId : Option (Nat × Nat)
  locals : SMap (List Byte)
  peers : SMap Peer
  links : SMap PLink
  send : List SendFlow
  recv : List RecvFlow
  txCtr : SMap Nat
  exhausted : SSet
  synCtr : SMap Nat
  trees : List Tree
  tblSts : Nat
  deriving DecidableEq, Repr

def Fab.reset : Fab :=
  { state := .off, fencedId := none, locals := [], peers := [], links := [], send := [], recv := [], txCtr := [],
    exhausted := [], synCtr := [], trees := [], tblSts := 0 }

/-! ### Streams and decode engines (chapter 15) -/

/-- A picture assembled or under assembly (R581–R585): its bytes, identifier or timestamp, SSRC, first sequence
number, the time of its last packet, whether it is an IRAP or a JPEG picture. -/
structure Picture where
  bytes : List Byte
  ident : Nat
  ssrc : Nat
  firstSeq : Nat
  stamp : Nat
  irap : Bool
  width : Nat
  height : Nat
  deriving DecidableEq, Repr

/-- The assembly of a picture: what is in it so far, the next index or sequence number, its first packet's time. -/
structure Assembly where
  pic : Picture
  next : Nat
  since : Nat
  deriving DecidableEq, Repr

/-- A slot (R594–R599): own, done, early. -/
structure BatchSlot where
  own : Bool
  done : Nat
  early : Bool
  deriving DecidableEq, Repr

/-- A stream context: assembly, the sequence number expected next, the timestamp whose packets are passed over until the
next picture starts, the decoder's earlier pictures, pictures waiting, waiting for an IRAP picture, pictures dropped since the last record, the active slot, pictures written in it, when its first was written, the two
slots; the picture in service at an engine stands with the engine. -/
structure Ctx where
  asm : Option Assembly
  nextSeq : Option Nat
  skip : Option Nat
  refs : List Picture
  waiting : List Picture
  waitIrap : Bool
  drops : Nat
  active : Option Nat
  written : Nat
  batchAt : Nat
  slot0 : BatchSlot
  slot1 : BatchSlot
  deriving DecidableEq, Repr

def Ctx.reset : Ctx :=
  { asm := none, nextSeq := none, skip := none, refs := [], waiting := [], waitIrap := false, drops := 0, active := none,
    written := 0, batchAt := 0, slot0 := ⟨false, 0, false⟩, slot1 := ⟨false, 0, false⟩ }

/-- A decode engine (R602): deficits by partition, the partition whose turn it is, the last context served by
partition, and the picture in service with its context and cost. -/
structure Deco where
  deficit : SMap Nat
  turn : Nat
  lastCtx : SMap Nat
  cur : Option (Nat × Picture × Nat)
  deriving DecidableEq, Repr

def Deco.reset : Deco := ⟨[], 0, [], none⟩

/-- Streams and decode engines. -/
structure Ingest where
  ctx : SMap Ctx
  deco : SMap Deco
  deriving DecidableEq, Repr

/-! ### Power (chapter 16) -/

/-- A compute die's thermal state (R621): ceilings and the hottest sensor, k, emergency, readings at 105 °C. -/
structure DiePwr where
  thermal : Nat
  cap : Nat
  k : Nat
  hot : Nat
  emergency : Bool
  run105 : Nat
  deriving DecidableEq, Repr

def DiePwr.reset : DiePwr := ⟨84, 84, 16, 0, false, 0⟩

/-- Power: the envelope G and the measured M in mW, V and I as PWRC_IN shows them, the 100 µs average; device state,
target, the transition under way; brake, undervoltage, trip; windows above the cap, k of the cap loop; the POWER
message that waits. -/
structure Pwr where
  g : Nat
  m : Nat
  volt : BitVec 16
  amp : BitVec 16
  avg : Nat
  state : Nat
  target : Nat
  moving : Option Nat
  brake : Bool
  under : Bool
  trip : Bool
  overs : Nat
  capK : Nat
  /-- The thermal loop's k by die is in dies; the brake's own k. -/
  brakeK : Nat
  ballast : Nat
  dies : SMap DiePwr
  mgmtTag : Option (BitVec 5)
  /-- Input and ballast energy not yet counted, in units of 10^-7 mJ. -/
  eAcc : Nat
  bAcc : Nat
  deriving DecidableEq, Repr

def Pwr.reset : Pwr :=
  { g := 0, m := 0, volt := 0, amp := 0, avg := 0, state := 0, target := 0, moving := none, brake := false,
    under := false, trip := false, overs := 0, capK := 16, brakeK := 16, ballast := 0, dies := [], mgmtTag := none,
    eAcc := 0, bAcc := 0 }

/-! ### Security controller (chapter 18) -/

/-- A firmware slot: its bundle, and whether it is valid. -/
structure FwSlot where
  valid : Bool
  bundle : List Byte
  deriving DecidableEq, Repr

/-- SPDM connection state of a transport (R673): how far GET_VERSION, GET_CAPABILITIES, NEGOTIATE_ALGORITHMS went,
the version, the transcript so far, and a large response that CHUNK_GET takes. -/
structure Spdm where
  phase : Nat
  version : Nat
  transcript : List Byte
  handle : Nat
  large : List Byte
  nextChunk : Nat
  deriving DecidableEq, Repr

def Spdm.reset : Spdm := ⟨0, 0, [], 0, [], 0⟩

/-- The security controller: lifecycle, the slot that boots, the two slots, the slot that runs, fallback, fused
security versions, revoked pairs, the load under way and its result, keys by target × 2 + slot, transmit slots, the
key window's status, key generations of partitions' T2 and T3 keys, SPDM by transport, the last digest of an even
manifest generation. -/
structure Sec where
  life : Nat
  bootB : Bool
  slotA : FwSlot
  slotB : FwSlot
  runB : Bool
  run1 : List Byte
  run2 : List Byte
  fallback : Bool
  svn1 : Nat
  svn2 : Nat
  revoked : Nat
  loading : Option (Bool × Nat × Nat)
  fwStatus : Nat
  fwKind : Nat
  autoSvn : Bool
  keys : SMap (List Byte)
  transmit : SMap Nat
  kStatus : Nat
  kData : SMap Word
  keyGen : SMap Nat
  spdmDoe : Spdm
  spdmMctp : Spdm
  deriving DecidableEq, Repr

/-- The controller at the end of start-up: production, slot A boots and runs, both slots valid. -/
def Sec.reset : Sec :=
  { life := 1, bootB := false, slotA := ⟨true, []⟩, slotB := ⟨true, []⟩, runB := false, run1 := [], run2 := [],
    fallback := false, svn1 := 0, svn2 := 0, revoked := 0, loading := none, fwStatus := 0, fwKind := 0,
    autoSvn := false, keys := [], transmit := [], kStatus := 0, kData := [], keyGen := [], spdmDoe := .reset,
    spdmMctp := .reset }

/-! ### Start-up and management (chapters 19 and 20) -/

/-- Start-up: the last step completed, the step that failed and its code, recovery mode, the cause of the last
start-up, firmware activation, recovery requested, milliseconds, the I/O timer at its beginning; auxiliary power,
the 48 V input in range, PERST# asserted, PROV_N low, SRIS_N low as sampled; the recovery requests; a DEVICE_RESET
that waits for the dual commit; the PCI Express link; and the management endpoint. -/
structure Boot where
  step : Nat
  failed : Nat
  code : Nat
  recovery : Bool
  rcause : Nat
  fwAct : Bool
  recReq : Bool
  ms : Nat
  startAt : Nat
  aux : Bool
  inputOk : Bool
  perst : Bool
  provLow : Bool
  /-- PROV_N was low when auxiliary power came up (R136). -/
  provSampled : Bool
  srisLow : Bool
  recAsked : Bool
  resetWaits : Option Bool
  rebuilt : Bool
  linkUp : Bool
  rate : Nat
  flit : Bool
  width : Nat
  i3c : BitVec 7
  assigned : Bool
  eid : Byte
  mgmtBusy : Bool
  deriving DecidableEq, Repr

/-- The end of step 8 after a power-on (R688). -/
def Boot.reset : Boot :=
  { step := 8, failed := 0, code := 0, recovery := false, rcause := 0, fwAct := false, recReq := false, ms := 0,
    startAt := 0, aux := true, inputOk := true, perst := false, provLow := false, provSampled := false, srisLow := false,
    recAsked := false, resetWaits := none, rebuilt := false, linkUp := true, rate := 7, flit := true, width := 16,
    i3c := 0, assigned := false, eid := 0, mgmtBusy := false }

end Sys2Proof.Machine
end

