-- ==== Sys2Proof/Machine/State.lean ====
section
/-!
DEFINITION. The state of the EV3216 as a block: the queue of commands that wait, and the device. Everything is plain
data. Fault and Refusal are the reasons a step can stop.
-/

namespace Sys2Proof.Machine

/-- The device: everything that the spec gives the module, but for the queue of commands. -/
structure Dev where
  /-- Register pages of chapter 2. -/
  pg : Pages
  /-- Partition tables, the dual commit, partition states (chapter 3). -/
  parts : Parts
  /-- The protected store and fuses (R111, R136). -/
  store : Store
  irq : Irq
  /-- All memory of the module: core SRAM, cluster buffers, HBM, flash namespaces (Machine/Mem.lean). -/
  mem : List Host.Cell
  /-- Poisoned 64 B granules, as memory key div 64 (R632). -/
  poison : SSet
  isles : SMap Isle
  cores : SMap Core
  /-- Event counters: core instance × 64 + i, and 0x10000 + cluster × 256 + i (R259). -/
  evc : SMap Word
  /-- Signals under way, oldest first (R258–R260). -/
  sigs : List Sig
  clus : SMap Clus
  mvec : SMap Mvec
  nwch : SMap Nwch
  opte : SMap Opte
  rede : SMap Rede
  tokx : Tokx
  /-- Shelf images by partition × 64 + slot (R276), with the order in which they were parked. -/
  shelves : SMap (List Byte × Nat)
  tier : Tier
  flash : Flash
  rings : SMap Ring
  dmae : SMap Dmae
  eth : Eth
  fab : Fab
  strm : Ingest
  pwr : Pwr
  errm : Errm
  halt : Side
  brake : Side
  sec : Sec
  boot : Boot
  /-- What has left the device, newest first. -/
  out : List Output
  /-- The counter that each free value takes its use from: the model's own field. -/
  free : Nat
  deriving DecidableEq, Repr

/-- The machine: commands that wait, first in first out, and the device. -/
structure State where
  pending : List Instr
  dev : Dev
  deriving DecidableEq, Repr

/-- Why a step stops with a fault. -/
inductive Fault where
  /-- A command names a page that no module has: an instance number beyond the table of R78. Raised by the commands
  that carry a Page and by those that carry an island or a slot number out of range. Safe: the machine stops. -/
  | noSuchUnit
  deriving DecidableEq, Repr

/-- Why a command has no meaning. -/
inductive Refusal where
  /-- The command of this mnemonic has no meaning in the model yet; raised by exec. Safe. -/
  | notModelled (mnemonic : String)
  deriving DecidableEq, Repr

/-- The factory's partition table (R112): partition 0 owns every resource. Words in the order of R114. -/
def factoryTable : SMap Word :=
  [(0, 0xFFFF#32)] ++ ((List.range 10).map fun i => (1 + i, 0xFFFFFFFF#32)) ++ [(11, 0xFFFF#32)] ++
  ((List.range 12).map fun i => (12 + i, 0x4000#32)) ++
  [(24, 0xFFFFFFFF#32), (25, 0xFFFFFFFF#32), (26, 294912#32), (27, 0xFFFFFFFF#32), (28, 0xFFFFFFFF#32),
   (29, 4577636#32), (30, 400#32), (31, 64#32)]

/-- The device at the end of step 8 of start-up after a power-on (R688), as it leaves the factory (R112), with every
slot sound: slot 16 of each cluster is the spare, whose page is Absent (R38, R85); the flash mount is under way
(R685); step 8 has set DEVC BLK_EVT bit 0. -/
def Dev.reset : Dev :=
  { pg := { st := (List.range 16).map fun c => ((⟨.core, 17 * c + 16⟩ : Page).key, ⟨.absent, false, false⟩)
            hdr := [(hkey .pf ⟨.devc, 0⟩, { Hdr.reset with evt := 1#32 })]
            ctr := [], snap := [], regs := [], gen := [] }
    parts := { live := factoryTable, staged := [], commit := .reset, st := [], vfEnabled := [] }
    store := { table := factoryTable, leafQ := none, ecKey := [], lmsKey := [], enrolled := false, nsChange := [] }
    irq := { summary := [], unmasked := [], pba := [], bme := List.range 17 }
    mem := [], poison := [], isles := [], cores := [], evc := [], sigs := [], clus := [], mvec := [], nwch := []
    opte := [], rede := [], tokx := .reset, shelves := [], tier := .reset
    flash := { state := .mounting, clean := true, charged := 0, spread := 0, spare := 1000, spareFull := 1000,
               replayed := 0, dumpOk := true, plp := false, recovered := false, spent := [], keyGen := [],
               marked := [], life90 := false }
    rings := [], dmae := [], eth := .reset, fab := .reset, strm := ⟨[], []⟩, pwr := .reset, errm := .reset
    halt := .reset, brake := .reset, sec := .reset, boot := .reset, out := [], free := 0 }

/-- The machine right after reset: no command waits. -/
def State.reset : State := { pending := [], dev := Dev.reset }

end Sys2Proof.Machine
end

