-- ==== Sys2Proof/Machine/Mem.lean ====
section
/-!
DEFINITION. The module's memories: core SRAM, cluster buffers, HBM stacks and flash namespaces, in one list of cells
in canonical form, and the poison marks of their 64-byte granules (R632).
-/

namespace Sys2Proof.Machine

/-- What a byte that nothing has written reads as (the zeroed memory of R684 step 4; see the log). -/
def memUnlisted : Byte := 0#8

/-- Each memory has 2^48 keys to itself. -/
def memSpan : Nat := 281474976710656

/-- A byte of the core SRAM of a physical core instance. -/
def sramKey (inst off : Nat) : Nat := memSpan * inst + off
/-- A byte of a cluster buffer. -/
def bufKey (cluster off : Nat) : Nat := memSpan * (512 + cluster) + off
/-- A byte of an HBM stack. -/
def hbmKey (stack off : Nat) : Nat := memSpan * (768 + stack) + off
/-- A byte of a flash namespace. -/
def nsKey (ns off : Nat) : Nat := memSpan * (1024 + ns) + off

/-- Bytes of an HBM stack (R684: 77,309,411,328). -/
def hbmStackBytes : Nat := 77309411328
/-- Bytes of a pseudo-channel: 2.25 GiB (R103). -/
def pchBytes : Nat := 2415919104
/-- Bytes of a core's SRAM: 64 MiB. -/
def sramBytes : Nat := 67108864

/-- The byte at a key. -/
def memGet (m : List Host.Cell) (k : Nat) : Byte := SMap.get m memUnlisted k

/-- Bytes [k, k + n). -/
def memRead (m : List Host.Cell) (k n : Nat) : List Byte := (List.range n).map fun i => memGet m (k + i)

/-- Store bytes from key k up. -/
def memWrite (m : List Host.Cell) (k : Nat) : List Byte → List Host.Cell
  | [] => m
  | b :: bs => memWrite (SMap.put m memUnlisted k b) (k + 1) bs

/-- Return bytes [k, k + n) to what nothing has written. -/
def memZero (m : List Host.Cell) (k n : Nat) : List Host.Cell := SMap.dropRange m k (k + n)

/-- The canonical form: keys strictly rising, no cell equal to what an unlisted byte reads as. -/
def memWf (m : List Host.Cell) : Bool := SMap.wf memUnlisted m

/-- Read n bytes of the device's memory. -/
def Dev.rd (d : Dev) (k n : Nat) : List Byte := memRead d.mem k n

/-- Some granule that meets [k, k + n) is poisoned. -/
def Dev.poisoned (d : Dev) (k n : Nat) : Bool := n ≠ 0 && d.poison.meets (k / 64) ((k + n - 1) / 64 + 1)

/-- The first granule of [k, k + n) that is poisoned, as a key. -/
def Dev.firstPoison (d : Dev) (k n : Nat) : Option Nat :=
  (d.poison.find? fun g => k / 64 ≤ g && g < (k + n + 63) / 64).map (· * 64)

/-- The offsets in [k, k + n) that lie in poisoned granules. -/
def Dev.badOffsets (d : Dev) (k n : Nat) : List Nat :=
  (List.range n).filter fun i => d.poison.contains ((k + i) / 64)

/-- The poison marks after a write of n bytes at k, of which those at the offsets bad carry poison: a granule written
whole without poison is cleared, one that receives poison is marked, another keeps its mark (R632). -/
def poisonAfter (p : SSet) (k n : Nat) (bad : List Nat) : SSet :=
  let whole := SSet.dropRange p ((k + 63) / 64) (Nat.max ((k + 63) / 64) ((k + n) / 64))
  bad.foldl (fun q o => q.add ((k + o) / 64)) whole

/-- The residence windows after a write of SRAM bytes [o, o + n): those it meets lose their intact flag (R280). -/
def winsAfter (ws : SMap ResWin) (o n : Nat) : SMap ResWin :=
  ws.map fun (e : Nat × ResWin) => if o < e.2.base + e.2.len ∧ e.2.base < o + n then (e.1, { e.2 with intact := false }) else e

/-- A write of SRAM breaks the residence windows that it meets. -/
def Dev.breakWins (d : Dev) (k n : Nat) : Dev :=
  let i := k / memSpan
  let c := d.cores.get .reset i
  if 272 ≤ i ∨ c.wins = [] then d
  else { d with cores := d.cores.put .reset i { c with wins := winsAfter c.wins (k % memSpan) n } }

/-- A write of the device's memory. -/
def Dev.wrBad (d : Dev) (k : Nat) (bytes : List Byte) (bad : List Nat) : Dev :=
  ({ d with mem := memWrite d.mem k bytes, poison := poisonAfter d.poison k bytes.length bad }).breakWins k bytes.length

/-- A write without poison. -/
def Dev.wr (d : Dev) (k : Nat) (bytes : List Byte) : Dev := d.wrBad k bytes []

/-- Mark every granule that meets [k, k + n) as poisoned. -/
def Dev.mark (d : Dev) (k n : Nat) : Dev :=
  if n = 0 then d else { d with poison := SSet.addRange d.poison (k / 64) ((k + n - 1) / 64 + 1 - k / 64) }

/-- Zero [k, k + n) and clear its marks. -/
def Dev.zero (d : Dev) (k n : Nat) : Dev :=
  { d with mem := memZero d.mem k n, poison := SSet.dropRange d.poison (k / 64) ((k + n) / 64) }

/-- The writes of an operation, in order. -/
def Dev.wrAll (d : Dev) (ws : List MemWr) : Dev := ws.foldl (fun d w => d.wrBad w.key w.bytes w.bad) d

/-- Poison the destinations of an abandoned operation (R641). -/
def Dev.markAll (d : Dev) (ws : List MemWr) : Dev := ws.foldl (fun d w => d.mark w.key w.bytes.length) d

end Sys2Proof.Machine
end

