-- ==== Sys2Proof/Machine/RegTable.lean ====
section
/-!
DEFINITION. The plain RW registers of every page: where they stand, which bits can be written, what they hold after a
reset of their block (the Reset columns of the register tables), and whether each view or each partition has its own.
Registers whose write is an action, and registers that the device itself writes, are not here: Machine/RegRead.lean
computes them from the state.
-/

namespace Sys2Proof.Machine

/-- Who has a register of its own: the page, each view, or each partition. -/
inductive Scope where
  | page | view | part
  deriving DecidableEq, Repr

/-- A run of RW registers: first offset, step, number, writable bits, reset value, scope. -/
structure RegRow where
  first : Nat
  step : Nat
  num : Nat
  mask : Nat
  reset : Nat
  scope : Scope
  deriving DecidableEq, Repr

/-- Rows of one page type. -/
def regRows : Blk → List RegRow
  | .part => [⟨0x040, 4, 1, 0xF, 0, .page⟩, ⟨0x108, 4, 1, 0xFFFFFFFF, 300000, .page⟩, ⟨0x10C, 4, 1, 0x3FFF, 100, .page⟩]
  | .clst => [⟨0x048, 4, 1, 0xFFFFFF, 0x803E8, .page⟩]
  | .tier =>
    [⟨0x040, 4, 1, 0xF, 0, .page⟩, ⟨0x060, 4, 1, 0xFFFF0000, 0, .view⟩, ⟨0x064, 4, 1, 0xFFFFF, 0, .view⟩,
     ⟨0x068, 4, 2, 0xFFFFFFFF, 0, .view⟩, ⟨0x070, 4, 1, 0xFFFFFF3F, 0, .view⟩, ⟨0x074, 4, 1, 0xFFFFFFFF, 0, .view⟩,
     ⟨0x080, 4, 1, 0xFFFFFFE0, 0, .part⟩, ⟨0x084, 4, 1, 0xFFFFF, 0, .part⟩, ⟨0x088, 4, 1, 0xFFFFFFFF, 0, .part⟩,
     ⟨0x08C, 4, 1, 0x10FFF, 0, .part⟩]
  | .lend => [⟨0x040, 4, 8, 0xFFFFFFFF, 0, .page⟩, ⟨0x060, 4, 1, 0x3FFF, 50, .page⟩, ⟨0x080, 4, 16, 0x1FFFF, 0, .page⟩]
  | .flsh => [⟨0x040, 4, 1, 0xF, 0, .page⟩]
  | .nwch =>
    [⟨0x040, 4, 1, 0x73, 0x10, .page⟩, ⟨0x044, 4, 1, 0x1FFFF, 4096, .page⟩, ⟨0x048, 4, 1, 0x1FFFF, 0, .page⟩,
     ⟨0x04C, 4, 1, 0xFFFF, 0, .page⟩, ⟨0x050, 4, 1, 0x1FFFF, 1024, .page⟩, ⟨0x054, 4, 1, 0xFFFF1F, 0x10008, .page⟩,
     ⟨0x064, 4, 1, 0x3FF, 0, .page⟩, ⟨0x100, 4, 48, 0xFFFFFFFF, 0, .page⟩]
  | .rede => [⟨0x054, 4, 1, 0x3FFF, 100, .page⟩, ⟨0x058, 4, 1, 0x7F3F, 0x1000, .page⟩]
  | .tokx =>
    [⟨0x040, 4, 1, 0xF, 0, .page⟩, ⟨0x044, 4, 1, 0xFFFFFFFF, 0, .part⟩, ⟨0x048, 4, 1, 0xFFFFF, 0, .part⟩,
     ⟨0x04C, 4, 1, 0x1FF, 0, .part⟩]
  | .ethp =>
    [⟨0x040, 4, 1, 0x33, 0, .page⟩, ⟨0x048, 4, 1, 0x1F3FFF, 0x12400, .page⟩, ⟨0x080, 8, 16, 0xFFFFFFFF, 0, .page⟩,
     ⟨0x084, 8, 16, 0xDFFFF, 0, .page⟩, ⟨0x100, 4, 16, 0xFFFFFFFF, 0, .page⟩, ⟨0x140, 4, 1, 0xFFFF00FF, 0x7D00000, .page⟩,
     ⟨0x144, 4, 1, 0xFFFFFFFF, 0x400080, .page⟩, ⟨0x148, 4, 1, 0x1FFFF, 0x10040, .page⟩,
     ⟨0x150, 4, 2, 0xFFFFFFFF, 0x4040404, .page⟩, ⟨0x160, 4, 1, 0xFF7F7F03, 0x10500A03, .page⟩,
     ⟨0x164, 4, 1, 0xFFFFFF, 100000, .page⟩, ⟨0x400, 16, 64, 0x73F, 0, .page⟩, ⟨0x404, 16, 64, 0xFFFF3FFF, 0x1000, .page⟩,
     ⟨0x408, 16, 64, 0x3F, 0, .page⟩]
  | .fabt =>
    [⟨0x040, 4, 1, 0xFFFF, 0, .page⟩, ⟨0x044, 4, 1, 0xFFFFFFFF, 0, .page⟩, ⟨0x04C, 4, 1, 0x1FFFFFF, 0x1C0B932, .page⟩,
     ⟨0x050, 4, 1, 0xFFFFFFF, 0x2002710, .page⟩, ⟨0x054, 4, 1, 0xFFFFFF, 0x604E20, .page⟩,
     ⟨0x058, 4, 1, 0xFFFFFFFF, 0x10103E8, .page⟩, ⟨0x05C, 4, 1, 0x3, 3, .page⟩, ⟨0x064, 4, 1, 0xFFFFF, 1000, .page⟩,
     ⟨0x070, 4, 1, 0x7FF, 0, .page⟩, ⟨0x080, 4, 8, 0xFFFFFFFF, 0, .page⟩]
  | .pcie =>
    [⟨0x040, 4, 1, 0xFFFF07FF, 0, .page⟩, ⟨0x080, 4, 1, 0xFFFFF000, 0, .page⟩, ⟨0x084, 4, 1, 0xFFFFFFFF, 0, .page⟩,
     ⟨0x088, 4, 1, 0x10F, 0, .page⟩, ⟨0x100, 4, 1, 0xFFFFF000, 0, .page⟩, ⟨0x104, 4, 1, 0xFFFFFFFF, 0, .page⟩,
     ⟨0x108, 4, 1, 0x10F, 0, .page⟩]
  | .ring =>
    [⟨0x040, 4, 1, 0x73F3F, 0, .page⟩, ⟨0x080, 32, 4, 0xFFFFF000, 0, .page⟩, ⟨0x084, 32, 4, 0xFFFFFFFF, 0, .page⟩,
     ⟨0x088, 32, 4, 0x10F, 0, .page⟩, ⟨0x100, 4, 1, 0xFFFFF000, 0, .page⟩, ⟨0x104, 4, 1, 0xFFFFFFFF, 0, .page⟩,
     ⟨0x108, 4, 1, 0x10F, 0, .page⟩]
  | .dmae =>
    [⟨0x100, 32, 8, 0xFFFFF000, 0, .page⟩, ⟨0x104, 32, 8, 0xFFFFF, 0, .page⟩, ⟨0x108, 32, 8, 0x10F, 0, .page⟩]
  | .strm =>
    [⟨0x040, 4, 1, 0x7F77, 4, .page⟩, ⟨0x044, 4, 2, 0xFFFFFFFF, 0, .page⟩, ⟨0x04C, 4, 1, 0xFFFFFF, 0, .page⟩,
     ⟨0x050, 4, 3, 0xFFFFFFFF, 0, .page⟩, ⟨0x05C, 4, 1, 0x1F, 0, .page⟩, ⟨0x060, 4, 3, 0xFFFFFFFF, 0, .page⟩,
     ⟨0x06C, 4, 3, 0xFFFFFFFF, 0x3F800000, .page⟩, ⟨0x078, 4, 1, 0xFFFF0000, 0, .page⟩, ⟨0x07C, 4, 1, 0xFFFFF, 0, .page⟩,
     ⟨0x080, 4, 1, 0xFFFFF, 0, .page⟩, ⟨0x084, 4, 1, 0xFFFFFFFF, 1000000, .page⟩, ⟨0x088, 4, 1, 0xFFFFFFFF, 0, .page⟩,
     ⟨0x100, 32, 2, 0xFFFFFFC0, 0, .page⟩, ⟨0x104, 32, 2, 0xFFFFF, 0, .page⟩, ⟨0x108, 32, 2, 0xFFFFFFFF, 0, .page⟩,
     ⟨0x10C, 32, 2, 0x1FF, 0, .page⟩, ⟨0x110, 32, 2, 0xFFFFFFC0, 0, .page⟩, ⟨0x114, 32, 2, 0xFFFFF, 0, .page⟩,
     ⟨0x118, 32, 2, 0xFFFFFFFF, 0, .page⟩]
  | .deco => [⟨0x040, 4, 16, 0xFF, 1, .page⟩]
  | .pwrc => [⟨0x044, 4, 1, 0xFFFFF, 100000, .page⟩, ⟨0x048, 4, 1, 0x3FF, 960, .page⟩, ⟨0x04C, 4, 1, 0x1F, 4, .page⟩]
  | .isle => [⟨0x04C, 4, 1, 0xFFFFFF0F, 0, .page⟩, ⟨0x050, 4, 1, 0xFFFF0000, 0, .page⟩, ⟨0x054, 4, 1, 0xFFFFF, 0, .page⟩]
  | .errm => [⟨0x048, 4, 1, 0xFFFF, 16, .page⟩, ⟨0x04C, 4, 1, 0xFFFFFFFF, 0x18000A, .page⟩]
  | .secc =>
    [⟨0x050, 4, 1, 0xFFFFF000, 0, .page⟩, ⟨0x054, 4, 1, 0xFFFFFFFF, 0, .page⟩, ⟨0x058, 4, 1, 0x1FFFFFF, 0, .page⟩,
     ⟨0x070, 4, 1, 0x11F, 0, .page⟩]
  | .devc | .mvec | .opte | .core | .hbmc | .side | .mgmt => []

/-- The offset is one of the run's. -/
def RegRow.has (r : RegRow) (off : Nat) : Bool :=
  r.first ≤ off && (off - r.first) % r.step == 0 && (off - r.first) / r.step < r.num

/-- The row of a page type that holds an offset. -/
def regRow (b : Blk) (off : Nat) : Option RegRow := (regRows b).find? (·.has off)

/-- The device's first factory Ethernet address as a 48-bit number, first byte most significant; a multiple of 64
(R722). -/
def factoryMac : Nat := (Config.fuseBits 1 48).toNat / 64 * 64

/-- A six-byte address as ETHP_UCn holds it: first byte in the low bits. -/
def macLo (a : Nat) : Nat := leNat (beBytes 6 a |>.take 4)
def macHi (a : Nat) : Nat := leNat (beBytes 6 a |>.drop 4)

/-- What a register holds after a reset of its block. ETHP_UCn entries 0 to 3 hold the factory addresses. -/
def regDflt (p : Page) (off : Nat) : Word :=
  match regRow p.blk off with
  | none => 0
  | some r =>
    if p.blk = .ethp && 0x080 ≤ off && off < 0x0A0 then
      let n := (off - 0x080) / 8
      let a := factoryMac + 4 * p.inst + n
      if off % 8 = 0 then BitVec.ofNat 32 (macLo a) else BitVec.ofNat 32 (macHi a + 0x10000 + n * 0x40000)
    else BitVec.ofNat 32 r.reset

end Sys2Proof.Machine
end

