-- ==== Sys2Proof/Machine/Ops.lean ====
section
/-!
DEFINITION. The named operations that every command is built from: pages and views, the live partition table, header
state with events and errors, counters, timers, registers, signals, error records, free values, interrupts, and the
frame that each meaning runs in (onDev).
-/

namespace Sys2Proof.Machine

/-! ### The live partition table (R114) -/

/-- Word i of partition n's live fields. -/
def Dev.tw (d : Dev) (n i : Nat) : Nat := (d.parts.live.get 0#32 (32 * n + i)).toNat

/-- The lowest partition whose word i has bit b set. -/
def Dev.ownerBit (d : Dev) (i b : Nat) : Option Nat := (List.range 16).find? fun n => (d.tw n i).testBit b

def Dev.clusterOwner (d : Dev) (c : Nat) : Option Nat := d.ownerBit 0 c
def Dev.pchOwner (d : Dev) (k : Nat) : Option Nat := d.ownerBit (1 + k / 32) (k % 32)
def Dev.dmaeOwner (d : Dev) (e : Nat) : Option Nat := d.ownerBit 9 e
def Dev.strmOwner (d : Dev) (k : Nat) : Option Nat := d.ownerBit (10 + k / 32) (k % 32)
def Dev.nsOwner (d : Dev) (m : Nat) : Option Nat := d.ownerBit (24 + m / 32) (m % 32)

/-- The queue pair lies in a word's range: base [5:0], count [14:8]. -/
def qpIn (w q : Nat) : Bool := bits w 5 0 ≤ q && q < bits w 5 0 + bits w 14 8

def Dev.qpOwner (d : Dev) (port q : Nat) : Option Nat := (List.range 16).find? fun n => qpIn (d.tw n (12 + port)) q

/-- The partition is active (R106). -/
def Dev.active (d : Dev) (n : Nat) : Bool := d.tw n 0 % 65536 ≠ 0

/-- Matrix-vector unit m belongs to the partition that owns all four clusters of its die (R105). -/
def Dev.mvecOwner (d : Dev) (m : Nat) : Option Nat :=
  (List.range 16).find? fun n => bits (d.tw n 0) (4 * m + 3) (4 * m) = 15

/-- The clusters of a partition, ascending. -/
def Dev.clustersOf (d : Dev) (n : Nat) : List Nat := bitsSet (d.tw n 0) 16

/-! ### Clusters, slots and logical cores (R37, R38) -/

def Dev.clus' (d : Dev) (c : Nat) : Clus := d.clus.get .reset c

/-- The slot of a logical core. -/
def Dev.slotOf (d : Dev) (c core : Nat) : Nat := ((d.clus' c).map.getD core (0, 0)).1

/-- The physical instance that serves a logical core (R36). -/
def Dev.inst (d : Dev) (c core : Nat) : Nat := 17 * c + d.slotOf c core

def Dev.instOf (d : Dev) (c : CoreId) : Nat := d.inst c.cluster.val c.core.val

/-- The logical core that a physical instance serves, if it serves one. -/
def Dev.logical (d : Dev) (inst : Nat) : Option Nat :=
  let i := (d.clus' (inst / 17)).map.findIdx fun e => e.1 == inst % 17
  if i < 16 then some i else none

def Dev.core (d : Dev) (inst : Nat) : Core := d.cores.get .reset inst
def Dev.setCore (d : Dev) (inst : Nat) (c : Core) : Dev := { d with cores := d.cores.put .reset inst c }
def Dev.updCore (d : Dev) (inst : Nat) (f : Core → Core) : Dev := d.setCore inst (f (d.core inst))

/-! ### Owners of pages -/

/-- The partition that owns a page (R115); none for a shared or an unassigned one. -/
def Dev.pageOwner (d : Dev) (p : Page) : Option Nat :=
  match p.blk with
  | .mvec => d.mvecOwner p.inst
  | .clst | .opte | .nwch | .rede => d.clusterOwner p.inst
  | .core => d.clusterOwner (p.inst / 17)
  | .isle => if p.inst < 272 then d.clusterOwner (p.inst / 17)
             else if p.inst < 0x120 then d.clusterOwner (p.inst - 0x110) else none
  | .ring => if d.active p.inst then some p.inst else none
  | .dmae => d.dmaeOwner p.inst
  | .strm => d.strmOwner p.inst
  | .devc | .part | .hbmc | .tier | .flsh | .lend | .ethp | .fabt | .tokx | .deco | .pwrc | .errm
  | .pcie | .secc | .side | .mgmt => none

/-- The page stands in the view, by the live state (R78, R63, R695, R725). -/
def Dev.reaches (d : Dev) (v : View) (p : Page) : Bool :=
  p.valid && match v with
  | .pf => !d.boot.recovery || (match p.blk with
      | .devc | .pcie | .secc | .errm | .mgmt => true
      | .dmae => p.inst == 0
      | _ => false)
  | .vf n => !d.boot.recovery && (match p.blk with
      | .devc | .part | .hbmc | .tier | .flsh | .lend | .ethp | .fabt | .tokx | .deco | .pwrc | .errm => true
      | .pcie | .secc | .side | .mgmt => false
      | .ring => p.inst == n.val
      | .core => d.pageOwner p == some n.val && (d.logical p.inst).isSome
      | .isle => 0x120 ≤ p.inst || (d.pageOwner p == some n.val && (272 ≤ p.inst || (d.logical p.inst).isSome))
      | .mvec | .clst | .opte | .nwch | .rede | .dmae | .strm => d.pageOwner p == some n.val)

/-! ### Header state: events, errors, counters (R81, R90–R95) -/

def Dev.hdrOf (d : Dev) (v : View) (p : Page) : Hdr := d.pg.hdr.get .reset (hkey v p)

def Dev.updHdr (d : Dev) (v : View) (p : Page) (f : Hdr → Hdr) : Dev :=
  { d with pg := { d.pg with hdr := d.pg.hdr.upd .reset (hkey v p) f } }

/-- Set bits of BLK_EVT in a view. -/
def Dev.evt (d : Dev) (v : View) (p : Page) (m : Nat) : Dev :=
  d.updHdr v p fun h => { h with evt := h.evt ||| BitVec.ofNat 32 m }

/-- Set bits of BLK_EVT in the PF view and in a partition's view. -/
def Dev.evtP (d : Dev) (p : Page) (m : Nat) (part : Option Nat) : Dev :=
  let d := d.evt .pf p m
  match part with
  | some n => d.evt (viewOf n) p m
  | none => d

/-- Set bits of BLK_EVT in every view. -/
def Dev.evtAll (d : Dev) (p : Page) (m : Nat) : Dev := View.all.foldl (fun d v => d.evt v p m) d

/-- A header after an error code arrives (R91). -/
def Hdr.err (h : Hdr) (code : BitVec 16) (part : Byte) : Hdr :=
  if h.errCode = 0 then { h with errCode := code, errPart := part, evt := h.evt ||| 0x80000000#32 }
  else { h with errCnt := if h.errCnt = 0xFFFFFFFF#32 then h.errCnt else h.errCnt + 1 }

/-- Record a header error code in the view whose access caused it (R90). -/
def Dev.err (d : Dev) (v : View) (p : Page) (code : Nat) : Dev :=
  d.updHdr v p fun h => h.err (BitVec.ofNat 16 code) (BitVec.ofNat 8 (v.part.getD 255))

/-- Record an error of the block's own operation in the PF view and in the view of the partition (R90). -/
def Dev.errP (d : Dev) (p : Page) (code : Nat) (part : Option Nat) : Dev :=
  let b := BitVec.ofNat 8 (part.getD 255)
  let d := d.updHdr .pf p fun h => h.err (BitVec.ofNat 16 code) b
  match part with
  | some n => d.updHdr (viewOf n) p fun h => h.err (BitVec.ofNat 16 code) b
  | none => d

/-- The largest value of a counter (R95). -/
def cntMax : Nat := 0xFFFFFFFFFFFFFFFF

/-- The key of counter n of a page in a view. -/
def ckey (v : View) (p : Page) (n : Nat) : Nat := hkey v p * 128 + n

/-- Add k to a counter of a view; it holds at its largest value (R95). -/
def Dev.cnt (d : Dev) (v : View) (p : Page) (n k : Nat) : Dev :=
  { d with pg := { d.pg with ctr := d.pg.ctr.upd 0 (ckey v p n) fun c => Nat.min cntMax (c + k) } }

/-- Add k to a counter in the PF view and in the view of the partition to which the event is attributed. -/
def Dev.cntP (d : Dev) (p : Page) (n k : Nat) (part : Option Nat) : Dev :=
  let d := d.cnt .pf p n k
  match part with
  | some q => d.cnt (viewOf q) p n k
  | none => d

/-! ### Plain registers -/

/-- The partition that the registers of a selecting page show in a view: its own, or the one that SEL (offset 0x040)
selects (PART_SEL, TIER_SEL, FLSH_SEL, TOKX_SEL). -/
def Dev.selPart (d : Dev) (v : View) (p : Page) : Nat :=
  match v with
  | .vf n => n.val
  | .pf => (d.pg.regs.get 0#32 (p.key * 0x100000 + 0x040)).toNat % 16

/-- The key of a register: page, scope, offset. -/
def rkey (p : Page) (sc off : Nat) : Nat := p.key * 0x100000 + sc * 0x1000 + off

/-- The scope number of a register as a view sees it. -/
def Dev.scopeOf (d : Dev) (v : View) (p : Page) (off : Nat) : Nat :=
  match (regRow p.blk off).map (·.scope) with
  | some Scope.view => v.key + 1
  | some Scope.part => d.selPart v p + 0x40
  | _ => 0

def Dev.regAt (d : Dev) (p : Page) (sc off : Nat) : Word := d.pg.regs.get (regDflt p off) (rkey p sc off)
def Dev.setRegAt (d : Dev) (p : Page) (sc off : Nat) (w : Word) : Dev :=
  { d with pg := { d.pg with regs := d.pg.regs.put (regDflt p off) (rkey p sc off) w } }

/-- A register that the page has once. -/
def Dev.reg (d : Dev) (p : Page) (off : Nat) : Nat := (d.regAt p 0 off).toNat
def Dev.setReg (d : Dev) (p : Page) (off v : Nat) : Dev := d.setRegAt p 0 off (BitVec.ofNat 32 v)

/-- A register as a view sees it. -/
def Dev.regV (d : Dev) (v : View) (p : Page) (off : Nat) : Nat := (d.regAt p (d.scopeOf v p off) off).toNat

/-- A register that each partition has. -/
def Dev.regP (d : Dev) (p : Page) (part off : Nat) : Nat := (d.regAt p (part + 0x40) off).toNat
def Dev.setRegP (d : Dev) (p : Page) (part off v : Nat) : Dev := d.setRegAt p (part + 0x40) off (BitVec.ofNat 32 v)

/-- Write a plain register through a view: only the writable bits change. -/
def Dev.wrReg (d : Dev) (v : View) (p : Page) (off : Nat) (w : Word) : Dev :=
  match regRow p.blk off with
  | none => d
  | some r =>
    let m := BitVec.ofNat 32 r.mask
    let sc := d.scopeOf v p off
    d.setRegAt p sc off ((d.regAt p sc off &&& ~~~m) ||| (w &&& m))

/-- Return every plain register of a page to its reset value. -/
def Dev.clearRegs (d : Dev) (p : Page) : Dev :=
  { d with pg := { d.pg with regs := d.pg.regs.dropRange (p.key * 0x100000) ((p.key + 1) * 0x100000) } }

/-! ### Singleton pages -/

abbrev pDevc : Page := ⟨.devc, 0⟩
abbrev pPart : Page := ⟨.part, 0⟩
abbrev pTier : Page := ⟨.tier, 0⟩
abbrev pFlsh : Page := ⟨.flsh, 0⟩
abbrev pLend : Page := ⟨.lend, 0⟩
abbrev pPcie : Page := ⟨.pcie, 0⟩
abbrev pFabt : Page := ⟨.fabt, 0⟩
abbrev pPwrc : Page := ⟨.pwrc, 0⟩
abbrev pSecc : Page := ⟨.secc, 0⟩
abbrev pErrm : Page := ⟨.errm, 0⟩
abbrev pSide : Page := ⟨.side, 0⟩
abbrev pMgmt : Page := ⟨.mgmt, 0⟩
abbrev pCore (i : Nat) : Page := ⟨.core, i⟩
abbrev pClst (c : Nat) : Page := ⟨.clst, c⟩
abbrev pIsle (i : Nat) : Page := ⟨.isle, i⟩
abbrev pEthp (i : Nat) : Page := ⟨.ethp, i⟩
abbrev pDmae (i : Nat) : Page := ⟨.dmae, i⟩
abbrev pRing (i : Nat) : Page := ⟨.ring, i⟩
abbrev pStrm (i : Nat) : Page := ⟨.strm, i⟩

/-! ### Block states -/

def Dev.pst (d : Dev) (p : Page) : PageSt := d.pg.st.get .reset p.key
def Dev.setPst (d : Dev) (p : Page) (s : PageSt) : Dev := { d with pg := { d.pg with st := d.pg.st.put .reset p.key s } }
def Dev.bst (d : Dev) (p : Page) : BlkState := (d.pst p).state

/-- Move a page to a state; BLK_EVT.state is set when it changes (R85). -/
def Dev.toState (d : Dev) (p : Page) (s : BlkState) : Dev :=
  if (d.pst p).state = s then d
  else (d.setPst p { d.pst p with state := s }).evtP p 0x40000000 (d.pageOwner p)

/-- The block is Quiesced or Disabled. -/
def Dev.stillBlk (d : Dev) (p : Page) : Bool := d.bst p == .quiesced || d.bst p == .disabled

/-! ### Islands and timers (R47–R52) -/

/-- Highest frequency of an island in 25 MHz (R42): 2.10 GHz, 2.00 GHz for a mesh segment; the fixed ones as a mesh
segment (see the log). -/
def isleFmax (i : Nat) : Nat := if i < 0x120 then 84 else 80

/-- Every island Fired at fmax (R688). -/
def isleReset (i : Nat) : Isle :=
  { ticks := 0, timer := 0, state := .fired, req := .fired, move := .rest, wake := false, target := isleFmax i,
    eff := isleFmax i, saved := false }

def Dev.isle (d : Dev) (i : Nat) : Isle := d.isles.get (isleReset i) i
def Dev.setIsle (d : Dev) (i : Nat) (x : Isle) : Dev := { d with isles := d.isles.put (isleReset i) i x }
def Dev.updIsle (d : Dev) (i : Nat) (f : Isle → Isle) : Dev := d.setIsle i (f (d.isle i))

/-- What an island's local timer reads. -/
def Dev.timer (d : Dev) (i : Nat) : Nat := (d.isle i).timer

/-- The I/O die island. -/
abbrev ioIsle : Nat := 0x124
/-- Fabric island of a cluster. -/
abbrev fabIsle (c : Nat) : Nat := 0x110 + c
/-- The island of an Ethernet port. -/
abbrev portIsle (p : Nat) : Nat := 0x130 + p
/-- The mesh segment of a die. -/
abbrev meshIsle (die : Nat) : Nat := 0x120 + die

/-- A timed event says that its deadline has come: the island's timer has then reached it (see the log). -/
def Dev.reach (d : Dev) (i t : Nat) : Dev :=
  d.updIsle i fun x => if x.timer < t then { x with ticks := x.ticks + (t - x.timer), timer := t } else x

/-- A wake (R608): the island asks for Fired; one that descends finishes its descent first. -/
def Dev.wake (d : Dev) (i : Nat) : Dev :=
  let x := d.isle i
  if x.state = .fired ∨ x.state = .cold ∨ x.move = .exiting then d
  else
    let d := if x.wake then d else d.cntP (pIsle i) 4 1 (d.pageOwner (pIsle i))
    match x.move with
    | .rest => d.setIsle i { x with req := .fired, move := .exiting }
    | _ => d.setIsle i { x with req := .fired, wake := true }

/-- An island that takes a transfer only after a wake (R608, R727). -/
def Dev.asleep (d : Dev) (i : Nat) : Bool := (d.isle i).state != .fired && (d.isle i).state != .cold

/-- The island of a memory key: a core's SRAM, a cluster buffer. -/
def keyIsle (k : Nat) : Option Nat :=
  let s := k / memSpan
  if s < 272 then some s else if 512 ≤ s ∧ s < 528 then some (fabIsle (s - 512)) else none

/-- Transfers to memory keys: the islands that sleep are woken, and the transfer waits (false). -/
def Dev.wakeKeys (d : Dev) (ks : List Nat) : Bool × Dev :=
  let is := (ks.filterMap keyIsle).filter d.asleep
  (is.isEmpty, is.foldl Dev.wake d)

/-- A transfer that reaches a Cold island is dropped (R608). -/
def Dev.coldDrop (d : Dev) (i : Nat) : Dev :=
  (d.errP (pIsle i) 0x0102 (d.pageOwner (pIsle i))).cntP (pIsle i) 5 1 (d.pageOwner (pIsle i))

/-! ### Free values and output -/

/-- A fresh number that nothing constrains. -/
def Dev.freeNat (d : Dev) (tag : Nat) : Nat × Dev := (Config.freeNat d.free tag, { d with free := d.free + 1 })
/-- A fresh Bool that nothing constrains. -/
def Dev.freeBool (d : Dev) (tag : Nat) : Bool × Dev := (Config.freeBool d.free tag, { d with free := d.free + 1 })
/-- A fresh bit string that nothing constrains. -/
def Dev.freeBits (d : Dev) (tag w : Nat) : BitVec w × Dev := (Config.freeBits d.free tag w, { d with free := d.free + 1 })

/-- Something leaves the device. -/
def Dev.put (d : Dev) (o : Output) : Dev := { d with out := o :: d.out }

/-! ### Signals (R242, R259) -/

def sigIndex (w : Word) : Nat := bits w.toNat 7 0
def sigCore (w : Word) : Nat := bits w.toNat 11 8
def sigCluster (w : Word) : Nat := bits w.toNat 15 12
def sigScope (w : Word) : Bool := bit w.toNat 16
def sigOn (w : Word) : Bool := bit w.toNat 17
def sigRsv (w : Word) : Nat := bits w.toNat 23 18
def sigInc (w : Word) : Nat := bits w.toNat 31 24

/-- Channels that keep the order of their own signals (R44, R260). -/
abbrev srcCore (inst q : Nat) : Nat := inst * 4 + q
abbrev srcTier : Nat := 2000
abbrev srcDma (e ch : Nat) : Nat := 2100 + e * 8 + ch
abbrev srcStrm (c : Nat) : Nat := 2400 + c
abbrev srcEng (kind c q : Nat) : Nat := 2500 + kind * 100 + c * 4 + q
abbrev srcTree : Nat := 3000

/-- Send a signal, if its word is enabled. -/
def Dev.signal (d : Dev) (w : Word) (part : Fin 16) (src : Nat) : Dev :=
  if sigOn w then { d with sigs := d.sigs ++ [⟨w, part, src⟩] } else d

/-- A partition number that a computation gave. -/
def partFin (n : Nat) : Fin 16 := ⟨n % 16, Nat.mod_lt _ (by decide)⟩

/-! ### Error records (R637, R638) -/

/-- Queue a record, or count it lost. -/
def Dev.queueRec (d : Dev) (r : ErrRec) : Dev :=
  let n := d.errm.queue.length
  let room := if r.sev = .u then n < 256 else n < 256 && (d.errm.queue.filter fun (x : ErrRec) => x.sev ≠ .u).length < 224
  let d := { d with errm := { d.errm with seq := d.errm.seq + 1 } }
  if room then
    ({ d with errm := { d.errm with queue := d.errm.queue ++ [{ r with seq := d.errm.seq - 1 }] } }.evt .pf pErrm 1).cnt
      .pf pErrm 0 1
  else (d.evt .pf pErrm 2).cnt .pf pErrm (if r.sev = .u then 2 else 1) 1

/-- Write a record of a source page. -/
def Dev.record (d : Dev) (code : Nat) (p : Page) (sev : Sev) (dom : Dom) (part : Option Nat) (akind addr isle : Nat)
    (esc : Bool) : Dev :=
  d.queueRec
    { seq := 0, code := BitVec.ofNat 16 code, blk := p.blk.code, inst := p.inst, sev := sev, dom := dom,
      part := part.getD 255, akind := akind, escalated := esc, island := isle, stamp := d.timer isle,
      addr := BitVec.ofNat 64 addr }

/-- The island whose timer stamps a page's records and times its rules. -/
def pageIsle (p : Page) : Nat :=
  match p.blk with
  | .core | .isle => p.inst
  | .clst | .opte | .nwch | .rede => fabIsle p.inst
  | .mvec | .tokx => meshIsle p.inst
  | .hbmc => 0x128 + p.inst
  | .ethp => portIsle p.inst
  | .devc | .part | .tier | .flsh | .lend | .pcie | .ring | .dmae | .fabt | .strm | .deco | .pwrc | .secc | .errm
  | .side | .mgmt => ioIsle

/-- A consumer read poison: one record 0x0206 (R634). -/
def Dev.poisonRead (d : Dev) (p : Page) (akind addr : Nat) (part : Option Nat) : Dev :=
  (d.record 0x0206 p .p .none part akind addr (pageIsle p) false).cntP pErrm 5 1 part

/-- A write of a VF view that is dropped under R22 or R66 (R68, R113). -/
def Dev.violate (d : Dev) (n off : Nat) : Dev :=
  let st := d.parts.st.get .reset n
  let st := { st with viol := if st.viol = 0xFFFFFFFF#32 then st.viol else st.viol + 1,
                      violAddr := some (st.violAddr.getD (off % 0x2000000)) }
  { d with parts := { d.parts with st := d.parts.st.put .reset n st } }.evtP pPart 1 (some n)

/-- A page's offset in a view's BAR0 (R62, R63): a core or core island of a VF view stands at its logical number. -/
def Dev.base (d : Dev) (v : View) (p : Page) : Nat :=
  match v with
  | .pf => p.pfBase
  | .vf _ =>
    let p := if p.blk = .core || (p.blk = .isle && p.inst < 272) then
        { p with inst := p.inst / 17 * 17 + (d.logical p.inst).getD (p.inst % 17) } else p
    if p.pfBase < 0x2000000 then p.pfBase else p.pfBase - 0xF00000

/-- A write through a VF view that R22 drops, at a register of a page. -/
def Dev.violR (d : Dev) (n : Fin 16) (p : Page) (off : Nat) : Dev := d.violate n.val (d.base (.vf n) p + off)

/-- An access through a view to a block-specific register or counter of a page (offsets 0x040 to 0xFFF): where the view
has no such page a write is dropped under R66 or R67; where it has no version in force the access is dropped with code
0x0004 (R97). -/
def Dev.through (d : Dev) (v : View) (p : Page) (off : Nat) (f : Dev → Dev) : Dev :=
  if d.reaches v p then (if (d.hdrOf v p).neg.isSome then f d else d.err v p 0x0004)
  else match v with
    | .pf => d.err .pf pDevc 0x0007
    | .vf n => d.violR n p off

/-- A register that only the privileged view may write (R22, R68). -/
def Dev.privOnly (d : Dev) (v : View) (p : Page) (off : Nat) (f : Dev → Dev) : Dev :=
  d.through v p off fun d => match v with
    | .pf => f d
    | .vf n => d.violR n p off

/-! ### The manifest's runs and the event summary (R69–R73, R546) -/

/-- Groups of pages of one entry in the PF view, in manifest order after entry 0 (see the log for the order). -/
def pageGroups : List (List Page) :=
  let grp (b : Blk) (lo n : Nat) : List Page := (List.range n).map fun i => ⟨b, lo + i⟩
  [grp .devc 0 1, grp .part 0 1, grp .mvec 0 4, grp .pcie 0 1, grp .pwrc 0 1, grp .hbmc 0 8] ++
  ((List.range 16).map fun c =>
    [grp .clst c 1, grp .opte c 1, grp .nwch c 1, grp .rede c 1, grp .isle (0x110 + c) 1, grp .core (17 * c) 17,
     grp .isle (17 * c) 17]).flatten ++
  [grp .tier 0 1, grp .flsh 0 1, grp .lend 0 1, grp .ring 0 16, grp .dmae 0 32, grp .ethp 0 12, grp .fabt 0 1,
   grp .tokx 0 4, grp .strm 0 48, grp .deco 0 6, grp .isle 0x120 4, grp .isle 0x124 1, grp .isle 0x128 8,
   grp .isle 0x130 12, grp .secc 0 1, grp .errm 0 1, grp .side 0 1, grp .mgmt 0 1]

/-- The position of a page within its group as a view lays it out: a core or core island of a VF view stands at its
logical number (R63). -/
def Dev.position (d : Dev) (v : View) (p : Page) : Nat :=
  match v with
  | .pf => p.inst
  | .vf _ => if p.blk = .core || (p.blk = .isle && p.inst < 272) then (d.logical p.inst).getD p.inst else p.inst

/-- Cut a group into runs of neighbouring positions. -/
def cutRuns (pos : Page → Nat) : List Page → List (List Page)
  | [] => []
  | p :: ps =>
    match cutRuns pos ps with
    | (q :: run) :: rest => if pos q = pos p + 1 then (p :: q :: run) :: rest else [p] :: (q :: run) :: rest
    | rest => [p] :: rest

/-- Pages of a group in ascending position. -/
def orderBy (pos : Page → Nat) (l : List Page) : List Page :=
  (l.foldl (fun (m : SMap Page) p => m.insert (pos p) p) []).map (·.2)

/-- The runs of a view's manifest, entry 1 first. -/
def Dev.runs (d : Dev) (v : View) : List (List Page) :=
  (pageGroups.map fun g => cutRuns (d.position v) (orderBy (d.position v) (g.filter (d.reaches v)))).flatten

/-- The manifest entry of a page in a view. -/
def Dev.entryOf (d : Dev) (v : View) (p : Page) : Option Nat :=
  let i := (d.runs v).findIdx fun r => r.contains p
  if i < (d.runs v).length then some (i + 1) else none

/-- Send a function's MSI-X message, hold it, or not (R548). -/
def Dev.msix (d : Dev) (v : View) (vec : Nat) : Dev :=
  let k := v.key * 2048 + vec % v.vectors
  if !d.irq.bme.contains v.key then d
  else if d.irq.unmasked.contains k then
    let d := d.put (.msix v (vec % v.vectors))
    match v with
    | .pf => d.cnt .pf pPcie 3 1
    | .vf n => d.cntP (pRing n.val) 4 1 (some n.val)
  else { d with irq := { d.irq with pba := d.irq.pba.add k } }

/-- The vector of manifest entry i of a view (R546). -/
def Dev.evVector (d : Dev) (v : View) (i : Nat) : Nat :=
  match v with
  | .pf => let w := d.reg pPcie 0x040; bits w 26 16 + i % 2 ^ Nat.min 11 (bits w 31 27)
  | .vf n => let w := d.reg (pRing n.val) 0x040; bits w 13 8 + i % 2 ^ Nat.min 6 (bits w 18 16)

/-- Set an event summary bit; from clear to set, send its message (R546). -/
def Dev.summarise (d : Dev) (v : View) (i : Nat) : Dev :=
  let k := v.key * 2048 + i % 2048
  if d.irq.summary.contains k then d
  else { d with irq := { d.irq with summary := d.irq.summary.add k } }.msix v (d.evVector v i)

/-- The pages and views that have an enabled event pending. -/
def Dev.pendingEvents (d : Dev) : List (View × Page) :=
  (d.pg.hdr.filter fun (e : Nat × Hdr) => e.2.evt &&& e.2.evtEn ≠ 0).map fun e =>
    (View.ofKey (e.1 % 32), Page.ofKey (e.1 / 32))

/-- Raise the summary of one pending page. -/
def Dev.raise (d : Dev) (vp : View × Page) : Dev :=
  if d.reaches vp.1 vp.2 then
    match d.entryOf vp.1 vp.2 with
    | some i => d.summarise vp.1 i
    | none => d
  else d

/-- After every command: the event summary follows the pages' events (R546, R547). -/
def Dev.finish (d : Dev) : Dev := d.pendingEvents.foldl Dev.raise d

/-- A command's effect on the device as an outcome of exec: the queue stays as it is. -/
def onDev (f : Dev → Dev) (s : State) : Host.Outcome State Fault Refusal := .next { s with dev := (f s.dev).finish }

/-- A command that names a page (or an island, a slot): a number that no module has stops the machine. -/
def onPage (ok : Bool) (f : Dev → Dev) (s : State) : Host.Outcome State Fault Refusal :=
  if ok then onDev f s else .fault .noSuchUnit

end Sys2Proof.Machine
end

