-- ==== Sys2Proof/Machine/TierOps.lean ====
section
/-!
DEFINITION. The memory tiers as the agents see them (chapter 7): the T1 space, translation, the cache of T2, T3 and T4
homes, and reads and writes of device virtual addresses with their faults.
-/

namespace Sys2Proof.Machine

/-! ### The T1 space (R290) -/

/-- The pseudo-channels of a partition, ascending. -/
def Dev.pchsOf (d : Dev) (n : Nat) : List Nat := (List.range 256).filter fun k => (d.tw n (1 + k / 32)).testBit (k % 32)

/-- A byte of a pseudo-channel. -/
def pchKey (k off : Nat) : Nat := hbmKey (k / 32) (pchBytes * (k % 32) + off)

/-- Byte a of the T1 space over the pseudo-channels ps (R290). -/
def t1Place (ps : List Nat) (a : Nat) : Nat :=
  pchKey (ps.getD (a / 256 % ps.length) 0) (a / (256 * ps.length) * 256 + a % 256)

/-- The byte of the T1 space that stands at a memory key. -/
def t1Unplace (ps : List Nat) (k : Nat) : Option Nat :=
  if k / memSpan < 768 ∨ 776 ≤ k / memSpan then none
  else
    let o := k % memSpan
    let r := ps.idxOf ((k / memSpan - 768) * 32 + o / pchBytes)
    if r < ps.length then some ((o % pchBytes / 256 * ps.length + r) * 256 + o % pchBytes % 256) else none

/-- Return bytes [a, a + n) of a T1 space to zero, unmarked (R729). -/
def Dev.t1Zero (d : Dev) (ps : List Nat) (a n : Nat) : Dev :=
  let inside (k : Nat) : Bool := match t1Unplace ps k with
    | some x => a ≤ x && x < a + n
    | none => false
  { d with mem := d.mem.filter fun (c : Host.Cell) => !inside c.1
           poison := d.poison.filter fun g => !inside (g * 64) }

/-! ### Pages (R293, R294) -/

/-- The key of the page or frame that begins at an address. -/
def pgKey (part va : Nat) : Nat := 1099511627776 * part + va / 65536
/-- A 4 KiB sector of a partition's space. -/
def sectKey (part va : Nat) : Nat := 1099511627776 * part + va / 4096
/-- The first address of a page's key. -/
def keyVa (k : Nat) : Nat := 65536 * (k % 1099511627776)

def Pg.size (g : Pg) : Nat := if g.big then 2097152 else 65536

/-- Device virtual addresses have 52 bits. -/
def vaLimit : Nat := 4503599627370496

/-- The page that holds an address, with its first address. -/
def Dev.page? (d : Dev) (n va : Nat) : Option (Nat × Pg) :=
  if vaLimit ≤ va then none
  else
    match d.tier.pages.find? (pgKey n va) with
    | some g => some (va / 65536 * 65536, g)
    | none =>
      match d.tier.pages.find? (pgKey n (va / 2097152 * 2097152)) with
      | some g => if g.big then some (va / 2097152 * 2097152, g) else none
      | none => none

/-- A partition's pages. -/
def Dev.pagesOf (d : Dev) (n : Nat) : SMap Pg := d.tier.pages.range (1099511627776 * n) (1099511627776 * (n + 1))
def Dev.framesOf (d : Dev) (n : Nat) : SMap Frame := d.tier.frames.range (1099511627776 * n) (1099511627776 * (n + 1))

def Dev.updTier (d : Dev) (f : Tier → Tier) : Dev := { d with tier := f d.tier }
def Dev.setPage (d : Dev) (k : Nat) (g : Pg) : Dev := d.updTier fun t => { t with pages := t.pages.insert k g }
def Dev.setFrame (d : Dev) (k : Nat) (f : Frame) : Dev := d.updTier fun t => { t with frames := t.frames.insert k f }
def Dev.dropFrame (d : Dev) (k : Nat) : Dev := d.updTier fun t => { t with frames := t.frames.erase k }

/-- Bytes of a partition's pages homed in a tier. -/
def Dev.homed (d : Dev) (n t : Nat) : Nat :=
  sumN (((d.pagesOf n).filter fun (e : Nat × Pg) => e.2.home.tier == t).map fun (e : Nat × Pg) => e.2.size)

/-- Bytes of a partition's shelf images (R276, R298). -/
def Dev.shelfBytes (d : Dev) (n : Nat) : Nat :=
  sumN ((d.shelves.range (n * 64) (n * 64 + 64)).map fun (e : Nat × (List Byte × Nat)) => e.2.1.length)

/-- Usage of a tier under R298, in bytes. -/
def Dev.usage (d : Dev) (n t : Nat) : Nat :=
  if t = 1 then d.homed n 1 + 2097152 * d.tier.pool.get 0 n + 16 * (d.pagesOf n).length + d.shelfBytes n
  else d.homed n t

/-- A tier's quota in bytes (R114): units of 2 MiB. -/
def Dev.quota (d : Dev) (n t : Nat) : Nat := 2097152 * d.tw n (25 + t)

/-! ### Placement in the T1 space (R728) -/

/-- What of the T1 space is taken: pages homed there and cache frames, as offset and size. -/
def Dev.t1Taken (d : Dev) (n : Nat) : List (Nat × Nat) :=
  ((d.pagesOf n).filterMap fun (e : Nat × Pg) => match e.2.home with
    | .t1 off => some (off, e.2.size)
    | _ => none) ++
  (d.framesOf n).filterMap fun (e : Nat × Frame) => (d.tier.pages.find? e.1).map fun g => (e.2.slot, g.size)

/-- The lowest place, aligned to its size, that none of the taken pieces meets. -/
def firstFit (taken : List (Nat × Nat)) (size limit : Nat) : Option Nat :=
  let cands := 0 :: taken.map fun (u : Nat × Nat) => cdiv (u.1 + u.2) size * size
  let ok := cands.filter fun c => c + size ≤ limit && taken.all fun (u : Nat × Nat) => c + size ≤ u.1 || u.1 + u.2 ≤ c
  ok.foldl (fun (b : Option Nat) c => match b with
    | none => some c
    | some x => some (Nat.min x c)) none

/-- The pages that the pilot schedule pins. -/
def Dev.isPinned (d : Dev) (n k : Nat) : Bool :=
  (d.tier.pilot.get .reset n).pinned.any fun (e : Nat × List Nat) => e.2.contains k

/-- New places of what can move, the larger pages first: old place, size, new place. -/
def replan (limit : Nat) : List (Nat × Nat) → List (Nat × Nat) → Option (List (Nat × Nat × Nat))
  | _, [] => some []
  | taken, u :: us =>
    match firstFit taken u.2 limit with
    | none => none
    | some c => (replan limit ((c, u.2) :: taken) us).map fun r => (u.1, u.2, c) :: r

/-- Where a plan takes a place of the T1 space; none where the place held nothing that is kept. -/
def movedTo (plan : List (Nat × Nat × Nat)) (a : Nat) : Option Nat :=
  (plan.find? fun (m : Nat × Nat × Nat) => m.1 ≤ a && a < m.1 + m.2.1).map fun m => m.2.2 + (a - m.1)

/-- Move frames within the T1 space until what is free stands together (R728); pinned frames stay. -/
def Dev.t1Compact (d : Dev) (n : Nat) : Option Dev :=
  let ps := d.pchsOf n
  let fixed : List (Nat × Nat) := (d.framesOf n).filterMap fun (e : Nat × Frame) =>
    if d.isPinned n e.1 then (d.tier.pages.find? e.1).map fun g => (e.2.slot, g.size) else none
  let free := (d.t1Taken n).filter fun u => !fixed.contains u
  let order := (free.filter fun (u : Nat × Nat) => u.2 ≠ 65536) ++ free.filter fun (u : Nat × Nat) => u.2 = 65536
  match replan (ps.length * pchBytes) fixed order with
  | none => none
  | some plan =>
    let plan := plan ++ fixed.map fun (u : Nat × Nat) => (u.1, u.2, u.1)
    let go (k : Nat) : Option Nat := match t1Unplace ps k with
      | none => some k
      | some a => (movedTo plan a).map (t1Place ps)
    let at_ (a : Nat) : Nat := (movedTo plan a).getD a
    let own (k : Nat) : Bool := k / 1099511627776 == n
    some { d with
      mem := d.mem.foldl (fun (m : List Host.Cell) (c : Host.Cell) => match go c.1 with
        | some k => SMap.put m memUnlisted k c.2
        | none => m) []
      poison := d.poison.foldl (fun (p : SSet) g => match go (g * 64) with
        | some k => p.add (k / 64)
        | none => p) []
      tier := { d.tier with
        pages := d.tier.pages.map fun (e : Nat × Pg) => match e.2.home with
          | .t1 off => if own e.1 then (e.1, { e.2 with home := .t1 (at_ off) }) else e
          | _ => e
        frames := d.tier.frames.map fun (e : Nat × Frame) =>
          if own e.1 then (e.1, { e.2 with slot := at_ e.2.slot }) else e } }

/-- Room for a page or frame: its place, with frames moved where free space is too broken. -/
def Dev.t1Alloc (d : Dev) (n size : Nat) : Option (Nat × Dev) :=
  let limit := (d.pchsOf n).length * pchBytes
  match firstFit (d.t1Taken n) size limit with
  | some c => some (c, d)
  | none => (d.t1Compact n).bind fun d => (firstFit (d.t1Taken n) size limit).map fun c => (c, d)

/-! ### Faults (R300) -/

/-- The agents of TIER_FAULT_INFO. -/
abbrev agLoad : Nat := 0
abbrev agStore : Nat := 1
abbrev agFetch : Nat := 2
abbrev agDma : Nat := 3
abbrev agStrm : Nat := 4
abbrev agEngine : Nat := 5
abbrev agTier : Nat := 6

/-- A translated access failed: recorded if it is the first, counted, and BLK_EVT bit 0. -/
def Dev.tierFault (d : Dev) (n va code agent : Nat) : Dev :=
  let d := d.updTier fun t =>
    { t with fault := match t.fault.find? n with
        | some f => if f.armed then t.fault.insert n ⟨va, code, agent, false⟩ else t.fault
        | none => t.fault.insert n ⟨va, code, agent, false⟩ }
  (d.cntP pTier 4 1 (some n)).evtP pTier 1 (some n)

/-! ### Translation -/

/-- Where an access lands: a memory key, a fault of R300, or a cache that has to be filled first. -/
inductive Tr where
  | key (k : Nat)
  | fault (code : Nat)
  | wait
  deriving DecidableEq, Repr

/-- The access covers the whole sector of an address. -/
def covers (va n x : Nat) : Bool := va ≤ x / 4096 * 4096 && x / 4096 * 4096 + 4096 ≤ va + n

/-- Translate address x of an access [va, va + n) by an agent of partition p (R287, R300, R303, R309, R594). -/
def Dev.tr (d : Dev) (p agent : Nat) (wr : Bool) (va n x : Nat) : Tr :=
  match d.page? p x with
  | none => .fault 0x0102
  | some (b, g) =>
    if (g.home.tier = 0 ∧ agent < 3) ∨ (2 ≤ g.home.tier ∧ agent = agStrm) then .fault 0x0104
    else if wr ∧ !g.writable then .fault 0x0103
    else
      match g.home with
      | .t0 c core off => if d.clusterOwner c = some p then .key (sramKey (d.inst c core) (off + (x - b))) else .fault 0x0104
      | .aperture c off => if d.clusterOwner c = some p then .key (bufKey c (off + (x - b))) else .fault 0x0104
      | .t1 off => .key (t1Place (d.pchsOf p) (off + (x - b)))
      | .t3gone => .fault 0x0105
      | .t2 .. | .t3 .. | .t4 .. =>
        match d.tier.frames.find? (pgKey p b) with
        | none => .wait
        | some f =>
          if f.valid.contains ((x - b) / 65536) || (wr && agent < 4 && covers va n x) then
            .key (t1Place (d.pchsOf p) (f.slot + (x - b)))
          else .wait

/-- Cut [va, va + n) at multiples of 256: pieces that stand together in memory. -/
def cut256 : Nat → Nat → Nat → List (Nat × Nat)
  | 0, _, _ => []
  | fuel + 1, va, n =>
    if n = 0 then []
    else
      let k := Nat.min n (256 - va % 256)
      (va, k) :: cut256 fuel (va + k) (n - k)

/-- The pieces of an access. -/
def piecesOf (va n : Nat) : List (Nat × Nat) := cut256 (n / 256 + 2) va n

/-- The chunks that an access waits for. -/
def Dev.needs (d : Dev) (p agent : Nat) (wr : Bool) (va n : Nat) : List Nat :=
  ((piecesOf va n).filter fun (x : Nat × Nat) => d.tr p agent wr va n x.1 == .wait).foldl
    (fun (l : SSet) (x : Nat × Nat) => l.add (x.1 / 65536 * 65536)) []

/-- Some byte of the access faults. -/
def Dev.faults (d : Dev) (p agent : Nat) (wr : Bool) (va n : Nat) : Option (Nat × Nat) :=
  (piecesOf va n).findSome? fun (x : Nat × Nat) => match d.tr p agent wr va n x.1 with
    | .fault c => some (x.1, c)
    | _ => none

/-! ### The cache pool (R302–R304) -/

/-- Bytes of frames in a partition's pool. -/
def Dev.poolUsed (d : Dev) (n : Nat) : Nat :=
  sumN ((d.framesOf n).map fun (e : Nat × Frame) => ((d.tier.pages.find? e.1).map Pg.size).getD 0)

/-- A partition's T4 write budget: GB an hour, cap and credit in bytes (R350). -/
def Dev.budget (d : Dev) (n : Nat) : Nat := d.tw n 30
def Dev.creditCap (d : Dev) (n : Nat) : Nat := d.budget n * 1000000000
def Dev.credit (d : Dev) (n : Nat) : Nat := d.creditCap n - d.flash.spent.get 0 n

/-- A frame that may be evicted (R304, R353, R635). -/
def Dev.evictable (d : Dev) (n : Nat) (e : Nat × Frame) : Bool :=
  !d.isPinned n e.1 && e.2.filling.isEmpty && e.2.fails.isEmpty &&
  (e.2.dirty.isEmpty || match ((d.tier.pages.find? e.1).map Pg.home : Option Home) with
    | some (Home.t4 _ _) => 65536 ≤ d.credit n && d.flash.state != .readOnly && d.flash.state != .failed
    | _ => true)

/-- The frame used least recently among those that may be evicted. -/
def Dev.victim (d : Dev) (n : Nat) : Option (Nat × Frame) :=
  ((d.framesOf n).filter (d.evictable n)).foldl (fun (b : Option (Nat × Frame)) e => match b with
    | none => some e
    | some x => if e.2.lru < x.2.lru then some e else some x) none

/-- The chunks of a frame that hold dirty sectors. -/
def Frame.dirtyChunks (f : Frame) : SSet := f.dirty.foldl (fun (l : SSet) s => l.add (s / 16)) []

/-- Ask for the write-back of every dirty chunk of a frame. -/
def Dev.writeBack (d : Dev) (k : Nat) : Dev :=
  match d.tier.frames.find? k with
  | none => d
  | some f => d.setFrame k { f with wb := f.dirtyChunks.foldl SSet.add f.wb }

/-- Make room for a frame of a size: clean victims go at once (counter evictions); a dirty one is written back first,
and the miss waits. The Bool says that there is room. -/
def Dev.makeRoom (n size : Nat) : Nat → Dev → Bool × Dev
  | 0, d => (false, d)
  | fuel + 1, d =>
    if d.poolUsed n + size ≤ 2097152 * d.tier.pool.get 0 n then (true, d)
    else
      match d.victim n with
      | none => (false, d)
      | some (k, f) =>
        if f.dirty.isEmpty then Dev.makeRoom n size fuel ((d.dropFrame k).cntP pTier 3 1 (some n))
        else (false, d.writeBack k)

/-- A frame for a page of T2, T3 or T4 that has none. A miss for which no frame can be evicted waits, and is counted
once (R304). -/
def Dev.takeFrame (d : Dev) (n k : Nat) (g : Pg) : Dev :=
  match d.tier.frames.find? k with
  | some _ => d
  | none =>
    let stuck := (d.victim n).isNone
    let (ok, d) := Dev.makeRoom n g.size ((d.framesOf n).length + 1) d
    if ok then
      match d.t1Alloc n g.size with
      | none => d
      | some (c, d) =>
        let d := d.setFrame k { slot := c, valid := [], dirty := [], lru := d.tier.stamp, filling := [], wb := [], fails := [] }
        d.updTier fun t => { t with stamp := t.stamp + 1, poolWaits := t.poolWaits.del k }
    else if stuck && !d.tier.poolWaits.contains k then
      (d.updTier fun t => { t with poolWaits := t.poolWaits.add k }).cntP pTier 8 1 (some n)
    else d

/-- Begin the fill of a chunk that an agent waits for (R303); a write of whole sectors needs only the frame. -/
def Dev.beginFill (n agent : Nat) (fill : Bool) (d : Dev) (ca : Nat) : Dev :=
  match d.page? n ca with
  | none => d
  | some (b, g) =>
    let k := pgKey n b
    let d := d.takeFrame n k g
    match d.tier.frames.find? k with
    | none => d
    | some f =>
      let c := (ca - b) / 65536
      if !fill || f.valid.contains c || (f.filling.find? c).isSome then d
      else d.setFrame k { f with filling := f.filling.insert c agent }

/-- Bring an access to the point where it can be made: true when nothing has to be filled and no island has to wake;
else what is missing is asked for. -/
def Dev.prepare (d : Dev) (p agent : Nat) (wr : Bool) (va n : Nat) : Bool × Dev :=
  let ns := d.needs p agent wr va n
  let d := ns.foldl (fun d ca => Dev.beginFill p agent (!(wr && agent < 4 && covers va n ca && covers va n (ca + 65535))) d ca) d
  let keys := (piecesOf va n).filterMap fun (x : Nat × Nat) => match d.tr p agent wr va n x.1 with
    | .key k => some k
    | _ => none
  let (awake, d) := d.wakeKeys keys
  (awake && (ns.isEmpty || (d.needs p agent wr va n).isEmpty), d)

/-! ### Reads and writes of device virtual addresses -/

/-- What a read brings: bytes, the offsets that carry poison or met a fault, whether it met a fault, and the address
of the first poisoned granule. -/
structure Rd where
  bytes : List Byte
  bad : List Nat
  fault : Bool
  first : Option Nat
  deriving DecidableEq, Repr

/-- A use of a cached page (R304). -/
def Dev.touch (d : Dev) (p va : Nat) : Dev :=
  match d.page? p va with
  | none => d
  | some (b, _) =>
    match d.tier.frames.find? (pgKey p b) with
    | none => d
    | some f => (d.setFrame (pgKey p b) { f with lru := d.tier.stamp }).updTier fun t => { t with stamp := t.stamp + 1 }

/-- Count bytes of an HBM stack, read (0) or written (1). -/
def Dev.hbmCount (d : Dev) (p n k len : Nat) : Dev :=
  if 768 ≤ k / memSpan ∧ k / memSpan < 776 then d.cntP ⟨.hbmc, k / memSpan - 768⟩ n len (some p) else d

/-- The pages that an access touches, by their first 64 KiB unit in the access. -/
def unitsOf (va n : Nat) : List Nat := (List.range ((va + n + 65535) / 65536 - va / 65536)).map fun i => (va / 65536 + i) * 65536

/-- Read [va, va + n) as an agent of partition p: what faults reads as zeros, marked (R300). -/
def Dev.tRead (d : Dev) (p agent va n : Nat) : Rd × Dev :=
  let parts := (piecesOf va n).map fun (x : Nat × Nat) => match d.tr p agent false va n x.1 with
    | .key k => (x, some k, d.rd k x.2, (d.badOffsets k x.2).map (· + (x.1 - va)))
    | _ => (x, none, zbytes x.2, (List.range x.2).map (· + (x.1 - va)))
  let r : Rd :=
    { bytes := parts.flatMap fun q => q.2.2.1
      bad := parts.flatMap fun q => q.2.2.2
      fault := parts.any fun q => q.2.1.isNone
      first := parts.findSome? fun q => match q.2.1 with
        | some k => (d.firstPoison k q.1.2).map fun g => q.1.1 + (g - k)
        | none => none }
  let d := match d.faults p agent false va n with
    | some (x, c) => d.tierFault p x c agent
    | none => d
  let d := parts.foldl (fun d q => match q.2.1 with
    | some k => d.hbmCount p 0 k q.1.2
    | none => d) d
  (r, (unitsOf va n).foldl (fun d u => d.touch p u) d)

/-- A cluster whose containment stands takes no transfers (R641). -/
def Dev.shutAt (d : Dev) (k : Nat) : Option Nat :=
  let s := k / memSpan
  let c := if s < 272 then s / 17 else s - 512
  if (s < 272 ∨ (512 ≤ s ∧ s < 528)) ∧ d.bst (pClst c) = .halted then some c else none

/-- The sectors [x, x + n) of a cached page become dirty. -/
def Dev.dirty (d : Dev) (p x n : Nat) : Dev :=
  match d.page? p x with
  | none => d
  | some (b, _) =>
    match d.tier.frames.find? (pgKey p b) with
    | none => d
    | some f => d.setFrame (pgKey p b) { f with dirty := f.dirty.addRange ((x - b) / 4096) ((x + n - 1 - b) / 4096 + 1 - (x - b) / 4096) }

/-- One piece of a write. -/
def Dev.wrPiece (p agent va : Nat) (bytes : List Byte) (bad : List Nat) (d : Dev) (x : Nat × Nat) : Dev :=
  match d.tr p agent true va bytes.length x.1 with
  | .key k =>
    match d.shutAt k with
    | some c => d.cntP (pClst c) 3 1 (d.clusterOwner c)
    | none =>
      let o := x.1 - va
      let d := d.wrBad k ((bytes.drop o).take x.2) ((bad.filter fun i => o ≤ i && i < o + x.2).map (· - o))
      (d.hbmCount p 1 k x.2).dirty p x.1 x.2
  | _ => d

/-- Write bytes at va as an agent of partition p; bytes at the offsets bad carry poison; what faults is dropped. -/
def Dev.tWrite (d : Dev) (p agent va : Nat) (bytes : List Byte) (bad : List Nat) : Dev :=
  let f := d.faults p agent true va bytes.length
  let d := (piecesOf va bytes.length).foldl (Dev.wrPiece p agent va bytes bad) d
  let d := match f with
    | some (x, c) => d.tierFault p x c agent
    | none => d
  (unitsOf va bytes.length).foldl (fun d u => d.touch p u) d

/-- Poison-mark a range of a partition's addresses where it stands in memory. -/
def Dev.tMark (d : Dev) (part va n : Nat) : Dev :=
  (piecesOf va n).foldl (fun (d : Dev) (x : Nat × Nat) => match d.tr part agEngine true va n x.1 with
    | .key k => d.mark k x.2
    | _ => d) d

/-- Every page of [va, va + n) is mapped and homed in T1. -/
def Dev.inT1 (d : Dev) (p va n : Nat) : Bool :=
  (unitsOf va n).all fun u => match d.page? p u with
    | some (_, g) => g.home.tier == 1
    | none => false

/-- The same, and every page can be written. -/
def Dev.inT1w (d : Dev) (p va n : Nat) : Bool :=
  (unitsOf va n).all fun u => match d.page? p u with
    | some (_, g) => g.home.tier == 1 && g.writable
    | none => false

/-! ### Ends -/

/-- Drop the page of a T3 home: the mapping stays and its contents are lost (R330 step 3, R331, R332). -/
def Dev.dropPage (d : Dev) (k n : Nat) : Dev :=
  match d.tier.pages.find? k with
  | none => d
  | some g => ((d.setPage k { g with home := .t3gone }).dropFrame k).cntP pTier n 1 (some (k / 1099511627776))

/-- The pages of a lease's frames that a test chooses. -/
def Dev.leasePages (d : Dev) (dev lease : Nat) (pick : Nat → Bool) : List Nat :=
  d.tier.pages.filterMap fun (e : Nat × Pg) => match e.2.home with
    | .t3 a l f _ => if a = dev ∧ l = lease ∧ pick f then some e.1 else none
    | _ => none

/-- Zero a lent frame (R331): pseudo-channel × 1,152 + frame. -/
def Dev.zeroLent (d : Dev) (ph : Nat) : Dev := d.zero (pchKey (ph / 1152) (ph % 1152 * 2097152)) 2097152

/-- A partition's translation and cache pool are cleared without write-back (R292, R309). -/
def Dev.clearTranslation (d : Dev) (n : Nat) : Dev :=
  let lo := n * 1099511627776
  let hi := (n + 1) * 1099511627776
  d.updTier fun t =>
    { t with pages := t.pages.dropRange lo hi, frames := t.frames.dropRange lo hi, pilot := t.pilot.erase n
             poolWaits := t.poolWaits.dropRange lo hi, budWaits := t.budWaits.dropRange lo hi
             wait := match t.wait with
               | some w => if w.part.val = n then none else some w
               | none => none }

end Sys2Proof.Machine
end

