-- ==== Sys2Proof/Machine/Operands.lean ====
section
/-!
DEFINITION. Operation descriptors (R235–R257): header and bodies, wait slots, and the reasons for which a core's
engine refuses its head (R266), at the head and at issue.
-/

namespace Sys2Proof.Machine

/-! ### Header (R236–R243) -/

def dOp (x : Desc) : Nat := fld x 0 1
def dCtl (x : Desc) : Nat := fld x 1 1
def dPred (x : Desc) : Bool := bit (dCtl x) 0
def dPredInv (x : Desc) : Bool := bit (dCtl x) 1
def dResume (x : Desc) : Bool := bit (dCtl x) 2
def dSpillFinal (x : Desc) : Bool := bit (dCtl x) 3
def dChain (x : Desc) : Nat := fld x 2 2
def dChainCore (x : Desc) : Nat := bits (dChain x) 3 0
def dChainCluster (x : Desc) : Nat := bits (dChain x) 7 4
def dChainKind (x : Desc) : Nat := bits (dChain x) 9 8
def dWid (x : Desc) (i : Nat) : Nat := fld x (4 + 2 * i) 2
def dWval (x : Desc) (i : Nat) : Nat := fld x (0x0C + 4 * i) 4
def dSig (x : Desc) : Word := BitVec.ofNat 32 (fld x 0x1C 4)

/-- The counter that a wait identifier names, for a core instance (R238). -/
def Dev.waitCtr (d : Dev) (inst w : Nat) : Nat :=
  (d.evc.get 0#32 (if bit w 8 then 0x10000 + inst / 17 * 256 + bits w 7 0 else inst * 64 + bits w 5 0)).toNat

/-- counter − wval, modulo 2³², is below 2³¹ (R239). -/
def ctrHolds (c v : Nat) : Bool := (c + 4294967296 - v) % 4294967296 < 2147483648

/-- Wait slot i holds; an empty slot always does (R239). -/
def Dev.slotHolds (d : Dev) (inst : Nat) (x : Desc) (i : Nat) : Bool :=
  !bit (dWid x i) 15 || ctrHolds (d.waitCtr inst (dWid x i)) (dWval x i)

/-- The wait slots that do not hold: slot 3 is no wait when it is the predicate (R240). -/
def Dev.unmet (d : Dev) (inst : Nat) (x : Desc) : List Nat :=
  (List.range (if dPred x then 3 else 4)).filter fun i => !d.slotHolds inst x i

/-- The predicate chooses skip (R240). -/
def Dev.predSkips (d : Dev) (inst : Nat) (x : Desc) : Bool := dPred x && (d.slotHolds inst x 3 != dPredInv x)

/-! ### Bodies -/

/-- The vector body (R250). -/
structure Vx where
  op : Nat
  /-- Offset, format and mode of the three sources. -/
  src : List (Nat × Nat × Nat)
  dOff : Nat
  dFmt : Nat
  dSupplied : Bool
  count : Nat
  imm : Word
  rowLen : Nat
  dScale : Nat
  scD : Nat
  deriving DecidableEq, Repr

def Vx.of (x : Desc) : Vx :=
  let s (i : Nat) : Nat × Nat × Nat := let w := fld x (0x20 + 4 * i) 4; (bits w 25 0, bits w 29 26, bits w 31 30)
  let w := fld x 0x2C 4
  { op := dOp x, src := [s 0, s 1, s 2], dOff := bits w 25 0, dFmt := bits w 29 26, dSupplied := bit w 30,
    count := fld x 0x30 3, imm := BitVec.ofNat 32 (fld x 0x34 4), rowLen := fld x 0x38 2, dScale := fld x 0x3A 1,
    scD := bits (fld x 0x3C 4) 9 0 }

/-- Sources that an operation has (R244). -/
def vecSources (op : Nat) : Nat :=
  if op = 0x43 then 3 else if op = 0x4C then 0
  else if op ∈ [0x40, 0x41, 0x42, 0x46, 0x47, 0x48, 0x49, 0x4A, 0x51] then 2 else 1

def isVec (op : Nat) : Bool :=
  (0x40 ≤ op && op ≤ 0x4C) || (0x50 ≤ op && op ≤ 0x53) || (0x58 ≤ op && op ≤ 0x5E) || (0x60 ≤ op && op ≤ 0x62)

/-- A row operation. -/
def Vx.rowOp (v : Vx) : Bool := 0x60 ≤ v.op
def Vx.row (v : Vx) : Nat := if v.rowLen = 0 then v.count else v.rowLen
def Vx.rows (v : Vx) : Nat := v.count / v.row
/-- Elements written (R251). -/
def Vx.outs (v : Vx) : Nat := if v.rowOp then v.rows else v.count
/-- Values of a source by its mode: one per element, a row, one per row, the immediate. -/
def Vx.vals (v : Vx) (mode : Nat) : Nat :=
  if mode = 0 then v.count else if mode = 1 then v.row else if mode = 2 then v.rows else 0
/-- The sources in use that stand in SRAM: offset, format, mode. -/
def Vx.used (v : Vx) : List (Nat × Nat × Nat) :=
  (v.src.take (vecSources v.op)).filter fun (s : Nat × Nat × Nat) => s.2.2 ≠ 3

/-- LOAD and STORE (R253). -/
structure Mv where
  far : Nat
  near : Nat
  len : Nat
  space : Nat
  lines : Nat
  farStride : Nat
  nearStride : Nat
  tgt : Nat
  deriving DecidableEq, Repr

def Mv.of (x : Desc) : Mv :=
  { far := fld x 0x20 8, near := bits (fld x 0x28 4) 25 0, len := fld x 0x2C 3, space := bits (fld x 0x2F 1) 3 0,
    lines := fld x 0x30 4, farStride := fld x 0x34 4, nearStride := fld x 0x38 4, tgt := bits (fld x 0x3C 1) 3 0 }

/-- The far and near side of line i. -/
def Mv.farAt (v : Mv) (i : Nat) : Nat := v.far + i * v.farStride
def Mv.nearAt (v : Mv) (i : Nat) : Nat := v.near + i * v.nearStride
/-- The end of the last line on a side. -/
def Mv.span (v : Mv) (at_ stride : Nat) : Nat := at_ + (v.lines - 1) * stride + v.len

/-- Bytes of a cluster buffer: 4 MiB. -/
def bufBytes : Nat := 4194304

end Sys2Proof.Machine

namespace Sys2Proof

/-! ### Regions of a MATMUL -/

/-- The bytes of a stored matrix with its scales. -/
def Region.span (g : Region) : Nat × Nat := (g.base, g.base + g.bytes)

/-- A's elements and scales. -/
def Mm.aSpan (q : Mm) : Nat × Nat :=
  Region.span (if q.aTrans then ⟨q.aBase, q.k, q.m, q.aFmt⟩ else ⟨q.aBase, q.m, q.k, q.aFmt⟩)

/-- A dense B's. -/
def Mm.bSpan (q : Mm) : Nat × Nat :=
  Region.span (if q.bTrans then ⟨q.bBase, q.k, q.n, q.bFmt⟩ else ⟨q.bBase, q.n, q.k, q.bFmt⟩)

def Mm.oSpan (q : Mm) : Nat × Nat := Region.span ⟨q.oBase, q.m, q.n, q.oFmt⟩

/-- The pitch of a row of FP32 sums (R248). -/
def Mm.svPitch (q : Mm) : Nat := pitch32 (4 * q.n)
def Mm.svSpan (q : Mm) : Nat × Nat := (q.svBase, q.svBase + q.m * q.svPitch)

end Sys2Proof

namespace Sys2Proof.Machine

/-- Two half-open ranges meet; an empty one meets nothing. -/
def meet (a b : Nat × Nat) : Bool := a.1 < b.2 && b.1 < a.2 && a.1 < a.2 && b.1 < b.2

/-- The sums leave as FP32 (R190): no drain converter. -/
def leavesFp32 (x : Desc) : Bool := dSpillFinal x || dChain x ≠ 0

/-- The MATMUL uses its spill buffer in its own SRAM (R237, R271, R405). -/
def usesSpill (x : Desc) (q : Mm) : Bool :=
  dResume x || dSpillFinal x || q.seg ≠ 0 || fmtTensor q.oFmt

section
variable (rd : Nat → Nat → List Byte)

/-- The sparsity record of a MATMUL. -/
def recOf (q : Mm) : SpRec := if q.spPresent then SpRec.of (rd q.spBase 16) else SpRec.none

/-- The spans of a sparse B and of its indices and lists, once the record can be read. -/
def spSpans (q : Mm) (s : SpRec) : List (Nat × Nat) :=
  let sp := q.spBase
  if s.blocks then
    let nb := cdiv q.n 16
    let lst0 := rd (sp + s.listOff) (4 * (nb + 1))
    let total := fld lst0 (4 * nb) 4
    let lst := lst0 ++ rd (sp + s.listOff + 4 * (nb + 1)) (2 * total)
    let strips := (List.range nb).map (stripRows lst nb (cdiv q.k 16))
    let cols (j : Nat) : Nat := Nat.min 16 (q.n - 16 * j)
    let ks (t : List Nat × Bool) : Nat := if s.sp24 then stored24 q.bFmt (16 * t.1.length) else 16 * t.1.length
    let el := blkElemBytes q s strips 0
    let scl := sumN ((enumFrom 0 strips).map fun (e : Nat × (List Nat × Bool)) =>
      cols e.1 * (if fmtMx q.bFmt then cdiv (ks e.2) 32 else 0))
    let ix := if s.sp24 then sumN ((enumFrom 0 strips).map fun (e : Nat × (List Nat × Bool)) => cols e.1 * (ks e.2 / 4)) else 0
    [(q.bBase, q.bBase + el + scl), (sp + s.listOff, sp + s.listOff + 4 * (nb + 1) + 2 * total),
     (sp + s.idxOff, sp + s.idxOff + ix)]
  else if s.sp24 then
    let ks := stored24 q.bFmt q.k
    [Region.span (if q.bTrans then ⟨q.bBase, ks, q.n, q.bFmt⟩ else ⟨q.bBase, q.n, ks, q.bFmt⟩),
     (sp + s.idxOff, sp + s.idxOff + q.n * (ks / 4))]
  else [q.bSpan]

/-- The regions that a MATMUL reads, in the order A, B, sparsity, spill. -/
def mmReads (q : Mm) : List (Nat × Nat) :=
  [q.aSpan] ++ (if q.spPresent then spSpans rd q (recOf rd q) ++ [(q.spBase, q.spBase + 16)] else [q.bSpan])
end

/-! ### Refusal (R266) -/

/-- The lowest-numbered reason that holds; 0 for none. -/
def firstReason (l : List (Nat × Bool)) : Nat := ((l.find? fun (r : Nat × Bool) => r.2).map fun (r : Nat × Bool) => r.1).getD 0

/-- The opcode is listed for the queue (R244). -/
def queueTakes (q op : Nat) : Bool :=
  op ≤ 1 || (q = 0 && (op = 0x10 || op = 0x11)) || (q = 1 && op = 0x30) || (q = 2 && isVec op) ||
  (q = 3 && (op = 0x20 || op = 0x22 || op = 0x23))

/-- Reserved bits of the signal word and of the wait identifiers, and the index rules: 0x03, 0x04, 0x05. A reserved
bit counts whether or not the signal is enabled, as R266 has it. -/
def sigReserved (w : Word) : Bool := sigRsv w ≠ 0
def sigIllegal (w : Word) : Bool := sigOn w && (sigInc w = 0 || (!sigScope w && 63 < sigIndex w))
def widReserved (x : Desc) : Bool := (List.range 4).any fun i => bits (dWid x i) 14 9 ≠ 0
def widIllegal (x : Desc) : Bool :=
  (List.range 4).any fun i =>
    if bit (dWid x i) 15 then !bit (dWid x i) 8 && 63 < bits (dWid x i) 7 0 else dWval x i ≠ 0

/-- Reserved bits and bytes of the bodies of core queues. -/
def bodyReserved (x : Desc) : Bool :=
  let op := dOp x
  let w (o : Nat) : Nat := fld x o 4
  if op ≤ 1 then !zeros x 0x20 32
  else if op = 0x10 ∨ op = 0x20 then
    let v := Mv.of x
    bits (w 0x28) 31 26 ≠ 0 || bits (w 0x2C) 31 28 ≠ 0 || 2 < v.space || (op = 0x10 && v.space = 2) ||
    bits (w 0x3C) 31 4 ≠ 0 ||
    (if v.space = 0 then bits v.far 63 52 ≠ 0 else if v.space = 1 then bits v.far 63 22 ≠ 0 else bits v.far 63 26 ≠ 0)
  else if op = 0x11 then bits (fld x 0x20 8) 63 52 ≠ 0 || bits (w 0x28) 31 10 ≠ 0 || !zeros x 0x2C 20
  else if op = 0x22 then bits (w 0x20) 31 24 ≠ 0 || !zeros x 0x24 28
  else if op = 0x23 then !zeros x 0x28 24
  else if op = 0x30 then
    bits (w 0x20) 31 28 ≠ 0 || bits (w 0x24) 31 28 ≠ 0 || bits (w 0x28) 31 27 ≠ 0 || bits (w 0x2C) 31 25 ≠ 0 ||
    bits (w 0x3C) 31 30 ≠ 0 || bits (w 0x20) 27 26 = 3 || bits (w 0x24) 27 26 = 3
  else
    bit (w 0x2C) 31 || bits (w 0x30) 31 24 ≠ 0 || bits (w 0x38) 31 24 ≠ 0 || bits (w 0x3C) 31 10 ≠ 0 ||
    (vecSources op < 2 && w 0x24 ≠ 0) || (vecSources op < 1 && w 0x20 ≠ 0)

/-- Reason 0x08 of a vector operation: bounds, element alignment, overlap (R251, R252). -/
def vecRegions (v : Vx) : Bool :=
  let eb (f : Nat) : Nat := fmtBits f / 8
  let ss : List (Nat × (Nat × Nat) × Nat) := (enumFrom 0 (v.src.take (vecSources v.op))).filterMap
    fun (e : Nat × (Nat × Nat × Nat)) =>
      if e.2.2.2 = 3 then none else some (e.1, (e.2.1, e.2.1 + v.vals e.2.2.2 * eb e.2.2.1), eb e.2.2.1)
  let n := rowBytes v.dFmt v.outs
  let dst : Nat × Nat := (v.dOff, v.dOff + n)
  let sc : Nat × Nat := (pitch32 (v.dOff + n), pitch32 (v.dOff + n) + (if fmtMx v.dFmt then cdiv v.outs 32 else 0))
  (v.used.any fun (s : Nat × Nat × Nat) => s.1 % Nat.max 1 (eb s.2.1) ≠ 0) ||
  (if fmtMx v.dFmt || fmtTensor v.dFmt then v.dOff % 32 ≠ 0 else v.dOff % Nat.max 1 (eb v.dFmt) ≠ 0) ||
  sramBytes < dst.2 || sramBytes < sc.2 || (ss.any fun s => sramBytes < s.2.1.2) ||
  ss.any fun s => (meet s.2.1 dst && !(s.1 = 0 && s.2.1 = dst && s.2.2 * 8 = fmtBits v.dFmt)) || meet s.2.1 sc

/-- A MATMUL's own reasons that do not wait for its sparsity record, besides the format codes. -/
def mmRefusal (d : Dev) (inst part : Nat) (x : Desc) : List (Nat × Bool) :=
  let q := Mm.of x
  let kind := dChainKind x
  let lg := d.logical inst
  let outs := [q.oSpan] ++ if usesSpill x q && kind ≠ 2 then [q.svSpan] else []
  let ins := [q.aSpan] ++ if q.spPresent then [] else [q.bSpan]
  [(0x06, dChain x ≠ 0 && (kind = 3 || dSpillFinal x || (kind = 1 && (dChainCluster x ≠ inst / 17 || some (dChainCore x) = lg)) ||
      (kind = 2 && d.clusterOwner (dChainCluster x) != some part))),
   (0x07, (1 ≤ q.seg && q.seg ≤ 3) || 1024 < q.seg),
   (0x08, (ins ++ [q.oSpan]).any (fun r => sramBytes < r.2) || (q.spPresent && sramBytes < q.spBase + 16) ||
      (outs.any fun o => ins.any fun i => meet o i) ||
      (q.spPresent && outs.any fun o => meet o (q.spBase, q.spBase + 16)) || (kind = 2 && bufBytes < q.svSpan.2) ||
      (kind = 1 && sramBytes < q.svSpan.2)),
   (0x09, q.m = 0 || q.n = 0 || q.k = 0), (0x0A, 6 ≤ q.gang),
   (0x0D, (q.aTrans && fmtMx q.aFmt && q.aConv = 0) || (q.bTrans && fmtMx q.bFmt && q.bConv = 0)),
   (0x0E, (q.aConv = 2 && !fmtMx q.aFmt) || (q.bConv = 2 && !fmtMx q.bFmt)),
   (0x11, q.oGrad && q.oFmt ≠ 1 && q.oFmt ≠ 4 && q.oFmt ≠ 6),
   (0x15, dPred x && !bit (dWid x 3) 15),
   (0x16, (fmtTensor q.aFmt && q.scA = 0x3FF) || (fmtTensor q.bFmt && q.scB = 0x3FF) || (fmtTensor q.oFmt && q.scO = 0x3FF)),
   (0x17, usesSpill x q && kind ≠ 2 && sramBytes < q.svSpan.2)]

/-- A vector operation's own reasons. -/
def vecRefusal (x : Desc) : List (Nat × Bool) :=
  let v := Vx.of x
  let blocked := fmtMx v.dFmt || fmtTensor v.dFmt
  [(0x06, dChain x ≠ 0), (0x08, vecRegions v), (0x09, v.count = 0 || v.count % v.row ≠ 0),
   (0x14, (v.op ≠ 0x43 && fld x 0x28 4 ≠ 0) || (blocked && v.row % 32 ≠ 0) ||
      v.used.any fun (s : Nat × Nat × Nat) => s.2.2 = 1 && 4096 < v.row * fmtBits s.2.1 / 8),
   (0x15, dPred x && !bit (dWid x 3) 15), (0x16, fmtTensor v.dFmt && v.scD = 0x3FF)]

/-- The reasons of the movers, NOP and END. -/
def moveRefusal (d : Dev) (inst part : Nat) (x : Desc) : List (Nat × Bool) :=
  let op := dOp x
  let v := Mv.of x
  let mv := op = 0x10 || op = 0x20
  [(0x06, dChain x ≠ 0),
   (0x08, (mv && (sramBytes < v.span v.near v.nearStride || (v.space = 1 && bufBytes < v.span v.far v.farStride) ||
        (v.space = 2 && sramBytes < v.span v.far v.farStride))) ||
      (op = 0x22 && (bits (fld x 0x20 3) 20 0 % 2 ≠ 0 || sramBytes < bits (fld x 0x20 3) 20 0 * 32 + 64))),
   (0x09, mv && (v.len = 0 || v.lines = 0 || 16777215 < v.lines)),
   (0x12, op = 0x11 && (fld x 0x28 1 = 0 || 128 < fld x 0x28 1 || fld x 0x20 8 % 64 ≠ 0)),
   (0x13, op = 0x22 && (4 ≤ bits (fld x 0x20 3) 23 21 ||
      (bits (fld x 0x20 3) 23 21 = 0 && d.mvecOwner (inst / 17 / 4) != some part))),
   (0x15, dPred x && !bit (dWid x 3) 15)]

/-- The formats that the place allows (R140). -/
def fmtRefused (x : Desc) : Bool :=
  if dOp x = 0x30 then
    let q := Mm.of x
    !fmtArrayIn q.aFmt || !fmtArrayIn q.bFmt || !fmtKnown q.oFmt
  else if isVec (dOp x) then
    let v := Vx.of x
    !fmtKnown v.dFmt || v.used.any fun (s : Nat × Nat × Nat) => !fmtVecIn s.2.1
  else false

/-- The reason for which engine q of a core refuses a head (R266); 0 for none. -/
def headRefusal (d : Dev) (inst part q : Nat) (x : Desc) : Nat :=
  let op := dOp x
  let w := dSig x
  firstReason (
    [(0x01, !queueTakes q op), (0x02, fmtRefused x),
     (0x03, bits (dCtl x) 7 4 ≠ 0 || (op ≠ 0x30 && (dResume x || dSpillFinal x)) || widReserved x || sigReserved w ||
        bits (dChain x) 15 10 ≠ 0 || (dChain x ≠ 0 && dChainKind x = 0) || bodyReserved x),
     (0x04, widIllegal x), (0x05, sigIllegal w)] ++
    (if op = 0x30 then mmRefusal d inst part x else if isVec op then vecRefusal x else moveRefusal d inst part x))

/-- The checks of a MATMUL that wait for its sparsity record (R266, R199, R216). -/
def issueRefusal (rd : Nat → Nat → List Byte) (x : Desc) : Nat :=
  let q := Mm.of x
  if dOp x ≠ 0x30 ∨ !q.spPresent then 0
  else
    let s := recOf rd q
    let ins := spSpans rd q s
    let outs := [q.oSpan] ++ if usesSpill x q && dChainKind x ≠ 2 then [q.svSpan] else []
    firstReason
      [(0x08, ins.any (fun r => sramBytes < r.2) || outs.any fun o => ins.any fun i => meet o i),
       (0x0C, s.blocks && q.bTrans),
       (0x10, !s.clean || s.kind = 0 || s.idxOff % 32 ≠ 0 || s.listOff % 32 ≠ 0 || (!s.sp24 && s.idxOff ≠ 0) ||
          (!s.blocks && s.listOff ≠ 0) || (s.blocks && (s.kb ≠ cdiv q.k 16 || s.nb ≠ cdiv q.n 16)))]

end Sys2Proof.Machine
end

