-- ==== Sys2Proof/Machine/Ring.lean ====
section
/-!
DEFINITION. Command rings (R549–R562): the next entry, completions, doorbells and the errors of the bus. Ring page n
is partition n's; 16 is the operator's, in the PCIE page.
-/

namespace Sys2Proof.Machine

def ringPage (n : Nat) : Page := if n = 16 then pPcie else pRing n
def ringView (n : Nat) : View := if n = 16 then .pf else viewOf n
def ringPart (n : Nat) : Option Nat := if n = 16 then none else some n
/-- The ring page of a function. -/
def ringNo (fn : View) : Nat := fn.part.getD 16
/-- Submission rings of a page. -/
def ringCount (n : Nat) : Nat := if n = 16 then 1 else 4

def Dev.ring (d : Dev) (n : Nat) : Ring := d.rings.get .reset n
def Dev.updRing (d : Dev) (n : Nat) (f : Ring → Ring) : Dev := { d with rings := d.rings.upd .reset n f }

/-- Entries of a ring by its CFG word (R549). -/
def ringSize (cfg : Nat) : Nat := 2 ^ Nat.max 4 (Nat.min 12 (bits cfg 3 0))
def Dev.sqCfg (d : Dev) (n i : Nat) : Nat := d.reg (ringPage n) (0x088 + 32 * i)
def Dev.cqCfg (d : Dev) (n : Nat) : Nat := d.reg (ringPage n) 0x108

/-- An error of a ring page's own operation, in the PF view and the partition's. -/
def Dev.ringErr (d : Dev) (n code : Nat) : Dev := d.errP (ringPage n) code (ringPart n)
/-- Counters of RING and PCIE: 0 commands, 1 completions, 2 posts (RING only), doorbell_bad. -/
def Dev.ringCnt (d : Dev) (n k : Nat) : Dev := d.cntP (ringPage n) k 1 (ringPart n)
def Dev.doorbellBad (d : Dev) (n : Nat) : Dev := d.ringCnt n (if n = 16 then 2 else 3)

/-! ### Completions (R554–R557) -/

def Compl.bytes (c : Compl) (phase : Bool) : List Byte :=
  leBytes 8 c.tag ++ leBytes 1 c.status ++ leBytes 1 c.kind ++ leBytes 2 (c.head % 4096 + c.ring * 4096) ++
  leBytes 2 c.detail ++ leBytes 1 0 ++ leBytes 1 (b2n phase)

/-- An entry can be written now. -/
def Dev.cqRoom (d : Dev) (n : Nat) : Bool :=
  bit (d.cqCfg n) 8 && d.bst (ringPage n) != .halted && (d.ring n).cqUsed < ringSize (d.cqCfg n)

/-- Write one completion entry (R554–R556). -/
def Dev.cqWrite (d : Dev) (n : Nat) (c : Compl) : Dev :=
  let r := d.ring n
  let size := ringSize (d.cqCfg n)
  let base := d.reg (ringPage n) 0x100 + 4294967296 * d.reg (ringPage n) 0x104
  let d := d.put (.hostWrite (ringView n) (base + 16 * r.cqTail) (c.bytes r.phase) [])
  let t := (r.cqTail + 1) % size
  let d := d.updRing n fun r => { r with cqTail := t, cqUsed := r.cqUsed + 1, phase := if t = 0 then !r.phase else r.phase, armed := false }
  let d := d.ringCnt n 1
  let d := if c.kind = 1 then d.ringCnt n 2 else d
  let d := if r.cqUsed + 1 = size then d.evtP (ringPage n) 2 (ringPart n) else d
  if r.armed then d.msix (ringView n) (if n = 16 then bits (d.reg pPcie 0x040) 10 0 else bits (d.reg (pRing n) 0x040) 5 0) else d

/-- Write the completions that wait, while there is room. -/
def Dev.cqFlush (n : Nat) : List Compl → Dev → Dev
  | [], d => d
  | c :: cs, d =>
    if d.cqRoom n then Dev.cqFlush n cs ((d.cqWrite n c).updRing n fun r => { r with held := cs }) else d

/-- A command ends: its completion, unless it is quiet and done (R553); lost where the page is Halted (R562). -/
def Dev.complete (d : Dev) (n i : Nat) (e : Entry) (head status detail : Nat) : Dev :=
  let d := d.updRing n fun r => { r with running := r.running.erase i }
  if (e.quiet && status = 0) || d.bst (ringPage n) == .halted then d
  else
    let c : Compl := ⟨e.tag.toNat, status, 0, i, detail, head⟩
    let d := d.updRing n fun r => { r with held := r.held ++ [c] }
    Dev.cqFlush n (d.ring n).held d

/-! ### Submission (R550–R553) -/

/-- A ring takes commands: an operator's always, a partition's while its function is enabled (R109) and no reset of the
partition is in progress (R135). -/
def Dev.ringOpen (d : Dev) (n : Nat) : Bool := n = 16 || (d.parts.vfEnabled.contains n && !(d.parts.st.get .reset n).inReset)

/-- The control processors can read the head entry of a ring. -/
def Dev.ringReady (d : Dev) (n i : Nat) : Bool :=
  let r := d.ring n
  d.bst (ringPage n) == .running && d.ringOpen n && bit (d.sqCfg n i) 8 && !r.halted.contains i && i < ringCount n &&
  r.heads.get 0 i != r.tails.get 0 i && (r.running.find? i).isNone

/-- The clusters that a command in progress names. -/
def RunCmd.names : RunCmd → Nat
  | .park _ m => m
  | .switch _ _ m => m
  | .resume _ m _ => m
  | .partReset _ => 0

/-- A command in progress on another ring names one of these clusters (R552). -/
def Dev.clustersBusy (d : Dev) (n i mask : Nat) : Bool :=
  (d.ring n).running.any fun (e : Nat × (RunCmd × Entry × Nat)) => e.1 ≠ i && e.2.1.names &&& mask ≠ 0

/-- Read and run the head entry, once what it needs can be read: the head moves first (R550). starts says that HALT_N
holds the command back (R656). -/
def ringTry (n i : Nat) (e : Entry) (mask : Nat) (starts : Bool) (pre : Dev → Bool × Dev) (run : Nat → Dev → Dev) (d : Dev) : Dev :=
  if !d.ringReady n i || (starts && d.halt.effect) || d.clustersBusy n i mask then d
  else
    let (ok, d) := if e.clean then pre d else (true, d)
    if !ok then d
    else
      let head := ((d.ring n).heads.get 0 i + 1) % ringSize (d.sqCfg n i)
      let d := (d.updRing n fun r => { r with heads := r.heads.put 0 i head }).ringCnt n 0
      if !e.clean then d.complete n i e head 0x41 0 else run head d

/-- Read and run the head entry. -/
def ringCmd (n i : Nat) (e : Entry) (mask : Nat) (starts : Bool) (run : Nat → Dev → Dev) (d : Dev) : Dev :=
  ringTry n i e mask starts (fun d => (true, d)) run d

/-- The command goes on over later steps. -/
def Dev.ringRuns (d : Dev) (n i : Nat) (c : RunCmd) (e : Entry) (head : Nat) : Dev :=
  d.updRing n fun r => { r with running := r.running.insert i (c, e, head) }

/-! ### Doorbells and enables -/

/-- A register of the function's rings is written through a view: its own, or the PF view (R61, R108). -/
def Dev.ringVia (d : Dev) (v fn : View) (off : Nat) (f : Dev → Dev) : Dev := d.through v (ringPage (ringNo fn)) off f

/-- A new tail (R550, R551): at or above the size, or past the head, is dropped; so is one to a halted ring (R577). -/
def sqTail (v fn : View) (i : Nat) (value : Word) (d : Dev) : Dev :=
  let n := ringNo fn
  if ringCount n ≤ i then d
  else d.ringVia v fn (0x08C + 32 * i) fun d =>
    let r := d.ring n
    let size := ringSize (d.sqCfg n i)
    let t := bits value.toNat 11 0
    let h := r.heads.get 0 i
    if r.halted.contains i then d
    else if size ≤ t ∨ (t + size - h) % size < (r.tails.get 0 i + size - h) % size then
      (d.err v (ringPage n) 0x0101).doorbellBad n
    else d.updRing n fun r => { r with tails := r.tails.put 0 i t }
/-- SQ_TAIL_DOORBELL (R550). -/
def execSqTailDoorbell (v fn : View) (ring : Fin 4) (value : Word) (s : State) : Host.Outcome State Fault Refusal :=
  onDev (sqTail v fn ring.val value) s

/-- A bus error while a submission entry is read (R561). -/
def sqBusError (fn : View) (i : Nat) (d : Dev) : Dev :=
  let n := ringNo fn
  if !d.ringReady n i then d
  else ((d.updRing n fun r => { r with halted := r.halted.add i }).ringErr n 0x0102).evtP (ringPage n) 1 (ringPart n)
/-- SQ_READ_BUS_ERROR (R561). -/
def execSqReadBusError (fn : View) (ring : Fin 4) (s : State) : Host.Outcome State Fault Refusal :=
  onDev (sqBusError fn ring.val) s

/-- CFG of a submission ring: the size only while the ring is not enabled; enabling starts it empty (R561). -/
def sqEnable (v fn : View) (i : Nat) (value : Word) (d : Dev) : Dev :=
  let n := ringNo fn
  let p := ringPage n
  let off := 0x088 + 32 * i
  if ringCount n ≤ i then d
  else d.ringVia v fn off fun d =>
    let old := d.reg p off
    if bit old 8 then d.setReg p off (bits old 3 0 + (if bit value.toNat 8 then 256 else 0))
    else
      let d := d.setReg p off (bits value.toNat 3 0 + (if bit value.toNat 8 then 256 else 0))
      if bit value.toNat 8 then
        d.updRing n fun r => { r with heads := r.heads.erase i, tails := r.tails.erase i, halted := r.halted.del i }
      else d
/-- SQ_RING_ENABLE (R561). -/
def execSqRingEnable (v fn : View) (ring : Fin 4) (value : Word) (s : State) : Host.Outcome State Fault Refusal :=
  onDev (sqEnable v fn ring.val value) s

/-- CFG of a completion ring: enabling starts it empty with phase 1 (R555). -/
def cqEnable (v fn : View) (value : Word) (d : Dev) : Dev :=
  let n := ringNo fn
  let p := ringPage n
  d.ringVia v fn 0x108 fun d =>
    let old := d.reg p 0x108
    if bit old 8 then d.setReg p 0x108 (bits old 3 0 + (if bit value.toNat 8 then 256 else 0))
    else
      let d := d.setReg p 0x108 (bits value.toNat 3 0 + (if bit value.toNat 8 then 256 else 0))
      if bit value.toNat 8 then
        let d := d.updRing n fun r => { r with cqHead := 0, cqTail := 0, cqUsed := 0, phase := true, armed := false }
        Dev.cqFlush n (d.ring n).held d
      else d

/-- A base register of a ring: writable only while its ring is not enabled. -/
def ringBase (v : View) (fn : View) (off cfg : Nat) (value : Word) (d : Dev) : Dev :=
  d.ringVia v fn off fun d => if bit (d.reg (ringPage (ringNo fn)) cfg) 8 then d else d.wrReg v (ringPage (ringNo fn)) off value

/-- A new head of the completion ring (R555, R556): entries up to it are released; the ring is armed, and an entry
beyond the head sends the message at once. A head at or above the size, or past the tail, is dropped as R551 drops. -/
def cqHead (v fn : View) (value : Word) (d : Dev) : Dev :=
  let n := ringNo fn
  d.ringVia v fn 0x10C fun d =>
    let r := d.ring n
    let size := ringSize (d.cqCfg n)
    let h := bits value.toNat 11 0
    let rel := (h + size - r.cqHead) % size
    if size ≤ h ∨ r.cqUsed < rel then (d.err v (ringPage n) 0x0101).doorbellBad n
    else
      let was := r.cqUsed = size
      let left := r.cqUsed - rel
      let d := d.updRing n fun r => { r with cqHead := h, cqUsed := left, armed := left = 0 }
      let d := if was && left < size && n ≠ 16 then
          let (k, d) := d.freeNat 5
          d.cntP (pRing n) 5 k (some n) else d
      let d := if left = 0 then d else
          d.msix (ringView n) (if n = 16 then bits (d.reg pPcie 0x040) 10 0 else bits (d.reg (pRing n) 0x040) 5 0)
      Dev.cqFlush n (d.ring n).held d
/-- CQ_HEAD_DOORBELL (R556). -/
def execCqHeadDoorbell (v fn : View) (value : Word) (s : State) : Host.Outcome State Fault Refusal :=
  onDev (cqHead v fn value) s

/-- A bus error while a completion entry is written (R562): the page is Halted; completions that wait are discarded
(R577). -/
def cqBusError (fn : View) (d : Dev) : Dev :=
  let n := ringNo fn
  if !bit (d.cqCfg n) 8 ∨ d.bst (ringPage n) = .halted then d
  else ((d.toState (ringPage n) .halted).updRing n fun r => { r with held := [] }).ringErr n 0x0103
/-- CQ_WRITE_BUS_ERROR (R562). -/
def execCqWriteBusError (fn : View) (s : State) : Host.Outcome State Fault Refusal := onDev (cqBusError fn) s

end Sys2Proof.Machine
end

