-- ==== Sys2Proof/Machine/Engine.lean ====
section
/-!
DEFINITION. The four engines of a core (chapter 6): when a head issues, NOP and END, refusal, skip, the load engine
with its requests, the store engine with SUBMIT and POST, and the registers that act on an engine.
-/

namespace Sys2Proof.Machine

/-! ### Engines and heads -/

def Core.eng (c : Core) (q : Nat) : Engine := if q = 0 then c.ld else if q = 1 then c.ar else if q = 2 then c.ve else c.st
def Core.setEng (c : Core) (q : Nat) (e : Engine) : Core :=
  if q = 0 then { c with ld := e } else if q = 1 then { c with ar := e } else if q = 2 then { c with ve := e }
  else { c with st := e }
def Dev.updEng (d : Dev) (inst q : Nat) (f : Engine → Engine) : Dev := d.updCore inst fun c => c.setEng q (f (c.eng q))

/-- The partition of a core's instance. -/
def Dev.corePart (d : Dev) (inst : Nat) : Option Nat := d.clusterOwner (inst / 17)

/-- The core's engines may issue (R85, R606, R652, R656). -/
def Dev.mayIssue (d : Dev) (inst : Nat) : Bool :=
  let x := d.isle inst
  d.bst (pCore inst) == .running && x.state == .fired && x.req == .fired && x.move == .rest && !d.halt.effect &&
  !(d.clus' (inst / 17)).withdrawn

/-- The lines of a LOAD, and a FETCH's one line (R269). -/
def opLines (x : Desc) : Mv :=
  if dOp x = 0x11 then
    { far := fld x 0x20 8, near := 0, len := 64 * fld x 0x28 1, space := 0, lines := 1, farStride := 0, nearStride := 0, tgt := 0 }
  else Mv.of x

/-- Every request of a LOAD or FETCH has been sent. -/
def LoadOp.sentAll (o : LoadOp) : Bool := o.entered || (opLines o.desc).lines ≤ o.line

/-- A producer of the engine is settled: its conversion comes before the next head (R406). -/
def Dev.converts (d : Dev) (inst q : Nat) : Bool :=
  (d.nwch.get .reset (inst / 17)).awaits.any fun (a : Await) => a.core == inst && a.queue == q && a.settled

/-- An issued operation occupies the engine (R241, R269). -/
def Dev.engBusy (d : Dev) (inst q : Nat) : Bool :=
  let c := d.core inst
  if q = 0 then c.loads.any fun o => !o.sentAll
  else if q = 1 then !c.arr.isEmpty || d.converts inst 1
  else if q = 2 then !c.vec.isEmpty || d.converts inst 2
  else false

/-- What the head of an engine comes to. -/
inductive Head where
  | idle
  | skip (x : Desc)
  | go (x : Desc)
  deriving DecidableEq, Repr

/-- A core's SRAM, by offset. -/
def Dev.sram (d : Dev) (inst o n : Nat) : List Byte := d.rd (sramKey inst o) n
def Dev.sramBad (d : Dev) (inst o n : Nat) : Bool := d.poisoned (sramKey inst o) n

/-- A head is refused (R267). -/
def Dev.refuseHead (d : Dev) (inst part q reason : Nat) : Dev :=
  (((d.updEng inst q fun e => { e with stopped := true, reason := reason, go := false }).errP (pCore inst) 0x0101
    (some part)).evtP (pCore inst) 1 (some part)).cntP (pCore inst) 5 1 (some part)

/-- Look at a head: checks, waits, checks at issue, predicate (R210, R239, R240, R266). -/
def headOf (inst part q : Nat) (d : Dev) : Head × Dev :=
  let e := (d.core inst).eng q
  match e.queue with
  | [] => (.idle, d)
  | x :: _ =>
    if e.stopped || e.ended || !d.mayIssue inst || d.engBusy inst q then (.idle, d)
    else
      let r := headRefusal d inst part q x
      if r ≠ 0 then (.idle, d.refuseHead inst part q r)
      else if d.unmet inst x ≠ [] then (.idle, d)
      else
        let r := issueRefusal (d.sram inst) x
        if r ≠ 0 then (.idle, d.refuseHead inst part q r)
        else if e.go || !d.predSkips inst x then (.go x, d) else (.skip x, d)

/-- The head leaves its queue: counters issued, wait cycles and reservation cycles. The last two are free: the spec
gives no clock to a command. -/
def Dev.popHead (d : Dev) (inst part q : Nat) (x : Desc) : Dev :=
  let d := (d.updEng inst q fun e => { e with queue := e.queue.tail, go := false }).cntP (pCore inst) q 1 (some part)
  let d := if (List.range (if dPred x then 3 else 4)).any fun i => bit (dWid x i) 15 then
      let (k, d) := d.freeNat 11
      d.cntP (pCore inst) (11 + q) k (some part) else d
  if dOp x ≤ 1 ∨ dOp x = 0x20 then d
  else
    let (k, d) := d.freeNat 15
    d.cntP (pCore inst) 15 k (some part)

/-- A reservation is missing: the predicate's choice stands (R210). -/
def Dev.hold (d : Dev) (inst q : Nat) : Dev := d.updEng inst q fun e => { e with go := true }

/-- Send the signals of a store engine's finished operations, in the order of issue (R260). -/
def Dev.releaseSto (d : Dev) (inst part : Nat) : Dev :=
  let l := (d.core inst).sto
  let d := (l.takeWhile fun (f : StFlight) => f.done).foldl (fun (d : Dev) (f : StFlight) => d.signal (dSig f.desc) (partFin part) (srcCore inst 3)) d
  d.updCore inst fun c => { c with sto := l.dropWhile fun (f : StFlight) => f.done }

/-- Send the signals of a load engine's finished operations, in the order of issue (R260). -/
def Dev.releaseLoads (d : Dev) (inst part : Nat) : Dev :=
  let l := (d.core inst).loads
  let d := (l.takeWhile fun (o : LoadOp) => o.entered).foldl (fun (d : Dev) (o : LoadOp) => d.signal (dSig o.desc) (partFin part) (srcCore inst 0)) d
  d.updCore inst fun c => { c with loads := l.dropWhile fun (o : LoadOp) => o.entered }

/-- A descriptor without work of its own signals, behind those that issued before it. -/
def Dev.signalHead (d : Dev) (inst part q : Nat) (x : Desc) : Dev :=
  if q = 0 then
    (d.updCore inst fun c => { c with loads := c.loads ++ [(⟨x, 0, 0, [], [], false, false, true⟩ : LoadOp)] }).releaseLoads inst part
  else if q = 3 then
    (d.updCore inst fun c => { c with sto := c.sto ++ [⟨x, .nop, [], [], true⟩] }).releaseSto inst part
  else d.signal (dSig x) (partFin part) (srcCore inst q)

/-- A report goes on its way to a cluster's scale table (R397). -/
def Dev.sendReport (d : Dev) (c : Nat) (r : Report) : Dev :=
  { d with nwch := d.nwch.upd .reset c fun n => { n with reports := n.reports ++ [r] } }

/-- The entry to which an operation would report: none where its sums leave as FP32 (R397). -/
def reportEntry (x : Desc) : Option Nat :=
  let e := if dOp x = 0x30 then (if leavesFp32 x then 0x3FF else (Mm.of x).scO) else if isVec (dOp x) then (Vx.of x).scD else 0x3FF
  if e = 0x3FF then none else some e

/-- A skipped MATMUL's chain: the running sum it received, unchanged, tile by tile, or an empty one (R211). -/
def Dev.forward (d : Dev) (inst part : Nat) (x : Desc) : Dev :=
  let q := Mm.of x
  let n := q.m * q.svPitch
  let tgt := d.inst (inst / 17) (dChainCore x)
  let dest := if dChainKind x = 2 then bufKey (dChainCluster x) q.svBase else sramKey tgt q.svBase
  let own := dResume x && !(d.core inst).emptySpill.contains q.svBase
  let tiles := cdiv q.m (4 * (gangShape q.gang).1) * cdiv q.n (4 * (gangShape q.gang).2)
  let bytes := if own then 4 * q.m * q.n else 0
  let d := if own then d.wrBad dest (d.sram inst q.svBase n) (d.badOffsets (sramKey inst q.svBase) n) else d
  let d := d.updCore inst fun c => { c with emptySpill := c.emptySpill.del q.svBase }
  let d := if dChainKind x = 1 then
      (((d.updCore tgt fun c => { c with emptySpill := c.emptySpill.set q.svBase !own }).cntP (pCore inst) 9 bytes
        (some part)).cntP (pCore tgt) 10 bytes (some part))
    else d
  d.cntP (pCore inst) 23 (if own then tiles else 0) (some part)

/-- A skipped descriptor (R211, R241, R398). -/
def skipHead (inst part q : Nat) (x : Desc) (d : Dev) : Dev :=
  let d := d.popHead inst part q x
  let d := if q = 1 ∧ dOp x = 0x30 then (d.cntP (pCore inst) 35 1 (some part)).cntP (pCore inst) 33 1 (some part)
    else d.cntP (pCore inst) 4 1 (some part)
  let d := if q = 2 then d.cntP (pCore inst) 17 1 (some part) else d
  let d := match reportEntry x with
    | some e => d.sendReport (inst / 17) ⟨e, 0, false, 0, 0, false⟩
    | none => d
  let d := if dOp x = 0x30 && dChain x ≠ 0 then d.forward inst part x else d
  d.signalHead inst part q x

/-- Memory keys to which a skipped head's chain would write: their islands have to be awake. -/
def chainKeys (d : Dev) (inst : Nat) (x : Desc) : List Nat :=
  if dOp x ≠ 0x30 ∨ dChain x = 0 then []
  else if dChainKind x = 2 then [bufKey (dChainCluster x) 0] else [sramKey (d.inst (inst / 17) (dChainCore x)) 0]

/-- Run one core command: the head of engine q of the core, where its opcode is among those that the command names. -/
def atHead (c : CoreId) (q : Nat) (ops : Nat → Bool) (run : Nat → Nat → Desc → Dev → Dev) (d : Dev) : Dev :=
  let inst := d.instOf c
  match d.clusterOwner c.cluster.val with
  | none => d
  | some part =>
    match headOf inst part q d with
    | (.idle, d) => d
    | (.skip x, d) =>
      if !ops (dOp x) then d
      else
        let (awake, d) := d.wakeKeys (chainKeys d inst x)
        if awake then skipHead inst part q x d else d
    | (.go x, d) => if ops (dOp x) then run inst part x d else d

/-! ### NOP and END (R241, R244) -/

/-- NOP and END only leave the queue and signal (R241). -/
def runNop (q : Nat) (inst part : Nat) (x : Desc) (d : Dev) : Dev := (d.popHead inst part q x).signalHead inst part q x

/-- NOP (R244). -/
def execNop (e : EngineId) (s : State) : Host.Outcome State Fault Refusal :=
  onDev (atHead e.at_ e.queue.val (· == 0) (runNop e.queue.val)) s

/-- Bit 1 of BLK_EVT when all four engines have ended. -/
def runEnd (q : Nat) (inst part : Nat) (x : Desc) (d : Dev) : Dev :=
  let d := (d.popHead inst part q x).updEng inst q fun e => { e with ended := true }
  let c := d.core inst
  let d := if c.ld.ended && c.ar.ended && c.ve.ended && c.st.ended then d.evtP (pCore inst) 2 (some part) else d
  let d := if q = 1 then d.cntP (pCore inst) 33 1 (some part) else d
  d.signalHead inst part q x

/-- END (R241). -/
def execEndOp (e : EngineId) (s : State) : Host.Outcome State Fault Refusal :=
  onDev (atHead e.at_ e.queue.val (· == 1) (runEnd e.queue.val)) s

/-! ### The load engine (R233, R253, R254, R269, R270) -/

/-- Requests out. -/
def Core.ldOut (c : Core) : Nat := sumN (c.loads.map fun (o : LoadOp) => o.out.length)

/-- Send requests of an operation while slots are free: lines cut at the 256-byte boundaries of the far address. -/
def LoadOp.pump : Nat → LoadOp → LoadOp
  | 0, o => o
  | slots + 1, o =>
    let v := opLines o.desc
    if v.lines ≤ o.line then o
    else
      let far := v.farAt o.line + o.pos
      let n := Nat.min (v.len - o.pos) (256 - far % 256)
      let r : Req := ⟨far, n, v.nearAt o.line + o.pos⟩
      let o := { o with out := o.out ++ [r] }
      LoadOp.pump slots (if o.pos + n < v.len then { o with pos := o.pos + n } else { o with line := o.line + 1, pos := 0 })

/-- The load engine sends what it can (only its last operation can have requests left). -/
def Dev.pumpLoads (d : Dev) (inst part : Nat) : Dev :=
  let c := d.core inst
  match c.loads.getLast? with
  | none => d
  | some o =>
    if o.sentAll then d
    else
      let free := 384 - c.ldOut
      let o' := o.pump free
      let k := o'.out.length - o.out.length
      let d := (d.setCore inst { c with loads := c.loads.dropLast ++ [o'] }).cntP (pCore inst) 6 k (some part)
      if o'.sentAll then d
      else
        let (k, d) := d.freeNat 24
        d.cntP (pCore inst) 24 k (some part)

/-- LOAD issues with a free request slot. -/
def runLoad (inst part : Nat) (x : Desc) (d : Dev) : Dev :=
  if 384 ≤ (d.core inst).ldOut then d.hold inst 0
  else
    let d := d.popHead inst part 0 x
    (d.updCore inst fun c => { c with loads := c.loads ++ [(⟨x, 0, 0, [], [], false, false, false⟩ : LoadOp)] }).pumpLoads inst part
/-- LOAD (R269). -/
def execLoad (c : CoreId) (s : State) : Host.Outcome State Fault Refusal := onDev (atHead c 0 (· == 0x10) runLoad) s

/-- Entries of a queue that FETCHes hold (R263). -/
def Core.fetching (c : Core) (q : Nat) : Nat :=
  sumN ((c.loads.filter fun (o : LoadOp) => !o.entered && dOp o.desc == 0x11 && bits (fld o.desc 0x29 1) 1 0 == q).map
    fun (o : LoadOp) => fld o.desc 0x28 1)

/-- FETCH issues with n free entries of the target queue; where no request slot is free, its requests wait. -/
def runFetch (inst part : Nat) (x : Desc) (d : Dev) : Dev :=
  let c := d.core inst
  let q := bits (fld x 0x29 1) 1 0
  -- the FETCH itself leaves a queue of its own engine when it issues
  let own := if q = 0 then 1 else 0
  if 128 < (c.eng q).queue.length - own + c.fetching q + fld x 0x28 1 then d.hold inst 0
  else
    let d := d.popHead inst part 0 x
    (d.updCore inst fun c => { c with loads := c.loads ++ [(⟨x, 0, 0, [], [], false, false, false⟩ : LoadOp)] }).pumpLoads inst part
/-- FETCH (R269). -/
def execFetch (c : CoreId) (s : State) : Host.Outcome State Fault Refusal := onDev (atHead c 0 (· == 0x11) runFetch) s

/-- A FETCH has all its bytes: its descriptors enter whole, or nothing enters and the engine stops with it at the head
(R233, R301). -/
def Dev.enterFetch (d : Dev) (inst part : Nat) (o : LoadOp) : Bool × Dev :=
  let n := fld o.desc 0x28 1
  if o.bad then
    (false, (d.updEng inst 0 fun e => { e with queue := o.desc :: e.queue }).refuseHead inst part 0 0x18)
  else
    let bytes := (List.range (64 * n)).map fun i => o.got.get 0#8 i
    (true, (d.updEng inst (bits (fld o.desc 0x29 1) 1 0) fun e => { e with queue := e.queue ++ chunksOf 64 n bytes }).cntP
      (pCore inst) 26 n (some part))

/-- Finish the operations whose requests have all returned; a FETCH enters only after those before it (R269). -/
def settleOps (inst part : Nat) : List LoadOp → Bool → Dev → List LoadOp × Dev
  | [], _, d => ([], d)
  | o :: os, blocked, d =>
    if o.entered then let (r, d) := settleOps inst part os blocked d; (o :: r, d)
    else if dOp o.desc ≠ 0x11 then
      let (r, d) := settleOps inst part os blocked d
      ({ o with entered := o.sentAll && o.out.isEmpty } :: r, d)
    else if blocked || !o.sentAll || !o.out.isEmpty then
      let (r, d) := settleOps inst part os true d
      (o :: r, d)
    else
      let (ok, d) := d.enterFetch inst part o
      let (r, d) := settleOps inst part os false d
      (if ok then { o with entered := true, got := [] } :: r else r, d)

/-- The operation and its request that hold the i-th place among those outstanding. -/
def pickReq : List LoadOp → Nat → Nat → Option (Nat × Nat × LoadOp × Req)
  | [], _, _ => none
  | o :: os, j, i =>
    match o.out[i]? with
    | some r => some (j, i, o, r)
    | none => pickReq os (j + 1) (i - o.out.length)

/-- The bytes of a request with their poison, or none while what they need is on its way. -/
def Dev.readReq (d : Dev) (inst part : Nat) (o : LoadOp) (r : Req) : Option Rd × Dev :=
  if (opLines o.desc).space = 1 then
    let k := bufKey (inst / 17) r.far
    let (awake, d) := d.wakeKeys [k]
    let x : Rd := ⟨d.rd k r.len, d.badOffsets k r.len, false, (d.firstPoison k r.len).map (· - bufKey (inst / 17) 0)⟩
    if awake then (some x, d)
    else (none, d)
  else
    let ag := if dOp o.desc = 0x11 then agFetch else agLoad
    let (ok, d) := d.prepare part ag false r.far r.len
    if ok then let (x, d) := d.tRead part ag r.far r.len; (some x, d) else (none, d)

/-- A request returns (R270, R300, R633, R634). -/
def loadArrive (c : CoreId) (i : Nat) (d : Dev) : Dev :=
  let inst := d.instOf c
  match d.corePart inst, pickReq (d.core inst).loads 0 i with
  | some part, some (j, i, o, r) =>
    match d.readReq inst part o r with
    | (none, d) => d
    | (some x, d) =>
      let d := match x.first with
        | some a => if o.sawPoison then d else d.poisonRead (pCore inst) (if (opLines o.desc).space = 1 then 3 else 1) a (some part)
        | none => d
      let d := if dOp o.desc = 0x11 then d
        else (d.wrBad (sramKey inst r.near) x.bytes x.bad).cntP (pCore inst) 7 r.len (some part)
      let o := { o with
        out := o.out.eraseIdx i
        got := if dOp o.desc = 0x11 then (enumFrom 0 x.bytes).foldl (fun (g : SMap Byte) (e : Nat × Byte) => g.put 0#8 (r.near + e.1) e.2) o.got else o.got
        bad := o.bad || x.fault || x.bad ≠ []
        sawPoison := o.sawPoison || x.first.isSome }
      let d := (d.updCore inst fun c => { c with loads := c.loads.set j o }).pumpLoads inst part
      let (l, d) := settleOps inst part (d.core inst).loads false d
      (d.updCore inst fun c => { c with loads := l }).releaseLoads inst part
  | _, _ => d
/-- LOAD_DATA_ARRIVE (R270). -/
def execLoadDataArrive (c : CoreId) (i : Nat) (s : State) : Host.Outcome State Fault Refusal := onDev (loadArrive c i) s

/-! ### The store engine (R253, R255, R256) -/

/-- The lines of a STORE as they are read at issue: bytes, offsets that carry poison, the first poisoned granule. -/
def Dev.readLines (d : Dev) (inst : Nat) (v : Mv) : List Byte × List Nat × Option Nat :=
  let ls := (List.range v.lines).map fun i => (i, sramKey inst (v.nearAt i))
  (ls.flatMap fun l => d.rd l.2 v.len, ls.flatMap fun l => (d.badOffsets l.2 v.len).map (· + l.1 * v.len),
   ls.findSome? fun l => (d.firstPoison l.2 v.len).map (· - sramKey inst 0))

/-- STORE: its lines are read at issue, and their poison is counted there. -/
def runStore (inst part : Nat) (x : Desc) (d : Dev) : Dev :=
  let d := d.popHead inst part 3 x
  let (bytes, bad, first) := d.readLines inst (Mv.of x)
  let d := match first with
    | some a => d.poisonRead (pCore inst) 3 a (some part)
    | none => d
  d.updCore inst fun c => { c with sto := c.sto ++ [⟨x, .store, bytes, bad, false⟩] }
/-- STORE (R253). -/
def execStore (c : CoreId) (s : State) : Host.Outcome State Fault Refusal := onDev (atHead c 3 (· == 0x20) runStore) s

/-- The queue of a reduction engine that an opcode names (R427, R428); an opcode that it does not know goes to
queue 0, where it is refused. -/
def redQueueOf (op : Nat) : Nat := if op = 0xA4 ∨ op = 0xA5 then 1 else if 0xA8 ≤ op ∧ op ≤ 0xAA then 2 else 0

def Rede.q (r : Rede) (i : Nat) : EngQ := if i = 0 then r.q0 else if i = 1 then r.q1 else r.q2
def Rede.setQ (r : Rede) (i : Nat) (q : EngQ) : Rede :=
  if i = 0 then { r with q0 := q } else if i = 1 then { r with q1 := q } else { r with q2 := q }

/-- Entries of SUBMITs on their way to a target, from the cores that can reach it: target 0 a die's matrix-vector
unit; 1 to 3 the engines of a cluster, where a reduction engine has three queues. -/
def Dev.submitsTo (d : Dev) (inst t rq : Nat) : Nat :=
  let near (i : Nat) : Bool := if t = 0 then i / 17 / 4 == inst / 17 / 4 else i / 17 == inst / 17
  sumN ((d.cores.filter fun (e : Nat × Core) => near e.1).map fun (e : Nat × Core) =>
    (e.2.sto.filter fun (f : StFlight) => !f.done && f.kind == .submit t && (t != 2 || redQueueOf (dOp f.data) == rq)).length)

/-- Descriptors in the target queue, and how many it takes (R229, R263, R363, R423, R427). -/
def Dev.targetQueue (d : Dev) (inst t rq : Nat) : Nat × Nat :=
  let c := inst / 17
  if t = 0 then ((d.mvec.get .reset (c / 4)).queue.length, 64)
  else if t = 1 then ((d.opte.get .reset c).q.queue.length, 64)
  else if t = 2 then (((d.rede.get .reset c).q rq).queue.length, 32)
  else ((d.nwch.get .reset c).queue.length, 16)

/-- SUBMIT issues with a free entry of the target's queue, and reads the 64 bytes (R634: poison among them is recorded). -/
def runSubmit (inst part : Nat) (x : Desc) (d : Dev) : Dev :=
  let o := bits (fld x 0x20 3) 20 0 * 32
  let t := bits (fld x 0x20 3) 23 21
  let body := d.sram inst o 64
  let rq := redQueueOf (dOp body)
  let (n, cap) := d.targetQueue inst t rq
  if cap ≤ n + d.submitsTo inst t rq then d.hold inst 3
  else
    let d := match d.firstPoison (sramKey inst o) 64 with
      | some a => d.poisonRead (pCore inst) 3 (a - sramKey inst 0) (some part)
      | none => d
    let d := d.popHead inst part 3 x
    d.updCore inst fun c => { c with sto := c.sto ++ [⟨x, .submit t, body, d.badOffsets (sramKey inst o) 64, false⟩] }
/-- SUBMIT (R255). -/
def execSubmit (c : CoreId) (s : State) : Host.Outcome State Fault Refusal := onDev (atHead c 3 (· == 0x22) runSubmit) s

/-- POST issues with one of the core's four post slots. -/
def runPost (inst part : Nat) (x : Desc) (d : Dev) : Dev :=
  if 4 ≤ ((d.core inst).sto.filter fun (f : StFlight) => !f.done && f.kind == .post).length then d.hold inst 3
  else
    let d := (d.popHead inst part 3 x).cntP (pCore inst) 27 1 (some part)
    d.updCore inst fun c => { c with sto := c.sto ++ [⟨x, .post, [], [], false⟩] }
/-- POST (R256). -/
def execPost (c : CoreId) (s : State) : Host.Outcome State Fault Refusal := onDev (atHead c 3 (· == 0x23) runPost) s

/-- The oldest operation of a kind that is not finished. -/
def Core.oldest (c : Core) (k : StKind → Bool) : Option (Nat × StFlight) :=
  (enumFrom 0 c.sto).find? fun (e : Nat × StFlight) => !e.2.done && k e.2.kind

/-- An operation of the store engine is finished: its signal goes in its turn. -/
def Dev.storeEnds (d : Dev) (inst part j : Nat) : Dev :=
  (d.updCore inst fun c => { c with sto := c.sto.modify j fun f => { f with done := true, data := [], bad := [] } }).releaseSto inst part

/-- Where line i of a STORE goes that names no virtual address. -/
def Dev.storeKey (d : Dev) (inst : Nat) (v : Mv) (i : Nat) : Nat :=
  if v.space = 1 then bufKey (inst / 17) (v.farAt i) else sramKey (d.inst (inst / 17) v.tgt) (v.farAt i)

/-- Write the lines of a STORE. -/
def Dev.writeLines (d : Dev) (inst part : Nat) (v : Mv) (f : StFlight) : Dev :=
  (List.range v.lines).foldl (fun (d : Dev) i =>
    let bytes := (f.data.drop (i * v.len)).take v.len
    let bad := (f.bad.filter fun o => i * v.len ≤ o && o < (i + 1) * v.len).map (· - i * v.len)
    if v.space = 0 then d.tWrite part agStore (v.farAt i) bytes bad else d.wrBad (d.storeKey inst v i) bytes bad) d

/-- Every line of a STORE can be written now. -/
def Dev.prepareLines (d : Dev) (inst part : Nat) (v : Mv) : Bool × Dev :=
  if v.space = 0 then
    (List.range v.lines).foldl (fun (a : Bool × Dev) i =>
      let (ok, d) := a.2.prepare part agStore true (v.farAt i) v.len
      (a.1 && ok, d)) (true, d)
  else d.wakeKeys [d.storeKey inst v 0]

/-- The writes of the oldest STORE are acknowledged (R58). -/
def storeDone (c : CoreId) (d : Dev) : Dev :=
  let inst := d.instOf c
  match d.corePart inst, (d.core inst).oldest (· == .store) with
  | some part, some (j, f) =>
    let v := Mv.of f.desc
    match d.prepareLines inst part v with
    | (false, d) => d
    | (true, d) =>
      let n := v.len * v.lines
      let d := (d.writeLines inst part v f).cntP (pCore inst) 8 n (some part)
      let d := if v.space = 2 then
          (d.cntP (pCore inst) 9 n (some part)).cntP (pCore (d.inst (inst / 17) v.tgt)) 10 n (some part)
        else d
      d.storeEnds inst part j
  | _, _ => d
/-- STORE_DONE (R58). -/
def execStoreDone (c : CoreId) (s : State) : Host.Outcome State Fault Refusal := onDev (storeDone c) s

/-- A descriptor enters its target's queue. -/
def Dev.enqueue (d : Dev) (inst t : Nat) (x : Desc) : Dev :=
  let c := inst / 17
  if t = 0 then { d with mvec := d.mvec.upd .reset (c / 4) fun m => { m with queue := m.queue ++ [(inst, x)] } }
  else if t = 1 then { d with opte := d.opte.upd .reset c fun o => { o with q := { o.q with queue := o.q.queue ++ [(inst, x)] } } }
  else if t = 2 then
    let rq := redQueueOf (dOp x)
    { d with rede := d.rede.upd .reset c fun r => r.setQ rq { r.q rq with queue := (r.q rq).queue ++ [(inst, x)] } }
  else { d with nwch := d.nwch.upd .reset c fun n => { n with queue := n.queue ++ [(inst, x)] } }

/-- The crossing delivers the oldest SUBMIT's descriptor (R255). -/
def submitDelivered (c : CoreId) (d : Dev) : Dev :=
  let inst := d.instOf c
  let isSub : StKind → Bool := fun k => match k with | .submit _ => true | _ => false
  match d.corePart inst, (d.core inst).oldest isSub with
  | some part, some (j, f) =>
    let t := match f.kind with | .submit t => t | _ => 0
    let (awake, d) := if t = 0 then (true, d) else d.wakeKeys [bufKey (inst / 17) 0]
    if awake then (d.enqueue inst t f.data).storeEnds inst part j else d
  | _, _ => d
/-- SUBMIT_DELIVERED (R255). -/
def execSubmitDelivered (c : CoreId) (s : State) : Host.Outcome State Fault Refusal := onDev (submitDelivered c) s

/-- The control processors write the oldest POST's entry, once the completion ring has room and nothing is held before
it (R555, R557). -/
def postWritten (c : CoreId) (d : Dev) : Dev :=
  let inst := d.instOf c
  match d.corePart inst, (d.core inst).oldest (· == .post) with
  | some part, some (j, f) =>
    if !d.cqRoom part || !(d.ring part).held.isEmpty then d
    else (d.cqWrite part ⟨fld f.desc 0x20 8, 0, 1, 0, c.core.val + 16 * c.cluster.val, 0⟩).storeEnds inst part j
  | _, _ => d
/-- POST_COMPLETION_WRITTEN (R557). -/
def execPostCompletionWritten (c : CoreId) (s : State) : Host.Outcome State Fault Refusal := onDev (postWritten c) s

/-! ### Signals and the registers that act on an engine -/

/-- The counter that a signal word names (R242): a core counter at the core's present instance. -/
def Dev.sigKey (d : Dev) (w : Word) : Nat :=
  if sigScope w then 0x10000 + sigCluster w * 256 + sigIndex w else d.inst (sigCluster w) (sigCore w) * 64 + sigIndex w

/-- The page in whose counter 25 a dropped signal counts (R279). -/
def Dev.sigPage (d : Dev) (w : Word) : Page := pCore (d.inst (sigCluster w) (if sigScope w then 0 else sigCore w))

/-- Signal i of those under way may be delivered: none of its channel stands before it (R44, R260). -/
def Dev.sigFirst (d : Dev) (i : Nat) (s : Sig) : Bool := !(d.sigs.take i).any fun (t : Sig) => t.src == s.src

/-- A signal reaches its counter (R58, R59, R259): dropped and counted where the target is not the sender's (R22, R59),
ill-formed (R242), of a withdrawn cluster (R652) or of a parked one (R279); at a sleeping island it waits (R608). -/
def signalArrive (i : Nat) (d : Dev) : Dev :=
  match d.sigs[i]? with
  | none => d
  | some s =>
    if !d.sigFirst i s then d
    else
      let w := s.word
      let p := s.part.val
      let cl := d.clus' (sigCluster w)
      let gone := { d with sigs := d.sigs.eraseIdx i }
      if d.clusterOwner (sigCluster w) ≠ some p ∨ sigRsv w ≠ 0 ∨ (!sigScope w ∧ 63 < sigIndex w) ∨ cl.withdrawn then gone.cntP pPart 0 1 (some p)
      else if cl.parked then gone.cntP (d.sigPage w) 25 1 (some p)
      else
        let isle := if sigScope w then fabIsle (sigCluster w) else d.inst (sigCluster w) (sigCore w)
        if (d.isle isle).state = .cold then gone.coldDrop isle
        else if d.asleep isle then d.wake isle
        else { gone with evc := gone.evc.upd 0#32 (d.sigKey w) (· + BitVec.ofNat 32 (sigInc w)) }
/-- SIGNAL_ARRIVE (R259). -/
def execSignalArrive (i : Nat) (s : State) : Host.Outcome State Fault Refusal := onDev (signalArrive i) s

/-- Discard a stopped engine's refused head (R268). -/
def engSkip (v : View) (inst q : Nat) (d : Dev) : Dev :=
  d.through v (pCore inst) 0x050 fun d =>
    if !((d.core inst).eng q).stopped then d
    else d.updEng inst q fun e => { e with queue := e.queue.tail, stopped := false, reason := 0, go := false }
/-- ENGINE_SKIP_HEAD (R268). -/
def execEngineSkipHead (v : View) (e : EngineId) (s : State) : Host.Outcome State Fault Refusal :=
  onDev (fun d => engSkip v (d.instOf e.at_) e.queue.val d) s

/-- Clear ended: the engine issues its next descriptor (CORE_ENG_CTL.restart). -/
def engRestart (v : View) (inst q : Nat) (d : Dev) : Dev :=
  d.through v (pCore inst) 0x050 fun d => d.updEng inst q fun e => { e with ended := false }
/-- ENGINE_RESTART (R241). -/
def execEngineRestart (v : View) (e : EngineId) (s : State) : Host.Outcome State Fault Refusal :=
  onDev (fun d => engRestart v (d.instOf e.at_) e.queue.val d) s

/-- A core and the cluster engines of a cluster are still (R262). -/
def Dev.clusterStill (d : Dev) (c : Nat) : Bool :=
  (List.range 16).all (fun l => d.stillBlk (pCore (d.inst c l))) &&
  d.stillBlk ⟨.opte, c⟩ && d.stillBlk ⟨.nwch, c⟩ && d.stillBlk ⟨.rede, c⟩

/-- A core counter is written (R262): while its core is still; in any other state dropped with code 0x0102. -/
def coreCounter (v : View) (inst i : Nat) (value : Word) (d : Dev) : Dev :=
  d.through v (pCore inst) (0x800 + 4 * i) fun d =>
    if d.stillBlk (pCore inst) then { d with evc := d.evc.put 0#32 (inst * 64 + i) value } else d.err v (pCore inst) 0x0102

/-- A cluster counter is written (R262): while every core and cluster engine of its cluster is still. -/
def clusterCounter (v : View) (c i : Nat) (value : Word) (d : Dev) : Dev :=
  d.through v (pClst c) (0x400 + 4 * i) fun d =>
    if d.clusterStill c then { d with evc := d.evc.put 0#32 (0x10000 + c * 256 + i) value } else d.err v (pClst c) 0x0102

/-- A core has 64 counters, a cluster 256. -/
def counterWrite (v : View) (c : CoreId) (scope : Bool) (i : Nat) (value : Word) (d : Dev) : Dev :=
  if scope then clusterCounter v c.cluster.val i value d
  else if 63 < i then d
  else coreCounter v (d.instOf c) i value d
/-- EVENT_COUNTER_WRITE (R262). -/
def execEventCounterWrite (v : View) (c : CoreId) (scope : Bool) (i : Fin 256) (value : Word) (s : State) :
    Host.Outcome State Fault Refusal := onDev (counterWrite v c scope i.val value) s

end Sys2Proof.Machine
end

