-- ==== Sys2Proof/Machine/Compute.lean ====
section
/-!
DEFINITION. The array engine, the vector engine and the matrix-vector units: plans and power grants, issue, completion,
and what a sampled operation leaves to the numerics watch (chapters 5, 6 and 10).
-/

namespace Sys2Proof.Machine

/-! ### The cluster's scale table and watch -/

abbrev pNwch (c : Nat) : Page := ⟨.nwch, c⟩
abbrev pMvec (m : Nat) : Page := ⟨.mvec, m⟩

def Dev.nw (d : Dev) (c : Nat) : Nwch := d.nwch.get .reset c
def Dev.updNw (d : Dev) (c : Nat) (f : Nwch → Nwch) : Dev := { d with nwch := d.nwch.upd .reset c f }
def Dev.entry (d : Dev) (c i : Nat) : Entry192 := (d.nw c).entries.get .reset i
def Dev.updEntry (d : Dev) (c i : Nat) (f : Entry192 → Entry192) : Dev :=
  d.updNw c fun n => { n with entries := n.entries.upd .reset i f }
def Dev.nwCnt (d : Dev) (c k n : Nat) : Dev := d.cntP (pNwch c) k n (d.clusterOwner c)
def Dev.nwEvt (d : Dev) (c m : Nat) : Dev := d.evtP (pNwch c) m (d.clusterOwner c)

/-- t of an entry: 0 for none and for a Free one (R396). -/
def Dev.tOf (d : Dev) (c i : Nat) : Int :=
  if i = 0x3FF then 0
  else let e := d.entry c i; if e.state = .free then 0 else (e.scale.toNat : Int) - 127

def Dev.calibrating (d : Dev) (c i : Nat) : Bool := i ≠ 0x3FF && (d.entry c i).state == .calibrating

/-- Sampling intervals: n within 64 to 65,536 (NWCH_HW_N, NWCH_HW_MAXN, NWCH_Q_N). -/
def nearEnd (n : Nat) : Nat := Nat.max 64 (Nat.min 65536 n)
def Dev.hwN (d : Dev) (c : Nat) : Nat :=
  let n := nearEnd (d.reg (pNwch c) 0x044)
  let m := d.reg (pNwch c) 0x048
  if m = 0 then n else Nat.min n (nearEnd m)
def Dev.hwOn (d : Dev) (c : Nat) : Bool := bit (d.reg (pNwch c) 0x040) 0 || d.reg (pNwch c) 0x048 ≠ 0
def Dev.qOn (d : Dev) (c : Nat) : Bool := bit (d.reg (pNwch c) 0x040) 1

/-- A tile-segment that can be sampled (R414). -/
def TileSeg.eligible (t : TileSeg) : Bool := t.steps ≤ 1024 && !t.outs.any fun (o : SegOut) => o.bad

/-- Count a core's eligible tile-segments while the mode is on, and capture the sampled ones (R414, R415). -/
def Dev.sampleSegs (d : Dev) (inst : Nat) (ts : List TileSeg) : Dev :=
  let c := inst / 17
  if !d.hwOn c then d
  else (ts.filter TileSeg.eligible).foldl (fun (d : Dev) (t : TileSeg) =>
    let k := d.core inst
    let n := k.segCount + 1
    let d := d.setCore inst { k with segCount := n }
    if n % d.hwN c ≠ d.reg (pNwch c) 0x04C % d.hwN c then d
    else if k.capture.isSome then d.nwCnt c 1 1
    else d.updCore inst fun k => { k with capture := some ⟨t, n⟩ }) d

/-- A quantisation alarm (R420): the fields of the window are cleared with it. -/
def Dev.qAlarm (d : Dev) (c i : Nat) : Dev :=
  let d := (d.updEntry c i fun e => { e with qErr := 0, qSig := 0, qCount := 0 }).nwEvt c 2
  let d := d.nwCnt c 4 1
  d.updNw c fun n => { n with qLast := some (n.qLast.getD i) }

/-- A sampled block (R418, R419). -/
def Dev.qBlock (d : Dev) (c i : Nat) (b : QBlock) : Dev :=
  let fin (w : Word) : Bool := (vOf w).finite
  if !b.orig.all fin then d
  else
    let d := d.nwCnt c 3 1
    if (d.entry c i).state = .free then d
    else if !b.back.all fin then d.qAlarm c i
    else
      let sq (w : Word) : Word := fmul w w
      let d := d.updEntry c i fun e =>
        { e with
          qErr := (b.orig.zip b.back).foldl (fun (a : Word) (p : Word × Word) => fadd a (sq (f32 ((vOf p.1).add (vOf p.2).neg)))) e.qErr
          qSig := b.orig.foldl (fun (a : Word) w => fadd a (sq w)) e.qSig
          qCount := e.qCount + 1 }
      let cfg := d.reg (pNwch c) 0x054
      let e := d.entry c i
      if e.qCount < Nat.max 1 (bits cfg 23 8) then d
      else if Val.lt ((vOf e.qSig).scale (-(bits cfg 4 0 : Int))) (vOf e.qErr) then d.qAlarm c i
      else d.updEntry c i fun e => { e with qErr := 0, qSig := 0, qCount := 0 }

/-- Count a core's conversion blocks while the mode is on, and take the sampled ones (R418). -/
def Dev.sampleBlocks (d : Dev) (inst : Nat) (bs : List (Nat × QBlock)) : Dev :=
  let c := inst / 17
  if !d.qOn c then d
  else bs.foldl (fun (d : Dev) (b : Nat × QBlock) =>
    let k := d.core inst
    let n := k.blkCount + 1
    let d := d.setCore inst { k with blkCount := n }
    let qn := nearEnd (d.reg (pNwch c) 0x050)
    if n % qn ≠ d.reg (pNwch c) 0x04C % qn then d else d.qBlock c b.1 b.2) d

/-! ### Writes -/

/-- Rows of FP32 sums at a place (R248). -/
def sumWrites (base pitch : Nat) (rows : List (List Word)) (bad : List (List Bool)) : List MemWr :=
  (enumFrom 0 (rows.zip bad)).map fun (e : Nat × (List Word × List Bool)) =>
    ⟨base + e.1 * pitch, e.2.1.flatMap fun w => leBytes 4 w.toNat,
     (enumFrom 0 e.2.2).filterMap fun (x : Nat × Bool) => if x.2 then some (4 * x.1) else none⟩

/-- The bytes of elements and of scales that carry the poison of an element. -/
def elemBad (fmt : Nat) (is : List Nat) : List Nat := is.flatMap fun i => [i * fmtBits fmt / 8, (i * fmtBits fmt + fmtBits fmt - 1) / 8]

/-- Converted rows at a place, with their scale array after them (R247). -/
def drainWrites (base pitch sbase srow fmt : Nat) (rows : List (List Byte × List Byte × List Nat)) : List MemWr :=
  (enumFrom 0 rows).flatMap fun (e : Nat × (List Byte × List Byte × List Nat)) =>
    (⟨base + e.1 * pitch, e.2.1, elemBad fmt e.2.2.2⟩ : MemWr) ::
    (if fmtMx fmt then [⟨sbase + e.1 * srow, e.2.2.1, e.2.2.2.map (· / 32)⟩] else [])

/-- Writes of an operation; those into a cluster whose containment stands are dropped and counted (R641). -/
def Dev.land (d : Dev) (ws : List MemWr) : Dev :=
  ws.foldl (fun (d : Dev) (w : MemWr) => match d.shutAt w.key with
    | some c => d.cntP (pClst c) 3 1 (d.clusterOwner c)
    | none => d.wrBad w.key w.bytes w.bad) d

/-- Conversion blocks with their entry; none where the destination names no entry. -/
def withEntry (e : Nat) (bs : List QBlock) : List (Nat × QBlock) := if e = 0x3FF then [] else bs.map fun b => (e, b)

/-! ### MATMUL -/

/-- Bytes a cycle on the data port (R186). -/
def Dev.dataPort (d : Dev) (inst : Nat) : Nat := if d.bst (pMvec (inst / 17 / 4)) = .running then 992 else 1024

/-- Bytes of an output element as R190 counts them. -/
def outBytes (x : Desc) : Nat := if leavesFp32 x then 4 else cdiv (fmtBits (Mm.of x).oFmt) 8

/-- t of the operands of a MATMUL: the sum of the tensor scales of per-tensor FP8 operands (R166, R249). -/
def Dev.tOperands (d : Dev) (c : Nat) (q : Mm) : Int :=
  (if fmtTensor q.aFmt then d.tOf c q.scA else 0) + (if fmtTensor q.bFmt then d.tOf c q.scB else 0)

/-- A row of a core's SRAM read as stored values. -/
def Dev.sramRows (d : Dev) (inst : Nat) (g : Region) : List (List El) := readRows (d.sram inst) (d.sramBad inst) g

/-- What the drain converter makes of finished sums (R166, R218, R249). -/
def drainSums (q : Mm) (tIn tOut : Int) (sums : List (List Word)) (bad : List (List Bool)) : Drained :=
  drainRows q.oFmt tOut (if fmtMx q.oFmt && q.oSupplied then some q.kScale else none) (scaleSums tIn sums) bad

/-- The output region's writes. -/
def outWrites (inst : Nat) (q : Mm) (dr : Drained) : List MemWr :=
  let g : Region := ⟨q.oBase, q.m, q.n, q.oFmt⟩
  drainWrites (sramKey inst q.oBase) g.pitch (sramKey inst g.scaleBase) g.scaleRow q.oFmt dr.rows

/-- The first poisoned granule of regions of a core's SRAM, in order, as an offset. -/
def Dev.firstBad (d : Dev) (inst : Nat) (rs : List (Nat × Nat)) : Option Nat :=
  rs.findSome? fun (r : Nat × Nat) => (d.firstPoison (sramKey inst r.1) (r.2 - r.1)).map (· - sramKey inst 0)

/-- An operation of a core read poison: one record (R634). -/
def Dev.readBad (d : Dev) (p : Page) (part : Nat) (first : Option Nat) : Dev :=
  match first with
  | some a => d.poisonRead p 3 a (some part)
  | none => d

/-- Where the finished sums of a MATMUL go that leaves them as FP32 or awaits conversion (R237, R273, R274, R406). -/
def Dev.sumBase (d : Dev) (inst : Nat) (x : Desc) : Nat :=
  let q := Mm.of x
  if dChainKind x = 1 then sramKey (d.inst (inst / 17) (dChainCore x)) q.svBase
  else if dChainKind x = 2 then bufKey (dChainCluster x) q.svBase
  else sramKey inst q.svBase

/-- The spill buffers that hold running sums after a MATMUL. -/
def Dev.filledBy (d : Dev) (inst : Nat) (x : Desc) (spilled : Bool) (sumsOut : Bool) : List (Nat × Nat) :=
  let q := Mm.of x
  (if spilled || (sumsOut && dChain x = 0) then [(inst, q.svBase)] else []) ++
  (if dChainKind x = 1 then [(d.inst (inst / 17) (dChainCore x), q.svBase)] else [])

/-- The work of a MATMUL from what it reads at issue (R182–R220, R271–R275, R402, R406). -/
def Dev.matFlight (d : Dev) (inst : Nat) (x : Desc) (charge ovh : Nat) : Flight :=
  let q := Mm.of x
  let c := inst / 17
  let rd := d.sram inst
  let pz := d.sramBad inst
  let sr := recOf rd q
  let start := if dResume x && !(d.core inst).emptySpill.contains q.svBase then
      some (d.sramRows inst ⟨q.svBase, q.m, q.n, 0⟩) else none
  let r := matRun rd pz q sr (d.dataPort inst) (outBytes x) start (d.hwOn c)
  let tIn := d.tOperands c q
  let calib := fmtTensor q.oFmt && !leavesFp32 x && d.calibrating c q.scO
  let sumsOut := leavesFp32 x || calib
  let dr := drainSums q tIn (d.tOf c q.scO) r.sums r.bad
  let rb := reblocked rd pz q sr
  let resumes := b2n (dResume x) * r.tiles + r.spills
  let none' : OvfCnt := .none
  let k := if sumsOut then none' else dr.cnt
  { desc := x
    writes :=
      ((enumFrom 0 r.mid).flatMap fun (row : Nat × List (Option (Word × Bool))) =>
        (enumFrom 0 row.2).filterMap fun (cell : Nat × Option (Word × Bool)) => cell.2.map fun (w : Word × Bool) =>
          (⟨sramKey inst (q.svBase + row.1 * q.svPitch + 4 * cell.1), leBytes 4 w.1.toNat, if w.2 then [0] else []⟩ : MemWr)) ++
      (if sumsOut then sumWrites (d.sumBase inst x) q.svPitch r.sums r.bad else outWrites inst q dr)
    counts :=
      [(32, r.steps), (33, r.cycles + ovh), (34, r.lost), (36, r.blkSkipped), (37, r.gated), (38, r.badNib),
       (39, r.badList), (40, k.inf), (41, k.nan), (42, k.blk), (43, r.rdCnt.inf), (44, r.rdCnt.nan), (21, r.spills),
       (22, resumes), (23, if dChain x = 0 then 0 else r.tiles), (9, if dChainKind x = 1 then 4 * q.m * q.n else 0)]
    ringIn := if dChainKind x = 1 then some (d.inst c (dChainCore x), 4 * q.m * q.n) else none
    filled := d.filledBy inst x (0 < r.spills) sumsOut
    report := (reportEntry x).map fun e =>
      (⟨e, dr.amax, dr.nonfinite, if calib then 0 else dr.elems, if calib then 0 else dr.zeros, q.oGrad && !calib⟩ : Report)
    await := calib
    tIn := tIn
    blocks := withEntry q.scA rb.1 ++ withEntry q.scB rb.2 ++ if sumsOut then [] else withEntry q.scO dr.blocks
    tileSegs := r.tileSegs
    charge := charge
    use := d.free }

/-- µW of an array operation (R617): f is the island's effective frequency in 25 MHz. -/
def arrCharge (num den eff : Nat) : Nat := 1750000 * den * eff / (num * 84)

/-- MATMUL: the ratio is fixed and the grant asked for; with the grant it issues (R189, R190, R617). -/
def runMatmul (inst part : Nat) (x : Desc) (d : Dev) : Dev :=
  let q := Mm.of x
  match (d.core inst).arrPlan with
  | none =>
    let h := shapeOf q (recOf (d.sram inst) q) (d.dataPort inst)
    (d.hold inst 1).updCore inst fun c => { c with arrPlan := some ⟨arrCharge h.num h.den (d.isle inst).eff, false, h.num, h.den⟩ }
  | some p =>
    if !p.granted then d
    else
      let (ovh, d) := d.freeNat 33
      let f := d.matFlight inst x p.charge (ovh % 9)
      let spill := if dResume x && !(d.core inst).emptySpill.contains q.svBase then [q.svSpan] else []
      let d := d.readBad (pCore inst) part (d.firstBad inst (mmReads (d.sram inst) q ++ spill))
      let d := d.popHead inst part 1 x
      d.updCore inst fun c => { c with arrPlan := none, arr := c.arr ++ [f], gang := q.gang, ratio := 32768 * p.den / p.num,
                                       emptySpill := if dResume x then c.emptySpill.del q.svBase else c.emptySpill }
/-- MATMUL (R189). -/
def execMatmul (c : CoreId) (s : State) : Host.Outcome State Fault Refusal := onDev (atHead c 1 (· == 0x30) runMatmul) s

/-- What follows the last write of an operation of engine q (R397, R406): counters, report, and the signal or the wait
for conversion. -/
def Dev.opEnds (d : Dev) (inst part q : Nat) (f : Flight) (page : Page) (src conv : Nat) : Dev :=
  let d := f.counts.foldl (fun (d : Dev) (k : Nat × Nat) => d.cntP page k.1 k.2 (some part)) d
  let d := match f.ringIn with
    | some t => d.cntP (pCore t.1) 10 t.2 (some part)
    | none => d
  let d := f.filled.foldl (fun (d : Dev) (t : Nat × Nat) => d.updCore t.1 fun c => { c with emptySpill := c.emptySpill.del t.2 }) d
  let d := match f.await, f.report with
    | true, some r => d.updNw (inst / 17) fun n =>
        { n with awaits := n.awaits ++ [(⟨inst, q, f.desc, r.entry, f.tIn, false, 0, conv, conv = 0, f.use⟩ : Await)] }
    | _, _ => d
  let d := match f.report with
    | some r => d.sendReport (inst / 17) r
    | none => d
  let d := (d.sampleSegs inst f.tileSegs).sampleBlocks inst f.blocks
  if f.await then d else d.signal (dSig f.desc) (partFin part) src

/-- The oldest array operation completes: its last write is acknowledged. -/
def matmulDone (c : CoreId) (d : Dev) : Dev :=
  let inst := d.instOf c
  match d.corePart inst, (d.core inst).arr with
  | some part, f :: rest =>
    let (awake, d) := d.wakeKeys ((f.writes.map fun (w : MemWr) => w.key).filter fun k => keyIsle k != some inst)
    if !awake then d
    else
      let d := (d.land f.writes).updCore inst fun c => { c with arr := rest, ratio := 0 }
      d.opEnds inst part 1 f (pCore inst) (srcCore inst 1) 0
  | _, _ => d
/-- MATMUL_DONE (R58). -/
def execMatmulDone (c : CoreId) (s : State) : Host.Outcome State Fault Refusal := onDev (matmulDone c) s

/-! ### Vector operations (R244, R245, R250–R252, R264) -/

/-- A vector source as it is read: its mode and values with their poison. -/
def Dev.vecSource (d : Dev) (inst : Nat) (v : Vx) (s : Nat × Nat × Nat) : Nat × List (Word × Bool) :=
  if s.2.2 = 3 then (3, [(f32 (vOf v.imm), false)])
  else
    let b := fmtBits s.2.1 / 8
    let n := v.vals s.2.2
    let row := d.sram inst s.1 (n * b)
    let clean := !d.sramBad inst s.1 (n * b)
    (s.2.2, (List.range n).map fun i =>
      (toF32 s.2.1 (elemBits s.2.1 i row) 0, !clean && d.sramBad inst (s.1 + i * b) b))

/-- The value of a source for element e (R250). -/
def vecAt (v : Vx) (s : Nat × List (Word × Bool)) (e : Nat) : Word × Bool :=
  s.2.getD (if s.1 = 0 then e else if s.1 = 1 then e % v.row else if s.1 = 2 then e / v.row else 0) (0#32, false)

/-- The results of a vector operation at the FP32 stage, with their poison (R172, R633). -/
def Dev.vecCompute (d : Dev) (inst use : Nat) (v : Vx) : List (Res × Bool) :=
  let ss := (v.src.take (vecSources v.op)).map (d.vecSource inst v)
  let whole := ss.any fun (s : Nat × List (Word × Bool)) => s.1 = 1 && s.2.any (·.2)
  let at_ (i e : Nat) : Word × Bool := vecAt v (ss.getD i (3, [(f32 (vOf v.imm), false)])) e
  if v.rowOp then
    (List.range v.rows).map fun r =>
      let row := (List.range v.row).map fun i => at_ 0 (r * v.row + i)
      let ws := row.map (·.1)
      (if v.op = 0x60 then rowSum ws else if v.op = 0x61 then rowFold Val.maxV ws else rowFold Val.minV ws,
       whole || row.any (·.2))
  else
    (List.range v.count).map fun e =>
      let a := at_ 0 e; let b := at_ 1 e; let c := at_ 2 e
      (vecElem use v.op e a.1 b.1 c.1, whole || a.2 || (1 < vecSources v.op && b.2) || (2 < vecSources v.op && c.2))

/-- What the vector engine's converter makes of the results, row by row. -/
def vecDrain (v : Vx) (tOut : Int) (rs : List (Res × Bool)) : Drained :=
  let rows := if v.rowOp then [rs] else chunksOf v.row rs.length rs
  drainRows v.dFmt tOut (if fmtMx v.dFmt && v.dSupplied then some v.dScale else none)
    (rows.map fun (r : List (Res × Bool)) => r.map (·.1)) (rows.map fun (r : List (Res × Bool)) => r.map (·.2))

/-- The destination's writes: the elements one after another, the scales on the next 32-byte boundary. -/
def vecWrites (inst : Nat) (v : Vx) (dr : Drained) : List MemWr :=
  let es := dr.rows.flatMap fun (r : List Byte × List Byte × List Nat) => r.1
  let sc := dr.rows.flatMap fun (r : List Byte × List Byte × List Nat) => r.2.1
  let bad := (enumFrom 0 dr.rows).flatMap fun (e : Nat × (List Byte × List Byte × List Nat)) =>
    e.2.2.2.map (· + e.1 * v.row)
  (⟨sramKey inst v.dOff, es, elemBad v.dFmt bad⟩ : MemWr) ::
  if fmtMx v.dFmt then [⟨sramKey inst (pitch32 (v.dOff + es.length)), sc, bad.map (· / 32)⟩] else []

def vecCounts (k : OvfCnt) : List (Nat × Nat) := [(18, k.inf), (19, k.nan), (20, k.blk)]

/-- The rate in elements a cycle, as a fraction (R264). -/
def vecRate (v : Vx) : Nat × Nat :=
  let lanes := if 0x50 ≤ v.op ∧ v.op < 0x60 then 16 else 64
  let src := sumN ((v.used.filter fun (s : Nat × Nat × Nat) => s.2.2 = 0).map fun (s : Nat × Nat × Nat) => fmtBits s.2.1 * v.row)
  let per8 := src + fmtBits v.dFmt * (if v.rowOp then 1 else v.row)
  if lanes * per8 ≤ 4096 * v.row then (lanes, 1) else (4096 * v.row, per8)

def vecCycles (v : Vx) (r : Nat × Nat) : Nat :=
  if v.rowOp then cdiv v.rows 64 * v.row + 8 else cdiv (v.count * r.2) r.1 + 8

/-- µW of a vector operation (R617). -/
def vecCharge (r : Nat × Nat) (eff : Nat) : Nat := 200000 * r.1 * eff / (r.2 * 64 * 84)

/-- The work of a vector operation from what it reads at issue. -/
def Dev.vecFlight (d : Dev) (inst : Nat) (x : Desc) (charge cycles : Nat) : Flight :=
  let v := Vx.of x
  let c := inst / 17
  let calib := fmtTensor v.dFmt && d.calibrating c v.scD
  let dr := vecDrain v (if fmtTensor v.dFmt then d.tOf c v.scD else 0) (d.vecCompute inst d.free v)
  { desc := x
    writes := if calib then [] else vecWrites inst v dr
    counts := (17, cycles) :: if calib then [] else (16, v.outs) :: vecCounts dr.cnt
    ringIn := none, filled := []
    report := (reportEntry x).map fun e =>
      (⟨e, dr.amax, dr.nonfinite, if calib then 0 else dr.elems, if calib then 0 else dr.zeros, false⟩ : Report)
    await := calib, tIn := 0
    blocks := if calib then [] else withEntry v.scD dr.blocks
    tileSegs := [], charge := charge, use := d.free }

/-- The regions that a vector operation reads. -/
def Vx.reads (v : Vx) : List (Nat × Nat) :=
  v.used.map fun (s : Nat × Nat × Nat) => (s.1, s.1 + v.vals s.2.2 * (fmtBits s.2.1 / 8))

/-- A vector operation: the rate is fixed and the grant asked for; with the grant it issues (R264, R617). -/
def runVec (inst part : Nat) (x : Desc) (d : Dev) : Dev :=
  let v := Vx.of x
  match (d.core inst).vecPlan with
  | none =>
    let r := vecRate v
    (d.hold inst 2).updCore inst fun c => { c with vecPlan := some ⟨vecCharge r (d.isle inst).eff, false, r.1, r.2⟩ }
  | some p =>
    if !p.granted then d
    else
      let f := d.vecFlight inst x p.charge (vecCycles v (p.num, p.den))
      let d := { d with free := d.free + 1 }
      let d := d.readBad (pCore inst) part (d.firstBad inst v.reads)
      let d := d.popHead inst part 2 x
      d.updCore inst fun c => { c with vecPlan := none, vec := c.vec ++ [f] }

/-- A vector command: the head where it has the opcode. -/
def vecCmd (c : CoreId) (op : Nat) : Dev → Dev := atHead c 2 (· == op) runVec

/-- ADD (R244). -/
def execAdd (c : CoreId) (s : State) : Host.Outcome State Fault Refusal := onDev (vecCmd c 0x40) s
/-- SUB (R244). -/
def execSub (c : CoreId) (s : State) : Host.Outcome State Fault Refusal := onDev (vecCmd c 0x41) s
/-- MUL (R244). -/
def execMul (c : CoreId) (s : State) : Host.Outcome State Fault Refusal := onDev (vecCmd c 0x42) s
/-- FMA (R244). -/
def execFma (c : CoreId) (s : State) : Host.Outcome State Fault Refusal := onDev (vecCmd c 0x43) s
/-- NEG (R244). -/
def execNeg (c : CoreId) (s : State) : Host.Outcome State Fault Refusal := onDev (vecCmd c 0x44) s
/-- ABS (R244). -/
def execAbs (c : CoreId) (s : State) : Host.Outcome State Fault Refusal := onDev (vecCmd c 0x45) s
/-- MIN (R244). -/
def execMin (c : CoreId) (s : State) : Host.Outcome State Fault Refusal := onDev (vecCmd c 0x46) s
/-- MAX (R244). -/
def execMax (c : CoreId) (s : State) : Host.Outcome State Fault Refusal := onDev (vecCmd c 0x47) s
/-- CMP_EQ (R245). -/
def execCmpEq (c : CoreId) (s : State) : Host.Outcome State Fault Refusal := onDev (vecCmd c 0x48) s
/-- CMP_LT (R245). -/
def execCmpLt (c : CoreId) (s : State) : Host.Outcome State Fault Refusal := onDev (vecCmd c 0x49) s
/-- CMP_LE (R245). -/
def execCmpLe (c : CoreId) (s : State) : Host.Outcome State Fault Refusal := onDev (vecCmd c 0x4A) s
/-- CVT (R172). -/
def execCvt (c : CoreId) (s : State) : Host.Outcome State Fault Refusal := onDev (vecCmd c 0x4B) s
/-- FILL (R172). -/
def execFill (c : CoreId) (s : State) : Host.Outcome State Fault Refusal := onDev (vecCmd c 0x4C) s
/-- RCP (R244). -/
def execRcp (c : CoreId) (s : State) : Host.Outcome State Fault Refusal := onDev (vecCmd c 0x50) s
/-- DIV (R244). -/
def execDiv (c : CoreId) (s : State) : Host.Outcome State Fault Refusal := onDev (vecCmd c 0x51) s
/-- SQRT (R244). -/
def execSqrt (c : CoreId) (s : State) : Host.Outcome State Fault Refusal := onDev (vecCmd c 0x52) s
/-- RSQRT (R244). -/
def execRsqrt (c : CoreId) (s : State) : Host.Outcome State Fault Refusal := onDev (vecCmd c 0x53) s
/-- EXP (R244). -/
def execExp (c : CoreId) (s : State) : Host.Outcome State Fault Refusal := onDev (vecCmd c 0x58) s
/-- EXP2 (R244). -/
def execExp2 (c : CoreId) (s : State) : Host.Outcome State Fault Refusal := onDev (vecCmd c 0x59) s
/-- TANH (R244). -/
def execTanh (c : CoreId) (s : State) : Host.Outcome State Fault Refusal := onDev (vecCmd c 0x5A) s
/-- SIGMOID (R244). -/
def execSigmoid (c : CoreId) (s : State) : Host.Outcome State Fault Refusal := onDev (vecCmd c 0x5B) s
/-- GELU (R245). -/
def execGelu (c : CoreId) (s : State) : Host.Outcome State Fault Refusal := onDev (vecCmd c 0x5C) s
/-- LOG (R244). -/
def execLog (c : CoreId) (s : State) : Host.Outcome State Fault Refusal := onDev (vecCmd c 0x5D) s
/-- LOG2 (R244). -/
def execLog2 (c : CoreId) (s : State) : Host.Outcome State Fault Refusal := onDev (vecCmd c 0x5E) s
/-- ROWSUM (R244). -/
def execRowsum (c : CoreId) (s : State) : Host.Outcome State Fault Refusal := onDev (vecCmd c 0x60) s
/-- ROWMAX (R245). -/
def execRowmax (c : CoreId) (s : State) : Host.Outcome State Fault Refusal := onDev (vecCmd c 0x61) s
/-- ROWMIN (R245). -/
def execRowmin (c : CoreId) (s : State) : Host.Outcome State Fault Refusal := onDev (vecCmd c 0x62) s

/-- The oldest vector operation completes. -/
def vectorOpDone (c : CoreId) (d : Dev) : Dev :=
  let inst := d.instOf c
  match d.corePart inst, (d.core inst).vec with
  | some part, f :: rest =>
    ((d.land f.writes).updCore inst fun c => { c with vec := rest }).opEnds inst part 2 f (pCore inst) (srcCore inst 2) f.charge
  | _, _ => d
/-- VECTOR_OP_DONE (R264). -/
def execVectorOpDone (c : CoreId) (s : State) : Host.Outcome State Fault Refusal := onDev (vectorOpDone c) s

/-! ### The matrix-vector units (R222–R230, R257) -/

/-- The fields of a MATVEC body. -/
structure Mx where
  wBase : Nat
  wFmt : Nat
  xBase : Nat
  xFmt : Nat
  oBase : Nat
  oFmt : Nat
  oSupplied : Bool
  k : Nat
  n : Nat
  v : Nat
  oScale : Nat
  scO : Nat
  deriving DecidableEq, Repr

def Mx.of (x : Desc) : Mx :=
  let w := fld x 0x20 4; let a := fld x 0x24 4; let o := fld x 0x28 4; let t := fld x 0x30 4
  { wBase := bits w 20 0 * 32, wFmt := bits w 24 21, xBase := bits a 20 0 * 32, xFmt := bits a 24 21,
    oBase := bits o 20 0 * 32, oFmt := bits o 24 21, oSupplied := bit o 25, k := fld x 0x2C 2, n := fld x 0x2E 2,
    v := bits t 2 0, oScale := bits t 15 8, scO := bits t 25 16 }

/-- The unit refuses a descriptor (R230). -/
def mvRefuses (x : Desc) : Bool :=
  let q := Mx.of x
  let w (o : Nat) : Nat := fld x o 4
  dOp x ≠ 0xC0 || dCtl x ≠ 0 || dChain x ≠ 0 || !zeros x 4 24 || sigReserved (dSig x) ||
  bits (w 0x20) 31 25 ≠ 0 || bits (w 0x24) 31 25 ≠ 0 || bits (w 0x28) 31 26 ≠ 0 || bits (w 0x30) 7 3 ≠ 0 ||
  bits (w 0x30) 31 26 ≠ 0 || !zeros x 0x34 12 || (q.v ≠ 1 && q.v ≠ 2 && q.v ≠ 4) || q.k = 0 || 32768 < q.k ||
  q.xFmt ≠ 1 || !fmtArrayIn q.wFmt || !fmtKnown q.oFmt || (fmtTensor q.oFmt && q.scO = 0x3FF) ||
  (sigOn (dSig x) && !sigScope (dSig x) && 63 < sigIndex (dSig x))

/-- The core instance that holds weight row n of a die (R224). -/
def Dev.mvInst (d : Dev) (m n : Nat) : Nat := d.inst (4 * m + n % 64 / 16) (n % 16)

/-- The weight rows in the core that holds row n (R224, R247). -/
def Mx.weights (q : Mx) (n : Nat) : Region := ⟨q.wBase, cdiv (q.n - n % 64) 64, q.k, q.wFmt⟩

/-- The output sums, row by row: v rows of n elements (R225). -/
def Dev.mvSums (d : Dev) (m inst : Nat) (q : Mx) : List (List SegOut) :=
  let ws : List (List El) := (List.range q.n).map fun n =>
    let i := d.mvInst m n
    readRow (d.sram i) (d.sramBad i) (q.weights n) (n / 64)
  (d.sramRows inst ⟨q.xBase, q.v, q.k, 1⟩).map fun xs => ws.map fun w =>
    (xs.zip w).foldl (fun (o : SegOut) (p : El × El) => o.step p.1 p.2) (SegOut.open_ none)

def mvDrain (q : Mx) (tOut : Int) (s : List (List SegOut)) : Drained :=
  drainRows q.oFmt tOut (if fmtMx q.oFmt && q.oSupplied then some q.oScale else none)
    (scaleSums 0 (s.map fun (r : List SegOut) => r.map SegOut.final)) (s.map fun (r : List SegOut) => r.map fun o => o.bad)

def mvWrites (inst : Nat) (q : Mx) (dr : Drained) : List MemWr :=
  let g : Region := ⟨q.oBase, q.v, q.n, q.oFmt⟩
  drainWrites (sramKey inst q.oBase) g.pitch (sramKey inst g.scaleBase) g.scaleRow q.oFmt dr.rows

def mvCounts (k : OvfCnt) : List (Nat × Nat) := [(6, k.inf), (7, k.nan), (8, k.blk)]

/-- The islands whose SRAM an operation reads or writes (R227). -/
def Dev.mvKeys (d : Dev) (m : Nat) : List Nat := (List.range 64).map fun n => sramKey (d.mvInst m n) 0

def Dev.updMvec (d : Dev) (m : Nat) (f : Mvec → Mvec) : Dev := { d with mvec := d.mvec.upd .reset m f }

/-- The work of a matrix-vector operation from what it reads when it begins. -/
def Dev.mvFlight (d : Dev) (m inst starved : Nat) (x : Desc) : Flight :=
  let q := Mx.of x
  let c := inst / 17
  let calib := fmtTensor q.oFmt && d.calibrating c q.scO
  let dr := mvDrain q (if fmtTensor q.oFmt then d.tOf c q.scO else 0) (d.mvSums m inst q)
  { desc := x
    writes := if calib then [] else mvWrites inst q dr
    counts := [(0, if calib then 0 else 1), (3, q.n * (rowBytes q.wFmt q.k + if fmtMx q.wFmt then cdiv q.k 32 else 0)),
       (4, cdiv (q.n * q.k * q.v) 512), (5, starved)] ++ if calib then [] else mvCounts dr.cnt
    ringIn := none, filled := []
    report := if q.scO = 0x3FF then none else
      some ⟨q.scO, dr.amax, dr.nonfinite, if calib then 0 else dr.elems, if calib then 0 else dr.zeros, false⟩
    await := calib, tIn := 0, blocks := if calib then [] else withEntry q.scO dr.blocks
    tileSegs := [], charge := 6000000, use := d.free }

/-- MATVEC: unit m takes the head of its queue: refused and dropped (R230), or its grant is asked for, or it begins. -/
def matvec (m : Nat) (d : Dev) : Dev :=
  let u := d.mvec.get .reset m
  match d.mvecOwner m, u.queue, u.cur with
  | some part, (inst, x) :: rest, none =>
    if d.bst (pMvec m) ≠ .running ∨ d.halt.effect then d
    else if mvRefuses x then
      (((d.updMvec m fun u => { u with queue := rest, plan := none }).errP (pMvec m) 0x0101 (some part)).cntP (pMvec m) 2 1
        (some part)).evtP (pMvec m) 1 (some part)
    else
      match u.plan with
      | none => d.updMvec m fun u => { u with plan := some ⟨6000000, false, 1, 1⟩ }
      | some p =>
        let (awake, d) := d.wakeKeys (d.mvKeys m)
        if !p.granted || !awake then d
        else
          let (k, d) := d.freeNat 50
          let f := d.mvFlight m inst k x
          let q := Mx.of x
          let first := match d.firstBad inst [Region.span ⟨q.xBase, q.v, q.k, 1⟩] with
            | some a => some a
            | none => (List.range (Nat.min 64 q.n)).findSome? fun n => d.firstBad (d.mvInst m n) [(q.weights n).span]
          let d := d.readBad (pMvec m) part first
          d.updMvec m fun u => { u with queue := rest, plan := none, cur := some (inst, f), rowsLeft := q.n }
  | _, _, _ => d
/-- MATVEC (R257). -/
def execMatvec (d : Fin 4) (s : State) : Host.Outcome State Fault Refusal := onDev (matvec d.val) s

/-- The operation of unit m completes. -/
def matvecDone (m : Nat) (d : Dev) : Dev :=
  match d.mvecOwner m, (d.mvec.get .reset m).cur with
  | some part, some (inst, f) =>
    let d := (d.land f.writes).updMvec m fun u => { u with cur := none, rowsLeft := 0 }
    d.opEnds inst part 4 f (pMvec m) (srcEng 3 m 0) f.charge
  | _, _ => d
/-- MATVEC_DONE (R225). -/
def execMatvecDone (d : Fin 4) (s : State) : Host.Outcome State Fault Refusal := onDev (matvecDone d.val) s

end Sys2Proof.Machine
end

