-- ==== Sys2Proof/Machine/Watch.lean ====
section
/-!
DEFINITION. What the queues of the cluster engines share (R359, R364, R365), and the numerics watch: reports, steps,
calibration with its conversion passes, gradient silence, and the scale-table commands (chapter 10).
-/

namespace Sys2Proof.Machine

/-! ### Heads of cluster engines -/

/-- A cluster engine may issue (R85, R606, R652, R656). -/
def Dev.clReady (d : Dev) (p : Page) (c : Nat) : Bool :=
  let x := d.isle (fabIsle c)
  d.bst p == .running && x.state == .fired && x.req == .fired && x.move == .rest && !d.halt.effect &&
  !(d.clus' c).withdrawn

/-- The counter of a wait identifier of a cluster engine holds against a value (R239, R359). -/
def Dev.clHolds (d : Dev) (c w v : Nat) : Bool := ctrHolds (d.waitCtr (17 * c) w) v

/-- The reasons of R364 that are checked before waiting: the opcode, reserved bits of the body, further wait
identifiers and signal words of the body, its alignment, and what follows 0x15. -/
def engRefusal (op body : Bool) (wids : List Nat) (sigs : List Word) (unaligned : Bool) (more : List (Nat × Bool)) (x : Desc) : Nat :=
  let ss := dSig x :: sigs
  firstReason (
    [(0x01, !op),
     (0x03, bits (dCtl x) 7 4 ≠ 0 || widReserved x || ss.any sigReserved || body || wids.any fun w => bits w 14 9 ≠ 0),
     (0x04, ((List.range 4).any fun i => if bit (dWid x i) 15 then !bit (dWid x i) 8 else dWval x i ≠ 0) ||
        wids.any fun w => bit w 15 && !bit w 8),
     (0x05, ss.any sigIllegal), (0x06, dChain x ≠ 0 || dResume x || dSpillFinal x), (0x12, unaligned),
     (0x15, dPred x && !bit (dWid x 3) 15)] ++ more)

/-! ### The entry image (R395) -/

/-- fp32 words of a history as the image lays them out: slots at or beyond hlen are zero. -/
def historyBytes (e : Entry192) : List Byte :=
  (List.range 32).flatMap fun i => leBytes 4 (if i < e.hlen then (e.history.getD i 0#32).toNat else 0)

def EntState.code : EntState → Nat | .free => 0 | .live => 1 | .calibrating => 2

/-- The 192 bytes of an entry. -/
def Entry192.bytes (e : Entry192) : List Byte :=
  leBytes 1 e.state.code ++ leBytes 1 e.version ++ leBytes 1 e.fmt ++
  leBytes 1 (b2n e.grad + 2 * b2n e.nonfin + 4 * b2n e.settled) ++ [e.scale] ++ leBytes 1 e.hlen ++ leBytes 1 e.hpos ++
  leBytes 1 e.hcount ++ leBytes 1 e.margin ++ leBytes 1 e.calLeft ++ leBytes 1 e.stepCtr ++ leBytes 1 e.silThr ++
  leBytes 2 e.producers ++ leBytes 2 e.silRun ++ leBytes 4 e.stepAmax.toNat ++ leBytes 4 e.reports ++ leBytes 8 e.zeros ++
  leBytes 8 e.elements ++ leBytes 4 e.lastZf.toNat ++ leBytes 4 e.lastRoll.toNat ++ leBytes 4 e.qErr.toNat ++
  leBytes 4 e.qSig.toNat ++ leBytes 2 e.qCount ++ zbytes 6 ++ historyBytes e

/-- An entry from its image. -/
def Entry192.of (b : List Byte) : Entry192 :=
  let n (o k : Nat) : Nat := fld b o k
  let w (o : Nat) : Word := BitVec.ofNat 32 (fld b o 4)
  { state := if n 0 1 = 1 then .live else if n 0 1 = 2 then .calibrating else .free
    version := n 1 1, fmt := n 2 1, grad := bit (n 3 1) 0, nonfin := bit (n 3 1) 1, settled := bit (n 3 1) 2
    scale := BitVec.ofNat 8 (n 4 1), hlen := n 5 1, hpos := n 6 1, hcount := n 7 1, margin := n 8 1, calLeft := n 9 1
    stepCtr := n 10 1, silThr := n 11 1, producers := n 12 2, silRun := n 14 2, stepAmax := w 0x10, reports := n 0x14 4
    zeros := n 0x18 8, elements := n 0x20 8, lastZf := w 0x28, lastRoll := w 0x2C, qErr := w 0x30, qSig := w 0x34
    qCount := n 0x38 2, history := (List.range (n 5 1)).map fun i => w (0x40 + 4 * i) }

/-- The image cannot be written (R422, status 4). -/
def imageBad (b : List Byte) : Bool :=
  let e := Entry192.of b
  e.version ≠ 1 || (e.fmt ≠ 0 && e.fmt ≠ 3 && e.fmt ≠ 4) || e.hlen = 0 || 32 < e.hlen || 7 < e.margin || e.producers = 0 ||
  e.hlen ≤ e.hpos || e.hlen < e.hcount || (fld b 0 1 ≠ 1 && fld b 0 1 ≠ 2) || bits (fld b 3 1) 7 3 ≠ 0 || !zeros b 0x3A 6

/-- A history of an entry's length: its unlisted slots are +0. -/
def slotsOf (e : Entry192) : List Word := (List.range e.hlen).map fun i => e.history.getD i 0#32

/-! ### The choice of a scale (R401) -/

/-- The smallest integer j with m ≤ 7 × 2^j, for m above zero. -/
def sevenLog (m : Nat) : Int :=
  let l := Nat.log2 m
  if 4 * m ≤ 7 * 2 ^ l then (l : Int) - 2 else (l : Int) - 1

/-- choose(h, fmt, margin) + 127 for a finite h above zero: the maximum normals are 7 × 2^6 and 7 × 2^13. -/
def chooseScale (h : Val) (fmt margin : Nat) : Byte :=
  match h with
  | .fin _ m e =>
    let k := sevenLog m + e - (if fmt = 3 then 6 else 13) + margin
    BitVec.ofNat 8 ((if k < -127 then -127 else if 127 < k then 127 else k) + 127).toNat
  | _ => 0#8

/-- The scale that a value chooses for an entry: none for zero, free where the value is no number, for which the spec
states no result. -/
def Dev.scaleFor (d : Dev) (h : Val) (fmt margin : Nat) (old : Byte) : Byte × Dev :=
  match h with
  | .fin false _ _ => (chooseScale h fmt margin, d)
  | .nan | .inf _ => d.freeBits 60 8
  | _ => (old, d)

/-- Settle (R406 step 2): the entry's producers that await conversion take its t. -/
def Dev.settle (d : Dev) (c i : Nat) : Dev :=
  let e := d.entry c i
  let (s, d) := if e.fmt = 3 ∨ e.fmt = 4 then d.scaleFor (vOf e.stepAmax) e.fmt 0 e.scale else (e.scale, d)
  let d := d.updEntry c i fun e => { e with settled := true, scale := s }
  let t := d.tOf c i
  d.updNw c fun n => { n with awaits := n.awaits.map fun (a : Await) =>
    if a.entry = i && !a.settled then { a with settled := true, tOut := t } else a }

/-- A producer of the entry awaits its settling. -/
def Dev.awaits (d : Dev) (c i : Nat) : Bool := (d.nw c).awaits.any fun (a : Await) => a.entry == i
def Dev.unsettled (d : Dev) (c i : Nat) : Bool := (d.nw c).awaits.any fun (a : Await) => a.entry == i && !a.settled

/-- Every Calibrating entry with a producer awaiting conversion settles at once (R424: a quiesce, or PARK). -/
def Dev.settleWaiting (d : Dev) (c : Nat) : Dev :=
  (d.nw c).awaits.foldl (fun (d : Dev) (a : Await) => if d.unsettled c a.entry then d.settle c a.entry else d) d

/-! ### Reports (R397–R399, R409, R411) -/

/-- A report arrives. -/
def Dev.report (d : Dev) (c : Nat) (r : Report) : Dev :=
  let e := d.entry c r.entry
  if e.state = .free then d.nwCnt c 12 1
  else
    let d := d.updEntry c r.entry fun e =>
      { e with
        stepAmax := if e.stepAmax.toNat < r.amax.toNat then r.amax else e.stepAmax
        reports := (e.reports + 1) % 4294967296
        zeros := (e.zeros + r.zeros) % 18446744073709551616
        elements := (e.elements + r.elems) % 18446744073709551616
        nonfin := e.nonfin || r.nonfinite, grad := e.grad || r.grad }
    let d := if r.nonfinite then d.nwCnt c 11 1 else d
    if e.state = .live then
      -- an entry that no longer calibrates: its producers convert with the t it has
      if d.unsettled c r.entry then
        let t := d.tOf c r.entry
        d.updNw c fun n => { n with awaits := n.awaits.map fun (a : Await) =>
          if a.entry = r.entry && !a.settled then { a with settled := true, tOut := t } else a }
      else d
    else if e.settled then
      let d := d.nwCnt c 9 1
      let t := d.tOf c r.entry
      d.updNw c fun n => { n with awaits := n.awaits.map fun (a : Await) =>
        if a.entry = r.entry && !a.settled then { a with settled := true, tOut := t } else a }
    else if (d.entry c r.entry).producers ≤ (d.entry c r.entry).reports then d.settle c r.entry
    else d

/-- Report i of those under way to the cluster's scale table arrives. -/
def scaleReport (c i : Nat) (d : Dev) : Dev :=
  match (d.nw c).reports[i]? with
  | none => d
  | some r => (d.updNw c fun n => { n with reports := n.reports.eraseIdx i }).report c r
/-- SCALE_REPORT (R399). -/
def execScaleReport (c : Fin 16) (i : Nat) (s : State) : Host.Outcome State Fault Refusal := onDev (scaleReport c.val i) s

/-! ### Conversion passes (R406–R408) -/

/-- The engine of a producer stands at a descriptor boundary, and its core can run. -/
def Dev.atBoundary (d : Dev) (a : Await) : Bool :=
  let k := d.core a.core
  let fired (i : Nat) : Bool := (d.isle i).state == .fired
  if a.queue = 4 then
    let m := a.core / 17 / 4
    (d.mvec.get .reset m).cur.isNone && (d.bst (pMvec m) == .running || d.bst (pMvec m) == .quiescing)
  else
    (if a.queue = 1 then k.arr.isEmpty else k.vec.isEmpty) && fired a.core &&
    (d.bst (pCore a.core) == .running || d.bst (pCore a.core) == .quiescing)

/-- What a conversion pass drains: the sums of the spill buffer, or the values computed again from the sources. -/
def Dev.convDrain (d : Dev) (a : Await) : Drained :=
  let x := a.desc
  if a.queue = 1 then
    let q := Mm.of x
    let rows := d.sramRows a.core ⟨q.svBase, q.m, q.n, 0⟩
    drainSums q a.tIn a.tOut (rows.map fun (r : List El) => r.map fun e => f32 e.v) (rows.map fun (r : List El) => r.map fun e => e.bad)
  else if a.queue = 2 then vecDrain (Vx.of x) a.tOut (d.vecCompute a.core a.use (Vx.of x))
  else mvDrain (Mx.of x) a.tOut (d.mvSums (a.core / 17 / 4) a.core (Mx.of x))

/-- The output of a conversion pass. -/
def convWrites (a : Await) (dr : Drained) : List MemWr :=
  if a.queue = 1 then outWrites a.core (Mm.of a.desc) dr
  else if a.queue = 2 then vecWrites a.core (Vx.of a.desc) dr
  else mvWrites a.core (Mx.of a.desc) dr

/-- Cycles of a MATMUL's conversion pass (R408): c bytes a cycle. -/
def convCycles (q : Mm) (c : Nat) : Nat := Nat.max (cdiv (4 * q.m * q.n) c) (cdiv (q.m * q.n) 512) + 8

/-- The page whose counters a producer's work counts in, and what its conversion pass adds. -/
def Dev.convCounts (d : Dev) (a : Await) (k : OvfCnt) : Page × List (Nat × Nat) :=
  if a.queue = 1 then (pCore a.core, [(33, convCycles (Mm.of a.desc) (d.dataPort a.core)), (40, k.inf), (41, k.nan), (42, k.blk)])
  else if a.queue = 2 then
    let v := Vx.of a.desc
    (pCore a.core, [(16, v.outs), (17, vecCycles v (vecRate v))] ++ vecCounts k)
  else
    let q := Mx.of a.desc
    (pMvec (a.core / 17 / 4), [(0, 1), (3, q.n * (rowBytes q.wFmt q.k + if fmtMx q.wFmt then cdiv q.k 32 else 0)),
      (4, cdiv (q.n * q.k * q.v) 512)] ++ mvCounts k)

/-- An engine converts the first of its producers that are settled. -/
def conversionPass (c i : Nat) (d : Dev) : Dev :=
  match (d.nw c).awaits[i]?, d.clusterOwner c with
  | some a, some part =>
    let before := ((d.nw c).awaits.take i).any fun (b : Await) => b.core == a.core && b.queue == a.queue && b.settled
    if !a.settled || !a.granted || before || !d.atBoundary a then d
    else
      let (awake, d) := if a.queue = 4 then d.wakeKeys (d.mvKeys (a.core / 17 / 4)) else (true, d)
      if !awake then d
      else
        let dr := d.convDrain a
        let (page, counts) := d.convCounts a dr.cnt
        let d := (d.land (convWrites a dr)).updNw c fun n => { n with awaits := n.awaits.eraseIdx i }
        let d := counts.foldl (fun (d : Dev) (k : Nat × Nat) => d.cntP page k.1 k.2 (some part)) d
        let grad := a.queue = 1 && (Mm.of a.desc).oGrad
        let d := d.updEntry c a.entry fun e =>
          if e.state = .free then e
          else { e with zeros := (e.zeros + dr.zeros) % 18446744073709551616, elements := (e.elements + dr.elems) % 18446744073709551616
                        grad := e.grad || grad }
        let d := (d.nwCnt c 8 1).sampleBlocks a.core (withEntry a.entry dr.blocks)
        d.signal (dSig a.desc) (partFin part) (if a.queue = 4 then srcEng 3 (a.core / 17 / 4) 0 else srcCore a.core a.queue)
  | _, _ => d
/-- CONVERSION_PASS (R406). -/
def execConversionPass (c : Fin 16) (i : Nat) (s : State) : Host.Outcome State Fault Refusal :=
  onDev (conversionPass c.val i) s

/-! ### Steps (R400, R401, R411–R413) -/

/-- The value of an entry's step counter. -/
def Dev.stepVal (d : Dev) (c : Nat) (e : Entry192) : Word := d.evc.get 0#32 (0x10000 + c * 256 + e.stepCtr)

/-- The FP32 quotient of two whole numbers, each rounded into FP32 first, the second above zero (RNE). -/
def ratio32 (z n : Nat) : Word :=
  match vOf (f32 (Val.ofInt z 0)), vOf (f32 (Val.ofInt n 0)) with
  | .fin _ a e, .fin _ b f =>
    let k := 64 + Nat.log2 b
    f32 (.fin false (a * 2 ^ k / b * 2 + b2n (a * 2 ^ k % b ≠ 0)) (e - f - k - 1))
  | _, _ => 0#32

/-- silence(e) (R412): the run of silent steps after this one. -/
def silentRun (e : Entry192) : Nat := if !e.nonfin && e.stepAmax = 0#32 then Nat.min (e.silRun + 1) 65535 else 0

/-- T of R413. -/
def silenceT (thr : Nat) : Nat := (thr + 15) % 256 + 1

/-- The largest history value. -/
def histMax (e : Entry192) : Val :=
  (((slotsOf e).take e.hcount).map vOf).foldl (fun (a v : Val) => match a, v with
    | .nan, _ | _, .nan => .nan
    | _, _ => Val.maxV a v) (.zero false)

/-- roll(e) (R401). -/
def Dev.roll (d : Dev) (c i : Nat) : Dev :=
  let d := if d.unsettled c i then d.settle c i else d
  let now := d.stepVal c (d.entry c i)
  let e := d.entry c i
  let e := { e with history := (slotsOf e).set e.hpos e.stepAmax, hpos := (e.hpos + 1) % e.hlen, hcount := Nat.min (e.hcount + 1) e.hlen }
  let ends := e.state == .calibrating && e.calLeft ≤ 1
  let e := if e.state = .calibrating then { e with calLeft := e.calLeft - 1, state := if ends then .live else .calibrating } else e
  let d := if ends then (d.nwCnt c 7 1).nwEvt c 16 else d
  let (s, d) := if e.state = .live ∧ e.fmt ≠ 0 then d.scaleFor (histMax e) e.fmt e.margin e.scale else (e.scale, d)
  let run := if e.grad then silentRun e else e.silRun
  let d := if e.grad && run = silenceT e.silThr && e.silRun < run then
      ((d.nwEvt c 4).nwCnt c 5 1).updNw c fun n => { n with silentLast := some (n.silentLast.getD i) }
    else d
  let e := { e with
    scale := s, silRun := run, lastZf := if e.elements = 0 then 0x3F800000#32 else ratio32 e.zeros e.elements
    stepAmax := 0#32, reports := 0, zeros := 0, elements := 0, nonfin := false, settled := false, lastRoll := now }
  (d.updEntry c i fun _ => e).nwCnt c 10 1

/-- An entry whose step counter has changed rolls. -/
def scaleRoll (c i : Nat) (d : Dev) : Dev :=
  let e := d.entry c i
  if 0x3FE < i ∨ e.state = .free ∨ d.stepVal c e = e.lastRoll then d else d.roll c i
/-- SCALE_ROLL (R401). -/
def execScaleRoll (c : Fin 16) (entry : Nat) (s : State) : Host.Outcome State Fault Refusal := onDev (scaleRoll c.val entry) s

/-! ### Commands (R421–R423) -/

/-- An entry begins calibration (R404). -/
def Dev.calibrate (d : Dev) (c i : Nat) : Dev :=
  ((d.updEntry c i fun e =>
    { e with state := .calibrating, calLeft := e.hlen, hcount := 0, hpos := 0, history := [], stepAmax := 0#32, reports := 0
             zeros := 0, elements := 0, nonfin := false, settled := false }).nwCnt c 6 1).nwEvt c 8

/-- WRITE: the entry becomes the image. -/
def Dev.writeEntry (d : Dev) (c i : Nat) (img : List Byte) : Dev :=
  let n := Entry192.of img
  d.updEntry c i fun e =>
    { n with grad := n.grad || e.grad, nonfin := false, settled := false, stepAmax := 0#32, reports := 0, zeros := 0, elements := 0
             qErr := 0#32, qSig := 0#32, qCount := 0, lastRoll := d.stepVal c n }

/-- A command on entry i: its status, and the device after it. The image is WRITE's. -/
def scCommand (c i cmd : Nat) (img : List Byte) (d : Dev) : Nat × Dev :=
  let e := d.entry c i
  let done (d : Dev) : Nat × Dev := (0, d.nwCnt c 13 1)
  if 0x3FE < i then (1, d)
  else if cmd = 1 then done d
  else if cmd = 3 then (if e.state ≠ .calibrating then (5, d) else done (d.settle c i))
  else if d.awaits c i then (2, d)
  else if cmd = 2 then (if imageBad img then (4, d) else done (d.writeEntry c i img))
  else if cmd = 4 then (if e.grad then (3, d) else done (d.updEntry c i fun e => { e with state := .free }))
  else if e.state = .free then (7, d)
  else done (d.calibrate c i)

/-- The window's data words. -/
def Dev.scData (d : Dev) (c : Nat) : List Byte := (List.range 48).flatMap fun w => leBytes 4 (d.reg (pNwch c) (0x100 + 4 * w))

/-- NWCH_SC_CMD.cmd is written (R421): the command runs whole; 0 starts nothing; 6 and 7 end with status 6. -/
def scWindow (v : View) (c cmd : Nat) (d : Dev) : Dev :=
  d.through v (pNwch c) 0x068 fun d =>
    if cmd = 0 then d
    else
      let i := d.reg (pNwch c) 0x064
      let (st, d) := if 5 < cmd then (6, d) else scCommand c i cmd (d.scData c) d
      let d := if cmd = 1 ∧ st = 0 then
          (enumFrom 0 (chunksOf 4 48 (d.entry c i).bytes)).foldl (fun (d : Dev) (w : Nat × List Byte) =>
            d.setReg (pNwch c) (0x100 + 4 * w.1) (leNat w.2)) d
        else d
      (d.updNw c fun n => { n with scStatus := st }).nwEvt c 32
/-- SC_READ (R421). -/
def execScRead (v : View) (c : Fin 16) (s : State) : Host.Outcome State Fault Refusal := onDev (scWindow v c.val 1) s
/-- SC_WRITE (R421). -/
def execScWrite (v : View) (c : Fin 16) (s : State) : Host.Outcome State Fault Refusal := onDev (scWindow v c.val 2) s
/-- SC_SETTLE (R421). -/
def execScSettle (v : View) (c : Fin 16) (s : State) : Host.Outcome State Fault Refusal := onDev (scWindow v c.val 3) s
/-- SC_FREE (R421). -/
def execScFree (v : View) (c : Fin 16) (s : State) : Host.Outcome State Fault Refusal := onDev (scWindow v c.val 4) s
/-- SC_CALIBRATE (R421). -/
def execScCalibrate (v : View) (c : Fin 16) (s : State) : Host.Outcome State Fault Refusal := onDev (scWindow v c.val 5) s

/-- The body of an SC_OP: address, entry, command. -/
def scVa (x : Desc) : Nat := fld x 0x20 8
def scEntry (x : Desc) : Nat := bits (fld x 0x28 2) 9 0
def scCmd (x : Desc) : Nat := bits (fld x 0x28 2) 12 10

/-- The reason for which an SC_OP is refused before it waits (R423). -/
def scRefusal (x : Desc) : Nat :=
  engRefusal (dOp x = 0x90)
    (bits (scVa x) 63 52 ≠ 0 || bits (fld x 0x28 2) 15 13 ≠ 0 || !zeros x 0x2A 22 || scCmd x = 0 || 5 < scCmd x) [] []
    (scVa x % 64 ≠ 0) [] x

/-- The unit refuses its head (R365, R423). -/
def Dev.nwRefuse (d : Dev) (c part reason : Nat) : Dev :=
  ((d.updNw c fun n => { n with stopped := true, reason := reason }).errP (pNwch c) 0x0103 (some part)).nwEvt c 64

/-- SC_OP: the head of the unit's queue is refused, waits, is skipped, or runs whole with its status and signal. -/
def scOp (c : Nat) (d : Dev) : Dev :=
  let n := d.nw c
  match n.queue, d.clusterOwner c with
  | (_, x) :: rest, some part =>
    if n.stopped ∨ !d.clReady (pNwch c) c then d
    else
      let r := scRefusal x
      if r ≠ 0 then d.nwRefuse c part r
      else if d.unmet (17 * c) x ≠ [] then d
      else
        let gone := d.updNw c fun n => { n with queue := rest }
        let tell (d : Dev) : Dev := d.signal (dSig x) (partFin part) (srcEng 2 c 0)
        if d.predSkips (17 * c) x then tell gone
        else
          let va := scVa x
          if !d.inT1w part va 196 then d.nwRefuse c part 0x20
          else
            let (b, _) := d.tRead part agEngine va 192
            if scCmd x = 2 ∧ (b.fault ∨ b.bad ≠ []) then d.nwRefuse c part 0x20
            else
              let d := if scCmd x = 2 then (gone.tRead part agEngine va 192).2 else gone
              let (st, d) := scCommand c (scEntry x) (scCmd x) b.bytes d
              let d := if scCmd x = 1 ∧ st = 0 then d.tWrite part agEngine va (d.entry c (scEntry x)).bytes [] else d
              tell (d.tWrite part agEngine (va + 0xC0) (leBytes 4 st) [])
  | _, _ => d
/-- SC_OP (R423). -/
def execScOp (c : Fin 16) (s : State) : Host.Outcome State Fault Refusal := onDev (scOp c.val) s

/-- NWCH_CTL.skip_head: a refused head is discarded. -/
def nwSkip (v : View) (c : Nat) (d : Dev) : Dev :=
  d.through v (pNwch c) 0x040 fun d =>
    if (d.nw c).stopped then d.updNw c fun n => { n with queue := n.queue.tail, stopped := false, reason := 0 } else d
/-- NWCH_SKIP_HEAD (R423). -/
def execNwchSkipHead (v : View) (c : Fin 16) (s : State) : Host.Outcome State Fault Refusal := onDev (nwSkip v c.val) s

end Sys2Proof.Machine
end

