-- ==== Sys2Proof/Machine/Opt.lean ====
section
/-!
DEFINITION. The optimiser engines (chapter 9): update records, the bit-exact update arithmetic, stochastic rounding,
late updates, digests, and the engine's queue.
-/

namespace Sys2Proof.Machine

/-! ### FP32 arithmetic with one rounding (R367) -/

def fsub (a b : Word) : Word := f32 ((vOf a).add (vOf b).neg)

/-- Division, correctly rounded. -/
def fdiv (a b : Word) : Word :=
  match vOf a, vOf b with
  | .nan, _ | _, .nan | .inf _, .inf _ | .zero _, .zero _ => f32 .nan
  | .inf s, y => f32 (.inf (xor s y.isNeg))
  | x, .inf t => f32 (.zero (xor x.isNeg t))
  | .zero s, y => f32 (.zero (xor s y.isNeg))
  | x, .zero t => f32 (.inf (xor x.isNeg t))
  | .fin s m e, .fin t n f =>
    let k := 64 + Nat.log2 n
    f32 (.fin (xor s t) (m * 2 ^ k / n * 2 + b2n (m * 2 ^ k % n ≠ 0)) (e - f - k - 1))

/-- Square root, correctly rounded. -/
def fsqrt (a : Word) : Word :=
  match vOf a with
  | .zero s => f32 (.zero s)
  | .inf false => f32 (.inf false)
  | .fin false m e =>
    let m2 := (if e % 2 = 0 then m else 2 * m) * 2 ^ 160
    let r := isqrt m2
    f32 (.fin false (r * 2 + b2n (r * r ≠ m2)) (e / 2 - 81))
  | _ => f32 .nan

def fp1 : Word := 0x3F800000#32

/-- A whole number as FP32 (RNE). -/
def fNat (n : Nat) : Word := f32 (Val.ofInt n 0)

/-- powi(b, n) (R369): before the highest bit set of n, r stays 1. -/
def powi (b : Word) (n : Nat) : Word :=
  (List.range 64).foldl (fun (r : Word) i =>
    let r := fmul r r
    if n.testBit (63 - i) then fmul r b else r) fp1

/-- A sum in the order of a list, with a fresh start (R167). -/
def fsum : List Word → Word
  | [] => 0#32
  | w :: ws => ws.foldl fadd w

/-! ### The update record (R361) -/

/-- The fields of an update record; hyper in the order lr, b1, b2, eps, wd, gs, mu, eps1; the box as shape, start and
extent of each dimension, outermost first. -/
structure UpRec where
  kind : Nat
  mFmt : Nat
  vFmt : Nat
  cFmt : Nat
  gFmt : Nat
  ndim : Nat
  lag : Nat
  skipNf : Bool
  digest : Bool
  seed : Nat
  t : Nat
  tidW : Nat
  tidM : Nat
  tidV : Nat
  tidC : Nat
  digN : Nat
  scG : Nat
  wVa : Nat
  gVa : Nat
  mVa : Nat
  vVa : Nat
  cVa : Nat
  digVa : Nat
  hyper : List Word
  dims : List (Nat × Nat × Nat)
  rest : List (Nat × Nat × Nat)
  scX : List Nat
  scCluster : Nat
  clean : Bool
  deriving DecidableEq, Repr

def UpRec.of (b : List Byte) : UpRec :=
  let n (o k : Nat) : Nat := fld b o k
  let all := (List.range 8).map fun i => (n (0x80 + 4 * i) 4, n (0xA0 + 4 * i) 4, n (0xC0 + 4 * i) 4)
  { kind := n 0 1, mFmt := n 1 1, vFmt := n 2 1, cFmt := n 3 1, gFmt := n 4 1, ndim := n 5 1, lag := n 6 1
    skipNf := bit (n 7 1) 0, digest := bit (n 7 1) 1, seed := n 8 8, t := n 0x10 8, tidW := n 0x18 4, tidM := n 0x1C 4
    tidV := n 0x20 4, tidC := n 0x24 4, digN := n 0x28 4, scG := bits (n 0x2C 2) 9 0, wVa := n 0x30 8, gVa := n 0x38 8
    mVa := n 0x40 8, vVa := n 0x48 8, cVa := n 0x50 8, digVa := n 0x58 8
    hyper := (List.range 8).map fun i => BitVec.ofNat 32 (n (0x60 + 4 * i) 4)
    dims := all.take (n 5 1), rest := all.drop (n 5 1)
    scX := (List.range 4).map fun i => bits (n (0xE0 + 2 * i) 2) 9 0, scCluster := n 0xE8 1 % 16
    clean := bits (n 7 1) 7 2 = 0 && zeros b 0x2E 2 && bits (n 0x2C 2) 15 10 = 0 &&
      ((List.range 4).all fun i => bits (n (0xE0 + 2 * i) 2) 15 10 = 0) && n 0xE8 1 < 16 && zeros b 0xE9 23 }

def UpRec.h (u : UpRec) (i : Nat) : Word := u.hyper.getD i 0#32

/-- Formats of m and v (R362). -/
def stateFmt (c : Nat) : Bool := c = 1 || c = 2 || c = 0xA

/-- The kind's formats combine as R362 says. -/
def UpRec.fmtsOk (u : UpRec) : Bool :=
  let none' (c : Nat) : Bool := c = 0xFF
  match u.kind with
  | 1 => (stateFmt u.mFmt || none' u.mFmt) && none' u.vFmt && none' u.cFmt
  | 2 | 6 => stateFmt u.mFmt && none' u.vFmt && none' u.cFmt
  | 3 | 4 => stateFmt u.mFmt && stateFmt u.vFmt && none' u.cFmt
  | 5 => (stateFmt u.mFmt || none' u.mFmt) && (u.vFmt = 1 || u.vFmt = 2) && (u.cFmt = 1 || u.cFmt = 2)
  | _ => false

/-- The reason for which a record is refused at issue (R364): 0x21, 0x22, 0x23, or 0. -/
def UpRec.refusal (u : UpRec) : Nat :=
  let grad := u.gFmt = 0 || u.gFmt = 1 || u.gFmt = 4 || u.gFmt = 6
  let ada := u.kind = 5 && (u.ndim < 2 || (u.dims.drop (u.ndim - 2)).any fun (x : Nat × Nat × Nat) => x.2.1 ≠ 0 || x.2.2 ≠ x.1)
  firstReason
    [(0x21, !u.fmtsOk || !grad || (u.gFmt = 4 && u.scG = 0x3FF) || !u.clean),
     (0x22, u.ndim = 0 || 8 < u.ndim || (u.dims.any fun (x : Nat × Nat × Nat) => x.2.2 = 0 || x.1 < x.2.1 + x.2.2) || ada ||
       u.rest.any fun (x : Nat × Nat × Nat) => x ≠ (0, 0, 0)),
     (0x23, u.lag = 0 || 8 < u.lag || (u.digest && u.digN = 0))]

/-! ### Boxes and arrays (R363, R374) -/

def boxCount (ds : List (Nat × Nat × Nat)) : Nat := ds.foldl (fun (n : Nat) (x : Nat × Nat × Nat) => n * x.2.2) 1

/-- The logical linear index of element i of a box, from the innermost dimension outward. -/
def boxIdx : List (Nat × Nat × Nat) → Nat → Nat → Nat
  | [], _, _ => 0
  | (shape, start, ext) :: ds, i, mult => (start + i % ext) * mult + boxIdx ds (i / ext) (mult * shape)

/-- An array of a parameter tensor in a device: where it stands, its format, its tensor id, its dimensions. -/
structure PArr where
  which : Nat
  va : Nat
  fmt : Nat
  tid : Nat
  dims : List (Nat × Nat × Nat)
  deriving DecidableEq, Repr

def PArr.count (a : PArr) : Nat := boxCount a.dims
def PArr.inner (a : PArr) : Nat := match a.dims.getLast? with | some x => x.2.2 | none => 1
def PArr.rows (a : PArr) : Nat := a.count / a.inner
/-- Elements stored to a row. -/
def PArr.pad (a : PArr) : Nat := rowElems a.fmt a.inner
def PArr.elemLen (a : PArr) : Nat := cdiv (a.rows * a.pad * fmtBits a.fmt) 8
def PArr.scaleLen (a : PArr) : Nat := if fmtMx a.fmt then a.rows * a.pad / 32 else 0
def PArr.scaleVa (a : PArr) : Nat := pitch32 (a.va + a.elemLen)
/-- The address ranges of an array. -/
def PArr.spans (a : PArr) : List (Nat × Nat) := (a.va, a.elemLen) :: if fmtMx a.fmt then [(a.scaleVa, a.scaleLen)] else []
/-- The position of element i among those stored. -/
def PArr.pos (a : PArr) (i : Nat) : Nat := i / a.inner * a.pad + i % a.inner
/-- idx of R374. -/
def PArr.idx (a : PArr) (i : Nat) : Nat := boxIdx a.dims.reverse i 1

/-- The persistent state of a record, in the order w, m, v or R, C. -/
def UpRec.arrays (u : UpRec) : List PArr :=
  let m : List PArr := if u.mFmt = 0xFF then [] else [⟨1, u.mVa, u.mFmt, u.tidM, u.dims⟩]
  let lead := u.dims.take (u.ndim - 2)
  (⟨0, u.wVa, 1, u.tidW, u.dims⟩ : PArr) :: m ++
  (if u.kind = 5 then
    [⟨2, u.vVa, u.vFmt, u.tidV, u.dims.take (u.ndim - 1)⟩, ⟨3, u.cVa, u.cFmt, u.tidC, lead ++ u.dims.drop (u.ndim - 1)⟩]
   else if u.vFmt = 0xFF then [] else [⟨2, u.vVa, u.vFmt, u.tidV, u.dims⟩])

def UpRec.grad (u : UpRec) : PArr := ⟨4, u.gVa, u.gFmt, 0, u.dims⟩

/-- Elements with their poison. -/
abbrev PEls := List (Word × Bool)

/-- Read an array of a partition into FP32 (R164, R368), with t for a per-tensor format. -/
def Dev.readArr (d : Dev) (part : Nat) (t : Int) (a : PArr) : PEls × Option Nat × Bool × Dev :=
  let (e, d) := d.tRead part agEngine a.va a.elemLen
  let (s, d) := if fmtMx a.fmt then d.tRead part agEngine a.scaleVa a.scaleLen else (⟨[], [], false, none⟩, d)
  let b := fmtBits a.fmt / 8
  let els := (List.range a.count).map fun i =>
    let j := a.pos i
    let v := scaledVal a.fmt (elemBits a.fmt j e.bytes) ((s.bytes.getD (j / 32) 0#8).toNat)
    (f32 (if fmtTensor a.fmt then v.scale t else v),
     (e.bad.any fun o => j * b ≤ o && o < (j + 1) * b) || (fmtMx a.fmt && s.bad.contains (j / 32)))
  (els, (match e.first with | some x => some x | none => s.first), e.fault || s.fault, d)

/-! ### Stochastic rounding (R373–R378) -/

def srMix (x : BitVec 64) : BitVec 64 :=
  let x := x ^^^ (x >>> 31)
  let x := x * 0xC4F13A975E2B8D61#64
  let x := x ^^^ (x >>> 29)
  let x := x * 0xA3B195D72E6C40F5#64
  x ^^^ (x >>> 32)

/-- sr_bits(seed, tid, idx, step). -/
def srBits (seed tid idx step : Nat) : Nat :=
  let k (n : Nat) : BitVec 64 := BitVec.ofNat 64 n
  let h := srMix (k seed ^^^ 0x5D3A91C704E6B28F#64)
  let h := srMix (h ^^^ k tid)
  let h := srMix (h ^^^ k step)
  let h := srMix (h ^^^ k idx)
  let h := srMix (h ^^^ k seed)
  (h >>> 48).toNat

/-- A value into BF16 or FP16 with random bits r (R376). -/
def srFloat (f : FloatFmt) (w : Word) (r : Nat) : Elem :=
  match vOf w with
  | .fin s m e =>
    let l := Nat.log2 m
    f.conv (.fin s ((m * 2 ^ (f.mBits + 16) + r * 2 ^ l) / 2 ^ (l + 16)) ((l : Int) + e - f.mBits))
  | v => f.conv v

/-- The exponent of an MXINT8 block: the overflow check rounds toward +∞ (R377). -/
def srExponent (vs : List Val) : Int :=
  match vs.foldl maxAbs (.zero false) with
  | .fin _ m e =>
    let l := Nat.log2 m
    let x : Int := (l : Int) + e + (if 127 < cdiv (m * 64) (2 ^ l) then 1 else 0)
    if x < -127 then -127 else x
  | _ => -127

/-- One MXINT8 element under exponent x. -/
def srInt8 (w : Word) (r : Nat) (x : Int) : Nat :=
  match vOf w with
  | .fin s m e =>
    let k := e + 22 - x
    let q := ((if 0 ≤ k then m * 2 ^ k.toNat else m / 2 ^ (-k).toNat) + r) / 65536
    if s then (256 - q) % 256 else q
  | _ => 0

/-- A block of 32 or fewer elements with their random bits: element bytes, scale byte, NaN or not. -/
def srBlock (vs : List (Word × Nat)) : List Byte × Byte × Bool :=
  let ws := vs.map fun (p : Word × Nat) => vOf p.1
  let x := srExponent ws
  if ws.any (fun v => !v.finite) || 127 < x then (zbytes 32, 0xFF#8, true)
  else (padTo 32 (vs.map fun (p : Word × Nat) => BitVec.ofNat 8 (srInt8 p.1 p.2 x)), BitVec.ofNat 8 (x + 127).toNat, false)

/-- An array as it is written at a step: its writes, elements overflowed, NaN blocks. -/
structure SrOut where
  writes : List VaWr
  ovf : Nat
  nan : Nat
  deriving DecidableEq, Repr

def PArr.encode (a : PArr) (seed step : Nat) (es : PEls) : SrOut :=
  let rs := (enumFrom 0 es).map fun (e : Nat × (Word × Bool)) => (e.2.1, srBits seed a.tid (a.idx e.1) step)
  let badAt (b : Nat) : List Nat := (enumFrom 0 es).flatMap fun (e : Nat × (Word × Bool)) =>
    if e.2.2 then (List.range b).map fun i => a.pos e.1 * b + i else []
  if fmtMx a.fmt then
    let bs := (chunksOf a.inner a.rows rs).flatMap fun r => (chunksOf 32 r.length r).map srBlock
    let blocks := (badAt 1).foldl (fun (l : SSet) o => l.add (o / 32)) []
    { writes := [⟨a.va, bs.flatMap (·.1), blocks.flatMap fun k => (List.range 32).map fun i => 32 * k + i⟩,
                 ⟨a.scaleVa, bs.map (·.2.1), blocks⟩]
      ovf := 0, nan := (bs.filter fun b => b.2.2).length }
  else
    let f : FloatFmt := if a.fmt = 2 then .fp16 else .bf16
    let os := rs.map fun (p : Word × Nat) => srFloat f p.1 p.2
    { writes := [⟨a.va, os.flatMap fun o => leBytes 2 o.bits, badAt 2⟩], ovf := (os.filter fun o => o.ovf).length, nan := 0 }

/-! ### The arithmetic of one step (R368–R370) -/

/-- An element: w, m, v. -/
structure PEl where
  w : Word
  m : Word
  v : Word
  deriving DecidableEq, Repr

def isZeroW (w : Word) : Bool := isZero (vOf w)

/-- iter(s) of R369 for one element. -/
def UpRec.iter (u : UpRec) (s : Nat) (g : Word) (x : PEl) : PEl :=
  let lr := u.h 0; let b1 := u.h 1; let b2 := u.h 2; let eps := u.h 3; let wd := u.h 4; let mu := u.h 6
  let ob1 := fsub fp1 b1; let ob2 := fsub fp1 b2
  let g := fmul g (u.h 5)
  if u.kind ≤ 2 then
    let g := if isZeroW wd then g else fadd g (fmul wd x.w)
    if u.mFmt = 0xFF then { x with w := fsub x.w (fmul lr g) }
    else
      let m := fadd (fmul mu x.m) g
      let dd := if u.kind = 2 then fadd g (fmul mu m) else m
      { x with m := m, w := fsub x.w (fmul lr dd) }
  else if u.kind = 6 then
    let c := fadd (fmul b1 x.m) (fmul ob1 g)
    let sg : Word := match vOf c with
      | .nan => f32 .nan
      | .zero _ => 0#32
      | v => if v.isNeg then 0xBF800000#32 else fp1
    { x with w := fsub x.w (fmul lr (fadd sg (fmul wd x.w))), m := fadd (fmul b2 x.m) (fmul ob2 g) }
  else
    let g := if u.kind = 3 && !isZeroW wd then fadd g (fmul wd x.w) else g
    let m := fadd (fmul b1 x.m) (fmul ob1 g)
    let v := fadd (fmul b2 x.v) (fmul ob2 (fmul g g))
    let mh := fdiv m (fsub fp1 (powi b1 s))
    let vh := fdiv v (fsub fp1 (powi b2 s))
    let q := fdiv mh (fadd (fsqrt vh) eps)
    let w := if u.kind = 4 then fsub x.w (fmul (fmul lr wd) x.w) else x.w
    ⟨fsub w (fmul lr q), m, v⟩

/-- A matrix of Adafactor: rows of w, m and the gradient; R, C. -/
structure AdaMat where
  w : List (List Word)
  m : List (List Word)
  r : List Word
  c : List Word
  deriving DecidableEq, Repr

/-- Transpose rows of n. -/
def transpose (n : Nat) (rows : List (List Word)) : List (List Word) :=
  (List.range n).map fun i => rows.map fun r => r.getD i 0#32

/-- iter_adafactor(s) of R370 for one matrix of n1 rows and n0 columns. -/
def UpRec.iterAda (u : UpRec) (n1 n0 s : Nat) (g : List (List Word)) (x : AdaMat) : AdaMat :=
  let lr := u.h 0; let b1 := u.h 1; let b2 := u.h 2; let eps := u.h 3; let wd := u.h 4; let eps1 := u.h 7
  let ob1 := fsub fp1 b1; let ob2 := fsub fp1 b2
  let g := g.map fun (r : List Word) => r.map fun e => fmul e (u.h 5)
  let sq (e : Word) : Word := fadd (fmul e e) eps1
  let r := (g.zip x.r).map fun (p : List Word × Word) =>
    fadd (fmul b2 p.2) (fmul ob2 (fdiv (fsum (p.1.map sq)) (fNat n0)))
  let c := ((transpose n0 g).zip x.c).map fun (p : List Word × Word) =>
    fadd (fmul b2 p.2) (fmul ob2 (fdiv (fsum (p.1.map sq)) (fNat n1)))
  let rm := fdiv (fsum r) (fNat n1)
  let c2 := fsub fp1 (powi b2 s)
  let rows := (List.range n1).map fun i => (List.range n0).map fun j =>
    let gg := (g.getD i []).getD j 0#32
    let w := (x.w.getD i []).getD j 0#32
    let m := (x.m.getD i []).getD j 0#32
    let vh := fdiv (fdiv (fmul (r.getD i 0#32) (c.getD j 0#32)) rm) c2
    let q := fdiv gg (fadd (fsqrt vh) eps)
    let m' := fadd (fmul b1 m) (fmul ob1 q)
    let q := if u.mFmt = 0xFF then q else fdiv m' (fsub fp1 (powi b1 s))
    let w := fsub w (fmul (fmul lr wd) w)
    (fsub w (fmul lr q), m')
  ⟨rows.map fun r => r.map (·.1), rows.map fun r => r.map (·.2), r, c⟩

/-- The steps of an update of j gradients at count t (R371). -/
def stepsOf (t j : Nat) : List Nat := (List.range j).map fun i => (t + 1 + i) % 18446744073709551616

/-- The poison that an update spreads (R388): by array in the order of UpRec.arrays. An element of w, m and v follows
its own inputs; in Adafactor R follows its row, C its column, and the mean of R reaches the whole matrix. -/
def UpRec.spread (u : UpRec) (g : List Bool) (st : List (List Bool)) : List (List Bool) :=
  if u.kind ≠ 5 then
    let any := (List.range g.length).map fun i => g.getD i false || st.any fun (l : List Bool) => l.getD i false
    st.map fun _ => any
  else
    let n0 := (u.dims.getD (u.ndim - 1) (0, 0, 1)).2.2
    let n1 := (u.dims.getD (u.ndim - 2) (0, 0, 1)).2.2
    let hasM := u.mFmt ≠ 0xFF
    let k := if hasM then 1 else 0
    let at_ (i e : Nat) : Bool := (st.getD i []).getD e false
    let r := (List.range (g.length / n0)).map fun i => at_ (k + 1) i || (List.range n0).any fun j => g.getD (i * n0 + j) false
    let c := (List.range (g.length / n1)).map fun i =>
      at_ (k + 2) i || (List.range n1).any fun j => g.getD (i / n0 * n1 * n0 + j * n0 + i % n0) false
    let mean (q : Nat) : Bool := (List.range n1).any fun i => r.getD (q * n1 + i) false
    let m := (List.range g.length).map fun e =>
      let q := e / (n1 * n0)
      (hasM && at_ 1 e) || mean q || c.getD (q * n0 + e % n0) false
    let w := (List.range g.length).map fun e => at_ 0 e || m.getD e false
    [w] ++ (if hasM then [m] else []) ++ [r, c]

/-- The state after an update of j gradients, by array in the order of UpRec.arrays. -/
def UpRec.apply (u : UpRec) (j : Nat) (g : List Word) (st : List (List Word)) : List (List Word) :=
  let ss := stepsOf u.t j
  let hasM := u.mFmt ≠ 0xFF
  let k := if hasM then 1 else 0
  if u.kind ≠ 5 then
    let at_ (i e : Nat) : Word := (st.getD i []).getD e 0#32
    let out := (enumFrom 0 g).map fun (e : Nat × Word) =>
      ss.foldl (fun (x : PEl) s => u.iter s e.2 x) ⟨at_ 0 e.1, if hasM then at_ 1 e.1 else 0#32, at_ (k + 1) e.1⟩
    [out.map (·.w)] ++ (if hasM then [out.map (·.m)] else []) ++ (if u.vFmt = 0xFF then [] else [out.map (·.v)])
  else
    let n0 := (u.dims.getD (u.ndim - 1) (0, 0, 1)).2.2
    let n1 := (u.dims.getD (u.ndim - 2) (0, 0, 1)).2.2
    let q := g.length / (n1 * n0)
    let part (l : List Word) (i n : Nat) : List Word := (l.drop (i * n)).take n
    let mats := (List.range q).map fun i =>
      let rows (l : List Word) : List (List Word) := chunksOf n0 n1 (part l i (n1 * n0))
      let x : AdaMat := ⟨rows (st.getD 0 []), rows (if hasM then st.getD 1 [] else []), part (st.getD (k + 1) []) i n1,
        part (st.getD (k + 2) []) i n0⟩
      ss.foldl (fun (x : AdaMat) s => u.iterAda n1 n0 s (rows g) x) x
    [mats.flatMap fun x => x.w.flatten] ++ (if hasM then [mats.flatMap fun x => x.m.flatten] else []) ++
    [mats.flatMap fun x => x.r, mats.flatMap fun x => x.c]

/-- A digest record (R379). -/
def digestBytes (ws : List VaWr) (step tid : Nat) : List Byte :=
  beBytes 48 (Config.sha384 (ws.flatMap fun (w : VaWr) => w.bytes)).toNat ++ leBytes 8 step ++ leBytes 4 tid ++ zbytes 4

/-! ### The engine -/

def pOpte (c : Nat) : Page := ⟨.opte, c⟩
def Dev.op (d : Dev) (c : Nat) : Opte := d.opte.get .reset c
def Dev.updOp (d : Dev) (c : Nat) (f : Opte → Opte) : Dev := { d with opte := d.opte.upd .reset c f }
def Dev.opCnt (d : Dev) (c k n : Nat) : Dev := d.cntP (pOpte c) k n (d.clusterOwner c)

def oRec (x : Desc) : Nat := fld x 0x20 8
def oReady (x : Desc) : Nat := fld x 0x28 2
def oDrain (x : Desc) : Bool := bit (fld x 0x2A 1) 0
def oHb (x : Desc) : Nat := fld x 0x30 8
def oMiss (x : Desc) : Word := BitVec.ofNat 32 (fld x 0x30 4)

/-- The reason for which the engine refuses a descriptor before it waits (R364). -/
def optRefusal (x : Desc) : Nat :=
  let op := dOp x
  let hi (o : Nat) : Nat := bits (fld x o 8) 63 52
  if op = 0x82 then
    engRefusal true (hi 0x20 ≠ 0 || hi 0x28 ≠ 0 || !zeros x 0x34 12) [] [oMiss x] (fld x 0x20 8 % 64 ≠ 0 || fld x 0x28 8 % 64 ≠ 0) [] x
  else
    engRefusal (op = 0x80 || op = 0x81)
      (hi 0x20 ≠ 0 || hi 0x30 ≠ 0 || bits (fld x 0x2A 1) 7 1 ≠ 0 || !zeros x 0x2B 1 || !zeros x 0x38 8) [oReady x] []
      (oRec x % 64 ≠ 0 || oHb x % 64 ≠ 0)
      [(0x19, if op = 0x80 then oReady x ≠ 0 || oDrain x || oHb x ≠ 0 else !bit (oReady x) 15 || oHb x = 0)] x

/-- A held head issues or is gone: the cycles held are free. -/
def Dev.opUnheld (d : Dev) (c : Nat) : Dev :=
  if (d.op c).held.isNone then d
  else
    let (k, d) := d.freeNat 61
    (d.updOp c fun o => { o with held := none }).opCnt c 6 k

/-- The engine refuses its head (R365). -/
def Dev.opRefuse (d : Dev) (c part reason : Nat) : Dev :=
  ((((d.opUnheld c).updOp c fun o => { o with q := { o.q with stopped := true, reason := reason } }).errP (pOpte c) 0x0101 (some part)).evtP
    (pOpte c) 1 (some part)).opCnt c 2 1

def Dev.opPop (d : Dev) (c : Nat) : Dev := d.updOp c fun o => { o with q := { o.q with queue := o.q.queue.tail } }

/-- The signal of a descriptor that has ended. -/
def Dev.opSignal (d : Dev) (c part : Nat) (w : Word) : Dev := d.signal w (partFin part) (srcEng 0 c 0)

/-- A descriptor that writes nothing ends: counters, signal. -/
def Dev.opFinish (d : Dev) (c part : Nat) (x : Desc) (k : Nat) : Dev := ((d.opPop c).opCnt c k 1).opSignal c part (dSig x)

/-- Every span can be read or written at once. -/
def Dev.prepareAll (d : Dev) (part agent : Nat) (wr : Bool) (spans : List (Nat × Nat)) : Bool × Dev :=
  spans.foldl (fun (a : Bool × Dev) (s : Nat × Nat) =>
    let (ok, d) := a.2.prepare part agent wr s.1 s.2
    (a.1 && ok, d)) (true, d)

/-- Read arrays in order: their elements, and the first poisoned granule met. -/
def readArrs (part : Nat) : List (PArr × Int) → Dev → List PEls × Option Nat × Dev
  | [], d => ([], none, d)
  | (a, t) :: as, d =>
    let (es, first, _, d) := d.readArr part t a
    let (r, f, d) := readArrs part as d
    (es :: r, (match first with | some x => some x | none => f), d)

/-- The holding buffer's values (R381). -/
def holding (va n : Nat) : PArr := ⟨5, va + 0x40, 0, 0, [(n, 0, n)]⟩

/-- Words as a write at an address, with their poison. -/
def wordWrite (va : Nat) (es : PEls) : VaWr :=
  ⟨va, es.flatMap fun (e : Word × Bool) => leBytes 4 e.1.toNat,
   (enumFrom 0 es).flatMap fun (e : Nat × (Word × Bool)) => if e.2.2 then [4 * e.1, 4 * e.1 + 1, 4 * e.1 + 2, 4 * e.1 + 3] else []⟩

/-- The writes of an update of j gradients ḡ from the state read, and what it counts (R371, R379). -/
def UpRec.update (u : UpRec) (rec_ j : Nat) (g : PEls) (st : List PEls) : List VaWr × List (Nat × Nat) :=
  let step := (u.t + j) % 18446744073709551616
  let vals := u.apply j (g.map (·.1)) (st.map fun (l : PEls) => l.map (·.1))
  let bad := u.spread (g.map (·.2)) (st.map fun (l : PEls) => l.map (·.2))
  let outs := (u.arrays.zip (vals.zip bad)).map fun (p : PArr × (List Word × List Bool)) => p.1.encode u.seed step (p.2.1.zip p.2.2)
  let ws := outs.flatMap (·.writes)
  let dig := u.digest && step % u.digN == 0
  let digBad := bad.any fun (l : List Bool) => l.any id
  (ws ++ (if dig then [⟨u.digVa, digestBytes ws step u.tidW, if digBad then List.range 64 else []⟩] else []) ++
    [⟨rec_ + 0x10, leBytes 8 step, []⟩],
   [(3, g.length), (8, sumN (outs.map (·.ovf))), (9, sumN (outs.map (·.nan))), (10, b2n dig)])

/-- One record for an operation that read poison (R634). -/
def Dev.readBadVa (d : Dev) (c part : Nat) (first : Option Nat) : Dev :=
  match first with
  | some v => d.poisonRead (pOpte c) 1 v (some part)
  | none => d

/-- The head of OPT_UPDATE or OPT_LATE at issue (R364, R371, R372, R381–R383). -/
def optIssue (c part : Nat) (x : Desc) (d : Dev) : Dev :=
  let late := dOp x = 0x81
  let (ok, d) := d.prepareAll part agEngine false ((oRec x, 256) :: if late then [(oHb x, 64)] else [])
  if !ok then d
  else
    let (rb, d1) := d.tRead part agEngine (oRec x) 256
    let (hb, d1) := if late then d1.tRead part agEngine (oHb x) 64 else (⟨[], [], false, none⟩, d1)
    if rb.fault || rb.bad ≠ [] || hb.fault || hb.bad ≠ [] then d1.opRefuse c part 0x20
    else
      let u := UpRec.of rb.bytes
      let n := boxCount u.dims
      if u.refusal ≠ 0 then d.opRefuse c part u.refusal
      else if late && (u.lag ≤ fld hb.bytes 0 4 || fld hb.bytes 4 4 ≠ u.tidW || fld hb.bytes 8 8 ≠ n) then d.opRefuse c part 0x24
      else
        let cnt := if late then fld hb.bytes 0 4 else 0
        let ready := !late || d.clHolds c (oReady x) (fld x 0x2C 4)
        if late && !ready && (if oDrain x then 0 < cnt else cnt + 1 = u.lag) then
          d.updOp c fun o => { o with held := some (oReady x) }
        else
          let drain := late && oDrain x
          let arrs := u.arrays.map fun (a : PArr) => (a, (0 : Int))
          let t := if u.gFmt = 4 then d.tOf c u.scG else 0
          let hbA := holding (oHb x) n
          let srcs := (if drain then [] else [(u.grad, t)]) ++ if late then [(hbA, 0)] else []
          let applies := ready && (!drain || 0 < cnt)
          let spans := (srcs ++ if applies then arrs else []).flatMap fun (a : PArr × Int) => a.1.spans
          let (ok, d) := d.prepareAll part agEngine false spans
          if !ok then d
          else
            let d := d.opUnheld c
            let (src, f1, d) := readArrs part srcs d
            let g := src.getD 0 []
            let a : PEls := if late && !drain then (g.zip (src.getD 1 [])).map fun (p : (Word × Bool) × (Word × Bool)) =>
              (fadd p.2.1 p.1.1, p.1.2 || p.2.2) else g
            if u.skipNf && a.any (fun (e : Word × Bool) => !(vOf e.1).finite) then
              ((d.readBadVa c part f1).evtP (pOpte c) 4 (some part)).opCnt c 7 1 |>.opFinish c part x 0
            else if drain && cnt = 0 then (d.readBadVa c part f1).opFinish c part x 0
            else if !applies then
              let run : OptRun := ⟨x, [⟨oHb x, leBytes 4 (cnt + 1), []⟩, wordWrite (oHb x + 0x40) a], [(4, 1)], n, 0⟩
              (d.readBadVa c part f1).updOp c fun o => { o with q := { o.q with queue := o.q.queue.tail }, cur := some run }
            else
              let j := if drain then cnt else if late then cnt + 1 else 1
              let gbar := if late then a.map fun (e : Word × Bool) => (fdiv e.1 (fNat j), e.2) else a
              let (st, f2, d) := readArrs part arrs d
              let (ws, ks) := u.update (oRec x) j gbar st
              let clear := if late then [wordWrite (oHb x) [(0#32, false)], wordWrite (oHb x + 0x40) (a.map fun _ => (0#32, false))] else []
              let run : OptRun := ⟨x, clear ++ ws, ks ++ if late then [(5, 1)] else [], n, j⟩
              (d.readBadVa c part (match f1 with | some v => some v | none => f2)).updOp c fun o =>
                { o with q := { o.q with queue := o.q.queue.tail }, cur := some run }

/-- OPT_DIGCMP (R380). -/
def optCompare (c part : Nat) (x : Desc) (d : Dev) : Dev :=
  let (ok, d) := d.prepareAll part agEngine false [(fld x 0x20 8, 64), (fld x 0x28 8, 64)]
  if !ok then d
  else
    let (a, d) := d.tRead part agEngine (fld x 0x20 8) 64
    let (b, d) := d.tRead part agEngine (fld x 0x28 8) 64
    if a.fault || a.bad ≠ [] || b.fault || b.bad ≠ [] then d.opRefuse c part 0x20
    else
      let d := if a.bytes = b.bytes then d
        else (((d.errP (pOpte c) 0x0102 (some part)).evtP (pOpte c) 2 (some part)).opCnt c 11 1).opSignal c part (oMiss x)
      d.opFinish c part x 0

/-- The head of an optimiser engine's queue, where its opcode is the command's. -/
def optHead (c op : Nat) (run : Nat → Nat → Desc → Dev → Dev) (d : Dev) : Dev :=
  let o := d.op c
  match o.q.queue, d.clusterOwner c, o.cur with
  | (_, x) :: _, some part, none =>
    if o.q.stopped ∨ !d.clReady (pOpte c) c then d
    else
      let r := optRefusal x
      if r ≠ 0 then d.opRefuse c part r
      else if d.unmet (17 * c) x ≠ [] ∨ dOp x ≠ op then d
      else if d.predSkips (17 * c) x then (d.opUnheld c).opFinish c part x 1
      else run c part x d
  | _, _, _ => d
/-- OPT_UPDATE (R371). -/
def execOptUpdate (c : Fin 16) (s : State) : Host.Outcome State Fault Refusal := onDev (optHead c.val 0x80 optIssue) s
/-- OPT_LATE (R383). -/
def execOptLate (c : Fin 16) (s : State) : Host.Outcome State Fault Refusal := onDev (optHead c.val 0x81 optIssue) s
/-- OPT_DIGCMP (R380). -/
def execOptDigcmp (c : Fin 16) (s : State) : Host.Outcome State Fault Refusal := onDev (optHead c.val 0x82 optCompare) s

/-- The update in progress completes (R371, R388): its writes, its counters, its signal. The cycles that memory adds
to the arithmetic are free (R366). -/
def optDone (c : Nat) (d : Dev) : Dev :=
  match (d.op c).cur, d.clusterOwner c with
  | some r, some part =>
    let (ok, d) := d.prepareAll part agEngine true (r.writes.map fun (w : VaWr) => (w.va, w.bytes.length))
    if !ok then d
    else
      let d := r.writes.foldl (fun (d : Dev) (w : VaWr) => d.tWrite part agEngine w.va w.bytes w.bad) d
      let (m, d) := d.freeNat 62
      let d := r.counts.foldl (fun (d : Dev) (k : Nat × Nat) => d.opCnt c k.1 k.2) d
      let d := ((d.opCnt c 12 (cdiv r.elems 32 * Nat.max 1 r.iters + m)).opCnt c 13 m).opCnt c 0 1
      (d.updOp c fun o => { o with cur := none }).opSignal c part (dSig r.desc)
  | _, _ => d
/-- OPT_UPDATE_DONE (R371). -/
def execOptUpdateDone (c : Fin 16) (s : State) : Host.Outcome State Fault Refusal := onDev (optDone c.val) s

/-- OPTE_CTL.skip_head: a refused head is discarded (R365). -/
def optSkip (v : View) (c : Nat) (d : Dev) : Dev :=
  d.through v (pOpte c) 0x048 fun d =>
    if (d.op c).q.stopped then d.updOp c fun o => { o with q := ⟨o.q.queue.tail, false, 0⟩ } else d
/-- OPTE_SKIP_HEAD (R365). -/
def execOpteSkipHead (v : View) (c : Fin 16) (s : State) : Host.Outcome State Fault Refusal := onDev (optSkip v c.val) s

end Sys2Proof.Machine
end

