-- ==== Sys2Proof/Machine/RedOps.lean ====
section
/-!
DEFINITION. Reduction engines and token exchange engines, the part that needs no fabric transport: group records, paths
of pieces, how descriptors end, receiving slots, and the combine (chapter 11).
-/

namespace Sys2Proof.Machine

abbrev pRede (c : Nat) : Page := ⟨.rede, c⟩
abbrev pTokx (d : Nat) : Page := ⟨.tokx, d⟩

def Dev.red (d : Dev) (c : Nat) : Rede := d.rede.get .reset c
def Dev.updRed (d : Dev) (c : Nat) (f : Rede → Rede) : Dev := { d with rede := d.rede.upd .reset c f }
def Dev.redCnt (d : Dev) (c k n : Nat) : Dev := d.cntP (pRede c) k n (d.clusterOwner c)
/-- The device number of this module (FABT_SELF). -/
def Dev.selfDev (d : Dev) : Nat := d.reg pFabt 0x040

/-- The no-progress limit in ticks (REDE_TIMEOUT). -/
def Dev.redLimit (d : Dev) (c : Nat) : Nat := 100000 * Nat.max 1 (Nat.min 10000 (bits (d.reg (pRede c) 0x054) 13 0))

/-! ### Group records (R432) -/

def memberAt (b : List Byte) (o : Nat) : Member := ⟨fld b o 2, fld b (o + 2) 1, fld b (o + 3) 1⟩

/-- Bytes of a group record after its first 0x40. -/
def groupTail (b : List Byte) : Nat :=
  let g := fld b 6 1; let rr := fld b 7 1; let n := fld b 8 2; let ro := fld b 10 1
  8 * g + 8 * rr + 8 * n + cdiv (2 * n * ro) 8 * 8

def Group.of (b : List Byte) : Group :=
  let g := fld b 6 1; let rr := fld b 7 1; let n := fld b 8 2; let ro := fld b 10 1
  let o1 := 0x40 + 8 * g
  let o2 := o1 + 8 * rr
  let o3 := o2 + 8 * n
  { inner := (List.range g).map fun i => memberAt b (0x40 + 8 * i)
    rings := (List.range rr).map fun r => (List.range g).map fun i => fld b (o1 + 8 * r + i) 1
    outer := (List.range n).map fun i => memberAt b (o2 + 8 * i)
    orings := (List.range ro).map fun r => (List.range n).map fun i => fld b (o3 + 2 * (r * n + i)) 2
    meIn := fld b 0x0B 1, meOut := fld b 0x0C 2, piece := fld b 0x0E 2 }

/-- The numbers in the head of a record stand within R432's ranges. -/
def groupHeadOk (b : List Byte) : Bool :=
  let g := fld b 6 1; let rr := fld b 7 1; let n := fld b 8 2; let ro := fld b 10 1
  fld b 0 4 = 0x47564C45 && fld b 4 2 = 1 && 1 ≤ g && g ≤ 8 && 1 ≤ rr && rr ≤ 6 && 1 ≤ n && n ≤ 1024 &&
  1 ≤ ro && ro ≤ 2 && (n ≠ 1 || ro = 1) && fld b 0x0B 1 < g && fld b 0x0C 2 < n && 1 ≤ fld b 0x0E 2 && fld b 0x0E 2 ≤ 64 &&
  zeros b 0x10 8 && zeros b 0x20 32

/-- A ring lists each of n indices once. -/
def ringOk (n : Nat) (l : List Nat) : Bool := (List.range n).all fun i => (l.filter (· == i)).length = 1

/-- A record keeps R432. -/
def groupOk (b : List Byte) : Bool :=
  let q := Group.of b
  let g := q.inner.length; let n := q.outer.length
  groupHeadOk b && q.rings.all (ringOk g) && q.orings.all (ringOk n) &&
  ((List.range g).all fun i => zeros b (0x40 + 8 * i + 4) 4) &&
  ((List.range q.rings.length).all fun r => zeros b (0x40 + 8 * g + 8 * r + g) (8 - g)) &&
  ((List.range n).all fun i => zeros b (0x40 + 8 * g + 8 * q.rings.length + 8 * i + 4) 4) &&
  (let k := 2 * n * q.orings.length
   zeros b (0x40 + 8 * g + 8 * q.rings.length + 8 * n + k) (cdiv k 8 * 8 - k)) &&
  q.outer[q.meOut]? == q.inner[q.meIn]?

/-- Read a table whose length stands in its head: none where it faults or is poisoned. -/
def Dev.readTable (d : Dev) (part va head : Nat) (tail : List Byte → Nat) : Option (List Byte) × Bool × Dev :=
  let (ok, d) := d.prepare part agEngine false va head
  if !ok then (none, false, d)
  else
    let (h, d) := d.tRead part agEngine va head
    if h.fault ∨ h.bad ≠ [] then (none, true, d)
    else
      let n := tail h.bytes
      let (ok, d) := d.prepare part agEngine false (va + head) n
      if !ok then (none, false, d)
      else
        let (t, d) := d.tRead part agEngine (va + head) n
        (if t.fault ∨ t.bad ≠ [] then none else some (h.bytes ++ t.bytes), true, d)

/-! ### RED_CHAIN and RED_GATHER (R434, R435, R445) -/

/-- The body of a queue-0 descriptor. -/
structure RedBody where
  gather : Bool
  grp : Nat
  homed : Bool
  src : Nat
  srcBuf : Bool
  dst : Nat
  dstBuf : Bool
  count : Nat
  fmt : Nat
  tag : Nat
  deriving DecidableEq, Repr

def RedBody.of (x : Desc) : RedBody :=
  let a := fld x 0x20 8; let s := fld x 0x28 8; let t := fld x 0x30 8
  { gather := dOp x = 0xA1, grp := bits a 51 0, homed := bit a 52, src := bits s 51 0, srcBuf := bit s 52
    dst := bits t 51 0, dstBuf := bit t 52, count := bits (fld x 0x38 4) 27 0, fmt := bits (fld x 0x38 4) 31 28
    tag := fld x 0x3C 4 }

/-- Position of an index in a ring. -/
def posIn (l : List Nat) (i : Nat) : Nat := l.findIdx (· == i)

/-- A descriptor with its group: what the path of a piece depends on. -/
structure RedPath where
  b : RedBody
  g : Group
  deriving DecidableEq, Repr

def RedAct.path (a : RedAct) : RedPath := ⟨RedBody.of a.desc, a.grp⟩

/-- Elements (of 4 bytes in a gather) of a full piece. -/
def RedPath.pe (q : RedPath) : Nat := q.g.piece * 256
/-- Elements of the tensor, or of one box of a gather. -/
def RedPath.total (q : RedPath) : Nat := if q.b.gather then q.b.count * 16 else q.b.count
/-- Pieces of the tensor, or of one box. -/
def RedPath.np (q : RedPath) : Nat := cdiv q.total q.pe
def RedPath.elems (q : RedPath) (p : Nat) : Nat := Nat.min q.pe (q.total - p % (Nat.max 1 q.np) * q.pe)
def RedPath.inner (q : RedPath) : Nat := q.g.inner.length
def RedPath.nodes (q : RedPath) : Nat := q.g.outer.length

/-- Inner ring of a piece, its start and tail position, and this member's position. -/
def RedPath.r (q : RedPath) (p : Nat) : Nat := p % q.g.rings.length
def RedPath.ring (q : RedPath) (p : Nat) : List Nat := q.g.rings.getD (q.r p) []
def RedPath.s (q : RedPath) (p : Nat) : Nat := p / q.g.rings.length % q.inner
def RedPath.it (q : RedPath) (p : Nat) : Nat := (q.s p + q.inner - 1) % q.inner
def RedPath.pos (q : RedPath) (p : Nat) : Nat := posIn (q.ring p) q.g.meIn
/-- The member after position i on the inner ring. -/
def RedPath.nextIn (q : RedPath) (p i : Nat) : Member := q.g.inner.getD ((q.ring p).getD ((i + 1) % q.inner) 0) ⟨0, 0, 0⟩

/-- The home node of a piece. -/
def RedPath.home (q : RedPath) (p : Nat) : Nat := p / Nat.max 1 (q.np / q.nodes)
/-- Outer ring of a piece, its start and tail position, and this member's position. -/
def RedPath.ro (q : RedPath) (p : Nat) : Nat := (if q.b.gather then p else p / q.g.rings.length) % q.g.orings.length
def RedPath.oring (q : RedPath) (p : Nat) : List Nat := q.g.orings.getD (q.ro p) []
def RedPath.so (q : RedPath) (p : Nat) : Nat :=
  if q.b.homed then (posIn (q.oring p) (q.home p) + 1) % q.nodes
  else p / (q.g.rings.length * q.g.orings.length) % q.nodes
def RedPath.ot (q : RedPath) (p : Nat) : Nat := (q.so p + q.nodes - 1) % q.nodes
def RedPath.opos (q : RedPath) (p : Nat) : Nat := posIn (q.oring p) q.g.meOut
def RedPath.nextOut (q : RedPath) (p i : Nat) : Member := q.g.outer.getD ((q.oring p).getD ((i + 1) % q.nodes) 0) ⟨0, 0, 0⟩

/-- Bytes of a destination element. -/
def RedPath.eb (q : RedPath) : Nat := if q.b.gather || q.b.fmt = 0 then 4 else 2
/-- The offset of a piece in dst: a homed tensor's dst is the node's box; a gather's piece p is piece p mod np of box
p div np. -/
def RedPath.dstOff (q : RedPath) (p : Nat) : Nat :=
  if q.b.gather then p / q.np * (q.b.count * 64) + p % q.np * q.pe * 4
  else (if q.b.homed then p - q.home p * (q.np / q.nodes) else p) * q.pe * q.eb

/-- What the engine reads at an offset: none where it faults or is poisoned. -/
def Dev.redSrc (d : Dev) (c part : Nat) (buf : Bool) (a n : Nat) : Option (List Byte) × Dev :=
  if buf then
    let k := bufKey c a
    if bufBytes < a + n then (none, d)
    else match d.firstPoison k n with
      | some g => (none, d.poisonRead (pRede c) 3 (g - bufKey c 0) (some part))
      | none => (some (d.rd k n), d)
  else
    let (r, d) := d.tRead part agEngine a n
    let d := match r.first with
      | some v => d.poisonRead (pRede c) 1 v (some part)
      | none => d
    (if r.fault ∨ r.bad ≠ [] then none else some r.bytes, d)

/-- The engine's place for n bytes can be reached now. -/
def Dev.redReady (d : Dev) (part : Nat) (buf wr : Bool) (a n : Nat) : Bool × Dev :=
  if buf then (true, d) else d.prepare part agEngine wr a n

/-- The engine writes. -/
def Dev.redPut (d : Dev) (c part : Nat) (buf : Bool) (a : Nat) (bytes : List Byte) : Dev :=
  if buf then (if bufBytes < a + bytes.length then d else d.wr (bufKey c a) bytes) else d.tWrite part agEngine a bytes []

def Dev.redMark (d : Dev) (c part : Nat) (buf : Bool) (a n : Nat) : Dev :=
  if buf then d.mark (bufKey c a) n else d.tMark part a n

/-! ### Ends (R431) -/

/-- What every end of a descriptor leaves: REDE_LAST, counters, events. -/
def Dev.redStatus (d : Dev) (c part op status : Nat) : Dev :=
  let d := d.updRed c fun r => { r with lastStatus := status, lastOp := op }
  if status = 0 then d.redCnt c 0 1
  else
    let d := (d.errP (pRede c) 0x0102 (some part)).evtP (pRede c) 2 (some part)
    if status ≤ 3 then d.redCnt c (7 + status) 1 else d

def Dev.redSignal (d : Dev) (c part q : Nat) (x : Desc) : Dev := d.signal (dSig x) (partFin part) (srcEng 1 c q)

/-- The active queue-0 descriptor ends: what is not written is poison-marked where it failed; the group record takes
status and tag; the signal goes. -/
def Dev.redEnd (d : Dev) (c part status : Nat) : Dev :=
  match (d.red c).act with
  | none => d
  | some a =>
    let q := a.path
    let d := if status = 0 then d
      else a.left.foldl (fun (d : Dev) p => d.redMark c part q.b.dstBuf (q.b.dst + q.dstOff p) (q.elems p * q.eb)) d
    let d := d.tWrite part agEngine (q.b.grp + 0x18) (leBytes 4 status ++ leBytes 4 q.b.tag) []
    let d := d.updRed c fun r => { r with act := none, ended := r.ended.add q.b.tag }
    (d.redStatus c part (dOp a.desc) status).redSignal c part 0 a.desc

/-- The tag that the head of queue 0 names. -/
def Rede.nextTag (r : Rede) : Option Nat := (r.q0.queue.head?).map fun (e : Nat × Desc) => (RedBody.of e.2).tag

/-! ### Link records (R449) -/

structure Link where
  role : Nat
  q : Nat
  slotBytes : Nat
  id : Nat
  peer : Member
  slots : Nat
  credit : Nat
  arrival : Nat
  sent : Nat
  freed : Nat
  ok : Bool
  deriving DecidableEq, Repr

def Link.of (b : List Byte) : Link :=
  { role := fld b 6 1, q := fld b 7 1, slotBytes := fld b 8 4, id := fld b 0x0C 4, peer := memberAt b 0x10
    slots := bits (fld b 0x18 8) 51 0, credit := fld b 0x20 1, arrival := fld b 0x21 1, sent := fld b 0x28 8
    freed := fld b 0x30 8
    ok := fld b 0 4 = 0x4C564C45 && fld b 4 2 = 1 && fld b 6 1 < 2 && 1 ≤ fld b 7 1 && fld b 7 1 ≤ 64 &&
      fld b 8 4 % 64 = 0 && 1 ≤ fld b 8 4 && fld b 8 4 ≤ 16777216 && zeros b 0x14 4 && bits (fld b 0x18 8) 63 52 = 0 &&
      zeros b 0x22 6 && zeros b 0x38 8 }

/-! ### Receiving slots (R461, R462, R467) -/

/-- An entry of a slot table. -/
structure SlotEnt where
  va : Nat
  buf : Nat
  rowBytes : Nat
  cap : Nat
  nsrc : Nat
  cluster : Nat
  ctr : Nat
  prev : Nat
  counts : Nat
  deriving DecidableEq, Repr

/-- Where a slot's completion writes: its buffer and its entry. -/
def SlotEnt.places (e : SlotEnt) : List (Nat × Nat) := [(e.buf, e.nsrc * e.cap * e.rowBytes), (e.va, 32)]

/-- The slot table of a partition at a die. -/
def Dev.slotBase (d : Dev) (die p : Nat) : Nat :=
  bits (d.regP (pTokx die) p 0x044) 31 6 * 64 + 4294967296 * bits (d.regP (pTokx die) p 0x048) 19 0
def Dev.slotCount (d : Dev) (die p : Nat) : Nat := Nat.min 256 (bits (d.regP (pTokx die) p 0x04C) 8 0)

/-- Entry s of the table, where it can be read. -/
def Dev.slotEnt (d : Dev) (die p s : Nat) : Option SlotEnt × Bool × Dev :=
  let va := d.slotBase die p + 32 * s
  let r := d.readTable p va 32 fun _ => 0
  (r.1.map fun b => ⟨va, bits (fld b 0 8) 51 0, fld b 8 4, fld b 12 2, fld b 14 2, fld b 16 1 % 16, fld b 17 1, fld b 18 1,
    bits (fld b 24 8) 51 0⟩, r.2.1, r.2.2)

def Dev.updTokx (d : Dev) (f : Tokx → Tokx) : Dev := { d with tokx := f d.tokx }
def Dev.tokCnt (d : Dev) (die p k n : Nat) : Dev := d.cntP (pTokx die) k n (some p)

def SlotTag.is (t : SlotTag) (die p s tag : Nat) : Bool := t.die == die && t.part == p && t.slot == s && t.tag == tag

/-- Sources missing at a completion, or a message dropped: rx_missing and BLK_EVT bit 1 (R467). -/
def Dev.tokMissing (d : Dev) (die p : Nat) : Dev := (d.tokCnt die p 9 1).evtP (pTokx die) 2 (some p)

/-- A tag completes at a slot (R462): +0 in every row not written, rows, the occupancy signal, prev. -/
def Dev.slotDone (d : Dev) (e : SlotEnt) (t : SlotTag) : Dev :=
  let none' := (List.range (e.nsrc * e.cap)).filter fun i => !t.rows.contains i
  let d := none'.foldl (fun (d : Dev) i => d.tWrite t.part agEngine (e.buf + i * e.rowBytes) (zbytes e.rowBytes) []) d
  let cur := b2n (t.total ≠ 0)
  let d := d.tWrite t.part agEngine (e.va + 18) [BitVec.ofNat 8 cur] []
  let d := d.tWrite t.part agEngine (e.va + 20) (leBytes 4 t.total) []
  let inc := 2 + cur - Nat.min 1 e.prev
  let w := BitVec.ofNat 32 (e.ctr + e.cluster * 4096 + 65536 + 131072 + inc * 16777216)
  let d := d.signal w (partFin t.part) (srcEng 4 0 (t.die * 16 + t.part))
  d.updTokx fun x => { x with open_ := x.open_.filter fun (o : SlotTag) => !o.is t.die t.part t.slot t.tag
                              done := x.done ++ [(t.die, t.part, t.slot, t.tag)] }

/-- An open tag after a change: completed once all its sources are heard. -/
def Dev.slotSettle (d : Dev) (e : SlotEnt) (t : SlotTag) (missing : Bool) : Dev :=
  let d := d.updTokx fun x => { x with open_ := (x.open_.filter fun (o : SlotTag) => !o.is t.die t.part t.slot t.tag) ++ [t] }
  if e.nsrc ≤ t.heard.length then
    let d := if missing then d.tokMissing t.die t.part else d
    d.slotDone e t
  else d

/-- The key of a source of a slot. -/
def srcKey (die p s q : Nat) : Nat := ((die * 16 + p) * 256 + s) * 65536 + q

/-- Sources on lost devices count as having sent nothing, for every open tag (R467). -/
def Dev.slotsLost (d : Dev) (pick : Nat → Bool) : Dev :=
  d.tokx.open_.foldl (fun (d : Dev) (t : SlotTag) =>
    let r := d.slotEnt t.die t.part t.slot
    let d := r.2.2
    match r.1 with
    | some e =>
      let gone := (List.range e.nsrc).filter fun q => !t.heard.contains q &&
        match d.tokx.srcs.find? (srcKey t.die t.part t.slot q) with
        | some dev => pick dev
        | none => false
      if gone.isEmpty then d else d.slotSettle e { t with heard := gone.foldl SSet.add t.heard } true
    | none => d) d

/-! ### The source (R464, R465) -/

/-- A row that was kept and never returned: +0, poison-marked (R464). -/
def Dev.rowLost (d : Dev) (part : Nat) (r : TokRun) (row : Nat) : Dev :=
  d.tWrite part agEngine (r.ret + row * r.rowBytes) (zbytes r.rowBytes) (List.range r.rowBytes)

def Dev.setRun (d : Dev) (c : Nat) (r : TokRun) : Dev :=
  d.updRed c fun x => { x with runs := x.runs.map fun (o : TokRun) => if o.tag = r.tag then r else o }

/-- The body of TOK_COMBINE: route record, output, FP32 or BF16, T, tag. -/
structure CombBody where
  route : Nat
  out : Nat
  fp32 : Bool
  t : Nat
  tag : Nat
  deriving DecidableEq, Repr

def CombBody.of (x : Desc) : CombBody :=
  ⟨fld x 0x20 8, bits (fld x 0x28 8) 51 0, bit (fld x 0x28 8) 52, fld x 0x30 2, fld x 0x3C 4⟩

/-- An entry of a route record: its weight, whether it was kept. -/
def routeEnt (b : List Byte) (i : Nat) : Word × Bool := (BitVec.ofNat 32 (fld b (16 * i + 8) 4), fld b (16 * i + 12) 1 % 2 = 1)

/-- One output element of the combine: kept ranks with weight and value. -/
def combEl (l : List (Word × (Word × Bool))) : Word × Bool :=
  (fsum (l.map fun (p : Word × (Word × Bool)) => fmul p.1 p.2.1), l.any fun (p : Word × (Word × Bool)) => p.2.2)

/-- Row i of the combine's output: n elements. -/
def combRow (run : TokRun) (ents : List Byte) (rows : Nat → List (Word × Bool)) (n i : Nat) : List (Word × Bool) :=
  if run.nan.contains i then List.replicate n (f32 .nan, false)
  else
    let kept := ((List.range run.k).filter fun j => (routeEnt ents (i * run.k + j)).2).map fun j =>
      ((routeEnt ents (i * run.k + j)).1, rows (i * run.k + j))
    (List.range n).map fun e => combEl (kept.map fun (p : Word × List (Word × Bool)) => (p.1, p.2.getD e (0#32, false)))

/-- The combine in progress ends (R431, R465): its status in the route record too. -/
def Dev.combEnd (d : Dev) (c part status : Nat) : Dev :=
  match (d.red c).comb with
  | none => d
  | some (x, _) =>
    let b := CombBody.of x
    let d := d.tWrite part agEngine (b.route + 0x2C) (leBytes 4 status) []
    let d := d.updRed c fun r => { r with comb := none, runs := r.runs.filter fun (o : TokRun) => o.tag ≠ b.tag }
    (d.redStatus c part 0xAA status).redSignal c part 2 x

/-- One record for poison that the engine read (R634). -/
def Dev.readBadAt (d : Dev) (c part : Nat) (first : Option Nat) : Dev :=
  match first with
  | some v => d.poisonRead (pRede c) 1 v (some part)
  | none => d

/-- The bytes of the combine's output rows. -/
def combBytes (fp32 : Bool) (row : List (Word × Bool)) : List Byte :=
  row.flatMap fun (e : Word × Bool) => if fp32 then leBytes 4 e.1.toNat else leBytes 2 (FloatFmt.bf16.conv (vOf e.1)).bits

/-- The combine in progress computes once no kept row is open and its places can be reached; a source that faults, and a
poisoned entry, end it with status 4 (R431). -/
def Dev.combine (d : Dev) (c part : Nat) : Dev :=
  match (d.red c).comb with
  | none => d
  | some (x, _) =>
    let b := CombBody.of x
    match (d.red c).runs.find? fun (r : TokRun) => r.tag == b.tag with
    | none => d
    | some run =>
      if !run.open_.isEmpty then d
      else
        let n := run.rowBytes / 2
        let eb := if b.fp32 then 4 else 2
        let ents := (b.route + 0x40, 16 * b.t * run.k)
        let rows := (run.ret, b.t * run.k * run.rowBytes)
        let (ok, d) := d.prepareAll part agEngine false [ents, rows]
        let (ok', d) := d.prepare part agEngine true b.out (b.t * n * eb)
        if !(ok && ok') then d
        else
          let (e, d) := d.tRead part agEngine ents.1 ents.2
          let (r, d) := d.tRead part agEngine rows.1 rows.2
          let d := d.readBadAt c part (if e.first.isSome then e.first else r.first)
          if e.fault ∨ e.bad ≠ [] ∨ r.fault then (d.tMark part b.out (b.t * n * eb)).combEnd c part 4
          else
            let at_ (i : Nat) : List (Word × Bool) :=
              let o := i * run.rowBytes
              let bad := r.bad.filter fun a => o ≤ a && a < o + run.rowBytes
              let row := (r.bytes.drop o).take run.rowBytes
              (List.range n).map fun e => (toF32 1 (elemBits 1 e row) 0, bad.contains (o + 2 * e))
            let d := (List.range b.t).foldl (fun (d : Dev) i =>
              let row := combRow run e.bytes at_ n i
              d.tWrite part agEngine (b.out + i * n * eb) (combBytes b.fp32 row)
                ((enumFrom 0 row).flatMap fun (e : Nat × (Word × Bool)) => if e.2.2 then [eb * e.1] else [])) d
            (d.tokCnt (c / 4) part 8 1).combEnd c part run.status

/-- Rows of a source that were sent to lost devices count as never returned (R467). -/
def Dev.rowsLost (d : Dev) (c part : Nat) (pick : Nat → Bool) : Dev :=
  let d := (d.red c).runs.foldl (fun (d : Dev) (r : TokRun) =>
    let gone := r.open_.filter fun (o : TokRow) => pick o.dev
    if gone.isEmpty then d
    else
      let d := gone.foldl (fun (d : Dev) (o : TokRow) => d.rowLost part r o.row) d
      d.setRun c { r with open_ := r.open_.filter fun (o : TokRow) => !pick o.dev, status := 2 }) d
  if (d.red c).comb.isSome then d.combine c part else d

/-- The devices that an active queue-0 descriptor involves. -/
def RedAct.devs (a : RedAct) : List Nat := (a.grp.inner ++ a.grp.outer).map fun (m : Member) => m.dev

/-- Remote work of the reduction and token exchange engines with lost devices ends (R444, R467). -/
def Dev.engsLost (d : Dev) (pick : Nat → Bool) : Dev :=
  let own := d.selfDev
  let pick := fun n => n ≠ own && pick n
  let d := (List.range 16).foldl (fun (d : Dev) c =>
    match d.clusterOwner c with
    | none => d
    | some part =>
      let r := d.red c
      let hit0 := match r.act with
        | some a => a.devs.any pick
        | none => false
      let d := if hit0 then (d.redEnd c part 2).evtP (pRede c) 4 (some part) else d
      let d := match r.pipe, r.q1.queue with
        | some dev, (_, x) :: rest =>
          if pick dev then
            let d := d.updRed c fun r => { r with pipe := none, q1 := { r.q1 with queue := rest } }
            ((d.redStatus c part (dOp x) 2).evtP (pRede c) 4 (some part)).redSignal c part 1 x
          else d
        | _, _ => d
      d.rowsLost c part pick) d
  d.slotsLost pick

end Sys2Proof.Machine
end

