-- ==== Sys2Proof/Machine/Lost.lean ====
section
/-!
DEFINITION. What other units do when a peer device is lost or the device fences itself (R332, R444, R535).
-/

namespace Sys2Proof.Machine

/-- Leases with the devices that a test chooses end at once: what was lent is zeroed, what was borrowed is dropped
(R332). -/
def Dev.leasesLost (d : Dev) (pick : Nat → Bool) : Dev :=
  let gone := d.tier.lent.filter fun (l : Lent) => pick l.dev
  let d := gone.foldl (fun (d : Dev) (l : Lent) => l.frames.foldl (fun (d : Dev) (f : Nat × Nat) => d.zeroLent f.2) d) d
  let d := d.updTier fun t => { t with lent := t.lent.filter fun (l : Lent) => !pick l.dev }
  let keys := (d.tier.leases.filter fun (l : Lease) => pick l.dev).flatMap fun (l : Lease) =>
    d.leasePages l.dev l.id fun _ => true
  let d := keys.foldl (fun (d : Dev) k => d.dropPage k 11) d
  d.updTier fun t => { t with leases := t.leases.filter fun (l : Lease) => !pick l.dev }

/-- Remote work of engines with a device ends (R444); leases of it or to it are lost (R332). -/
def Dev.peerLost (d : Dev) (dev : Nat) : Dev := (d.leasesLost fun n => n == dev).engsLost fun n => n == dev

/-- Every remote work ends with status 2, every lease ends (R535). -/
def Dev.allRemoteLost (d : Dev) : Dev := (d.leasesLost fun _ => true).engsLost fun _ => true

end Sys2Proof.Machine
end

