-- ==== Sys2Proof/Machine/FabOps.lean ====
section
/-!
DEFINITION. The fabric transport's shared operations (chapter 13): links and their choice, sealing counters, packets
offered to the ports, flows, and the end of peers, links and of the device's own membership.
-/

namespace Sys2Proof.Machine

/-! ### Sub-ports -/

/-- Sub-ports of a split mode (R471), and lanes of each. -/
def splitSubs (w : Nat) : Nat := match bits w 1 0 with | 0 => 1 | 1 => 2 | 2 => 4 | _ => 1
def splitLanes (w : Nat) : Nat := match bits w 1 0 with | 0 => 4 | 1 => 2 | 2 => 1 | _ => 4

def Dev.sub (d : Dev) (k : Nat) : SubPort := d.eth.subs.get .reset k
def Dev.setSub (d : Dev) (k : Nat) (x : SubPort) : Dev := { d with eth := { d.eth with subs := d.eth.subs.put .reset k x } }
def Dev.updSub (d : Dev) (k : Nat) (f : SubPort → SubPort) : Dev := d.setSub k (f (d.sub k))

/-- Counter n of sub-port k of its port's page (R504). -/
def Dev.ecnt (d : Dev) (k n amt : Nat) (part : Option Nat) : Dev := d.cntP (pEthp (k / 4)) (32 * (k % 4) + n) amt part

/-- ETHP_QPq registers. -/
def Dev.qpCfg (d : Dev) (port q : Nat) : Nat := d.reg (pEthp port) (0x400 + 16 * q)
def Dev.qpMatch (d : Dev) (port q : Nat) : Nat := d.reg (pEthp port) (0x404 + 16 * q)
def Dev.qpBind (d : Dev) (port q : Nat) : Nat := d.reg (pEthp port) (0x408 + 16 * q)

/-- Enabled queue pairs of a kind on a sub-port, ascending. -/
def Dev.qpsOn (d : Dev) (k kind : Nat) : List Nat :=
  (List.range 64).filter fun q =>
    let w := d.qpCfg (k / 4) q
    bit w 0 && bits w 2 1 == kind && bits w 5 4 == k % 4

/-- Enabled kind-1 queue pairs of a partition on a sub-port. -/
def Dev.qpsOf (d : Dev) (k part : Nat) : List Nat := (d.qpsOn k 1).filter fun q => d.qpOwner (k / 4) q == some part

/-- Bytes of a priority in the receive share. -/
def Dev.rxOcc (d : Dev) (k pri : Nat) : Nat :=
  (((d.sub k).rx.filter fun (x : RxItem) => x.pri == pri).map (·.len)).foldl (· + ·) 0

def Dev.pfcOn (d : Dev) (k pri : Nat) : Bool := bit (d.reg (pEthp (k / 4)) 0x140) pri
def Dev.xoffBytes (d : Dev) (k : Nat) : Nat := 1024 * bits (d.reg (pEthp (k / 4)) 0x144) 15 0
/-- A value at or above xoff acts as xoff − 1. -/
def Dev.xonBytes (d : Dev) (k : Nat) : Nat :=
  let w := d.reg (pEthp (k / 4)) 0x144
  1024 * (if bits w 15 0 ≤ bits w 31 16 then bits w 15 0 - 1 else bits w 31 16)

/-- Send a PFC frame for one priority. -/
def Dev.pfcOut (d : Dev) (k pri time : Nat) : Dev :=
  ((d.put (.pfc (SubId.ofKey k) (BitVec.ofNat 8 (2 ^ pri)) ((List.range 8).map fun i => if i = pri then time else 0))).ecnt
    k 15 1 none).updSub k fun s => if time = 0 then s else { s with winBad := true }

/-- Occupancy has reached xoff: pause the partner (R482). -/
def Dev.pfcCheck (d : Dev) (k pri : Nat) : Dev :=
  if d.pfcOn k pri ∧ ((d.sub k).xoff.find? pri).isNone ∧ d.xoffBytes k ≤ d.rxOcc k pri then
    (d.pfcOut k pri 0xFFFF).updSub k fun s => { s with xoff := s.xoff.insert pri (d.timer (portIsle (k / 4))) }
  else d

/-- Occupancy has fallen to xon: let the partner go on (R482). -/
def Dev.pfcRelease (d : Dev) (k pri : Nat) : Dev :=
  if ((d.sub k).xoff.find? pri).isSome ∧ d.rxOcc k pri ≤ d.xonBytes k then
    (d.pfcOut k pri 0).updSub k fun s => { s with xoff := s.xoff.erase pri }
  else d

/-- A frame leaves the receive share. -/
def Dev.rxDone (d : Dev) (k : Nat) (pick : RxItem → Bool) : Dev :=
  let s := d.sub k
  match s.rx.find? pick with
  | none => d
  | some x => (d.setSub k { s with rx := s.rx.eraseIdx (s.rx.findIdx pick) }).pfcRelease k x.pri

/-- Full lane count of a sub-port. -/
def Dev.fullLanes (d : Dev) (k : Nat) : Nat := splitLanes (d.reg (pEthp (k / 4)) 0x040)
/-- A sub-port's transmit share (R480). -/
def Dev.txShare (d : Dev) (k : Nat) : Nat := 2097152 / splitSubs (d.reg (pEthp (k / 4)) 0x040)
/-- A sub-port's receive share (R480). -/
def Dev.rxShare (d : Dev) (k : Nat) : Nat := 4194304 / splitSubs (d.reg (pEthp (k / 4)) 0x040)

/-- The frames that the transmit share has room for, in the order in which they were offered (R486). -/
def admitted (room : Nat) : List TxItem → List TxItem
  | [] => []
  | x :: xs => if x.len ≤ room then x :: admitted (room - x.len) xs else []

/-- Bytes of a priority in the transmit share. -/
def Dev.txOcc (d : Dev) (k pri : Nat) : Nat :=
  (((admitted (d.txShare k) (d.sub k).tx).filter fun (x : TxItem) => x.pri == pri).map (·.len)).foldl (· + ·) 0

/-- Some priority's transmit occupancy has reached wake_kib (R497, R500). -/
def Dev.txDeep (d : Dev) (k : Nat) : Bool :=
  let lim := bits (d.reg (pEthp (k / 4)) 0x160) 31 24 * 32768
  (List.range 8).any fun p => (d.sub k).tx.any (fun (x : TxItem) => x.pri == p) && lim ≤ d.txOcc k p

/-- Send an ebb message (R495). -/
def Dev.ebbOut (d : Dev) (k type seq lanes flags : Nat) : Dev := d.put (.ebb (SubId.ofKey k) type seq lanes flags)

/-- A sub-port at reduced lanes asks its partner to wake (R500); its own request to shed is superseded. -/
def Dev.wakeStart (d : Dev) (k : Nat) : Dev :=
  let s := d.sub k
  if s.lanes = 0 ∨ s.lanes = d.fullLanes k ∨ s.wakeReq.isSome ∨ s.hold.isSome then d
  else
    let q := (s.seq + 1) % 65536
    (d.setSub k { s with seq := q, req := none, wakeReq := some ⟨q, d.fullLanes k, 1, d.timer (portIsle (k / 4))⟩ }).ebbOut
      k 5 q (d.fullLanes k) 0

/-- After a frame is offered: deep queues spoil the shed window, and wake a reduced sub-port (R497, R500). -/
def Dev.txNote (d : Dev) (k : Nat) : Dev :=
  if d.txDeep k then (d.updSub k fun s => { s with winBad := true }).wakeStart k else d

/-! ### Identity, links -/

def Dev.selfEpoch (d : Dev) : Nat := d.reg pFabt 0x044

/-- Packet size of FABT_MTU (R510). -/
def Dev.ownP (d : Dev) : Nat := 1024 * 2 ^ bits (d.reg pFabt 0x05C) 1 0

def Dev.link (d : Dev) (i : Nat) : PLink := d.fab.links.get .reset i
def Dev.setLink (d : Dev) (i : Nat) (l : PLink) : Dev := { d with fab := { d.fab with links := d.fab.links.put .reset i l } }
def Dev.updLink (d : Dev) (i : Nat) (f : PLink → PLink) : Dev := d.setLink i (f (d.link i))

def PLink.dev (l : PLink) : Nat := fld l.entry 0 2
def PLink.sub (l : PLink) : Nat := subKey (fld l.entry 2 1) (fld l.entry 3 1 % 4)
def PLink.valid (l : PLink) : Bool := bit (fld l.entry 4 1) 0
def PLink.ipv6 (l : PLink) : Bool := bit (fld l.entry 4 1) 1

def Dev.peer (d : Dev) (n : Nat) : Option Peer := d.fab.peers.find? n
def Dev.setPeer (d : Dev) (n : Nat) (p : Peer) : Dev := { d with fab := { d.fab with peers := d.fab.peers.insert n p } }

/-- The known epoch of a number; 0 is unknown (R505). -/
def Dev.known (d : Dev) (n : Nat) : Nat := ((d.peer n).map (·.epoch)).getD 0

/-- The partition of a flow number, 255 for device-level traffic (R519). -/
def flowPart (f : Nat) : Nat := if 0x0FF0 ≤ f then 255 else f / 16

/-- The flow number of a partition (or 255) and class. -/
def flowNum (part cls : Nat) : Nat := if part < 16 then part * 16 + cls else 0x0FF0 + cls

/-- Links that a flow may use: up, to the device, and through a sub-port that carries a queue pair of the partition
(R520). -/
def Dev.usable (d : Dev) (dev part : Nat) : List Nat :=
  (d.fab.links.filter fun (e : Nat × PLink) =>
    e.2.state == .up && e.2.dev == dev && (16 ≤ part || !(d.qpsOf e.2.sub part).isEmpty)).map (·.1)

/-! ### Sealing (R511, R512, R681) -/

/-- The key target of a part field. -/
def keyTarget (part : Nat) : Nat := if part < 16 then part else 16

def Dev.txSlot (d : Dev) (part : Nat) : Nat := d.sec.transmit.get 0 (keyTarget part)

/-- The transmit slot holds a key and its counter is not spent. -/
def Dev.canSeal (d : Dev) (part : Nat) : Bool :=
  let k := keyTarget part * 2 + d.txSlot part
  !(d.sec.keys.get [] k).isEmpty && !d.fab.exhausted.contains k

/-- Length of a frame that carries a transport packet (R510). -/
def frameLen (tag ipv6 : Bool) (body : Nat) : Nat :=
  14 + (if tag then 4 else 0) + (if ipv6 then 40 else 20) + 8 + 40 + body + 16 + 4

/-- The header of R509. -/
def fabHeader (ver type flags part src dst se de flow key ce psn ack len ctr : Nat) : List Byte :=
  beBytes 1 ver ++ beBytes 1 type ++ beBytes 1 flags ++ beBytes 1 part ++ beBytes 2 src ++ beBytes 2 dst ++
  beBytes 4 se ++ beBytes 4 de ++ beBytes 2 flow ++ beBytes 1 key ++ beBytes 1 ce ++ beBytes 4 psn ++ beBytes 4 ack ++
  beBytes 2 len ++ zbytes 2 ++ beBytes 6 ctr ++ zbytes 2

/-- The IV of R511. -/
def sealIv (dev epoch ctr : Nat) : List Byte := beBytes 2 dev ++ beBytes 4 epoch ++ beBytes 6 ctr

/-- Seal a packet under the transmit slot and offer it to the link's sub-port; the transmit counter moves on, and is
spent at 2^47 (R512). A packet that cannot be sealed is not sent (R681). A fenced device sends nothing (R535), nor does one
whose device domain is contained (R641). -/
def Dev.emit (d : Dev) (i type flags part flow ce psn ack : Nat) (body : List Byte) : Dev :=
  if d.fab.state ≠ .member ∨ d.bst pDevc = .halted then d
  else if !d.canSeal part then
    if (d.sec.keys.get [] (keyTarget part * 2 + d.txSlot part)).isEmpty then d.cnt .pf pSecc 4 1 else d
  else
    let l := d.link i
    let slot := d.txSlot part
    let k := keyTarget part * 2 + slot
    let ctr := d.fab.txCtr.get 0 k
    let ver := if type = 5 ∨ type = 6 then 0x10 else l.major * 16 + l.minor
    let h := fabHeader ver type flags part d.selfDev l.dev d.selfEpoch (if type = 5 then 0 else d.known l.dev) flow slot ce
      psn ack body.length ctr
    let qp := if part < 16 then (d.qpsOf l.sub part).head? else none
    let local' := padTo 32 (d.fab.locals.get [] l.sub)
    let tag := match qp with
      | some q => let w := d.qpCfg (l.sub / 4) q
                  if bit w 3 then some (bits (d.qpMatch (l.sub / 4) q) 11 0) else none
      | none => if fld local' 17 2 = 0 then none else some (fld local' 17 2 % 4096)
    let pri := match qp with
      | some q => bits (d.qpCfg (l.sub / 4) q) 10 8
      | none => bits (d.reg pFabt 0x04C) 24 22
    let (sealed, gcmTag) := Config.gcmSeal (d.sec.keys.get [] k) (sealIv d.selfDev d.selfEpoch ctr) h body
    let udp := d.reg pFabt 0x04C
    let item : TxItem :=
      { pri := pri, qp := qp, part := part, vid := tag, link := i, len := frameLen tag.isSome l.ipv6 body.length,
        ipv6 := l.ipv6, src := local'.take 16, dst := padTo 16 (l.entry.drop 8), tos := 4 * bits udp 21 16 + 2,
        port := bits udp 15 0, payload := h ++ sealed ++ gcmTag }
    let own := if part < 16 then some part else none
    let d := (d.updSub l.sub fun s => { s with tx := s.tx ++ [item] }).txNote l.sub
    let d := d.updLink i fun l => { l with spoke := true }
    let d := { d with fab := { d.fab with txCtr := d.fab.txCtr.put 0 k (ctr + 1) } }
    let d := (d.cntP pFabt 0 1 own).cntP pFabt 1 body.length own
    if ctr + 1 < 2 ^ 47 then d
    else (({ d with fab := { d.fab with exhausted := d.fab.exhausted.add k } }).evtP pFabt 0x20 own).cntP pFabt 10 1 own

/-- Body of HELLO and HELLO_ACK (R516). -/
def Dev.helloBody (d : Dev) (major minor : Nat) : List Byte :=
  beBytes 2 0x4548 ++ [1#8, 0#8, 1#8, 0#8] ++ beBytes 1 major ++ beBytes 1 minor ++
  beBytes 16 Config.serial.toNat ++ beBytes 2 (d.ownP / 1024) ++ zbytes 6

/-- Send HELLO on a link, and keep the time. -/
def Dev.sendHello (d : Dev) (i : Nat) : Dev :=
  (d.emit i 5 0 255 0x0FF0 0 0 0 (d.helloBody 0 0)).updLink i fun l =>
    { l with state := .hello, sent := true, helloAt := d.timer ioIsle }

/-- Send FENCED, at most once per link in 100,000 ticks (R531, R532). -/
def Dev.sendFenced (d : Dev) (i dev epoch : Nat) : Dev :=
  let t := d.timer ioIsle
  let due : Bool := match (d.link i).fencedAt with
    | some t0 => decide (t0 + 100000 ≤ t)
    | none => true
  if due then
    ((d.emit i 7 0 255 0x0FF0 0 0 0 (beBytes 2 dev ++ beBytes 4 epoch ++ beBytes 4 (d.known dev) ++ zbytes 6)).updLink i
      fun l => { l with fencedAt := some t }).cnt .pf pFabt 15 1
  else d

/-! ### Sending flows (R519–R525) -/

/-- The rate that a sub-port's lanes allow, in thousandths of Gb/s. -/
def Dev.lineRate (d : Dev) (i : Nat) : Nat := 100000 * (d.sub (d.link i).sub).lanes

def SendFlow.new (dev flow : Nat) : SendFlow :=
  { dev := dev, flow := flow, next := 0, started := false, link := none, unacked := [], waiting := [], rate := 0,
    acked := 0, marked := 0, k := 0 }

def Dev.sendFlow (d : Dev) (dev flow : Nat) : SendFlow :=
  (d.fab.send.find? fun (f : SendFlow) => f.dev == dev && f.flow == flow).getD (.new dev flow)

def Dev.setSendFlow (d : Dev) (f : SendFlow) : Dev :=
  let rest := d.fab.send.filter fun (g : SendFlow) => !(g.dev == f.dev && g.flow == f.flow)
  { d with fab := { d.fab with send := rest ++ [f] } }

/-- Send one packet of a flow on its link. -/
def Dev.emitFlow (d : Dev) (f : SendFlow) (p : FlowPkt) (again : Bool) : Dev :=
  match f.link with
  | none => d
  | some i =>
    let part := flowPart f.flow
    let own := if part < 16 then some part else none
    let d := d.emit i p.type (p.flags + if again then 4 else 0) part f.flow 0 p.psn 0 p.body
    if again then d.cntP pFabt 4 1 own else d

/-- Halted sideband: only ACK, KEEPALIVE and HELLO go out (R656). -/
def Dev.mayFlow (d : Dev) (f : SendFlow) : Bool :=
  d.fab.state == .member && f.link.isSome && d.canSeal (flowPart f.flow) && !d.halt.effect &&
  d.bst pDevc != .halted

/-- Send the packets that wait while fewer than 256 are unacknowledged (R522). The first packet carries syn and psn 0
(R521). -/
def pump (t : Nat) : Nat → Dev → SendFlow → Dev × SendFlow
  | 0, d, f => (d, f)
  | n + 1, d, f =>
    match f.waiting with
    | [] => (d, f)
    | p :: rest =>
      if d.mayFlow f && f.unacked.length < 256 then
        let p := { p with psn := f.next, flags := p.flags + (if f.started then 0 else 8), at_ := t, sent := true }
        let d := d.emitFlow f p false
        pump t n d { f with waiting := rest, unacked := f.unacked ++ [p], next := (f.next + 1) % 2 ^ 32, started := true }
      else (d, f)

/-- Choose a flow's link: the one it is on while that is usable, else the first usable; on a new link every
unacknowledged packet goes again (R520). -/
def Dev.route (d : Dev) (f : SendFlow) : Dev × SendFlow :=
  let us := d.usable f.dev (flowPart f.flow)
  match f.link with
  | some i => if us.contains i then (d, f) else
      match us.head? with
      | none => (d, { f with link := none })
      | some j => let f := { f with link := some j }
                  (f.unacked.foldl (fun d p => d.emitFlow f p true) d, f)
  | none =>
    match us.head? with
    | none => (d, f)
    | some j => let f := { f with link := some j, rate := if f.rate = 0 then d.lineRate j else f.rate }
                (f.unacked.foldl (fun d p => d.emitFlow f p true) d, f)

/-- Bring a flow on: choose its link, send what waits. -/
def Dev.runFlow (d : Dev) (f : SendFlow) : Dev :=
  let (d, f) := d.route f
  let (d, f) := pump (d.timer ioIsle) f.waiting.length d f
  d.setSendFlow f

/-- Bring every flow on. -/
def Dev.runFlows (d : Dev) : Dev := d.fab.send.foldl (fun d f => d.runFlow (d.sendFlow f.dev f.flow)) d

/-- Put a message on a flow: DATA is cut into packets of P bytes, with first and last marked; CTRL is one packet
(R510). A message that finds no usable link counts in no_path (R520). -/
def Dev.fabSend (d : Dev) (dev part cls type : Nat) (msg : List Byte) : Dev :=
  let flow := flowNum part cls
  let (d, f) := d.route (d.sendFlow dev flow)
  let own := if part < 16 then some part else none
  let P := match f.link with
    | some i => Nat.max 1 (d.link i).psize
    | none => d.ownP
  let pieces := if type = 1 then chunksOf P (msg.length + 1) msg else [msg]
  let pieces := if pieces.isEmpty then [[]] else pieces
  let n := pieces.length
  let pk : List FlowPkt := (enumFrom 0 pieces).map fun (x : Nat × List Byte) =>
    { psn := 0, type := type, flags := (if x.1 = 0 then 1 else 0) + (if x.1 + 1 = n then 2 else 0), body := x.2,
      at_ := 0, sent := false }
  let d := if f.link.isNone then d.cntP pFabt 7 1 own else d
  d.runFlow { f with waiting := f.waiting ++ pk }

end Sys2Proof.Machine
end

