-- ==== Sys2Proof/Machine/Tree.lean ====
section
/-!
DEFINITION. Relay-tree multicast (R536–R542): trees at this node, what they send, and the ends.
-/

namespace Sys2Proof.Machine

/-! ### Records (R536) -/

/-- Entry i of a tree record's table: device number, partition, parent index. -/
def treeNode (t : List Byte) (i : Nat) : Nat × Nat × Nat := (fld t (8 * i) 2, fld t (8 * i + 2) 1, fld t (8 * i + 4) 2)

/-- The zero fields of a table's entries are zero. -/
def treeZeros (t : List Byte) (n : Nat) : Bool := (List.range n).all fun i => zeros t (8 * i + 3) 1 && zeros t (8 * i + 6) 2

/-- A node's parent index; the root has none. -/
def parentOf (t : List (Nat × Nat × Nat)) (i : Nat) : Option Nat :=
  match t[i]? with
  | some (_, _, p) => if p = 0xFFFF then none else some p
  | none => none

/-- A node's parent chain reaches the root. -/
def reachesRoot (t : List (Nat × Nat × Nat)) : Nat → Nat → Bool
  | 0, _ => false
  | fuel + 1, i => t[i]?.isSome && match parentOf t i with
    | none => true
    | some p => reachesRoot t fuel p

/-- The record's shape: 0, or the status that TREE_START ends with. -/
def Dev.treeStatus (d : Dev) (part : Nat) (h t : List Byte) : Nat :=
  let n := fld h 6 2
  let tab := (List.range n).map (treeNode t)
  if h.take 4 ≠ [0x45#8, 0x4C#8, 0x56#8, 0x54#8] ∨ fld h 4 2 ≠ 1 then 0x43
  else if !zeros h 0x0A 2 ∨ !zeros h 0x2E 18 ∨ vaLimit ≤ fld h 0x18 8 ∨ !treeZeros t n then 0x41
  else if n = 0 ∨ 1024 < n ∨ n ≤ fld h 8 2 ∨ fld h 0x0C 4 % d.ownP ≠ 0 ∨ fld h 0x0C 4 < 65536 ∨ 16777216 < fld h 0x0C 4 ∨
      fld h 0x28 4 < fld h 0x0C 4 ∨ fld h 0x2C 1 = 0 ∨ (tab.filter fun (x : Nat × Nat × Nat) => x.2.2 = 0xFFFF).length ≠ 1 ∨
      (List.range n).any (fun i => !reachesRoot tab n i) ∨
      (tab.getD (fld h 8 2) (0, 0, 0)).1 ≠ d.selfDev ∨ (tab.getD (fld h 8 2) (0, 0, 0)).2.1 ≠ part ∨
      d.fab.trees.any fun (x : Tree) => x.part.val == part && x.tag == fld h 0x20 4 then 0x46
  else 0

/-! ### Trees -/

def Dev.tree? (d : Dev) (part tag : Nat) : Option Tree := d.fab.trees.find? fun (t : Tree) => t.part.val == part && t.tag == tag

def Dev.setTree (d : Dev) (t : Tree) : Dev :=
  { d with fab := { d.fab with trees := d.fab.trees.map fun (x : Tree) => if x.part = t.part ∧ x.tag = t.tag then t else x } }

def Dev.delTree (d : Dev) (t : Tree) : Dev :=
  { d with fab := { d.fab with trees := d.fab.trees.filter fun (x : Tree) => !(x.part = t.part && x.tag = t.tag) } }

/-- Send a control message of R537 to a node. -/
def Dev.treeCtrl (d : Dev) (t : Tree) (node code off : Nat) : Dev :=
  match t.table[node]? with
  | none => d
  | some (dev, _, _) => d.fabSend dev t.part.val 3 3 (leBytes 1 code ++ zbytes 3 ++ leBytes 4 t.tag ++ leBytes 8 off)

/-- The header of a tree's DATA message (R441, R537): the offset stands in place of the piece index. -/
def Tree.header (t : Tree) (off n : Nat) : List Byte :=
  leBytes 1 3 ++ zbytes 3 ++ leBytes 4 t.tag ++ leBytes 4 off ++ leBytes 4 n ++ leBytes 4 t.length ++ zbytes 2 ++ leBytes 2 t.me ++
  zbytes 8

/-- The tree ends at this node (R541): status into the record, the signal word; with status 2 the bytes from the last TACK
onward are poison-marked. -/
def Dev.treeEnd (d : Dev) (t : Tree) (status : Nat) : Dev :=
  let n := t.part.val
  let d := if status = 2 then d.tMark n (t.object + t.held) (t.length - t.held) else d
  let d := d.tWrite n agEngine (t.record + 0x2D) [BitVec.ofNat 8 status] []
  (d.delTree t).signal t.sig t.part srcTree

/-- The whole object is here, and every node served has it (R541). -/
def Dev.treeCheck (d : Dev) (t : Tree) : Dev :=
  if t.held = t.length ∧ t.kids.all (fun (k : TreeKid) => t.length ≤ k.ack) then d.treeEnd t (if t.lost then 2 else 0)
  else d.setTree t

/-- Send one child what its window allows (R538); poison or a fault in the object ends the tree with status 4 (R634). -/
def Dev.treeFeed (a : Dev × Tree × Bool) (node : Nat) : Dev × Tree × Bool :=
  let (d, t, bad) := a
  match t.kids.find? fun (k : TreeKid) => k.node == node with
  | none => a
  | some k =>
    let upTo := Nat.min t.held (k.ack + t.window)
    if bad ∨ upTo ≤ k.sent then a
    else
      let n := upTo - k.sent
      let (r, d) := d.tRead t.part.val agEngine (t.object + k.sent) n
      if r.fault ∨ r.bad ≠ [] then
        (match r.first with
          | some va => d.poisonRead pFabt 1 va (some t.part.val)
          | none => d, t, true)
      else
        let d := match t.table[node]? with
          | some (dev, _, _) => d.fabSend dev t.part.val 3 1 (t.header k.sent n ++ r.bytes)
          | none => d
        (d, { t with kids := t.kids.map fun (x : TreeKid) => if x.node = node then { x with sent := upTo } else x }, bad)

/-- The peeled child whose catch-up is served (R540): the first peeled that does not have the whole object. -/
def Tree.catchUp (t : Tree) : Option Nat :=
  if t.held < t.length then none
  else
    let l := t.kids.filter fun (k : TreeKid) => k.peeled.isSome && k.ack < t.length
    (l.foldl (fun (b : Option TreeKid) k => match b with
      | some x => if x.peeled.getD 0 ≤ k.peeled.getD 0 then b else some k
      | none => some k) none).map (·.node)

/-- Serve the tree children, then the one catch-up; then see whether the tree is done. -/
def Dev.treePump (d : Dev) (t : Tree) : Dev :=
  let go := if t.peeled then [] else (t.kids.filter fun (k : TreeKid) => k.peeled.isNone).map (·.node) ++ t.catchUp.toList
  let spans := go.filterMap fun i => (t.kids.find? fun (k : TreeKid) => k.node == i).map fun k => (t.object + k.sent, Nat.min t.held (k.ack + t.window) - k.sent)
  let (ok, d) := spans.foldl (fun (a : Bool × Dev) (s : Nat × Nat) =>
    let (x, d) := a.2.prepare t.part.val agEngine false s.1 s.2
    (a.1 && x, d)) (true, d)
  if !ok then d.setTree t
  else
    let (d, t, bad) := go.foldl Dev.treeFeed (d, t, false)
    if bad then d.treeEnd t 4 else d.treeCheck t

/-! ### Commands -/

/-- TREE_START's effect: the tree stands, its children are those of the record. -/
def Dev.treeGo (d : Dev) (part : Fin 16) (va : Nat) (h t : List Byte) : Dev :=
  let n := fld h 6 2
  let me := fld h 8 2
  let tab := (List.range n).map (treeNode t)
  let kids := (List.range n).filter fun i => parentOf tab i == some me
  let x : Tree :=
    { part := part, record := va, nodes := n, me := me, window := fld h 0x0C 4, length := fld h 0x10 8, object := fld h 0x18 8,
      tag := fld h 0x20 4, sig := BitVec.ofNat 32 (fld h 0x24 4), lagThr := fld h 0x28 4, rounds := fld h 0x2C 1, table := tab,
      server := parentOf tab me, held := if (parentOf tab me).isNone then fld h 0x10 8 else 0,
      kids := kids.map fun i => ⟨i, 0, 0, 0, none⟩, peeled := false, peels := 0, lost := false,
      roundAt := d.timer ioIsle + Nat.max 1 (d.reg pFabt 0x064) }
  ({ d with fab := { d.fab with trees := d.fab.trees ++ [x] } }).treePump x

/-- TREE_START (R536): the tree record is read, checked and started. -/
def treeStart (r : RingId) (e : Entry) (va : Nat) (d : Dev) : Dev :=
  let n := r.part.val
  let size := 64 + 8 * 1024
  let len (d : Dev) : Nat := 64 + 8 * Nat.min 1024 (fld (d.tRead n agTier va 64).1.bytes 6 2)
  ringTry n r.ring.val e 0 true
    (fun d => if vaLimit ≤ va ∨ va % 64 ≠ 0 then (true, d) else
      let (a, d) := d.prepare n agTier false va 64
      if !a then (false, d) else d.prepare n agTier false va (Nat.min size (len d)))
    (fun head d =>
      if vaLimit ≤ va then d.complete n r.ring.val e head 0x41 0
      else
        let k := len d
        let (x, d) := d.tRead n agTier va k
        let bad := va % 64 ≠ 0 || x.fault || x.bad ≠ [] || !d.inT1 n va k
        let st := if bad then 0x43 else d.treeStatus n (x.bytes.take 64) (x.bytes.drop 64)
        (if st = 0 then d.treeGo r.part va (x.bytes.take 64) (x.bytes.drop 64) else d).complete n r.ring.val e head st 0) d
/-- TREE_START (R536, R558). -/
def execTreeStart (r : RingId) (e : Entry) (record : BitVec 64) (s : State) : Host.Outcome State Fault Refusal :=
  onDev (treeStart r e record.toNat) s

/-- TACK (R538): the child's window moves on. -/
def tackMsg (m : TreeMsg) (d : Dev) : Dev :=
  match d.tree? m.part.val m.tag.toNat with
  | none => d
  | some t =>
    d.treePump { t with kids := t.kids.map fun (k : TreeKid) =>
      if k.node = m.fromNode then { k with ack := Nat.max k.ack (Nat.min t.length m.offset.toNat) } else k }
/-- TACK (R538). -/
def execTack (m : TreeMsg) (s : State) : Host.Outcome State Fault Refusal := onDev (tackMsg m) s

/-- PEELED (R539) from the server: each child is told to graft, and nothing more is relayed. -/
def peeledMsg (m : TreeMsg) (d : Dev) : Dev :=
  match d.tree? m.part.val m.tag.toNat with
  | none => d
  | some t =>
    if t.server ≠ some m.fromNode ∨ t.peeled then d
    else
      let d := t.kids.foldl (fun (d : Dev) (k : TreeKid) => d.treeCtrl t k.node 3 k.ack) d
      d.treePump { t with peeled := true, kids := [] }
/-- PEELED (R539). -/
def execPeeled (m : TreeMsg) (s : State) : Host.Outcome State Fault Refusal := onDev (peeledMsg m) s

/-- A node of the table is on a device that is dead. -/
def Dev.nodeDead (d : Dev) (t : Tree) (i : Nat) : Bool :=
  match t.table[i]? with
  | none => true
  | some (dev, _, _) => match d.peer dev with
    | some p => p.state == .dead
    | none => false

/-- The nearest live ancestor of a node. -/
def Dev.liveAncestor (d : Dev) (t : Tree) : Nat → Nat → Option Nat
  | 0, _ => none
  | fuel + 1, i => match parentOf t.table i with
    | none => none
    | some p => if d.nodeDead t p then d.liveAncestor t fuel p else some p

/-- The node takes the nearest live ancestor of its server as its server (R539); without one the tree ends with status
2 (R541). -/
def Dev.regraft (d : Dev) (t : Tree) (srv : Nat) : Dev :=
  match d.liveAncestor t t.nodes srv with
  | none => d.treeEnd t 2
  | some p => (d.treeCtrl t p 3 t.held).setTree { t with server := some p }

/-- GRAFT (R539): from the node's own server, it says to graft to that server's parent; from another node, that node is
served as a child, or where this node was itself peeled the message goes on to its own parent (R542). -/
def graftMsg (m : TreeMsg) (d : Dev) : Dev :=
  match d.tree? m.part.val m.tag.toNat with
  | none => d
  | some t =>
    if t.nodes ≤ m.fromNode then d
    else if t.server = some m.fromNode then d.regraft t m.fromNode
    else if t.peeled then
      match parentOf t.table t.me with
      | some p => d.treeCtrl t p 3 m.offset.toNat
      | none => d
    else
      let o := Nat.min t.length m.offset.toNat
      let rest := t.kids.filter fun (k : TreeKid) => k.node != m.fromNode
      d.treePump { t with kids := rest ++ [⟨m.fromNode, o, o, 0, none⟩] }
/-- GRAFT (R539). -/
def execGraft (m : TreeMsg) (s : State) : Host.Outcome State Fault Refusal := onDev (graftMsg m) s

/-- A DATA message of the tree (R538): bytes in order are written and acknowledged, then relayed; bytes past a gap are
not taken. -/
def treeDataMsg (m : TreeMsg) (bytes : List Byte) (d : Dev) : Dev :=
  match d.tree? m.part.val m.tag.toNat with
  | none => d
  | some t =>
    let o := m.offset.toNat
    let new := (bytes.drop (t.held - o)).take (t.length - t.held)
    if t.server.isNone ∨ t.held < o ∨ new.isEmpty then d
    else
      let (ok, d) := d.prepare m.part.val agEngine true (t.object + t.held) new.length
      if !ok then d
      else if (d.faults m.part.val agEngine true (t.object + t.held) new.length).isSome then
        (d.tWrite m.part.val agEngine (t.object + t.held) new []).treeEnd t 4
      else
        let d := d.tWrite m.part.val agEngine (t.object + t.held) new []
        let t := { t with held := t.held + new.length }
        let d := d.treeCtrl t m.fromNode 1 t.held
        d.treePump t
/-- TREE_DATA (R538). -/
def execTreeData (m : TreeMsg) (bytes : List Byte) (s : State) : Host.Outcome State Fault Refusal := onDev (treeDataMsg m bytes) s

/-- A round (R538): lags are taken, and children that lagged long enough are peeled. -/
def treeRoundAt (p : Nat) (tag : Nat) (d : Dev) : Dev :=
  match d.tree? p tag with
  | none => d
  | some t =>
    let d := d.reach ioIsle t.roundAt
    let on := t.kids.filter fun (k : TreeKid) => k.peeled.isNone
    let top := on.foldl (fun m (k : TreeKid) => Nat.max m k.ack) 0
    let step (a : Dev × Nat × List TreeKid) (k : TreeKid) : Dev × Nat × List TreeKid :=
      let (d, n, l) := a
      if k.peeled.isSome then (d, n, l ++ [k])
      else if top - k.ack ≤ t.lagThr then (d, n, l ++ [{ k with late := 0 }])
      else if k.late + 1 < t.rounds then (d, n, l ++ [{ k with late := k.late + 1 }])
      else ((d.treeCtrl t k.node 2 k.ack).cntP pFabt 8 1 (some p), n + 1, l ++ [{ k with sent := k.ack, peeled := some n }])
    let (d, n, l) := t.kids.foldl step (d, t.peels, [])
    d.treePump { t with kids := l, peels := n, roundAt := t.roundAt + Nat.max 1 (d.reg pFabt 0x064) }
/-- TREE_ROUND (R538). -/
def execTreeRound (p : Fin 16) (tag : BitVec 32) (s : State) : Host.Outcome State Fault Refusal :=
  onDev (treeRoundAt p.val tag.toNat) s

/-! ### Ends -/

/-- A device is dead (R539, R541): the root's death ends the tree; a node without its server grafts on; a lost child is
served no more, and the tree ends with status 2. -/
def Dev.treeLost (dev : Nat) (d : Dev) (t : Tree) : Dev :=
  let on (i : Nat) : Bool := match t.table[i]? with
    | some (x, _, _) => x == dev
    | none => false
  let root := (List.range t.nodes).any fun i => (parentOf t.table i).isNone && on i
  if root then d.treeEnd t 2
  else
    let gone := t.kids.any fun (k : TreeKid) => on k.node
    let t := { t with kids := t.kids.filter (fun (k : TreeKid) => !on k.node), lost := t.lost || gone }
    match t.server with
    | none => d.treePump t
    | some s => if on s && t.held < t.length then d.regraft t s else if gone then d.treePump t else d

def Dev.treesLost (d : Dev) (dev : Nat) : Dev := d.fab.trees.foldl (Dev.treeLost dev) d

/-- Every tree ends with status 2 (R535). -/
def Dev.endTrees (d : Dev) : Dev := d.fab.trees.foldl (fun (d : Dev) (t : Tree) => d.treeEnd t 2) d

/-- A partition's trees go with its flows. -/
def Dev.dropTrees (d : Dev) (n : Nat) : Dev :=
  { d with fab := { d.fab with trees := d.fab.trees.filter fun (t : Tree) => t.part.val != n } }

end Sys2Proof.Machine
end

