-- ==== Sys2Proof/Machine/FabEnds.lean ====
section
/-!
DEFINITION. Ends of flows, peers, links and of the device's own membership (R524, R529, R535, R542).
-/

namespace Sys2Proof.Machine

/-- Discard the flows that a test chooses: sending ones with what they hold, and receiving ones. -/
def Dev.dropFlows (d : Dev) (p : Nat → Nat → Bool) : Dev :=
  { d with fab := { d.fab with
      send := d.fab.send.filter fun (f : SendFlow) => !p f.dev f.flow
      recv := d.fab.recv.filter fun (f : RecvFlow) => !p f.dev f.flow } }

/-- A partition's flows end (R524, R542), and its trees with them. -/
def Dev.dropPartFlows (d : Dev) (n : Nat) : Dev := (d.dropTrees n).dropFlows fun _ f => flowPart f == n

/-- Declare a device number dead at its known epoch (R529, R513). -/
def Dev.declareDead (d : Dev) (n : Nat) : Dev :=
  let d := d.dropFlows fun dev _ => dev == n
  let d := match d.peer n with
    | some p => d.setPeer n { p with state := .dead }
    | none => d
  let d := { d with fab := { d.fab with synCtr := d.fab.synCtr.dropRange (n * 512) ((n + 1) * 512) } }
  ((d.evtAll pFabt 1).cnt .pf pFabt 19 1).peerLost n |>.treesLost n

/-- A peer link goes down: its flows move (R520); with the last link its device is dead (R529). -/
def Dev.linkDown (d : Dev) (i : Nat) : Dev :=
  let n := (d.link i).dev
  let was := (d.link i).state
  let d := d.updLink i fun l => { l with state := .down, misses := 0, heard := false, sent := false, got := false }
  if was ≠ .up then d
  else if d.fab.links.any fun (e : Nat × PLink) => e.2.state == .up && e.2.dev == n then d.runFlows
  else d.declareDead n

/-- The device fences itself (R535). -/
def Dev.fence (d : Dev) : Dev :=
  let d := { d with fab := { d.fab with state := .fenced, fencedId := some (d.selfDev, d.selfEpoch), send := [], recv := [] } }
  d.endTrees.evtAll pFabt 2 |>.allRemoteLost

end Sys2Proof.Machine
end

