-- ==== Sys2Proof/Machine/Fabric.lean ====
section
/-!
DEFINITION. The fabric transport's commands (chapter 13), but for the relay trees.
-/

namespace Sys2Proof.Machine

/-! ### Receiving -/

def RecvFlow.new (dev flow link : Nat) : RecvFlow :=
  { dev := dev, flow := flow, e := 0, held := [], since := 0, first := none, ce := 0, link := link, msg := [] }

def Dev.recvFlow (d : Dev) (dev flow link : Nat) : RecvFlow :=
  (d.fab.recv.find? fun (f : RecvFlow) => f.dev == dev && f.flow == flow).getD (.new dev flow link)

def Dev.setRecvFlow (d : Dev) (f : RecvFlow) : Dev :=
  let rest := d.fab.recv.filter fun (g : RecvFlow) => !(g.dev == f.dev && g.flow == f.flow)
  { d with fab := { d.fab with recv := rest ++ [f] } }

/-- The bitmap of R523: bit i is set when packet e + 1 + i has arrived. -/
def ackBitmap (f : RecvFlow) : List Byte :=
  leBytes 32 (((List.range 256).filter fun i => (f.held.find? ((f.e + 1 + i) % 2 ^ 32)).isSome).foldl (fun a i => a + 2 ^ i) 0)

/-- Send the ACK of a receiving flow (R523). -/
def Dev.sendAck (d : Dev) (f : RecvFlow) : Dev :=
  (d.emit f.link 2 0 (flowPart f.flow) f.flow (Nat.min 255 f.ce) 0 f.e (ackBitmap f)).setRecvFlow
    { f with since := 0, first := none, ce := 0 }

/-- Deliver the packets held in order from e on (R522): the flow, the packets and bytes delivered. -/
def deliver : Nat → RecvFlow → Nat → Nat → RecvFlow × Nat × Nat
  | 0, f, n, b => (f, n, b)
  | k + 1, f, n, b =>
    match f.held.find? f.e with
    | none => (f, n, b)
    | some (_, flags, body) =>
      deliver k { f with held := f.held.erase f.e, e := (f.e + 1) % 2 ^ 32,
                         msg := if bit flags 1 then [] else (if bit flags 0 then body else f.msg ++ body) }
        (n + 1) (b + body.length)

/-- A transport packet leaves the receive share of its sub-port (the frame that a kind-1 queue pair held). -/
def Dev.takeRx (d : Dev) (k : Nat) : Dev :=
  let qs := d.qpsOn k 1
  d.rxDone k fun x => qs.contains x.qp

/-- What the checks of R515 and R531 leave of a packet. -/
inductive RxVerdict where
  /-- Dropped; the device is already as the check leaves it. -/
  | drop (d : Dev)
  /-- Accepted, with the body opened. -/
  | pass (d : Dev) (body : List Byte)

/-- The version that a packet of a link must carry: HELLO and HELLO_ACK the first, others the one in force (R515). -/
def PLink.speaks (l : PLink) (k : Packet) (type : Nat) : Bool :=
  if type = 5 ∨ type = 6 then k.ver.toNat = 0x10 else k.ver.toNat = l.major * 16 + l.minor && l.major ≠ 0

/-- Open a packet's payload with the key of its partition that it names (R512, R515 step 3). -/
def Dev.unseal (d : Dev) (k : Packet) (type : Nat) : Option (List Byte) :=
  let part := k.part.toNat
  let src := k.srcDev.toNat
  let key := d.sec.keys.get [] (keyTarget part * 2 + k.key.val)
  let iv := sealIv src k.srcEpoch.toNat k.ctr.toNat
  let aad := fabHeader k.ver.toNat type k.flags.toNat part src k.dstDev.toNat k.srcEpoch.toNat k.dstEpoch.toNat
    k.flow.toNat k.key.val k.ce.toNat k.psn.toNat k.ack.toNat k.sealed.length k.ctr.toNat
  if key.isEmpty then none else Config.gcmOpen key iv aad k.sealed k.gcmTag

/-- R513 and R515 step 5: syn only above the highest counter authenticated. -/
def Dev.checkSyn (d : Dev) (k : Packet) (body : List Byte) : RxVerdict :=
  let part := k.part.toNat
  let own := if part < 16 then some part else none
  let skey := k.srcDev.toNat * 512 + part * 2 + k.key.val
  let seen := d.fab.synCtr.find? skey
  if bit k.flags.toNat 3 && (seen.any fun c => decide (k.ctr.toNat ≤ c)) then .drop (d.cntP pFabt 5 1 own)
  else
    let top := Nat.max k.ctr.toNat (seen.getD 0)
    .pass { d with fab := { d.fab with synCtr := d.fab.synCtr.insert skey top } } body

/-- The epochs of an authentic packet (R515 step 4, R531). -/
def Dev.checkEpoch (d : Dev) (k : Packet) (type : Nat) (body : List Byte) : RxVerdict :=
  let src := k.srcDev.toNat
  let known := d.known src
  let dead := (d.peer src).any fun (p : Peer) => p.state == .dead
  let se := k.srcEpoch.toNat
  let de := k.dstEpoch.toNat
  if se < known ∨ (se = known ∧ dead = true) then
    .drop ((d.cnt .pf pFabt 14 1).sendFenced k.link src se)
  else if type = 5 ∧ se = known ∧ (d.peer src).any (fun (p : Peer) => !p.serial.isEmpty && p.serial != (body.drop 8).take 16) then
    .drop (((d.cnt .pf pFabt 14 1).cnt .pf pFabt 16 1).sendFenced k.link src se)
  else if type ≠ 5 ∧ known < se then .drop (d.cnt .pf pFabt 14 1)
  else if de ≠ 0 ∧ de < d.selfEpoch then .drop (d.cnt .pf pFabt 14 1)
  else if d.selfEpoch < de then .drop ((d.cnt .pf pFabt 14 1).fence)
  else d.checkSyn k body

/-- A packet at the transport: the checks of R515 in their order, with the epochs of R531. serial is the one that a
HELLO carries. -/
def Dev.check (d : Dev) (k : Packet) (type : Nat) : RxVerdict :=
  let d := d.takeRx k.sub.key
  let l := d.link k.link
  if d.fab.state ≠ .member then .drop d
  else if !(k.headerOk && l.speaks k type && k.flags.toNat < 16 && l.valid) then .drop (d.cnt .pf pFabt 11 1)
  else if k.dstDev.toNat ≠ d.selfDev then .drop (d.cnt .pf pFabt 12 1)
  else
    match d.unseal k type with
    | none => .drop ((d.cnt .pf pFabt 13 1).evt .pf pFabt 0x10)
    | some body => (d.updLink k.link fun l => { l with heard := true }).checkEpoch k type body

/-- Run a command's effect on an accepted packet. -/
def Dev.accept (d : Dev) (k : Packet) (type : Nat) (f : Dev → List Byte → Dev) : Dev :=
  match d.check k type with
  | .drop d => d
  | .pass d body => f d body

/-- A DATA or CTRL packet on its flow (R521–R523). -/
def Dev.rxFlow (d : Dev) (k : Packet) (type : Nat) (body : List Byte) : Dev :=
  let src := k.srcDev.toNat
  let flow := k.flow.toNat
  let part := flowPart flow
  let own := if part < 16 then some part else none
  let f := if bit k.flags.toNat 3 then RecvFlow.new src flow k.link else { d.recvFlow src flow k.link with link := k.link }
  let off := (k.psn.toNat + 2 ^ 32 - f.e) % 2 ^ 32
  let d := if k.ecnCe then d.cntP pFabt 6 1 own else d
  let f := if k.ecnCe then { f with ce := f.ce + 1 } else f
  if 255 < off ∨ (f.held.find? k.psn.toNat).isSome then (d.cntP pFabt 5 1 own).sendAck f
  else
    let late := off ≠ 0
    let f := { f with held := f.held.insert k.psn.toNat (type, k.flags.toNat, body), since := f.since + 1,
                      first := some (f.first.getD (d.timer ioIsle)) }
    let (f, n, b) := deliver 256 f 0 0
    let d := (d.cntP pFabt 2 n own).cntP pFabt 3 b own
    if late ∨ 8 ≤ f.since then d.sendAck f else d.setRecvFlow f

/-- A DATA packet of a flow. -/
def dataPkt (k : Packet) (d : Dev) : Dev := d.accept k 1 fun d body => d.rxFlow k 1 body
def ctrlPkt (k : Packet) (d : Dev) : Dev := d.accept k 3 fun d body => d.rxFlow k 3 body

/-- DATA (R522). -/
def execData (k : Packet) (s : State) : Host.Outcome State Fault Refusal := onDev (dataPkt k) s
/-- CTRL (R510, R522). -/
def execCtrl (k : Packet) (s : State) : Host.Outcome State Fault Refusal := onDev (ctrlPkt k) s

/-- Packet x of a flow has been received by the other end: below e, or marked in the bitmap. -/
def ackedBy (e : Nat) (map : List Byte) (psn : Nat) : Bool :=
  let below := (e + 2 ^ 32 - psn) % 2 ^ 32
  (0 < below && below ≤ 256) || (let up := (psn + 2 ^ 32 - e) % 2 ^ 32; 0 < up && up ≤ 256 && (leNat map).testBit (up - 1))

/-- An ACK that is accepted: packets it covers leave the flow, and one below three or more received goes again. -/
def ackRun (k : Packet) (d : Dev) (body : List Byte) : Dev :=
  let f := d.sendFlow k.srcDev.toNat k.flow.toNat
  let e := k.ack.toNat
  let left := f.unacked.filter fun (p : FlowPkt) => !ackedBy e body p.psn
  let gone := f.unacked.length - left.length
  let seen := (List.range 256).filter fun i => (leNat body).testBit i
  let missing (p : FlowPkt) : Bool :=
    3 ≤ (seen.filter fun i => (p.psn + 2 ^ 32 - e) % 2 ^ 32 < i + 1).length
  let t := d.timer ioIsle
  let f := { f with unacked := left.map fun (p : FlowPkt) => if missing p then { p with at_ := t } else p,
                    acked := f.acked + gone, marked := f.marked + k.ce.toNat, k := if 0 < gone then 0 else f.k }
  let d := (left.filter missing).foldl (fun d p => d.emitFlow f p true) d
  d.runFlow f

/-- ACK (R524, R525): packets that it covers leave the flow; a packet below three or more received ones goes again. -/
def ackPkt (k : Packet) (d : Dev) : Dev := d.accept k 2 (ackRun k)
/-- ACK (R524). -/
def execAck (k : Packet) (s : State) : Host.Outcome State Fault Refusal := onDev (ackPkt k) s

/-- KEEPALIVE (R527): 8 zero bytes; that it came is noted with every authenticated packet (R528). -/
def keepalivePkt (k : Packet) (d : Dev) : Dev :=
  d.accept k 4 fun d body => if body.length = 8 ∧ zeros body 0 8 then d else d.cnt .pf pFabt 11 1
/-- KEEPALIVE (R527). -/
def execKeepalive (k : Packet) (s : State) : Host.Outcome State Fault Refusal := onDev (keepalivePkt k) s

/-! ### HELLO (R516–R518, R531) -/

/-- Body of a HELLO agrees with R516. -/
def helloOk (b : List Byte) : Bool := b.length == 32 && fldBE b 0 2 == 0x4548 && zeros b 0x1A 6

/-- The version chosen between ranges (R517): major × 256 + minor, if the ranges meet. -/
def chooseVersion (max1 min1 max2 min2 : Nat) : Option Nat :=
  if Nat.max min1 min2 ≤ Nat.min max1 max2 then some (Nat.min max1 max2) else none

/-- The exchange is complete at this end: the link is up, its peer Up (R517, R506). -/
def Dev.linkUpIf (d : Dev) (i : Nat) : Dev :=
  let l := d.link i
  if l.sent && l.got && l.state ≠ .refused then
    let d := d.setLink i { l with state := .up, misses := 0, heard := true }
    let d := match d.peer l.dev with
      | some p => d.setPeer l.dev { p with state := .up }
      | none => d
    d.runFlows
  else d

/-- Learn who sent a HELLO: a higher epoch ends the flows of the old identity and raises the known epoch (R531). -/
def Dev.learn (d : Dev) (k : Packet) (body : List Byte) : Dev :=
  let n := k.srcDev.toNat
  let serial := (body.drop 8).take 16
  if d.known n < k.srcEpoch.toNat then
    let d := ((d.dropFlows fun dev _ => dev == n).peerLost n).treesLost n
    let d := { d with fab := { d.fab with synCtr := d.fab.synCtr.dropRange (n * 512) ((n + 1) * 512) } }
    (d.setPeer n ⟨k.srcEpoch.toNat, serial, .down⟩).evtAll pFabt 4
  else d

/-- Refused: no common version (R517). -/
def Dev.refuseLink (d : Dev) (i : Nat) : Dev :=
  ((d.updLink i fun l => { l with state := .refused }).evt .pf pFabt 8).cnt .pf pFabt 20 1

/-- A HELLO that is accepted: who sent it is learnt, a version is chosen and answered (R517, R531). -/
def helloRun (k : Packet) (d : Dev) (body : List Byte) : Dev :=
  if !helloOk body then d.cnt .pf pFabt 11 1
  else
    let d := d.learn k body
    match chooseVersion (fldBE body 2 2) (fldBE body 4 2) 0x100 0x100 with
    | some v =>
      let d := d.emit k.link 6 0 255 0x0FF0 0 0 0 (d.helloBody (v / 256) (v % 256))
      let d := d.updLink k.link fun l =>
        { l with state := if l.state = .up then .up else .hello, major := v / 256, minor := v % 256, sent := true,
                 got := true, psize := Nat.min d.ownP (1024 * Nat.max 1 (fldBE body 0x18 2)) }
      d.linkUpIf k.link
    | none => (d.emit k.link 6 0 255 0x0FF0 0 0 0 (d.helloBody 0 0)).refuseLink k.link

/-- HELLO (R517). -/
def helloPkt (k : Packet) (d : Dev) : Dev := d.accept k 5 (helloRun k)
/-- HELLO (R517). -/
def execHello (k : Packet) (s : State) : Host.Outcome State Fault Refusal := onDev (helloPkt k) s

/-- A HELLO_ACK that is accepted. -/
def helloAckRun (k : Packet) (d : Dev) (body : List Byte) : Dev :=
  if !helloOk body then d.cnt .pf pFabt 11 1
  else if fldBE body 6 2 = 0 then d.refuseLink k.link
  else if fldBE body 6 2 ≠ 0x100 then d.cnt .pf pFabt 11 1
  else
    let d := match d.peer k.srcDev.toNat with
      | some _ => d
      | none => d.setPeer k.srcDev.toNat ⟨k.srcEpoch.toNat, (body.drop 8).take 16, .down⟩
    (d.updLink k.link fun l =>
      { l with major := 1, minor := 0, got := true,
               psize := Nat.min d.ownP (1024 * Nat.max 1 (fldBE body 0x18 2)) }).linkUpIf k.link

/-- HELLO_ACK (R517). -/
def helloAckPkt (k : Packet) (d : Dev) : Dev := d.accept k 6 (helloAckRun k)
/-- HELLO_ACK (R517). -/
def execHelloAck (k : Packet) (s : State) : Host.Outcome State Fault Refusal := onDev (helloAckPkt k) s

/-- FENCED (R532, R533). -/
def fencedPkt (k : Packet) (d : Dev) : Dev :=
  d.accept k 7 fun d body =>
    if body.length = 16 ∧ zeros body 10 6 ∧ fldBE body 0 2 = d.selfDev ∧ fldBE body 2 4 = d.selfEpoch then d.fence
    else d.cnt .pf pFabt 11 1
/-- FENCED (R533). -/
def execFenced (k : Packet) (s : State) : Host.Outcome State Fault Refusal := onDev (fencedPkt k) s

/-! ### Timed events -/

/-- HELLO goes again every 100,000 ticks until a HELLO_ACK comes (R516). -/
def helloAgain (i : Nat) (d : Dev) : Dev :=
  let l := d.link i
  if d.fab.state = .member ∧ l.valid ∧ l.state = .hello ∧ !l.got then (d.reach ioIsle (l.helloAt + 100000)).sendHello i else d
/-- HELLO_RESEND (R516). -/
def execHelloResend (link : Nat) (s : State) : Host.Outcome State Fault Refusal :=
  onPage (link < 1024) (helloAgain link) s

/-- The first packet without an acknowledgement has waited 500 ticks (R523). -/
def ackDelay (dev flow : BitVec 16) (d : Dev) : Dev :=
  match d.fab.recv.find? fun (f : RecvFlow) => f.dev == dev.toNat && f.flow == flow.toNat with
  | none => d
  | some f =>
    match f.first with
    | none => d
    | some t => (d.reach ioIsle (t + 500)).sendAck f
/-- ACK_DELAY_EXPIRE (R523). -/
def execAckDelayExpire (dev flow : BitVec 16) (s : State) : Host.Outcome State Fault Refusal := onDev (ackDelay dev flow) s

/-- FABT_RTO: the least timeout and the largest k. -/
def Dev.rto (d : Dev) (k : Nat) : Nat :=
  let w := d.reg pFabt 0x054
  Nat.max 100 (bits w 19 0) * 2 ^ Nat.min k (Nat.min 10 (bits w 23 20))

/-- The oldest packet has gone unacknowledged for the timeout: every packet that has goes again (R524). -/
def rtoFlow (dev flow : BitVec 16) (d : Dev) : Dev :=
  match d.fab.send.find? fun (f : SendFlow) => f.dev == dev.toNat && f.flow == flow.toNat with
  | none => d
  | some f =>
    match f.unacked with
    | [] => d
    | p :: _ =>
      let first := f.unacked.foldl (fun m (q : FlowPkt) => Nat.min m q.at_) p.at_
      let d := d.reach ioIsle (first + d.rto f.k)
      let t := d.timer ioIsle
      let due (q : FlowPkt) : Bool := q.at_ + d.rto f.k ≤ t
      let d' := (f.unacked.filter due).foldl (fun d q => d.emitFlow f q true) d
      d'.setSendFlow { f with unacked := f.unacked.map fun (q : FlowPkt) => if due q then { q with at_ := t } else q
                              k := Nat.min (f.k + 1) (Nat.min 10 (bits (d.reg pFabt 0x054) 23 20)) }
/-- RETRANSMIT_TIMEOUT (R524). -/
def execRetransmitTimeout (dev flow : BitVec 16) (s : State) : Host.Outcome State Fault Refusal := onDev (rtoFlow dev flow) s

/-- A flow's rate at the end of a window (R525), in thousandths of Gb/s. -/
def ccRate (line ai rmin : Nat) (f : SendFlow) : Nat :=
  let r := f.rate
  let r := if f.acked = 0 then r
    else if f.marked = 0 then Nat.min line (r + ai)
    else Nat.max rmin (r - r * Nat.min f.marked f.acked / (2 * f.acked))
  Nat.min r line

/-- The end of a rate window (R525). -/
def rateEnd (d : Dev) : Dev :=
  let w := d.reg pFabt 0x058
  let ai := 1000 * bits w 23 16
  let rmin := 1000 * Nat.max 1 (bits w 31 24)
  { d with fab := { d.fab with send := d.fab.send.map fun (f : SendFlow) =>
      { f with rate := match f.link with
                | some i => ccRate (d.lineRate i) ai rmin f
                | none => f.rate
               acked := 0, marked := 0 } } }
/-- RATE_WINDOW (R525). -/
def execRateWindow (s : State) : Host.Outcome State Fault Refusal := onDev rateEnd s

/-- ebb may lower the line rate at any time: rates are clipped at once (R542). -/
def Dev.clipRates (d : Dev) : Dev :=
  { d with fab := { d.fab with send := d.fab.send.map fun (f : SendFlow) =>
      { f with rate := match f.link with
                | some i => Nat.min f.rate (d.lineRate i)
                | none => f.rate } } }

/-- A KEEPALIVE, in an interval in which nothing else went to the peer on the link (R527). -/
def kaSend (i : Nat) (d : Dev) : Dev :=
  let l := d.link i
  if l.state = .up ∧ !l.spoke ∧ d.fab.state = .member then (d.emit i 4 0 255 0x0FF0 0 0 0 (zbytes 8)).cnt .pf pFabt 17 1 else d
/-- KEEPALIVE_SEND (R527). -/
def execKeepaliveSend (link : Nat) (s : State) : Host.Outcome State Fault Refusal :=
  onPage (link < 1024) (kaSend link) s

/-- One link at a keepalive boundary (R528). -/
def kaLink (dead : Nat) (d : Dev) (i : Nat) : Dev :=
  let l := d.link i
  if l.state ≠ .up then d
  else if l.heard then d.setLink i { l with misses := 0, heard := false, spoke := false }
  else
    let d := (d.setLink i { l with misses := l.misses + 1, spoke := false }).cnt .pf pFabt 18 1
    if dead ≤ l.misses + 1 then d.linkDown i else d

/-- A boundary of FABT_KA.ticks (R528): every link that is up is examined. -/
def kaCheck (d : Dev) : Dev :=
  let w := d.reg pFabt 0x050
  let n := Nat.max 1000 (bits w 19 0)
  let d := d.reach ioIsle ((d.timer ioIsle + n - 1) / n * n)
  (d.fab.links.map (·.1)).foldl (kaLink (Nat.max 1 (bits w 27 20))) d
/-- KEEPALIVE_CHECK (R528). -/
def execKeepaliveCheck (s : State) : Host.Outcome State Fault Refusal := onDev kaCheck s

/-! ### Identity and tables (R507, R534, R535) -/

/-- Writing an identity (R534, R535): only while Disabled, and not the fenced one again. -/
def identityWrite (v : View) (off : Nat) (value : Word) (d : Dev) : Dev :=
  d.privOnly v pFabt off fun d =>
    if d.bst pFabt ≠ .disabled then d.err .pf pFabt 0x0101
    else
      let d' := d.wrReg .pf pFabt off value
      let again := d.fab.fencedId.any fun (x : Nat × Nat) => d'.selfDev == x.1 && d'.selfEpoch ≤ x.2
      if again then d.err .pf pFabt 0x0101
      else if d'.selfDev = d.selfDev ∧ d'.selfEpoch = d.selfEpoch then d'
      else { d' with fab := { d'.fab with send := [], recv := [], state := .off,
                                          txCtr := if d'.selfEpoch = d.selfEpoch then d'.fab.txCtr else [],
                                          exhausted := if d'.selfEpoch = d.selfEpoch then d'.fab.exhausted else [] } }
/-- FABT_SELF_WRITE (R534). -/
def execFabtSelfWrite (v : View) (value : Word) (s : State) : Host.Outcome State Fault Refusal :=
  onDev (identityWrite v 0x040 value) s
/-- FABT_EPOCH_WRITE (R534). -/
def execFabtEpochWrite (v : View) (value : Word) (s : State) : Host.Outcome State Fault Refusal :=
  onDev (identityWrite v 0x044 value) s

/-- The 32 bytes that an entry of table 0 or 1 reads as. -/
def Dev.tblEntry (d : Dev) (table i : Nat) : List Byte :=
  if table = 0 then padTo 32 (d.fab.locals.get (zbytes 32) i)
  else
    let l := d.link i
    padTo 32 (l.entry.take 5 ++ beBytes 1 l.state.code ++ beBytes 1 (l.major * 16 + l.minor) ++ zbytes 1 ++
      (l.entry.drop 8).take 16 ++ leBytes 4 (d.known l.dev))

/-- The bytes that must be zero in a written entry; the device's own fields are not looked at. -/
def tblReserved (table : Nat) (b : List Byte) : Bool :=
  if table = 0 then zeros b 19 13 && fld b 16 1 < 4 else zeros b 7 1 && zeros b 28 4 && fld b 4 1 < 4

def Dev.setTblSts (d : Dev) (x : Nat) : Dev := { d with fab := { d.fab with tblSts := x } }

/-- The table window shows an entry. -/
def Dev.tblShow (d : Dev) (b : List Byte) : Dev :=
  (List.range 8).foldl (fun (d : Dev) w => d.setReg pFabt (0x080 + 4 * w) (fld b (4 * w) 4)) d

/-- The entry that the table window holds. -/
def Dev.tblWindow (d : Dev) : List Byte := (List.range 8).flatMap fun w => leBytes 4 (d.reg pFabt (0x080 + 4 * w))

/-- A table command that reads, by the selection (R507). -/
def tblRead (d : Dev) : Dev :=
  let sel := d.reg pFabt 0x070
  let i := bits sel 9 0
  if bits sel 10 10 = 0 ∧ 47 < i then d.setTblSts 1 else (d.tblShow (d.tblEntry (bits sel 10 10) i)).setTblSts 0

/-- A table command that writes: local entries at any time, peer entries only where no valid link stands, or one
that is down; a valid peer entry of a member starts its HELLO (R507, R516). -/
def tblWrite (d : Dev) : Dev :=
  let sel := d.reg pFabt 0x070
  let i := bits sel 9 0
  let table := bits sel 10 10
  let b := d.tblWindow
  if table = 0 ∧ 47 < i then d.setTblSts 1
  else if table = 1 ∧ (d.link i).valid ∧ (d.link i).state ≠ .down then d.setTblSts 2
  else if !tblReserved table b then d.setTblSts 3
  else if table = 0 then { d with fab := { d.fab with locals := d.fab.locals.put (zbytes 32) i b } }.setTblSts 0
  else
    let d := (d.setLink i { PLink.reset with entry := b }).setTblSts 0
    if (d.link i).valid ∧ d.fab.state = .member then d.sendHello i else d

/-- FABT_TBL_CMD (R507): cmd 1 reads the selected entry into the data words, cmd 2 writes it from them. -/
def tblCmd (v : View) (write : Bool) (d : Dev) : Dev :=
  d.privOnly v pFabt 0x074 (if write then tblWrite else tblRead)
/-- FABT_TBL_READ (R507). -/
def execFabtTblRead (v : View) (s : State) : Host.Outcome State Fault Refusal := onDev (tblCmd v false) s
/-- FABT_TBL_WRITE (R507). -/
def execFabtTblWrite (v : View) (s : State) : Host.Outcome State Fault Refusal := onDev (tblCmd v true) s

/-- The block has come to Running: the device is a member, and sends HELLO on every valid link (R516, R530). -/
def Dev.fabUp (d : Dev) : Dev :=
  if d.fab.state = .fenced then d
  else
    let d := { d with fab := { d.fab with state := .member } }
    (d.fab.links.filter fun (e : Nat × PLink) => e.2.valid).foldl (fun d e => d.sendHello e.1) d

/-- The block is Disabled: links go back to unset; a fenced device stays fenced until it has a new identity (R535). -/
def Dev.fabOff (d : Dev) : Dev :=
  { d with fab := { d.fab with
      state := if d.fab.state = .fenced then .fenced else .off
      send := [], recv := []
      links := d.fab.links.map fun (e : Nat × PLink) => (e.1, { PLink.reset with entry := e.2.entry }) } }

end Sys2Proof.Machine
end

