-- ==== Sys2Proof/Machine/Eth.lean ====
section
/-!
DEFINITION. The Ethernet ports' commands (chapter 12): receiving and filtering, priority flow control, marking,
transmission, queue pairs, and the ebb.
-/

namespace Sys2Proof.Machine

/-! ### Frames -/

/-- EtherType and what follows it, with PCP and VLAN ID of an 802.1Q tag (R473). -/
structure EthView where
  etype : Nat
  pcp : Option Nat
  vid : Nat
  body : List Byte
  deriving DecidableEq, Repr

def ethView (b : List Byte) : EthView :=
  if fldBE b 12 2 = 0x8100 then
    { etype := fldBE b 16 2, pcp := some (fldBE b 14 2 / 8192), vid := fldBE b 14 2 % 4096, body := b.drop 18 }
  else { etype := fldBE b 12 2, pcp := none, vid := 0, body := b.drop 14 }

/-- The IP packet's ECN field, its UDP destination port if it is whole UDP, the UDP payload, and the UDP destination port that
a first fragment shows. -/
structure IpView where
  ecn : Nat
  udp : Option Nat
  payload : List Byte
  frag : Option Nat
  deriving DecidableEq, Repr

def ipView (e : EthView) : Option IpView :=
  if e.etype = 0x0800 then
    let hl := fld e.body 0 1 % 16 * 4
    let port := fldBE e.body (hl + 2) 2
    let udp : Bool := fld e.body 9 1 == 17
    let fo := fldBE e.body 6 2 % 16384
    some ⟨fld e.body 1 1 % 4, if udp && fo == 0 then some port else none, e.body.drop (hl + 8),
      if udp && fo == 8192 then some port else none⟩
  else if e.etype = 0x86DD then
    some ⟨fldBE e.body 0 2 / 16 % 4, if fld e.body 6 1 = 17 then some (fldBE e.body 42 2) else none, e.body.drop 48,
      if fld e.body 6 1 = 44 ∧ fld e.body 40 1 = 17 ∧ fldBE e.body 42 2 / 8 = 0 then some (fldBE e.body 50 2) else none⟩
  else none

/-- CRC-32 step for one byte (R477). -/
def crcByte (c : Nat) (b : Byte) : Nat :=
  (List.range 8).foldl (fun c _ => if c % 2 = 1 then (c / 2) ^^^ 0xedb88320 else c / 2) (c ^^^ b.toNat)

/-- The hash bucket of a group address (R477). -/
def bucket (da : List Byte) : Nat := (da.foldl crcByte 0xffffffff ^^^ 0xffffffff) / 2 ^ 23

/-- Unicast entry n of a port: its address as a number, first byte least significant, whether it is valid, its
sub-port. -/
def Dev.ucEntry (d : Dev) (port n : Nat) : Nat × Bool × Nat :=
  let lo := d.reg (pEthp port) (0x080 + 8 * n)
  let hi := d.reg (pEthp port) (0x084 + 8 * n)
  (lo + 2 ^ 32 * bits hi 15 0, bit hi 16, bits hi 19 18)

/-- The source address of a sub-port as a 48-bit number in transmission order (R488). -/
def Dev.srcAddr (d : Dev) (k : Nat) : Option Nat :=
  ((List.range 16).find? fun n => (d.ucEntry (k / 4) n).2.1 && (d.ucEntry (k / 4) n).2.2 == k % 4).map fun n =>
    beNat (leBytes 6 (d.ucEntry (k / 4) n).1)

/-- The port accepts the destination address (R476). -/
def Dev.daOk (d : Dev) (k : Nat) (da : List Byte) : Bool :=
  let port := k / 4
  let rx := d.reg (pEthp port) 0x048
  ((List.range 16).any fun n => let e := d.ucEntry port n; e.1 == leNat da && e.2.1 && e.2.2 == k % 4) ||
  ((fld da 0 1 % 2 == 1) && (let b := bucket da; bit (d.reg (pEthp port) (0x100 + 4 * (b / 32))) (b % 32))) ||
  (leNat da == 0xFFFFFFFFFFFF && bit rx 16) || bit rx 17

/-! ### Priority flow control (R482–R484) -/

/-- PFC_REFRESH (R482): xoff goes again while the occupancy stays above xon. -/
def pfcAgain (k pri : Nat) (d : Dev) : Dev :=
  match (d.sub k).xoff.find? pri with
  | none => d
  | some t =>
    let i := portIsle (k / 4)
    let d := d.reach i (t + Nat.max 1 (bits (d.reg (pEthp (k / 4)) 0x140) 31 16))
    if d.xonBytes k < d.rxOcc k pri then
      (d.pfcOut k pri 0xFFFF).updSub k fun s => { s with xoff := s.xoff.insert pri (d.timer i) }
    else d.pfcRelease k pri
/-- PFC_REFRESH (R482). -/
def execPfcRefresh (s : SubId) (pri : Fin 8) (st : State) : Host.Outcome State Fault Refusal :=
  onDev (pfcAgain s.key pri.val) st

/-- One priority of a received PFC frame: time × 512 bit times at the rate in force, or ignored (R483, R484). -/
def pfcOne (k : Nat) (d : Dev) (x : Nat × Nat) : Dev :=
  if !d.pfcOn k x.1 then d.ecnt k 16 1 none
  else
    let s := d.sub k
    let t := d.timer (portIsle (k / 4)) + cdiv (x.2 * 512) (Nat.max 1 s.lanes * 1000)
    d.setSub k { s with pause := if x.2 = 0 then s.pause.erase x.1 else s.pause.insert x.1 t
                        winBad := s.winBad || x.2 ≠ 0 }

/-- A priority pause frame: each class that its vector names (R483). -/
def pfcRx (k vec : Nat) (times : List Nat) (d : Dev) : Dev :=
  ((bitsSet vec 8).map fun p => (p, times.getD p 0)).foldl (pfcOne k) (d.ecnt k 14 1 none)
/-- PFC_FRAME (R483). -/
def execPfcFrame (s : SubId) (vec : Byte) (times : List (BitVec 16)) (st : State) : Host.Outcome State Fault Refusal :=
  onDev (pfcRx s.key vec.toNat (times.map (·.toNat))) st

/-- PFC_PAUSE_EXPIRE (R483): the pause of a priority ends. -/
def pauseEnd (k pri : Nat) (d : Dev) : Dev :=
  match (d.sub k).pause.find? pri with
  | none => d
  | some t => (d.reach (portIsle (k / 4)) t).updSub k fun s => { s with pause := s.pause.erase pri }
/-- PFC_PAUSE_EXPIRE (R483). -/
def execPfcPauseExpire (s : SubId) (pri : Fin 8) (st : State) : Host.Outcome State Fault Refusal :=
  onDev (pauseEnd s.key pri.val) st

/-! ### Links -/

/-- The lanes field of a sub-port changes: BLK_EVT.link in every view. -/
def Dev.setLanes (d : Dev) (k n : Nat) : Dev :=
  if (d.sub k).lanes = n then d else (d.updSub k fun s => { s with lanes := n }).evtAll (pEthp (k / 4)) 1

/-- A sub-port's link is lost: peer links through it go down (R520). -/
def Dev.subDown (d : Dev) (k : Nat) : Dev :=
  if (d.sub k).lanes = 0 then d
  else
    let d := (d.setLanes k 0).ecnt k 27 1 none
    let d := d.updSub k fun s => { s with req := none, wakeReq := none, hold := none, wakeNext := false, pause := [] }
    ((d.fab.links.filter fun (e : Nat × PLink) => e.2.sub == k && (e.2.state == .up || e.2.state == .hello)).map (·.1)).foldl
      Dev.linkDown d

/-- CAP (R496): the full lane count, and whether ebb is enabled here. -/
def Dev.capOut (d : Dev) (k : Nat) : Dev :=
  let s := d.sub k
  let on := bit (d.reg (pEthp (k / 4)) 0x160) 0 && !s.locked
  (d.ebbOut k 1 0 (d.fullLanes k) (b2n on)).updSub k fun s => { s with capAt := d.timer (portIsle (k / 4)) }

/-- A sub-port's link comes up with the lanes of its split mode (R472, R496). -/
def subUp (k : Nat) (d : Dev) : Dev :=
  if splitSubs (d.reg (pEthp (k / 4)) 0x040) ≤ k % 4 ∨ (d.sub k).lanes ≠ 0 ∨ 2 ≤ d.pwr.state ∨ d.boot.recovery ∨ d.boot.step < 6 then d
  else
    let t := d.timer (portIsle (k / 4))
    let d := (d.setLanes k (d.fullLanes k)).updSub k fun s =>
      { s with winFrom := t, winTx := 0, winRx := 0, winBad := false, rateFrom := t, rateTx := 0, rateRx := 0 }
    d.capOut k
/-- LINK_UP (R496). -/
def execLinkUp (s : SubId) (st : State) : Host.Outcome State Fault Refusal := onDev (subUp s.key) st

/-- A link is lost: also the lockout of R502 ends. -/
def subLost (k : Nat) (d : Dev) : Dev :=
  (d.subDown k).updSub k fun s => { s with locked := false, fails := 0, capUntil := 0 }
/-- LINK_DOWN (R520). -/
def execLinkDown (s : SubId) (st : State) : Host.Outcome State Fault Refusal := onDev (subLost s.key) st

/-! ### Ebb (R495–R502) -/

def Dev.ptimer (d : Dev) (k : Nat) : Nat := d.timer (portIsle (k / 4))
def Dev.ebbCtl (d : Dev) (k : Nat) : Nat := d.reg (pEthp (k / 4)) 0x160
/-- ETHP_EBB_WIN.ticks. -/
def Dev.ebbWin (d : Dev) (k : Nat) : Nat := Nat.max 1000 (d.reg (pEthp (k / 4)) 0x164)

/-- The next lower lane count. -/
def lowerLanes (n : Nat) : Nat := if n = 4 then 2 else 1

/-- A percentage field of 1 to 100. -/
def pct (x : Nat) : Nat := Nat.max 1 (Nat.min 100 x)

/-- The sub-port may shed (R497); a lane carries 125 bytes in a tick. -/
def Dev.mayShed (d : Dev) (k : Nat) : Bool :=
  let s := d.sub k
  let cap := lowerLanes s.lanes * 125 * d.ebbWin k * pct (bits (d.ebbCtl k) 14 8)
  bit (d.ebbCtl k) 0 && !s.locked && d.ptimer k < s.capUntil && 1 < s.lanes && s.winTx * 100 < cap && s.winRx * 100 < cap &&
  !s.winBad && !d.txDeep k && s.hold.isNone && s.wakeReq.isNone

/-- CAP_SEND (R496). -/
def capAgain (k : Nat) (d : Dev) : Dev :=
  if (d.sub k).lanes = 0 then d else (d.reach (portIsle (k / 4)) ((d.sub k).capAt + 100000000)).capOut k
/-- CAP_SEND (R496). -/
def execCapSend (s : SubId) (st : State) : Host.Outcome State Fault Refusal := onDev (capAgain s.key) st

/-- An ebb message with something wrong is dropped and counted (R495). -/
def ebbMsg (k : Nat) (m : EbbMsg) (f : Dev → Dev) (d : Dev) : Dev :=
  if (d.sub k).lanes = 0 then d else if m.clean then f d else d.ecnt k 23 1 none

/-- CAP: the peer takes part (R496). -/
def capRx (k : Nat) (m : EbbMsg) : Dev → Dev :=
  ebbMsg k m fun d => if bit m.flags.toNat 0 then d.updSub k fun s => { s with capUntil := d.ptimer k + 300000000 } else d
/-- CAP (R496). -/
def execCap (s : SubId) (m : EbbMsg) (st : State) : Host.Outcome State Fault Refusal := onDev (capRx s.key m) st

/-- ELVUO_CAPABLE_EXPIRE (R496): 300,000,000 ticks without a CAP. -/
def capEnd (k : Nat) (d : Dev) : Dev :=
  if (d.sub k).capUntil = 0 then d
  else (d.reach (portIsle (k / 4)) (d.sub k).capUntil).updSub k fun s => { s with capUntil := 0, req := none }
/-- ELVUO_CAPABLE_EXPIRE (R496). -/
def execElvuoCapableExpire (s : SubId) (st : State) : Host.Outcome State Fault Refusal := onDev (capEnd s.key) st

/-- The end of a shed window: a sub-port that may shed proposes it (R498 step 1). -/
def windowEnd (k : Nat) (d : Dev) : Dev :=
  let i := portIsle (k / 4)
  let d := d.reach i ((d.sub k).winFrom + d.ebbWin k)
  let s := d.sub k
  let go := d.mayShed k && s.req.isNone && s.noReqUntil ≤ d.timer i
  let q := (s.seq + 1) % 65536
  let s' := { s with winFrom := d.timer i, winTx := 0, winRx := 0, winBad := false }
  if go then (d.setSub k { s' with seq := q, req := some ⟨q, lowerLanes s.lanes, 1, d.timer i⟩ }).ebbOut k 2 q (lowerLanes s.lanes) 0
  else d.setSub k s'
/-- EBB_WINDOW (R497). -/
def execEbbWindow (s : SubId) (st : State) : Host.Outcome State Fault Refusal := onDev (windowEnd s.key) st

/-- The sub-port holds its frames to come up with that many lanes. -/
def Dev.ebbHold (d : Dev) (k lanes : Nat) (wake : Bool) : Dev :=
  d.updSub k fun s => { s with hold := some ⟨lanes, d.ptimer k, wake⟩ }

/-- SHED_REQ (R498 step 2, R499): of two that cross, the one from the lower source address stands. -/
def shedReqRx (k : Nat) (m : EbbMsg) : Dev → Dev :=
  ebbMsg k m fun d =>
    let s := d.sub k
    let mine := s.req.isSome && (d.srcAddr k).any fun a => decide (a < m.src.toNat)
    if s.wakeReq.isSome ∨ mine = true then d
    else
      let d := d.updSub k fun s => { s with req := none }
      if d.mayShed k ∧ m.lanes.toNat = lowerLanes s.lanes then
        (d.ebbOut k 3 m.seq.toNat m.lanes.toNat 0).ebbHold k m.lanes.toNat false
      else d.ebbOut k 4 m.seq.toNat m.lanes.toNat 0
/-- SHED_REQ (R498). -/
def execShedReq (s : SubId) (m : EbbMsg) (st : State) : Host.Outcome State Fault Refusal := onDev (shedReqRx s.key m) st

/-- 10,000 ticks without an answer: again, and after three the partner is not Elvuo-capable (R498 step 1). -/
def shedAgain (k : Nat) (d : Dev) : Dev :=
  match (d.sub k).req with
  | none => d
  | some r =>
    let d := d.reach (portIsle (k / 4)) (r.at_ + 10000)
    if 3 ≤ r.tries then d.updSub k fun s => { s with req := none, capUntil := 0 }
    else (d.updSub k fun s => { s with req := some { r with tries := r.tries + 1, at_ := d.ptimer k } }).ebbOut k 2 r.seq r.lanes 0
/-- SHED_REQ_RESEND (R498). -/
def execShedReqResend (s : SubId) (st : State) : Host.Outcome State Fault Refusal := onDev (shedAgain s.key) st

/-- SHED_ACK to the request that stands (R498). -/
def shedAckRx (k : Nat) (m : EbbMsg) : Dev → Dev :=
  ebbMsg k m fun d =>
    match (d.sub k).req with
    | some r => if r.seq = m.seq.toNat then (d.updSub k fun s => { s with req := none }).ebbHold k r.lanes false else d
    | none => d
/-- SHED_ACK (R498). -/
def execShedAck (s : SubId) (m : EbbMsg) (st : State) : Host.Outcome State Fault Refusal := onDev (shedAckRx s.key m) st

/-- SHED_NAK to the request that stands: no request for a window (R498). -/
def shedNakRx (k : Nat) (m : EbbMsg) : Dev → Dev :=
  ebbMsg k m fun d =>
    match (d.sub k).req with
    | some r =>
      if r.seq = m.seq.toNat then
        (d.updSub k fun s => { s with req := none, noReqUntil := d.ptimer k + d.ebbWin k }).ecnt k 21 1 none
      else d
    | none => d
/-- SHED_NAK (R498). -/
def execShedNak (s : SubId) (m : EbbMsg) (st : State) : Host.Outcome State Fault Refusal := onDev (shedNakRx s.key m) st

/-- 1,000 ticks: more than hi_pct percent of the present capacity wakes a reduced sub-port (R500). -/
def rateWindowEnd (k : Nat) (d : Dev) : Dev :=
  let i := portIsle (k / 4)
  let d := d.reach i ((d.sub k).rateFrom + 1000)
  let s := d.sub k
  let cap := s.lanes * 125 * 1000 * pct (bits (d.ebbCtl k) 22 16)
  let d' := d.setSub k { s with rateFrom := d.timer i, rateTx := 0, rateRx := 0 }
  if cap < s.rateTx * 100 ∨ cap < s.rateRx * 100 ∨ d.txDeep k = true then d'.wakeStart k else d'
/-- EBB_RATE_WINDOW (R500). -/
def execEbbRateWindow (s : SubId) (st : State) : Host.Outcome State Fault Refusal := onDev (rateWindowEnd s.key) st

/-- WAKE (R500): answered always; during a shed it takes effect once the shed is aligned. -/
def wakeRx (k : Nat) (m : EbbMsg) : Dev → Dev :=
  ebbMsg k m fun d =>
    let d := (d.ebbOut k 6 m.seq.toNat m.lanes.toNat 0).updSub k fun s => { s with req := none }
    let s := d.sub k
    match s.hold with
    | some h => if h.wake then d else d.setSub k { s with wakeNext := true }
    | none => if s.lanes = d.fullLanes k then d else d.ebbHold k (d.fullLanes k) true
/-- WAKE (R500). -/
def execWake (s : SubId) (m : EbbMsg) (st : State) : Host.Outcome State Fault Refusal := onDev (wakeRx s.key m) st

/-- WAKE_ACK to the request that stands (R500). -/
def wakeAckRx (k : Nat) (m : EbbMsg) : Dev → Dev :=
  ebbMsg k m fun d =>
    match (d.sub k).wakeReq with
    | some r => if r.seq = m.seq.toNat then (d.updSub k fun s => { s with wakeReq := none }).ebbHold k r.lanes true else d
    | none => d
/-- WAKE_ACK (R500). -/
def execWakeAck (s : SubId) (m : EbbMsg) (st : State) : Host.Outcome State Fault Refusal := onDev (wakeAckRx s.key m) st

/-- An end falls back (R502): the sub-port retrains, which takes its link down; after three failures in a row ebb is
cleared on it. -/
def Dev.fallBack (d : Dev) (k : Nat) : Dev :=
  let n := (d.sub k).fails + 1
  let d := ((d.subDown k).ecnt k 22 1 none).evt .pf (pEthp (k / 4)) 2
  let d := d.updSub k fun s => { s with fails := n, locked := s.locked || 3 ≤ n }
  { d with eth := { d.eth with failSub := d.eth.failSub.insert (k / 4) (k % 4) } }

/-- WAKE goes out again after 2,000 ticks, at most three times (R500, R502). -/
def wakeAgain (k : Nat) (d : Dev) : Dev :=
  match (d.sub k).wakeReq with
  | none => d
  | some r =>
    let d := d.reach (portIsle (k / 4)) (r.at_ + 2000)
    if 3 ≤ r.tries then d.fallBack k
    else (d.updSub k fun s => { s with wakeReq := some { r with tries := r.tries + 1, at_ := d.ptimer k } }).ebbOut k 5 r.seq r.lanes 0
/-- WAKE_RESEND (R502). -/
def execWakeResend (s : SubId) (st : State) : Host.Outcome State Fault Refusal := onDev (wakeAgain s.key) st

/-- Both PCS report alignment (R498 steps 3 and 4): the new lane count is in use, and rates follow it (R525). -/
def aligned (k : Nat) (d : Dev) : Dev :=
  match (d.sub k).hold with
  | none => d
  | some h =>
    let next := (d.sub k).wakeNext
    let t := d.ptimer k
    let d := (d.setLanes k h.lanes).ecnt k (if h.wake then 20 else 19) 1 none
    let d := d.updSub k fun s =>
      { s with hold := none, wakeNext := false, fails := 0, winFrom := t, winTx := 0, winRx := 0, winBad := false,
               rateFrom := t, rateTx := 0, rateRx := 0 }
    let d := d.clipRates
    if next then d.ebbHold k (d.fullLanes k) true else d
/-- EBB_ALIGNED (R498). -/
def execEbbAligned (s : SubId) (st : State) : Host.Outcome State Fault Refusal := onDev (aligned s.key) st

/-- No alignment within 100,000 ticks (R502). -/
def alignLate (k : Nat) (d : Dev) : Dev :=
  match (d.sub k).hold with
  | none => d
  | some h => (d.reach (portIsle (k / 4)) (h.since + 100000)).fallBack k
/-- EBB_ALIGN_TIMEOUT (R502). -/
def execEbbAlignTimeout (s : SubId) (st : State) : Host.Outcome State Fault Refusal := onDev (alignLate s.key) st

/-! ### Receiving (R475, R476, R485, R491) -/

/-- EtherType or UDP port of a kind-2 pair equals its key. -/
def kind2Match (w : Nat) (e : EthView) (ip : Option IpView) : Bool :=
  if bit w 13 then (ip.bind (·.udp)) == some (bits w 31 16) else e.etype == bits w 31 16

/-- The queue pair that a frame goes to (R491, R514): the lowest matching one of kind 2; else, for a transport frame of
a partition, the one that its flow ranks. -/
def Dev.qpFor (d : Dev) (k : Nat) (e : EthView) (ip : Option IpView) : Option Nat :=
  let port := k / 4
  let vidOk (q : Nat) : Bool := let w := d.qpMatch port q; bit w 12 || bits w 11 0 == e.vid
  match (d.qpsOn k 2).find? fun q => vidOk q && kind2Match (d.qpMatch port q) e ip with
  | some q => some q
  | none =>
    match ip with
    | none => none
    | some p =>
      if p.udp = some (bits (d.reg pFabt 0x04C) 15 0) then
        let part := fldBE p.payload 3 1
        let l := (d.qpsOf k part).filter vidOk
        if l.isEmpty then none else l[(fldBE p.payload 4 2 ^^^ fldBE p.payload 0x10 2) % l.length]?
      else none

/-- The queue pair is about to change owner: R131 step 2 has passed (R494). -/
def Dev.qpLeaving (d : Dev) (port q : Nat) : Bool :=
  d.parts.commit.state == .applying &&
  (List.range 16).any fun n => qpIn (d.tw n (12 + port)) q != qpIn (d.parts.staged.get 0#32 (32 * n + 12 + port)).toNat q

/-- Steps 5 to 9 of R475. -/
def Dev.deliverFrame (d : Dev) (k : Nat) (b : List Byte) : Dev :=
  let port := k / 4
  let e := ethView b
  let ip := ipView e
  let len := b.length + 4
  if !d.daOk k (b.take 6) then d.ecnt k 9 1 none
  else if ip.any (fun p => p.udp == some (bits (d.reg pFabt 0x04C) 15 0) && fldBE p.payload 3 1 == 255) then d.ecnt k 17 1 none
  else if ip.any (fun p => p.frag == some (bits (d.reg pFabt 0x04C) 15 0)) then d.cnt .pf pFabt 11 1
  else
    match d.qpFor k e ip with
    | none => d.ecnt k 10 1 none
    | some q =>
      let own := d.qpOwner port q
      let used := ((d.sub k).rx.map (·.len)).foldl (· + ·) 0
      if d.qpLeaving port q then d.ecnt k 13 1 none
      else if d.rxShare k < used + len then d.ecnt k 11 1 own
      else
        let pri := e.pcp.getD (bits (d.reg (pEthp port) 0x048) 20 18)
        let w := d.reg (pEthp port) 0x148
        let mark := bit w 16 && ip.any (fun p => p.ecn == 1 || p.ecn == 2) && 1024 * bits w 15 0 ≤ d.rxOcc k pri
        let d := if mark then d.ecnt k 12 1 own else d
        let d := (d.ecnt k 0 1 own).ecnt k 1 len own
        let d := d.updSub k fun s => { s with rx := s.rx ++ [⟨pri, q, len⟩] }
        d.pfcCheck k pri

/-- An ebb message carried by a frame (R495): 46 bytes after the EtherType. -/
def ebbFrame (k : Nat) (b : List Byte) (d : Dev) : Dev :=
  let p := b.drop 14
  let type := fld p 3 1
  let m : EbbMsg :=
    { src := BitVec.ofNat 48 (fldBE b 6 6), seq := BitVec.ofNat 16 (fldBE p 4 2), lanes := BitVec.ofNat 8 (fld p 6 1)
      flags := BitVec.ofNat 8 (fld p 7 1)
      clean := fldBE p 0 2 == 0x4542 && fld p 2 1 == 1 && 1 ≤ type && type ≤ 6 && zeros p 8 38 &&
        (if type = 1 then fld p 7 1 < 2 else fld p 7 1 == 0) }
  match type with
  | 1 => capRx k m d
  | 2 => shedReqRx k m d
  | 3 => shedAckRx k m d
  | 4 => shedNakRx k m d
  | 5 => wakeRx k m d
  | 6 => wakeAckRx k m d
  | _ => ebbMsg k m id d

/-- A received frame (R475); length counts from the destination address through the FCS (R474). -/
def frameRx (k : Nat) (f : RxFrame) (d : Dev) : Dev :=
  let len := f.bytes.length + 4
  let maxLen := Nat.max 1518 (Nat.min 9216 (bits (d.reg (pEthp (k / 4)) 0x048) 13 0))
  if (d.sub k).lanes = 0 then d
  else
    let d := d.updSub k fun s => { s with winRx := s.winRx + len, rateRx := s.rateRx + len }
    if !f.fcsOk then d.ecnt k 4 1 none
    else if f.fecBad then d.ecnt k 8 1 none
    else if len < 64 then d.ecnt k 5 1 none
    else if maxLen < len then d.ecnt k 6 1 none
    else if fldBE f.bytes 12 2 = 0x8808 then
      if fldBE f.bytes 14 2 = 0x0101 then
        pfcRx k (fldBE f.bytes 16 2 % 256) ((List.range 8).map fun i => fldBE f.bytes (18 + 2 * i) 2) d
      else d.ecnt k 16 1 none
    else if beNat (f.bytes.take 6) = 0x0180C200000E ∧ fldBE f.bytes 12 2 = 0x88CC then d.ecnt k 17 1 none
    else if beNat (f.bytes.take 6) = 0x0180C200000E ∧ fldBE f.bytes 12 2 = 0x88B6 then ebbFrame k f.bytes d
    else d.deliverFrame k f.bytes
/-- FRAME_RECEIVE (R475). -/
def execFrameReceive (s : SubId) (f : RxFrame) (st : State) : Host.Outcome State Fault Refusal := onDev (frameRx s.key f) st

/-! ### Transmitting (R486–R488) -/

/-- A round of the deficit round robin: the priority whose turn it is, whether its quantum was added, deficits. -/
def drr (wt : Nat → Nat) (hd : Nat → Option Nat) : Nat → Nat → SMap Nat → Option (Nat × Nat × SMap Nat)
  | 0, _, _ => none
  | n + 1, turn, df =>
    let p := turn % 8
    match hd p with
    | none => drr wt hd n ((p + 1) % 8) (df.erase p)
    | some len =>
      let c := df.get 0 p + if turn < 8 then wt p else 0
      if len ≤ c then some (p, 8 + p, df.put 0 p (c - len))
      else drr wt hd n ((p + 1) % 8) (df.put 0 p c)

/-- The next queue pair in turn within a priority (R487), and its oldest frame. -/
def turnOf (items : List TxItem) (last : Option Nat) : Option TxItem :=
  let qs := items.filterMap (·.qp)
  let up := qs.filter fun q => match last with | some l => decide (l < q) | none => true
  let lst := if up.isEmpty then qs else up
  match lst with
  | [] => none
  | q :: rest => let m := rest.foldl Nat.min q; items.find? fun (x : TxItem) => x.qp == some m

/-- The checksum of IPv4 and UDP (R508). -/
def inetSum (b : List Byte) : Nat :=
  let s := ((chunksOf 2 b.length b).map fun w => fldBE (padTo 2 w) 0 2).foldl (· + ·) 0
  if s = 0 then 0xFFFF else 0xFFFF - ((s - 1) % 0xFFFF + 1)

/-- A UDP datagram with its checksum, over IPv4 or IPv6 (R508). -/
def TxItem.udp (x : TxItem) (sport : Nat) : List Byte :=
  let n := 8 + x.payload.length
  let head := beBytes 2 sport ++ beBytes 2 x.port ++ beBytes 2 n
  let pseudo := if x.ipv6 then x.src ++ x.dst ++ beBytes 4 n ++ beBytes 4 17 else x.src.drop 12 ++ x.dst.drop 12 ++ beBytes 2 17 ++ beBytes 2 n
  let c := inetSum (pseudo ++ head ++ zbytes 2 ++ x.payload)
  head ++ beBytes 2 (if c = 0 then 0xFFFF else c) ++ x.payload

/-- The IP header, with DF over IPv4 (R508). -/
def TxItem.ip (x : TxItem) (ttl id label : Nat) : List Byte :=
  let n := 8 + x.payload.length
  if x.ipv6 then beBytes 4 (6 * 2 ^ 28 + x.tos * 2 ^ 20 + label) ++ beBytes 2 n ++ beBytes 1 17 ++ beBytes 1 ttl ++ x.src ++ x.dst
  else
    let a := beBytes 1 0x45 ++ beBytes 1 x.tos ++ beBytes 2 (20 + n) ++ beBytes 2 id ++ beBytes 2 0x4000 ++ beBytes 1 ttl ++ beBytes 1 17
    let b := x.src.drop 12 ++ x.dst.drop 12
    a ++ beBytes 2 (inetSum (a ++ zbytes 2 ++ b)) ++ b

/-- The bytes of a frame, from the sub-port's source address (R488, R492, R508). Bits 47 to 0 of open are the destination
address, 55 to 48 the time to live, 71 to 56 the IPv4 identification, 91 to 72 the IPv6 flow label, 107 to 92 the UDP source
port, which the spec does not give. -/
def TxItem.wire (x : TxItem) (mac open_ : Nat) : List Byte :=
  beBytes 6 (bits open_ 47 0) ++ beBytes 6 mac ++
  (match x.vid with | some v => beBytes 2 0x8100 ++ beBytes 2 (x.pri * 8192 + v) | none => []) ++
  beBytes 2 (if x.ipv6 then 0x86DD else 0x0800) ++ x.ip (bits open_ 55 48) (bits open_ 71 56) (bits open_ 91 72) ++ x.udp (bits open_ 107 92)

/-- Put a frame on the wire. -/
def Dev.sendFrame (d : Dev) (k mac : Nat) (x : TxItem) : Dev :=
  let s := d.sub k
  let (open_, d) := d.freeBits 70 108
  let d := d.setSub k { s with tx := s.tx.eraseIdx (s.tx.findIdx (· == x)), winTx := s.winTx + x.len, rateTx := s.rateTx + x.len }
  let d := d.put (.frame (SubId.ofKey k) (x.wire mac open_.toNat))
  let own := if x.part < 16 then some x.part else none
  if x.qp.isNone then d.ecnt k 18 1 none else (d.ecnt k 2 1 own).ecnt k 3 x.len own

/-- The sub-port sends one frame, if it may: frames of firmware first, then by deficit round robin. -/
def frameTx (k : Nat) (d : Dev) : Dev :=
  let s := d.sub k
  match if s.lanes = 0 ∨ s.hold.isSome then none else d.srcAddr k with
  | none => d
  | some src =>
    let adm := admitted (d.txShare k) s.tx
    match adm.find? fun (x : TxItem) => x.qp.isNone with
    | some x => d.sendFrame k src x
    | none =>
      let wrr (p : Nat) : Nat :=
        256 * Nat.max 1 (bits (d.reg (pEthp (k / 4)) (if p < 4 then 0x150 else 0x154)) (8 * (p % 4) + 7) (8 * (p % 4)))
      let now := d.ptimer k
      let pick (p : Nat) : Option TxItem :=
        if (s.pause.find? p).any fun t => decide (now < t) then none
        else turnOf (adm.filter fun (x : TxItem) => x.pri == p) (s.lastQp.find? p)
      match drr wrr (fun p => (pick p).map (·.len)) 400 s.turn s.deficit with
      | none => d
      | some (p, turn, df) =>
        match pick p with
        | none => d
        | some x =>
          (d.setSub k { s with turn := turn, deficit := df, lastQp := s.lastQp.insert p (x.qp.getD 0) }).sendFrame k src x
/-- FRAME_TRANSMIT (R487). -/
def execFrameTransmit (s : SubId) (st : State) : Host.Outcome State Fault Refusal := onDev (frameTx s.key) st

/-! ### Registers with an action -/

/-- ETHP_MODE: outside Disabled dropped; a change of split clears enable on every queue pair (R493). -/
def modeWrite (v : View) (port : Nat) (value : Word) (d : Dev) : Dev :=
  d.privOnly v (pEthp port) 0x040 fun d =>
    if d.bst (pEthp port) ≠ .disabled then d.err .pf (pEthp port) 0x0003
    else
      let d' := d.wrReg .pf (pEthp port) 0x040 value
      if bits (d'.reg (pEthp port) 0x040) 1 0 = bits (d.reg (pEthp port) 0x040) 1 0 then d'
      else
        let d := (List.range 4).foldl (fun d i => d.subDown (subKey port i)) d'
        (List.range 64).foldl (fun d q => d.setReg (pEthp port) (0x400 + 16 * q) (d.qpCfg port q / 2 * 2)) d
/-- ETHP_MODE_WRITE (R493). -/
def execEthpModeWrite (v : View) (port : Fin 12) (value : Word) (s : State) : Host.Outcome State Fault Refusal :=
  onDev (modeWrite v port.val value) s

/-- The view may write a queue pair's registers: the privileged one, or its owner's (R489). -/
def Dev.qpReach (d : Dev) (v : View) (port q : Nat) : Bool :=
  match v with
  | .pf => true
  | .vf n => d.qpOwner port q == some n.val

/-- A write to a register of queue pair q at offset +r (0 CFG, 4 MATCH, 8 BIND): of an enabled pair only a write that
clears enable is taken (R503); enable = 1 is judged by R493. -/
def qpWrite (v : View) (port q r : Nat) (value : Word) (d : Dev) : Dev :=
  let p := pEthp port
  let off := 0x400 + 16 * q + r
  d.through v p off fun d =>
  if !d.qpReach v port q then
    (match v with | .pf => d | .vf n => d.violR n p off)
  else
    let clears := r = 0 ∧ !bit value.toNat 0
    if bit (d.qpCfg port q) 0 ∧ !(decide clears) then d.err v p 0x0003
    else if r = 0 ∧ bit value.toNat 0 then
      let kind := bits value.toNat 2 1
      let own := d.qpOwner port q
      let strm := bits (d.qpBind port q) 5 0
      let bad := kind = 0 ∨ kind = 3 ∨ own = none ∨ (kind = 2 ∧ (47 < strm ∨ d.strmOwner strm ≠ own)) ∨
        splitSubs (d.reg p 0x040) ≤ bits value.toNat 5 4
      if bad then d.err v p 0x0101 else (d.wrReg v p off value).runFlows
    else d.wrReg v p off value

/-- QP_ENABLE (R493): a write of ETHP_QPq_CFG with enable 1. -/
def execQpEnable (v : View) (port : Fin 12) (q : Fin 64) (value : Word) (s : State) : Host.Outcome State Fault Refusal :=
  onDev (qpWrite v port.val q.val 0 (value ||| 1)) s

/-- ETHP_EBB_CTL: a write clears the failure lockout (R502). -/
def ebbCtlWrite (v : View) (port : Nat) (value : Word) (d : Dev) : Dev :=
  d.privOnly v (pEthp port) 0x160 fun d =>
    (List.range 4).foldl (fun d i => d.updSub (subKey port i) fun s => { s with locked := false, fails := 0 })
      (d.wrReg .pf (pEthp port) 0x160 value)
/-- EBB_CTL_WRITE (R502). -/
def execEbbCtlWrite (v : View) (port : Fin 12) (value : Word) (s : State) : Host.Outcome State Fault Refusal :=
  onDev (ebbCtlWrite v port.val value) s

end Sys2Proof.Machine
end

