-- ==== Sys2Proof/Machine/Lend.lean ====
section
/-!
DEFINITION. Lending and reclaim of HBM (R322–R332): leases borrowed and lent, and the messages of R324.
-/

namespace Sys2Proof.Machine

/-- The body of a lending message (R324). -/
def lendBody (code part lease first frames grace : Nat) : List Byte :=
  leBytes 1 code ++ leBytes 1 part ++ zbytes 2 ++ leBytes 4 lease ++ leBytes 4 first ++ leBytes 4 frames ++
  leBytes 4 grace ++ zbytes 4

/-- Send a lending message as a control message of class 2, at device level (R324, R519). -/
def Dev.lendSend (d : Dev) (dev code part lease first frames grace : Nat) : Dev :=
  (d.put (.lend dev code part lease first frames grace)).fabSend dev 255 2 3 (lendBody code part lease first frames grace)

/-! ### The borrower -/

/-- Places for T3 pages in the frames that a partition's leases hold: device, lease, frame, offset in the frame. -/
def Dev.t3Slots (d : Dev) (n : Nat) (big : Bool) : List (Nat × Nat × Nat × Nat) :=
  (d.tier.leases.filter fun (l : Lease) => l.part.val == n).flatMap fun (l : Lease) =>
    (l.frames.filter fun f => !l.reclaim.contains f && !l.dealt.contains f).flatMap fun f =>
      let used : List (Nat × Bool) := d.tier.pages.filterMap fun (e : Nat × Pg) => match e.2.home with
        | .t3 a i g s => if a = l.dev ∧ i = l.id ∧ g = f then some (s, e.2.big) else none
        | _ => none
      if big then (if used.isEmpty then [(l.dev, l.id, f, 0)] else [])
      else if used.any (·.2) then []
      else ((List.range 32).filter fun s => used.all fun u => u.1 ≠ s * 65536).map fun s => (l.dev, l.id, f, s * 65536)

/-- The frames that a run of pages still lacks. -/
def Dev.t3Short (d : Dev) (n : Nat) (big : Bool) (pages : Nat) : Nat :=
  let have_ := (d.t3Slots n big).length
  if big then pages - have_ else cdiv (pages - have_) 32

/-- The lenders to ask, by index: valid entries of LEND_PEERi from i up. -/
def Dev.peersFrom (d : Dev) (i : Nat) : List (Nat × Nat) :=
  ((List.range 16).filter fun j => i ≤ j && bit (d.reg pLend (0x080 + 4 * j)) 16).map fun j =>
    (j, bits (d.reg pLend (0x080 + 4 * j)) 15 0)

/-- Ask the next lender for frames; with none left the wait ends (R325). -/
def Dev.askLender (d : Dev) (n from_ want : Nat) : Dev :=
  match (d.peersFrom from_).head? with
  | none => d.updTier fun t => { t with wait := none }
  | some (i, dev) =>
    (d.updTier fun t => { t with wait := some ⟨partFin n, i, dev, want, d.timer ioIsle + 100000⟩ }).lendSend dev 1 n 0 0 want 0

/-- A request goes unanswered for 1 ms: the next lender is asked (R325). -/
def reqTimeout (p : Fin 16) (d : Dev) : Dev :=
  match d.tier.wait with
  | some w => if w.part = p then (d.reach ioIsle w.by_).askLender p.val (w.peer + 1) w.want else d
  | none => d
/-- LEASE_REQ_TIMEOUT (R325). -/
def execLeaseReqTimeout (p : Fin 16) (s : State) : Host.Outcome State Fault Refusal := onDev (reqTimeout p) s

/-- A grant: the frames join the partition's leases, and the next lender is asked for what is still missing; a late
one is released at once (R326). -/
def grantRx (m : LendMsg) (d : Dev) : Dev :=
  let n := m.frames.toNat
  let dev := m.fromDev.toNat
  let due : Bool := match d.tier.wait with
    | some w => w.part == m.part && w.dev == dev
    | none => false
  match d.tier.wait, due with
  | some w, true =>
    let d := if n = 0 then d
      else (d.updTier fun t => { t with leases := t.leases ++ [⟨dev, m.lease.toNat, m.part, List.range n, [], [], false⟩] }).cntP pLend 6 n
        (some m.part.val)
    if w.want ≤ n then d.updTier fun t => { t with wait := none } else d.askLender m.part.val (w.peer + 1) (w.want - n)
  | _, _ => if n = 0 then d else (d.lendSend dev 4 m.part.val m.lease.toNat 0 n 0).cntP pLend 7 1 (some m.part.val)
/-- LEASE_GRANT (R326). -/
def execLeaseGrant (m : LendMsg) (s : State) : Host.Outcome State Fault Refusal := onDev (grantRx m) s

/-- The lease that a message names. -/
def Dev.lease? (d : Dev) (dev id : Nat) : Option Lease := d.tier.leases.find? fun (l : Lease) => l.dev == dev && l.id == id
def Dev.updLease (d : Dev) (dev id : Nat) (f : Lease → Lease) : Dev :=
  d.updTier fun t =>
    { t with leases := (t.leases.map fun (l : Lease) => if l.dev = dev ∧ l.id = id then f l else l).filter fun (l : Lease) =>
        !l.frames.isEmpty }

/-- The first run of consecutive numbers of a set, at most k of them. -/
def firstRun (k : Nat) : SSet → List Nat
  | [] => []
  | x :: xs => match k with
    | 0 => []
    | j + 1 => match xs with
      | y :: _ => if y = x + 1 then x :: firstRun j xs else [x]
      | [] => [x]

/-- Send RELEASE for each full run of 16 frames dealt with, and for the rest once no frame is left to deal with
(R330). -/
def Dev.release (dev id : Nat) : Nat → Dev → Dev
  | 0, d => d
  | fuel + 1, d =>
    match d.lease? dev id with
    | none => d
    | some l =>
      let run := firstRun 16 l.dealt
      if run.isEmpty ∨ (run.length < 16 ∧ !l.reclaim.isEmpty ∧ l.dealt.length = run.length) then d
      else
        let d := d.lendSend dev 4 l.part.val id (run.headD 0) run.length 0
        Dev.release dev id fuel (d.updLease dev id fun l =>
          { l with frames := l.frames.filter fun f => !run.contains f, dealt := l.dealt.filter fun f => !run.contains f })

/-- The frames under reclaim that hold no page any more are dealt with. -/
def Dev.dealFrames (d : Dev) (dev id : Nat) : Dev :=
  match d.lease? dev id with
  | none => d
  | some l =>
    let free := l.reclaim.filter fun f => (d.leasePages dev id fun g => g == f).isEmpty
    let d := d.updLease dev id fun l =>
      { l with reclaim := l.reclaim.filter (fun f => !free.contains f), dealt := free.foldl SSet.add l.dealt }
    Dev.release dev id (l.frames.length + 1) d

/-- Places for a page of a lease under reclaim in the partition's other leases (R330 step 1). -/
def Dev.t3Other (d : Dev) (n : Nat) (big : Bool) (dev id : Nat) : List (Nat × Nat × Nat × Nat) :=
  (d.t3Slots n big).filter fun (r : Nat × Nat × Nat × Nat) => !(r.1 == dev && r.2.1 == id)

/-- Ask the lenders for frames in place of a lease's frames under reclaim. -/
def Dev.askFor (d : Dev) (l : Lease) : Dev :=
  (d.updLease l.dev l.id fun l => { l with asked := true }).askLender l.part.val 0
    (l.reclaim.length - (d.t3Other l.part.val true l.dev l.id).length)

/-- RECLAIM arrives: the frames named are to be left; when the partition's other leases cannot take the pages, the
lenders are asked, once no other request awaits its answer (R330). -/
def reclaimRx (m : LendMsg) (d : Dev) : Dev :=
  let dev := m.fromDev.toNat
  let id := m.lease.toNat
  match d.lease? dev id with
  | none => d
  | some l =>
    let hit := l.frames.filter fun f => m.first.toNat ≤ f && f < m.first.toNat + m.frames.toNat && !l.dealt.contains f
    let d := (d.updLease dev id fun l => { l with reclaim := hit.foldl SSet.add l.reclaim, asked := false }).cntP pLend 5 1
      (some l.part.val)
    let d := d.dealFrames dev id
    match d.lease? dev id with
    | none => d
    | some l =>
      if l.reclaim.length ≤ (d.t3Other l.part.val true dev id).length ∨ d.tier.wait.isSome then d else d.askFor l
/-- RECLAIM (R330). -/
def execReclaim (m : LendMsg) (s : State) : Host.Outcome State Fault Refusal := onDev (reclaimRx m) s

/-- Put a page at a new home with the bytes that it held: dirty cached sectors take the place of the copied ones. -/
def Dev.rehome (d : Dev) (n k : Nat) (g : Pg) (h : Home) (data : List Byte) : Dev :=
  let ps := d.pchsOf n
  match h with
  | .t1 off =>
    let f := d.tier.frames.find? k
    let copy := (enumFrom 0 (chunksOf 256 (data.length + 1) (padTo g.size data)))
    let d := copy.foldl (fun (d : Dev) (e : Nat × List Byte) => d.wr (t1Place ps (off + 256 * e.1)) e.2) d
    let d := match f with
      | none => d
      | some f => f.dirty.foldl (fun (d : Dev) s => (List.range 16).foldl (fun (d : Dev) i =>
          let a := s * 4096 + 256 * i
          let src := t1Place ps (f.slot + a)
          d.wrBad (t1Place ps (off + a)) (d.rd src 256) (d.badOffsets src 256)) d) d
    (d.dropFrame k).setPage k { g with home := h }
  | _ =>
    let d := (enumFrom 0 (chunksOf 4096 (data.length + 1) (padTo g.size data))).foldl (fun (d : Dev) (e : Nat × List Byte) =>
      match h with
      | .t3 a l f s => d.put (.t3Write a l f (s + 4096 * e.1) e.2)
      | _ => d) d
    d.setPage k { g with home := h }

/-- The copy of a page in a frame under reclaim completes: to a frame of another lease, of those held or of a new one
that the lenders are asked for, else to T1 if its quota permits, else it is dropped (R330). While a lender is asked
for frames it waits. -/
def relocated (p va : Nat) (data : List Byte) (d : Dev) : Dev :=
  match d.page? p va with
  | none => d
  | some (b, g) =>
    match g.home with
    | .t3 dev id f _ =>
      match d.lease? dev id with
      | none => d
      | some l =>
        if !l.reclaim.contains f then d
        else
          let k := pgKey p b
          match (d.t3Other p g.big dev id).head? with
          | some (a, i, fr, s) => ((d.rehome p k g (.t3 a i fr s) data).cntP pTier 10 1 (some p)).dealFrames dev id
          | none =>
            if d.tier.wait.isSome then d
            else if !l.asked ∧ d.peersFrom 0 ≠ [] then d.askFor l
            else if d.usage p 1 + g.size ≤ d.quota p 1 then
              match d.t1Alloc p g.size with
              | some (off, d) => (((d.t1Zero (d.pchsOf p) off g.size).rehome p k g (.t1 off) data).cntP pTier 10 1 (some p)).dealFrames dev id
              | none => d
            else (d.dropPage k 11).dealFrames dev id
    | _ => d
/-- T3_PAGE_RELOCATED (R330). -/
def execT3PageRelocated (p : Fin 16) (va : Nat) (data : List Byte) (s : State) : Host.Outcome State Fault Refusal :=
  onDev (relocated p.val va data) s

/-- REVOKED: the pages on the frames are dropped (R331). -/
def revokedRx (m : LendMsg) (d : Dev) : Dev :=
  let dev := m.fromDev.toNat
  let id := m.lease.toNat
  let hit (f : Nat) : Bool := m.first.toNat ≤ f && f < m.first.toNat + m.frames.toNat
  let d := (d.leasePages dev id hit).foldl (fun (d : Dev) k => d.dropPage k 12) d
  d.updLease dev id fun l =>
    { l with frames := l.frames.filter (fun f => !hit f), reclaim := l.reclaim.filter (fun f => !hit f)
             dealt := l.dealt.filter (fun f => !hit f) }
/-- REVOKED (R331). -/
def execRevoked (m : LendMsg) (s : State) : Host.Outcome State Fault Refusal := onDev (revokedRx m) s

/-! ### The lender -/

/-- Frames of marked, unassigned pseudo-channels that nobody holds (R322): pseudo-channel × 1,152 + frame. -/
def Dev.lendable (d : Dev) : List Nat :=
  let taken := d.tier.lent.flatMap fun (l : Lent) => l.frames.map (·.2)
  ((List.range 256).filter fun k => bit (d.reg pLend (0x040 + 4 * (k / 32))) (k % 32) && (d.pchOwner k).isNone).flatMap fun k =>
    ((List.range 1152).map fun f => k * 1152 + f).filter fun x => !taken.contains x

/-- A lender may grant fewer frames than were asked for: it grants what it has (R325). -/
def leaseReqRx (m : LendMsg) (d : Dev) : Dev :=
  let fs := d.lendable.take m.frames.toNat
  let id := d.tier.nextLease
  if fs.isEmpty then (d.cnt .pf pLend 1 1).lendSend m.fromDev.toNat 2 m.part.val 0 0 0 0
  else
    let d := d.updTier fun t =>
      { t with nextLease := t.nextLease + 1
               lent := t.lent ++ [⟨id, m.fromDev.toNat, m.part.val, enumFrom 0 fs, [], none⟩] }
    (d.cnt .pf pLend 0 1).lendSend m.fromDev.toNat 2 m.part.val id 0 fs.length 0
/-- LEASE_REQ (R325). -/
def execLeaseReq (m : LendMsg) (s : State) : Host.Outcome State Fault Refusal := onDev (leaseReqRx m) s

/-- Cut a set into runs of consecutive numbers: first and length. -/
def runsOf : SSet → List (Nat × Nat)
  | [] => []
  | x :: xs => match runsOf xs with
    | (y, n) :: rest => if y = x + 1 then (x, n + 1) :: rest else (x, 1) :: (y, n) :: rest
    | [] => [(x, 1)]

/-- LEND_GRACE in ticks. -/
def Dev.graceTicks (d : Dev) : Nat := 100000 * Nat.max 1 (Nat.min 10000 (d.reg pLend 0x060))

/-- Start the reclaim of the lent frames that a test of the pseudo-channel chooses: RECLAIM for each run, and the
deadline on the lender's I/O die timer, at most limit ticks from now (R327, R328). -/
def Dev.startReclaim (d : Dev) (pick : Nat → Bool) (limit : Nat) : Dev :=
  let g := Nat.min limit d.graceTicks
  d.tier.lent.foldl (fun (d : Dev) (l : Lent) =>
    let hit : SSet := (l.frames.filter fun (f : Nat × Nat) => pick (f.2 / 1152) && !l.reclaim.contains f.1).map (·.1)
    if hit.isEmpty then d
    else
      let by_ := d.timer ioIsle + g
      let d := d.updTier fun t => { t with lent := t.lent.map fun (x : Lent) =>
        if x.id = l.id then
          { x with reclaim := hit.foldl SSet.add x.reclaim
                   deadline := some (match x.deadline with | some b => Nat.min b by_ | none => by_) }
        else x }
      (runsOf hit).foldl (fun (d : Dev) (r : Nat × Nat) => (d.lendSend l.dev 3 l.part l.id r.1 r.2 g).cnt .pf pLend 2 1) d) d

/-- Every lease lent is reclaimed: before Standby or Dormant (R327, R626). -/
def Dev.reclaimAll (d : Dev) : Dev := d.startReclaim (fun _ => true) d.graceTicks

/-- Take frames out of a lease lent; one without frames ends. -/
def Dev.takeLent (d : Dev) (id : Nat) (hit : Nat → Bool) : Dev :=
  let cut (l : Lent) : Lent :=
    let r := l.reclaim.filter fun f => !hit f
    { l with frames := l.frames.filter (fun (f : Nat × Nat) => !hit f.1), reclaim := r
             deadline := if r.isEmpty then none else l.deadline }
  let all := (d.tier.lent.map fun (l : Lent) => if l.id = id then cut l else l).filter fun (l : Lent) => !l.frames.isEmpty
  d.updTier fun t => { t with lent := all }

/-- RELEASE from the borrower: the frames are free again (R326, R329). -/
def releaseRx (m : LendMsg) (d : Dev) : Dev :=
  match d.tier.lent.find? fun (l : Lent) => l.id == m.lease.toNat && l.dev == m.fromDev.toNat with
  | none => d
  | some l =>
    let hit (f : Nat) : Bool := m.first.toNat ≤ f && f < m.first.toNat + m.frames.toNat
    (d.takeLent l.id hit).cnt .pf pLend 3 (l.frames.filter fun (f : Nat × Nat) => hit f.1).length
/-- RELEASE (R326). -/
def execRelease (m : LendMsg) (s : State) : Host.Outcome State Fault Refusal := onDev (releaseRx m) s

/-- The deadline: every frame still held is revoked, then zeroed (R331). -/
def deadline (id : Nat) (d : Dev) : Dev :=
  match d.tier.lent.find? fun (l : Lent) => l.id == id with
  | none => d
  | some l =>
    match l.deadline with
    | none => d
    | some t =>
      let d := d.reach ioIsle t
      let held := l.frames.filter fun (f : Nat × Nat) => l.reclaim.contains f.1
      let d := (runsOf (held.map (·.1))).foldl (fun (d : Dev) (r : Nat × Nat) => d.lendSend l.dev 5 l.part id r.1 r.2 0) d
      let d := held.foldl (fun (d : Dev) (f : Nat × Nat) => d.zeroLent f.2) d
      (d.takeLent id fun f => l.reclaim.contains f).cnt .pf pLend 4 held.length
/-- RECLAIM_DEADLINE (R331). -/
def execReclaimDeadline (lease : Nat) (s : State) : Host.Outcome State Fault Refusal := onDev (deadline lease) s

/-- LEND_PCHs: a bit set for an owned pseudo-channel is ignored with code 0x0101; clearing a bit starts the reclaim of
what is lent from it (R322, R327). -/
def pchsWrite (v : View) (s : Nat) (value : Word) (d : Dev) : Dev :=
  d.privOnly v pLend (0x040 + 4 * s) fun d =>
    let old := d.reg pLend (0x040 + 4 * s)
    let owned := (List.range 32).filter fun p => bit value.toNat p && (d.pchOwner (32 * s + p)).isSome
    let new := ((List.range 32).filter fun p => bit value.toNat p && !owned.contains p).foldl (fun w p => w + 2 ^ p) 0
    let d := if owned.isEmpty then d else d.err .pf pLend 0x0101
    let d := d.setReg pLend (0x040 + 4 * s) new
    d.startReclaim (fun k => k / 32 == s && bit old (k % 32) && !bit new (k % 32)) d.graceTicks
/-- LEND_PCHS_WRITE (R327). -/
def execLendPchsWrite (v : View) (stack : Fin 8) (value : Word) (s : State) : Host.Outcome State Fault Refusal :=
  onDev (pchsWrite v stack.val value) s

/-- A partition's leases are released whole (R309). -/
def Dev.releaseAll (d : Dev) (n : Nat) : Dev :=
  let mine := d.tier.leases.filter fun (l : Lease) => l.part.val == n
  let d := mine.foldl (fun (d : Dev) (l : Lease) =>
    (runsOf l.frames).foldl (fun (d : Dev) (r : Nat × Nat) => d.lendSend l.dev 4 n l.id r.1 r.2 0) d) d
  d.updTier fun t => { t with leases := t.leases.filter fun (l : Lease) => l.part.val != n }

end Sys2Proof.Machine
end

