-- ==== Sys2Proof/Machine/Dma.lean ====
section
/-!
DEFINITION. The DMA engines (R563–R576): channels and their rings, descriptors and their refusal, transfers as the host
carries them, bus errors with the stop of all channels, restart, and maintenance state.
-/

namespace Sys2Proof.Machine

def Dev.dma (d : Dev) (e : Nat) : Dmae := d.dmae.get .reset e
def Dev.updDma (d : Dev) (e : Nat) (f : Dmae → Dmae) : Dev := { d with dmae := d.dmae.upd .reset e f }
def Dev.chan (d : Dev) (e c : Nat) : Chan := (d.dma e).chans.get .reset c
def Dev.updChan (d : Dev) (e c : Nat) (f : Chan → Chan) : Dev :=
  d.updDma e fun x => { x with chans := x.chans.upd .reset c f }
def Dev.dmaCnt (d : Dev) (e k n : Nat) : Dev := d.cntP (pDmae e) k n (d.dmaeOwner e)

def Dev.chCfg (d : Dev) (e c : Nat) : Nat := d.reg (pDmae e) (0x108 + 32 * c)
/-- Entries of a channel's ring (R563). -/
def Dev.chSize (d : Dev) (e c : Nat) : Nat := 2 ^ Nat.max 3 (Nat.min 12 (bits (d.chCfg e c) 3 0))
def Dev.chBase (d : Dev) (e c : Nat) : Nat :=
  d.reg (pDmae e) (0x100 + 32 * c) + 4294967296 * d.reg (pDmae e) (0x104 + 32 * c)

/-- The function whose bus addresses the engine uses (R564, R576). -/
def Dev.dmaView (d : Dev) (e : Nat) : View := if (d.dma e).maint then .pf else ((d.dmaeOwner e).map viewOf).getD .pf

/-! ### The descriptor (R564) -/

structure Dx where
  kind : Nat
  out : Bool
  ats : Bool
  wid : Nat
  wval : Nat
  host : Nat
  dev : Nat
  len : Nat
  lines : Nat
  hs : Nat
  ds : Nat
  sig : Word
  itab : Nat
  icount : Nat
  deriving DecidableEq, Repr

def Dx.of (b : Desc) : Dx :=
  { kind := fld b 0 1, out := bit (fld b 1 1) 0, ats := bit (fld b 1 1) 1, wid := fld b 2 2, wval := fld b 4 4,
    host := fld b 8 8, dev := fld b 0x10 8, len := bits (fld b 0x18 4) 23 0, lines := fld b 0x1C 4, hs := fld b 0x20 4,
    ds := fld b 0x24 4, sig := BitVec.ofNat 32 (fld b 0x28 4), itab := fld b 0x30 8, icount := fld b 0x38 4 }

/-- The wait of a descriptor holds (R239). -/
def Dev.dmaWait (d : Dev) (x : Dx) : Bool :=
  !bit x.wid 15 || ctrHolds (d.evc.get 0#32 (0x10000 + bits x.wid 11 8 * 256 + bits x.wid 7 0)).toNat x.wval

/-- The reason to refuse a descriptor; 0 for none (R571). -/
def Dev.dmaRefusal (d : Dev) (e : Nat) (b : Desc) : Nat :=
  let x := Dx.of b
  let m := (d.dma e).maint
  firstReason
    [(0x01, 2 < x.kind || (x.kind = 2 && !m)),
     (0x03, bits (fld b 1 1) 7 2 ≠ 0 || bits x.wid 14 12 ≠ 0 || bits (fld b 0x18 4) 31 24 ≠ 0 || !zeros b 0x2C 4 ||
        !zeros b 0x3C 4 || (x.kind = 2 && x.lines ≠ 0) || sigReserved x.sig ||
        (if m then bits x.dev 63 40 ≠ 0 else bits x.dev 63 52 ≠ 0)),
     (0x04, bit x.wid 15 && (d.dmaeOwner e).isSome && d.clusterOwner (bits x.wid 11 8) ≠ d.dmaeOwner e),
     (0x04, bit x.wid 15 && (d.dmaeOwner e).isNone),
     (0x05, sigIllegal x.sig),
     (0x09, (x.kind ≠ 0 && x.len = 0) || (x.kind = 1 && x.lines % 16777216 = 0) || (x.kind = 1 && 16777215 < x.lines) ||
        (x.kind = 2 && (x.icount = 0 || 16777215 < x.icount))),
     (0x12, x.kind = 2 && x.itab % 8 ≠ 0)]

/-! ### The device side: the owner's addresses, or device physical ones in maintenance state (R576) -/

/-- The memory key of a device physical address, if a stack has the byte. -/
def physKey (a : Nat) : Option Nat := if bits a 36 0 < hbmStackBytes ∧ a < 1099511627776 then some (hbmKey (bits a 39 37) (bits a 36 0)) else none

/-- The partition whose addresses the device side uses; none in maintenance state. -/
def Dev.dmaPart (d : Dev) (e : Nat) : Option Nat := if (d.dma e).maint then none else d.dmaeOwner e

/-- How many of n bytes from a device physical address lie in its stack. -/
def physLen (a n : Nat) : Nat := Nat.min n (hbmStackBytes - bits a 36 0)

def Dev.dmaRead (d : Dev) (e a n : Nat) : Rd × Dev :=
  match d.dmaPart e with
  | some p => d.tRead p agDma a n
  | none =>
    match physKey a with
    | none => (⟨zbytes n, List.range n, true, none⟩, d)
    | some k =>
      let m := physLen a n
      (⟨d.rd k m ++ zbytes (n - m), d.badOffsets k m ++ (List.range (n - m)).map (· + m), m < n,
        (d.firstPoison k m).map fun g => a + (g - k)⟩, d)
def Dev.dmaWrite (d : Dev) (e a : Nat) (bytes : List Byte) (bad : List Nat) : Dev :=
  match d.dmaPart e with
  | some p => d.tWrite p agDma a bytes bad
  | none =>
    match physKey a with
    | none => d
    | some k => let m := physLen a bytes.length; d.wrBad k (bytes.take m) (bad.filter (· < m))
def Dev.dmaPrepare (d : Dev) (e : Nat) (wr : Bool) (a n : Nat) : Bool × Dev :=
  match d.dmaPart e with
  | some p => d.prepare p agDma wr a n
  | none => (true, d)
def Dev.dmaMark (d : Dev) (e a n : Nat) : Dev :=
  match d.dmaPart e with
  | some p => d.tMark p a n
  | none =>
    match physKey a with
    | none => d
    | some k => d.mark k (physLen a n)

/-- What a descriptor moves: host address, device address, bytes; the index table is read as it stands (R565, R566). -/
def Dev.dmaPieces (d : Dev) (e : Nat) (x : Dx) : List (Nat × Nat × Nat) :=
  if x.kind = 1 then (List.range x.lines).map fun i => (x.host + i * x.hs, x.dev + i * x.ds, x.len)
  else if x.kind = 2 then
    (List.range x.icount).map fun i => (x.host + leNat (d.dmaRead e (x.itab + 8 * i) 8).1.bytes, x.dev + i * x.len, x.len)
  else []

/-! ### Commands -/

/-- A tail doorbell (R563), checked as R551; it is taken while the engine is Halted too (R577). -/
def dmaTail (v : View) (c : ChanId) (value : Word) (d : Dev) : Dev :=
  let e := c.eng.val
  let i := c.ch.val
  d.through v (pDmae e) (0x10C + 32 * i) fun d =>
    let x := d.chan e i
    let size := d.chSize e i
    let t := bits value.toNat 11 0
    if size ≤ t ∨ (t + size - x.head) % size < (x.tail + size - x.head) % size then d.err v (pDmae e) 0x0101
    else d.updChan e i fun x => { x with tail := t }
/-- DMA_TAIL_DOORBELL (R563). -/
def execDmaTailDoorbell (v : View) (c : ChanId) (value : Word) (s : State) : Host.Outcome State Fault Refusal :=
  onDev (dmaTail v c value) s

/-- The engine takes descriptors (R577, R656). -/
def Dev.dmaRuns (d : Dev) (e : Nat) : Bool :=
  d.bst (pDmae e) == .running && !d.halt.effect && ((d.dmaeOwner e).isSome || (d.dma e).maint)

/-- The channel stops with a refused descriptor at its head (R571). -/
def Dev.dmaRefuse (d : Dev) (e i r : Nat) : Dev :=
  let d := d.updChan e i fun x => { x with stopped := true, reason := r }
  ((d.errP (pDmae e) 0x0104 (d.dmaeOwner e)).evtP (pDmae e) 2 (d.dmaeOwner e)).dmaCnt e 3 1

/-- The next descriptor of a channel starts once its wait holds (R567); a descriptor that would be refused is looked at
once every one before it is done. -/
def dmaStart (c : ChanId) (d : Dev) : Dev :=
  let e := c.eng.val
  let i := c.ch.val
  let x := d.chan e i
  let size := d.chSize e i
  let at_ := (x.head + x.run.length) % size
  if !d.dmaRuns e || !bit (d.chCfg e i) 8 || x.stopped || at_ = x.tail || size ≤ x.run.length + 1 then d
  else
    let a := d.chBase e i + 64 * at_
    match d.dmaPrepare e false a 64 with
    | (false, d) => d
    | (true, d) =>
      let (r, d) := d.dmaRead e a 64
      let why := d.dmaRefusal e r.bytes
      if why ≠ 0 then (if x.run.isEmpty then d.dmaRefuse e i why else d)
      else if !d.dmaWait (Dx.of r.bytes) then d
      else
        let d := match r.first with
          | some g => d.poisonRead (pDmae e) (if (d.dma e).maint then 2 else 1) g (d.dmaeOwner e)
          | none => d
        let d := if bit (Dx.of r.bytes).wid 15 then
            let (k, d) := d.freeNat 6
            d.dmaCnt e 6 k else d
        d.updChan e i fun x => { x with run := x.run ++ [r.bytes], abandoned := false }
/-- DMA_DESCRIPTOR_START (R567). -/
def execDmaDescriptorStart (c : ChanId) (s : State) : Host.Outcome State Fault Refusal := onDev (dmaStart c) s

/-- Write what came from the host, piece by piece. -/
def dmaIn (e : Nat) (data : List Byte) (bad : List Nat) : Nat → List (Nat × Nat × Nat) → Dev → Dev
  | _, [], d => d
  | o, x :: xs, d =>
    let d := d.dmaWrite e x.2.1 (padTo x.2.2 (data.drop o)) ((bad.filter fun b => o ≤ b && b < o + x.2.2).map (· - o))
    dmaIn e data bad (o + x.2.2) xs d

/-- Send what goes to the host, piece by piece; poison travels with the EP bit (R633). The first poisoned granule. -/
def dmaOut (e : Nat) : List (Nat × Nat × Nat) → Dev → Option Nat × Dev
  | [], d => (none, d)
  | x :: xs, d =>
    let (r, d) := d.dmaRead e x.2.1 x.2.2
    let (g, d) := dmaOut e xs (d.put (.hostWrite (d.dmaView e) x.1 r.bytes r.bad))
    (r.first.or g, d)

/-- Every piece of a descriptor can be moved: nothing has to be filled, no island sleeps. -/
def Dev.dmaAwake (d : Dev) (e : Nat) (out : Bool) (ps : List (Nat × Nat × Nat)) : Bool × Dev :=
  ps.foldl (fun (a : Bool × Dev) p => let (o, d) := a.2.dmaPrepare e (!out) p.2.1 p.2.2; (a.1 && o, d)) (true, d)

/-- Move a descriptor's data: out to the host, or in from it. -/
def Dev.dmaMove (d : Dev) (e : Nat) (out : Bool) (ps : List (Nat × Nat × Nat)) (data : List Byte) (bad : List Nat) : Dev :=
  if out then
    let (g, d) := dmaOut e ps d
    match g with
    | some g => d.poisonRead (pDmae e) (if (d.dma e).maint then 2 else 1) g (d.dmaeOwner e)
    | none => d
  else dmaIn e data bad 0 ps d

/-- The translation requests of a descriptor with ATS (R577): their number is not stated. -/
def Dev.dmaAts (d : Dev) (e : Nat) (ats : Bool) : Dev :=
  if ats then
    let (k, d) := d.freeNat 7
    d.dmaCnt e 7 k else d

/-- Every write of the channel's oldest descriptor is complete, and it signals (R568, R570). -/
def dmaDone (c : ChanId) (data : List Byte) (bad : List Nat) (d : Dev) : Dev :=
  let e := c.eng.val
  let i := c.ch.val
  match (d.chan e i).run with
  | [] => d
  | b :: rest =>
    let x := Dx.of b
    let ps := d.dmaPieces e x
    let r := d.dmaAwake e x.out ps
    if !r.1 then r.2
    else
      let n := sumN (ps.map fun (p : Nat × Nat × Nat) => p.2.2)
      let d := (((r.2.dmaMove e x.out ps data bad).dmaCnt e 0 1).dmaCnt e (if x.out then 2 else 1) n).dmaAts e x.ats
      let d := d.updChan e i fun y => { y with run := rest, head := (y.head + 1) % d.chSize e i }
      match d.dmaeOwner e with
      | some p => d.signal x.sig (partFin p) (srcDma e i)
      | none => d

/-- DMA_DESCRIPTOR_DONE (R568). -/
def execDmaDescriptorDone (c : ChanId) (data : List Byte) (bad : List Nat) (s : State) : Host.Outcome State Fault Refusal :=
  onDev (dmaDone c data bad) s

/-- Abandon what a channel has started: the device side of transfers from the host is marked (R572). -/
def Dev.dmaAbandon (e : Nat) (d : Dev) (i : Nat) : Dev :=
  let x := d.chan e i
  if x.run.isEmpty then d
  else
    let d := x.run.foldl (fun (d : Dev) b =>
      let y := Dx.of b
      if y.out then d else (d.dmaPieces e y).foldl (fun (d : Dev) p => d.dmaMark e p.2.1 p.2.2) d) d
    (d.updChan e i fun x => { x with run := [], abandoned := true }).dmaCnt e 5 x.run.length

/-- The stop of all channels, by a bus error or by containment (R572, R574). -/
def Dev.dmaHalt (d : Dev) (e ch : Nat) (toHost : Bool) (cause addr : Nat) : Dev :=
  let d := (List.range 8).foldl (Dev.dmaAbandon e) d
  let d := (d.updDma e fun x => { x with halt := (ch, toHost, cause, addr), valid := true }).toState (pDmae e) .halted
  (d.dmaCnt e 4 1).evtP (pDmae e) 1 (d.dmaeOwner e)

/-- A bus error (R572); on a Halted engine it is only counted (R577). -/
def dmaBusErr (c : ChanId) (toHost : Bool) (cause addr : Nat) (d : Dev) : Dev :=
  let e := c.eng.val
  if cause = 0 ∨ 5 < cause then d
  else if d.bst (pDmae e) = .halted then d.dmaCnt e 4 1
  else if (d.chan e c.ch.val).run.isEmpty then d
  else (d.dmaHalt e c.ch.val toHost cause addr).errP (pDmae e) 0x0102 (d.dmaeOwner e)
/-- DMA_BUS_ERROR (R572). -/
def execDmaBusError (c : ChanId) (toHost : Bool) (cause : BitVec 4) (addr : BitVec 64) (s : State) :
    Host.Outcome State Fault Refusal := onDev (dmaBusErr c toHost cause.toNat addr.toNat) s

/-- Discard a stopped channel's head, which never signals (R571). -/
def dmaSkipHead (v : View) (c : ChanId) (d : Dev) : Dev :=
  let e := c.eng.val
  let i := c.ch.val
  d.through v (pDmae e) (0x118 + 32 * i) fun d =>
    if !(d.chan e i).stopped then d
    else d.updChan e i fun x => { x with stopped := false, reason := 0, abandoned := false, head := (x.head + 1) % d.chSize e i }
/-- DMA_SKIP (R571). -/
def execDmaSkip (v : View) (c : ChanId) (s : State) : Host.Outcome State Fault Refusal := onDev (dmaSkipHead v c) s

/-- The operator's restart of a halted engine (R573, R575). -/
def dmaRestart (v : View) (e : Nat) (flush : Bool) (d : Dev) : Dev :=
  d.privOnly v (pDmae e) 0x044 fun d =>
    if d.bst (pDmae e) ≠ .halted then d.err .pf (pDmae e) 0x0103
    else
      let d := d.updDma e fun x => { x with valid := false }
      let d := if flush then
          (List.range 8).foldl (fun (d : Dev) i =>
            d.updChan e i fun x => { x with head := x.tail, run := [], stopped := false, abandoned := false, reason := 0 }) d
        else d
      d.toState (pDmae e) (if (d.pst (pDmae e)).enable then .enabling else .disabled)
/-- DMA_RESTART_REPLAY (R575). -/
def execDmaRestartReplay (v : View) (e : Fin 32) (s : State) : Host.Outcome State Fault Refusal :=
  onDev (dmaRestart v e.val false) s
/-- DMA_RESTART_FLUSH (R575). -/
def execDmaRestartFlush (v : View) (e : Fin 32) (s : State) : Host.Outcome State Fault Refusal :=
  onDev (dmaRestart v e.val true) s

/-- DMAE_MODE.maint (R576). -/
def dmaMaint (v : View) (e : Nat) (on : Bool) (d : Dev) : Dev :=
  d.privOnly v (pDmae e) 0x040 fun d =>
    if d.boot.recovery || (d.bst (pDmae e) == .disabled && (d.dmaeOwner e).isNone) then
      d.updDma e fun x => { x with maint := on }
    else d
/-- DMA_MAINT_WRITE (R576). -/
def execDmaMaintWrite (v : View) (e : Fin 32) (on : Bool) (s : State) : Host.Outcome State Fault Refusal :=
  onDev (dmaMaint v e.val on) s

end Sys2Proof.Machine
end

