-- ==== Sys2Proof/Machine/Tier.lean ====
section
/-!
DEFINITION. The tier manager's commands (chapter 7): the map window, fills and write-backs of the cache, the cache
pool, and the pilot schedule.
-/

namespace Sys2Proof.Machine

/-! ### The map window (R295–R299, R333) -/

def MapCmd.tier (c : MapCmd) : Nat := bits c.arg 2 0
def MapCmd.big (c : MapCmd) : Bool := bit c.arg 3
def MapCmd.writable (c : MapCmd) : Bool := bit c.arg 4
def MapCmd.discard (c : MapCmd) : Bool := bit c.arg 5
def MapCmd.aux (c : MapCmd) : Nat := bits c.arg 15 8
def MapCmd.pages (c : MapCmd) : Nat := bits c.arg 31 16 + 1
def MapCmd.size (c : MapCmd) : Nat := if c.big then 2097152 else 65536
def MapCmd.bytes (c : MapCmd) : Nat := c.pages * c.size
/-- The keys of the run's pages. -/
def MapCmd.keys (c : MapCmd) : List Nat := (List.range c.pages).map fun i => pgKey c.part.val (c.va + i * c.size)

/-- A run that is misaligned or leaves the 52-bit space. -/
def MapCmd.badRun (c : MapCmd) : Bool := c.va % c.size ≠ 0 || vaLimit < c.va + c.bytes

/-- The backing keeps its row of R296. -/
def Dev.backingOk (d : Dev) (c : MapCmd) : Bool :=
  match c.tier with
  | 0 => c.bk % c.size == 0 && c.bk + c.bytes ≤ sramBytes && d.clusterOwner (c.aux % 16) == some c.part.val
  | 2 => c.bk % 4096 == 0 && c.aux == 0
  | 4 => c.bk % 65536 == 0 && c.bk + c.bytes ≤ 2288818 * 65536 && d.nsOwner (c.aux % 64) == some c.part.val
  | 5 => c.bk % 65536 == 0 && c.bk + c.bytes ≤ 4194304 && d.clusterOwner (c.aux % 16) == some c.part.val
  | _ => c.aux == 0

/-- The first cause for which a MAP is refused, but for T3 frames (R333); 0 when there is none. -/
def Dev.mapCheck (d : Dev) (c : MapCmd) : Nat :=
  let n := c.part.val
  if 6 ≤ c.tier ∨ (c.tier = 5 ∧ c.big) then 7
  else if c.badRun then 1
  else if (d.pagesOf n).any fun (e : Nat × Pg) => keyVa e.1 < c.va + c.bytes && c.va < keyVa e.1 + e.2.size then 2
  else if !d.backingOk c then 5
  else if 4194304 < (d.pagesOf n).length + c.pages then 8
  else if d.quota n 1 < d.usage n 1 + 16 * c.pages + (if c.tier = 1 then c.bytes else 0) then 4
  else if 2 ≤ c.tier ∧ c.tier ≤ 4 ∧ d.quota n c.tier < d.usage n c.tier + c.bytes then 4
  else 0

/-- The check of UNMAP, FLUSH and INVALIDATE: the whole run, in pages of the size named (R295). -/
def Dev.runCheck (d : Dev) (c : MapCmd) : Nat :=
  if c.badRun then 1
  else if c.keys.all fun k => match d.tier.pages.find? k with
    | some g => g.big == c.big
    | none => false
  then 0 else 3

/-- Place one page of a MAP; none where the T1 space has no room until a pinned frame is released. -/
def Dev.mapOne (d : Dev) (c : MapCmd) (i : Nat) : Option Dev :=
  let n := c.part.val
  let k := pgKey n (c.va + i * c.size)
  let at_ (h : Home) (d : Dev) : Option Dev := some (d.setPage k ⟨c.big, c.writable, h⟩)
  match c.tier with
  | 0 => at_ (.t0 (c.aux % 16) (c.aux / 16) (c.bk + i * c.size)) d
  | 1 => (d.t1Alloc n c.size).bind fun r => at_ (.t1 r.1) (r.2.t1Zero (r.2.pchsOf n) r.1 c.size)
  | 2 => at_ (.t2 (c.bk + i * c.size)) d
  | 3 => (d.t3Slots n c.big).head?.bind fun r => at_ (.t3 r.1 r.2.1 r.2.2.1 r.2.2.2) d
  | 4 => at_ (.t4 (c.aux % 64) (c.bk + i * c.size)) d
  | _ => at_ (.aperture (c.aux % 16) (c.bk + i * c.size)) d

/-- Place the pages of a MAP from page i on. -/
def Dev.mapAll (c : MapCmd) : Nat → Nat → Dev → Option Dev
  | 0, _, d => some d
  | m + 1, i, d => (d.mapOne c i).bind (Dev.mapAll c m (i + 1))

/-- The dirty sectors of a run's frames, as sectKey. -/
def Dev.dirtyOf (d : Dev) (c : MapCmd) : SSet :=
  c.keys.foldl (fun (l : SSet) k => match d.tier.frames.find? k with
    | some f => f.dirty.foldl (fun (l : SSet) s => l.add (sectKey c.part.val (keyVa k + 4096 * s))) l
    | none => l) []

/-- A MAP of T3 pages that lacks frames, while another request still awaits its answer. -/
def Dev.mapHeld (d : Dev) (c : MapCmd) : Bool :=
  c.cmd == 1 && c.tier == 3 && d.tier.wait.isSome && d.mapCheck c == 0 && d.t3Short c.part.val c.big c.pages != 0

/-- Begin the command at the head of the queue: a MAP of T3 pages asks for the frames it lacks; an UNMAP without
discard and a FLUSH ask for the write-back of what is dirty. -/
def Dev.mapHead (d : Dev) : Dev :=
  match d.tier.cmds with
  | [] => d
  | c :: rest =>
    if c.begun || d.mapHeld c then d
    else
      let writes := (c.cmd = 3 ∨ (c.cmd = 2 ∧ !c.discard)) ∧ d.runCheck c = 0
      let c' := { c with begun := true, left := if writes then d.dirtyOf c else [] }
      let d := d.updTier fun t => { t with cmds := c' :: rest }
      if c.cmd = 1 then
        let short := d.t3Short c.part.val c.big c.pages
        if c.tier = 3 ∧ d.mapCheck c = 0 ∧ short ≠ 0 then d.askLender c.part.val 0 short else d
      else if writes then c.keys.foldl Dev.writeBack d
      else d

/-- A command ends: status, BLK_EVT bit 1 in the view that sent it, its signal; the next begins (R297). -/
def Dev.mapEnd (d : Dev) (c : MapCmd) (status done : Nat) : Dev :=
  let d := d.updTier fun t => { t with cmds := t.cmds.drop 1, sts := t.sts.put ⟨false, 0, 0⟩ c.view ⟨false, status, done % 65536⟩ }
  ((d.evt (View.ofKey c.view) pTier 2).signal c.sig c.part srcTier).mapHead

/-- TIER_MAP_CMD written through a view (R295). -/
def mapWrite (v : View) (cmd : Nat) (d : Dev) : Dev :=
  if cmd = 0 then d
  else if 6 ≤ cmd ∨ (d.tier.sts.get ⟨false, 0, 0⟩ v.key).busy then d.err v pTier 0x0101
  else
    let r (o : Nat) : Nat := d.regV v pTier o
    let c : MapCmd :=
      { view := v.key, part := partFin (d.selPart v pTier), cmd := cmd, va := r 0x060 + 2 ^ 32 * bits (r 0x064) 19 0
        bk := r 0x068 + 2 ^ 32 * r 0x06C, arg := r 0x070, sig := BitVec.ofNat 32 (r 0x074), begun := false, left := [] }
    (d.updTier fun t =>
      { t with cmds := t.cmds ++ [c], sts := t.sts.put ⟨false, 0, 0⟩ v.key ⟨true, 0, 0⟩ }).mapHead

/-- The window's command register. -/
def mapVia (v : View) (cmd : Nat) (d : Dev) : Dev := d.through v pTier 0x078 (mapWrite v cmd)
/-- MAP (R296). -/
def execMap (v : View) (s : State) : Host.Outcome State Fault Refusal := onDev (mapVia v 1) s
/-- UNMAP (R295). -/
def execUnmap (v : View) (s : State) : Host.Outcome State Fault Refusal := onDev (mapVia v 2) s
/-- FLUSH (R305). -/
def execFlush (v : View) (s : State) : Host.Outcome State Fault Refusal := onDev (mapVia v 3) s
/-- INVALIDATE (R306). -/
def execInvalidate (v : View) (s : State) : Host.Outcome State Fault Refusal := onDev (mapVia v 4) s
/-- PROBE (R296). -/
def execProbe (v : View) (s : State) : Host.Outcome State Fault Refusal := onDev (mapVia v 5) s

/-- Frames of a run leave the cache, and pins on them end (R306, R313). -/
def Dev.forget (d : Dev) (n : Nat) (keys : List Nat) : Dev :=
  let d := keys.foldl Dev.dropFrame d
  d.updTier fun t => { t with pilot := t.pilot.upd .reset n fun p =>
    { p with pinned := p.pinned.map fun (e : Nat × List Nat) => (e.1, e.2.filter fun k => !keys.contains k) } }

/-- What PROBE returns of a page: ARG and BK (R296). -/
def Pg.probe (g : Pg) : Nat × Nat :=
  let arg (aux : Nat) : Nat := g.home.tier + 8 * b2n g.big + 16 * b2n g.writable + 256 * aux
  match g.home with
  | .t0 c core off => (arg (c + 16 * core), off)
  | .t1 off => (arg 0, off)
  | .t2 bus => (arg 0, bus)
  | .t3 _ l f _ => (arg 0, 2 ^ 32 * l + f)
  | .t3gone => (arg 0, 0)
  | .t4 ns off => (arg ns, off)
  | .aperture c off => (arg c, off)

/-- Write the PROBE result into the view's window. -/
def Dev.putProbe (d : Dev) (v arg bk : Nat) : Dev :=
  let put (off x : Nat) (d : Dev) : Dev := d.setRegAt pTier (v + 1) off (BitVec.ofNat 32 x)
  put 0x070 arg (put 0x06C (bk / 2 ^ 32) (put 0x068 bk d))

/-- The head command completes, if nothing holds it up (R299). -/
def mapDone (d : Dev) : Dev :=
  match d.tier.cmds with
  | [] => d
  | c :: _ =>
    let n := c.part.val
    match c.cmd with
    | 1 =>
      let st := d.mapCheck c
      if st ≠ 0 then d.mapEnd c st 0
      else if c.tier = 3 ∧ !c.begun ∧ d.t3Short n c.big c.pages ≠ 0 then d.mapHead
      else if c.tier = 3 ∧ (d.tier.wait.map (·.part)) = some c.part then d
      else if c.tier = 3 ∧ d.t3Short n c.big c.pages ≠ 0 then d.mapEnd c 6 0
      else
        match Dev.mapAll c c.pages 0 d with
        | some d => d.mapEnd c 0 c.pages
        | none => d
    | 5 =>
      if c.badRun then d.mapEnd c 1 0
      else
        match d.page? n c.va with
        | some (_, g) => (d.putProbe c.view g.probe.1 g.probe.2).mapEnd c 0 1
        | none => (d.putProbe c.view 0 0).mapEnd c 3 0
    | k =>
      let st := d.runCheck c
      if st ≠ 0 then d.mapEnd c st 0
      else if !c.left.isEmpty then d
      else if k = 2 then
        let d := d.forget n c.keys
        (d.updTier fun t => { t with pages := t.pages.filter fun (e : Nat × Pg) => !c.keys.contains e.1 }).mapEnd c 0 c.pages
      else if k = 4 then (c.keys.foldl Dev.dropFrame d).mapEnd c 0 c.pages
      else d.mapEnd c 0 c.pages
/-- MAP_COMMAND_DONE (R299). -/
def execMapCommandDone (s : State) : Host.Outcome State Fault Refusal := onDev mapDone s

/-- A FLUSH at the head completes (R305). -/
def flushDone (d : Dev) : Dev :=
  match d.tier.cmds with
  | c :: _ => if c.cmd = 3 then mapDone d else d
  | [] => d
/-- FLUSH_DONE (R305). -/
def execFlushDone (s : State) : Host.Outcome State Fault Refusal := onDev flushDone s

/-! ### Fills (R303, R337, R636) -/

/-- Accesses to T4 wait for the mount (R348, R353). -/
def Dev.flashServes (d : Dev) : Bool :=
  d.flash.state == .normal || d.flash.state == .degraded || d.flash.state == .readOnly

/-- The bytes and marks that a chunk's home gives: a flash chunk's from the namespace, others as they come. -/
def Dev.homeChunk (d : Dev) (h : Home) (c : Nat) (data : List Byte) : List Byte × List Nat :=
  match h with
  | .t4 ns off => (d.rd (nsKey ns (off + 65536 * c)) 65536, d.badOffsets (nsKey ns (off + 65536 * c)) 65536)
  | _ => (padTo 65536 data, [])

/-- The granules of a flash chunk that cannot be recovered, with record 0x0205 (R636). -/
def Dev.lostChunk (d : Dev) (h : Home) (c : Nat) (lost : List Nat) : List Nat × Dev :=
  match h with
  | .t4 ns off =>
    let k := 2 ^ 32 * ns + off / 65536 + c
    let all := lost.foldl SSet.add (d.flash.marked.get [] k)
    if all.isEmpty then ([], d)
    else
      let d := { d with flash := { d.flash with marked := d.flash.marked.put [] k all } }
      (all, d.record 0x0205 pFlsh .p .none (d.nsOwner ns) 3 (ns + 2 ^ 32 * (off / 65536 + c)) ioIsle false)
  | _ => ([], d)

/-- A chunk is filled, sector by sector but for those that a write has made whole since. -/
def Dev.putChunk (d : Dev) (p k c : Nat) (bytes : List Byte) (bad : List Nat) : Dev :=
  match d.tier.frames.find? k with
  | none => d
  | some f =>
    let ps := d.pchsOf p
    let d := (List.range 256).foldl (fun (d : Dev) i =>
      if f.dirty.contains (16 * c + i / 16) then d
      else d.wrBad (t1Place ps (f.slot + 65536 * c + 256 * i)) ((bytes.drop (256 * i)).take 256)
        ((bad.filter fun o => 256 * i ≤ o && o < 256 * i + 256).map (· - 256 * i))) d
    d.setFrame k { f with valid := f.valid.add c, filling := f.filling.erase c }

/-- CHUNK_FILL_DONE: counters misses and fill_bytes; a fill that failed leaves the chunk's bytes marked (R300). -/
def fillDone (p va : Nat) (data : List Byte) (failed : Bool) (lost : List Nat) (d : Dev) : Dev :=
  match d.page? p va with
  | none => d
  | some (b, g) =>
    let k := pgKey p b
    let c := (va - b) / 65536
    match d.tier.frames.find? k with
    | none => d
    | some f =>
      match f.filling.find? c with
      | none => d
      | some agent =>
        let t4 := g.home.tier = 4
        if t4 ∧ !d.flashServes ∧ d.flash.state ≠ .failed then d
        else if failed ∨ (t4 ∧ d.flash.state = .failed) then
          (d.putChunk p k c (zbytes 65536) (List.range 65536)).tierFault p (b + 65536 * c) 0x0107 agent
        else
          let (gr, d) := d.lostChunk g.home c lost
          let (bytes, bad) := d.homeChunk g.home c data
          let bad := bad ++ gr.flatMap fun i => (List.range 64).map fun o => 64 * i + o
          let d := ((d.putChunk p k c bytes bad).cntP pTier 0 1 (some p)).cntP pTier 1 65536 (some p)
          if t4 then d.cntP pFlsh 0 65536 (some p) else d
/-- CHUNK_FILL_DONE (R303). -/
def execChunkFillDone (p : Fin 16) (va : Nat) (data : List Byte) (failed : Bool) (lost : List Nat) (s : State) :
    Host.Outcome State Fault Refusal := onDev (fillDone p.val va data failed lost) s

/-! ### Write-backs (R308, R339–R342, R350, R633–R635) -/

/-- FLSH_LIFE.used in 0.01 % of 17.5 PB. -/
def lifeUsed (charged : Nat) : Nat := Nat.min 0xFFFF (charged * 10000 / 17500000000000000)

/-- Charge one chunk to a partition's credit and to the module's life (R349, R350). -/
def Dev.charge (d : Dev) (p : Nat) : Dev :=
  let now := d.flash.charged + 65536
  let hit := 9000 ≤ lifeUsed now && !d.flash.life90
  let d := { d with flash := { d.flash with
      charged := now, life90 := d.flash.life90 || hit, spent := d.flash.spent.put 0 p (d.flash.spent.get 0 p + 65536) } }
  let d := d.cntP pFlsh 1 65536 (some p)
  if hit then d.evt .pf pFlsh 2 else d

/-- Put one dirty sector at its home. Poison stays with a flash chunk; at T2 and T3 a poisoned granule is written as
zeros and record 0x0208 names it (R633). -/
def Dev.sectorOut (p : Nat) (h : Home) (slot va : Nat) (d : Dev) (s : Nat) : Dev :=
  let ps := d.pchsOf p
  let parts := (List.range 16).map fun i => t1Place ps (slot + 4096 * s + 256 * i)
  let bytes := parts.flatMap fun k => d.rd k 256
  let bad := (enumFrom 0 parts).flatMap fun (e : Nat × Nat) => (d.badOffsets e.2 256).map (· + 256 * e.1)
  match h with
  | .t4 ns off => d.wrBad (nsKey ns (off + 4096 * s)) bytes bad
  | _ =>
    let clean := (enumFrom 0 bytes).map fun (e : Nat × Byte) => if bad.contains e.1 then 0#8 else e.2
    let d := (bad.filter fun o => o % 64 = 0).foldl (fun (d : Dev) o =>
      d.record 0x0208 pTier .p .none (some p) 1 (va + 4096 * s + o) ioIsle false) d
    match h with
    | .t2 bus => d.put (.t2Write p (bus + 4096 * s) clean)
    | .t3 a l f o => d.put (.t3Write a l f (o + 4096 * s) clean)
    | _ => d

/-- The first poisoned granule among a frame's sectors, as a device virtual address. -/
def Dev.sectorPoison (d : Dev) (p slot va : Nat) (ss : List Nat) : Option Nat :=
  let ps := d.pchsOf p
  ss.findSome? fun s => (List.range 64).findSome? fun i =>
    if d.poison.contains (t1Place ps (slot + 4096 * s + 64 * i) / 64) then some (va + 4096 * s + 64 * i) else none

/-- A chunk's write-back is done: its sectors are clean, and no command waits for them any more. -/
def Dev.wbFinish (d : Dev) (p k b : Nat) (g : Pg) (f : Frame) (c : Nat) : Dev :=
  let ss := f.dirty.filter fun s => s / 16 == c
  let d := match d.sectorPoison p f.slot b ss with
    | some a => d.poisonRead pTier 1 a (some p)
    | none => d
  let d := ss.foldl (Dev.sectorOut p g.home f.slot b) d
  let d := match g.home with
    | .t4 ns off => if ss.length = 16 then
        { d with flash := { d.flash with marked := d.flash.marked.put [] (2 ^ 32 * ns + off / 65536 + c) [] } } else d
    | _ => d
  let gone := ss.map fun s => sectKey p (b + 4096 * s)
  let d := d.setFrame k { f with dirty := f.dirty.filter (fun s => s / 16 ≠ c), wb := f.wb.del c, fails := f.fails.erase c }
  (d.updTier fun t =>
    { t with budWaits := t.budWaits.del (sectKey p (b + 65536 * c))
             cmds := t.cmds.map fun (m : MapCmd) => { m with left := m.left.filter fun x => !gone.contains x } }).cntP
    pTier 2 (4096 * ss.length) (some p)

/-- The retry interval after n failures: 1, 2, 4, … 1,024 ms (R635). -/
def retryTicks (n : Nat) : Nat := 100000 * Nat.min 1024 (2 ^ Nat.min n 10)

/-- A write-back fails at its home: the sectors stay dirty, record 0x0207 at the page's first failure, and a retry is
set (R635); the failure is a fault of R300. -/
def Dev.wbFail (d : Dev) (p k b : Nat) (f : Frame) (c : Nat) : Dev :=
  let n := ((f.fails.find? c).map (·.1)).getD 0
  let d := if f.fails.isEmpty then d.record 0x0207 pTier .i .none (some p) 1 b ioIsle false else d
  (d.setFrame k { f with wb := f.wb.del c, fails := f.fails.insert c (n + 1, d.timer ioIsle + retryTicks n) }).tierFault p
    (b + 65536 * c) 0x0107 agTier

/-- What of the chunk at an address can be written back: the page's first address, page, frame, chunk. -/
def Dev.wbAt (d : Dev) (p va : Nat) : Option (Nat × Pg × Frame × Nat) :=
  (d.page? p va).bind fun r => (d.tier.frames.find? (pgKey p r.1)).map fun f => (r.1, r.2, f, (va - r.1) / 65536)

/-- WRITE_BACK_DONE: start and completion of the chunk's write-back as one event. To T4 it needs the flash to serve,
and credit (R350, R353). -/
def wbDone (p va : Nat) (d : Dev) : Dev :=
  match d.wbAt p va with
  | none => d
  | some (b, g, f, c) =>
    let k := pgKey p b
    if !f.wb.contains c then d
    else if g.home.tier ≠ 4 then d.wbFinish p k b g f c
    else
      match d.flash.state with
      | .readOnly => d.cntP pFlsh 2 1 (some p)
      | .failed => d.wbFail p k b f c
      | .normal | .degraded =>
        if d.flash.plp then d
        else if d.credit p < 65536 then
          let w := sectKey p (b + 65536 * c)
          if d.tier.budWaits.contains w then d
          else (d.updTier fun t => { t with budWaits := t.budWaits.add w }).cntP pTier 9 1 (some p)
        else (d.charge p).wbFinish p k b g f c
      | .unmounted | .mounting => d
/-- WRITE_BACK_DONE (R340). -/
def execWriteBackDone (p : Fin 16) (va : Nat) (s : State) : Host.Outcome State Fault Refusal := onDev (wbDone p.val va) s

/-- A write-back in flight fails (R635). -/
def wbFailed (p va : Nat) (d : Dev) : Dev :=
  match d.wbAt p va with
  | some (b, _, f, c) => if f.wb.contains c then d.wbFail p (pgKey p b) b f c else d
  | none => d
/-- WRITE_BACK_FAIL (R635). -/
def execWriteBackFail (p : Fin 16) (va : Nat) (s : State) : Host.Outcome State Fault Refusal := onDev (wbFailed p.val va) s

/-- The retry interval is over: the write-back is asked for again (R635). -/
def wbRetry (p va : Nat) (d : Dev) : Dev :=
  match d.wbAt p va with
  | some (b, _, f, c) =>
    match f.fails.find? c with
    | some (_, t) =>
      if f.wb.contains c then d
      else (((d.reach ioIsle t).setFrame (pgKey p b) { f with wb := f.wb.add c })).cntP pErrm 11 1 (some p)
    | none => d
  | none => d
/-- WRITE_BACK_RETRY (R635). -/
def execWriteBackRetry (p : Fin 16) (va : Nat) (s : State) : Host.Outcome State Fault Refusal := onDev (wbRetry p.val va) s

/-! ### The cache pool (R302) -/

/-- Drop clean frames that nothing pins, least recently used first, until the pool fits. -/
def Dev.shrink (n limit : Nat) : Nat → Dev → Dev
  | 0, d => d
  | fuel + 1, d =>
    if d.poolUsed n ≤ limit then d
    else
      let c := ((d.framesOf n).filter fun (e : Nat × Frame) => e.2.dirty.isEmpty && !d.isPinned n e.1).foldl
        (fun (b : Option (Nat × Frame)) e => match b with
          | none => some e
          | some x => if e.2.lru < x.2.lru then some e else some x) none
      match c with
      | none => d
      | some e => Dev.shrink n limit fuel ((d.dropFrame e.1).cntP pTier 3 1 (some n))

/-- TIER_CACHE: a write that would break R298, or shrink below pinned and dirty frames, is dropped. -/
def cacheWrite (v : View) (value : Word) (d : Dev) : Dev :=
  let n := d.selPart v pTier
  let new := bits value.toNat 19 0
  let old := d.tier.pool.get 0 n
  let kept := sumN (((d.framesOf n).filter fun (e : Nat × Frame) => !e.2.dirty.isEmpty || d.isPinned n e.1).map
    fun (e : Nat × Frame) => ((d.tier.pages.find? e.1).map Pg.size).getD 0)
  if (old < new ∧ d.quota n 1 < d.usage n 1 + 2097152 * (new - old)) ∨ 2097152 * new < kept then d.err v pTier 0x0101
  else
    let d := d.updTier fun t => { t with pool := t.pool.put 0 n new }
    Dev.shrink n (2097152 * new) ((d.framesOf n).length + 1) d
/-- TIER_CACHE_WRITE (R302). -/
def execTierCacheWrite (v : View) (value : Word) (s : State) : Host.Outcome State Fault Refusal :=
  onDev (fun d => d.through v pTier 0x054 (cacheWrite v value)) s

/-! ### The pilot schedule (R310–R316) -/

/-- An entry of the schedule's table (R310). -/
structure PEnt where
  va : Nat
  pos : Nat
  lead : Nat
  toSram : Bool
  big : Bool
  pages : Nat
  sramOff : Nat
  cluster : Nat
  core : Nat
  sig : Word
  deriving DecidableEq, Repr

def PEnt.of (b : List Byte) : PEnt :=
  { va := fld b 0 8, pos := fld b 8 2, lead := fld b 10 1, toSram := bit (fld b 11 1) 0, big := bit (fld b 11 1) 1
    pages := fld b 12 2, sramOff := fld b 16 4, cluster := fld b 20 1, core := fld b 21 1
    sig := BitVec.ofNat 32 (fld b 24 4) }

def PEnt.size (e : PEnt) : Nat := if e.big then 2097152 else 65536
/-- The run's pages by first address. -/
def PEnt.vas (e : PEnt) : List Nat := (List.range e.pages).map fun i => e.va + i * e.size

/-- The entry keeps R310. -/
def Dev.entOk (d : Dev) (n period : Nat) (b : List Byte) : Bool :=
  let e := PEnt.of b
  e.va + e.pages * e.size ≤ vaLimit && e.va % e.size == 0 && e.pos < period && 1 ≤ e.lead && e.lead ≤ period &&
  fld b 11 1 < 4 && 1 ≤ e.pages && zeros b 14 2 && e.sramOff % 32 == 0 && (e.toSram || e.sramOff == 0) &&
  e.cluster < 16 && e.core < 16 && zeros b 22 2 && zeros b 28 4 &&
  (!e.toSram || (d.clusterOwner e.cluster == some n && e.sramOff + e.pages * e.size ≤ sramBytes))

def Dev.pilot (d : Dev) (n : Nat) : Pilot := d.tier.pilot.get .reset n
def Dev.updPilot (d : Dev) (n : Nat) (f : Pilot → Pilot) : Dev :=
  d.updTier fun t => { t with pilot := t.pilot.upd .reset n f }

def Dev.pilotPeriod (d : Dev) (n : Nat) : Nat := bits (d.regP pTier n 0x088) 31 16 + 1
def Dev.pilotCount (d : Dev) (n : Nat) : Nat := bits (d.regP pTier n 0x088) 15 0 + 1
def Dev.pilotBase (d : Dev) (n : Nat) : Nat := d.regP pTier n 0x080 + 2 ^ 32 * bits (d.regP pTier n 0x084) 19 0

/-- The table as it stands in memory; none where it is not mapped in T1 or an entry breaks R310. -/
def Dev.pilotTable (d : Dev) (n : Nat) : Option (List PEnt) :=
  if !d.inT1 n (d.pilotBase n) (32 * d.pilotCount n) then none
  else
    (List.range (d.pilotCount n)).mapM fun i =>
      let b := (d.tRead n agTier (d.pilotBase n + 32 * i) 32).1.bytes
      if d.entOk n (d.pilotPeriod n) b then some (PEnt.of b) else none

/-- The counter that the schedule follows, without bound (R311), and the state that remembers it. -/
def Dev.pilotNow (d : Dev) (n : Nat) : Nat × Dev :=
  let w := d.regP pTier n 0x08C
  let v := (d.evc.get 0#32 (0x10000 + bits w 11 8 * 256 + bits w 7 0)).toNat
  let p := d.pilot n
  let wraps := if v < p.last then p.wraps + 2 ^ 32 else p.wraps
  (wraps + v, d.updPilot n fun p => { p with last := v, wraps := wraps })

/-- d(e): the smallest mark from c on that stands at a position of the period (R312). -/
def nextMark (c period pos : Nat) : Nat := c + (pos + period - c % period) % period

/-- The keys of the run's pages that the cache holds for their homes. -/
def Dev.runKeys (d : Dev) (n : Nat) (e : PEnt) : List Nat :=
  (e.vas.map (pgKey n)).filter fun k => match d.tier.pages.find? k with
    | some g => g.big == e.big && 2 ≤ g.home.tier && g.home.tier ≤ 4
    | none => false

/-- Ask for every chunk of the pages that is not valid. -/
def Dev.stageFills (d : Dev) (n : Nat) (keys : List Nat) (size : Nat) : Dev :=
  keys.foldl (fun (d : Dev) k =>
    (List.range (size / 65536)).foldl (fun (d : Dev) c => Dev.beginFill n agTier true d (keyVa k + 65536 * c)) d) d

/-- Bytes of distinct pages. -/
def Dev.bytesOf (d : Dev) (keys : List Nat) : Nat :=
  sumN ((keys.foldl SSet.add ([] : SSet)).map fun k => ((d.tier.pages.find? k).map Pg.size).getD 0)

/-- One entry of a pass: staged if its time has come and the pool has room for its pins; one without room holds back
all that follow (R312, R314). -/
def pilotEntry (n c period : Nat) (st : Bool × Dev) (ie : Nat × PEnt) : Bool × Dev :=
  let (stop, d) := st
  let e := ie.2
  let m := nextMark c period e.pos
  let p := d.pilot n
  if stop ∨ c + e.lead < m ∨ p.marks.find? ie.1 = some m then (stop, d)
  else
    let keys := d.runKeys n e
    let all := (p.pinned.flatMap fun (x : Nat × List Nat) => x.2) ++ keys
    if 2097152 * d.tier.pool.get 0 n < d.bytesOf all then (true, d)
    else
      let d := d.updPilot n fun p =>
        { p with marks := p.marks.insert ie.1 m, pinned := p.pinned.insert ie.1 keys, staging := p.staging.add ie.1 }
      (false, d.stageFills n keys e.size)

/-- The entry that stages next: the least mark less lead among those to come, in table order (TIER_PILOT_STS). -/
def pilotNext (c period : Nat) (marks : SMap Nat) (es : List (Nat × PEnt)) : Nat :=
  let key (ie : Nat × PEnt) : Nat :=
    let m := nextMark c period ie.2.pos
    (if marks.find? ie.1 = some m then m + period else m) + 256 - ie.2.lead
  ((es.foldl (fun (b : Option (Nat × PEnt)) ie => match b with
    | none => some ie
    | some x => if key ie < key x then some ie else some x) none).map (·.1)).getD 0

/-- A table fault: the schedule stops, with code 0x0106. -/
def Dev.pilotFault (d : Dev) (n : Nat) : Dev :=
  (d.updPilot n fun p => { p with running := false, fault := true }).errP pTier 0x0106 (some n)

/-- A pass of R312: releases, then stagings in table order. Stagings under way that found no frame try again. -/
def pilotPass (n : Nat) (d : Dev) : Dev :=
  if !(d.pilot n).running then d
  else
    match d.pilotTable n with
    | none => d.pilotFault n
    | some es =>
      let (c, d) := d.pilotNow n
      let es := enumFrom 0 es
      let period := d.pilotPeriod n
      let d := d.updPilot n fun p =>
        { p with pinned := p.pinned.filter fun (x : Nat × List Nat) => match p.marks.find? x.1 with
            | some m => c < m + 1
            | none => false }
      let d := (d.pilot n).staging.foldl (fun (d : Dev) i =>
        d.stageFills n (((d.pilot n).pinned.find? i).getD []) ((es.getD i (0, PEnt.of [])).2.size)) d
      let d := (es.foldl (pilotEntry n c period) (false, d)).2
      d.updPilot n fun p => { p with next := pilotNext c period p.marks es }
/-- PILOT_PASS (R312). -/
def execPilotPass (p : Fin 16) (s : State) : Host.Outcome State Fault Refusal := onDev (pilotPass p.val) s

/-- Copy the mapped pages of a run into core SRAM (R312, R633). -/
def Dev.toSram (d : Dev) (n : Nat) (e : PEnt) : Dev :=
  (enumFrom 0 e.vas).foldl (fun (d : Dev) (x : Nat × Nat) =>
    match d.tier.pages.find? (pgKey n x.2) with
    | none => d
    | some g =>
      if g.big != e.big then d
      else
        let (r, d) := d.tRead n agTier x.2 e.size
        let d := match r.first with
          | some a => d.poisonRead pTier 1 a (some n)
          | none => d
        d.wrBad (sramKey (d.inst e.cluster e.core) (e.sramOff + x.1 * e.size)) r.bytes r.bad) d

/-- Staging of entry i ends, once every chunk of its pages is valid. -/
def stagingDone (n i : Nat) (d : Dev) : Dev :=
  if !(d.pilot n).staging.contains i then d
  else
    match (d.pilotTable n).bind fun es => es[i]? with
    | none => d.pilotFault n
    | some e =>
      let keys := ((d.pilot n).pinned.find? i).getD []
      let ready := keys.all fun k => match d.tier.frames.find? k with
        | some f => f.valid.length == e.size / 65536
        | none => (d.tier.pages.find? k).isNone
      if !ready then d.stageFills n keys e.size
      else
        let (c, d) := d.pilotNow n
        let late : Bool := match (d.pilot n).marks.find? i with
          | some m => decide (m < c)
          | none => false
        let skips := e.vas.any fun va => match d.tier.pages.find? (pgKey n va) with
          | some g => g.big != e.big
          | none => true
        let d := if e.toSram then d.toSram n e else d
        let d := (d.updPilot n fun p => { p with staging := p.staging.del i }).signal e.sig (partFin n) srcTier
        let d := d.cntP pTier 5 1 (some n)
        let d := if late then d.cntP pTier 6 1 (some n) else d
        if skips then d.cntP pTier 7 1 (some n) else d
/-- PILOT_STAGING_DONE (R312). -/
def execPilotStagingDone (p : Fin 16) (i : Nat) (s : State) : Host.Outcome State Fault Refusal :=
  onDev (stagingDone p.val i) s

/-- TIER_PILOT_CTR (R316): while the schedule is enabled a write can only clear enable, which unpins every frame;
enabling one starts it with no marks. A cluster that the partition does not own is refused with code 0x0101. -/
def pilotWrite (v : View) (value : Word) (d : Dev) : Dev :=
  let n := d.selPart v pTier
  let on := bit value.toNat 16
  if bit (d.regP pTier n 0x08C) 16 then
    if on then d
    else (d.setRegP pTier n 0x08C (d.regP pTier n 0x08C - 65536)).updPilot n fun _ => .reset
  else if on ∧ d.clusterOwner (bits value.toNat 11 8) ≠ some n then d.err v pTier 0x0101
  else
    let d := d.setRegP pTier n 0x08C (bits value.toNat 11 0 + 65536 * b2n on)
    if !on then d
    else
      let w := (d.evc.get 0#32 (0x10000 + bits value.toNat 11 8 * 256 + bits value.toNat 7 0)).toNat
      let d := d.updPilot n fun _ => { Pilot.reset with running := true, last := w }
      if (d.pilotTable n).isNone then d.pilotFault n else d
/-- PILOT_ENABLE (R316). -/
def execPilotEnable (v : View) (value : Word) (s : State) : Host.Outcome State Fault Refusal :=
  onDev (fun d => d.through v pTier 0x08C (pilotWrite v value)) s

end Sys2Proof.Machine
end

