-- ==== Sys2Proof/Machine/Flash.lean ====
section
/-!
DEFINITION. The module flash and its translation layer (chapter 8): states, power loss, the write budget's refill, and
the layer's own background work.
-/

namespace Sys2Proof.Machine

def Dev.updFlash (d : Dev) (f : Flash → Flash) : Dev := { d with flash := f d.flash }

/-- FLSH_STATE changes: BLK_EVT bit 0 in every view. -/
def Dev.flashTo (d : Dev) (s : FlashState) : Dev :=
  if d.flash.state = s then d else (d.updFlash fun f => { f with state := s }).evtAll pFlsh 1

/-- FLSH_SPARE.pct. -/
def Flash.pct (f : Flash) : Nat := f.spare * 100 / Nat.max 1 f.spareFull

/-- The state that the spare reserve gives a mounted flash (R353). -/
def Flash.served (f : Flash) : FlashState := if f.pct < 1 then .readOnly else if f.pct < 10 then .degraded else .normal

/-- The mount ends (R348): the state by the spare reserve, or Failed. -/
def mountDone (ok : Bool) (replayed : Nat) (d : Dev) : Dev :=
  if d.flash.state ≠ .mounting then d
  else
    let d := d.updFlash fun f => { f with replayed := Nat.min 0xFFFF replayed }
    d.flashTo (if ok then d.flash.served else .failed)
/-- FLASH_MOUNT_DONE (R348). -/
def execFlashMountDone (ok : Bool) (replayed : Nat) (s : State) : Host.Outcome State Fault Refusal :=
  onDev (mountDone ok replayed) s

/-- The I/O die timer passes a multiple of 360,000 ticks: every credit grows by B × 1,000 bytes, up to its cap (R350). -/
def refill (d : Dev) : Dev :=
  let t := (d.timer ioIsle / 360000 + 1) * 360000
  let d := d.reach ioIsle t
  (List.range 16).foldl (fun (d : Dev) n =>
    d.updFlash fun f => { f with spent := f.spent.put 0 n (f.spent.get 0 n - d.budget n * 1000) }) d
/-- WRITE_BUDGET_REFILL (R350). -/
def execWriteBudgetRefill (s : State) : Host.Outcome State Fault Refusal := onDev refill s

/-- The layer works only while it is mounted. -/
def Dev.flashWork (d : Dev) (f : Dev → Dev) : Dev := if d.flashServes then f d else d

/-- WEAR_LEVELLING (R343): gc_bytes, and the spread of erase counts after. -/
def execWearLevelling (chunks spread : Nat) (s : State) : Host.Outcome State Fault Refusal :=
  onDev (fun d => d.flashWork fun d => (d.cnt .pf pFlsh 3 (65536 * chunks)).updFlash fun f => { f with spread := spread }) s

/-- READ_DISTURB_REFRESH (R343): refresh_bytes. -/
def execReadDisturbRefresh (chunks : Nat) (s : State) : Host.Outcome State Fault Refusal :=
  onDev (fun d => d.flashWork fun d => d.cnt .pf pFlsh 4 (65536 * chunks)) s

/-- GARBAGE_COLLECTION (R343): gc_bytes. -/
def execGarbageCollection (chunks : Nat) (s : State) : Host.Outcome State Fault Refusal :=
  onDev (fun d => d.flashWork fun d => d.cnt .pf pFlsh 3 (65536 * chunks)) s

/-- A block is retired: its live chunks are rebuilt from parity, a spare block takes its place, and what parity cannot
recover is marked (R343, R636). Chunks are named namespace × 2^32 + chunk. -/
def retireBlock (chunks : Nat) (lost : List Nat) (d : Dev) : Dev :=
  d.flashWork fun d =>
    let d := (d.cnt .pf pFlsh 6 1).cnt .pf pFlsh 5 (65536 * chunks)
    let d := d.updFlash fun f =>
      { f with spare := f.spare - 1, marked := lost.foldl (fun m k => m.put [] k (List.range 1024)) f.marked }
    d.flashTo d.flash.served
/-- BAD_BLOCK_RETIRE (R343). -/
def execBadBlockRetire (chunks : Nat) (unrecovered : List Nat) (s : State) : Host.Outcome State Fault Refusal :=
  onDev (retireBlock chunks unrecovered) s

/-- Flash programming is finished before Standby or Dormant, and the layer shuts down cleanly (R626). -/
def Dev.flashSettle (d : Dev) : Dev := (d.updFlash fun f => { f with clean := true }).flashTo .unmounted

end Sys2Proof.Machine
end

