-- ==== Sys2Proof/Machine/Red.lean ====
section
/-!
DEFINITION. Reduction engines and token exchange: descriptors at the head of their queues, and the messages of R441 as
they arrive (chapter 11).
-/

namespace Sys2Proof.Machine

/-! ### Messages (R441) -/

/-- The 32-byte header with the payload. -/
def redBytes (type : Nat) (m : RedMsg) : List Byte :=
  leBytes 1 type ++ leBytes 1 m.level.val ++ [m.ring, m.fmt] ++ leBytes 4 m.tag.toNat ++ leBytes 4 m.piece.toNat ++
  leBytes 4 m.elems.toNat ++ leBytes 4 m.count.toNat ++ leBytes 2 m.pieceLen.toNat ++ leBytes 2 m.sender.toNat ++ zbytes 8 ++ m.payload

/-- Send a message to a member: over the mesh within the device, over the partition's flow of a class otherwise. -/
def Dev.redSend (d : Dev) (m2 : Member) (cls type : Nat) (m : RedMsg) : Dev :=
  let d := d.put (.red m2.dev m2.cluster m2.part type m)
  if m2.dev = d.selfDev then d else d.fabSend m2.dev m2.part cls 1 (redBytes type m)

/-- A message of the active queue-0 descriptor. -/
def Dev.redMsg (d : Dev) (q : RedPath) (level : Fin 2) (p : Nat) (bytes : List Byte) : RedMsg :=
  { fromDev := BitVec.ofNat 16 d.selfDev, level := level
    ring := BitVec.ofNat 8 (if level.val = 0 then q.r p else q.ro p), fmt := BitVec.ofNat 8 q.b.fmt
    tag := BitVec.ofNat 32 q.b.tag, piece := BitVec.ofNat 32 p, elems := BitVec.ofNat 32 (q.elems p)
    count := BitVec.ofNat 32 q.b.count, pieceLen := BitVec.ofNat 16 q.g.piece
    sender := BitVec.ofNat 16 (if level.val = 0 then q.g.meIn else q.g.meOut), payload := bytes }

def Dev.updAct (d : Dev) (c : Nat) (f : RedAct → RedAct) : Dev := d.updRed c fun r => { r with act := r.act.map f }

/-- Progress (R443). -/
def Dev.redStamp (d : Dev) (c : Nat) : Dev := let t := d.timer (fabIsle c); d.updAct c fun a => { a with since := t }

/-- Send a piece on. -/
def Dev.pieceOut (d : Dev) (c : Nat) (q : RedPath) (m2 : Member) (type : Nat) (level : Fin 2) (p : Nat) (bytes : List Byte) : Dev :=
  (((d.redSend m2 0 type (d.redMsg q level p bytes)).redCnt c 4 1).redCnt c 5 bytes.length).redStamp c

def wordsOf (bytes : List Byte) : List Word := (chunksOf 4 (bytes.length / 4) bytes).map fun b => BitVec.ofNat 32 (leNat b)
def wordBytes (ws : List Word) : List Byte := ws.flatMap fun w => leBytes 4 w.toNat

/-! ### Queue 0 (R434–R446) -/

/-- Converted bytes of a finished piece (R437, R160). -/
def finishBytes (q : RedPath) (ws : List Word) : List Byte :=
  if q.b.fmt = 0 then wordBytes ws else ws.flatMap fun w => leBytes 2 (FloatFmt.bf16.conv (vOf w)).bits

/-- Write a piece to dst. -/
def Dev.pieceIn (d : Dev) (c part : Nat) (q : RedPath) (p : Nat) (bytes : List Byte) : Dev :=
  ((d.redPut c part q.b.dstBuf (q.b.dst + q.dstOff p) bytes).updAct c fun a => { a with left := a.left.del p }).redStamp c

/-- Send finished bytes onward around the inner ring from this member. -/
def Dev.spreadIn (d : Dev) (c : Nat) (q : RedPath) (p : Nat) (bytes : List Byte) : Dev :=
  if q.inner = 1 then d else d.pieceOut c q (q.nextIn p (q.pos p)) 2 0 p bytes

/-- The member that holds the finished sum converts, writes and distributes it (R437). -/
def Dev.pieceFinish (d : Dev) (c part : Nat) (q : RedPath) (p : Nat) (ws : List Word) : Dev :=
  let bytes := finishBytes q ws
  let d := d.pieceIn c part q p bytes
  let d := if q.nodes = 1 || q.b.homed then d else d.pieceOut c q (q.nextOut p (q.opos p)) 2 1 p bytes
  d.spreadIn c q p bytes

/-- The outer chain at this node: y came in, x is the node's partial. -/
def Dev.outerAdd (d : Dev) (c part : Nat) (q : RedPath) (p : Nat) (y x : List Word) : Dev :=
  let v := (y.zip x).map fun (e : Word × Word) => fadd e.1 e.2
  let d := (d.redCnt c 3 1).updAct c fun a => { a with outs := a.outs.del p, mids := a.mids.erase p, ys := a.ys.erase p }
  if q.opos p = q.ot p then d.pieceFinish c part q p v else d.pieceOut c q (q.nextOut p (q.opos p)) 1 1 p (wordBytes v)

/-- The inner tail holds its node's partial (R436). -/
def Dev.nodePartial (d : Dev) (c part : Nat) (q : RedPath) (p : Nat) (x : List Word) : Dev :=
  if q.nodes = 1 then d.pieceFinish c part q p x
  else if q.opos p = q.so p then
    (d.updAct c fun a => { a with outs := a.outs.del p }).pieceOut c q (q.nextOut p (q.opos p)) 1 1 p (wordBytes x)
  else
    match (d.red c).act.bind fun (a : RedAct) => a.ys.find? p with
    | some y => d.outerAdd c part q p y x
    | none => d.updAct c fun a => { a with mids := a.mids.insert p x }

/-- This member's turn on an inner chain, with the sum that came in, if one did (R436). The source's piece is read now; a
fault or poison ends the descriptor with status 4. -/
def Dev.innerTurn (d : Dev) (c part : Nat) (q : RedPath) (p : Nat) (y : Option (List Word)) : Dev :=
  let (src, d) := d.redSrc c part q.b.srcBuf (q.b.src + p * q.pe * 4) (q.elems p * 4)
  match src with
  | none => d.redEnd c part 4
  | some bs =>
    let x := wordsOf bs
    let d := d.updAct c fun a => { a with start := a.start.del p, todo := a.todo.del p }
    let (v, d) := match y with
      | none => (x, d)
      | some y => ((y.zip x).map fun (e : Word × Word) => fadd e.1 e.2, d.redCnt c 3 1)
    if q.pos p = q.it p then d.nodePartial c part q p v else d.pieceOut c q (q.nextIn p (q.pos p)) 1 0 p (wordBytes v)

/-- The descriptor is complete when nothing is left to write, to add or to pass on. -/
def Dev.redCheck (d : Dev) (c part : Nat) : Dev :=
  match (d.red c).act with
  | some a => if a.start.isEmpty && a.todo.isEmpty && a.outs.isEmpty && a.left.isEmpty then d.redEnd c part 0 else d
  | none => d

/-- The source, and the destination where this member may finish the piece, can be reached now. -/
def Dev.pieceReady (d : Dev) (part : Nat) (q : RedPath) (p : Nat) (src dst : Bool) : Bool × Dev :=
  let (a, d) := if src then d.redReady part q.b.srcBuf false (q.b.src + p * q.pe * 4) (q.elems p * 4) else (true, d)
  let (b, d) := if dst then d.redReady part q.b.dstBuf true (q.b.dst + q.dstOff p) (q.elems p * q.eb) else (true, d)
  (a && b, d)

/-- This node writes the piece to its dst. -/
def RedPath.lands (q : RedPath) (p : Nat) : Bool := !q.b.homed || q.home p == q.g.meOut

/-- A piece of this member's own box of a gather: written in its place and sent on its way (R445). -/
def Dev.gatherOwn (d : Dev) (c part : Nat) (q : RedPath) (p : Nat) : Dev :=
  let i := p % q.np
  let (src, d) := d.redSrc c part q.b.srcBuf (q.b.src + i * q.pe * 4) (q.elems p * 4)
  match src with
  | none => d.redEnd c part 4
  | some bs =>
    let d := (d.pieceIn c part q p bs).updAct c fun a => { a with start := a.start.del p }
    if q.nodes = 1 then d else d.pieceOut c q (q.nextOut p (q.opos p)) 3 1 p bs

/-- Begin the pieces that this member begins, while their places can be reached. -/
def Dev.beginPieces (c part : Nat) (q : RedPath) : List Nat → Dev → Dev
  | [], d => d
  | p :: ps, d =>
    if (d.red c).act.isNone then d
    else if q.b.gather then
      let (a, d) := d.redReady part q.b.srcBuf false (q.b.src + p % q.np * q.pe * 4) (q.elems p * 4)
      let (b, d) := d.redReady part q.b.dstBuf true (q.b.dst + q.dstOff p) (q.elems p * 4)
      if a && b then Dev.beginPieces c part q ps (d.gatherOwn c part q p) else d
    else
      let (ok, d) := d.pieceReady part q p true (q.inner = 1 && q.lands p)
      if ok then Dev.beginPieces c part q ps (d.innerTurn c part q p none) else d

/-- What a message's header has to agree in (R431 status 3): count, piece size, format, elements, ring, sender. -/
def RedPath.agrees (q : RedPath) (type : Nat) (m : RedMsg) : Bool :=
  let p := m.piece.toNat
  let all := if q.b.gather then q.np * q.nodes else q.np
  let lvl := m.level.val
  let bytes := q.elems p * (if type = 2 then q.eb else 4)
  (type = 3) == q.b.gather && p < all && m.count.toNat = q.b.count && m.pieceLen.toNat = q.g.piece && m.fmt.toNat = q.b.fmt &&
  m.elems.toNat = q.elems p && m.payload.length = bytes && (type ≠ 3 || lvl = 1) &&
  m.ring.toNat = (if lvl = 0 then q.r p else q.ro p) &&
  (if lvl = 0 then q.inner ≠ 1 && m.sender.toNat = (q.ring p).getD ((q.pos p + q.inner - 1) % q.inner) 0
   else q.nodes ≠ 1 && m.sender.toNat = (q.oring p).getD ((q.opos p + q.nodes - 1) % q.nodes) 0)

/-- A message whose piece this member no longer waits for. -/
def RedAct.stale (a : RedAct) (type : Nat) (m : RedMsg) : Bool :=
  let p := m.piece.toNat
  if type = 1 then (if m.level.val = 0 then !a.todo.contains p else !a.outs.contains p || (a.ys.find? p).isSome)
  else !a.left.contains p

/-- A message of the active descriptor is worked on (R436, R437, R445). The Bool says that it was accepted. -/
def Dev.redTake (d : Dev) (c part type : Nat) (m : RedMsg) : Bool × Dev :=
  match (d.red c).act with
  | none => (false, d)
  | some a =>
    let q := a.path
    let p := m.piece.toNat
    let got (d : Dev) : Dev := (d.redCnt c 6 m.payload.length).redStamp c
    if !q.agrees type m then (true, d.redEnd c part 3)
    else if a.stale type m then (true, d.redCnt c 11 1)
    else if type = 1 then
      if m.level.val = 0 then
        let (ok, d) := d.pieceReady part q p true (q.nodes = 1 && q.pos p = q.it p && q.lands p)
        if ok then (true, (got d).innerTurn c part q p (some (wordsOf m.payload)) |>.redCheck c part) else (false, d)
      else
        let y := wordsOf m.payload
        match a.mids.find? p with
        | some x =>
          let (ok, d) := d.pieceReady part q p false (q.opos p = q.ot p && q.lands p)
          if ok then (true, (got d).outerAdd c part q p y x |>.redCheck c part) else (false, d)
        | none => (true, (got d).updAct c fun a => { a with ys := a.ys.insert p y })
    else
      let (ok, d) := d.pieceReady part q p false true
      if !ok then (false, d)
      else
        let d := (got d).pieceIn c part q p m.payload
        let d :=
          if type = 3 then
            let origin := p / q.np
            let i := (q.opos p + 1) % q.nodes
            if (q.oring p).getD i 0 = origin then d else d.pieceOut c q (q.nextOut p (q.opos p)) 3 1 p m.payload
          else if m.level.val = 1 then
            let d := if (q.opos p + 1) % q.nodes = q.ot p then d else d.pieceOut c q (q.nextOut p (q.opos p)) 2 1 p m.payload
            d.spreadIn c q p m.payload
          else if (q.pos p + 1) % q.inner = q.it p then d
          else d.spreadIn c q p m.payload
        (true, d.redCheck c part)

/-- The engine takes messages: its page works and its island is awake; a sleeping one is woken. -/
def Dev.redAwake (d : Dev) (c : Nat) : Bool × Dev :=
  let b := d.bst (pRede c)
  if b != .running && b != .quiescing then (false, d) else d.wakeKeys [bufKey c 0]

/-- A message of queue 0 arrives (R442, R443): for the active tag, for the next, or for one that has ended. -/
def redArrive (c type : Nat) (m : RedMsg) (d : Dev) : Dev :=
  match d.clusterOwner c, d.redAwake c with
  | some part, (true, d) =>
    let r := d.red c
    let tag := m.tag.toNat
    if (match r.act with | some a => (RedBody.of a.desc).tag == tag | none => false) then (d.redTake c part type m).2
    else if r.nextTag = some tag then d.updRed c fun r => { r with held := r.held ++ [(type, m)] }
    else if r.ended.contains tag then d.redCnt c 11 1
    else d
  | _, (_, d) => d
/-- RUNNING_SUM (R436). -/
def execRunningSum (c : Fin 16) (m : RedMsg) (s : State) : Host.Outcome State Fault Refusal := onDev (redArrive c.val 1 m) s
/-- FINISHED_BYTES (R437). -/
def execFinishedBytes (c : Fin 16) (m : RedMsg) (s : State) : Host.Outcome State Fault Refusal := onDev (redArrive c.val 2 m) s
/-- GATHER_BYTES (R445). -/
def execGatherBytes (c : Fin 16) (m : RedMsg) (s : State) : Host.Outcome State Fault Refusal := onDev (redArrive c.val 3 m) s

/-! ### Refusal and the heads of the queues (R428, R429) -/

/-- The engine refuses the head of queue i. -/
def Dev.redRefuse (d : Dev) (c part i reason : Nat) : Dev :=
  (((d.updRed c fun r => r.setQ i { r.q i with stopped := true, reason := reason }).errP (pRede c) 0x0101 (some part)).evtP
    (pRede c) 1 (some part)).redCnt c 2 1

def redHi (x : Desc) (o k : Nat) : Bool := bits (fld x o 8) 63 k ≠ 0

/-- Reserved bits and bytes of a body, by opcode. -/
def redReserved (x : Desc) : Bool :=
  let op := dOp x
  let b := RedBody.of x
  let buf (o : Nat) : Bool := bit (fld x o 8) 52 && bits (fld x o 8) 51 22 ≠ 0
  if op = 0xA0 then redHi x 0x20 53 || redHi x 0x28 53 || redHi x 0x30 53 || buf 0x28 || buf 0x30 || 1 < b.fmt
  else if op = 0xA1 then
    redHi x 0x20 52 || redHi x 0x28 53 || redHi x 0x30 53 || buf 0x28 || buf 0x30 || b.fmt ≠ 0
  else if op = 0xA4 then redHi x 0x20 52 || redHi x 0x28 53 || buf 0x28 || fld x 0x30 4 = 0 || !zeros x 0x34 12
  else if op = 0xA5 then redHi x 0x20 52 || fld x 0x28 1 = 0 || 64 < fld x 0x28 1 || !zeros x 0x29 23
  else if op = 0xA8 then redHi x 0x20 52 || redHi x 0x28 52 || redHi x 0x30 52 || bits (fld x 0x38 4) 31 21 ≠ 0
  else if op = 0xA9 then redHi x 0x20 52 || !zeros x 0x29 3 || !zeros x 0x30 16
  else redHi x 0x20 52 || redHi x 0x28 53 || !zeros x 0x32 10

/-- The reason for which the head of queue i is refused before it waits. -/
def redRefusal (i : Nat) (x : Desc) : Nat :=
  let op := dOp x
  let known := op = 0xA0 || op = 0xA1 || op = 0xA4 || op = 0xA5 || op = 0xA8 || op = 0xA9 || op = 0xAA
  let records := op ≠ 0xA9
  let w := fld x 0x38 4
  engRefusal (known && redQueueOf op = i) (redReserved x) [] [] (records && fld x 0x20 8 % 64 ≠ 0)
    [(0x34, (op = 0xA8 && (bits w 15 0 = 0 || bits w 19 16 = 0 || 8 < bits w 19 16)) || (op = 0xAA && fld x 0x30 2 = 0))] x

def Dev.redPop (d : Dev) (c i : Nat) : Dev := d.updRed c fun r => r.setQ i { r.q i with queue := (r.q i).queue.tail }

/-- The head of queue i, where its opcode is the command's. -/
def redHead (c i op : Nat) (run : Nat → Nat → Desc → Dev → Dev) (d : Dev) : Dev :=
  let q := (d.red c).q i
  match q.queue, d.clusterOwner c with
  | (_, x) :: _, some part =>
    if q.stopped ∨ !d.clReady (pRede c) c then d
    else
      let r := redRefusal i x
      if r ≠ 0 then d.redRefuse c part i r
      else if d.unmet (17 * c) x ≠ [] ∨ dOp x ≠ op then d
      else if d.predSkips (17 * c) x then
        ((((d.redPop c i).updRed c fun r =>
          { r with pipe := if i = 1 then none else r.pipe
                   ended := if i = 0 then r.ended.add (RedBody.of x).tag else r.ended }).redCnt c 1 1).redSignal c part i x)
      else run c part x d
  | _, _ => d

/-- Incoming links of a descriptor, each of which needs a 64 KiB slot of the receive area (R442, reason 0x35). -/
def RedPath.links (q : RedPath) : Nat :=
  (if q.b.gather || q.inner = 1 then 0 else q.g.rings.length) + (if q.nodes = 1 then 0 else q.g.orings.length)

/-- Work through the messages held for the descriptor that has become active (R442). -/
def Dev.redHeld (c part : Nat) : List (Nat × RedMsg) → Dev → Dev
  | [], d => d
  | (t, m) :: ms, d =>
    match (d.red c).act with
    | none => Dev.redHeld c part ms (d.redCnt c 11 1)
    | some _ =>
      let (ok, d) := d.redTake c part t m
      Dev.redHeld c part ms (if ok then d else d.updRed c fun r => { r with held := r.held ++ [(t, m)] })

/-- A head of queue 0 issues: its group record is read and checked, its pieces are laid out, what it begins is sent.
Pieces held for a tag whose descriptor was skipped or discarded are dropped as stale (R443). -/
def redIssue (c part : Nat) (x : Desc) (d : Dev) : Dev :=
  let b := RedBody.of x
  let (t, ok, d) := d.readTable part b.grp 0x40 groupTail
  if !ok then d
  else
    match t.filter groupOk with
    | none => d.redRefuse c part 0 0x30
    | some t =>
      let q : RedPath := ⟨b, Group.of t⟩
      let rx := d.reg (pRede c) 0x058
      if b.count = 0 ∨ (b.homed ∧ b.count % (q.nodes * q.pe) ≠ 0) then d.redRefuse c part 0 0x31
      else if bits rx 14 8 < q.links ∨ 64 < bits rx 5 0 + bits rx 14 8 then d.redRefuse c part 0 0x35
      else
        let ps := List.range q.np
        let a : RedAct :=
          if b.gather then
            { desc := x, grp := q.g, start := ps.map fun i => q.g.meOut * q.np + i, todo := [], outs := []
              left := List.range (q.np * q.nodes), mids := [], ys := [], since := d.timer (fabIsle c) }
          else
            { desc := x, grp := q.g, start := ps.filter fun p => q.pos p = q.s p, todo := ps.filter fun p => q.pos p ≠ q.s p
              outs := if q.nodes = 1 then [] else ps.filter fun p => q.pos p = q.it p
              left := ps.filter q.lands, mids := [], ys := [], since := d.timer (fabIsle c) }
        let held := (d.red c).held
        let mine := held.filter fun (m : Nat × RedMsg) => m.2.tag.toNat == b.tag
        let d := (d.redPop c 0).updRed c fun r => { r with act := some a, held := [] }
        let d := Dev.beginPieces c part q a.start (d.redCnt c 11 (held.length - mine.length))
        (Dev.redHeld c part mine d).redCheck c part

/-- RED_CHAIN and RED_GATHER: go on with the pieces that the active descriptor begins, or issue the head. -/
def redRun (c op : Nat) (d : Dev) : Dev :=
  match (d.red c).act, d.clusterOwner c with
  | some a, some part =>
    if dOp a.desc ≠ op ∨ d.bst (pRede c) = .halted then d
    else
      let held := (d.red c).held.filter fun (m : Nat × RedMsg) => m.2.tag.toNat == a.path.b.tag
      let d := d.updRed c fun r => { r with held := r.held.filter fun (m : Nat × RedMsg) => !(m.2.tag.toNat == a.path.b.tag) }
      let d := Dev.beginPieces c part a.path a.start d
      (Dev.redHeld c part held d).redCheck c part
  | _, _ => redHead c 0 op redIssue d
/-- RED_CHAIN (R435). -/
def execRedChain (c : Fin 16) (s : State) : Host.Outcome State Fault Refusal := onDev (redRun c.val 0xA0) s
/-- RED_GATHER (R445). -/
def execRedGather (c : Fin 16) (s : State) : Host.Outcome State Fault Refusal := onDev (redRun c.val 0xA1) s

/-- REDE_CTL.skip_head of queue q. -/
def redSkip (v : View) (c q : Nat) (d : Dev) : Dev :=
  d.through v (pRede c) 0x050 fun d =>
    if ((d.red c).q q).stopped then d.updRed c fun r => r.setQ q ⟨(r.q q).queue.tail, false, 0⟩ else d
/-- REDE_SKIP_HEAD (R429). -/
def execRedeSkipHead (v : View) (c : Fin 16) (q : Fin 3) (s : State) : Host.Outcome State Fault Refusal :=
  onDev (redSkip v c.val q.val) s

/-! ### Pipeline links (R448–R452) -/

/-- A link record. -/
def Dev.readLink (d : Dev) (part va : Nat) : Option Link × Bool × Dev :=
  let (t, ok, d) := d.readTable part va 64 fun _ => 0
  ((t.map Link.of).filter fun (l : Link) => l.ok, ok, d)

/-- A descriptor of queue 1 ends. -/
def Dev.pipeEnd (d : Dev) (c part : Nat) (x : Desc) (status : Nat) : Dev :=
  (((d.redPop c 1).updRed c fun r => { r with pipe := none }).redStatus c part (dOp x) status).redSignal c part 1 x

def Dev.pipeMsg (d : Dev) (l : Link) (slot elems count : Nat) (bytes : List Byte) : RedMsg :=
  { fromDev := BitVec.ofNat 16 d.selfDev, level := 0, ring := 0, fmt := 0, tag := BitVec.ofNat 32 l.id
    piece := BitVec.ofNat 32 slot, elems := BitVec.ofNat 32 elems, count := BitVec.ofNat 32 count, pieceLen := 0
    sender := 0, payload := bytes }

/-- PIPE_SEND: held while the receiver has no free slot. -/
def pipeSend (c part : Nat) (x : Desc) (d : Dev) : Dev :=
  let va := fld x 0x20 8
  let s := fld x 0x28 8
  let n := fld x 0x30 4
  let (l, ok, d) := d.readLink part va
  if !ok then d
  else
    match l with
    | none => d.redRefuse c part 1 0x32
    | some l =>
      if l.role ≠ 0 ∨ l.slotBytes < n then d.redRefuse c part 1 0x32
      else if l.q ≤ l.sent - l.freed then
        let was := (d.red c).pipe.isSome
        let d := d.updRed c fun r => { r with pipe := some l.peer.dev }
        if was then d else let (k, d) := d.freeNat 63; d.redCnt c 7 k
      else
        let (ok, d) := d.redReady part (bit s 52) false (bits s 51 0) n
        if !ok then d
        else
          let (src, d) := d.redSrc c part (bit s 52) (bits s 51 0) n
          match src with
          | none => d.pipeEnd c part x 4
          | some bytes =>
            let d := (d.tWrite part agEngine (va + 0x28) (leBytes 8 (l.sent + 1)) []).redCnt c 12 1
            let d := (d.redSend l.peer 0 4 (d.pipeMsg l (l.sent % l.q) n 0 bytes)).redCnt c 5 n
            d.pipeEnd c part x 0
/-- PIPE_SEND (R450). -/
def execPipeSend (c : Fin 16) (s : State) : Host.Outcome State Fault Refusal := onDev (redHead c.val 1 0xA4 pipeSend) s

/-- PIPE_FREE: slots go back to the sending end. -/
def pipeFree (c part : Nat) (x : Desc) (d : Dev) : Dev :=
  let va := fld x 0x20 8
  let n := fld x 0x28 1
  let (l, ok, d) := d.readLink part va
  if !ok then d
  else
    match l with
    | none => d.redRefuse c part 1 0x32
    | some l =>
      if l.role ≠ 1 then d.redRefuse c part 1 0x32
      else
        let d := (d.tWrite part agEngine (va + 0x30) (leBytes 8 (l.freed + n)) []).redCnt c 13 n
        (d.redSend l.peer 0 5 (d.pipeMsg l 0 0 n [])).pipeEnd c part x 0
/-- PIPE_FREE (R451). -/
def execPipeFree (c : Fin 16) (s : State) : Host.Outcome State Fault Refusal := onDev (redHead c.val 1 0xA5 pipeFree) s

/-- A signal word of a cluster counter. -/
def clusterSig (c ctr inc : Nat) : Word := BitVec.ofNat 32 (ctr + c * 4096 + 65536 + 131072 + inc * 16777216)

/-- A slot's data arrives at the receiving end (R450). -/
def pipeData (c va : Nat) (m : RedMsg) (d : Dev) : Dev :=
  match d.clusterOwner c, d.redAwake c with
  | some part, (true, d) =>
    let (l, _, d) := d.readLink part va
    match l with
    | none => d
    | some l =>
      let at_ := l.slots + m.piece.toNat * l.slotBytes
      if l.role ≠ 1 ∨ l.id ≠ m.tag.toNat ∨ l.peer.dev ≠ m.fromDev.toNat ∨ l.q ≤ m.piece.toNat ∨ l.slotBytes < m.payload.length then d
      else
        let (ok, d) := d.prepare part agEngine true at_ m.payload.length
        if !ok then d
        else
          ((d.tWrite part agEngine at_ m.payload []).redCnt c 6 m.payload.length).signal (clusterSig c l.arrival 1)
            (partFin part) (srcEng 1 c 3)
  | _, (_, d) => d
/-- PIPE_DATA (R450). -/
def execPipeData (c : Fin 16) (record : Nat) (m : RedMsg) (s : State) : Host.Outcome State Fault Refusal :=
  onDev (pipeData c.val record m) s

/-- Credits arrive at the sending end (R451). -/
def pipeCredit (c va : Nat) (m : RedMsg) (d : Dev) : Dev :=
  match d.clusterOwner c, d.redAwake c with
  | some part, (true, d) =>
    let (l, _, d) := d.readLink part va
    match l with
    | none => d
    | some l =>
      if l.role ≠ 0 ∨ l.id ≠ m.tag.toNat ∨ l.peer.dev ≠ m.fromDev.toNat then d
      else
        (d.tWrite part agEngine (va + 0x30) (leBytes 8 (l.freed + m.count.toNat)) []).signal
          (clusterSig c l.credit (m.count.toNat % 256)) (partFin part) (srcEng 1 c 3)
  | _, (_, d) => d
/-- PIPE_CREDIT (R451). -/
def execPipeCredit (c : Fin 16) (record : Nat) (m : RedMsg) (s : State) : Host.Outcome State Fault Refusal :=
  onDev (pipeCredit c.val record m) s

/-! ### Token exchange (R455–R467) -/

/-- An expert map (R455): members, and by expert its replicas as member and slot. -/
structure ExpMap where
  members : List Member
  experts : List (List (Nat × Nat))
  deriving DecidableEq, Repr

def expTail (b : List Byte) : Nat := 8 * fld b 8 2 + 32 * fld b 6 2

def ExpMap.of (b : List Byte) : ExpMap :=
  let o := 0x10 + 8 * fld b 8 2
  { members := (List.range (fld b 8 2)).map fun i => memberAt b (0x10 + 8 * i)
    experts := (List.range (fld b 6 2)).map fun x => (List.range (Nat.min 7 (fld b (o + 32 * x) 1))).map fun r =>
      (fld b (o + 32 * x + 4 + 4 * r) 2, fld b (o + 32 * x + 6 + 4 * r) 1) }

def expOk (b : List Byte) : Bool :=
  let e := fld b 6 2; let m := fld b 8 2
  let o := 0x10 + 8 * m
  fld b 0 4 = 0x58564C45 && fld b 4 2 = 1 && 1 ≤ e && e ≤ 1024 && 1 ≤ m && m ≤ 1024 && zeros b 0x0A 6 &&
  ((List.range m).all fun i => zeros b (0x10 + 8 * i + 4) 4) &&
  ((List.range e).all fun x =>
    let n := fld b (o + 32 * x) 1
    1 ≤ n && n ≤ 7 && zeros b (o + 32 * x + 1) 3 &&
    ((List.range n).all fun r => fld b (o + 32 * x + 4 + 4 * r) 2 < m && zeros b (o + 32 * x + 7 + 4 * r) 1) &&
    zeros b (o + 32 * x + 4 + 4 * n) (4 * (7 - n)))

/-- The header of a route record (R457). -/
structure Route where
  e : Nat
  map : Nat
  ret : Nat
  rowBytes : Nat
  cf : Nat
  me : Nat
  ok : Bool
  deriving DecidableEq, Repr

def Route.of (b : List Byte) : Route :=
  { e := fld b 6 2, map := bits (fld b 8 8) 51 0, ret := bits (fld b 0x10 8) 51 0, rowBytes := fld b 0x18 4
    cf := fld b 0x1C 2, me := fld b 0x1E 2
    ok := fld b 0 4 = 0x52564C45 && fld b 4 2 = 1 && bits (fld b 8 8) 63 52 = 0 && bits (fld b 0x10 8) 63 52 = 0 &&
      bits (fld b 8 8) 5 0 = 0 && fld b 0x18 4 % 64 = 0 && 1 ≤ fld b 0x18 4 && fld b 0x18 4 ≤ 65536 && 256 ≤ fld b 0x1C 2 &&
      zeros b 0x30 16 }

/-- The indices of a list of logits in descending order, equal values by index: insertion into a sorted list. -/
def topInsert (x : Nat × Val) : List (Nat × Val) → List (Nat × Val)
  | [] => [x]
  | y :: ys => if Val.lt y.2 x.2 then x :: y :: ys else y :: topInsert x ys

/-- The first k of a list of logits in descending order. -/
def topK (k : Nat) (ls : List Word) : List (Nat × Val) :=
  ((enumFrom 0 (ls.map vOf)).foldl (fun l x => topInsert x l) []).take k

/-- The weights of a token's ranks (R459), the division and the exponential within their bounds of R171. -/
def gateWeights (use : Nat) (gate : Nat) (sel : List (Nat × Val)) : List Word :=
  let l := sel.map fun (x : Nat × Val) => f32 x.2
  if gate = 1 then l
  else
    let z := (enumFrom 0 l).map fun (x : Nat × Word) => f32 (transc use 0x58 x.1 (fsub x.2 (l.getD 0 0#32)) 0#32).v
    let s := fsum z
    (enumFrom 0 z).map fun (x : Nat × Word) => f32 (transc use 0x51 (16 + x.1) x.2 s).v

/-- An assignment (R459): token, rank, expert, member, slot, position where kept, weight. -/
structure Assign where
  token : Nat
  rank : Nat
  expert : Nat
  member : Nat
  slot : Nat
  pos : Option Nat
  weight : Word
  deriving DecidableEq, Repr

/-- Place one assignment: used counts rows by expert × 8 + replica. -/
def placeOne (m : ExpMap) (cap me : Nat) (st : SMap Nat × List Assign) (a : Nat × Nat × Nat × Word) : SMap Nat × List Assign :=
  let (i, j, x, w) := a
  let reps := m.experts.getD x []
  let r := (i + me) % reps.length
  let (mem, slot) := reps.getD r (0, 0)
  let u := st.1.get 0 (x * 8 + r)
  if u < cap then (st.1.put 0 (x * 8 + r) (u + 1), st.2 ++ [⟨i, j, x, mem, slot, some u, w⟩])
  else (st.1, st.2 ++ [⟨i, j, x, mem, slot, none, w⟩])

/-- The whole routing: tokens dropped for a NaN, and the assignments, every token's rank j before any rank j + 1. -/
def routeAll (m : ExpMap) (use cap me k gate : Nat) (logits : List (List Word)) : SSet × List Assign :=
  let toks := enumFrom 0 logits
  let nan := (toks.filter fun (t : Nat × List Word) => t.2.any fun w => vOf w == .nan).map (·.1)
  let ok := toks.filter fun (t : Nat × List Word) => !nan.contains t.1
  let sels := ok.map fun (t : Nat × List Word) =>
    let sel := topK k t.2
    (t.1, (sel.map (·.1)).zip (gateWeights (use + t.1) gate sel))
  let order := (List.range k).flatMap fun j => sels.filterMap fun (t : Nat × List (Nat × Word)) =>
    (t.2[j]?).map fun (x : Nat × Word) => (t.1, j, x.1, x.2)
  (nan, (order.foldl (placeOne m cap me) (([] : SMap Nat), ([] : List Assign))).2)

/-- The 16 bytes of an entry. -/
def Assign.bytes (a : Assign) : List Byte :=
  leBytes 2 a.expert ++ leBytes 2 a.member ++ leBytes 1 a.slot ++ zbytes 1 ++ leBytes 2 (a.pos.getD 0) ++
  leBytes 4 a.weight.toNat ++ leBytes 1 (b2n a.pos.isSome) ++ zbytes 3

/-- A descriptor of queue 2 ends. -/
def Dev.tokEnd (d : Dev) (c part : Nat) (x : Desc) (status : Nat) : Dev :=
  ((d.redPop c 2).redStatus c part (dOp x) status).redSignal c part 2 x

def Dev.tokMsg (d : Dev) (tag slot elems sender : Nat) (bytes : List Byte) : RedMsg :=
  { fromDev := BitVec.ofNat 16 d.selfDev, level := 0, ring := 0, fmt := 1, tag := BitVec.ofNat 32 tag
    piece := BitVec.ofNat 32 slot, elems := BitVec.ofNat 32 elems, count := 0, pieceLen := 0
    sender := BitVec.ofNat 16 sender, payload := bytes }

/-- TOK_ROUTE: the tables are read and checked, the tokens are routed, the record is filled, and every slot of every
replica gets its message (R457–R460). -/
def tokRoute (c part : Nat) (x : Desc) (d : Dev) : Dev :=
  let va := fld x 0x20 8; let lva := fld x 0x28 8; let tva := fld x 0x30 8
  let w := fld x 0x38 4
  let t := bits w 15 0; let k := bits w 19 16; let gate := bits w 20 20; let tag := fld x 0x3C 4
  let (h, ok, d) := d.readTable part va 64 fun _ => 0
  if !ok then d
  else
    match (h.map Route.of).filter fun (r : Route) => r.ok with
    | none => d.redRefuse c part 2 0x33
    | some r =>
      let (mb, ok, d) := d.readTable part r.map 16 expTail
      if !ok then d
      else
        match (mb.filter expOk).map ExpMap.of with
        | none => d.redRefuse c part 2 0x33
        | some m =>
          if r.e ≠ m.experts.length ∨ m.members.length ≤ r.me then d.redRefuse c part 2 0x33
          else
            let pitch := cdiv (4 * r.e) 64 * 64
            let (ok, d) := d.prepareAll part agEngine false [(lva, t * pitch), (tva, t * r.rowBytes)]
            if !ok then d
            else
              let (lg, d) := d.tRead part agEngine lva (t * pitch)
              let (tk, d) := d.tRead part agEngine tva (t * r.rowBytes)
              let dst := va + 0x40
              if lg.fault ∨ lg.bad ≠ [] ∨ tk.fault ∨ tk.bad ≠ [] then
                let d := match lg.first, tk.first with
                  | some v, _ => d.poisonRead (pRede c) 1 v (some part)
                  | none, some v => d.poisonRead (pRede c) 1 v (some part)
                  | none, none => d
                (((d.tMark part dst (16 * t * k)).tWrite part agEngine (va + 0x2C) (leBytes 4 4) [])).tokEnd c part x 4
              else
                let use := d.free
                let d := { d with free := d.free + t }
                let rows := (List.range t).map fun i => (wordsOf ((lg.bytes.drop (i * pitch)).take (4 * r.e)))
                let cap := cdiv (r.cf * t * k) (256 * r.e)
                let (nan, as) := routeAll m use cap r.me k gate rows
                let kept := as.filter fun (a : Assign) => a.pos.isSome
                let d := as.foldl (fun (d : Dev) (a : Assign) => d.tWrite part agEngine (dst + 16 * (a.token * k + a.rank)) a.bytes [])
                  (d.tWrite part agEngine dst (zbytes (16 * t * k)) [])
                let d := d.tWrite part agEngine (va + 0x20)
                  (leBytes 4 cap ++ leBytes 4 kept.length ++ leBytes 4 (as.length - kept.length) ++ leBytes 4 0) []
                let die := c / 4
                let d := ((((d.tokCnt die part 0 t).tokCnt die part 1 kept.length).tokCnt die part 2 (as.length - kept.length)).tokCnt
                  die part 3 nan.length).tokCnt die part 4 kept.length
                let run : TokRun := ⟨tag, r.ret, r.rowBytes, k, nan, kept.map fun (a : Assign) =>
                  (⟨a.token * k + a.rank, a.member, a.slot, a.pos.getD 0, (m.members.getD a.member ⟨0, 0, 0⟩).dev⟩ : TokRow), 0⟩
                let d := d.updRed c fun q => { q with runs := (q.runs.filter fun (o : TokRun) => o.tag ≠ tag) ++ [run] }
                let slots := (enumFrom 0 m.experts).flatMap fun (e : Nat × List (Nat × Nat)) => e.2.map fun (q : Nat × Nat) => (e.1, q)
                let d := slots.foldl (fun (d : Dev) (q : Nat × (Nat × Nat)) =>
                  let mine := kept.filter fun (a : Assign) => a.expert = q.1 && a.member = q.2.1 && a.slot = q.2.2
                  let bytes := mine.flatMap fun (a : Assign) => (tk.bytes.drop (a.token * r.rowBytes)).take r.rowBytes
                  d.redSend (m.members.getD q.2.1 ⟨0, 0, 0⟩) 1 6 (d.tokMsg tag q.2.2 mine.length r.me bytes)) d
                d.tokEnd c part x 0

/-- A head of queue 2 issues only with no combine in progress. -/
def whenNoComb (run : Nat → Nat → Desc → Dev → Dev) (c part : Nat) (x : Desc) (d : Dev) : Dev :=
  if (d.red c).comb.isSome then d else run c part x d
/-- TOK_ROUTE (R459). -/
def execTokRoute (c : Fin 16) (s : State) : Host.Outcome State Fault Refusal := onDev (redHead c.val 2 0xA8 (whenNoComb tokRoute)) s

/-- Rows for a slot arrive (R462). -/
def tokenRows (die p : Nat) (m : RedMsg) (d : Dev) : Dev :=
  let s := m.piece.toNat
  let tag := m.tag.toNat
  let q := m.sender.toNat
  let above (n : Nat) (d : Dev) : Dev := if n = 0 then d else (d.tokCnt die p 6 n).evtP (pTokx die) 1 (some p)
  if d.slotCount die p ≤ s then above m.elems.toNat d
  else if d.tokx.done.contains (die, p, s, tag) then d.tokMissing die p
  else
    match d.slotEnt die p s with
    | (none, _, d) => d
    | (some e, _, d) =>
      let n := Nat.min m.elems.toNat e.cap
      if e.nsrc ≤ q then above m.elems.toNat d
      else
        let at_ := e.buf + q * e.cap * e.rowBytes
        let (ok, d) := d.prepareAll p agEngine true ((e.counts + 2 * q, 2) :: e.places)
        if !ok then d
        else
          let d := d.updTokx fun x => { x with srcs := x.srcs.insert (srcKey die p s q) m.fromDev.toNat }
          let d := (List.range n).foldl (fun (d : Dev) i =>
            d.tWrite p agEngine (at_ + i * e.rowBytes) ((m.payload.drop (i * e.rowBytes)).take e.rowBytes) []) d
          let d := (d.tWrite p agEngine (e.counts + 2 * q) (leBytes 2 n) []).tokCnt die p 5 n
          let d := above (m.elems.toNat - n) d
          let t := (d.tokx.open_.find? fun (o : SlotTag) => o.is die p s tag).getD ⟨die, p, s, tag, [], [], 0, 0⟩
          d.slotSettle e { t with heard := t.heard.add q, rows := t.rows.addRange (q * e.cap) n, total := t.total + n
                                  since := d.timer (fabIsle e.cluster) } false
/-- TOKEN_ROWS (R462). -/
def execTokenRows (d : Fin 4) (p : Fin 16) (m : RedMsg) (s : State) : Host.Outcome State Fault Refusal :=
  onDev (tokenRows d.val p.val m) s

/-- A slot waits no longer for a tag of which it has received a message (R467). -/
def slotTimeout (die p s tag : Nat) (d : Dev) : Dev :=
  match d.tokx.open_.find? fun (o : SlotTag) => o.is die p s tag with
  | none => d
  | some t =>
    match d.slotEnt die p s with
    | (some e, _, d) =>
      let (ok, d) := d.prepareAll p agEngine true e.places
      if ok then ((d.reach (fabIsle e.cluster) (t.since + d.redLimit e.cluster)).tokMissing die p).slotDone e t else d
    | (none, _, d) => d
/-- SLOT_TAG_TIMEOUT (R467). -/
def execSlotTagTimeout (d : Fin 4) (p : Fin 16) (slot : Fin 256) (tag : BitVec 32) (s : State) :
    Host.Outcome State Fault Refusal := onDev (slotTimeout d.val p.val slot.val tag.toNat) s

/-- TOK_RETURN: each source gets its rows back (R463). The header's member index, and the cluster of the source, stand
in no table that the engine has: they are free. -/
def tokReturn (c part : Nat) (x : Desc) (d : Dev) : Dev :=
  let die := c / 4
  let s := fld x 0x28 1
  let tag := fld x 0x2C 4
  if d.slotCount die part ≤ s then d.redRefuse c part 2 0x33
  else
    match d.slotEnt die part s with
    | (_, false, d) => d
    | (none, true, d) => d.redRefuse c part 2 0x33
    | (some e, true, d) =>
      let buf := fld x 0x20 8
      let (ok, d) := d.prepareAll part agEngine false [(buf, e.nsrc * e.cap * e.rowBytes), (e.counts, 2 * e.nsrc)]
      if !ok then d
      else
        let (ks, d) := d.tRead part agEngine e.counts (2 * e.nsrc)
        let (rs, d) := d.tRead part agEngine buf (e.nsrc * e.cap * e.rowBytes)
        let n (q : Nat) : Nat := Nat.min e.cap (fld ks.bytes (2 * q) 2)
        let used := (List.range e.nsrc).any fun q => rs.bad.any fun o =>
          q * e.cap * e.rowBytes ≤ o && o < (q * e.cap + n q) * e.rowBytes
        if ks.fault ∨ ks.bad ≠ [] ∨ used then
          let d := match ks.first, rs.first with
            | some v, _ => d.poisonRead (pRede c) 1 v (some part)
            | none, some v => d.poisonRead (pRede c) 1 v (some part)
            | none, none => d
          d.tokEnd c part x 4
        else
          let (me, d) := d.freeBits 64 16
          let (cl, d) := d.freeBits 65 4
          let d := (List.range e.nsrc).foldl (fun (d : Dev) q =>
            match d.tokx.srcs.find? (srcKey die part s q) with
            | none => d
            | some dev =>
              let bytes := (rs.bytes.drop (q * e.cap * e.rowBytes)).take (n q * e.rowBytes)
              (d.redSend ⟨dev, cl.toNat, part⟩ 1 7 (d.tokMsg tag s (n q) me.toNat bytes)).tokCnt die part 7 (n q)) d
          d.tokEnd c part x 0
/-- TOK_RETURN (R463). -/
def execTokReturn (c : Fin 16) (s : State) : Host.Outcome State Fault Refusal := onDev (redHead c.val 2 0xA9 (whenNoComb tokReturn)) s

/-- Rows come back to their source (R464): the rows of that member's slot that did not come are lost to overflow. -/
def tokenReturn (c : Nat) (m : RedMsg) (d : Dev) : Dev :=
  match d.clusterOwner c, d.redAwake c with
  | some part, (true, d) =>
    match (d.red c).runs.find? fun (r : TokRun) => r.tag == m.tag.toNat with
    | none => d
    | some r =>
      let mine := r.open_.filter fun (o : TokRow) => o.member = m.sender.toNat && o.slot = m.piece.toNat
      let (ok, d) := d.prepareAll part agEngine true (mine.map fun (o : TokRow) => (r.ret + o.row * r.rowBytes, r.rowBytes))
      if !ok ∨ mine.isEmpty then d
      else
        let d := mine.foldl (fun (d : Dev) (o : TokRow) =>
          if o.pos < m.elems.toNat then
            d.tWrite part agEngine (r.ret + o.row * r.rowBytes) ((m.payload.drop (o.pos * r.rowBytes)).take r.rowBytes) []
          else d.rowLost part r o.row) d
        let above := mine.any fun (o : TokRow) => m.elems.toNat ≤ o.pos
        let d := d.setRun c { r with
          open_ := r.open_.filter fun (o : TokRow) => !(o.member = m.sender.toNat && o.slot = m.piece.toNat)
          status := if above && r.status = 0 then 5 else r.status }
        let now := d.timer (fabIsle c)
        let d := d.updRed c fun q => { q with comb := q.comb.map fun (x : Desc × Nat) => (x.1, now) }
        d.combine c part
  | _, (_, d) => d
/-- TOKEN_RETURN (R464). -/
def execTokenReturn (c : Fin 16) (m : RedMsg) (s : State) : Host.Outcome State Fault Refusal := onDev (tokenReturn c.val m) s

/-- TOK_COMBINE (R465): it waits for the rows of its tag that are still out. -/
def tokCombine (c part : Nat) (x : Desc) (d : Dev) : Dev :=
  let b := CombBody.of x
  let (h, ok, d) := d.readTable part b.route 64 fun _ => 0
  if !ok then d
  else
    match (h.map Route.of).filter fun (r : Route) => r.ok with
    | none => d.redRefuse c part 2 0x33
    | some _ =>
      let now := d.timer (fabIsle c)
      ((d.redPop c 2).updRed c fun r => { r with comb := some (x, now) }).combine c part

/-- Goes on with a combine whose rows are back but whose places could not be reached, or issues the head. -/
def combRun (c : Nat) (d : Dev) : Dev :=
  match (d.red c).comb, d.clusterOwner c with
  | some _, some part => d.combine c part
  | _, _ => redHead c 2 0xAA tokCombine d
/-- TOK_COMBINE (R465). -/
def execTokCombine (c : Fin 16) (s : State) : Host.Outcome State Fault Refusal := onDev (combRun c.val) s

/-! ### No progress (R443, R467) -/

/-- The active descriptor of a queue has made no progress for REDE_TIMEOUT: it ends with status 1. -/
def noProgress (c q : Nat) (d : Dev) : Dev :=
  match d.clusterOwner c with
  | none => d
  | some part =>
    let lim := d.redLimit c
    if q = 0 then
      match (d.red c).act with
      | some a => (d.reach (fabIsle c) (a.since + lim)).redEnd c part 1
      | none => d
    else if q = 2 then
      match (d.red c).comb with
      | some (x, since) =>
        let b := CombBody.of x
        let d := d.reach (fabIsle c) (since + lim)
        match (d.red c).runs.find? fun (r : TokRun) => r.tag == b.tag with
        | some r =>
          let d := r.open_.foldl (fun (d : Dev) (o : TokRow) => d.rowLost part r o.row) d
          (d.tMark part b.out (b.t * r.rowBytes * if b.fp32 then 2 else 1)).combEnd c part 1
        | none => d.combEnd c part 1
      | none => d
    else d
/-- REDE_NO_PROGRESS_TIMEOUT (R443). -/
def execRedeNoProgressTimeout (c : Fin 16) (q : Fin 3) (s : State) : Host.Outcome State Fault Refusal :=
  onDev (noProgress c.val q.val) s

end Sys2Proof.Machine
end

