-- ==== Sys2Proof/Machine/Secure.lean ====
section
/-!
DEFINITION. The security controller and the management endpoint (chapter 18): firmware loads and selection, security
versions, fabric keys, SPDM, and the management messages that are not of another chapter. SPDM and MCTP message layouts
are those of the standards that R672 and R676 name (PRESUMED).
-/

namespace Sys2Proof.Machine

/-! ### Firmware images (R663–R668) -/

/-- Bytes of an image, its padding included. -/
def imageLen (b : List Byte) : Nat := 4096 + fld b 0x10 8

/-- The first check of R664 that an image fails, as its status; 0 when it passes all. -/
def imageCheck (kind revoked fused : Nat) (b : List Byte) : Nat :=
  let key := fld b 7 1
  let len := fld b 0x10 8
  let L := fld b 0x180 2
  let form := (b.take 4 == [0x45#8, 0x4C#8, 0x56#8, 0x46#8]) && fld b 4 2 == 1 && fld b 6 1 == kind && key < 4 &&
    fld b 0xC 1 ≤ 64 && fld b 0xD 1 < 2 && zeros b 0xE 2 && len % 4096 == 0 && zeros b 0x18 8 && zeros b 0x50 48 &&
    zeros b 0xE1 3 && zeros b 0x114 12 && L ≤ 1860 && zeros b 0x182 2 && zeros b (0x184 + L) (0x1000 - 0x184 - L) &&
    4096 + len ≤ b.length
  let ec := (b.drop 0x80).take 97
  let lms := (b.drop 0xE4).take 48
  let signed := b.take 0x120
  if !form then 1
  else if bit revoked key then 2
  else if Config.sha384 ec ≠ Config.fuseBits (100 + 2 * key) 384 ∨ Config.sha384 lms ≠ Config.fuseBits (101 + 2 * key) 384 then 3
  else if beBytes 48 (Config.sha384 ((b.drop 4096).take len)).toNat ≠ (b.drop 0x20).take 48 then 4
  else if !Config.ecdsaVerify ec signed ((b.drop 0x120).take 96) then 5
  else if !Config.lmsVerify lms signed ((b.drop 0x184).take L) then 6
  else if fld b 0xC 1 < fused then 7
  else 0

/-- A bundle's first failing status, with the kind of the image that failed (R664, R668). -/
def bundleCheck (s : Sec) (b : List Byte) : Nat × Nat :=
  match imageCheck 1 s.revoked s.svn1 b with
  | 0 =>
    let rest := b.drop (imageLen b)
    match imageCheck 2 s.revoked s.svn2 rest with
    | 0 => if rest.length = imageLen rest then (0, 0) else (1, 2)
    | n => (n, 2)
  | n => (n, 1)

/-- The slot with a letter, and setting it. -/
def Sec.slot (s : Sec) (b : Bool) : FwSlot := if b then s.slotB else s.slotA
def Sec.setSlot (s : Sec) (b : Bool) (x : FwSlot) : Sec := if b then { s with slotB := x } else { s with slotA := x }

def Dev.updSec (d : Dev) (f : Sec → Sec) : Dev := { d with sec := f d.sec }

/-- SECC_FW_CMD = 1 (R668): the slot that is not selected is invalid from the first write. -/
def fwLoad (d : Dev) : Dev :=
  let len := bits (d.reg pSecc 0x058) 24 0
  if d.sec.loading.isSome then d.err .pf pSecc 0x0101
  else if len = 0 ∨ len % 4096 ≠ 0 ∨ 29360128 < len then d.updSec fun s => { s with fwStatus := 9, fwKind := 0 }
  else if !d.irq.bme.contains 0 then d.updSec fun s => { s with fwStatus := 11, fwKind := 0 }
  else d.updSec fun s =>
    { s.setSlot (!s.bootB) ⟨false, []⟩ with
      loading := some (!s.bootB, d.reg pSecc 0x050 + 4294967296 * d.reg pSecc 0x054, len), fwStatus := 0, fwKind := 0 }
/-- FW_LOAD (R668). -/
def execFwLoad (v : View) (s : State) : Host.Outcome State Fault Refusal := onDev (fun d => d.privOnly v pSecc 0x05C fwLoad) s

/-- The end of a load: the bundle is in the slot, and valid if both images pass (R668). -/
def fwLoadDone (bundle : List Byte) (busError : Bool) (d : Dev) : Dev :=
  match d.sec.loading with
  | none => d
  | some (b, _, len) =>
    let r := if busError then (8, 0) else if bundle.length ≠ len then (1, 1) else bundleCheck d.sec bundle
    let d := d.updSec fun s =>
      { s.setSlot b ⟨r.1 == 0, if busError then [] else bundle⟩ with loading := none, fwStatus := r.1, fwKind := r.2 }
    (d.evt .pf pSecc 1).cnt .pf pSecc (if r.1 = 0 then 0 else 1) 1
/-- FW_LOAD_DONE (R668). -/
def execFwLoadDone (bundle : List Byte) (busError : Bool) (s : State) : Host.Outcome State Fault Refusal :=
  onDev (fwLoadDone bundle busError) s

/-- SECC_FW_CMD = 2 (R668). -/
def fwSelect (d : Dev) : Dev :=
  if d.sec.loading.isSome then d.err .pf pSecc 0x0101
  else if !(d.sec.slot (!d.sec.bootB)).valid then d.updSec fun s => { s with fwStatus := 10, fwKind := 0 }
  else d.updSec fun s => { s with bootB := !s.bootB, fwStatus := 0, fwKind := 0 }
/-- FW_SELECT (R668). -/
def execFwSelect (v : View) (s : State) : Host.Outcome State Fault Refusal :=
  onDev (fun d => d.privOnly v pSecc 0x05C fwSelect) s

/-- Raise the banks to the svn of the running images chosen, then judge the slot that is not running by check 7 (R666,
R667). -/
def svnRaise (one two : Bool) (d : Dev) : Dev :=
  let d := d.updSec fun s =>
    let s := { s with svn1 := if one then Nat.max s.svn1 (fld s.run1 0xC 1) else s.svn1
                      svn2 := if two then Nat.max s.svn2 (fld s.run2 0xC 1) else s.svn2 }
    let x := s.slot (!s.runB)
    let low := fld x.bundle 0xC 1 < s.svn1 ∨ fld (x.bundle.drop (imageLen x.bundle)) 0xC 1 < s.svn2
    s.setSlot (!s.runB) { x with valid := x.valid && !(decide low) }
  (d.evt .pf pSecc 2).cnt .pf pSecc 2 1
/-- SVN_COMMIT (R666). -/
def execSvnCommit (v : View) (s : State) : Host.Outcome State Fault Refusal :=
  onDev (fun d => d.privOnly v pSecc 0x064 (svnRaise true true)) s

/-- Run is first reached after a boot without fallback: images whose commit_svn flag is set (R666). -/
def svnAuto (d : Dev) : Dev :=
  let s := d.sec
  let one := bit (fld s.run1 0xD 1) 0
  let two := bit (fld s.run2 0xD 1) 0
  if s.autoSvn || s.fallback || d.boot.step != 8 || d.pwr.state != 0 || d.boot.recovery then d
  else
    let d := d.updSec fun s => { s with autoSvn := true }
    if one || two then svnRaise one two d else d
/-- SVN_AUTO_COMMIT (R666). -/
def execSvnAutoCommit (s : State) : Host.Outcome State Fault Refusal := onDev svnAuto s

/-! ### Fabric keys (R680, R512, R513) -/

def Dev.kSel (d : Dev) : Nat × Nat := (bits (d.reg pSecc 0x070) 4 0, bits (d.reg pSecc 0x070) 8 8)

/-- The window's command ends with a status; a refusal changes nothing else and records 0x0102. -/
def Dev.kDone (d : Dev) (st : Nat) : Dev :=
  let d := d.updSec fun s => { s with kStatus := st }
  if st = 0 then d.evt .pf pSecc 4 else d.err .pf pSecc 0x0102

/-- The part field of a target's packets. -/
def targetPart (t : Nat) : Nat := if t < 16 then t else 255

/-- Forget what R512 and R513 count under a slot. -/
def Dev.forgetCounters (d : Dev) (t slot : Nat) : Dev :=
  { d with fab := { d.fab with
      txCtr := d.fab.txCtr.erase (t * 2 + slot)
      exhausted := d.fab.exhausted.del (t * 2 + slot)
      synCtr := d.fab.synCtr.filter fun (e : Nat × Nat) => e.1 % 512 ≠ targetPart t * 2 + slot } }

/-- Key bytes of the data words. -/
def Dev.kBytes (d : Dev) : List Byte :=
  (List.range 8).foldl (fun b w => b ++ leBytes 4 (d.sec.kData.get 0#32 w).toNat) []

/-- A key goes into the selected slot (R680). -/
def keyInstall (d : Dev) : Dev :=
  let (t, slot) := d.kSel
  if 16 < t then d.kDone 1
  else if d.sec.transmit.get 0 t = slot then d.kDone 2
  else if t < 16 ∧ !d.active t then d.kDone 4
  else
    let key := d.kBytes
    let d := (d.updSec fun s => { s with keys := s.keys.put [] (t * 2 + slot) key, kData := [] }).forgetCounters t slot
    ((d.kDone 0).cnt .pf pSecc 3 1).runFlows
/-- KEY_INSTALL (R680). -/
def execKeyInstall (v : View) (s : State) : Host.Outcome State Fault Refusal :=
  onDev (fun d => d.privOnly v pSecc 0x074 keyInstall) s

/-- The selected slot loses its key (R680). -/
def keyClear (d : Dev) : Dev :=
  let (t, slot) := d.kSel
  if 16 < t then d.kDone 1
  else if d.sec.transmit.get 0 t = slot then d.kDone 2
  else ((d.updSec fun s => { s with keys := s.keys.erase (t * 2 + slot) }).forgetCounters t slot).kDone 0
/-- KEY_CLEAR (R680). -/
def execKeyClear (v : View) (s : State) : Host.Outcome State Fault Refusal :=
  onDev (fun d => d.privOnly v pSecc 0x074 keyClear) s

/-- The selected slot becomes the one that seals (R680). -/
def keyTransmit (d : Dev) : Dev :=
  let (t, slot) := d.kSel
  if 16 < t then d.kDone 1
  else if (d.sec.keys.get [] (t * 2 + slot)).isEmpty then d.kDone 3
  else ((d.updSec fun s => { s with transmit := s.transmit.put 0 t slot }).kDone 0).runFlows
/-- KEY_SET_TRANSMIT (R680). -/
def execKeySetTransmit (v : View) (s : State) : Host.Outcome State Fault Refusal :=
  onDev (fun d => d.privOnly v pSecc 0x074 keyTransmit) s

/-- A partition has become Empty: its fabric keys go, and its T2 and T3 keys are replaced (R678, R683). -/
def Dev.dropKeys (d : Dev) (n : Nat) : Dev :=
  let d := d.updSec fun s =>
    { s with keys := (s.keys.erase (n * 2)).erase (n * 2 + 1), keyGen := s.keyGen.upd 0 n (· + 1) }
  (d.forgetCounters n 0).forgetCounters n 1

/-! ### SPDM (R671–R675) -/

def Dev.spdm (d : Dev) : SpdmVia → Spdm
  | .doe => d.sec.spdmDoe
  | .mctp => d.sec.spdmMctp

def Dev.setSpdm (d : Dev) (via : SpdmVia) (x : Spdm) : Dev :=
  d.updSec fun s => match via with
    | .doe => { s with spdmDoe := x }
    | .mctp => { s with spdmMctp := x }

/-- Send a response; one above the DataTransferSize of 4,096 is kept for CHUNK_GET. -/
def Dev.spdmOut (d : Dev) (via : SpdmVia) (b : List Byte) : Dev :=
  let d := d.cnt .pf pSecc (match via with | .doe => 5 | .mctp => 6) 1
  let x := d.spdm via
  if b.length ≤ 4096 then d.put (.spdm via b)
  else
    let h := (x.handle + 1) % 256
    (d.setSpdm via { x with handle := h, large := b, nextChunk := 0 }).put
      (.spdm via (beBytes 1 x.version ++ [0x7F#8, 0x0F#8, 0#8] ++ beBytes 1 h))

/-- ERROR with a code and its data. -/
def Dev.spdmErr (d : Dev) (via : SpdmVia) (code data : Nat) : Dev :=
  let v := if (d.spdm via).version = 0 then 0x10 else (d.spdm via).version
  d.spdmOut via (beBytes 1 v ++ [0x7F#8] ++ beBytes 1 code ++ beBytes 1 data)

/-- A request that needs a phase of the connection: before it, UnexpectedRequest. -/
def Dev.spdmAt (d : Dev) (via : SpdmVia) (phase : Nat) (f : Spdm → Dev) : Dev :=
  if (d.spdm via).phase < phase then d.spdmErr via 0x04 0 else f (d.spdm via)

/-- Both digests of the running images' first 0x120 bytes, as the alias key is derived from (R670). -/
def Dev.images (d : Dev) : List Byte := d.sec.run1.take 0x120 ++ d.sec.run2.take 0x120

def Dev.chain (d : Dev) : List Byte := Config.certChain d.images

/-- GET_VERSION begins the negotiation afresh: versions 1.2 and 1.3 (R672). -/
def getVersion (via : SpdmVia) (req : List Byte) (d : Dev) : Dev :=
  let resp := [0x10#8, 0x04#8, 0#8, 0#8, 0#8, 2#8] ++ leBytes 2 0x1200 ++ leBytes 2 0x1300
  (d.setSpdm via { Spdm.reset with phase := 1, handle := (d.spdm via).handle, transcript := req ++ resp }).spdmOut via resp
/-- GET_VERSION (R672). -/
def execGetVersion (via : SpdmVia) (req : List Byte) (s : State) : Host.Outcome State Fault Refusal := onDev (getVersion via req) s

/-- CERT_CAP, CHAL_CAP, MEAS_CAP with signature, MEAS_FRESH_CAP, CHUNK_CAP (R672). -/
def capFlags : Nat := 0x20036

/-- The capabilities of R672, to the version that the request names. -/
def getCapabilities (via : SpdmVia) (req : List Byte) (d : Dev) : Dev :=
  d.spdmAt via 1 fun x =>
    let v := fld req 0 1
    if v ≠ 0x12 ∧ v ≠ 0x13 then d.spdmErr via 0x41 0
    else
      let resp := beBytes 1 v ++ [0x61#8, 0#8, 0#8, 0#8] ++ beBytes 1 (Config.fuseBits 7 8).toNat ++ zbytes 2 ++
        leBytes 4 capFlags ++ leBytes 4 4096 ++ leBytes 4 65536
      (d.setSpdm via { x with phase := 2, version := v, transcript := x.transcript ++ req ++ resp }).spdmOut via resp
/-- GET_CAPABILITIES (R672). -/
def execGetCapabilities (via : SpdmVia) (req : List Byte) (s : State) : Host.Outcome State Fault Refusal :=
  onDev (getCapabilities via req) s

/-- Measurement specification DMTF; ECDSA P-384; SHA-384 (R672). -/
def negotiateAlgorithms (via : SpdmVia) (req : List Byte) (d : Dev) : Dev :=
  d.spdmAt via 2 fun x =>
    let resp := beBytes 1 x.version ++ [0x63#8, 0#8, 0#8] ++ leBytes 2 36 ++ [1#8, 0#8] ++ leBytes 4 4 ++ leBytes 4 0x80 ++
      leBytes 4 2 ++ zbytes 16
    (d.setSpdm via { x with phase := 3, transcript := x.transcript ++ req ++ resp }).spdmOut via resp
/-- NEGOTIATE_ALGORITHMS (R672). -/
def execNegotiateAlgorithms (via : SpdmVia) (req : List Byte) (s : State) : Host.Outcome State Fault Refusal :=
  onDev (negotiateAlgorithms via req) s

/-- SHA-384, most significant byte first. -/
def sha (b : List Byte) : List Byte := beBytes 48 (Config.sha384 b).toNat

/-- The digest of the certificate chain of slot 0 (R672). -/
def getDigests (via : SpdmVia) (req : List Byte) (d : Dev) : Dev :=
  d.spdmAt via 3 fun x =>
    let resp := beBytes 1 x.version ++ [0x01#8, 0#8, 1#8] ++ sha d.chain
    (d.setSpdm via { x with transcript := x.transcript ++ req ++ resp }).spdmOut via resp
/-- GET_DIGESTS (R672). -/
def execGetDigests (via : SpdmVia) (req : List Byte) (s : State) : Host.Outcome State Fault Refusal := onDev (getDigests via req) s

/-- A portion of the certificate chain of slot 0 (R672). -/
def getCertificate (via : SpdmVia) (slot off len : Nat) (d : Dev) : Dev :=
  d.spdmAt via 3 fun x =>
    if slot ≠ 0 ∨ d.chain.length ≤ off then d.spdmErr via 0x01 0
    else
      let part := (d.chain.drop off).take len
      let resp := beBytes 1 x.version ++ [0x02#8, 0#8, 0#8] ++ leBytes 2 part.length ++
        leBytes 2 (d.chain.length - off - part.length) ++ part
      (d.setSpdm via { x with transcript := x.transcript ++ resp }).spdmOut via resp
/-- GET_CERTIFICATE (R671). -/
def execGetCertificate (via : SpdmVia) (slot : Fin 8) (offset len : BitVec 16) (s : State) : Host.Outcome State Fault Refusal :=
  onDev (getCertificate via slot.val offset.toNat len.toNat) s

/-- The entries of the manifest of a view (R70), in order; entry 0 is the MANI entry (R72). -/
def Dev.manifestEntries (d : Dev) (v : View) : List Byte :=
  let runs := d.runs v
  let idx (p : Page) : Nat := (d.entryOf v p).getD 0
  let parent (p : Page) : Nat :=
    match p.blk with
    | .devc => 0
    | .core | .opte | .nwch | .rede => idx (pClst (p.cluster?.getD 0))
    | .isle => if p.inst < 272 then idx (pClst (p.inst / 17)) else idx pPwrc
    | .dmae | .ring => if v = .pf then idx pPcie else idx pDevc
    | _ => idx pDevc
  let spares (c : Nat) : Bool := (List.range 17).any fun s => ((d.clus' c).slots.getD s .dead) == .spare
  let flags (p : Page) : Nat :=
    (if v = .pf then 1 else 0) + (if p.shared then (match p.blk with | .pcie | .secc | .side | .mgmt => 0 | _ => 4) else 2) +
    (if v = .pf ∧ p.ofCore ∧ (spares (p.inst / 17) ∨ (d.clus' (p.inst / 17)).withdrawn) then 16 else 0)
  let entry (r : List Page) : List Byte :=
    let p := r.headD pDevc
    let attr := if p.blk = .clst then b2n (spares p.inst) + (if (d.clus' p.inst).withdrawn then 128 else 0) else 0
    let die := if r.all fun q => q.dieOf == p.dieOf then p.dieOf else 0xFF
    leBytes 2 p.blk.code ++ leBytes 2 (parent p) ++ leBytes 4 0x01030100 ++ leBytes 2 r.length ++
    leBytes 2 (d.position v p) ++ leBytes 4 (d.base v p) ++ leBytes 4 p.stride ++
    leBytes 2 (flags p) ++ leBytes 1 die ++ leBytes 1 attr ++ leBytes 4 0xC0000000 ++ zbytes 4
  let mani := leBytes 2 1 ++ leBytes 2 0xFFFF ++ leBytes 4 0x01030100 ++ leBytes 2 1 ++ leBytes 2 0 ++ leBytes 4 0 ++
    leBytes 4 0 ++ leBytes 2 (8 + if v = .pf then 1 else 0) ++ leBytes 1 4 ++ leBytes 1 0 ++ leBytes 4 0 ++ zbytes 4
  runs.foldl (fun b r => b ++ entry r) mani

/-- The device has rewritten a view's manifest: its generation is two more (R74). -/
def Dev.rewrite (d : Dev) (v : View) : Dev := { d with pg := { d.pg with gen := d.pg.gen.upd 0 v.key (· + 2) } }

/-- The whole manifest of a view: header and entries (R69). -/
def Dev.manifest (d : Dev) (v : View) : List Byte :=
  let e := d.manifestEntries v
  leBytes 4 0x4D564C45 ++ [0#8, 1#8] ++ leBytes 2 0x80 ++ leBytes 2 (e.length / 32) ++ leBytes 2 0x20 ++
  leBytes 4 (d.pg.gen.get 0 v.key) ++ sha e ++ leBytes 4 v.key ++ zbytes 60 ++ e

/-- A table laid out as the staged image of R119. -/
def tableImage (t : SMap Word) : List Byte := (List.range 512).foldl (fun b i => b ++ leBytes 4 (t.get 0#32 i).toNat) []

/-- Measurement block i of R674: DMTF type, raw or digest, value. -/
def Dev.measurement (d : Dev) (i : Nat) : Nat × Bool × List Byte :=
  match i with
  | 1 => (0, false, beBytes 48 (Config.fuseBits 90 384).toNat)
  | 2 => (1, false, sha (d.sec.run1.take 0x120))
  | 3 => (1, false, sha (d.sec.run2.take 0x120))
  | 4 => (7, true, beBytes 1 d.sec.svn1 ++ beBytes 1 d.sec.svn2)
  | 5 => (3, false, sha (d.manifestEntries .pf))
  | 6 => (3, false, sha (tableImage d.parts.live ++ leBytes 8 d.parts.commit.count.toNat))
  | 7 => (3, false, if d.store.enrolled then sha (d.store.ecKey ++ d.store.lmsKey) else zbytes 48)
  | _ => (5, true, beBytes 1 d.sec.life ++ beBytes 1 (b2n d.sec.bootB) ++ beBytes 1 (b2n d.sec.fallback) ++
      beBytes 1 (b2n d.boot.recovery))

/-- A measurement block in DMTF format. -/
def Dev.measBlock (d : Dev) (i : Nat) : List Byte :=
  let (t, raw, v) := d.measurement i
  let m := beBytes 1 (t + if raw then 128 else 0) ++ leBytes 2 v.length ++ v
  beBytes 1 i ++ [1#8] ++ leBytes 2 m.length ++ m

/-- The summary over all measurement blocks. -/
def Dev.measSummary (d : Dev) : List Byte := sha ((List.range 8).foldl (fun b i => b ++ d.measBlock (i + 1)) [])

/-- A fresh nonce, from the entropy source (R678): free. -/
def Dev.nonce (d : Dev) : List Byte × Dev :=
  let (n, d) := d.freeBits 40 256
  (beBytes 32 n.toNat, d)

/-- A signed answer over the transcript (R672). -/
def challenge (via : SpdmVia) (req : List Byte) (d : Dev) : Dev :=
  d.spdmAt via 3 fun x =>
    if fld req 2 1 ≠ 0 then d.spdmErr via 0x01 0
    else
      let (nonce, d) := d.nonce
      let resp := beBytes 1 x.version ++ [0x03#8, 0#8, 1#8] ++ sha d.chain ++ nonce ++
        (if fld req 3 1 = 0 then [] else d.measSummary) ++ leBytes 2 0 ++ (if x.version = 0x13 then (req.drop 36).take 8 else [])
      let sig := Config.ecdsaSign 1 (x.transcript ++ req ++ resp)
      (d.setSpdm via { x with transcript := x.transcript.take 0 }).spdmOut via (resp ++ sig)
/-- CHALLENGE (R672). -/
def execChallenge (via : SpdmVia) (req : List Byte) (s : State) : Host.Outcome State Fault Refusal := onDev (challenge via req) s

/-- GET_MEASUREMENTS (R674): index 0 asks for the count, 0xFF for all blocks, taken at one instant. -/
def getMeasurements (via : SpdmVia) (index : Nat) (req : List Byte) (d : Dev) : Dev :=
  d.spdmAt via 3 fun x =>
    if 8 < index ∧ index ≠ 0xFF then d.spdmErr via 0x01 0
    else
      let ids := if index = 0 then [] else if index = 0xFF then [1, 2, 3, 4, 5, 6, 7, 8] else [index]
      let rec_ := ids.foldl (fun b i => b ++ d.measBlock i) []
      let (nonce, d) := d.nonce
      let resp := beBytes 1 x.version ++ [0x60#8] ++ beBytes 1 (if index = 0 then 8 else 0) ++ [0#8] ++
        beBytes 1 ids.length ++ leBytes 3 rec_.length ++ rec_ ++ nonce ++ leBytes 2 0 ++
        (if x.version = 0x13 then (req.drop 37).take 8 else [])
      if bit (fld req 2 1) 0 then
        let sig := Config.ecdsaSign 1 (x.transcript ++ req ++ resp)
        (d.setSpdm via { x with transcript := [] }).spdmOut via (resp ++ sig)
      else (d.setSpdm via { x with transcript := x.transcript ++ req ++ resp }).spdmOut via resp
/-- GET_MEASUREMENTS (R674). -/
def execGetMeasurements (via : SpdmVia) (index : Byte) (req : List Byte) (s : State) : Host.Outcome State Fault Refusal :=
  onDev (getMeasurements via index.toNat req) s

/-- CHUNK_GET: the next piece of a large response, in order. -/
def chunkGet (via : SpdmVia) (handle seq : Nat) (d : Dev) : Dev :=
  d.spdmAt via 2 fun x =>
    if x.large.isEmpty ∨ handle ≠ x.handle ∨ seq ≠ x.nextChunk then d.spdmErr via 0x01 0
    else
      let size := 4096 - 16
      let piece := (x.large.drop (size * seq)).take size
      let last := x.large.length ≤ size * (seq + 1)
      let resp := beBytes 1 x.version ++ [0x06#8] ++ beBytes 1 (b2n last) ++ beBytes 1 handle ++ leBytes 2 seq ++ zbytes 2 ++
        leBytes 4 piece.length ++ (if seq = 0 then leBytes 4 x.large.length else []) ++ piece
      (d.setSpdm via { x with nextChunk := if last then 0 else seq + 1, large := if last then [] else x.large }).spdmOut via resp
/-- CHUNK_GET (R672). -/
def execChunkGet (via : SpdmVia) (handle : Byte) (seq : BitVec 16) (s : State) : Host.Outcome State Fault Refusal :=
  onDev (chunkGet via handle.toNat seq.toNat) s

/-- RESPOND_IF_READY: the device never puts a request off, so no token is outstanding. -/
def respondIfReady (via : SpdmVia) (d : Dev) : Dev := d.spdmErr via 0x01 0
/-- RESPOND_IF_READY (R672). -/
def execRespondIfReady (via : SpdmVia) (_req : List Byte) (s : State) : Host.Outcome State Fault Refusal :=
  onDev (respondIfReady via) s

/-- Any other request: ERROR with UnsupportedRequest (R672). -/
def spdmOther (via : SpdmVia) (code : Nat) (d : Dev) : Dev := d.spdmErr via 0x07 code
/-- SPDM_UNSUPPORTED_REQUEST (R672). -/
def execSpdmUnsupportedRequest (via : SpdmVia) (code : Byte) (s : State) : Host.Outcome State Fault Refusal :=
  onDev (spdmOther via code.toNat) s

/-! ### Management messages (R676, R677) -/

/-- The response to a request: framing, the code echoed, a body. -/
def Dev.mgmtOut (d : Dev) (tag : BitVec 5) (code : Nat) (body : List Byte) : Dev :=
  (d.cnt .pf pMgmt 1 1).put (.mgmt tag.toNat ([0x7F#8] ++ beBytes 4 0x0004E21A ++ beBytes 1 tag.toNat ++ beBytes 1 code ++ body))

/-- An Elvuo management request: while a response is owed, status 13 (R677). -/
def Dev.mgmtReq (d : Dev) (tag : BitVec 5) (code : Nat) (f : Dev → Dev) : Dev :=
  if !d.boot.aux then d
  else
    let d := d.cnt .pf pMgmt 0 1
    if d.boot.mgmtBusy then (d.mgmtOut tag code [13#8]).cnt .pf pMgmt 3 1 else f d

/-- A management request with an unknown code (R677). -/
def mgmtUnknown (tag : BitVec 5) (code : Nat) (d : Dev) : Dev :=
  d.mgmtReq tag code fun d => (d.mgmtOut tag code [0xFF#8]).cnt .pf pMgmt 2 1
/-- MANAGEMENT_UNKNOWN_REQUEST (R677). -/
def execManagementUnknownRequest (tag : BitVec 5) (code : Byte) (s : State) : Host.Outcome State Fault Refusal :=
  onDev (mgmtUnknown tag code.toNat) s

/-- A MCTP control response: completion code and data. -/
def Dev.ctlOut (d : Dev) (tag : BitVec 5) (cmd : Nat) (b : List Byte) : Dev :=
  if d.boot.aux then d.put (.mgmt tag.toNat ([0#8] ++ beBytes 1 tag.toNat ++ beBytes 1 cmd ++ b)) else d

/-- Set Endpoint ID: 0 and 0xFF are no endpoint's. -/
def setEid (tag : BitVec 5) (eid : Byte) (d : Dev) : Dev :=
  if !d.boot.aux then d
  else if eid = 0#8 ∨ eid = 0xFF#8 then d.ctlOut tag 1 [2#8]
  else ({ d with boot := { d.boot with eid := eid } }).ctlOut tag 1 ([0#8, 0#8] ++ [eid] ++ [0#8])
/-- SET_ENDPOINT_ID (R677). -/
def execSetEndpointId (tag : BitVec 5) (eid : Byte) (s : State) : Host.Outcome State Fault Refusal := onDev (setEid tag eid) s

/-- The endpoint identifier (R677). -/
def getEid (tag : BitVec 5) (d : Dev) : Dev := d.ctlOut tag 2 [0#8, d.boot.eid, 0#8, 0#8]
/-- GET_ENDPOINT_ID (R677). -/
def execGetEndpointId (tag : BitVec 5) (s : State) : Host.Outcome State Fault Refusal := onDev (getEid tag) s

/-- The message types that the endpoint serves: control, SPDM, vendor defined. -/
def msgTypes : List Byte := [0x00#8, 0x05#8, 0x7F#8]

/-- The version word, for each message type that is served (R677). -/
def getMctpVersion (tag : BitVec 5) (type : Byte) (d : Dev) : Dev :=
  if type = 0xFF#8 ∨ msgTypes.contains type then d.ctlOut tag 4 ([0#8, 1#8] ++ beBytes 4 0xF1F3F100) else d.ctlOut tag 4 [0x80#8]
/-- GET_MCTP_VERSION_SUPPORT (R677). -/
def execGetMctpVersionSupport (tag : BitVec 5) (msgType : Byte) (s : State) : Host.Outcome State Fault Refusal :=
  onDev (getMctpVersion tag msgType) s

/-- The list of message types (R677). -/
def getMsgTypes (tag : BitVec 5) (d : Dev) : Dev := d.ctlOut tag 5 ([0#8] ++ beBytes 1 msgTypes.length ++ msgTypes)
/-- GET_MESSAGE_TYPE_SUPPORT (R677). -/
def execGetMessageTypeSupport (tag : BitVec 5) (s : State) : Host.Outcome State Fault Refusal := onDev (getMsgTypes tag) s

/-- One vendor set: IANA enterprise number 0x0004E21A (R676). -/
def getVendor (tag : BitVec 5) (sel : Byte) (d : Dev) : Dev :=
  if sel = 0#8 then d.ctlOut tag 6 ([0#8, 0xFF#8, 1#8] ++ beBytes 4 0x0004E21A ++ beBytes 2 0) else d.ctlOut tag 6 [2#8]
/-- GET_VENDOR_DEFINED_MSG_SUPPORT (R677). -/
def execGetVendorDefinedMsgSupport (tag : BitVec 5) (selector : Byte) (s : State) : Host.Outcome State Fault Refusal :=
  onDev (getVendor tag selector) s

/-- The bus controller assigns a dynamic address to a target that has none (R711). -/
def assignI3c (addr : BitVec 7) (d : Dev) : Dev :=
  if d.boot.aux && !d.boot.assigned then { d with boot := { d.boot with i3c := addr, assigned := true } } else d
/-- ENTDAA (R711). -/
def execEntdaa (addr : BitVec 7) (s : State) : Host.Outcome State Fault Refusal := onDev (assignI3c addr) s
/-- SETDASA (R711): the static address is 0x3A. -/
def setdasa (static addr : BitVec 7) (d : Dev) : Dev := if static = 0x3A#7 then assignI3c addr d else d
/-- SETDASA (R711). -/
def execSetdasa (static addr : BitVec 7) (s : State) : Host.Outcome State Fault Refusal := onDev (setdasa static addr) s

/-- RECOVERY (R699): the request is recorded. -/
def recoveryAsk (tag : BitVec 5) (d : Dev) : Dev :=
  d.mgmtReq tag 0x31 fun d => ({ d with boot := { d.boot with recAsked := true } }).mgmtOut tag 0x31 [0#8]
/-- RECOVERY (R699). -/
def execRecovery (tag : BitVec 5) (s : State) : Host.Outcome State Fault Refusal := onDev (recoveryAsk tag) s

end Sys2Proof.Machine
end

