-- ==== Sys2Proof/Machine/Strm.lean ====
section
/-!
DEFINITION. Sensor and media ingest: packets to pictures, decode engines, preprocessing, and the two batch slots of a
stream context (chapter 15).
-/

namespace Sys2Proof.Machine

/-! ### Contexts -/

def Dev.sctx (d : Dev) (k : Nat) : Ctx := d.strm.ctx.get .reset k
def Dev.updCtx (d : Dev) (k : Nat) (f : Ctx → Ctx) : Dev := { d with strm := { d.strm with ctx := d.strm.ctx.upd .reset k f } }
def Dev.decoSt (d : Dev) (e : Nat) : Deco := d.strm.deco.get .reset e
def Dev.updDeco (d : Dev) (e : Nat) (f : Deco → Deco) : Dev :=
  { d with strm := { d.strm with deco := d.strm.deco.upd .reset e f } }

/-- The decode engine that a context names (R579). -/
def Dev.strmDeco (d : Dev) (k : Nat) : Nat := bits (d.reg (pStrm k) 0x040) 6 4
def Dev.strmCodec (d : Dev) (k : Nat) : Nat := bits (d.reg (pStrm k) 0x040) 1 1
def Dev.strmRtp (d : Dev) (k : Nat) : Bool := bit (d.reg (pStrm k) 0x040) 0

/-- The island of a context (R579). -/
def Dev.strmIsle (d : Dev) (k : Nat) : Nat := meshIsle (decoDie (d.strmDeco k))

/-- A register pair of an address. -/
def Dev.strmVa (d : Dev) (k off : Nat) : Nat := d.reg (pStrm k) off + 2 ^ 32 * d.reg (pStrm k) (off + 4)

def Dev.strmCnt (d : Dev) (k n v : Nat) : Dev := d.cntP (pStrm k) n v (d.strmOwner k)
def Dev.strmEvt (d : Dev) (k m : Nat) : Dev := d.evtP (pStrm k) m (d.strmOwner k)

/-- A picture is dropped and counted; R585's rule on the next IRAP picture, but for a drop under R597. -/
def Dev.dropPic (d : Dev) (k ctr : Nat) : Dev :=
  let d := (d.strmCnt k ctr 1).strmEvt k 4
  let h265 := d.strmCodec k == 1 && ctr != 9
  d.updCtx k fun x => { x with drops := Nat.min 0xFFFFFFFF (x.drops + 1), waitIrap := x.waitIrap || h265 }

/-- The picture under assembly is dropped, if there is one. -/
def Dev.dropAsm (d : Dev) (k ctr : Nat) : Dev :=
  if (d.sctx k).asm.isNone then d else (d.dropPic k ctr).updCtx k fun x => { x with asm := none }

/-- After a drop at the engine, the waiting pictures that come before the next IRAP picture are dropped too (R585). -/
def Dev.flushToIrap (d : Dev) (k : Nat) : Dev :=
  let x := d.sctx k
  if !x.waitIrap then d
  else
    let gone := x.waiting.takeWhile fun (p : Picture) => !p.irap
    let keep := x.waiting.dropWhile fun (p : Picture) => !p.irap
    let d := gone.foldl (fun (d : Dev) _ => d.dropPic k 8) d
    d.updCtx k fun x => { x with waiting := keep, waitIrap := keep.isEmpty }

/-- The pictures that went to a context's engine or wait for it, oldest first. -/
def Dev.earlier (d : Dev) (k : Nat) : List (List Byte) :=
  let cur := match (d.decoSt (d.strmDeco k)).cur with
    | some (j, p, _) => if j = k then [p] else []
    | none => []
  ((d.sctx k).refs ++ cur ++ (d.sctx k).waiting).map fun (p : Picture) => p.bytes

/-- Coded sizes within STRM_MAXPIC and R587. -/
def Dev.sizeOk (d : Dev) (k w h : Nat) : Bool :=
  let m := d.reg (pStrm k) 0x048
  w ≤ bits m 15 0 && h ≤ bits m 31 16 && w ≤ 8192 && h ≤ 8192 && (d.strmCodec k == 0 || w * h ≤ 8912896)

/-- A picture has all its packets (R585, R586). -/
def Dev.assembled (d : Dev) (k : Nat) (p : Picture) : Dev :=
  let d := d.updCtx k fun x => { x with asm := none }
  let i := Config.pictureInfo (d.strmCodec k) (b2n (d.strmRtp k)) (d.earlier k) p.bytes
  let irap := i.irap || d.strmCodec k == 0
  let p := { p with irap := irap, width := i.width, height := i.height, stamp := d.timer (d.strmIsle k) }
  if (d.sctx k).waitIrap ∧ !irap then d.dropPic k 8
  else if !i.supported ∨ !d.sizeOk k i.width i.height then d.dropPic k 5
  else if 4 ≤ (d.sctx k).waiting.length then d.dropPic k 7
  else d.updCtx k fun x => { x with waiting := x.waiting ++ [p], waitIrap := false }

/-! ### Packets (R581–R585) -/

/-- A piece of a picture: identifier or timestamp, SSRC, first sequence number, data, whether it is the last. -/
structure Frag where
  ident : Nat
  ssrc : Nat
  seq : Nat
  data : List Byte
  last : Bool
  deriving DecidableEq, Repr

/-- The device keeps data at a place of the workspace that it chooses (R590). -/
def Dev.toWorkspace (d : Dev) (k : Nat) (data : List Byte) : Dev :=
  match d.strmOwner k with
  | none => d
  | some n =>
    let size := d.reg (pStrm k) 0x080 * 65536
    let (o, d) := d.freeNat 40
    if size < data.length ∨ data.isEmpty then d
    else d.tWrite n agStrm (d.strmVa k 0x078 + o % (size - data.length + 1)) data []

/-- Data joins the picture under assembly. -/
def Dev.addFrag (d : Dev) (k : Nat) (a : Assembly) (f : Frag) : Dev :=
  let d := d.toWorkspace k f.data
  let p := { a.pic with bytes := a.pic.bytes ++ f.data }
  if d.reg (pStrm k) 0x04C * 64 < p.bytes.length then
    (d.updCtx k fun x => { x with asm := some a, skip := if f.last then none else some f.ident }).dropAsm k 4
  else if f.last then d.assembled k p
  else d.updCtx k fun x => { x with asm := some { a with pic := p, next := a.next + 1 } }

/-- A picture starts with a piece. -/
def Dev.newAsm (d : Dev) (k : Nat) (f : Frag) : Dev :=
  let d := d.updCtx k fun x => { x with skip := none }
  d.addFrag k ⟨⟨[], f.ident, f.ssrc, f.seq, 0, false, 0, 0⟩, 0, d.timer (d.strmIsle k)⟩ f

/-- A packet with the ingest header (R582). -/
def Dev.rawPacket (d : Dev) (k : Nat) (b : List Byte) : Dev :=
  let flags := fld b 3 1
  let len := fldBE b 10 2
  if b.length < 12 ∨ fldBE b 0 2 ≠ 0x4549 ∨ fld b 2 1 ≠ 1 ∨ bits flags 7 2 ≠ 0 ∨ b.length < 12 + len then d.strmCnt k 10 1
  else
    let f : Frag := ⟨fldBE b 4 4, 0, 0, (b.drop 12).take len, bit flags 1⟩
    let index := fldBE b 8 2
    if bit flags 0 then
      let d := d.dropAsm k 3
      if index = 0 then d.newAsm k f else d.dropPic k 3
    else
      match (d.sctx k).asm with
      | none => d
      | some a => if a.pic.ident = f.ident ∧ a.next = index then d.addFrag k a f else d.dropAsm k 3

/-- The media data of an RTP payload: not formed as its format says, excluded by R584, or the picture's data. -/
inductive Payload where
  | bad
  | unsupported
  | data (b : List Byte)
  deriving DecidableEq, Repr

def startCode : List Byte := [0#8, 0#8, 0#8, 1#8]

/-- The NAL units of an aggregation packet, each after a start code. -/
def splitAp : Nat → List Byte → Payload
  | 0, _ => .bad
  | fuel + 1, b =>
    if b.isEmpty then .data []
    else if b.length < 2 ∨ b.length < 2 + fldBE b 0 2 then .bad
    else match splitAp fuel (b.drop (2 + fldBE b 0 2)) with
      | .data r => .data (startCode ++ (b.drop 2).take (fldBE b 0 2) ++ r)
      | x => x

/-- An RFC 7798 payload as a byte stream of Annex B. -/
def h265Payload (b : List Byte) : Payload :=
  if b.length < 3 then .bad
  else
    let t := bits (fld b 0 1) 6 1
    if t = 48 then splitAp b.length (b.drop 2)
    else if t = 49 then
      let fu := fld b 2 1
      let head := [BitVec.ofNat 8 (fld b 0 1 - t * 2 + bits fu 5 0 * 2), b.getD 1 0#8]
      .data ((if bit fu 7 then startCode ++ head else []) ++ b.drop 3)
    else if t = 50 then .unsupported
    else .data (startCode ++ b)

/-- An RFC 2435 payload: the first keeps its headers, which the decoder needs; later ones give their scan data. -/
def jpegPayload (b : List Byte) (first : Bool) : Payload :=
  let t := fld b 4 1
  let q := fld b 5 1
  let head := if 64 ≤ t then 12 else 8
  if b.length < head then .bad
  else if (t ≠ 0 ∧ t ≠ 1 ∧ t ≠ 64 ∧ t ≠ 65) ∨ q = 0 ∨ (100 ≤ q ∧ q ≤ 127) then .unsupported
  else .data (if first then b else b.drop head)

/-- An RTP packet's payload, without padding, extension and CSRC entries; none where the packet is not well formed. -/
def rtpPayload (b : List Byte) : Option (List Byte) :=
  let v := fld b 0 1
  let h0 := 12 + 4 * bits v 3 0
  let h := if bit v 4 then h0 + 4 + 4 * fldBE b (h0 + 2) 2 else h0
  let pad := if bit v 5 then (b.getLastD 0#8).toNat else 0
  if b.length < 12 ∨ bits v 7 6 ≠ 2 ∨ b.length < h + pad ∨ (bit v 5 ∧ pad = 0) then none
  else some ((b.take (b.length - pad)).drop h)

/-- The packet's place in its stream is settled: it starts a picture or goes on with one. -/
def Dev.rtpData (d : Dev) (k : Nat) (f : Frag) (pay : List Byte) : Dev :=
  let first := (d.sctx k).asm.isNone
  match if d.strmCodec k = 1 then h265Payload pay else jpegPayload pay first with
  | .bad => ((d.strmCnt k 10 1).updCtx k fun x => { x with skip := if f.last then none else some f.ident }).dropAsm k 3
  | .unsupported =>
    let d := d.updCtx k fun x => { x with skip := if f.last then none else some f.ident, asm := none }
    d.dropPic k 5
  | .data b =>
    match (d.sctx k).asm with
    | none => d.newAsm k { f with data := b }
    | some a => d.addFrag k a { f with data := b }

/-- A fragment out of order loses its picture; the rest of that picture is skipped (R583). -/
def Dev.rtpGap (d : Dev) (k : Nat) (x : Ctx) (ident : Nat) (after : Option Nat) : Dev :=
  (if x.skip = some ident then d else d.dropPic k 3).updCtx k fun x => { x with asm := none, skip := after }

/-- A fragment in order: of a picture that is skipped, or of the picture under assembly, or of a new one, which ends an
unfinished one (R583, R585). -/
def Dev.rtpTake (d : Dev) (k : Nat) (x : Ctx) (f : Frag) (pay : List Byte) (after : Option Nat) : Dev :=
  if x.skip = some f.ident then d.updCtx k fun x => { x with skip := after }
  else
    (match x.asm with
      | some a => if a.pic.ident = f.ident then d else d.dropAsm k 3
      | none => d).rtpData k f pay

/-- An RTP packet (R583). -/
def Dev.rtpPacket (d : Dev) (k : Nat) (b : List Byte) : Dev :=
  let src := d.reg (pStrm k) 0x040
  let ssrc := fldBE b 8 4
  match rtpPayload b with
  | none => d.strmCnt k 10 1
  | some pay =>
    if bits (fld b 1 1) 6 0 ≠ bits src 14 8 ∨ (!bit src 2 ∧ ssrc ≠ d.reg (pStrm k) 0x044) then d.strmCnt k 10 1
    else
      let x := d.sctx k
      let seq := fldBE b 2 2
      let f : Frag := ⟨fldBE b 4 4, ssrc, seq, [], bit (fld b 1 1) 7⟩
      let d := d.updCtx k fun x => { x with nextSeq := some ((seq + 1) % 65536) }
      let after := if f.last then none else some f.ident
      if x.nextSeq.any (· != seq) then d.rtpGap k x f.ident after else d.rtpTake k x f pay after

/-- STREAM_PACKET (R581). -/
def execStreamPacket (ctx : Fin 48) (bytes : List Byte) : State → Host.Outcome State Fault Refusal :=
  onDev fun d =>
    let k := ctx.val
    if d.bst (pStrm k) ≠ .running then d
    else
      let d := (d.strmCnt k 0 1).strmCnt k 1 bytes.length
      if d.strmRtp k then d.rtpPacket k bytes else d.rawPacket k bytes

/-- ASSEMBLY_TIMEOUT (R585): STRM_ASM_TO ticks after the first packet; 0 acts as 1. -/
def execAssemblyTimeout (ctx : Fin 48) : State → Host.Outcome State Fault Refusal :=
  onDev fun d =>
    let k := ctx.val
    match (d.sctx k).asm with
    | none => d
    | some a =>
      if d.bst (pStrm k) ≠ .running then d
      else
        let d := d.reach (d.strmIsle k) (a.since + Nat.max 1 (d.reg (pStrm k) 0x084))
        let d := if d.strmRtp k then d.updCtx k fun x => { x with skip := some a.pic.ident } else d
        d.dropAsm k 3

/-! ### Slots (R594–R599) -/

def Ctx.slot (x : Ctx) (s : Nat) : BatchSlot := if s = 0 then x.slot0 else x.slot1
def Ctx.setSlot (x : Ctx) (s : Nat) (b : BatchSlot) : Ctx := if s = 0 then { x with slot0 := b } else { x with slot1 := b }

/-- A slot register. -/
def Dev.slotReg (d : Dev) (k s off : Nat) : Nat := d.reg (pStrm k) (0x100 + 32 * s + off)
def Dev.slotVa (d : Dev) (k s off : Nat) : Nat := d.strmVa k (0x100 + 32 * s + off)

/-- Bytes of a picture in a batch (R593). -/
def Dev.picBytes (d : Dev) (k : Nat) : Nat :=
  let o := d.reg (pStrm k) 0x058
  bits o 15 0 * bits o 31 16 * (if bits (d.reg (pStrm k) 0x05C) 1 0 = 2 then 2 else 6)

/-- A write of the context; a fault is counted (R594, R300). -/
def Dev.strmWrite (d : Dev) (k part va : Nat) (b : List Byte) (bad : List Nat) : Dev :=
  let d := if (d.faults part agStrm true va b.length).isSome then (d.strmCnt k 15 1).strmEvt k 8 else d
  d.tWrite part agStrm va b bad

/-- The active slot completes (R599); then the other becomes active if it is armed (R597). -/
def Dev.completeSlot (d : Dev) (k : Nat) (early : Bool) : Dev :=
  match (d.sctx k).active, d.strmOwner k with
  | some s, some n =>
    let w := (d.sctx k).written
    let count := d.slotReg k s 0x0C
    let d := (List.range (count - w)).foldl (fun (d : Dev) i =>
      d.strmWrite k n (d.slotVa k s 0x10 + 32 * (w + i) + 0x16) [0xFF#8] []) d
    let d := d.updCtx k fun x =>
      let x := x.setSlot s ⟨false, w, early⟩
      { x with active := if (x.slot (1 - s)).own then some (1 - s) else none, written := 0, batchAt := 0 }
    let d := d.signal (BitVec.ofNat 32 (d.slotReg k s 0x18)) (partFin n) (srcStrm k)
    let d := (d.strmEvt k 1).strmCnt k 13 1
    if early then d.strmCnt k 14 1 else d
  | _, _ => d

/-- Quiesce or disable: the active slot completes, and the other is released without a signal (R599). -/
def Dev.releaseSlots (d : Dev) (k : Nat) : Dev :=
  let free (b : BatchSlot) : BatchSlot := { b with own := false }
  let x := d.sctx k
  let d := match x.active with
    | some s => d.updCtx k fun x => x.setSlot (1 - s) (free (x.slot (1 - s)))
    | none => d
  d.completeSlot k false

/-- What R595 refuses. -/
def Dev.armBad (d : Dev) (k s : Nat) : Bool :=
  let pitch := d.slotReg k s 0x08
  let count := d.slotReg k s 0x0C
  let w := BitVec.ofNat 32 (d.slotReg k s 0x18)
  d.slotVa k s 0 % 64 ≠ 0 || pitch % 64 ≠ 0 || pitch < d.picBytes k || count = 0 || 256 < count || d.slotVa k s 0x10 % 64 ≠ 0 ||
  sigRsv w ≠ 0 || (sigOn w && (sigInc w = 0 || (!sigScope w && 63 < sigIndex w)))

/-- Arm a slot (R595, R597). -/
def Dev.armSlot (v : View) (k s : Nat) (d : Dev) : Dev :=
  if ((d.sctx k).slot s).own then d
  else if d.armBad k s then (d.err v (pStrm k) 0x0101).strmCnt k 12 1
  else d.updCtx k fun x =>
    let x := x.setSlot s ⟨true, 0, false⟩
    if x.active.isNone then { x with active := some s, written := 0, batchAt := 0 } else x

/-- SLOT_ARM (R595): 1 is written to own. -/
def execSlotArm (v : View) (ctx : Fin 48) (slot : Fin 2) : State → Host.Outcome State Fault Refusal :=
  onDev (fun d => d.through v (pStrm ctx.val) (0x11C + 32 * slot.val) (Dev.armSlot v ctx.val slot.val))

/-- BATCH_TIMEOUT (R599): an early completion. -/
def execBatchTimeout (ctx : Fin 48) : State → Host.Outcome State Fault Refusal :=
  onDev fun d =>
    let k := ctx.val
    let x := d.sctx k
    let lim := d.reg (pStrm k) 0x088
    if x.active.isNone ∨ x.written = 0 ∨ lim = 0 then d
    else (d.reach (d.strmIsle k) (x.batchAt + lim)).completeSlot k true

/-! ### Preprocessing (R591–R593) -/

/-- A finite value as a rational number. -/
def ratOf : Val → Rat
  | .fin s m e =>
    let n : Int := if s then -(m : Int) else m
    if 0 ≤ e then (n * (2 ^ e.toNat : Nat) : Int) else mkRat n (2 ^ (-e).toNat)
  | _ => 0

/-- A rational number to FP32 (R160). -/
def ratF32 (r : Rat) : Word :=
  if r.num = 0 then 0#32
  else
    let k := 80 + Nat.log2 r.den
    let n := r.num.natAbs * 2 ^ k
    f32 (.fin (r.num < 0) (2 * (n / r.den) + if n % r.den = 0 then 0 else 1) (-(k : Int) - 1))

def clampRat (x lo hi : Rat) : Rat := if x < lo then lo else if hi < x then hi else x

/-- A sample of a plane w by h, positions clamped to it. -/
def planeAt (l : Array Nat) (w h : Nat) (x y : Int) : Rat :=
  let c (v : Int) (n : Nat) : Nat := Nat.min (n - 1) v.toNat
  ((l.getD (c y h * w + c x w) 0 : Nat) : Rat)

/-- The four neighbouring samples, weighted by the fractional parts. -/
def bilinear (l : Array Nat) (w h : Nat) (x y : Rat) : Rat :=
  let xi := x.floor
  let yi := y.floor
  let fx := x - xi
  let fy := y - yi
  (1 - fy) * ((1 - fx) * planeAt l w h xi yi + fx * planeAt l w h (xi + 1) yi) +
  fy * ((1 - fx) * planeAt l w h xi (yi + 1) + fx * planeAt l w h (xi + 1) (yi + 1))

/-- Crop and output sizes of a context for a picture: x0, y0, w, h, out_w, out_h. -/
structure Crop where
  x0 : Nat
  y0 : Nat
  w : Nat
  h : Nat
  ow : Nat
  oh : Nat
  deriving DecidableEq, Repr

/-- The crop of a context (R591): w = 0 means the whole picture. -/
def Dev.cropOf (d : Dev) (k : Nat) (p : Config.Decoded) : Crop :=
  let c0 := d.reg (pStrm k) 0x050
  let c1 := d.reg (pStrm k) 0x054
  let o := d.reg (pStrm k) 0x058
  if bits c1 15 0 = 0 then ⟨0, 0, p.width, p.height, bits o 15 0, bits o 31 16⟩
  else ⟨bits c0 15 0, bits c0 31 16, bits c1 15 0, bits c1 31 16, bits o 15 0, bits o 31 16⟩

/-- The crop fits the picture and is even where the sampling wants it. -/
def Dev.cropOk (d : Dev) (k : Nat) (p : Config.Decoded) : Bool :=
  let c := d.cropOf k p
  let whole := bits (d.reg (pStrm k) 0x054) 15 0 = 0
  c.h ≠ 0 && c.x0 + c.w ≤ p.width && c.y0 + c.h ≤ p.height &&
  (whole || ((p.subX ≠ 2 || (c.x0 % 2 = 0 && c.w % 2 = 0)) && (p.subY ≠ 2 || (c.y0 % 2 = 0 && c.h % 2 = 0))))

/-- The exact r, g, b of an output pixel, or y alone for colour 2 (R591). -/
def pixel (jpeg : Bool) (pre : Nat) (c : Crop) (p : Config.Decoded) (luma cb cr : Array Nat) (ox oy : Nat) : List Rat :=
  let q : Rat := if p.ten then mkRat 1 4 else 1
  let half : Rat := mkRat 1 2
  let at_ (o x0 w ow : Nat) : Rat :=
    clampRat ((x0 : Rat) + ((o : Rat) + half) * (w : Rat) / (ow : Rat) - half) (x0 : Rat) ((x0 + w - 1 : Nat) : Rat)
  let sx := at_ ox c.x0 c.w c.ow
  let sy := at_ oy c.y0 c.h c.oh
  let y := q * bilinear luma p.width p.height sx sy
  let cx : Rat := if jpeg && p.subX = 2 then half else 0
  let cy : Rat := if p.subY = 2 then half else 0
  let chroma (l : Array Nat) : Rat :=
    if p.mono then 0
    else q * bilinear l (cdiv p.width p.subX) (cdiv p.height p.subY) ((sx - cx) / (p.subX : Rat)) ((sy - cy) / (p.subY : Rat)) - 128
  let full := bit pre 4
  let y := if full then y else (y - 16) * 255 / 219
  if bits pre 1 0 = 2 then [y]
  else
    let s (v : Rat) : Rat := if full then v else v * 255 / 224
    let b' := s (chroma cb)
    let r' := s (chroma cr)
    let m709 := bit pre 3
    let kr := if m709 then mkRat 15748 10000 else mkRat 1402 1000
    let kgb := if m709 then mkRat 187324 1000000 else mkRat 344136 1000000
    let kgr := if m709 then mkRat 468124 1000000 else mkRat 714136 1000000
    let kb := if m709 then mkRat 18556 10000 else mkRat 1772 1000
    let lim (v : Rat) : Rat := clampRat v 0 255
    let r := lim (y + kr * r')
    let g := lim (y - kgb * b' - kgr * r')
    let b := lim (y + kb * b')
    if bits pre 1 0 = 1 then [b, g, r] else [r, g, b]

/-- An output value (R591, R592): what the engine's FP32 arithmetic gives is any value within the bound of the exact
one; a mean or factor that is not finite follows R157; a reserved colour constrains nothing. -/
def outValue (free : Word) (pre : Nat) (v : Rat) (mean istd : Word) : Nat :=
  let m := vOf mean
  let s := vOf istd
  let w : Word :=
    if bits pre 1 0 = 3 then free
    else if m.finite && s.finite then
      let exact := (v - ratOf m) * ratOf s
      let err := ratOf (vOf free) - exact
      let bound := (256 + ratOf m.abs) * ratOf s.abs / 65536
      if (vOf free).finite && err ≤ bound && -err ≤ bound then free else ratF32 exact
    else f32 (((vOf (ratF32 v)).add m.neg).mul s)
  (FloatFmt.bf16.conv (vOf w)).bits

/-- The bytes of a picture's tensor (R593), layout 0 by planes, layout 1 by pixels. -/
def Dev.tensor (d : Dev) (k : Nat) (p : Config.Decoded) : List Byte × Dev :=
  let pre := d.reg (pStrm k) 0x05C
  let c := d.cropOf k p
  let nch := if bits pre 1 0 = 2 then 1 else 3
  let luma := p.luma.toArray
  let cb := p.cb.toArray
  let cr := p.cr.toArray
  let n := d.free
  let px : List (List Nat) := (List.range (c.ow * c.oh)).map fun i =>
    ((pixel (d.strmCodec k == 0) pre c p luma cb cr (i % c.ow) (i / c.ow)).zip (List.range 3)).map fun (x : Rat × Nat) =>
      outValue (Config.freeBits n (1000 + 3 * i + x.2) 32) pre x.1 (BitVec.ofNat 32 (d.reg (pStrm k) (0x060 + 4 * x.2)))
        (BitVec.ofNat 32 (d.reg (pStrm k) (0x06C + 4 * x.2)))
  let vals : List Nat := if bit pre 2 then px.flatten else (List.range nch).flatMap fun ch => px.map fun (x : List Nat) => x.getD ch 0
  (vals.flatMap (leBytes 2), { d with free := d.free + 1 })

/-! ### Decode engines (R601, R602) -/

/-- Cycles of a picture (R601). -/
def Dev.picCost (d : Dev) (k : Nat) (p : Picture) : Nat :=
  let o := d.reg (pStrm k) 0x058
  Nat.max (p.width * p.height * if d.strmCodec k = 1 then 4 else 3) (cdiv (bits o 15 0 * bits o 31 16) 2) + 2000

/-- DECO_SHAREp.weight. -/
def Dev.decoWeight (d : Dev) (e n : Nat) : Nat := d.reg ⟨.deco, e⟩ (0x040 + 4 * n)

/-- The contexts of a partition that wait for an engine. -/
def Dev.decoWaiting (d : Dev) (e n : Nat) : List Nat :=
  (List.range 48).filter fun k =>
    d.strmOwner k == some n && d.strmDeco k == e && d.bst (pStrm k) == .running && !(d.sctx k).waiting.isEmpty

/-- The next context of a partition in ascending order after the last served. -/
def Dev.decoNext (d : Dev) (e n : Nat) : Option Nat :=
  let l := d.decoWaiting e n
  match (d.decoSt e).lastCtx.find? n with
  | none => l.head?
  | some j => (l.find? fun k => j < k) <|> l.head?

/-- Start a picture of a context. -/
def Dev.decoServe (d : Dev) (e n k : Nat) (p : Picture) (cost : Nat) : Dev :=
  let d := d.updCtx k fun x => { x with waiting := x.waiting.drop 1 }
  d.updDeco e fun x =>
    { x with deficit := x.deficit.upd 0 n fun c => c - cost, turn := n, lastCtx := x.lastCtx.insert n k, cur := some (k, p, cost) }

/-- Deficit round robin: visit partitions from the one whose turn it is (R602); the first visit has its quantum. -/
def decoRound (e : Nat) : Nat → Nat → Bool → Dev → Dev
  | 0, _, _, d => d
  | fuel + 1, n, quantum, d =>
    let w := d.decoWeight e n
    match (if w = 0 then none else d.decoNext e n) with
    | none => decoRound e fuel ((n + 1) % 16) true (d.updDeco e fun x => { x with deficit := x.deficit.erase n })
    | some k =>
      let d := if quantum then d.updDeco e fun x => { x with deficit := x.deficit.upd 0 n fun c => c + w * 1048576 } else d
      match (d.sctx k).waiting with
      | [] => d
      | p :: _ =>
        let cost := d.picCost k p
        if cost ≤ (d.decoSt e).deficit.get 0 n then d.decoServe e n k p cost
        else decoRound e fuel ((n + 1) % 16) true d

/-- DECODE_START (R602). -/
def execDecodeStart (deco : Fin 6) : State → Host.Outcome State Fault Refusal :=
  onDev fun d =>
    let e := deco.val
    let ready := (List.range 16).any fun n => d.decoWeight e n ≠ 0 && !(d.decoWaiting e n).isEmpty
    if (d.decoSt e).cur.isSome ∨ !ready ∨ d.bst ⟨.deco, e⟩ ≠ .running then d
    else
      let (idle, d) := d.freeNat 41
      decoRound e 4000 (d.decoSt e).turn false (d.cnt .pf ⟨.deco, e⟩ 3 idle)

/-- The 32-byte record of a picture (R598). -/
def Dev.picRecord (d : Dev) (k : Nat) (p : Picture) (q : Config.Decoded) (status : Nat) : List Byte :=
  leBytes 4 p.ident ++ leBytes 4 p.ssrc ++ leBytes 8 p.stamp ++ leBytes 2 q.width ++ leBytes 2 q.height ++ leBytes 2 p.firstSeq ++
  leBytes 1 status ++ leBytes 1 (b2n p.irap + 2 * b2n q.ten) ++ leBytes 4 (d.sctx k).drops ++ zbytes 4

/-- A decoded picture goes into the active slot (R597, R598). -/
def Dev.writePic (k n : Nat) (all : List Picture) (d : Dev) (q : Config.Decoded) : Dev :=
  match all[q.index]? with
  | none => d
  | some p =>
    if !d.cropOk k q then d.dropPic k 5
    else
      match (d.sctx k).active with
      | none => d.dropPic k 9
      | some s =>
        let i := (d.sctx k).written
        let (bytes, d) := d.tensor k q
        let va := d.slotVa k s 0 + i * d.slotReg k s 0x08
        let work := d.strmVa k 0x078
        let fault := (d.faults n agStrm true va bytes.length).isSome
        let lost := !d.inT1w n work (d.reg (pStrm k) 0x080 * 65536)
        let poison := (piecesOf work (d.reg (pStrm k) 0x080 * 65536)).any fun (x : Nat × Nat) =>
          match d.tr n agStrm false work 1 x.1 with
          | .key g => (d.firstPoison g x.2).isSome
          | _ => false
        let (hit, d) := if poison then d.freeBool 42 else (false, d)
        let d :=
          if fault then
            let d := (d.strmCnt k 15 1).strmEvt k 8
            match d.faults n agStrm true va bytes.length with
            | some (x, c) => d.tierFault n x c agStrm
            | none => d
          else if lost then (d.strmCnt k 15 1).strmEvt k 8
          else
            let d := if hit then d.poisonRead (pStrm k) 1 work (some n) else d
            (d.tWrite n agStrm va bytes (if hit then List.range bytes.length else [])).strmCnt k 2 1
        let status := if fault ∨ lost then 2 else if hit then 3 else 0
        let d := d.strmWrite k n (d.slotVa k s 0x10 + 32 * i) (d.picRecord k p q status) []
        let d := d.updCtx k fun x =>
          { x with drops := 0, written := i + 1, batchAt := if i = 0 then d.timer (d.strmIsle k) else x.batchAt }
        if i + 1 = d.slotReg k s 0x0C then d.completeSlot k false else d

/-- The islands of the places to which the next pictures go are awake. -/
def Dev.slotAwake (d : Dev) (k n count : Nat) : Bool × Dev :=
  match (d.sctx k).active with
  | none => (true, d)
  | some s =>
    (List.range (Nat.min count (d.slotReg k s 0x0C - (d.sctx k).written))).foldl (fun (a : Bool × Dev) i =>
      let j := (a.2.sctx k).written + i
      let (x, d) := a.2.prepare n agStrm true (a.2.slotVa k s 0 + j * a.2.slotReg k s 0x08) (a.2.picBytes k)
      let (y, d) := d.prepare n agStrm true (d.slotVa k s 0x10 + 32 * j) 32
      (a.1 && x && y, d)) (true, d)

/-- DECODE_DONE (R588, R589): the pictures that leave the engine are prepared and written. -/
def execDecodeDone (deco : Fin 6) : State → Host.Outcome State Fault Refusal :=
  onDev fun d =>
    let e := deco.val
    match (d.decoSt e).cur with
    | none => d
    | some (k, p, cost) =>
      match d.strmOwner k with
      | none => d.updDeco e fun x => { x with cur := none }
      | some n =>
        let refs := (d.sctx k).refs
        let res := Config.decodePicture (d.strmCodec k) (b2n (d.strmRtp k)) (refs.map fun (p : Picture) => p.bytes) p.bytes
        let outs := (res.getD []).length
        let (awake, d) := d.slotAwake k n outs
        if !awake then d
        else
          let pg : Page := ⟨.deco, e⟩
          let d := ((d.cntP pg 0 1 (some n)).cntP pg 1 (p.width * p.height) (some n)).cntP pg 2 cost (some n)
          let d := d.updDeco e fun x => { x with cur := none }
          let d := match res with
            | none => d.dropPic k 6
            | some l =>
              let d := if d.strmCodec k = 1 then d.updCtx k fun x => { x with refs := refs ++ [p] } else d
              l.foldl (Dev.writePic k n (refs ++ [p])) d
          let d := d.flushToIrap k
          if d.bst (pStrm k) = .quiescing then d.releaseSlots k else d

/-- What enable refuses with code 0x0103 (R590). -/
def Dev.strmEnableBad (d : Dev) (k n : Nat) : Bool :=
  let m := d.reg (pStrm k) 0x048
  let o := d.reg (pStrm k) 0x058
  let nbuf := if d.strmCodec k = 1 then 7 else 1
  let need := cdiv (5 * (64 * d.reg (pStrm k) 0x04C) + nbuf * bits m 15 0 * bits m 31 16 * 6) 65536
  d.reg (pStrm k) 0x080 < need || bits o 15 0 = 0 || bits o 31 16 = 0 || 5 < d.strmDeco k || d.decoWeight (d.strmDeco k) n = 0

/-- A context that was enabled starts afresh; its slots stay as they are. -/
def Dev.strmFresh (d : Dev) (k : Nat) : Dev :=
  d.updCtx k fun x => { x with asm := none, nextSeq := none, skip := none, refs := [], waiting := [], waitIrap := false }

end Sys2Proof.Machine
end

