-- ==== Sys2Proof/Machine/Halt.lean ====
section
/-!
DEFINITION. How units stop: quiesce, what busy means, and the halts of containment and of a drain whose grace has passed
(R85, R131 step 4, R424, R574, R641, R649).
-/

namespace Sys2Proof.Machine

/-! ### Busy and quiesce -/

/-- A producer of a core awaits conversion. -/
def Dev.coreAwaits (d : Dev) (inst : Nat) : Bool := (d.nw (inst / 17)).awaits.any fun (a : Await) => a.core == inst && a.queue != 4

/-- A producer submitted to the matrix-vector unit of a die awaits conversion. -/
def Dev.mvecAwaits (d : Dev) (m : Nat) : Bool :=
  (List.range 4).any fun j => (d.nw (4 * m + j)).awaits.any fun (a : Await) => a.queue == 4

/-- Work of a unit is in flight (BLK_STS.busy). -/
def Dev.unitBusy (d : Dev) (p : Page) : Bool :=
  match p.blk with
  | .core =>
    let c := d.core p.inst
    !c.loads.isEmpty || !c.arr.isEmpty || !c.vec.isEmpty || !c.sto.isEmpty || d.coreAwaits p.inst
  | .opte => (d.op p.inst).cur.isSome
  | .rede => (d.red p.inst).act.isSome || (d.red p.inst).comb.isSome
  | .mvec => (d.mvec.get .reset p.inst).cur.isSome || d.mvecAwaits p.inst
  | .dmae => (d.dma p.inst).chans.any fun (c : Nat × Chan) => !c.2.run.isEmpty
  | .strm => d.strm.deco.any fun (e : Nat × Deco) => match e.2.cur with
    | some x => x.1 == p.inst
    | none => false
  | .ring => !(d.ring p.inst).running.isEmpty
  | .tokx => d.tokx.open_.any fun (t : SlotTag) => t.die == p.inst
  | .deco => (d.strm.deco.get .reset p.inst).cur.isSome
  | .devc | .part | .clst | .nwch | .isle | .hbmc | .tier | .flsh | .lend | .pcie | .ethp | .fabt | .pwrc | .secc
  | .errm | .side | .mgmt => false

/-- Quiesce a running block (R85). Producers of the cluster settle (R424), and a held late update has not issued (R388). -/
def Dev.quiesceBlk (d : Dev) (p : Page) : Dev :=
  if d.bst p ≠ .running then d
  else
    let d := (d.setPst p { d.pst p with quiesce := true }).toState p .quiescing
    match p.blk with
    | .core => d.settleWaiting (p.inst / 17)
    | .nwch | .rede => d.settleWaiting p.inst
    | .strm => if d.unitBusy p then d else d.releaseSlots p.inst
    | .opte =>
      let d := d.settleWaiting p.inst
      if (d.op p.inst).held.isSome then (d.opUnheld p.inst).toState p .quiesced else d
    | _ => d

/-- A quiescing block that is idle becomes Quiesced, or Disabled where enable is 0 (R85). -/
def Dev.drainBlk (d : Dev) (p : Page) : Dev :=
  if d.bst p ≠ .quiescing ∨ d.unitBusy p then d
  else d.toState p (if (d.pst p).enable then .quiesced else .disabled)

/-! ### Halts -/

/-- A halted block, unless it is Absent. -/
def Dev.haltBlk (d : Dev) (p : Page) : Dev := if d.bst p = .absent then d else d.toState p .halted

/-- The destinations of a load engine's operation that data has not reached (R641). -/
def Dev.markLoad (d : Dev) (inst : Nat) (o : LoadOp) : Dev :=
  if o.entered ∨ dOp o.desc = 0x11 then d
  else
    let v := opLines o.desc
    let d := o.out.foldl (fun (d : Dev) (r : Req) => d.mark (sramKey inst r.near) r.len) d
    let rest := (List.range v.lines).drop o.line
    rest.foldl (fun (d : Dev) i =>
      let p := if i = o.line then o.pos else 0
      d.mark (sramKey inst (v.nearAt i + p)) (v.len - p)) d

/-- The destinations of a STORE that is not acknowledged. -/
def Dev.markStore (d : Dev) (inst part : Nat) (f : StFlight) : Dev :=
  if f.done ∨ f.kind ≠ .store then d
  else
    let v := Mv.of f.desc
    (List.range v.lines).foldl (fun (d : Dev) i =>
      if v.space = 0 then d.tMark part (v.farAt i) v.len else d.mark (d.storeKey inst v i) v.len) d

/-- An operation of an array, vector or matrix-vector engine is abandoned: its destinations are marked; running sums
that leave the core go on, all poisoned. -/
def Dev.abandon (d : Dev) (f : Flight) (chained : Bool) (own : Nat → Bool) : Dev :=
  let near := f.writes.filter fun (w : MemWr) => !chained || own w.key
  let far := f.writes.filter fun (w : MemWr) => chained && !own w.key
  let d := d.markAll near
  let d := d.land (far.map fun (w : MemWr) => { w with bad := List.range w.bytes.length })
  if chained then f.filled.foldl (fun (d : Dev) (t : Nat × Nat) => d.updCore t.1 fun c => { c with emptySpill := c.emptySpill.del t.2 }) d
  else d

/-- Producers that await conversion are abandoned: their outputs are marked and their signals sent. -/
def Dev.dropAwaits (d : Dev) (c part : Nat) (pick : Await → Bool) : Dev :=
  let gone := (d.nw c).awaits.filter pick
  let d := d.updNw c fun n => { n with awaits := n.awaits.filter fun a => !pick a }
  gone.foldl (fun (d : Dev) (a : Await) =>
    let d := d.markAll (convWrites a (d.convDrain a))
    d.signal (dSig a.desc) (partFin part) (if a.queue = 4 then srcEng 3 (a.core / 17 / 4) 0 else srcCore a.core a.queue)) d

/-- A core is halted (R641): issued operations are abandoned with poison and signals; unissued ones stay queued. -/
def Dev.haltCore (d : Dev) (inst : Nat) : Dev :=
  match d.corePart inst with
  | none => d.haltBlk (pCore inst)
  | some part =>
    let c := d.core inst
    let p := partFin part
    let d := c.loads.foldl (fun (d : Dev) (o : LoadOp) => (d.markLoad inst o).signal (dSig o.desc) p (srcCore inst 0)) d
    let d := c.arr.foldl (fun (d : Dev) (f : Flight) =>
      (d.abandon f (dChain f.desc ≠ 0) fun k => k / memSpan == inst).signal (dSig f.desc) p (srcCore inst 1)) d
    let d := c.vec.foldl (fun (d : Dev) (f : Flight) => (d.abandon f false fun _ => true).signal (dSig f.desc) p (srcCore inst 2)) d
    let d := c.sto.foldl (fun (d : Dev) (f : StFlight) => (d.markStore inst part f).signal (dSig f.desc) p (srcCore inst 3)) d
    let d := d.dropAwaits (inst / 17) part fun a => a.core == inst && a.queue != 4
    let d := d.updCore inst fun c =>
      { c with loads := [], arr := [], vec := [], sto := [], arrPlan := none, vecPlan := none, ratio := 0, capture := none
               ld := { c.ld with go := false }, ar := { c.ar with go := false }
               ve := { c.ve with go := false }, st := { c.st with go := false } }
    d.haltBlk (pCore inst)

/-- A dead core's work is dropped whole (R649). -/
def Dev.dropCore (d : Dev) (inst : Nat) : Dev :=
  (d.setCore inst .reset).updNw (inst / 17) fun n => { n with awaits := n.awaits.filter fun (a : Await) => a.core != inst || a.queue == 4 }

/-- An optimiser engine is halted. -/
def Dev.haltOpte (d : Dev) (c part : Nat) : Dev :=
  let d := match (d.op c).cur with
    | none => d
    | some r => (r.writes.foldl (fun (d : Dev) (w : VaWr) => d.tMark part w.va w.bytes.length) d).opSignal c part (dSig r.desc)
  ((d.opUnheld c).updOp c fun o => { o with cur := none }).haltBlk (pOpte c)

/-- A reduction engine is halted. -/
def Dev.haltRede (d : Dev) (c part : Nat) : Dev :=
  let d := match (d.red c).act with
    | none => d
    | some a =>
      let q := a.path
      let d := a.left.foldl (fun (d : Dev) p => d.redMark c part q.b.dstBuf (q.b.dst + q.dstOff p) (q.elems p * q.eb)) d
      (d.updRed c fun r => { r with act := none, ended := r.ended.add q.b.tag }).redSignal c part 0 a.desc
  let d := match (d.red c).comb with
    | none => d
    | some (x, _) =>
      let b := CombBody.of x
      let n := (((d.red c).runs.find? fun (r : TokRun) => r.tag == b.tag).map fun (r : TokRun) => r.rowBytes).getD 0
      ((d.tMark part b.out (b.t * n * if b.fp32 then 2 else 1)).updRed c fun r => { r with comb := none }).redSignal c part 2 x
  (d.updRed c fun r => { r with pipe := none }).haltBlk (pRede c)

/-- A matrix-vector unit is halted. -/
def Dev.haltMvec (d : Dev) (m part : Nat) : Dev :=
  let d := match (d.mvec.get .reset m).cur with
    | none => d
    | some (_, f) => (d.abandon f false fun _ => true).signal (dSig f.desc) (partFin part) (srcEng 3 m 0)
  let d := (List.range 4).foldl (fun (d : Dev) j => d.dropAwaits (4 * m + j) part fun a => a.queue == 4) d
  (d.updMvec m fun u => { u with plan := none, cur := none, rowsLeft := 0 }).haltBlk (pMvec m)

/-- A stream context is halted: its slots are disarmed, its assembly, its pictures and the one in service are dropped. -/
def Dev.haltStrm (d : Dev) (k : Nat) : Dev :=
  let d := { d with strm := { d.strm with
    ctx := d.strm.ctx.upd .reset k fun x =>
      { x with asm := none, waiting := [], active := none, written := 0, slot0 := { x.slot0 with own := false }, slot1 := { x.slot1 with own := false } }
    deco := d.strm.deco.map fun (e : Nat × Deco) => match e.2.cur with
      | some x => if x.1 = k then (e.1, { e.2 with cur := none }) else e
      | none => e } }
  d.haltBlk (pStrm k)

/-- Halt one unit of a partition. -/
def Dev.haltUnit (d : Dev) (part : Nat) (p : Page) : Dev :=
  match p.blk with
  | .core => d.haltCore p.inst
  | .opte => d.haltOpte p.inst part
  | .rede => d.haltRede p.inst part
  | .mvec => d.haltMvec p.inst part
  | .dmae => d.dmaHalt p.inst 0 false 6 0
  | .strm => d.haltStrm p.inst
  | .nwch | .clst => d.haltBlk p
  | .devc | .part | .isle | .hbmc | .tier | .flsh | .lend | .pcie | .ring | .ethp | .fabt | .tokx | .deco | .pwrc | .secc
  | .errm | .side | .mgmt => d

/-- The engines of a cluster. -/
def clusterEngines (c : Nat) : List Page := ((List.range 17).map fun s => pCore (17 * c + s)) ++ [pOpte c, pNwch c, pRede c]

/-- The units that a partition owns and that run work. -/
def Dev.unitsOf (d : Dev) (n : Nat) : List Page :=
  ((d.clustersOf n).flatMap clusterEngines) ++
  (((List.range 4).filter fun m => d.mvecOwner m == some n).map pMvec) ++
  (((List.range 32).filter fun e => d.dmaeOwner e == some n).map pDmae) ++
  (((List.range 48).filter fun k => d.strmOwner k == some n).map pStrm)

/-- Cluster containment (R641). -/
def Dev.haltCluster (d : Dev) (c : Nat) : Dev :=
  let part := (d.clusterOwner c).getD 0
  ((clusterEngines c).foldl (fun (d : Dev) p => if (d.clusterOwner c).isNone then d.haltBlk p else d.haltUnit part p) d).haltBlk (pClst c)

def Dev.setPart (d : Dev) (n : Nat) (s : PartState) : Dev :=
  { d with parts := { d.parts with st := d.parts.st.upd .reset n fun x => { x with state := s } } }

/-- Partition containment (R641). -/
def Dev.haltPart (d : Dev) (n : Nat) : Dev :=
  let d := (d.unitsOf n).foldl (fun (d : Dev) p => d.haltUnit n p) d
  let d := (d.clustersOf n).foldl (fun (d : Dev) c => d.haltBlk (pClst c)) d
  (d.setPart n .halted).dropPartFlows n

/-- Device containment (R641). -/
def Dev.haltDevice (d : Dev) : Dev :=
  (((List.range 16).filter d.active).foldl (fun (d : Dev) n => d.haltPart n) d).haltBlk pDevc

/-- Quiesce every unit at once, and halt those that are busy (R131 step 4, R628). -/
def Dev.haltAll (d : Dev) : Dev :=
  ((List.range 16).filter d.active).foldl (fun (d : Dev) n =>
    (d.unitsOf n).foldl (fun (d : Dev) p =>
      if d.unitBusy p then d.haltUnit n p else (d.quiesceBlk p).drainBlk p) d) d

/-- A core or fabric island has no operation in progress and no head able to issue (R607). -/
def Dev.isleIdle (d : Dev) (i : Nat) : Bool :=
  if i < 272 then
    !d.unitBusy (pCore i) && (List.range 4).all fun q =>
      let e := (d.core i).eng q
      match e.queue with
      | [] => true
      | x :: _ => e.stopped || e.ended || d.bst (pCore i) != .running || d.unmet i x != []
  else if i < 0x120 then
    let c := i - 0x110
    let still (p : Page) (q : List (Nat × Desc)) (stopped : Bool) : Bool := match q with
      | [] => true
      | (_, x) :: _ => stopped || d.bst p != .running || d.unmet (17 * c) x != []
    !d.unitBusy (pOpte c) && !d.unitBusy (pRede c) && still (pOpte c) (d.op c).q.queue (d.op c).q.stopped &&
    still (pNwch c) (d.nw c).queue (d.nw c).stopped &&
    (List.range 3).all fun j => still (pRede c) ((d.red c).q j).queue ((d.red c).q j).stopped
  else false

end Sys2Proof.Machine
end

