-- ==== Sys2Proof/Machine/Power.lean ====
section
/-!
DEFINITION. Island states, frequencies, the slew governor, the cap and thermal loops, and the device ladder
(chapter 16).
-/

namespace Sys2Proof.Machine

/-! ### Islands (R603–R610, R727) -/

/-- The cluster of a core or fabric island. -/
def isleCluster (i : Nat) : Nat := if i < 272 then i / 17 else i - 0x110

/-- An operation of the island is in progress: of a core's engines, of a cluster's engines. -/
def Dev.isleBusy (d : Dev) (i : Nat) : Bool :=
  if i < 272 then
    let c := d.core i
    !c.loads.isEmpty || !c.arr.isEmpty || !c.vec.isEmpty || !c.sto.isEmpty
  else if i < 0x120 then
    let c := i - 0x110
    (d.opte.get .reset c).cur.isSome || (d.rede.get .reset c).act.isSome || (d.rede.get .reset c).comb.isSome
  else false

/-- A timer rule is armed on a core island's timer: its idle time (R50, R607). -/
def Dev.armed (d : Dev) (i : Nat) : Bool := bits (d.reg (pIsle i) 0x04C) 2 0 ≠ 0

/-- The slot runs nothing for any partition: spare, dead, of a withdrawn or an unassigned cluster (R605). -/
def Dev.unused (d : Dev) (i : Nat) : Bool :=
  let c := d.clus' (i / 17)
  c.withdrawn || (d.clusterOwner (i / 17)).isNone || c.slots.getD (i % 17) .dead != .active

/-- ISLE_SAVE. -/
def Dev.saveVa (d : Dev) (i : Nat) : Nat :=
  bits (d.reg (pIsle i) 0x050) 31 16 * 65536 + 4294967296 * bits (d.reg (pIsle i) 0x054) 19 0

/-- The save area of a core island is 64 MiB of T1 pages of its owner (R609). -/
def Dev.saveArea (d : Dev) (i : Nat) : Bool :=
  match d.clusterOwner (i / 17) with
  | none => false
  | some n => d.inT1w n (d.saveVa i) sramBytes

/-- ISLE_AUTO.save. -/
def Dev.saves (d : Dev) (i : Nat) : Bool := bit (d.reg (pIsle i) 0x04C) 3

/-- The state may be asked for through the view (R605, R50, R609). -/
def Dev.mayAsk (d : Dev) (priv : Bool) (i : Nat) (r : IsleState) : Bool :=
  match isleKind i with
  | some 0 =>
    (r != .cold || (priv && d.unused i && !d.armed i)) &&
    (r != .damped || !d.saves i || d.saveArea i)
  | some 1 =>
    r == .fired || (r == .held && (List.range 17).all fun s =>
      let x := (d.clus' (i - 0x110)).slots.getD s .dead
      x != .active || (d.isle (17 * (i - 0x110) + s)).state.code ≠ 0)
  | _ => false

/-- A request that is dropped: code 0x0101, BLK_EVT bit 1, counter 6. -/
def Dev.isleRefuse (d : Dev) (v : View) (i : Nat) : Dev :=
  ((d.err v (pIsle i) 0x0101).evt v (pIsle i) 2).cntP (pIsle i) 6 1 (d.pageOwner (pIsle i))

/-- The island's page is written through a view: shared islands are read-only in VF views. -/
def Dev.isleView (d : Dev) (v : View) (i off : Nat) (f : Dev → Dev) : Dev :=
  d.through v (pIsle i) off fun d => match v with
    | .pf => f d
    | .vf n => if i < 0x120 then f d else d.violR n (pIsle i) off

/-- ISLE_STATE.req (R605). -/
def stateReq (v : View) (i r : Nat) (d : Dev) : Dev :=
  d.isleView v i 0x048 fun d =>
    match IsleState.ofCode r with
    | none => d.isleRefuse v i
    | some q =>
      if !d.mayAsk (v == .pf) i q then d.isleRefuse v i
      else if q = .fired then
        if (d.isle i).state = .cold then
          d.updIsle i fun x => if x.move = .descending then { x with req := .fired, wake := true } else { x with req := .fired, move := .exiting }
        else (d.updIsle i fun x => { x with req := .fired }).wake i
      else d.updIsle i fun x => { x with req := q }
/-- ISLE_STATE_REQ (R605). -/
def execIsleStateReq (v : View) (isle : Nat) (req : BitVec 3) (s : State) : Host.Outcome State Fault Refusal :=
  onPage (isleKind isle).isSome (stateReq v isle req.toNat) s

/-- Show a state; BLK_EVT bit 0 of the page is set when it changes. -/
def Dev.showIsle (d : Dev) (i : Nat) (x : Isle) : Dev :=
  let was := (d.isle i).state
  let d := d.setIsle i x
  if was = x.state then d else d.evtP (pIsle i) 1 (d.pageOwner (pIsle i))

/-- Descent begins once nothing is in progress (R606, R727): the island shows the state asked for. -/
def descentStart (i : Nat) (d : Dev) : Dev :=
  let x := d.isle i
  let mv := i < 272 && (d.mvec.get .reset (i / 17 / 4)).cur.isSome
  if x.move ≠ .rest ∨ x.req = .fired ∨ x.req = x.state ∨ d.isleBusy i ∨ mv then d
  else
    let save := i < 272 && x.req == .damped && d.saves i
    d.showIsle i { x with state := x.req, move := if save then .saving else .descending }
/-- ISLAND_DESCENT_START (R727). -/
def execIslandDescentStart (isle : Nat) (s : State) : Host.Outcome State Fault Refusal :=
  onPage (isleKind isle).isSome (descentStart isle) s

/-- What a core loses when its SRAM goes off without save: the contents, and the intact flags of its windows (R609). -/
def Dev.loseSram (d : Dev) (i : Nat) : Dev :=
  (d.zero (sramKey i 0) sramBytes).updCore i fun c => { c with wins := c.wins.map fun (e : Nat × ResWin) => (e.1, { e.2 with intact := false }) }

/-- What a core loses in Cold: everything returns at its Reset values (R604). -/
def Dev.loseCore (d : Dev) (i : Nat) : Dev :=
  let d := (d.loseSram i).setCore i .reset
  { d with evc := d.evc.dropRange (i * 64) (i * 64 + 64) }.clearRegs (pCore i)

/-- Descent ends (R727, R608): what the state does not keep is gone; a wake that came meanwhile exits at once. -/
def descentDone (i : Nat) (d : Dev) : Dev :=
  let x := d.isle i
  if x.move ≠ .descending then d
  else
    let d := if i < 272 ∧ x.state = .damped then (if x.saved then d.zero (sramKey i 0) sramBytes else d.loseSram i)
      else if i < 272 ∧ x.state = .cold then d.loseCore i else d
    let x := if x.state = .cold then { x with saved := false } else x
    if x.wake then d.setIsle i { x with req := .fired, move := .exiting, wake := false }
    else d.setIsle i { x with move := .rest }
/-- ISLAND_DESCENT_DONE (R727). -/
def execIslandDescentDone (isle : Nat) (s : State) : Host.Outcome State Fault Refusal :=
  onPage (isleKind isle).isSome (descentDone isle) s

/-- An island idle for ISLE_AUTO.idle ticks asks for ISLE_AUTO.target itself, within R605 (R607). -/
def autoIdle (i : Nat) (d : Dev) : Dev :=
  let w := d.reg (pIsle i) 0x04C
  match IsleState.ofCode (bits w 2 0) with
  | none => d
  | some q =>
    if q = .fired ∨ (d.isle i).state ≠ .fired ∨ (d.isle i).move ≠ .rest ∨ d.isleBusy i ∨ !d.isleIdle i ∨ !d.mayAsk false i q then d
    else (d.reach i (d.timer i + bits w 31 8)).updIsle i fun x => { x with req := q }
/-- ISLAND_AUTO_IDLE (R607). -/
def execIslandAutoIdle (isle : Nat) (s : State) : Host.Outcome State Fault Refusal :=
  onPage (isleKind isle).isSome (autoIdle isle) s

/-- The exit ends: the island is Fired; from Cold its timer restarts from zero (R49); a core that was saved is
restored before it issues (R609). -/
def exitDone (i : Nat) (d : Dev) : Dev :=
  let x := d.isle i
  if x.move ≠ .exiting then d
  else
    let cold := x.state = .cold ∧ i ≠ ioIsle
    d.showIsle i { x with state := .fired, req := .fired, wake := false
                          move := if x.saved then .restoring else .rest
                          ticks := if cold then 0 else x.ticks, timer := if cold then 0 else x.timer }
/-- ISLAND_EXIT_DONE (R608). -/
def execIslandExitDone (isle : Nat) (s : State) : Host.Outcome State Fault Refusal :=
  onPage (isleKind isle).isSome (exitDone isle) s

/-- The SRAM is in the save area (R609), its poison marks with it. -/
def saveDone (i : Nat) (d : Dev) : Dev :=
  let x := d.isle i
  match d.clusterOwner (i / 17) with
  | none => d
  | some n =>
    if x.move ≠ .saving then d
    else
      let d := (List.range 1024).foldl (fun (d : Dev) j =>
        let k := sramKey i (j * 65536)
        d.tWrite n agTier (d.saveVa i + j * 65536) (d.rd k 65536) (d.badOffsets k 65536)) d
      d.setIsle i { x with move := .descending, saved := true }
/-- SRAM_SAVE_DONE (R609). -/
def execSramSaveDone (isle : Nat) (s : State) : Host.Outcome State Fault Refusal :=
  onPage (isleKind isle).isSome (saveDone isle) s

/-- Firmware puts SRAM bytes back: no engine writes, so the residence windows stay as they are (R280, R609). -/
def Dev.refill (d : Dev) (k : Nat) (bytes : List Byte) (bad : List Nat) : Dev :=
  { d with mem := memWrite d.mem k bytes, poison := poisonAfter d.poison k bytes.length bad }

/-- The SRAM is back from the save area (R609). -/
def restoreDone (i : Nat) (d : Dev) : Dev :=
  let x := d.isle i
  match d.clusterOwner (i / 17) with
  | none => d
  | some n =>
    if x.move ≠ .restoring then d
    else
      let d := (List.range 1024).foldl (fun (d : Dev) j =>
        let (r, d) := d.tRead n agTier (d.saveVa i + j * 65536) 65536
        d.refill (sramKey i (j * 65536)) r.bytes r.bad) d
      d.setIsle i { x with move := .rest, saved := false }
/-- SRAM_RESTORE_DONE (R609). -/
def execSramRestoreDone (isle : Nat) (s : State) : Host.Outcome State Fault Refusal :=
  onPage (isleKind isle).isSome (restoreDone isle) s

/-- ISLE_FREQ.target: outside fmin to fmax as the nearer end; a mesh segment's is privileged-only; elsewhere it is RO
(R610). -/
def freqWrite (v : View) (i : Nat) (value : Word) (d : Dev) : Dev :=
  d.isleView v i 0x044 fun d =>
    if i < 0x124 then d.updIsle i fun x => { x with target := Nat.max 16 (Nat.min (isleFmax i) (bits value.toNat 6 0)) } else d
/-- ISLE_FREQ_WRITE (R610). -/
def execIsleFreqWrite (v : View) (isle : Nat) (value : Word) (s : State) : Host.Outcome State Fault Refusal :=
  onPage (isleKind isle).isSome (freqWrite v isle value) s

def Dev.die (d : Dev) (n : Nat) : DiePwr := d.pwr.dies.get .reset n
def Dev.setDie (d : Dev) (n : Nat) (x : DiePwr) : Dev := { d with pwr := { d.pwr with dies := d.pwr.dies.put .reset n x } }

/-- The frequency that an island is to run at (R610). -/
def Dev.freqOf (d : Dev) (i : Nat) : Nat :=
  let x := d.isle i
  if i < 0x120 then Nat.min x.target (Nat.min (d.die (isleCluster i / 4)).thermal (d.die (isleCluster i / 4)).cap) else x.target

/-- k of a die's core islands: the lowest that any cause asks for (R628). -/
def Dev.kOf (d : Dev) (n : Nat) : Nat := Nat.min (d.die n).k (Nat.min d.pwr.capK d.pwr.brakeK)

/-- The next descriptor boundary: the effective frequency is in force (R46). -/
def freqApply (i : Nat) (d : Dev) : Dev := d.updIsle i fun x => { x with eff := d.freqOf i }
/-- FREQ_CHANGE_APPLY (R46). -/
def execFreqChangeApply (isle : Nat) (s : State) : Host.Outcome State Fault Refusal :=
  onPage (isleKind isle).isSome (freqApply isle) s

/-! ### The governor (R612–R623) -/

/-- The brake is applied, by PWRBRAKE_N or by undervoltage. -/
def Dev.braked (d : Dev) : Bool := d.pwr.brake || d.pwr.under

/-- PWRC_SLEW.rate in 0.25 A/µs. -/
def Dev.slew (d : Dev) : Nat := Nat.max 1 (Nat.min 16 (d.reg pPwrc 0x04C))

/-- The next envelope (R616), all in mW: want, measured m, steps up and down, ceiling. -/
def nextG (g m want up down ceiling : Nat) : Nat :=
  if g < want ∧ g ≤ ceiling then Nat.min (Nat.min (g + up) want) ceiling else Nat.max (g - down) (Nat.min m (Nat.max ceiling (g - down)))

/-- The plans that wait for a grant: cores in ascending physical order, array before vector; then matrix-vector
units (R616, R617). -/
def Dev.waitingPlans (d : Dev) : List (Nat × Nat) :=
  (d.cores.map fun (e : Nat × Core) =>
    ((match e.2.arrPlan with | some p => if p.granted then [] else [(e.1 * 2, p.charge)] | none => []) ++
     (match e.2.vecPlan with | some p => if p.granted then [] else [(e.1 * 2 + 1, p.charge)] | none => []))).flatten ++
  (d.mvec.map fun (e : Nat × Mvec) =>
    match e.2.plan with | some p => if p.granted then [] else [(1000 + e.1, p.charge)] | none => []).flatten ++
  (d.nwch.map fun (e : Nat × Nwch) =>
    ((enumFrom 0 e.2.awaits).filter fun (a : Nat × Await) => a.2.settled && !a.2.granted).map fun a => (2000 + e.1 * 4096 + a.1, a.2.charge)).flatten

/-- Give the grant that a waiting plan asks for. -/
def Dev.grant (d : Dev) (id : Nat) : Dev :=
  if id < 1000 then
    d.updCore (id / 2) fun c =>
      if id % 2 = 0 then { c with arrPlan := c.arrPlan.map fun (p : Plan) => { p with granted := true } }
      else { c with vecPlan := c.vecPlan.map fun (p : Plan) => { p with granted := true } }
  else if id < 2000 then
    { d with mvec := d.mvec.upd .reset (id - 1000) fun m => { m with plan := m.plan.map fun (p : Plan) => { p with granted := true } } }
  else
    { d with nwch := d.nwch.upd .reset ((id - 2000) / 4096) fun n =>
        { n with awaits := n.awaits.modify ((id - 2000) % 4096) fun a => { a with granted := true } } }

/-- Grants while m and the charges granted stay within g (µW). -/
def grantAll (room : Nat) : List (Nat × Nat) → Dev → Dev
  | [], d => d
  | (id, c) :: rest, d => if c ≤ room then grantAll (room - c) rest (d.grant id) else d

/-- An update of the governor (R616): the input as measured, the envelope, the grants, ballast, and k under the brake
(R622). -/
def governor (m : Nat) (volt amp : BitVec 16) (d : Dev) : Dev :=
  let w := d.waitingPlans
  let want := m + sumN (w.map (·.2)) / 1000
  let up := d.slew * volt.toNat / 4
  let fast := d.braked || (List.range 4).any fun n => (d.die n).emergency
  let down := (if fast then Nat.max d.slew 6 else d.slew) * volt.toNat / 4
  let ceiling := if d.braked then 384000 else 1150000
  let g := nextG d.pwr.g m want up down ceiling
  let bal := g - m
  let k := if d.braked then (if g < m then Nat.max 1 (d.pwr.brakeK - 1) else Nat.min 16 (d.pwr.brakeK + 1)) else d.pwr.brakeK
  let e := d.pwr.eAcc + m
  let b := d.pwr.bAcc + bal
  let d := { d with pwr := { d.pwr with g := g, m := m, volt := volt, amp := amp, ballast := bal, brakeK := k,
                                        eAcc := e % 10000000, bAcc := b % 10000000 } }
  let d := (d.cnt .pf pPwrc 0 (e / 10000000)).cnt .pf pPwrc 1 (b / 10000000)
  let d := if w.isEmpty then d else d.cnt .pf pPwrc 2 1
  grantAll ((g - m) * 1000) w d
/-- GOVERNOR_UPDATE (R616). -/
def execGovernorUpdate (powerMw : Nat) (volt amp : BitVec 16) (s : State) : Host.Outcome State Fault Refusal :=
  onDev (governor powerMw volt amp) s

/-- PWRC_CAP.watts in mW. -/
def Dev.capMw (d : Dev) : Nat := 1000 * Nat.max 200 (Nat.min 960 (d.reg pPwrc 0x048))

/-- The end of a 100 µs window (R619, R620). -/
def capWindow (avg : Nat) (d : Dev) : Dev :=
  let cap := d.capMw
  let top := if d.braked then 48 else 84
  let overs := if cap < avg then Nat.min 50 (d.pwr.overs + 1) else 0
  let step (x : Nat) : Nat :=
    if cap < avg then Nat.max 16 (x - 1) else if avg * 100 < cap * 97 then Nat.max (Nat.min x 84) (Nat.min top (x + 1)) else x
  let d := (List.range 4).foldl (fun d n => d.setDie n { d.die n with cap := step (d.die n).cap }) d
  let skip := 40 ≤ overs
  let d := { d with pwr := { d.pwr with
      avg := avg, overs := overs
      capK := if skip then Nat.max 1 (d.pwr.capK - 1) else if avg ≤ cap then Nat.min 16 (d.pwr.capK + 1) else d.pwr.capK
      brakeK := if d.braked then d.pwr.brakeK else Nat.min 16 (d.pwr.brakeK + 1) } }
  if skip then d.cnt .pf pPwrc 9 1 else d
/-- CAP_WINDOW (R620). -/
def execCapWindow (avgMw : Nat) (s : State) : Host.Outcome State Fault Refusal := onDev (capWindow avgMw) s

/-- The brake is applied (R622): every die's cap ceiling goes to 1.20 GHz at most. -/
def Dev.applyBrake (d : Dev) : Dev :=
  (List.range 4).foldl (fun d n => d.setDie n { d.die n with cap := Nat.min 48 (d.die n).cap }) d

/-- Input below 40 V for 10 µs (R612). -/
def underOn (d : Dev) : Dev :=
  if d.pwr.under then d
  else (({ d with pwr := { d.pwr with under := true } }.applyBrake).evt .pf pPwrc 2).cnt .pf pPwrc 4 1
/-- UNDERVOLTAGE (R612). -/
def execUndervoltage (s : State) : Host.Outcome State Fault Refusal := onDev underOn s

/-- At or above 41 V for 1 ms: released by itself (R612). -/
def underOff (d : Dev) : Dev := { d with pwr := { d.pwr with under := false } }
/-- UNDERVOLTAGE_RELEASE (R612). -/
def execUndervoltageRelease (s : State) : Host.Outcome State Fault Refusal := onDev underOff s

/-! ### The device ladder (R624–R627) -/

/-- A core or cluster engine that is neither Quiesced, Disabled nor Absent. -/
def Dev.unitsRun (d : Dev) : Bool :=
  let live (p : Page) : Bool := !d.stillBlk p && d.bst p != .absent
  (List.range 272).any (fun i => live (pCore i)) ||
  (List.range 16).any fun c => live ⟨.opte, c⟩ || live ⟨.nwch, c⟩ || live ⟨.rede, c⟩

/-- Standby and Dormant are refused (R626). -/
def Dev.ladderRefuses (d : Dev) : Bool :=
  d.unitsRun || (d.dmae.any fun (e : Nat × Dmae) => e.2.chans.any fun (c : Nat × Chan) => !c.2.run.isEmpty) ||
  d.parts.commit.state != .idle

def Dev.updPwr (d : Dev) (f : Pwr → Pwr) : Dev := { d with pwr := f d.pwr }

/-- Begin a transition. Before Standby or Dormant leases lent are reclaimed, flash programming is finished, and the
Ethernet links go down (R626). -/
def Dev.moveTo (d : Dev) (t : Nat) : Dev :=
  let d := if 2 ≤ t then (List.range 48).foldl (fun d k => d.subDown k) d.reclaimAll.flashSettle else d
  d.updPwr fun p => { p with target := t, moving := some t }

/-- PWRC_DEV.target written (R625, R626). A write during a transition changes nothing. -/
def ladderWrite (v : View) (t : Nat) (d : Dev) : Dev :=
  d.privOnly v pPwrc 0x040 fun d =>
    if d.pwr.moving.isSome ∨ d.pwr.state = t then d
    else if 2 ≤ t ∧ d.ladderRefuses then d.err .pf pPwrc 0x0101
    else d.moveTo t
/-- DEVICE_RUN (R624). -/
def execDeviceRun (v : View) (s : State) : Host.Outcome State Fault Refusal := onDev (ladderWrite v 0) s
/-- DEVICE_QUIET (R625). -/
def execDeviceQuiet (v : View) (s : State) : Host.Outcome State Fault Refusal := onDev (ladderWrite v 1) s
/-- DEVICE_STANDBY (R626). -/
def execDeviceStandby (v : View) (s : State) : Host.Outcome State Fault Refusal := onDev (ladderWrite v 2) s
/-- DEVICE_DORMANT (R626). -/
def execDeviceDormant (v : View) (s : State) : Host.Outcome State Fault Refusal := onDev (ladderWrite v 3) s

/-- Every core and fabric island Held or lower for PWRC_QUIET.ticks, with auto_quiet set (R625). auto_quiet stands in
bit 4 of the register's own word. -/
def autoQuiet (d : Dev) : Dev :=
  let still := (List.range 0x120).all fun i => (d.isle i).state != .fired
  if !bit (d.regAt pPwrc 0 0x040).toNat 4 ∨ d.pwr.state ≠ 0 ∨ d.pwr.moving.isSome ∨ !still then d
  else (d.reach ioIsle (d.timer ioIsle + d.reg pPwrc 0x044)).moveTo 1
/-- AUTO_QUIET (R625). -/
def execAutoQuiet (s : State) : Host.Outcome State Fault Refusal := onDev autoQuiet s

/-- A wake cause ends Quiet: target returns to 0 (R624, R625). -/
def deviceWake (d : Dev) : Dev := if d.pwr.state = 1 ∧ d.pwr.moving.isNone then d.moveTo 0 else d
/-- DEVICE_WAKE (R624). -/
def execDeviceWake (s : State) : Host.Outcome State Fault Refusal := onDev deviceWake s

/-- The device's islands as a device state has them: Held in Quiet, core islands Banked or lower in Standby; back in
Run each is as it was asked to be. -/
def Dev.ladderIsles (d : Dev) (t : Nat) : Dev :=
  (List.range 0x120).foldl (fun d i =>
    let x := d.isle i
    let low : IsleState := if t = 0 then x.req else if t = 1 ∨ 272 ≤ i then .held else .banked
    let st := if t ≠ 0 ∧ low.code ≤ x.state.code then x.state else low
    d.showIsle i { x with state := st, move := if t = 0 then .rest else x.move }) d

/-- The POWER message that waits gets its answer. -/
def Dev.powerAnswer (d : Dev) (st : Byte) : Dev :=
  match d.pwr.mgmtTag with
  | none => d
  | some tag =>
    ({ d with boot := { d.boot with mgmtBusy := false }, pwr := { d.pwr with mgmtTag := none } }).mgmtOut tag 0x30 [st]

/-- What Dormant loses: all but the security controller, management and the I/O die timer (R624). -/
def Dev.goDormant (d : Dev) : Dev :=
  { d with mem := d.mem.filter fun (c : Host.Cell) => 1024 * memSpan ≤ c.1
           poison := [], cores := [], evc := [], sigs := []
           boot := { d.boot with linkUp := false, step := 1 } }

/-- A transition ends (R624): BLK_EVT bit 4. One toward Standby or Dormant waits until no lease is lent. -/
def ladderDone (d : Dev) : Dev :=
  match d.pwr.moving with
  | none => d
  | some t =>
    if 2 ≤ t ∧ !d.tier.lent.isEmpty then d
    else
      let d := d.ladderIsles t
      let d := if t = 3 then d.goDormant else d
      let d := (d.updPwr fun p => { p with state := t, moving := none }).evt .pf pPwrc 0x10
      let d := if t = 1 then d.cnt .pf pPwrc 8 1 else d
      d.powerAnswer 0#8
/-- DEVICE_STATE_CHANGE_DONE (R624). -/
def execDeviceStateChangeDone (s : State) : Host.Outcome State Fault Refusal := onDev ladderDone s

/-- One die's reading (R621). -/
def thermalDie (t : Nat) (x : DiePwr) : DiePwr :=
  let x := { x with hot := t, run105 := if 105 ≤ t then x.run105 + 1 else 0 }
  if 104 ≤ t then { x with thermal := 16, k := 8, emergency := true }
  else
    let e := x.emergency && 100 < t
    let x := { x with emergency := e, k := if e then x.k else Nat.min 16 (x.k + 1) }
    if t ≤ 97 then { x with thermal := Nat.min 84 (x.thermal + 2) }
    else if t ≤ 99 then x
    else { x with thermal := Nat.max 16 (x.thermal - 4) }

/-- Every 1 ms: each die's reading; throttle_ms counts where the last ms was one of emergency; a trip takes the device to Standby, with halts where R626 would refuse (R621,
R628). -/
def thermal (ts : List Nat) (d : Dev) : Dev :=
  let was := (List.range 4).filter fun n => (d.die n).emergency
  let d := (enumFrom 0 ts).foldl (fun d (e : Nat × Nat) => d.setDie e.1 (thermalDie e.2 (d.die e.1))) d
  let now := (List.range 4).filter fun n => (d.die n).emergency
  let new := now.filter fun n => !was.contains n
  let d := if new.isEmpty then d else (d.evt .pf pPwrc 8).cnt .pf pPwrc 6 new.length
  let d := if was.isEmpty then d else d.cnt .pf pPwrc 5 1
  if (List.range 4).any (fun n => 10 ≤ (d.die n).run105) && d.pwr.state != 2 && d.pwr.moving != some 2 then
    let d := ((d.updPwr fun p => { p with trip := true }).evt .pf pPwrc 4).cnt .pf pPwrc 7 1
    (if d.ladderRefuses then d.haltAll else d).moveTo 2
  else d
/-- THERMAL_READING (R621). -/
def execThermalReading (t0 t1 t2 t3 : Byte) (s : State) : Host.Outcome State Fault Refusal :=
  onDev (thermal [t0.toNat, t1.toNat, t2.toNat, t3.toNat]) s

end Sys2Proof.Machine
end

