-- ==== Sys2Proof/Machine/Errors.lean ====
section
/-!
DEFINITION. Errors, containment, the cluster monitor and the sideband inputs (chapter 17).
-/

namespace Sys2Proof.Machine

/-! ### Domains (R641–R645) -/

/-- The next larger domain: core, cluster, partition, device; one inside no partition goes from cluster to device. -/
def Dev.domUp (d : Dev) : Dom → Dom
  | .core i => .cluster (i / 17)
  | .cluster c => match d.clusterOwner c with
    | some n => .part n
    | none => .device
  | .part _ => .device
  | .device => .device
  | .none => .none

/-- a equals b or lies inside it. -/
def Dev.domIn (d : Dev) (a b : Dom) : Bool :=
  a == b || d.domUp a == b || d.domUp (d.domUp a) == b || d.domUp (d.domUp (d.domUp a)) == b

/-- The partition that a domain lies in. -/
def Dev.domPart (d : Dev) : Dom → Option Nat
  | .core i => d.clusterOwner (i / 17)
  | .cluster c => d.clusterOwner c
  | .part n => some n
  | .device => none
  | .none => none

/-- Begin the containment of a domain (R641): its units stop, smaller handling merges into it, ERRM shows it (R640). -/
def Dev.contain (d : Dev) (dom : Dom) (dead : Bool) : Dev :=
  let d := { d with errm := { d.errm with handled := (d.errm.handled.filter fun h => !d.domIn h dom) ++ [dom] } }
  let d := match dom with
    | .core i => if dead then d.dropCore i else d.haltCore i
    | .cluster c => d.haltCluster c
    | .part n => d.haltPart n
    | .device => d.haltDevice
    | .none => d
  let d := d.evtP pErrm (4 + if dom = .device then 16 else 0) (d.domPart dom)
  match dom with
  | .core _ => d.cntP pErrm 6 1 (d.domPart dom)
  | .cluster _ => d.cntP pErrm 7 1 (d.domPart dom)
  | .part _ => d.cntP pErrm 8 1 (d.domPart dom)
  | .device => d.cnt .pf pErrm 9 1
  | .none => d

/-- Handling of a domain ends, with everything inside it (R642). -/
def Dev.endHandling (d : Dev) (dom : Dom) : Dev :=
  { d with errm := { d.errm with handled := d.errm.handled.filter fun h => !d.domIn h dom } }

/-- The smallest containment domain that a page lies in (R641). -/
def Dev.pageDom (d : Dev) (p : Page) : Dom :=
  match p.blk with
  | .core => .core p.inst
  | .clst | .opte | .nwch | .rede => .cluster p.inst
  | .isle => if p.inst < 272 then .core p.inst else if p.inst < 0x120 then .cluster (p.inst - 0x110) else .device
  | _ => match d.pageOwner p with
    | some n => .part n
    | none => .device

/-- A source page lies in a domain being handled. -/
def Dev.handledAt (d : Dev) (p : Page) : Bool := d.errm.handled.any fun h => d.domIn (d.pageDom p) h

/-- An error of severity U (R642–R644): contained in its initial domain, or escalated by one level from the domain that
is being handled. -/
def Dev.uError (d : Dev) (code : Nat) (p : Page) (dom : Dom) (akind addr : Nat) : Dev :=
  let part := d.domPart dom
  let rec1 := d.record code p .u dom part akind addr (pageIsle p) false
  if d.errm.handled.contains .device then rec1
  else
    match d.errm.handled.find? fun h => d.domIn dom h with
    | some h =>
      let top := d.domUp h
      let d := rec1.record 0x0210 p .u top part akind addr (pageIsle p) true
      let d := (d.cntP pErrm 10 1 part).evt .pf pErrm 8
      d.contain top false
    | none => rec1.contain dom (code == 0x020B)

/-- Corrected errors of a source (R639, R645). -/
def Dev.corrected (d : Dev) (code : Nat) (p : Page) (n akind addr : Nat) : Dev :=
  if n = 0 then d
  else
    let d := d.cnt .pf pErrm 3 n
    let d := if p.blk = .hbmc then d.cnt .pf p 5 n else d
    if d.handledAt p then d.cnt .pf pErrm 4 n
    else
      let c := d.errm.ce.get 0 p.key + n
      let thr := Nat.max 1 (d.reg pErrm 0x048)
      let d := { d with errm := { d.errm with ce := d.errm.ce.put 0 p.key (c % thr) } }
      (List.range (c / thr)).foldl (fun (d : Dev) _ => d.record code p .c .none (d.pageOwner p) akind addr (pageIsle p) false) d

/-- The memory that a source's errors are found in, at an address of it. -/
def memOf (p : Page) (addr : Nat) : Option Nat :=
  match p.blk with
  | .core => some (sramKey p.inst (addr % sramBytes))
  | .clst => some (bufKey p.inst (addr % memSpan))
  | .hbmc => some (hbmKey p.inst (addr % hbmStackBytes))
  | _ => none

/-- An uncorrectable word: its granule is poisoned, and a P record is written (R630, R632). -/
def Dev.poisonFound (d : Dev) (code : Nat) (p : Page) (akind addr : Nat) : Dev :=
  let d := match memOf p addr with
    | some k => d.mark k 1
    | none => d
  let d := if p.blk = .hbmc then d.cnt .pf p 6 1 else d
  d.record code p .p .none (d.pageOwner p) akind addr (pageIsle p) false

/-! ### Dead cores, spares, withdrawal (R40, R647–R653) -/

/-- The views whose manifest lists a cluster are rewritten (R74). -/
def Dev.rewriteCluster (d : Dev) (c : Nat) : Dev :=
  match d.clusterOwner c with
  | some n => (d.rewrite .pf).rewrite (viewOf n)
  | none => d.rewrite .pf

def Dev.updClus (d : Dev) (c : Nat) (f : Clus → Clus) : Dev := { d with clus := d.clus.upd .reset c f }

def Dev.setSlot (d : Dev) (c s : Nat) (x : SlotState) : Dev := d.updClus c fun k => { k with slots := k.slots.set s x }

/-- A physical core comes up as a Disabled unit with Reset values and zeroed SRAM (R650). -/
def Dev.freshCore (d : Dev) (i : Nat) : Dev :=
  let d := (d.setCore i .reset).zero (sramKey i 0) sramBytes
  let d := { d with evc := d.evc.dropRange (i * 64) (i * 64 + 64) }.clearRegs (pCore i)
  (d.setPst (pCore i) .reset).evtP (pCore i) 0x40000000 (d.pageOwner (pCore i))

/-- The island page of a core that comes into service: Reset values, Disabled, the island Fired (R650). -/
def Dev.freshIsle (d : Dev) (i : Nat) : Dev :=
  let x := d.isle i
  let cold := x.state = .cold
  let d := d.showIsle i { isleReset i with ticks := if cold then 0 else x.ticks, timer := if cold then 0 else x.timer }
  ((d.clearRegs (pIsle i)).setPst (pIsle i) .reset).evtP (pIsle i) 0x40000000 (d.pageOwner (pIsle i))

/-- Pages of a cluster's units. -/
def clusterPages (c : Nat) : List Page :=
  ((List.range 17).map fun s => pCore (17 * c + s)) ++ [⟨.opte, c⟩, ⟨.nwch, c⟩, ⟨.rede, c⟩]

/-- The cluster holds no spare for a dead core: it is withdrawn (R40, R652), and record 0x020D begins cluster
containment. -/
def Dev.withdraw (d : Dev) (c : Nat) : Dev :=
  let d := d.updClus c fun k => { k with withdrawn := true }
  let d := (d.uError 0x020D (pClst c) (.cluster c) 0 0)
  let d := (clusterPages c ++ [(⟨.mvec, c / 4⟩ : Page)]).foldl (fun (d : Dev) p => d.toState p .absent) d
  (d.evtP (pClst c) 4 (d.clusterOwner c)).rewriteCluster c

/-- A core is declared dead (R647, R649, R650); a spare one is replaced by none, and its handling ends at once. -/
def Dev.coreDead (d : Dev) (c s : Nat) : Dev :=
  let i := 17 * c + s
  let lc := d.logical i
  let d := (d.setSlot c s .dead).updClus c fun k => { k with misses := k.misses.erase s }
  let d := ((d.uError 0x020B (pCore i) (.core i) 0 0).evtP (pClst c) 1 (d.clusterOwner c)).cnt .pf (pClst c) 2 1
  let d := (d.toState (pCore i) .absent)
  match lc with
  | none => d.endHandling (.core i)
  | some n =>
    if (d.clus' c).withdrawn then d
    else match (List.range 17).find? fun t => (d.clus' c).slots.getD t .dead == .spare with
      | some t =>
        let d := (d.setSlot c t .active).updClus c fun k =>
          { k with map := k.map.modify n fun e => (t, (e.2 + 1) % 256) }
        (((d.freshCore (17 * c + t)).freshIsle (17 * c + t)).endHandling (.core i)).rewriteCluster c
      | none => d.withdraw c

/-- A Dead slot that answers is fenced (R651). -/
def deadRevive (c s : Nat) (d : Dev) : Dev :=
  if (d.clus' c).slots.getD s .dead ≠ .dead then d
  else
    let i := 17 * c + s
    let d := (d.setSlot c s .fenced).showIsle i { d.isle i with state := .banked, req := .banked, move := .rest }
    ((d.record 0x0211 (pCore i) .i .none (d.clusterOwner c) 0 0 (fabIsle c) false).evtP (pClst c) 2 (d.clusterOwner c)).cnt
      .pf (pClst c) 4 1
/-- DEAD_SLOT_REVIVE (R651). -/
def execDeadSlotRevive (c : Fin 16) (slot : Fin 17) (s : State) : Host.Outcome State Fault Refusal :=
  onDev (deadRevive c.val slot.val) s

/-- A probe's answer (R647): Active slots whose island is Fired; the halt makes no miss (R659). A Dead slot that
answers is fenced. -/
def probe (c s : Nat) (ok : Bool) (d : Dev) : Dev :=
  let k := d.clus' c
  match k.slots.getD s .dead with
  | .active =>
    if k.withdrawn ∨ (d.isle (17 * c + s)).state ≠ .fired then d
    else
      let d := d.cnt .pf (pClst c) 0 1
      if ok ∨ d.halt.effect then d.updClus c fun k => { k with misses := k.misses.erase s }
      else
        let m := k.misses.get 0 s + 1
        let d := (d.updClus c fun k => { k with misses := k.misses.put 0 s m }).cnt .pf (pClst c) 1 1
        if Nat.max 1 (bits (d.reg (pClst c) 0x048) 23 16) ≤ m then d.coreDead c s else d
  | .dead => if ok then deadRevive c s d else d
  | _ => d
/-- CORE_PROBE (R647). -/
def execCoreProbe (c : Fin 16) (slot : Fin 17) (answered : Bool) (s : State) : Host.Outcome State Fault Refusal :=
  onDev (probe c.val slot.val answered) s

/-- CLST_SLOT_CTL.return: a Fenced slot is tested (R651). -/
def slotReturn (v : View) (c s : Nat) (d : Dev) : Dev :=
  d.privOnly v (pClst c) 0x0C8 fun d => if (d.clus' c).slots.getD s .dead = .fenced then d.setSlot c s .testing else d
/-- SLOT_RETURN (R651). -/
def execSlotReturn (v : View) (c : Fin 16) (slot : Fin 17) (s : State) : Host.Outcome State Fault Refusal :=
  onDev (slotReturn v c.val slot.val) s

/-- The test ends: Spare, and the manifests are rewritten (R74), or Dead. -/
def slotTest (c s : Nat) (pass : Bool) (d : Dev) : Dev :=
  if (d.clus' c).slots.getD s .dead ≠ .testing then d
  else if pass then (d.setSlot c s .spare).rewriteCluster c else d.setSlot c s .dead
/-- SLOT_TEST_DONE (R651). -/
def execSlotTestDone (c : Fin 16) (slot : Fin 17) (pass : Bool) (s : State) : Host.Outcome State Fault Refusal :=
  onDev (slotTest c.val slot.val pass) s

/-- CLST_SLOT_CTL.retire: the slot's core is declared dead (R647). -/
def slotRetire (v : View) (c s : Nat) (d : Dev) : Dev :=
  d.privOnly v (pClst c) 0x0C8 fun d =>
    match (d.clus' c).slots.getD s .dead with
    | .active | .spare => d.coreDead c s
    | _ => d
/-- SLOT_RETIRE (R647). -/
def execSlotRetire (v : View) (c : Fin 16) (slot : Fin 17) (s : State) : Host.Outcome State Fault Refusal :=
  onDev (slotRetire v c.val slot.val) s

/-- CLST_SLOT_CTL.reinstate (R653). -/
def reinstate (v : View) (c : Nat) (d : Dev) : Dev :=
  d.privOnly v (pClst c) 0x0C8 fun d =>
    let k := d.clus' c
    let good := (List.range 17).filter fun s => k.slots.getD s .dead == .active || k.slots.getD s .dead == .spare
    if !k.withdrawn ∨ good.length < 16 then d.err .pf (pClst c) 0x0101
    else
      let use := good.take 16
      let slots := (List.range 17).map fun s =>
        if use.contains s then SlotState.active else if good.contains s then SlotState.spare else k.slots.getD s .dead
      let map := (enumFrom 0 use).map fun (e : Nat × Nat) => (e.2, ((k.map.getD e.1 (0, 0)).2 + 1) % 256)
      let d := d.updClus c fun k => { k with withdrawn := false, slots := slots, map := map, misses := [] }
      let d := ((use.map fun s => 17 * c + s) ++ [fabIsle c]).foldl (fun d i =>
        if (d.isle i).state = .cold then d.showIsle i { isleReset i with ticks := 0 } else d) d
      let d := use.foldl (fun d s => d.freshCore (17 * c + s)) d
      let d := [(⟨.opte, c⟩ : Page), ⟨.nwch, c⟩, ⟨.rede, c⟩, pClst c].foldl (fun d p => (d.toState p .disabled).setPst p .reset) d
      let mv : Page := ⟨.mvec, c / 4⟩
      let d := if (List.range 4).any fun j => (d.clus' (c / 4 * 4 + j)).withdrawn then d else (d.toState mv .disabled).setPst mv .reset
      ((d.endHandling (.cluster c)).evtP (pClst c) 4 (d.clusterOwner c)).rewriteCluster c
/-- CLUSTER_REINSTATE (R653). -/
def execClusterReinstate (v : View) (c : Fin 16) (s : State) : Host.Outcome State Fault Refusal :=
  onDev (reinstate v c.val) s

/-! ### Detection and scrub (R630, R631) -/

/-- The partition that an error of partition state belongs to: the source's owner, or for a shared source the one that
the address names. -/
def Dev.partOf (d : Dev) (p : Page) (addr : Nat) : Nat := (d.pageOwner p).getD (addr % 16)

/-- An error of R631, or of a block's own codes (recorded as information). -/
def errorDetect (code : Nat) (p : Page) (akind addr : Nat) (d : Dev) : Dev :=
  let info (d : Dev) : Dev := d.record code p .i .none (d.pageOwner p) akind addr (pageIsle p) false
  match code with
  | 0x0201 | 0x0203 => d.corrected code p 1 akind addr
  | 0x0202 | 0x0204 => d.poisonFound code p akind addr
  | 0x0205 | 0x0208 => d.record code p .p .none (d.pageOwner p) akind addr (pageIsle p) false
  | 0x0206 => d.poisonRead p akind addr (d.pageOwner p)
  | 0x0209 | 0x020A => d.uError code p (.core (p.inst % 272)) akind addr
  | 0x020B => if p.blk = .core ∧ (d.clus' (p.inst / 17)).slots.getD (p.inst % 17) .dead = .active then
                d.coreDead (p.inst / 17) (p.inst % 17) else info d
  | 0x020C => d.uError code p (.cluster (if p.blk = .core then p.inst / 17 else p.inst % 16)) akind addr
  | 0x020D => if p.blk = .clst ∧ !(d.clus' p.inst).withdrawn then d.withdraw p.inst else info d
  | 0x020E => d.uError code p (.part (d.partOf p addr)) akind addr
  | 0x020F => d.uError code p .device akind addr
  | _ => info d
/-- ERROR_DETECT (R631). -/
def execErrorDetect (code : BitVec 16) (src : Page) (akind : Fin 4) (addr : BitVec 64) (s : State) :
    Host.Outcome State Fault Refusal := onPage src.valid (errorDetect code.toNat src akind.val addr.toNat) s

/-- A pass of a core's scrubber: words corrected, and granules found uncorrectable. -/
def sramScrub (i n : Nat) (bad : List Nat) (d : Dev) : Dev :=
  let d := (d.corrected 0x0201 (pCore i) n 0 0).cnt .pf pErrm 12 n
  (bad.foldl (fun d g => d.poisonFound 0x0202 (pCore i) 3 (g * 64)) d).cnt .pf pErrm 13 bad.length
/-- SRAM_SCRUB_PASS (R630). -/
def execSramScrubPass (inst corrected : Nat) (bad : List Nat) (s : State) : Host.Outcome State Fault Refusal :=
  onPage (inst < 272) (sramScrub inst corrected bad) s

/-- A pass of an HBM controller. -/
def hbmScrub (k n : Nat) (bad : List Nat) (d : Dev) : Dev :=
  let p : Page := ⟨.hbmc, k⟩
  let d := ((d.corrected 0x0203 p n 0 0).cnt .pf pErrm 12 n).cnt .pf p 7 n
  ((bad.foldl (fun d g => d.poisonFound 0x0204 p 3 (g * 64)) d).cnt .pf pErrm 13 bad.length).cnt .pf p 8 bad.length
/-- HBM_SCRUB_PASS (R630). -/
def execHbmScrubPass (stack : Fin 8) (corrected : Nat) (bad : List Nat) (s : State) : Host.Outcome State Fault Refusal :=
  onDev (hbmScrub stack.val corrected bad) s

/-- ERRM_POP: the head record leaves the queue (R638). -/
def errmPop (d : Dev) : Dev := { d with errm := { d.errm with queue := d.errm.queue.drop 1 } }
/-- ERRM_POP (R638). -/
def execErrmPop (v : View) (s : State) : Host.Outcome State Fault Refusal := onDev (fun d => d.privOnly v pErrm 0x044 errmPop) s

/-! ### Sideband inputs (R654–R658) -/

def Dev.side (d : Dev) : SideIn → Side
  | .halt => d.halt
  | .brake => d.brake
def Dev.setSide (d : Dev) (i : SideIn) (x : Side) : Dev :=
  match i with
  | .halt => { d with halt := x }
  | .brake => { d with brake := x }

def Dev.sideRec (d : Dev) (code : Nat) : Dev := d.record code pSide .i .none none 0 0 ioIsle false

/-- An input qualifies as asserted, by a held low or by chatter. -/
def Dev.assertSide (d : Dev) (i : SideIn) (chatter : Bool) : Dev :=
  if (d.side i).asserted then d
  else
    let n := match i with | .halt => 0 | .brake => 1
    let x := d.side i
    let d := d.setSide i { x with level := false, asserted := true, effect := true, chatter := x.chatter || chatter
                                  held10 := false, since := d.timer ioIsle }
    let d := ((d.sideRec (0x0212 + n)).evt .pf pSide (2 ^ n)).cnt .pf pSide n 1
    if chatter then ((d.sideRec 0x0214).evt .pf pSide 4).cnt .pf pSide 2 1 else d

/-- HALT_N_ASSERT (R656). -/
def execHaltNAssert (chatter : Bool) (s : State) : Host.Outcome State Fault Refusal :=
  onDev (fun d => d.assertSide .halt chatter) s

/-- The brake qualifies (R622). -/
def brakeOn (chatter : Bool) (d : Dev) : Dev :=
  if d.brake.asserted then d
  else
    let d := d.assertSide .brake chatter
    if d.pwr.brake then d
    else (((d.updPwr fun p => { p with brake := true }).applyBrake).evt .pf pPwrc 1).cnt .pf pPwrc 3 1
/-- PWRBRAKE_N_ASSERT (R622). -/
def execPwrbrakeNAssert (chatter : Bool) (s : State) : Host.Outcome State Fault Refusal := onDev (brakeOn chatter) s

/-- High for 1 µs: deasserted; the effect goes on (R654, R658). -/
def sideOff (i : SideIn) (d : Dev) : Dev :=
  let x := d.side i
  if x.asserted then (d.setSide i { x with level := true, asserted := false }).evt .pf pSide 8 else d
/-- SIDEBAND_DEASSERT (R654). -/
def execSidebandDeassert (i : SideIn) (s : State) : Host.Outcome State Fault Refusal := onDev (sideOff i) s

/-- A low run shorter than 1 µs (R654). -/
def sideGlitch (_i : SideIn) (d : Dev) : Dev := d.cnt .pf pSide 3 1
/-- SIDEBAND_GLITCH (R654). -/
def execSidebandGlitch (i : SideIn) (s : State) : Host.Outcome State Fault Refusal := onDev (sideGlitch i) s

/-- Ten seconds of the I/O die timer asserted: once per assertion (R657). -/
def sideHeld (i : SideIn) (d : Dev) : Dev :=
  let x := d.side i
  if x.asserted ∧ !x.held10 then
    (((d.reach ioIsle (x.since + 1000000000)).setSide i { x with held10 := true }).sideRec 0x0215).evt .pf pSide 16
  else d
/-- SIDEBAND_HELD_10S (R657). -/
def execSidebandHeld10s (i : SideIn) (s : State) : Host.Outcome State Fault Refusal := onDev (sideHeld i) s

/-- One input's bit of SIDE_RESUME: dropped while the input is still asserted (R658, R659). -/
def Dev.resumeSide (d : Dev) (i : SideIn) (asked : Bool) : Dev :=
  let x := d.side i
  if !asked then d
  else if x.asserted then (d.err .pf pSide 0x0101).cnt .pf pSide 4 1
  else
    let d := d.setSide i { x with effect := false, chatter := false, held10 := false }
    match i with
    | .halt => d.runFlows
    | .brake => d.updPwr fun p => { p with brake := false }

/-- SIDE_RESUME (R658). -/
def execSideResume (v : View) (halt brake : Bool) (s : State) : Host.Outcome State Fault Refusal :=
  onDev (fun d => d.privOnly v pSide 0x044 fun d => (d.resumeSide .halt halt).resumeSide .brake brake) s

end Sys2Proof.Machine
end

