-- ==== Sys2Proof/Machine/Sampled.lean ====
section
/-!
DEFINITION. Hardware mode of the numerics watch: the recomputation of a captured tile-segment (R416, R417).
-/

namespace Sys2Proof.Machine

/-- The recomputed sum of an output with A and whether a partial sum left FP32's range: exact, in the order of R167. -/
def recompute (start : Option Word) (prods : List Word) : Option (Val × Val × Bool) :=
  let step (a : Option (Val × Val × Bool)) (w : Word) : Option (Val × Val × Bool) :=
    match a with
    | none => some (vOf w, (vOf w).abs, false)
    | some (r, s, o) => let r := r.add (vOf w); some (r, s.add (vOf w).abs, o || (r.finite && !(vOf (f32 r)).finite))
  prods.foldr (fun w a => step a w) (start.map fun c => (vOf c, (vOf c).abs, false))

/-- R416 for one output at a tolerance: B is the bound of R171's first row, both sides times 2^23 − m. -/
def outMismatch (tol : Nat) (o : SegOut) : Bool :=
  match o.sum, recompute o.start o.prods with
  | some w, some (r, a, above) =>
    let d := vOf w
    let k := o.prods.length
    let m := if o.start.isSome then k else k - 1
    if d = .nan ∨ r = .nan then !(d == .nan && r == .nan)
    else
      match d, r with
      | .inf s, .inf t => s != t
      | .inf _, _ => !above
      | _, .inf _ => true
      | _, _ =>
        let n (i : Nat) : Val := Val.ofInt i 0
        let q := 8388608 - m
        let b := ((n m).mul a).add ((n (m + k)).scale (23 - 126))
        Val.lt (((n tol).mul b).add (((n q).mul a).scale (-40))) ((n q).mul ((d.add r.neg).abs))
  | _, _ => false

/-- The unit has recomputed a core's captured tile-segment: counted, and a mismatch is reported (R417). -/
def hwDone (c : CoreId) (d : Dev) : Dev :=
  let inst := d.instOf c
  let cl := c.cluster.val
  match (d.core inst).capture with
  | none => d
  | some cap =>
    let d := (d.updCore inst fun k => { k with capture := none }).nwCnt cl 0 1
    let tol := Nat.max 1 (bits (d.reg (pNwch cl) 0x040) 6 4)
    if !cap.seg.outs.any (outMismatch tol) then d
    else
      let d := ((d.errP (pNwch cl) 0x0101 (d.clusterOwner cl)).nwEvt cl 1).nwCnt cl 2 1
      let d := d.updNw cl fun n => { n with hwLast := some (n.hwLast.getD (c.core.val, cap.seg.array % 32, cap.count % 65536)) }
      d.uError 0x020A (pCore inst) (.core inst) 0 0
/-- HW_RECOMPUTE_DONE (R416). -/
def execHwRecomputeDone (c : CoreId) (s : State) : Host.Outcome State Fault Refusal := onDev (hwDone c) s

end Sys2Proof.Machine
end

