-- ==== Sys2Proof/Machine/Shelf.lean ====
section
/-!
DEFINITION. Launching, parking and resuming program contexts (R234, R276–R284, R558, R559).
-/

namespace Sys2Proof.Machine

/-! ### What the commands share -/

/-- The enable bit is set (R85): a Disabled block goes to Enabling. -/
def Dev.enableBlk (d : Dev) (p : Page) : Dev :=
  let d := d.setPst p { d.pst p with enable := true }
  if d.bst p = .disabled then d.toState p .enabling else d

/-- The quiesce that a PARK set is taken back, and the block enabled. -/
def Dev.restartBlk (d : Dev) (p : Page) : Dev :=
  let d := d.setPst p { d.pst p with quiesce := false, enable := true }
  if d.bst p = .disabled then d.toState p .enabling else if d.bst p = .quiesced then d.toState p .running else d

/-- All four engines have ended. -/
def Core.allEnded (c : Core) : Bool := c.ld.ended && c.ar.ended && c.ve.ended && c.st.ended

/-- The control processors may write a core's queues (R234). -/
def Dev.mayLoad (d : Dev) (inst : Nat) : Bool := d.stillBlk (pCore inst) || (d.core inst).allEnded

/-- The first core of the clusters, in order, whose queues may not be written: detail of status 0x45 (R554). -/
def Dev.notStill (d : Dev) (cs : List Nat) : Option Nat :=
  (cs.flatMap fun c => (List.range 16).map fun l => (c, l)).findSome? fun (x : Nat × Nat) =>
    if d.mayLoad (d.inst x.1 x.2) then none else some (x.2 + 16 * x.1)

/-- A cluster is not the partition's, or is withdrawn. -/
def Dev.notOwned (d : Dev) (part : Nat) (cs : List Nat) : Bool :=
  cs.any fun c => d.clusterOwner c ≠ some part || (d.clus' c).withdrawn

/-- Read a span as the control processors do: none where it faults, is poisoned, or is not aligned (status 0x43). -/
def Dev.cpRead (d : Dev) (part va n : Nat) : Option (List Byte) × Dev :=
  let (r, d) := d.tRead part agTier va n
  (if va % 64 ≠ 0 ∨ r.fault ∨ r.bad ≠ [] then none else some r.bytes, d)

def Dev.updCl (d : Dev) (c : Nat) (f : Clus → Clus) : Dev := { d with clus := d.clus.upd .reset c f }

/-- Set every core and cluster event counter of a cluster to zero. -/
def Dev.zeroCounters (d : Dev) (c : Nat) : Dev :=
  { d with evc := (d.evc.dropRange (17 * c * 64) (17 * (c + 1) * 64)).dropRange (0x10000 + c * 256) (0x10000 + c * 256 + 256) }

/-- The engines of a core begin again: ended and stopped are cleared. -/
def Dev.freshEngines (d : Dev) (inst : Nat) : Dev :=
  d.updCore inst fun c =>
    { c with ld := { c.ld with ended := false }, ar := { c.ar with ended := false }
             ve := { c.ve with ended := false }, st := { c.st with ended := false } }

/-! ### LAUNCH (R558) -/

/-- One queue's entry of a launch table: address and count, and whether its reserved bytes are zero. -/
structure LaunchQ where
  inst : Nat
  queue : Nat
  va : Nat
  count : Nat
  ok : Bool
  deriving DecidableEq, Repr

/-- The entries of a launch table for the clusters, in order. -/
def Dev.launchQs (d : Dev) (cs : List Nat) (t : List Byte) : List LaunchQ :=
  (enumFrom 0 cs).flatMap fun (x : Nat × Nat) => (List.range 16).flatMap fun l => (List.range 4).map fun q =>
    let o := 1024 * x.1 + 64 * l + 16 * q
    ⟨d.inst x.2 l, q, fld t o 8, fld t (o + 8) 2, zeros t (o + 10) 6 && fld t o 8 < vaLimit⟩

/-- Everything that a LAUNCH reads can be read now. -/
def launchPre (part : Nat) (cs : List Nat) (va : Nat) (d : Dev) : Bool × Dev :=
  let (ok, d) := d.prepare part agTier false va (1024 * cs.length)
  if !ok then (false, d)
  else
    let t := (d.tRead part agTier va (1024 * cs.length)).1.bytes
    d.prepareAll part agTier false (((d.launchQs cs t).filter fun q => q.count ≠ 0 && q.count ≤ 128).map fun q => (q.va, 64 * q.count))

/-- Status and detail of a LAUNCH, with the programs that it read. -/
def launchCheck (part : Nat) (cs : List Nat) (flags va : Nat) (d : Dev) : Nat × Nat × List (LaunchQ × List Byte) × Dev :=
  if 1 < flags ∨ vaLimit ≤ va then (0x41, 0, [], d)
  else if cs.isEmpty then (0x46, 0, [], d)
  else if d.notOwned part cs then (0x42, 0, [], d)
  else
    match d.cpRead part va (1024 * cs.length) with
    | (none, d) => (0x43, 0, [], d)
    | (some t, d) =>
      let qs := d.launchQs cs t
      if qs.any fun q => !q.ok then (0x41, 0, [], d)
      else if qs.any fun q => 128 < q.count || 128 < ((d.core q.inst).eng q.queue).queue.length + q.count then (0x46, 0, [], d)
      else
        match d.notStill cs with
        | some x => (0x45, x, [], d)
        | none =>
          let use := qs.filter fun q => q.count ≠ 0
          let (ps, bad, d) := use.foldl (fun (a : List (LaunchQ × List Byte) × Bool × Dev) q =>
            match a.2.2.cpRead part q.va (64 * q.count) with
            | (some b, d) => (a.1 ++ [(q, b)], a.2.1, d)
            | (none, d) => (a.1, true, d)) ([], false, d)
          if bad then (0x43, 0, [], d) else (0, 0, ps, d)

/-- LAUNCH's effect: counters, queues, ended, and last the enables. The context of the clusters is then a running one
without resident regions. -/
def Dev.launchRun (d : Dev) (cs : List Nat) (flags : Nat) (ps : List (LaunchQ × List Byte)) : Dev :=
  let d := if bit flags 0 then cs.foldl Dev.zeroCounters d else d
  let d := ps.foldl (fun (d : Dev) (p : LaunchQ × List Byte) =>
    d.updEng p.1.inst p.1.queue fun e => { e with queue := e.queue ++ chunksOf 64 p.1.count p.2 }) d
  let cores := cs.flatMap fun c => (List.range 16).map fun l => d.inst c l
  let d := cores.foldl Dev.freshEngines d
  let d := cores.foldl (fun (d : Dev) i => d.enableBlk (pCore i)) d
  cs.foldl (fun (d : Dev) c => d.updCl c fun k => { k with shelf := .running, regions := [] }) d

/-- LAUNCH on the clusters of a mask: queues are filled from the launch table and the engines enabled. -/
def launch (r : RingId) (e : Entry) (mask flags va : Nat) (d : Dev) : Dev :=
  let n := r.part.val
  let i := r.ring.val
  let cs := bitsSet mask 16
  ringTry n i e mask true (launchPre n cs va) (fun head d =>
    let (st, detail, ps, d) := launchCheck n cs flags va d
    (if st = 0 then d.launchRun cs flags ps else d).complete n i e head st detail) d
/-- LAUNCH (R558). -/
def execLaunch (r : RingId) (e : Entry) (clusters : BitVec 16) (flags : Byte) (table : BitVec 64) (s : State) :
    Host.Outcome State Fault Refusal := onDev (launch r e clusters.toNat flags.toNat table.toNat) s

/-! ### The image (R284) -/

/-- The entries in use of a cluster's scale table, by index. -/
def Dev.usedEntries (d : Dev) (c : Nat) : List Nat :=
  ((d.nw c).entries.filter fun (e : Nat × Entry192) => e.1 < 0x3FF && e.2.state != .free).map (·.1)

/-- Indices of n records of a cluster: the entries in use, then Free ones from the lowest up. -/
def Dev.recordsOf (d : Dev) (c n : Nat) : List Nat :=
  let used := d.usedEntries c
  (used ++ ((List.range 0x3FF).filter fun i => !used.contains i)).take n

def Dev.queueLens (d : Dev) (inst : Nat) : List Nat := (List.range 4).map fun q => ((d.core inst).eng q).queue.length

/-- One logical core's section. -/
def Dev.coreSection (d : Dev) (inst : Nat) : List Byte :=
  ((List.range 64).flatMap fun i => leBytes 4 (d.evc.get 0#32 (inst * 64 + i)).toNat) ++
  ((d.queueLens inst).flatMap fun n => leBytes 1 n) ++ zbytes 12 ++
  (List.range 4).flatMap fun q => ((d.core inst).eng q).queue.flatten

/-- One cluster's part. -/
def Dev.clusterPart (d : Dev) (c ns : Nat) : List Byte :=
  ((List.range 256).flatMap fun i => leBytes 4 (d.evc.get 0#32 (0x10000 + c * 256 + i)).toNat) ++
  ((d.recordsOf c ns).flatMap fun i => leBytes 2 i ++ zbytes 14 ++ padTo 240 (d.entry c i).bytes) ++
  (List.range 16).flatMap fun l => d.coreSection (d.inst c l)

def regionBytes (c : Nat) (r : Resident) : List Byte :=
  leBytes 1 c ++ leBytes 1 r.core ++ zbytes 2 ++ leBytes 4 r.base ++ leBytes 4 r.len ++ zbytes 4 ++ leBytes 8 r.home ++ zbytes 8

/-- The image of the contexts of clusters. -/
def Dev.shelfImage (d : Dev) (cs : List Nat) : List Byte :=
  let ns := cs.foldl (fun m c => Nat.max m (d.usedEntries c).length) 0
  let parts := cs.flatMap fun c => d.clusterPart c ns
  let rs := cs.flatMap fun c => (d.clus' c).regions.map fun r => (c, r)
  let mask := cs.foldl (fun m c => m + 2 ^ c) 0
  leBytes 4 0x53564C45 ++ leBytes 2 1 ++ leBytes 2 mask ++ leBytes 4 (64 + parts.length + 32 * rs.length) ++
  leBytes 2 rs.length ++ leBytes 2 ns ++ zbytes 48 ++ parts ++ rs.flatMap fun (r : Nat × Resident) => regionBytes r.1 r.2

/-- A logical core as an image holds it: counters, queues. -/
structure CoreImg where
  counters : List Byte
  queues : List (List Desc)
  ok : Bool
  deriving DecidableEq, Repr

/-- A cluster as an image holds it: counters, records (index and entry), cores. -/
structure ClusImg where
  cluster : Nat
  counters : List Byte
  records : List (Nat × List Byte)
  cores : List CoreImg
  ok : Bool
  deriving DecidableEq, Repr

/-- An image taken apart: clusters, regions with their cluster, and whether it keeps R284. -/
structure ShelfImg where
  clusters : List ClusImg
  regions : List (Nat × Resident)
  ok : Bool
  deriving DecidableEq, Repr

/-- Core sections from the front of the bytes. -/
def parseCores : Nat → List Byte → List CoreImg × List Byte
  | 0, b => ([], b)
  | n + 1, b =>
    let lens := (List.range 4).map fun q => fld b (256 + q) 1
    let size := 64 * lens.foldl (· + ·) 0
    let (qs, _) := lens.foldl (fun (a : List (List Desc) × List Byte) len => (a.1 ++ [chunksOf 64 len (a.2.take (64 * len))], a.2.drop (64 * len)))
      ([], b.drop 272)
    let me : CoreImg := ⟨b.take 256, qs, zeros b 260 12 && lens.all (· ≤ 128) && 272 + size ≤ b.length⟩
    let (rest, b) := parseCores n (b.drop (272 + size))
    (me :: rest, b)

/-- Cluster parts from the front of the bytes. -/
def parseClusters (ns : Nat) : List Nat → List Byte → List ClusImg × List Byte
  | [], b => ([], b)
  | c :: cs, b =>
    let recs := (List.range ns).map fun j => (b.drop (1024 + 256 * j)).take 256
    let (cores, rest) := parseCores 16 (b.drop (1024 + 256 * ns))
    let ok := recs.all fun r => zeros r 2 14 && zeros r (16 + 192) 48 && fld r 0 2 < 0x3FF
    let (more, b) := parseClusters ns cs rest
    (⟨c, b.take 1024, recs.map fun r => (fld r 0 2, (r.drop 16).take 192), cores, ok && cores.all fun k => k.ok⟩ :: more, b)

/-- The bytes of an image's head: the regions, records and clusters that it counts. -/
def ShelfImg.of (b : List Byte) : ShelfImg :=
  let mask := fld b 6 2
  let nr := fld b 12 2
  let (cl, tail) := parseClusters (fld b 14 2) (bitsSet mask 16) (b.drop 64)
  let rs := (List.range nr).map fun j => (tail.drop (32 * j)).take 32
  { clusters := cl
    regions := rs.map fun r => (fld r 0 1, ⟨fld r 1 1, fld r 4 4, fld r 8 4, fld r 16 8⟩)
    ok := fld b 0 4 = 0x53564C45 && fld b 4 2 = 1 && fld b 8 4 = b.length && zeros b 16 48 && (cl.all fun c => c.ok) &&
      tail.length = 32 * nr && nr ≤ 64 * cl.length &&
      rs.all fun r => zeros r 2 2 && zeros r 12 4 && zeros r 24 8 && fld r 4 4 % 32 = 0 && fld r 8 4 % 32 = 0 &&
        (bitsSet mask 16).contains (fld r 0 1) && fld r 1 1 < 16 && fld r 4 4 + fld r 8 4 ≤ sramBytes && fld r 16 8 < vaLimit }

/-! ### PARK (R278, R280, R282) -/

def shelfKey (part slot : Nat) : Nat := part * 64 + slot
/-- Slots of a partition (R276). -/
def Dev.shelfMax (d : Dev) (part : Nat) : Nat := Nat.min 64 (d.tw part 31)

/-- The status of a PARK of clusters into a slot, as it begins. -/
def Dev.parkStatus (d : Dev) (part slot : Nat) (cs : List Nat) : Nat :=
  if cs.isEmpty then 0x46
  else if d.notOwned part cs then 0x42
  else if d.shelfMax part ≤ slot then 3
  else if (d.shelves.find? (shelfKey part slot)).isSome then 2
  else if d.quota part 1 < d.usage part 1 + (d.shelfImage cs).length then 6
  else 0

/-- The cores and cluster engines of clusters that PARK stops. -/
def Dev.parkUnits (d : Dev) (cs : List Nat) : List Page :=
  cs.flatMap fun c => ((List.range 16).map fun l => pCore (d.inst c l)) ++ [pOpte c, pNwch c, pRede c]

/-- Step 1 of PARK. -/
def Dev.parkBegin (d : Dev) (cs : List Nat) : Dev :=
  let d := (d.parkUnits cs).foldl (fun (d : Dev) p => d.quiesceBlk p) d
  cs.foldl (fun (d : Dev) c => (d.settleWaiting c).updCl c fun k => { k with shelf := .parking }) d

/-- A window for a region: the lowest free one, else that of the least recently parked shelf. -/
def windowFor (ws : SMap ResWin) : Nat :=
  match (List.range 16).find? fun i => (ws.find? i).isNone with
  | some i => i
  | none => ((ws.foldl (fun (b : Option (Nat × ResWin)) e => match b with
      | none => some e
      | some x => if e.2.stamp < x.2.stamp then some e else some x) none).map (·.1)).getD 0

/-- Step 2 and 3 of PARK: the image, the windows, and the clusters left empty. -/
def Dev.parkEnd (d : Dev) (part slot : Nat) (cs : List Nat) : Dev :=
  let img := d.shelfImage cs
  let stamp := d.shelves.foldl (fun m (e : Nat × (List Byte × Nat)) => Nat.max m e.2.2) 0 + 1
  let d := { d with shelves := d.shelves.insert (shelfKey part slot) (img, stamp) }
  let d := cs.foldl (fun (d : Dev) c => (d.clus' c).regions.foldl (fun (d : Dev) (r : Resident) =>
    d.updCore (d.inst c r.core) fun k => { k with wins := k.wins.insert (windowFor k.wins) ⟨slot, r.base, r.len, true, stamp⟩ }) d) d
  cs.foldl (fun (d : Dev) c =>
    let d := (List.range 16).foldl (fun (d : Dev) l =>
      d.updCore (d.inst c l) fun k => { k with ld := .reset, ar := .reset, ve := .reset, st := .reset, arrPlan := none, vecPlan := none }) d
    let left := (d.op c).q.queue.length
    let d := if left = 0 then d
      else ((d.updOp c fun o => { o with q := .reset }).opCnt c 14 left).errP (pOpte c) 0x0103 (some part)
    let d := (d.zeroCounters c).updNw c fun n => { n with entries := [] }
    d.updCl c fun k => { k with shelf := .empty, regions := [], parked := true }) d

/-- PARK of the clusters of a mask into a shelf slot. -/
def park (r : RingId) (e : Entry) (slot mask : Nat) (d : Dev) : Dev :=
  let n := r.part.val
  let i := r.ring.val
  let cs := bitsSet mask 16
  ringCmd n i e mask false (fun head d =>
    let st := d.parkStatus n slot cs
    if st ≠ 0 then d.complete n i e head st 0
    else (d.parkBegin cs).ringRuns n i (.park slot mask) e head) d
/-- PARK (R278). -/
def execPark (r : RingId) (e : Entry) (slot : Byte) (clusters : BitVec 16) (s : State) :
    Host.Outcome State Fault Refusal := onDev (park r e slot.toNat clusters.toNat) s

/-! ### RESUME and SWITCH (R277, R281) -/

/-- The windows that a shelf holds are free again. -/
def Dev.freeWins (d : Dev) (part slot : Nat) : Dev :=
  let own (inst : Nat) : Bool := d.clusterOwner (inst / 17) == some part
  { d with cores := d.cores.foldl (fun (m : SMap Core) (e : Nat × Core) =>
      if own e.1 then m.put .reset e.1 { e.2 with wins := e.2.wins.filter fun (w : Nat × ResWin) => w.2.slot ≠ slot } else m) d.cores }

/-- A shelf is discarded. -/
def Dev.dropShelf (d : Dev) (part slot : Nat) : Dev := { d.freeWins part slot with shelves := d.shelves.erase (shelfKey part slot) }

/-- The image in a slot. -/
def Dev.shelfAt (d : Dev) (part slot : Nat) : Option ShelfImg := (d.shelves.find? (shelfKey part slot)).map fun x => ShelfImg.of x.1

def ShelfImg.names (g : ShelfImg) : List Nat := g.clusters.map fun (c : ClusImg) => c.cluster

/-- The status of a RESUME, as it begins; a SWITCH parks the context that stands in its way. -/
def Dev.resumeStatus (d : Dev) (part slot : Nat) (switch : Bool) : Nat × Nat :=
  if d.shelfMax part ≤ slot then (3, 0)
  else
    match d.shelfAt part slot with
    | none => (1, 0)
    | some g =>
      if d.notOwned part g.names then (4, 0)
      else if g.names.any fun c => if switch then (d.clus' c).shelf == .parking || (d.clus' c).shelf == .resuming else (d.clus' c).shelf != .empty then
        (5, 0)
      else if switch then (0, 0)
      else match d.notStill g.names with
        | some x => (0x45, x)
        | none => (0, 0)

/-- A core's counters and queues come back. -/
def Dev.restoreCore (d : Dev) (inst : Nat) (g : CoreImg) : Dev :=
  let d := { d with evc := (enumFrom 0 (chunksOf 4 64 g.counters)).foldl (fun (m : SMap Word) (w : Nat × List Byte) =>
    m.put 0#32 (inst * 64 + w.1) (BitVec.ofNat 32 (leNat w.2))) d.evc }
  d.updCore inst fun c =>
    { c with ld := { Engine.reset with queue := g.queues.getD 0 [] }, ar := { Engine.reset with queue := g.queues.getD 1 [] }
             ve := { Engine.reset with queue := g.queues.getD 2 [] }, st := { Engine.reset with queue := g.queues.getD 3 [] } }

/-- A cluster's counters, entries and cores come back. -/
def Dev.restoreCluster (d : Dev) (g : ClusImg) : Dev :=
  let c := g.cluster
  let d := { d with evc := (enumFrom 0 (chunksOf 4 256 g.counters)).foldl (fun (m : SMap Word) (w : Nat × List Byte) =>
    m.put 0#32 (0x10000 + c * 256 + w.1) (BitVec.ofNat 32 (leNat w.2))) d.evc }
  let d := g.records.foldl (fun (d : Dev) (r : Nat × List Byte) => d.updEntry c r.1 fun _ => Entry192.of r.2) d
  (enumFrom 0 g.cores).foldl (fun (d : Dev) (k : Nat × CoreImg) => d.restoreCore (d.inst c k.1) k.2) d

/-- A region of the shelf that still stands intact in its core. -/
def Dev.intact (d : Dev) (slot c : Nat) (r : Resident) : Bool :=
  (d.core (d.inst c r.core)).wins.any fun (w : Nat × ResWin) =>
    w.2.slot == slot && w.2.base == r.base && w.2.len == r.len && w.2.intact

/-- The pieces of 64 KiB that have to be reloaded. -/
def Dev.reloads (d : Dev) (slot : Nat) (g : ShelfImg) : List (Nat × Nat × Nat × Nat) :=
  (g.regions.filter fun (r : Nat × Resident) => !d.intact slot r.1 r.2).flatMap fun (r : Nat × Resident) =>
    (List.range (cdiv r.2.len 65536)).map fun j =>
      (d.inst r.1 r.2.core, r.2.base + 65536 * j, r.2.home + 65536 * j, Nat.min 65536 (r.2.len - 65536 * j))

/-- RESUME begins: the image's state comes back, and what is not intact has to be reloaded. -/
def Dev.resumeBegin (d : Dev) (part slot : Nat) (g : ShelfImg) : List (Nat × Nat × Nat × Nat) × Dev :=
  let left := d.reloads slot g
  let d := g.clusters.foldl Dev.restoreCluster d
  let d := g.names.foldl (fun (d : Dev) c =>
    d.updCl c fun k => { k with shelf := .resuming, shelfSlot := slot
                                regions := (g.regions.filter fun (r : Nat × Resident) => r.1 = c).map (·.2) }) d
  (left, d.dropShelf part slot)

/-- RESUME ends: every unit of the image is enabled. -/
def Dev.resumeEnd (d : Dev) (cs : List Nat) : Dev :=
  let d := (d.parkUnits cs).foldl (fun (d : Dev) p => d.restartBlk p) d
  cs.foldl (fun (d : Dev) c => d.updCl c fun k => { k with shelf := .running, parked := false }) d

/-- Reload pieces while each can be read; what is left waits for the tier manager. -/
def reloadAll (part : Nat) : List (Nat × Nat × Nat × Nat) → Dev → List (Nat × Nat × Nat × Nat) × Dev
  | [], d => ([], d)
  | x :: xs, d =>
    let r := d.prepare part agTier false x.2.2.1 x.2.2.2
    if !r.1 then (x :: xs, r.2)
    else
      let q := r.2.tRead part agTier x.2.2.1 x.2.2.2
      reloadAll part xs (q.2.wrBad (sramKey x.1 x.2.1) q.1.bytes q.1.bad)

/-- A resume in progress goes on, and completes once nothing is left (R281). -/
def Dev.resumeGo (d : Dev) (n i : Nat) : Dev :=
  match (d.ring n).running.find? i with
  | some (.resume slot mask left, e, head) =>
    if d.halt.effect then d
    else
      let (left, d) := reloadAll n left d
      let d := d.ringRuns n i (.resume slot mask left) e head
      if left.isEmpty then (d.resumeEnd (bitsSet mask 16)).complete n i e head 0 0 else d
  | _ => d

/-- The resume of a slot whose checks have passed. -/
def Dev.resumeStart (d : Dev) (n i slot : Nat) (e : Entry) (head : Nat) : Dev :=
  match d.shelfAt n slot with
  | none => d
  | some g =>
    let (left, d) := d.resumeBegin n slot g
    (d.ringRuns n i (.resume slot (g.names.foldl (fun m c => m + 2 ^ c) 0) left) e head).resumeGo n i

/-- The clusters of a slot's image, as a mask. -/
def Dev.shelfMask (d : Dev) (n slot : Nat) : Nat := ((d.shelfAt n slot).map fun g => g.names.foldl (fun m c => m + 2 ^ c) 0).getD 0

/-- A RESUME in progress on the ring goes on; else the head entry is read and run. -/
def resumeCmd (r : RingId) (e : Entry) (slot : Nat) (d : Dev) : Dev :=
  let n := r.part.val
  let i := r.ring.val
  if ((d.ring n).running.find? i).isSome then d.resumeGo n i
  else ringCmd n i e (d.shelfMask n slot) true (fun head d =>
    let (st, x) := d.resumeStatus n slot false
    if st ≠ 0 then d.complete n i e head st x else d.resumeStart n i slot e head) d
/-- RESUME (R281). -/
def execResume (r : RingId) (e : Entry) (slot : Byte) (s : State) : Host.Outcome State Fault Refusal :=
  onDev (resumeCmd r e slot.toNat) s

/-- SWITCH parks the clusters of the image that it resumes (R277). -/
def switchCmd (r : RingId) (e : Entry) (slot res : Nat) (d : Dev) : Dev :=
  let n := r.part.val
  let i := r.ring.val
  if ((d.ring n).running.find? i).isSome then d.resumeGo n i
  else ringCmd n i e (d.shelfMask n res) true (fun head d =>
    let mask := d.shelfMask n res
    let (st, x) := d.resumeStatus n res true
    let st' := d.parkStatus n slot (bitsSet mask 16)
    if st ≠ 0 then d.complete n i e head st x
    else if st' ≠ 0 then d.complete n i e head st' 0
    else (d.parkBegin (bitsSet mask 16)).ringRuns n i (.switch slot res mask) e head) d
/-- SWITCH (R277). -/
def execSwitch (r : RingId) (e : Entry) (parkSlot resumeSlot : Byte) (s : State) : Host.Outcome State Fault Refusal :=
  onDev (switchCmd r e parkSlot.toNat resumeSlot.toNat) s

/-- Every unit of the clusters has come to rest. -/
def Dev.unitsStill (d : Dev) (ps : List Page) : Bool := ps.all fun p => d.stillBlk p || d.bst p == .absent

/-- Every unit is quiesced: the image is written, and the command completes, or goes on to its resume (R277, R278). -/
def parkQuiesced (r : RingId) (d : Dev) : Dev :=
  let n := r.part.val
  let i := r.ring.val
  let rest (m : Nat) (d : Dev) : Bool × Dev :=
    let us := d.parkUnits (bitsSet m 16)
    let d := us.foldl (fun (d : Dev) p => d.drainBlk p) d
    (d.unitsStill us, d)
  match (d.ring n).running.find? i with
  | some (.park slot m, e, head) =>
    let (ok, d) := rest m d
    if ok then (d.parkEnd n slot (bitsSet m 16)).complete n i e head 0 0 else d
  | some (.switch slot res m, e, head) =>
    let (ok, d) := rest m d
    if ok then (d.parkEnd n slot (bitsSet m 16)).resumeStart n i res e head else d
  | some (.resume _ _ _, _, _) => d.resumeGo n i
  | _ => d
/-- PARK_QUIESCED (R278). -/
def execParkQuiesced (r : RingId) (s : State) : Host.Outcome State Fault Refusal := onDev (parkQuiesced r) s

/-! ### IMPORT (R277, R284) -/

/-- The length of an image in its header. -/
def imageTail (h : List Byte) : Nat := fld h 8 4 - 64

/-- The status of an IMPORT of an image of which the bytes could be read or not. -/
def Dev.importStatus (d : Dev) (n slot : Nat) (va : Nat) (img : Option (List Byte)) : Nat :=
  if vaLimit ≤ va then 0x41
  else if d.shelfMax n ≤ slot then 3
  else if (d.shelves.find? (shelfKey n slot)).isSome then 2
  else
    match img with
    | none => 0x43
    | some b =>
      if va % 64 ≠ 0 then 0x43
      else if !(ShelfImg.of b).ok then 7
      else if d.quota n 1 < d.usage n 1 + b.length then 6
      else 0

/-- IMPORT of a shelf image. -/
def importCmd (r : RingId) (e : Entry) (slot va : Nat) (d : Dev) : Dev :=
  let n := r.part.val
  let i := r.ring.val
  let ready (d : Dev) : Bool × Dev := let (_, ok, d) := d.readTable n va 64 imageTail; (ok, d)
  ringTry n i e 0 false ready (fun head d =>
    let (img, _, d) := d.readTable n va 64 imageTail
    let st := d.importStatus n slot va img
    let stamp := d.shelves.foldl (fun m (x : Nat × (List Byte × Nat)) => Nat.max m x.2.2) 0 + 1
    let d := if st = 0 then { d with shelves := d.shelves.insert (shelfKey n slot) (img.getD [], stamp) } else d
    d.complete n i e head st 0) d
/-- IMPORT (R284). -/
def execImportShelf (r : RingId) (e : Entry) (slot : Byte) (addr : BitVec 64) (s : State) :
    Host.Outcome State Fault Refusal := onDev (importCmd r e slot.toNat addr.toNat) s

end Sys2Proof.Machine
end

