-- ==== Sys2Proof/Machine/Shard.lean ====
section
/-!
DEFINITION. Shard records of persistent state: EXPORT SHARD and IMPORT SHARD (R389–R393, R404).
-/

namespace Sys2Proof.Machine

/-! ### The record (R391) -/

/-- The scale-table entries that a record names, in order. -/
def UpRec.named (u : UpRec) : List Nat := u.scX.filter (· ≠ 0x3FF)

/-- The record breaks R361 to R363 (status 1); entries of a cluster that is not the partition's cannot be named. -/
def Dev.recBad (d : Dev) (part : Nat) (u : UpRec) : Bool :=
  let r := u.refusal
  r = 0x21 || r = 0x22 || r = 0x23 || (!u.named.isEmpty && d.clusterOwner u.scCluster ≠ some part)

/-- Pad with zeros to a multiple of 64. -/
def pad64 (b : List Byte) : List Byte := b ++ zbytes (cdiv b.length 64 * 64 - b.length)

/-- One section from the bytes of an array. -/
def sectionBytes (a : PArr) (els scs : List Byte) : List Byte :=
  pad64 (leBytes 1 a.which ++ leBytes 1 a.fmt ++ leBytes 1 (b2n (fmtMx a.fmt)) ++ zbytes 5 ++ leBytes 8 els.length ++
    leBytes 8 scs.length ++ zbytes 8 ++ els ++ scs)

/-- A scale record: entry index, the entry's image. -/
def scaleRecord (i : Nat) (img : List Byte) : List Byte := leBytes 2 i ++ zbytes 14 ++ padTo 240 img

def dimsBytes (u : UpRec) (f : Nat × Nat × Nat → Nat) : List Byte := padTo 64 (u.dims.flatMap fun x => leBytes 8 (f x))

/-- The header with the scale records, for a total length. -/
def shardHead (u : UpRec) (hyper : List Byte) (total : Nat) (recs : List (List Byte)) : List Byte :=
  leBytes 4 0x50564C45 ++ leBytes 2 1 ++ leBytes 1 u.kind ++ leBytes 1 u.ndim ++ leBytes 8 total ++ leBytes 8 u.seed ++
  leBytes 8 u.t ++ leBytes 4 u.tidW ++ leBytes 4 u.tidM ++ leBytes 4 u.tidV ++ leBytes 4 u.tidC ++ hyper ++
  [1#8] ++ leBytes 1 u.mFmt ++ leBytes 1 u.vFmt ++ leBytes 1 u.cFmt ++ leBytes 1 u.gFmt ++ leBytes 1 u.lag ++
  leBytes 1 recs.length ++ leBytes 1 u.arrays.length ++ zbytes 8 ++ dimsBytes u (fun x => x.1) ++ dimsBytes u (fun x => x.2.1) ++
  dimsBytes u (fun x => x.2.2) ++ zbytes 32 ++ recs.flatten

/-- SHA-384 in its byte order. -/
def sha384Bytes (b : List Byte) : List Byte := beBytes 48 (Config.sha384 b).toNat

/-- The whole record from its sections. -/
def shardRecord (u : UpRec) (hyper : List Byte) (recs : List (List Byte)) (sects : List (List Byte)) : List Byte :=
  let n := 320 + 256 * recs.length + sects.flatten.length + 48
  let body := shardHead u hyper n recs ++ sects.flatten
  body ++ sha384Bytes body

/-! ### EXPORT SHARD (R389) -/

/-- The bytes of an array as they stand: elements, scales, and whether a read faulted or met poison. -/
def Dev.rawArr (d : Dev) (part : Nat) (a : PArr) : List Byte × List Byte × Bool × Dev :=
  let (e, d) := d.tRead part agTier a.va a.elemLen
  let (s, d) := if fmtMx a.fmt then d.tRead part agTier a.scaleVa a.scaleLen else (⟨[], [], false, none⟩, d)
  (e.bytes, s.bytes, e.fault || e.bad ≠ [] || s.fault || s.bad ≠ [], d)

/-- Everything that an export touches is at hand. -/
def exportPre (part rec hb dst cap : Nat) (d : Dev) : Bool × Dev :=
  let (ok, d) := d.prepareAll part agTier false ((rec, 256) :: if hb = 0 then [] else [(hb, 64)])
  if !ok then (false, d)
  else
    let u := UpRec.of (d.tRead part agTier rec 256).1.bytes
    if d.recBad part u then (true, d)
    else
      let (ok, d) := d.prepareAll part agTier false (u.arrays.flatMap PArr.spans)
      if !ok then (false, d)
      else
        let n := 320 + 256 * u.named.length + 48 + sumN (u.arrays.map fun a => cdiv (32 + a.elemLen + a.scaleLen) 64 * 64)
        if cap < n then (true, d) else d.prepare part agTier true dst n

/-- The sections of a shard record's arrays, in order; true where one cannot be read. -/
def Dev.sections (d : Dev) (part : Nat) (arrs : List PArr) : List (List Byte) × Bool × Dev :=
  arrs.foldl (fun (a : List (List Byte) × Bool × Dev) x =>
    let r := a.2.2.rawArr part x
    (a.1 ++ [sectionBytes x r.1 r.2.1], a.2.1 || r.2.2.1, r.2.2.2)) ([], false, d)

/-- Write a shard record out (R390): status 4 where the target cannot take it. -/
def exportWrite (part dst cap : Nat) (out : List Byte) (d : Dev) : Nat × Dev :=
  match d.faults part agTier true dst out.length with
  | some x => (4, d.tierFault part x.1 x.2 agTier)
  | none => if cap < out.length ∨ dst % 64 ≠ 0 then (4, d) else (0, d.tWrite part agTier dst out [])

/-- The record of an update record that can be read, with its holding area's head (R389, R390). -/
def exportRecord (part dst cap : Nat) (b h : List Byte) (d : Dev) : Nat × Dev :=
  let u := UpRec.of b
  if fld h 0 4 ≠ 0 then (2, d)
  else
    let r := d.sections part u.arrays
    if r.2.1 then (3, r.2.2)
    else
      let recs := u.named.map fun i => scaleRecord i (r.2.2.entry u.scCluster i).bytes
      exportWrite part dst cap (shardRecord u ((b.drop 0x60).take 32) recs r.1) r.2.2

/-- Status and effect of an export. -/
def exportRun (part rec hb dst cap : Nat) (d : Dev) : Nat × Dev :=
  if vaLimit ≤ rec ∨ vaLimit ≤ hb ∨ vaLimit ≤ dst then (0x41, d)
  else
    match d.cpRead part rec 256 with
    | (none, d) => (0x43, d)
    | (some b, d) =>
      if d.recBad part (UpRec.of b) then (1, d)
      else if hb = 0 then exportRecord part dst cap b (zbytes 64) d
      else
        match d.cpRead part hb 64 with
        | (none, d) => (0x43, d)
        | (some h, d) => exportRecord part dst cap b h d

/-- EXPORT SHARD. -/
def exportCmd (r : RingId) (e : Entry) (rec hb dst cap : Nat) (d : Dev) : Dev :=
  let n := r.part.val
  let i := r.ring.val
  ringTry n i e 0 false (exportPre n rec hb dst cap) (fun head d =>
    let (st, d) := exportRun n rec hb dst cap d
    d.complete n i e head st 0) d
/-- EXPORT_SHARD (R389). -/
def execExportShard (r : RingId) (e : Entry) (record holding dst cap : BitVec 64) (s : State) :
    Host.Outcome State Fault Refusal :=
  onDev (exportCmd r e record.toNat holding.toNat dst.toNat cap.toNat) s

/-! ### IMPORT SHARD (R392, R393) -/

/-- A record as an import reads it: the fields that stand in its header, with the arrays that they give. -/
def shardRec (b : List Byte) : UpRec :=
  let n (o k : Nat) : Nat := fld b o k
  let all := (List.range 8).map fun i => (n (0x60 + 8 * i) 8, n (0xA0 + 8 * i) 8, n (0xE0 + 8 * i) 8)
  { kind := n 6 1, mFmt := n 0x51 1, vFmt := n 0x52 1, cFmt := n 0x53 1, gFmt := n 0x54 1, ndim := n 7 1, lag := n 0x55 1
    skipNf := false, digest := false, seed := n 0x10 8, t := n 0x18 8, tidW := n 0x20 4, tidM := n 0x24 4, tidV := n 0x28 4
    tidC := n 0x2C 4, digN := 1, scG := 0x3FF, wVa := 0, gVa := 0, mVa := 0, vVa := 0, cVa := 0, digVa := 0
    hyper := [], dims := all.take (n 7 1), rest := all.drop (n 7 1), scX := [], scCluster := 0, clean := true }

def shardScales (b : List Byte) : Nat := fld b 0x56 1

/-- Where each section of a record begins, in the order of its arrays. -/
def sectStarts : Nat → List PArr → List Nat
  | _, [] => []
  | o, a :: as => o :: sectStarts (o + cdiv (32 + a.elemLen + a.scaleLen) 64 * 64) as

/-- The record is whole: magic, format, length, digest, and the sections that its header calls for (status 6). -/
def shardOk (b : List Byte) : Bool :=
  let u := shardRec b
  let k := 320 + 256 * shardScales b
  let starts := sectStarts k u.arrays
  fld b 0 4 = 0x50564C45 && fld b 4 2 = 1 && fld b 8 8 = b.length && 368 ≤ b.length && fld b 0x50 1 = 1 && shardScales b ≤ 4 &&
  fld b 0x57 1 = u.arrays.length && u.fmtsOk && u.ndim ≠ 0 && u.ndim ≤ 8 && zeros b 0x58 8 && zeros b 0x120 32 &&
  (u.dims.all fun x => x.2.2 ≠ 0 && x.2.1 + x.2.2 ≤ x.1) &&
  k + sumN (u.arrays.map fun a => cdiv (32 + a.elemLen + a.scaleLen) 64 * 64) + 48 = b.length &&
  ((starts.zip u.arrays).all fun (p : Nat × PArr) =>
    fld b p.1 1 = p.2.which && fld b (p.1 + 1) 1 = p.2.fmt && fld b (p.1 + 2) 1 = b2n (fmtMx p.2.fmt) && zeros b (p.1 + 3) 5 &&
    fld b (p.1 + 8) 8 = p.2.elemLen && fld b (p.1 + 16) 8 = p.2.scaleLen && zeros b (p.1 + 24) 8) &&
  b.drop (b.length - 48) = sha384Bytes (b.take (b.length - 48))

/-- What a record must share with its target (status 7). -/
def shardDiffers (s t : UpRec) : Bool :=
  s.kind ≠ t.kind || s.ndim ≠ t.ndim || s.dims.map (·.1) ≠ t.dims.map (·.1) || s.mFmt ≠ t.mFmt || s.vFmt ≠ t.vFmt ||
  s.cFmt ≠ t.cFmt || s.gFmt ≠ t.gFmt || s.tidW ≠ t.tidW || s.tidM ≠ t.tidM || s.tidV ≠ t.tidV || s.tidC ≠ t.tidC || s.seed ≠ t.seed

/-- The innermost start of an array. -/
def PArr.start (a : PArr) : Nat := match a.dims.getLast? with | some x => x.2.1 | none => 0

/-- The range that two boxes share in one dimension. -/
def shared (s t : Nat × Nat × Nat) : Nat × Nat := (Nat.max s.2.1 t.2.1, Nat.min (s.2.1 + s.2.2) (t.2.1 + t.2.2))

def overlaps (s t : List (Nat × Nat × Nat)) : Bool := (s.zip t).all fun p => (shared p.1 p.2).1 < (shared p.1 p.2).2

/-- Rows that two boxes share, as their row numbers in each. -/
def sharedRows (s t : List (Nat × Nat × Nat)) : List (Nat × Nat) :=
  ((s.zip t).dropLast).foldl (fun (rows : List (Nat × Nat)) (p : (Nat × Nat × Nat) × (Nat × Nat × Nat)) =>
    let (lo, hi) := shared p.1 p.2
    rows.flatMap fun r => (List.range (hi - lo)).map fun k =>
      (r.1 * p.1.2.2 + (lo + k - p.1.2.1), r.2 * p.2.2.2 + (lo + k - p.2.2.1))) [(0, 0)]

/-- What an import writes into one array: the elements that the boxes share, MX blocks whole with their scales. -/
def copyArr (src : List Byte) (s t : PArr) : List VaWr :=
  let (lo, hi) := shared ((s.dims.getLast?).getD (0, 0, 1)) ((t.dims.getLast?).getD (0, 0, 1))
  let eb := fmtBits t.fmt / 8
  let n := if fmtMx t.fmt then cdiv (hi - lo) 32 * 32 else hi - lo
  let els := src.take s.elemLen
  let scs := src.drop s.elemLen
  (sharedRows s.dims t.dims).flatMap fun (r : Nat × Nat) =>
    let sp := r.1 * s.pad + (lo - s.start)
    let tp := r.2 * t.pad + (lo - t.start)
    (⟨t.va + tp * eb, (els.drop (sp * eb)).take (n * eb), []⟩ : VaWr) ::
    if fmtMx t.fmt then [⟨t.scaleVa + tp / 32, (scs.drop (sp / 32)).take (n / 32), []⟩] else []

/-- The element and scale bytes of each section. -/
def shardData (b : List Byte) : List (List Byte) :=
  let u := shardRec b
  ((sectStarts (320 + 256 * shardScales b) u.arrays).zip u.arrays).map fun (p : Nat × PArr) =>
    (b.drop (p.1 + 32)).take (p.2.elemLen + p.2.scaleLen)

/-- A target entry takes a scale record, or begins calibration (R393, R404). -/
def Dev.importScale (d : Dev) (c i : Nat) (img : Option (List Byte)) : Dev :=
  let e := d.entry c i
  match img with
  | none => d.calibrate c i
  | some b =>
    let x := Entry192.of b
    if x.version ≠ 1 ∨ x.fmt ≠ e.fmt ∨ x.hlen ≠ e.hlen then d.calibrate c i
    else d.updEntry c i fun e =>
      { e with scale := x.scale, hlen := x.hlen, hpos := x.hpos, hcount := x.hcount, margin := x.margin, history := x.history,
               state := .live }

/-- Everything that an import touches is at hand, and no producer of a target entry awaits conversion (R424). -/
def importPre (part src len tgt : Nat) (d : Dev) : Bool × Dev :=
  let (ok, d) := d.prepareAll part agTier false [(src, len), (tgt, 256)]
  if !ok then (false, d)
  else
    let u := UpRec.of (d.tRead part agTier tgt 256).1.bytes
    if d.recBad part u then (true, d)
    else
      let (ok, d) := d.prepareAll part agTier true ((tgt, 256) :: u.arrays.flatMap PArr.spans)
      (ok && !u.named.any fun i => d.awaits u.scCluster i, d)

/-- Status and effect of an import. -/
def importShardRun (part src len tgt : Nat) (d : Dev) : Nat × Dev :=
  if vaLimit ≤ src ∨ vaLimit ≤ tgt then (0x41, d)
  else
    match d.cpRead part src len with
    | (none, d) => (0x43, d)
    | (some b, d) =>
      match d.cpRead part tgt 256 with
      | (none, d) => (0x43, d)
      | (some tb, d) =>
        let t := UpRec.of tb
        if !shardOk b then (6, d)
        else
          let s := shardRec b
          if d.recBad part t || shardDiffers s t then (7, d)
          else if t.t ≠ 0 ∧ t.t ≠ s.t then (8, d)
          else if (s.arrays ++ t.arrays).any fun a => fmtMx a.fmt && a.start % 32 ≠ 0 then (9, d)
          else if !overlaps s.dims t.dims then (10, d)
          else
            let ws := ((shardData b).zip (s.arrays.zip t.arrays)).flatMap fun (p : List Byte × (PArr × PArr)) => copyArr p.1 p.2.1 p.2.2
            let ws := if t.t = 0 then ws ++ [⟨tgt + 0x10, leBytes 8 s.t, []⟩] else ws
            match ws.findSome? fun (w : VaWr) => d.faults part agTier true w.va w.bytes.length with
            | some (x, c) => (0x43, d.tierFault part x c agTier)
            | none =>
              let d := ws.foldl (fun (d : Dev) (w : VaWr) => d.tWrite part agTier w.va w.bytes w.bad) d
              (0, (enumFrom 0 t.named).foldl (fun (d : Dev) (k : Nat × Nat) =>
                d.importScale t.scCluster k.2
                  (if k.1 < shardScales b then some ((b.drop (320 + 256 * k.1 + 16)).take 192) else none)) d)

/-- IMPORT SHARD. -/
def importShardCmd (r : RingId) (e : Entry) (src len tgt : Nat) (d : Dev) : Dev :=
  let n := r.part.val
  let i := r.ring.val
  ringTry n i e 0 false (importPre n src len tgt) (fun head d =>
    let (st, d) := importShardRun n src len tgt d
    d.complete n i e head st 0) d
/-- IMPORT_SHARD (R392). -/
def execImportShard (r : RingId) (e : Entry) (src len target : BitVec 64) (s : State) : Host.Outcome State Fault Refusal :=
  onDev (importShardCmd r e src.toNat len.toNat target.toNat) s

end Sys2Proof.Machine
end

