-- ==== Sys2Proof/Machine/Reset.lean ====
section
/-!
DEFINITION. Scrubs and resets of units (R88, R131 step 5, R285, R424, R562) and the reset of a partition (R135).
-/

namespace Sys2Proof.Machine

/-! ### Units back at their Reset values -/

/-- A page at its Reset values, Disabled; one that is Absent stays so. -/
def Dev.freshPage (d : Dev) (p : Page) : Dev :=
  let d := d.clearRegs p
  if d.bst p = .absent then d else (d.toState p .disabled).setPst p .reset

/-- A core's queues, engines, counters, samples and windows (R285). -/
def Dev.clearCore (d : Dev) (i : Nat) : Dev :=
  { d.dropAwaits (i / 17) ((d.clusterOwner (i / 17)).getD 0) fun a => a.core == i && a.queue != 4 with
      cores := d.cores.erase i, evc := d.evc.dropRange (i * 64) (i * 64 + 64) }

/-- A numerics watch unit without its scale table, and the sample state that its cores hold for it (R424). -/
def Dev.clearNwch (d : Dev) (c : Nat) : Dev :=
  let d := (List.range 17).foldl (fun (d : Dev) s =>
    d.updCore (17 * c + s) fun x => { x with segCount := 0, blkCount := 0, capture := none }) d
  d.updNw c fun n => { Nwch.reset with entries := n.entries, reports := n.reports, awaits := n.awaits }

/-- The queue and the work of a matrix-vector unit. -/
def Dev.clearMvec (d : Dev) (m : Nat) : Dev := d.updMvec m fun _ => .reset

/-- A stream context without its slots (R600). -/
def Dev.clearStrm (d : Dev) (k : Nat) : Dev :=
  { d with strm := { ctx := d.strm.ctx.erase k, deco := d.strm.deco.map fun (e : Nat × Deco) => match e.2.cur with
      | some x => if x.1 = k then (e.1, { e.2 with cur := none }) else e
      | none => e } }

/-! ### Scrubs (R131 step 5) -/

/-- The signals that a test of their words does not take. -/
def Dev.dropSigs (d : Dev) (p : Sig → Bool) : Dev := { d with sigs := d.sigs.filter fun s => !p s }

/-- Discard the shelves that a test chooses by partition, slot and clusters. -/
def Dev.dropShelves (d : Dev) (p : Nat → Nat → List Nat → Bool) : Dev :=
  d.shelves.foldl (fun (d : Dev) (e : Nat × (List Byte × Nat)) =>
    if p (e.1 / 64) (e.1 % 64) (ShelfImg.of e.2.1).names then d.dropShelf (e.1 / 64) (e.1 % 64) else d) d

/-- A cluster: SRAM, buffer, event counters, queues and scale entries zeroed; shelves that reference it discarded. -/
def Dev.scrubCluster (d : Dev) (c : Nat) : Dev :=
  let d := (List.range 17).foldl (fun (d : Dev) s =>
    let i := 17 * c + s
    let d := { d with cores := d.cores.erase i, evc := d.evc.dropRange (i * 64) (i * 64 + 64) }
    (((d.zero (sramKey i 0) memSpan).freshPage (pCore i)).updIsle i fun x => { x with saved := false })) d
  let d := (d.zero (bufKey c 0) memSpan)
  let d := { d with evc := d.evc.dropRange (0x10000 + c * 256) (0x10000 + c * 256 + 256), nwch := d.nwch.erase c
                    opte := d.opte.erase c, rede := d.rede.erase c }
  let d := [pOpte c, pNwch c, pRede c, pClst c].foldl (fun (d : Dev) p => d.freshPage p) d
  let d := (d.dropShelves fun _ _ cs => cs.contains c).dropSigs fun s => sigCluster s.word == c
  d.updCl c fun k => { k with shelf := .empty, shelfSlot := 0, regions := [], parked := false }

def Dev.scrubMvec (d : Dev) (m : Nat) : Dev := (d.clearMvec m).freshPage (pMvec m)

/-- A pseudo-channel: every byte zeroed. -/
def Dev.scrubPch (d : Dev) (k : Nat) : Dev := d.zero (pchKey k 0) pchBytes

/-- A DMA engine: rings, descriptors and channel state; a halt is cleared by a change of owner only (R573). -/
def Dev.scrubDma (d : Dev) (e : Nat) (owner : Bool) : Dev :=
  if owner then (d.updDma e fun _ => .reset).freshPage (pDmae e)
  else
    let d := (d.updDma e fun x => { x with chans := [] }).clearRegs (pDmae e)
    if d.bst (pDmae e) = .halted then d else d.freshPage (pDmae e)

/-- A stream context: both slots disarmed and cleared. -/
def Dev.scrubStrm (d : Dev) (k : Nat) : Dev := (d.clearStrm k).freshPage (pStrm k)

/-- A queue pair: queues flushed, pending frames dropped and counted, registers at their Reset values (R494). -/
def Dev.scrubQp (d : Dev) (port q : Nat) : Dev :=
  let d := (List.range 4).foldl (fun (d : Dev) s =>
    let k := subKey port s
    let tx := (d.sub k).tx.filter fun (x : TxItem) => x.qp == some q
    let rx := (d.sub k).rx.filter fun (x : RxItem) => x.qp == q
    if tx.isEmpty && rx.isEmpty then d
    else
      let d := d.updSub k fun u =>
        { u with tx := u.tx.filter (fun (x : TxItem) => x.qp != some q), rx := u.rx.filter fun (x : RxItem) => x.qp != q }
      let d := rx.foldl (fun (d : Dev) x => d.pfcRelease k x.pri) d
      d.ecnt k 13 (tx.length + rx.length) none) d
  [0x400, 0x404, 0x408].foldl (fun (d : Dev) r => d.setRegAt (pEthp port) 0 (r + 16 * q) (regDflt (pEthp port) (r + 16 * q))) d

/-- A flash namespace: a new key, and every chunk unmapped (R338). -/
def Dev.scrubNs (d : Dev) (m : Nat) : Dev :=
  (d.zero (nsKey m 0) memSpan).updFlash fun f =>
    { f with keyGen := f.keyGen.upd 0 m (· + 1), marked := f.marked.dropRange (2 ^ 32 * m) (2 ^ 32 * (m + 1)) }

/-- What a partition's tier state loses (R309): pages, frames, pilot, map commands, leases. -/
def Dev.scrubTier (d : Dev) (n : Nat) : Dev :=
  ((d.releaseAll n).clearTranslation n).updTier fun t => { t with cmds := t.cmds.filter fun (c : MapCmd) => c.part.val != n }

/-! ### Command rings -/

/-- Every command in progress on a page's rings ends with a status (R577). -/
def Dev.abandonRings (d : Dev) (n status : Nat) : Dev :=
  (d.ring n).running.foldl (fun (d : Dev) (x : Nat × (RunCmd × Entry × Nat)) => d.complete n x.1 x.2.2.1 x.2.2.2 status 0) d

/-- Submission and completion rings restart empty, with phase 1. -/
def Dev.emptyRings (d : Dev) (n : Nat) : Dev := d.updRing n fun _ => { Ring.reset with phase := true }

/-- The message state of a function after its reset: no vector unmasked, none pending, no summary bit. -/
def Dev.clearIrq (d : Dev) (v : View) : Dev :=
  let out (s : SSet) : SSet := SSet.dropRange s (v.key * 2048) (v.key * 2048 + 2048)
  { d with irq := { summary := out d.irq.summary, unmasked := out d.irq.unmasked, pba := out d.irq.pba, bme := d.irq.bme } }

/-- BLK_NEG is zero in every page of a view (R102). -/
def Dev.clearNeg (d : Dev) (v : View) (p : Page → Bool) : Dev :=
  { d with pg := { d.pg with hdr := (d.pg.hdr.map fun (e : Nat × Hdr) =>
      if e.1 % 32 = v.key ∧ p (Page.ofKey (e.1 / 32)) then (e.1, { e.2 with neg := none }) else e).filter fun (e : Nat × Hdr) => e.2 ≠ .reset } }

/-! ### Partition reset (R135) -/

def Dev.partSt (d : Dev) (n : Nat) : PartSt := d.parts.st.get .reset n
def Dev.updPart (d : Dev) (n : Nat) (f : PartSt → PartSt) : Dev :=
  { d with parts := { d.parts with st := d.parts.st.upd .reset n f } }

/-- Queue pairs of a partition, as port and number. -/
def Dev.qpsOwned (d : Dev) (n : Nat) : List (Nat × Nat) :=
  (List.range 12).flatMap fun port => ((List.range 64).filter fun q => qpIn (d.tw n (12 + port)) q).map fun q => (port, q)

/-- A reset of a partition begins, or joins the one in progress: its units are quiesced, its commands abandoned with status
0x44. -/
def Dev.partResetStart (d : Dev) (n : Nat) : Dev :=
  if (d.partSt n).inReset then d
  else
    let d := d.abandonRings n 0x44
    let d := d.updPart n fun x => { x with inReset := true, state := .draining, drainBy := d.timer ioIsle + 2000000 }
    (d.unitsOf n).foldl (fun (d : Dev) p => (d.quiesceBlk p).drainBlk p) d

/-- PART_RESET (R560): it completes when the reset has finished. -/
def partReset (e : Entry) (n : Nat) (d : Dev) : Dev :=
  ringCmd 16 0 e 0 false (fun head d =>
    if d.boot.recovery then d.complete 16 0 e head 0x40 0
    else if 15 < n then d.complete 16 0 e head 0x46 0
    else (d.ringRuns 16 0 (.partReset n) e head).partResetStart n) d
/-- PART_RESET (R560). -/
def execPartReset (e : Entry) (part : Byte) (s : State) : Host.Outcome State Fault Refusal := onDev (partReset e part.toNat) s

/-- The 20 ms of the drain have passed: units still busy are halted. -/
def resetLimit (n : Nat) (d : Dev) : Dev :=
  let x := d.partSt n
  if !x.inReset ∨ x.state ≠ .draining then d
  else
    let d := d.reach ioIsle x.drainBy
    let d := (d.unitsOf n).foldl (fun (d : Dev) p => if d.unitBusy p then d.haltUnit n p else d.drainBlk p) d
    d.updPart n fun x => { x with state := .scrubbing }
/-- PARTITION_RESET_DRAIN_LIMIT (R135). -/
def execPartitionResetDrainLimit (p : Fin 16) (s : State) : Host.Outcome State Fault Refusal := onDev (resetLimit p.val) s

/-- The scrub of every unit of a partition that keeps them. -/
def Dev.scrubPart (d : Dev) (n : Nat) : Dev :=
  let d := (d.clustersOf n).foldl (fun (d : Dev) c => d.scrubCluster c) d
  let d := ((List.range 4).filter fun m => d.mvecOwner m == some n).foldl (fun (d : Dev) m => d.scrubMvec m) d
  let d := (d.pchsOf n).foldl (fun (d : Dev) k => d.scrubPch k) d
  let d := ((List.range 32).filter fun e => d.dmaeOwner e == some n).foldl (fun (d : Dev) e => d.scrubDma e false) d
  let d := ((List.range 48).filter fun k => d.strmOwner k == some n).foldl (fun (d : Dev) k => d.scrubStrm k) d
  let d := (d.qpsOwned n).foldl (fun (d : Dev) q => d.scrubQp q.1 q.2) d
  let d := d.dropShelves fun p _ _ => p == n
  let d := { d with tokx := { d.tokx with open_ := d.tokx.open_.filter fun (t : SlotTag) => t.part != n } }
  let d := (d.scrubTier n).dropPartFlows n
  d.dropSigs fun s => s.part.val == n

/-- Every PART_RESET that names the partition completes with status 0. -/
def Dev.resetAnswers (d : Dev) (n : Nat) : Dev :=
  (d.ring 16).running.foldl (fun (d : Dev) (x : Nat × (RunCmd × Entry × Nat)) =>
    if x.2.1 = .partReset n then d.complete 16 x.1 x.2.2.1 x.2.2.2 0 0 else d) d

/-- The reset ends once no unit is busy: scrubbed, Running, reset_done, its containment over. -/
def resetDone (n : Nat) (d : Dev) : Dev :=
  if !(d.partSt n).inReset ∨ (d.unitsOf n).any d.unitBusy then d
  else
    let d := (d.scrubPart n).emptyRings n
    let d := (d.updPart n fun x => { x with inReset := false, state := .running }).endHandling (.part n)
    (d.evtP pPart 16 (some n)).resetAnswers n
/-- PARTITION_RESET_DONE (R135). -/
def execPartitionResetDone (p : Fin 16) (s : State) : Host.Outcome State Fault Refusal := onDev (resetDone p.val) s

/-- A function-level reset of VF n (R110, R102); before step 8 of start-up it is dropped (R700). -/
def vfReset (n : Fin 16) (d : Dev) : Dev :=
  if d.boot.step ≠ 8 then d
  else (((d.clearNeg (.vf n) fun _ => true).clearIrq (.vf n))).partResetStart n.val
/-- VF_FLR (R110). -/
def execVfFlr (n : Fin 16) (s : State) : Host.Outcome State Fault Refusal := onDev (vfReset n) s

/-- VF enables change (R109): ownership does not. -/
def execVfEnableChange (mask : BitVec 16) (s : State) : Host.Outcome State Fault Refusal :=
  onDev (fun d => { d with parts := { d.parts with vfEnabled := bitsSet mask.toNat 16 } }) s

end Sys2Proof.Machine
end

