-- ==== Sys2Proof/Machine/Boot.lean ====
section
/-!
DEFINITION. What a device reset and a loss of the 48 V input do to the whole device (R130, R345, R689, R691, R692, R716,
R730).
-/

namespace Sys2Proof.Machine

/-- A proposal in flight meets a reset or the loss of an input (R130): outcome 11 up to Verifying, 2 after the commit
point, whose answer waits for start-up. -/
def Dev.cutCommit (d : Dev) : Dev :=
  let set (d : Dev) (o : Byte) : Dev := { d with parts := { d.parts with commit := { d.parts.commit with outcome := o } } }
  match d.parts.commit.state with
  | .idle => d
  | .staging | .sealed => set d 11#8
  | .applying => set d 2#8
  | .verifying =>
    match d.parts.commit.signTag with
    | some tag =>
      let d := set d 11#8
      ({ d with boot := { d.boot with mgmtBusy := false }
                parts := { d.parts with commit := { d.parts.commit with signTag := none } } }).mgmtOut tag 0x22 [11#8]
    | none => set d 11#8

/-- Every block at its Reset values, every volatile state gone; what R689, R692 and R730 keep stays: the protected store,
the outcome and its answer, the commit counter, flash contents, the I/O die timer, the sideband inputs. Memory stands
until start-up zeroes it. -/
def Dev.bare (d : Dev) : Dev :=
  { Dev.reset with
    pg := { st := [], hdr := [], ctr := [], snap := [], regs := [], gen := d.pg.gen }
    parts := { live := [], staged := [], st := [], vfEnabled := []
               commit := { Commit.reset with outcome := d.parts.commit.outcome, count := d.parts.commit.count
                                             signTag := d.parts.commit.signTag } }
    store := d.store, mem := d.mem, poison := d.poison
    isles := SMap.put [] (isleReset ioIsle) ioIsle { isleReset ioIsle with ticks := (d.isle ioIsle).ticks, timer := (d.isle ioIsle).timer }
    flash := { d.flash with state := .unmounted }
    pwr := { Pwr.reset with g := d.pwr.g, m := d.pwr.m, volt := d.pwr.volt, amp := d.pwr.amp, brake := d.pwr.brake
                            under := d.pwr.under, mgmtTag := d.pwr.mgmtTag, target := d.pwr.target }
    halt := d.halt, brake := d.brake
    sec := { d.sec with loading := none, fwStatus := 0, fwKind := 0, keys := [], transmit := [], kStatus := 0, kData := []
                        spdmDoe := .reset, spdmMctp := .reset }
    boot := { d.boot with resetWaits := none, rebuilt := false, linkUp := false }
    out := d.out, free := d.free }

/-- Start-up begins again at step 2 (R684). -/
def Dev.reboot (d : Dev) (cause : Nat) (rec : Bool) : Dev :=
  let d := (d.powerAnswer 9#8).cutCommit.bare
  { d with pwr := { d.pwr with target := 0 }
           sec := { d.sec with fallback := false, autoSvn := false }
           boot := { d.boot with step := 1, failed := 0, code := 0, recovery := false, rcause := cause, fwAct := false
                                 recReq := rec, ms := 0, startAt := d.timer ioIsle } }

/-- A device reset (R689): it takes the request for recovery that waits (R699). -/
def Dev.devReset (d : Dev) (cause : Nat) (recFlag : Bool) : Dev :=
  let d := d.reboot cause (d.boot.recAsked || recFlag)
  { d with boot := { d.boot with recAsked := false } }.cnt .pf pDevc 0 1

/-- The dual commit is Idle again: a DEVICE_RESET that waited for it proceeds (R696). -/
def Dev.resetIfWaits (d : Dev) : Dev :=
  match d.boot.resetWaits with
  | some f => if d.parts.commit.state = .idle then (d.abandonRings 16 0x44).devReset 3 f else d
  | none => d

/-- The 48 V input is lost: the power-loss sequence runs and the power stage stops; start-up goes on from step 3 when the
input recovers (R345, R700, R716). -/
def Dev.inputLost (d : Dev) : Dev :=
  if d.flash.plp ∨ !d.boot.aux then d
  else
    let d := (d.powerAnswer 9#8).cutCommit.bare
    let d := { d with flash := { d.flash with plp := true, recovered := false, clean := false, dumpOk := false }
                      pwr := { d.pwr with state := 0, target := 0 }
                      boot := { d.boot with inputOk := false, step := Nat.min 2 d.boot.step } }
    d.cnt .pf pFlsh 7 1

end Sys2Proof.Machine
end

