-- ==== Sys2Proof/Machine/Commit.lean ====
section
/-!
DEFINITION. The dual commit and the custodian's enrolment (R117–R134, R136–R138, R730).
-/

namespace Sys2Proof.Machine

def Dev.updCommit (d : Dev) (f : Commit → Commit) : Dev := { d with parts := { d.parts with commit := f d.parts.commit } }

/-- Word i of partition n's staged fields. -/
def Dev.sw (d : Dev) (n i : Nat) : Nat := (d.parts.staged.get 0#32 (32 * n + i)).toNat

/-- The writable bits of a field of R114. -/
def fieldMask (i : Nat) : Nat :=
  if i = 0 ∨ i = 11 then 0xFFFF else if 12 ≤ i ∧ i < 24 then 0x7F3F else if i = 31 then 0x7F else 0xFFFFFFFF

/-! ### Outcomes (R128–R130) -/

/-- COMMIT_STS.outcome is written: BLK_EVT bit 1, and a counter. -/
def Dev.setOutcome (d : Dev) (o : Nat) : Dev :=
  let d := (d.updCommit fun c => { c with outcome := BitVec.ofNat 8 o }).evt .pf pPart 2
  d.cnt .pf pPart (if o = 1 ∨ o = 2 then 2 else 3) 1

/-- A proposal ends: the staged table is discarded, the state is Idle. -/
def Dev.discard (d : Dev) (o : Nat) : Dev :=
  let d := { d with parts := { d.parts with staged := [] } }
  (d.updCommit fun c => { c with state := .idle, digest := 0, deadline := 0, captured := 0 }).setOutcome o

/-- A write of COMMIT_CTL with more than one action is dropped whole (R126). -/
def Dev.ctl (d : Dev) (others : Bool) (f : Dev → Dev) : Dev :=
  d.through .pf pPart 0x100 fun d => if others then d.err .pf pPart 0x0003 else f d

/-- stage = 1 (R123 step 1, R125). -/
def stage (d : Dev) : Dev :=
  if d.parts.commit.state ≠ .idle then d.err .pf pPart 0x0003
  else if !d.store.enrolled then (d.setOutcome 10).err .pf pPart 0x0003
  else { d with parts := { d.parts with staged := d.parts.live } }.updCommit fun c => { c with state := .staging }
/-- COMMIT_STAGE (R123). -/
def execCommitStage (sealBit abortBit : Bool) (s : State) : Host.Outcome State Fault Refusal :=
  onDev (fun d => d.ctl (sealBit || abortBit) stage) s

/-- A staged field of the partition that PART_SEL selects (R118). -/
def stagedWrite (i : Nat) (value : Word) (d : Dev) : Dev :=
  if d.parts.commit.state ≠ .staging then d.err .pf pPart 0x0101
  else
    let k := 32 * d.selPart .pf pPart + i
    { d with parts := { d.parts with staged := d.parts.staged.put 0#32 k (value &&& BitVec.ofNat 32 (fieldMask i)) } }
/-- STAGED_FIELD_WRITE (R118). -/
def execStagedFieldWrite (i : Fin 32) (value : Word) (s : State) : Host.Outcome State Fault Refusal :=
  onDev (fun d => d.through .pf pPart (0x260 + 4 * i.val) (stagedWrite i.val value)) s

/-! ### Seal (R119, R120, R124) -/

/-- Some bit is set in word i of two partitions. -/
def Dev.twice (d : Dev) (i : Nat) : Bool :=
  (List.range 16).any fun n => (List.range n).any fun m => d.sw n i &&& d.sw m i ≠ 0

/-- Two ranges of queue pairs meet, or one runs past 64. -/
def Dev.qpClash (d : Dev) (i : Nat) : Bool :=
  let base (n : Nat) : Nat := bits (d.sw n i) 5 0
  let cnt (n : Nat) : Nat := bits (d.sw n i) 14 8
  (List.range 16).any fun n => 64 < base n + cnt n ||
    (cnt n ≠ 0 && (List.range n).any fun m => cnt m ≠ 0 && base n < base m + cnt m && base m < base n + cnt n)

/-- A partition without a cluster holds another resource; every field of R114 counts. -/
def Dev.strayFields (d : Dev) (n : Nat) : Bool :=
  d.sw n 0 = 0 && (List.range 31).any fun j => if 12 ≤ j + 1 ∧ j + 1 < 24 then bits (d.sw n (j + 1)) 14 8 ≠ 0 else d.sw n (j + 1) ≠ 0

/-- What R124 refuses. -/
def Dev.stagedBad (d : Dev) : Bool :=
  ((List.range 12) ++ [24, 25]).any d.twice ||
  (List.range 12).any (fun p => d.qpClash (12 + p)) ||
  (List.range 16).any (fun n => 64 < d.sw n 31 || d.strayFields n ||
    1152 * (((List.range 8).map fun s => popCount (d.sw n (1 + s)) 32).foldl (· + ·) 0) < d.sw n 26) ||
  (List.range 16).any fun c => (d.clus' c).withdrawn && (List.range 16).any fun n => (d.sw n 0).testBit c != (d.tw n 0).testBit c

/-- The commit message M (R120). -/
def Dev.messageM (d : Dev) : List Byte :=
  [0x45#8, 0x4C#8, 0x56#8, 0x43#8] ++ leBytes 2 1 ++ zbytes 2 ++ leBytes 16 Config.serial.toNat ++
  leBytes 8 d.parts.commit.captured.toNat ++ beBytes 48 d.parts.commit.digest.toNat

/-- A register of milliseconds within its range, in ticks. -/
def Dev.partMs (d : Dev) (off lo hi : Nat) : Nat := 100000 * Nat.max lo (Nat.min hi (d.reg pPart off))

/-- seal = 1 (R123 step 3). -/
def sealIt (d : Dev) : Dev :=
  if d.parts.commit.state ≠ .staging then d.err .pf pPart 0x0003
  else if d.stagedBad then d.setOutcome 9
  else
    d.updCommit fun c =>
      { c with state := .sealed, captured := c.count, digest := Config.sha384 (tableImage d.parts.staged)
               deadline := d.timer ioIsle + d.partMs 0x108 1000 3600000 }
/-- COMMIT_SEAL (R124). -/
def execCommitSeal (stageBit abortBit : Bool) (s : State) : Host.Outcome State Fault Refusal :=
  onDev (fun d => d.ctl (stageBit || abortBit) sealIt) s

/-- abort = 1 (R126, R130). -/
def abort (d : Dev) : Dev :=
  match d.parts.commit.state with
  | .staging | .sealed => d.discard 3
  | .idle | .verifying | .applying => d.err .pf pPart 0x0003
/-- COMMIT_ABORT (R126). -/
def execCommitAbort (stageBit sealBit : Bool) (s : State) : Host.Outcome State Fault Refusal :=
  onDev (fun d => d.ctl (stageBit || sealBit) abort) s

/-- The deadline passes (R130). -/
def windowExpire (d : Dev) : Dev :=
  if d.parts.commit.state ≠ .sealed then d
  else (d.reach ioIsle (d.parts.commit.deadline + 1)).discard 4
/-- COMMIT_WINDOW_EXPIRE (R130). -/
def execCommitWindowExpire (s : State) : Host.Outcome State Fault Refusal := onDev windowExpire s

/-! ### The custodian (R127, R136–R138) -/

def CommitState.code : CommitState → Nat | .idle => 0 | .staging => 1 | .sealed => 2 | .verifying => 3 | .applying => 4

/-- COMMIT_QUERY: M, the ticks to the deadline and the staged image; status 12 where nothing is sealed. -/
def query (tag : BitVec 5) (d : Dev) : Dev :=
  d.mgmtReq tag 0x21 fun d =>
    let c := d.parts.commit
    let head := leBytes 1 c.state.code ++ zbytes 2
    if c.state ≠ .sealed then d.mgmtOut tag 0x21 ([12#8] ++ head ++ zbytes (80 + 8 + 2048))
    else d.mgmtOut tag 0x21 ([0#8] ++ head ++ d.messageM ++ leBytes 8 (c.deadline - d.timer ioIsle) ++ tableImage d.parts.staged)
/-- COMMIT_QUERY (R138). -/
def execCommitQuery (tag : BitVec 5) (s : State) : Host.Outcome State Fault Refusal := onDev (query tag) s

/-- The outcome of the first check of R127 that fails; 0 when all pass. -/
def Dev.signCheck (d : Dev) (m ecdsa lms : List Byte) : Nat :=
  if d.parts.commit.deadline < d.timer ioIsle then 4
  else if m ≠ d.messageM then 8
  else if !Config.ecdsaVerify d.store.ecKey m ecdsa then 5
  else if 1860 < lms.length ∨ !Config.lmsVerify d.store.lmsKey m lms then 6
  else if d.store.leafQ.any fun q => fldBE lms 0 4 ≤ q then 7
  else 0

/-- COMMIT_SIGN: Verifying, until the commit point or the outcome of a failed check. -/
def sign (tag : BitVec 5) (m ecdsa lms : List Byte) (d : Dev) : Dev :=
  d.mgmtReq tag 0x22 fun d =>
    match d.parts.commit.state with
    | .idle | .staging => d.mgmtOut tag 0x22 [12#8]
    | .verifying | .applying => d.mgmtOut tag 0x22 [13#8]
    | .sealed =>
      let o := d.signCheck m ecdsa lms
      if o ≠ 0 then (d.discard o).mgmtOut tag 0x22 [BitVec.ofNat 8 o]
      else
        let d := { d with boot := { d.boot with mgmtBusy := true } }
        d.updCommit fun c => { c with state := .verifying, signTag := some tag, signQ := fldBE lms 0 4 }
/-- COMMIT_SIGN (R127). -/
def execCommitSign (tag : BitVec 5) (m ecdsa lms : List Byte) (s : State) : Host.Outcome State Fault Refusal :=
  onDev (sign tag m ecdsa lms) s

/-- The 20 bytes that an enrolment signs (R136). -/
def enrolText : List Byte := [0x45#8, 0x4C#8, 0x56#8, 0x45#8] ++ leBytes 16 Config.serial.toNat

/-- ENROLL: both keys, each with its own signature, while PROV_N is and was asserted, once (R136, R137). -/
def enrol (tag : BitVec 5) (ecKey lmsKey ecSig lmsSig : List Byte) (d : Dev) : Dev :=
  d.mgmtReq tag 0x20 fun d =>
    let st : Nat :=
      if !d.boot.provSampled ∨ !d.boot.provLow ∨ d.store.enrolled ∨ ecKey.length ≠ 97 ∨ lmsKey.length ≠ 48 ∨ ecSig.length ≠ 96 then 9
      else if !Config.ecdsaVerify ecKey enrolText ecSig then 5
      else if 1860 < lmsSig.length ∨ !Config.lmsVerify lmsKey enrolText lmsSig then 6
      else 0
    let d := if st = 0 then { d with store := { d.store with ecKey := ecKey, lmsKey := lmsKey, enrolled := true } } else d
    d.mgmtOut tag 0x20 [BitVec.ofNat 8 st]
/-- ENROLL (R136). -/
def execEnroll (tag : BitVec 5) (ecKey lmsKey ecSig lmsSig : List Byte) (s : State) : Host.Outcome State Fault Refusal :=
  onDev (enrol tag ecKey lmsKey ecSig lmsSig) s

/-! ### Applying a change (R131–R134) -/

/-- The owner that the staged table gives a unit: bit b of word i. -/
def Dev.stagedOwner (d : Dev) (i b : Nat) : Option Nat := (List.range 16).find? fun n => (d.sw n i).testBit b

def Dev.moves (d : Dev) (i b : Nat) : Bool := d.ownerBit i b != d.stagedOwner i b

/-- What changes owner: clusters, matrix-vector units, pseudo-channels, DMA engines, contexts, namespaces. -/
def Dev.movedClusters (d : Dev) : List Nat := (List.range 16).filter (d.moves 0)
def Dev.movedMvecs (d : Dev) : List Nat :=
  (List.range 4).filter fun m =>
    d.mvecOwner m != (List.range 16).find? fun n => bits (d.sw n 0) (4 * m + 3) (4 * m) = 15
def Dev.movedPchs (d : Dev) : List Nat := (List.range 256).filter fun k => d.moves (1 + k / 32) (k % 32)
def Dev.movedDmas (d : Dev) : List Nat := (List.range 32).filter (d.moves 9)
def Dev.movedStrms (d : Dev) : List Nat := (List.range 48).filter fun k => d.moves (10 + k / 32) (k % 32)
def Dev.movedNs (d : Dev) : List Nat := (List.range 64).filter fun m => d.moves (24 + m / 32) (m % 32)

/-- Units that run work and change owner. -/
def Dev.movedUnits (d : Dev) : List Page :=
  d.movedClusters.flatMap clusterEngines ++ d.movedMvecs.map pMvec ++ d.movedDmas.map pDmae ++ d.movedStrms.map pStrm

/-- Partitions whose fields differ; ownership fields alone are words 0 to 25. -/
def Dev.changedParts (d : Dev) (words : Nat) : List Nat :=
  (List.range 16).filter fun n => (List.range words).any fun i => d.tw n i ≠ d.sw n i

/-- Pseudo-channels that a partition is given while a lease holds frames of them (R327, R328). -/
def Dev.lentMoved (d : Dev) : List Lent :=
  d.tier.lent.filter fun (l : Lent) => l.frames.any fun (f : Nat × Nat) =>
    d.moves (1 + f.2 / 1152 / 32) (f.2 / 1152 % 32)

/-- The commit point (R123 step 6), and steps 1 and 2 of R131. -/
def commitPoint (d : Dev) : Dev :=
  if d.parts.commit.state ≠ .verifying then d
  else
    let c := d.parts.commit
    let ns : SSet := d.movedNs
    let d := { d with store := { d.store with table := d.parts.staged, leafQ := some c.signQ, nsChange := ns } }
    let grace := d.partMs 0x10C 1 10000
    let d := d.updCommit fun c => { c with state := .applying, count := c.count + 1, drainBy := d.timer ioIsle + grace, forced := false, scrubbing := false }
    let d := (d.changedParts 32).foldl (fun (d : Dev) n => d.evtP pPart 4 (some n)) d
    let d := d.movedUnits.foldl (fun (d : Dev) p => (d.quiesceBlk p).drainBlk p) d
    let moved := d.movedPchs
    d.startReclaim (fun k => moved.contains k) grace
/-- COMMIT_POINT (R123). -/
def execCommitPoint (s : State) : Host.Outcome State Fault Refusal := onDev commitPoint s

/-- Every unit that changes owner is idle (R131 step 3). -/
def drainIdle (d : Dev) : Dev :=
  let c := d.parts.commit
  if c.state ≠ .applying ∨ c.scrubbing ∨ d.movedUnits.any d.unitBusy ∨ !d.lentMoved.isEmpty then d
  else (d.movedUnits.foldl (fun (d : Dev) p => d.drainBlk p) d).updCommit fun c => { c with scrubbing := true }
/-- COMMIT_DRAIN_IDLE (R131). -/
def execCommitDrainIdle (s : State) : Host.Outcome State Fault Refusal := onDev drainIdle s

/-- The drain grace has passed: units still busy are halted, frames still lent are revoked (R131 step 4, R331). -/
def drainGrace (d : Dev) : Dev :=
  let c := d.parts.commit
  if c.state ≠ .applying ∨ c.scrubbing then d
  else
    let d := d.reach ioIsle c.drainBy
    let d := d.lentMoved.foldl (fun (d : Dev) (l : Lent) => deadline l.id d) d
    let busy := d.movedUnits.filter d.unitBusy
    let d := d.movedUnits.foldl (fun (d : Dev) p =>
      if busy.contains p then d.haltUnit ((d.pageOwner p).getD 0) p else d.drainBlk p) d
    d.updCommit fun c => { c with scrubbing := true, forced := c.forced || !busy.isEmpty }
/-- COMMIT_DRAIN_GRACE_EXPIRE (R131). -/
def execCommitDrainGraceExpire (s : State) : Host.Outcome State Fault Refusal := onDev drainGrace s

/-- The scrub of every unit that changes owner (R131 step 5). -/
def Dev.scrubMoved (d : Dev) : Dev :=
  let qps := (List.range 12).flatMap fun port => ((List.range 64).filter fun q => d.qpLeaving port q).map fun q => (port, q)
  let (cs, ms, ps, es, ks, ns) := (d.movedClusters, d.movedMvecs, d.movedPchs, d.movedDmas, d.movedStrms, d.movedNs)
  let d := cs.foldl (fun (d : Dev) c => d.scrubCluster c) d
  let d := ms.foldl (fun (d : Dev) m => d.scrubMvec m) d
  let d := ps.foldl (fun (d : Dev) k => d.scrubPch k) d
  let d := es.foldl (fun (d : Dev) e => d.scrubDma e true) d
  let d := ks.foldl (fun (d : Dev) k => d.scrubStrm k) d
  let d := qps.foldl (fun (d : Dev) q => d.scrubQp q.1 q.2) d
  ns.foldl (fun (d : Dev) m => d.scrubNs m) d

/-- Pages of the units that change owner (R134). -/
def Dev.movedPages (d : Dev) : List Page :=
  d.movedUnits ++ d.movedClusters.flatMap fun c => pClst c :: pIsle (fabIsle c) :: (List.range 17).map fun s => pIsle (17 * c + s)

/-- What a partition that exchanges its live fields for the staged ones loses: its translation where its
pseudo-channels change (R292), credit above the new cap (R351), shelves above a lowered limit (R133). -/
def Dev.beforeSwitch (d : Dev) (n : Nat) : Dev :=
  let d := if (List.range 8).any fun s => d.tw n (1 + s) ≠ d.sw n (1 + s) then d.scrubTier n else d
  let cap := 1000000000 * d.sw n 30
  let left := cap - Nat.min cap (d.credit n)
  let d := d.updFlash fun f => { f with spent := f.spent.put 0 n left }
  d.dropShelves fun p s _ => p == n && d.sw n 31 ≤ s

/-- The switch of the live table (R131 step 6): BLK_NEG of the moved pages, keys of partitions that become Empty,
manifests, reconfig_done. -/
def Dev.switchTable (d : Dev) : Dev :=
  let changed := d.changedParts 32
  let owners := d.changedParts 26
  let gone := (List.range 16).filter fun n => d.active n && d.sw n 0 % 65536 = 0
  let pages := d.movedPages
  let views := owners.map viewOf
  let d := changed.foldl (fun (d : Dev) n => d.beforeSwitch n) d
  let d := views.foldl (fun (d : Dev) v => d.clearNeg v fun p => pages.contains p) d
  let d := { d with parts := { d.parts with live := d.parts.staged, staged := [] } }
  let lend := (List.range 8).foldl (fun (d : Dev) s =>
    let w := d.reg pLend (0x040 + 4 * s)
    let keep := ((List.range 32).filter fun p => bit w p && (d.pchOwner (32 * s + p)).isNone).foldl (fun x p => x + 2 ^ p) 0
    if keep = w then d else d.setReg pLend (0x040 + 4 * s) keep) d
  let d := gone.foldl (fun (d : Dev) n =>
    (((d.dropKeys n).dropPartFlows n).emptyRings n).updPart n fun x => { x with state := .running, inReset := false }) lend
  let d := views.foldl (fun (d : Dev) v => d.rewrite v) d
  changed.foldl (fun (d : Dev) n => d.evtP pPart 8 (some n)) d

/-- The scrub is done: the live table switches, the outcome is written, the custodian is answered. -/
def scrubDone (d : Dev) : Dev :=
  let c := d.parts.commit
  if c.state ≠ .applying ∨ !c.scrubbing then d
  else
    let o := if c.forced then 2 else 1
    let d := d.scrubMoved.switchTable
    let d := { d with store := { d.store with nsChange := [] } }
    let d := (d.updCommit fun c => { c with state := .idle, digest := 0, deadline := 0, captured := 0, scrubbing := false, forced := false, signTag := none }).setOutcome o
    let d := match c.signTag with
      | some tag => { d with boot := { d.boot with mgmtBusy := false } }.mgmtOut tag 0x22 [BitVec.ofNat 8 o]
      | none => d
    d.resetIfWaits
/-- COMMIT_SCRUB_DONE (R131). -/
def execCommitScrubDone (s : State) : Host.Outcome State Fault Refusal := onDev scrubDone s

end Sys2Proof.Machine
end

