-- ==== Sys2Proof/Machine/Blocks.lean ====
section
/-!
DEFINITION. The header of a page as commands act on it: version negotiation (R97–R100), events and errors (R90, R91),
BLK_CTL and the states of a block (R82, R85–R89, R726), and the event summaries (R547).
-/

namespace Sys2Proof.Machine

/-! ### The header through a view -/

/-- An access to a header register of a page through a view: dropped where the view has no such page (R66, R67). -/
def Dev.header (d : Dev) (v : View) (p : Page) (off : Nat) (f : Dev → Dev) : Dev :=
  if d.reaches v p then f d
  else match v with
    | .pf => d.err .pf pDevc 0x0007
    | .vf n => d.violR n p off

/-- BLK_NEG (R98, R100): every block implements versions 1.0 to 1.3. -/
def negWrite (v : View) (p : Page) (major minor : Nat) (d : Dev) : Dev :=
  d.header v p 0x008 fun d =>
    if (d.hdrOf v p).neg.isSome ∧ !d.stillBlk p then d.err v p 0x0002
    else if major = 1 then d.updHdr v p fun h => { h with neg := some (1, Nat.min 3 minor) }
    else (d.updHdr v p fun h => { h with neg := none }).err v p 0x0002
/-- BLK_NEG_WRITE (R98). -/
def execBlkNegWrite (v : View) (p : Page) (major minor : Byte) (s : State) : Host.Outcome State Fault Refusal :=
  onPage p.valid (negWrite v p major.toNat minor.toNat) s

/-- A header after a write of w to BLK_EVT, with the events and the error that arrive in the same access cycle (R20, R91). -/
def Hdr.evtWrite (h : Hdr) (w arriving : Word) (newErr : BitVec 16) (part : Byte) : Hdr :=
  let h := if bit w.toNat 31 then { h with errCode := 0#16, errPart := 0#8 } else h
  let h := { h with evt := (h.evt &&& ~~~w) ||| (arriving &&& 0x7FFFFFFF#32) }
  if newErr = 0 then h else h.err newErr part

/-- BLK_EVT (R91). -/
def evtWrite (v : View) (p : Page) (w arriving : Word) (newErr : BitVec 16) (d : Dev) : Dev :=
  d.header v p 0x018 fun d => d.updHdr v p fun h => h.evtWrite w arriving newErr (BitVec.ofNat 8 (v.part.getD 255))
/-- BLK_EVT_WRITE (R91). -/
def execBlkEvtWrite (v : View) (p : Page) (w arriving : Word) (newErr : BitVec 16) (s : State) :
    Host.Outcome State Fault Refusal := onPage p.valid (evtWrite v p w arriving newErr) s

/-! ### BLK_CTL (R82, R85–R87) -/

/-- BLK_CTL is written through a view: a shared block's is privileged-only (R82). -/
def Dev.ctlVia (d : Dev) (v : View) (p : Page) (f : Dev → Dev) : Dev :=
  d.header v p 0x010 fun d => match v with
    | .pf => f d
    | .vf n => if p.shared then d.violR n p 0x010 else f d

/-- What becoming Disabled does beyond the state. -/
def Dev.blkOff (d : Dev) (p : Page) : Dev := if p = pFabt ∧ d.bst p = .disabled then d.fabOff else d

/-- enable and quiesce are written (R85–R87). -/
def ctlWrite (v : View) (p : Page) (en q : Bool) (d : Dev) : Dev :=
  d.ctlVia v p fun d =>
    let s := d.pst p
    let bad := d.err v p 0x0003
    let put (d : Dev) : Dev := d.setPst p { d.pst p with enable := en, quiesce := q }
    if en = s.enable ∧ q = s.quiesce then d
    else match s.state with
      | .disabled =>
        if !en ∨ (p = pFabt ∧ d.reg pFabt 0x044 = 0) then bad
        else if p.blk = .strm ∧ d.strmEnableBad p.inst ((d.strmOwner p.inst).getD 0) then d.err v p 0x0103
        else (put d).toState p .enabling
      | .running =>
        if en && !q then bad
        else
          let d := put (d.quiesceBlk p)
          if d.bst p = .quiesced ∧ !en then d.toState p .disabled else d
      | .quiescing => if en then bad else put d
      | .quiesced =>
        if !en then ((put d).toState p .disabled).blkOff p
        else if !q then (put d).toState p .running
        else bad
      | .enabling | .halted | .resetting | .absent => bad

/-- BLOCK_ENABLE (R85, R86). -/
def execBlockEnable (v : View) (p : Page) (quiesce : Bool) (s : State) : Host.Outcome State Fault Refusal :=
  onPage p.valid (ctlWrite v p true quiesce) s
/-- BLOCK_QUIESCE (R85). -/
def execBlockQuiesce (v : View) (p : Page) (s : State) : Host.Outcome State Fault Refusal :=
  onPage p.valid (fun d => ctlWrite v p (d.pst p).enable true d) s
/-- BLOCK_UNQUIESCE (R85). -/
def execBlockUnquiesce (v : View) (p : Page) (s : State) : Host.Outcome State Fault Refusal :=
  onPage p.valid (fun d => ctlWrite v p (d.pst p).enable false d) s
/-- BLOCK_DISABLE (R85). -/
def execBlockDisable (v : View) (p : Page) (s : State) : Host.Outcome State Fault Refusal :=
  onPage p.valid (fun d => ctlWrite v p false (d.pst p).quiesce d) s

/-- An enabling block is ready; with quiesce it goes on to Quiesced, having accepted no work (R86). -/
def blockReady (p : Page) (d : Dev) : Dev :=
  if d.bst p ≠ .enabling then d
  else
    let d := d.toState p .running
    let d := if p = pFabt then d.fabUp else if p.blk = .strm then d.strmFresh p.inst else d
    if (d.pst p).quiesce then (d.toState p .quiescing).toState p .quiesced else d
/-- BLOCK_READY (R85). -/
def execBlockReady (p : Page) (s : State) : Host.Outcome State Fault Refusal := onPage p.valid (blockReady p) s

/-- BLOCK_DRAINED (R85). -/
def execBlockDrained (p : Page) (s : State) : Host.Outcome State Fault Refusal :=
  onPage p.valid (fun d => if d.bst p = .quiescing then (d.drainBlk p).blkOff p else d) s

/-! ### Block reset (R87–R89, R646, R726) -/

/-- The header and the counters of a page in every view, but for BLK_NEG (R88). -/
def Dev.clearHdr (d : Dev) (p : Page) : Dev :=
  let d := View.all.foldl (fun (d : Dev) v => d.updHdr v p fun h => { Hdr.reset with neg := h.neg }) d
  { d with pg := { d.pg with ctr := d.pg.ctr.dropRange (p.key * 4096) (p.key * 4096 + 4096)
                             snap := d.pg.snap.dropRange (p.key * 4096) (p.key * 4096 + 4096) } }

/-- Event summary bits of a view. -/
def Dev.clearSummary (d : Dev) (v : View) : Dev :=
  { d with irq := { d.irq with summary := SSet.dropRange d.irq.summary (v.key * 2048) (v.key * 2048 + 2048) } }

/-- Rings restart empty, with phase 1 (R562); commands in progress go on. -/
def Dev.freshRings (d : Dev) (n : Nat) : Dev :=
  (d.updRing n fun r => { Ring.reset with phase := true, running := r.running }).clearSummary (ringView n)

/-- What a reset clears beyond the header and the plain registers, by block. -/
def Dev.clearUnit (d : Dev) (p : Page) : Dev :=
  let i := p.inst
  match p.blk with
  | .core => (d.clearCore i).endHandling (.core i)
  | .clst => (d.updCl i fun k => { k with shelf := .empty, shelfSlot := 0, regions := [], parked := false }).endHandling (.cluster i)
  | .opte => { d with opte := d.opte.erase i }
  | .rede => { d with rede := d.rede.erase i }
  | .nwch => d.clearNwch i
  | .mvec => d.clearMvec i
  | .strm => d.clearStrm i
  | .dmae => d.updDma i fun _ => .reset
  | .ring => d.freshRings i
  | .pcie => d.freshRings 16
  | .fabt =>
    { d.endTrees with fab := { Fab.reset with fencedId := d.fab.fencedId, txCtr := d.fab.txCtr, exhausted := d.fab.exhausted
                                              synCtr := d.fab.synCtr, peers := d.fab.peers
                                              state := if d.fab.state = .fenced then .fenced else .off } }
  | .ethp =>
    let d := (List.range 4).foldl (fun (d : Dev) s => d.subDown (subKey i s)) d
    { d with eth := { d.eth with subs := d.eth.subs.dropRange (4 * i) (4 * i + 4), failSub := d.eth.failSub.erase i } }
  | .deco => { d with strm := { d.strm with deco := d.strm.deco.erase i } }
  | .tokx => { d with tokx := { d.tokx with open_ := d.tokx.open_.filter fun (t : SlotTag) => t.die != i } }
  | .isle => (d.updIsle i fun x => { x with target := isleFmax i }).wake i
  | .errm => { d with errm := { d.errm with queue := [], ce := [] } }
  | .part => (List.range 16).foldl (fun (d : Dev) n => d.updPart n fun x => { x with viol := 0, violAddr := none }) d
  | .tier =>
    let d := (List.range 16).foldl (fun (d : Dev) n =>
      Dev.shrink n 0 ((d.framesOf n).length + 1) (d.updPilot n fun _ => .reset)) d
    d.updTier fun t => { t with pool := [], sts := [], fault := [] }
  | .lend => d.reclaimAll
  | .pwrc => { d with pwr := { d.pwr with trip := false } }
  | .secc => { d with sec := { d.sec with kStatus := 0, kData := [], fwStatus := 0, fwKind := 0 } }
  | .devc | .flsh | .hbmc | .side | .mgmt => d

/-- Resetting, then Disabled, with every register at its Reset value. -/
def Dev.resetUnit (d : Dev) (p : Page) : Dev :=
  let d := (((d.toState p .resetting).clearUnit p).clearRegs p).clearHdr p
  ((d.setPst p { d.pst p with enable := false, quiesce := false }).toState p .disabled).blkOff p

/-- A state that R85 lists as a source of reset. -/
def BlkState.resettable : BlkState → Bool
  | .disabled | .quiesced | .halted => true
  | .enabling | .running | .quiescing | .resetting | .absent => false

/-- A larger domain that contains the unit is being handled (R646). -/
def Dev.largerHandled (d : Dev) (p : Page) : Bool :=
  d.errm.handled.any fun h => h ≠ d.pageDom p && d.domIn (d.pageDom p) h

/-- A reset through the view releases the block from Halted (R89, R646). -/
def releases (v : View) (p : Page) : Bool :=
  match p.blk with
  | .dmae => false
  | .core | .clst | .opte | .nwch | .rede | .mvec | .strm | .ring => true
  | .devc | .part | .isle | .hbmc | .tier | .flsh | .lend | .pcie | .ethp | .fabt | .tokx | .deco | .pwrc | .secc
  | .errm | .side | .mgmt => v == .pf

/-- BLK_CTL.reset = 1 (R87, R726). A reset of CLST resets every unit of the cluster (R641). -/
def blockReset (v : View) (p : Page) (d : Dev) : Dev :=
  d.ctlVia v p fun d =>
    if !(d.bst p).resettable ∨ (d.bst p = .halted ∧ !releases v p) ∨ d.largerHandled p then d.err v p 0x0003
    else
      let d := if p.blk = .clst then
          (clusterEngines p.inst).foldl (fun (d : Dev) q => if (d.bst q).resettable then d.resetUnit q else d) d
        else d
      d.resetUnit p
/-- BLOCK_RESET (R726). -/
def execBlockReset (v : View) (p : Page) (s : State) : Host.Outcome State Fault Refusal := onPage p.valid (blockReset v p) s

/-! ### Event summaries (R547) -/

/-- Where a view's event summary stands: PCIE_EVSUMw or RING_EVSUMw. -/
def sumPage : View → Page
  | .pf => pPcie
  | .vf n => pRing n.val

/-- Word i of a function's event summary is written: each 1 clears its bit; an entry with an enabled event pending sets
it again. -/
def Dev.sumClear (d : Dev) (fn : View) (i : Nat) (w : Word) : Dev :=
  { d with irq := { d.irq with summary := d.irq.summary.filter fun k =>
      !(fn.key * 2048 + 32 * i ≤ k && k < fn.key * 2048 + 32 * i + 32 && bit w.toNat (k % 32)) } }

/-- A view's own event summary is written. -/
def sumWrite (v : View) (i : Nat) (w : Word) (d : Dev) : Dev :=
  d.through v (sumPage v) (0x200 + 4 * i) fun d => d.sumClear v i w
/-- EVENT_SUMMARY_WRITE (R547). -/
def execEventSummaryWrite (v : View) (i : Fin 64) (w : Word) (s : State) : Host.Outcome State Fault Refusal :=
  onDev (sumWrite v i.val w) s

end Sys2Proof.Machine
end

