-- ==== Sys2Proof/Machine/Start.lean ====
section
/-!
DEFINITION. Start-up, the reset kinds, recovery mode, the supplies and the host link (chapter 19, R136, R345–R347, R543,
R544, R548, R627, R716).
-/

namespace Sys2Proof.Machine

/-- Change the start-up state. -/
def Dev.updBoot (d : Dev) (f : Boot → Boot) : Dev := { d with boot := f d.boot }

/-! ### The supplies (R345–R347, R684, R716) -/

/-- Auxiliary power is good: a power-on, with the inputs as sampled (R684 step 1, R136, R730). -/
def auxUp (provN srisN perst : Bool) (d : Dev) : Dev :=
  if d.boot.aux then d
  else
    let d := d.bare
    { d with isles := [], pwr := .reset, halt := .reset, brake := .reset
             parts := { d.parts with commit := { d.parts.commit with outcome := 0#8, signTag := none } }
             sec := { d.sec with fallback := false, autoSvn := false }
             boot := { Boot.reset with step := 0, aux := true, inputOk := d.boot.inputOk, perst := perst, provLow := !provN
                                       provSampled := !provN, srisLow := !srisN, linkUp := false } }
/-- AUX_POWER_UP (R684). -/
def execAuxPowerUp (provN srisN perst : Bool) (s : State) : Host.Outcome State Fault Refusal :=
  onDev (auxUp provN srisN perst) s

/-- Auxiliary power is lost: everything volatile goes; the outcome reads 0 from the next power-on (R130, R730). -/
def auxDown (d : Dev) : Dev :=
  if !d.boot.aux then d
  else
    let d := d.bare
    { d with parts := { d.parts with commit := { d.parts.commit with outcome := 0#8, signTag := none } }
             pwr := .reset, halt := .reset, brake := .reset
             boot := { d.boot with aux := false, step := 0, mgmtBusy := false, recAsked := false, recovery := false } }
/-- AUX_POWER_LOSS (R130). -/
def execAuxPowerLoss (s : State) : Host.Outcome State Fault Refusal := onDev auxDown s

/-- MAIN_INPUT_IN_RANGE (R684): step 3 may go on. -/
def execMainInputInRange (s : State) : Host.Outcome State Fault Refusal :=
  onDev (fun d => d.updBoot fun b => { b with inputOk := true }) s

/-- POWER_LOSS_SEQUENCE (R345). -/
def execPowerLossSequence (s : State) : Host.Outcome State Fault Refusal := onDev Dev.inputLost s

/-- The journal buffer is programmed: the sequence is complete; a mount that waited for it begins (R345, R347). -/
def plpDone (d : Dev) : Dev :=
  if !d.flash.plp then d
  else
    let back := d.flash.recovered
    let d := d.updFlash fun f => { f with plp := false, recovered := false, dumpOk := true }
    if back then d.flashTo .mounting else d
/-- POWER_LOSS_SEQUENCE_DONE (R345). -/
def execPowerLossSequenceDone (s : State) : Host.Outcome State Fault Refusal := onDev plpDone s

/-- INPUT_RECOVER (R347): start-up goes on from step 3, and mounts at step 5 once the sequence is complete. -/
def execInputRecover (s : State) : Host.Outcome State Fault Refusal :=
  onDev (fun d => d.updBoot fun b => { b with inputOk := true }) s

/-- OVERVOLTAGE (R716): as an input below 38 V. -/
def execOvervoltage (s : State) : Host.Outcome State Fault Refusal := onDev Dev.inputLost s

/-- OVERVOLTAGE_RECOVER (R716): start-up goes on from step 3. -/
def execOvervoltageRecover (s : State) : Host.Outcome State Fault Refusal :=
  onDev (fun d => d.updBoot fun b => { b with inputOk := true }) s

/-! ### Start-up (R684–R688) -/

/-- Recovery mode is entered: DEVC BLK_EVT bit 1, counter 2 (R694). -/
def Dev.enterRecovery (d : Dev) : Dev :=
  if d.boot.recovery then d
  else ((d.updBoot fun b => { b with recovery := true }).evt .pf pDevc 2).cnt .pf pDevc 2 1

/-- A start-up step failed (R687). -/
def Dev.stepFailed (d : Dev) (step code : Nat) : Dev :=
  ((d.updBoot fun b => { b with failed := step, code := code }).err .pf pDevc 0x0101).enterRecovery

/-- Step 2: the boot slot, or the other one (R665); neither, or a recovery that was asked for, is recovery mode. Starting
images other than those that ran before a device reset is firmware activation. -/
def step2 (ok : Bool) (detail : Nat) (d : Dev) : Dev :=
  if !ok then (d.updSec fun s => { s with run1 := [], run2 := [], fallback := false }).stepFailed 2 detail
  else
    let s := d.sec
    let b := if detail ≠ 0 then !s.bootB else s.bootB
    let x := (s.slot b).bundle
    let one := x.take (imageLen x)
    let two := if d.boot.recReq then [] else x.drop (imageLen x)
    let act : Bool := d.boot.rcause ≠ 0 && d.boot.rcause ≠ 4 && (one ≠ s.run1 || two ≠ s.run2) && !d.boot.recReq
    let d := d.updSec fun s => { s with runB := b, run1 := one, run2 := two, fallback := detail ≠ 0 }
    let d := if act then (d.updBoot fun b => { b with fwAct := true }).cnt .pf pDevc 1 1 else d
    if d.boot.recReq then d.enterRecovery else d

/-- Step 3 for one cluster: its slots as the self-test left them, mapped under R38, or withdrawn (R652). -/
def Dev.mapCluster (bad : List Nat) (d : Dev) (c : Nat) : Dev :=
  let old := d.clus' c
  let good := (List.range 17).filter fun s => !bad.contains (17 * c + s) && old.slots.getD s .dead != .defective
  let fail (s : Nat) : SlotState := if old.slots.getD s .dead = .defective then .defective else .dead
  let use := good.take 16
  let whole := use.length = 16
  let slots := (List.range 17).map fun s =>
    if !good.contains s then fail s else if use.contains s then SlotState.active else .spare
  let k : Clus := { Clus.reset with
    slots := slots, withdrawn := !decide whole, map := if whole then use.map fun s => (s, 0) else Clus.reset.map }
  let d := { d with clus := d.clus.put .reset c k }
  let gone : List Page :=
    if whole then ((List.range 17).filter fun s => !use.contains s).map fun s => pCore (17 * c + s)
    else (List.range 17).map (fun s => pCore (17 * c + s)) ++ [pOpte c, pNwch c, pRede c, pMvec (c / 4)]
  gone.foldl (fun (d : Dev) p => d.setPst p ⟨.absent, false, false⟩) d

/-- Step 8: the stored table is loaded, after the namespaces that a cut commit was to erase (R111, R130); manifests, keys,
BLK_EVT bit 0; the custodian's and the controller's answers that waited. -/
def step8 (d : Dev) : Dev :=
  let d := if d.boot.recovery then d
    else
      let d := d.store.nsChange.foldl (fun (d : Dev) m => d.scrubNs m) d
      let d := { d with store := { d.store with nsChange := [] }, parts := { d.parts with live := d.store.table } }
      let on := (List.range 16).filter d.active
      let d := d.updSec fun s => { s with keyGen := on.foldl (fun (m : SMap Nat) n => m.upd 0 n (· + 1)) s.keyGen }
      (View.pf :: on.map viewOf).foldl (fun (d : Dev) v => d.rewrite v) d
  let d := (d.updBoot fun b => { b with ms := (d.timer ioIsle - b.startAt) / 100000 }).evt .pf pDevc 1
  let d := match d.parts.commit.signTag with
    | some tag =>
      ({ d with boot := { d.boot with mgmtBusy := false }
                parts := { d.parts with commit := { d.parts.commit with signTag := none } } }).mgmtOut tag 0x22
        [d.parts.commit.outcome]
    | none => d
  if d.pwr.mgmtTag.isNone then d
  else if d.pwr.target = 0 then d.powerAnswer 0#8
  else d.moveTo d.pwr.target

/-- The step under way ends (R684, R687). -/
def stepDone (ok : Bool) (detail : Nat) (bad : List Nat) (d : Dev) : Dev :=
  let n := d.boot.step + 1
  let next (d : Dev) : Dev := d.updBoot fun b => { b with step := n }
  if !d.boot.aux ∨ d.pwr.state = 3 ∨ 8 < n then d
  else match n with
    | 2 => next (step2 ok detail d)
    | 3 =>
      if !d.boot.inputOk then d
      else View.all.foldl (fun (d : Dev) v => d.rewrite v) (next ((List.range 16).foldl (Dev.mapCluster bad) d))
    | 4 =>
      let d := next { d with mem := d.mem.filter fun (c : Host.Cell) => 1024 * memSpan ≤ c.1, poison := [] }
      if ok then d else d.stepFailed 4 (0x10 + detail % 8)
    | 5 =>
      let d := next d
      if d.boot.recovery then d
      else if d.flash.plp then d.updFlash fun f => { f with recovered := true }
      else d.flashTo .mounting
    | 7 => if d.boot.perst then d else (next d).updBoot fun b => { b with linkUp := true }
    | 8 => step8 (next d)
    | _ => next d
/-- STARTUP_STEP_DONE (R684). -/
def execStartupStepDone (ok : Bool) (detail : Byte) (badSlots : List Nat) (s : State) : Host.Outcome State Fault Refusal :=
  onDev (stepDone ok detail.toNat badSlots) s

/-! ### Resets (R689, R690, R693) -/

/-- An exit from Dormant: start-up from step 2, cause 4 (R624, R684). No device reset: a request for recovery waits on. -/
def Dev.wakeUp (d : Dev) : Dev := d.reboot 4 false

/-- PERST# asserted: a device reset in Run, Quiet and Standby and during steps 3 to 6; nothing yet in Dormant (R693,
R700). -/
def perstOn (d : Dev) : Dev :=
  if !d.boot.aux ∨ d.boot.perst then d
  else
    let d := d.updBoot fun b => { b with perst := true }
    if d.pwr.state = 3 ∨ d.boot.step = 0 then d else d.devReset 1 false
/-- PERST_ASSERT (R693). -/
def execPerstAssert (s : State) : Host.Outcome State Fault Refusal := onDev perstOn s

/-- PERST# deasserted: step 7 may go on; a Dormant that saw it asserted ends. -/
def perstOff (d : Dev) : Dev :=
  if !d.boot.aux ∨ !d.boot.perst then d
  else
    let d := d.updBoot fun b => { b with perst := false }
    if d.pwr.state = 3 then d.wakeUp else d
/-- PERST_DEASSERT (R684). -/
def execPerstDeassert (s : State) : Host.Outcome State Fault Refusal := onDev perstOff s

/-- HOT_RESET (R689), received on the link. -/
def execHotReset (s : State) : Host.Outcome State Fault Refusal :=
  onDev (fun d => if d.boot.linkUp && 7 ≤ d.boot.step then d.devReset 2 false else d) s

/-- The header state of one view, in every page (R81). -/
def Dev.clearView (d : Dev) (v : View) : Dev :=
  { d with pg := { d.pg with
      hdr := d.pg.hdr.filter fun (e : Nat × Hdr) => e.1 % 32 ≠ v.key
      ctr := d.pg.ctr.filter fun (e : Nat × Nat) => e.1 / 128 % 32 ≠ v.key
      snap := d.pg.snap.filter fun (e : Nat × Word) => e.1 / 128 % 32 ≠ v.key } }

/-- PF FLR (R689, R690): the PF view's header state, the operator's rings, interrupts and event summary, VF Enable; a
proposal that is Staging or Sealed is discarded. Partitions go on. -/
def pfReset (d : Dev) : Dev :=
  if d.boot.step ≠ 8 then d
  else
    let d := match d.parts.commit.state with
      | .staging | .sealed => d.discard 3
      | .idle | .verifying | .applying => d
    let d := (d.clearRegs pPcie).updRing 16 fun _ => { Ring.reset with phase := true }
    let d := (d.clearView .pf).clearIrq .pf
    { d with parts := { d.parts with vfEnabled := [] } }.cnt .pf pDevc 3 1
/-- PF_FLR (R689). -/
def execPfFlr (s : State) : Host.Outcome State Fault Refusal := onDev pfReset s

/-! ### The operator's opcodes (R696–R698) -/

/-- DEVICE_RESET: no completion; it waits while a proposal is Verifying or Applying. -/
def devReset (e : Entry) (flags : Nat) (d : Dev) : Dev :=
  ringCmd 16 0 e 0 false (fun head d =>
    if d.sec.loading.isSome then d.complete 16 0 e head 0x47 0
    else
      let busy : Bool := d.parts.commit.state == .verifying || d.parts.commit.state == .applying
      if busy then d.updBoot fun b => { b with resetWaits := some (bit flags 0 || b.resetWaits.getD false) }
      else (d.abandonRings 16 0x44).devReset 3 (bit flags 0)) d
/-- DEVICE_RESET (R696). -/
def execDeviceReset (e : Entry) (flags : Byte) (s : State) : Host.Outcome State Fault Refusal := onDev (devReset e flags.toNat) s

/-- The lowest-numbered stack that trained. -/
def Boot.staging (b : Boot) : Nat := if b.failed = 4 ∧ b.code = 0x10 then 1 else 0

/-- RECOVER_LOAD (R697): the service gathers the bundle into staging under engine 0's maintenance mode, checks both images,
and writes, marks valid and selects the slot. -/
def recoverLoad (e : Entry) (table entries slot : Nat) (bundle : List Byte) (busError aligned : Bool) (d : Dev) : Dev :=
  ringCmd 16 0 e 0 false (fun head d =>
    let fin (d : Dev) (st : Nat) : Dev := d.complete 16 0 e head st 0
    if !d.boot.recovery then fin d 0x40
    else if table % 8 ≠ 0 ∨ entries = 0 ∨ 7168 < entries ∨ 1 < slot ∨ !aligned then fin d 0x46
    else
      let d := d.updDma 0 fun x => { x with maint := true }
      if busError then fin d 8
      else
        let base := hbmKey d.boot.staging 0
        let (t, d) := d.freeBits 60 (64 * entries)
        let pages := padTo (4096 * entries) bundle
        let d := (d.wr base (leBytes (8 * entries) t.toNat)).wr (base + 0x100000) pages
        let d := (d.cnt .pf (pDmae 0) 0 2).cnt .pf (pDmae 0) 1 (8 * entries + 4096 * entries)
        let r := bundleCheck d.sec pages
        if r.1 ≠ 0 then fin d r.1
        else fin (d.updSec fun s => { s.setSlot (slot == 1) ⟨true, pages⟩ with bootB := slot == 1 }) 0) d
/-- RECOVER_LOAD (R697). -/
def execRecoverLoad (e : Entry) (table : BitVec 64) (entries : BitVec 32) (slot : Byte) (bundle : List Byte)
    (busError pagesAligned : Bool) (s : State) : Host.Outcome State Fault Refusal :=
  onDev (recoverLoad e table.toNat entries.toNat slot.toNat bundle busError pagesAligned) s

/-- DEVC_BOOT. -/
def Dev.bootWord (d : Dev) : Nat :=
  d.boot.step + d.boot.failed * 16 + d.boot.code % 256 * 256 + b2n d.boot.recovery * 0x10000 + b2n d.sec.fallback * 0x20000

/-- STATUS: detail carries DEVC_BOOT[15:0]. -/
def status (e : Entry) (d : Dev) : Dev :=
  ringCmd 16 0 e 0 false (fun head d => d.complete 16 0 e head 0 (d.bootWord % 65536)) d
/-- STATUS (R696). -/
def execStatus (e : Entry) (s : State) : Host.Outcome State Fault Refusal := onDev (status e) s

/-- Some partition maps a T4 page. -/
def Dev.anyT4 (d : Dev) : Bool := d.tier.pages.any fun (e : Nat × Pg) => e.2.home.tier == 4

/-- FLASH_REBUILD: the translation layer's tables are rebuilt, and the flash serves when the controller is sound (R698). -/
def flashRebuild (e : Entry) (sound : Bool) (d : Dev) : Dev :=
  ringCmd 16 0 e 0 false (fun head d =>
    if d.anyT4 then d.complete 16 0 e head 0x48 0
    else
      let d := d.updBoot fun b => { b with rebuilt := true }
      let d := d.flashTo (if sound then d.flash.served else .failed)
      d.complete 16 0 e head 0 0) d
/-- FLASH_REBUILD (R698). -/
def execFlashRebuild (e : Entry) (sound : Bool) (s : State) : Host.Outcome State Fault Refusal := onDev (flashRebuild e sound) s

/-! ### Management and the host link -/

/-- POWER (R627): answered when the transition ends; 9 where R626 refuses, 13 during a transition or start-up. -/
def power (tag : BitVec 5) (target : Nat) (d : Dev) : Dev :=
  d.mgmtReq tag 0x30 fun d =>
    let wait (d : Dev) : Dev :=
      { d with boot := { d.boot with mgmtBusy := true }, pwr := { d.pwr with mgmtTag := some tag } }
    if 3 < target then (d.mgmtOut tag 0x30 [0xFF#8]).cnt .pf pMgmt 2 1
    else if d.pwr.moving.isSome then d.mgmtOut tag 0x30 [13#8]
    else if d.pwr.state = target then d.mgmtOut tag 0x30 [0#8]
    else if d.pwr.state = 3 then
      let d := d.wakeUp
      wait { d with pwr := { d.pwr with target := target } }
    else if d.boot.step ≠ 8 then d.mgmtOut tag 0x30 [13#8]
    else if 2 ≤ target ∧ d.ladderRefuses then (d.err .pf pPwrc 0x0101).mgmtOut tag 0x30 [9#8]
    else wait (d.moveTo target)
/-- POWER (R627). -/
def execPower (tag : BitVec 5) (target : Byte) (s : State) : Host.Outcome State Fault Refusal := onDev (power tag target.toNat) s

/-- PROV_N_CHANGE (R136). -/
def execProvNChange (level : Bool) (s : State) : Host.Outcome State Fault Refusal :=
  onDev (fun d => d.updBoot fun b => { b with provLow := !level }) s

/-- PCIE_LINK_DOWN (R693): without a Hot Reset, nothing is reset. -/
def execPcieLinkDown (s : State) : Host.Outcome State Fault Refusal :=
  onDev (fun d => d.updBoot fun b => { b with linkUp := false }) s

/-- The link trains at a rate and width (R544). -/
def retrain (rate : Nat) (flit : Bool) (width : Nat) (d : Dev) : Dev :=
  if d.boot.step < 3 ∨ d.boot.perst then d
  else (d.updBoot fun b => { b with linkUp := true, rate := rate, flit := flit, width := width }).cnt .pf pPcie 6 1
/-- PCIE_LINK_RETRAIN (R544). -/
def execPcieLinkRetrain (rate : BitVec 3) (flit : Bool) (width : BitVec 5) (s : State) : Host.Outcome State Fault Refusal :=
  onDev (retrain rate.toNat flit width.toNat) s

/-- A vector is unmasked: a message that waits is sent (R548). -/
def unmask (fn : View) (vec : Nat) (d : Dev) : Dev :=
  let k := fn.key * 2048 + vec % fn.vectors
  let d := { d with irq := { d.irq with unmasked := d.irq.unmasked.add k } }
  if d.irq.pba.contains k && d.irq.bme.contains fn.key then
    { d with irq := { d.irq with pba := d.irq.pba.del k } }.msix fn vec
  else d
/-- MSIX_VECTOR_UNMASK (R548). -/
def execMsixVectorUnmask (fn : View) (vec : Fin 2048) (s : State) : Host.Outcome State Fault Refusal :=
  onDev (unmask fn vec.val) s

/-- ATS_INVALIDATE_REQUEST (R543): the model keeps no translation of the host's between requests, so the count is what
shows. -/
def execAtsInvalidateRequest (_fn : View) (_addr : BitVec 64) (_len : Nat) (s : State) : Host.Outcome State Fault Refusal :=
  onDev (fun d => d.cnt .pf pPcie 7 1) s

end Sys2Proof.Machine
end

