-- ==== Sys2Proof/Machine/RegRead.lean ====
section
/-!
DEFINITION. What a register reads as through a view (R18, R22, R64–R69, R79–R83, R92–R97 and the register tables of
every chapter), and the reads that change something: counters, RC fields, PART_VIOL, TIER_FAULT_INFO, ISLE_TIMER_LO.
-/

namespace Sys2Proof.Machine

/-! ### Fields and runs of registers -/

/-- The number of an offset in a run of registers. -/
def regNo (off first step num : Nat) : Option Nat :=
  if first ≤ off ∧ (off - first) % step = 0 ∧ (off - first) / step < num then some ((off - first) / step) else none

/-- v seen in a field of w bits: it holds at the field's largest value. -/
def sat (w v : Nat) : Nat := Nat.min v (2 ^ w - 1)

/-- A register that the page keeps as plain data. -/
def Dev.plain (d : Dev) (v : View) (p : Page) (off : Nat) : Nat :=
  if (regRow p.blk off).isSome then d.regV v p off else 0

/-- QSTS of an engine's queue: depth, capacity and full. -/
def queueSts (depth cap : Nat) : Nat := sat 7 depth + cap * 2 ^ 8 + b2n (cap ≤ depth) * 2 ^ 16

/-! ### The header (R81–R84) -/

/-- BLK_OWNER.part (R83, R115). -/
def Dev.ownerCode (d : Dev) (p : Page) : Nat := if p.shared then 0xFE else (d.pageOwner p).getD 0xFF

/-- BLK_LOCATE. -/
def Dev.locate (d : Dev) (p : Page) : Nat :=
  let die := if p.blk = .strm then decoDie (d.strmDeco p.inst) else p.dieOf
  (if p.ofCore then p.inst % 17 + (d.logical p.inst).getD 0xFF * 2 ^ 8 else 0xFFFF) + p.cluster?.getD 0xFF * 2 ^ 16 + die * 2 ^ 29

/-- A header register. -/
def Dev.hdrValue (d : Dev) (v : View) (p : Page) (off : Nat) : Nat :=
  let h := d.hdrOf v p
  match off with
  | 0x000 => p.blk.code * 2 ^ 16 + p.inst
  | 0x004 => 0x01030100
  | 0x008 => match h.neg with
    | some (j, n) => j * 2 ^ 24 + n * 2 ^ 16 + 0x100
    | none => 0
  | 0x00C => 0xC0000000
  | 0x010 => if p.shared && v != .pf then 0 else b2n (d.pst p).enable + 2 * b2n (d.pst p).quiesce
  | 0x014 => (d.bst p).code + 16 * b2n (d.unitBusy p)
  | 0x018 => h.evt.toNat
  | 0x01C => h.evtEn.toNat
  | 0x020 => h.errCode.toNat + (if v = .pf then h.errPart.toNat * 2 ^ 16 else 0)
  | 0x024 => h.errCnt.toNat
  | 0x028 => d.ownerCode p
  | 0x02C => d.locate p
  | _ => 0

/-! ### Registers block by block -/

/-- DEVC (R684, R689, R694): privileged-only. -/
def Dev.devcReg (d : Dev) (v : View) (off : Nat) : Nat :=
  if v ≠ .pf then 0
  else match off with
    | 0x040 => d.bootWord
    | 0x044 => d.boot.rcause + b2n d.boot.fwAct * 16 + b2n d.boot.recReq * 32
    | 0x048 => d.boot.ms
    | _ => 0

/-- PART_STATE.state: Empty while the partition is not active; Scrubbing while a reset of its resources is past the
drain. -/
def Dev.partCode (d : Dev) (n : Nat) : Nat :=
  if !d.active n then 0
  else match (d.parts.st.get .reset n).state with
    | .running => 1
    | .draining => 2
    | .scrubbing => 3
    | .halted => 4

/-- PART (R113, R114, R117, R118). -/
def Dev.partReg (d : Dev) (v : View) (off : Nat) : Nat :=
  let n := d.selPart v pPart
  let s := d.parts.st.get .reset n
  let c := d.parts.commit
  if off = 0x044 then
    n + b2n (d.active n) * 16 + b2n (d.parts.vfEnabled.contains n) * 32 +
    sumN ((List.range 4).map fun m => b2n (d.mvecOwner m == some n) * 2 ^ (6 + m))
  else if off = 0x048 then d.partCode n
  else if off = 0x04C then s.viol.toNat
  else if off = 0x050 then s.violAddr.getD 0 + b2n s.violAddr.isSome * 2 ^ 31
  else match regNo off 0x060 4 32 with
    | some i => d.tw n i
    | none =>
      if v ≠ .pf then 0
      else if off = 0x104 then c.state.code + c.outcome.toNat * 2 ^ 8
      else if off = 0x110 then c.count.toNat % 2 ^ 32
      else if off = 0x114 then c.count.toNat / 2 ^ 32
      else if off = 0x118 then c.deadline % 2 ^ 32
      else if off = 0x11C then c.deadline / 2 ^ 32 % 2 ^ 32
      else match regNo off 0x120 4 4, regNo off 0x140 4 12, regNo off 0x260 4 32 with
        | some i, _, _ => fld (leBytes 16 Config.serial.toNat) (4 * i) 4
        | _, some i, _ => fld (beBytes 48 c.digest.toNat) (4 * i) 4
        | _, _, some i => d.sw n i
        | _, _, _ => d.plain v pPart off

/-- MVEC (R229, R230). -/
def Dev.mvecReg (d : Dev) (m off : Nat) : Nat :=
  let x := d.mvec.get .reset m
  match off with
  | 0x040 => queueSts x.queue.length 64
  | 0x044 => 0x07FE
  | 0x048 => 0x8000 + 4 * 2 ^ 16
  | 0x04C => if x.cur.isSome then sat 16 x.rowsLeft else 0
  | _ => 0

/-- An issued operation of engine q has not completed. -/
def Core.runs (c : Core) (q : Nat) : Bool :=
  if q = 0 then !c.loads.isEmpty else if q = 1 then !c.arr.isEmpty else if q = 2 then !c.vec.isEmpty else !c.sto.isEmpty

/-- CORE_ENGn_STS. The head waits for its wait slots, a reservation or a power grant. -/
def Dev.engSts (d : Dev) (inst q : Nat) : Nat :=
  let c := d.core inst
  let e := c.eng q
  let unmet := match e.queue with
    | [] => []
    | x :: _ => d.unmet inst x
  let asks : Bool := match (if q = 1 then c.arrPlan else if q = 2 then c.vecPlan else none) with
    | some p => !p.granted
    | none => false
  sat 8 e.queue.length + b2n (!e.stopped && (!unmet.isEmpty || e.go || asks)) * 2 ^ 8 +
  b2n (c.runs q || d.converts inst q) * 2 ^ 9 + b2n e.stopped * 2 ^ 10 + b2n e.ended * 2 ^ 11 +
  (if e.stopped then sat 8 e.reason * 2 ^ 16 else 0) + sumN (unmet.map fun i => 2 ^ (24 + i))

/-- CORE (R230, R284). -/
def Dev.coreReg (d : Dev) (inst off : Nat) : Nat :=
  let c := d.core inst
  if off = 0x070 then sat 9 c.ldOut + 384 * 2 ^ 16
  else if off = 0x400 then 0x3F + 0x7FE * 2 ^ 8 + 15 * 2 ^ 24
  else if off = 0x404 then
    c.gang % 8 + b2n (!c.arr.isEmpty) * 8 + b2n (d.dataPort inst = 992) * 16 + sat 16 c.ratio * 2 ^ 16
  else match regNo off 0x040 4 4, regNo off 0x060 4 4, regNo off 0x100 4 32, regNo off 0x800 4 64 with
    | some q, _, _, _ => d.engSts inst q
    | _, some q, _, _ => match (c.eng q).queue with
      | [] => 0
      | x :: _ => dOp x + dCtl x * 2 ^ 8 + dWid x 0 * 2 ^ 16
    | _, _, some k, _ => match c.wins.find? (k / 2) with
      | none => 0
      | some w => if k % 2 = 0 then w.base / 32 + b2n w.intact * 2 ^ 31 else w.len / 32
    | _, _, _, some i => (d.evc.get 0#32 (inst * 64 + i)).toNat
    | _, _, _, _ => 0

def ShelfState.code : ShelfState → Nat | .empty => 0 | .running => 1 | .parking => 2 | .resuming => 3

/-- A slot's state as CLST_SLOTS shows it: the good slots of a withdrawn cluster are Absent. -/
def Dev.slotCode (d : Dev) (c s : Nat) : Nat :=
  let k := d.clus' c
  match k.slots.getD s .absent with
  | .active => if k.withdrawn then 6 else 0
  | .spare => if k.withdrawn then 6 else 1
  | x => x.code

/-- CLST (R284, R647–R653). -/
def Dev.clstReg (d : Dev) (v : View) (c off : Nat) : Nat :=
  let k := d.clus' c
  if off = 0x040 then k.shelfSlot % 128 + k.shelf.code * 2 ^ 8
  else if off = 0x048 then (if v = .pf then d.plain v (pClst c) off else 0)
  else if off = 0x0C0 then sumN ((List.range 10).map fun s => d.slotCode c s * 2 ^ (3 * s))
  else if off = 0x0C4 then sumN ((List.range 7).map fun s => d.slotCode c (10 + s) * 2 ^ (3 * s))
  else match regNo off 0x080 4 16, regNo off 0x400 4 256 with
    | some n, _ => let e := k.map.getD n (0, 0); e.1 + e.2 % 256 * 2 ^ 8
    | _, some i => (d.evc.get 0#32 (0x10000 + c * 256 + i)).toNat
    | _, _ => 0

/-- Bytes of the cache pool in 2 MiB units, the map window's status, the pilot's and the fault record (R298–R316). -/
def Dev.tierReg (d : Dev) (v : View) (off : Nat) : Nat :=
  let n := d.selPart v pTier
  let f := d.tier.fault.find? n
  match regNo off 0x044 4 4 with
  | some i => sat 32 (cdiv (d.usage n (i + 1)) 65536)
  | none =>
    if off = 0x040 ∧ v ≠ .pf then 0
    else if off = 0x054 then d.tier.pool.get 0 n
    else if off = 0x058 then sat 23 (d.pagesOf n).length
    else if off = 0x07C then
      let s := d.tier.sts.get ⟨false, 0, 0⟩ v.key
      b2n s.busy + s.status % 256 * 2 ^ 8 + sat 16 s.done * 2 ^ 16
    else if off = 0x090 then
      let x := d.pilot n
      sat 16 x.next + b2n x.running * 2 ^ 16 + b2n x.fault * 2 ^ 17
    else if off = 0x0A0 then ((f.map (·.va)).getD 0) % 2 ^ 32
    else if off = 0x0A4 then ((f.map (·.va)).getD 0) / 2 ^ 32 % 2 ^ 20
    else if off = 0x0A8 then match f with
      | some x => x.code % 65536 + x.agent % 16 * 2 ^ 16 + b2n (!x.armed) * 2 ^ 31
      | none => 0
    else d.plain v pTier off

/-- HBMC: privileged-only in VF views (R79). The temperature is whatever the stack has. -/
def Dev.hbmcReg (d : Dev) (v : View) (i off : Nat) : Nat :=
  if v ≠ .pf then 0
  else match off with
    | 0x040 => 32 + 12 * 2 ^ 8 + 48 * 2 ^ 16 + 96 * 2 ^ 24
    | 0x044 => sumN ((List.range 32).map fun p =>
        b2n ((d.pchOwner (32 * i + p)).isSome || bit (d.reg pLend (0x040 + 4 * i)) p) * 2 ^ p)
    | 0x048 => let t := Config.freeNat d.free (200 + i) % 256; t + b2n (85 < t) * 2 ^ 8
    | _ => 0

/-- Frames borrowed: all of them in the PF view, the partition's own in a VF view. -/
def Dev.borrowed (d : Dev) (v : View) : Nat :=
  sumN ((d.tier.leases.filter fun (l : Lease) => v == .pf || v == .vf l.part).map fun (l : Lease) => l.frames.length)

/-- LEND (R322, R333). -/
def Dev.lendReg (d : Dev) (v : View) (off : Nat) : Nat :=
  if off = 0x06C then sat 20 (d.borrowed v)
  else if v ≠ .pf then 0
  else if off = 0x064 then sat 20 d.lendable.length
  else if off = 0x068 then sat 20 (sumN (d.tier.lent.map fun (l : Lent) => l.frames.length))
  else d.plain v pLend off

/-- FLSH (R336, R350–R353). -/
def Dev.flshReg (d : Dev) (v : View) (off : Nat) : Nat :=
  let n := d.selPart v pFlsh
  let f := d.flash
  match off with
  | 0x044 => 16 + 96 * 2 ^ 8 + 64 * 2 ^ 16
  | 0x048 => 0x22ECB2
  | 0x04C => f.state.code + b2n f.clean * 8
  | 0x058 => d.credit n % 2 ^ 32
  | 0x05C => d.credit n / 2 ^ 32 % 2 ^ 32
  | 0x040 => if v = .pf then d.plain v pFlsh off else 0
  | 0x050 => if v = .pf then sat 16 (lifeUsed f.charged) + sat 16 f.spread * 2 ^ 16 else 0
  | 0x054 => if v = .pf then sat 20 f.spare + f.pct % 128 * 2 ^ 20 else 0
  | 0x060 => if v = .pf then sat 16 f.replayed + b2n f.dumpOk * 2 ^ 16 else 0
  | _ => 0

/-- OPTE (R393). Which iteration is in progress, and how many elements are left, the spec leaves to the engine's pace:
free values within the bounds of an update. -/
def Dev.opteReg (d : Dev) (c off : Nat) : Nat :=
  let o := d.op c
  match off with
  | 0x040 =>
    queueSts o.q.queue.length 64 + b2n o.q.stopped * 2 ^ 17 + b2n o.held.isSome * 2 ^ 18 +
    (if o.q.stopped then o.q.reason % 256 * 2 ^ 24 else 0)
  | 0x044 => 0x7E + 0x406 * 2 ^ 8 + 8 * 2 ^ 19
  | 0x04C => match o.cur with
    | some r => dOp r.desc + (1 + Config.freeNat d.free (300 + c) % Nat.max 1 r.iters) * 2 ^ 8
    | none => if o.held.isSome then (match o.q.queue with
      | (_, x) :: _ => dOp x
      | [] => 0) else 0
  | 0x050 => match o.cur with
    | some r => sat 32 (Config.freeNat d.free (400 + c) % (r.elems + 1))
    | none => 0
  | 0x054 => match o.held with
    | some r => r % 65536 + 2 ^ 16
    | none => 0
  | _ => 0

/-- A record of NWCH: the fields of the first since valid was read, or those that stood when it was read. -/
def Dev.nwRec (d : Dev) (c off : Nat) (x : Option Nat) : Nat :=
  match x with
  | some w => w + 2 ^ 31
  | none => d.reg (pNwch c) off

/-- NWCH_HW_LAST's fields. -/
def hwWord (x : Nat × Nat × Nat) : Nat := x.1 % 16 + x.2.1 % 32 * 2 ^ 4 + x.2.2 % 65536 * 2 ^ 9

/-- The three records of NWCH, by offset. -/
def Dev.nwLast (d : Dev) (c off : Nat) : Option (Option Nat) :=
  let n := d.nw c
  match off with
  | 0x058 => some (n.hwLast.map hwWord)
  | 0x05C => some (n.qLast.map (· % 1024))
  | 0x060 => some (n.silentLast.map (· % 1024))
  | _ => none

/-- NWCH (R416–R424). -/
def Dev.nwchReg (d : Dev) (v : View) (c off : Nat) : Nat :=
  let n := d.nw c
  match d.nwLast c off with
  | some x => d.nwRec c off x
  | none =>
    match off with
    | 0x048 => if v = .pf then d.plain v (pNwch c) off else 0
    | 0x06C => n.scStatus % 256 * 2 ^ 8
    | 0x070 =>
      sat 11 (n.entries.filter fun (e : Nat × Entry192) => e.2.state = .calibrating).length + sat 11 n.awaits.length * 2 ^ 16
    | 0x074 =>
      sat 5 n.queue.length + 16 * 2 ^ 8 + b2n n.stopped * 2 ^ 17 + (if n.stopped then n.reason % 256 * 2 ^ 24 else 0)
    | _ => d.plain v (pNwch c) off

/-- REDE (R429–R431, R450). -/
def Dev.redeReg (d : Dev) (v : View) (c off : Nat) : Nat :=
  let r := d.red c
  match regNo off 0x040 4 3 with
  | some q =>
    let e := r.q q
    sat 6 e.queue.length + 32 * 2 ^ 8 + b2n (32 ≤ e.queue.length) * 2 ^ 16 + b2n e.stopped * 2 ^ 17 +
    b2n (q = 1 && r.pipe.isSome) * 2 ^ 18 + (if e.stopped then e.reason % 256 * 2 ^ 24 else 0)
  | none =>
    match off with
    | 0x05C => match r.act with
      | some a => (RedBody.of a.desc).tag
      | none => 0
    | 0x060 => match r.act with
      | some a => a.left.length
      | none => 0
    | 0x064 => r.lastStatus % 256 + r.lastOp % 256 * 2 ^ 8
    | _ => d.plain v (pRede c) off

/-- Partitions with token work on a die: open tags, and combines in progress of its clusters. -/
def Dev.tokParts (d : Dev) (die : Nat) : List Nat :=
  (List.range 16).filter fun n =>
    (d.tokx.open_.any fun (t : SlotTag) => t.die == die && t.part == n) ||
    (List.range 4).any fun j => (d.red (4 * die + j)).comb.isSome && d.clusterOwner (4 * die + j) == some n

/-- TOKX (R467–R469). -/
def Dev.tokxReg (d : Dev) (v : View) (die off : Nat) : Nat :=
  let ps := d.tokParts die
  match off with
  | 0x040 => if v = .pf then d.plain v ⟨.tokx, die⟩ off else 0
  | 0x050 => b2n (!ps.isEmpty) + (if v = .pf then ps.length * 2 ^ 8 else 0)
  | _ => d.plain v ⟨.tokx, die⟩ off

/-- ETHP_EBB_STS.state of a sub-port (R496–R502). -/
def Dev.ebbState (d : Dev) (k : Nat) : Nat :=
  let s := d.sub k
  if s.lanes = 0 ∨ !bit (d.ebbCtl k) 0 ∨ s.locked then 0
  else if s.capUntil ≤ d.ptimer k then 1
  else if s.hold.isSome then 3
  else if s.lanes < d.fullLanes k then 4 else 2

/-- ETHP (R472, R489, R502): in a VF view ETHP_LINK and the registers of owned queue pairs. -/
def Dev.ethpReg (d : Dev) (v : View) (port off : Nat) : Nat :=
  if off = 0x044 then
    sumN ((List.range 4).map fun i => ((d.sub (subKey port i)).lanes % 8 + b2n (d.sub (subKey port i)).lpi * 8) * 2 ^ (4 * i))
  else if 0x400 ≤ off then
    let q := (off - 0x400) / 16
    if !d.qpReach v port q then 0
    else d.plain v (pEthp port) off
  else if v ≠ .pf then 0
  else if off = 0x168 then
    sumN ((List.range 4).map fun i => d.ebbState (subKey port i) * 2 ^ (4 * i)) +
    (match d.eth.failSub.find? port with
     | some i => sat 8 (d.sub (subKey port i)).fails * 2 ^ 16
     | none => 0)
  else d.plain v (pEthp port) off

/-- FABT (R505, R530, R542). -/
def Dev.fabtReg (d : Dev) (v : View) (off : Nat) : Nat :=
  match off with
  | 0x048 => d.fab.state.code + sat 16 (d.fab.peers.filter fun (e : Nat × Peer) => e.2.state = .up).length * 2 ^ 16
  | 0x060 => 0x01000100
  | 0x05C => d.plain v pFabt off
  | 0x078 => if v = .pf then d.fab.tblSts % 256 * 2 ^ 8 else 0
  | _ => if v = .pf then d.plain v pFabt off else 0

/-- Words of the event summary of a view. -/
def Dev.sumWord (d : Dev) (v : View) (w : Nat) : Nat :=
  sumN ((List.range 32).map fun i => b2n (d.irq.summary.contains (v.key * 2048 + 32 * w + i)) * 2 ^ i)

/-- The registers that the operator's ring and a partition's share (R549–R562). -/
def Dev.ringReg (d : Dev) (v : View) (n off : Nat) : Nat :=
  let r := d.ring n
  let p := ringPage n
  match regNo off 0x200 4 64 with
  | some w => d.sumWord (ringView n) w
  | none =>
    match off with
    | 0x10C => r.cqHead
    | 0x110 => r.cqTail + b2n r.phase * 2 ^ 12
    | 0x114 => b2n r.armed + b2n (bit (d.cqCfg n) 8 && ringSize (d.cqCfg n) ≤ r.cqUsed) * 2
    | _ =>
      if 0x080 ≤ off ∧ off < 0x080 + 32 * ringCount n then
        let i := (off - 0x080) / 32
        match off % 32 with
        | 0x0C => r.tails.get 0 i
        | 0x10 => r.heads.get 0 i
        | 0x14 => b2n (bit (d.sqCfg n i) 8 && !r.halted.contains i && d.bst p == .running) + b2n (r.halted.contains i) * 2
        | _ => d.plain v p off
      else d.plain v p off

/-- DMAE (R563–R577). -/
def Dev.dmaeReg (d : Dev) (v : View) (e off : Nat) : Nat :=
  let x := d.dma e
  match off with
  | 0x040 => (if v = .pf then b2n x.maint else 0) + b2n (d.bst (pDmae e) = .halted) * 2
  | 0x048 => x.halt.1 % 8 + b2n x.halt.2.1 * 8 + x.halt.2.2.1 % 16 * 2 ^ 4 + b2n x.valid * 2 ^ 31
  | 0x04C => x.halt.2.2.2 % 2 ^ 32
  | 0x050 => x.halt.2.2.2 / 2 ^ 32 % 2 ^ 32
  | _ =>
    if 0x100 ≤ off ∧ off < 0x200 then
      let i := (off - 0x100) / 32
      let c := d.chan e i
      match off % 32 with
      | 0x0C => c.tail
      | 0x10 => c.head
      | 0x14 =>
        b2n (c.run.isEmpty && !c.stopped && c.head != c.tail && d.dmaRuns e && bit (d.chCfg e i) 8) +
        b2n (!c.run.isEmpty) * 2 + b2n c.stopped * 4 + b2n c.abandoned * 8 + (if c.stopped then c.reason % 256 * 2 ^ 8 else 0)
      | _ => d.plain v (pDmae e) off
    else 0

/-- STRM (R594–R602). -/
def Dev.strmReg (d : Dev) (v : View) (k off : Nat) : Nat :=
  let x := d.sctx k
  if off = 0x08C then x.active.getD 0 + b2n x.active.isSome * 2 + b2n x.waitIrap * 4 + sat 3 x.waiting.length * 8
  else match regNo off 0x11C 32 2 with
    | some s => let b := x.slot s; b2n b.own + b.done % 512 * 2 ^ 8 + b2n b.early * 2 ^ 17
    | none => d.plain v (pStrm k) off

/-- DECO (R601, R602): in a VF view its own weight, busy and INFO. -/
def Dev.decoReg (d : Dev) (v : View) (e off : Nat) : Nat :=
  let x := d.decoSt e
  match off with
  | 0x080 =>
    b2n x.cur.isSome +
    (if v = .pf then
      (match x.cur with
       | some (k, _) => (d.strmOwner k).getD 0 * 2 ^ 4
       | none => 0) +
      sat 8 (sumN ((List.range 48).map fun k => if d.strmDeco k = e then (d.sctx k).waiting.length else 0)) * 2 ^ 8
     else 0)
  | 0x084 => 0x07D00403
  | _ => match v with
    | .pf => d.plain v ⟨.deco, e⟩ off
    | .vf n => if off = 0x040 + 4 * n.val then d.plain v ⟨.deco, e⟩ off else 0

/-- PWRC (R612–R628): in a VF view PWRC_IN, PWRC_PWR and PWRC_DIEd. -/
def Dev.pwrcReg (d : Dev) (v : View) (off : Nat) : Nat :=
  let w := d.pwr
  match regNo off 0x060 4 4 with
  | some n =>
    let x := d.die n
    x.thermal % 128 + x.cap % 128 * 2 ^ 8 + d.kOf n % 32 * 2 ^ 16 + x.hot % 256 * 2 ^ 24
  | none =>
    match off with
    | 0x050 => w.volt.toNat + w.amp.toNat * 2 ^ 16
    | 0x054 => sat 11 (w.avg / 1000) + sat 11 (w.g / 1000) * 2 ^ 16
    | 0x040 =>
      if v = .pf then w.target % 4 + w.state % 4 * 4 + b2n (bit (d.regAt pPwrc 0 0x040).toNat 4) * 16 + b2n w.moving.isSome * 32
      else 0
    | 0x058 =>
      if v = .pf then
        b2n w.brake + b2n w.under * 2 + b2n ((List.range 4).any fun n => (d.die n).emergency) * 4 + b2n w.trip * 8
      else 0
    | 0x05C => if v = .pf then sat 6 w.overs else 0
    | _ => if v = .pf then d.plain v pPwrc off else 0

/-- ISLE (R42, R47, R53, R605–R611); the frequency of a mesh segment is privileged-only. -/
def Dev.isleReg (d : Dev) (v : View) (i off : Nat) : Nat :=
  let x := d.isle i
  let core := i < 272
  match off with
  | 0x040 => (isleKind i).getD 0 + 16 * 2 ^ 8 + isleFmax i * 2 ^ 16 + b2n (i < 0x124) * 2 ^ 24
  | 0x044 =>
    if v ≠ .pf ∧ 0x120 ≤ i ∧ i < 0x124 then 0
    else x.target % 128 + x.eff % 128 * 2 ^ 8 + (if core then d.kOf (isleCluster i / 4) else 16) % 32 * 2 ^ 16
  | 0x048 => x.req.code + x.state.code * 2 ^ 4 + b2n (x.move ≠ .rest) * 2 ^ 7
  | 0x058 => x.timer % 2 ^ 32
  | 0x05C => (d.regAt (pIsle i) (v.key + 1) 0x05C).toNat
  | _ => d.plain v (pIsle i) off

/-- The 32 bytes of an error record (R637). -/
def ErrRec.bytes (r : ErrRec) : List Byte :=
  leBytes 4 r.seq.toNat ++ leBytes 2 r.code.toNat ++ leBytes 2 r.blk ++ leBytes 2 r.inst ++ leBytes 1 r.sev.code ++
  leBytes 1 r.dom.code ++ leBytes 1 r.part ++ leBytes 1 (r.akind % 4 + b2n r.escalated * 4) ++ leBytes 2 r.island ++
  leBytes 8 r.stamp ++ leBytes 8 r.addr.toNat

/-- ERRM (R638, R642): privileged-only. -/
def Dev.errmReg (d : Dev) (v : View) (off : Nat) : Nat :=
  let m := d.errm
  let n := m.queue.length
  if v ≠ .pf then 0
  else match off with
    | 0x040 => sat 9 n + b2n (256 ≤ n) * 2 ^ 9 + b2n (224 < n) * 2 ^ 10
    | 0x050 =>
      sumN ((List.range 16).map fun c => b2n (m.handled.contains (.cluster c)) * 2 ^ c + b2n (m.handled.contains (.part c)) * 2 ^ (16 + c))
    | 0x054 => b2n (m.handled.contains .device)
    | _ => match regNo off 0x100 4 8, m.queue with
      | some w, r :: _ => fld r.bytes (4 * w) 4
      | some _, [] => 0
      | none, _ => d.plain v pErrm off

def Side.sts (s : Side) : Nat := b2n s.level + b2n s.asserted * 2 + b2n s.effect * 4 + b2n s.chatter * 8 + b2n s.held10 * 16

/-- SECC (R660–R683). -/
def Dev.seccReg (d : Dev) (v : View) (off : Nat) : Nat :=
  let s := d.sec
  let t := d.kSel.1
  match off with
  | 0x040 =>
    s.life % 4 + b2n s.bootB * 4 + b2n s.fallback * 8 + b2n d.boot.recovery * 16 + b2n s.slotA.valid * 32 + b2n s.slotB.valid * 64 +
    s.svn1 % 128 * 2 ^ 8 + s.svn2 % 128 * 2 ^ 16 + s.revoked % 16 * 2 ^ 24 + b2n d.store.enrolled * 2 ^ 28
  | 0x044 => fld s.run1 8 4
  | 0x048 => fld s.run2 8 4
  | 0x060 => b2n s.loading.isSome + s.fwStatus % 256 * 2 ^ 8 + s.fwKind % 4 * 2 ^ 16
  | 0x078 =>
    s.kStatus % 256 * 2 ^ 8 + b2n (s.keys.find? (2 * t)).isSome * 2 ^ 16 + b2n (s.keys.find? (2 * t + 1)).isSome * 2 ^ 17 +
    s.transmit.get 0 t % 2 * 2 ^ 18
  | _ => d.plain v pSecc off

/-- A block-specific register (0x040 to 0xBFF). -/
def Dev.blkValue (d : Dev) (v : View) (p : Page) (off : Nat) : Nat :=
  match p.blk with
  | .devc => d.devcReg v off
  | .part => d.partReg v off
  | .mvec => d.mvecReg p.inst off
  | .core => d.coreReg p.inst off
  | .clst => d.clstReg v p.inst off
  | .tier => d.tierReg v off
  | .hbmc => d.hbmcReg v p.inst off
  | .lend => d.lendReg v off
  | .flsh => d.flshReg v off
  | .opte => d.opteReg p.inst off
  | .nwch => d.nwchReg v p.inst off
  | .rede => d.redeReg v p.inst off
  | .tokx => d.tokxReg v p.inst off
  | .ethp => d.ethpReg v p.inst off
  | .fabt => d.fabtReg v off
  | .pcie =>
    if off = 0x044 then d.boot.rate % 8 + b2n d.boot.flit * 8 + d.boot.width % 32 * 2 ^ 4 else d.ringReg v 16 off
  | .ring => d.ringReg v p.inst off
  | .dmae => d.dmaeReg v p.inst off
  | .strm => d.strmReg v p.inst off
  | .deco => d.decoReg v p.inst off
  | .pwrc => d.pwrcReg v off
  | .isle => d.isleReg v p.inst off
  | .errm => d.errmReg v off
  | .secc => d.seccReg v off
  | .side => if off = 0x040 then d.halt.sts + d.brake.sts * 2 ^ 8 else 0
  | .mgmt =>
    if off = 0x040 then d.boot.i3c.toNat + b2n d.boot.assigned * 2 ^ 7 + d.boot.eid.toNat * 2 ^ 8 else 0

/-- What a 32-bit read of a page's register returns, before anything that the read changes: the header, block-specific
registers, and the counter area (R92, R93). -/
def Dev.regValue (d : Dev) (v : View) (p : Page) (off : Nat) : Nat :=
  if off < 0x040 then d.hdrValue v p off
  else if off < 0xC00 then d.blkValue v p off
  else if off % 8 = 0 then d.pg.ctr.get 0 (ckey v p ((off - 0xC00) / 8)) % 2 ^ 32
  else (d.pg.snap.get 0#32 (ckey v p ((off - 0xC00) / 8))).toNat

/-! ### Reads that change something -/

/-- A read of a block-specific register or counter through a view: a page that the view does not have reads zero and
counts nothing (R66, R67); without a version in force it reads zero with code 0x0004 (R97). -/
def Dev.readVia (d : Dev) (v : View) (p : Page) (f : Dev → Nat × Dev) : Dev :=
  if !d.reaches v p then d.put (.read v 0)
  else if (d.hdrOf v p).neg.isNone then (d.err v p 0x0004).put (.read v 0)
  else let (x, d) := f d; d.put (.read v x)

/-- Clear a counter of a view. -/
def Dev.clearCnt (d : Dev) (v : View) (p : Page) (n : Nat) : Dev :=
  { d with pg := { d.pg with ctr := d.pg.ctr.erase (ckey v p n) } }

/-- The low word of a counter: the high word goes to the view's snapshot, and the counter is cleared (R93). -/
def lowRead (v : View) (p : Page) (n : Nat) (d : Dev) : Dev :=
  d.readVia v p fun d =>
    let c := d.pg.ctr.get 0 (ckey v p n)
    let d := d.clearCnt v p n
    (c % 2 ^ 32, { d with pg := { d.pg with snap := d.pg.snap.put 0#32 (ckey v p n) (BitVec.ofNat 32 (c / 2 ^ 32)) } })
/-- COUNTER_LOW_READ (R93). -/
def execCounterLowRead (v : View) (p : Page) (n : Fin 128) (s : State) : Host.Outcome State Fault Refusal :=
  onPage p.valid (lowRead v p n.val) s

/-- A 64-bit read of a counter (R94). -/
def read64 (v : View) (p : Page) (n : Nat) (d : Dev) : Dev :=
  d.readVia v p fun d => (d.pg.ctr.get 0 (ckey v p n), d.clearCnt v p n)
/-- COUNTER_64_READ (R94). -/
def execCounter64Read (v : View) (p : Page) (n : Fin 128) (s : State) : Host.Outcome State Fault Refusal :=
  onPage p.valid (read64 v p n.val) s

/-- A read of PART_VIOL clears the count and the address record of the partition shown, for both views (R113). Writes
that are dropped in the same cycle stay counted (R21); where the first of them went is not said: a free value. -/
def Dev.clearViol (d : Dev) (v : View) (inc : Nat) : Dev :=
  let n := d.selPart v pPart
  let first := if inc = 0 then none else some (Config.freeNat d.free (500 + n) % 0x2000000)
  let d := { d with parts := { d.parts with st := d.parts.st.upd .reset n fun x =>
    { x with viol := BitVec.ofNat 32 (sat 32 inc), violAddr := first } } }
  if inc = 0 then d else d.evtP pPart 1 (some n)

/-- A read of TIER_FAULT_INFO clears valid and rearms the partition's record (R300). -/
def Dev.rearm (d : Dev) (v : View) : Dev :=
  let n := d.selPart v pTier
  match d.tier.fault.find? n with
  | some x => d.updTier fun t => { t with fault := t.fault.insert n { x with armed := true } }
  | none => d

/-- What a read of a register with an RC field clears; inc increments arrive in the same cycle (R21). -/
def Dev.rcClear (d : Dev) (v : View) (p : Page) (off inc : Nat) : Dev :=
  match p.blk, off with
  | .part, 0x04C => d.clearViol v inc
  | .tier, 0x0A8 => d.rearm v
  | .pwrc, 0x058 => if v = .pf then { d with pwr := { d.pwr with trip := false } } else d
  | .nwch, _ =>
    match d.nwLast p.inst off with
    | some (some w) =>
      let d := d.setReg p off w
      d.updNw p.inst fun n =>
        { n with hwLast := if off = 0x058 then none else n.hwLast
                 qLast := if off = 0x05C then none else n.qLast
                 silentLast := if off = 0x060 then none else n.silentLast }
    | _ => d
  | _, _ => d

/-- A read of a 32-bit register (R18, R21, R64). An RC field clears; the high words of counters, and registers whose
reads change nothing, are read too. ISLE_TIMER_LO and counters' low words have rows of their own. -/
def rcRead (v : View) (p : Page) (off inc : Nat) (d : Dev) : Dev :=
  if !d.reaches v p ∨ 0x1000 ≤ off then d.put (.read v 0)
  else if off % 4 ≠ 0 then (d.err v p 0x0005).put (.read v 0)
  else if off < 0x040 then
    let x := d.regValue v p off
    let d := if off = 0x024 then d.updHdr v p fun h => { h with errCnt := BitVec.ofNat 32 (sat 32 inc) } else d
    d.put (.read v x)
  else if 0xC00 ≤ off ∧ off % 8 = 0 then lowRead v p ((off - 0xC00) / 8) d
  else d.readVia v p fun d =>
    let x := d.regValue v p off
    (x, { d.rcClear v p off inc with free := d.free + 1 })
/-- RC_READ (R21). -/
def execRcRead (v : View) (p : Page) (off inc : Nat) (s : State) : Host.Outcome State Fault Refusal :=
  onPage p.valid (rcRead v p off inc) s

/-- PART_VIOL_READ (R113). -/
def execPartViolRead (v : View) (s : State) : Host.Outcome State Fault Refusal := onDev (rcRead v pPart 0x04C 0) s

/-- TIER_FAULT_INFO_READ (R300). -/
def execTierFaultInfoRead (v : View) (s : State) : Host.Outcome State Fault Refusal := onDev (rcRead v pTier 0x0A8 0) s

/-- A read of ISLE_TIMER_LO snapshots the high word for the reading view (R53). -/
def timerRead (v : View) (i : Nat) (d : Dev) : Dev :=
  d.readVia v (pIsle i) fun d =>
    (d.timer i % 2 ^ 32, d.setRegAt (pIsle i) (v.key + 1) 0x05C (BitVec.ofNat 32 (d.timer i / 2 ^ 32)))
/-- ISLE_TIMER_LO_READ (R53). -/
def execIsleTimerLoRead (v : View) (isle : Nat) (s : State) : Host.Outcome State Fault Refusal :=
  onPage (isleKind isle).isSome (timerRead v isle) s

end Sys2Proof.Machine
end

