-- ==== Sys2Proof/Machine/Router.lean ====
section
/-!
DEFINITION. REGISTER_WRITE: a write at an offset of a view's BAR0 finds its page (R62–R67), and then does what the
register's access code and its chapter say (R18, R22, R64, R68, R79, R92, R97, R115, R116).
-/

namespace Sys2Proof.Machine

/-! ### The page at an offset -/

/-- All pages of the module. -/
def allPages : List Page :=
  Blk.all.flatMap fun b => ((List.range b.count).map fun i => (⟨b, i⟩ : Page)).filter Page.valid

/-- The page that a view has at an offset of its BAR0. -/
def Dev.pageAt (d : Dev) (v : View) (off : Nat) : Option Page :=
  allPages.find? fun p => d.base v p == off / 0x1000 * 0x1000 && d.reaches v p

/-! ### What a VF view may write (R79, R580) -/

/-- The offset is not privileged-only in the view of partition n: a write to it is not dropped under R22. -/
def Dev.vfOpen (d : Dev) (n : Fin 16) (p : Page) (off : Nat) : Bool :=
  match p.blk with
  | .part => 0x044 ≤ off && off < 0x054
  | .tier | .tokx => off != 0x040
  | .flsh => off == 0x044 || off == 0x048 || off == 0x04C || off == 0x058 || off == 0x05C
  | .lend => off == 0x06C
  | .ethp => off == 0x044 || (0x400 ≤ off && off < 0x800 && d.qpOwner p.inst ((off - 0x400) / 16) == some n.val)
  | .fabt => off == 0x048 || off == 0x060
  | .deco => off == 0x080 || off == 0x084
  | .pwrc => off == 0x050 || off == 0x054 || (0x060 ≤ off && off < 0x070)
  | .isle => p.inst < 0x120
  | .clst => off != 0x048 && off != 0x0C8
  | .nwch => off != 0x048
  | .dmae => off != 0x040 && off != 0x044
  | .mvec | .opte | .rede | .core | .ring | .strm => true
  | .devc | .hbmc | .errm | .pcie | .secc | .side | .mgmt => false

/-! ### Writes block by block -/

/-- COMMIT_CTL (R123–R126): an action alone; more than one is dropped whole. -/
def commitCtl (w : Nat) (d : Dev) : Dev :=
  if bit w 0 then d.ctl (bit w 1 || bit w 2) stage
  else if bit w 1 then d.ctl (bit w 2) sealIt
  else if bit w 2 then d.ctl false abort
  else d

/-- A write to an RWL field (R116): dropped, recorded and counted. -/
def Dev.rwl (d : Dev) (v : View) (p : Page) (off : Nat) : Dev :=
  match v with
  | .pf => (d.err .pf p 0x0001).cnt .pf pPart 1 1
  | .vf n => d.violR n p off

/-- A write of the PART page. -/
def Dev.partWr (d : Dev) (v : View) (off : Nat) (w : Word) : Dev :=
  if off = 0x100 then commitCtl w.toNat d
  else if (regNo off 0x060 4 32).isSome then d.rwl v pPart off
  else match regNo off 0x260 4 32 with
    | some i => stagedWrite i w d
    | none => d.wrReg v pPart off w

/-- CORE: CORE_ENG_CTL and the core's event counters. -/
def Dev.coreWr (d : Dev) (v : View) (inst off : Nat) (w : Word) : Dev :=
  if off = 0x050 then
    (List.range 4).foldl (fun (d : Dev) q =>
      let d := if bit w.toNat q then engSkip v inst q d else d
      if bit w.toNat (4 + q) then engRestart v inst q d else d) d
  else match regNo off 0x800 4 64 with
    | some i => coreCounter v inst i w d
    | none => d

/-- CLST: the probe's settings, CLST_SLOT_CTL (return, then retire, then reinstate), and the cluster counters. -/
def Dev.clstWr (d : Dev) (v : View) (c off : Nat) (w : Word) : Dev :=
  if off = 0x0C8 then
    let s := bits w.toNat 4 0
    let d := if bit w.toNat 8 then slotReturn v c s d else d
    let d := if bit w.toNat 9 then slotRetire v c s d else d
    if bit w.toNat 10 then reinstate v c d else d
  else match regNo off 0x400 4 256 with
    | some i => clusterCounter v c i w d
    | none => d.wrReg v (pClst c) off w

/-- TIER: the pilot's registers only while it is not enabled (R316). -/
def Dev.tierWr (d : Dev) (v : View) (off : Nat) (w : Word) : Dev :=
  match off with
  | 0x054 => cacheWrite v w d
  | 0x078 => mapWrite v (bits w.toNat 2 0) d
  | 0x08C => pilotWrite v w d
  | _ =>
    if 0x080 ≤ off ∧ off < 0x08C ∧ bit (d.regP pTier (d.selPart v pTier) 0x08C) 16 then d else d.wrReg v pTier off w

def Dev.lendWr (d : Dev) (v : View) (off : Nat) (w : Word) : Dev :=
  match regNo off 0x040 4 8 with
  | some s => pchsWrite v s w d
  | none => d.wrReg v pLend off w

/-- NWCH: NWCH_CTL.skip_head acts beside the write of its other fields. -/
def Dev.nwchWr (d : Dev) (v : View) (c off : Nat) (w : Word) : Dev :=
  if off = 0x068 then scWindow v c (bits w.toNat 2 0) d
  else
    let d := d.wrReg v (pNwch c) off w
    if off = 0x040 ∧ bit w.toNat 7 then nwSkip v c d else d

def Dev.redeWr (d : Dev) (v : View) (c off : Nat) (w : Word) : Dev :=
  if off = 0x050 then (List.range 3).foldl (fun (d : Dev) q => if bit w.toNat q then redSkip v c q d else d) d
  else d.wrReg v (pRede c) off w

def Dev.ethpWr (d : Dev) (v : View) (port off : Nat) (w : Word) : Dev :=
  if off = 0x040 then modeWrite v port w d
  else if off = 0x160 then ebbCtlWrite v port w d
  else if 0x400 ≤ off ∧ off < 0x800 then qpWrite v port ((off - 0x400) / 16) (off % 16) w d
  else d.wrReg v (pEthp port) off w

def Dev.fabtWr (d : Dev) (v : View) (off : Nat) (w : Word) : Dev :=
  if off = 0x040 ∨ off = 0x044 then identityWrite v off w d
  else if off = 0x074 then
    let cmd := bits w.toNat 1 0
    if cmd = 1 then tblCmd v false d else if cmd = 2 then tblCmd v true d else d
  else d.wrReg v pFabt off w

/-- The registers of a function's rings. -/
def Dev.ringWr (d : Dev) (v : View) (n off : Nat) (w : Word) : Dev :=
  let fn := ringView n
  match regNo off 0x200 4 64 with
  | some i => d.sumClear fn i w
  | none =>
    match off with
    | 0x100 | 0x104 => ringBase v fn off 0x108 w d
    | 0x108 => cqEnable v fn w d
    | 0x10C => cqHead v fn w d
    | _ =>
      if 0x080 ≤ off ∧ off < 0x080 + 32 * ringCount n then
        let i := (off - 0x080) / 32
        match off % 32 with
        | 0x00 | 0x04 => ringBase v fn off (0x088 + 32 * i) w d
        | 0x08 => sqEnable v fn i w d
        | 0x0C => sqTail v fn i w d
        | _ => d
      else d.wrReg v (ringPage n) off w

/-- CFG of a DMA channel: the size only while the channel is not enabled; enabling starts its ring empty. -/
def Dev.chCfgWr (d : Dev) (e i : Nat) (w : Nat) : Dev :=
  let off := 0x108 + 32 * i
  let old := d.chCfg e i
  let en := if bit w 8 then 256 else 0
  if bit old 8 then d.setReg (pDmae e) off (bits old 3 0 + en)
  else
    let d := d.setReg (pDmae e) off (bits w 3 0 + en)
    if bit w 8 then d.updChan e i fun _ => .reset else d

/-- DMAE: ring fields only while the channel is not enabled. -/
def Dev.dmaeWr (d : Dev) (v : View) (e off : Nat) (w : Word) : Dev :=
  if off = 0x040 then dmaMaint v e (bit w.toNat 0) d
  else if off = 0x044 then (if bit w.toNat 0 then dmaRestart v e (bit w.toNat 1) d else d)
  else if 0x100 ≤ off ∧ off < 0x200 then
    let i := (off - 0x100) / 32
    let c : ChanId := ⟨⟨e % 32, Nat.mod_lt _ (by decide)⟩, ⟨i % 8, Nat.mod_lt _ (by decide)⟩⟩
    match off % 32 with
    | 0x00 | 0x04 => if bit (d.chCfg e i) 8 then d else d.wrReg v (pDmae e) off w
    | 0x08 => d.chCfgWr e i w.toNat
    | 0x0C => dmaTail v c w d
    | 0x18 => if bit w.toNat 0 then dmaSkipHead v c d else d
    | _ => d
  else d

/-- STRM: the context's registers only while it is still (R580); a slot's fields only while software owns it (R596). -/
def Dev.strmWr (d : Dev) (v : View) (k off : Nat) (w : Word) : Dev :=
  if 0x100 ≤ off ∧ off < 0x140 then
    let s := (off - 0x100) / 32
    let own := ((d.sctx k).slot s).own
    let ctl : Bool := off % 32 = 0x1C
    if own && !(ctl && bit w.toNat 0) then ((d.err v (pStrm k) 0x0102).strmCnt k 11 1).strmEvt k 2
    else if ctl then (if bit w.toNat 0 then Dev.armSlot v k s d else d)
    else d.wrReg v (pStrm k) off w
  else if (regRow .strm off).isNone then d
  else if d.stillBlk (pStrm k) then d.wrReg v (pStrm k) off w
  else d.err v (pStrm k) 0x0003

/-- PWRC: PWRC_DEV's auto_quiet stands in its word; its target is a request (R624–R626). -/
def Dev.pwrcWr (d : Dev) (v : View) (off : Nat) (w : Word) : Dev :=
  if off = 0x040 then ladderWrite v (bits w.toNat 1 0) (d.setReg pPwrc 0x040 (b2n (bit w.toNat 4) * 16))
  else d.wrReg v pPwrc off w

def Dev.isleWr (d : Dev) (v : View) (i off : Nat) (w : Word) : Dev :=
  if off = 0x044 then freqWrite v i w d
  else if off = 0x048 then stateReq v i (bits w.toNat 2 0) d
  else d.wrReg v (pIsle i) off w

/-- SECC: the firmware window, the security versions, and the key window. -/
def Dev.seccWr (d : Dev) (v : View) (off : Nat) (w : Word) : Dev :=
  match off with
  | 0x05C => let c := bits w.toNat 1 0; if c = 1 then fwLoad d else if c = 2 then fwSelect d else d
  | 0x064 => if bit w.toNat 0 then svnRaise true true d else d
  | 0x074 =>
    let c := bits w.toNat 1 0
    if c = 1 then keyInstall d else if c = 2 then keyClear d else if c = 3 then keyTransmit d else d
  | _ => match regNo off 0x080 4 8 with
    | some i => d.updSec fun s => { s with kData := s.kData.put 0#32 i w }
    | none => d.wrReg v pSecc off w

/-- A write to a block-specific register that the view may write. -/
def Dev.blkWr (d : Dev) (v : View) (p : Page) (off : Nat) (w : Word) : Dev :=
  match p.blk with
  | .part => d.partWr v off w
  | .core => d.coreWr v p.inst off w
  | .clst => d.clstWr v p.inst off w
  | .tier => d.tierWr v off w
  | .lend => d.lendWr v off w
  | .opte => if off = 0x048 ∧ bit w.toNat 0 then optSkip v p.inst d else d
  | .nwch => d.nwchWr v p.inst off w
  | .rede => d.redeWr v p.inst off w
  | .ethp => d.ethpWr v p.inst off w
  | .fabt => d.fabtWr v off w
  | .pcie => d.ringWr v 16 off w
  | .ring => d.ringWr v p.inst off w
  | .dmae => d.dmaeWr v p.inst off w
  | .strm => d.strmWr v p.inst off w
  | .pwrc => d.pwrcWr v off w
  | .isle => d.isleWr v p.inst off w
  | .errm => if off = 0x044 then (if bit w.toNat 0 then errmPop d else d) else d.wrReg v p off w
  | .secc => d.seccWr v off w
  | .side =>
    if off = 0x044 then (d.resumeSide .halt (bit w.toNat 0)).resumeSide .brake (bit w.toNat 1) else d
  | .flsh | .tokx | .deco => d.wrReg v p off w
  | .devc | .mvec | .hbmc | .mgmt => d

/-- A header register is written (R80–R91, R98, R115). RO, RC and RSV offsets take nothing. -/
def Dev.hdrWr (d : Dev) (v : View) (p : Page) (off : Nat) (w : Word) : Dev :=
  match off with
  | 0x008 => negWrite v p (bits w.toNat 31 24) (bits w.toNat 23 16) d
  | 0x010 => if bit w.toNat 2 then blockReset v p d else ctlWrite v p (bit w.toNat 0) (bit w.toNat 1) d
  | 0x018 => evtWrite v p w 0#32 0#16 d
  | 0x01C => d.updHdr v p fun h => { h with evtEn := w }
  | 0x028 => d.rwl v p off
  | _ => d

/-- A write at an offset of a page that the view has. -/
def Dev.pageWr (d : Dev) (v : View) (p : Page) (off : Nat) (w : Word) : Dev :=
  if off < 0x040 then d.hdrWr v p off w
  else d.through v p off fun d =>
    if 0xC00 ≤ off then d
    else match v with
      | .pf => d.blkWr .pf p off w
      | .vf n => if d.vfOpen n p off then d.blkWr v p off w else d.violR n p off

/-- A write of size bytes at an offset of a view's BAR0 (R64–R68). The manifest is a table without a page (R71): a
write to its area finds none. -/
def regWrite (v : View) (off size : Nat) (w : Word) (d : Dev) : Dev :=
  match d.pageAt v off with
  | some p => if size ≠ 4 ∨ off % 4 ≠ 0 then d.err v p 0x0005 else d.pageWr v p (off % 0x1000) w
  | none =>
    match v with
    | .pf => d.err .pf pDevc 0x0007
    | .vf n => d.violate n.val off
/-- REGISTER_WRITE (R18). -/
def execRegisterWrite (v : View) (offset size : Nat) (value : Word) (s : State) : Host.Outcome State Fault Refusal :=
  onDev (regWrite v offset size value) s

end Sys2Proof.Machine
end

