-- ==== Sys2Proof/Machine/Dispatch.lean ====
section
/-!
DEFINITION. What each command does: one arm for each constructor of Instr, in the order of spec/opcode_table.json.
-/

namespace Sys2Proof.Machine

def exec (i : Instr) (s : State) : Host.Outcome State Fault Refusal :=
  match i with
  | .registerWrite v offset size value => Sys2Proof.Machine.execRegisterWrite v offset size value s
  | .counterLowRead v p n => Sys2Proof.Machine.execCounterLowRead v p n s
  | .counter64Read v p n => Sys2Proof.Machine.execCounter64Read v p n s
  | .rcRead v p off inc => Sys2Proof.Machine.execRcRead v p off inc s
  | .partViolRead v => Sys2Proof.Machine.execPartViolRead v s
  | .tierFaultInfoRead v => Sys2Proof.Machine.execTierFaultInfoRead v s
  | .isleTimerLoRead v isle => Sys2Proof.Machine.execIsleTimerLoRead v isle s
  | .blkNegWrite v p major minor => Sys2Proof.Machine.execBlkNegWrite v p major minor s
  | .blkEvtWrite v p w arriving newErr => Sys2Proof.Machine.execBlkEvtWrite v p w arriving newErr s
  | .blockEnable v p quiesce => Sys2Proof.Machine.execBlockEnable v p quiesce s
  | .blockReady p => Sys2Proof.Machine.execBlockReady p s
  | .blockQuiesce v p => Sys2Proof.Machine.execBlockQuiesce v p s
  | .blockUnquiesce v p => Sys2Proof.Machine.execBlockUnquiesce v p s
  | .blockDisable v p => Sys2Proof.Machine.execBlockDisable v p s
  | .blockDrained p => Sys2Proof.Machine.execBlockDrained p s
  | .blockReset v p => Sys2Proof.Machine.execBlockReset v p s
  | .eventSummaryWrite v n w => Sys2Proof.Machine.execEventSummaryWrite v n w s
  | .commitStage sealBit abortBit => Sys2Proof.Machine.execCommitStage sealBit abortBit s
  | .stagedFieldWrite n value => Sys2Proof.Machine.execStagedFieldWrite n value s
  | .commitSeal stageBit abortBit => Sys2Proof.Machine.execCommitSeal stageBit abortBit s
  | .commitAbort stageBit sealBit => Sys2Proof.Machine.execCommitAbort stageBit sealBit s
  | .commitQuery tag => Sys2Proof.Machine.execCommitQuery tag s
  | .commitSign tag m ecdsa lms => Sys2Proof.Machine.execCommitSign tag m ecdsa lms s
  | .commitWindowExpire => Sys2Proof.Machine.execCommitWindowExpire s
  | .commitPoint => Sys2Proof.Machine.execCommitPoint s
  | .commitDrainIdle => Sys2Proof.Machine.execCommitDrainIdle s
  | .commitDrainGraceExpire => Sys2Proof.Machine.execCommitDrainGraceExpire s
  | .commitScrubDone => Sys2Proof.Machine.execCommitScrubDone s
  | .enroll tag ecKey lmsKey ecSig lmsSig => Sys2Proof.Machine.execEnroll tag ecKey lmsKey ecSig lmsSig s
  | .partReset e part => Sys2Proof.Machine.execPartReset e part s
  | .partitionResetDrainLimit p => Sys2Proof.Machine.execPartitionResetDrainLimit p s
  | .partitionResetDone p => Sys2Proof.Machine.execPartitionResetDone p s
  | .vfFlr n => Sys2Proof.Machine.execVfFlr n s
  | .vfEnableChange mask => Sys2Proof.Machine.execVfEnableChange mask s
  | .nop e => Sys2Proof.Machine.execNop e s
  | .endOp e => Sys2Proof.Machine.execEndOp e s
  | .load c => Sys2Proof.Machine.execLoad c s
  | .fetch c => Sys2Proof.Machine.execFetch c s
  | .store c => Sys2Proof.Machine.execStore c s
  | .submit c => Sys2Proof.Machine.execSubmit c s
  | .post c => Sys2Proof.Machine.execPost c s
  | .matmul c => Sys2Proof.Machine.execMatmul c s
  | .add c => Sys2Proof.Machine.execAdd c s
  | .sub c => Sys2Proof.Machine.execSub c s
  | .mul c => Sys2Proof.Machine.execMul c s
  | .fma c => Sys2Proof.Machine.execFma c s
  | .neg c => Sys2Proof.Machine.execNeg c s
  | .abs c => Sys2Proof.Machine.execAbs c s
  | .min c => Sys2Proof.Machine.execMin c s
  | .max c => Sys2Proof.Machine.execMax c s
  | .cmpEq c => Sys2Proof.Machine.execCmpEq c s
  | .cmpLt c => Sys2Proof.Machine.execCmpLt c s
  | .cmpLe c => Sys2Proof.Machine.execCmpLe c s
  | .cvt c => Sys2Proof.Machine.execCvt c s
  | .fill c => Sys2Proof.Machine.execFill c s
  | .rcp c => Sys2Proof.Machine.execRcp c s
  | .div c => Sys2Proof.Machine.execDiv c s
  | .sqrt c => Sys2Proof.Machine.execSqrt c s
  | .rsqrt c => Sys2Proof.Machine.execRsqrt c s
  | .exp c => Sys2Proof.Machine.execExp c s
  | .exp2 c => Sys2Proof.Machine.execExp2 c s
  | .tanh c => Sys2Proof.Machine.execTanh c s
  | .sigmoid c => Sys2Proof.Machine.execSigmoid c s
  | .gelu c => Sys2Proof.Machine.execGelu c s
  | .log c => Sys2Proof.Machine.execLog c s
  | .log2 c => Sys2Proof.Machine.execLog2 c s
  | .rowsum c => Sys2Proof.Machine.execRowsum c s
  | .rowmax c => Sys2Proof.Machine.execRowmax c s
  | .rowmin c => Sys2Proof.Machine.execRowmin c s
  | .matmulDone c => Sys2Proof.Machine.execMatmulDone c s
  | .vectorOpDone c => Sys2Proof.Machine.execVectorOpDone c s
  | .loadDataArrive c n => Sys2Proof.Machine.execLoadDataArrive c n s
  | .storeDone c => Sys2Proof.Machine.execStoreDone c s
  | .submitDelivered c => Sys2Proof.Machine.execSubmitDelivered c s
  | .postCompletionWritten c => Sys2Proof.Machine.execPostCompletionWritten c s
  | .signalArrive n => Sys2Proof.Machine.execSignalArrive n s
  | .engineSkipHead v e => Sys2Proof.Machine.execEngineSkipHead v e s
  | .engineRestart v e => Sys2Proof.Machine.execEngineRestart v e s
  | .eventCounterWrite v c scope n value => Sys2Proof.Machine.execEventCounterWrite v c scope n value s
  | .matvec d => Sys2Proof.Machine.execMatvec d s
  | .matvecDone d => Sys2Proof.Machine.execMatvecDone d s
  | .launch r e clusters flags table => Sys2Proof.Machine.execLaunch r e clusters flags table s
  | .park r e slot clusters => Sys2Proof.Machine.execPark r e slot clusters s
  | .parkQuiesced r => Sys2Proof.Machine.execParkQuiesced r s
  | .resume r e slot => Sys2Proof.Machine.execResume r e slot s
  | .switch r e parkSlot resumeSlot => Sys2Proof.Machine.execSwitch r e parkSlot resumeSlot s
  | .importShelf r e slot addr => Sys2Proof.Machine.execImportShelf r e slot addr s
  | .exportShard r e record holding dst cap => Sys2Proof.Machine.execExportShard r e record holding dst cap s
  | .importShard r e src len target => Sys2Proof.Machine.execImportShard r e src len target s
  | .treeStart r e record => Sys2Proof.Machine.execTreeStart r e record s
  | .sqTailDoorbell v fn ring value => Sys2Proof.Machine.execSqTailDoorbell v fn ring value s
  | .sqReadBusError fn ring => Sys2Proof.Machine.execSqReadBusError fn ring s
  | .sqRingEnable v fn ring value => Sys2Proof.Machine.execSqRingEnable v fn ring value s
  | .cqHeadDoorbell v fn value => Sys2Proof.Machine.execCqHeadDoorbell v fn value s
  | .cqWriteBusError fn => Sys2Proof.Machine.execCqWriteBusError fn s
  | .dmaTailDoorbell v c value => Sys2Proof.Machine.execDmaTailDoorbell v c value s
  | .dmaDescriptorStart c => Sys2Proof.Machine.execDmaDescriptorStart c s
  | .dmaDescriptorDone c data poisoned => Sys2Proof.Machine.execDmaDescriptorDone c data poisoned s
  | .dmaBusError c toHost cause addr => Sys2Proof.Machine.execDmaBusError c toHost cause addr s
  | .dmaSkip v c => Sys2Proof.Machine.execDmaSkip v c s
  | .dmaRestartReplay v e => Sys2Proof.Machine.execDmaRestartReplay v e s
  | .dmaRestartFlush v e => Sys2Proof.Machine.execDmaRestartFlush v e s
  | .dmaMaintWrite v e on => Sys2Proof.Machine.execDmaMaintWrite v e on s
  | .map v => Sys2Proof.Machine.execMap v s
  | .unmap v => Sys2Proof.Machine.execUnmap v s
  | .flush v => Sys2Proof.Machine.execFlush v s
  | .invalidate v => Sys2Proof.Machine.execInvalidate v s
  | .probe v => Sys2Proof.Machine.execProbe v s
  | .mapCommandDone => Sys2Proof.Machine.execMapCommandDone s
  | .flushDone => Sys2Proof.Machine.execFlushDone s
  | .chunkFillDone p va data failed lost => Sys2Proof.Machine.execChunkFillDone p va data failed lost s
  | .writeBackDone p va => Sys2Proof.Machine.execWriteBackDone p va s
  | .writeBackFail p va => Sys2Proof.Machine.execWriteBackFail p va s
  | .writeBackRetry p va => Sys2Proof.Machine.execWriteBackRetry p va s
  | .tierCacheWrite v value => Sys2Proof.Machine.execTierCacheWrite v value s
  | .pilotEnable v value => Sys2Proof.Machine.execPilotEnable v value s
  | .pilotPass p => Sys2Proof.Machine.execPilotPass p s
  | .pilotStagingDone p n => Sys2Proof.Machine.execPilotStagingDone p n s
  | .lendPchsWrite v stack value => Sys2Proof.Machine.execLendPchsWrite v stack value s
  | .leaseReq m => Sys2Proof.Machine.execLeaseReq m s
  | .leaseReqTimeout p => Sys2Proof.Machine.execLeaseReqTimeout p s
  | .leaseGrant m => Sys2Proof.Machine.execLeaseGrant m s
  | .reclaim m => Sys2Proof.Machine.execReclaim m s
  | .t3PageRelocated p va data => Sys2Proof.Machine.execT3PageRelocated p va data s
  | .release m => Sys2Proof.Machine.execRelease m s
  | .reclaimDeadline lease => Sys2Proof.Machine.execReclaimDeadline lease s
  | .revoked m => Sys2Proof.Machine.execRevoked m s
  | .powerLossSequence => Sys2Proof.Machine.execPowerLossSequence s
  | .powerLossSequenceDone => Sys2Proof.Machine.execPowerLossSequenceDone s
  | .inputRecover => Sys2Proof.Machine.execInputRecover s
  | .flashMountDone ok replayed => Sys2Proof.Machine.execFlashMountDone ok replayed s
  | .flashRebuild e sound => Sys2Proof.Machine.execFlashRebuild e sound s
  | .writeBudgetRefill => Sys2Proof.Machine.execWriteBudgetRefill s
  | .wearLevelling chunks spread => Sys2Proof.Machine.execWearLevelling chunks spread s
  | .readDisturbRefresh chunks => Sys2Proof.Machine.execReadDisturbRefresh chunks s
  | .badBlockRetire chunks unrecovered => Sys2Proof.Machine.execBadBlockRetire chunks unrecovered s
  | .garbageCollection chunks => Sys2Proof.Machine.execGarbageCollection chunks s
  | .optUpdate c => Sys2Proof.Machine.execOptUpdate c s
  | .optLate c => Sys2Proof.Machine.execOptLate c s
  | .optDigcmp c => Sys2Proof.Machine.execOptDigcmp c s
  | .optUpdateDone c => Sys2Proof.Machine.execOptUpdateDone c s
  | .opteSkipHead v c => Sys2Proof.Machine.execOpteSkipHead v c s
  | .scaleReport c n => Sys2Proof.Machine.execScaleReport c n s
  | .conversionPass c n => Sys2Proof.Machine.execConversionPass c n s
  | .scaleRoll c entry => Sys2Proof.Machine.execScaleRoll c entry s
  | .hwRecomputeDone c => Sys2Proof.Machine.execHwRecomputeDone c s
  | .scRead v c => Sys2Proof.Machine.execScRead v c s
  | .scWrite v c => Sys2Proof.Machine.execScWrite v c s
  | .scSettle v c => Sys2Proof.Machine.execScSettle v c s
  | .scFree v c => Sys2Proof.Machine.execScFree v c s
  | .scCalibrate v c => Sys2Proof.Machine.execScCalibrate v c s
  | .scOp c => Sys2Proof.Machine.execScOp c s
  | .nwchSkipHead v c => Sys2Proof.Machine.execNwchSkipHead v c s
  | .redChain c => Sys2Proof.Machine.execRedChain c s
  | .redGather c => Sys2Proof.Machine.execRedGather c s
  | .pipeSend c => Sys2Proof.Machine.execPipeSend c s
  | .pipeFree c => Sys2Proof.Machine.execPipeFree c s
  | .tokRoute c => Sys2Proof.Machine.execTokRoute c s
  | .tokReturn c => Sys2Proof.Machine.execTokReturn c s
  | .tokCombine c => Sys2Proof.Machine.execTokCombine c s
  | .runningSum c m => Sys2Proof.Machine.execRunningSum c m s
  | .finishedBytes c m => Sys2Proof.Machine.execFinishedBytes c m s
  | .gatherBytes c m => Sys2Proof.Machine.execGatherBytes c m s
  | .pipeData c record m => Sys2Proof.Machine.execPipeData c record m s
  | .pipeCredit c record m => Sys2Proof.Machine.execPipeCredit c record m s
  | .tokenRows d p m => Sys2Proof.Machine.execTokenRows d p m s
  | .tokenReturn c m => Sys2Proof.Machine.execTokenReturn c m s
  | .redeNoProgressTimeout c q => Sys2Proof.Machine.execRedeNoProgressTimeout c q s
  | .slotTagTimeout d p slot tag => Sys2Proof.Machine.execSlotTagTimeout d p slot tag s
  | .redeSkipHead v c q => Sys2Proof.Machine.execRedeSkipHead v c q s
  | .frameReceive sub f => Sys2Proof.Machine.execFrameReceive sub f s
  | .pfcRefresh sub pri => Sys2Proof.Machine.execPfcRefresh sub pri s
  | .pfcFrame sub vec times => Sys2Proof.Machine.execPfcFrame sub vec times s
  | .pfcPauseExpire sub pri => Sys2Proof.Machine.execPfcPauseExpire sub pri s
  | .frameTransmit sub => Sys2Proof.Machine.execFrameTransmit sub s
  | .linkUp sub => Sys2Proof.Machine.execLinkUp sub s
  | .linkDown sub => Sys2Proof.Machine.execLinkDown sub s
  | .ethpModeWrite v port value => Sys2Proof.Machine.execEthpModeWrite v port value s
  | .qpEnable v port q value => Sys2Proof.Machine.execQpEnable v port q value s
  | .ebbCtlWrite v port value => Sys2Proof.Machine.execEbbCtlWrite v port value s
  | .capSend sub => Sys2Proof.Machine.execCapSend sub s
  | .cap sub m => Sys2Proof.Machine.execCap sub m s
  | .ebbWindow sub => Sys2Proof.Machine.execEbbWindow sub s
  | .shedReq sub m => Sys2Proof.Machine.execShedReq sub m s
  | .shedReqResend sub => Sys2Proof.Machine.execShedReqResend sub s
  | .shedAck sub m => Sys2Proof.Machine.execShedAck sub m s
  | .shedNak sub m => Sys2Proof.Machine.execShedNak sub m s
  | .ebbRateWindow sub => Sys2Proof.Machine.execEbbRateWindow sub s
  | .wake sub m => Sys2Proof.Machine.execWake sub m s
  | .wakeAck sub m => Sys2Proof.Machine.execWakeAck sub m s
  | .wakeResend sub => Sys2Proof.Machine.execWakeResend sub s
  | .ebbAligned sub => Sys2Proof.Machine.execEbbAligned sub s
  | .ebbAlignTimeout sub => Sys2Proof.Machine.execEbbAlignTimeout sub s
  | .data k => Sys2Proof.Machine.execData k s
  | .ctrl k => Sys2Proof.Machine.execCtrl k s
  | .ack k => Sys2Proof.Machine.execAck k s
  | .keepalive k => Sys2Proof.Machine.execKeepalive k s
  | .hello k => Sys2Proof.Machine.execHello k s
  | .helloAck k => Sys2Proof.Machine.execHelloAck k s
  | .fenced k => Sys2Proof.Machine.execFenced k s
  | .helloResend link => Sys2Proof.Machine.execHelloResend link s
  | .ackDelayExpire dev flow => Sys2Proof.Machine.execAckDelayExpire dev flow s
  | .retransmitTimeout dev flow => Sys2Proof.Machine.execRetransmitTimeout dev flow s
  | .rateWindow => Sys2Proof.Machine.execRateWindow s
  | .keepaliveSend link => Sys2Proof.Machine.execKeepaliveSend link s
  | .keepaliveCheck => Sys2Proof.Machine.execKeepaliveCheck s
  | .fabtSelfWrite v value => Sys2Proof.Machine.execFabtSelfWrite v value s
  | .fabtEpochWrite v value => Sys2Proof.Machine.execFabtEpochWrite v value s
  | .fabtTblRead v => Sys2Proof.Machine.execFabtTblRead v s
  | .fabtTblWrite v => Sys2Proof.Machine.execFabtTblWrite v s
  | .tack m => Sys2Proof.Machine.execTack m s
  | .peeled m => Sys2Proof.Machine.execPeeled m s
  | .graft m => Sys2Proof.Machine.execGraft m s
  | .treeRound p tag => Sys2Proof.Machine.execTreeRound p tag s
  | .streamPacket ctx bytes => Sys2Proof.Machine.execStreamPacket ctx bytes s
  | .assemblyTimeout ctx => Sys2Proof.Machine.execAssemblyTimeout ctx s
  | .decodeStart deco => Sys2Proof.Machine.execDecodeStart deco s
  | .decodeDone deco => Sys2Proof.Machine.execDecodeDone deco s
  | .slotArm v ctx slot => Sys2Proof.Machine.execSlotArm v ctx slot s
  | .batchTimeout ctx => Sys2Proof.Machine.execBatchTimeout ctx s
  | .isleStateReq v isle req => Sys2Proof.Machine.execIsleStateReq v isle req s
  | .islandDescentStart isle => Sys2Proof.Machine.execIslandDescentStart isle s
  | .islandDescentDone isle => Sys2Proof.Machine.execIslandDescentDone isle s
  | .islandAutoIdle isle => Sys2Proof.Machine.execIslandAutoIdle isle s
  | .islandExitDone isle => Sys2Proof.Machine.execIslandExitDone isle s
  | .sramSaveDone isle => Sys2Proof.Machine.execSramSaveDone isle s
  | .sramRestoreDone isle => Sys2Proof.Machine.execSramRestoreDone isle s
  | .isleFreqWrite v isle value => Sys2Proof.Machine.execIsleFreqWrite v isle value s
  | .freqChangeApply isle => Sys2Proof.Machine.execFreqChangeApply isle s
  | .governorUpdate powerMw volt amp => Sys2Proof.Machine.execGovernorUpdate powerMw volt amp s
  | .capWindow avgMw => Sys2Proof.Machine.execCapWindow avgMw s
  | .thermalReading t0 t1 t2 t3 => Sys2Proof.Machine.execThermalReading t0 t1 t2 t3 s
  | .undervoltage => Sys2Proof.Machine.execUndervoltage s
  | .undervoltageRelease => Sys2Proof.Machine.execUndervoltageRelease s
  | .overvoltage => Sys2Proof.Machine.execOvervoltage s
  | .overvoltageRecover => Sys2Proof.Machine.execOvervoltageRecover s
  | .deviceRun v => Sys2Proof.Machine.execDeviceRun v s
  | .deviceQuiet v => Sys2Proof.Machine.execDeviceQuiet v s
  | .deviceStandby v => Sys2Proof.Machine.execDeviceStandby v s
  | .deviceDormant v => Sys2Proof.Machine.execDeviceDormant v s
  | .autoQuiet => Sys2Proof.Machine.execAutoQuiet s
  | .deviceWake => Sys2Proof.Machine.execDeviceWake s
  | .power tag target => Sys2Proof.Machine.execPower tag target s
  | .errorDetect code src akind addr => Sys2Proof.Machine.execErrorDetect code src akind addr s
  | .sramScrubPass inst corrected bad => Sys2Proof.Machine.execSramScrubPass inst corrected bad s
  | .hbmScrubPass stack corrected bad => Sys2Proof.Machine.execHbmScrubPass stack corrected bad s
  | .errmPop v => Sys2Proof.Machine.execErrmPop v s
  | .coreProbe c slot answered => Sys2Proof.Machine.execCoreProbe c slot answered s
  | .deadSlotRevive c slot => Sys2Proof.Machine.execDeadSlotRevive c slot s
  | .slotReturn v c slot => Sys2Proof.Machine.execSlotReturn v c slot s
  | .slotTestDone c slot pass => Sys2Proof.Machine.execSlotTestDone c slot pass s
  | .slotRetire v c slot => Sys2Proof.Machine.execSlotRetire v c slot s
  | .clusterReinstate v c => Sys2Proof.Machine.execClusterReinstate v c s
  | .haltNAssert chatter => Sys2Proof.Machine.execHaltNAssert chatter s
  | .pwrbrakeNAssert chatter => Sys2Proof.Machine.execPwrbrakeNAssert chatter s
  | .sidebandDeassert n => Sys2Proof.Machine.execSidebandDeassert n s
  | .sidebandGlitch n => Sys2Proof.Machine.execSidebandGlitch n s
  | .sidebandHeld10s n => Sys2Proof.Machine.execSidebandHeld10s n s
  | .sideResume v halt brake => Sys2Proof.Machine.execSideResume v halt brake s
  | .fwLoad v => Sys2Proof.Machine.execFwLoad v s
  | .fwLoadDone bundle busError => Sys2Proof.Machine.execFwLoadDone bundle busError s
  | .fwSelect v => Sys2Proof.Machine.execFwSelect v s
  | .svnCommit v => Sys2Proof.Machine.execSvnCommit v s
  | .svnAutoCommit => Sys2Proof.Machine.execSvnAutoCommit s
  | .keyInstall v => Sys2Proof.Machine.execKeyInstall v s
  | .keyClear v => Sys2Proof.Machine.execKeyClear v s
  | .keySetTransmit v => Sys2Proof.Machine.execKeySetTransmit v s
  | .getVersion via req => Sys2Proof.Machine.execGetVersion via req s
  | .getCapabilities via req => Sys2Proof.Machine.execGetCapabilities via req s
  | .negotiateAlgorithms via req => Sys2Proof.Machine.execNegotiateAlgorithms via req s
  | .getDigests via req => Sys2Proof.Machine.execGetDigests via req s
  | .getCertificate via slot offset len => Sys2Proof.Machine.execGetCertificate via slot offset len s
  | .challenge via req => Sys2Proof.Machine.execChallenge via req s
  | .getMeasurements via index req => Sys2Proof.Machine.execGetMeasurements via index req s
  | .chunkGet via handle seq => Sys2Proof.Machine.execChunkGet via handle seq s
  | .respondIfReady via req => Sys2Proof.Machine.execRespondIfReady via req s
  | .spdmUnsupportedRequest via code => Sys2Proof.Machine.execSpdmUnsupportedRequest via code s
  | .managementUnknownRequest tag code => Sys2Proof.Machine.execManagementUnknownRequest tag code s
  | .setEndpointId tag eid => Sys2Proof.Machine.execSetEndpointId tag eid s
  | .getEndpointId tag => Sys2Proof.Machine.execGetEndpointId tag s
  | .getMctpVersionSupport tag msgType => Sys2Proof.Machine.execGetMctpVersionSupport tag msgType s
  | .getMessageTypeSupport tag => Sys2Proof.Machine.execGetMessageTypeSupport tag s
  | .getVendorDefinedMsgSupport tag selector => Sys2Proof.Machine.execGetVendorDefinedMsgSupport tag selector s
  | .entdaa addr => Sys2Proof.Machine.execEntdaa addr s
  | .setdasa static addr => Sys2Proof.Machine.execSetdasa static addr s
  | .auxPowerUp provN srisN perst => Sys2Proof.Machine.execAuxPowerUp provN srisN perst s
  | .mainInputInRange => Sys2Proof.Machine.execMainInputInRange s
  | .startupStepDone ok detail badSlots => Sys2Proof.Machine.execStartupStepDone ok detail badSlots s
  | .perstAssert => Sys2Proof.Machine.execPerstAssert s
  | .perstDeassert => Sys2Proof.Machine.execPerstDeassert s
  | .hotReset => Sys2Proof.Machine.execHotReset s
  | .pfFlr => Sys2Proof.Machine.execPfFlr s
  | .deviceReset e flags => Sys2Proof.Machine.execDeviceReset e flags s
  | .recoverLoad e table entries slot bundle busError pagesAligned => Sys2Proof.Machine.execRecoverLoad e table entries slot bundle busError pagesAligned s
  | .status e => Sys2Proof.Machine.execStatus e s
  | .recovery tag => Sys2Proof.Machine.execRecovery tag s
  | .auxPowerLoss => Sys2Proof.Machine.execAuxPowerLoss s
  | .pcieLinkDown => Sys2Proof.Machine.execPcieLinkDown s
  | .pcieLinkRetrain rate flit width => Sys2Proof.Machine.execPcieLinkRetrain rate flit width s
  | .msixVectorUnmask fn vec => Sys2Proof.Machine.execMsixVectorUnmask fn vec s
  | .atsInvalidateRequest fn addr len => Sys2Proof.Machine.execAtsInvalidateRequest fn addr len s
  | .provNChange level => Sys2Proof.Machine.execProvNChange level s
  | .elvuoCapableExpire sub => Sys2Proof.Machine.execElvuoCapableExpire sub s
  | .treeData m bytes => Sys2Proof.Machine.execTreeData m bytes s
  | .deviceStateChangeDone => Sys2Proof.Machine.execDeviceStateChangeDone s

end Sys2Proof.Machine
end

