-- ==== Sys2Proof/Machine/Tick.lean ====
section
/-!
DEFINITION. What a step does on an empty queue: 10 ns pass, and every local timer that counts moves on (R47–R51).
-/

namespace Sys2Proof.Machine

/-- A timer's reading after n nominal ticks: free, within 0.5 % of nominal, and never behind its last reading (R48). -/
def timerAfter (isle last n : Nat) : Nat :=
  let lo := n * 995 / 1000
  let hi := cdiv (n * 1005) 1000
  Nat.max last (Nat.min hi (Nat.max lo (Config.timerRate isle n)))

/-- The island numbers of R42. -/
def isleNumbers : List Nat := (List.range 0x13C).filter fun i => (isleKind i).isSome

/-- One nominal tick of an island: a Cold island's timer stands still (R49); the I/O die's always counts (R51). -/
def tickIsle (d : Dev) (i : Nat) : Dev :=
  d.updIsle i fun x =>
    if x.state = .cold ∧ i ≠ ioIsle then x
    else { x with ticks := x.ticks + 1, timer := timerAfter i x.timer (x.ticks + 1) }

/-- 10 ns pass. -/
def Dev.tick (d : Dev) : Dev := isleNumbers.foldl tickIsle d

end Sys2Proof.Machine
end

