-- ==== Sys2Proof/Machine/Comp.lean ====
section
/-!
DEFINITION. The components of the device, and what it means that a command changes only some of them.
-/

namespace Sys2Proof.Safety

open Sys2Proof.Machine

/-- The components of the device that a command can change or leave. -/
inductive Comp where
  /-- states of the register pages -/
  | st
  /-- page headers: events, first error, version in force -/
  | hdr
  /-- counters of the pages -/
  | ctr
  /-- snapshots of counters -/
  | snap
  /-- plain registers -/
  | regs
  /-- generations of the pages -/
  | gen
  /-- partition tables, dual commit, partition states, violations -/
  | parts
  /-- the protected store -/
  | store
  /-- event summary and MSI-X state -/
  | irq
  /-- the bytes of all memory -/
  | mem
  /-- poisoned granules -/
  | poison
  /-- power islands and their timers -/
  | isles
  /-- cores -/
  | cores
  /-- event counters -/
  | evc
  /-- signals under way -/
  | sigs
  /-- clusters' slots and shelf enables -/
  | clus
  /-- MATVEC units -/
  | mvec
  /-- number watch -/
  | nwch
  /-- optimizer engines -/
  | opte
  /-- reduction engines -/
  | rede
  /-- token exchange -/
  | tokx
  /-- shelf images -/
  | shelves
  /-- tiers, frames, leases -/
  | tier
  /-- flash -/
  | flash
  /-- submission and completion rings -/
  | rings
  /-- DMA engines -/
  | dmae
  /-- Ethernet ports -/
  | eth
  /-- fabric transport -/
  | fab
  /-- stream contexts and decoders -/
  | strm
  /-- power and governor -/
  | pwr
  /-- error queue -/
  | errm
  /-- the HALT_N input -/
  | halt
  /-- the PWRBRAKE_N input -/
  | brake
  /-- security controller -/
  | sec
  /-- start-up, resets, links -/
  | boot
  /-- what has left the device -/
  | out
  /-- the counter of free values -/
  | free
  deriving DecidableEq, Repr

/-- The two devices hold the same in a component. -/
def Comp.same (a b : Dev) : Comp → Prop
  | .st => b.pg.st = a.pg.st
  | .hdr => b.pg.hdr = a.pg.hdr
  | .ctr => b.pg.ctr = a.pg.ctr
  | .snap => b.pg.snap = a.pg.snap
  | .regs => b.pg.regs = a.pg.regs
  | .gen => b.pg.gen = a.pg.gen
  | .parts => b.parts = a.parts
  | .store => b.store = a.store
  | .irq => b.irq = a.irq
  | .mem => b.mem = a.mem
  | .poison => b.poison = a.poison
  | .isles => b.isles = a.isles
  | .cores => b.cores = a.cores
  | .evc => b.evc = a.evc
  | .sigs => b.sigs = a.sigs
  | .clus => b.clus = a.clus
  | .mvec => b.mvec = a.mvec
  | .nwch => b.nwch = a.nwch
  | .opte => b.opte = a.opte
  | .rede => b.rede = a.rede
  | .tokx => b.tokx = a.tokx
  | .shelves => b.shelves = a.shelves
  | .tier => b.tier = a.tier
  | .flash => b.flash = a.flash
  | .rings => b.rings = a.rings
  | .dmae => b.dmae = a.dmae
  | .eth => b.eth = a.eth
  | .fab => b.fab = a.fab
  | .strm => b.strm = a.strm
  | .pwr => b.pwr = a.pwr
  | .errm => b.errm = a.errm
  | .halt => b.halt = a.halt
  | .brake => b.brake = a.brake
  | .sec => b.sec = a.sec
  | .boot => b.boot = a.boot
  | .out => b.out = a.out
  | .free => b.free = a.free

/-- Device b is device a but for the components listed. -/
def changesOnly (l : List Comp) (a b : Dev) : Prop := ∀ x, x ∉ l → x.same a b

end Sys2Proof.Safety
end

