-- ==== Sys2Proof/Safety.lean ====
section
/-!
DEFINITION. What counts as a safe run, and the words that statements use: a command completes, invariants.
-/

namespace Sys2Proof.Safety

open Sys2Proof.Machine

/-- A step goes on. -/
def goesOn (s : State) : Prop := ∃ t, step s = .next t

/-- The queue of waiting commands holds well-formed commands only. -/
def queueWf (s : State) : Prop := ∀ c, c ∈ s.pending → c.wf = true

/-- The module's memory has its canonical form. -/
def memoryWf (s : State) : Prop := memWf s.dev.mem = true

/-- A page of a view with an enabled event pending has its summary bit set (R546). -/
def summarised (d : Dev) : Prop :=
  ∀ v p, (v, p) ∈ d.pendingEvents → d.reaches v p = true → ∀ i, d.entryOf v p = some i →
    d.irq.summary.contains (v.key * 2048 + i % 2048) = true

/-- A command completes: from state s it answers a next state with the same queue, whose device satisfies P. -/
def completes (c : Instr) (s : State) (P : Dev → Prop) : Prop :=
  ∃ t, exec c s = .next t ∧ t.pending = s.pending ∧ P t.dev

/-- A command whose whole effect is the device d, followed by the event summary that closes every command (R546). -/
def becomes (c : Instr) (s : State) (d : Dev) : Prop := exec c s = .next { s with dev := d.finish }

/-- A view has a page, and a version of it is in force there: block-specific registers take accesses (R66, R67, R97). -/
def opens (d : Dev) (v : View) (p : Page) : Prop :=
  p.valid = true ∧ d.reaches v p = true ∧ (d.hdrOf v p).neg.isSome = true

/-! ### Frames -/

/-- The components that a command may change; it leaves every other one as it was. -/
def touches : Instr → List Comp
  | .registerWrite .. =>
    [.st, .hdr, .ctr, .snap, .regs, .gen, .parts, .irq, .mem, .poison, .isles, .cores, .evc, .sigs, .clus, .mvec,
     .nwch, .opte, .rede, .tokx, .tier, .flash, .rings, .dmae, .eth, .fab, .strm, .pwr, .errm, .halt, .brake, .sec,
     .out, .free]
  | .counterLowRead .. =>
    [.hdr, .ctr, .snap, .irq, .out]
  | .counter64Read .. =>
    [.hdr, .ctr, .irq, .out]
  | .rcRead .. | .partViolRead .. | .tierFaultInfoRead .. =>
    [.hdr, .ctr, .snap, .regs, .parts, .irq, .nwch, .tier, .pwr, .out, .free]
  | .isleTimerLoRead .. =>
    [.hdr, .ctr, .regs, .irq, .out]
  | .blkNegWrite .. | .blkEvtWrite .. | .eventSummaryWrite .. | .commitStage .. | .stagedFieldWrite ..
  | .commitSeal .. | .commitAbort .. =>
    [.hdr, .ctr, .parts, .irq, .out]
  | .blockEnable .. | .blockQuiesce .. | .blockUnquiesce .. | .blockDisable .. =>
    [.st, .hdr, .ctr, .parts, .irq, .mem, .poison, .cores, .sigs, .nwch, .opte, .tier, .fab, .strm, .out, .free]
  | .blockReady .. =>
    [.st, .hdr, .ctr, .irq, .eth, .fab, .strm, .out]
  | .blockDrained .. =>
    [.st, .hdr, .ctr, .irq, .fab, .out]
  | .blockReset .. =>
    [.st, .hdr, .ctr, .snap, .regs, .parts, .irq, .mem, .poison, .isles, .cores, .evc, .sigs, .clus, .mvec, .nwch,
     .opte, .rede, .tokx, .tier, .rings, .dmae, .eth, .fab, .strm, .pwr, .errm, .sec, .out]
  | .commitQuery .. | .readDisturbRefresh .. | .garbageCollection .. | .sidebandGlitch ..
  | .managementUnknownRequest .. | .getEndpointId .. | .getMctpVersionSupport .. | .getMessageTypeSupport ..
  | .getVendorDefinedMsgSupport .. | .msixVectorUnmask .. | .atsInvalidateRequest .. =>
    [.ctr, .irq, .out]
  | .commitSign .. =>
    [.hdr, .ctr, .parts, .irq, .boot, .out]
  | .commitWindowExpire | .isleStateReq .. | .isleFreqWrite .. =>
    [.hdr, .ctr, .parts, .irq, .isles, .out]
  | .commitPoint =>
    [.st, .hdr, .ctr, .parts, .store, .irq, .mem, .poison, .cores, .sigs, .nwch, .opte, .tier, .eth, .fab, .strm,
     .out, .free]
  | .commitDrainIdle =>
    [.st, .hdr, .ctr, .parts, .irq, .out]
  | .commitDrainGraceExpire =>
    [.st, .hdr, .ctr, .parts, .irq, .mem, .poison, .isles, .cores, .sigs, .mvec, .nwch, .opte, .rede, .tier, .dmae,
     .eth, .fab, .strm, .out, .free]
  | .commitScrubDone =>
    [.st, .hdr, .ctr, .snap, .regs, .gen, .parts, .store, .irq, .mem, .poison, .isles, .cores, .evc, .sigs, .clus,
     .mvec, .nwch, .opte, .rede, .tokx, .shelves, .tier, .flash, .rings, .dmae, .eth, .fab, .strm, .pwr, .errm, .sec,
     .boot, .out]
  | .enroll .. =>
    [.ctr, .store, .irq, .out]
  | .partReset .. | .vfFlr .. =>
    [.st, .hdr, .ctr, .parts, .irq, .mem, .poison, .cores, .sigs, .nwch, .opte, .tier, .rings, .strm, .out, .free]
  | .partitionResetDrainLimit .. =>
    [.st, .hdr, .ctr, .parts, .irq, .mem, .poison, .isles, .cores, .sigs, .mvec, .nwch, .opte, .rede, .tier, .dmae,
     .strm, .out, .free]
  | .partitionResetDone .. =>
    [.st, .hdr, .ctr, .regs, .parts, .irq, .mem, .poison, .isles, .cores, .evc, .sigs, .clus, .mvec, .nwch, .opte,
     .rede, .tokx, .shelves, .tier, .rings, .dmae, .eth, .fab, .strm, .errm, .out]
  | .vfEnableChange .. =>
    [.ctr, .parts, .irq, .out]
  | .nop .. | .endOp .. | .load .. | .fetch .. | .post .. =>
    [.hdr, .ctr, .irq, .mem, .poison, .isles, .cores, .sigs, .nwch, .out, .free]
  | .store .. | .submit .. | .matmul .. | .add .. | .sub .. | .mul .. | .fma .. | .neg .. | .abs .. | .min ..
  | .max .. | .cmpEq .. | .cmpLt .. | .cmpLe .. | .cvt .. | .fill .. | .rcp .. | .div .. | .sqrt .. | .rsqrt ..
  | .exp .. | .exp2 .. | .tanh .. | .sigmoid .. | .gelu .. | .log .. | .log2 .. | .rowsum .. | .rowmax ..
  | .rowmin .. =>
    [.hdr, .ctr, .irq, .mem, .poison, .isles, .cores, .sigs, .nwch, .errm, .out, .free]
  | .matmulDone .. | .conversionPass .. =>
    [.hdr, .ctr, .irq, .mem, .poison, .isles, .cores, .sigs, .nwch, .out]
  | .vectorOpDone .. =>
    [.hdr, .ctr, .irq, .mem, .poison, .cores, .sigs, .nwch, .out]
  | .loadDataArrive .. =>
    [.hdr, .ctr, .irq, .mem, .poison, .isles, .cores, .sigs, .tier, .errm, .out, .free]
  | .storeDone .. | .pipeData .. | .pipeCredit .. =>
    [.hdr, .ctr, .irq, .mem, .poison, .isles, .cores, .sigs, .tier, .out]
  | .submitDelivered .. =>
    [.ctr, .irq, .isles, .cores, .sigs, .mvec, .nwch, .opte, .rede, .out]
  | .postCompletionWritten .. =>
    [.hdr, .ctr, .irq, .cores, .sigs, .rings, .out]
  | .signalArrive .. =>
    [.hdr, .ctr, .irq, .isles, .evc, .sigs, .out]
  | .engineSkipHead .. | .engineRestart .. =>
    [.hdr, .ctr, .parts, .irq, .cores, .out]
  | .eventCounterWrite .. =>
    [.hdr, .ctr, .parts, .irq, .evc, .out]
  | .matvec .. =>
    [.hdr, .ctr, .irq, .isles, .mvec, .errm, .out, .free]
  | .matvecDone .. =>
    [.hdr, .ctr, .irq, .mem, .poison, .cores, .sigs, .mvec, .nwch, .out]
  | .launch .. =>
    [.st, .hdr, .ctr, .irq, .mem, .poison, .isles, .cores, .evc, .clus, .tier, .rings, .out]
  | .park .. =>
    [.st, .hdr, .ctr, .irq, .mem, .poison, .cores, .sigs, .clus, .nwch, .opte, .tier, .rings, .strm, .out, .free]
  | .parkQuiesced .. =>
    [.st, .hdr, .ctr, .irq, .mem, .poison, .isles, .cores, .evc, .clus, .nwch, .opte, .shelves, .tier, .rings, .out]
  | .resume .. =>
    [.st, .hdr, .ctr, .irq, .mem, .poison, .isles, .cores, .evc, .clus, .nwch, .shelves, .tier, .rings, .out]
  | .switch .. =>
    [.st, .hdr, .ctr, .irq, .mem, .poison, .isles, .cores, .sigs, .clus, .nwch, .opte, .tier, .rings, .strm, .out,
     .free]
  | .importShelf .. =>
    [.hdr, .ctr, .irq, .mem, .poison, .isles, .shelves, .tier, .rings, .out]
  | .exportShard .. =>
    [.hdr, .ctr, .irq, .mem, .poison, .isles, .cores, .tier, .rings, .out]
  | .importShard .. =>
    [.hdr, .ctr, .irq, .mem, .poison, .isles, .cores, .nwch, .tier, .rings, .out]
  | .treeStart .. =>
    [.hdr, .ctr, .irq, .mem, .poison, .isles, .cores, .sigs, .tier, .rings, .eth, .fab, .errm, .out]
  | .sqTailDoorbell .. =>
    [.hdr, .ctr, .parts, .irq, .rings, .out]
  | .sqReadBusError .. | .status .. =>
    [.hdr, .ctr, .irq, .rings, .out]
  | .sqRingEnable .. =>
    [.hdr, .ctr, .regs, .parts, .irq, .rings, .out]
  | .cqHeadDoorbell .. =>
    [.hdr, .ctr, .parts, .irq, .rings, .out, .free]
  | .cqWriteBusError .. =>
    [.st, .hdr, .ctr, .irq, .rings, .out]
  | .dmaTailDoorbell .. | .dmaSkip .. | .dmaMaintWrite .. =>
    [.hdr, .ctr, .parts, .irq, .dmae, .out]
  | .dmaDescriptorStart .. =>
    [.hdr, .ctr, .irq, .mem, .poison, .isles, .tier, .dmae, .errm, .out, .free]
  | .dmaDescriptorDone .. =>
    [.hdr, .ctr, .irq, .mem, .poison, .isles, .cores, .sigs, .tier, .dmae, .errm, .out, .free]
  | .dmaBusError .. =>
    [.st, .hdr, .ctr, .irq, .poison, .tier, .dmae, .out]
  | .dmaRestartReplay .. | .dmaRestartFlush .. =>
    [.st, .hdr, .ctr, .parts, .irq, .dmae, .out]
  | .map .. | .unmap .. | .flush .. | .invalidate .. | .probe .. =>
    [.hdr, .ctr, .parts, .irq, .tier, .eth, .fab, .out]
  | .mapCommandDone | .flushDone =>
    [.hdr, .ctr, .regs, .irq, .mem, .poison, .sigs, .tier, .eth, .fab, .out]
  | .chunkFillDone .. | .writeBackDone .. =>
    [.hdr, .ctr, .irq, .mem, .poison, .cores, .tier, .flash, .errm, .out]
  | .writeBackFail .. =>
    [.hdr, .ctr, .irq, .tier, .errm, .out]
  | .writeBackRetry .. =>
    [.ctr, .irq, .isles, .tier, .out]
  | .tierCacheWrite .. =>
    [.hdr, .ctr, .parts, .irq, .tier, .out]
  | .pilotEnable .. =>
    [.hdr, .ctr, .regs, .parts, .irq, .tier, .out]
  | .pilotPass .. =>
    [.hdr, .ctr, .irq, .mem, .poison, .tier, .out]
  | .pilotStagingDone .. =>
    [.hdr, .ctr, .irq, .mem, .poison, .cores, .sigs, .tier, .errm, .out]
  | .lendPchsWrite .. =>
    [.hdr, .ctr, .regs, .parts, .irq, .tier, .eth, .fab, .out]
  | .leaseReq .. | .leaseGrant .. | .reclaim .. =>
    [.hdr, .ctr, .irq, .tier, .eth, .fab, .out]
  | .leaseReqTimeout .. =>
    [.hdr, .ctr, .irq, .isles, .tier, .eth, .fab, .out]
  | .t3PageRelocated .. =>
    [.hdr, .ctr, .irq, .mem, .poison, .cores, .tier, .eth, .fab, .out]
  | .release .. | .revoked .. =>
    [.ctr, .irq, .tier, .out]
  | .reclaimDeadline .. =>
    [.hdr, .ctr, .irq, .mem, .poison, .isles, .tier, .eth, .fab, .out]
  | .powerLossSequence | .overvoltage | .perstAssert | .perstDeassert | .hotReset | .deviceReset .. =>
    [.st, .hdr, .ctr, .snap, .regs, .parts, .irq, .isles, .cores, .evc, .sigs, .clus, .mvec, .nwch, .opte, .rede,
     .tokx, .shelves, .tier, .flash, .rings, .dmae, .eth, .fab, .strm, .pwr, .errm, .sec, .boot, .out]
  | .powerLossSequenceDone | .flashMountDone .. | .badBlockRetire .. =>
    [.hdr, .ctr, .irq, .flash, .out]
  | .inputRecover | .overvoltageRecover | .setEndpointId .. | .entdaa .. | .setdasa .. | .mainInputInRange
  | .recovery .. | .pcieLinkDown | .pcieLinkRetrain .. | .provNChange .. =>
    [.ctr, .irq, .boot, .out]
  | .flashRebuild .. =>
    [.hdr, .ctr, .irq, .flash, .rings, .boot, .out]
  | .writeBudgetRefill =>
    [.ctr, .irq, .isles, .flash, .out]
  | .wearLevelling .. =>
    [.ctr, .irq, .flash, .out]
  | .optUpdate .. | .optLate .. =>
    [.hdr, .ctr, .irq, .mem, .poison, .isles, .sigs, .opte, .tier, .errm, .out, .free]
  | .optDigcmp .. =>
    [.hdr, .ctr, .irq, .mem, .poison, .isles, .sigs, .opte, .tier, .out, .free]
  | .optUpdateDone .. =>
    [.hdr, .ctr, .irq, .mem, .poison, .isles, .cores, .sigs, .opte, .tier, .out, .free]
  | .opteSkipHead .. =>
    [.hdr, .ctr, .parts, .irq, .opte, .out]
  | .scaleReport .. =>
    [.ctr, .irq, .nwch, .out, .free]
  | .scaleRoll .. =>
    [.hdr, .ctr, .irq, .nwch, .out, .free]
  | .hwRecomputeDone .. =>
    [.st, .hdr, .ctr, .parts, .irq, .mem, .poison, .cores, .sigs, .mvec, .nwch, .opte, .rede, .tier, .dmae, .fab,
     .strm, .errm, .out, .free]
  | .scRead .. | .scWrite .. | .scSettle .. | .scFree .. | .scCalibrate .. =>
    [.hdr, .ctr, .regs, .parts, .irq, .nwch, .out, .free]
  | .scOp .. =>
    [.hdr, .ctr, .irq, .mem, .poison, .cores, .sigs, .nwch, .tier, .out, .free]
  | .nwchSkipHead .. =>
    [.hdr, .ctr, .parts, .irq, .nwch, .out]
  | .redChain .. | .redGather .. | .runningSum .. | .finishedBytes .. | .gatherBytes .. =>
    [.hdr, .ctr, .irq, .mem, .poison, .isles, .cores, .sigs, .rede, .tier, .eth, .fab, .errm, .out]
  | .pipeSend .. | .tokRoute .. =>
    [.hdr, .ctr, .irq, .mem, .poison, .isles, .cores, .sigs, .rede, .tier, .eth, .fab, .errm, .out, .free]
  | .pipeFree .. =>
    [.hdr, .ctr, .irq, .mem, .poison, .isles, .cores, .sigs, .rede, .tier, .eth, .fab, .out]
  | .tokReturn .. =>
    [.hdr, .ctr, .irq, .mem, .poison, .isles, .sigs, .rede, .tier, .eth, .fab, .errm, .out, .free]
  | .tokCombine .. | .tokenReturn .. =>
    [.hdr, .ctr, .irq, .mem, .poison, .isles, .cores, .sigs, .rede, .tier, .errm, .out]
  | .tokenRows .. | .slotTagTimeout .. =>
    [.hdr, .ctr, .irq, .mem, .poison, .isles, .cores, .sigs, .tokx, .tier, .out]
  | .redeNoProgressTimeout .. =>
    [.hdr, .ctr, .irq, .mem, .poison, .isles, .cores, .sigs, .rede, .tier, .out]
  | .redeSkipHead .. =>
    [.hdr, .ctr, .parts, .irq, .rede, .out]
  | .frameReceive .. | .pfcFrame .. | .cap .. | .shedReq .. | .shedAck .. | .shedNak .. | .wake .. | .wakeAck .. =>
    [.ctr, .irq, .eth, .out]
  | .pfcRefresh .. | .pfcPauseExpire .. | .capSend .. | .ebbWindow .. | .shedReqResend .. | .ebbRateWindow ..
  | .elvuoCapableExpire .. =>
    [.ctr, .irq, .isles, .eth, .out]
  | .frameTransmit .. =>
    [.ctr, .irq, .eth, .out, .free]
  | .linkUp .. =>
    [.hdr, .ctr, .irq, .eth, .out]
  | .linkDown .. | .wakeResend .. | .ebbAlignTimeout .. | .data .. | .ctrl .. | .ack .. | .keepalive .. | .hello ..
  | .helloAck .. | .fenced .. | .keepaliveCheck =>
    [.hdr, .ctr, .irq, .mem, .poison, .isles, .cores, .sigs, .rede, .tokx, .tier, .eth, .fab, .errm, .out]
  | .ethpModeWrite .. =>
    [.hdr, .ctr, .regs, .parts, .irq, .mem, .poison, .isles, .cores, .sigs, .rede, .tokx, .tier, .eth, .fab, .errm,
     .out]
  | .qpEnable .. | .fabtTblRead .. | .fabtTblWrite .. =>
    [.hdr, .ctr, .regs, .parts, .irq, .eth, .fab, .out]
  | .ebbCtlWrite .. =>
    [.hdr, .ctr, .regs, .parts, .irq, .eth, .out]
  | .ebbAligned .. | .keepaliveSend .. =>
    [.hdr, .ctr, .irq, .eth, .fab, .out]
  | .helloResend .. | .ackDelayExpire .. | .retransmitTimeout .. =>
    [.hdr, .ctr, .irq, .isles, .eth, .fab, .out]
  | .rateWindow =>
    [.ctr, .irq, .fab, .out]
  | .fabtSelfWrite .. | .fabtEpochWrite .. =>
    [.hdr, .ctr, .regs, .parts, .irq, .fab, .out]
  | .tack .. | .peeled .. | .graft .. | .treeRound .. | .treeData .. =>
    [.hdr, .ctr, .irq, .mem, .poison, .isles, .cores, .sigs, .tier, .eth, .fab, .errm, .out]
  | .streamPacket .. =>
    [.hdr, .ctr, .irq, .mem, .poison, .cores, .tier, .strm, .out, .free]
  | .assemblyTimeout .. =>
    [.hdr, .ctr, .irq, .isles, .strm, .out]
  | .decodeStart .. =>
    [.ctr, .irq, .strm, .out, .free]
  | .decodeDone .. =>
    [.hdr, .ctr, .irq, .mem, .poison, .isles, .cores, .sigs, .tier, .strm, .errm, .out, .free]
  | .slotArm .. =>
    [.hdr, .ctr, .parts, .irq, .strm, .out]
  | .batchTimeout .. =>
    [.hdr, .ctr, .irq, .mem, .poison, .isles, .cores, .sigs, .tier, .strm, .out]
  | .islandDescentStart .. | .islandExitDone .. =>
    [.hdr, .ctr, .irq, .isles, .out]
  | .islandDescentDone .. =>
    [.ctr, .regs, .irq, .mem, .poison, .isles, .cores, .evc, .out]
  | .islandAutoIdle .. | .freqChangeApply .. =>
    [.ctr, .irq, .isles, .out]
  | .sramSaveDone .. =>
    [.hdr, .ctr, .irq, .mem, .poison, .isles, .cores, .tier, .out]
  | .sramRestoreDone .. =>
    [.hdr, .ctr, .irq, .mem, .poison, .isles, .tier, .out]
  | .governorUpdate .. =>
    [.ctr, .irq, .cores, .mvec, .nwch, .pwr, .out]
  | .capWindow .. | .undervoltageRelease =>
    [.ctr, .irq, .pwr, .out]
  | .thermalReading .. =>
    [.st, .hdr, .ctr, .irq, .mem, .poison, .isles, .cores, .sigs, .mvec, .nwch, .opte, .rede, .tokx, .tier, .flash,
     .dmae, .eth, .fab, .strm, .pwr, .errm, .out, .free]
  | .undervoltage =>
    [.hdr, .ctr, .irq, .pwr, .out]
  | .deviceRun .. | .deviceQuiet .. | .deviceStandby .. | .deviceDormant .. =>
    [.hdr, .ctr, .parts, .irq, .mem, .poison, .isles, .cores, .sigs, .rede, .tokx, .tier, .flash, .eth, .fab, .pwr,
     .errm, .out]
  | .autoQuiet | .deviceWake =>
    [.hdr, .ctr, .irq, .mem, .poison, .isles, .cores, .sigs, .rede, .tokx, .tier, .flash, .eth, .fab, .pwr, .errm,
     .out]
  | .power .. =>
    [.st, .hdr, .ctr, .snap, .regs, .parts, .irq, .mem, .poison, .isles, .cores, .evc, .sigs, .clus, .mvec, .nwch,
     .opte, .rede, .tokx, .shelves, .tier, .flash, .rings, .dmae, .eth, .fab, .strm, .pwr, .errm, .sec, .boot, .out]
  | .errorDetect .. | .coreProbe .. | .slotRetire .. =>
    [.st, .hdr, .ctr, .regs, .gen, .parts, .irq, .mem, .poison, .isles, .cores, .evc, .sigs, .clus, .mvec, .nwch,
     .opte, .rede, .tier, .dmae, .fab, .strm, .errm, .out, .free]
  | .sramScrubPass .. | .hbmScrubPass .. =>
    [.hdr, .ctr, .irq, .poison, .errm, .out]
  | .errmPop .. =>
    [.hdr, .ctr, .parts, .irq, .errm, .out]
  | .deadSlotRevive .. =>
    [.hdr, .ctr, .irq, .isles, .clus, .errm, .out]
  | .slotReturn .. =>
    [.hdr, .ctr, .parts, .irq, .clus, .out]
  | .slotTestDone .. =>
    [.ctr, .gen, .irq, .clus, .out]
  | .clusterReinstate .. =>
    [.st, .hdr, .ctr, .regs, .gen, .parts, .irq, .mem, .poison, .isles, .cores, .evc, .clus, .errm, .out]
  | .haltNAssert .. =>
    [.hdr, .ctr, .irq, .errm, .halt, .brake, .out]
  | .pwrbrakeNAssert .. =>
    [.hdr, .ctr, .irq, .pwr, .errm, .halt, .brake, .out]
  | .sidebandDeassert .. =>
    [.hdr, .ctr, .irq, .halt, .brake, .out]
  | .sidebandHeld10s .. =>
    [.hdr, .ctr, .irq, .isles, .errm, .halt, .brake, .out]
  | .sideResume .. =>
    [.hdr, .ctr, .parts, .irq, .eth, .fab, .pwr, .halt, .brake, .out]
  | .fwLoad .. | .fwSelect .. | .svnCommit .. =>
    [.hdr, .ctr, .parts, .irq, .sec, .out]
  | .fwLoadDone .. | .svnAutoCommit =>
    [.hdr, .ctr, .irq, .sec, .out]
  | .keyInstall .. | .keySetTransmit .. =>
    [.hdr, .ctr, .parts, .irq, .eth, .fab, .sec, .out]
  | .keyClear .. =>
    [.hdr, .ctr, .parts, .irq, .fab, .sec, .out]
  | .getVersion .. | .getCapabilities .. | .negotiateAlgorithms .. | .getDigests .. | .getCertificate ..
  | .chunkGet .. | .respondIfReady .. | .spdmUnsupportedRequest .. =>
    [.ctr, .irq, .sec, .out]
  | .challenge .. | .getMeasurements .. =>
    [.ctr, .irq, .sec, .out, .free]
  | .auxPowerUp .. | .auxPowerLoss =>
    [.st, .hdr, .ctr, .snap, .regs, .parts, .irq, .isles, .cores, .evc, .sigs, .clus, .mvec, .nwch, .opte, .rede,
     .tokx, .shelves, .tier, .flash, .rings, .dmae, .eth, .fab, .strm, .pwr, .errm, .halt, .brake, .sec, .boot, .out]
  | .startupStepDone .. =>
    [.st, .hdr, .ctr, .gen, .parts, .store, .irq, .mem, .poison, .isles, .cores, .sigs, .clus, .rede, .tokx, .tier,
     .flash, .eth, .fab, .pwr, .errm, .sec, .boot, .out]
  | .pfFlr =>
    [.hdr, .ctr, .snap, .regs, .parts, .irq, .rings, .out]
  | .recoverLoad .. =>
    [.hdr, .ctr, .irq, .mem, .poison, .cores, .rings, .dmae, .sec, .out, .free]
  | .deviceStateChangeDone =>
    [.hdr, .ctr, .irq, .mem, .poison, .isles, .cores, .evc, .sigs, .pwr, .boot, .out]

/-- Engine q of core c, which partition part owns, has x at its head and rest behind it, and nothing holds x back: no
flag, no check, no wait, no busy engine (R239, R241, R266). -/
structure headReady (d : Dev) (c : CoreId) (q part : Nat) (x : Desc) (rest : List Desc) : Prop where
  owner : d.clusterOwner c.cluster.val = some part
  queue : ((d.core (d.instOf c)).eng q).queue = x :: rest
  stopped : ((d.core (d.instOf c)).eng q).stopped = false
  ended : ((d.core (d.instOf c)).eng q).ended = false
  may : d.mayIssue (d.instOf c) = true
  free : d.engBusy (d.instOf c) q = false
  checked : headRefusal d (d.instOf c) part q x = 0
  waits : d.unmet (d.instOf c) x = []
  atIssue : issueRefusal (d.sram (d.instOf c)) x = 0

/-- The head runs: its predicate lets it, now or when it was last looked at (R210, R240). -/
def headRuns (d : Dev) (c : CoreId) (q part : Nat) (x : Desc) (rest : List Desc) : Prop :=
  headReady d c q part x rest ∧ (((d.core (d.instOf c)).eng q).go = true ∨ d.predSkips (d.instOf c) x = false)

/-- The head is skipped by its predicate (R240). -/
def headSkips (d : Dev) (c : CoreId) (q part : Nat) (x : Desc) (rest : List Desc) : Prop :=
  headReady d c q part x rest ∧ ((d.core (d.instOf c)).eng q).go = false ∧ d.predSkips (d.instOf c) x = true

/-- The vector commands with their opcodes (R244). -/
def vecCommands : List ((CoreId → Instr) × Nat) :=
  [(.add, 0x40), (.sub, 0x41), (.mul, 0x42), (.fma, 0x43), (.neg, 0x44), (.abs, 0x45), (.min, 0x46), (.max, 0x47),
   (.cmpEq, 0x48), (.cmpLt, 0x49), (.cmpLe, 0x4A), (.cvt, 0x4B), (.fill, 0x4C), (.rcp, 0x50), (.div, 0x51), (.sqrt, 0x52),
   (.rsqrt, 0x53), (.exp, 0x58), (.exp2, 0x59), (.tanh, 0x5A), (.sigmoid, 0x5B), (.gelu, 0x5C), (.log, 0x5D),
   (.log2, 0x5E), (.rowsum, 0x60), (.rowmax, 0x61), (.rowmin, 0x62)]

/-- The commands that issue a core's heads, with queue and opcode (R244). -/
def coreCommands : List ((CoreId → Instr) × Nat × Nat) :=
  [(.load, 0, 0x10), (.fetch, 0, 0x11), (.store, 3, 0x20), (.submit, 3, 0x22), (.post, 3, 0x23), (.matmul, 1, 0x30)] ++
  vecCommands.map fun k => (k.1, 2, k.2)

/-! ### Queues of the cluster engines -/

/-- The engine of page p in cluster c, which partition part owns, has x at the head of a queue and rest behind it; the
queue is not stopped, and the engine may issue (R359, R365). -/
structure engineHead (d : Dev) (p : Page) (c part : Nat) (queue : List (Nat × Desc)) (stopped : Bool) (x : Desc)
    (rest : List (Nat × Desc)) : Prop where
  owner : d.clusterOwner c = some part
  head : ∃ k, queue = (k, x) :: rest
  goes : stopped = false
  ready : d.clReady p c = true

/-- Such a head issues: no reason refuses it, its waits hold, its predicate does not skip it. -/
structure engineRuns (d : Dev) (p : Page) (c part : Nat) (queue : List (Nat × Desc)) (stopped : Bool) (refusal : Nat) (x : Desc)
    (rest : List (Nat × Desc)) : Prop extends engineHead d p c part queue stopped x rest where
  checked : refusal = 0
  waits : d.unmet (17 * c) x = []
  goesOn : d.predSkips (17 * c) x = false

/-- The signal that a word asks for, of partition part from a channel. -/
def sends (w : Word) (part src : Nat) : List Sig := if sigOn w then [⟨w, partFin part, src⟩] else []

/-! ### Command rings -/

/-- The control processors can read the head entry of ring i of page n for a command that names the clusters in mask; starts
says that HALT_N holds it back (R550, R552, R656). -/
structure ringTakes (d : Dev) (n i mask : Nat) (starts : Bool) : Prop where
  ready : d.ringReady n i = true
  running : starts = true → d.halt.effect = false
  alone : d.clustersBusy n i mask = false

/-- The head after the entry is read. -/
def headNext (d : Dev) (n i : Nat) : Nat := ((d.ring n).heads.get 0 i + 1) % ringSize (d.sqCfg n i)

/-- The device after the head entry is read: the head has moved, one command is counted (R550). -/
def headRead (d : Dev) (n i : Nat) : Dev :=
  (d.updRing n fun r => { r with heads := r.heads.put 0 i (headNext d n i) }).ringCnt n 0

end Sys2Proof.Safety
end

