-- ==== Sys2Proof/Certificates/Slice0/Obligations.lean ====
section
/-!
DEFINITION. The statements about the model: what each command does when it runs as the spec says, what it leaves alone,
and the invariants that every command keeps. s is any state of the machine; exec leaves the queue as it is.
-/

open Sys2Proof Sys2Proof.Machine Sys2Proof.Safety

/-- For every command c and every state, a step with c at the front of the queue is exec of c with the queue's rest. -/
def Obligations.StepRunsTheFrontCommand : Prop :=
  ∀ (c : Instr) (rest : List Instr) (d : Dev),
    step { pending := c :: rest, dev := d } = exec c { pending := rest, dev := d }

/-- On an empty queue a step lets 10 ns pass (DESIGN CHOICE, log entry 2: the spec has no such command). Only the islands
change; no timer falls behind its last reading (R48); a Cold island's timer other than the I/O die's stands still (R49). -/
def Obligations.IdleStepTicksTheTimers : Prop :=
  ∀ d : Dev, ∃ t, step { pending := [], dev := d } = .next { pending := [], dev := t } ∧
    changesOnly [.isles] d t ∧
    (∀ i, d.timer i ≤ t.timer i) ∧
    (∀ i, (d.isle i).state = .cold → i ≠ ioIsle → t.timer i = d.timer i)

/-- At reset: no command waits; partition 0 owns the sixteen clusters and no other partition is active (R112, R106); no
dual commit is under way; every island is Fired at its highest frequency with its timer at zero (R688); the device is in
Run; no queue, ring or event-counter holds anything; every page but the spare slots' is Disabled (R85, R688). That slot 16
of each cluster is the spare one, and that memory reads zero, are the model's choices (log entries 3 and 4). -/
def Obligations.ResetHolds : Prop :=
  State.reset.pending = [] ∧
  Dev.reset.tw 0 0 = 0xFFFF ∧ (∀ n : Fin 16, n ≠ 0 → Dev.reset.active n.val = false) ∧
  Dev.reset.parts.commit.state = .idle ∧
  (∀ i, (Dev.reset.isle i).state = .fired ∧ Dev.reset.timer i = 0 ∧ (Dev.reset.isle i).eff = isleFmax i) ∧
  Dev.reset.pwr.state = 0 ∧ Dev.reset.sigs = [] ∧ Dev.reset.out = [] ∧ Dev.reset.evc = [] ∧
  (∀ p : Page, p.valid = true → p.blk ≠ .core → Dev.reset.bst p = .disabled) ∧
  (∀ (c : Fin 16) (s : Fin 17), Dev.reset.bst (pCore (17 * c.val + s.val)) = if s = 16 then .absent else .disabled)

/-- The invariant of EventsAreSummarised holds at reset. -/
def Obligations.ResetIsSummarised : Prop := summarised State.reset.dev

/-- From any state, every command that answers a next state leaves the event summary complete: a page that stands in a view
and has an enabled event pending there has the summary bit of its manifest entry set in that view (R546), also right after
software cleared the bit (R547). A step on an empty queue keeps that. -/
def Obligations.EventsAreSummarised : Prop :=
  (∀ (c : Instr) (s t : State), exec c s = .next t → summarised t.dev) ∧
  (∀ s t : State, s.pending = [] → summarised s.dev → step s = .next t → summarised t.dev)

/-- REGISTER_WRITE at an offset of a view where no page stands is dropped, with code 0x0007 of DEVC in the PF view (R67) and
with the partition's violation count in a VF view (R66). At a page, a write that is not an aligned 32-bit one is dropped
with code 0x0005 of the page. An aligned one of BLK_EVT_EN sets the view's own copy alone; of BLK_OWNER, through the PF view,
it is dropped with code 0x0001 and counted; of the counter area, in a view with a version in force, it changes nothing (R92);
of a plain register of FLSH, TOKX or DECO through the PF view it changes that register alone, in its writable bits. -/
def Obligations.RegisterWriteEffects : Prop :=
  ∀ (v : View) (off size : Nat) (w : Word) (s : State),
    (s.dev.pageAt .pf off = none → becomes (.registerWrite .pf off size w) s (s.dev.err .pf pDevc 0x0007)) ∧
    (∀ n, s.dev.pageAt (.vf n) off = none → becomes (.registerWrite (.vf n) off size w) s (s.dev.violate n.val off)) ∧
    ∀ p, s.dev.pageAt v off = some p →
      (size ≠ 4 ∨ off % 4 ≠ 0 → becomes (.registerWrite v off size w) s (s.dev.err v p 0x0005)) ∧
      (off % 0x1000 = 0x01C →
        becomes (.registerWrite v off 4 w) s (s.dev.updHdr v p fun h => { h with evtEn := w })) ∧
      (v = .pf → off % 0x1000 = 0x028 →
        becomes (.registerWrite v off 4 w) s ((s.dev.err .pf p 0x0001).cnt .pf pPart 1 1)) ∧
      (opens s.dev v p → off % 4 = 0 → 0xC00 ≤ off % 0x1000 → becomes (.registerWrite v off 4 w) s s.dev) ∧
      (opens s.dev v p → v = .pf → p.blk = .flsh ∨ p.blk = .tokx ∨ p.blk = .deco → off % 4 = 0 → 0x040 ≤ off % 0x1000 →
        off % 0x1000 < 0xC00 →
        becomes (.registerWrite v off 4 w) s (s.dev.wrReg v p (off % 0x1000) w) ∧
        changesOnly [.regs] s.dev (s.dev.wrReg v p (off % 0x1000) w))

/-- In a view with a version in force: COUNTER_LOW_READ returns the low 32 bits, copies the high 32 bits into the reading
view's snapshot and clears the counter; a 32-bit read of the high word (RC_READ) returns the snapshot and clears nothing;
COUNTER_64_READ returns the whole counter and clears it. Nothing else of the device changes, but for what is read out and the
count of free values. -/
def Obligations.CounterReadsClear : Prop :=
  ∀ (v : View) (p : Page) (n : Fin 128) (s : State), opens s.dev v p →
    let c := s.dev.pg.ctr.get 0 (ckey v p n.val)
    becomes (.counterLowRead v p n) s
      { s.dev with
        pg := { s.dev.pg with ctr := s.dev.pg.ctr.erase (ckey v p n.val)
                              snap := s.dev.pg.snap.put 0#32 (ckey v p n.val) (BitVec.ofNat 32 (c / 2 ^ 32)) }
        out := .read v (c % 2 ^ 32) :: s.dev.out } ∧
    becomes (.counter64Read v p n) s
      { s.dev with pg := { s.dev.pg with ctr := s.dev.pg.ctr.erase (ckey v p n.val) }, out := .read v c :: s.dev.out } ∧
    (p.blk ≠ .part → p.blk ≠ .tier → p.blk ≠ .pwrc → p.blk ≠ .nwch → ∀ inc,
      becomes (.rcRead v p (0xC04 + 8 * n.val) inc) s
        { s.dev with out := .read v (s.dev.pg.snap.get 0#32 (ckey v p n.val)).toNat :: s.dev.out, free := s.dev.free + 1 })

/-- RC_READ of BLK_ERR_CNT returns the view's count and leaves it at the increments that arrive in the same cycle (R21).
PART_VIOL_READ clears the count and the address record of the partition that the view shows (R113). TIER_FAULT_INFO_READ
rearms that partition's fault record (R300). ISLE_TIMER_LO_READ returns the low word of the island's timer and puts the high
word into the reading view's copy of ISLE_TIMER_HI (R53, register table of the ISLE page). -/
def Obligations.ClearingReads : Prop :=
  (∀ (v : View) (p : Page) (inc : Nat) (s : State), p.valid = true → s.dev.reaches v p = true →
    completes (.rcRead v p 0x024 inc) s fun d =>
      (d.hdrOf v p).errCnt = BitVec.ofNat 32 (sat 32 inc) ∧
      d.out = .read v (s.dev.hdrOf v p).errCnt.toNat :: s.dev.out ∧ changesOnly [.hdr, .out, .irq, .ctr] s.dev d) ∧
  (∀ (v : View) (s : State), opens s.dev v pPart →
    completes (.partViolRead v) s fun d =>
      (d.parts.st.get .reset (s.dev.selPart v pPart)).viol = 0#32 ∧
      (d.parts.st.get .reset (s.dev.selPart v pPart)).violAddr = none ∧
      changesOnly [.parts, .out, .free, .irq, .ctr] s.dev d) ∧
  (∀ (v : View) (s : State) (x : TierFault), opens s.dev v pTier → s.dev.tier.fault.find? (s.dev.selPart v pTier) = some x →
    completes (.tierFaultInfoRead v) s fun d =>
      d.tier.fault.find? (s.dev.selPart v pTier) = some { x with armed := true } ∧
      changesOnly [.tier, .out, .free, .irq, .ctr] s.dev d) ∧
  (∀ (v : View) (i : Nat) (s : State), (isleKind i).isSome = true → opens s.dev v (pIsle i) →
    becomes (.isleTimerLoRead v i) s
      ((s.dev.setRegAt (pIsle i) (v.key + 1) 0x05C (BitVec.ofNat 32 (s.dev.timer i / 2 ^ 32))).put
        (.read v (s.dev.timer i % 2 ^ 32))))

/-- In a view where the page stands. BLK_NEG_WRITE, with no version in force or the block Disabled or Quiesced: major 1 puts in
force minor version min(N, 3), the highest implemented at or below N; any other major is refused, with no version in force and
code 0x0002 (R98); with a version in force and the block in another state the write is dropped with code 0x0002 (R100).
BLK_EVT_WRITE: a 1 clears an event bit, but a bit that arrives in the same cycle ends set (R20); a 1 to bit 31 clears
BLK_ERR_FIRST, and an error arriving then is recorded with bit 31 set; an error that arrives while a code stands is counted in
BLK_ERR_CNT and leaves the code (R91). EVENT_SUMMARY_WRITE clears in its word the bits written 1 and no others; what is pending
is set again by the summary that closes the command (R547). Nothing else of the device changes. -/
def Obligations.HeaderWrites : Prop :=
  (∀ (v : View) (p : Page) (s : State), p.valid = true → s.dev.reaches v p = true →
    ((s.dev.hdrOf v p).neg = none ∨ s.dev.bst p = .disabled ∨ s.dev.bst p = .quiesced →
      (∀ n : Byte, becomes (.blkNegWrite v p 1 n) s
        (s.dev.updHdr v p fun h => { h with neg := some (1, if n.toNat ≤ 3 then n.toNat else 3) })) ∧
      (∀ m n : Byte, m ≠ 1 → becomes (.blkNegWrite v p m n) s
        ((s.dev.updHdr v p fun h => { h with neg := none }).err v p 0x0002))) ∧
    ((s.dev.hdrOf v p).neg ≠ none → s.dev.bst p ≠ .disabled → s.dev.bst p ≠ .quiesced →
      ∀ m n : Byte, becomes (.blkNegWrite v p m n) s (s.dev.err v p 0x0002)) ∧
    (∀ (w arriving : Word) (e : BitVec 16), completes (.blkEvtWrite v p w arriving e) s fun d =>
      changesOnly [.hdr, .irq, .out, .ctr] s.dev d ∧
      (∀ i, i < 31 → (d.hdrOf v p).evt.getLsbD i =
        (arriving.getLsbD i || ((s.dev.hdrOf v p).evt.getLsbD i && !w.getLsbD i))) ∧
      (e = 0 → (d.hdrOf v p).evt.getLsbD 31 = ((s.dev.hdrOf v p).evt.getLsbD 31 && !w.getLsbD 31) ∧
        (d.hdrOf v p).errCode = if w.getLsbD 31 then 0 else (s.dev.hdrOf v p).errCode) ∧
      (e ≠ 0 → w.getLsbD 31 = true →
        (d.hdrOf v p).evt.getLsbD 31 = true ∧ (d.hdrOf v p).errCode = e ∧
        (d.hdrOf v p).errCnt = (s.dev.hdrOf v p).errCnt) ∧
      (e ≠ 0 → w.getLsbD 31 = false → (s.dev.hdrOf v p).errCode ≠ 0 →
        (d.hdrOf v p).errCode = (s.dev.hdrOf v p).errCode ∧
        (d.hdrOf v p).errCnt = if (s.dev.hdrOf v p).errCnt = 0xFFFFFFFF#32 then 0xFFFFFFFF#32
          else (s.dev.hdrOf v p).errCnt + 1))) ∧
  (∀ (v : View) (i : Fin 64) (w : Word) (s : State), opens s.dev v (sumPage v) →
    becomes (.eventSummaryWrite v i w) s
      { s.dev with irq := { s.dev.irq with summary := s.dev.irq.summary.filter fun k =>
          !((v.key * 2048 + 32 * i.val ≤ k && k < v.key * 2048 + 32 * i.val + 32) && w.getLsbD (k % 32)) } })

/-- Through the PF view, or a VF view of an owned page (R82). A Disabled block written enable = 1 becomes Enabling, with the
quiesce bit of the same write; when ready it becomes Running, or Quiesced where quiesce was written (R86). A Running block
written quiesce = 1 becomes Quiescing, or Quiesced where it holds nothing; one written enable = 0 likewise, with enable 0; when
idle it becomes Quiesced, or Disabled where enable is 0. A Quiesced block written quiesce = 0 becomes Running, written
enable = 0 becomes Disabled. A change that R85 has no row for is dropped with code 0x0003 (R87); a VF's write to a shared
block's BLK_CTL is dropped and counted (R82). Other pages keep their states through enable, unquiesce, drained and disable. -/
def Obligations.BlockControl : Prop :=
  ∀ (v : View) (p : Page) (s : State), p.valid = true → s.dev.reaches v p = true →
    let x := s.dev.pst p
    (v = .pf ∨ p.shared = false →
      (x.state = .disabled → x.enable = false →
        (p = pFabt → s.dev.reg pFabt 0x044 ≠ 0) →
        (p.blk = .strm → s.dev.strmEnableBad p.inst ((s.dev.strmOwner p.inst).getD 0) = false) →
        ∀ q, completes (.blockEnable v p q) s fun d => d.pst p = ⟨.enabling, true, q⟩ ∧
          changesOnly [.st, .hdr, .irq, .out, .ctr] s.dev d ∧ ∀ p', p'.key ≠ p.key → d.pst p' = s.dev.pst p') ∧
      (x.state = .running → x.enable = true → x.quiesce = false →
        (completes (.blockQuiesce v p) s fun d => (d.pst p).enable = true ∧ (d.pst p).quiesce = true ∧
          ((d.bst p = .quiescing) ∨ (p.blk = .opte ∧ d.bst p = .quiesced))) ∧
        (completes (.blockDisable v p) s fun d => (d.pst p).enable = false ∧ (d.pst p).quiesce = false ∧
          ((d.bst p = .quiescing) ∨ (p.blk = .opte ∧ d.bst p = .disabled)))) ∧
      (x.state = .quiesced → x.enable = true →
        (x.quiesce = true → completes (.blockUnquiesce v p) s fun d => d.pst p = ⟨.running, true, false⟩ ∧
          changesOnly [.st, .hdr, .irq, .out, .ctr] s.dev d ∧ ∀ p', p'.key ≠ p.key → d.pst p' = s.dev.pst p') ∧
        (completes (.blockDisable v p) s fun d => d.pst p = ⟨.disabled, false, x.quiesce⟩ ∧
          changesOnly [.st, .hdr, .irq, .out, .ctr, .fab] s.dev d ∧ ∀ p', p'.key ≠ p.key → d.pst p' = s.dev.pst p')) ∧
      (x.state = .enabling ∨ x.state = .halted ∨ x.state = .resetting ∨ x.state = .absent →
        (∀ q, x.enable = false ∨ x.quiesce ≠ q → becomes (.blockEnable v p q) s (s.dev.err v p 0x0003)) ∧
        (x.enable = true → becomes (.blockDisable v p) s (s.dev.err v p 0x0003)))) ∧
    (∀ n, v = .vf n → p.shared = true →
      (∀ q, becomes (.blockEnable v p q) s (s.dev.violR n p 0x010)) ∧
      becomes (.blockQuiesce v p) s (s.dev.violR n p 0x010) ∧
      becomes (.blockUnquiesce v p) s (s.dev.violR n p 0x010) ∧
      becomes (.blockDisable v p) s (s.dev.violR n p 0x010)) ∧
    (x.state = .enabling → completes (.blockReady p) s fun d =>
      d.pst p = { x with state := if x.quiesce then .quiesced else .running }) ∧
    (x.state = .quiescing → s.dev.unitBusy p = false → completes (.blockDrained p) s fun d =>
      d.pst p = { x with state := if x.enable then .quiesced else .disabled } ∧
      changesOnly [.st, .hdr, .irq, .out, .ctr, .fab] s.dev d ∧ ∀ p', p'.key ≠ p.key → d.pst p' = s.dev.pst p')

/-- BLOCK_RESET through the PF view, or a VF view of an owned page, of a block that is Disabled, Quiesced, or Halted where a
reset through that view releases it (R89), and whose larger domain is not being handled (R646): the block ends Disabled with
enable and quiesce 0; every plain register of the page reads its reset value in every scope; in every view the header is at its
reset values but for the event of the change of state and the version in force, which the blocks listed are shown to keep (R88); the page's counters are zero (but for the
messages that the closing summary counts in PCIE and RING). In any other state the write is dropped with code 0x0003 (R87). -/
def Obligations.BlockResetEffects : Prop :=
  ∀ (v : View) (p : Page) (s : State), p.valid = true → s.dev.reaches v p = true → v = .pf ∨ p.shared = false →
    (s.dev.bst p = .disabled ∨ s.dev.bst p = .quiesced ∨ (s.dev.bst p = .halted ∧ releases v p = true) →
      s.dev.largerHandled p = false →
      completes (.blockReset v p) s fun d =>
        d.pst p = ⟨.disabled, false, false⟩ ∧
        (∀ sc off, sc < 0x100 → off < 0x1000 → d.regAt p sc off = regDflt p off) ∧
        (p.blk ∈ [.devc, .part, .opte, .rede, .hbmc, .flsh, .tokx, .deco, .dmae, .pwrc, .secc, .errm, .side, .mgmt] →
          ∀ v', (d.hdrOf v' p).neg = (s.dev.hdrOf v' p).neg) ∧
        (∀ v', (d.hdrOf v' p).evtEn = 0 ∧ (d.hdrOf v' p).errCode = 0 ∧
          (d.hdrOf v' p).errCnt = 0 ∧ (d.hdrOf v' p).evt &&& 0xBFFFFFFF#32 = 0) ∧
        (p.blk ≠ .pcie → p.blk ≠ .ring → ∀ v' n, n < 128 → d.pg.ctr.get 0 (ckey v' p n) = 0)) ∧
    (s.dev.bst p = .running ∨ s.dev.bst p = .enabling ∨ s.dev.bst p = .quiescing ∨ s.dev.bst p = .resetting ∨
      s.dev.bst p = .absent → becomes (.blockReset v p) s (s.dev.err v p 0x0003))

/-- COMMIT_STAGE in Idle with a custodian enrolled copies the live table to the staged one and enters Staging; without one it
leaves outcome 10 and code 0x0003; in any other state code 0x0003 (R125). STAGED_FIELD_WRITE in Staging writes the field's
writable bits in the partition that PART_SEL selects and in no other; in any other state it is dropped with code 0x0101 (R118).
COMMIT_SEAL in Staging of a table that R124 accepts captures the commit counter, the digest of the staged image (R119) and the
deadline; of one that R124 refuses it leaves outcome 9 and Staging; elsewhere code 0x0003. COMMIT_ABORT in Staging or Sealed, and
COMMIT_WINDOW_EXPIRE in Sealed, discard the proposal with outcome 3 or 4 and leave the live table (R128, R130); abort in Idle is
dropped with code 0x0003. A write with more than one action is dropped with code 0x0003 and nothing else (R126). -/
def Obligations.CommitProposal : Prop :=
  ∀ s : State, opens s.dev .pf pPart →
    let c := s.dev.parts.commit
    let pt := s.dev.parts
    (c.state = .idle →
      (s.dev.store.enrolled = true → becomes (.commitStage false false) s
        { s.dev with parts := { pt with staged := pt.live, commit := { c with state := .staging } } }) ∧
      (s.dev.store.enrolled = false → completes (.commitStage false false) s fun d =>
        d.parts.commit = { c with outcome := 10#8 } ∧ d.parts.staged = pt.staged ∧ d.parts.live = pt.live ∧
        ((s.dev.hdrOf .pf pPart).errCode = 0 → (d.hdrOf .pf pPart).errCode = 0x0003#16)) ∧
      becomes (.commitAbort false false) s (s.dev.err .pf pPart 0x0003)) ∧
    (c.state ≠ .idle → becomes (.commitStage false false) s (s.dev.err .pf pPart 0x0003)) ∧
    (∀ i value, (c.state = .staging → completes (.stagedFieldWrite i value) s fun d =>
        d.sw (s.dev.selPart .pf pPart) i.val = value.toNat &&& fieldMask i.val ∧
        (∀ n j, j < 32 → n ≠ s.dev.selPart .pf pPart ∨ j ≠ i.val → d.sw n j = s.dev.sw n j) ∧
        d.parts = { pt with staged := d.parts.staged } ∧ changesOnly [.parts, .irq, .out, .ctr] s.dev d) ∧
      (c.state ≠ .staging → becomes (.stagedFieldWrite i value) s (s.dev.err .pf pPart 0x0101))) ∧
    (c.state = .staging →
      (s.dev.stagedBad = false → becomes (.commitSeal false false) s
        { s.dev with parts := { pt with commit :=
          { c with state := .sealed, captured := c.count, digest := Config.sha384 (tableImage pt.staged)
                   deadline := s.dev.timer ioIsle + s.dev.partMs 0x108 1000 3600000 } } }) ∧
      (s.dev.stagedBad = true → completes (.commitSeal false false) s fun d =>
        d.parts = { pt with commit := { c with outcome := 9#8 } })) ∧
    (c.state ≠ .staging → becomes (.commitSeal false false) s (s.dev.err .pf pPart 0x0003)) ∧
    (c.state = .staging ∨ c.state = .sealed → completes (.commitAbort false false) s fun d =>
      d.parts.commit.state = .idle ∧ d.parts.commit.outcome = 3#8 ∧ d.parts.staged = [] ∧ d.parts.live = pt.live ∧
      changesOnly [.parts, .hdr, .ctr, .irq, .out] s.dev d) ∧
    (c.state = .sealed → completes .commitWindowExpire s fun d =>
      d.parts.commit.state = .idle ∧ d.parts.commit.outcome = 4#8 ∧ d.parts.staged = [] ∧ d.parts.live = pt.live ∧
      c.deadline < d.timer ioIsle) ∧
    (∀ a b, (a || b) = true →
      becomes (.commitStage a b) s (s.dev.err .pf pPart 0x0003) ∧
      becomes (.commitSeal a b) s (s.dev.err .pf pPart 0x0003) ∧
      becomes (.commitAbort a b) s (s.dev.err .pf pPart 0x0003))

/-- With auxiliary power and no response owed. COMMIT_QUERY of a sealed proposal answers status 0, the state, M, the ticks to the
deadline and the staged image; otherwise status 12 with zeros (the zeros are the model's choice, log entry 40). COMMIT_SIGN of
a sealed proposal ends with the outcome of the first check of R127 that fails, discarding the proposal and leaving the live
table, the counter and the leaf index; when all pass the state is Verifying, with the tag and q kept. ENROLL with PROV_N low now
and when power came up, no custodian enrolled, both keys of their lengths and both signatures good, stores the keys; once
enrolled, it answers status 9 and stores nothing (R137). -/
def Obligations.CustodianMessages : Prop :=
  ∀ (tag : BitVec 5) (s : State), s.dev.boot.aux = true → s.dev.boot.mgmtBusy = false →
    let c := s.dev.parts.commit
    let pt := s.dev.parts
    (c.state = .sealed → becomes (.commitQuery tag) s ((s.dev.cnt .pf pMgmt 0 1).mgmtOut tag 0x21
      ([0#8, 2#8, 0#8, 0#8] ++ s.dev.messageM ++ leBytes 8 (c.deadline - s.dev.timer ioIsle) ++ tableImage pt.staged))) ∧
    (c.state ≠ .sealed → becomes (.commitQuery tag) s ((s.dev.cnt .pf pMgmt 0 1).mgmtOut tag 0x21
      ([12#8] ++ leBytes 1 c.state.code ++ zbytes 2138))) ∧
    (∀ m ec lm,
      let ends (o : Byte) : Prop := completes (.commitSign tag m ec lm) s fun d =>
        d.parts.commit.outcome = o ∧ d.parts.commit.state = .idle ∧ d.parts.staged = [] ∧ d.parts.live = pt.live ∧
        d.parts.commit.count = c.count ∧ d.store = s.dev.store
      (c.state = .sealed →
        (c.deadline < s.dev.timer ioIsle → ends 4) ∧
        (s.dev.timer ioIsle ≤ c.deadline →
          (m ≠ s.dev.messageM → ends 8) ∧
          (m = s.dev.messageM →
            (Config.ecdsaVerify s.dev.store.ecKey m ec = false → ends 5) ∧
            (Config.ecdsaVerify s.dev.store.ecKey m ec = true →
              (1860 < lm.length ∨ Config.lmsVerify s.dev.store.lmsKey m lm = false → ends 6) ∧
              (lm.length ≤ 1860 → Config.lmsVerify s.dev.store.lmsKey m lm = true →
                (∀ q, s.dev.store.leafQ = some q → fldBE lm 0 4 ≤ q → ends 7) ∧
                ((∀ q, s.dev.store.leafQ = some q → q < fldBE lm 0 4) →
                  completes (.commitSign tag m ec lm) s fun d =>
                    d.parts = { pt with commit := { c with state := .verifying, signTag := some tag, signQ := fldBE lm 0 4 } } ∧
                    d.boot = { s.dev.boot with mgmtBusy := true })))))) ∧
      (c.state = .idle ∨ c.state = .staging → becomes (.commitSign tag m ec lm) s
        ((s.dev.cnt .pf pMgmt 0 1).mgmtOut tag 0x22 [12#8])) ∧
      (c.state = .verifying ∨ c.state = .applying → becomes (.commitSign tag m ec lm) s
        ((s.dev.cnt .pf pMgmt 0 1).mgmtOut tag 0x22 [13#8]))) ∧
    (∀ ek lk es ls,
      (s.dev.store.enrolled = true → becomes (.enroll tag ek lk es ls) s
        ((s.dev.cnt .pf pMgmt 0 1).mgmtOut tag 0x20 [9#8])) ∧
      (s.dev.store.enrolled = false → s.dev.boot.provSampled = true → s.dev.boot.provLow = true → ek.length = 97 →
        lk.length = 48 → es.length = 96 → ls.length ≤ 1860 → Config.ecdsaVerify ek enrolText es = true →
        Config.lmsVerify lk enrolText ls = true → completes (.enroll tag ek lk es ls) s fun d =>
          d.store = { s.dev.store with ecKey := ek, lmsKey := lk, enrolled := true } ∧
          changesOnly [.store, .out, .irq, .ctr] s.dev d))

/-- COMMIT_POINT in Verifying: the protected store takes the staged table and the leaf index accepted; the counter counts and
the state is Applying; the live table does not change yet. COMMIT_DRAIN_IDLE, when no unit that changes owner is busy and no
frame of a moved pseudo-channel is lent, goes on to the scrub; COMMIT_DRAIN_GRACE_EXPIRE does so whatever is busy; where no frame
is lent, the timer is then at the end of the grace and the application is marked forced where a unit was busy. COMMIT_SCRUB_DONE makes the staged table the
live one and ends in Idle with outcome 1, or 2 where units were halted. -/
def Obligations.CommitApplied : Prop :=
  ∀ s : State,
    let c := s.dev.parts.commit
    let pt := s.dev.parts
    (c.state = .verifying → completes .commitPoint s fun d =>
      d.store.table = pt.staged ∧ d.store.leafQ = some c.signQ ∧ d.store.enrolled = s.dev.store.enrolled ∧
      d.parts = { pt with commit := { c with state := .applying, count := c.count + 1, forced := false, scrubbing := false
                                             drainBy := s.dev.timer ioIsle + s.dev.partMs 0x10C 1 10000 } } ∧
      d.clus = s.dev.clus ∧ d.shelves = s.dev.shelves ∧ d.isles = s.dev.isles) ∧
    (c.state = .applying → c.scrubbing = false →
      (s.dev.movedUnits.any s.dev.unitBusy = false → s.dev.lentMoved = [] → completes .commitDrainIdle s fun d =>
        d.parts = { pt with commit := { c with scrubbing := true } } ∧
        changesOnly [.st, .hdr, .parts, .irq, .out, .ctr] s.dev d) ∧
      (completes .commitDrainGraceExpire s fun d =>
        d.parts.commit.scrubbing = true ∧ d.parts.commit.state = .applying ∧
        d.parts.live = pt.live ∧ d.parts.staged = pt.staged ∧ d.store = s.dev.store ∧
        (s.dev.lentMoved = [] → c.drainBy ≤ d.timer ioIsle ∧ d.parts.commit.forced = (c.forced || s.dev.movedUnits.any s.dev.unitBusy)))) ∧
    (c.state = .applying → c.scrubbing = true → s.dev.boot.resetWaits = none → completes .commitScrubDone s fun d =>
      d.parts.live = pt.staged ∧ d.parts.staged = [] ∧ d.parts.commit.state = .idle ∧
      d.parts.commit.outcome = (if c.forced then 2#8 else 1#8) ∧ d.parts.commit.count = c.count ∧
      d.parts.commit.signTag = none ∧ d.store = { s.dev.store with nsChange := [] })

/-- PART_RESET at the head of the operator's running ring, with no reset of the partition in progress, advances the head and
starts the reset: the partition shows Draining with 20 ms to drain. PARTITION_RESET_DRAIN_LIMIT enters Scrubbing with the timer
at that limit. PARTITION_RESET_DONE, once no unit is busy, ends it Running: every byte of SRAM, cluster buffer and
pseudo-channel that the partition owns reads zero, its rings are empty with phase 1, and the live table is as before.
VF_FLR after start-up does the same as PART_RESET for the function's partition, or joins a reset in progress, and leaves no
version in force in that VF view (R102). VF_ENABLE_CHANGE sets the enabled functions and changes no ownership. -/
def Obligations.PartitionReset : Prop :=
  (∀ (e : Entry) (n : Fin 16) (s : State), s.dev.ringReady 16 0 = true → e.clean = true → s.dev.boot.recovery = false →
    (s.dev.partSt n).inReset = false → completes (.partReset e (BitVec.ofNat 8 n)) s fun d =>
      (d.partSt n).inReset = true ∧ (d.partSt n).state = .draining ∧
      (d.partSt n).drainBy = s.dev.timer ioIsle + 2000000 ∧ d.parts.live = s.dev.parts.live ∧
      (∀ m : Fin 16, m ≠ n → d.partSt m = s.dev.partSt m)) ∧
  (∀ (n : Fin 16) (s : State), (s.dev.partSt n).inReset = true →
    ((s.dev.partSt n).state = .draining → completes (.partitionResetDrainLimit n) s fun d =>
      d.partSt n = { s.dev.partSt n with state := .scrubbing } ∧ (s.dev.partSt n).drainBy ≤ d.timer ioIsle) ∧
    ((s.dev.unitsOf n).any s.dev.unitBusy = false → completes (.partitionResetDone n) s fun d =>
      (d.partSt n).inReset = false ∧ (d.partSt n).state = .running ∧ d.parts.live = s.dev.parts.live ∧
      (d.ring n).cqUsed = 0 ∧ (d.ring n).phase = true ∧
      (∀ c, c ∈ s.dev.clustersOf n → ∀ off, off < memSpan →
        (∀ i, i < 17 → memGet d.mem (sramKey (17 * c + i) off) = 0) ∧ memGet d.mem (bufKey c off) = 0) ∧
      (∀ k, k ∈ s.dev.pchsOf n → ∀ off, off < pchBytes → memGet d.mem (pchKey k off) = 0)) ∧
    (s.dev.boot.step = 8 → completes (.vfFlr n) s fun d =>
      (∀ p, p.valid = true → (d.hdrOf (.vf n) p).neg = none) ∧ (d.partSt n) = s.dev.partSt n)) ∧
  (∀ (n : Fin 16) (s : State), (s.dev.partSt n).inReset = false → s.dev.boot.step = 8 → completes (.vfFlr n) s fun d =>
    (d.partSt n).inReset = true ∧ (d.partSt n).state = .draining ∧ d.parts.live = s.dev.parts.live) ∧
  (∀ (mask : BitVec 16) (s : State), completes (.vfEnableChange mask) s fun d =>
    (∀ n : Fin 16, d.parts.vfEnabled.contains n.val = mask.getLsbD n.val) ∧ d.parts.live = s.dev.parts.live ∧
    changesOnly [.parts, .irq, .out, .ctr] s.dev d)

/-- A NOP that runs leaves its queue and sends its signal, behind the operations that issued before it in the load and store
engines (none here); nothing else of the core changes. END does the same and ends the engine. A head of any other opcode whose
predicate chooses skip, and that names no chain, leaves its queue with none of its effect: no memory changes. A head that a
check of R266 refuses stays at the head and stops its engine with that reason, whichever command looks at it. -/
def Obligations.NopEndSkipAndRefusal : Prop :=
  (∀ (e : EngineId) (part : Nat) (x : Desc) (rest : List Desc) (s : State),
    headRuns s.dev e.at_ e.queue.val part x rest →
    let i := s.dev.instOf e.at_
    let q := e.queue.val
    let c := s.dev.core i
    let sent := if sigOn (dSig x) then [(⟨dSig x, partFin part, srcCore i q⟩ : Sig)] else []
    (q = 0 → c.loads = []) → (q = 3 → c.sto = []) →
    (dOp x = 0 → completes (.nop e) s fun d =>
      (d.core i).eng q = { c.eng q with queue := rest, go := false } ∧
      (∀ q', q' < 4 → q' ≠ q → (d.core i).eng q' = c.eng q') ∧ d.sigs = s.dev.sigs ++ sent ∧
      changesOnly [.cores, .sigs, .ctr, .free, .irq, .out] s.dev d) ∧
    (dOp x = 1 → completes (.endOp e) s fun d =>
      (d.core i).eng q = { c.eng q with queue := rest, go := false, ended := true } ∧
      (∀ q', q' < 4 → q' ≠ q → (d.core i).eng q' = c.eng q') ∧ d.sigs = s.dev.sigs ++ sent ∧
      changesOnly [.cores, .sigs, .hdr, .ctr, .free, .irq, .out] s.dev d)) ∧
  (∀ k ∈ coreCommands, ∀ (c : CoreId) (part : Nat) (x : Desc) (rest : List Desc) (s : State), dOp x = k.2.2 →
    headSkips s.dev c k.2.1 part x rest → dChain x = 0 → completes (k.1 c) s fun d =>
      ((d.core (s.dev.instOf c)).eng k.2.1).queue = rest ∧
      changesOnly [.cores, .sigs, .ctr, .nwch, .free, .irq, .out] s.dev d) ∧
  (∀ k ∈ coreCommands, ∀ (c : CoreId) (part : Nat) (x : Desc) (rest : List Desc) (s : State),
    let i := s.dev.instOf c
    let e := (s.dev.core i).eng k.2.1
    s.dev.clusterOwner c.cluster.val = some part → e.queue = x :: rest → e.stopped = false → e.ended = false →
    s.dev.mayIssue i = true → s.dev.engBusy i k.2.1 = false → headRefusal s.dev i part k.2.1 x ≠ 0 →
    completes (k.1 c) s fun d =>
      (d.core i).eng k.2.1 = { e with stopped := true, reason := headRefusal s.dev i part k.2.1 x, go := false } ∧
      changesOnly [.cores, .hdr, .ctr, .irq, .out] s.dev d)

/-- Each of the five, at the head of its queue and free to run. LOAD with a free request slot, and FETCH with room for its
descriptors in the target queue, leave the queue and stand last among the load engine's operations, with no more requests out
than slots were free; LOAD without a slot stays at the head, its predicate's choice kept (R210). STORE leaves the queue with the
bytes of its lines as they stood in SRAM; SUBMIT with a free entry of its target leaves with the 64 bytes it hands over; POST
with one of its four slots leaves. None of them changes memory or sends its signal yet. -/
def Obligations.MovesIssue : Prop :=
  ∀ (id : CoreId) (part : Nat) (x : Desc) (rest : List Desc) (s : State),
    let i := s.dev.instOf id
    let c := s.dev.core i
    let quiet : List Comp := [.cores, .ctr, .free, .hdr, .errm, .irq, .out]
    (dOp x = 0x10 → headRuns s.dev id 0 part x rest →
      (c.ldOut < 384 → completes (.load id) s fun d => ((d.core i).eng 0).queue = rest ∧
        (∃ o, (d.core i).loads = c.loads ++ [o] ∧ o.desc = x ∧ o.entered = false ∧ o.out.length ≤ 384 - c.ldOut) ∧
        changesOnly quiet s.dev d) ∧
      (384 ≤ c.ldOut → becomes (.load id) s (s.dev.updEng i 0 fun e => { e with go := true }))) ∧
    (dOp x = 0x11 → headRuns s.dev id 0 part x rest →
      let q := bits (fld x 0x29 1) 1 0
      (c.eng q).queue.length - (if q = 0 then 1 else 0) + c.fetching q + fld x 0x28 1 ≤ 128 →
      completes (.fetch id) s fun d => ((d.core i).eng 0).queue = rest ∧
        (∃ o, (d.core i).loads = c.loads ++ [o] ∧ o.desc = x ∧ o.entered = false ∧ o.out.length ≤ 384 - c.ldOut) ∧
        changesOnly quiet s.dev d) ∧
    (dOp x = 0x20 → headRuns s.dev id 3 part x rest →
      completes (.store id) s fun d => ((d.core i).eng 3).queue = rest ∧
        (∃ f, (d.core i).sto = c.sto ++ [f] ∧ f.desc = x ∧ f.kind = .store ∧ f.done = false ∧
          f.data = (List.range (Mv.of x).lines).flatMap fun j =>
            memRead s.dev.mem (sramKey i ((Mv.of x).nearAt j)) (Mv.of x).len) ∧
        changesOnly quiet s.dev d) ∧
    (dOp x = 0x22 → headRuns s.dev id 3 part x rest →
      let t := bits (fld x 0x20 3) 23 21
      let body := memRead s.dev.mem (sramKey i (bits (fld x 0x20 3) 20 0 * 32)) 64
      (s.dev.targetQueue i t (redQueueOf (dOp body))).1 + s.dev.submitsTo i t (redQueueOf (dOp body)) <
        (s.dev.targetQueue i t (redQueueOf (dOp body))).2 →
      completes (.submit id) s fun d => ((d.core i).eng 3).queue = rest ∧
        (∃ f, (d.core i).sto = c.sto ++ [f] ∧ f.desc = x ∧ f.kind = .submit t ∧ f.done = false ∧ f.data = body) ∧
        changesOnly quiet s.dev d) ∧
    (dOp x = 0x23 → headRuns s.dev id 3 part x rest →
      (c.sto.filter fun (f : StFlight) => !f.done && f.kind == .post).length < 4 →
      completes (.post id) s fun d => ((d.core i).eng 3).queue = rest ∧
        (∃ f, (d.core i).sto = c.sto ++ [f] ∧ f.desc = x ∧ f.kind = .post ∧ f.done = false) ∧
        changesOnly quiet s.dev d)

/-- LOAD_DATA_ARRIVE of a LOAD's request writes exactly the bytes read to the request's place in the core's own SRAM: from the
cluster buffer, awake, or as the translated read gives them; a FETCH's request writes no memory. STORE_DONE, when its lines can
be written, writes them where the STORE's space says, and only there: in a cluster buffer or another core's SRAM, bytes outside
the lines are as before. SUBMIT_DELIVERED appends the 64 bytes to the target's queue; POST_COMPLETION_WRITTEN with room in the
ring writes the 16-byte entry to host memory. The finished oldest operation's signal is sent (R58). -/
def Obligations.MovesComplete : Prop :=
  ∀ (id : CoreId) (part : Nat) (s : State),
    let i := s.dev.instOf id
    let c := s.dev.core i
    s.dev.corePart i = some part →
    (∀ n j k o r, pickReq c.loads 0 n = some (j, k, o, r) →
      ((opLines o.desc).space = 1 → dOp o.desc ≠ 0x11 → (s.dev.wakeKeys [bufKey (i / 17) r.far]).1 = true →
        completes (.loadDataArrive id n) s fun d =>
          d.mem = memWrite s.dev.mem (sramKey i r.near) (memRead s.dev.mem (bufKey (i / 17) r.far) r.len)) ∧
      ((opLines o.desc).space ≠ 1 →
        let ag := if dOp o.desc = 0x11 then agFetch else agLoad
        ∀ d1, s.dev.prepare part ag false r.far r.len = (true, d1) →
          completes (.loadDataArrive id n) s fun d =>
            d.mem = if dOp o.desc = 0x11 then (d1.tRead part ag r.far r.len).2.mem
              else memWrite (d1.tRead part ag r.far r.len).2.mem (sramKey i r.near) (d1.tRead part ag r.far r.len).1.bytes)) ∧
    (∀ j f d1, c.oldest (· == .store) = some (j, f) → s.dev.prepareLines i part (Mv.of f.desc) = (true, d1) →
      let v := Mv.of f.desc
      completes (.storeDone id) s fun d =>
        d.mem = (d1.writeLines i part v f).mem ∧
        (v.space ≠ 0 →
          (∀ a, (∀ l, l < v.lines → a < s.dev.storeKey i v l ∨ s.dev.storeKey i v l + v.len ≤ a) →
            memGet d.mem a = memGet s.dev.mem a) ∧
          (v.lines = 1 → v.len ≤ f.data.length → d.mem = memWrite s.dev.mem (s.dev.storeKey i v 0) (f.data.take v.len)) ∧
          (j = 0 → sigOn (dSig f.desc) = true → (⟨dSig f.desc, partFin part, srcCore i 3⟩ : Sig) ∈ d.sigs))) ∧
    (∀ j f t, c.oldest (fun k => match k with | .submit _ => true | _ => false) = some (j, f) → f.kind = .submit t →
      (t = 0 → completes (.submitDelivered id) s fun d =>
        (d.mvec.get .reset (i / 17 / 4)).queue = (s.dev.mvec.get .reset (i / 17 / 4)).queue ++ [(i, f.data)] ∧
        changesOnly [.mvec, .cores, .sigs, .irq, .out, .ctr] s.dev d) ∧
      (t ≠ 0 → (s.dev.wakeKeys [bufKey (i / 17) 0]).1 = true → completes (.submitDelivered id) s fun d =>
        (t = 1 → (d.op (i / 17)).q.queue = (s.dev.op (i / 17)).q.queue ++ [(i, f.data)]) ∧
        (t = 2 → ((d.red (i / 17)).q (redQueueOf (dOp f.data))).queue =
          ((s.dev.red (i / 17)).q (redQueueOf (dOp f.data))).queue ++ [(i, f.data)]) ∧
        (3 ≤ t → (d.nw (i / 17)).queue = (s.dev.nw (i / 17)).queue ++ [(i, f.data)]) ∧
        changesOnly [.opte, .rede, .nwch, .cores, .sigs, .irq, .out, .ctr] s.dev d)) ∧
    (∀ j f, c.oldest (· == .post) = some (j, f) → s.dev.cqRoom part = true → (s.dev.ring part).held = [] →
      completes (.postCompletionWritten id) s fun d =>
        Output.hostWrite (ringView part)
          (s.dev.reg (ringPage part) 0x100 + 4294967296 * s.dev.reg (ringPage part) 0x104 + 16 * (s.dev.ring part).cqTail)
          (Compl.bytes ⟨fld f.desc 0x20 8, 0, 1, 0, id.core.val + 16 * id.cluster.val, 0⟩ (s.dev.ring part).phase) [] ∈ d.out ∧
        (d.ring part).cqUsed = (s.dev.ring part).cqUsed + 1 ∧ d.mem = s.dev.mem)

/-- SIGNAL_ARRIVE of the first signal of its channel, at a cluster that the sender's partition owns, well-formed, neither
withdrawn nor parked, whose island is Fired: the counter that the word names grows by the increment modulo 2³², every other
counter is as before, and the signal is gone. To a cluster of another partition it is dropped and counted in the PART page.
ENGINE_SKIP_HEAD of a stopped engine discards the head and clears the stop (R268); ENGINE_RESTART clears ended (R241).
EVENT_COUNTER_WRITE writes a core's counter while its core is still, a cluster's while every core and cluster engine of it is,
and is otherwise dropped with code 0x0102 (R262). -/
def Obligations.SignalsAndEngineRegisters : Prop :=
  (∀ (n : Nat) (x : Sig) (s : State), s.dev.sigs[n]? = some x → s.dev.sigFirst n x = true →
    let w := x.word
    (s.dev.clusterOwner (sigCluster w) = some x.part.val → sigRsv w = 0 → (sigScope w = true ∨ sigIndex w ≤ 63) →
      (s.dev.clus' (sigCluster w)).withdrawn = false → (s.dev.clus' (sigCluster w)).parked = false →
      (s.dev.isle (if sigScope w then fabIsle (sigCluster w) else s.dev.inst (sigCluster w) (sigCore w))).state = .fired →
      completes (.signalArrive n) s fun d =>
        d.evc.get 0#32 (s.dev.sigKey w) = s.dev.evc.get 0#32 (s.dev.sigKey w) + BitVec.ofNat 32 (sigInc w) ∧
        (∀ k, k ≠ s.dev.sigKey w → d.evc.get 0#32 k = s.dev.evc.get 0#32 k) ∧ d.sigs = s.dev.sigs.eraseIdx n ∧
        changesOnly [.evc, .sigs, .irq, .out, .ctr] s.dev d) ∧
    (s.dev.clusterOwner (sigCluster w) ≠ some x.part.val → becomes (.signalArrive n) s
      ({ s.dev with sigs := s.dev.sigs.eraseIdx n }.cntP pPart 0 1 (some x.part.val)))) ∧
  (∀ (v : View) (e : EngineId) (s : State), opens s.dev v (pCore (s.dev.instOf e.at_)) →
    let i := s.dev.instOf e.at_
    let q := e.queue.val
    (((s.dev.core i).eng q).stopped = true → completes (.engineSkipHead v e) s fun d =>
      (d.core i).eng q = { (s.dev.core i).eng q with
        queue := ((s.dev.core i).eng q).queue.tail, stopped := false, reason := 0, go := false } ∧
      changesOnly [.cores, .irq, .out, .ctr] s.dev d) ∧
    (completes (.engineRestart v e) s fun d =>
      (d.core i).eng q = { (s.dev.core i).eng q with ended := false } ∧ changesOnly [.cores, .irq, .out, .ctr] s.dev d)) ∧
  (∀ (v : View) (c : CoreId) (n : Fin 256) (value : Word) (s : State),
    (opens s.dev v (pCore (s.dev.instOf c)) → n.val < 64 →
      (s.dev.stillBlk (pCore (s.dev.instOf c)) = true → becomes (.eventCounterWrite v c false n value) s
        { s.dev with evc := s.dev.evc.put 0#32 (s.dev.instOf c * 64 + n.val) value }) ∧
      (s.dev.stillBlk (pCore (s.dev.instOf c)) = false → becomes (.eventCounterWrite v c false n value) s
        (s.dev.err v (pCore (s.dev.instOf c)) 0x0102))) ∧
    (opens s.dev v (pClst c.cluster.val) →
      (s.dev.clusterStill c.cluster.val = true → becomes (.eventCounterWrite v c true n value) s
        { s.dev with evc := s.dev.evc.put 0#32 (0x10000 + c.cluster.val * 256 + n.val) value }) ∧
      (s.dev.clusterStill c.cluster.val = false → becomes (.eventCounterWrite v c true n value) s
        (s.dev.err v (pClst c.cluster.val) 0x0102))))

/-- A MATMUL at the array engine's head: the first look fixes its ratio and asks for the power grant, and it stays at the head;
with the grant it leaves the queue and its work, computed from what SRAM, scale table and running sums hold now, is in flight,
with memory unchanged. MATMUL_DONE, when the islands it writes to are awake, lands exactly its writes (those into a contained
cluster are dropped), takes it out of the engine, and sends its signal unless it awaits conversion. -/
def Obligations.MatmulIssuesAndCompletes : Prop :=
  ∀ (id : CoreId) (part : Nat) (s : State),
    let i := s.dev.instOf id
    let c := s.dev.core i
    (∀ x rest, dOp x = 0x30 → headRuns s.dev id 1 part x rest →
      (c.arrPlan = none → completes (.matmul id) s fun d =>
        (∃ p, (d.core i).arrPlan = some p ∧ p.granted = false) ∧ ((d.core i).eng 1).queue = x :: rest ∧
        changesOnly [.cores, .irq, .out, .ctr] s.dev d) ∧
      (∀ p, c.arrPlan = some p → p.granted = true → completes (.matmul id) s fun d =>
        (d.core i).arr = c.arr ++
          [{ s.dev with free := s.dev.free + 1 }.matFlight i x p.charge (Config.freeNat s.dev.free 33 % 9)] ∧
        ((d.core i).eng 1).queue = rest ∧ (d.core i).arrPlan = none ∧ (d.core i).gang = (Mm.of x).gang ∧
        changesOnly [.cores, .ctr, .hdr, .errm, .free, .irq, .out] s.dev d)) ∧
    (∀ f fs, s.dev.corePart i = some part → c.arr = f :: fs →
      (s.dev.wakeKeys ((f.writes.map fun (w : MemWr) => w.key).filter fun k => keyIsle k != some i)).1 = true →
      completes (.matmulDone id) s fun d =>
        d.mem = (s.dev.land f.writes).mem ∧ (d.core i).arr = fs ∧
        (f.await = false → d.sigs = s.dev.sigs ++
          (if sigOn (dSig f.desc) then [(⟨dSig f.desc, partFin part, srcCore i 1⟩ : Sig)] else [])) ∧
        (f.await = true → d.sigs = s.dev.sigs) ∧
        changesOnly [.mem, .poison, .cores, .sigs, .nwch, .hdr, .ctr, .irq, .out] s.dev d)

/-- Each of ADD, SUB, MUL, FMA, NEG, ABS, MIN, MAX, CMP_EQ, CMP_LT, CMP_LE, CVT, FILL, RCP, DIV, SQRT, RSQRT, EXP, EXP2, TANH,
SIGMOID, GELU, LOG, LOG2, ROWSUM, ROWMAX and ROWMIN, at the vector engine's head with its opcode: the first look asks for the
grant; with it the operation leaves the queue, and is in flight with the writes of its converted results to its destination (or
none where its destination entry is calibrating), computed from the sources as they stand; memory is unchanged.
VECTOR_OP_DONE lands exactly the writes and sends the signal unless the operation awaits conversion. -/
def Obligations.VectorOpsIssueAndComplete : Prop :=
  (∀ k ∈ vecCommands, ∀ (id : CoreId) (part : Nat) (x : Desc) (rest : List Desc) (s : State), dOp x = k.2 →
    headRuns s.dev id 2 part x rest →
    let i := s.dev.instOf id
    let c := s.dev.core i
    let v := Vx.of x
    let calib := fmtTensor v.dFmt && s.dev.calibrating (i / 17) v.scD
    (c.vecPlan = none → completes (k.1 id) s fun d =>
      (∃ p, (d.core i).vecPlan = some p ∧ p.granted = false) ∧ ((d.core i).eng 2).queue = x :: rest ∧
      changesOnly [.cores, .irq, .out, .ctr] s.dev d) ∧
    (∀ p, c.vecPlan = some p → p.granted = true → completes (k.1 id) s fun d =>
      (∃ f, (d.core i).vec = c.vec ++ [f] ∧ f.desc = x ∧ f.await = calib ∧
        (calib = false → f.writes = vecWrites i v (vecDrain v (if fmtTensor v.dFmt then s.dev.tOf (i / 17) v.scD else 0)
          (s.dev.vecCompute i s.dev.free v)))) ∧
      ((d.core i).eng 2).queue = rest ∧ (d.core i).vecPlan = none ∧
      changesOnly [.cores, .ctr, .hdr, .errm, .free, .irq, .out] s.dev d)) ∧
  (∀ (id : CoreId) (part : Nat) (f : Flight) (fs : List Flight) (s : State),
    let i := s.dev.instOf id
    s.dev.corePart i = some part → (s.dev.core i).vec = f :: fs → completes (.vectorOpDone id) s fun d =>
      d.mem = (s.dev.land f.writes).mem ∧ (d.core i).vec = fs ∧
      (f.await = false → d.sigs = s.dev.sigs ++
        (if sigOn (dSig f.desc) then [(⟨dSig f.desc, partFin part, srcCore i 2⟩ : Sig)] else [])) ∧
      (f.await = true → d.sigs = s.dev.sigs) ∧
      changesOnly [.mem, .poison, .cores, .sigs, .nwch, .hdr, .ctr, .irq, .out] s.dev d)

/-- A Running matrix-vector unit of a die that one partition owns whole, with nothing in progress: a head that R230 refuses
leaves the queue, sends no signal, and is counted with code 0x0101; another asks for its grant first; with the grant, and the
islands awake, it leaves the queue and is in progress with the work computed from SRAM and vectors as they stand, memory
unchanged. MATVEC_DONE lands exactly its writes, frees the unit, and sends the signal unless it awaits conversion. -/
def Obligations.MatvecBeginsAndCompletes : Prop :=
  ∀ (m : Fin 4) (part : Nat) (s : State), s.dev.mvecOwner m.val = some part →
    let u := s.dev.mvec.get .reset m.val
    (∀ i x rest, u.queue = (i, x) :: rest → u.cur = none → s.dev.bst (pMvec m.val) = .running → s.dev.halt.effect = false →
      (mvRefuses x = true → completes (.matvec m) s fun d =>
        d.mvec.get .reset m.val = { u with queue := rest, plan := none } ∧ d.sigs = s.dev.sigs ∧
        (d.hdrOf .pf (pMvec m.val)).evt.getLsbD 0 = true ∧
        ((s.dev.hdrOf .pf (pMvec m.val)).errCode = 0 → (d.hdrOf .pf (pMvec m.val)).errCode = 0x0101#16) ∧
        changesOnly [.mvec, .hdr, .ctr, .irq, .out] s.dev d) ∧
      (mvRefuses x = false →
        (u.plan = none → completes (.matvec m) s fun d =>
          d.mvec.get .reset m.val = { u with plan := some ⟨6000000, false, 1, 1⟩ } ∧
          changesOnly [.mvec, .irq, .out, .ctr] s.dev d) ∧
        (∀ p, u.plan = some p → p.granted = true → (s.dev.wakeKeys (s.dev.mvKeys m.val)).1 = true →
          completes (.matvec m) s fun d =>
            d.mvec.get .reset m.val = { queue := rest, plan := none, rowsLeft := (Mx.of x).n, cur := some (i,
              Dev.mvFlight { s.dev with free := s.dev.free + 1 } m.val i (Config.freeNat s.dev.free 50) x) } ∧
            changesOnly [.mvec, .free, .hdr, .ctr, .errm, .irq, .out] s.dev d))) ∧
    (∀ i f, u.cur = some (i, f) → completes (.matvecDone m) s fun d =>
      d.mem = (s.dev.land f.writes).mem ∧ d.mvec.get .reset m.val = { u with cur := none, rowsLeft := 0 } ∧
      (f.await = false → d.sigs = s.dev.sigs ++
        (if sigOn (dSig f.desc) then [(⟨dSig f.desc, partFin part, srcEng 3 m.val 0⟩ : Sig)] else [])) ∧
      (f.await = true → d.sigs = s.dev.sigs) ∧
      changesOnly [.mem, .poison, .mvec, .cores, .sigs, .nwch, .hdr, .ctr, .irq, .out] s.dev d)

/-- An element of CMP_EQ, CMP_LT or CMP_LE with a NaN operand is +0; ROWMAX and ROWMIN of a row with a NaN are NaN; GELU of −∞
is −0 and of +∞ is +∞, and neither is a NaN or an overflow. -/
def Obligations.NanAndInfinityResults : Prop :=
  (∀ n i a b c, vOf a = .nan ∨ vOf b = .nan → ∀ op, op = 0x48 ∨ op = 0x49 ∨ op = 0x4A →
    vecElem n op i a b c = ⟨.zero false, false⟩) ∧
  (∀ ws : List Word, (∃ w, w ∈ ws ∧ vOf w = .nan) →
    (rowFold Val.maxV ws).v = .nan ∧ (rowFold Val.minV ws).v = .nan) ∧
  (∀ n i a b c, (vOf a = .inf true → vecElem n 0x5C i a b c = ⟨.zero true, false⟩) ∧
    (vOf a = .inf false → vecElem n 0x5C i a b c = ⟨.inf false, false⟩))

/-- At the head of a ring that can be read. LAUNCH whose checks pass leaves its clusters Running without resident regions, their
sixteen cores enabled with no engine ended, and, with flag 0, every cluster counter zero. PARK whose checks pass leaves its
clusters Parking and the command in progress; PARK_QUIESCED, with every unit at rest, stores the image of the clusters in the
slot and leaves them Empty and parked, with queues empty, counters zero and no scale entry. RESUME of a slot with nothing to
reload leaves the image's clusters Running and the slot empty. SWITCH parks the clusters of the image that it resumes. IMPORT
of a sound image stores its bytes in the slot. A check that fails ends the command with its status and nothing else. -/
def Obligations.ShelfCommands : Prop :=
  ∀ (r : RingId) (e : Entry) (s : State), e.clean = true →
    let n := r.part.val
    let i := r.ring.val
    let rd := headRead s.dev n i
    let h := headNext s.dev n i
    (∀ (m : BitVec 16) (fl : Byte) (va : BitVec 64) (d1 : Dev), ringTakes s.dev n i m.toNat true →
      launchPre n (bitsSet m.toNat 16) va.toNat s.dev = (true, d1) →
      let x := launchCheck n (bitsSet m.toNat 16) fl.toNat va.toNat (headRead d1 n i)
      (x.1 ≠ 0 → becomes (.launch r e m fl va) s (x.2.2.2.complete n i e (headNext d1 n i) x.1 x.2.1)) ∧
      (x.1 = 0 → completes (.launch r e m fl va) s fun d => ∀ c, c ∈ bitsSet m.toNat 16 →
        (d.clus' c).shelf = .running ∧ (d.clus' c).regions = [] ∧
        (∀ l, l < 16 → (d.pst (pCore (s.dev.inst c l))).enable = true ∧
          (∀ q, q < 4 → ((d.core (s.dev.inst c l)).eng q).ended = false)) ∧
        (fl.getLsbD 0 = true → ∀ k, k < 256 → d.evc.get 0#32 (0x10000 + c * 256 + k) = 0#32))) ∧
    (∀ (slot : Byte) (m : BitVec 16), ringTakes s.dev n i m.toNat false →
      let st := s.dev.parkStatus n slot.toNat (bitsSet m.toNat 16)
      (st ≠ 0 → becomes (.park r e slot m) s (rd.complete n i e h st 0)) ∧
      (st = 0 → completes (.park r e slot m) s fun d =>
        (d.ring n).running.find? i = some (.park slot.toNat m.toNat, e, h) ∧
        (∀ c, c ∈ bitsSet m.toNat 16 → (d.clus' c).shelf = .parking) ∧ d.shelves = s.dev.shelves)) ∧
    (∀ slot m e' h', (s.dev.ring n).running.find? i = some (.park slot m, e', h') →
      s.dev.unitsStill (s.dev.parkUnits (bitsSet m 16)) = true → completes (.parkQuiesced r) s fun d =>
        (∃ stamp, d.shelves.find? (shelfKey n slot) = some (s.dev.shelfImage (bitsSet m 16), stamp)) ∧
        (d.ring n).running.find? i = none ∧
        (∀ c, c ∈ bitsSet m 16 → (d.clus' c).shelf = .empty ∧ (d.clus' c).parked = true ∧ (d.nw c).entries = [] ∧
          (∀ l q, l < 16 → ((d.core (s.dev.inst c l)).eng q).queue = []) ∧
          (∀ k, k < 256 → d.evc.get 0#32 (0x10000 + c * 256 + k) = 0#32))) ∧
    (∀ (slot : Byte) (g : ShelfImg), (s.dev.ring n).running.find? i = none →
      ringTakes s.dev n i (s.dev.shelfMask n slot.toNat) true → s.dev.shelfAt n slot.toNat = some g →
      let st := s.dev.resumeStatus n slot.toNat false
      (st.1 ≠ 0 → becomes (.resume r e slot) s (rd.complete n i e h st.1 st.2)) ∧
      (st.1 = 0 → s.dev.reloads slot.toNat g = [] → completes (.resume r e slot) s fun d =>
        d.shelves.find? (shelfKey n slot.toNat) = none ∧ (d.ring n).running.find? i = none ∧
        (∀ c, c ∈ g.names → c < 16 → (d.clus' c).shelf = .running ∧ (d.clus' c).parked = false ∧
          (d.clus' c).shelfSlot = slot.toNat))) ∧
    (∀ (slot res : Byte), (s.dev.ring n).running.find? i = none → ringTakes s.dev n i (s.dev.shelfMask n res.toNat) true →
      let m := s.dev.shelfMask n res.toNat
      let st := s.dev.resumeStatus n res.toNat true
      let st' := s.dev.parkStatus n slot.toNat (bitsSet m 16)
      (st.1 ≠ 0 → becomes (.switch r e slot res) s (rd.complete n i e h st.1 st.2)) ∧
      (st.1 = 0 → st' ≠ 0 → becomes (.switch r e slot res) s (rd.complete n i e h st' 0)) ∧
      (st.1 = 0 → st' = 0 → completes (.switch r e slot res) s fun d =>
        (d.ring n).running.find? i = some (.switch slot.toNat res.toNat m, e, h) ∧
        (∀ c, c ∈ bitsSet m 16 → (d.clus' c).shelf = .parking))) ∧
    (∀ (slot : Byte) (va : BitVec 64) (d1 : Dev), ringTakes s.dev n i 0 false →
      (s.dev.readTable n va.toNat 64 imageTail).2 = (true, d1) →
      let x := (headRead d1 n i).readTable n va.toNat 64 imageTail
      let st := x.2.2.importStatus n slot.toNat va.toNat x.1
      (st ≠ 0 → becomes (.importShelf r e slot va) s (x.2.2.complete n i e (headNext d1 n i) st 0)) ∧
      (st = 0 → completes (.importShelf r e slot va) s fun d =>
        ∃ stamp, d.shelves.find? (shelfKey n slot.toNat) = some (x.1.getD [], stamp)))

/-- Each ends with the status that its run answers. An export of an update record that can be read and is sound, with no step
in progress in its holding area and every array readable, writes the shard record with its digest at the destination and ends
with status 0 when it fits there; it ends with status 1, 2 or 4 for a record that breaks its rules, a step in progress, or a
destination too small. An import ends with status 6 for a record that is not whole, 7 for one that differs from the target,
8 for another step count; for a target with the same step count, blocks aligned and no scale entries, with status 10 where the
boxes do not meet, and otherwise, when everything can be written, with status 0, having written just the shared elements. -/
def Obligations.ShardCommands : Prop :=
  (∀ (r : RingId) (e : Entry) (rec hb dst cap : BitVec 64) (s : State) (d1 : Dev), e.clean = true →
    let n := r.part.val
    let i := r.ring.val
    ringTakes s.dev n i 0 false → exportPre n rec.toNat hb.toNat dst.toNat cap.toNat s.dev = (true, d1) →
    let x := exportRun n rec.toNat hb.toNat dst.toNat cap.toNat (headRead d1 n i)
    becomes (.exportShard r e rec hb dst cap) s (x.2.complete n i e (headNext d1 n i) x.1 0)) ∧
  (∀ (n rec hb dst cap : Nat) (d : Dev) (b h : List Byte) (d1 d2 : Dev), rec < vaLimit → hb < vaLimit → dst < vaLimit →
    d.cpRead n rec 256 = (some b, d1) → (if hb = 0 then (some (zbytes 64), d1) else d1.cpRead n hb 64) = (some h, d2) →
    let u := UpRec.of b
    (d1.recBad n u = true → (exportRun n rec hb dst cap d).1 = 1) ∧
    (d1.recBad n u = false →
      (fld h 0 4 ≠ 0 → (exportRun n rec hb dst cap d).1 = 2) ∧
      (fld h 0 4 = 0 → (d2.sections n u.arrays).2.1 = false →
        let d3 := (d2.sections n u.arrays).2.2
        let out := shardRecord u ((b.drop 0x60).take 32)
          (u.named.map fun i => scaleRecord i (d3.entry u.scCluster i).bytes) (d2.sections n u.arrays).1
        d3.faults n agTier true dst out.length = none →
        (cap < out.length ∨ dst % 64 ≠ 0 → exportRun n rec hb dst cap d = (4, d3)) ∧
        (out.length ≤ cap → dst % 64 = 0 → exportRun n rec hb dst cap d = (0, d3.tWrite n agTier dst out []))))) ∧
  (∀ (r : RingId) (e : Entry) (src len tgt : BitVec 64) (s : State) (d1 : Dev), e.clean = true →
    let n := r.part.val
    let i := r.ring.val
    ringTakes s.dev n i 0 false → importPre n src.toNat len.toNat tgt.toNat s.dev = (true, d1) →
    let x := importShardRun n src.toNat len.toNat tgt.toNat (headRead d1 n i)
    becomes (.importShard r e src len tgt) s (x.2.complete n i e (headNext d1 n i) x.1 0)) ∧
  (∀ (n src len tgt : Nat) (d : Dev) (b tb : List Byte) (d1 d2 : Dev), src < vaLimit → tgt < vaLimit →
    d.cpRead n src len = (some b, d1) → d1.cpRead n tgt 256 = (some tb, d2) →
    let s := shardRec b
    let t := UpRec.of tb
    (shardOk b = false → importShardRun n src len tgt d = (6, d2)) ∧
    (shardOk b = true →
      (d2.recBad n t = true ∨ shardDiffers s t = true → importShardRun n src len tgt d = (7, d2)) ∧
      (d2.recBad n t = false → shardDiffers s t = false →
        (t.t ≠ 0 → t.t ≠ s.t → importShardRun n src len tgt d = (8, d2)) ∧
        (t.t = s.t → t.named = [] → ((s.arrays ++ t.arrays).any fun a => fmtMx a.fmt && a.start % 32 ≠ 0) = false → t.t ≠ 0 →
          (overlaps s.dims t.dims = false → importShardRun n src len tgt d = (10, d2)) ∧
          (overlaps s.dims t.dims = true →
            let ws := ((shardData b).zip (s.arrays.zip t.arrays)).flatMap fun p => copyArr p.1 p.2.1 p.2.2
            (∀ w ∈ ws, d2.faults n agTier true w.va w.bytes.length = none) →
            importShardRun n src len tgt d =
              (0, ws.foldl (fun (d : Dev) (w : VaWr) => d.tWrite n agTier w.va w.bytes w.bad) d2))))))

/-- TREE_START of a record that can be read, in T1 and sound, makes a tree of the record's node, held whole at the root and
empty elsewhere, and ends with status 0; one that is not ends with its status. At a node with a tree: DATA in order at a place
that can be written writes just the new bytes of the object and moves held by as many; DATA for no tree, at the root or past a
gap changes nothing. TACK moves the child's acknowledged offset up, never down. PEELED from the server ends relaying; from
another node it changes nothing. GRAFT from a node that is not the server makes it a child. TREE_ROUND leaves the timer at the
round's time and sets the next. TACK, PEELED, GRAFT and rounds without such a tree change nothing. -/
def Obligations.TreeCommands : Prop :=
  (∀ (r : RingId) (e : Entry) (rec : BitVec 64) (s : State) (d0 d1 : Dev), e.clean = true →
    let n := r.part.val
    let i := r.ring.val
    let va := rec.toNat
    let len (d : Dev) : Nat := 64 + 8 * Nat.min 1024 (fld (d.tRead n agTier va 64).1.bytes 6 2)
    ringTakes s.dev n i 0 true → va < vaLimit → va % 64 = 0 →
    s.dev.prepare n agTier false va 64 = (true, d0) → d0.prepare n agTier false va (Nat.min 8256 (len d0)) = (true, d1) →
    let rd := headRead d1 n i
    let x := (rd.tRead n agTier va (len rd)).1
    let d2 := (rd.tRead n agTier va (len rd)).2
    let h := x.bytes.take 64
    let t := x.bytes.drop 64
    (x.fault = false → x.bad = [] → d2.inT1 n va (len rd) = true →
      (d2.treeStatus n h t ≠ 0 → becomes (.treeStart r e rec) s
        (d2.complete n i e (headNext d1 n i) (d2.treeStatus n h t) 0)) ∧
      (d2.treeStatus n h t = 0 → becomes (.treeStart r e rec) s
        ((d2.treeGo r.part va h t).complete n i e (headNext d1 n i) 0 0)))) ∧
  (∀ (m : TreeMsg) (s : State),
    (s.dev.tree? m.part.val m.tag.toNat = none →
      becomes (.tack m) s s.dev ∧ becomes (.peeled m) s s.dev ∧ becomes (.graft m) s s.dev ∧
      (∀ b, becomes (.treeData m b) s s.dev) ∧ becomes (.treeRound m.part m.tag) s s.dev) ∧
    (∀ t, s.dev.tree? m.part.val m.tag.toNat = some t →
      (becomes (.tack m) s (s.dev.treePump { t with kids := t.kids.map fun (k : TreeKid) =>
        if k.node = m.fromNode then { k with ack := max k.ack (min t.length m.offset.toNat) } else k })) ∧
      (t.server ≠ some m.fromNode → becomes (.peeled m) s s.dev) ∧
      (t.server = some m.fromNode → t.peeled = false → t.kids = [] → becomes (.peeled m) s
        (s.dev.treePump { t with peeled := true })) ∧
      (m.fromNode < t.nodes → t.server ≠ some m.fromNode → t.peeled = false → becomes (.graft m) s
        (s.dev.treePump { t with kids := (t.kids.filter fun (k : TreeKid) => k.node != m.fromNode) ++
          [⟨m.fromNode, min t.length m.offset.toNat, min t.length m.offset.toNat, 0, none⟩] })) ∧
      (t.kids = [] → becomes (.treeRound m.part m.tag) s ((s.dev.reach ioIsle t.roundAt).treePump
        { t with roundAt := t.roundAt + max 1 (s.dev.reg pFabt 0x064) })) ∧
      (∀ b, t.server = none ∨ t.held < m.offset.toNat → becomes (.treeData m b) s s.dev) ∧
      (∀ b new d1, new = (b.drop (t.held - m.offset.toNat)).take (t.length - t.held) → t.server ≠ none →
        m.offset.toNat ≤ t.held → new ≠ [] →
        s.dev.prepare m.part.val agEngine true (t.object + t.held) new.length = (true, d1) →
        d1.faults m.part.val agEngine true (t.object + t.held) new.length = none →
        let t' := { t with held := t.held + new.length }
        becomes (.treeData m b) s (((d1.tWrite m.part.val agEngine (t.object + t.held) new []).treeCtrl t' m.fromNode 1
          t'.held).treePump t'))))

/-- Through a view where the function's ring page takes accesses. SQ_TAIL_DOORBELL sets the tail; a tail at or above the size,
or one behind the tail that stands, is dropped with code 0x0101 and counted; to a halted ring it does nothing.
SQ_RING_ENABLE of a ring that is not enabled starts it empty, not halted; of one that is, the size stays. SQ_READ_BUS_ERROR
halts the ring: it takes no further command, and its head stands. CQ_HEAD_DOORBELL releases the entries up to the new head, and
is dropped with code 0x0101 where it is at or above the size or past the tail. CQ_WRITE_BUS_ERROR leaves the page Halted with
the waiting completions discarded and code 0x0103. -/
def Obligations.RingRegisters : Prop :=
  (∀ (v fn : View) (ring : Fin 4) (w : Word) (s : State),
    let n := ringNo fn
    let i := ring.val
    let p := ringPage n
    let r := s.dev.ring n
    let size := ringSize (s.dev.sqCfg n i)
    let t := w.toNat % 4096
    let h := r.heads.get 0 i
    i < ringCount n → opens s.dev v p →
    (r.halted.contains i = true → becomes (.sqTailDoorbell v fn ring w) s s.dev) ∧
    (r.halted.contains i = false →
      (size ≤ t ∨ (t + size - h) % size < (r.tails.get 0 i + size - h) % size →
        becomes (.sqTailDoorbell v fn ring w) s ((s.dev.err v p 0x0101).doorbellBad n)) ∧
      (t < size → (r.tails.get 0 i + size - h) % size ≤ (t + size - h) % size →
        becomes (.sqTailDoorbell v fn ring w) s (s.dev.updRing n fun r => { r with tails := r.tails.put 0 i t }))) ∧
    ((s.dev.sqCfg n i).testBit 8 = false → w.getLsbD 8 = true → completes (.sqRingEnable v fn ring w) s fun d =>
      d.sqCfg n i = 256 + w.toNat % 16 ∧ (d.ring n).heads.get 0 i = 0 ∧ (d.ring n).tails.get 0 i = 0 ∧
      (d.ring n).halted.contains i = false ∧ changesOnly [.regs, .rings, .irq, .out, .ctr] s.dev d) ∧
    ((s.dev.sqCfg n i).testBit 8 = true → completes (.sqRingEnable v fn ring w) s fun d =>
      d.sqCfg n i = s.dev.sqCfg n i % 16 + (if w.getLsbD 8 then 256 else 0) ∧
      changesOnly [.regs, .irq, .out, .ctr] s.dev d)) ∧
  (∀ (fn : View) (ring : Fin 4) (s : State), s.dev.ringReady (ringNo fn) ring.val = true →
    completes (.sqReadBusError fn ring) s fun d =>
      d.ringReady (ringNo fn) ring.val = false ∧ (d.ring (ringNo fn)).heads = (s.dev.ring (ringNo fn)).heads ∧
      (d.ring (ringNo fn)).halted.contains ring.val = true ∧ changesOnly [.rings, .hdr, .irq, .out, .ctr] s.dev d) ∧
  (∀ (v fn : View) (w : Word) (s : State),
    let n := ringNo fn
    let p := ringPage n
    let r := s.dev.ring n
    let size := ringSize (s.dev.cqCfg n)
    let h := w.toNat % 4096
    let rel := (h + size - r.cqHead) % size
    opens s.dev v p →
    (size ≤ h ∨ r.cqUsed < rel → becomes (.cqHeadDoorbell v fn w) s ((s.dev.err v p 0x0101).doorbellBad n)) ∧
    (h < size → rel ≤ r.cqUsed → r.held = [] → completes (.cqHeadDoorbell v fn w) s fun d =>
      (d.ring n).cqHead = h ∧ (d.ring n).cqUsed = r.cqUsed - rel ∧ (d.ring n).cqTail = r.cqTail ∧
      (d.ring n).armed = decide (r.cqUsed = rel) ∧ changesOnly [.rings, .irq, .hdr, .ctr, .free, .out] s.dev d)) ∧
  (∀ (fn : View) (s : State), (s.dev.cqCfg (ringNo fn)).testBit 8 = true →
    s.dev.bst (ringPage (ringNo fn)) ≠ .halted → completes (.cqWriteBusError fn) s fun d =>
      d.bst (ringPage (ringNo fn)) = .halted ∧ (d.ring (ringNo fn)).held = [] ∧
      changesOnly [.st, .hdr, .rings, .irq, .out, .ctr] s.dev d)

/-- DMA_TAIL_DOORBELL sets the channel's tail, or is dropped with code 0x0101. DMA_DESCRIPTOR_START of a channel that runs, with
a descriptor left that passes its checks and whose wait holds, appends the 64 bytes read from the ring to those under way; one
that is refused, with nothing under way, stops the channel. DMA_DESCRIPTOR_DONE moves exactly the oldest descriptor's data,
advances the head and sends the owner's signal. DMA_BUS_ERROR of a channel with work under way leaves the engine Halted, every
channel's work abandoned and the record valid. DMA_SKIP discards a stopped channel's head. DMA_RESTART_REPLAY and
DMA_RESTART_FLUSH, from Halted and through the PF view, leave the engine Enabling or Disabled, with the rings as they stand or
empty. DMA_MAINT_WRITE acts in recovery, or on a Disabled engine that no partition owns. -/
def Obligations.DmaCommands : Prop :=
  (∀ (v : View) (c : ChanId) (w : Word) (s : State),
    let e := c.eng.val
    let i := c.ch.val
    let x := s.dev.chan e i
    let size := s.dev.chSize e i
    let t := w.toNat % 4096
    opens s.dev v (pDmae e) →
    (size ≤ t ∨ (t + size - x.head) % size < (x.tail + size - x.head) % size →
      becomes (.dmaTailDoorbell v c w) s (s.dev.err v (pDmae e) 0x0101)) ∧
    (t < size → (x.tail + size - x.head) % size ≤ (t + size - x.head) % size →
      becomes (.dmaTailDoorbell v c w) s (s.dev.updChan e i fun x => { x with tail := t })) ∧
    (x.stopped = true → completes (.dmaSkip v c) s fun d =>
      d.chan e i = { x with stopped := false, reason := 0, abandoned := false, head := (x.head + 1) % size } ∧
      changesOnly [.dmae, .irq, .out, .ctr] s.dev d)) ∧
  (∀ (c : ChanId) (s : State) (d1 : Dev),
    let e := c.eng.val
    let i := c.ch.val
    let x := s.dev.chan e i
    let size := s.dev.chSize e i
    let place := (x.head + x.run.length) % size
    let r := d1.dmaRead e (s.dev.chBase e i + 64 * place) 64
    s.dev.dmaRuns e = true → (s.dev.chCfg e i).testBit 8 = true → x.stopped = false → place ≠ x.tail →
    x.run.length + 1 < size → s.dev.dmaPrepare e false (s.dev.chBase e i + 64 * place) 64 = (true, d1) →
    (r.2.dmaRefusal e r.1.bytes = 0 → r.2.dmaWait (Dx.of r.1.bytes) = true → completes (.dmaDescriptorStart c) s fun d =>
      d.chan e i = { x with run := x.run ++ [r.1.bytes], abandoned := false } ∧ d.mem = r.2.mem) ∧
    (r.2.dmaRefusal e r.1.bytes ≠ 0 → x.run = [] → completes (.dmaDescriptorStart c) s fun d =>
      d.chan e i = { x with stopped := true, reason := r.2.dmaRefusal e r.1.bytes } ∧ d.mem = r.2.mem)) ∧
  (∀ (c : ChanId) (data : List Byte) (bad : List Nat) (s : State) (b : Desc) (rest : List Desc) (d1 : Dev),
    let e := c.eng.val
    let i := c.ch.val
    let x := Dx.of b
    let ps := s.dev.dmaPieces e x
    (s.dev.chan e i).run = b :: rest → s.dev.dmaAwake e x.out ps = (true, d1) →
    completes (.dmaDescriptorDone c data bad) s fun d =>
      d.chan e i = { s.dev.chan e i with run := rest, head := ((s.dev.chan e i).head + 1) % s.dev.chSize e i } ∧
      d.mem = (d1.dmaMove e x.out ps data bad).mem ∧
      (∀ p, s.dev.dmaeOwner e = some p → d.sigs = s.dev.sigs ++
        (if sigOn x.sig then [(⟨x.sig, partFin p, srcDma e i⟩ : Sig)] else []))) ∧
  (∀ (c : ChanId) (toHost : Bool) (cause : BitVec 4) (addr : BitVec 64) (s : State),
    let e := c.eng.val
    (cause = 0 ∨ 5 < cause.toNat → becomes (.dmaBusError c toHost cause addr) s s.dev) ∧
    (cause ≠ 0 → cause.toNat ≤ 5 →
      (s.dev.bst (pDmae e) = .halted → becomes (.dmaBusError c toHost cause addr) s (s.dev.dmaCnt e 4 1)) ∧
      (s.dev.bst (pDmae e) ≠ .halted → (s.dev.chan e c.ch.val).run ≠ [] →
        completes (.dmaBusError c toHost cause addr) s fun d =>
          d.bst (pDmae e) = .halted ∧ (d.dma e).valid = true ∧
          (d.dma e).halt = (c.ch.val, toHost, cause.toNat, addr.toNat) ∧ (∀ k, k < 8 → (d.chan e k).run = []) ∧
          d.mem = s.dev.mem))) ∧
  (∀ (e : Fin 32) (s : State), opens s.dev .pf (pDmae e.val) →
    let p := pDmae e.val
    let next : BlkState := if (s.dev.pst p).enable then .enabling else .disabled
    (s.dev.bst p ≠ .halted → becomes (.dmaRestartReplay .pf e) s (s.dev.err .pf p 0x0103) ∧
      becomes (.dmaRestartFlush .pf e) s (s.dev.err .pf p 0x0103)) ∧
    (s.dev.bst p = .halted →
      (completes (.dmaRestartReplay .pf e) s fun d => d.bst p = next ∧
        d.dma e.val = { s.dev.dma e.val with valid := false } ∧ changesOnly [.st, .hdr, .dmae, .irq, .out, .ctr] s.dev d) ∧
      (completes (.dmaRestartFlush .pf e) s fun d => d.bst p = next ∧ (d.dma e.val).valid = false ∧
        (∀ k, k < 8 → d.chan e.val k = { Chan.reset with head := (s.dev.chan e.val k).tail, tail := (s.dev.chan e.val k).tail }) ∧
        changesOnly [.st, .hdr, .dmae, .irq, .out, .ctr] s.dev d)) ∧
    (∀ on, (s.dev.boot.recovery = true ∨ (s.dev.bst p = .disabled ∧ s.dev.dmaeOwner e.val = none) →
        becomes (.dmaMaintWrite .pf e on) s (s.dev.updDma e.val fun x => { x with maint := on })) ∧
      (s.dev.boot.recovery = false → s.dev.bst p ≠ .disabled ∨ s.dev.dmaeOwner e.val ≠ none →
        becomes (.dmaMaintWrite .pf e on) s s.dev)))

/-- MAP, UNMAP, FLUSH, INVALIDATE and PROBE queue the view's window behind a command that has begun, or begin at once on an
empty queue (a MAP into T3 that lacks frames only when no other request of the lenders waits); a busy view's is dropped with code 0x0101. When the front command ends, its view shows status and pages done, its
signal is sent and the queue moves on: a MAP that a check refuses maps nothing; one that passes, into T0, T2, T4 or an aperture,
maps each page to its place in the backing, and into T1 each page to a place that is free; PROBE shows the page's ARG and BK, or
status 3; UNMAP, FLUSH and INVALIDATE end with the run's status, or, with nothing left to write, take the run's pages away, keep
them, or drop their frames. -/
def Obligations.MapWindowCommands : Prop :=
  (∀ (k : (View → Instr) × Nat) (v : View) (s : State),
    k ∈ ([(.map, 1), (.unmap, 2), (.flush, 3), (.invalidate, 4), (.probe, 5)] : List ((View → Instr) × Nat)) →
    opens s.dev v pTier →
    let r := s.dev.regV v pTier
    let c : MapCmd := { view := v.key, part := partFin (s.dev.selPart v pTier), cmd := k.2, va := r 0x060 + 2 ^ 32 * bits (r 0x064) 19 0, bk := r 0x068 + 2 ^ 32 * r 0x06C, arg := r 0x070, sig := BitVec.ofNat 32 (r 0x074), begun := false, left := [] }
    ((s.dev.tier.sts.get ⟨false, 0, 0⟩ v.key).busy = true → becomes (k.1 v) s (s.dev.err v pTier 0x0101)) ∧
    ((s.dev.tier.sts.get ⟨false, 0, 0⟩ v.key).busy = false →
      (∀ h rest, s.dev.tier.cmds = h :: rest → h.begun = true → becomes (k.1 v) s (s.dev.updTier fun t =>
        { t with cmds := h :: rest ++ [c], sts := t.sts.put ⟨false, 0, 0⟩ v.key ⟨true, 0, 0⟩ })) ∧
      (s.dev.tier.cmds = [] → completes (k.1 v) s fun d => d.tier.pages = s.dev.tier.pages ∧
        d.tier.sts.get ⟨false, 0, 0⟩ v.key = ⟨true, 0, 0⟩ ∧
        ∃ l, d.tier.cmds = [{ c with begun := !s.dev.mapHeld c, left := l }] ∧ (k.2 ≠ 2 → k.2 ≠ 3 → l = [])))) ∧
  (∀ (c : MapCmd) (rest : List MapCmd) (s : State), s.dev.tier.cmds = c :: rest →
    let n := c.part.val
    let ends (st done : Nat) (d : Dev) : Prop :=
      d.tier.sts.get ⟨false, 0, 0⟩ c.view = ⟨false, st, done % 65536⟩ ∧ d.tier.cmds.length = rest.length ∧
      d.sigs = s.dev.sigs ++ (if sigOn c.sig then [(⟨c.sig, c.part, srcTier⟩ : Sig)] else [])
    let home (i : Nat) : Home := match c.tier with
      | 0 => .t0 (c.aux % 16) (c.aux / 16) (c.bk + i * c.size)
      | 2 => .t2 (c.bk + i * c.size)
      | 4 => .t4 (c.aux % 64) (c.bk + i * c.size)
      | _ => .aperture (c.aux % 16) (c.bk + i * c.size)
    (c.cmd = 1 →
      (s.dev.mapCheck c ≠ 0 → completes .mapCommandDone s fun d =>
        ends (s.dev.mapCheck c) 0 d ∧ d.tier.pages = s.dev.tier.pages) ∧
      (s.dev.mapCheck c = 0 → c.tier ≠ 1 → c.tier ≠ 3 → completes .mapCommandDone s fun d => ends 0 c.pages d ∧
        ∀ i, i < c.pages → d.tier.pages.find? (pgKey n (c.va + i * c.size)) = some ⟨c.big, c.writable, home i⟩) ∧
      (s.dev.mapCheck c = 0 → c.tier = 1 → c.pages = 1 →
        ∀ off, firstFit (s.dev.t1Taken n) c.size ((s.dev.pchsOf n).length * pchBytes) = some off →
        completes .mapCommandDone s fun d => ends 0 1 d ∧
          d.tier.pages.find? (pgKey n c.va) = some ⟨c.big, c.writable, .t1 off⟩ ∧
          ∀ a, off ≤ a → a < off + c.size → d.rd (t1Place (s.dev.pchsOf n) a) 1 = [0#8])) ∧
    (c.cmd = 5 →
      (c.badRun = true → completes .mapCommandDone s (ends 1 0)) ∧
      (c.badRun = false → completes .mapCommandDone s fun d => d.tier.pages = s.dev.tier.pages ∧
        match s.dev.page? n c.va with
        | none => ends 3 0 d
        | some (_, g) => ends 0 1 d ∧ d.regAt pTier (c.view + 1) 0x070 = BitVec.ofNat 32 g.probe.1 ∧
            d.regAt pTier (c.view + 1) 0x068 = BitVec.ofNat 32 g.probe.2 ∧
            d.regAt pTier (c.view + 1) 0x06C = BitVec.ofNat 32 (g.probe.2 / 2 ^ 32))) ∧
    (c.cmd = 2 ∨ c.cmd = 3 ∨ c.cmd = 4 →
      (s.dev.runCheck c ≠ 0 → completes .mapCommandDone s fun d =>
        ends (s.dev.runCheck c) 0 d ∧ d.tier.pages = s.dev.tier.pages) ∧
      (s.dev.runCheck c = 0 → c.left = [] → completes .mapCommandDone s fun d => ends 0 c.pages d ∧
        (c.cmd = 2 → ∀ k ∈ c.keys, d.tier.pages.find? k = none ∧ d.tier.frames.find? k = none) ∧
        (c.cmd = 4 → ∀ k ∈ c.keys, d.tier.frames.find? k = none) ∧
        (c.cmd ≠ 2 → d.tier.pages = s.dev.tier.pages))) ∧
    (c.cmd = 3 → s.dev.runCheck c = 0 → c.left = [] → completes .flushDone s fun d => ends 0 c.pages d ∧
      d.tier.pages = s.dev.tier.pages ∧ d.mem = s.dev.mem))

/-- CHUNK_FILL_DONE makes the chunk valid, with the bytes of its home, a flash chunk's from the namespace; a failed fill leaves
it marked and is a fault 0x0107. WRITE_BACK_DONE leaves no dirty sector in the chunk, each having gone out to its T2 or T3 home;
to T4 it charges 65,536 bytes of credit, is held while credit is short, and is only counted on read-only flash.
WRITE_BACK_FAIL keeps the sectors dirty and sets the retry, at 1, 2, 4 … 1,024 ms; WRITE_BACK_RETRY asks again.
TIER_CACHE_WRITE sets the pool's size, or is dropped with 0x0101 where it would break the quota or hold too little for
dirty and pinned frames. -/
def Obligations.CacheCommands : Prop :=
  (∀ (p : Fin 16) (va : Nat) (data : List Byte) (lost : List Nat) (s : State) (b : Nat) (g : Pg) (f : Frame) (agent : Nat),
    let k := pgKey p.val b
    let c := (va - b) / 65536
    s.dev.page? p.val va = some (b, g) → s.dev.tier.frames.find? k = some f → f.filling.find? c = some agent →
    let filled := { f with valid := f.valid.add c, filling := f.filling.erase c }
    (g.home.tier ≠ 4 → completes (.chunkFillDone p va data false lost) s fun d => d.tier.frames.find? k = some filled ∧
      d.mem = (s.dev.putChunk p.val k c (padTo 65536 data) []).mem ∧
      d.poison = (s.dev.putChunk p.val k c (padTo 65536 data) []).poison) ∧
    (∀ ns off, g.home = .t4 ns off → s.dev.flashServes = true → s.dev.flash.marked.get [] (2 ^ 32 * ns + off / 65536 + c) = [] →
      let src := nsKey ns (off + 65536 * c)
      let x := s.dev.putChunk p.val k c (s.dev.rd src 65536) (s.dev.badOffsets src 65536)
      completes (.chunkFillDone p va data false []) s fun d => d.tier.frames.find? k = some filled ∧
        d.mem = x.mem ∧ d.poison = x.poison) ∧
    (g.home.tier ≠ 4 ∨ s.dev.flashServes = true → completes (.chunkFillDone p va data true lost) s fun d =>
      d.tier.frames.find? k = some filled ∧
      d.poison = (s.dev.putChunk p.val k c (zbytes 65536) (List.range 65536)).poison ∧
      (s.dev.tier.fault.find? p.val = none →
        d.tier.fault.find? p.val = some ⟨b + 65536 * c, 0x0107, agent, false⟩))) ∧
  (∀ (p : Fin 16) (va : Nat) (s : State) (b : Nat) (g : Pg) (f : Frame) (c : Nat),
    let k := pgKey p.val b
    let n := ((f.fails.find? c).map (·.1)).getD 0
    let clean := { f with dirty := f.dirty.filter (fun i => i / 16 ≠ c), wb := f.wb.del c, fails := f.fails.erase c }
    s.dev.wbAt p.val va = some (b, g, f, c) →
    (c ∈ f.wb →
      (g.home.tier ≠ 4 → completes (.writeBackDone p va) s fun d => d.tier.frames.find? k = some clean ∧
        (∀ bus, g.home = .t2 bus → ∀ i ∈ f.dirty, i / 16 = c → ∃ x, Output.t2Write p.val (bus + 4096 * i) x ∈ d.out) ∧
        (∀ a l fr o, g.home = .t3 a l fr o → ∀ i ∈ f.dirty, i / 16 = c →
          ∃ x, Output.t3Write a l fr (o + 4096 * i) x ∈ d.out)) ∧
      (g.home.tier = 4 →
        (s.dev.flash.state = .normal ∨ s.dev.flash.state = .degraded → s.dev.flash.plp = false →
          (65536 ≤ s.dev.credit p.val → completes (.writeBackDone p va) s fun d => d.tier.frames.find? k = some clean ∧
            d.flash.spent.get 0 p.val = s.dev.flash.spent.get 0 p.val + 65536 ∧
            d.flash.charged = s.dev.flash.charged + 65536) ∧
          (s.dev.credit p.val < 65536 → completes (.writeBackDone p va) s fun d =>
            d.tier.frames = s.dev.tier.frames ∧ sectKey p.val (b + 65536 * c) ∈ d.tier.budWaits)) ∧
        (s.dev.flash.state = .readOnly → becomes (.writeBackDone p va) s (s.dev.cntP pFlsh 2 1 (some p.val)))) ∧
      (completes (.writeBackFail p va) s fun d => d.tier.frames.find? k =
        some { f with wb := f.wb.del c, fails := f.fails.insert c (n + 1, s.dev.timer ioIsle + 100000 * Nat.min 1024 (2 ^ Nat.min n 10)) })) ∧
    (c ∉ f.wb → becomes (.writeBackDone p va) s s.dev ∧ becomes (.writeBackFail p va) s s.dev ∧
      ∀ m t, f.fails.find? c = some (m, t) → completes (.writeBackRetry p va) s fun d =>
        d.tier.frames.find? k = some { f with wb := f.wb.add c } ∧ t ≤ d.timer ioIsle)) ∧
  (∀ (v : View) (w : Word) (s : State), opens s.dev v pTier →
    let n := s.dev.selPart v pTier
    let new := bits w.toNat 19 0
    let old := s.dev.tier.pool.get 0 n
    let kept := sumN (((s.dev.framesOf n).filter fun (e : Nat × Frame) => !e.2.dirty.isEmpty || s.dev.isPinned n e.1).map
      fun (e : Nat × Frame) => ((s.dev.tier.pages.find? e.1).map Pg.size).getD 0)
    ((old < new ∧ s.dev.quota n 1 < s.dev.usage n 1 + 2097152 * (new - old)) ∨ 2097152 * new < kept →
      becomes (.tierCacheWrite v w) s (s.dev.err v pTier 0x0101)) ∧
    ((new ≤ old ∨ s.dev.usage n 1 + 2097152 * (new - old) ≤ s.dev.quota n 1) → kept ≤ 2097152 * new →
      completes (.tierCacheWrite v w) s fun d => d.tier.pool.get 0 n = new ∧ d.tier.pages = s.dev.tier.pages ∧
        (s.dev.poolUsed n ≤ 2097152 * new → d.tier.frames = s.dev.tier.frames)))

/-- TIER_PILOT_CTR: while the schedule is enabled a write that keeps enable set changes nothing and one that clears it ends the
schedule with its pins; otherwise enable starts it without marks, at its counter's value, if its table can be read, with a table
fault if it cannot, and is refused with code 0x0101 for a cluster that the partition does not own. A pass stops an unreadable
schedule with a table fault; over a table of one entry it stages the entry when the mark is within the lead and the pool has room
for its pins, and else does not. A staging whose chunks are all valid ends: the run is copied to SRAM where the entry says so,
and its signal is sent. -/
def Obligations.PilotCommands : Prop :=
  (∀ (v : View) (w : Word) (s : State), opens s.dev v pTier →
    let n := s.dev.selPart v pTier
    let on := bit w.toNat 16
    let d1 := s.dev.setRegP pTier n 0x08C (bits w.toNat 11 0 + 65536 * b2n on)
    (bit (s.dev.regP pTier n 0x08C) 16 = true →
      (on = true → becomes (.pilotEnable v w) s s.dev) ∧
      (on = false → completes (.pilotEnable v w) s fun d => d.pilot n = .reset ∧
        bit (d.regP pTier n 0x08C) 16 = false ∧ bits (d.regP pTier n 0x08C) 15 0 = bits (s.dev.regP pTier n 0x08C) 15 0)) ∧
    (bit (s.dev.regP pTier n 0x08C) 16 = false →
      (on = false → becomes (.pilotEnable v w) s d1) ∧
      (on = true → s.dev.clusterOwner (bits w.toNat 11 8) ≠ some n → becomes (.pilotEnable v w) s (s.dev.err v pTier 0x0101)) ∧
      (on = true → s.dev.clusterOwner (bits w.toNat 11 8) = some n → completes (.pilotEnable v w) s fun d =>
        d.pilot n = { Pilot.reset with
          last := (s.dev.evc.get 0#32 (0x10000 + bits w.toNat 11 8 * 256 + bits w.toNat 7 0)).toNat
          running := (d1.pilotTable n).isSome
          fault := (d1.pilotTable n).isNone } ∧
        bit (d.regP pTier n 0x08C) 16 = true))) ∧
  (∀ (p : Fin 16) (s : State),
    let n := p.val
    ((s.dev.pilot n).running = false → becomes (.pilotPass p) s s.dev) ∧
    ((s.dev.pilot n).running = true → s.dev.pilotTable n = none → completes (.pilotPass p) s fun d =>
      d.pilot n = { s.dev.pilot n with running := false, fault := true }) ∧
    ((s.dev.pilot n).running = true → ∀ e, s.dev.pilotTable n = some [e] → (s.dev.pilot n).staging = [] →
      (s.dev.pilot n).marks = [] →
      let c := (s.dev.pilotNow n).1
      let m := c + (e.pos + s.dev.pilotPeriod n - c % s.dev.pilotPeriod n) % s.dev.pilotPeriod n
      let keys := s.dev.runKeys n e
      (c + e.lead < m ∨ 2097152 * s.dev.tier.pool.get 0 n < s.dev.bytesOf keys →
        completes (.pilotPass p) s fun d => (d.pilot n).staging = [] ∧ (d.pilot n).pinned = [] ∧
          d.tier.frames = s.dev.tier.frames) ∧
      (m ≤ c + e.lead → s.dev.bytesOf keys ≤ 2097152 * s.dev.tier.pool.get 0 n →
        completes (.pilotPass p) s fun d => (d.pilot n).staging = [0] ∧ (d.pilot n).marks = [(0, m)] ∧
          (d.pilot n).pinned = [(0, keys)]))) ∧
  (∀ (p : Fin 16) (i : Nat) (s : State),
    let n := p.val
    (i ∉ (s.dev.pilot n).staging → becomes (.pilotStagingDone p i) s s.dev) ∧
    (i ∈ (s.dev.pilot n).staging → ∀ es e, s.dev.pilotTable n = some es → es[i]? = some e →
      (∀ k ∈ ((s.dev.pilot n).pinned.find? i).getD [], match s.dev.tier.frames.find? k with
        | some f => f.valid.length = e.size / 65536
        | none => s.dev.tier.pages.find? k = none) →
      completes (.pilotStagingDone p i) s fun d =>
        (d.pilot n).staging = (s.dev.pilot n).staging.del i ∧ (d.pilot n).marks = (s.dev.pilot n).marks ∧
        d.sigs = s.dev.sigs ++ (if sigOn e.sig then [(⟨e.sig, p, srcTier⟩ : Sig)] else []) ∧
        (e.toSram = false → d.mem = s.dev.mem) ∧
        (e.toSram = true → d.mem = ((s.dev.pilotNow n).2.toSram n e).mem)))

/-- The lender answers LEASE_REQ with the frames that it has, recorded as lent, or with none; RELEASE takes frames back;
RECLAIM_DEADLINE sends REVOKED, zeroes what was still held and takes it back; LEND_PCHS_WRITE marks what no partition owns. The
borrower asks the next lender after LEASE_REQ_TIMEOUT, adds a grant to its leases or returns a late one, takes RECLAIM's frames
under reclaim and releases one that is free at once, moves a page to another lease, asks the lenders for one, or else moves it
to T1 or drops it, and drops the pages of
REVOKED's frames. -/
def Obligations.LendingCommands : Prop :=
  (∀ (m : LendMsg) (s : State),
    let dev := m.fromDev.toNat
    let fs := s.dev.lendable.take m.frames.toNat
    (fs = [] → completes (.leaseReq m) s fun d => d.tier = s.dev.tier ∧ Output.lend dev 2 m.part.val 0 0 0 0 ∈ d.out) ∧
    (fs ≠ [] → completes (.leaseReq m) s fun d =>
      d.tier = { s.dev.tier with
        nextLease := s.dev.tier.nextLease + 1
        lent := s.dev.tier.lent ++ [⟨s.dev.tier.nextLease, dev, m.part.val, enumFrom 0 fs, [], none⟩] } ∧
      Output.lend dev 2 m.part.val s.dev.tier.nextLease 0 fs.length 0 ∈ d.out)) ∧
  (∀ (m : LendMsg) (s : State),
    let hit (f : Nat) : Prop := m.first.toNat ≤ f ∧ f < m.first.toNat + m.frames.toNat
    let own (l : Lent) : Bool := l.id == m.lease.toNat && l.dev == m.fromDev.toNat
    (s.dev.tier.lent.find? own = none → becomes (.release m) s s.dev) ∧
    (∀ l, s.dev.tier.lent.find? own = some l → completes (.release m) s fun d =>
      (∀ x ∈ d.tier.lent, x.id = l.id → ∀ f ∈ x.frames, ¬ hit f.1) ∧
      (∀ x ∈ s.dev.tier.lent, x.id ≠ l.id → x.frames ≠ [] → x ∈ d.tier.lent))) ∧
  (∀ (id : Nat) (s : State) (l : Lent) (t : Nat),
    s.dev.tier.lent.find? (fun (l : Lent) => l.id == id) = some l → l.deadline = some t →
    completes (.reclaimDeadline id) s fun d => t ≤ d.timer ioIsle ∧
      (∀ x ∈ d.tier.lent, x.id = id → ∀ f ∈ x.frames, f.1 ∉ l.reclaim) ∧
      ∀ f ∈ l.frames, f.1 ∈ l.reclaim →
        (∀ i, i < 2097152 → d.rd (pchKey (f.2 / 1152) (f.2 % 1152 * 2097152) + i) 1 = [0#8]) ∧
        ∃ a n, a ≤ f.1 ∧ f.1 < a + n ∧ Output.lend l.dev 5 l.part id a n 0 ∈ d.out) ∧
  (∀ (k : Fin 8) (w : Word) (s : State), opens s.dev .pf pLend → completes (.lendPchsWrite .pf k w) s fun d =>
    ∀ p, p < 32 → (d.reg pLend (0x040 + 4 * k.val)).testBit p =
      (w.toNat.testBit p && (s.dev.pchOwner (32 * k.val + p)).isNone)) ∧
  (∀ (p : Fin 16) (s : State) (w : LeaseWait), s.dev.tier.wait = some w →
    (w.part ≠ p → becomes (.leaseReqTimeout p) s s.dev) ∧
    (w.part = p →
      ((s.dev.peersFrom (w.peer + 1)).head? = none → completes (.leaseReqTimeout p) s fun d =>
        d.tier = { s.dev.tier with wait := none }) ∧
      (∀ i dev, (s.dev.peersFrom (w.peer + 1)).head? = some (i, dev) → completes (.leaseReqTimeout p) s fun d =>
        d.tier = { s.dev.tier with
          wait := some ⟨p, i, dev, w.want, Nat.max (s.dev.timer ioIsle) w.by_ + 100000⟩ } ∧
        Output.lend dev 1 p.val 0 0 w.want 0 ∈ d.out))) ∧
  (∀ (m : LendMsg) (s : State), m.frames ≠ 0 →
    let n := m.frames.toNat
    let l : Lease := ⟨m.fromDev.toNat, m.lease.toNat, m.part, List.range n, [], [], false⟩
    (s.dev.tier.wait = none → completes (.leaseGrant m) s fun d =>
      d.tier = s.dev.tier ∧ Output.lend m.fromDev.toNat 4 m.part.val m.lease.toNat 0 n 0 ∈ d.out) ∧
    (∀ w, s.dev.tier.wait = some w → w.part = m.part → w.dev = m.fromDev.toNat → completes (.leaseGrant m) s fun d =>
      d.tier.leases = s.dev.tier.leases ++ [l] ∧ (w.want ≤ n → d.tier.wait = none))) ∧
  (∀ (m : LendMsg) (s : State),
    let dev := m.fromDev.toNat
    let id := m.lease.toNat
    let hit (l : Lease) : List Nat := l.frames.filter fun f => m.first.toNat ≤ f && f < m.first.toNat + m.frames.toNat && !l.dealt.contains f
    (s.dev.lease? dev id = none → becomes (.reclaim m) s s.dev) ∧
    (∀ l, s.dev.lease? dev id = some l → l.reclaim = [] → l.dealt = [] →
      (hit l ≠ [] → (∀ f ∈ hit l, s.dev.leasePages dev id (fun g => g == f) ≠ []) → completes (.reclaim m) s fun d =>
        ∃ asked, d.lease? dev id = some { l with reclaim := (hit l).foldl SSet.add [], asked := asked }) ∧
      (∀ f, hit l = [f] → s.dev.tier.leases = [l] → s.dev.leasePages dev id (fun g => g == f) = [] →
        completes (.reclaim m) s fun d => (∀ x ∈ d.tier.leases, x.frames = l.frames.filter (· ≠ f)) ∧
          Output.lend dev 4 l.part.val id f 1 0 ∈ d.out))) ∧
  (∀ (p : Fin 16) (va : Nat) (data : List Byte) (s : State) (b : Nat) (g : Pg) (dev id f sub : Nat) (l : Lease),
    let n := p.val
    let k := pgKey n b
    s.dev.page? n va = some (b, g) → g.home = .t3 dev id f sub → s.dev.lease? dev id = some l → f ∈ l.reclaim →
    (∀ a i fr o, (s.dev.t3Other n g.big dev id).head? = some (a, i, fr, o) → completes (.t3PageRelocated p va data) s fun d =>
      d.tier.pages.find? k = some { g with home := .t3 a i fr o }) ∧
    (s.dev.t3Other n g.big dev id = [] →
      (s.dev.tier.wait.isSome = true → becomes (.t3PageRelocated p va data) s s.dev) ∧
      (∀ i a, s.dev.tier.wait = none → l.asked = false → (s.dev.peersFrom 0).head? = some (i, a) →
        completes (.t3PageRelocated p va data) s fun d => d.tier.pages = s.dev.tier.pages ∧
          ∃ w, d.tier.wait = some w ∧ w.part = l.part ∧ w.dev = a) ∧
      (s.dev.tier.wait = none → l.asked = true ∨ s.dev.peersFrom 0 = [] →
        (s.dev.usage n 1 + g.size ≤ s.dev.quota n 1 → ∀ off d1, s.dev.t1Alloc n g.size = some (off, d1) →
          completes (.t3PageRelocated p va data) s fun d =>
            d.tier.pages.find? k = some { g with home := .t1 off } ∧ d.tier.frames.find? k = none) ∧
        (s.dev.quota n 1 < s.dev.usage n 1 + g.size → completes (.t3PageRelocated p va data) s fun d =>
          d.tier.pages.find? k = some { g with home := .t3gone } ∧ d.tier.frames.find? k = none)))) ∧
  (∀ (m : LendMsg) (s : State),
    let hit (f : Nat) : Prop := m.first.toNat ≤ f ∧ f < m.first.toNat + m.frames.toNat
    completes (.revoked m) s fun d =>
      (∀ k g f o, s.dev.tier.pages.find? k = some g → g.home = .t3 m.fromDev.toNat m.lease.toNat f o → hit f →
        d.tier.pages.find? k = some { g with home := .t3gone }) ∧
      ∀ l ∈ d.tier.leases, l.dev = m.fromDev.toNat → l.id = m.lease.toNat → ∀ f ∈ l.frames, ¬ hit f)

/-- FLASH_MOUNT_DONE ends a mount in the state that the spare reserve gives, or Failed. BAD_BLOCK_RETIRE takes a spare block, marks
what is lost and moves the state with the reserve; WEAR_LEVELLING, GARBAGE_COLLECTION and READ_DISTURB_REFRESH count their bytes;
WRITE_BUDGET_REFILL returns 1,000 bytes per unit of budget to every partition's credit. FLASH_REBUILD serves again, or answers
0x48 while a T4 page is mapped. The loss of the main input, or an overvoltage, starts the power-loss sequence and takes start-up back
to step 2; POWER_LOSS_SEQUENCE_DONE ends it, and mounts where start-up already waits for it; the input's return is noted. -/
def Obligations.FlashCommands : Prop :=
  (∀ (ok : Bool) (k : Nat) (s : State),
    (s.dev.flash.state ≠ .mounting → becomes (.flashMountDone ok k) s s.dev) ∧
    (s.dev.flash.state = .mounting → completes (.flashMountDone ok k) s fun d =>
      d.flash = { s.dev.flash with replayed := Nat.min 0xFFFF k, state := if ok then s.dev.flash.served else .failed })) ∧
  (∀ (k x : Nat) (lost : List Nat) (s : State),
    (s.dev.flashServes = false → becomes (.wearLevelling k x) s s.dev ∧ becomes (.garbageCollection k) s s.dev ∧
      becomes (.readDisturbRefresh k) s s.dev ∧ becomes (.badBlockRetire k lost) s s.dev) ∧
    (s.dev.flashServes = true →
      becomes (.wearLevelling k x) s ((s.dev.cnt .pf pFlsh 3 (65536 * k)).updFlash fun f => { f with spread := x }) ∧
      becomes (.garbageCollection k) s (s.dev.cnt .pf pFlsh 3 (65536 * k)) ∧
      becomes (.readDisturbRefresh k) s (s.dev.cnt .pf pFlsh 4 (65536 * k)) ∧
      completes (.badBlockRetire k lost) s fun d =>
        let spare := s.dev.flash.spare - 1
        let pct := spare * 100 / Nat.max 1 s.dev.flash.spareFull
        d.flash.spare = spare ∧
        d.flash.state = (if pct < 1 then .readOnly else if pct < 10 then .degraded else .normal) ∧
        (∀ c ∈ lost, d.flash.marked.get [] c = List.range 1024) ∧
        ∀ c, c ∉ lost → d.flash.marked.get [] c = s.dev.flash.marked.get [] c)) ∧
  (∀ s : State, completes .writeBudgetRefill s fun d =>
    d.timer ioIsle = (s.dev.timer ioIsle / 360000 + 1) * 360000 ∧
    ∀ n, n < 16 → d.flash.spent.get 0 n = s.dev.flash.spent.get 0 n - s.dev.budget n * 1000) ∧
  (∀ (e : Entry) (sound : Bool) (s : State), e.clean = true → ringTakes s.dev 16 0 0 false →
    (s.dev.anyT4 = true → becomes (.flashRebuild e sound) s
      ((headRead s.dev 16 0).complete 16 0 e (headNext s.dev 16 0) 0x48 0)) ∧
    (s.dev.anyT4 = false → becomes (.flashRebuild e sound) s
      ((((headRead s.dev 16 0).updBoot fun b => { b with rebuilt := true }).flashTo
        (if sound then s.dev.flash.served else .failed)).complete 16 0 e (headNext s.dev 16 0) 0 0))) ∧
  (∀ (c : Instr) (s : State), c ∈ [Instr.powerLossSequence, Instr.overvoltage] →
    (s.dev.flash.plp = true ∨ s.dev.boot.aux = false → becomes c s s.dev) ∧
    (s.dev.flash.plp = false → s.dev.boot.aux = true → completes c s fun d =>
      d.flash = { s.dev.flash with state := .unmounted, plp := true, recovered := false, clean := false, dumpOk := false } ∧
      d.boot.step = Nat.min 2 s.dev.boot.step ∧ d.boot.inputOk = false ∧ d.pwr.state = 0 ∧ d.store = s.dev.store ∧
      d.parts.live = [] ∧ d.mem = s.dev.mem)) ∧
  (∀ s : State,
    (s.dev.flash.plp = false → becomes .powerLossSequenceDone s s.dev) ∧
    (s.dev.flash.plp = true → completes .powerLossSequenceDone s fun d =>
      d.flash = { s.dev.flash with
        plp := false
        recovered := false
        dumpOk := true
        state := if s.dev.flash.recovered then .mounting else s.dev.flash.state })) ∧
  (∀ (c : Instr) (s : State), c ∈ [Instr.inputRecover, Instr.overvoltageRecover, Instr.mainInputInRange] →
    becomes c s (s.dev.updBoot fun b => { b with inputOk := true }))

/-- A head with a reason of refusal stops the queue with that reason and is held no more; one that its predicate skips leaves with its signal.
OPT_UPDATE reads the record, the gradient and the state, and takes up the writes of one step. OPT_LATE adds the gradient to the
holding area and counts it while its condition does not hold, is held where one more would reach the lag, and applies the mean of
what is held, clearing it, once the condition holds; a drain applies what is held alone, and ends at once with nothing held.
OPT_DIGCMP sends its miss signal where the digests differ. OPT_UPDATE_DONE writes what was taken up and sends the signal;
OPTE_SKIP_HEAD discards a refused head. -/
def Obligations.OptimiserCommands : Prop :=
  (∀ (k : (Fin 16 → Instr) × Nat) (c : Fin 16) (s : State) (part : Nat) (x : Desc) (rest : List (Nat × Desc)),
    k ∈ ([(.optUpdate, 0x80), (.optLate, 0x81), (.optDigcmp, 0x82)] : List ((Fin 16 → Instr) × Nat)) →
    let o := s.dev.op c.val
    engineHead s.dev (pOpte c.val) c.val part o.q.queue o.q.stopped x rest → o.cur = none →
    (optRefusal x ≠ 0 → completes (k.1 c) s fun d =>
      d.op c.val = { o with held := none, q := { o.q with stopped := true, reason := optRefusal x } } ∧ d.mem = s.dev.mem) ∧
    (optRefusal x = 0 → s.dev.unmet (17 * c.val) x = [] → dOp x = k.2 → s.dev.predSkips (17 * c.val) x = true →
      completes (k.1 c) s fun d => (d.op c.val).q.queue = rest ∧ (d.op c.val).cur = none ∧ d.mem = s.dev.mem ∧
        d.sigs = s.dev.sigs ++ sends (dSig x) part (srcEng 0 c.val 0))) ∧
  (∀ (c : Fin 16) (s : State) (part : Nat) (x : Desc) (rest : List (Nat × Desc)) (d1 d2 : Dev) (rb : Rd),
    let o := s.dev.op c.val
    engineRuns s.dev (pOpte c.val) c.val part o.q.queue o.q.stopped (optRefusal x) x rest → o.cur = none → dOp x = 0x80 →
    s.dev.prepareAll part agEngine false [(oRec x, 256)] = (true, d1) → d1.tRead part agEngine (oRec x) 256 = (rb, d2) →
    rb.fault = false → rb.bad = [] →
    let u := UpRec.of rb.bytes
    let t := if u.gFmt = 4 then d1.tOf c.val u.scG else 0
    let arrs := u.arrays.map fun (a : PArr) => (a, (0 : Int))
    (u.refusal ≠ 0 → completes (.optUpdate c) s fun d =>
      (d.op c.val).q = { o.q with stopped := true, reason := u.refusal }) ∧
    (u.refusal = 0 → u.skipNf = false → ∀ (d3 d4 d5 : Dev) (src st : List PEls) (f1 f2 : Option Nat),
      d1.prepareAll part agEngine false (((u.grad, t) :: arrs).flatMap fun (a : PArr × Int) => a.1.spans) = (true, d3) →
      readArrs part [(u.grad, t)] (d3.opUnheld c.val) = (src, f1, d4) → readArrs part arrs d4 = (st, f2, d5) →
      let r := u.update (oRec x) 1 (src.getD 0 []) st
      completes (.optUpdate c) s fun d =>
        (d.op c.val).q.queue = rest ∧ (d.op c.val).cur = some ⟨x, r.1, r.2, boxCount u.dims, 1⟩)) ∧
  (∀ (c : Fin 16) (s : State) (part : Nat) (x : Desc) (rest : List (Nat × Desc)) (d1 d2 d3 : Dev) (rb hb : Rd),
    let o := s.dev.op c.val
    engineRuns s.dev (pOpte c.val) c.val part o.q.queue o.q.stopped (optRefusal x) x rest → o.cur = none → dOp x = 0x81 →
    s.dev.prepareAll part agEngine false [(oRec x, 256), (oHb x, 64)] = (true, d1) →
    d1.tRead part agEngine (oRec x) 256 = (rb, d2) → d2.tRead part agEngine (oHb x) 64 = (hb, d3) →
    rb.fault = false → rb.bad = [] → hb.fault = false → hb.bad = [] →
    let u := UpRec.of rb.bytes
    let n := boxCount u.dims
    let cnt := fld hb.bytes 0 4
    let fits := fld hb.bytes 4 4 = u.tidW ∧ fld hb.bytes 8 8 = n
    let ready := d1.clHolds c.val (oReady x) (fld x 0x2C 4)
    let arrs := u.arrays.map fun (a : PArr) => (a, (0 : Int))
    let srcs := (if oDrain x then [] else [(u.grad, if u.gFmt = 4 then d1.tOf c.val u.scG else 0)]) ++ [(holding (oHb x) n, 0)]
    u.refusal = 0 → u.skipNf = false →
    (¬ (cnt < u.lag ∧ fits) → completes (.optLate c) s fun d => (d.op c.val).q = { o.q with stopped := true, reason := 0x24 }) ∧
    (cnt < u.lag → fits →
      (ready = false → (if oDrain x then 0 < cnt else cnt + 1 = u.lag) → completes (.optLate c) s fun d =>
        (d.op c.val).held = some (oReady x) ∧ (d.op c.val).q = o.q) ∧
      (ready = false → oDrain x = false → cnt + 1 ≠ u.lag → ∀ (d4 d5 : Dev) (src : List PEls) (f : Option Nat),
        d1.prepareAll part agEngine false (srcs.flatMap fun (a : PArr × Int) => a.1.spans) = (true, d4) →
        readArrs part srcs (d4.opUnheld c.val) = (src, f, d5) →
        let a := ((src.getD 0 []).zip (src.getD 1 [])).map fun (p : (Word × Bool) × (Word × Bool)) =>
          (fadd p.2.1 p.1.1, p.1.2 || p.2.2)
        completes (.optLate c) s fun d => (d.op c.val).q.queue = rest ∧
          (d.op c.val).cur = some ⟨x, [⟨oHb x, leBytes 4 (cnt + 1), []⟩, wordWrite (oHb x + 0x40) a], [(4, 1)], n, 0⟩) ∧
      (oDrain x = true → cnt = 0 → ∀ (d4 d5 : Dev) (src : List PEls) (f : Option Nat),
        d1.prepareAll part agEngine false (srcs.flatMap fun (a : PArr × Int) => a.1.spans) = (true, d4) →
        readArrs part srcs (d4.opUnheld c.val) = (src, f, d5) →
        completes (.optLate c) s fun d => (d.op c.val).q.queue = rest ∧ (d.op c.val).cur = none ∧
          d.sigs = s.dev.sigs ++ sends (dSig x) part (srcEng 0 c.val 0)) ∧
      (ready = true → (oDrain x = true → 0 < cnt) → ∀ (d4 d5 d6 : Dev) (src st : List PEls) (f1 f2 : Option Nat),
        d1.prepareAll part agEngine false ((srcs ++ arrs).flatMap fun (a : PArr × Int) => a.1.spans) = (true, d4) →
        readArrs part srcs (d4.opUnheld c.val) = (src, f1, d5) → readArrs part arrs d5 = (st, f2, d6) →
        let a := if oDrain x then src.getD 0 [] else
          ((src.getD 0 []).zip (src.getD 1 [])).map fun (p : (Word × Bool) × (Word × Bool)) => (fadd p.2.1 p.1.1, p.1.2 || p.2.2)
        let j := if oDrain x then cnt else cnt + 1
        let r := u.update (oRec x) j (a.map fun (e : Word × Bool) => (fdiv e.1 (fNat j), e.2)) st
        completes (.optLate c) s fun d => (d.op c.val).q.queue = rest ∧
          (d.op c.val).cur = some ⟨x, [wordWrite (oHb x) [(0#32, false)], wordWrite (oHb x + 0x40) (a.map fun _ => (0#32, false))] ++ r.1, r.2 ++ [(5, 1)], n, j⟩))) ∧
  (∀ (c : Fin 16) (s : State) (part : Nat) (x : Desc) (rest : List (Nat × Desc)) (d1 d2 d3 : Dev) (a b : Rd),
    let o := s.dev.op c.val
    let src := srcEng 0 c.val 0
    engineRuns s.dev (pOpte c.val) c.val part o.q.queue o.q.stopped (optRefusal x) x rest → o.cur = none → dOp x = 0x82 →
    s.dev.prepareAll part agEngine false [(fld x 0x20 8, 64), (fld x 0x28 8, 64)] = (true, d1) →
    d1.tRead part agEngine (fld x 0x20 8) 64 = (a, d2) → d2.tRead part agEngine (fld x 0x28 8) 64 = (b, d3) →
    a.fault = false → a.bad = [] → b.fault = false → b.bad = [] →
    completes (.optDigcmp c) s fun d => (d.op c.val).q.queue = rest ∧
      d.sigs = s.dev.sigs ++ (if a.bytes = b.bytes then [] else sends (oMiss x) part src) ++ sends (dSig x) part src) ∧
  (∀ (c : Fin 16) (s : State) (part : Nat) (r : OptRun) (d1 : Dev), (s.dev.op c.val).cur = some r →
    s.dev.clusterOwner c.val = some part →
    s.dev.prepareAll part agEngine true (r.writes.map fun (w : VaWr) => (w.va, w.bytes.length)) = (true, d1) →
    completes (.optUpdateDone c) s fun d => (d.op c.val).cur = none ∧ (d.op c.val).q = (s.dev.op c.val).q ∧
      d.mem = (r.writes.foldl (fun (d : Dev) (w : VaWr) => d.tWrite part agEngine w.va w.bytes w.bad) d1).mem ∧
      d.sigs = s.dev.sigs ++ sends (dSig r.desc) part (srcEng 0 c.val 0)) ∧
  (∀ (v : View) (c : Fin 16) (s : State), opens s.dev v (pOpte c.val) →
    let q := (s.dev.op c.val).q
    (q.stopped = true → becomes (.opteSkipHead v c) s (s.dev.updOp c.val fun o => { o with q := ⟨q.queue.tail, false, 0⟩ })) ∧
    (q.stopped = false → becomes (.opteSkipHead v c) s s.dev))

/-- SCALE_REPORT adds the report to its entry; a Calibrating entry that has all its reports settles, and its waiting producers take
a scale; a Free entry is left alone. SCALE_ROLL, where the step counter has changed, moves the step's maximum into the history,
clears the step's fields and chooses the scale of a Live entry; otherwise it does nothing. CONVERSION_PASS takes a settled, granted
producer, the first of its engine at a descriptor boundary, off the list, writes its converted output and sends its signal.
HW_RECOMPUTE_DONE ends a capture, and reports a mismatch in NWCH_HW_LAST and by record 0x020A. -/
def Obligations.WatchCommands : Prop :=
  (∀ (c : Fin 16) (i : Nat) (s : State),
    ((s.dev.nw c.val).reports[i]? = none → becomes (.scaleReport c i) s s.dev) ∧
    (∀ r, (s.dev.nw c.val).reports[i]? = some r →
      let e := s.dev.entry c.val r.entry
      let m := { e with
        stepAmax := if e.stepAmax.toNat < r.amax.toNat then r.amax else e.stepAmax
        reports := (e.reports + 1) % 2 ^ 32
        zeros := (e.zeros + r.zeros) % 2 ^ 64
        elements := (e.elements + r.elems) % 2 ^ 64
        nonfin := e.nonfin || r.nonfinite
        grad := e.grad || r.grad }
      let all : Prop := e.state = .calibrating ∧ e.settled = false ∧ m.producers ≤ m.reports
      completes (.scaleReport c i) s fun d => (d.nw c.val).reports = (s.dev.nw c.val).reports.eraseIdx i ∧
        (e.state = .free → d.entry c.val r.entry = e) ∧
        (e.state ≠ .free → ¬ all → d.entry c.val r.entry = m) ∧
        (all → (d.entry c.val r.entry).settled = true ∧ (d.entry c.val r.entry).state = .calibrating ∧
          (∀ f x y, vOf m.stepAmax = .fin false x y → m.fmt = f → f = 3 ∨ f = 4 →
            (d.entry c.val r.entry).scale = chooseScale (.fin false x y) f 0)) ∧
        (e.state = .live ∨ (e.state = .calibrating ∧ e.settled = true) ∨ all →
          ∀ a ∈ (d.nw c.val).awaits, a.entry = r.entry → a.settled = true))) ∧
  (∀ (c : Fin 16) (i : Nat) (s : State),
    let e := s.dev.entry c.val i
    let now := s.dev.stepVal c.val e
    (0x3FE < i ∨ e.state = .free ∨ now = e.lastRoll → becomes (.scaleRoll c i) s s.dev) ∧
    (i ≤ 0x3FE → e.state ≠ .free → now ≠ e.lastRoll → completes (.scaleRoll c i) s fun d =>
      let f := d.entry c.val i
      f.history = (slotsOf e).set e.hpos e.stepAmax ∧ f.hpos = (e.hpos + 1) % e.hlen ∧ f.hcount = Nat.min (e.hcount + 1) e.hlen ∧
      f.stepAmax = 0#32 ∧ f.reports = 0 ∧ f.zeros = 0 ∧ f.elements = 0 ∧ f.nonfin = false ∧ f.settled = false ∧ f.lastRoll = now ∧
      (e.state = .calibrating → f.calLeft = e.calLeft - 1 ∧ f.state = if e.calLeft ≤ 1 then .live else .calibrating) ∧
      (e.state = .live → f.state = .live) ∧
      (∀ x y, f.state = .live → e.fmt ≠ 0 → histMax f = .fin false x y → f.scale = chooseScale (.fin false x y) e.fmt e.margin) ∧
      (e.elements = 0 → f.lastZf = 0x3F800000#32))) ∧
  (∀ (c : Fin 16) (i : Nat) (s : State) (a : Await) (part : Nat), (s.dev.nw c.val).awaits[i]? = some a →
    s.dev.clusterOwner c.val = some part →
    let first : Bool := !((s.dev.nw c.val).awaits.take i).any fun (b : Await) => b.core == a.core && b.queue == a.queue && b.settled
    let may : Bool := a.settled && a.granted && first && s.dev.atBoundary a
    (may = false → becomes (.conversionPass c i) s s.dev) ∧
    (may = true → ∀ d1, (if a.queue = 4 then s.dev.wakeKeys (s.dev.mvKeys (a.core / 17 / 4)) else (true, s.dev)) = (true, d1) →
      completes (.conversionPass c i) s fun d => (d.nw c.val).awaits = (s.dev.nw c.val).awaits.eraseIdx i ∧
        d.mem = (d1.land (convWrites a (d1.convDrain a))).mem ∧
        d.sigs = s.dev.sigs ++ sends (dSig a.desc) part (if a.queue = 4 then srcEng 3 (a.core / 17 / 4) 0 else srcCore a.core a.queue))) ∧
  (∀ (c : CoreId) (s : State),
    let n := s.dev.instOf c
    let cl := c.cluster.val
    let tol := Nat.max 1 (bits (s.dev.reg (pNwch cl) 0x040) 6 4)
    ((s.dev.core n).capture = none → becomes (.hwRecomputeDone c) s s.dev) ∧
    (∀ x, (s.dev.core n).capture = some x →
      (x.seg.outs.any (outMismatch tol) = false → becomes (.hwRecomputeDone c) s
        ((s.dev.updCore n fun k => { k with capture := none }).nwCnt cl 0 1)) ∧
      (x.seg.outs.any (outMismatch tol) = true → completes (.hwRecomputeDone c) s fun d =>
        (d.nw cl).hwLast = some ((s.dev.nw cl).hwLast.getD (c.core.val, x.seg.array % 32, x.count % 65536)) ∧
        (s.dev.errm.queue.length < 256 → ∃ r ∈ d.errm.queue, r.code = 0x020A#16 ∧ r.sev = .u))))

/-- Each command has its status in this order: 1 for an entry above 0x3FE; 5 for a SETTLE of an entry that does not calibrate; 2
while a producer awaits conversion; 4 for an image that WRITE cannot take; 3 for a FREE of a gradient's entry; 7 for a CALIBRATE
of a Free entry; 0 otherwise, when WRITE, SETTLE, FREE and CALIBRATE change the entry. Through the window the command runs whole,
the status shows, and READ leaves the entry's image in the data words. SC_OP runs the same from a descriptor: a refused head stops
the queue, 0x20 where the record is not in writable T1; a skipped one leaves with its signal; one that runs writes READ's image
and the status to memory and sends its signal. NWCH_SKIP_HEAD discards a refused head. -/
def Obligations.ScaleTableCommands : Prop :=
  (∀ (c i cmd : Nat) (img : List Byte) (d : Dev),
    let e := d.entry c i
    let r := scCommand c i cmd img d
    (0x3FE < i → r = (1, d)) ∧
    (i ≤ 0x3FE →
      (cmd = 1 → r.1 = 0 ∧ r.2.nwch = d.nwch) ∧
      (cmd = 3 → (e.state ≠ .calibrating → r = (5, d)) ∧ (e.state = .calibrating → r.1 = 0 ∧ (r.2.entry c i).settled = true)) ∧
      (cmd = 2 ∨ cmd = 4 ∨ cmd = 5 → d.awaits c i = true → r = (2, d)) ∧
      (d.awaits c i = false →
        (cmd = 2 → (imageBad img = true → r = (4, d)) ∧ (imageBad img = false → r.1 = 0 ∧
          let n := Entry192.of img
          let f := r.2.entry c i
          f.state = n.state ∧ f.fmt = n.fmt ∧ f.scale = n.scale ∧ f.hlen = n.hlen ∧ f.history = n.history ∧ f.producers = n.producers ∧
          f.grad = (n.grad || e.grad) ∧ f.settled = false ∧ f.nonfin = false ∧ f.lastRoll = d.stepVal c n)) ∧
        (cmd = 4 → (e.grad = true → r = (3, d)) ∧ (e.grad = false → r.1 = 0 ∧ r.2.entry c i = { e with state := .free })) ∧
        (cmd = 5 → (e.state = .free → r = (7, d)) ∧ (e.state ≠ .free → r.1 = 0 ∧
          r.2.entry c i = { e with state := .calibrating, calLeft := e.hlen, hcount := 0, hpos := 0, history := [], stepAmax := 0#32, reports := 0, zeros := 0, elements := 0, nonfin := false, settled := false }))))) ∧
  (∀ (k : (View → Fin 16 → Instr) × Nat) (v : View) (c : Fin 16) (s : State),
    k ∈ ([(.scRead, 1), (.scWrite, 2), (.scSettle, 3), (.scFree, 4), (.scCalibrate, 5)] : List ((View → Fin 16 → Instr) × Nat)) →
    opens s.dev v (pNwch c.val) →
    let i := s.dev.reg (pNwch c.val) 0x064
    let r := scCommand c.val i k.2 (s.dev.scData c.val) s.dev
    completes (k.1 v c) s fun d => d.nw c.val = { r.2.nw c.val with scStatus := r.1 } ∧ d.mem = s.dev.mem ∧
      (k.2 = 1 → r.1 = 0 → d.scData c.val = (s.dev.entry c.val i).bytes)) ∧
  (∀ (c : Fin 16) (s : State) (part : Nat) (x : Desc) (rest : List (Nat × Desc)),
    let n := s.dev.nw c.val
    let va := scVa x
    let src := srcEng 2 c.val 0
    (engineHead s.dev (pNwch c.val) c.val part n.queue n.stopped x rest → scRefusal x ≠ 0 →
      completes (.scOp c) s fun d => d.nw c.val = { n with stopped := true, reason := scRefusal x } ∧ d.mem = s.dev.mem) ∧
    (engineHead s.dev (pNwch c.val) c.val part n.queue n.stopped x rest → scRefusal x = 0 → s.dev.unmet (17 * c.val) x = [] →
      s.dev.predSkips (17 * c.val) x = true → completes (.scOp c) s fun d => d.nw c.val = { n with queue := rest } ∧
        d.mem = s.dev.mem ∧ d.sigs = s.dev.sigs ++ sends (dSig x) part src) ∧
    (engineRuns s.dev (pNwch c.val) c.val part n.queue n.stopped (scRefusal x) x rest →
      (s.dev.inT1w part va 196 = false → completes (.scOp c) s fun d => d.nw c.val = { n with stopped := true, reason := 0x20 }) ∧
      (s.dev.inT1w part va 196 = true → scCmd x ≠ 2 →
        let r := scCommand c.val (scEntry x) (scCmd x) (s.dev.tRead part agEngine va 192).1.bytes
          (s.dev.updNw c.val fun n => { n with queue := rest })
        let d1 := if scCmd x = 1 ∧ r.1 = 0 then r.2.tWrite part agEngine va (r.2.entry c.val (scEntry x)).bytes [] else r.2
        completes (.scOp c) s fun d => d.nw c.val = r.2.nw c.val ∧
          d.mem = (d1.tWrite part agEngine (va + 0xC0) (leBytes 4 r.1) []).mem ∧
          d.sigs = s.dev.sigs ++ sends (dSig x) part src) ∧
      (s.dev.inT1w part va 196 = true → scCmd x = 2 → ∀ b d1, s.dev.tRead part agEngine va 192 = (b, d1) →
        (b.fault = true ∨ b.bad ≠ [] → completes (.scOp c) s fun d => d.nw c.val = { n with stopped := true, reason := 0x20 }) ∧
        (b.fault = false → b.bad = [] → completes (.scOp c) s fun d => (d.nw c.val).queue = rest ∧
          d.sigs = s.dev.sigs ++ sends (dSig x) part src ∧
          (scCommand c.val (scEntry x) 2 b.bytes s.dev).2.entry c.val (scEntry x) = d.entry c.val (scEntry x))))) ∧
  (∀ (v : View) (c : Fin 16) (s : State), opens s.dev v (pNwch c.val) →
    let n := s.dev.nw c.val
    (n.stopped = true → becomes (.nwchSkipHead v c) s (s.dev.updNw c.val fun n => { n with queue := n.queue.tail, stopped := false, reason := 0 })) ∧
    (n.stopped = false → becomes (.nwchSkipHead v c) s s.dev))

/-- RED_CHAIN and RED_GATHER stop the queue for a head with a reason of refusal, send the signal of a skipped one, and issue one
whose group record is sound: it becomes active, or has ended. With no other member to reach it ends with status 0. A message for
the next tag is held, one for an ended tag counted, one that disagrees with the active descriptor ends it with status 3. A running
sum adds this member's piece and goes on to the next; finished and gathered bytes are written and leave the list of pieces to
come. REDE_NO_PROGRESS_TIMEOUT ends the active descriptor with status 1; REDE_SKIP_HEAD discards a refused head. -/
def Obligations.ReductionCommands : Prop :=
  (∀ (k : (Fin 16 → Instr) × Nat) (c : Fin 16) (s : State) (part : Nat) (x : Desc) (rest : List (Nat × Desc)),
    k ∈ ([(.redChain, 0xA0), (.redGather, 0xA1)] : List ((Fin 16 → Instr) × Nat)) →
    let r := s.dev.red c.val
    let b := RedBody.of x
    let src := srcEng 1 c.val 0
    r.act = none →
    (engineHead s.dev (pRede c.val) c.val part r.q0.queue r.q0.stopped x rest →
      (redRefusal 0 x ≠ 0 → completes (k.1 c) s fun d =>
        d.red c.val = { r with q0 := { r.q0 with stopped := true, reason := redRefusal 0 x } } ∧ d.mem = s.dev.mem) ∧
      (redRefusal 0 x = 0 → s.dev.unmet (17 * c.val) x = [] → dOp x = k.2 → s.dev.predSkips (17 * c.val) x = true →
        completes (k.1 c) s fun d => (d.red c.val).q0.queue = rest ∧ (d.red c.val).act = none ∧ d.mem = s.dev.mem ∧
          d.sigs = s.dev.sigs ++ sends (dSig x) part src)) ∧
    (engineRuns s.dev (pRede c.val) c.val part r.q0.queue r.q0.stopped (redRefusal 0 x) x rest → dOp x = k.2 → ∀ (t : Option (List Byte)) (d1 : Dev),
      s.dev.readTable part b.grp 0x40 groupTail = (t, true, d1) →
      (t.filter groupOk = none → completes (k.1 c) s fun d => (d.red c.val).q0 = { r.q0 with stopped := true, reason := 0x30 }) ∧
      (∀ g, t.filter groupOk = some g →
        let q : RedPath := ⟨b, Group.of g⟩
        let rx := s.dev.reg (pRede c.val) 0x058
        let bad : Prop := b.count = 0 ∨ (b.homed = true ∧ b.count % (q.nodes * q.pe) ≠ 0)
        let room : Prop := q.links ≤ bits rx 14 8 ∧ bits rx 5 0 + bits rx 14 8 ≤ 64
        (bad → completes (k.1 c) s fun d => (d.red c.val).q0 = { r.q0 with stopped := true, reason := 0x31 }) ∧
        (¬ bad → ¬ room → completes (k.1 c) s fun d => (d.red c.val).q0 = { r.q0 with stopped := true, reason := 0x35 }) ∧
        (¬ bad → room → completes (k.1 c) s fun d => (d.red c.val).q0.queue = rest ∧
          ((∃ a, (d.red c.val).act = some a ∧ a.desc = x ∧ a.grp = q.g) ∨
            ((d.red c.val).act = none ∧ (d.red c.val).lastOp = k.2 ∧ b.tag ∈ (d.red c.val).ended))) ∧
        (¬ bad → room → q.nodes = 1 → (k.2 = 0xA0 → q.inner = 1) → q.np = 1 → r.held = [] → b.srcBuf = true → b.dstBuf = true →
          b.src + q.elems 0 * 4 ≤ bufBytes → d1.firstPoison (bufKey c.val b.src) (q.elems 0 * 4) = none →
          completes (k.1 c) s fun d => (d.red c.val).act = none ∧ (d.red c.val).lastStatus = 0 ∧ (d.red c.val).lastOp = k.2 ∧
            d.sigs = s.dev.sigs ++ sends (dSig x) part src)))) ∧
  (∀ (k : (Fin 16 → RedMsg → Instr) × Nat) (c : Fin 16) (m : RedMsg) (s : State) (part : Nat),
    k ∈ ([(.runningSum, 1), (.finishedBytes, 2), (.gatherBytes, 3)] : List ((Fin 16 → RedMsg → Instr) × Nat)) →
    s.dev.clusterOwner c.val = some part → s.dev.redAwake c.val = (true, s.dev) →
    let r := s.dev.red c.val
    let tag := m.tag.toNat
    let p := m.piece.toNat
    ((∀ a, r.act = some a → (RedBody.of a.desc).tag ≠ tag) →
      (r.nextTag = some tag → becomes (k.1 c m) s (s.dev.updRed c.val fun r => { r with held := r.held ++ [(k.2, m)] })) ∧
      (r.nextTag ≠ some tag → tag ∈ r.ended → becomes (k.1 c m) s (s.dev.redCnt c.val 11 1)) ∧
      (r.nextTag ≠ some tag → tag ∉ r.ended → becomes (k.1 c m) s s.dev)) ∧
    (∀ a, r.act = some a → (RedBody.of a.desc).tag = tag →
      let q := a.path
      let now := s.dev.timer (fabIsle c.val)
      (q.agrees k.2 m = false → completes (k.1 c m) s fun d => (d.red c.val).act = none ∧ (d.red c.val).lastStatus = 3 ∧
        tag ∈ (d.red c.val).ended ∧ d.sigs = s.dev.sigs ++ sends (dSig a.desc) part (srcEng 1 c.val 0)) ∧
      (q.agrees k.2 m = true → a.stale k.2 m = true → becomes (k.1 c m) s (s.dev.redCnt c.val 11 1)) ∧
      (q.agrees k.2 m = true → a.stale k.2 m = false → p ∈ a.left →
        (k.2 = 1 → m.level = 0 → q.pos p ≠ q.it p → q.b.srcBuf = true → q.b.src + p * q.pe * 4 + q.elems p * 4 ≤ bufBytes →
          s.dev.firstPoison (bufKey c.val (q.b.src + p * q.pe * 4)) (q.elems p * 4) = none →
          let x := wordsOf (s.dev.rd (bufKey c.val (q.b.src + p * q.pe * 4)) (q.elems p * 4))
          let v := ((wordsOf m.payload).zip x).map fun (e : Word × Word) => fadd e.1 e.2
          let next := q.nextIn p (q.pos p)
          completes (k.1 c m) s fun d =>
            (d.red c.val).act = some { a with start := a.start.del p, todo := a.todo.del p, since := now } ∧ d.mem = s.dev.mem ∧
            ∃ o : RedMsg, Output.red next.dev next.cluster next.part 1 o ∈ d.out ∧ o.payload = wordBytes v ∧ o.tag = m.tag ∧ o.piece = m.piece) ∧
        (k.2 ≠ 1 → q.b.dstBuf = true → a.left.del p ≠ [] → completes (k.1 c m) s fun d =>
          (d.red c.val).act = some { a with left := a.left.del p, since := now } ∧
          d.mem = (s.dev.redPut c.val part true (q.b.dst + q.dstOff p) m.payload).mem)))) ∧
  (∀ (c : Fin 16) (s : State) (part : Nat), s.dev.clusterOwner c.val = some part →
    let r := s.dev.red c.val
    (∀ a, r.act = some a → completes (.redeNoProgressTimeout c 0) s fun d => (d.red c.val).act = none ∧
      (d.red c.val).lastStatus = 1 ∧ a.path.b.tag ∈ (d.red c.val).ended ∧ a.since + s.dev.redLimit c.val ≤ d.timer (fabIsle c.val) ∧
      d.sigs = s.dev.sigs ++ sends (dSig a.desc) part (srcEng 1 c.val 0)) ∧
    (∀ x t, r.comb = some (x, t) → completes (.redeNoProgressTimeout c 2) s fun d => (d.red c.val).comb = none ∧
      (d.red c.val).lastStatus = 1 ∧ d.sigs = s.dev.sigs ++ sends (dSig x) part (srcEng 1 c.val 2)) ∧
    (r.act = none → becomes (.redeNoProgressTimeout c 0) s s.dev) ∧ becomes (.redeNoProgressTimeout c 1) s s.dev) ∧
  (∀ (v : View) (c : Fin 16) (q : Fin 3) (s : State), opens s.dev v (pRede c.val) →
    let e := (s.dev.red c.val).q q.val
    (e.stopped = true → becomes (.redeSkipHead v c q) s (s.dev.updRed c.val fun r => r.setQ q.val ⟨e.queue.tail, false, 0⟩)) ∧
    (e.stopped = false → becomes (.redeSkipHead v c q) s s.dev))

/-- The heads of queues 1 and 2 are refused and skipped as those of queue 0 are. PIPE_SEND stops with 0x32 for a bad record, is held
while the receiver has no free slot, and otherwise sends the data to the next slot, counts it in the record and ends with status 0.
PIPE_FREE counts the slots in the record, returns the credits and ends with status 0. PIPE_DATA for the record's link is written
to its slot with one signal; PIPE_CREDIT adds to the record's count with a signal of as many; a message that does not fit the
record is dropped. -/
def Obligations.PipelineCommands : Prop :=
  (∀ (k : (Fin 16 → Instr) × (Nat × Nat)) (c : Fin 16) (s : State) (part : Nat) (x : Desc) (rest : List (Nat × Desc)),
    k ∈ ([(.pipeSend, 1, 0xA4), (.pipeFree, 1, 0xA5), (.tokRoute, 2, 0xA8), (.tokReturn, 2, 0xA9), (.tokCombine, 2, 0xAA)] :
      List ((Fin 16 → Instr) × (Nat × Nat))) →
    let i := k.2.1
    let r := s.dev.red c.val
    engineHead s.dev (pRede c.val) c.val part (r.q i).queue (r.q i).stopped x rest → r.comb = none →
    (redRefusal i x ≠ 0 → completes (k.1 c) s fun d =>
      d.red c.val = r.setQ i { r.q i with stopped := true, reason := redRefusal i x } ∧ d.mem = s.dev.mem) ∧
    (redRefusal i x = 0 → s.dev.unmet (17 * c.val) x = [] → dOp x = k.2.2 → s.dev.predSkips (17 * c.val) x = true →
      completes (k.1 c) s fun d => ((d.red c.val).q i).queue = rest ∧ d.mem = s.dev.mem ∧
        d.sigs = s.dev.sigs ++ sends (dSig x) part (srcEng 1 c.val i))) ∧
  (∀ (c : Fin 16) (s : State) (part : Nat) (x : Desc) (rest : List (Nat × Desc)) (l : Option Link) (d1 : Dev),
    let r := s.dev.red c.val
    let va := fld x 0x20 8
    engineRuns s.dev (pRede c.val) c.val part r.q1.queue r.q1.stopped (redRefusal 1 x) x rest → s.dev.readLink part va = (l, true, d1) →
    let stops (cmd : Instr) : Prop := completes cmd s fun d => (d.red c.val).q1 = { r.q1 with stopped := true, reason := 0x32 }
    (dOp x = 0xA4 →
      let a := fld x 0x28 8
      let n := fld x 0x30 4
      ((∀ k, l = some k → k.role ≠ 0 ∨ k.slotBytes < n) → stops (.pipeSend c)) ∧
      (∀ k, l = some k → k.role = 0 → n ≤ k.slotBytes →
        (k.q ≤ k.sent - k.freed → completes (.pipeSend c) s fun d => (d.red c.val).q1 = r.q1 ∧ (d.red c.val).pipe = some k.peer.dev) ∧
        (k.sent - k.freed < k.q → ∀ d2 d3 bytes, d1.redReady part (bit a 52) false (bits a 51 0) n = (true, d2) →
          d2.redSrc c.val part (bit a 52) (bits a 51 0) n = (some bytes, d3) →
          completes (.pipeSend c) s fun d => (d.red c.val).q1.queue = rest ∧ (d.red c.val).pipe = none ∧ (d.red c.val).lastStatus = 0 ∧
            d.mem = (d3.tWrite part agEngine (va + 0x28) (leBytes 8 (k.sent + 1)) []).mem ∧
            d.sigs = s.dev.sigs ++ sends (dSig x) part (srcEng 1 c.val 1) ∧
            ∃ o : RedMsg, Output.red k.peer.dev k.peer.cluster k.peer.part 4 o ∈ d.out ∧ o.payload = bytes ∧
              o.tag = BitVec.ofNat 32 k.id ∧ o.piece = BitVec.ofNat 32 (k.sent % k.q)))) ∧
    (dOp x = 0xA5 →
      let n := fld x 0x28 1
      ((∀ k, l = some k → k.role ≠ 1) → stops (.pipeFree c)) ∧
      (∀ k, l = some k → k.role = 1 → completes (.pipeFree c) s fun d => (d.red c.val).q1.queue = rest ∧
        (d.red c.val).lastStatus = 0 ∧ d.mem = (d1.tWrite part agEngine (va + 0x30) (leBytes 8 (k.freed + n)) []).mem ∧
        d.sigs = s.dev.sigs ++ sends (dSig x) part (srcEng 1 c.val 1) ∧
        ∃ o : RedMsg, Output.red k.peer.dev k.peer.cluster k.peer.part 5 o ∈ d.out ∧ o.count = BitVec.ofNat 32 n ∧
          o.tag = BitVec.ofNat 32 k.id))) ∧
  (∀ (c : Fin 16) (va : Nat) (m : RedMsg) (s : State) (part : Nat) (l : Option Link) (ok : Bool) (d1 : Dev),
    s.dev.clusterOwner c.val = some part → s.dev.redAwake c.val = (true, s.dev) → s.dev.readLink part va = (l, ok, d1) →
    let ours (k : Link) : Prop := k.id = m.tag.toNat ∧ k.peer.dev = m.fromDev.toNat
    let fits (k : Link) : Prop := k.role = 1 ∧ ours k ∧ m.piece.toNat < k.q ∧ m.payload.length ≤ k.slotBytes
    ((∀ k, l = some k → ¬ fits k) → becomes (.pipeData c va m) s d1) ∧
    (∀ k, l = some k → fits k → ∀ d2, d1.prepare part agEngine true (k.slots + m.piece.toNat * k.slotBytes) m.payload.length = (true, d2) →
      completes (.pipeData c va m) s fun d =>
        d.mem = (d2.tWrite part agEngine (k.slots + m.piece.toNat * k.slotBytes) m.payload []).mem ∧
        d.sigs = s.dev.sigs ++ sends (clusterSig c.val k.arrival 1) part (srcEng 1 c.val 3)) ∧
    ((∀ k, l = some k → ¬ (k.role = 0 ∧ ours k)) → becomes (.pipeCredit c va m) s d1) ∧
    (∀ k, l = some k → k.role = 0 → ours k → completes (.pipeCredit c va m) s fun d =>
      d.mem = (d1.tWrite part agEngine (va + 0x30) (leBytes 8 (k.freed + m.count.toNat)) []).mem ∧
      d.sigs = s.dev.sigs ++ sends (clusterSig c.val k.credit (m.count.toNat % 256)) part (srcEng 1 c.val 3)))

/-- TOK_ROUTE with sound tables and readable tokens routes them, records the kept rows as open under its tag and ends with status 0;
with an unsound record it stops with 0x33. TOKEN_ROWS for a slot of a tag under way writes at most the slot's capacity and their
count, and the tag is done when all its sources have been heard. TOK_RETURN sends each known source its rows and ends with status
0. TOKEN_RETURN writes the rows of a member's slot and closes them, with status 5 where some are lost to overflow. TOK_COMBINE waits
for open rows, and ends with the status that its rows left once there are none. SLOT_TAG_TIMEOUT completes an open tag. -/
def Obligations.TokenCommands : Prop :=
  (∀ (c : Fin 16) (s : State) (part : Nat) (x : Desc) (rest : List (Nat × Desc)) (h : Option (List Byte)) (d1 : Dev),
    let r := s.dev.red c.val
    let va := fld x 0x20 8
    let w := fld x 0x38 4
    let t := bits w 15 0
    let k := bits w 19 16
    let tag := fld x 0x3C 4
    engineRuns s.dev (pRede c.val) c.val part r.q2.queue r.q2.stopped (redRefusal 2 x) x rest → dOp x = 0xA8 → r.comb = none →
    s.dev.readTable part va 64 (fun _ => 0) = (h, true, d1) →
    ((h.map Route.of).filter (fun (q : Route) => q.ok) = none →
      completes (.tokRoute c) s fun d => (d.red c.val).q2 = { r.q2 with stopped := true, reason := 0x33 }) ∧
    (∀ q mb d2 m, (h.map Route.of).filter (fun (q : Route) => q.ok) = some q → d1.readTable part q.map 16 expTail = (mb, true, d2) →
      (mb.filter expOk).map ExpMap.of = some m →
      (q.e ≠ m.experts.length ∨ m.members.length ≤ q.me →
        completes (.tokRoute c) s fun d => (d.red c.val).q2 = { r.q2 with stopped := true, reason := 0x33 }) ∧
      (q.e = m.experts.length → q.me < m.members.length → ∀ d3 lg d4 tk d5,
        let pitch := cdiv (4 * q.e) 64 * 64
        d2.prepareAll part agEngine false [(fld x 0x28 8, t * pitch), (fld x 0x30 8, t * q.rowBytes)] = (true, d3) →
        d3.tRead part agEngine (fld x 0x28 8) (t * pitch) = (lg, d4) → d4.tRead part agEngine (fld x 0x30 8) (t * q.rowBytes) = (tk, d5) →
        lg.fault = false → lg.bad = [] → tk.fault = false → tk.bad = [] →
        let rows := (List.range t).map fun i => wordsOf ((lg.bytes.drop (i * pitch)).take (4 * q.e))
        let all := routeAll m d5.free (cdiv (q.cf * t * k) (256 * q.e)) q.me k (bits w 20 20) rows
        let kept := all.2.filter fun (a : Assign) => a.pos.isSome
        completes (.tokRoute c) s fun d => (d.red c.val).q2.queue = rest ∧ (d.red c.val).lastStatus = 0 ∧
          (d.red c.val).runs = (r.runs.filter fun (o : TokRun) => o.tag ≠ tag) ++ [⟨tag, q.ret, q.rowBytes, k, all.1,
            kept.map fun (a : Assign) => (⟨a.token * k + a.rank, a.member, a.slot, a.pos.getD 0, (m.members.getD a.member ⟨0, 0, 0⟩).dev⟩ : TokRow), 0⟩] ∧
          d.sigs = s.dev.sigs ++ sends (dSig x) part (srcEng 1 c.val 2)))) ∧
  (∀ (die : Fin 4) (p : Fin 16) (m : RedMsg) (s : State) (e : SlotEnt) (ok : Bool) (d1 d2 : Dev),
    let k := m.piece.toNat
    let q := m.sender.toNat
    let tag := m.tag.toNat
    let n := Nat.min m.elems.toNat e.cap
    let t := (s.dev.tokx.open_.find? fun (o : SlotTag) => o.is die.val p.val k tag).getD ⟨die.val, p.val, k, tag, [], [], 0, 0⟩
    (die.val, p.val, k, tag) ∉ s.dev.tokx.done → k < s.dev.slotCount die.val p.val →
    s.dev.slotEnt die.val p.val k = (some e, ok, d1) → q < e.nsrc →
    d1.prepareAll p.val agEngine true ((e.counts + 2 * q, 2) :: e.places) = (true, d2) →
    completes (.tokenRows die p m) s fun d => d.tokx.srcs.find? (srcKey die.val p.val k q) = some m.fromDev.toNat ∧
      ((t.heard.add q).length < e.nsrc → (∃ o ∈ d.tokx.open_, o.is die.val p.val k tag = true ∧ o.total = t.total + n) ∧
        (∀ x ∈ d.tokx.done, x ∈ s.dev.tokx.done) ∧ d.sigs = s.dev.sigs) ∧
      (e.nsrc ≤ (t.heard.add q).length → (die.val, p.val, k, tag) ∈ d.tokx.done ∧
        (∀ o ∈ d.tokx.open_, o.is die.val p.val k tag = false))) ∧
  (∀ (c : Fin 16) (s : State) (part : Nat) (x : Desc) (rest : List (Nat × Desc)) (e : SlotEnt) (d1 d2 d3 d4 : Dev) (ks rs : Rd),
    let r := s.dev.red c.val
    let die := c.val / 4
    let k := fld x 0x28 1
    let buf := fld x 0x20 8
    engineRuns s.dev (pRede c.val) c.val part r.q2.queue r.q2.stopped (redRefusal 2 x) x rest → dOp x = 0xA9 → r.comb = none →
    (s.dev.slotCount die part ≤ k → completes (.tokReturn c) s fun d => (d.red c.val).q2 = { r.q2 with stopped := true, reason := 0x33 }) ∧
    (k < s.dev.slotCount die part → s.dev.slotEnt die part k = (some e, true, d1) →
      d1.prepareAll part agEngine false [(buf, e.nsrc * e.cap * e.rowBytes), (e.counts, 2 * e.nsrc)] = (true, d2) →
      d2.tRead part agEngine e.counts (2 * e.nsrc) = (ks, d3) → d3.tRead part agEngine buf (e.nsrc * e.cap * e.rowBytes) = (rs, d4) →
      ks.fault = false → ks.bad = [] → rs.bad = [] → completes (.tokReturn c) s fun d => (d.red c.val).q2.queue = rest ∧
        (d.red c.val).lastStatus = 0 ∧ d.sigs = s.dev.sigs ++ sends (dSig x) part (srcEng 1 c.val 2) ∧
        ∀ q dev, q < e.nsrc → s.dev.tokx.srcs.find? (srcKey die part k q) = some dev →
          ∃ (cl : Nat) (o : RedMsg), Output.red dev cl part 7 o ∈ d.out ∧
            o.payload = (rs.bytes.drop (q * e.cap * e.rowBytes)).take (Nat.min e.cap (fld ks.bytes (2 * q) 2) * e.rowBytes))) ∧
  (∀ (c : Fin 16) (m : RedMsg) (s : State) (part : Nat) (run : TokRun) (d1 : Dev),
    let r := s.dev.red c.val
    let mine := run.open_.filter fun (o : TokRow) => o.member = m.sender.toNat && o.slot = m.piece.toNat
    s.dev.clusterOwner c.val = some part → s.dev.redAwake c.val = (true, s.dev) → r.comb = none →
    r.runs.find? (fun (o : TokRun) => o.tag == m.tag.toNat) = some run → mine ≠ [] →
    s.dev.prepareAll part agEngine true (mine.map fun (o : TokRow) => (run.ret + o.row * run.rowBytes, run.rowBytes)) = (true, d1) →
    completes (.tokenReturn c m) s fun d => (d.red c.val).runs.find? (fun (o : TokRun) => o.tag == m.tag.toNat) = some { run with
      open_ := run.open_.filter fun (o : TokRow) => !(o.member = m.sender.toNat && o.slot = m.piece.toNat)
      status := if (mine.any fun (o : TokRow) => m.elems.toNat ≤ o.pos) ∧ run.status = 0 then 5 else run.status }) ∧
  (∀ (c : Fin 16) (s : State) (part : Nat) (x : Desc) (rest : List (Nat × Desc)) (h : Option (List Byte)) (d1 : Dev),
    let r := s.dev.red c.val
    let b := CombBody.of x
    engineRuns s.dev (pRede c.val) c.val part r.q2.queue r.q2.stopped (redRefusal 2 x) x rest → dOp x = 0xAA → r.comb = none →
    s.dev.readTable part b.route 64 (fun _ => 0) = (h, true, d1) →
    ((h.map Route.of).filter (fun (q : Route) => q.ok) = none →
      completes (.tokCombine c) s fun d => (d.red c.val).q2 = { r.q2 with stopped := true, reason := 0x33 }) ∧
    (∀ q run, (h.map Route.of).filter (fun (q : Route) => q.ok) = some q →
      r.runs.find? (fun (o : TokRun) => o.tag == b.tag) = some run →
      (run.open_ ≠ [] → completes (.tokCombine c) s fun d => (d.red c.val).q2.queue = rest ∧
        (d.red c.val).comb = some (x, d1.timer (fabIsle c.val)) ∧ d.sigs = s.dev.sigs) ∧
      (run.open_ = [] →
        let d0 := (d1.redPop c.val 2).updRed c.val fun r => { r with comb := some (x, d1.timer (fabIsle c.val)) }
        let ents := (b.route + 0x40, 16 * b.t * run.k)
        let rows := (run.ret, b.t * run.k * run.rowBytes)
        ∀ d2 d3 e d4 y d5, d0.prepareAll part agEngine false [ents, rows] = (true, d2) →
        d2.prepare part agEngine true b.out (b.t * (run.rowBytes / 2) * if b.fp32 then 4 else 2) = (true, d3) →
        d3.tRead part agEngine ents.1 ents.2 = (e, d4) → d4.tRead part agEngine rows.1 rows.2 = (y, d5) →
        completes (.tokCombine c) s fun d => (d.red c.val).q2.queue = rest ∧ (d.red c.val).comb = none ∧
          (d.red c.val).lastStatus = (if e.fault ∨ e.bad ≠ [] ∨ y.fault then 4 else run.status) ∧ (d.red c.val).lastOp = 0xAA ∧
          d.sigs = s.dev.sigs ++ sends (dSig x) part (srcEng 1 c.val 2)))) ∧
  (∀ (die : Fin 4) (p : Fin 16) (k : Fin 256) (tag : BitVec 32) (s : State),
    (s.dev.tokx.open_.find? (fun (o : SlotTag) => o.is die.val p.val k.val tag.toNat) = none → becomes (.slotTagTimeout die p k tag) s s.dev) ∧
    (∀ t e ok d1 d2, s.dev.tokx.open_.find? (fun (o : SlotTag) => o.is die.val p.val k.val tag.toNat) = some t →
      s.dev.slotEnt die.val p.val k.val = (some e, ok, d1) → d1.prepareAll p.val agEngine true e.places = (true, d2) → completes (.slotTagTimeout die p k tag) s fun d =>
        (die.val, p.val, k.val, tag.toNat) ∈ d.tokx.done ∧ (∀ o ∈ d.tokx.open_, o.is die.val p.val k.val tag.toNat = false) ∧
        t.since + s.dev.redLimit e.cluster ≤ d.timer (fabIsle e.cluster)))

/-- LINK_UP gives the sub-port the lanes of its split and sends CAP; LINK_DOWN takes them away. An ebb message does nothing without
lanes, and is counted when it is not clean; CAP, SHED_REQ, SHED_ACK, SHED_NAK, WAKE and WAKE_ACK then make, answer or end a
shed or a wake. The timed events send CAP again, end the partner's capability, propose a shed that the window allows, send a
request again and give up after three tries, wake a loaded sub-port, and fall back when a wake or an alignment does not come.
EBB_ALIGNED puts the agreed lanes in use. A pause runs for the frame's time, and XOFF goes again while occupancy stands above
xon. -/
def Obligations.EbbCommands : Prop :=
  (∀ (i : SubId) (s : State),
    let k := i.key
    let p := s.dev.sub k
    let now := s.dev.ptimer k
    let full := s.dev.fullLanes k
    let isle := portIsle (k / 4)
    (p.lanes = 0 → i.sub.val < splitSubs (s.dev.reg (pEthp (k / 4)) 0x040) → s.dev.pwr.state < 2 → s.dev.boot.recovery = false →
      6 ≤ s.dev.boot.step → completes (.linkUp i) s fun d => (d.sub k).lanes = full ∧
        Output.ebb (SubId.ofKey k) 1 0 full (b2n (bit (s.dev.ebbCtl k) 0 && !p.locked)) ∈ d.out) ∧
    (completes (.linkDown i) s fun d => (d.sub k).lanes = 0 ∧ (d.sub k).locked = false ∧ (d.sub k).fails = 0 ∧ (d.sub k).capUntil = 0) ∧
    (p.lanes = 0 → becomes (.capSend i) s s.dev) ∧
    (p.lanes ≠ 0 → completes (.capSend i) s fun d => p.capAt + 100000000 ≤ d.timer isle ∧ (d.sub k).capAt = d.timer isle ∧
      Output.ebb (SubId.ofKey k) 1 0 full (b2n (bit (s.dev.ebbCtl k) 0 && !p.locked)) ∈ d.out) ∧
    (p.capUntil ≠ 0 → completes (.elvuoCapableExpire i) s fun d => d.sub k = { p with capUntil := 0, req := none } ∧
      p.capUntil ≤ d.timer isle) ∧
    (let d1 := s.dev.reach isle (p.winFrom + s.dev.ebbWin k)
      let go : Bool := d1.mayShed k && p.req.isNone && decide (p.noReqUntil ≤ d1.timer isle)
      let q := (p.seq + 1) % 65536
      completes (.ebbWindow i) s fun d => (d.sub k).winFrom = d1.timer isle ∧ (d.sub k).winTx = 0 ∧ (d.sub k).winRx = 0 ∧
        (go = false → (d.sub k).req = p.req) ∧
        (go = true → (d.sub k).req = some ⟨q, lowerLanes p.lanes, 1, d1.timer isle⟩ ∧
          Output.ebb (SubId.ofKey k) 2 q (lowerLanes p.lanes) 0 ∈ d.out)) ∧
    (let d1 := s.dev.reach isle (p.rateFrom + 1000)
      let cap := p.lanes * 125 * 1000 * pct (bits (s.dev.ebbCtl k) 22 16)
      let hot : Prop := cap < p.rateTx * 100 ∨ cap < p.rateRx * 100 ∨ s.dev.txDeep k = true
      let q := (p.seq + 1) % 65536
      completes (.ebbRateWindow i) s fun d => (d.sub k).rateFrom = d1.timer isle ∧ (d.sub k).rateTx = 0 ∧ (d.sub k).rateRx = 0 ∧
        (hot → p.lanes ≠ 0 → p.lanes ≠ full → p.wakeReq = none → p.hold = none →
          (d.sub k).wakeReq = some ⟨q, full, 1, d1.timer isle⟩ ∧ Output.ebb (SubId.ofKey k) 5 q full 0 ∈ d.out) ∧
        (¬ hot → (d.sub k).wakeReq = p.wakeReq)) ∧
    (∀ r, p.req = some r →
      let d1 := s.dev.reach isle (r.at_ + 10000)
      (r.tries < 3 → completes (.shedReqResend i) s fun d =>
        d.sub k = { p with req := some { r with tries := r.tries + 1, at_ := d1.ptimer k } } ∧ Output.ebb (SubId.ofKey k) 2 r.seq r.lanes 0 ∈ d.out) ∧
      (3 ≤ r.tries → becomes (.shedReqResend i) s (d1.setSub k { p with req := none, capUntil := 0 }))) ∧
    (∀ r, p.wakeReq = some r →
      let d1 := s.dev.reach isle (r.at_ + 2000)
      (r.tries < 3 → completes (.wakeResend i) s fun d =>
        d.sub k = { p with wakeReq := some { r with tries := r.tries + 1, at_ := d1.ptimer k } } ∧ Output.ebb (SubId.ofKey k) 5 r.seq r.lanes 0 ∈ d.out) ∧
      (3 ≤ r.tries → p.lanes ≠ 0 → completes (.wakeResend i) s fun d => (d.sub k).lanes = 0 ∧ (d.sub k).fails = p.fails + 1 ∧
        (d.sub k).locked = (p.locked || decide (3 ≤ p.fails + 1)))) ∧
    (∀ h, p.hold = some h →
      (completes (.ebbAligned i) s fun d => (d.sub k).lanes = h.lanes ∧ (d.sub k).fails = 0 ∧ (d.sub k).wakeNext = false ∧
        (d.sub k).hold = if p.wakeNext then some ⟨full, now, true⟩ else none) ∧
      (p.lanes ≠ 0 → completes (.ebbAlignTimeout i) s fun d => (d.sub k).lanes = 0 ∧ (d.sub k).fails = p.fails + 1 ∧
        h.since + 100000 ≤ d.timer isle))) ∧
  (∀ (i : SubId) (m : EbbMsg) (s : State),
    let k := i.key
    let p := s.dev.sub k
    let now := s.dev.ptimer k
    let full := s.dev.fullLanes k
    let seq := m.seq.toNat
    let lanes := m.lanes.toNat
    (∀ c ∈ ([.cap i m, .shedReq i m, .shedAck i m, .shedNak i m, .wake i m, .wakeAck i m] : List Instr),
      (p.lanes = 0 → becomes c s s.dev) ∧ (p.lanes ≠ 0 → m.clean = false → becomes c s (s.dev.ecnt k 23 1 none))) ∧
    (p.lanes ≠ 0 → m.clean = true →
      becomes (.cap i m) s (if bit m.flags.toNat 0 then s.dev.updSub k fun p => { p with capUntil := now + 300000000 } else s.dev) ∧
      (p.wakeReq ≠ none ∨ (p.req ≠ none ∧ ∃ a, s.dev.srcAddr k = some a ∧ a < m.src.toNat) → becomes (.shedReq i m) s s.dev) ∧
      (p.wakeReq = none → (p.req = none ∨ ∀ a, s.dev.srcAddr k = some a → m.src.toNat ≤ a) →
        (s.dev.mayShed k = true → lanes = lowerLanes p.lanes → completes (.shedReq i m) s fun d =>
          d.sub k = { p with req := none, hold := some ⟨lanes, now, false⟩ } ∧ Output.ebb (SubId.ofKey k) 3 seq lanes 0 ∈ d.out) ∧
        (s.dev.mayShed k = false ∨ lanes ≠ lowerLanes p.lanes → completes (.shedReq i m) s fun d =>
          d.sub k = { p with req := none } ∧ Output.ebb (SubId.ofKey k) 4 seq lanes 0 ∈ d.out)) ∧
      (∀ r, p.req = some r → r.seq = seq →
        (completes (.shedAck i m) s fun d => d.sub k = { p with req := none, hold := some ⟨r.lanes, now, false⟩ }) ∧
        completes (.shedNak i m) s fun d => d.sub k = { p with req := none, noReqUntil := now + s.dev.ebbWin k }) ∧
      ((∀ r, p.req = some r → r.seq ≠ seq) → becomes (.shedAck i m) s s.dev ∧ becomes (.shedNak i m) s s.dev) ∧
      (∀ r, p.wakeReq = some r → r.seq = seq →
        completes (.wakeAck i m) s fun d => d.sub k = { p with wakeReq := none, hold := some ⟨r.lanes, now, true⟩ }) ∧
      (completes (.wake i m) s fun d => Output.ebb (SubId.ofKey k) 6 seq lanes 0 ∈ d.out ∧
        d.sub k = { p with
          req := none
          hold := if p.hold.isNone && p.lanes != full then some ⟨full, now, true⟩ else p.hold
          wakeNext := p.wakeNext || p.hold.any fun h => !h.wake }))) ∧
  (∀ (i : SubId) (pri : Fin 8) (vec : Byte) (times : List (BitVec 16)) (s : State),
    let k := i.key
    let p := s.dev.sub k
    let isle := portIsle (k / 4)
    let t := s.dev.timer isle
    (completes (.pfcFrame i vec times) s fun d => ∀ x, x < 8 →
      let n := (times.getD x 0).toNat
      (d.sub k).pause.find? x = if vec.toNat.testBit x && s.dev.pfcOn k x
        then (if n = 0 then none else some (t + cdiv (n * 512) (Nat.max 1 p.lanes * 1000))) else p.pause.find? x) ∧
    (p.pause.find? pri.val = none → becomes (.pfcPauseExpire i pri) s s.dev) ∧
    (∀ u, p.pause.find? pri.val = some u → completes (.pfcPauseExpire i pri) s fun d =>
      (d.sub k).pause.find? pri.val = none ∧ u ≤ d.timer isle) ∧
    (p.xoff.find? pri.val = none → becomes (.pfcRefresh i pri) s s.dev) ∧
    (∀ u, p.xoff.find? pri.val = some u →
      (s.dev.xonBytes k < s.dev.rxOcc k pri.val → completes (.pfcRefresh i pri) s fun d =>
        (d.sub k).xoff.find? pri.val = some (d.timer isle) ∧ u < d.timer isle ∧
        ∃ x, Output.pfc (SubId.ofKey k) (BitVec.ofNat 8 (2 ^ pri.val)) x ∈ d.out ∧ x.getD pri.val 0 = 0xFFFF) ∧
      (s.dev.rxOcc k pri.val ≤ s.dev.xonBytes k → completes (.pfcRefresh i pri) s fun d =>
        (d.sub k).xoff.find? pri.val = none ∧
        ∃ x, Output.pfc (SubId.ofKey k) (BitVec.ofNat 8 (2 ^ pri.val)) x ∈ d.out ∧ x.getD pri.val 0 = 0)))

/-- A frame on a sub-port with lanes is counted and dropped, in this order, for a wrong FCS, a bad FEC codeword, a length below 64
or above the limit; PFC, ebb and LLDP frames go no further; any other is dropped for an address that the port does not accept,
as a first fragment for the transport's port, for want of a queue pair, for one that changes owner, or for want of room, and otherwise joins the receive share with its
priority and queue pair. A sub-port with a source address sends a firmware frame first, else the frame that the deficit round
robin picks. ETHP_MODE is refused outside Disabled; a new split takes the links down and disables every queue pair. Enabling a
queue pair is refused where R493 says so, and otherwise sets its register. ETHP_EBB_CTL clears the lockout. -/
def Obligations.FrameCommands : Prop :=
  (∀ (i : SubId) (f : RxFrame) (s : State),
    let k := i.key
    let p := s.dev.sub k
    let port := pEthp (k / 4)
    let len := f.bytes.length + 4
    let most := Nat.max 1518 (Nat.min 9216 (bits (s.dev.reg port 0x048) 13 0))
    let d1 := s.dev.updSub k fun p => { p with winRx := p.winRx + len, rateRx := p.rateRx + len }
    let type := fldBE f.bytes 12 2
    let da := beNat (f.bytes.take 6)
    let e := ethView f.bytes
    let ip := ipView e
    let whole : Prop := f.fcsOk = true ∧ f.fecBad = false ∧ 64 ≤ len ∧ len ≤ most
    let local' : Prop := type = 0x8808 ∨ (da = 0x0180C200000E ∧ (type = 0x88CC ∨ type = 0x88B6))
    let firmware : Bool := ip.any fun x => x.udp == some (bits (s.dev.reg pFabt 0x04C) 15 0) && fldBE x.payload 3 1 == 255
    let fragment : Bool := ip.any fun x => x.frag == some (bits (s.dev.reg pFabt 0x04C) 15 0)
    (p.lanes = 0 → becomes (.frameReceive i f) s s.dev) ∧
    (p.lanes ≠ 0 →
      (f.fcsOk = false → becomes (.frameReceive i f) s (d1.ecnt k 4 1 none)) ∧
      (f.fcsOk = true → f.fecBad = true → becomes (.frameReceive i f) s (d1.ecnt k 8 1 none)) ∧
      (f.fcsOk = true → f.fecBad = false → len < 64 → becomes (.frameReceive i f) s (d1.ecnt k 5 1 none)) ∧
      (f.fcsOk = true → f.fecBad = false → most < len → becomes (.frameReceive i f) s (d1.ecnt k 6 1 none)) ∧
      (whole → type = 0x8808 → fldBE f.bytes 14 2 ≠ 0x0101 → becomes (.frameReceive i f) s (d1.ecnt k 16 1 none)) ∧
      (whole → type = 0x8808 → fldBE f.bytes 14 2 = 0x0101 → becomes (.frameReceive i f) s
        (pfcRx k (fldBE f.bytes 16 2 % 256) ((List.range 8).map fun n => fldBE f.bytes (18 + 2 * n) 2) d1)) ∧
      (whole → da = 0x0180C200000E → type = 0x88CC → becomes (.frameReceive i f) s (d1.ecnt k 17 1 none)) ∧
      (whole → da = 0x0180C200000E → type = 0x88B6 → becomes (.frameReceive i f) s (ebbFrame k f.bytes d1)) ∧
      (whole → ¬ local' →
        (s.dev.daOk k (f.bytes.take 6) = false → becomes (.frameReceive i f) s (d1.ecnt k 9 1 none)) ∧
        (s.dev.daOk k (f.bytes.take 6) = true → firmware = true → becomes (.frameReceive i f) s (d1.ecnt k 17 1 none)) ∧
        (s.dev.daOk k (f.bytes.take 6) = true → firmware = false → fragment = true → becomes (.frameReceive i f) s (d1.cnt .pf pFabt 11 1)) ∧
        (s.dev.daOk k (f.bytes.take 6) = true → firmware = false → fragment = false →
          (s.dev.qpFor k e ip = none → becomes (.frameReceive i f) s (d1.ecnt k 10 1 none)) ∧
          (∀ q, s.dev.qpFor k e ip = some q →
            let used := (p.rx.map (·.len)).foldl (· + ·) 0
            (s.dev.qpLeaving (k / 4) q = true → becomes (.frameReceive i f) s (d1.ecnt k 13 1 none)) ∧
            (s.dev.qpLeaving (k / 4) q = false → s.dev.rxShare k < used + len →
              becomes (.frameReceive i f) s (d1.ecnt k 11 1 (s.dev.qpOwner (k / 4) q))) ∧
            (s.dev.qpLeaving (k / 4) q = false → used + len ≤ s.dev.rxShare k → completes (.frameReceive i f) s fun d =>
              (d.sub k).rx = p.rx ++ [⟨e.pcp.getD (bits (s.dev.reg port 0x048) 20 18), q, len⟩])))))) ∧
  (∀ (i : SubId) (s : State) (src : Nat),
    let k := i.key
    let p := s.dev.sub k
    let sent := admitted (s.dev.txShare k) p.tx
    let wrr (n : Nat) : Nat :=
      256 * Nat.max 1 (bits (s.dev.reg (pEthp (k / 4)) (if n < 4 then 0x150 else 0x154)) (8 * (n % 4) + 7) (8 * (n % 4)))
    let pick (n : Nat) : Option TxItem := if (p.pause.find? n).any fun t => decide (s.dev.ptimer k < t) then none
      else turnOf (sent.filter fun (x : TxItem) => x.pri == n) (p.lastQp.find? n)
    let goes (x : TxItem) (d : Dev) : Prop := (∃ v, Output.frame (SubId.ofKey k) (x.wire src v) ∈ d.out) ∧
      (d.sub k).tx = p.tx.eraseIdx (p.tx.findIdx (· == x)) ∧ (d.sub k).winTx = p.winTx + x.len
    (p.lanes = 0 ∨ p.hold ≠ none ∨ s.dev.srcAddr k = none → becomes (.frameTransmit i) s s.dev) ∧
    (p.lanes ≠ 0 → p.hold = none → s.dev.srcAddr k = some src →
      (∀ x, sent.find? (fun (x : TxItem) => x.qp.isNone) = some x → completes (.frameTransmit i) s (goes x)) ∧
      (sent.find? (fun (x : TxItem) => x.qp.isNone) = none →
        (drr wrr (fun n => (pick n).map (·.len)) 400 p.turn p.deficit = none → becomes (.frameTransmit i) s s.dev) ∧
        (∀ n turn df x, drr wrr (fun n => (pick n).map (·.len)) 400 p.turn p.deficit = some (n, turn, df) → pick n = some x →
          completes (.frameTransmit i) s fun d => goes x d ∧ (d.sub k).turn = turn ∧ (d.sub k).deficit = df)))) ∧
  (∀ (port : Fin 12) (w : Word) (s : State),
    let p := pEthp port.val
    opens s.dev .pf p →
    (s.dev.bst p ≠ .disabled → becomes (.ethpModeWrite .pf port w) s (s.dev.err .pf p 0x0003)) ∧
    (s.dev.bst p = .disabled →
      (bits w.toNat 1 0 = bits (s.dev.reg p 0x040) 1 0 → becomes (.ethpModeWrite .pf port w) s (s.dev.wrReg .pf p 0x040 w)) ∧
      (bits w.toNat 1 0 ≠ bits (s.dev.reg p 0x040) 1 0 → completes (.ethpModeWrite .pf port w) s fun d =>
        bits (d.reg p 0x040) 1 0 = bits w.toNat 1 0 ∧ (∀ q, q < 64 → d.qpCfg port.val q % 2 = 0) ∧
        ∀ n, n < 4 → (d.sub (subKey port.val n)).lanes = 0)) ∧
    (completes (.ebbCtlWrite .pf port w) s fun d => d.reg p 0x160 = (s.dev.wrReg .pf p 0x160 w).reg p 0x160 ∧
      ∀ n, n < 4 → (d.sub (subKey port.val n)).locked = false ∧ (d.sub (subKey port.val n)).fails = 0)) ∧
  (∀ (v : View) (port : Fin 12) (q : Fin 64) (w : Word) (s : State),
    let p := pEthp port.val
    let n := (w ||| 1).toNat
    let own := s.dev.qpOwner port.val q.val
    let strm := bits (s.dev.qpBind port.val q.val) 5 0
    let bad : Prop := bits n 2 1 = 0 ∨ bits n 2 1 = 3 ∨ own = none ∨
      (bits n 2 1 = 2 ∧ (47 < strm ∨ s.dev.strmOwner strm ≠ own)) ∨ splitSubs (s.dev.reg p 0x040) ≤ bits n 5 4
    opens s.dev v p →
    (∀ m, v = .vf m → own ≠ some m.val → becomes (.qpEnable v port q w) s (s.dev.violR m p (0x400 + 16 * q.val))) ∧
    (s.dev.qpReach v port.val q.val = true →
      (bit (s.dev.qpCfg port.val q.val) 0 = true → becomes (.qpEnable v port q w) s (s.dev.err v p 0x0003)) ∧
      (bit (s.dev.qpCfg port.val q.val) 0 = false →
        (bad → becomes (.qpEnable v port q w) s (s.dev.err v p 0x0101)) ∧
        (¬ bad → completes (.qpEnable v port q w) s fun d =>
          bits (d.qpCfg port.val q.val) 5 0 = bits n 5 0 ∧ bits (d.qpCfg port.val q.val) 10 8 = bits n 10 8))))

/-- A packet is dropped, in this order, on a device that is no member, for a header or version that is wrong, for another
destination, for a payload that does not open, for epochs that do not fit, and for a replayed syn; what passes has its effect. DATA
and CTRL in order move the flow on, out of order they are held, and those outside the window or held already are acknowledged
again. ACK takes what it covers off the flow. A KEEPALIVE that is not 8 zero bytes is counted. HELLO and HELLO_ACK with a common
version bring the link up, without one they refuse it. FENCED for this identity fences the device. -/
def Obligations.PacketCommands : Prop :=
  (∀ (c : (Packet → Instr) × Nat) (k : Packet) (s : State) (d1 : Dev),
    c ∈ ([(.data, 1), (.ack, 2), (.ctrl, 3), (.keepalive, 4), (.hello, 5), (.helloAck, 6), (.fenced, 7)] : List ((Packet → Instr) × Nat)) →
    s.dev.check k c.2 = .drop d1 → becomes (c.1 k) s d1) ∧
  (∀ (k : Packet) (t : Nat) (d : Dev),
    let d1 := d.takeRx k.sub.key
    let l := d1.link k.link
    let sound : Bool := k.headerOk && l.speaks k t && decide (k.flags.toNat < 16) && l.valid
    (d1.fab.state ≠ .member → d.check k t = .drop d1) ∧
    (d1.fab.state = .member →
      (sound = false → d.check k t = .drop (d1.cnt .pf pFabt 11 1)) ∧
      (sound = true → k.dstDev.toNat ≠ d1.selfDev → d.check k t = .drop (d1.cnt .pf pFabt 12 1)) ∧
      (sound = true → k.dstDev.toNat = d1.selfDev →
        (d1.unseal k t = none → d.check k t = .drop ((d1.cnt .pf pFabt 13 1).evt .pf pFabt 0x10)) ∧
        (∀ body, d1.unseal k t = some body →
          let d2 := d1.updLink k.link fun l => { l with heard := true }
          let src := k.srcDev.toNat
          let old : Prop := k.srcEpoch.toNat < d2.known src ∨
            (k.srcEpoch.toNat = d2.known src ∧ ∃ p, d2.peer src = some p ∧ p.state = .dead)
          let seen := d2.fab.synCtr.find? (src * 512 + k.part.toNat * 2 + k.key.val)
          (old → d.check k t = .drop ((d2.cnt .pf pFabt 14 1).sendFenced k.link src k.srcEpoch.toNat)) ∧
          (¬ old → t ≠ 5 → d2.known src < k.srcEpoch.toNat → d.check k t = .drop (d2.cnt .pf pFabt 14 1)) ∧
          (¬ old → t ≠ 5 → k.srcEpoch.toNat = d2.known src → k.dstEpoch.toNat = d2.selfEpoch →
            (bit k.flags.toNat 3 = true → (∃ n, seen = some n ∧ k.ctr.toNat ≤ n) → d.check k t = .drop (d2.cntP pFabt 5 1 (if k.part.toNat < 16 then some k.part.toNat else none))) ∧
            (bit k.flags.toNat 3 = false ∨ (∀ n, seen = some n → n < k.ctr.toNat) → ∃ d3, d.check k t = .pass d3 body ∧
              changesOnly [.fab] d2 d3)))))) ∧
  (∀ (c : (Packet → Instr) × Nat) (k : Packet) (s : State) (d1 : Dev) (body : List Byte),
    c ∈ ([(.data, 1), (.ctrl, 3)] : List ((Packet → Instr) × Nat)) → s.dev.check k c.2 = .pass d1 body →
    let src := k.srcDev.toNat
    let flow := k.flow.toNat
    let f := if bit k.flags.toNat 3 then RecvFlow.new src flow k.link else d1.recvFlow src flow k.link
    let off := (k.psn.toNat + 2 ^ 32 - f.e) % 2 ^ 32
    completes (c.1 k) s fun d =>
      let g := d.recvFlow src flow k.link
      (255 < off ∨ (f.held.find? k.psn.toNat).isSome = true → g.e = f.e ∧ g.held = f.held ∧ g.since = 0) ∧
      (f.e < 2 ^ 32 → off = 0 → f.held = [] → g.e = (f.e + 1) % 2 ^ 32 ∧ g.held = []) ∧
      (0 < off → off ≤ 255 → f.held = [] → g.e = f.e ∧ g.held = [(k.psn.toNat, (c.2, k.flags.toNat, body))] ∧ g.since = 0)) ∧
  (∀ (k : Packet) (s : State) (d1 : Dev) (body : List Byte), s.dev.check k 2 = .pass d1 body →
    let f := d1.sendFlow k.srcDev.toNat k.flow.toNat
    let left := f.unacked.filter fun (p : FlowPkt) => !ackedBy k.ack.toNat body p.psn
    let gone := f.unacked.length - left.length
    completes (.ack k) s fun d =>
      let g := d.sendFlow k.srcDev.toNat k.flow.toNat
      g.acked = f.acked + gone ∧ g.marked = f.marked + k.ce.toNat ∧ g.k = (if 0 < gone then 0 else f.k) ∧
      (g.unacked.take left.length).map (·.psn) = left.map (·.psn)) ∧
  (∀ (k : Packet) (s : State) (d1 : Dev) (body : List Byte), s.dev.check k 4 = .pass d1 body →
    (body.length = 8 ∧ zeros body 0 8 = true → becomes (.keepalive k) s d1) ∧
    (¬ (body.length = 8 ∧ zeros body 0 8 = true) → becomes (.keepalive k) s (d1.cnt .pf pFabt 11 1))) ∧
  (∀ (k : Packet) (s : State) (d1 : Dev) (body : List Byte),
    let n := k.srcDev.toNat
    (s.dev.check k 5 = .pass d1 body →
      (helloOk body = false → becomes (.hello k) s (d1.cnt .pf pFabt 11 1)) ∧
      (helloOk body = true → completes (.hello k) s fun d =>
        (d1.known n < k.srcEpoch.toNat → d.known n = k.srcEpoch.toNat) ∧
        (fldBE body 4 2 ≤ 0x100 → 0x100 ≤ fldBE body 2 2 → (d.link k.link).state = .up ∧ (d.link k.link).major = 1 ∧
          (d.link k.link).minor = 0 ∧ (d.link k.link).psize = Nat.min d1.ownP (1024 * Nat.max 1 (fldBE body 0x18 2))) ∧
        (0x100 < fldBE body 4 2 ∨ fldBE body 2 2 < 0x100 → (d.link k.link).state = .refused))) ∧
    (s.dev.check k 6 = .pass d1 body →
      (helloOk body = false → becomes (.helloAck k) s (d1.cnt .pf pFabt 11 1)) ∧
      (helloOk body = true → fldBE body 6 2 = 0 → completes (.helloAck k) s fun d => (d.link k.link).state = .refused) ∧
      (helloOk body = true → fldBE body 6 2 = 0x100 → (d1.link k.link).sent = true → (d1.link k.link).state ≠ .refused →
        completes (.helloAck k) s fun d => (d.link k.link).state = .up ∧ (d.link k.link).got = true ∧
          (d.link k.link).psize = Nat.min d1.ownP (1024 * Nat.max 1 (fldBE body 0x18 2)))) ∧
    (s.dev.check k 7 = .pass d1 body →
      let ours : Prop := body.length = 16 ∧ zeros body 10 6 = true ∧ fldBE body 0 2 = d1.selfDev ∧ fldBE body 2 4 = d1.selfEpoch
      (ours → completes (.fenced k) s fun d => d.fab.state = .fenced ∧ d.fab.fencedId = some (d1.selfDev, d1.selfEpoch)) ∧
      (¬ ours → becomes (.fenced k) s (d1.cnt .pf pFabt 11 1))))

/-- HELLO_RESEND sends HELLO again on a link that waits for its answer; ACK_DELAY_EXPIRE sends the ACK that is owed;
RETRANSMIT_TIMEOUT sends the due packets again and doubles the timeout; RATE_WINDOW sets each flow's rate from what was acknowledged
and marked; KEEPALIVE_SEND speaks on a quiet link; KEEPALIVE_CHECK counts a miss on each link that was not heard and takes down those
that reach the limit. The identity is written only on a Disabled block and never with the fenced one again, and a new identity
drops the flows. The table window reads the selected entry into the data words, or writes it from them, with its status. -/
def Obligations.FabricCommands : Prop :=
  (∀ (i : Nat) (s : State), i < 1024 →
    let l := s.dev.link i
    (s.dev.fab.state = .member → l.valid = true → l.state = .hello → l.got = false → completes (.helloResend i) s fun d =>
      (d.link i).state = .hello ∧ (d.link i).sent = true ∧ (d.link i).helloAt = d.timer ioIsle ∧ l.helloAt + 100000 ≤ d.timer ioIsle) ∧
    (l.state ≠ .hello ∨ l.got = true → becomes (.helloResend i) s s.dev) ∧
    (l.state = .up → l.spoke = false → s.dev.fab.state = .member →
      becomes (.keepaliveSend i) s ((s.dev.emit i 4 0 255 0x0FF0 0 0 0 (zbytes 8)).cnt .pf pFabt 17 1)) ∧
    (l.state ≠ .up ∨ l.spoke = true → becomes (.keepaliveSend i) s s.dev)) ∧
  (∀ (dev flow : BitVec 16) (s : State),
    let mine (f : RecvFlow) : Bool := f.dev == dev.toNat && f.flow == flow.toNat
    let ours (f : SendFlow) : Bool := f.dev == dev.toNat && f.flow == flow.toNat
    (s.dev.fab.recv.find? mine = none → becomes (.ackDelayExpire dev flow) s s.dev) ∧
    (∀ f t, s.dev.fab.recv.find? mine = some f → f.first = some t → completes (.ackDelayExpire dev flow) s fun d =>
      d.fab.recv.find? mine = some { f with since := 0, first := none, ce := 0 } ∧ t + 500 ≤ d.timer ioIsle) ∧
    (s.dev.fab.send.find? ours = none → becomes (.retransmitTimeout dev flow) s s.dev) ∧
    (∀ f p ps, s.dev.fab.send.find? ours = some f → f.unacked = p :: ps → completes (.retransmitTimeout dev flow) s fun d =>
      ∃ g, d.fab.send.find? ours = some g ∧ g.k = Nat.min (f.k + 1) (Nat.min 10 (bits (s.dev.reg pFabt 0x054) 23 20)) ∧
        g.unacked.map (·.psn) = f.unacked.map (·.psn) ∧ g.waiting = f.waiting ∧
        (f.unacked.foldl (fun m (q : FlowPkt) => Nat.min m q.at_) p.at_) + s.dev.rto f.k ≤ d.timer ioIsle)) ∧
  (∀ s : State, completes .rateWindow s fun d =>
    let w := s.dev.reg pFabt 0x058
    d.fab.send = s.dev.fab.send.map fun (f : SendFlow) => { f with
      acked := 0
      marked := 0
      rate := match f.link with
        | none => f.rate
        | some i =>
          let line := s.dev.lineRate i
          if f.acked = 0 then Nat.min f.rate line
          else if f.marked = 0 then Nat.min (f.rate + 1000 * bits w 23 16) line
          else Nat.min line (Nat.max (1000 * Nat.max 1 (bits w 31 24)) (f.rate - f.rate * Nat.min f.marked f.acked / (2 * f.acked))) }) ∧
  (∀ (s : State) (i : Nat) (l : PLink), s.dev.fab.links = [(i, l)] → l.state = .up →
    let w := s.dev.reg pFabt 0x050
    (l.heard = true → completes .keepaliveCheck s fun d => (d.link i).state = .up ∧ (d.link i).misses = 0 ∧ (d.link i).heard = false) ∧
    (l.heard = false → l.misses + 1 < Nat.max 1 (bits w 27 20) → completes .keepaliveCheck s fun d =>
      (d.link i).state = .up ∧ (d.link i).misses = l.misses + 1) ∧
    (l.heard = false → Nat.max 1 (bits w 27 20) ≤ l.misses + 1 → completes .keepaliveCheck s fun d => (d.link i).state = .down ∧
      ∀ p, s.dev.peer l.dev = some p → ∃ q, d.peer l.dev = some q ∧ q.state = .dead)) ∧
  (∀ (k : (View → Word → Instr) × Nat) (w : Word) (s : State), k ∈ ([(.fabtSelfWrite, 0x040), (.fabtEpochWrite, 0x044)] : List ((View → Word → Instr) × Nat)) →
    opens s.dev .pf pFabt →
    let d1 := s.dev.wrReg .pf pFabt k.2 w
    let again : Prop := ∃ x, s.dev.fab.fencedId = some x ∧ d1.selfDev = x.1 ∧ d1.selfEpoch ≤ x.2
    (s.dev.bst pFabt ≠ .disabled → becomes (k.1 .pf w) s (s.dev.err .pf pFabt 0x0101)) ∧
    (s.dev.bst pFabt = .disabled →
      (again → becomes (k.1 .pf w) s (s.dev.err .pf pFabt 0x0101)) ∧
      (¬ again → d1.selfDev = s.dev.selfDev → d1.selfEpoch = s.dev.selfEpoch → becomes (k.1 .pf w) s d1) ∧
      (¬ again → (d1.selfDev ≠ s.dev.selfDev ∨ d1.selfEpoch ≠ s.dev.selfEpoch) → completes (k.1 .pf w) s fun d =>
        d.selfDev = d1.selfDev ∧ d.selfEpoch = d1.selfEpoch ∧ d.fab.send = [] ∧ d.fab.recv = [] ∧ d.fab.state = .off ∧
        (d1.selfEpoch ≠ s.dev.selfEpoch → d.fab.txCtr = [])))) ∧
  (∀ s : State, opens s.dev .pf pFabt →
    let sel := s.dev.reg pFabt 0x070
    let i := bits sel 9 0
    let table := bits sel 10 10
    let b := s.dev.tblWindow
    (table = 0 → 47 < i → becomes (.fabtTblRead .pf) s (s.dev.setTblSts 1) ∧ becomes (.fabtTblWrite .pf) s (s.dev.setTblSts 1)) ∧
    ((table = 1 ∨ i ≤ 47) → completes (.fabtTblRead .pf) s fun d => d.fab = { s.dev.fab with tblSts := 0 } ∧
      ∀ n, n < 8 → d.reg pFabt (0x080 + 4 * n) = fld (s.dev.tblEntry table i) (4 * n) 4) ∧
    (table = 1 → (s.dev.link i).valid = true → (s.dev.link i).state ≠ .down →
      becomes (.fabtTblWrite .pf) s (s.dev.setTblSts 2)) ∧
    (table = 0 → i ≤ 47 →
      (tblReserved 0 b = false → becomes (.fabtTblWrite .pf) s (s.dev.setTblSts 3)) ∧
      (tblReserved 0 b = true → completes (.fabtTblWrite .pf) s fun d => d.fab.locals.get (zbytes 32) i = b ∧ d.fab.tblSts = 0)) ∧
    (table = 1 → ((s.dev.link i).valid = true → (s.dev.link i).state = .down) →
      (tblReserved 1 b = false → becomes (.fabtTblWrite .pf) s (s.dev.setTblSts 3)) ∧
      (tblReserved 1 b = true → completes (.fabtTblWrite .pf) s fun d => (d.link i).entry = b ∧ d.fab.tblSts = 0 ∧
        (d.link i).state = if bit (fld b 4 1) 0 && s.dev.fab.state == .member then .hello else .unset)))

/-- STREAM_PACKET on a context that is not Running has no effect; otherwise the packet is counted. With the ingest header a fragment
that is not well formed is counted, the first starts a picture, the next one in order joins it, another loses it, and the last one
queues it. With RTP the sequence number is kept, a gap loses the picture and skips the rest of it, a skipped timestamp has no
effect, and a fragment in order joins. ASSEMBLY_TIMEOUT drops the picture under assembly. DECODE_START serves the partition whose
turn it is while its deficit pays, else the next one with its quantum. DECODE_DONE drops a picture that does not decode, does not
fit or finds no slot, and otherwise writes it, closing a slot that is full. SLOT_ARM arms a slot that the context does not own.
BATCH_TIMEOUT closes a slot early. -/
def Obligations.StreamCommands : Prop :=
  (∀ (ctx : Fin 48) (b : List Byte) (s : State),
    let k := ctx.val
    let x := s.dev.sctx k
    let d0 := (s.dev.strmCnt k 0 1).strmCnt k 1 b.length
    let room := s.dev.reg (pStrm k) 0x04C * 64
    let lostOne := Nat.min 0xFFFFFFFF (x.drops + 1)
    (s.dev.bst (pStrm k) ≠ .running → becomes (.streamPacket ctx b) s s.dev) ∧
    (s.dev.bst (pStrm k) = .running → s.dev.strmRtp k = false →
      let flags := fld b 3 1
      let ident := fldBE b 4 4
      let part := (b.drop 12).take (fldBE b 10 2)
      let whole : Prop := 12 ≤ b.length ∧ fldBE b 0 2 = 0x4549 ∧ fld b 2 1 = 1 ∧ bits flags 7 2 = 0 ∧ 12 + fldBE b 10 2 ≤ b.length
      (¬ whole → becomes (.streamPacket ctx b) s (d0.strmCnt k 10 1)) ∧
      (whole → bit flags 0 = true → fldBE b 8 2 = 0 → bit flags 1 = false → part.length ≤ room →
        completes (.streamPacket ctx b) s fun d => ∃ a, (d.sctx k).asm = some a ∧ a.pic.ident = ident ∧ a.pic.bytes = part ∧
          a.next = 1 ∧ a.since = s.dev.timer (s.dev.strmIsle k) ∧ (x.asm.isSome = true → (d.sctx k).drops = lostOne)) ∧
      (∀ a, whole → bit flags 0 = false → x.asm = some a →
        (a.pic.ident ≠ ident ∨ a.next ≠ fldBE b 8 2 → completes (.streamPacket ctx b) s fun d =>
          (d.sctx k).asm = none ∧ (d.sctx k).drops = lostOne) ∧
        (a.pic.ident = ident → a.next = fldBE b 8 2 →
          (room < a.pic.bytes.length + part.length → completes (.streamPacket ctx b) s fun d =>
            (d.sctx k).asm = none ∧ (d.sctx k).drops = lostOne) ∧
          (a.pic.bytes.length + part.length ≤ room → bit flags 1 = false → completes (.streamPacket ctx b) s fun d =>
            ∃ a', (d.sctx k).asm = some a' ∧ a'.next = a.next + 1 ∧ a'.since = a.since ∧
              a'.pic = { a.pic with bytes := a.pic.bytes ++ part }) ∧
          (a.pic.bytes.length + part.length ≤ room → bit flags 1 = true →
            let i := Config.pictureInfo (s.dev.strmCodec k) 0 (s.dev.earlier k) (a.pic.bytes ++ part)
            i.supported = true → s.dev.sizeOk k i.width i.height = true → x.waiting.length < 4 →
            x.waitIrap = false ∨ i.irap = true ∨ s.dev.strmCodec k = 0 → completes (.streamPacket ctx b) s fun d =>
              (d.sctx k).asm = none ∧ (d.sctx k).drops = x.drops ∧ ∃ p, (d.sctx k).waiting = x.waiting ++ [p] ∧
                p.bytes = a.pic.bytes ++ part ∧ p.ident = ident ∧ p.width = i.width ∧ p.height = i.height)))) ∧
    (s.dev.bst (pStrm k) = .running → s.dev.strmRtp k = true →
      let src := s.dev.reg (pStrm k) 0x040
      let ident := fldBE b 4 4
      let seq := fldBE b 2 2
      let last := bit (fld b 1 1) 7
      let after := if last then none else some ident
      let late : Prop := ∃ n, x.nextSeq = some n ∧ n ≠ seq
      (rtpPayload b = none → becomes (.streamPacket ctx b) s (d0.strmCnt k 10 1)) ∧
      (∀ pay, rtpPayload b = some pay →
        let ours : Prop := bits (fld b 1 1) 6 0 = bits src 14 8 ∧ (bit src 2 = true ∨ fldBE b 8 4 = s.dev.reg (pStrm k) 0x044)
        (¬ ours → becomes (.streamPacket ctx b) s (d0.strmCnt k 10 1)) ∧
        (ours →
          completes (.streamPacket ctx b) s (fun d => (d.sctx k).nextSeq = some ((seq + 1) % 65536)) ∧
          (late → completes (.streamPacket ctx b) s fun d => (d.sctx k).asm = none ∧ (d.sctx k).skip = after ∧
            (d.sctx k).drops = if x.skip = some ident then x.drops else lostOne) ∧
          (¬ late → x.skip = some ident → completes (.streamPacket ctx b) s fun d => (d.sctx k).skip = after ∧
            (d.sctx k).asm = x.asm ∧ (d.sctx k).drops = x.drops) ∧
          (∀ a y, ¬ late → x.skip ≠ some ident → x.asm = some a → a.pic.ident = ident → last = false →
            (if s.dev.strmCodec k = 1 then h265Payload pay else jpegPayload pay false) = .data y →
            a.pic.bytes.length + y.length ≤ room → completes (.streamPacket ctx b) s fun d =>
              ∃ a', (d.sctx k).asm = some a' ∧ a'.since = a.since ∧ a'.pic = { a.pic with bytes := a.pic.bytes ++ y }))))) ∧
  (∀ (ctx : Fin 48) (s : State),
    let k := ctx.val
    let x := s.dev.sctx k
    (x.asm = none ∨ s.dev.bst (pStrm k) ≠ .running → becomes (.assemblyTimeout ctx) s s.dev) ∧
    (∀ a, x.asm = some a → s.dev.bst (pStrm k) = .running → completes (.assemblyTimeout ctx) s fun d =>
      (d.sctx k).asm = none ∧ (d.sctx k).drops = Nat.min 0xFFFFFFFF (x.drops + 1) ∧
      a.since + Nat.max 1 (s.dev.reg (pStrm k) 0x084) ≤ d.timer (d.strmIsle k) ∧
      (s.dev.strmRtp k = true → (d.sctx k).skip = some a.pic.ident)) ∧
    (x.active = none ∨ x.written = 0 ∨ s.dev.reg (pStrm k) 0x088 = 0 → becomes (.batchTimeout ctx) s s.dev) ∧
    (∀ q n, x.active = some q → x.written ≠ 0 → s.dev.reg (pStrm k) 0x088 ≠ 0 → s.dev.strmOwner k = some n →
      completes (.batchTimeout ctx) s fun d =>
        (d.sctx k).slot q = ⟨false, x.written, true⟩ ∧ (d.sctx k).written = 0 ∧
        (d.sctx k).active = (if (x.slot (1 - q)).own then some (1 - q) else none) ∧
        x.batchAt + s.dev.reg (pStrm k) 0x088 ≤ d.timer (d.strmIsle k))) ∧
  (∀ (v : View) (ctx : Fin 48) (slot : Fin 2) (s : State),
    let k := ctx.val
    let x := s.dev.sctx k
    opens s.dev v (pStrm k) →
      ((x.slot slot.val).own = true → becomes (.slotArm v ctx slot) s s.dev) ∧
      ((x.slot slot.val).own = false → s.dev.armBad k slot.val = true →
        becomes (.slotArm v ctx slot) s ((s.dev.err v (pStrm k) 0x0101).strmCnt k 12 1)) ∧
      ((x.slot slot.val).own = false → s.dev.armBad k slot.val = false → completes (.slotArm v ctx slot) s fun d =>
        (d.sctx k).slot slot.val = ⟨true, 0, false⟩ ∧ (d.sctx k).slot (1 - slot.val) = x.slot (1 - slot.val) ∧
        (d.sctx k).active = (if x.active.isNone then some slot.val else x.active) ∧
        (x.active = none → (d.sctx k).written = 0))) ∧
  (∀ (e : Fin 6) (n k : Nat) (p : Picture) (rest : List Picture) (s : State),
    let x := s.dev.decoSt e.val
    let ready : Prop := ∃ n, n < 16 ∧ s.dev.decoWeight e.val n ≠ 0 ∧ s.dev.decoWaiting e.val n ≠ []
    let w := s.dev.decoWeight e.val n
    let cost := s.dev.picCost k p
    (x.cur.isSome = true ∨ ¬ ready ∨ s.dev.bst ⟨.deco, e.val⟩ ≠ .running → becomes (.decodeStart e) s s.dev) ∧
    (x.cur = none → s.dev.bst ⟨.deco, e.val⟩ = .running → n < 16 → w ≠ 0 → s.dev.decoNext e.val n = some k →
      (s.dev.sctx k).waiting = p :: rest →
      (x.turn = n → cost ≤ x.deficit.get 0 n → completes (.decodeStart e) s fun d =>
        (d.decoSt e.val).cur = some (k, p, cost) ∧ (d.decoSt e.val).deficit.get 0 n = x.deficit.get 0 n - cost ∧
        (d.decoSt e.val).turn = n ∧ (d.decoSt e.val).lastCtx.find? n = some k ∧ (d.sctx k).waiting = rest) ∧
      ((x.turn + 1) % 16 = n → x.turn ≠ n → s.dev.decoWeight e.val x.turn = 0 → cost ≤ x.deficit.get 0 n + w * 1048576 →
        completes (.decodeStart e) s fun d =>
          (d.decoSt e.val).cur = some (k, p, cost) ∧
          (d.decoSt e.val).deficit.get 0 n = x.deficit.get 0 n + w * 1048576 - cost ∧
          (d.decoSt e.val).turn = n ∧ (d.sctx k).waiting = rest))) ∧
  (∀ (e : Fin 6) (s : State),
    ((s.dev.decoSt e.val).cur = none → becomes (.decodeDone e) s s.dev) ∧
    (∀ k p cost, (s.dev.decoSt e.val).cur = some (k, p, cost) →
      let x := s.dev.sctx k
      let res := Config.decodePicture (s.dev.strmCodec k) (b2n (s.dev.strmRtp k)) (x.refs.map fun (p : Picture) => p.bytes) p.bytes
      let lostOne := Nat.min 0xFFFFFFFF (x.drops + 1)
      (s.dev.strmOwner k = none → completes (.decodeDone e) s fun d => (d.decoSt e.val).cur = none) ∧
      (∀ n, s.dev.strmOwner k = some n → s.dev.bst (pStrm k) = .running → s.dev.strmCodec k = 0 → x.waitIrap = false →
        (res = none → completes (.decodeDone e) s fun d => (d.decoSt e.val).cur = none ∧ (d.sctx k).drops = lostOne) ∧
        (∀ q pic, res = some [q] → (x.refs ++ [p])[q.index]? = some pic → (s.dev.slotAwake k n 1).1 = true →
          (s.dev.cropOk k q = false ∨ x.active = none → completes (.decodeDone e) s fun d =>
            (d.decoSt e.val).cur = none ∧ (d.sctx k).drops = lostOne) ∧
          (∀ slot, s.dev.cropOk k q = true → x.active = some slot →
            (x.written + 1 ≠ s.dev.slotReg k slot 0x0C → completes (.decodeDone e) s fun d =>
              (d.decoSt e.val).cur = none ∧ (d.sctx k).drops = 0 ∧ (d.sctx k).written = x.written + 1 ∧
              (d.sctx k).active = some slot ∧ (x.written = 0 → (d.sctx k).batchAt = d.timer (d.strmIsle k))) ∧
            (x.written + 1 = s.dev.slotReg k slot 0x0C → completes (.decodeDone e) s fun d =>
              (d.decoSt e.val).cur = none ∧ (d.sctx k).drops = 0 ∧ (d.sctx k).written = 0 ∧
              (d.sctx k).slot slot = ⟨false, x.written + 1, false⟩ ∧
              (d.sctx k).active = if (x.slot (1 - slot)).own then some (1 - slot) else none))))))

/-- A request for a state that the island may not be asked for is dropped with code 0x0101, event bit 1 and counter 6: Cold through
a VF view or while the core runs for a partition or a timer rule is armed, Damped with save without a save area, and all but Fired
and Held of a fabric island, and any of the others. A permitted one sets req; one for Fired starts the exit, at once or after the
descent. Descent starts when the island is at rest with a lower request and nothing in progress, and shows the new state; with save
the SRAM is saved first. At its end Damped has lost the SRAM, Cold the whole core and any saved SRAM, and a wake that waited starts the exit. The exit
ends Fired, from Cold with the timer at 0, and restores a saved SRAM first. The frequency target is clipped to fmin and fmax; the
effective one is the least of target, thermal and cap ceiling. -/
def Obligations.IslandCommands : Prop :=
  (∀ (v : View) (i : Nat) (r : BitVec 3) (s : State),
    (isleKind i).isSome = true → opens s.dev v (pIsle i) → (v = .pf ∨ i < 0x120) →
    let x := s.dev.isle i
    let bad : Prop := 5 ≤ r.toNat ∨
      (i < 272 ∧ r = 4 ∧ (v ≠ .pf ∨ s.dev.unused i = false ∨ s.dev.armed i = true)) ∨
      (i < 272 ∧ r = 3 ∧ s.dev.saves i = true ∧ s.dev.saveArea i = false) ∨
      (272 ≤ i ∧ i < 0x120 ∧ (1 < r.toNat ∨ (r = 1 ∧ ∃ k, k < 17 ∧
        (s.dev.clus' (i - 0x110)).slots.getD k .dead = .active ∧ (s.dev.isle (17 * (i - 0x110) + k)).state = .fired))) ∨
      0x120 ≤ i
    (bad → becomes (.isleStateReq v i r) s (s.dev.isleRefuse v i)) ∧
    (¬ bad → r ≠ 0 → ∀ q, IsleState.ofCode r.toNat = some q →
      becomes (.isleStateReq v i r) s (s.dev.updIsle i fun x => { x with req := q })) ∧
    (¬ bad → r = 0 →
      (x.state = .cold → becomes (.isleStateReq v i r) s (s.dev.updIsle i fun x =>
        if x.move = .descending then { x with req := .fired, wake := true } else { x with req := .fired, move := .exiting })) ∧
      (x.state = .fired ∨ (x.state ≠ .cold ∧ x.move = .exiting) →
        becomes (.isleStateReq v i r) s (s.dev.updIsle i fun x => { x with req := .fired })) ∧
      (x.state ≠ .fired → x.state ≠ .cold → x.move = .rest → completes (.isleStateReq v i r) s fun d =>
        d.isle i = { x with req := .fired, move := .exiting }) ∧
      (x.state ≠ .fired → x.state ≠ .cold → x.move ≠ .rest → x.move ≠ .exiting → completes (.isleStateReq v i r) s fun d =>
        d.isle i = { x with req := .fired, wake := true }))) ∧
  (∀ (i : Nat) (s : State), (isleKind i).isSome = true →
    let x := s.dev.isle i
    let stays : Prop := x.move ≠ .rest ∨ x.req = .fired ∨ x.req = x.state ∨ s.dev.isleBusy i = true ∨
      (i < 272 ∧ (s.dev.mvec.get .reset (i / 17 / 4)).cur.isSome = true)
    (stays → becomes (.islandDescentStart i) s s.dev) ∧
    (¬ stays → completes (.islandDescentStart i) s fun d => d.isle i = { x with
      state := x.req
      move := if i < 272 ∧ x.req = .damped ∧ s.dev.saves i = true then .saving else .descending }) ∧
    (x.move ≠ .descending → becomes (.islandDescentDone i) s s.dev) ∧
    (x.move = .descending →
      let keeps : Bool := x.saved && x.state != .cold
      (x.wake = false → completes (.islandDescentDone i) s fun d => d.isle i = { x with move := .rest, saved := keeps }) ∧
      (x.wake = true → completes (.islandDescentDone i) s fun d =>
        d.isle i = { x with req := .fired, move := .exiting, wake := false, saved := keeps }) ∧
      (i < 272 → x.state = .damped ∨ x.state = .cold → completes (.islandDescentDone i) s fun d =>
        ∀ a, a < sramBytes → memGet d.mem (sramKey i a) = 0#8) ∧
      (i < 272 → x.state = .damped → x.saved = false → completes (.islandDescentDone i) s fun d =>
        ∀ e, e ∈ (d.core i).wins → e.2.intact = false) ∧
      (i < 272 → x.state = .cold → completes (.islandDescentDone i) s fun d =>
        d.core i = .reset ∧ ∀ n, n < 64 → d.evc.get 0#32 (i * 64 + n) = 0#32) ∧
      (x.state = .held ∨ x.state = .banked → completes (.islandDescentDone i) s fun d => changesOnly [.isles, .ctr, .irq, .out] s.dev d)) ∧
    (x.move ≠ .exiting → becomes (.islandExitDone i) s s.dev) ∧
    (x.move = .exiting → completes (.islandExitDone i) s fun d => d.isle i = { x with
      state := .fired
      req := .fired
      wake := false
      move := if x.saved then .restoring else .rest
      ticks := if x.state = .cold ∧ i ≠ ioIsle then 0 else x.ticks
      timer := if x.state = .cold ∧ i ≠ ioIsle then 0 else x.timer })) ∧
  (∀ (i : Nat) (s : State), (isleKind i).isSome = true →
    let x := s.dev.isle i
    (s.dev.clusterOwner (i / 17) = none ∨ x.move ≠ .saving → becomes (.sramSaveDone i) s s.dev) ∧
    ((s.dev.clusterOwner (i / 17)).isSome = true → x.move = .saving → completes (.sramSaveDone i) s fun d =>
      d.isle i = { x with move := .descending, saved := true }) ∧
    (s.dev.clusterOwner (i / 17) = none ∨ x.move ≠ .restoring → becomes (.sramRestoreDone i) s s.dev) ∧
    ((s.dev.clusterOwner (i / 17)).isSome = true → x.move = .restoring → completes (.sramRestoreDone i) s fun d =>
      d.isle i = { x with move := .rest, saved := false } ∧ (d.core i).wins = (s.dev.core i).wins)) ∧
  (∀ (i : Nat) (s : State) (q : IsleState), (isleKind i).isSome = true →
    let x := s.dev.isle i
    let w := s.dev.reg (pIsle i) 0x04C
    IsleState.ofCode (bits w 2 0) = some q →
      (q = .fired ∨ x.state ≠ .fired ∨ x.move ≠ .rest ∨ s.dev.isleBusy i = true ∨ s.dev.isleIdle i = false ∨
        s.dev.mayAsk false i q = false → becomes (.islandAutoIdle i) s s.dev) ∧
      (q ≠ .fired → x.state = .fired → x.move = .rest → s.dev.isleBusy i = false → s.dev.isleIdle i = true →
        s.dev.mayAsk false i q = true → completes (.islandAutoIdle i) s fun d =>
          (d.isle i).req = q ∧ (d.isle i).state = .fired ∧ x.timer + bits w 31 8 ≤ d.timer i)) ∧
  (∀ (v : View) (i : Nat) (w : Word) (s : State), (isleKind i).isSome = true → opens s.dev v (pIsle i) →
    (v = .pf ∨ i < 0x120 → i < 0x124 → completes (.isleFreqWrite v i w) s fun d =>
      d.isle i = { s.dev.isle i with target := Nat.max 16 (Nat.min (if i < 0x120 then 84 else 80) (bits w.toNat 6 0)) }) ∧
    (v = .pf → 0x124 ≤ i → becomes (.isleFreqWrite v i w) s s.dev) ∧
    (∀ n, v = .vf n → 0x120 ≤ i → becomes (.isleFreqWrite v i w) s (s.dev.violR n (pIsle i) 0x044))) ∧
  (∀ (i : Nat) (s : State), (isleKind i).isSome = true → completes (.freqChangeApply i) s fun d =>
    let x := s.dev.isle i
    let die := s.dev.die (if i < 272 then i / 17 / 4 else (i - 0x110) / 4)
    d.isle i = { x with eff := if i < 0x120 then Nat.min x.target (Nat.min die.thermal die.cap) else x.target })

/-- GOVERNOR_UPDATE moves the envelope toward what is wanted within the slew, draws ballast up to it, grants waiting charges in order
while they fit, and lowers or raises k under the brake. CAP_WINDOW moves the ceilings by one step and skips pulses after 40 windows
above the cap. THERMAL_READING moves each die's ceiling by its reading, enters and leaves the emergency, and trips to Standby.
UNDERVOLTAGE applies the brake, UNDERVOLTAGE_RELEASE releases it. The ladder commands begin a transition, or are refused for Standby
and Dormant, or have no effect; before Standby and Dormant the links go down and the flash is left unmounted. AUTO_QUIET and
DEVICE_WAKE enter and leave Quiet. DEVICE_STATE_CHANGE_DONE ends a transition. -/
def Obligations.PowerCommands : Prop :=
  (∀ (m : Nat) (volt amp : BitVec 16) (s : State),
    let p := s.dev.pwr
    let w := s.dev.waitingPlans
    let want := m + sumN (w.map (·.2)) / 1000
    let rate := Nat.max 1 (Nat.min 16 (s.dev.reg pPwrc 0x04C))
    let brake : Bool := p.brake || p.under
    let fast : Bool := brake || (List.range 4).any fun n => (s.dev.die n).emergency
    let up := rate * volt.toNat / 4
    let down := (if fast then Nat.max rate 6 else rate) * volt.toNat / 4
    let ceiling := if brake then 384000 else 1150000
    completes (.governorUpdate m volt amp) s fun d =>
      d.pwr.m = m ∧ d.pwr.volt = volt ∧ d.pwr.amp = amp ∧ d.pwr.ballast = d.pwr.g - m ∧
      (p.g < want → p.g ≤ ceiling → d.pwr.g = Nat.min (Nat.min (p.g + up) want) ceiling) ∧
      (want ≤ p.g ∨ ceiling < p.g → d.pwr.g = Nat.max (p.g - down) (Nat.min m (Nat.max ceiling (p.g - down)))) ∧
      (brake = false → d.pwr.brakeK = p.brakeK) ∧
      (brake = true → d.pwr.brakeK = if d.pwr.g < m then Nat.max 1 (p.brakeK - 1) else Nat.min 16 (p.brakeK + 1)) ∧
      (w = [] → d.cores = s.dev.cores ∧ d.mvec = s.dev.mvec ∧ d.nwch = s.dev.nwch) ∧
      (∀ c rest, w = (2 * c, (d.pwr.g - m) * 1000 + 1) :: rest → d.cores = s.dev.cores) ∧
      (∀ c x rest y, c < 272 → w = (2 * c, x) :: rest → x ≤ (d.pwr.g - m) * 1000 → (d.core c).arrPlan = some y → y.granted = true)) ∧
  (∀ (avg : Nat) (s : State),
    let p := s.dev.pwr
    let cap := 1000 * Nat.max 200 (Nat.min 960 (s.dev.reg pPwrc 0x048))
    let top := if p.brake || p.under then 48 else 84
    completes (.capWindow avg) s fun d =>
      d.pwr.avg = avg ∧ d.pwr.overs = (if cap < avg then Nat.min 50 (p.overs + 1) else 0) ∧
      (40 ≤ d.pwr.overs → d.pwr.capK = Nat.max 1 (p.capK - 1)) ∧
      (d.pwr.overs < 40 → d.pwr.capK = if avg ≤ cap then Nat.min 16 (p.capK + 1) else p.capK) ∧
      ∀ n, n < 4 →
        let x := (s.dev.die n).cap
        (cap < avg → (d.die n).cap = Nat.max 16 (x - 1)) ∧
        (avg ≤ cap → cap * 97 ≤ avg * 100 → (d.die n).cap = x) ∧
        (avg * 100 < cap * 97 → x ≤ 84 → (d.die n).cap = Nat.max x (Nat.min top (x + 1)))) ∧
  (∀ (t0 t1 t2 t3 : Byte) (s : State) (n : Nat), n < 4 →
    let t := ([t0, t1, t2, t3].getD n 0#8).toNat
    let x := s.dev.die n
    completes (.thermalReading t0 t1 t2 t3) s fun d =>
      let y := d.die n
      y.hot = t ∧ y.cap = x.cap ∧ y.run105 = (if 105 ≤ t then x.run105 + 1 else 0) ∧
      (104 ≤ t → y.thermal = 16 ∧ y.k = 8 ∧ y.emergency = true) ∧
      (t < 104 → y.emergency = (x.emergency && decide (100 < t)) ∧ (y.emergency = true → y.k = x.k) ∧
        (y.emergency = false → y.k = Nat.min 16 (x.k + 1))) ∧
      (t ≤ 97 → y.thermal = Nat.min 84 (x.thermal + 2)) ∧ (97 < t → t ≤ 99 → y.thermal = x.thermal) ∧
      (99 < t → t < 104 → y.thermal = Nat.max 16 (x.thermal - 4)) ∧
      (105 ≤ t → 9 ≤ x.run105 → s.dev.pwr.state ≠ 2 → s.dev.pwr.moving ≠ some 2 →
        d.pwr.trip = true ∧ d.pwr.moving = some 2 ∧ d.pwr.target = 2)) ∧
  (∀ s : State,
    (s.dev.pwr.under = true → becomes .undervoltage s s.dev) ∧
    (s.dev.pwr.under = false → completes .undervoltage s fun d => d.pwr.under = true ∧ d.braked = true ∧
      ∀ n, n < 4 → (d.die n).cap = Nat.min 48 (s.dev.die n).cap) ∧
    becomes .undervoltageRelease s (s.dev.updPwr fun p => { p with under := false })) ∧
  (∀ (c : (View → Instr) × Nat) (s : State),
    c ∈ ([(.deviceRun, 0), (.deviceQuiet, 1), (.deviceStandby, 2), (.deviceDormant, 3)] : List ((View → Instr) × Nat)) →
    opens s.dev .pf pPwrc →
    let p := s.dev.pwr
    (p.moving.isSome = true ∨ p.state = c.2 → becomes (c.1 .pf) s s.dev) ∧
    (p.moving = none → p.state ≠ c.2 →
      (c.2 < 2 → becomes (c.1 .pf) s (s.dev.updPwr fun p => { p with target := c.2, moving := some c.2 })) ∧
      (2 ≤ c.2 → s.dev.ladderRefuses = true → becomes (c.1 .pf) s (s.dev.err .pf pPwrc 0x0101)) ∧
      (2 ≤ c.2 → s.dev.ladderRefuses = false → completes (c.1 .pf) s fun d =>
        d.pwr.target = c.2 ∧ d.pwr.moving = some c.2 ∧ d.pwr.state = p.state ∧ d.flash.state = .unmounted ∧
        d.flash.clean = true ∧ ∀ k, k < 48 → (d.sub k).lanes = 0))) ∧
  (∀ s : State,
    let p := s.dev.pwr
    let stays : Prop := bit (s.dev.regAt pPwrc 0 0x040).toNat 4 = false ∨ p.state ≠ 0 ∨ p.moving.isSome = true ∨
      ∃ i, i < 0x120 ∧ (s.dev.isle i).state = .fired
    (stays → becomes .autoQuiet s s.dev) ∧
    (¬ stays → completes .autoQuiet s fun d => d.pwr.target = 1 ∧ d.pwr.moving = some 1 ∧
      s.dev.timer ioIsle + s.dev.reg pPwrc 0x044 ≤ d.timer ioIsle) ∧
    (p.state = 1 → p.moving = none →
      becomes .deviceWake s (s.dev.updPwr fun p => { p with target := 0, moving := some 0 })) ∧
    (p.state ≠ 1 ∨ p.moving.isSome = true → becomes .deviceWake s s.dev) ∧
    (p.moving = none → becomes .deviceStateChangeDone s s.dev) ∧
    (∀ t, p.moving = some t →
      (2 ≤ t → s.dev.tier.lent ≠ [] → becomes .deviceStateChangeDone s s.dev) ∧
      (t < 2 ∨ s.dev.tier.lent = [] → completes .deviceStateChangeDone s fun d =>
        d.pwr.state = t ∧ d.pwr.moving = none ∧ d.pwr.mgmtTag = none ∧
        (p.mgmtTag.isSome = true → d.boot.mgmtBusy = false) ∧
        (∀ i, i < 0x120 →
          (t = 0 → (d.isle i).state = (s.dev.isle i).req ∧ (d.isle i).move = .rest) ∧
          (t = 1 → 1 ≤ (d.isle i).state.code) ∧ (2 ≤ t → i < 272 → 2 ≤ (d.isle i).state.code)) ∧
        (t = 3 → d.cores = [] ∧ d.sigs = [] ∧ d.boot.linkUp = false))))

/-- A detected error writes its record, in sequence, with its severity and domain. A corrected one writes it when the count of its
page reaches the threshold. An uncorrectable word poisons its granule. An error of severity U contains its domain: handling inside
it merges, a core, cluster or partition block is halted; inside a domain that is handled it escalates one level with a second
record 0x0210; while the device is handled it only records. ERRM_POP takes the head record. A probe that is answered clears the
misses of an Active slot; enough misses declare its core dead: a spare takes its place under the next generation, or the cluster is
withdrawn, unless it is so already. A Dead slot that answers is Fenced; return, test and retire move slots as CLST_SLOT_CTL says; a reinstatement gives the
cluster its good slots back with every unit Disabled. -/
def Obligations.ErrorCommands : Prop :=
  (∀ (code : BitVec 16) (p : Page) (akind : Fin 4) (addr : BitVec 64) (s : State), p.valid = true →
    let q := s.dev.errm.queue
    let n := code.toNat
    let written (sev : Sev) (dom : Dom) (r : ErrRec) : Prop := r.seq = s.dev.errm.seq ∧ r.code = code ∧ r.blk = p.blk.code ∧
      r.inst = p.inst ∧ r.sev = sev ∧ r.dom = dom ∧ r.akind = akind.val ∧ r.addr = addr ∧ r.escalated = false ∧
      r.stamp = s.dev.timer (pageIsle p)
    (n = 0x205 ∨ n = 0x206 ∨ n = 0x208 → q.length < 224 → completes (.errorDetect code p akind addr) s fun d =>
      ∃ r, d.errm.queue = q ++ [r] ∧ written .p .none r ∧ d.errm.seq = s.dev.errm.seq + 1 ∧ d.errm.handled = s.dev.errm.handled) ∧
    (n = 0x207 ∨ n < 0x201 ∨ 0x20F < n → completes (.errorDetect code p akind addr) s fun d => d.errm.seq = s.dev.errm.seq + 1 ∧
      d.errm.handled = s.dev.errm.handled ∧ (q.length < 224 → ∃ r, d.errm.queue = q ++ [r] ∧ written .i .none r) ∧
      (256 ≤ q.length → d.errm.queue = q)) ∧
    (n = 0x201 ∨ n = 0x203 →
      let c := s.dev.errm.ce.get 0 p.key + 1
      let most := Nat.max 1 (s.dev.reg pErrm 0x048)
      (s.dev.handledAt p = true → completes (.errorDetect code p akind addr) s fun d => d.errm = s.dev.errm) ∧
      (s.dev.handledAt p = false → c < most → completes (.errorDetect code p akind addr) s fun d =>
        d.errm.queue = q ∧ d.errm.ce.get 0 p.key = c) ∧
      (s.dev.handledAt p = false → c = most → q.length < 224 → completes (.errorDetect code p akind addr) s fun d =>
        d.errm.ce.get 0 p.key = 0 ∧ ∃ r, d.errm.queue = q ++ [r] ∧ written .c .none r) ∧
      (s.dev.handledAt p = false → completes (.errorDetect code p akind addr) s fun d =>
        d.errm.ce.get 0 p.key = c % most ∧ d.errm.seq = s.dev.errm.seq + c / most)) ∧
    (n = 0x202 ∨ n = 0x204 → q.length < 224 → completes (.errorDetect code p akind addr) s fun d =>
      (∃ r, d.errm.queue = q ++ [r] ∧ written .p .none r) ∧
      (p.blk = .core → d.poison.contains (sramKey p.inst (addr.toNat % sramBytes) / 64) = true) ∧
      (p.blk = .hbmc → d.poison.contains (hbmKey p.inst (addr.toNat % hbmStackBytes) / 64) = true)) ∧
    (∀ e : Nat × Dom, e ∈ [(0x209, .core (p.inst % 272)), (0x20A, .core (p.inst % 272)),
        (0x20C, .cluster (if p.blk = .core then p.inst / 17 else p.inst % 16)),
        (0x20E, .part (s.dev.partOf p addr.toNat)), (0x20F, Dom.device)] → n = e.1 → q.length < 254 →
      let inside := s.dev.errm.handled.find? fun h => s.dev.domIn e.2 h
      (Dom.device ∈ s.dev.errm.handled → completes (.errorDetect code p akind addr) s fun d =>
        d.errm.handled = s.dev.errm.handled ∧ ∃ r, d.errm.queue = q ++ [r] ∧ written .u e.2 r) ∧
      (Dom.device ∉ s.dev.errm.handled → inside = none → completes (.errorDetect code p akind addr) s fun d =>
        d.errm.handled = (s.dev.errm.handled.filter fun h => !s.dev.domIn h e.2) ++ [e.2] ∧
        (∃ r rest, d.errm.queue = q ++ r :: rest ∧ written .u e.2 r) ∧
        (∀ i, e.2 = .core i → s.dev.bst (pCore i) ≠ .absent → d.bst (pCore i) = .halted) ∧
        (∀ c, e.2 = .cluster c → s.dev.bst (pClst c) ≠ .absent → d.bst (pClst c) = .halted) ∧
        (∀ k, e.2 = .part k → (d.parts.st.get .reset k).state = .halted) ∧
        (e.2 = .device → s.dev.bst pDevc ≠ .absent → d.bst pDevc = .halted)) ∧
      (∀ h, Dom.device ∉ s.dev.errm.handled → inside = some h → completes (.errorDetect code p akind addr) s fun d =>
        s.dev.domUp h ∈ d.errm.handled ∧ ∃ r r' rest, d.errm.queue = q ++ r :: r' :: rest ∧ written .u e.2 r ∧
          r'.code = 0x0210#16 ∧ r'.dom = s.dev.domUp h ∧ r'.escalated = true)) ∧
    (n = 0x20B → p.blk = .core → (s.dev.clus' (p.inst / 17)).slots.getD (p.inst % 17) .dead = .active →
      completes (.errorDetect code p akind addr) s fun d =>
        (d.clus' (p.inst / 17)).slots.getD (p.inst % 17) .dead = .dead ∧ d.bst p = .absent) ∧
    (n = 0x20D → p.blk = .clst → (s.dev.clus' p.inst).withdrawn = false → completes (.errorDetect code p akind addr) s fun d =>
      (d.clus' p.inst).withdrawn = true ∧ d.bst ⟨.opte, p.inst⟩ = .absent)) ∧
  (∀ (i n : Nat) (bad : List Nat) (s : State), i < 272 → completes (.sramScrubPass i n bad) s fun d =>
    (∀ g, g ∈ bad → d.poison.contains (sramKey i (g * 64 % sramBytes) / 64) = true) ∧
    (n = 0 → bad = [] → d.errm = s.dev.errm)) ∧
  (∀ (i : Fin 8) (n : Nat) (bad : List Nat) (s : State), completes (.hbmScrubPass i n bad) s fun d =>
    (∀ g, g ∈ bad → d.poison.contains (hbmKey i.val (g * 64 % hbmStackBytes) / 64) = true) ∧
    (n = 0 → bad = [] → d.errm = s.dev.errm)) ∧
  (∀ s : State, opens s.dev .pf pErrm → completes (.errmPop .pf) s fun d =>
    d.errm = { s.dev.errm with queue := s.dev.errm.queue.drop 1 }) ∧
  (∀ (c : Fin 16) (slot : Fin 17) (s : State), (s.dev.clus' c.val).slots.length = 17 → (s.dev.clus' c.val).map.length = 16 →
    let k := s.dev.clus' c.val
    let i := 17 * c.val + slot.val
    let st := k.slots.getD slot.val .dead
    let now (d : Dev) : SlotState := (d.clus' c.val).slots.getD slot.val .dead
    let dies (d : Dev) : Prop := now d = .dead ∧ d.bst (pCore i) = .absent ∧
      ∀ n, k.withdrawn = false → s.dev.logical i = some n → ∀ sp, (List.range 17).find? (fun t => k.slots.getD t .dead == .spare) = sp →
        (∀ t, sp = some t → (d.clus' c.val).slots.getD t .dead = .active ∧ d.bst (pCore (17 * c.val + t)) = .disabled ∧
          (d.clus' c.val).map.getD n (0, 0) = (t, ((k.map.getD n (0, 0)).2 + 1) % 256)) ∧
        (sp = none → (d.clus' c.val).withdrawn = true)
    let probed : Prop := st = .active ∧ k.withdrawn = false ∧ (s.dev.isle i).state = .fired
    let fences (d : Dev) : Prop := now d = .fenced ∧ (d.isle i).state = .banked ∧ (d.isle i).req = .banked
    (∀ a, st = .active → k.withdrawn = true ∨ (s.dev.isle i).state ≠ .fired → becomes (.coreProbe c slot a) s s.dev) ∧
    (∀ a, probed → a = true ∨ s.dev.halt.effect = true → completes (.coreProbe c slot a) s fun d =>
      (d.clus' c.val).misses.get 0 slot.val = 0 ∧ now d = .active) ∧
    (probed → s.dev.halt.effect = false →
      let m := k.misses.get 0 slot.val + 1
      let most := Nat.max 1 (bits (s.dev.reg (pClst c.val) 0x048) 23 16)
      (m < most → completes (.coreProbe c slot false) s fun d => (d.clus' c.val).misses.get 0 slot.val = m ∧ now d = .active) ∧
      (most ≤ m → completes (.coreProbe c slot false) s dies)) ∧
    (st = .dead → completes (.coreProbe c slot true) s fences ∧ becomes (.coreProbe c slot false) s s.dev ∧
      completes (.deadSlotRevive c slot) s fences) ∧
    (st ≠ .dead → becomes (.deadSlotRevive c slot) s s.dev) ∧
    (st ≠ .dead → st ≠ .active → ∀ a, becomes (.coreProbe c slot a) s s.dev) ∧
    (st = .testing → completes (.slotTestDone c slot true) s (fun d => now d = .spare ∧
      d.pg.gen.get 0 View.pf.key = s.dev.pg.gen.get 0 View.pf.key + 2) ∧
      completes (.slotTestDone c slot false) s fun d => now d = .dead) ∧
    (st ≠ .testing → ∀ a, becomes (.slotTestDone c slot a) s s.dev) ∧
    (opens s.dev .pf (pClst c.val) →
      (st = .fenced → completes (.slotReturn .pf c slot) s fun d => now d = .testing) ∧
      (st ≠ .fenced → becomes (.slotReturn .pf c slot) s s.dev) ∧
      (st = .active → completes (.slotRetire .pf c slot) s dies) ∧
      (st = .spare → completes (.slotRetire .pf c slot) s fun d => now d = .dead) ∧
      (st ≠ .active → st ≠ .spare → becomes (.slotRetire .pf c slot) s s.dev))) ∧
  (∀ (c : Fin 16) (s : State), opens s.dev .pf (pClst c.val) →
    let k := s.dev.clus' c.val
    let good := (List.range 17).filter fun s => k.slots.getD s .dead == .active || k.slots.getD s .dead == .spare
    (k.withdrawn = false ∨ good.length < 16 → becomes (.clusterReinstate .pf c) s (s.dev.err .pf (pClst c.val) 0x0101)) ∧
    (k.withdrawn = true → 16 ≤ good.length → completes (.clusterReinstate .pf c) s fun d =>
      (d.clus' c.val).withdrawn = false ∧ (d.clus' c.val).map.map (·.1) = good.take 16 ∧
      (∀ i, i ∈ good.take 16 → (d.clus' c.val).slots.getD i .dead = .active ∧ d.core (17 * c.val + i) = .reset ∧
        d.bst (pCore (17 * c.val + i)) = .disabled ∧ (d.isle (17 * c.val + i)).state ≠ .cold) ∧
      d.bst (pOpte c.val) = .disabled ∧ d.bst (pRede c.val) = .disabled ∧ d.bst (pNwch c.val) = .disabled ∧
      (∀ h, h ∈ d.errm.handled → s.dev.domIn h (.cluster c.val) = false)))

/-- An input that qualifies as asserted, by a held low or by chatter, takes effect from then on, with its record and the time;
asserted again it changes nothing. PWRBRAKE_N also applies the power brake, which holds every die's cap ceiling at 1.20 GHz at most.
Deasserted, its effect goes on. A glitch is counted. Ten seconds of assertion are recorded once. SIDE_RESUME ends the effect of an
input that is no longer asserted, and is dropped for one that still is. -/
def Obligations.SidebandCommands : Prop :=
  (∀ (c : (Bool → Instr) × SideIn × Nat) (chatter : Bool) (s : State),
    c ∈ ([(.haltNAssert, .halt, 0), (.pwrbrakeNAssert, .brake, 1)] : List ((Bool → Instr) × SideIn × Nat)) →
    let x := s.dev.side c.2.1
    let q := s.dev.errm.queue
    (x.asserted = true → becomes (c.1 chatter) s s.dev) ∧
    (x.asserted = false → completes (c.1 chatter) s fun d =>
      d.side c.2.1 = ⟨false, true, true, x.chatter || chatter, false, s.dev.timer ioIsle⟩ ∧
      (q.length < 223 → (d.errm.queue.map (·.code)) =
        q.map (·.code) ++ BitVec.ofNat 16 (0x212 + c.2.2) :: if chatter then [0x214#16] else []) ∧
      (c.2.1 = .brake → d.pwr.brake = true ∧ (s.dev.pwr.brake = false → ∀ n, n < 4 → (d.die n).cap = Nat.min 48 (s.dev.die n).cap)))) ∧
  (∀ (i : SideIn) (s : State),
    let x := s.dev.side i
    (x.asserted = true → completes (.sidebandDeassert i) s fun d => d.side i = { x with level := true, asserted := false }) ∧
    (x.asserted = false → becomes (.sidebandDeassert i) s s.dev) ∧
    becomes (.sidebandGlitch i) s (s.dev.cnt .pf pSide 3 1) ∧
    (x.asserted = true → x.held10 = false → completes (.sidebandHeld10s i) s fun d =>
      d.side i = { x with held10 := true } ∧ x.since + 1000000000 ≤ d.timer ioIsle ∧
      (s.dev.errm.queue.length < 224 → ∃ r, d.errm.queue = s.dev.errm.queue ++ [r] ∧ r.code = 0x215#16)) ∧
    (x.asserted = false ∨ x.held10 = true → becomes (.sidebandHeld10s i) s s.dev)) ∧
  (∀ (h b : Bool) (s : State), opens s.dev .pf pSide → completes (.sideResume .pf h b) s fun d =>
    (h = true → s.dev.halt.asserted = false →
      d.halt = { s.dev.halt with effect := false, chatter := false, held10 := false }) ∧
    (h = false ∨ s.dev.halt.asserted = true → d.halt = s.dev.halt) ∧
    (b = true → s.dev.brake.asserted = false →
      d.brake = { s.dev.brake with effect := false, chatter := false, held10 := false } ∧ d.pwr.brake = false) ∧
    (b = false ∨ s.dev.brake.asserted = true → d.brake = s.dev.brake ∧ d.pwr.brake = s.dev.pwr.brake))

/-- FW_LOAD is dropped while a load runs, ends with 9 for a length that is not allowed and 11 without bus mastering, and otherwise
makes the slot that is not selected invalid and starts. Its end puts the bundle there, valid when both images pass, with the status
and the image that failed. FW_SELECT turns to the other slot if it is valid. SVN_COMMIT raises the banks to the running images'
versions and judges the slot that is not running; the automatic commit does it once, on reaching Run, for the images that ask. The
key window installs into the slot that does not transmit, clears it, or makes a slot that holds a key the one that transmits;
installing and clearing forget the slot's counters. -/
def Obligations.SecureCommands : Prop :=
  (∀ s : State, opens s.dev .pf pSecc →
    let x := s.dev.sec
    let len := bits (s.dev.reg pSecc 0x058) 24 0
    let most := 29360128
    (x.loading.isSome = true → becomes (.fwLoad .pf) s (s.dev.err .pf pSecc 0x0101) ∧
      becomes (.fwSelect .pf) s (s.dev.err .pf pSecc 0x0101)) ∧
    (x.loading = none →
      (len = 0 ∨ len % 4096 ≠ 0 ∨ most < len → completes (.fwLoad .pf) s fun d => d.sec = { x with fwStatus := 9, fwKind := 0 }) ∧
      (len ≠ 0 → len % 4096 = 0 → len ≤ most →
        (s.dev.irq.bme.contains 0 = false → completes (.fwLoad .pf) s fun d => d.sec = { x with fwStatus := 11, fwKind := 0 }) ∧
        (s.dev.irq.bme.contains 0 = true → completes (.fwLoad .pf) s fun d => (d.sec.slot (!x.bootB)).valid = false ∧
          d.sec.slot x.bootB = x.slot x.bootB ∧ d.sec.bootB = x.bootB ∧
          d.sec.loading = some (!x.bootB, s.dev.reg pSecc 0x050 + 4294967296 * s.dev.reg pSecc 0x054, len))) ∧
      ((x.slot (!x.bootB)).valid = false → completes (.fwSelect .pf) s fun d => d.sec = { x with fwStatus := 10, fwKind := 0 }) ∧
      ((x.slot (!x.bootB)).valid = true → completes (.fwSelect .pf) s fun d =>
        d.sec = { x with bootB := !x.bootB, fwStatus := 0, fwKind := 0 }))) ∧
  (∀ (b : List Byte) (e : Bool) (s : State),
    let x := s.dev.sec
    (x.loading = none → becomes (.fwLoadDone b e) s s.dev) ∧
    (∀ q va len, x.loading = some (q, va, len) →
      let r := if e then (8, 0) else if b.length ≠ len then (1, 1) else bundleCheck x b
      completes (.fwLoadDone b e) s fun d => d.sec.loading = none ∧ d.sec.fwStatus = r.1 ∧ d.sec.fwKind = r.2 ∧
        d.sec.slot q = ⟨r.1 == 0, if e then [] else b⟩ ∧ d.sec.slot (!q) = x.slot (!q))) ∧
  (∀ s : State,
    let x := s.dev.sec
    let raises (one two : Bool) (d : Dev) : Prop :=
      d.sec.svn1 = (if one then Nat.max x.svn1 (fld x.run1 0xC 1) else x.svn1) ∧
      d.sec.svn2 = (if two then Nat.max x.svn2 (fld x.run2 0xC 1) else x.svn2) ∧
      d.sec.slot x.runB = x.slot x.runB ∧
      ((d.sec.slot (!x.runB)).valid = true ↔ (x.slot (!x.runB)).valid = true ∧
        let y := (x.slot (!x.runB)).bundle
        d.sec.svn1 ≤ fld y 0xC 1 ∧ d.sec.svn2 ≤ fld (y.drop (imageLen y)) 0xC 1)
    let one := bit (fld x.run1 0xD 1) 0
    let two := bit (fld x.run2 0xD 1) 0
    let waits : Prop := x.autoSvn = true ∨ x.fallback = true ∨ s.dev.boot.step ≠ 8 ∨ s.dev.pwr.state ≠ 0 ∨ s.dev.boot.recovery = true
    (opens s.dev .pf pSecc → completes (.svnCommit .pf) s (raises true true)) ∧
    (waits → becomes .svnAutoCommit s s.dev) ∧
    (¬ waits → completes .svnAutoCommit s (fun d => d.sec.autoSvn = true) ∧
      (one = true ∨ two = true → completes .svnAutoCommit s (raises one two)) ∧
      (one = false → two = false → becomes .svnAutoCommit s (s.dev.updSec fun x => { x with autoSvn := true })))) ∧
  (∀ s : State, opens s.dev .pf pSecc →
    let x := s.dev.sec
    let t := bits (s.dev.reg pSecc 0x070) 4 0
    let slot := bits (s.dev.reg pSecc 0x070) 8 8
    let k := t * 2 + slot
    let refused (c : Instr) (st : Nat) : Prop :=
      becomes c s ((s.dev.updSec fun x => { x with kStatus := st }).err .pf pSecc 0x0102)
    let forgotten (d : Dev) : Prop := d.fab.txCtr.find? k = none ∧ d.fab.exhausted.contains k = false ∧
      ∀ e, e ∈ d.fab.synCtr → e.1 % 512 ≠ (if t < 16 then t else 255) * 2 + slot
    (16 < t → refused (.keyInstall .pf) 1 ∧ refused (.keyClear .pf) 1 ∧ refused (.keySetTransmit .pf) 1) ∧
    (t ≤ 16 → x.transmit.get 0 t = slot → refused (.keyInstall .pf) 2 ∧ refused (.keyClear .pf) 2) ∧
    (t ≤ 16 → x.transmit.get 0 t ≠ slot →
      (t < 16 → s.dev.active t = false → refused (.keyInstall .pf) 4) ∧
      (t = 16 ∨ s.dev.active t = true → completes (.keyInstall .pf) s fun d =>
        d.sec.keys.get [] k = s.dev.kBytes ∧ d.sec.kData = [] ∧ d.sec.kStatus = 0 ∧ d.sec.transmit = x.transmit) ∧
      completes (.keyClear .pf) s fun d => d.sec.keys.get [] k = [] ∧ d.sec.kStatus = 0 ∧ forgotten d) ∧
    (t ≤ 16 → x.keys.get [] k = [] → refused (.keySetTransmit .pf) 3) ∧
    (t ≤ 16 → x.keys.get [] k ≠ [] → completes (.keySetTransmit .pf) s fun d =>
      d.sec.transmit.get 0 t = slot ∧ d.sec.keys = x.keys ∧ d.sec.kStatus = 0))

/-- Each SPDM request is answered on its own transport: GET_VERSION starts the connection over with versions 1.2 and 1.3;
GET_CAPABILITIES, NEGOTIATE_ALGORITHMS and the requests after them answer UnexpectedRequest before their phase. Digests, certificate
pieces, challenge and measurements carry the chain's digest, its bytes, a signature over the transcript, and the blocks; a response
above 4,096 bytes is kept and handed out by CHUNK_GET in order. A request of another code is unsupported. The MCTP control messages
answer with the endpoint's identifier, versions, types and vendor set. A management request that is not known answers 0xFF, and 13
while a response is owed; RECOVERY is recorded. I3C addresses are assigned once. Layouts of SPDM and MCTP are from outside the spec. -/
def Obligations.ManagementCommands : Prop :=
  (∀ (via : SpdmVia) (req : List Byte) (s : State),
    let x := s.dev.spdm via
    let v := beBytes 1 x.version
    let sent (b : List Byte) (d : Dev) : Prop := ∃ pre, d.out = pre ++ Output.spdm via b :: s.dev.out
    let early (c : Instr) (n : Nat) : Prop := x.phase < n → becomes c s (s.dev.spdmErr via 4 0)
    let answer (b : List Byte) (d : Dev) : Prop :=
      (b.length ≤ 4096 → sent b d ∧ (d.spdm via).large = x.large ∧ (d.spdm via).handle = x.handle) ∧
      (4096 < b.length → (d.spdm via).large = b ∧ (d.spdm via).nextChunk = 0 ∧ (d.spdm via).handle = (x.handle + 1) % 256)
    completes (.getVersion via req) s (fun d => sent [0x10, 0x04, 0, 0, 0, 2, 0, 0x12, 0, 0x13] d ∧ (d.spdm via).phase = 1 ∧
      (d.spdm via).large = [] ∧ (d.spdm via).transcript = req ++ [0x10, 0x04, 0, 0, 0, 2, 0, 0x12, 0, 0x13]) ∧
    early (.getCapabilities via req) 1 ∧ early (.negotiateAlgorithms via req) 2 ∧ early (.getDigests via req) 3 ∧
    early (.challenge via req) 3 ∧
    (1 ≤ x.phase → fld req 0 1 ≠ 0x12 → fld req 0 1 ≠ 0x13 → becomes (.getCapabilities via req) s (s.dev.spdmErr via 0x41 0)) ∧
    (1 ≤ x.phase → fld req 0 1 = 0x12 ∨ fld req 0 1 = 0x13 → completes (.getCapabilities via req) s fun d =>
      (d.spdm via).phase = 2 ∧ (d.spdm via).version = fld req 0 1 ∧ ∃ b, sent b d ∧ b.length = 20 ∧ fld b 1 1 = 0x61 ∧
        fld b 8 4 = capFlags ∧ (d.spdm via).transcript = x.transcript ++ req ++ b) ∧
    (2 ≤ x.phase → completes (.negotiateAlgorithms via req) s fun d => (d.spdm via).phase = 3 ∧ ∃ b, sent b d ∧
      b.length = 36 ∧ fld b 1 1 = 0x63 ∧ fld b 8 4 = 4 ∧ fld b 12 4 = 0x80 ∧ fld b 16 4 = 2 ∧
      (d.spdm via).transcript = x.transcript ++ req ++ b) ∧
    (3 ≤ x.phase → completes (.getDigests via req) s fun d =>
      let b := v ++ [0x01, 0, 1] ++ sha s.dev.chain
      sent b d ∧ (d.spdm via).transcript = x.transcript ++ req ++ b) ∧
    (3 ≤ x.phase → fld req 2 1 ≠ 0 → becomes (.challenge via req) s (s.dev.spdmErr via 1 0)) ∧
    (3 ≤ x.phase → fld req 2 1 = 0 → completes (.challenge via req) s fun d => (d.spdm via).transcript = [] ∧ ∃ nonce : List Byte,
      nonce.length = 32 ∧
      let b := v ++ [0x03, 0, 1] ++ sha s.dev.chain ++ nonce ++ (if fld req 3 1 = 0 then [] else s.dev.measSummary) ++ [0, 0] ++
        if x.version = 0x13 then (req.drop 36).take 8 else []
      answer (b ++ Config.ecdsaSign 1 (x.transcript ++ req ++ b)) d) ∧
    becomes (.respondIfReady via req) s (s.dev.spdmErr via 1 0) ∧
    (∀ code, becomes (.spdmUnsupportedRequest via code) s (s.dev.spdmErr via 7 code.toNat)) ∧
    (∀ index : Byte, early (.getMeasurements via index req) 3 ∧
      (3 ≤ x.phase → 8 < index.toNat → index ≠ 0xFF → becomes (.getMeasurements via index req) s (s.dev.spdmErr via 1 0)) ∧
      (3 ≤ x.phase → index.toNat ≤ 8 ∨ index = 0xFF → completes (.getMeasurements via index req) s fun d =>
        let ids := if index = 0 then [] else if index = 0xFF then [1, 2, 3, 4, 5, 6, 7, 8] else [index.toNat]
        let all := ids.flatMap s.dev.measBlock
        ∃ nonce : List Byte, nonce.length = 32 ∧
          let b := v ++ [0x60] ++ beBytes 1 (if index = 0 then 8 else 0) ++ [0] ++ beBytes 1 ids.length ++ leBytes 3 all.length ++
            all ++ nonce ++ [0, 0] ++ if x.version = 0x13 then (req.drop 37).take 8 else []
          if bit (fld req 2 1) 0 then
            answer (b ++ Config.ecdsaSign 1 (x.transcript ++ req ++ b)) d ∧ (d.spdm via).transcript = []
          else answer b d ∧ (d.spdm via).transcript = x.transcript ++ req ++ b)) ∧
    (∀ (slot : Fin 8) (off len : BitVec 16), early (.getCertificate via slot off len) 3 ∧
      (3 ≤ x.phase → slot ≠ 0 ∨ s.dev.chain.length ≤ off.toNat →
        becomes (.getCertificate via slot off len) s (s.dev.spdmErr via 1 0)) ∧
      (3 ≤ x.phase → slot = 0 → off.toNat < s.dev.chain.length → completes (.getCertificate via slot off len) s fun d =>
        let part := (s.dev.chain.drop off.toNat).take len.toNat
        answer (v ++ [0x02, 0, 0] ++ leBytes 2 part.length ++ leBytes 2 (s.dev.chain.length - off.toNat - part.length) ++ part) d)) ∧
    (∀ (handle : Byte) (seq : BitVec 16), early (.chunkGet via handle seq) 2 ∧
      (2 ≤ x.phase → x.large = [] ∨ handle.toNat ≠ x.handle ∨ seq.toNat ≠ x.nextChunk →
        becomes (.chunkGet via handle seq) s (s.dev.spdmErr via 1 0)) ∧
      (2 ≤ x.phase → x.large ≠ [] → handle.toNat = x.handle → seq.toNat = x.nextChunk → completes (.chunkGet via handle seq) s fun d =>
        let last : Bool := decide (x.large.length ≤ 4080 * (x.nextChunk + 1))
        let part := (x.large.drop (4080 * x.nextChunk)).take 4080
        (d.spdm via).large = (if last then [] else x.large) ∧ (d.spdm via).nextChunk = (if last then 0 else x.nextChunk + 1) ∧
        (0 < x.nextChunk → sent (v ++ [0x06] ++ beBytes 1 (b2n last) ++ beBytes 1 x.handle ++ leBytes 2 x.nextChunk ++ [0, 0] ++
          leBytes 4 part.length ++ part) d)))) ∧
  (∀ (tag : BitVec 5) (s : State), s.dev.boot.aux = true →
    let answer (cmd : Nat) (b : List Byte) (d : Dev) : Dev := d.put (.mgmt tag.toNat ([0] ++ beBytes 1 tag.toNat ++ beBytes 1 cmd ++ b))
    let reply (code : Nat) (b : List Byte) (d : Dev) : Prop := ∃ pre, d.out = pre ++ Output.mgmt tag.toNat
      ([0x7F, 0x00, 0x04, 0xE2, 0x1A] ++ beBytes 1 tag.toNat ++ beBytes 1 code ++ b) :: s.dev.out
    (∀ e : Byte, (e = 0 ∨ e = 0xFF → becomes (.setEndpointId tag e) s (answer 1 [2] s.dev)) ∧
      (e ≠ 0 → e ≠ 0xFF → becomes (.setEndpointId tag e) s (answer 1 [0, 0, e, 0] { s.dev with boot := { s.dev.boot with eid := e } }))) ∧
    becomes (.getEndpointId tag) s (answer 2 [0, s.dev.boot.eid, 0, 0] s.dev) ∧
    (∀ t : Byte, becomes (.getMctpVersionSupport tag t) s
      (answer 4 (if t = 0 ∨ t = 5 ∨ t = 0x7F ∨ t = 0xFF then [0, 1, 0xF1, 0xF3, 0xF1, 0] else [0x80]) s.dev)) ∧
    becomes (.getMessageTypeSupport tag) s (answer 5 [0, 3, 0, 5, 0x7F] s.dev) ∧
    (∀ k : Byte, becomes (.getVendorDefinedMsgSupport tag k) s
      (answer 6 (if k = 0 then [0, 0xFF, 1, 0, 4, 0xE2, 0x1A, 0, 0] else [2]) s.dev)) ∧
    (∀ code : Byte, completes (.managementUnknownRequest tag code) s
      (reply code.toNat [if s.dev.boot.mgmtBusy then 13 else 0xFF])) ∧
    completes (.recovery tag) s (fun d => reply 0x31 [if s.dev.boot.mgmtBusy then 13 else 0] d ∧
      d.boot.recAsked = (s.dev.boot.recAsked || !s.dev.boot.mgmtBusy))) ∧
  (∀ (fixed a : BitVec 7) (s : State),
    (s.dev.boot.aux = true → s.dev.boot.assigned = false →
      becomes (.entdaa a) s { s.dev with boot := { s.dev.boot with i3c := a, assigned := true } } ∧
      becomes (.setdasa 0x3A a) s { s.dev with boot := { s.dev.boot with i3c := a, assigned := true } }) ∧
    (s.dev.boot.aux = false ∨ s.dev.boot.assigned = true → becomes (.entdaa a) s s.dev ∧ becomes (.setdasa fixed a) s s.dev) ∧
    (fixed ≠ 0x3A → becomes (.setdasa fixed a) s s.dev))

/-- A device reset, by PERST#, a Hot Reset on a live link or DEVICE_RESET, leaves every block at its Reset values with start-up at
step 2, keeps the protected store, memory and the I/O die timer, ends a proposal with outcome 11, or 2 from Applying, and tells its
cause; it takes a request for recovery that waits. An exit from Dormant starts up in the same way and leaves that request. Power-on of the auxiliary supply samples its inputs; its loss stops the device. Each start-up step does its work: step 2
takes the boot slot or the other one, a step that fails begins recovery mode, step 3 waits for the input and maps each cluster to its
good slots, step 4 zeroes memory, step 5 mounts the flash, step 7 waits for PERST#, step 8 loads the stored table. PF FLR clears the
operator's rings and the functions' enables and leaves partitions alone. STATUS and RECOVER_LOAD complete as their rules say. -/
def Obligations.StartCommands : Prop :=
  (∀ s : State,
    let b := s.dev.boot
    let state := s.dev.parts.commit.state
    let fresh (cause : Nat) (d : Dev) : Prop :=
      d.boot.step = 1 ∧ d.boot.rcause = cause ∧ d.boot.failed = 0 ∧ d.boot.recovery = false ∧ d.boot.linkUp = false ∧
      d.cores = [] ∧ d.sigs = [] ∧ d.pg.regs = [] ∧
      d.parts.live = [] ∧ d.parts.vfEnabled = [] ∧ d.store = s.dev.store ∧ d.mem = s.dev.mem ∧ d.sec.keys = [] ∧
      d.timer ioIsle = s.dev.timer ioIsle ∧ d.pwr.state = 0 ∧ d.parts.commit.state = .idle ∧
      d.parts.commit.count = s.dev.parts.commit.count ∧
      (state = .idle → d.parts.commit.outcome = s.dev.parts.commit.outcome) ∧
      (state = .staging ∨ state = .sealed ∨ state = .verifying → d.parts.commit.outcome = 11#8) ∧
      (state = .applying → d.parts.commit.outcome = 2#8)
    let reset (cause : Nat) (asked : Bool) (d : Dev) : Prop :=
      fresh cause d ∧ d.boot.recReq = (b.recAsked || asked) ∧ d.boot.recAsked = false
    (b.aux = false ∨ b.perst = true → becomes .perstAssert s s.dev) ∧
    (b.aux = true → b.perst = false →
      (s.dev.pwr.state = 3 ∨ b.step = 0 → becomes .perstAssert s (s.dev.updBoot fun b => { b with perst := true })) ∧
      (s.dev.pwr.state ≠ 3 → b.step ≠ 0 → completes .perstAssert s fun d => reset 1 false d ∧ d.boot.perst = true)) ∧
    (b.aux = false ∨ b.perst = false → becomes .perstDeassert s s.dev) ∧
    (b.aux = true → b.perst = true →
      (s.dev.pwr.state ≠ 3 → becomes .perstDeassert s (s.dev.updBoot fun b => { b with perst := false })) ∧
      (s.dev.pwr.state = 3 → completes .perstDeassert s fun d =>
        fresh 4 d ∧ d.boot.recReq = false ∧ d.boot.recAsked = b.recAsked ∧ d.boot.perst = false)) ∧
    (b.linkUp = true → 7 ≤ b.step → completes .hotReset s (reset 2 false)) ∧
    (b.linkUp = false ∨ b.step < 7 → becomes .hotReset s s.dev) ∧
    (∀ (e : Entry) (flags : Byte), ringTakes s.dev 16 0 0 false →
      let d1 := headRead s.dev 16 0
      let asked := bit flags.toNat 0
      (s.dev.sec.loading.isSome = true → becomes (.deviceReset e flags) s (d1.complete 16 0 e (headNext s.dev 16 0) 0x47 0)) ∧
      (s.dev.sec.loading = none →
        (state = .verifying ∨ state = .applying → becomes (.deviceReset e flags) s
          (d1.updBoot fun b => { b with resetWaits := some (asked || b.resetWaits.getD false) })) ∧
        (state ≠ .verifying → state ≠ .applying → completes (.deviceReset e flags) s (reset 3 asked)))) ∧
    (b.step ≠ 8 → becomes .pfFlr s s.dev) ∧
    (b.step = 8 → completes .pfFlr s fun d => d.parts.vfEnabled = [] ∧ d.parts.live = s.dev.parts.live ∧ d.cores = s.dev.cores ∧
      d.ring 16 = { Ring.reset with phase := true } ∧
      (state = .staging ∨ state = .sealed → d.parts.commit.state = .idle ∧ d.parts.commit.outcome = 3#8 ∧ d.parts.staged = []) ∧
      (state ≠ .staging → state ≠ .sealed → d.parts.commit = s.dev.parts.commit))) ∧
  (∀ (p r k : Bool) (s : State),
    let b := s.dev.boot
    (b.aux = true → becomes (.auxPowerUp p r k) s s.dev ∧ completes .auxPowerLoss s fun d =>
      d.boot.aux = false ∧ d.boot.step = 0 ∧ d.store = s.dev.store ∧ d.parts.commit.outcome = 0#8 ∧ d.cores = [] ∧ d.parts.live = []) ∧
    (b.aux = false → becomes .auxPowerLoss s s.dev ∧ completes (.auxPowerUp p r k) s fun d =>
      d.boot.aux = true ∧ d.boot.step = 0 ∧ d.boot.perst = k ∧ d.boot.provLow = !p ∧ d.boot.provSampled = !p ∧ d.boot.srisLow = !r ∧
      d.boot.inputOk = b.inputOk ∧ d.store = s.dev.store ∧ d.parts.commit.outcome = 0#8 ∧ d.timer ioIsle = 0)) ∧
  (∀ (ok : Bool) (detail : Byte) (bad : List Nat) (s : State),
    let b := s.dev.boot
    let c := Instr.startupStepDone ok detail bad
    let moved (d : Dev) : Prop := d.boot.step = b.step + 1
    (b.aux = false ∨ s.dev.pwr.state = 3 ∨ 8 ≤ b.step → becomes c s s.dev) ∧
    (b.aux = true → s.dev.pwr.state ≠ 3 →
      (b.step = 0 ∨ b.step = 5 → becomes c s (s.dev.updBoot fun b => { b with step := b.step + 1 })) ∧
      (b.step = 1 → ok = false → completes c s fun d => moved d ∧ d.boot.failed = 2 ∧ d.boot.code = detail.toNat ∧ d.boot.recovery = true ∧
        d.sec.run1 = [] ∧ d.sec.run2 = []) ∧
      (b.step = 1 → ok = true → completes c s fun d => moved d ∧
        let x := (s.dev.sec.slot (if detail = 0 then s.dev.sec.bootB else !s.dev.sec.bootB)).bundle
        d.sec.run1 = x.take (imageLen x) ∧ d.sec.run2 = (if b.recReq then [] else x.drop (imageLen x)) ∧
        d.sec.fallback = (detail != 0) ∧ d.boot.recovery = (b.recovery || b.recReq)) ∧
      (b.step = 2 → b.inputOk = false → becomes c s s.dev) ∧
      (b.step = 2 → b.inputOk = true → completes c s fun d => moved d ∧ ∀ i, i < 16 →
        let good := (List.range 17).filter fun q => !bad.contains (17 * i + q) && (s.dev.clus' i).slots.getD q .dead != .defective
        (d.clus' i).withdrawn = decide (good.length < 16) ∧
        (16 ≤ good.length → (d.clus' i).map = (good.take 16).map fun q => (q, 0)) ∧
        (∀ q, q ∈ good.take 16 → (d.clus' i).slots.getD q .dead = .active) ∧
        (∀ q, q < 17 → q ∉ good.take 16 → d.bst (pCore (17 * i + q)) = .absent)) ∧
      (b.step = 3 → completes c s fun d => moved d ∧ d.poison = [] ∧ (∀ a, a < 1024 * memSpan → memGet d.mem a = 0#8) ∧
        (ok = true → d.boot.failed = b.failed ∧ d.boot.recovery = b.recovery) ∧
        (ok = false → d.boot.failed = 4 ∧ d.boot.code = 0x10 + detail.toNat % 8 ∧ d.boot.recovery = true)) ∧
      (b.step = 4 → completes c s fun d => moved d ∧ (b.recovery = true → d.flash = s.dev.flash) ∧
        (b.recovery = false → s.dev.flash.plp = false → d.flash.state = .mounting) ∧
        (b.recovery = false → s.dev.flash.plp = true → d.flash.recovered = true)) ∧
      (b.step = 6 → b.perst = true → becomes c s s.dev) ∧
      (b.step = 6 → b.perst = false → completes c s fun d => moved d ∧ d.boot.linkUp = true) ∧
      (b.step = 7 → completes c s fun d => moved d ∧ d.boot.ms = (s.dev.timer ioIsle - b.startAt) / 100000 ∧
        d.parts.commit.signTag = none ∧
        (b.recovery = false → d.parts.live = s.dev.store.table ∧ d.store = { s.dev.store with nsChange := [] }) ∧
        (b.recovery = true → d.parts.live = s.dev.parts.live ∧ d.store = s.dev.store)))) ∧
  (∀ (e : Entry) (table : BitVec 64) (n : BitVec 32) (slot : Byte) (bundle : List Byte) (busError aligned : Bool) (s : State),
    ringTakes s.dev 16 0 0 false →
    let d1 := headRead s.dev 16 0
    let head := headNext s.dev 16 0
    let b := s.dev.boot
    let c := Instr.recoverLoad e table n slot bundle busError aligned
    let wrong : Prop := table.toNat % 8 ≠ 0 ∨ n.toNat = 0 ∨ 7168 < n.toNat ∨ 1 < slot.toNat ∨ aligned = false
    let pages := padTo (4096 * n.toNat) bundle
    becomes (.status e) s (d1.complete 16 0 e head 0
      ((b.step + b.failed * 16 + b.code % 256 * 256 + b2n b.recovery * 0x10000 + b2n s.dev.sec.fallback * 0x20000) % 65536)) ∧
    (b.recovery = false → becomes c s (d1.complete 16 0 e head 0x40 0)) ∧
    (b.recovery = true →
      (wrong → becomes c s (d1.complete 16 0 e head 0x46 0)) ∧
      (¬ wrong → busError = true ∨ (bundleCheck s.dev.sec pages).1 ≠ 0 → completes c s fun d =>
        (d.dma 0).maint = true ∧ d.sec = s.dev.sec) ∧
      (¬ wrong → busError = false → (bundleCheck s.dev.sec pages).1 = 0 → completes c s fun d =>
        (d.dma 0).maint = true ∧ d.sec.bootB = (slot.toNat == 1) ∧ d.sec.slot (slot.toNat == 1) = ⟨true, pages⟩)))

/-- POWER is answered 13 while a response is owed, during a transition and during start-up, 0 when the state is in force already,
0xFF for a target that does not exist and 9 where R626 refuses; otherwise its answer waits for the end of the transition, and from
Dormant for start-up. PROV_N is followed. The link goes down without any reset, and trains again after step 3 while PERST# is high.
A vector that is unmasked sends the message that waits. An ATS invalidation is counted. -/
def Obligations.LinkCommands : Prop :=
  (∀ (tag : BitVec 5) (target : Byte) (s : State),
    let t := target.toNat
    let p := s.dev.pwr
    let b := s.dev.boot
    let d0 := s.dev.cnt .pf pMgmt 0 1
    let answer (x : Byte) (d : Dev) : Prop := ∃ pre, d.out = pre ++ Output.mgmt tag.toNat
      ([0x7F, 0x00, 0x04, 0xE2, 0x1A] ++ beBytes 1 tag.toNat ++ [0x30, x]) :: s.dev.out
    let waits (d : Dev) : Prop := d.boot.mgmtBusy = true ∧ d.pwr.mgmtTag = some tag ∧ d.pwr.target = t
    (b.aux = false → becomes (.power tag target) s s.dev) ∧
    (b.aux = true →
      (b.mgmtBusy = true → completes (.power tag target) s fun d => answer 13 d ∧ d.pwr = p) ∧
      (b.mgmtBusy = false →
        (3 < t → completes (.power tag target) s fun d => answer 0xFF d ∧ d.pwr = p) ∧
        (t ≤ 3 → p.moving.isSome = true → completes (.power tag target) s fun d => answer 13 d ∧ d.pwr = p) ∧
        (t ≤ 3 → p.moving = none →
          (p.state = t → completes (.power tag target) s fun d => answer 0 d ∧ d.pwr = p) ∧
          (p.state = 3 → t ≠ 3 → completes (.power tag target) s fun d => waits d ∧ d.boot.step = 1 ∧ d.boot.rcause = 4) ∧
          (p.state ≠ 3 → p.state ≠ t →
            (b.step ≠ 8 → completes (.power tag target) s fun d => answer 13 d ∧ d.pwr = p) ∧
            (b.step = 8 → 2 ≤ t → d0.ladderRefuses = true → completes (.power tag target) s fun d => answer 9 d ∧ d.pwr = p) ∧
            (b.step = 8 → t < 2 ∨ d0.ladderRefuses = false → completes (.power tag target) s fun d => waits d ∧
              d.pwr.moving = some t ∧ d.pwr.state = p.state)))))) ∧
  (∀ s : State,
    (∀ level : Bool, becomes (.provNChange level) s (s.dev.updBoot fun b => { b with provLow := !level })) ∧
    becomes .pcieLinkDown s (s.dev.updBoot fun b => { b with linkUp := false }) ∧
    (∀ (rate : BitVec 3) (flit : Bool) (width : BitVec 5),
      (s.dev.boot.step < 3 ∨ s.dev.boot.perst = true → becomes (.pcieLinkRetrain rate flit width) s s.dev) ∧
      (3 ≤ s.dev.boot.step → s.dev.boot.perst = false → completes (.pcieLinkRetrain rate flit width) s fun d =>
        d.boot = { s.dev.boot with linkUp := true, rate := rate.toNat, flit := flit, width := width.toNat })) ∧
    (∀ (fn : View) (vec : Fin 2048),
      let k := fn.key * 2048 + vec.val % fn.vectors
      let d1 : Dev := { s.dev with irq := { s.dev.irq with unmasked := s.dev.irq.unmasked.add k } }
      (s.dev.irq.pba.contains k = true → s.dev.irq.bme.contains fn.key = true → becomes (.msixVectorUnmask fn vec) s
        ({ d1 with irq := { d1.irq with pba := d1.irq.pba.del k } }.msix fn vec.val)) ∧
      (s.dev.irq.pba.contains k = false ∨ s.dev.irq.bme.contains fn.key = false → becomes (.msixVectorUnmask fn vec) s d1)) ∧
    (∀ (fn : View) (a : BitVec 64) (n : Nat), becomes (.atsInvalidateRequest fn a n) s (s.dev.cnt .pf pPcie 7 1)))

/-- The result of a finished array, vector, matrix-vector or conversion operation lands where its writes name it, byte by byte, but
for those into a cluster whose containment stands; every other byte of memory reads as before. A write at an address of a partition
reaches the bytes to which its pieces translate and no others; what faults, waits or meets a contained cluster is dropped. -/
def Obligations.StoresReachTheirBytesOnly : Prop :=
  (∀ (d : Dev) (ws : List MemWr) (a : Nat),
    (∀ w, w ∈ ws → d.shutAt w.key = none → a < w.key ∨ w.key + w.bytes.length ≤ a) → memGet (d.land ws).mem a = memGet d.mem a) ∧
  (∀ (d : Dev) (ws : List MemWr) (w : MemWr) (i : Nat), d.shutAt w.key = none → i < w.bytes.length →
    memGet (d.land (ws ++ [w])).mem (w.key + i) = w.bytes.getD i 0#8) ∧
  (∀ (d : Dev) (p agent va : Nat) (bytes : List Byte) (bad : List Nat) (a : Nat),
    (∀ x, x ∈ piecesOf va bytes.length → ∀ k, d.tr p agent true va bytes.length x.1 = .key k → d.shutAt k = none →
      a < k ∨ k + x.2 ≤ a) →
    memGet (d.tWrite p agent va bytes bad).mem a = memGet d.mem a) ∧
  (∀ (d : Dev) (p agent va k i : Nat) (bytes : List Byte) (bad : List Nat), bytes.length ≤ 256 - va % 256 →
    d.tr p agent true va bytes.length va = .key k → d.shutAt k = none → i < bytes.length →
    memGet (d.tWrite p agent va bytes bad).mem (k + i) = bytes.getD i 0#8)

/-- From every state, a command that answers a next state keeps the queue of waiting commands and changes only the components of
the device that the table touches gives for it: registers, page states, headers, counters, partition tables, memory, poison,
islands, cores, event counters, signals, each engine, rings, ports, transport, streams, power, error queue, sideband inputs,
security controller, start-up, output and the counter of free values. A step on an empty queue changes the islands alone. -/
def Obligations.CommandsKeepTheRest : Prop :=
  (∀ (c : Instr) (s t : State), exec c s = .next t → t.pending = s.pending ∧ changesOnly (touches c) s.dev t.dev) ∧
  (∀ (d : Dev) (t : State), step { pending := [], dev := d } = .next t → t.pending = [] ∧ changesOnly [.isles] d t.dev)

/-- A well-formed command answers a next state in every state, with the queue as it was: no state of the device makes it fault or be
refused. Whatever the command, no refusal is answered, and the one fault is that of a page, an island, a core or a link whose number
no module has; each command that takes such a number stops so on every one of them. -/
def Obligations.WellFormedCommandsComplete : Prop :=
  (∀ (c : Instr) (s : State), c.wf = true → ∃ t, exec c s = .next t ∧ t.pending = s.pending) ∧
  (∀ (c : Instr) (s : State), (∃ t, exec c s = .next t) ∨ (exec c s = .fault .noSuchUnit ∧ c.wf = false)) ∧
  (∀ (v : View) (n : Fin 128) (x y : Nat) (r : BitVec 3) (maj mnr : Byte) (w a : Word) (e : BitVec 16) (q : Bool) (k : Fin 4)
      (addr : BitVec 64) (bad : List Nat) (s : State),
    (∀ p : Page, p.valid = false → ∀ c ∈ [Instr.counterLowRead v p n, .counter64Read v p n, .rcRead v p x y, .blkNegWrite v p maj mnr,
      .blkEvtWrite v p w a e, .blockEnable v p q, .blockReady p, .blockQuiesce v p, .blockUnquiesce v p, .blockDisable v p,
      .blockDrained p, .blockReset v p, .errorDetect e p k addr], exec c s = .fault .noSuchUnit) ∧
    (∀ i, isleKind i = none → ∀ c ∈ [Instr.isleTimerLoRead v i, .isleStateReq v i r, .islandDescentStart i, .islandDescentDone i,
      .islandAutoIdle i, .islandExitDone i, .sramSaveDone i, .sramRestoreDone i, .isleFreqWrite v i w, .freqChangeApply i],
      exec c s = .fault .noSuchUnit) ∧
    (∀ i, 272 ≤ i → exec (.sramScrubPass i x bad) s = .fault .noSuchUnit) ∧
    (∀ i, 1024 ≤ i → exec (.helloResend i) s = .fault .noSuchUnit ∧ exec (.keepaliveSend i) s = .fault .noSuchUnit))
end

