-- ==== Sys2Proof/Laws/Only.lean ====
section
/-!
SUPPORT. How a claim that a command changes only some components is put together: each update of the device has a lemma
that says which components it can change, and simp peels the updates of a meaning from the outside.
-/

namespace Sys2Proof.Safety

open Sys2Proof.Machine

theorem Comp.same_trans {a b c : Dev} : ∀ (x : Comp), x.same a b → x.same b c → x.same a c := by
  intro x h1 h2; cases x <;> exact h2.trans h1

theorem Comp.same_symm {a b : Dev} : ∀ (x : Comp), x.same a b → x.same b a := by
  intro x h; cases x <;> exact h.symm

@[simp] theorem changesOnly_self (l : List Comp) (d : Dev) : changesOnly l d d := by
  intro x _; cases x <;> rfl

theorem changesOnly.trans {l : List Comp} {a b c : Dev} (h : changesOnly l a b) (k : changesOnly l b c) :
    changesOnly l a c := fun x hx => x.same_trans (h x hx) (k x hx)

theorem changesOnly.mono {l m : List Comp} {a b : Dev} (h : changesOnly l a b) (hs : l ⊆ m) : changesOnly m a b :=
  fun x hx => h x fun hl => hx (hs hl)

theorem changesOnly.peel {k l : List Comp} {a b c : Dev} (h : changesOnly k b c) (hs : k ⊆ l) :
    changesOnly l a c ↔ changesOnly l a b :=
  ⟨fun g => g.trans fun x hx => x.same_symm (h.mono hs x hx), fun g => g.trans (h.mono hs)⟩

@[simp] theorem changesOnly_ite {l : List Comp} {a b c : Dev} {p : Prop} [Decidable p] :
    changesOnly l a (if p then b else c) ↔ if p then changesOnly l a b else changesOnly l a c := by
  split <;> rfl

@[simp] theorem changesOnly_ite_2 {l : List Comp} {a : Dev} {β : Type} {x y : β × Dev} {p : Prop} [Decidable p] :
    changesOnly l a (if p then x else y).2 ↔ if p then changesOnly l a x.2 else changesOnly l a y.2 := by
  split <;> rfl

@[simp] theorem changesOnly_ite_22 {l : List Comp} {a : Dev} {β γ : Type} {x y : β × γ × Dev} {p : Prop} [Decidable p] :
    changesOnly l a (if p then x else y).2.2 ↔ if p then changesOnly l a x.2.2 else changesOnly l a y.2.2 := by
  split <;> rfl

@[simp] theorem changesOnly_ite_1 {l : List Comp} {a : Dev} {β : Type} {x y : Dev × β} {p : Prop} [Decidable p] :
    changesOnly l a (if p then x else y).1 ↔ if p then changesOnly l a x.1 else changesOnly l a y.1 := by
  split <;> rfl

theorem changesOnly_foldl {l : List Comp} {a : Dev} {α : Type} (f : Dev → α → Dev) (xs : List α) (d : Dev)
    (h : ∀ b x, changesOnly l b (f b x)) : changesOnly l a (xs.foldl f d) ↔ changesOnly l a d := by
  induction xs generalizing d with
  | nil => rfl
  | cons x xs ih => exact (ih (f d x)).trans ((h d x).peel fun _ => id)

theorem changesOnly_foldl_2 {l : List Comp} {a : Dev} {α β : Type} (f : β × Dev → α → β × Dev) (xs : List α) (p : β × Dev)
    (h : ∀ b x, changesOnly l b.2 (f b x).2) : changesOnly l a (xs.foldl f p).2 ↔ changesOnly l a p.2 := by
  induction xs generalizing p with
  | nil => rfl
  | cons x xs ih => exact (ih (f p x)).trans ((h p x).peel fun _ => id)

theorem changesOnly_foldl_22 {l : List Comp} {a : Dev} {α β γ : Type} (f : β × γ × Dev → α → β × γ × Dev) (xs : List α)
    (p : β × γ × Dev) (h : ∀ b x, changesOnly l b.2.2 (f b x).2.2) :
    changesOnly l a (xs.foldl f p).2.2 ↔ changesOnly l a p.2.2 := by
  induction xs generalizing p with
  | nil => rfl
  | cons x xs ih => exact (ih (f p x)).trans ((h p x).peel fun _ => id)

theorem changesOnly_foldl_1 {l : List Comp} {a : Dev} {α β : Type} (f : Dev × β → α → Dev × β) (xs : List α) (p : Dev × β)
    (h : ∀ b x, changesOnly l b.1 (f b x).1) : changesOnly l a (xs.foldl f p).1 ↔ changesOnly l a p.1 := by
  induction xs generalizing p with
  | nil => rfl
  | cons x xs ih => exact (ih (f p x)).trans ((h p x).peel fun _ => id)

/-! ### Updates of fields -/

@[simp] theorem changesOnly_set_parts {l : List Comp} {a d : Dev} (x0) (hl : [.parts] ⊆ l) :
    changesOnly l a { d with parts := x0 } ↔ changesOnly l a d :=
  changesOnly.peel (k := [.parts]) (fun x hx => by cases x <;> first | rfl | simp at hx) hl

@[simp] theorem changesOnly_set_store {l : List Comp} {a d : Dev} (x0) (hl : [.store] ⊆ l) :
    changesOnly l a { d with store := x0 } ↔ changesOnly l a d :=
  changesOnly.peel (k := [.store]) (fun x hx => by cases x <;> first | rfl | simp at hx) hl

@[simp] theorem changesOnly_set_irq {l : List Comp} {a d : Dev} (x0) (hl : [.irq] ⊆ l) :
    changesOnly l a { d with irq := x0 } ↔ changesOnly l a d :=
  changesOnly.peel (k := [.irq]) (fun x hx => by cases x <;> first | rfl | simp at hx) hl

@[simp] theorem changesOnly_set_mem {l : List Comp} {a d : Dev} (x0) (hl : [.mem] ⊆ l) :
    changesOnly l a { d with mem := x0 } ↔ changesOnly l a d :=
  changesOnly.peel (k := [.mem]) (fun x hx => by cases x <;> first | rfl | simp at hx) hl

@[simp] theorem changesOnly_set_poison {l : List Comp} {a d : Dev} (x0) (hl : [.poison] ⊆ l) :
    changesOnly l a { d with poison := x0 } ↔ changesOnly l a d :=
  changesOnly.peel (k := [.poison]) (fun x hx => by cases x <;> first | rfl | simp at hx) hl

@[simp] theorem changesOnly_set_isles {l : List Comp} {a d : Dev} (x0) (hl : [.isles] ⊆ l) :
    changesOnly l a { d with isles := x0 } ↔ changesOnly l a d :=
  changesOnly.peel (k := [.isles]) (fun x hx => by cases x <;> first | rfl | simp at hx) hl

@[simp] theorem changesOnly_set_cores {l : List Comp} {a d : Dev} (x0) (hl : [.cores] ⊆ l) :
    changesOnly l a { d with cores := x0 } ↔ changesOnly l a d :=
  changesOnly.peel (k := [.cores]) (fun x hx => by cases x <;> first | rfl | simp at hx) hl

@[simp] theorem changesOnly_set_evc {l : List Comp} {a d : Dev} (x0) (hl : [.evc] ⊆ l) :
    changesOnly l a { d with evc := x0 } ↔ changesOnly l a d :=
  changesOnly.peel (k := [.evc]) (fun x hx => by cases x <;> first | rfl | simp at hx) hl

@[simp] theorem changesOnly_set_sigs {l : List Comp} {a d : Dev} (x0) (hl : [.sigs] ⊆ l) :
    changesOnly l a { d with sigs := x0 } ↔ changesOnly l a d :=
  changesOnly.peel (k := [.sigs]) (fun x hx => by cases x <;> first | rfl | simp at hx) hl

@[simp] theorem changesOnly_set_clus {l : List Comp} {a d : Dev} (x0) (hl : [.clus] ⊆ l) :
    changesOnly l a { d with clus := x0 } ↔ changesOnly l a d :=
  changesOnly.peel (k := [.clus]) (fun x hx => by cases x <;> first | rfl | simp at hx) hl

@[simp] theorem changesOnly_set_mvec {l : List Comp} {a d : Dev} (x0) (hl : [.mvec] ⊆ l) :
    changesOnly l a { d with mvec := x0 } ↔ changesOnly l a d :=
  changesOnly.peel (k := [.mvec]) (fun x hx => by cases x <;> first | rfl | simp at hx) hl

@[simp] theorem changesOnly_set_nwch {l : List Comp} {a d : Dev} (x0) (hl : [.nwch] ⊆ l) :
    changesOnly l a { d with nwch := x0 } ↔ changesOnly l a d :=
  changesOnly.peel (k := [.nwch]) (fun x hx => by cases x <;> first | rfl | simp at hx) hl

@[simp] theorem changesOnly_set_opte {l : List Comp} {a d : Dev} (x0) (hl : [.opte] ⊆ l) :
    changesOnly l a { d with opte := x0 } ↔ changesOnly l a d :=
  changesOnly.peel (k := [.opte]) (fun x hx => by cases x <;> first | rfl | simp at hx) hl

@[simp] theorem changesOnly_set_rede {l : List Comp} {a d : Dev} (x0) (hl : [.rede] ⊆ l) :
    changesOnly l a { d with rede := x0 } ↔ changesOnly l a d :=
  changesOnly.peel (k := [.rede]) (fun x hx => by cases x <;> first | rfl | simp at hx) hl

@[simp] theorem changesOnly_set_tokx {l : List Comp} {a d : Dev} (x0) (hl : [.tokx] ⊆ l) :
    changesOnly l a { d with tokx := x0 } ↔ changesOnly l a d :=
  changesOnly.peel (k := [.tokx]) (fun x hx => by cases x <;> first | rfl | simp at hx) hl

@[simp] theorem changesOnly_set_shelves {l : List Comp} {a d : Dev} (x0) (hl : [.shelves] ⊆ l) :
    changesOnly l a { d with shelves := x0 } ↔ changesOnly l a d :=
  changesOnly.peel (k := [.shelves]) (fun x hx => by cases x <;> first | rfl | simp at hx) hl

@[simp] theorem changesOnly_set_tier {l : List Comp} {a d : Dev} (x0) (hl : [.tier] ⊆ l) :
    changesOnly l a { d with tier := x0 } ↔ changesOnly l a d :=
  changesOnly.peel (k := [.tier]) (fun x hx => by cases x <;> first | rfl | simp at hx) hl

@[simp] theorem changesOnly_set_flash {l : List Comp} {a d : Dev} (x0) (hl : [.flash] ⊆ l) :
    changesOnly l a { d with flash := x0 } ↔ changesOnly l a d :=
  changesOnly.peel (k := [.flash]) (fun x hx => by cases x <;> first | rfl | simp at hx) hl

@[simp] theorem changesOnly_set_rings {l : List Comp} {a d : Dev} (x0) (hl : [.rings] ⊆ l) :
    changesOnly l a { d with rings := x0 } ↔ changesOnly l a d :=
  changesOnly.peel (k := [.rings]) (fun x hx => by cases x <;> first | rfl | simp at hx) hl

@[simp] theorem changesOnly_set_dmae {l : List Comp} {a d : Dev} (x0) (hl : [.dmae] ⊆ l) :
    changesOnly l a { d with dmae := x0 } ↔ changesOnly l a d :=
  changesOnly.peel (k := [.dmae]) (fun x hx => by cases x <;> first | rfl | simp at hx) hl

@[simp] theorem changesOnly_set_eth {l : List Comp} {a d : Dev} (x0) (hl : [.eth] ⊆ l) :
    changesOnly l a { d with eth := x0 } ↔ changesOnly l a d :=
  changesOnly.peel (k := [.eth]) (fun x hx => by cases x <;> first | rfl | simp at hx) hl

@[simp] theorem changesOnly_set_fab {l : List Comp} {a d : Dev} (x0) (hl : [.fab] ⊆ l) :
    changesOnly l a { d with fab := x0 } ↔ changesOnly l a d :=
  changesOnly.peel (k := [.fab]) (fun x hx => by cases x <;> first | rfl | simp at hx) hl

@[simp] theorem changesOnly_set_strm {l : List Comp} {a d : Dev} (x0) (hl : [.strm] ⊆ l) :
    changesOnly l a { d with strm := x0 } ↔ changesOnly l a d :=
  changesOnly.peel (k := [.strm]) (fun x hx => by cases x <;> first | rfl | simp at hx) hl

@[simp] theorem changesOnly_set_pwr {l : List Comp} {a d : Dev} (x0) (hl : [.pwr] ⊆ l) :
    changesOnly l a { d with pwr := x0 } ↔ changesOnly l a d :=
  changesOnly.peel (k := [.pwr]) (fun x hx => by cases x <;> first | rfl | simp at hx) hl

@[simp] theorem changesOnly_set_errm {l : List Comp} {a d : Dev} (x0) (hl : [.errm] ⊆ l) :
    changesOnly l a { d with errm := x0 } ↔ changesOnly l a d :=
  changesOnly.peel (k := [.errm]) (fun x hx => by cases x <;> first | rfl | simp at hx) hl

@[simp] theorem changesOnly_set_halt {l : List Comp} {a d : Dev} (x0) (hl : [.halt] ⊆ l) :
    changesOnly l a { d with halt := x0 } ↔ changesOnly l a d :=
  changesOnly.peel (k := [.halt]) (fun x hx => by cases x <;> first | rfl | simp at hx) hl

@[simp] theorem changesOnly_set_brake {l : List Comp} {a d : Dev} (x0) (hl : [.brake] ⊆ l) :
    changesOnly l a { d with brake := x0 } ↔ changesOnly l a d :=
  changesOnly.peel (k := [.brake]) (fun x hx => by cases x <;> first | rfl | simp at hx) hl

@[simp] theorem changesOnly_set_sec {l : List Comp} {a d : Dev} (x0) (hl : [.sec] ⊆ l) :
    changesOnly l a { d with sec := x0 } ↔ changesOnly l a d :=
  changesOnly.peel (k := [.sec]) (fun x hx => by cases x <;> first | rfl | simp at hx) hl

@[simp] theorem changesOnly_set_boot {l : List Comp} {a d : Dev} (x0) (hl : [.boot] ⊆ l) :
    changesOnly l a { d with boot := x0 } ↔ changesOnly l a d :=
  changesOnly.peel (k := [.boot]) (fun x hx => by cases x <;> first | rfl | simp at hx) hl

@[simp] theorem changesOnly_set_out {l : List Comp} {a d : Dev} (x0) (hl : [.out] ⊆ l) :
    changesOnly l a { d with out := x0 } ↔ changesOnly l a d :=
  changesOnly.peel (k := [.out]) (fun x hx => by cases x <;> first | rfl | simp at hx) hl

@[simp] theorem changesOnly_set_free {l : List Comp} {a d : Dev} (x0) (hl : [.free] ⊆ l) :
    changesOnly l a { d with free := x0 } ↔ changesOnly l a d :=
  changesOnly.peel (k := [.free]) (fun x hx => by cases x <;> first | rfl | simp at hx) hl

@[simp] theorem changesOnly_set_st {l : List Comp} {a d : Dev} (x0) (hl : [.st] ⊆ l) :
    changesOnly l a { d with pg := { d.pg with st := x0 } } ↔ changesOnly l a d :=
  changesOnly.peel (k := [.st]) (fun x hx => by cases x <;> first | rfl | simp at hx) hl

@[simp] theorem changesOnly_set_hdr {l : List Comp} {a d : Dev} (x0) (hl : [.hdr] ⊆ l) :
    changesOnly l a { d with pg := { d.pg with hdr := x0 } } ↔ changesOnly l a d :=
  changesOnly.peel (k := [.hdr]) (fun x hx => by cases x <;> first | rfl | simp at hx) hl

@[simp] theorem changesOnly_set_ctr {l : List Comp} {a d : Dev} (x0) (hl : [.ctr] ⊆ l) :
    changesOnly l a { d with pg := { d.pg with ctr := x0 } } ↔ changesOnly l a d :=
  changesOnly.peel (k := [.ctr]) (fun x hx => by cases x <;> first | rfl | simp at hx) hl

@[simp] theorem changesOnly_set_snap {l : List Comp} {a d : Dev} (x0) (hl : [.snap] ⊆ l) :
    changesOnly l a { d with pg := { d.pg with snap := x0 } } ↔ changesOnly l a d :=
  changesOnly.peel (k := [.snap]) (fun x hx => by cases x <;> first | rfl | simp at hx) hl

@[simp] theorem changesOnly_set_regs {l : List Comp} {a d : Dev} (x0) (hl : [.regs] ⊆ l) :
    changesOnly l a { d with pg := { d.pg with regs := x0 } } ↔ changesOnly l a d :=
  changesOnly.peel (k := [.regs]) (fun x hx => by cases x <;> first | rfl | simp at hx) hl

@[simp] theorem changesOnly_set_gen {l : List Comp} {a d : Dev} (x0) (hl : [.gen] ⊆ l) :
    changesOnly l a { d with pg := { d.pg with gen := x0 } } ↔ changesOnly l a d :=
  changesOnly.peel (k := [.gen]) (fun x hx => by cases x <;> first | rfl | simp at hx) hl

@[simp] theorem changesOnly_set_pg {l : List Comp} {a d : Dev} (x) (hl : [.st, .hdr, .ctr, .snap, .regs, .gen] ⊆ l) :
    changesOnly l a { d with pg := x } ↔ changesOnly l a d :=
  changesOnly.peel (k := [.st, .hdr, .ctr, .snap, .regs, .gen]) (fun x hx => by cases x <;> first | rfl | simp at hx) hl

@[simp] theorem changesOnly_set_hdr_ctr {l : List Comp} {a d : Dev} (x0) (x1) (hl : [.hdr, .ctr] ⊆ l) :
    changesOnly l a { d with pg := { d.pg with hdr := x0, ctr := x1 } } ↔ changesOnly l a d :=
  changesOnly.peel (k := [.hdr, .ctr]) (fun x hx => by cases x <;> first | rfl | simp at hx) hl

@[simp] theorem changesOnly_set_ctr_snap {l : List Comp} {a d : Dev} (x0) (x1) (hl : [.ctr, .snap] ⊆ l) :
    changesOnly l a { d with pg := { d.pg with ctr := x0, snap := x1 } } ↔ changesOnly l a d :=
  changesOnly.peel (k := [.ctr, .snap]) (fun x hx => by cases x <;> first | rfl | simp at hx) hl

@[simp] theorem changesOnly_set_hdr_ctr_snap {l : List Comp} {a d : Dev} (x0) (x1) (x2) (hl : [.hdr, .ctr, .snap] ⊆ l) :
    changesOnly l a { d with pg := { d.pg with hdr := x0, ctr := x1, snap := x2 } } ↔ changesOnly l a d :=
  changesOnly.peel (k := [.hdr, .ctr, .snap]) (fun x hx => by cases x <;> first | rfl | simp at hx) hl

@[simp] theorem changesOnly_set_evc_sigs {l : List Comp} {a d : Dev} (x0) (x1) (hl : [.evc, .sigs] ⊆ l) :
    changesOnly l a { d with evc := x0, sigs := x1 } ↔ changesOnly l a d :=
  changesOnly.peel (k := [.evc, .sigs]) (fun x hx => by cases x <;> first | rfl | simp at hx) hl

@[simp] theorem changesOnly_set_cores_evc {l : List Comp} {a d : Dev} (x0) (x1) (hl : [.cores, .evc] ⊆ l) :
    changesOnly l a { d with cores := x0, evc := x1 } ↔ changesOnly l a d :=
  changesOnly.peel (k := [.cores, .evc]) (fun x hx => by cases x <;> first | rfl | simp at hx) hl

@[simp] theorem changesOnly_set_evc_nwch_opte_rede {l : List Comp} {a d : Dev} (x0) (x1) (x2) (x3) (hl : [.evc, .nwch, .opte, .rede] ⊆ l) :
    changesOnly l a { d with evc := x0, nwch := x1, opte := x2, rede := x3 } ↔ changesOnly l a d :=
  changesOnly.peel (k := [.evc, .nwch, .opte, .rede]) (fun x hx => by cases x <;> first | rfl | simp at hx) hl

@[simp] theorem changesOnly_set_flash_pwr_boot {l : List Comp} {a d : Dev} (x0) (x1) (x2) (hl : [.flash, .pwr, .boot] ⊆ l) :
    changesOnly l a { d with flash := x0, pwr := x1, boot := x2 } ↔ changesOnly l a d :=
  changesOnly.peel (k := [.flash, .pwr, .boot]) (fun x hx => by cases x <;> first | rfl | simp at hx) hl

@[simp] theorem changesOnly_set_mem_poison {l : List Comp} {a d : Dev} (x0) (x1) (hl : [.mem, .poison] ⊆ l) :
    changesOnly l a { d with mem := x0, poison := x1 } ↔ changesOnly l a d :=
  changesOnly.peel (k := [.mem, .poison]) (fun x hx => by cases x <;> first | rfl | simp at hx) hl

@[simp] theorem changesOnly_set_mem_poison_cores_evc_sigs_boot {l : List Comp} {a d : Dev} (x0) (x1) (x2) (x3) (x4) (x5) (hl : [.mem, .poison, .cores, .evc, .sigs, .boot] ⊆ l) :
    changesOnly l a { d with mem := x0, poison := x1, cores := x2, evc := x3, sigs := x4, boot := x5 } ↔ changesOnly l a d :=
  changesOnly.peel (k := [.mem, .poison, .cores, .evc, .sigs, .boot]) (fun x hx => by cases x <;> first | rfl | simp at hx) hl

@[simp] theorem changesOnly_set_mem_poison_tier {l : List Comp} {a d : Dev} (x0) (x1) (x2) (hl : [.mem, .poison, .tier] ⊆ l) :
    changesOnly l a { d with mem := x0, poison := x1, tier := x2 } ↔ changesOnly l a d :=
  changesOnly.peel (k := [.mem, .poison, .tier]) (fun x hx => by cases x <;> first | rfl | simp at hx) hl

@[simp] theorem changesOnly_set_parts_boot {l : List Comp} {a d : Dev} (x0) (x1) (hl : [.parts, .boot] ⊆ l) :
    changesOnly l a { d with parts := x0, boot := x1 } ↔ changesOnly l a d :=
  changesOnly.peel (k := [.parts, .boot]) (fun x hx => by cases x <;> first | rfl | simp at hx) hl

@[simp] theorem changesOnly_set_parts_isles_pwr_halt_brake_sec_boot {l : List Comp} {a d : Dev} (x0) (x1) (x2) (x3) (x4) (x5) (x6) (hl : [.parts, .isles, .pwr, .halt, .brake, .sec, .boot] ⊆ l) :
    changesOnly l a { d with parts := x0, isles := x1, pwr := x2, halt := x3, brake := x4, sec := x5, boot := x6 } ↔ changesOnly l a d :=
  changesOnly.peel (k := [.parts, .isles, .pwr, .halt, .brake, .sec, .boot]) (fun x hx => by cases x <;> first | rfl | simp at hx) hl

@[simp] theorem changesOnly_set_parts_pwr_halt_brake_boot {l : List Comp} {a d : Dev} (x0) (x1) (x2) (x3) (x4) (hl : [.parts, .pwr, .halt, .brake, .boot] ⊆ l) :
    changesOnly l a { d with parts := x0, pwr := x1, halt := x2, brake := x3, boot := x4 } ↔ changesOnly l a d :=
  changesOnly.peel (k := [.parts, .pwr, .halt, .brake, .boot]) (fun x hx => by cases x <;> first | rfl | simp at hx) hl

@[simp] theorem changesOnly_set_parts_store {l : List Comp} {a d : Dev} (x0) (x1) (hl : [.parts, .store] ⊆ l) :
    changesOnly l a { d with parts := x0, store := x1 } ↔ changesOnly l a d :=
  changesOnly.peel (k := [.parts, .store]) (fun x hx => by cases x <;> first | rfl | simp at hx) hl

@[simp] theorem changesOnly_set_pwr_boot {l : List Comp} {a d : Dev} (x0) (x1) (hl : [.pwr, .boot] ⊆ l) :
    changesOnly l a { d with pwr := x0, boot := x1 } ↔ changesOnly l a d :=
  changesOnly.peel (k := [.pwr, .boot]) (fun x hx => by cases x <;> first | rfl | simp at hx) hl

@[simp] theorem changesOnly_set_pwr_sec_boot {l : List Comp} {a d : Dev} (x0) (x1) (x2) (hl : [.pwr, .sec, .boot] ⊆ l) :
    changesOnly l a { d with pwr := x0, sec := x1, boot := x2 } ↔ changesOnly l a d :=
  changesOnly.peel (k := [.pwr, .sec, .boot]) (fun x hx => by cases x <;> first | rfl | simp at hx) hl

@[simp] theorem changesOnly_set_st_hdr_ctr_snap_regs_parts_isles_flash_pwr_sec_boot {l : List Comp} {a d : Dev} (x0) (x1) (x2) (x3) (x4) (x5) (x6) (x7) (x8) (x9) (x10) (hl : [.st, .hdr, .ctr, .snap, .regs, .parts, .isles, .flash, .pwr, .sec, .boot] ⊆ l) :
    changesOnly l a { d with pg := { d.pg with st := x0, hdr := x1, ctr := x2, snap := x3, regs := x4 }, parts := x5, isles := x6, flash := x7, pwr := x8, sec := x9, boot := x10 } ↔ changesOnly l a d :=
  changesOnly.peel (k := [.st, .hdr, .ctr, .snap, .regs, .parts, .isles, .flash, .pwr, .sec, .boot]) (fun x hx => by cases x <;> first | rfl | simp at hx) hl

end Sys2Proof.Safety
end

