-- ==== Sys2Proof/Laws/OnlyMem.lean ====
section
/-!
SUPPORT. The components that each operation of Machine/Mem.lean can change.
-/

namespace Sys2Proof.Machine

set_option linter.unusedSimpArgs false

open Sys2Proof.Safety

@[simp] theorem Dev.breakWins_only {l : List Comp} {a : Dev} (x0 : Dev) (x1) (x2) (hl : [.cores] ⊆ l) :
    changesOnly l a (Dev.breakWins x0 x1 x2) ↔ changesOnly l a x0 :=
  changesOnly.peel (k := [.cores]) (by
    unfold Dev.breakWins
    repeat' first
      | (simp [changesOnly_foldl]; done)
      | (split <;> try first
          | (rename_i h; have h := (congrArg (fun q => q.2.2.2) h).symm; dsimp only at h; subst h)
          | (rename_i h; have h := (congrArg (fun q => q.2.2) h).symm; dsimp only at h; subst h)
          | (rename_i h; have h := (congrArg (fun q => q.2) h).symm; dsimp only at h; subst h)
          | (rename_i h _; have h := (congrArg (fun q => q.2) h).symm; dsimp only at h; subst h))
      | dsimp only
      | refine (changesOnly_foldl _ _ _ fun b x => ?_).2 ?_) hl

@[simp] theorem Dev.wrBad_only {l : List Comp} {a : Dev} (x0 : Dev) (x1) (x2) (x3) (hl : [.mem, .poison, .cores] ⊆ l) :
    changesOnly l a (Dev.wrBad x0 x1 x2 x3) ↔ changesOnly l a x0 :=
  changesOnly.peel (k := [.mem, .poison, .cores]) (by
    unfold Dev.wrBad
    repeat' first
      | (simp [changesOnly_foldl]; done)
      | (split <;> try first
          | (rename_i h; have h := (congrArg (fun q => q.2.2.2) h).symm; dsimp only at h; subst h)
          | (rename_i h; have h := (congrArg (fun q => q.2.2) h).symm; dsimp only at h; subst h)
          | (rename_i h; have h := (congrArg (fun q => q.2) h).symm; dsimp only at h; subst h)
          | (rename_i h _; have h := (congrArg (fun q => q.2) h).symm; dsimp only at h; subst h))
      | dsimp only
      | refine (changesOnly_foldl _ _ _ fun b x => ?_).2 ?_) hl

@[simp] theorem Dev.wr_only {l : List Comp} {a : Dev} (x0 : Dev) (x1) (x2) (hl : [.mem, .poison, .cores] ⊆ l) :
    changesOnly l a (Dev.wr x0 x1 x2) ↔ changesOnly l a x0 :=
  changesOnly.peel (k := [.mem, .poison, .cores]) (by
    unfold Dev.wr
    repeat' first
      | (simp [changesOnly_foldl]; done)
      | (split <;> try first
          | (rename_i h; have h := (congrArg (fun q => q.2.2.2) h).symm; dsimp only at h; subst h)
          | (rename_i h; have h := (congrArg (fun q => q.2.2) h).symm; dsimp only at h; subst h)
          | (rename_i h; have h := (congrArg (fun q => q.2) h).symm; dsimp only at h; subst h)
          | (rename_i h _; have h := (congrArg (fun q => q.2) h).symm; dsimp only at h; subst h))
      | dsimp only
      | refine (changesOnly_foldl _ _ _ fun b x => ?_).2 ?_) hl

@[simp] theorem Dev.mark_only {l : List Comp} {a : Dev} (x0 : Dev) (x1) (x2) (hl : [.poison] ⊆ l) :
    changesOnly l a (Dev.mark x0 x1 x2) ↔ changesOnly l a x0 :=
  changesOnly.peel (k := [.poison]) (by
    unfold Dev.mark
    repeat' first
      | (simp [changesOnly_foldl]; done)
      | (split <;> try first
          | (rename_i h; have h := (congrArg (fun q => q.2.2.2) h).symm; dsimp only at h; subst h)
          | (rename_i h; have h := (congrArg (fun q => q.2.2) h).symm; dsimp only at h; subst h)
          | (rename_i h; have h := (congrArg (fun q => q.2) h).symm; dsimp only at h; subst h)
          | (rename_i h _; have h := (congrArg (fun q => q.2) h).symm; dsimp only at h; subst h))
      | dsimp only
      | refine (changesOnly_foldl _ _ _ fun b x => ?_).2 ?_) hl

@[simp] theorem Dev.zero_only {l : List Comp} {a : Dev} (x0 : Dev) (x1) (x2) (hl : [.mem, .poison] ⊆ l) :
    changesOnly l a (Dev.zero x0 x1 x2) ↔ changesOnly l a x0 :=
  changesOnly.peel (k := [.mem, .poison]) (by
    unfold Dev.zero
    repeat' first
      | (simp [changesOnly_foldl]; done)
      | (split <;> try first
          | (rename_i h; have h := (congrArg (fun q => q.2.2.2) h).symm; dsimp only at h; subst h)
          | (rename_i h; have h := (congrArg (fun q => q.2.2) h).symm; dsimp only at h; subst h)
          | (rename_i h; have h := (congrArg (fun q => q.2) h).symm; dsimp only at h; subst h)
          | (rename_i h _; have h := (congrArg (fun q => q.2) h).symm; dsimp only at h; subst h))
      | dsimp only
      | refine (changesOnly_foldl _ _ _ fun b x => ?_).2 ?_) hl

@[simp] theorem Dev.wrAll_only {l : List Comp} {a : Dev} (x0 : Dev) (x1) (hl : [.mem, .poison, .cores] ⊆ l) :
    changesOnly l a (Dev.wrAll x0 x1) ↔ changesOnly l a x0 :=
  changesOnly.peel (k := [.mem, .poison, .cores]) (by
    unfold Dev.wrAll
    repeat' first
      | (simp [changesOnly_foldl]; done)
      | (split <;> try first
          | (rename_i h; have h := (congrArg (fun q => q.2.2.2) h).symm; dsimp only at h; subst h)
          | (rename_i h; have h := (congrArg (fun q => q.2.2) h).symm; dsimp only at h; subst h)
          | (rename_i h; have h := (congrArg (fun q => q.2) h).symm; dsimp only at h; subst h)
          | (rename_i h _; have h := (congrArg (fun q => q.2) h).symm; dsimp only at h; subst h))
      | dsimp only
      | refine (changesOnly_foldl _ _ _ fun b x => ?_).2 ?_) hl

@[simp] theorem Dev.markAll_only {l : List Comp} {a : Dev} (x0 : Dev) (x1) (hl : [.poison] ⊆ l) :
    changesOnly l a (Dev.markAll x0 x1) ↔ changesOnly l a x0 :=
  changesOnly.peel (k := [.poison]) (by
    unfold Dev.markAll
    repeat' first
      | (simp [changesOnly_foldl]; done)
      | (split <;> try first
          | (rename_i h; have h := (congrArg (fun q => q.2.2.2) h).symm; dsimp only at h; subst h)
          | (rename_i h; have h := (congrArg (fun q => q.2.2) h).symm; dsimp only at h; subst h)
          | (rename_i h; have h := (congrArg (fun q => q.2) h).symm; dsimp only at h; subst h)
          | (rename_i h _; have h := (congrArg (fun q => q.2) h).symm; dsimp only at h; subst h))
      | dsimp only
      | refine (changesOnly_foldl _ _ _ fun b x => ?_).2 ?_) hl

end Sys2Proof.Machine
end

