-- ==== Sys2Proof/Laws/OnlyOps.lean ====
section
/-!
SUPPORT. The components that each operation of Machine/Ops.lean can change.
-/

namespace Sys2Proof.Machine

set_option linter.unusedSimpArgs false

open Sys2Proof.Safety

@[simp] theorem Dev.setCore_only {l : List Comp} {a : Dev} (x0 : Dev) (x1) (x2) (hl : [.cores] ⊆ l) :
    changesOnly l a (Dev.setCore x0 x1 x2) ↔ changesOnly l a x0 :=
  changesOnly.peel (k := [.cores]) (by
    unfold Dev.setCore
    repeat' first
      | (simp [changesOnly_foldl]; done)
      | (split <;> try first
          | (rename_i h; have h := (congrArg (fun q => q.2.2.2) h).symm; dsimp only at h; subst h)
          | (rename_i h; have h := (congrArg (fun q => q.2.2) h).symm; dsimp only at h; subst h)
          | (rename_i h; have h := (congrArg (fun q => q.2) h).symm; dsimp only at h; subst h)
          | (rename_i h _; have h := (congrArg (fun q => q.2) h).symm; dsimp only at h; subst h))
      | dsimp only
      | refine (changesOnly_foldl _ _ _ fun b x => ?_).2 ?_) hl

@[simp] theorem Dev.updCore_only {l : List Comp} {a : Dev} (x0 : Dev) (x1) (x2) (hl : [.cores] ⊆ l) :
    changesOnly l a (Dev.updCore x0 x1 x2) ↔ changesOnly l a x0 :=
  changesOnly.peel (k := [.cores]) (by
    unfold Dev.updCore
    repeat' first
      | (simp [changesOnly_foldl]; done)
      | (split <;> try first
          | (rename_i h; have h := (congrArg (fun q => q.2.2.2) h).symm; dsimp only at h; subst h)
          | (rename_i h; have h := (congrArg (fun q => q.2.2) h).symm; dsimp only at h; subst h)
          | (rename_i h; have h := (congrArg (fun q => q.2) h).symm; dsimp only at h; subst h)
          | (rename_i h _; have h := (congrArg (fun q => q.2) h).symm; dsimp only at h; subst h))
      | dsimp only
      | refine (changesOnly_foldl _ _ _ fun b x => ?_).2 ?_) hl

@[simp] theorem Dev.updHdr_only {l : List Comp} {a : Dev} (x0 : Dev) (x1) (x2) (x3) (hl : [.hdr] ⊆ l) :
    changesOnly l a (Dev.updHdr x0 x1 x2 x3) ↔ changesOnly l a x0 :=
  changesOnly.peel (k := [.hdr]) (by
    unfold Dev.updHdr
    repeat' first
      | (simp [changesOnly_foldl]; done)
      | (split <;> try first
          | (rename_i h; have h := (congrArg (fun q => q.2.2.2) h).symm; dsimp only at h; subst h)
          | (rename_i h; have h := (congrArg (fun q => q.2.2) h).symm; dsimp only at h; subst h)
          | (rename_i h; have h := (congrArg (fun q => q.2) h).symm; dsimp only at h; subst h)
          | (rename_i h _; have h := (congrArg (fun q => q.2) h).symm; dsimp only at h; subst h))
      | dsimp only
      | refine (changesOnly_foldl _ _ _ fun b x => ?_).2 ?_) hl

@[simp] theorem Dev.evt_only {l : List Comp} {a : Dev} (x0 : Dev) (x1) (x2) (x3) (hl : [.hdr] ⊆ l) :
    changesOnly l a (Dev.evt x0 x1 x2 x3) ↔ changesOnly l a x0 :=
  changesOnly.peel (k := [.hdr]) (by
    unfold Dev.evt
    repeat' first
      | (simp [changesOnly_foldl]; done)
      | (split <;> try first
          | (rename_i h; have h := (congrArg (fun q => q.2.2.2) h).symm; dsimp only at h; subst h)
          | (rename_i h; have h := (congrArg (fun q => q.2.2) h).symm; dsimp only at h; subst h)
          | (rename_i h; have h := (congrArg (fun q => q.2) h).symm; dsimp only at h; subst h)
          | (rename_i h _; have h := (congrArg (fun q => q.2) h).symm; dsimp only at h; subst h))
      | dsimp only
      | refine (changesOnly_foldl _ _ _ fun b x => ?_).2 ?_) hl

@[simp] theorem Dev.evtP_only {l : List Comp} {a : Dev} (x0 : Dev) (x1) (x2) (x3) (hl : [.hdr] ⊆ l) :
    changesOnly l a (Dev.evtP x0 x1 x2 x3) ↔ changesOnly l a x0 :=
  changesOnly.peel (k := [.hdr]) (by
    unfold Dev.evtP
    repeat' first
      | (simp [changesOnly_foldl]; done)
      | (split <;> try first
          | (rename_i h; have h := (congrArg (fun q => q.2.2.2) h).symm; dsimp only at h; subst h)
          | (rename_i h; have h := (congrArg (fun q => q.2.2) h).symm; dsimp only at h; subst h)
          | (rename_i h; have h := (congrArg (fun q => q.2) h).symm; dsimp only at h; subst h)
          | (rename_i h _; have h := (congrArg (fun q => q.2) h).symm; dsimp only at h; subst h))
      | dsimp only
      | refine (changesOnly_foldl _ _ _ fun b x => ?_).2 ?_) hl

@[simp] theorem Dev.evtAll_only {l : List Comp} {a : Dev} (x0 : Dev) (x1) (x2) (hl : [.hdr] ⊆ l) :
    changesOnly l a (Dev.evtAll x0 x1 x2) ↔ changesOnly l a x0 :=
  changesOnly.peel (k := [.hdr]) (by
    unfold Dev.evtAll
    repeat' first
      | (simp [changesOnly_foldl]; done)
      | (split <;> try first
          | (rename_i h; have h := (congrArg (fun q => q.2.2.2) h).symm; dsimp only at h; subst h)
          | (rename_i h; have h := (congrArg (fun q => q.2.2) h).symm; dsimp only at h; subst h)
          | (rename_i h; have h := (congrArg (fun q => q.2) h).symm; dsimp only at h; subst h)
          | (rename_i h _; have h := (congrArg (fun q => q.2) h).symm; dsimp only at h; subst h))
      | dsimp only
      | refine (changesOnly_foldl _ _ _ fun b x => ?_).2 ?_) hl

@[simp] theorem Dev.err_only {l : List Comp} {a : Dev} (x0 : Dev) (x1) (x2) (x3) (hl : [.hdr] ⊆ l) :
    changesOnly l a (Dev.err x0 x1 x2 x3) ↔ changesOnly l a x0 :=
  changesOnly.peel (k := [.hdr]) (by
    unfold Dev.err
    repeat' first
      | (simp [changesOnly_foldl]; done)
      | (split <;> try first
          | (rename_i h; have h := (congrArg (fun q => q.2.2.2) h).symm; dsimp only at h; subst h)
          | (rename_i h; have h := (congrArg (fun q => q.2.2) h).symm; dsimp only at h; subst h)
          | (rename_i h; have h := (congrArg (fun q => q.2) h).symm; dsimp only at h; subst h)
          | (rename_i h _; have h := (congrArg (fun q => q.2) h).symm; dsimp only at h; subst h))
      | dsimp only
      | refine (changesOnly_foldl _ _ _ fun b x => ?_).2 ?_) hl

@[simp] theorem Dev.errP_only {l : List Comp} {a : Dev} (x0 : Dev) (x1) (x2) (x3) (hl : [.hdr] ⊆ l) :
    changesOnly l a (Dev.errP x0 x1 x2 x3) ↔ changesOnly l a x0 :=
  changesOnly.peel (k := [.hdr]) (by
    unfold Dev.errP
    repeat' first
      | (simp [changesOnly_foldl]; done)
      | (split <;> try first
          | (rename_i h; have h := (congrArg (fun q => q.2.2.2) h).symm; dsimp only at h; subst h)
          | (rename_i h; have h := (congrArg (fun q => q.2.2) h).symm; dsimp only at h; subst h)
          | (rename_i h; have h := (congrArg (fun q => q.2) h).symm; dsimp only at h; subst h)
          | (rename_i h _; have h := (congrArg (fun q => q.2) h).symm; dsimp only at h; subst h))
      | dsimp only
      | refine (changesOnly_foldl _ _ _ fun b x => ?_).2 ?_) hl

@[simp] theorem Dev.cnt_only {l : List Comp} {a : Dev} (x0 : Dev) (x1) (x2) (x3) (x4) (hl : [.ctr] ⊆ l) :
    changesOnly l a (Dev.cnt x0 x1 x2 x3 x4) ↔ changesOnly l a x0 :=
  changesOnly.peel (k := [.ctr]) (by
    unfold Dev.cnt
    repeat' first
      | (simp [changesOnly_foldl]; done)
      | (split <;> try first
          | (rename_i h; have h := (congrArg (fun q => q.2.2.2) h).symm; dsimp only at h; subst h)
          | (rename_i h; have h := (congrArg (fun q => q.2.2) h).symm; dsimp only at h; subst h)
          | (rename_i h; have h := (congrArg (fun q => q.2) h).symm; dsimp only at h; subst h)
          | (rename_i h _; have h := (congrArg (fun q => q.2) h).symm; dsimp only at h; subst h))
      | dsimp only
      | refine (changesOnly_foldl _ _ _ fun b x => ?_).2 ?_) hl

@[simp] theorem Dev.cntP_only {l : List Comp} {a : Dev} (x0 : Dev) (x1) (x2) (x3) (x4) (hl : [.ctr] ⊆ l) :
    changesOnly l a (Dev.cntP x0 x1 x2 x3 x4) ↔ changesOnly l a x0 :=
  changesOnly.peel (k := [.ctr]) (by
    unfold Dev.cntP
    repeat' first
      | (simp [changesOnly_foldl]; done)
      | (split <;> try first
          | (rename_i h; have h := (congrArg (fun q => q.2.2.2) h).symm; dsimp only at h; subst h)
          | (rename_i h; have h := (congrArg (fun q => q.2.2) h).symm; dsimp only at h; subst h)
          | (rename_i h; have h := (congrArg (fun q => q.2) h).symm; dsimp only at h; subst h)
          | (rename_i h _; have h := (congrArg (fun q => q.2) h).symm; dsimp only at h; subst h))
      | dsimp only
      | refine (changesOnly_foldl _ _ _ fun b x => ?_).2 ?_) hl

@[simp] theorem Dev.setRegAt_only {l : List Comp} {a : Dev} (x0 : Dev) (x1) (x2) (x3) (x4) (hl : [.regs] ⊆ l) :
    changesOnly l a (Dev.setRegAt x0 x1 x2 x3 x4) ↔ changesOnly l a x0 :=
  changesOnly.peel (k := [.regs]) (by
    unfold Dev.setRegAt
    repeat' first
      | (simp [changesOnly_foldl]; done)
      | (split <;> try first
          | (rename_i h; have h := (congrArg (fun q => q.2.2.2) h).symm; dsimp only at h; subst h)
          | (rename_i h; have h := (congrArg (fun q => q.2.2) h).symm; dsimp only at h; subst h)
          | (rename_i h; have h := (congrArg (fun q => q.2) h).symm; dsimp only at h; subst h)
          | (rename_i h _; have h := (congrArg (fun q => q.2) h).symm; dsimp only at h; subst h))
      | dsimp only
      | refine (changesOnly_foldl _ _ _ fun b x => ?_).2 ?_) hl

@[simp] theorem Dev.setReg_only {l : List Comp} {a : Dev} (x0 : Dev) (x1) (x2) (x3) (hl : [.regs] ⊆ l) :
    changesOnly l a (Dev.setReg x0 x1 x2 x3) ↔ changesOnly l a x0 :=
  changesOnly.peel (k := [.regs]) (by
    unfold Dev.setReg
    repeat' first
      | (simp [changesOnly_foldl]; done)
      | (split <;> try first
          | (rename_i h; have h := (congrArg (fun q => q.2.2.2) h).symm; dsimp only at h; subst h)
          | (rename_i h; have h := (congrArg (fun q => q.2.2) h).symm; dsimp only at h; subst h)
          | (rename_i h; have h := (congrArg (fun q => q.2) h).symm; dsimp only at h; subst h)
          | (rename_i h _; have h := (congrArg (fun q => q.2) h).symm; dsimp only at h; subst h))
      | dsimp only
      | refine (changesOnly_foldl _ _ _ fun b x => ?_).2 ?_) hl

@[simp] theorem Dev.setRegP_only {l : List Comp} {a : Dev} (x0 : Dev) (x1) (x2) (x3) (x4) (hl : [.regs] ⊆ l) :
    changesOnly l a (Dev.setRegP x0 x1 x2 x3 x4) ↔ changesOnly l a x0 :=
  changesOnly.peel (k := [.regs]) (by
    unfold Dev.setRegP
    repeat' first
      | (simp [changesOnly_foldl]; done)
      | (split <;> try first
          | (rename_i h; have h := (congrArg (fun q => q.2.2.2) h).symm; dsimp only at h; subst h)
          | (rename_i h; have h := (congrArg (fun q => q.2.2) h).symm; dsimp only at h; subst h)
          | (rename_i h; have h := (congrArg (fun q => q.2) h).symm; dsimp only at h; subst h)
          | (rename_i h _; have h := (congrArg (fun q => q.2) h).symm; dsimp only at h; subst h))
      | dsimp only
      | refine (changesOnly_foldl _ _ _ fun b x => ?_).2 ?_) hl

@[simp] theorem Dev.wrReg_only {l : List Comp} {a : Dev} (x0 : Dev) (x1) (x2) (x3) (x4) (hl : [.regs] ⊆ l) :
    changesOnly l a (Dev.wrReg x0 x1 x2 x3 x4) ↔ changesOnly l a x0 :=
  changesOnly.peel (k := [.regs]) (by
    unfold Dev.wrReg
    repeat' first
      | (simp [changesOnly_foldl]; done)
      | (split <;> try first
          | (rename_i h; have h := (congrArg (fun q => q.2.2.2) h).symm; dsimp only at h; subst h)
          | (rename_i h; have h := (congrArg (fun q => q.2.2) h).symm; dsimp only at h; subst h)
          | (rename_i h; have h := (congrArg (fun q => q.2) h).symm; dsimp only at h; subst h)
          | (rename_i h _; have h := (congrArg (fun q => q.2) h).symm; dsimp only at h; subst h))
      | dsimp only
      | refine (changesOnly_foldl _ _ _ fun b x => ?_).2 ?_) hl

@[simp] theorem Dev.clearRegs_only {l : List Comp} {a : Dev} (x0 : Dev) (x1) (hl : [.regs] ⊆ l) :
    changesOnly l a (Dev.clearRegs x0 x1) ↔ changesOnly l a x0 :=
  changesOnly.peel (k := [.regs]) (by
    unfold Dev.clearRegs
    repeat' first
      | (simp [changesOnly_foldl]; done)
      | (split <;> try first
          | (rename_i h; have h := (congrArg (fun q => q.2.2.2) h).symm; dsimp only at h; subst h)
          | (rename_i h; have h := (congrArg (fun q => q.2.2) h).symm; dsimp only at h; subst h)
          | (rename_i h; have h := (congrArg (fun q => q.2) h).symm; dsimp only at h; subst h)
          | (rename_i h _; have h := (congrArg (fun q => q.2) h).symm; dsimp only at h; subst h))
      | dsimp only
      | refine (changesOnly_foldl _ _ _ fun b x => ?_).2 ?_) hl

@[simp] theorem Dev.setPst_only {l : List Comp} {a : Dev} (x0 : Dev) (x1) (x2) (hl : [.st] ⊆ l) :
    changesOnly l a (Dev.setPst x0 x1 x2) ↔ changesOnly l a x0 :=
  changesOnly.peel (k := [.st]) (by
    unfold Dev.setPst
    repeat' first
      | (simp [changesOnly_foldl]; done)
      | (split <;> try first
          | (rename_i h; have h := (congrArg (fun q => q.2.2.2) h).symm; dsimp only at h; subst h)
          | (rename_i h; have h := (congrArg (fun q => q.2.2) h).symm; dsimp only at h; subst h)
          | (rename_i h; have h := (congrArg (fun q => q.2) h).symm; dsimp only at h; subst h)
          | (rename_i h _; have h := (congrArg (fun q => q.2) h).symm; dsimp only at h; subst h))
      | dsimp only
      | refine (changesOnly_foldl _ _ _ fun b x => ?_).2 ?_) hl

@[simp] theorem Dev.toState_only {l : List Comp} {a : Dev} (x0 : Dev) (x1) (x2) (hl : [.st, .hdr] ⊆ l) :
    changesOnly l a (Dev.toState x0 x1 x2) ↔ changesOnly l a x0 :=
  changesOnly.peel (k := [.st, .hdr]) (by
    unfold Dev.toState
    repeat' first
      | (simp [changesOnly_foldl]; done)
      | (split <;> try first
          | (rename_i h; have h := (congrArg (fun q => q.2.2.2) h).symm; dsimp only at h; subst h)
          | (rename_i h; have h := (congrArg (fun q => q.2.2) h).symm; dsimp only at h; subst h)
          | (rename_i h; have h := (congrArg (fun q => q.2) h).symm; dsimp only at h; subst h)
          | (rename_i h _; have h := (congrArg (fun q => q.2) h).symm; dsimp only at h; subst h))
      | dsimp only
      | refine (changesOnly_foldl _ _ _ fun b x => ?_).2 ?_) hl

@[simp] theorem Dev.setIsle_only {l : List Comp} {a : Dev} (x0 : Dev) (x1) (x2) (hl : [.isles] ⊆ l) :
    changesOnly l a (Dev.setIsle x0 x1 x2) ↔ changesOnly l a x0 :=
  changesOnly.peel (k := [.isles]) (by
    unfold Dev.setIsle
    repeat' first
      | (simp [changesOnly_foldl]; done)
      | (split <;> try first
          | (rename_i h; have h := (congrArg (fun q => q.2.2.2) h).symm; dsimp only at h; subst h)
          | (rename_i h; have h := (congrArg (fun q => q.2.2) h).symm; dsimp only at h; subst h)
          | (rename_i h; have h := (congrArg (fun q => q.2) h).symm; dsimp only at h; subst h)
          | (rename_i h _; have h := (congrArg (fun q => q.2) h).symm; dsimp only at h; subst h))
      | dsimp only
      | refine (changesOnly_foldl _ _ _ fun b x => ?_).2 ?_) hl

@[simp] theorem Dev.updIsle_only {l : List Comp} {a : Dev} (x0 : Dev) (x1) (x2) (hl : [.isles] ⊆ l) :
    changesOnly l a (Dev.updIsle x0 x1 x2) ↔ changesOnly l a x0 :=
  changesOnly.peel (k := [.isles]) (by
    unfold Dev.updIsle
    repeat' first
      | (simp [changesOnly_foldl]; done)
      | (split <;> try first
          | (rename_i h; have h := (congrArg (fun q => q.2.2.2) h).symm; dsimp only at h; subst h)
          | (rename_i h; have h := (congrArg (fun q => q.2.2) h).symm; dsimp only at h; subst h)
          | (rename_i h; have h := (congrArg (fun q => q.2) h).symm; dsimp only at h; subst h)
          | (rename_i h _; have h := (congrArg (fun q => q.2) h).symm; dsimp only at h; subst h))
      | dsimp only
      | refine (changesOnly_foldl _ _ _ fun b x => ?_).2 ?_) hl

@[simp] theorem Dev.reach_only {l : List Comp} {a : Dev} (x0 : Dev) (x1) (x2) (hl : [.isles] ⊆ l) :
    changesOnly l a (Dev.reach x0 x1 x2) ↔ changesOnly l a x0 :=
  changesOnly.peel (k := [.isles]) (by
    unfold Dev.reach
    repeat' first
      | (simp [changesOnly_foldl]; done)
      | (split <;> try first
          | (rename_i h; have h := (congrArg (fun q => q.2.2.2) h).symm; dsimp only at h; subst h)
          | (rename_i h; have h := (congrArg (fun q => q.2.2) h).symm; dsimp only at h; subst h)
          | (rename_i h; have h := (congrArg (fun q => q.2) h).symm; dsimp only at h; subst h)
          | (rename_i h _; have h := (congrArg (fun q => q.2) h).symm; dsimp only at h; subst h))
      | dsimp only
      | refine (changesOnly_foldl _ _ _ fun b x => ?_).2 ?_) hl

@[simp] theorem Dev.wake_only {l : List Comp} {a : Dev} (x0 : Dev) (x1) (hl : [.ctr, .isles] ⊆ l) :
    changesOnly l a (Dev.wake x0 x1) ↔ changesOnly l a x0 :=
  changesOnly.peel (k := [.ctr, .isles]) (by
    unfold Dev.wake
    repeat' first
      | (simp [changesOnly_foldl]; done)
      | (split <;> try first
          | (rename_i h; have h := (congrArg (fun q => q.2.2.2) h).symm; dsimp only at h; subst h)
          | (rename_i h; have h := (congrArg (fun q => q.2.2) h).symm; dsimp only at h; subst h)
          | (rename_i h; have h := (congrArg (fun q => q.2) h).symm; dsimp only at h; subst h)
          | (rename_i h _; have h := (congrArg (fun q => q.2) h).symm; dsimp only at h; subst h))
      | dsimp only
      | refine (changesOnly_foldl _ _ _ fun b x => ?_).2 ?_) hl

@[simp] theorem Dev.wakeKeys_only {l : List Comp} {a : Dev} (x0 : Dev) (x1) (hl : [.ctr, .isles] ⊆ l) :
    changesOnly l a (Dev.wakeKeys x0 x1).2 ↔ changesOnly l a x0 :=
  changesOnly.peel (k := [.ctr, .isles]) (by
    unfold Dev.wakeKeys
    repeat' first
      | (simp [changesOnly_foldl]; done)
      | (split <;> try first
          | (rename_i h; have h := (congrArg (fun q => q.2.2.2) h).symm; dsimp only at h; subst h)
          | (rename_i h; have h := (congrArg (fun q => q.2.2) h).symm; dsimp only at h; subst h)
          | (rename_i h; have h := (congrArg (fun q => q.2) h).symm; dsimp only at h; subst h)
          | (rename_i h _; have h := (congrArg (fun q => q.2) h).symm; dsimp only at h; subst h))
      | dsimp only
      | refine (changesOnly_foldl _ _ _ fun b x => ?_).2 ?_) hl

@[simp] theorem Dev.coldDrop_only {l : List Comp} {a : Dev} (x0 : Dev) (x1) (hl : [.hdr, .ctr] ⊆ l) :
    changesOnly l a (Dev.coldDrop x0 x1) ↔ changesOnly l a x0 :=
  changesOnly.peel (k := [.hdr, .ctr]) (by
    unfold Dev.coldDrop
    repeat' first
      | (simp [changesOnly_foldl]; done)
      | (split <;> try first
          | (rename_i h; have h := (congrArg (fun q => q.2.2.2) h).symm; dsimp only at h; subst h)
          | (rename_i h; have h := (congrArg (fun q => q.2.2) h).symm; dsimp only at h; subst h)
          | (rename_i h; have h := (congrArg (fun q => q.2) h).symm; dsimp only at h; subst h)
          | (rename_i h _; have h := (congrArg (fun q => q.2) h).symm; dsimp only at h; subst h))
      | dsimp only
      | refine (changesOnly_foldl _ _ _ fun b x => ?_).2 ?_) hl

@[simp] theorem Dev.freeNat_only {l : List Comp} {a : Dev} (x0 : Dev) (x1) (hl : [.free] ⊆ l) :
    changesOnly l a (Dev.freeNat x0 x1).2 ↔ changesOnly l a x0 :=
  changesOnly.peel (k := [.free]) (by
    unfold Dev.freeNat
    repeat' first
      | (simp [changesOnly_foldl]; done)
      | (split <;> try first
          | (rename_i h; have h := (congrArg (fun q => q.2.2.2) h).symm; dsimp only at h; subst h)
          | (rename_i h; have h := (congrArg (fun q => q.2.2) h).symm; dsimp only at h; subst h)
          | (rename_i h; have h := (congrArg (fun q => q.2) h).symm; dsimp only at h; subst h)
          | (rename_i h _; have h := (congrArg (fun q => q.2) h).symm; dsimp only at h; subst h))
      | dsimp only
      | refine (changesOnly_foldl _ _ _ fun b x => ?_).2 ?_) hl

@[simp] theorem Dev.freeBool_only {l : List Comp} {a : Dev} (x0 : Dev) (x1) (hl : [.free] ⊆ l) :
    changesOnly l a (Dev.freeBool x0 x1).2 ↔ changesOnly l a x0 :=
  changesOnly.peel (k := [.free]) (by
    unfold Dev.freeBool
    repeat' first
      | (simp [changesOnly_foldl]; done)
      | (split <;> try first
          | (rename_i h; have h := (congrArg (fun q => q.2.2.2) h).symm; dsimp only at h; subst h)
          | (rename_i h; have h := (congrArg (fun q => q.2.2) h).symm; dsimp only at h; subst h)
          | (rename_i h; have h := (congrArg (fun q => q.2) h).symm; dsimp only at h; subst h)
          | (rename_i h _; have h := (congrArg (fun q => q.2) h).symm; dsimp only at h; subst h))
      | dsimp only
      | refine (changesOnly_foldl _ _ _ fun b x => ?_).2 ?_) hl

@[simp] theorem Dev.freeBits_only {l : List Comp} {a : Dev} (x0 : Dev) (x1) (x2) (hl : [.free] ⊆ l) :
    changesOnly l a (Dev.freeBits x0 x1 x2).2 ↔ changesOnly l a x0 :=
  changesOnly.peel (k := [.free]) (by
    unfold Dev.freeBits
    repeat' first
      | (simp [changesOnly_foldl]; done)
      | (split <;> try first
          | (rename_i h; have h := (congrArg (fun q => q.2.2.2) h).symm; dsimp only at h; subst h)
          | (rename_i h; have h := (congrArg (fun q => q.2.2) h).symm; dsimp only at h; subst h)
          | (rename_i h; have h := (congrArg (fun q => q.2) h).symm; dsimp only at h; subst h)
          | (rename_i h _; have h := (congrArg (fun q => q.2) h).symm; dsimp only at h; subst h))
      | dsimp only
      | refine (changesOnly_foldl _ _ _ fun b x => ?_).2 ?_) hl

@[simp] theorem Dev.put_only {l : List Comp} {a : Dev} (x0 : Dev) (x1) (hl : [.out] ⊆ l) :
    changesOnly l a (Dev.put x0 x1) ↔ changesOnly l a x0 :=
  changesOnly.peel (k := [.out]) (by
    unfold Dev.put
    repeat' first
      | (simp [changesOnly_foldl]; done)
      | (split <;> try first
          | (rename_i h; have h := (congrArg (fun q => q.2.2.2) h).symm; dsimp only at h; subst h)
          | (rename_i h; have h := (congrArg (fun q => q.2.2) h).symm; dsimp only at h; subst h)
          | (rename_i h; have h := (congrArg (fun q => q.2) h).symm; dsimp only at h; subst h)
          | (rename_i h _; have h := (congrArg (fun q => q.2) h).symm; dsimp only at h; subst h))
      | dsimp only
      | refine (changesOnly_foldl _ _ _ fun b x => ?_).2 ?_) hl

@[simp] theorem Dev.signal_only {l : List Comp} {a : Dev} (x0 : Dev) (x1) (x2) (x3) (hl : [.sigs] ⊆ l) :
    changesOnly l a (Dev.signal x0 x1 x2 x3) ↔ changesOnly l a x0 :=
  changesOnly.peel (k := [.sigs]) (by
    unfold Dev.signal
    repeat' first
      | (simp [changesOnly_foldl]; done)
      | (split <;> try first
          | (rename_i h; have h := (congrArg (fun q => q.2.2.2) h).symm; dsimp only at h; subst h)
          | (rename_i h; have h := (congrArg (fun q => q.2.2) h).symm; dsimp only at h; subst h)
          | (rename_i h; have h := (congrArg (fun q => q.2) h).symm; dsimp only at h; subst h)
          | (rename_i h _; have h := (congrArg (fun q => q.2) h).symm; dsimp only at h; subst h))
      | dsimp only
      | refine (changesOnly_foldl _ _ _ fun b x => ?_).2 ?_) hl

@[simp] theorem Dev.queueRec_only {l : List Comp} {a : Dev} (x0 : Dev) (x1) (hl : [.hdr, .ctr, .errm] ⊆ l) :
    changesOnly l a (Dev.queueRec x0 x1) ↔ changesOnly l a x0 :=
  changesOnly.peel (k := [.hdr, .ctr, .errm]) (by
    unfold Dev.queueRec
    repeat' first
      | (simp [changesOnly_foldl]; done)
      | (split <;> try first
          | (rename_i h; have h := (congrArg (fun q => q.2.2.2) h).symm; dsimp only at h; subst h)
          | (rename_i h; have h := (congrArg (fun q => q.2.2) h).symm; dsimp only at h; subst h)
          | (rename_i h; have h := (congrArg (fun q => q.2) h).symm; dsimp only at h; subst h)
          | (rename_i h _; have h := (congrArg (fun q => q.2) h).symm; dsimp only at h; subst h))
      | dsimp only
      | refine (changesOnly_foldl _ _ _ fun b x => ?_).2 ?_) hl

@[simp] theorem Dev.record_only {l : List Comp} {a : Dev} (x0 : Dev) (x1) (x2) (x3) (x4) (x5) (x6) (x7) (x8) (x9) (hl : [.hdr, .ctr, .errm] ⊆ l) :
    changesOnly l a (Dev.record x0 x1 x2 x3 x4 x5 x6 x7 x8 x9) ↔ changesOnly l a x0 :=
  changesOnly.peel (k := [.hdr, .ctr, .errm]) (by
    unfold Dev.record
    repeat' first
      | (simp [changesOnly_foldl]; done)
      | (split <;> try first
          | (rename_i h; have h := (congrArg (fun q => q.2.2.2) h).symm; dsimp only at h; subst h)
          | (rename_i h; have h := (congrArg (fun q => q.2.2) h).symm; dsimp only at h; subst h)
          | (rename_i h; have h := (congrArg (fun q => q.2) h).symm; dsimp only at h; subst h)
          | (rename_i h _; have h := (congrArg (fun q => q.2) h).symm; dsimp only at h; subst h))
      | dsimp only
      | refine (changesOnly_foldl _ _ _ fun b x => ?_).2 ?_) hl

@[simp] theorem Dev.poisonRead_only {l : List Comp} {a : Dev} (x0 : Dev) (x1) (x2) (x3) (x4) (hl : [.hdr, .ctr, .errm] ⊆ l) :
    changesOnly l a (Dev.poisonRead x0 x1 x2 x3 x4) ↔ changesOnly l a x0 :=
  changesOnly.peel (k := [.hdr, .ctr, .errm]) (by
    unfold Dev.poisonRead
    repeat' first
      | (simp [changesOnly_foldl]; done)
      | (split <;> try first
          | (rename_i h; have h := (congrArg (fun q => q.2.2.2) h).symm; dsimp only at h; subst h)
          | (rename_i h; have h := (congrArg (fun q => q.2.2) h).symm; dsimp only at h; subst h)
          | (rename_i h; have h := (congrArg (fun q => q.2) h).symm; dsimp only at h; subst h)
          | (rename_i h _; have h := (congrArg (fun q => q.2) h).symm; dsimp only at h; subst h))
      | dsimp only
      | refine (changesOnly_foldl _ _ _ fun b x => ?_).2 ?_) hl

@[simp] theorem Dev.violate_only {l : List Comp} {a : Dev} (x0 : Dev) (x1) (x2) (hl : [.hdr, .parts] ⊆ l) :
    changesOnly l a (Dev.violate x0 x1 x2) ↔ changesOnly l a x0 :=
  changesOnly.peel (k := [.hdr, .parts]) (by
    unfold Dev.violate
    repeat' first
      | (simp [changesOnly_foldl]; done)
      | (split <;> try first
          | (rename_i h; have h := (congrArg (fun q => q.2.2.2) h).symm; dsimp only at h; subst h)
          | (rename_i h; have h := (congrArg (fun q => q.2.2) h).symm; dsimp only at h; subst h)
          | (rename_i h; have h := (congrArg (fun q => q.2) h).symm; dsimp only at h; subst h)
          | (rename_i h _; have h := (congrArg (fun q => q.2) h).symm; dsimp only at h; subst h))
      | dsimp only
      | refine (changesOnly_foldl _ _ _ fun b x => ?_).2 ?_) hl

@[simp] theorem Dev.violR_only {l : List Comp} {a : Dev} (x0 : Dev) (x1) (x2) (x3) (hl : [.hdr, .parts] ⊆ l) :
    changesOnly l a (Dev.violR x0 x1 x2 x3) ↔ changesOnly l a x0 :=
  changesOnly.peel (k := [.hdr, .parts]) (by
    unfold Dev.violR
    repeat' first
      | (simp [changesOnly_foldl]; done)
      | (split <;> try first
          | (rename_i h; have h := (congrArg (fun q => q.2.2.2) h).symm; dsimp only at h; subst h)
          | (rename_i h; have h := (congrArg (fun q => q.2.2) h).symm; dsimp only at h; subst h)
          | (rename_i h; have h := (congrArg (fun q => q.2) h).symm; dsimp only at h; subst h)
          | (rename_i h _; have h := (congrArg (fun q => q.2) h).symm; dsimp only at h; subst h))
      | dsimp only
      | refine (changesOnly_foldl _ _ _ fun b x => ?_).2 ?_) hl

@[simp] theorem Dev.through_only {l : List Comp} {a : Dev} (d : Dev) (v) (p) (off) (f) (hf : ∀ b, changesOnly l b (f b))
    (hl : [.hdr, .parts] ⊆ l) : changesOnly l a (d.through v p off f) ↔ changesOnly l a d :=
  changesOnly.peel (k := l) (by
    have hhdr : Comp.hdr ∈ l := hl (by simp)
    have hparts : Comp.parts ∈ l := hl (by simp)
    have hg : ∀ a b, changesOnly l a (f b) ↔ changesOnly l a b := fun a b => (hf b).peel fun _ h => h
    unfold Dev.through
    repeat' first
      | (simp [hg, hhdr, hparts]; done)
      | (split <;> try first
          | (rename_i h; have h := (congrArg (fun q => q.2) h).symm; dsimp only at h; subst h))
      | dsimp only) (fun _ h => h)


@[simp] theorem Dev.privOnly_only {l : List Comp} {a : Dev} (d : Dev) (v) (p) (off) (f) (hf : ∀ b, changesOnly l b (f b))
    (hl : [.hdr, .parts] ⊆ l) : changesOnly l a (d.privOnly v p off f) ↔ changesOnly l a d :=
  changesOnly.peel (k := l) (by
    have hhdr : Comp.hdr ∈ l := hl (by simp)
    have hparts : Comp.parts ∈ l := hl (by simp)
    have hg : ∀ a b, changesOnly l a (f b) ↔ changesOnly l a b := fun a b => (hf b).peel fun _ h => h
    unfold Dev.privOnly
    repeat' first
      | (simp [hg, hhdr, hparts]; done)
      | (split <;> try first
          | (rename_i h; have h := (congrArg (fun q => q.2) h).symm; dsimp only at h; subst h))
      | dsimp only) (fun _ h => h)


@[simp] theorem Dev.msix_only {l : List Comp} {a : Dev} (x0 : Dev) (x1) (x2) (hl : [.ctr, .irq, .out] ⊆ l) :
    changesOnly l a (Dev.msix x0 x1 x2) ↔ changesOnly l a x0 :=
  changesOnly.peel (k := [.ctr, .irq, .out]) (by
    unfold Dev.msix
    repeat' first
      | (simp [changesOnly_foldl]; done)
      | (split <;> try first
          | (rename_i h; have h := (congrArg (fun q => q.2.2.2) h).symm; dsimp only at h; subst h)
          | (rename_i h; have h := (congrArg (fun q => q.2.2) h).symm; dsimp only at h; subst h)
          | (rename_i h; have h := (congrArg (fun q => q.2) h).symm; dsimp only at h; subst h)
          | (rename_i h _; have h := (congrArg (fun q => q.2) h).symm; dsimp only at h; subst h))
      | dsimp only
      | refine (changesOnly_foldl _ _ _ fun b x => ?_).2 ?_) hl

@[simp] theorem Dev.summarise_only {l : List Comp} {a : Dev} (x0 : Dev) (x1) (x2) (hl : [.ctr, .irq, .out] ⊆ l) :
    changesOnly l a (Dev.summarise x0 x1 x2) ↔ changesOnly l a x0 :=
  changesOnly.peel (k := [.ctr, .irq, .out]) (by
    unfold Dev.summarise
    repeat' first
      | (simp [changesOnly_foldl]; done)
      | (split <;> try first
          | (rename_i h; have h := (congrArg (fun q => q.2.2.2) h).symm; dsimp only at h; subst h)
          | (rename_i h; have h := (congrArg (fun q => q.2.2) h).symm; dsimp only at h; subst h)
          | (rename_i h; have h := (congrArg (fun q => q.2) h).symm; dsimp only at h; subst h)
          | (rename_i h _; have h := (congrArg (fun q => q.2) h).symm; dsimp only at h; subst h))
      | dsimp only
      | refine (changesOnly_foldl _ _ _ fun b x => ?_).2 ?_) hl

@[simp] theorem Dev.raise_only {l : List Comp} {a : Dev} (x0 : Dev) (x1) (hl : [.ctr, .irq, .out] ⊆ l) :
    changesOnly l a (Dev.raise x0 x1) ↔ changesOnly l a x0 :=
  changesOnly.peel (k := [.ctr, .irq, .out]) (by
    unfold Dev.raise
    repeat' first
      | (simp [changesOnly_foldl]; done)
      | (split <;> try first
          | (rename_i h; have h := (congrArg (fun q => q.2.2.2) h).symm; dsimp only at h; subst h)
          | (rename_i h; have h := (congrArg (fun q => q.2.2) h).symm; dsimp only at h; subst h)
          | (rename_i h; have h := (congrArg (fun q => q.2) h).symm; dsimp only at h; subst h)
          | (rename_i h _; have h := (congrArg (fun q => q.2) h).symm; dsimp only at h; subst h))
      | dsimp only
      | refine (changesOnly_foldl _ _ _ fun b x => ?_).2 ?_) hl

@[simp] theorem Dev.finish_only {l : List Comp} {a : Dev} (x0 : Dev) (hl : [.ctr, .irq, .out] ⊆ l) :
    changesOnly l a (Dev.finish x0) ↔ changesOnly l a x0 :=
  changesOnly.peel (k := [.ctr, .irq, .out]) (by
    unfold Dev.finish
    repeat' first
      | (simp [changesOnly_foldl]; done)
      | (split <;> try first
          | (rename_i h; have h := (congrArg (fun q => q.2.2.2) h).symm; dsimp only at h; subst h)
          | (rename_i h; have h := (congrArg (fun q => q.2.2) h).symm; dsimp only at h; subst h)
          | (rename_i h; have h := (congrArg (fun q => q.2) h).symm; dsimp only at h; subst h)
          | (rename_i h _; have h := (congrArg (fun q => q.2) h).symm; dsimp only at h; subst h))
      | dsimp only
      | refine (changesOnly_foldl _ _ _ fun b x => ?_).2 ?_) hl

end Sys2Proof.Machine
end

