-- ==== Sys2Proof/Laws/OnlyTierOps.lean ====
section
/-!
SUPPORT. The components that each operation of Machine/TierOps.lean can change.
-/

namespace Sys2Proof.Machine

set_option linter.unusedSimpArgs false

open Sys2Proof.Safety

@[simp] theorem Dev.t1Zero_only {l : List Comp} {a : Dev} (x0 : Dev) (x1) (x2) (x3) (hl : [.mem, .poison] ⊆ l) :
    changesOnly l a (Dev.t1Zero x0 x1 x2 x3) ↔ changesOnly l a x0 :=
  changesOnly.peel (k := [.mem, .poison]) (by
    unfold Dev.t1Zero
    repeat' first
      | (simp [changesOnly_foldl]; done)
      | (split <;> try first
          | (rename_i h; have h := (congrArg (fun q => q.2.2.2) h).symm; dsimp only at h; subst h)
          | (rename_i h; have h := (congrArg (fun q => q.2.2) h).symm; dsimp only at h; subst h)
          | (rename_i h; have h := (congrArg (fun q => q.2) h).symm; dsimp only at h; subst h)
          | (rename_i h _; have h := (congrArg (fun q => q.2) h).symm; dsimp only at h; subst h))
      | dsimp only
      | refine (changesOnly_foldl _ _ _ fun b x => ?_).2 ?_) hl

@[simp] theorem Dev.updTier_only {l : List Comp} {a : Dev} (x0 : Dev) (x1) (hl : [.tier] ⊆ l) :
    changesOnly l a (Dev.updTier x0 x1) ↔ changesOnly l a x0 :=
  changesOnly.peel (k := [.tier]) (by
    unfold Dev.updTier
    repeat' first
      | (simp [changesOnly_foldl]; done)
      | (split <;> try first
          | (rename_i h; have h := (congrArg (fun q => q.2.2.2) h).symm; dsimp only at h; subst h)
          | (rename_i h; have h := (congrArg (fun q => q.2.2) h).symm; dsimp only at h; subst h)
          | (rename_i h; have h := (congrArg (fun q => q.2) h).symm; dsimp only at h; subst h)
          | (rename_i h _; have h := (congrArg (fun q => q.2) h).symm; dsimp only at h; subst h))
      | dsimp only
      | refine (changesOnly_foldl _ _ _ fun b x => ?_).2 ?_) hl

@[simp] theorem Dev.setPage_only {l : List Comp} {a : Dev} (x0 : Dev) (x1) (x2) (hl : [.tier] ⊆ l) :
    changesOnly l a (Dev.setPage x0 x1 x2) ↔ changesOnly l a x0 :=
  changesOnly.peel (k := [.tier]) (by
    unfold Dev.setPage
    repeat' first
      | (simp [changesOnly_foldl]; done)
      | (split <;> try first
          | (rename_i h; have h := (congrArg (fun q => q.2.2.2) h).symm; dsimp only at h; subst h)
          | (rename_i h; have h := (congrArg (fun q => q.2.2) h).symm; dsimp only at h; subst h)
          | (rename_i h; have h := (congrArg (fun q => q.2) h).symm; dsimp only at h; subst h)
          | (rename_i h _; have h := (congrArg (fun q => q.2) h).symm; dsimp only at h; subst h))
      | dsimp only
      | refine (changesOnly_foldl _ _ _ fun b x => ?_).2 ?_) hl

@[simp] theorem Dev.setFrame_only {l : List Comp} {a : Dev} (x0 : Dev) (x1) (x2) (hl : [.tier] ⊆ l) :
    changesOnly l a (Dev.setFrame x0 x1 x2) ↔ changesOnly l a x0 :=
  changesOnly.peel (k := [.tier]) (by
    unfold Dev.setFrame
    repeat' first
      | (simp [changesOnly_foldl]; done)
      | (split <;> try first
          | (rename_i h; have h := (congrArg (fun q => q.2.2.2) h).symm; dsimp only at h; subst h)
          | (rename_i h; have h := (congrArg (fun q => q.2.2) h).symm; dsimp only at h; subst h)
          | (rename_i h; have h := (congrArg (fun q => q.2) h).symm; dsimp only at h; subst h)
          | (rename_i h _; have h := (congrArg (fun q => q.2) h).symm; dsimp only at h; subst h))
      | dsimp only
      | refine (changesOnly_foldl _ _ _ fun b x => ?_).2 ?_) hl

@[simp] theorem Dev.dropFrame_only {l : List Comp} {a : Dev} (x0 : Dev) (x1) (hl : [.tier] ⊆ l) :
    changesOnly l a (Dev.dropFrame x0 x1) ↔ changesOnly l a x0 :=
  changesOnly.peel (k := [.tier]) (by
    unfold Dev.dropFrame
    repeat' first
      | (simp [changesOnly_foldl]; done)
      | (split <;> try first
          | (rename_i h; have h := (congrArg (fun q => q.2.2.2) h).symm; dsimp only at h; subst h)
          | (rename_i h; have h := (congrArg (fun q => q.2.2) h).symm; dsimp only at h; subst h)
          | (rename_i h; have h := (congrArg (fun q => q.2) h).symm; dsimp only at h; subst h)
          | (rename_i h _; have h := (congrArg (fun q => q.2) h).symm; dsimp only at h; subst h))
      | dsimp only
      | refine (changesOnly_foldl _ _ _ fun b x => ?_).2 ?_) hl

theorem Dev.t1Compact_only {l : List Comp} {a d d' : Dev} {n : Nat} (h : d.t1Compact n = some d') (hl : [.mem, .poison, .tier] ⊆ l) :
    changesOnly l a d' ↔ changesOnly l a d := by
  unfold Dev.t1Compact at h
  dsimp only at h
  split at h
  · cases h
  · cases h; simp [hl]


theorem Dev.t1Alloc_only {l : List Comp} {a d d' : Dev} {n size c : Nat} (h : d.t1Alloc n size = some (c, d'))
    (hl : [.mem, .poison, .tier] ⊆ l) : changesOnly l a d' ↔ changesOnly l a d := by
  unfold Dev.t1Alloc at h
  dsimp only at h
  split at h
  · cases h; rfl
  · cases hc : d.t1Compact n with
    | none => rw [hc] at h; cases h
    | some d1 =>
      rw [hc] at h
      simp only [Option.bind_some, Option.map_eq_some_iff] at h
      obtain ⟨c', _, h⟩ := h
      cases h
      exact Dev.t1Compact_only hc hl


@[simp] theorem Dev.tierFault_only {l : List Comp} {a : Dev} (x0 : Dev) (x1) (x2) (x3) (x4) (hl : [.hdr, .ctr, .tier] ⊆ l) :
    changesOnly l a (Dev.tierFault x0 x1 x2 x3 x4) ↔ changesOnly l a x0 :=
  changesOnly.peel (k := [.hdr, .ctr, .tier]) (by
    unfold Dev.tierFault
    repeat' first
      | (simp [changesOnly_foldl]; done)
      | (split <;> try first
          | (rename_i h; have h := (congrArg (fun q => q.2.2.2) h).symm; dsimp only at h; subst h)
          | (rename_i h; have h := (congrArg (fun q => q.2.2) h).symm; dsimp only at h; subst h)
          | (rename_i h; have h := (congrArg (fun q => q.2) h).symm; dsimp only at h; subst h)
          | (rename_i h _; have h := (congrArg (fun q => q.2) h).symm; dsimp only at h; subst h))
      | dsimp only
      | refine (changesOnly_foldl _ _ _ fun b x => ?_).2 ?_) hl

@[simp] theorem Dev.writeBack_only {l : List Comp} {a : Dev} (x0 : Dev) (x1) (hl : [.tier] ⊆ l) :
    changesOnly l a (Dev.writeBack x0 x1) ↔ changesOnly l a x0 :=
  changesOnly.peel (k := [.tier]) (by
    unfold Dev.writeBack
    repeat' first
      | (simp [changesOnly_foldl]; done)
      | (split <;> try first
          | (rename_i h; have h := (congrArg (fun q => q.2.2.2) h).symm; dsimp only at h; subst h)
          | (rename_i h; have h := (congrArg (fun q => q.2.2) h).symm; dsimp only at h; subst h)
          | (rename_i h; have h := (congrArg (fun q => q.2) h).symm; dsimp only at h; subst h)
          | (rename_i h _; have h := (congrArg (fun q => q.2) h).symm; dsimp only at h; subst h))
      | dsimp only
      | refine (changesOnly_foldl _ _ _ fun b x => ?_).2 ?_) hl

@[simp] theorem Dev.makeRoom_only {l : List Comp} {a : Dev} (x0) (x1) (x2) (x3 : Dev) (hl : [.ctr, .tier] ⊆ l) :
    changesOnly l a (Dev.makeRoom x0 x1 x2 x3).2 ↔ changesOnly l a x3 :=
  changesOnly.peel (k := [.ctr, .tier]) (by
    have key : ∀ x2, ∀ (x0) (x1) (x3 : Dev) (a : Dev), changesOnly [.ctr, .tier] a (Dev.makeRoom x0 x1 x2 x3).2 ↔ changesOnly [.ctr, .tier] a x3 := by
      intro x2
      induction x2 with
      | zero => intro x0 x1 x3 a; simp [Dev.makeRoom]
      | succ n ih =>
        intro x0 x1 x3 a
        unfold Dev.makeRoom
        repeat' first
          | (simp [*, changesOnly_foldl]; done)
          | (split <;> try first
            | (rename_i h; have h := (congrArg (fun q => q.2.2.2) h).symm; dsimp only at h; subst h)
            | (rename_i h; have h := (congrArg (fun q => q.2.2) h).symm; dsimp only at h; subst h)
            | (rename_i h; have h := (congrArg (fun q => q.2) h).symm; dsimp only at h; subst h)
            | (rename_i h _; have h := (congrArg (fun q => q.2) h).symm; dsimp only at h; subst h))
          | dsimp only
          | refine (changesOnly_foldl _ _ _ fun b x => ?_).2 ?_
    exact (key x2 x0 x1 x3 x3).2 (changesOnly_self _ _)) hl

@[simp] theorem Dev.takeFrame_only {l : List Comp} {a : Dev} (d : Dev) (n) (k) (g) (hl : [.ctr, .mem, .poison, .tier] ⊆ l) :
    changesOnly l a (d.takeFrame n k g) ↔ changesOnly l a d :=
  changesOnly.peel (k := [.ctr, .mem, .poison, .tier]) (by
    unfold Dev.takeFrame
    split
    · simp
    · dsimp only
      split
      · split
        · simp
        · rename_i h
          simp only [Dev.updTier_only, Dev.setFrame_only, List.cons_subset, List.mem_cons, List.nil_subset, true_or, or_true, true_and, and_true]
          refine (Dev.t1Alloc_only h (by simp)).2 ?_
          simp
      · simp) hl


@[simp] theorem Dev.beginFill_only {l : List Comp} {a : Dev} (x0) (x1) (x2) (x3 : Dev) (x4) (hl : [.ctr, .mem, .poison, .tier] ⊆ l) :
    changesOnly l a (Dev.beginFill x0 x1 x2 x3 x4) ↔ changesOnly l a x3 :=
  changesOnly.peel (k := [.ctr, .mem, .poison, .tier]) (by
    unfold Dev.beginFill
    repeat' first
      | (simp [changesOnly_foldl]; done)
      | (split <;> try first
          | (rename_i h; have h := (congrArg (fun q => q.2.2.2) h).symm; dsimp only at h; subst h)
          | (rename_i h; have h := (congrArg (fun q => q.2.2) h).symm; dsimp only at h; subst h)
          | (rename_i h; have h := (congrArg (fun q => q.2) h).symm; dsimp only at h; subst h)
          | (rename_i h _; have h := (congrArg (fun q => q.2) h).symm; dsimp only at h; subst h))
      | dsimp only
      | refine (changesOnly_foldl _ _ _ fun b x => ?_).2 ?_) hl

@[simp] theorem Dev.prepare_only {l : List Comp} {a : Dev} (x0 : Dev) (x1) (x2) (x3) (x4) (x5) (hl : [.ctr, .mem, .poison, .isles, .tier] ⊆ l) :
    changesOnly l a (Dev.prepare x0 x1 x2 x3 x4 x5).2 ↔ changesOnly l a x0 :=
  changesOnly.peel (k := [.ctr, .mem, .poison, .isles, .tier]) (by
    unfold Dev.prepare
    repeat' first
      | (simp [changesOnly_foldl]; done)
      | (split <;> try first
          | (rename_i h; have h := (congrArg (fun q => q.2.2.2) h).symm; dsimp only at h; subst h)
          | (rename_i h; have h := (congrArg (fun q => q.2.2) h).symm; dsimp only at h; subst h)
          | (rename_i h; have h := (congrArg (fun q => q.2) h).symm; dsimp only at h; subst h)
          | (rename_i h _; have h := (congrArg (fun q => q.2) h).symm; dsimp only at h; subst h))
      | dsimp only
      | refine (changesOnly_foldl _ _ _ fun b x => ?_).2 ?_) hl

@[simp] theorem Dev.touch_only {l : List Comp} {a : Dev} (x0 : Dev) (x1) (x2) (hl : [.tier] ⊆ l) :
    changesOnly l a (Dev.touch x0 x1 x2) ↔ changesOnly l a x0 :=
  changesOnly.peel (k := [.tier]) (by
    unfold Dev.touch
    repeat' first
      | (simp [changesOnly_foldl]; done)
      | (split <;> try first
          | (rename_i h; have h := (congrArg (fun q => q.2.2.2) h).symm; dsimp only at h; subst h)
          | (rename_i h; have h := (congrArg (fun q => q.2.2) h).symm; dsimp only at h; subst h)
          | (rename_i h; have h := (congrArg (fun q => q.2) h).symm; dsimp only at h; subst h)
          | (rename_i h _; have h := (congrArg (fun q => q.2) h).symm; dsimp only at h; subst h))
      | dsimp only
      | refine (changesOnly_foldl _ _ _ fun b x => ?_).2 ?_) hl

@[simp] theorem Dev.hbmCount_only {l : List Comp} {a : Dev} (x0 : Dev) (x1) (x2) (x3) (x4) (hl : [.ctr] ⊆ l) :
    changesOnly l a (Dev.hbmCount x0 x1 x2 x3 x4) ↔ changesOnly l a x0 :=
  changesOnly.peel (k := [.ctr]) (by
    unfold Dev.hbmCount
    repeat' first
      | (simp [changesOnly_foldl]; done)
      | (split <;> try first
          | (rename_i h; have h := (congrArg (fun q => q.2.2.2) h).symm; dsimp only at h; subst h)
          | (rename_i h; have h := (congrArg (fun q => q.2.2) h).symm; dsimp only at h; subst h)
          | (rename_i h; have h := (congrArg (fun q => q.2) h).symm; dsimp only at h; subst h)
          | (rename_i h _; have h := (congrArg (fun q => q.2) h).symm; dsimp only at h; subst h))
      | dsimp only
      | refine (changesOnly_foldl _ _ _ fun b x => ?_).2 ?_) hl

@[simp] theorem Dev.tRead_only {l : List Comp} {a : Dev} (x0 : Dev) (x1) (x2) (x3) (x4) (hl : [.hdr, .ctr, .tier] ⊆ l) :
    changesOnly l a (Dev.tRead x0 x1 x2 x3 x4).2 ↔ changesOnly l a x0 :=
  changesOnly.peel (k := [.hdr, .ctr, .tier]) (by
    unfold Dev.tRead
    repeat' first
      | (simp [changesOnly_foldl]; done)
      | (split <;> try first
          | (rename_i h; have h := (congrArg (fun q => q.2.2.2) h).symm; dsimp only at h; subst h)
          | (rename_i h; have h := (congrArg (fun q => q.2.2) h).symm; dsimp only at h; subst h)
          | (rename_i h; have h := (congrArg (fun q => q.2) h).symm; dsimp only at h; subst h)
          | (rename_i h _; have h := (congrArg (fun q => q.2) h).symm; dsimp only at h; subst h))
      | dsimp only
      | refine (changesOnly_foldl _ _ _ fun b x => ?_).2 ?_) hl

@[simp] theorem Dev.dirty_only {l : List Comp} {a : Dev} (x0 : Dev) (x1) (x2) (x3) (hl : [.tier] ⊆ l) :
    changesOnly l a (Dev.dirty x0 x1 x2 x3) ↔ changesOnly l a x0 :=
  changesOnly.peel (k := [.tier]) (by
    unfold Dev.dirty
    repeat' first
      | (simp [changesOnly_foldl]; done)
      | (split <;> try first
          | (rename_i h; have h := (congrArg (fun q => q.2.2.2) h).symm; dsimp only at h; subst h)
          | (rename_i h; have h := (congrArg (fun q => q.2.2) h).symm; dsimp only at h; subst h)
          | (rename_i h; have h := (congrArg (fun q => q.2) h).symm; dsimp only at h; subst h)
          | (rename_i h _; have h := (congrArg (fun q => q.2) h).symm; dsimp only at h; subst h))
      | dsimp only
      | refine (changesOnly_foldl _ _ _ fun b x => ?_).2 ?_) hl

@[simp] theorem Dev.wrPiece_only {l : List Comp} {a : Dev} (x0) (x1) (x2) (x3) (x4) (x5 : Dev) (x6) (hl : [.ctr, .mem, .poison, .cores, .tier] ⊆ l) :
    changesOnly l a (Dev.wrPiece x0 x1 x2 x3 x4 x5 x6) ↔ changesOnly l a x5 :=
  changesOnly.peel (k := [.ctr, .mem, .poison, .cores, .tier]) (by
    unfold Dev.wrPiece
    repeat' first
      | (simp [changesOnly_foldl]; done)
      | (split <;> try first
          | (rename_i h; have h := (congrArg (fun q => q.2.2.2) h).symm; dsimp only at h; subst h)
          | (rename_i h; have h := (congrArg (fun q => q.2.2) h).symm; dsimp only at h; subst h)
          | (rename_i h; have h := (congrArg (fun q => q.2) h).symm; dsimp only at h; subst h)
          | (rename_i h _; have h := (congrArg (fun q => q.2) h).symm; dsimp only at h; subst h))
      | dsimp only
      | refine (changesOnly_foldl _ _ _ fun b x => ?_).2 ?_) hl

@[simp] theorem Dev.tWrite_only {l : List Comp} {a : Dev} (x0 : Dev) (x1) (x2) (x3) (x4) (x5) (hl : [.hdr, .ctr, .mem, .poison, .cores, .tier] ⊆ l) :
    changesOnly l a (Dev.tWrite x0 x1 x2 x3 x4 x5) ↔ changesOnly l a x0 :=
  changesOnly.peel (k := [.hdr, .ctr, .mem, .poison, .cores, .tier]) (by
    unfold Dev.tWrite
    repeat' first
      | (simp [changesOnly_foldl]; done)
      | (split <;> try first
          | (rename_i h; have h := (congrArg (fun q => q.2.2.2) h).symm; dsimp only at h; subst h)
          | (rename_i h; have h := (congrArg (fun q => q.2.2) h).symm; dsimp only at h; subst h)
          | (rename_i h; have h := (congrArg (fun q => q.2) h).symm; dsimp only at h; subst h)
          | (rename_i h _; have h := (congrArg (fun q => q.2) h).symm; dsimp only at h; subst h))
      | dsimp only
      | refine (changesOnly_foldl _ _ _ fun b x => ?_).2 ?_) hl

@[simp] theorem Dev.tMark_only {l : List Comp} {a : Dev} (x0 : Dev) (x1) (x2) (x3) (hl : [.poison] ⊆ l) :
    changesOnly l a (Dev.tMark x0 x1 x2 x3) ↔ changesOnly l a x0 :=
  changesOnly.peel (k := [.poison]) (by
    unfold Dev.tMark
    repeat' first
      | (simp [changesOnly_foldl]; done)
      | (split <;> try first
          | (rename_i h; have h := (congrArg (fun q => q.2.2.2) h).symm; dsimp only at h; subst h)
          | (rename_i h; have h := (congrArg (fun q => q.2.2) h).symm; dsimp only at h; subst h)
          | (rename_i h; have h := (congrArg (fun q => q.2) h).symm; dsimp only at h; subst h)
          | (rename_i h _; have h := (congrArg (fun q => q.2) h).symm; dsimp only at h; subst h))
      | dsimp only
      | refine (changesOnly_foldl _ _ _ fun b x => ?_).2 ?_) hl

@[simp] theorem Dev.dropPage_only {l : List Comp} {a : Dev} (x0 : Dev) (x1) (x2) (hl : [.ctr, .tier] ⊆ l) :
    changesOnly l a (Dev.dropPage x0 x1 x2) ↔ changesOnly l a x0 :=
  changesOnly.peel (k := [.ctr, .tier]) (by
    unfold Dev.dropPage
    repeat' first
      | (simp [changesOnly_foldl]; done)
      | (split <;> try first
          | (rename_i h; have h := (congrArg (fun q => q.2.2.2) h).symm; dsimp only at h; subst h)
          | (rename_i h; have h := (congrArg (fun q => q.2.2) h).symm; dsimp only at h; subst h)
          | (rename_i h; have h := (congrArg (fun q => q.2) h).symm; dsimp only at h; subst h)
          | (rename_i h _; have h := (congrArg (fun q => q.2) h).symm; dsimp only at h; subst h))
      | dsimp only
      | refine (changesOnly_foldl _ _ _ fun b x => ?_).2 ?_) hl

@[simp] theorem Dev.zeroLent_only {l : List Comp} {a : Dev} (x0 : Dev) (x1) (hl : [.mem, .poison] ⊆ l) :
    changesOnly l a (Dev.zeroLent x0 x1) ↔ changesOnly l a x0 :=
  changesOnly.peel (k := [.mem, .poison]) (by
    unfold Dev.zeroLent
    repeat' first
      | (simp [changesOnly_foldl]; done)
      | (split <;> try first
          | (rename_i h; have h := (congrArg (fun q => q.2.2.2) h).symm; dsimp only at h; subst h)
          | (rename_i h; have h := (congrArg (fun q => q.2.2) h).symm; dsimp only at h; subst h)
          | (rename_i h; have h := (congrArg (fun q => q.2) h).symm; dsimp only at h; subst h)
          | (rename_i h _; have h := (congrArg (fun q => q.2) h).symm; dsimp only at h; subst h))
      | dsimp only
      | refine (changesOnly_foldl _ _ _ fun b x => ?_).2 ?_) hl

@[simp] theorem Dev.clearTranslation_only {l : List Comp} {a : Dev} (x0 : Dev) (x1) (hl : [.tier] ⊆ l) :
    changesOnly l a (Dev.clearTranslation x0 x1) ↔ changesOnly l a x0 :=
  changesOnly.peel (k := [.tier]) (by
    unfold Dev.clearTranslation
    repeat' first
      | (simp [changesOnly_foldl]; done)
      | (split <;> try first
          | (rename_i h; have h := (congrArg (fun q => q.2.2.2) h).symm; dsimp only at h; subst h)
          | (rename_i h; have h := (congrArg (fun q => q.2.2) h).symm; dsimp only at h; subst h)
          | (rename_i h; have h := (congrArg (fun q => q.2) h).symm; dsimp only at h; subst h)
          | (rename_i h _; have h := (congrArg (fun q => q.2) h).symm; dsimp only at h; subst h))
      | dsimp only
      | refine (changesOnly_foldl _ _ _ fun b x => ?_).2 ?_) hl

end Sys2Proof.Machine
end

