-- ==== Sys2Proof/Laws/OnlyRing.lean ====
section
/-!
SUPPORT. The components that each operation of Machine/Ring.lean can change.
-/

namespace Sys2Proof.Machine

set_option linter.unusedSimpArgs false

open Sys2Proof.Safety

@[simp] theorem Dev.updRing_only {l : List Comp} {a : Dev} (x0 : Dev) (x1) (x2) (hl : [.rings] ⊆ l) :
    changesOnly l a (Dev.updRing x0 x1 x2) ↔ changesOnly l a x0 :=
  changesOnly.peel (k := [.rings]) (by
    unfold Dev.updRing
    repeat' first
      | (simp [changesOnly_foldl]; done)
      | (split <;> try first
          | (rename_i h; have h := (congrArg (fun q => q.2.2.2) h).symm; dsimp only at h; subst h)
          | (rename_i h; have h := (congrArg (fun q => q.2.2) h).symm; dsimp only at h; subst h)
          | (rename_i h; have h := (congrArg (fun q => q.2) h).symm; dsimp only at h; subst h)
          | (rename_i h _; have h := (congrArg (fun q => q.2) h).symm; dsimp only at h; subst h))
      | dsimp only
      | refine (changesOnly_foldl _ _ _ fun b x => ?_).2 ?_) hl

@[simp] theorem Dev.ringErr_only {l : List Comp} {a : Dev} (x0 : Dev) (x1) (x2) (hl : [.hdr] ⊆ l) :
    changesOnly l a (Dev.ringErr x0 x1 x2) ↔ changesOnly l a x0 :=
  changesOnly.peel (k := [.hdr]) (by
    unfold Dev.ringErr
    repeat' first
      | (simp [changesOnly_foldl]; done)
      | (split <;> try first
          | (rename_i h; have h := (congrArg (fun q => q.2.2.2) h).symm; dsimp only at h; subst h)
          | (rename_i h; have h := (congrArg (fun q => q.2.2) h).symm; dsimp only at h; subst h)
          | (rename_i h; have h := (congrArg (fun q => q.2) h).symm; dsimp only at h; subst h)
          | (rename_i h _; have h := (congrArg (fun q => q.2) h).symm; dsimp only at h; subst h))
      | dsimp only
      | refine (changesOnly_foldl _ _ _ fun b x => ?_).2 ?_) hl

@[simp] theorem Dev.ringCnt_only {l : List Comp} {a : Dev} (x0 : Dev) (x1) (x2) (hl : [.ctr] ⊆ l) :
    changesOnly l a (Dev.ringCnt x0 x1 x2) ↔ changesOnly l a x0 :=
  changesOnly.peel (k := [.ctr]) (by
    unfold Dev.ringCnt
    repeat' first
      | (simp [changesOnly_foldl]; done)
      | (split <;> try first
          | (rename_i h; have h := (congrArg (fun q => q.2.2.2) h).symm; dsimp only at h; subst h)
          | (rename_i h; have h := (congrArg (fun q => q.2.2) h).symm; dsimp only at h; subst h)
          | (rename_i h; have h := (congrArg (fun q => q.2) h).symm; dsimp only at h; subst h)
          | (rename_i h _; have h := (congrArg (fun q => q.2) h).symm; dsimp only at h; subst h))
      | dsimp only
      | refine (changesOnly_foldl _ _ _ fun b x => ?_).2 ?_) hl

@[simp] theorem Dev.doorbellBad_only {l : List Comp} {a : Dev} (x0 : Dev) (x1) (hl : [.ctr] ⊆ l) :
    changesOnly l a (Dev.doorbellBad x0 x1) ↔ changesOnly l a x0 :=
  changesOnly.peel (k := [.ctr]) (by
    unfold Dev.doorbellBad
    repeat' first
      | (simp [changesOnly_foldl]; done)
      | (split <;> try first
          | (rename_i h; have h := (congrArg (fun q => q.2.2.2) h).symm; dsimp only at h; subst h)
          | (rename_i h; have h := (congrArg (fun q => q.2.2) h).symm; dsimp only at h; subst h)
          | (rename_i h; have h := (congrArg (fun q => q.2) h).symm; dsimp only at h; subst h)
          | (rename_i h _; have h := (congrArg (fun q => q.2) h).symm; dsimp only at h; subst h))
      | dsimp only
      | refine (changesOnly_foldl _ _ _ fun b x => ?_).2 ?_) hl

@[simp] theorem Dev.cqWrite_only {l : List Comp} {a : Dev} (x0 : Dev) (x1) (x2) (hl : [.hdr, .ctr, .irq, .rings, .out] ⊆ l) :
    changesOnly l a (Dev.cqWrite x0 x1 x2) ↔ changesOnly l a x0 :=
  changesOnly.peel (k := [.hdr, .ctr, .irq, .rings, .out]) (by
    unfold Dev.cqWrite
    repeat' first
      | (simp [changesOnly_foldl]; done)
      | (split <;> try first
          | (rename_i h; have h := (congrArg (fun q => q.2.2.2) h).symm; dsimp only at h; subst h)
          | (rename_i h; have h := (congrArg (fun q => q.2.2) h).symm; dsimp only at h; subst h)
          | (rename_i h; have h := (congrArg (fun q => q.2) h).symm; dsimp only at h; subst h)
          | (rename_i h _; have h := (congrArg (fun q => q.2) h).symm; dsimp only at h; subst h))
      | dsimp only
      | refine (changesOnly_foldl _ _ _ fun b x => ?_).2 ?_) hl

@[simp] theorem Dev.cqFlush_only {l : List Comp} {a : Dev} (x0) (x1) (x2 : Dev) (hl : [.hdr, .ctr, .irq, .rings, .out] ⊆ l) :
    changesOnly l a (Dev.cqFlush x0 x1 x2) ↔ changesOnly l a x2 :=
  changesOnly.peel (k := [.hdr, .ctr, .irq, .rings, .out]) (by
    have key : ∀ x1, ∀ (x0) (x2 : Dev) (a : Dev), changesOnly [.hdr, .ctr, .irq, .rings, .out] a (Dev.cqFlush x0 x1 x2) ↔ changesOnly [.hdr, .ctr, .irq, .rings, .out] a x2 := by
      intro x1
      induction x1 with
      | nil => intro x0 x2 a; simp [Dev.cqFlush]
      | cons y ys ih =>
        intro x0 x2 a
        unfold Dev.cqFlush
        repeat' first
          | (simp [*, changesOnly_foldl]; done)
          | (split <;> try first
            | (rename_i h; have h := (congrArg (fun q => q.2.2.2) h).symm; dsimp only at h; subst h)
            | (rename_i h; have h := (congrArg (fun q => q.2.2) h).symm; dsimp only at h; subst h)
            | (rename_i h; have h := (congrArg (fun q => q.2) h).symm; dsimp only at h; subst h)
            | (rename_i h _; have h := (congrArg (fun q => q.2) h).symm; dsimp only at h; subst h))
          | dsimp only
          | refine (changesOnly_foldl _ _ _ fun b x => ?_).2 ?_
    exact (key x1 x0 x2 x2).2 (changesOnly_self _ _)) hl

@[simp] theorem Dev.complete_only {l : List Comp} {a : Dev} (x0 : Dev) (x1) (x2) (x3) (x4) (x5) (x6) (hl : [.hdr, .ctr, .irq, .rings, .out] ⊆ l) :
    changesOnly l a (Dev.complete x0 x1 x2 x3 x4 x5 x6) ↔ changesOnly l a x0 :=
  changesOnly.peel (k := [.hdr, .ctr, .irq, .rings, .out]) (by
    unfold Dev.complete
    repeat' first
      | (simp [changesOnly_foldl]; done)
      | (split <;> try first
          | (rename_i h; have h := (congrArg (fun q => q.2.2.2) h).symm; dsimp only at h; subst h)
          | (rename_i h; have h := (congrArg (fun q => q.2.2) h).symm; dsimp only at h; subst h)
          | (rename_i h; have h := (congrArg (fun q => q.2) h).symm; dsimp only at h; subst h)
          | (rename_i h _; have h := (congrArg (fun q => q.2) h).symm; dsimp only at h; subst h))
      | dsimp only
      | refine (changesOnly_foldl _ _ _ fun b x => ?_).2 ?_) hl

@[simp] theorem ringTry_only {l : List Comp} {a : Dev} (n) (i) (e) (m) (s) (pre) (run) (d : Dev)
    (hp : ∀ b, changesOnly l b (pre b).2) (hr : ∀ k b, changesOnly l b (run k b)) (hl : [.hdr, .ctr, .rings, .irq, .out] ⊆ l) :
    changesOnly l a (ringTry n i e m s pre run d) ↔ changesOnly l a d :=
  changesOnly.peel (k := l) (by
    have hp' : ∀ a b, changesOnly l a (pre b).2 ↔ changesOnly l a b := fun a b => (hp b).peel fun _ h => h
    have hr' : ∀ k a b, changesOnly l a (run k b) ↔ changesOnly l a b := fun k a b => (hr k b).peel fun _ h => h
    have h1 := fun (l' : List Comp) (h : l' ⊆ [.hdr, .ctr, .rings, .irq, .out]) => List.Subset.trans h hl
    have h2 := h1 [.rings] (by simp)
    have h3 := h1 [.ctr] (by simp)
    have h4 := h1 [.hdr, .ctr, .rings, .irq, .out] (by simp)
    unfold ringTry
    split
    · simp
    · cases e.clean <;> dsimp only <;> split <;> simp_all [Dev.updRing, Dev.ringCnt]) (fun _ h => h)


@[simp] theorem ringCmd_only {l : List Comp} {a : Dev} (n) (i) (e) (m) (s) (run) (d : Dev)
    (hr : ∀ k b, changesOnly l b (run k b)) (hl : [.hdr, .ctr, .rings, .irq, .out] ⊆ l) :
    changesOnly l a (ringCmd n i e m s run d) ↔ changesOnly l a d :=
  ringTry_only n i e m s _ run d (fun b => changesOnly_self l b) hr hl


@[simp] theorem Dev.ringRuns_only {l : List Comp} {a : Dev} (x0 : Dev) (x1) (x2) (x3) (x4) (x5) (hl : [.rings] ⊆ l) :
    changesOnly l a (Dev.ringRuns x0 x1 x2 x3 x4 x5) ↔ changesOnly l a x0 :=
  changesOnly.peel (k := [.rings]) (by
    unfold Dev.ringRuns
    repeat' first
      | (simp [changesOnly_foldl]; done)
      | (split <;> try first
          | (rename_i h; have h := (congrArg (fun q => q.2.2.2) h).symm; dsimp only at h; subst h)
          | (rename_i h; have h := (congrArg (fun q => q.2.2) h).symm; dsimp only at h; subst h)
          | (rename_i h; have h := (congrArg (fun q => q.2) h).symm; dsimp only at h; subst h)
          | (rename_i h _; have h := (congrArg (fun q => q.2) h).symm; dsimp only at h; subst h))
      | dsimp only
      | refine (changesOnly_foldl _ _ _ fun b x => ?_).2 ?_) hl

@[simp] theorem Dev.ringVia_only {l : List Comp} {a : Dev} (d : Dev) (v) (fn) (off) (f) (hf : ∀ b, changesOnly l b (f b))
    (hl : [.hdr, .parts] ⊆ l) : changesOnly l a (d.ringVia v fn off f) ↔ changesOnly l a d :=
  changesOnly.peel (k := l) (by
    have hhdr : Comp.hdr ∈ l := hl (by simp)
    have hparts : Comp.parts ∈ l := hl (by simp)
    have hg : ∀ a b, changesOnly l a (f b) ↔ changesOnly l a b := fun a b => (hf b).peel fun _ h => h
    unfold Dev.ringVia
    repeat' first
      | (simp [hg, hhdr, hparts]; done)
      | (split <;> try first
          | (rename_i h; have h := (congrArg (fun q => q.2) h).symm; dsimp only at h; subst h))
      | dsimp only) (fun _ h => h)


@[simp] theorem sqTail_only {l : List Comp} {a : Dev} (x0) (x1) (x2) (x3) (x4 : Dev) (hl : [.hdr, .ctr, .parts, .rings] ⊆ l) :
    changesOnly l a (sqTail x0 x1 x2 x3 x4) ↔ changesOnly l a x4 :=
  changesOnly.peel (k := [.hdr, .ctr, .parts, .rings]) (by
    unfold sqTail
    repeat' first
      | (simp [changesOnly_foldl]; done)
      | (split <;> try first
          | (rename_i h; have h := (congrArg (fun q => q.2.2.2) h).symm; dsimp only at h; subst h)
          | (rename_i h; have h := (congrArg (fun q => q.2.2) h).symm; dsimp only at h; subst h)
          | (rename_i h; have h := (congrArg (fun q => q.2) h).symm; dsimp only at h; subst h)
          | (rename_i h _; have h := (congrArg (fun q => q.2) h).symm; dsimp only at h; subst h))
      | dsimp only
      | refine (changesOnly_foldl _ _ _ fun b x => ?_).2 ?_) hl

@[simp] theorem sqBusError_only {l : List Comp} {a : Dev} (x0) (x1) (x2 : Dev) (hl : [.hdr, .rings] ⊆ l) :
    changesOnly l a (sqBusError x0 x1 x2) ↔ changesOnly l a x2 :=
  changesOnly.peel (k := [.hdr, .rings]) (by
    unfold sqBusError
    repeat' first
      | (simp [changesOnly_foldl]; done)
      | (split <;> try first
          | (rename_i h; have h := (congrArg (fun q => q.2.2.2) h).symm; dsimp only at h; subst h)
          | (rename_i h; have h := (congrArg (fun q => q.2.2) h).symm; dsimp only at h; subst h)
          | (rename_i h; have h := (congrArg (fun q => q.2) h).symm; dsimp only at h; subst h)
          | (rename_i h _; have h := (congrArg (fun q => q.2) h).symm; dsimp only at h; subst h))
      | dsimp only
      | refine (changesOnly_foldl _ _ _ fun b x => ?_).2 ?_) hl

@[simp] theorem sqEnable_only {l : List Comp} {a : Dev} (x0) (x1) (x2) (x3) (x4 : Dev) (hl : [.hdr, .regs, .parts, .rings] ⊆ l) :
    changesOnly l a (sqEnable x0 x1 x2 x3 x4) ↔ changesOnly l a x4 :=
  changesOnly.peel (k := [.hdr, .regs, .parts, .rings]) (by
    unfold sqEnable
    repeat' first
      | (simp [changesOnly_foldl]; done)
      | (split <;> try first
          | (rename_i h; have h := (congrArg (fun q => q.2.2.2) h).symm; dsimp only at h; subst h)
          | (rename_i h; have h := (congrArg (fun q => q.2.2) h).symm; dsimp only at h; subst h)
          | (rename_i h; have h := (congrArg (fun q => q.2) h).symm; dsimp only at h; subst h)
          | (rename_i h _; have h := (congrArg (fun q => q.2) h).symm; dsimp only at h; subst h))
      | dsimp only
      | refine (changesOnly_foldl _ _ _ fun b x => ?_).2 ?_) hl

@[simp] theorem cqEnable_only {l : List Comp} {a : Dev} (x0) (x1) (x2) (x3 : Dev) (hl : [.hdr, .ctr, .regs, .parts, .irq, .rings, .out] ⊆ l) :
    changesOnly l a (cqEnable x0 x1 x2 x3) ↔ changesOnly l a x3 :=
  changesOnly.peel (k := [.hdr, .ctr, .regs, .parts, .irq, .rings, .out]) (by
    unfold cqEnable
    repeat' first
      | (simp [changesOnly_foldl]; done)
      | (split <;> try first
          | (rename_i h; have h := (congrArg (fun q => q.2.2.2) h).symm; dsimp only at h; subst h)
          | (rename_i h; have h := (congrArg (fun q => q.2.2) h).symm; dsimp only at h; subst h)
          | (rename_i h; have h := (congrArg (fun q => q.2) h).symm; dsimp only at h; subst h)
          | (rename_i h _; have h := (congrArg (fun q => q.2) h).symm; dsimp only at h; subst h))
      | dsimp only
      | refine (changesOnly_foldl _ _ _ fun b x => ?_).2 ?_) hl

@[simp] theorem ringBase_only {l : List Comp} {a : Dev} (x0) (x1) (x2) (x3) (x4) (x5 : Dev) (hl : [.hdr, .regs, .parts] ⊆ l) :
    changesOnly l a (ringBase x0 x1 x2 x3 x4 x5) ↔ changesOnly l a x5 :=
  changesOnly.peel (k := [.hdr, .regs, .parts]) (by
    unfold ringBase
    repeat' first
      | (simp [changesOnly_foldl]; done)
      | (split <;> try first
          | (rename_i h; have h := (congrArg (fun q => q.2.2.2) h).symm; dsimp only at h; subst h)
          | (rename_i h; have h := (congrArg (fun q => q.2.2) h).symm; dsimp only at h; subst h)
          | (rename_i h; have h := (congrArg (fun q => q.2) h).symm; dsimp only at h; subst h)
          | (rename_i h _; have h := (congrArg (fun q => q.2) h).symm; dsimp only at h; subst h))
      | dsimp only
      | refine (changesOnly_foldl _ _ _ fun b x => ?_).2 ?_) hl

@[simp] theorem cqHead_only {l : List Comp} {a : Dev} (x0) (x1) (x2) (x3 : Dev) (hl : [.hdr, .ctr, .parts, .irq, .rings, .out, .free] ⊆ l) :
    changesOnly l a (cqHead x0 x1 x2 x3) ↔ changesOnly l a x3 :=
  changesOnly.peel (k := [.hdr, .ctr, .parts, .irq, .rings, .out, .free]) (by
    unfold cqHead
    repeat' first
      | (simp [changesOnly_foldl]; done)
      | (split <;> try first
          | (rename_i h; have h := (congrArg (fun q => q.2.2.2) h).symm; dsimp only at h; subst h)
          | (rename_i h; have h := (congrArg (fun q => q.2.2) h).symm; dsimp only at h; subst h)
          | (rename_i h; have h := (congrArg (fun q => q.2) h).symm; dsimp only at h; subst h)
          | (rename_i h _; have h := (congrArg (fun q => q.2) h).symm; dsimp only at h; subst h))
      | dsimp only
      | refine (changesOnly_foldl _ _ _ fun b x => ?_).2 ?_) hl

@[simp] theorem cqBusError_only {l : List Comp} {a : Dev} (x0) (x1 : Dev) (hl : [.st, .hdr, .rings] ⊆ l) :
    changesOnly l a (cqBusError x0 x1) ↔ changesOnly l a x1 :=
  changesOnly.peel (k := [.st, .hdr, .rings]) (by
    unfold cqBusError
    repeat' first
      | (simp [changesOnly_foldl]; done)
      | (split <;> try first
          | (rename_i h; have h := (congrArg (fun q => q.2.2.2) h).symm; dsimp only at h; subst h)
          | (rename_i h; have h := (congrArg (fun q => q.2.2) h).symm; dsimp only at h; subst h)
          | (rename_i h; have h := (congrArg (fun q => q.2) h).symm; dsimp only at h; subst h)
          | (rename_i h _; have h := (congrArg (fun q => q.2) h).symm; dsimp only at h; subst h))
      | dsimp only
      | refine (changesOnly_foldl _ _ _ fun b x => ?_).2 ?_) hl

end Sys2Proof.Machine
end

