-- ==== Sys2Proof/Laws/OnlyEngine.lean ====
section
/-!
SUPPORT. The components that each operation of Machine/Engine.lean can change.
-/

namespace Sys2Proof.Machine

set_option linter.unusedSimpArgs false

open Sys2Proof.Safety

@[simp] theorem Dev.updEng_only {l : List Comp} {a : Dev} (x0 : Dev) (x1) (x2) (x3) (hl : [.cores] ⊆ l) :
    changesOnly l a (Dev.updEng x0 x1 x2 x3) ↔ changesOnly l a x0 :=
  changesOnly.peel (k := [.cores]) (by
    unfold Dev.updEng
    repeat' first
      | (simp [changesOnly_foldl]; done)
      | (split <;> try first
          | (rename_i h; have h := (congrArg (fun q => q.2.2.2) h).symm; dsimp only at h; subst h)
          | (rename_i h; have h := (congrArg (fun q => q.2.2) h).symm; dsimp only at h; subst h)
          | (rename_i h; have h := (congrArg (fun q => q.2) h).symm; dsimp only at h; subst h)
          | (rename_i h _; have h := (congrArg (fun q => q.2) h).symm; dsimp only at h; subst h))
      | dsimp only
      | refine (changesOnly_foldl _ _ _ fun b x => ?_).2 ?_) hl

@[simp] theorem Dev.refuseHead_only {l : List Comp} {a : Dev} (x0 : Dev) (x1) (x2) (x3) (x4) (hl : [.hdr, .ctr, .cores] ⊆ l) :
    changesOnly l a (Dev.refuseHead x0 x1 x2 x3 x4) ↔ changesOnly l a x0 :=
  changesOnly.peel (k := [.hdr, .ctr, .cores]) (by
    unfold Dev.refuseHead
    repeat' first
      | (simp [changesOnly_foldl]; done)
      | (split <;> try first
          | (rename_i h; have h := (congrArg (fun q => q.2.2.2) h).symm; dsimp only at h; subst h)
          | (rename_i h; have h := (congrArg (fun q => q.2.2) h).symm; dsimp only at h; subst h)
          | (rename_i h; have h := (congrArg (fun q => q.2) h).symm; dsimp only at h; subst h)
          | (rename_i h _; have h := (congrArg (fun q => q.2) h).symm; dsimp only at h; subst h))
      | dsimp only
      | refine (changesOnly_foldl _ _ _ fun b x => ?_).2 ?_) hl

@[simp] theorem headOf_only {l : List Comp} {a : Dev} (x0) (x1) (x2) (x3 : Dev) (hl : [.hdr, .ctr, .cores] ⊆ l) :
    changesOnly l a (headOf x0 x1 x2 x3).2 ↔ changesOnly l a x3 :=
  changesOnly.peel (k := [.hdr, .ctr, .cores]) (by
    unfold headOf
    repeat' first
      | (simp [changesOnly_foldl]; done)
      | (split <;> try first
          | (rename_i h; have h := (congrArg (fun q => q.2.2.2) h).symm; dsimp only at h; subst h)
          | (rename_i h; have h := (congrArg (fun q => q.2.2) h).symm; dsimp only at h; subst h)
          | (rename_i h; have h := (congrArg (fun q => q.2) h).symm; dsimp only at h; subst h)
          | (rename_i h _; have h := (congrArg (fun q => q.2) h).symm; dsimp only at h; subst h))
      | dsimp only
      | refine (changesOnly_foldl _ _ _ fun b x => ?_).2 ?_) hl

@[simp] theorem Dev.popHead_only {l : List Comp} {a : Dev} (x0 : Dev) (x1) (x2) (x3) (x4) (hl : [.ctr, .cores, .free] ⊆ l) :
    changesOnly l a (Dev.popHead x0 x1 x2 x3 x4) ↔ changesOnly l a x0 :=
  changesOnly.peel (k := [.ctr, .cores, .free]) (by
    unfold Dev.popHead
    repeat' first
      | (simp [changesOnly_foldl]; done)
      | (split <;> try first
          | (rename_i h; have h := (congrArg (fun q => q.2.2.2) h).symm; dsimp only at h; subst h)
          | (rename_i h; have h := (congrArg (fun q => q.2.2) h).symm; dsimp only at h; subst h)
          | (rename_i h; have h := (congrArg (fun q => q.2) h).symm; dsimp only at h; subst h)
          | (rename_i h _; have h := (congrArg (fun q => q.2) h).symm; dsimp only at h; subst h))
      | dsimp only
      | refine (changesOnly_foldl _ _ _ fun b x => ?_).2 ?_) hl

@[simp] theorem Dev.hold_only {l : List Comp} {a : Dev} (x0 : Dev) (x1) (x2) (hl : [.cores] ⊆ l) :
    changesOnly l a (Dev.hold x0 x1 x2) ↔ changesOnly l a x0 :=
  changesOnly.peel (k := [.cores]) (by
    unfold Dev.hold
    repeat' first
      | (simp [changesOnly_foldl]; done)
      | (split <;> try first
          | (rename_i h; have h := (congrArg (fun q => q.2.2.2) h).symm; dsimp only at h; subst h)
          | (rename_i h; have h := (congrArg (fun q => q.2.2) h).symm; dsimp only at h; subst h)
          | (rename_i h; have h := (congrArg (fun q => q.2) h).symm; dsimp only at h; subst h)
          | (rename_i h _; have h := (congrArg (fun q => q.2) h).symm; dsimp only at h; subst h))
      | dsimp only
      | refine (changesOnly_foldl _ _ _ fun b x => ?_).2 ?_) hl

@[simp] theorem Dev.releaseSto_only {l : List Comp} {a : Dev} (x0 : Dev) (x1) (x2) (hl : [.cores, .sigs] ⊆ l) :
    changesOnly l a (Dev.releaseSto x0 x1 x2) ↔ changesOnly l a x0 :=
  changesOnly.peel (k := [.cores, .sigs]) (by
    unfold Dev.releaseSto
    repeat' first
      | (simp [changesOnly_foldl]; done)
      | (split <;> try first
          | (rename_i h; have h := (congrArg (fun q => q.2.2.2) h).symm; dsimp only at h; subst h)
          | (rename_i h; have h := (congrArg (fun q => q.2.2) h).symm; dsimp only at h; subst h)
          | (rename_i h; have h := (congrArg (fun q => q.2) h).symm; dsimp only at h; subst h)
          | (rename_i h _; have h := (congrArg (fun q => q.2) h).symm; dsimp only at h; subst h))
      | dsimp only
      | refine (changesOnly_foldl _ _ _ fun b x => ?_).2 ?_) hl

@[simp] theorem Dev.releaseLoads_only {l : List Comp} {a : Dev} (x0 : Dev) (x1) (x2) (hl : [.cores, .sigs] ⊆ l) :
    changesOnly l a (Dev.releaseLoads x0 x1 x2) ↔ changesOnly l a x0 :=
  changesOnly.peel (k := [.cores, .sigs]) (by
    unfold Dev.releaseLoads
    repeat' first
      | (simp [changesOnly_foldl]; done)
      | (split <;> try first
          | (rename_i h; have h := (congrArg (fun q => q.2.2.2) h).symm; dsimp only at h; subst h)
          | (rename_i h; have h := (congrArg (fun q => q.2.2) h).symm; dsimp only at h; subst h)
          | (rename_i h; have h := (congrArg (fun q => q.2) h).symm; dsimp only at h; subst h)
          | (rename_i h _; have h := (congrArg (fun q => q.2) h).symm; dsimp only at h; subst h))
      | dsimp only
      | refine (changesOnly_foldl _ _ _ fun b x => ?_).2 ?_) hl

@[simp] theorem Dev.signalHead_only {l : List Comp} {a : Dev} (x0 : Dev) (x1) (x2) (x3) (x4) (hl : [.cores, .sigs] ⊆ l) :
    changesOnly l a (Dev.signalHead x0 x1 x2 x3 x4) ↔ changesOnly l a x0 :=
  changesOnly.peel (k := [.cores, .sigs]) (by
    unfold Dev.signalHead
    repeat' first
      | (simp [changesOnly_foldl]; done)
      | (split <;> try first
          | (rename_i h; have h := (congrArg (fun q => q.2.2.2) h).symm; dsimp only at h; subst h)
          | (rename_i h; have h := (congrArg (fun q => q.2.2) h).symm; dsimp only at h; subst h)
          | (rename_i h; have h := (congrArg (fun q => q.2) h).symm; dsimp only at h; subst h)
          | (rename_i h _; have h := (congrArg (fun q => q.2) h).symm; dsimp only at h; subst h))
      | dsimp only
      | refine (changesOnly_foldl _ _ _ fun b x => ?_).2 ?_) hl

@[simp] theorem Dev.sendReport_only {l : List Comp} {a : Dev} (x0 : Dev) (x1) (x2) (hl : [.nwch] ⊆ l) :
    changesOnly l a (Dev.sendReport x0 x1 x2) ↔ changesOnly l a x0 :=
  changesOnly.peel (k := [.nwch]) (by
    unfold Dev.sendReport
    repeat' first
      | (simp [changesOnly_foldl]; done)
      | (split <;> try first
          | (rename_i h; have h := (congrArg (fun q => q.2.2.2) h).symm; dsimp only at h; subst h)
          | (rename_i h; have h := (congrArg (fun q => q.2.2) h).symm; dsimp only at h; subst h)
          | (rename_i h; have h := (congrArg (fun q => q.2) h).symm; dsimp only at h; subst h)
          | (rename_i h _; have h := (congrArg (fun q => q.2) h).symm; dsimp only at h; subst h))
      | dsimp only
      | refine (changesOnly_foldl _ _ _ fun b x => ?_).2 ?_) hl

@[simp] theorem Dev.forward_only {l : List Comp} {a : Dev} (x0 : Dev) (x1) (x2) (x3) (hl : [.ctr, .mem, .poison, .cores] ⊆ l) :
    changesOnly l a (Dev.forward x0 x1 x2 x3) ↔ changesOnly l a x0 :=
  changesOnly.peel (k := [.ctr, .mem, .poison, .cores]) (by
    unfold Dev.forward
    repeat' first
      | (simp [changesOnly_foldl]; done)
      | (split <;> try first
          | (rename_i h; have h := (congrArg (fun q => q.2.2.2) h).symm; dsimp only at h; subst h)
          | (rename_i h; have h := (congrArg (fun q => q.2.2) h).symm; dsimp only at h; subst h)
          | (rename_i h; have h := (congrArg (fun q => q.2) h).symm; dsimp only at h; subst h)
          | (rename_i h _; have h := (congrArg (fun q => q.2) h).symm; dsimp only at h; subst h))
      | dsimp only
      | refine (changesOnly_foldl _ _ _ fun b x => ?_).2 ?_) hl

@[simp] theorem skipHead_only {l : List Comp} {a : Dev} (x0) (x1) (x2) (x3) (x4 : Dev) (hl : [.ctr, .mem, .poison, .cores, .sigs, .nwch, .free] ⊆ l) :
    changesOnly l a (skipHead x0 x1 x2 x3 x4) ↔ changesOnly l a x4 :=
  changesOnly.peel (k := [.ctr, .mem, .poison, .cores, .sigs, .nwch, .free]) (by
    unfold skipHead
    repeat' first
      | (simp [changesOnly_foldl]; done)
      | (split <;> try first
          | (rename_i h; have h := (congrArg (fun q => q.2.2.2) h).symm; dsimp only at h; subst h)
          | (rename_i h; have h := (congrArg (fun q => q.2.2) h).symm; dsimp only at h; subst h)
          | (rename_i h; have h := (congrArg (fun q => q.2) h).symm; dsimp only at h; subst h)
          | (rename_i h _; have h := (congrArg (fun q => q.2) h).symm; dsimp only at h; subst h))
      | dsimp only
      | refine (changesOnly_foldl _ _ _ fun b x => ?_).2 ?_) hl

@[simp] theorem atHead_only {l : List Comp} {a : Dev} (c) (q) (ops) (run) (d : Dev) (hf : ∀ i p x b, changesOnly l b (run i p x b))
    (hl : [.cores, .free, .hdr, .ctr, .isles, .poison, .mem, .sigs, .nwch] ⊆ l) : changesOnly l a (atHead c q ops run d) ↔ changesOnly l a d :=
  changesOnly.peel (k := l) (by
    have hcores : Comp.cores ∈ l := hl (by simp)
    have hfree : Comp.free ∈ l := hl (by simp)
    have hhdr : Comp.hdr ∈ l := hl (by simp)
    have hctr : Comp.ctr ∈ l := hl (by simp)
    have hisles : Comp.isles ∈ l := hl (by simp)
    have hpoison : Comp.poison ∈ l := hl (by simp)
    have hmem : Comp.mem ∈ l := hl (by simp)
    have hsigs : Comp.sigs ∈ l := hl (by simp)
    have hnwch : Comp.nwch ∈ l := hl (by simp)
    have hg : ∀ i p x a b, changesOnly l a (run i p x b) ↔ changesOnly l a b := fun i p x a b => (hf i p x b).peel fun _ h => h
    unfold atHead
    repeat' first
      | (simp [hg, hcores, hfree, hhdr, hctr, hisles, hpoison, hmem, hsigs, hnwch]; done)
      | (split <;> try first
          | (rename_i h; have h := (congrArg (fun q => q.2) h).symm; dsimp only at h; subst h))
      | dsimp only) (fun _ h => h)


@[simp] theorem runNop_only {l : List Comp} {a : Dev} (x0) (x1) (x2) (x3) (x4 : Dev) (hl : [.ctr, .cores, .sigs, .free] ⊆ l) :
    changesOnly l a (runNop x0 x1 x2 x3 x4) ↔ changesOnly l a x4 :=
  changesOnly.peel (k := [.ctr, .cores, .sigs, .free]) (by
    unfold runNop
    repeat' first
      | (simp [changesOnly_foldl]; done)
      | (split <;> try first
          | (rename_i h; have h := (congrArg (fun q => q.2.2.2) h).symm; dsimp only at h; subst h)
          | (rename_i h; have h := (congrArg (fun q => q.2.2) h).symm; dsimp only at h; subst h)
          | (rename_i h; have h := (congrArg (fun q => q.2) h).symm; dsimp only at h; subst h)
          | (rename_i h _; have h := (congrArg (fun q => q.2) h).symm; dsimp only at h; subst h))
      | dsimp only
      | refine (changesOnly_foldl _ _ _ fun b x => ?_).2 ?_) hl

@[simp] theorem runEnd_only {l : List Comp} {a : Dev} (x0) (x1) (x2) (x3) (x4 : Dev) (hl : [.hdr, .ctr, .cores, .sigs, .free] ⊆ l) :
    changesOnly l a (runEnd x0 x1 x2 x3 x4) ↔ changesOnly l a x4 :=
  changesOnly.peel (k := [.hdr, .ctr, .cores, .sigs, .free]) (by
    unfold runEnd
    repeat' first
      | (simp [changesOnly_foldl]; done)
      | (split <;> try first
          | (rename_i h; have h := (congrArg (fun q => q.2.2.2) h).symm; dsimp only at h; subst h)
          | (rename_i h; have h := (congrArg (fun q => q.2.2) h).symm; dsimp only at h; subst h)
          | (rename_i h; have h := (congrArg (fun q => q.2) h).symm; dsimp only at h; subst h)
          | (rename_i h _; have h := (congrArg (fun q => q.2) h).symm; dsimp only at h; subst h))
      | dsimp only
      | refine (changesOnly_foldl _ _ _ fun b x => ?_).2 ?_) hl

@[simp] theorem Dev.pumpLoads_only {l : List Comp} {a : Dev} (x0 : Dev) (x1) (x2) (hl : [.ctr, .cores, .free] ⊆ l) :
    changesOnly l a (Dev.pumpLoads x0 x1 x2) ↔ changesOnly l a x0 :=
  changesOnly.peel (k := [.ctr, .cores, .free]) (by
    unfold Dev.pumpLoads
    repeat' first
      | (simp [changesOnly_foldl]; done)
      | (split <;> try first
          | (rename_i h; have h := (congrArg (fun q => q.2.2.2) h).symm; dsimp only at h; subst h)
          | (rename_i h; have h := (congrArg (fun q => q.2.2) h).symm; dsimp only at h; subst h)
          | (rename_i h; have h := (congrArg (fun q => q.2) h).symm; dsimp only at h; subst h)
          | (rename_i h _; have h := (congrArg (fun q => q.2) h).symm; dsimp only at h; subst h))
      | dsimp only
      | refine (changesOnly_foldl _ _ _ fun b x => ?_).2 ?_) hl

@[simp] theorem runLoad_only {l : List Comp} {a : Dev} (x0) (x1) (x2) (x3 : Dev) (hl : [.ctr, .cores, .free] ⊆ l) :
    changesOnly l a (runLoad x0 x1 x2 x3) ↔ changesOnly l a x3 :=
  changesOnly.peel (k := [.ctr, .cores, .free]) (by
    unfold runLoad
    repeat' first
      | (simp [changesOnly_foldl]; done)
      | (split <;> try first
          | (rename_i h; have h := (congrArg (fun q => q.2.2.2) h).symm; dsimp only at h; subst h)
          | (rename_i h; have h := (congrArg (fun q => q.2.2) h).symm; dsimp only at h; subst h)
          | (rename_i h; have h := (congrArg (fun q => q.2) h).symm; dsimp only at h; subst h)
          | (rename_i h _; have h := (congrArg (fun q => q.2) h).symm; dsimp only at h; subst h))
      | dsimp only
      | refine (changesOnly_foldl _ _ _ fun b x => ?_).2 ?_) hl

@[simp] theorem runFetch_only {l : List Comp} {a : Dev} (x0) (x1) (x2) (x3 : Dev) (hl : [.ctr, .cores, .free] ⊆ l) :
    changesOnly l a (runFetch x0 x1 x2 x3) ↔ changesOnly l a x3 :=
  changesOnly.peel (k := [.ctr, .cores, .free]) (by
    unfold runFetch
    repeat' first
      | (simp [changesOnly_foldl]; done)
      | (split <;> try first
          | (rename_i h; have h := (congrArg (fun q => q.2.2.2) h).symm; dsimp only at h; subst h)
          | (rename_i h; have h := (congrArg (fun q => q.2.2) h).symm; dsimp only at h; subst h)
          | (rename_i h; have h := (congrArg (fun q => q.2) h).symm; dsimp only at h; subst h)
          | (rename_i h _; have h := (congrArg (fun q => q.2) h).symm; dsimp only at h; subst h))
      | dsimp only
      | refine (changesOnly_foldl _ _ _ fun b x => ?_).2 ?_) hl

@[simp] theorem Dev.enterFetch_only {l : List Comp} {a : Dev} (x0 : Dev) (x1) (x2) (x3) (hl : [.hdr, .ctr, .cores] ⊆ l) :
    changesOnly l a (Dev.enterFetch x0 x1 x2 x3).2 ↔ changesOnly l a x0 :=
  changesOnly.peel (k := [.hdr, .ctr, .cores]) (by
    unfold Dev.enterFetch
    repeat' first
      | (simp [changesOnly_foldl]; done)
      | (split <;> try first
          | (rename_i h; have h := (congrArg (fun q => q.2.2.2) h).symm; dsimp only at h; subst h)
          | (rename_i h; have h := (congrArg (fun q => q.2.2) h).symm; dsimp only at h; subst h)
          | (rename_i h; have h := (congrArg (fun q => q.2) h).symm; dsimp only at h; subst h)
          | (rename_i h _; have h := (congrArg (fun q => q.2) h).symm; dsimp only at h; subst h))
      | dsimp only
      | refine (changesOnly_foldl _ _ _ fun b x => ?_).2 ?_) hl

@[simp] theorem settleOps_only {l : List Comp} {a : Dev} (x0) (x1) (x2) (x3) (x4 : Dev) (hl : [.hdr, .ctr, .cores] ⊆ l) :
    changesOnly l a (settleOps x0 x1 x2 x3 x4).2 ↔ changesOnly l a x4 :=
  changesOnly.peel (k := [.hdr, .ctr, .cores]) (by
    have key : ∀ x2, ∀ (x0) (x1) (x3) (x4 : Dev) (a : Dev), changesOnly [.hdr, .ctr, .cores] a (settleOps x0 x1 x2 x3 x4).2 ↔ changesOnly [.hdr, .ctr, .cores] a x4 := by
      intro x2
      induction x2 with
      | nil => intro x0 x1 x3 x4 a; simp [settleOps]
      | cons y ys ih =>
        intro x0 x1 x3 x4 a
        unfold settleOps
        repeat' first
          | (simp [*, changesOnly_foldl]; done)
          | (split <;> try first
            | (rename_i h; have h := (congrArg (fun q => q.2.2.2) h).symm; dsimp only at h; subst h)
            | (rename_i h; have h := (congrArg (fun q => q.2.2) h).symm; dsimp only at h; subst h)
            | (rename_i h; have h := (congrArg (fun q => q.2) h).symm; dsimp only at h; subst h)
            | (rename_i h _; have h := (congrArg (fun q => q.2) h).symm; dsimp only at h; subst h))
          | dsimp only
          | refine (changesOnly_foldl _ _ _ fun b x => ?_).2 ?_
    exact (key x2 x0 x1 x3 x4 x4).2 (changesOnly_self _ _)) hl

@[simp] theorem Dev.readReq_only {l : List Comp} {a : Dev} (x0 : Dev) (x1) (x2) (x3) (x4) (hl : [.hdr, .ctr, .mem, .poison, .isles, .tier] ⊆ l) :
    changesOnly l a (Dev.readReq x0 x1 x2 x3 x4).2 ↔ changesOnly l a x0 :=
  changesOnly.peel (k := [.hdr, .ctr, .mem, .poison, .isles, .tier]) (by
    unfold Dev.readReq
    repeat' first
      | (simp [changesOnly_foldl]; done)
      | (split <;> try first
          | (rename_i h; have h := (congrArg (fun q => q.2.2.2) h).symm; dsimp only at h; subst h)
          | (rename_i h; have h := (congrArg (fun q => q.2.2) h).symm; dsimp only at h; subst h)
          | (rename_i h; have h := (congrArg (fun q => q.2) h).symm; dsimp only at h; subst h)
          | (rename_i h _; have h := (congrArg (fun q => q.2) h).symm; dsimp only at h; subst h))
      | dsimp only
      | refine (changesOnly_foldl _ _ _ fun b x => ?_).2 ?_) hl

@[simp] theorem loadArrive_only {l : List Comp} {a : Dev} (x0) (x1) (x2 : Dev) (hl : [.hdr, .ctr, .mem, .poison, .isles, .cores, .sigs, .tier, .errm, .free] ⊆ l) :
    changesOnly l a (loadArrive x0 x1 x2) ↔ changesOnly l a x2 :=
  changesOnly.peel (k := [.hdr, .ctr, .mem, .poison, .isles, .cores, .sigs, .tier, .errm, .free]) (by
    unfold loadArrive
    repeat' first
      | (simp [changesOnly_foldl]; done)
      | (split <;> try first
          | (rename_i h; have h := (congrArg (fun q => q.2.2.2) h).symm; dsimp only at h; subst h)
          | (rename_i h; have h := (congrArg (fun q => q.2.2) h).symm; dsimp only at h; subst h)
          | (rename_i h; have h := (congrArg (fun q => q.2) h).symm; dsimp only at h; subst h)
          | (rename_i h _; have h := (congrArg (fun q => q.2) h).symm; dsimp only at h; subst h))
      | dsimp only
      | refine (changesOnly_foldl _ _ _ fun b x => ?_).2 ?_) hl

@[simp] theorem runStore_only {l : List Comp} {a : Dev} (x0) (x1) (x2) (x3 : Dev) (hl : [.hdr, .ctr, .cores, .errm, .free] ⊆ l) :
    changesOnly l a (runStore x0 x1 x2 x3) ↔ changesOnly l a x3 :=
  changesOnly.peel (k := [.hdr, .ctr, .cores, .errm, .free]) (by
    unfold runStore
    repeat' first
      | (simp [changesOnly_foldl]; done)
      | (split <;> try first
          | (rename_i h; have h := (congrArg (fun q => q.2.2.2) h).symm; dsimp only at h; subst h)
          | (rename_i h; have h := (congrArg (fun q => q.2.2) h).symm; dsimp only at h; subst h)
          | (rename_i h; have h := (congrArg (fun q => q.2) h).symm; dsimp only at h; subst h)
          | (rename_i h _; have h := (congrArg (fun q => q.2) h).symm; dsimp only at h; subst h))
      | dsimp only
      | refine (changesOnly_foldl _ _ _ fun b x => ?_).2 ?_) hl

@[simp] theorem runSubmit_only {l : List Comp} {a : Dev} (x0) (x1) (x2) (x3 : Dev) (hl : [.hdr, .ctr, .cores, .errm, .free] ⊆ l) :
    changesOnly l a (runSubmit x0 x1 x2 x3) ↔ changesOnly l a x3 :=
  changesOnly.peel (k := [.hdr, .ctr, .cores, .errm, .free]) (by
    unfold runSubmit
    repeat' first
      | (simp [changesOnly_foldl]; done)
      | (split <;> try first
          | (rename_i h; have h := (congrArg (fun q => q.2.2.2) h).symm; dsimp only at h; subst h)
          | (rename_i h; have h := (congrArg (fun q => q.2.2) h).symm; dsimp only at h; subst h)
          | (rename_i h; have h := (congrArg (fun q => q.2) h).symm; dsimp only at h; subst h)
          | (rename_i h _; have h := (congrArg (fun q => q.2) h).symm; dsimp only at h; subst h))
      | dsimp only
      | refine (changesOnly_foldl _ _ _ fun b x => ?_).2 ?_) hl

@[simp] theorem runPost_only {l : List Comp} {a : Dev} (x0) (x1) (x2) (x3 : Dev) (hl : [.ctr, .cores, .free] ⊆ l) :
    changesOnly l a (runPost x0 x1 x2 x3) ↔ changesOnly l a x3 :=
  changesOnly.peel (k := [.ctr, .cores, .free]) (by
    unfold runPost
    repeat' first
      | (simp [changesOnly_foldl]; done)
      | (split <;> try first
          | (rename_i h; have h := (congrArg (fun q => q.2.2.2) h).symm; dsimp only at h; subst h)
          | (rename_i h; have h := (congrArg (fun q => q.2.2) h).symm; dsimp only at h; subst h)
          | (rename_i h; have h := (congrArg (fun q => q.2) h).symm; dsimp only at h; subst h)
          | (rename_i h _; have h := (congrArg (fun q => q.2) h).symm; dsimp only at h; subst h))
      | dsimp only
      | refine (changesOnly_foldl _ _ _ fun b x => ?_).2 ?_) hl

@[simp] theorem Dev.storeEnds_only {l : List Comp} {a : Dev} (x0 : Dev) (x1) (x2) (x3) (hl : [.cores, .sigs] ⊆ l) :
    changesOnly l a (Dev.storeEnds x0 x1 x2 x3) ↔ changesOnly l a x0 :=
  changesOnly.peel (k := [.cores, .sigs]) (by
    unfold Dev.storeEnds
    repeat' first
      | (simp [changesOnly_foldl]; done)
      | (split <;> try first
          | (rename_i h; have h := (congrArg (fun q => q.2.2.2) h).symm; dsimp only at h; subst h)
          | (rename_i h; have h := (congrArg (fun q => q.2.2) h).symm; dsimp only at h; subst h)
          | (rename_i h; have h := (congrArg (fun q => q.2) h).symm; dsimp only at h; subst h)
          | (rename_i h _; have h := (congrArg (fun q => q.2) h).symm; dsimp only at h; subst h))
      | dsimp only
      | refine (changesOnly_foldl _ _ _ fun b x => ?_).2 ?_) hl

@[simp] theorem Dev.writeLines_only {l : List Comp} {a : Dev} (x0 : Dev) (x1) (x2) (x3) (x4) (hl : [.hdr, .ctr, .mem, .poison, .cores, .tier] ⊆ l) :
    changesOnly l a (Dev.writeLines x0 x1 x2 x3 x4) ↔ changesOnly l a x0 :=
  changesOnly.peel (k := [.hdr, .ctr, .mem, .poison, .cores, .tier]) (by
    unfold Dev.writeLines
    repeat' first
      | (simp [changesOnly_foldl]; done)
      | (split <;> try first
          | (rename_i h; have h := (congrArg (fun q => q.2.2.2) h).symm; dsimp only at h; subst h)
          | (rename_i h; have h := (congrArg (fun q => q.2.2) h).symm; dsimp only at h; subst h)
          | (rename_i h; have h := (congrArg (fun q => q.2) h).symm; dsimp only at h; subst h)
          | (rename_i h _; have h := (congrArg (fun q => q.2) h).symm; dsimp only at h; subst h))
      | dsimp only
      | refine (changesOnly_foldl _ _ _ fun b x => ?_).2 ?_) hl

@[simp] theorem Dev.prepareLines_only {l : List Comp} {a : Dev} (x0 : Dev) (x1) (x2) (x3) (hl : [.ctr, .mem, .poison, .isles, .tier] ⊆ l) :
    changesOnly l a (Dev.prepareLines x0 x1 x2 x3).2 ↔ changesOnly l a x0 :=
  changesOnly.peel (k := [.ctr, .mem, .poison, .isles, .tier]) (by
    unfold Dev.prepareLines
    repeat' first
      | (simp [changesOnly_foldl]; done)
      | (split <;> try first
          | (rename_i h; have h := (congrArg (fun q => q.2.2.2) h).symm; dsimp only at h; subst h)
          | (rename_i h; have h := (congrArg (fun q => q.2.2) h).symm; dsimp only at h; subst h)
          | (rename_i h; have h := (congrArg (fun q => q.2) h).symm; dsimp only at h; subst h)
          | (rename_i h _; have h := (congrArg (fun q => q.2) h).symm; dsimp only at h; subst h))
      | dsimp only
      | refine (changesOnly_foldl _ _ _ fun b x => ?_).2 ?_
      | (simp (maxDischargeDepth := 6) [changesOnly_foldl, changesOnly_foldl_1, changesOnly_foldl_2, changesOnly_foldl_22]; done)
      | refine (changesOnly_foldl_2 _ _ _ fun b x => ?_).2 ?_
      | refine (changesOnly_foldl_22 _ _ _ fun b x => ?_).2 ?_
      | refine (changesOnly_foldl_1 _ _ _ fun b x => ?_).2 ?_) hl

@[simp] theorem storeDone_only {l : List Comp} {a : Dev} (x0) (x1 : Dev) (hl : [.hdr, .ctr, .mem, .poison, .isles, .cores, .sigs, .tier] ⊆ l) :
    changesOnly l a (storeDone x0 x1) ↔ changesOnly l a x1 :=
  changesOnly.peel (k := [.hdr, .ctr, .mem, .poison, .isles, .cores, .sigs, .tier]) (by
    unfold storeDone
    repeat' first
      | (simp [changesOnly_foldl]; done)
      | (split <;> try first
          | (rename_i h; have h := (congrArg (fun q => q.2.2.2) h).symm; dsimp only at h; subst h)
          | (rename_i h; have h := (congrArg (fun q => q.2.2) h).symm; dsimp only at h; subst h)
          | (rename_i h; have h := (congrArg (fun q => q.2) h).symm; dsimp only at h; subst h)
          | (rename_i h _; have h := (congrArg (fun q => q.2) h).symm; dsimp only at h; subst h))
      | dsimp only
      | refine (changesOnly_foldl _ _ _ fun b x => ?_).2 ?_) hl

@[simp] theorem Dev.enqueue_only {l : List Comp} {a : Dev} (x0 : Dev) (x1) (x2) (x3) (hl : [.mvec, .nwch, .opte, .rede] ⊆ l) :
    changesOnly l a (Dev.enqueue x0 x1 x2 x3) ↔ changesOnly l a x0 :=
  changesOnly.peel (k := [.mvec, .nwch, .opte, .rede]) (by
    unfold Dev.enqueue
    repeat' first
      | (simp [changesOnly_foldl]; done)
      | (split <;> try first
          | (rename_i h; have h := (congrArg (fun q => q.2.2.2) h).symm; dsimp only at h; subst h)
          | (rename_i h; have h := (congrArg (fun q => q.2.2) h).symm; dsimp only at h; subst h)
          | (rename_i h; have h := (congrArg (fun q => q.2) h).symm; dsimp only at h; subst h)
          | (rename_i h _; have h := (congrArg (fun q => q.2) h).symm; dsimp only at h; subst h))
      | dsimp only
      | refine (changesOnly_foldl _ _ _ fun b x => ?_).2 ?_) hl

@[simp] theorem submitDelivered_only {l : List Comp} {a : Dev} (x0) (x1 : Dev) (hl : [.ctr, .isles, .cores, .sigs, .mvec, .nwch, .opte, .rede] ⊆ l) :
    changesOnly l a (submitDelivered x0 x1) ↔ changesOnly l a x1 :=
  changesOnly.peel (k := [.ctr, .isles, .cores, .sigs, .mvec, .nwch, .opte, .rede]) (by
    unfold submitDelivered
    repeat' first
      | (simp [changesOnly_foldl]; done)
      | (split <;> try first
          | (rename_i h; have h := (congrArg (fun q => q.2.2.2) h).symm; dsimp only at h; subst h)
          | (rename_i h; have h := (congrArg (fun q => q.2.2) h).symm; dsimp only at h; subst h)
          | (rename_i h; have h := (congrArg (fun q => q.2) h).symm; dsimp only at h; subst h)
          | (rename_i h _; have h := (congrArg (fun q => q.2) h).symm; dsimp only at h; subst h))
      | dsimp only
      | refine (changesOnly_foldl _ _ _ fun b x => ?_).2 ?_) hl

@[simp] theorem postWritten_only {l : List Comp} {a : Dev} (x0) (x1 : Dev) (hl : [.hdr, .ctr, .irq, .cores, .sigs, .rings, .out] ⊆ l) :
    changesOnly l a (postWritten x0 x1) ↔ changesOnly l a x1 :=
  changesOnly.peel (k := [.hdr, .ctr, .irq, .cores, .sigs, .rings, .out]) (by
    unfold postWritten
    repeat' first
      | (simp [changesOnly_foldl]; done)
      | (split <;> try first
          | (rename_i h; have h := (congrArg (fun q => q.2.2.2) h).symm; dsimp only at h; subst h)
          | (rename_i h; have h := (congrArg (fun q => q.2.2) h).symm; dsimp only at h; subst h)
          | (rename_i h; have h := (congrArg (fun q => q.2) h).symm; dsimp only at h; subst h)
          | (rename_i h _; have h := (congrArg (fun q => q.2) h).symm; dsimp only at h; subst h))
      | dsimp only
      | refine (changesOnly_foldl _ _ _ fun b x => ?_).2 ?_) hl

@[simp] theorem signalArrive_only {l : List Comp} {a : Dev} (x0) (x1 : Dev) (hl : [.hdr, .ctr, .isles, .evc, .sigs] ⊆ l) :
    changesOnly l a (signalArrive x0 x1) ↔ changesOnly l a x1 :=
  changesOnly.peel (k := [.hdr, .ctr, .isles, .evc, .sigs]) (by
    unfold signalArrive
    repeat' first
      | (simp [changesOnly_foldl]; done)
      | (split <;> try first
          | (rename_i h; have h := (congrArg (fun q => q.2.2.2) h).symm; dsimp only at h; subst h)
          | (rename_i h; have h := (congrArg (fun q => q.2.2) h).symm; dsimp only at h; subst h)
          | (rename_i h; have h := (congrArg (fun q => q.2) h).symm; dsimp only at h; subst h)
          | (rename_i h _; have h := (congrArg (fun q => q.2) h).symm; dsimp only at h; subst h))
      | dsimp only
      | refine (changesOnly_foldl _ _ _ fun b x => ?_).2 ?_) hl

@[simp] theorem engSkip_only {l : List Comp} {a : Dev} (x0) (x1) (x2) (x3 : Dev) (hl : [.hdr, .parts, .cores] ⊆ l) :
    changesOnly l a (engSkip x0 x1 x2 x3) ↔ changesOnly l a x3 :=
  changesOnly.peel (k := [.hdr, .parts, .cores]) (by
    unfold engSkip
    repeat' first
      | (simp [changesOnly_foldl]; done)
      | (split <;> try first
          | (rename_i h; have h := (congrArg (fun q => q.2.2.2) h).symm; dsimp only at h; subst h)
          | (rename_i h; have h := (congrArg (fun q => q.2.2) h).symm; dsimp only at h; subst h)
          | (rename_i h; have h := (congrArg (fun q => q.2) h).symm; dsimp only at h; subst h)
          | (rename_i h _; have h := (congrArg (fun q => q.2) h).symm; dsimp only at h; subst h))
      | dsimp only
      | refine (changesOnly_foldl _ _ _ fun b x => ?_).2 ?_) hl

@[simp] theorem engRestart_only {l : List Comp} {a : Dev} (x0) (x1) (x2) (x3 : Dev) (hl : [.hdr, .parts, .cores] ⊆ l) :
    changesOnly l a (engRestart x0 x1 x2 x3) ↔ changesOnly l a x3 :=
  changesOnly.peel (k := [.hdr, .parts, .cores]) (by
    unfold engRestart
    repeat' first
      | (simp [changesOnly_foldl]; done)
      | (split <;> try first
          | (rename_i h; have h := (congrArg (fun q => q.2.2.2) h).symm; dsimp only at h; subst h)
          | (rename_i h; have h := (congrArg (fun q => q.2.2) h).symm; dsimp only at h; subst h)
          | (rename_i h; have h := (congrArg (fun q => q.2) h).symm; dsimp only at h; subst h)
          | (rename_i h _; have h := (congrArg (fun q => q.2) h).symm; dsimp only at h; subst h))
      | dsimp only
      | refine (changesOnly_foldl _ _ _ fun b x => ?_).2 ?_) hl

@[simp] theorem coreCounter_only {l : List Comp} {a : Dev} (x0) (x1) (x2) (x3) (x4 : Dev) (hl : [.hdr, .parts, .evc] ⊆ l) :
    changesOnly l a (coreCounter x0 x1 x2 x3 x4) ↔ changesOnly l a x4 :=
  changesOnly.peel (k := [.hdr, .parts, .evc]) (by
    unfold coreCounter
    repeat' first
      | (simp [changesOnly_foldl]; done)
      | (split <;> try first
          | (rename_i h; have h := (congrArg (fun q => q.2.2.2) h).symm; dsimp only at h; subst h)
          | (rename_i h; have h := (congrArg (fun q => q.2.2) h).symm; dsimp only at h; subst h)
          | (rename_i h; have h := (congrArg (fun q => q.2) h).symm; dsimp only at h; subst h)
          | (rename_i h _; have h := (congrArg (fun q => q.2) h).symm; dsimp only at h; subst h))
      | dsimp only
      | refine (changesOnly_foldl _ _ _ fun b x => ?_).2 ?_) hl

@[simp] theorem clusterCounter_only {l : List Comp} {a : Dev} (x0) (x1) (x2) (x3) (x4 : Dev) (hl : [.hdr, .parts, .evc] ⊆ l) :
    changesOnly l a (clusterCounter x0 x1 x2 x3 x4) ↔ changesOnly l a x4 :=
  changesOnly.peel (k := [.hdr, .parts, .evc]) (by
    unfold clusterCounter
    repeat' first
      | (simp [changesOnly_foldl]; done)
      | (split <;> try first
          | (rename_i h; have h := (congrArg (fun q => q.2.2.2) h).symm; dsimp only at h; subst h)
          | (rename_i h; have h := (congrArg (fun q => q.2.2) h).symm; dsimp only at h; subst h)
          | (rename_i h; have h := (congrArg (fun q => q.2) h).symm; dsimp only at h; subst h)
          | (rename_i h _; have h := (congrArg (fun q => q.2) h).symm; dsimp only at h; subst h))
      | dsimp only
      | refine (changesOnly_foldl _ _ _ fun b x => ?_).2 ?_) hl

@[simp] theorem counterWrite_only {l : List Comp} {a : Dev} (x0) (x1) (x2) (x3) (x4) (x5 : Dev) (hl : [.hdr, .parts, .evc] ⊆ l) :
    changesOnly l a (counterWrite x0 x1 x2 x3 x4 x5) ↔ changesOnly l a x5 :=
  changesOnly.peel (k := [.hdr, .parts, .evc]) (by
    unfold counterWrite
    repeat' first
      | (simp [changesOnly_foldl]; done)
      | (split <;> try first
          | (rename_i h; have h := (congrArg (fun q => q.2.2.2) h).symm; dsimp only at h; subst h)
          | (rename_i h; have h := (congrArg (fun q => q.2.2) h).symm; dsimp only at h; subst h)
          | (rename_i h; have h := (congrArg (fun q => q.2) h).symm; dsimp only at h; subst h)
          | (rename_i h _; have h := (congrArg (fun q => q.2) h).symm; dsimp only at h; subst h))
      | dsimp only
      | refine (changesOnly_foldl _ _ _ fun b x => ?_).2 ?_) hl

end Sys2Proof.Machine
end

