-- ==== Sys2Proof/Laws/OnlyCompute.lean ====
section
/-!
SUPPORT. The components that each operation of Machine/Compute.lean can change.
-/

namespace Sys2Proof.Machine

set_option linter.unusedSimpArgs false

open Sys2Proof.Safety

@[simp] theorem Dev.updNw_only {l : List Comp} {a : Dev} (x0 : Dev) (x1) (x2) (hl : [.nwch] ⊆ l) :
    changesOnly l a (Dev.updNw x0 x1 x2) ↔ changesOnly l a x0 :=
  changesOnly.peel (k := [.nwch]) (by
    unfold Dev.updNw
    repeat' first
      | (simp [changesOnly_foldl]; done)
      | (split <;> try first
          | (rename_i h; have h := (congrArg (fun q => q.2.2.2) h).symm; dsimp only at h; subst h)
          | (rename_i h; have h := (congrArg (fun q => q.2.2) h).symm; dsimp only at h; subst h)
          | (rename_i h; have h := (congrArg (fun q => q.2) h).symm; dsimp only at h; subst h)
          | (rename_i h _; have h := (congrArg (fun q => q.2) h).symm; dsimp only at h; subst h))
      | dsimp only
      | refine (changesOnly_foldl _ _ _ fun b x => ?_).2 ?_) hl

@[simp] theorem Dev.updEntry_only {l : List Comp} {a : Dev} (x0 : Dev) (x1) (x2) (x3) (hl : [.nwch] ⊆ l) :
    changesOnly l a (Dev.updEntry x0 x1 x2 x3) ↔ changesOnly l a x0 :=
  changesOnly.peel (k := [.nwch]) (by
    unfold Dev.updEntry
    repeat' first
      | (simp [changesOnly_foldl]; done)
      | (split <;> try first
          | (rename_i h; have h := (congrArg (fun q => q.2.2.2) h).symm; dsimp only at h; subst h)
          | (rename_i h; have h := (congrArg (fun q => q.2.2) h).symm; dsimp only at h; subst h)
          | (rename_i h; have h := (congrArg (fun q => q.2) h).symm; dsimp only at h; subst h)
          | (rename_i h _; have h := (congrArg (fun q => q.2) h).symm; dsimp only at h; subst h))
      | dsimp only
      | refine (changesOnly_foldl _ _ _ fun b x => ?_).2 ?_) hl

@[simp] theorem Dev.nwCnt_only {l : List Comp} {a : Dev} (x0 : Dev) (x1) (x2) (x3) (hl : [.ctr] ⊆ l) :
    changesOnly l a (Dev.nwCnt x0 x1 x2 x3) ↔ changesOnly l a x0 :=
  changesOnly.peel (k := [.ctr]) (by
    unfold Dev.nwCnt
    repeat' first
      | (simp [changesOnly_foldl]; done)
      | (split <;> try first
          | (rename_i h; have h := (congrArg (fun q => q.2.2.2) h).symm; dsimp only at h; subst h)
          | (rename_i h; have h := (congrArg (fun q => q.2.2) h).symm; dsimp only at h; subst h)
          | (rename_i h; have h := (congrArg (fun q => q.2) h).symm; dsimp only at h; subst h)
          | (rename_i h _; have h := (congrArg (fun q => q.2) h).symm; dsimp only at h; subst h))
      | dsimp only
      | refine (changesOnly_foldl _ _ _ fun b x => ?_).2 ?_) hl

@[simp] theorem Dev.nwEvt_only {l : List Comp} {a : Dev} (x0 : Dev) (x1) (x2) (hl : [.hdr] ⊆ l) :
    changesOnly l a (Dev.nwEvt x0 x1 x2) ↔ changesOnly l a x0 :=
  changesOnly.peel (k := [.hdr]) (by
    unfold Dev.nwEvt
    repeat' first
      | (simp [changesOnly_foldl]; done)
      | (split <;> try first
          | (rename_i h; have h := (congrArg (fun q => q.2.2.2) h).symm; dsimp only at h; subst h)
          | (rename_i h; have h := (congrArg (fun q => q.2.2) h).symm; dsimp only at h; subst h)
          | (rename_i h; have h := (congrArg (fun q => q.2) h).symm; dsimp only at h; subst h)
          | (rename_i h _; have h := (congrArg (fun q => q.2) h).symm; dsimp only at h; subst h))
      | dsimp only
      | refine (changesOnly_foldl _ _ _ fun b x => ?_).2 ?_) hl

@[simp] theorem Dev.sampleSegs_only {l : List Comp} {a : Dev} (x0 : Dev) (x1) (x2) (hl : [.ctr, .cores] ⊆ l) :
    changesOnly l a (Dev.sampleSegs x0 x1 x2) ↔ changesOnly l a x0 :=
  changesOnly.peel (k := [.ctr, .cores]) (by
    unfold Dev.sampleSegs
    repeat' first
      | (simp [changesOnly_foldl]; done)
      | (split <;> try first
          | (rename_i h; have h := (congrArg (fun q => q.2.2.2) h).symm; dsimp only at h; subst h)
          | (rename_i h; have h := (congrArg (fun q => q.2.2) h).symm; dsimp only at h; subst h)
          | (rename_i h; have h := (congrArg (fun q => q.2) h).symm; dsimp only at h; subst h)
          | (rename_i h _; have h := (congrArg (fun q => q.2) h).symm; dsimp only at h; subst h))
      | dsimp only
      | refine (changesOnly_foldl _ _ _ fun b x => ?_).2 ?_) hl

@[simp] theorem Dev.qAlarm_only {l : List Comp} {a : Dev} (x0 : Dev) (x1) (x2) (hl : [.hdr, .ctr, .nwch] ⊆ l) :
    changesOnly l a (Dev.qAlarm x0 x1 x2) ↔ changesOnly l a x0 :=
  changesOnly.peel (k := [.hdr, .ctr, .nwch]) (by
    unfold Dev.qAlarm
    repeat' first
      | (simp [changesOnly_foldl]; done)
      | (split <;> try first
          | (rename_i h; have h := (congrArg (fun q => q.2.2.2) h).symm; dsimp only at h; subst h)
          | (rename_i h; have h := (congrArg (fun q => q.2.2) h).symm; dsimp only at h; subst h)
          | (rename_i h; have h := (congrArg (fun q => q.2) h).symm; dsimp only at h; subst h)
          | (rename_i h _; have h := (congrArg (fun q => q.2) h).symm; dsimp only at h; subst h))
      | dsimp only
      | refine (changesOnly_foldl _ _ _ fun b x => ?_).2 ?_) hl

@[simp] theorem Dev.qBlock_only {l : List Comp} {a : Dev} (x0 : Dev) (x1) (x2) (x3) (hl : [.hdr, .ctr, .nwch] ⊆ l) :
    changesOnly l a (Dev.qBlock x0 x1 x2 x3) ↔ changesOnly l a x0 :=
  changesOnly.peel (k := [.hdr, .ctr, .nwch]) (by
    unfold Dev.qBlock
    repeat' first
      | (simp [changesOnly_foldl]; done)
      | (split <;> try first
          | (rename_i h; have h := (congrArg (fun q => q.2.2.2) h).symm; dsimp only at h; subst h)
          | (rename_i h; have h := (congrArg (fun q => q.2.2) h).symm; dsimp only at h; subst h)
          | (rename_i h; have h := (congrArg (fun q => q.2) h).symm; dsimp only at h; subst h)
          | (rename_i h _; have h := (congrArg (fun q => q.2) h).symm; dsimp only at h; subst h))
      | dsimp only
      | refine (changesOnly_foldl _ _ _ fun b x => ?_).2 ?_) hl

@[simp] theorem Dev.sampleBlocks_only {l : List Comp} {a : Dev} (x0 : Dev) (x1) (x2) (hl : [.hdr, .ctr, .cores, .nwch] ⊆ l) :
    changesOnly l a (Dev.sampleBlocks x0 x1 x2) ↔ changesOnly l a x0 :=
  changesOnly.peel (k := [.hdr, .ctr, .cores, .nwch]) (by
    unfold Dev.sampleBlocks
    repeat' first
      | (simp [changesOnly_foldl]; done)
      | (split <;> try first
          | (rename_i h; have h := (congrArg (fun q => q.2.2.2) h).symm; dsimp only at h; subst h)
          | (rename_i h; have h := (congrArg (fun q => q.2.2) h).symm; dsimp only at h; subst h)
          | (rename_i h; have h := (congrArg (fun q => q.2) h).symm; dsimp only at h; subst h)
          | (rename_i h _; have h := (congrArg (fun q => q.2) h).symm; dsimp only at h; subst h))
      | dsimp only
      | refine (changesOnly_foldl _ _ _ fun b x => ?_).2 ?_) hl

@[simp] theorem Dev.land_only {l : List Comp} {a : Dev} (x0 : Dev) (x1) (hl : [.ctr, .mem, .poison, .cores] ⊆ l) :
    changesOnly l a (Dev.land x0 x1) ↔ changesOnly l a x0 :=
  changesOnly.peel (k := [.ctr, .mem, .poison, .cores]) (by
    unfold Dev.land
    repeat' first
      | (simp [changesOnly_foldl]; done)
      | (split <;> try first
          | (rename_i h; have h := (congrArg (fun q => q.2.2.2) h).symm; dsimp only at h; subst h)
          | (rename_i h; have h := (congrArg (fun q => q.2.2) h).symm; dsimp only at h; subst h)
          | (rename_i h; have h := (congrArg (fun q => q.2) h).symm; dsimp only at h; subst h)
          | (rename_i h _; have h := (congrArg (fun q => q.2) h).symm; dsimp only at h; subst h))
      | dsimp only
      | refine (changesOnly_foldl _ _ _ fun b x => ?_).2 ?_) hl

@[simp] theorem Dev.readBad_only {l : List Comp} {a : Dev} (x0 : Dev) (x1) (x2) (x3) (hl : [.hdr, .ctr, .errm] ⊆ l) :
    changesOnly l a (Dev.readBad x0 x1 x2 x3) ↔ changesOnly l a x0 :=
  changesOnly.peel (k := [.hdr, .ctr, .errm]) (by
    unfold Dev.readBad
    repeat' first
      | (simp [changesOnly_foldl]; done)
      | (split <;> try first
          | (rename_i h; have h := (congrArg (fun q => q.2.2.2) h).symm; dsimp only at h; subst h)
          | (rename_i h; have h := (congrArg (fun q => q.2.2) h).symm; dsimp only at h; subst h)
          | (rename_i h; have h := (congrArg (fun q => q.2) h).symm; dsimp only at h; subst h)
          | (rename_i h _; have h := (congrArg (fun q => q.2) h).symm; dsimp only at h; subst h))
      | dsimp only
      | refine (changesOnly_foldl _ _ _ fun b x => ?_).2 ?_) hl

@[simp] theorem runMatmul_only {l : List Comp} {a : Dev} (x0) (x1) (x2) (x3 : Dev) (hl : [.hdr, .ctr, .cores, .errm, .free] ⊆ l) :
    changesOnly l a (runMatmul x0 x1 x2 x3) ↔ changesOnly l a x3 :=
  changesOnly.peel (k := [.hdr, .ctr, .cores, .errm, .free]) (by
    unfold runMatmul
    repeat' first
      | (simp [changesOnly_foldl]; done)
      | (split <;> try first
          | (rename_i h; have h := (congrArg (fun q => q.2.2.2) h).symm; dsimp only at h; subst h)
          | (rename_i h; have h := (congrArg (fun q => q.2.2) h).symm; dsimp only at h; subst h)
          | (rename_i h; have h := (congrArg (fun q => q.2) h).symm; dsimp only at h; subst h)
          | (rename_i h _; have h := (congrArg (fun q => q.2) h).symm; dsimp only at h; subst h))
      | dsimp only
      | refine (changesOnly_foldl _ _ _ fun b x => ?_).2 ?_) hl

@[simp] theorem Dev.opEnds_only {l : List Comp} {a : Dev} (x0 : Dev) (x1) (x2) (x3) (x4) (x5) (x6) (x7) (hl : [.hdr, .ctr, .cores, .sigs, .nwch] ⊆ l) :
    changesOnly l a (Dev.opEnds x0 x1 x2 x3 x4 x5 x6 x7) ↔ changesOnly l a x0 :=
  changesOnly.peel (k := [.hdr, .ctr, .cores, .sigs, .nwch]) (by
    unfold Dev.opEnds
    repeat' first
      | (simp [changesOnly_foldl]; done)
      | (split <;> try first
          | (rename_i h; have h := (congrArg (fun q => q.2.2.2) h).symm; dsimp only at h; subst h)
          | (rename_i h; have h := (congrArg (fun q => q.2.2) h).symm; dsimp only at h; subst h)
          | (rename_i h; have h := (congrArg (fun q => q.2) h).symm; dsimp only at h; subst h)
          | (rename_i h _; have h := (congrArg (fun q => q.2) h).symm; dsimp only at h; subst h))
      | dsimp only
      | refine (changesOnly_foldl _ _ _ fun b x => ?_).2 ?_) hl

@[simp] theorem matmulDone_only {l : List Comp} {a : Dev} (x0) (x1 : Dev) (hl : [.hdr, .ctr, .mem, .poison, .isles, .cores, .sigs, .nwch] ⊆ l) :
    changesOnly l a (matmulDone x0 x1) ↔ changesOnly l a x1 :=
  changesOnly.peel (k := [.hdr, .ctr, .mem, .poison, .isles, .cores, .sigs, .nwch]) (by
    unfold matmulDone
    repeat' first
      | (simp [changesOnly_foldl]; done)
      | (split <;> try first
          | (rename_i h; have h := (congrArg (fun q => q.2.2.2) h).symm; dsimp only at h; subst h)
          | (rename_i h; have h := (congrArg (fun q => q.2.2) h).symm; dsimp only at h; subst h)
          | (rename_i h; have h := (congrArg (fun q => q.2) h).symm; dsimp only at h; subst h)
          | (rename_i h _; have h := (congrArg (fun q => q.2) h).symm; dsimp only at h; subst h))
      | dsimp only
      | refine (changesOnly_foldl _ _ _ fun b x => ?_).2 ?_) hl

@[simp] theorem runVec_only {l : List Comp} {a : Dev} (x0) (x1) (x2) (x3 : Dev) (hl : [.hdr, .ctr, .cores, .errm, .free] ⊆ l) :
    changesOnly l a (runVec x0 x1 x2 x3) ↔ changesOnly l a x3 :=
  changesOnly.peel (k := [.hdr, .ctr, .cores, .errm, .free]) (by
    unfold runVec
    repeat' first
      | (simp [changesOnly_foldl]; done)
      | (split <;> try first
          | (rename_i h; have h := (congrArg (fun q => q.2.2.2) h).symm; dsimp only at h; subst h)
          | (rename_i h; have h := (congrArg (fun q => q.2.2) h).symm; dsimp only at h; subst h)
          | (rename_i h; have h := (congrArg (fun q => q.2) h).symm; dsimp only at h; subst h)
          | (rename_i h _; have h := (congrArg (fun q => q.2) h).symm; dsimp only at h; subst h))
      | dsimp only
      | refine (changesOnly_foldl _ _ _ fun b x => ?_).2 ?_) hl

@[simp] theorem vecCmd_only {l : List Comp} {a : Dev} (x0) (x1) (x2 : Dev) (hl : [.hdr, .ctr, .mem, .poison, .isles, .cores, .sigs, .nwch, .errm, .free] ⊆ l) :
    changesOnly l a (vecCmd x0 x1 x2) ↔ changesOnly l a x2 :=
  changesOnly.peel (k := [.hdr, .ctr, .mem, .poison, .isles, .cores, .sigs, .nwch, .errm, .free]) (by
    unfold vecCmd
    repeat' first
      | (simp [changesOnly_foldl]; done)
      | (split <;> try first
          | (rename_i h; have h := (congrArg (fun q => q.2.2.2) h).symm; dsimp only at h; subst h)
          | (rename_i h; have h := (congrArg (fun q => q.2.2) h).symm; dsimp only at h; subst h)
          | (rename_i h; have h := (congrArg (fun q => q.2) h).symm; dsimp only at h; subst h)
          | (rename_i h _; have h := (congrArg (fun q => q.2) h).symm; dsimp only at h; subst h))
      | dsimp only
      | refine (changesOnly_foldl _ _ _ fun b x => ?_).2 ?_) hl

@[simp] theorem vectorOpDone_only {l : List Comp} {a : Dev} (x0) (x1 : Dev) (hl : [.hdr, .ctr, .mem, .poison, .cores, .sigs, .nwch] ⊆ l) :
    changesOnly l a (vectorOpDone x0 x1) ↔ changesOnly l a x1 :=
  changesOnly.peel (k := [.hdr, .ctr, .mem, .poison, .cores, .sigs, .nwch]) (by
    unfold vectorOpDone
    repeat' first
      | (simp [changesOnly_foldl]; done)
      | (split <;> try first
          | (rename_i h; have h := (congrArg (fun q => q.2.2.2) h).symm; dsimp only at h; subst h)
          | (rename_i h; have h := (congrArg (fun q => q.2.2) h).symm; dsimp only at h; subst h)
          | (rename_i h; have h := (congrArg (fun q => q.2) h).symm; dsimp only at h; subst h)
          | (rename_i h _; have h := (congrArg (fun q => q.2) h).symm; dsimp only at h; subst h))
      | dsimp only
      | refine (changesOnly_foldl _ _ _ fun b x => ?_).2 ?_) hl

@[simp] theorem Dev.updMvec_only {l : List Comp} {a : Dev} (x0 : Dev) (x1) (x2) (hl : [.mvec] ⊆ l) :
    changesOnly l a (Dev.updMvec x0 x1 x2) ↔ changesOnly l a x0 :=
  changesOnly.peel (k := [.mvec]) (by
    unfold Dev.updMvec
    repeat' first
      | (simp [changesOnly_foldl]; done)
      | (split <;> try first
          | (rename_i h; have h := (congrArg (fun q => q.2.2.2) h).symm; dsimp only at h; subst h)
          | (rename_i h; have h := (congrArg (fun q => q.2.2) h).symm; dsimp only at h; subst h)
          | (rename_i h; have h := (congrArg (fun q => q.2) h).symm; dsimp only at h; subst h)
          | (rename_i h _; have h := (congrArg (fun q => q.2) h).symm; dsimp only at h; subst h))
      | dsimp only
      | refine (changesOnly_foldl _ _ _ fun b x => ?_).2 ?_) hl

@[simp] theorem matvec_only {l : List Comp} {a : Dev} (x0) (x1 : Dev) (hl : [.hdr, .ctr, .isles, .mvec, .errm, .free] ⊆ l) :
    changesOnly l a (matvec x0 x1) ↔ changesOnly l a x1 :=
  changesOnly.peel (k := [.hdr, .ctr, .isles, .mvec, .errm, .free]) (by
    unfold matvec
    repeat' first
      | (simp [changesOnly_foldl]; done)
      | (split <;> try first
          | (rename_i h; have h := (congrArg (fun q => q.2.2.2) h).symm; dsimp only at h; subst h)
          | (rename_i h; have h := (congrArg (fun q => q.2.2) h).symm; dsimp only at h; subst h)
          | (rename_i h; have h := (congrArg (fun q => q.2) h).symm; dsimp only at h; subst h)
          | (rename_i h _; have h := (congrArg (fun q => q.2) h).symm; dsimp only at h; subst h))
      | dsimp only
      | refine (changesOnly_foldl _ _ _ fun b x => ?_).2 ?_) hl

@[simp] theorem matvecDone_only {l : List Comp} {a : Dev} (x0) (x1 : Dev) (hl : [.hdr, .ctr, .mem, .poison, .cores, .sigs, .mvec, .nwch] ⊆ l) :
    changesOnly l a (matvecDone x0 x1) ↔ changesOnly l a x1 :=
  changesOnly.peel (k := [.hdr, .ctr, .mem, .poison, .cores, .sigs, .mvec, .nwch]) (by
    unfold matvecDone
    repeat' first
      | (simp [changesOnly_foldl]; done)
      | (split <;> try first
          | (rename_i h; have h := (congrArg (fun q => q.2.2.2) h).symm; dsimp only at h; subst h)
          | (rename_i h; have h := (congrArg (fun q => q.2.2) h).symm; dsimp only at h; subst h)
          | (rename_i h; have h := (congrArg (fun q => q.2) h).symm; dsimp only at h; subst h)
          | (rename_i h _; have h := (congrArg (fun q => q.2) h).symm; dsimp only at h; subst h))
      | dsimp only
      | refine (changesOnly_foldl _ _ _ fun b x => ?_).2 ?_) hl

end Sys2Proof.Machine
end

