-- ==== Sys2Proof/Laws/OnlyWatch.lean ====
section
/-!
SUPPORT. The components that each operation of Machine/Watch.lean can change.
-/

namespace Sys2Proof.Machine

set_option linter.unusedSimpArgs false

open Sys2Proof.Safety

@[simp] theorem Dev.scaleFor_only {l : List Comp} {a : Dev} (x0 : Dev) (x1) (x2) (x3) (x4) (hl : [.free] ⊆ l) :
    changesOnly l a (Dev.scaleFor x0 x1 x2 x3 x4).2 ↔ changesOnly l a x0 :=
  changesOnly.peel (k := [.free]) (by
    unfold Dev.scaleFor
    repeat' first
      | (simp [changesOnly_foldl]; done)
      | (split <;> try first
          | (rename_i h; have h := (congrArg (fun q => q.2.2.2) h).symm; dsimp only at h; subst h)
          | (rename_i h; have h := (congrArg (fun q => q.2.2) h).symm; dsimp only at h; subst h)
          | (rename_i h; have h := (congrArg (fun q => q.2) h).symm; dsimp only at h; subst h)
          | (rename_i h _; have h := (congrArg (fun q => q.2) h).symm; dsimp only at h; subst h))
      | dsimp only
      | refine (changesOnly_foldl _ _ _ fun b x => ?_).2 ?_) hl

@[simp] theorem Dev.settle_only {l : List Comp} {a : Dev} (x0 : Dev) (x1) (x2) (hl : [.nwch, .free] ⊆ l) :
    changesOnly l a (Dev.settle x0 x1 x2) ↔ changesOnly l a x0 :=
  changesOnly.peel (k := [.nwch, .free]) (by
    unfold Dev.settle
    repeat' first
      | (simp [changesOnly_foldl]; done)
      | (split <;> try first
          | (rename_i h; have h := (congrArg (fun q => q.2.2.2) h).symm; dsimp only at h; subst h)
          | (rename_i h; have h := (congrArg (fun q => q.2.2) h).symm; dsimp only at h; subst h)
          | (rename_i h; have h := (congrArg (fun q => q.2) h).symm; dsimp only at h; subst h)
          | (rename_i h _; have h := (congrArg (fun q => q.2) h).symm; dsimp only at h; subst h))
      | dsimp only
      | refine (changesOnly_foldl _ _ _ fun b x => ?_).2 ?_) hl

@[simp] theorem Dev.settleWaiting_only {l : List Comp} {a : Dev} (x0 : Dev) (x1) (hl : [.nwch, .free] ⊆ l) :
    changesOnly l a (Dev.settleWaiting x0 x1) ↔ changesOnly l a x0 :=
  changesOnly.peel (k := [.nwch, .free]) (by
    unfold Dev.settleWaiting
    repeat' first
      | (simp [changesOnly_foldl]; done)
      | (split <;> try first
          | (rename_i h; have h := (congrArg (fun q => q.2.2.2) h).symm; dsimp only at h; subst h)
          | (rename_i h; have h := (congrArg (fun q => q.2.2) h).symm; dsimp only at h; subst h)
          | (rename_i h; have h := (congrArg (fun q => q.2) h).symm; dsimp only at h; subst h)
          | (rename_i h _; have h := (congrArg (fun q => q.2) h).symm; dsimp only at h; subst h))
      | dsimp only
      | refine (changesOnly_foldl _ _ _ fun b x => ?_).2 ?_) hl

@[simp] theorem Dev.report_only {l : List Comp} {a : Dev} (x0 : Dev) (x1) (x2) (hl : [.ctr, .nwch, .free] ⊆ l) :
    changesOnly l a (Dev.report x0 x1 x2) ↔ changesOnly l a x0 :=
  changesOnly.peel (k := [.ctr, .nwch, .free]) (by
    unfold Dev.report
    repeat' first
      | (simp [changesOnly_foldl]; done)
      | (split <;> try first
          | (rename_i h; have h := (congrArg (fun q => q.2.2.2) h).symm; dsimp only at h; subst h)
          | (rename_i h; have h := (congrArg (fun q => q.2.2) h).symm; dsimp only at h; subst h)
          | (rename_i h; have h := (congrArg (fun q => q.2) h).symm; dsimp only at h; subst h)
          | (rename_i h _; have h := (congrArg (fun q => q.2) h).symm; dsimp only at h; subst h))
      | dsimp only
      | refine (changesOnly_foldl _ _ _ fun b x => ?_).2 ?_) hl

@[simp] theorem scaleReport_only {l : List Comp} {a : Dev} (x0) (x1) (x2 : Dev) (hl : [.ctr, .nwch, .free] ⊆ l) :
    changesOnly l a (scaleReport x0 x1 x2) ↔ changesOnly l a x2 :=
  changesOnly.peel (k := [.ctr, .nwch, .free]) (by
    unfold scaleReport
    repeat' first
      | (simp [changesOnly_foldl]; done)
      | (split <;> try first
          | (rename_i h; have h := (congrArg (fun q => q.2.2.2) h).symm; dsimp only at h; subst h)
          | (rename_i h; have h := (congrArg (fun q => q.2.2) h).symm; dsimp only at h; subst h)
          | (rename_i h; have h := (congrArg (fun q => q.2) h).symm; dsimp only at h; subst h)
          | (rename_i h _; have h := (congrArg (fun q => q.2) h).symm; dsimp only at h; subst h))
      | dsimp only
      | refine (changesOnly_foldl _ _ _ fun b x => ?_).2 ?_) hl

@[simp] theorem conversionPass_only {l : List Comp} {a : Dev} (x0) (x1) (x2 : Dev) (hl : [.hdr, .ctr, .mem, .poison, .isles, .cores, .sigs, .nwch] ⊆ l) :
    changesOnly l a (conversionPass x0 x1 x2) ↔ changesOnly l a x2 :=
  changesOnly.peel (k := [.hdr, .ctr, .mem, .poison, .isles, .cores, .sigs, .nwch]) (by
    unfold conversionPass
    repeat' first
      | (simp [changesOnly_foldl]; done)
      | (split <;> try first
          | (rename_i h; have h := (congrArg (fun q => q.2.2.2) h).symm; dsimp only at h; subst h)
          | (rename_i h; have h := (congrArg (fun q => q.2.2) h).symm; dsimp only at h; subst h)
          | (rename_i h; have h := (congrArg (fun q => q.2) h).symm; dsimp only at h; subst h)
          | (rename_i h _; have h := (congrArg (fun q => q.2) h).symm; dsimp only at h; subst h))
      | dsimp only
      | refine (changesOnly_foldl _ _ _ fun b x => ?_).2 ?_) hl

@[simp] theorem Dev.roll_only {l : List Comp} {a : Dev} (x0 : Dev) (x1) (x2) (hl : [.hdr, .ctr, .nwch, .free] ⊆ l) :
    changesOnly l a (Dev.roll x0 x1 x2) ↔ changesOnly l a x0 :=
  changesOnly.peel (k := [.hdr, .ctr, .nwch, .free]) (by
    unfold Dev.roll
    repeat' first
      | (simp [changesOnly_foldl]; done)
      | (split <;> try first
          | (rename_i h; have h := (congrArg (fun q => q.2.2.2) h).symm; dsimp only at h; subst h)
          | (rename_i h; have h := (congrArg (fun q => q.2.2) h).symm; dsimp only at h; subst h)
          | (rename_i h; have h := (congrArg (fun q => q.2) h).symm; dsimp only at h; subst h)
          | (rename_i h _; have h := (congrArg (fun q => q.2) h).symm; dsimp only at h; subst h))
      | dsimp only
      | refine (changesOnly_foldl _ _ _ fun b x => ?_).2 ?_) hl

@[simp] theorem scaleRoll_only {l : List Comp} {a : Dev} (x0) (x1) (x2 : Dev) (hl : [.hdr, .ctr, .nwch, .free] ⊆ l) :
    changesOnly l a (scaleRoll x0 x1 x2) ↔ changesOnly l a x2 :=
  changesOnly.peel (k := [.hdr, .ctr, .nwch, .free]) (by
    unfold scaleRoll
    repeat' first
      | (simp [changesOnly_foldl]; done)
      | (split <;> try first
          | (rename_i h; have h := (congrArg (fun q => q.2.2.2) h).symm; dsimp only at h; subst h)
          | (rename_i h; have h := (congrArg (fun q => q.2.2) h).symm; dsimp only at h; subst h)
          | (rename_i h; have h := (congrArg (fun q => q.2) h).symm; dsimp only at h; subst h)
          | (rename_i h _; have h := (congrArg (fun q => q.2) h).symm; dsimp only at h; subst h))
      | dsimp only
      | refine (changesOnly_foldl _ _ _ fun b x => ?_).2 ?_) hl

@[simp] theorem Dev.calibrate_only {l : List Comp} {a : Dev} (x0 : Dev) (x1) (x2) (hl : [.hdr, .ctr, .nwch] ⊆ l) :
    changesOnly l a (Dev.calibrate x0 x1 x2) ↔ changesOnly l a x0 :=
  changesOnly.peel (k := [.hdr, .ctr, .nwch]) (by
    unfold Dev.calibrate
    repeat' first
      | (simp [changesOnly_foldl]; done)
      | (split <;> try first
          | (rename_i h; have h := (congrArg (fun q => q.2.2.2) h).symm; dsimp only at h; subst h)
          | (rename_i h; have h := (congrArg (fun q => q.2.2) h).symm; dsimp only at h; subst h)
          | (rename_i h; have h := (congrArg (fun q => q.2) h).symm; dsimp only at h; subst h)
          | (rename_i h _; have h := (congrArg (fun q => q.2) h).symm; dsimp only at h; subst h))
      | dsimp only
      | refine (changesOnly_foldl _ _ _ fun b x => ?_).2 ?_) hl

@[simp] theorem Dev.writeEntry_only {l : List Comp} {a : Dev} (x0 : Dev) (x1) (x2) (x3) (hl : [.nwch] ⊆ l) :
    changesOnly l a (Dev.writeEntry x0 x1 x2 x3) ↔ changesOnly l a x0 :=
  changesOnly.peel (k := [.nwch]) (by
    unfold Dev.writeEntry
    repeat' first
      | (simp [changesOnly_foldl]; done)
      | (split <;> try first
          | (rename_i h; have h := (congrArg (fun q => q.2.2.2) h).symm; dsimp only at h; subst h)
          | (rename_i h; have h := (congrArg (fun q => q.2.2) h).symm; dsimp only at h; subst h)
          | (rename_i h; have h := (congrArg (fun q => q.2) h).symm; dsimp only at h; subst h)
          | (rename_i h _; have h := (congrArg (fun q => q.2) h).symm; dsimp only at h; subst h))
      | dsimp only
      | refine (changesOnly_foldl _ _ _ fun b x => ?_).2 ?_) hl

@[simp] theorem scCommand_only {l : List Comp} {a : Dev} (x0) (x1) (x2) (x3) (x4 : Dev) (hl : [.hdr, .ctr, .nwch, .free] ⊆ l) :
    changesOnly l a (scCommand x0 x1 x2 x3 x4).2 ↔ changesOnly l a x4 :=
  changesOnly.peel (k := [.hdr, .ctr, .nwch, .free]) (by
    unfold scCommand
    repeat' first
      | (simp [changesOnly_foldl]; done)
      | (split <;> try first
          | (rename_i h; have h := (congrArg (fun q => q.2.2.2) h).symm; dsimp only at h; subst h)
          | (rename_i h; have h := (congrArg (fun q => q.2.2) h).symm; dsimp only at h; subst h)
          | (rename_i h; have h := (congrArg (fun q => q.2) h).symm; dsimp only at h; subst h)
          | (rename_i h _; have h := (congrArg (fun q => q.2) h).symm; dsimp only at h; subst h))
      | dsimp only
      | refine (changesOnly_foldl _ _ _ fun b x => ?_).2 ?_) hl

@[simp] theorem scWindow_only {l : List Comp} {a : Dev} (x0) (x1) (x2) (x3 : Dev) (hl : [.hdr, .ctr, .regs, .parts, .nwch, .free] ⊆ l) :
    changesOnly l a (scWindow x0 x1 x2 x3) ↔ changesOnly l a x3 :=
  changesOnly.peel (k := [.hdr, .ctr, .regs, .parts, .nwch, .free]) (by
    unfold scWindow
    repeat' first
      | (simp [changesOnly_foldl]; done)
      | (split <;> try first
          | (rename_i h; have h := (congrArg (fun q => q.2.2.2) h).symm; dsimp only at h; subst h)
          | (rename_i h; have h := (congrArg (fun q => q.2.2) h).symm; dsimp only at h; subst h)
          | (rename_i h; have h := (congrArg (fun q => q.2) h).symm; dsimp only at h; subst h)
          | (rename_i h _; have h := (congrArg (fun q => q.2) h).symm; dsimp only at h; subst h))
      | dsimp only
      | refine (changesOnly_foldl _ _ _ fun b x => ?_).2 ?_
      | refine (Dev.privOnly_only _ _ _ _ _ (fun b => ?_) (by simp)).2 ?_
      | refine (Dev.through_only _ _ _ _ _ (fun b => ?_) (by simp)).2 ?_) hl

@[simp] theorem Dev.nwRefuse_only {l : List Comp} {a : Dev} (x0 : Dev) (x1) (x2) (x3) (hl : [.hdr, .nwch] ⊆ l) :
    changesOnly l a (Dev.nwRefuse x0 x1 x2 x3) ↔ changesOnly l a x0 :=
  changesOnly.peel (k := [.hdr, .nwch]) (by
    unfold Dev.nwRefuse
    repeat' first
      | (simp [changesOnly_foldl]; done)
      | (split <;> try first
          | (rename_i h; have h := (congrArg (fun q => q.2.2.2) h).symm; dsimp only at h; subst h)
          | (rename_i h; have h := (congrArg (fun q => q.2.2) h).symm; dsimp only at h; subst h)
          | (rename_i h; have h := (congrArg (fun q => q.2) h).symm; dsimp only at h; subst h)
          | (rename_i h _; have h := (congrArg (fun q => q.2) h).symm; dsimp only at h; subst h))
      | dsimp only
      | refine (changesOnly_foldl _ _ _ fun b x => ?_).2 ?_) hl

@[simp] theorem scOp_only {l : List Comp} {a : Dev} (x0) (x1 : Dev) (hl : [.hdr, .ctr, .mem, .poison, .cores, .sigs, .nwch, .tier, .free] ⊆ l) :
    changesOnly l a (scOp x0 x1) ↔ changesOnly l a x1 :=
  changesOnly.peel (k := [.hdr, .ctr, .mem, .poison, .cores, .sigs, .nwch, .tier, .free]) (by
    unfold scOp
    repeat' first
      | (simp [changesOnly_foldl]; done)
      | (split <;> try first
          | (rename_i h; have h := (congrArg (fun q => q.2.2.2) h).symm; dsimp only at h; subst h)
          | (rename_i h; have h := (congrArg (fun q => q.2.2) h).symm; dsimp only at h; subst h)
          | (rename_i h; have h := (congrArg (fun q => q.2) h).symm; dsimp only at h; subst h)
          | (rename_i h _; have h := (congrArg (fun q => q.2) h).symm; dsimp only at h; subst h))
      | dsimp only
      | refine (changesOnly_foldl _ _ _ fun b x => ?_).2 ?_) hl

@[simp] theorem nwSkip_only {l : List Comp} {a : Dev} (x0) (x1) (x2 : Dev) (hl : [.hdr, .parts, .nwch] ⊆ l) :
    changesOnly l a (nwSkip x0 x1 x2) ↔ changesOnly l a x2 :=
  changesOnly.peel (k := [.hdr, .parts, .nwch]) (by
    unfold nwSkip
    repeat' first
      | (simp [changesOnly_foldl]; done)
      | (split <;> try first
          | (rename_i h; have h := (congrArg (fun q => q.2.2.2) h).symm; dsimp only at h; subst h)
          | (rename_i h; have h := (congrArg (fun q => q.2.2) h).symm; dsimp only at h; subst h)
          | (rename_i h; have h := (congrArg (fun q => q.2) h).symm; dsimp only at h; subst h)
          | (rename_i h _; have h := (congrArg (fun q => q.2) h).symm; dsimp only at h; subst h))
      | dsimp only
      | refine (changesOnly_foldl _ _ _ fun b x => ?_).2 ?_) hl

end Sys2Proof.Machine
end

