-- ==== Sys2Proof/Laws/OnlyOpt.lean ====
section
/-!
SUPPORT. The components that each operation of Machine/Opt.lean can change.
-/

namespace Sys2Proof.Machine

set_option linter.unusedSimpArgs false

open Sys2Proof.Safety

@[simp] theorem Dev.readArr_only {l : List Comp} {a : Dev} (x0 : Dev) (x1) (x2) (x3) (hl : [.hdr, .ctr, .tier] ⊆ l) :
    changesOnly l a (Dev.readArr x0 x1 x2 x3).2.2.2 ↔ changesOnly l a x0 :=
  changesOnly.peel (k := [.hdr, .ctr, .tier]) (by
    unfold Dev.readArr
    repeat' first
      | (simp [changesOnly_foldl]; done)
      | (split <;> try first
          | (rename_i h; have h := (congrArg (fun q => q.2.2.2) h).symm; dsimp only at h; subst h)
          | (rename_i h; have h := (congrArg (fun q => q.2.2) h).symm; dsimp only at h; subst h)
          | (rename_i h; have h := (congrArg (fun q => q.2) h).symm; dsimp only at h; subst h)
          | (rename_i h _; have h := (congrArg (fun q => q.2) h).symm; dsimp only at h; subst h))
      | dsimp only
      | refine (changesOnly_foldl _ _ _ fun b x => ?_).2 ?_) hl

@[simp] theorem Dev.updOp_only {l : List Comp} {a : Dev} (x0 : Dev) (x1) (x2) (hl : [.opte] ⊆ l) :
    changesOnly l a (Dev.updOp x0 x1 x2) ↔ changesOnly l a x0 :=
  changesOnly.peel (k := [.opte]) (by
    unfold Dev.updOp
    repeat' first
      | (simp [changesOnly_foldl]; done)
      | (split <;> try first
          | (rename_i h; have h := (congrArg (fun q => q.2.2.2) h).symm; dsimp only at h; subst h)
          | (rename_i h; have h := (congrArg (fun q => q.2.2) h).symm; dsimp only at h; subst h)
          | (rename_i h; have h := (congrArg (fun q => q.2) h).symm; dsimp only at h; subst h)
          | (rename_i h _; have h := (congrArg (fun q => q.2) h).symm; dsimp only at h; subst h))
      | dsimp only
      | refine (changesOnly_foldl _ _ _ fun b x => ?_).2 ?_) hl

@[simp] theorem Dev.opCnt_only {l : List Comp} {a : Dev} (x0 : Dev) (x1) (x2) (x3) (hl : [.ctr] ⊆ l) :
    changesOnly l a (Dev.opCnt x0 x1 x2 x3) ↔ changesOnly l a x0 :=
  changesOnly.peel (k := [.ctr]) (by
    unfold Dev.opCnt
    repeat' first
      | (simp [changesOnly_foldl]; done)
      | (split <;> try first
          | (rename_i h; have h := (congrArg (fun q => q.2.2.2) h).symm; dsimp only at h; subst h)
          | (rename_i h; have h := (congrArg (fun q => q.2.2) h).symm; dsimp only at h; subst h)
          | (rename_i h; have h := (congrArg (fun q => q.2) h).symm; dsimp only at h; subst h)
          | (rename_i h _; have h := (congrArg (fun q => q.2) h).symm; dsimp only at h; subst h))
      | dsimp only
      | refine (changesOnly_foldl _ _ _ fun b x => ?_).2 ?_) hl

@[simp] theorem Dev.opUnheld_only {l : List Comp} {a : Dev} (x0 : Dev) (x1) (hl : [.ctr, .opte, .free] ⊆ l) :
    changesOnly l a (Dev.opUnheld x0 x1) ↔ changesOnly l a x0 :=
  changesOnly.peel (k := [.ctr, .opte, .free]) (by
    unfold Dev.opUnheld
    repeat' first
      | (simp [changesOnly_foldl]; done)
      | (split <;> try first
          | (rename_i h; have h := (congrArg (fun q => q.2.2.2) h).symm; dsimp only at h; subst h)
          | (rename_i h; have h := (congrArg (fun q => q.2.2) h).symm; dsimp only at h; subst h)
          | (rename_i h; have h := (congrArg (fun q => q.2) h).symm; dsimp only at h; subst h)
          | (rename_i h _; have h := (congrArg (fun q => q.2) h).symm; dsimp only at h; subst h))
      | dsimp only
      | refine (changesOnly_foldl _ _ _ fun b x => ?_).2 ?_) hl

@[simp] theorem Dev.opRefuse_only {l : List Comp} {a : Dev} (x0 : Dev) (x1) (x2) (x3) (hl : [.hdr, .ctr, .opte, .free] ⊆ l) :
    changesOnly l a (Dev.opRefuse x0 x1 x2 x3) ↔ changesOnly l a x0 :=
  changesOnly.peel (k := [.hdr, .ctr, .opte, .free]) (by
    unfold Dev.opRefuse
    repeat' first
      | (simp [changesOnly_foldl]; done)
      | (split <;> try first
          | (rename_i h; have h := (congrArg (fun q => q.2.2.2) h).symm; dsimp only at h; subst h)
          | (rename_i h; have h := (congrArg (fun q => q.2.2) h).symm; dsimp only at h; subst h)
          | (rename_i h; have h := (congrArg (fun q => q.2) h).symm; dsimp only at h; subst h)
          | (rename_i h _; have h := (congrArg (fun q => q.2) h).symm; dsimp only at h; subst h))
      | dsimp only
      | refine (changesOnly_foldl _ _ _ fun b x => ?_).2 ?_) hl

@[simp] theorem Dev.opPop_only {l : List Comp} {a : Dev} (x0 : Dev) (x1) (hl : [.opte] ⊆ l) :
    changesOnly l a (Dev.opPop x0 x1) ↔ changesOnly l a x0 :=
  changesOnly.peel (k := [.opte]) (by
    unfold Dev.opPop
    repeat' first
      | (simp [changesOnly_foldl]; done)
      | (split <;> try first
          | (rename_i h; have h := (congrArg (fun q => q.2.2.2) h).symm; dsimp only at h; subst h)
          | (rename_i h; have h := (congrArg (fun q => q.2.2) h).symm; dsimp only at h; subst h)
          | (rename_i h; have h := (congrArg (fun q => q.2) h).symm; dsimp only at h; subst h)
          | (rename_i h _; have h := (congrArg (fun q => q.2) h).symm; dsimp only at h; subst h))
      | dsimp only
      | refine (changesOnly_foldl _ _ _ fun b x => ?_).2 ?_) hl

@[simp] theorem Dev.opSignal_only {l : List Comp} {a : Dev} (x0 : Dev) (x1) (x2) (x3) (hl : [.sigs] ⊆ l) :
    changesOnly l a (Dev.opSignal x0 x1 x2 x3) ↔ changesOnly l a x0 :=
  changesOnly.peel (k := [.sigs]) (by
    unfold Dev.opSignal
    repeat' first
      | (simp [changesOnly_foldl]; done)
      | (split <;> try first
          | (rename_i h; have h := (congrArg (fun q => q.2.2.2) h).symm; dsimp only at h; subst h)
          | (rename_i h; have h := (congrArg (fun q => q.2.2) h).symm; dsimp only at h; subst h)
          | (rename_i h; have h := (congrArg (fun q => q.2) h).symm; dsimp only at h; subst h)
          | (rename_i h _; have h := (congrArg (fun q => q.2) h).symm; dsimp only at h; subst h))
      | dsimp only
      | refine (changesOnly_foldl _ _ _ fun b x => ?_).2 ?_) hl

@[simp] theorem Dev.opFinish_only {l : List Comp} {a : Dev} (x0 : Dev) (x1) (x2) (x3) (x4) (hl : [.ctr, .sigs, .opte] ⊆ l) :
    changesOnly l a (Dev.opFinish x0 x1 x2 x3 x4) ↔ changesOnly l a x0 :=
  changesOnly.peel (k := [.ctr, .sigs, .opte]) (by
    unfold Dev.opFinish
    repeat' first
      | (simp [changesOnly_foldl]; done)
      | (split <;> try first
          | (rename_i h; have h := (congrArg (fun q => q.2.2.2) h).symm; dsimp only at h; subst h)
          | (rename_i h; have h := (congrArg (fun q => q.2.2) h).symm; dsimp only at h; subst h)
          | (rename_i h; have h := (congrArg (fun q => q.2) h).symm; dsimp only at h; subst h)
          | (rename_i h _; have h := (congrArg (fun q => q.2) h).symm; dsimp only at h; subst h))
      | dsimp only
      | refine (changesOnly_foldl _ _ _ fun b x => ?_).2 ?_) hl

@[simp] theorem Dev.prepareAll_only {l : List Comp} {a : Dev} (x0 : Dev) (x1) (x2) (x3) (x4) (hl : [.ctr, .mem, .poison, .isles, .tier] ⊆ l) :
    changesOnly l a (Dev.prepareAll x0 x1 x2 x3 x4).2 ↔ changesOnly l a x0 :=
  changesOnly.peel (k := [.ctr, .mem, .poison, .isles, .tier]) (by
    unfold Dev.prepareAll
    repeat' first
      | (simp [changesOnly_foldl]; done)
      | (split <;> try first
          | (rename_i h; have h := (congrArg (fun q => q.2.2.2) h).symm; dsimp only at h; subst h)
          | (rename_i h; have h := (congrArg (fun q => q.2.2) h).symm; dsimp only at h; subst h)
          | (rename_i h; have h := (congrArg (fun q => q.2) h).symm; dsimp only at h; subst h)
          | (rename_i h _; have h := (congrArg (fun q => q.2) h).symm; dsimp only at h; subst h))
      | dsimp only
      | refine (changesOnly_foldl _ _ _ fun b x => ?_).2 ?_
      | (simp (maxDischargeDepth := 6) [changesOnly_foldl, changesOnly_foldl_1, changesOnly_foldl_2, changesOnly_foldl_22]; done)
      | refine (changesOnly_foldl_2 _ _ _ fun b x => ?_).2 ?_
      | refine (changesOnly_foldl_22 _ _ _ fun b x => ?_).2 ?_
      | refine (changesOnly_foldl_1 _ _ _ fun b x => ?_).2 ?_) hl

@[simp] theorem readArrs_only {l : List Comp} {a : Dev} (x0) (x1) (x2 : Dev) (hl : [.hdr, .ctr, .tier] ⊆ l) :
    changesOnly l a (readArrs x0 x1 x2).2.2 ↔ changesOnly l a x2 :=
  changesOnly.peel (k := [.hdr, .ctr, .tier]) (by
    have key : ∀ x1, ∀ (x0) (x2 : Dev) (a : Dev), changesOnly [.hdr, .ctr, .tier] a (readArrs x0 x1 x2).2.2 ↔ changesOnly [.hdr, .ctr, .tier] a x2 := by
      intro x1
      induction x1 with
      | nil => intro x0 x2 a; simp [readArrs]
      | cons y ys ih =>
        intro x0 x2 a
        unfold readArrs
        repeat' first
          | (simp [*, changesOnly_foldl]; done)
          | (split <;> try first
            | (rename_i h; have h := (congrArg (fun q => q.2.2.2) h).symm; dsimp only at h; subst h)
            | (rename_i h; have h := (congrArg (fun q => q.2.2) h).symm; dsimp only at h; subst h)
            | (rename_i h; have h := (congrArg (fun q => q.2) h).symm; dsimp only at h; subst h)
            | (rename_i h _; have h := (congrArg (fun q => q.2) h).symm; dsimp only at h; subst h))
          | dsimp only
          | refine (changesOnly_foldl _ _ _ fun b x => ?_).2 ?_
    exact (key x1 x0 x2 x2).2 (changesOnly_self _ _)) hl

@[simp] theorem Dev.readBadVa_only {l : List Comp} {a : Dev} (x0 : Dev) (x1) (x2) (x3) (hl : [.hdr, .ctr, .errm] ⊆ l) :
    changesOnly l a (Dev.readBadVa x0 x1 x2 x3) ↔ changesOnly l a x0 :=
  changesOnly.peel (k := [.hdr, .ctr, .errm]) (by
    unfold Dev.readBadVa
    repeat' first
      | (simp [changesOnly_foldl]; done)
      | (split <;> try first
          | (rename_i h; have h := (congrArg (fun q => q.2.2.2) h).symm; dsimp only at h; subst h)
          | (rename_i h; have h := (congrArg (fun q => q.2.2) h).symm; dsimp only at h; subst h)
          | (rename_i h; have h := (congrArg (fun q => q.2) h).symm; dsimp only at h; subst h)
          | (rename_i h _; have h := (congrArg (fun q => q.2) h).symm; dsimp only at h; subst h))
      | dsimp only
      | refine (changesOnly_foldl _ _ _ fun b x => ?_).2 ?_) hl

@[simp] theorem optIssue_only {l : List Comp} {a : Dev} (x0) (x1) (x2) (x3 : Dev) (hl : [.hdr, .ctr, .mem, .poison, .isles, .sigs, .opte, .tier, .errm, .free] ⊆ l) :
    changesOnly l a (optIssue x0 x1 x2 x3) ↔ changesOnly l a x3 :=
  changesOnly.peel (k := [.hdr, .ctr, .mem, .poison, .isles, .sigs, .opte, .tier, .errm, .free]) (by
    unfold optIssue
    repeat' first
      | (simp [changesOnly_foldl]; done)
      | (split <;> try first
          | (rename_i h; have h := (congrArg (fun q => q.2.2.2) h).symm; dsimp only at h; subst h)
          | (rename_i h; have h := (congrArg (fun q => q.2.2) h).symm; dsimp only at h; subst h)
          | (rename_i h; have h := (congrArg (fun q => q.2) h).symm; dsimp only at h; subst h)
          | (rename_i h _; have h := (congrArg (fun q => q.2) h).symm; dsimp only at h; subst h))
      | dsimp only
      | refine (changesOnly_foldl _ _ _ fun b x => ?_).2 ?_) hl

@[simp] theorem optCompare_only {l : List Comp} {a : Dev} (x0) (x1) (x2) (x3 : Dev) (hl : [.hdr, .ctr, .mem, .poison, .isles, .sigs, .opte, .tier, .free] ⊆ l) :
    changesOnly l a (optCompare x0 x1 x2 x3) ↔ changesOnly l a x3 :=
  changesOnly.peel (k := [.hdr, .ctr, .mem, .poison, .isles, .sigs, .opte, .tier, .free]) (by
    unfold optCompare
    repeat' first
      | (simp [changesOnly_foldl]; done)
      | (split <;> try first
          | (rename_i h; have h := (congrArg (fun q => q.2.2.2) h).symm; dsimp only at h; subst h)
          | (rename_i h; have h := (congrArg (fun q => q.2.2) h).symm; dsimp only at h; subst h)
          | (rename_i h; have h := (congrArg (fun q => q.2) h).symm; dsimp only at h; subst h)
          | (rename_i h _; have h := (congrArg (fun q => q.2) h).symm; dsimp only at h; subst h))
      | dsimp only
      | refine (changesOnly_foldl _ _ _ fun b x => ?_).2 ?_) hl

@[simp] theorem optHead_only {l : List Comp} {a : Dev} (c) (op) (run) (d : Dev) (hf : ∀ i p x b, changesOnly l b (run i p x b))
    (hl : [.opte, .sigs, .hdr, .ctr, .free] ⊆ l) : changesOnly l a (optHead c op run d) ↔ changesOnly l a d :=
  changesOnly.peel (k := l) (by
    have hopte : Comp.opte ∈ l := hl (by simp)
    have hsigs : Comp.sigs ∈ l := hl (by simp)
    have hhdr : Comp.hdr ∈ l := hl (by simp)
    have hctr : Comp.ctr ∈ l := hl (by simp)
    have hfree : Comp.free ∈ l := hl (by simp)
    have hg : ∀ i p x a b, changesOnly l a (run i p x b) ↔ changesOnly l a b := fun i p x a b => (hf i p x b).peel fun _ h => h
    unfold optHead
    repeat' first
      | (simp [hg, hopte, hsigs, hhdr, hctr, hfree]; done)
      | (split <;> try first
          | (rename_i h; have h := (congrArg (fun q => q.2) h).symm; dsimp only at h; subst h))
      | dsimp only) (fun _ h => h)


@[simp] theorem optDone_only {l : List Comp} {a : Dev} (x0) (x1 : Dev) (hl : [.hdr, .ctr, .mem, .poison, .isles, .cores, .sigs, .opte, .tier, .free] ⊆ l) :
    changesOnly l a (optDone x0 x1) ↔ changesOnly l a x1 :=
  changesOnly.peel (k := [.hdr, .ctr, .mem, .poison, .isles, .cores, .sigs, .opte, .tier, .free]) (by
    unfold optDone
    repeat' first
      | (simp [changesOnly_foldl]; done)
      | (split <;> try first
          | (rename_i h; have h := (congrArg (fun q => q.2.2.2) h).symm; dsimp only at h; subst h)
          | (rename_i h; have h := (congrArg (fun q => q.2.2) h).symm; dsimp only at h; subst h)
          | (rename_i h; have h := (congrArg (fun q => q.2) h).symm; dsimp only at h; subst h)
          | (rename_i h _; have h := (congrArg (fun q => q.2) h).symm; dsimp only at h; subst h))
      | dsimp only
      | refine (changesOnly_foldl _ _ _ fun b x => ?_).2 ?_) hl

@[simp] theorem optSkip_only {l : List Comp} {a : Dev} (x0) (x1) (x2 : Dev) (hl : [.hdr, .parts, .opte] ⊆ l) :
    changesOnly l a (optSkip x0 x1 x2) ↔ changesOnly l a x2 :=
  changesOnly.peel (k := [.hdr, .parts, .opte]) (by
    unfold optSkip
    repeat' first
      | (simp [changesOnly_foldl]; done)
      | (split <;> try first
          | (rename_i h; have h := (congrArg (fun q => q.2.2.2) h).symm; dsimp only at h; subst h)
          | (rename_i h; have h := (congrArg (fun q => q.2.2) h).symm; dsimp only at h; subst h)
          | (rename_i h; have h := (congrArg (fun q => q.2) h).symm; dsimp only at h; subst h)
          | (rename_i h _; have h := (congrArg (fun q => q.2) h).symm; dsimp only at h; subst h))
      | dsimp only
      | refine (changesOnly_foldl _ _ _ fun b x => ?_).2 ?_) hl

end Sys2Proof.Machine
end

