-- ==== Sys2Proof/Laws/OnlyRedOps.lean ====
section
/-!
SUPPORT. The components that each operation of Machine/RedOps.lean can change.
-/

namespace Sys2Proof.Machine

set_option linter.unusedSimpArgs false

open Sys2Proof.Safety

@[simp] theorem Dev.updRed_only {l : List Comp} {a : Dev} (x0 : Dev) (x1) (x2) (hl : [.rede] ⊆ l) :
    changesOnly l a (Dev.updRed x0 x1 x2) ↔ changesOnly l a x0 :=
  changesOnly.peel (k := [.rede]) (by
    unfold Dev.updRed
    repeat' first
      | (simp [changesOnly_foldl]; done)
      | (split <;> try first
          | (rename_i h; have h := (congrArg (fun q => q.2.2.2) h).symm; dsimp only at h; subst h)
          | (rename_i h; have h := (congrArg (fun q => q.2.2) h).symm; dsimp only at h; subst h)
          | (rename_i h; have h := (congrArg (fun q => q.2) h).symm; dsimp only at h; subst h)
          | (rename_i h _; have h := (congrArg (fun q => q.2) h).symm; dsimp only at h; subst h))
      | dsimp only
      | refine (changesOnly_foldl _ _ _ fun b x => ?_).2 ?_) hl

@[simp] theorem Dev.redCnt_only {l : List Comp} {a : Dev} (x0 : Dev) (x1) (x2) (x3) (hl : [.ctr] ⊆ l) :
    changesOnly l a (Dev.redCnt x0 x1 x2 x3) ↔ changesOnly l a x0 :=
  changesOnly.peel (k := [.ctr]) (by
    unfold Dev.redCnt
    repeat' first
      | (simp [changesOnly_foldl]; done)
      | (split <;> try first
          | (rename_i h; have h := (congrArg (fun q => q.2.2.2) h).symm; dsimp only at h; subst h)
          | (rename_i h; have h := (congrArg (fun q => q.2.2) h).symm; dsimp only at h; subst h)
          | (rename_i h; have h := (congrArg (fun q => q.2) h).symm; dsimp only at h; subst h)
          | (rename_i h _; have h := (congrArg (fun q => q.2) h).symm; dsimp only at h; subst h))
      | dsimp only
      | refine (changesOnly_foldl _ _ _ fun b x => ?_).2 ?_) hl

@[simp] theorem Dev.readTable_only {l : List Comp} {a : Dev} (x0 : Dev) (x1) (x2) (x3) (x4) (hl : [.hdr, .ctr, .mem, .poison, .isles, .tier] ⊆ l) :
    changesOnly l a (Dev.readTable x0 x1 x2 x3 x4).2.2 ↔ changesOnly l a x0 :=
  changesOnly.peel (k := [.hdr, .ctr, .mem, .poison, .isles, .tier]) (by
    unfold Dev.readTable
    repeat' first
      | (simp [changesOnly_foldl]; done)
      | (split <;> try first
          | (rename_i h; have h := (congrArg (fun q => q.2.2.2) h).symm; dsimp only at h; subst h)
          | (rename_i h; have h := (congrArg (fun q => q.2.2) h).symm; dsimp only at h; subst h)
          | (rename_i h; have h := (congrArg (fun q => q.2) h).symm; dsimp only at h; subst h)
          | (rename_i h _; have h := (congrArg (fun q => q.2) h).symm; dsimp only at h; subst h))
      | dsimp only
      | refine (changesOnly_foldl _ _ _ fun b x => ?_).2 ?_) hl

@[simp] theorem Dev.redSrc_only {l : List Comp} {a : Dev} (x0 : Dev) (x1) (x2) (x3) (x4) (x5) (hl : [.hdr, .ctr, .tier, .errm] ⊆ l) :
    changesOnly l a (Dev.redSrc x0 x1 x2 x3 x4 x5).2 ↔ changesOnly l a x0 :=
  changesOnly.peel (k := [.hdr, .ctr, .tier, .errm]) (by
    unfold Dev.redSrc
    repeat' first
      | (simp [changesOnly_foldl]; done)
      | (split <;> try first
          | (rename_i h; have h := (congrArg (fun q => q.2.2.2) h).symm; dsimp only at h; subst h)
          | (rename_i h; have h := (congrArg (fun q => q.2.2) h).symm; dsimp only at h; subst h)
          | (rename_i h; have h := (congrArg (fun q => q.2) h).symm; dsimp only at h; subst h)
          | (rename_i h _; have h := (congrArg (fun q => q.2) h).symm; dsimp only at h; subst h))
      | dsimp only
      | refine (changesOnly_foldl _ _ _ fun b x => ?_).2 ?_) hl

@[simp] theorem Dev.redReady_only {l : List Comp} {a : Dev} (x0 : Dev) (x1) (x2) (x3) (x4) (x5) (hl : [.ctr, .mem, .poison, .isles, .tier] ⊆ l) :
    changesOnly l a (Dev.redReady x0 x1 x2 x3 x4 x5).2 ↔ changesOnly l a x0 :=
  changesOnly.peel (k := [.ctr, .mem, .poison, .isles, .tier]) (by
    unfold Dev.redReady
    repeat' first
      | (simp [changesOnly_foldl]; done)
      | (split <;> try first
          | (rename_i h; have h := (congrArg (fun q => q.2.2.2) h).symm; dsimp only at h; subst h)
          | (rename_i h; have h := (congrArg (fun q => q.2.2) h).symm; dsimp only at h; subst h)
          | (rename_i h; have h := (congrArg (fun q => q.2) h).symm; dsimp only at h; subst h)
          | (rename_i h _; have h := (congrArg (fun q => q.2) h).symm; dsimp only at h; subst h))
      | dsimp only
      | refine (changesOnly_foldl _ _ _ fun b x => ?_).2 ?_) hl

@[simp] theorem Dev.redPut_only {l : List Comp} {a : Dev} (x0 : Dev) (x1) (x2) (x3) (x4) (x5) (hl : [.hdr, .ctr, .mem, .poison, .cores, .tier] ⊆ l) :
    changesOnly l a (Dev.redPut x0 x1 x2 x3 x4 x5) ↔ changesOnly l a x0 :=
  changesOnly.peel (k := [.hdr, .ctr, .mem, .poison, .cores, .tier]) (by
    unfold Dev.redPut
    repeat' first
      | (simp [changesOnly_foldl]; done)
      | (split <;> try first
          | (rename_i h; have h := (congrArg (fun q => q.2.2.2) h).symm; dsimp only at h; subst h)
          | (rename_i h; have h := (congrArg (fun q => q.2.2) h).symm; dsimp only at h; subst h)
          | (rename_i h; have h := (congrArg (fun q => q.2) h).symm; dsimp only at h; subst h)
          | (rename_i h _; have h := (congrArg (fun q => q.2) h).symm; dsimp only at h; subst h))
      | dsimp only
      | refine (changesOnly_foldl _ _ _ fun b x => ?_).2 ?_) hl

@[simp] theorem Dev.redMark_only {l : List Comp} {a : Dev} (x0 : Dev) (x1) (x2) (x3) (x4) (x5) (hl : [.poison] ⊆ l) :
    changesOnly l a (Dev.redMark x0 x1 x2 x3 x4 x5) ↔ changesOnly l a x0 :=
  changesOnly.peel (k := [.poison]) (by
    unfold Dev.redMark
    repeat' first
      | (simp [changesOnly_foldl]; done)
      | (split <;> try first
          | (rename_i h; have h := (congrArg (fun q => q.2.2.2) h).symm; dsimp only at h; subst h)
          | (rename_i h; have h := (congrArg (fun q => q.2.2) h).symm; dsimp only at h; subst h)
          | (rename_i h; have h := (congrArg (fun q => q.2) h).symm; dsimp only at h; subst h)
          | (rename_i h _; have h := (congrArg (fun q => q.2) h).symm; dsimp only at h; subst h))
      | dsimp only
      | refine (changesOnly_foldl _ _ _ fun b x => ?_).2 ?_) hl

@[simp] theorem Dev.redStatus_only {l : List Comp} {a : Dev} (x0 : Dev) (x1) (x2) (x3) (x4) (hl : [.hdr, .ctr, .rede] ⊆ l) :
    changesOnly l a (Dev.redStatus x0 x1 x2 x3 x4) ↔ changesOnly l a x0 :=
  changesOnly.peel (k := [.hdr, .ctr, .rede]) (by
    unfold Dev.redStatus
    repeat' first
      | (simp [changesOnly_foldl]; done)
      | (split <;> try first
          | (rename_i h; have h := (congrArg (fun q => q.2.2.2) h).symm; dsimp only at h; subst h)
          | (rename_i h; have h := (congrArg (fun q => q.2.2) h).symm; dsimp only at h; subst h)
          | (rename_i h; have h := (congrArg (fun q => q.2) h).symm; dsimp only at h; subst h)
          | (rename_i h _; have h := (congrArg (fun q => q.2) h).symm; dsimp only at h; subst h))
      | dsimp only
      | refine (changesOnly_foldl _ _ _ fun b x => ?_).2 ?_) hl

@[simp] theorem Dev.redSignal_only {l : List Comp} {a : Dev} (x0 : Dev) (x1) (x2) (x3) (x4) (hl : [.sigs] ⊆ l) :
    changesOnly l a (Dev.redSignal x0 x1 x2 x3 x4) ↔ changesOnly l a x0 :=
  changesOnly.peel (k := [.sigs]) (by
    unfold Dev.redSignal
    repeat' first
      | (simp [changesOnly_foldl]; done)
      | (split <;> try first
          | (rename_i h; have h := (congrArg (fun q => q.2.2.2) h).symm; dsimp only at h; subst h)
          | (rename_i h; have h := (congrArg (fun q => q.2.2) h).symm; dsimp only at h; subst h)
          | (rename_i h; have h := (congrArg (fun q => q.2) h).symm; dsimp only at h; subst h)
          | (rename_i h _; have h := (congrArg (fun q => q.2) h).symm; dsimp only at h; subst h))
      | dsimp only
      | refine (changesOnly_foldl _ _ _ fun b x => ?_).2 ?_) hl

@[simp] theorem Dev.redEnd_only {l : List Comp} {a : Dev} (x0 : Dev) (x1) (x2) (x3) (hl : [.hdr, .ctr, .mem, .poison, .cores, .sigs, .rede, .tier] ⊆ l) :
    changesOnly l a (Dev.redEnd x0 x1 x2 x3) ↔ changesOnly l a x0 :=
  changesOnly.peel (k := [.hdr, .ctr, .mem, .poison, .cores, .sigs, .rede, .tier]) (by
    unfold Dev.redEnd
    repeat' first
      | (simp [changesOnly_foldl]; done)
      | (split <;> try first
          | (rename_i h; have h := (congrArg (fun q => q.2.2.2) h).symm; dsimp only at h; subst h)
          | (rename_i h; have h := (congrArg (fun q => q.2.2) h).symm; dsimp only at h; subst h)
          | (rename_i h; have h := (congrArg (fun q => q.2) h).symm; dsimp only at h; subst h)
          | (rename_i h _; have h := (congrArg (fun q => q.2) h).symm; dsimp only at h; subst h))
      | dsimp only
      | refine (changesOnly_foldl _ _ _ fun b x => ?_).2 ?_) hl

@[simp] theorem Dev.slotEnt_only {l : List Comp} {a : Dev} (x0 : Dev) (x1) (x2) (x3) (hl : [.hdr, .ctr, .mem, .poison, .isles, .tier] ⊆ l) :
    changesOnly l a (Dev.slotEnt x0 x1 x2 x3).2.2 ↔ changesOnly l a x0 :=
  changesOnly.peel (k := [.hdr, .ctr, .mem, .poison, .isles, .tier]) (by
    unfold Dev.slotEnt
    repeat' first
      | (simp [changesOnly_foldl]; done)
      | (split <;> try first
          | (rename_i h; have h := (congrArg (fun q => q.2.2.2) h).symm; dsimp only at h; subst h)
          | (rename_i h; have h := (congrArg (fun q => q.2.2) h).symm; dsimp only at h; subst h)
          | (rename_i h; have h := (congrArg (fun q => q.2) h).symm; dsimp only at h; subst h)
          | (rename_i h _; have h := (congrArg (fun q => q.2) h).symm; dsimp only at h; subst h))
      | dsimp only
      | refine (changesOnly_foldl _ _ _ fun b x => ?_).2 ?_) hl

@[simp] theorem Dev.updTokx_only {l : List Comp} {a : Dev} (x0 : Dev) (x1) (hl : [.tokx] ⊆ l) :
    changesOnly l a (Dev.updTokx x0 x1) ↔ changesOnly l a x0 :=
  changesOnly.peel (k := [.tokx]) (by
    unfold Dev.updTokx
    repeat' first
      | (simp [changesOnly_foldl]; done)
      | (split <;> try first
          | (rename_i h; have h := (congrArg (fun q => q.2.2.2) h).symm; dsimp only at h; subst h)
          | (rename_i h; have h := (congrArg (fun q => q.2.2) h).symm; dsimp only at h; subst h)
          | (rename_i h; have h := (congrArg (fun q => q.2) h).symm; dsimp only at h; subst h)
          | (rename_i h _; have h := (congrArg (fun q => q.2) h).symm; dsimp only at h; subst h))
      | dsimp only
      | refine (changesOnly_foldl _ _ _ fun b x => ?_).2 ?_) hl

@[simp] theorem Dev.tokCnt_only {l : List Comp} {a : Dev} (x0 : Dev) (x1) (x2) (x3) (x4) (hl : [.ctr] ⊆ l) :
    changesOnly l a (Dev.tokCnt x0 x1 x2 x3 x4) ↔ changesOnly l a x0 :=
  changesOnly.peel (k := [.ctr]) (by
    unfold Dev.tokCnt
    repeat' first
      | (simp [changesOnly_foldl]; done)
      | (split <;> try first
          | (rename_i h; have h := (congrArg (fun q => q.2.2.2) h).symm; dsimp only at h; subst h)
          | (rename_i h; have h := (congrArg (fun q => q.2.2) h).symm; dsimp only at h; subst h)
          | (rename_i h; have h := (congrArg (fun q => q.2) h).symm; dsimp only at h; subst h)
          | (rename_i h _; have h := (congrArg (fun q => q.2) h).symm; dsimp only at h; subst h))
      | dsimp only
      | refine (changesOnly_foldl _ _ _ fun b x => ?_).2 ?_) hl

@[simp] theorem Dev.tokMissing_only {l : List Comp} {a : Dev} (x0 : Dev) (x1) (x2) (hl : [.hdr, .ctr] ⊆ l) :
    changesOnly l a (Dev.tokMissing x0 x1 x2) ↔ changesOnly l a x0 :=
  changesOnly.peel (k := [.hdr, .ctr]) (by
    unfold Dev.tokMissing
    repeat' first
      | (simp [changesOnly_foldl]; done)
      | (split <;> try first
          | (rename_i h; have h := (congrArg (fun q => q.2.2.2) h).symm; dsimp only at h; subst h)
          | (rename_i h; have h := (congrArg (fun q => q.2.2) h).symm; dsimp only at h; subst h)
          | (rename_i h; have h := (congrArg (fun q => q.2) h).symm; dsimp only at h; subst h)
          | (rename_i h _; have h := (congrArg (fun q => q.2) h).symm; dsimp only at h; subst h))
      | dsimp only
      | refine (changesOnly_foldl _ _ _ fun b x => ?_).2 ?_) hl

@[simp] theorem Dev.slotDone_only {l : List Comp} {a : Dev} (x0 : Dev) (x1) (x2) (hl : [.hdr, .ctr, .mem, .poison, .cores, .sigs, .tokx, .tier] ⊆ l) :
    changesOnly l a (Dev.slotDone x0 x1 x2) ↔ changesOnly l a x0 :=
  changesOnly.peel (k := [.hdr, .ctr, .mem, .poison, .cores, .sigs, .tokx, .tier]) (by
    unfold Dev.slotDone
    repeat' first
      | (simp [changesOnly_foldl]; done)
      | (split <;> try first
          | (rename_i h; have h := (congrArg (fun q => q.2.2.2) h).symm; dsimp only at h; subst h)
          | (rename_i h; have h := (congrArg (fun q => q.2.2) h).symm; dsimp only at h; subst h)
          | (rename_i h; have h := (congrArg (fun q => q.2) h).symm; dsimp only at h; subst h)
          | (rename_i h _; have h := (congrArg (fun q => q.2) h).symm; dsimp only at h; subst h))
      | dsimp only
      | refine (changesOnly_foldl _ _ _ fun b x => ?_).2 ?_) hl

@[simp] theorem Dev.slotSettle_only {l : List Comp} {a : Dev} (x0 : Dev) (x1) (x2) (x3) (hl : [.hdr, .ctr, .mem, .poison, .cores, .sigs, .tokx, .tier] ⊆ l) :
    changesOnly l a (Dev.slotSettle x0 x1 x2 x3) ↔ changesOnly l a x0 :=
  changesOnly.peel (k := [.hdr, .ctr, .mem, .poison, .cores, .sigs, .tokx, .tier]) (by
    unfold Dev.slotSettle
    repeat' first
      | (simp [changesOnly_foldl]; done)
      | (split <;> try first
          | (rename_i h; have h := (congrArg (fun q => q.2.2.2) h).symm; dsimp only at h; subst h)
          | (rename_i h; have h := (congrArg (fun q => q.2.2) h).symm; dsimp only at h; subst h)
          | (rename_i h; have h := (congrArg (fun q => q.2) h).symm; dsimp only at h; subst h)
          | (rename_i h _; have h := (congrArg (fun q => q.2) h).symm; dsimp only at h; subst h))
      | dsimp only
      | refine (changesOnly_foldl _ _ _ fun b x => ?_).2 ?_) hl

@[simp] theorem Dev.slotsLost_only {l : List Comp} {a : Dev} (x0 : Dev) (x1) (hl : [.hdr, .ctr, .mem, .poison, .isles, .cores, .sigs, .tokx, .tier] ⊆ l) :
    changesOnly l a (Dev.slotsLost x0 x1) ↔ changesOnly l a x0 :=
  changesOnly.peel (k := [.hdr, .ctr, .mem, .poison, .isles, .cores, .sigs, .tokx, .tier]) (by
    unfold Dev.slotsLost
    repeat' first
      | (simp [changesOnly_foldl]; done)
      | (split <;> try first
          | (rename_i h; have h := (congrArg (fun q => q.2.2.2) h).symm; dsimp only at h; subst h)
          | (rename_i h; have h := (congrArg (fun q => q.2.2) h).symm; dsimp only at h; subst h)
          | (rename_i h; have h := (congrArg (fun q => q.2) h).symm; dsimp only at h; subst h)
          | (rename_i h _; have h := (congrArg (fun q => q.2) h).symm; dsimp only at h; subst h))
      | dsimp only
      | refine (changesOnly_foldl _ _ _ fun b x => ?_).2 ?_) hl

@[simp] theorem Dev.rowLost_only {l : List Comp} {a : Dev} (x0 : Dev) (x1) (x2) (x3) (hl : [.hdr, .ctr, .mem, .poison, .cores, .tier] ⊆ l) :
    changesOnly l a (Dev.rowLost x0 x1 x2 x3) ↔ changesOnly l a x0 :=
  changesOnly.peel (k := [.hdr, .ctr, .mem, .poison, .cores, .tier]) (by
    unfold Dev.rowLost
    repeat' first
      | (simp [changesOnly_foldl]; done)
      | (split <;> try first
          | (rename_i h; have h := (congrArg (fun q => q.2.2.2) h).symm; dsimp only at h; subst h)
          | (rename_i h; have h := (congrArg (fun q => q.2.2) h).symm; dsimp only at h; subst h)
          | (rename_i h; have h := (congrArg (fun q => q.2) h).symm; dsimp only at h; subst h)
          | (rename_i h _; have h := (congrArg (fun q => q.2) h).symm; dsimp only at h; subst h))
      | dsimp only
      | refine (changesOnly_foldl _ _ _ fun b x => ?_).2 ?_) hl

@[simp] theorem Dev.setRun_only {l : List Comp} {a : Dev} (x0 : Dev) (x1) (x2) (hl : [.rede] ⊆ l) :
    changesOnly l a (Dev.setRun x0 x1 x2) ↔ changesOnly l a x0 :=
  changesOnly.peel (k := [.rede]) (by
    unfold Dev.setRun
    repeat' first
      | (simp [changesOnly_foldl]; done)
      | (split <;> try first
          | (rename_i h; have h := (congrArg (fun q => q.2.2.2) h).symm; dsimp only at h; subst h)
          | (rename_i h; have h := (congrArg (fun q => q.2.2) h).symm; dsimp only at h; subst h)
          | (rename_i h; have h := (congrArg (fun q => q.2) h).symm; dsimp only at h; subst h)
          | (rename_i h _; have h := (congrArg (fun q => q.2) h).symm; dsimp only at h; subst h))
      | dsimp only
      | refine (changesOnly_foldl _ _ _ fun b x => ?_).2 ?_) hl

@[simp] theorem Dev.combEnd_only {l : List Comp} {a : Dev} (x0 : Dev) (x1) (x2) (x3) (hl : [.hdr, .ctr, .mem, .poison, .cores, .sigs, .rede, .tier] ⊆ l) :
    changesOnly l a (Dev.combEnd x0 x1 x2 x3) ↔ changesOnly l a x0 :=
  changesOnly.peel (k := [.hdr, .ctr, .mem, .poison, .cores, .sigs, .rede, .tier]) (by
    unfold Dev.combEnd
    repeat' first
      | (simp [changesOnly_foldl]; done)
      | (split <;> try first
          | (rename_i h; have h := (congrArg (fun q => q.2.2.2) h).symm; dsimp only at h; subst h)
          | (rename_i h; have h := (congrArg (fun q => q.2.2) h).symm; dsimp only at h; subst h)
          | (rename_i h; have h := (congrArg (fun q => q.2) h).symm; dsimp only at h; subst h)
          | (rename_i h _; have h := (congrArg (fun q => q.2) h).symm; dsimp only at h; subst h))
      | dsimp only
      | refine (changesOnly_foldl _ _ _ fun b x => ?_).2 ?_) hl

@[simp] theorem Dev.readBadAt_only {l : List Comp} {a : Dev} (x0 : Dev) (x1) (x2) (x3) (hl : [.hdr, .ctr, .errm] ⊆ l) :
    changesOnly l a (Dev.readBadAt x0 x1 x2 x3) ↔ changesOnly l a x0 :=
  changesOnly.peel (k := [.hdr, .ctr, .errm]) (by
    unfold Dev.readBadAt
    repeat' first
      | (simp [changesOnly_foldl]; done)
      | (split <;> try first
          | (rename_i h; have h := (congrArg (fun q => q.2.2.2) h).symm; dsimp only at h; subst h)
          | (rename_i h; have h := (congrArg (fun q => q.2.2) h).symm; dsimp only at h; subst h)
          | (rename_i h; have h := (congrArg (fun q => q.2) h).symm; dsimp only at h; subst h)
          | (rename_i h _; have h := (congrArg (fun q => q.2) h).symm; dsimp only at h; subst h))
      | dsimp only
      | refine (changesOnly_foldl _ _ _ fun b x => ?_).2 ?_) hl

@[simp] theorem Dev.combine_only {l : List Comp} {a : Dev} (x0 : Dev) (x1) (x2) (hl : [.hdr, .ctr, .mem, .poison, .isles, .cores, .sigs, .rede, .tier, .errm] ⊆ l) :
    changesOnly l a (Dev.combine x0 x1 x2) ↔ changesOnly l a x0 :=
  changesOnly.peel (k := [.hdr, .ctr, .mem, .poison, .isles, .cores, .sigs, .rede, .tier, .errm]) (by
    unfold Dev.combine
    repeat' first
      | (simp [changesOnly_foldl]; done)
      | (split <;> try first
          | (rename_i h; have h := (congrArg (fun q => q.2.2.2) h).symm; dsimp only at h; subst h)
          | (rename_i h; have h := (congrArg (fun q => q.2.2) h).symm; dsimp only at h; subst h)
          | (rename_i h; have h := (congrArg (fun q => q.2) h).symm; dsimp only at h; subst h)
          | (rename_i h _; have h := (congrArg (fun q => q.2) h).symm; dsimp only at h; subst h))
      | dsimp only
      | refine (changesOnly_foldl _ _ _ fun b x => ?_).2 ?_) hl

@[simp] theorem Dev.rowsLost_only {l : List Comp} {a : Dev} (x0 : Dev) (x1) (x2) (x3) (hl : [.hdr, .ctr, .mem, .poison, .isles, .cores, .sigs, .rede, .tier, .errm] ⊆ l) :
    changesOnly l a (Dev.rowsLost x0 x1 x2 x3) ↔ changesOnly l a x0 :=
  changesOnly.peel (k := [.hdr, .ctr, .mem, .poison, .isles, .cores, .sigs, .rede, .tier, .errm]) (by
    unfold Dev.rowsLost
    repeat' first
      | (simp [changesOnly_foldl]; done)
      | (split <;> try first
          | (rename_i h; have h := (congrArg (fun q => q.2.2.2) h).symm; dsimp only at h; subst h)
          | (rename_i h; have h := (congrArg (fun q => q.2.2) h).symm; dsimp only at h; subst h)
          | (rename_i h; have h := (congrArg (fun q => q.2) h).symm; dsimp only at h; subst h)
          | (rename_i h _; have h := (congrArg (fun q => q.2) h).symm; dsimp only at h; subst h))
      | dsimp only
      | refine (changesOnly_foldl _ _ _ fun b x => ?_).2 ?_
      | (simp (maxDischargeDepth := 6) [changesOnly_foldl]; done)) hl

@[simp] theorem Dev.engsLost_only {l : List Comp} {a : Dev} (x0 : Dev) (x1) (hl : [.hdr, .ctr, .mem, .poison, .isles, .cores, .sigs, .rede, .tokx, .tier, .errm] ⊆ l) :
    changesOnly l a (Dev.engsLost x0 x1) ↔ changesOnly l a x0 :=
  changesOnly.peel (k := [.hdr, .ctr, .mem, .poison, .isles, .cores, .sigs, .rede, .tokx, .tier, .errm]) (by
    unfold Dev.engsLost
    repeat' first
      | (simp [changesOnly_foldl]; done)
      | (split <;> try first
          | (rename_i h; have h := (congrArg (fun q => q.2.2.2) h).symm; dsimp only at h; subst h)
          | (rename_i h; have h := (congrArg (fun q => q.2.2) h).symm; dsimp only at h; subst h)
          | (rename_i h; have h := (congrArg (fun q => q.2) h).symm; dsimp only at h; subst h)
          | (rename_i h _; have h := (congrArg (fun q => q.2) h).symm; dsimp only at h; subst h))
      | dsimp only
      | refine (changesOnly_foldl _ _ _ fun b x => ?_).2 ?_) hl

end Sys2Proof.Machine
end

