-- ==== Sys2Proof/Laws/OnlyLost.lean ====
section
/-!
SUPPORT. The components that each operation of Machine/Lost.lean can change.
-/

namespace Sys2Proof.Machine

set_option linter.unusedSimpArgs false

open Sys2Proof.Safety

@[simp] theorem Dev.leasesLost_only {l : List Comp} {a : Dev} (x0 : Dev) (x1) (hl : [.ctr, .mem, .poison, .tier] ⊆ l) :
    changesOnly l a (Dev.leasesLost x0 x1) ↔ changesOnly l a x0 :=
  changesOnly.peel (k := [.ctr, .mem, .poison, .tier]) (by
    unfold Dev.leasesLost
    repeat' first
      | (simp [changesOnly_foldl]; done)
      | (split <;> try first
          | (rename_i h; have h := (congrArg (fun q => q.2.2.2) h).symm; dsimp only at h; subst h)
          | (rename_i h; have h := (congrArg (fun q => q.2.2) h).symm; dsimp only at h; subst h)
          | (rename_i h; have h := (congrArg (fun q => q.2) h).symm; dsimp only at h; subst h)
          | (rename_i h _; have h := (congrArg (fun q => q.2) h).symm; dsimp only at h; subst h))
      | dsimp only
      | refine (changesOnly_foldl _ _ _ fun b x => ?_).2 ?_
      | (simp (maxDischargeDepth := 6) [changesOnly_foldl]; done)) hl

@[simp] theorem Dev.peerLost_only {l : List Comp} {a : Dev} (x0 : Dev) (x1) (hl : [.hdr, .ctr, .mem, .poison, .isles, .cores, .sigs, .rede, .tokx, .tier, .errm] ⊆ l) :
    changesOnly l a (Dev.peerLost x0 x1) ↔ changesOnly l a x0 :=
  changesOnly.peel (k := [.hdr, .ctr, .mem, .poison, .isles, .cores, .sigs, .rede, .tokx, .tier, .errm]) (by
    unfold Dev.peerLost
    repeat' first
      | (simp [changesOnly_foldl]; done)
      | (split <;> try first
          | (rename_i h; have h := (congrArg (fun q => q.2.2.2) h).symm; dsimp only at h; subst h)
          | (rename_i h; have h := (congrArg (fun q => q.2.2) h).symm; dsimp only at h; subst h)
          | (rename_i h; have h := (congrArg (fun q => q.2) h).symm; dsimp only at h; subst h)
          | (rename_i h _; have h := (congrArg (fun q => q.2) h).symm; dsimp only at h; subst h))
      | dsimp only
      | refine (changesOnly_foldl _ _ _ fun b x => ?_).2 ?_) hl

@[simp] theorem Dev.allRemoteLost_only {l : List Comp} {a : Dev} (x0 : Dev) (hl : [.hdr, .ctr, .mem, .poison, .isles, .cores, .sigs, .rede, .tokx, .tier, .errm] ⊆ l) :
    changesOnly l a (Dev.allRemoteLost x0) ↔ changesOnly l a x0 :=
  changesOnly.peel (k := [.hdr, .ctr, .mem, .poison, .isles, .cores, .sigs, .rede, .tokx, .tier, .errm]) (by
    unfold Dev.allRemoteLost
    repeat' first
      | (simp [changesOnly_foldl]; done)
      | (split <;> try first
          | (rename_i h; have h := (congrArg (fun q => q.2.2.2) h).symm; dsimp only at h; subst h)
          | (rename_i h; have h := (congrArg (fun q => q.2.2) h).symm; dsimp only at h; subst h)
          | (rename_i h; have h := (congrArg (fun q => q.2) h).symm; dsimp only at h; subst h)
          | (rename_i h _; have h := (congrArg (fun q => q.2) h).symm; dsimp only at h; subst h))
      | dsimp only
      | refine (changesOnly_foldl _ _ _ fun b x => ?_).2 ?_) hl

end Sys2Proof.Machine
end

