-- ==== Sys2Proof/Laws/OnlyFabOps.lean ====
section
/-!
SUPPORT. The components that each operation of Machine/FabOps.lean can change.
-/

namespace Sys2Proof.Machine

set_option linter.unusedSimpArgs false

open Sys2Proof.Safety

@[simp] theorem Dev.setSub_only {l : List Comp} {a : Dev} (x0 : Dev) (x1) (x2) (hl : [.eth] ⊆ l) :
    changesOnly l a (Dev.setSub x0 x1 x2) ↔ changesOnly l a x0 :=
  changesOnly.peel (k := [.eth]) (by
    unfold Dev.setSub
    repeat' first
      | (simp [changesOnly_foldl]; done)
      | (split <;> try first
          | (rename_i h; have h := (congrArg (fun q => q.2.2.2) h).symm; dsimp only at h; subst h)
          | (rename_i h; have h := (congrArg (fun q => q.2.2) h).symm; dsimp only at h; subst h)
          | (rename_i h; have h := (congrArg (fun q => q.2) h).symm; dsimp only at h; subst h)
          | (rename_i h _; have h := (congrArg (fun q => q.2) h).symm; dsimp only at h; subst h))
      | dsimp only
      | refine (changesOnly_foldl _ _ _ fun b x => ?_).2 ?_) hl

@[simp] theorem Dev.updSub_only {l : List Comp} {a : Dev} (x0 : Dev) (x1) (x2) (hl : [.eth] ⊆ l) :
    changesOnly l a (Dev.updSub x0 x1 x2) ↔ changesOnly l a x0 :=
  changesOnly.peel (k := [.eth]) (by
    unfold Dev.updSub
    repeat' first
      | (simp [changesOnly_foldl]; done)
      | (split <;> try first
          | (rename_i h; have h := (congrArg (fun q => q.2.2.2) h).symm; dsimp only at h; subst h)
          | (rename_i h; have h := (congrArg (fun q => q.2.2) h).symm; dsimp only at h; subst h)
          | (rename_i h; have h := (congrArg (fun q => q.2) h).symm; dsimp only at h; subst h)
          | (rename_i h _; have h := (congrArg (fun q => q.2) h).symm; dsimp only at h; subst h))
      | dsimp only
      | refine (changesOnly_foldl _ _ _ fun b x => ?_).2 ?_) hl

@[simp] theorem Dev.ecnt_only {l : List Comp} {a : Dev} (x0 : Dev) (x1) (x2) (x3) (x4) (hl : [.ctr] ⊆ l) :
    changesOnly l a (Dev.ecnt x0 x1 x2 x3 x4) ↔ changesOnly l a x0 :=
  changesOnly.peel (k := [.ctr]) (by
    unfold Dev.ecnt
    repeat' first
      | (simp [changesOnly_foldl]; done)
      | (split <;> try first
          | (rename_i h; have h := (congrArg (fun q => q.2.2.2) h).symm; dsimp only at h; subst h)
          | (rename_i h; have h := (congrArg (fun q => q.2.2) h).symm; dsimp only at h; subst h)
          | (rename_i h; have h := (congrArg (fun q => q.2) h).symm; dsimp only at h; subst h)
          | (rename_i h _; have h := (congrArg (fun q => q.2) h).symm; dsimp only at h; subst h))
      | dsimp only
      | refine (changesOnly_foldl _ _ _ fun b x => ?_).2 ?_) hl

@[simp] theorem Dev.pfcOut_only {l : List Comp} {a : Dev} (x0 : Dev) (x1) (x2) (x3) (hl : [.ctr, .eth, .out] ⊆ l) :
    changesOnly l a (Dev.pfcOut x0 x1 x2 x3) ↔ changesOnly l a x0 :=
  changesOnly.peel (k := [.ctr, .eth, .out]) (by
    unfold Dev.pfcOut
    repeat' first
      | (simp [changesOnly_foldl]; done)
      | (split <;> try first
          | (rename_i h; have h := (congrArg (fun q => q.2.2.2) h).symm; dsimp only at h; subst h)
          | (rename_i h; have h := (congrArg (fun q => q.2.2) h).symm; dsimp only at h; subst h)
          | (rename_i h; have h := (congrArg (fun q => q.2) h).symm; dsimp only at h; subst h)
          | (rename_i h _; have h := (congrArg (fun q => q.2) h).symm; dsimp only at h; subst h))
      | dsimp only
      | refine (changesOnly_foldl _ _ _ fun b x => ?_).2 ?_) hl

@[simp] theorem Dev.pfcCheck_only {l : List Comp} {a : Dev} (x0 : Dev) (x1) (x2) (hl : [.ctr, .eth, .out] ⊆ l) :
    changesOnly l a (Dev.pfcCheck x0 x1 x2) ↔ changesOnly l a x0 :=
  changesOnly.peel (k := [.ctr, .eth, .out]) (by
    unfold Dev.pfcCheck
    repeat' first
      | (simp [changesOnly_foldl]; done)
      | (split <;> try first
          | (rename_i h; have h := (congrArg (fun q => q.2.2.2) h).symm; dsimp only at h; subst h)
          | (rename_i h; have h := (congrArg (fun q => q.2.2) h).symm; dsimp only at h; subst h)
          | (rename_i h; have h := (congrArg (fun q => q.2) h).symm; dsimp only at h; subst h)
          | (rename_i h _; have h := (congrArg (fun q => q.2) h).symm; dsimp only at h; subst h))
      | dsimp only
      | refine (changesOnly_foldl _ _ _ fun b x => ?_).2 ?_) hl

@[simp] theorem Dev.pfcRelease_only {l : List Comp} {a : Dev} (x0 : Dev) (x1) (x2) (hl : [.ctr, .eth, .out] ⊆ l) :
    changesOnly l a (Dev.pfcRelease x0 x1 x2) ↔ changesOnly l a x0 :=
  changesOnly.peel (k := [.ctr, .eth, .out]) (by
    unfold Dev.pfcRelease
    repeat' first
      | (simp [changesOnly_foldl]; done)
      | (split <;> try first
          | (rename_i h; have h := (congrArg (fun q => q.2.2.2) h).symm; dsimp only at h; subst h)
          | (rename_i h; have h := (congrArg (fun q => q.2.2) h).symm; dsimp only at h; subst h)
          | (rename_i h; have h := (congrArg (fun q => q.2) h).symm; dsimp only at h; subst h)
          | (rename_i h _; have h := (congrArg (fun q => q.2) h).symm; dsimp only at h; subst h))
      | dsimp only
      | refine (changesOnly_foldl _ _ _ fun b x => ?_).2 ?_) hl

@[simp] theorem Dev.rxDone_only {l : List Comp} {a : Dev} (x0 : Dev) (x1) (x2) (hl : [.ctr, .eth, .out] ⊆ l) :
    changesOnly l a (Dev.rxDone x0 x1 x2) ↔ changesOnly l a x0 :=
  changesOnly.peel (k := [.ctr, .eth, .out]) (by
    unfold Dev.rxDone
    repeat' first
      | (simp [changesOnly_foldl]; done)
      | (split <;> try first
          | (rename_i h; have h := (congrArg (fun q => q.2.2.2) h).symm; dsimp only at h; subst h)
          | (rename_i h; have h := (congrArg (fun q => q.2.2) h).symm; dsimp only at h; subst h)
          | (rename_i h; have h := (congrArg (fun q => q.2) h).symm; dsimp only at h; subst h)
          | (rename_i h _; have h := (congrArg (fun q => q.2) h).symm; dsimp only at h; subst h))
      | dsimp only
      | refine (changesOnly_foldl _ _ _ fun b x => ?_).2 ?_) hl

@[simp] theorem Dev.ebbOut_only {l : List Comp} {a : Dev} (x0 : Dev) (x1) (x2) (x3) (x4) (x5) (hl : [.out] ⊆ l) :
    changesOnly l a (Dev.ebbOut x0 x1 x2 x3 x4 x5) ↔ changesOnly l a x0 :=
  changesOnly.peel (k := [.out]) (by
    unfold Dev.ebbOut
    repeat' first
      | (simp [changesOnly_foldl]; done)
      | (split <;> try first
          | (rename_i h; have h := (congrArg (fun q => q.2.2.2) h).symm; dsimp only at h; subst h)
          | (rename_i h; have h := (congrArg (fun q => q.2.2) h).symm; dsimp only at h; subst h)
          | (rename_i h; have h := (congrArg (fun q => q.2) h).symm; dsimp only at h; subst h)
          | (rename_i h _; have h := (congrArg (fun q => q.2) h).symm; dsimp only at h; subst h))
      | dsimp only
      | refine (changesOnly_foldl _ _ _ fun b x => ?_).2 ?_) hl

@[simp] theorem Dev.wakeStart_only {l : List Comp} {a : Dev} (x0 : Dev) (x1) (hl : [.eth, .out] ⊆ l) :
    changesOnly l a (Dev.wakeStart x0 x1) ↔ changesOnly l a x0 :=
  changesOnly.peel (k := [.eth, .out]) (by
    unfold Dev.wakeStart
    repeat' first
      | (simp [changesOnly_foldl]; done)
      | (split <;> try first
          | (rename_i h; have h := (congrArg (fun q => q.2.2.2) h).symm; dsimp only at h; subst h)
          | (rename_i h; have h := (congrArg (fun q => q.2.2) h).symm; dsimp only at h; subst h)
          | (rename_i h; have h := (congrArg (fun q => q.2) h).symm; dsimp only at h; subst h)
          | (rename_i h _; have h := (congrArg (fun q => q.2) h).symm; dsimp only at h; subst h))
      | dsimp only
      | refine (changesOnly_foldl _ _ _ fun b x => ?_).2 ?_) hl

@[simp] theorem Dev.txNote_only {l : List Comp} {a : Dev} (x0 : Dev) (x1) (hl : [.eth, .out] ⊆ l) :
    changesOnly l a (Dev.txNote x0 x1) ↔ changesOnly l a x0 :=
  changesOnly.peel (k := [.eth, .out]) (by
    unfold Dev.txNote
    repeat' first
      | (simp [changesOnly_foldl]; done)
      | (split <;> try first
          | (rename_i h; have h := (congrArg (fun q => q.2.2.2) h).symm; dsimp only at h; subst h)
          | (rename_i h; have h := (congrArg (fun q => q.2.2) h).symm; dsimp only at h; subst h)
          | (rename_i h; have h := (congrArg (fun q => q.2) h).symm; dsimp only at h; subst h)
          | (rename_i h _; have h := (congrArg (fun q => q.2) h).symm; dsimp only at h; subst h))
      | dsimp only
      | refine (changesOnly_foldl _ _ _ fun b x => ?_).2 ?_) hl

@[simp] theorem Dev.setLink_only {l : List Comp} {a : Dev} (x0 : Dev) (x1) (x2) (hl : [.fab] ⊆ l) :
    changesOnly l a (Dev.setLink x0 x1 x2) ↔ changesOnly l a x0 :=
  changesOnly.peel (k := [.fab]) (by
    unfold Dev.setLink
    repeat' first
      | (simp [changesOnly_foldl]; done)
      | (split <;> try first
          | (rename_i h; have h := (congrArg (fun q => q.2.2.2) h).symm; dsimp only at h; subst h)
          | (rename_i h; have h := (congrArg (fun q => q.2.2) h).symm; dsimp only at h; subst h)
          | (rename_i h; have h := (congrArg (fun q => q.2) h).symm; dsimp only at h; subst h)
          | (rename_i h _; have h := (congrArg (fun q => q.2) h).symm; dsimp only at h; subst h))
      | dsimp only
      | refine (changesOnly_foldl _ _ _ fun b x => ?_).2 ?_) hl

@[simp] theorem Dev.updLink_only {l : List Comp} {a : Dev} (x0 : Dev) (x1) (x2) (hl : [.fab] ⊆ l) :
    changesOnly l a (Dev.updLink x0 x1 x2) ↔ changesOnly l a x0 :=
  changesOnly.peel (k := [.fab]) (by
    unfold Dev.updLink
    repeat' first
      | (simp [changesOnly_foldl]; done)
      | (split <;> try first
          | (rename_i h; have h := (congrArg (fun q => q.2.2.2) h).symm; dsimp only at h; subst h)
          | (rename_i h; have h := (congrArg (fun q => q.2.2) h).symm; dsimp only at h; subst h)
          | (rename_i h; have h := (congrArg (fun q => q.2) h).symm; dsimp only at h; subst h)
          | (rename_i h _; have h := (congrArg (fun q => q.2) h).symm; dsimp only at h; subst h))
      | dsimp only
      | refine (changesOnly_foldl _ _ _ fun b x => ?_).2 ?_) hl

@[simp] theorem Dev.setPeer_only {l : List Comp} {a : Dev} (x0 : Dev) (x1) (x2) (hl : [.fab] ⊆ l) :
    changesOnly l a (Dev.setPeer x0 x1 x2) ↔ changesOnly l a x0 :=
  changesOnly.peel (k := [.fab]) (by
    unfold Dev.setPeer
    repeat' first
      | (simp [changesOnly_foldl]; done)
      | (split <;> try first
          | (rename_i h; have h := (congrArg (fun q => q.2.2.2) h).symm; dsimp only at h; subst h)
          | (rename_i h; have h := (congrArg (fun q => q.2.2) h).symm; dsimp only at h; subst h)
          | (rename_i h; have h := (congrArg (fun q => q.2) h).symm; dsimp only at h; subst h)
          | (rename_i h _; have h := (congrArg (fun q => q.2) h).symm; dsimp only at h; subst h))
      | dsimp only
      | refine (changesOnly_foldl _ _ _ fun b x => ?_).2 ?_) hl

@[simp] theorem Dev.emit_only {l : List Comp} {a : Dev} (x0 : Dev) (x1) (x2) (x3) (x4) (x5) (x6) (x7) (x8) (x9) (hl : [.hdr, .ctr, .eth, .fab, .out] ⊆ l) :
    changesOnly l a (Dev.emit x0 x1 x2 x3 x4 x5 x6 x7 x8 x9) ↔ changesOnly l a x0 :=
  changesOnly.peel (k := [.hdr, .ctr, .eth, .fab, .out]) (by
    unfold Dev.emit
    repeat' first
      | (simp [changesOnly_foldl]; done)
      | (split <;> try first
          | (rename_i h; have h := (congrArg (fun q => q.2.2.2) h).symm; dsimp only at h; subst h)
          | (rename_i h; have h := (congrArg (fun q => q.2.2) h).symm; dsimp only at h; subst h)
          | (rename_i h; have h := (congrArg (fun q => q.2) h).symm; dsimp only at h; subst h)
          | (rename_i h _; have h := (congrArg (fun q => q.2) h).symm; dsimp only at h; subst h))
      | dsimp only
      | refine (changesOnly_foldl _ _ _ fun b x => ?_).2 ?_) hl

@[simp] theorem Dev.sendHello_only {l : List Comp} {a : Dev} (x0 : Dev) (x1) (hl : [.hdr, .ctr, .eth, .fab, .out] ⊆ l) :
    changesOnly l a (Dev.sendHello x0 x1) ↔ changesOnly l a x0 :=
  changesOnly.peel (k := [.hdr, .ctr, .eth, .fab, .out]) (by
    unfold Dev.sendHello
    repeat' first
      | (simp [changesOnly_foldl]; done)
      | (split <;> try first
          | (rename_i h; have h := (congrArg (fun q => q.2.2.2) h).symm; dsimp only at h; subst h)
          | (rename_i h; have h := (congrArg (fun q => q.2.2) h).symm; dsimp only at h; subst h)
          | (rename_i h; have h := (congrArg (fun q => q.2) h).symm; dsimp only at h; subst h)
          | (rename_i h _; have h := (congrArg (fun q => q.2) h).symm; dsimp only at h; subst h))
      | dsimp only
      | refine (changesOnly_foldl _ _ _ fun b x => ?_).2 ?_) hl

@[simp] theorem Dev.sendFenced_only {l : List Comp} {a : Dev} (x0 : Dev) (x1) (x2) (x3) (hl : [.hdr, .ctr, .eth, .fab, .out] ⊆ l) :
    changesOnly l a (Dev.sendFenced x0 x1 x2 x3) ↔ changesOnly l a x0 :=
  changesOnly.peel (k := [.hdr, .ctr, .eth, .fab, .out]) (by
    unfold Dev.sendFenced
    repeat' first
      | (simp [changesOnly_foldl]; done)
      | (split <;> try first
          | (rename_i h; have h := (congrArg (fun q => q.2.2.2) h).symm; dsimp only at h; subst h)
          | (rename_i h; have h := (congrArg (fun q => q.2.2) h).symm; dsimp only at h; subst h)
          | (rename_i h; have h := (congrArg (fun q => q.2) h).symm; dsimp only at h; subst h)
          | (rename_i h _; have h := (congrArg (fun q => q.2) h).symm; dsimp only at h; subst h))
      | dsimp only
      | refine (changesOnly_foldl _ _ _ fun b x => ?_).2 ?_) hl

@[simp] theorem Dev.setSendFlow_only {l : List Comp} {a : Dev} (x0 : Dev) (x1) (hl : [.fab] ⊆ l) :
    changesOnly l a (Dev.setSendFlow x0 x1) ↔ changesOnly l a x0 :=
  changesOnly.peel (k := [.fab]) (by
    unfold Dev.setSendFlow
    repeat' first
      | (simp [changesOnly_foldl]; done)
      | (split <;> try first
          | (rename_i h; have h := (congrArg (fun q => q.2.2.2) h).symm; dsimp only at h; subst h)
          | (rename_i h; have h := (congrArg (fun q => q.2.2) h).symm; dsimp only at h; subst h)
          | (rename_i h; have h := (congrArg (fun q => q.2) h).symm; dsimp only at h; subst h)
          | (rename_i h _; have h := (congrArg (fun q => q.2) h).symm; dsimp only at h; subst h))
      | dsimp only
      | refine (changesOnly_foldl _ _ _ fun b x => ?_).2 ?_) hl

@[simp] theorem Dev.emitFlow_only {l : List Comp} {a : Dev} (x0 : Dev) (x1) (x2) (x3) (hl : [.hdr, .ctr, .eth, .fab, .out] ⊆ l) :
    changesOnly l a (Dev.emitFlow x0 x1 x2 x3) ↔ changesOnly l a x0 :=
  changesOnly.peel (k := [.hdr, .ctr, .eth, .fab, .out]) (by
    unfold Dev.emitFlow
    repeat' first
      | (simp [changesOnly_foldl]; done)
      | (split <;> try first
          | (rename_i h; have h := (congrArg (fun q => q.2.2.2) h).symm; dsimp only at h; subst h)
          | (rename_i h; have h := (congrArg (fun q => q.2.2) h).symm; dsimp only at h; subst h)
          | (rename_i h; have h := (congrArg (fun q => q.2) h).symm; dsimp only at h; subst h)
          | (rename_i h _; have h := (congrArg (fun q => q.2) h).symm; dsimp only at h; subst h))
      | dsimp only
      | refine (changesOnly_foldl _ _ _ fun b x => ?_).2 ?_) hl

@[simp] theorem pump_only {l : List Comp} {a : Dev} (x0) (x1) (x2 : Dev) (x3) (hl : [.hdr, .ctr, .eth, .fab, .out] ⊆ l) :
    changesOnly l a (pump x0 x1 x2 x3).1 ↔ changesOnly l a x2 :=
  changesOnly.peel (k := [.hdr, .ctr, .eth, .fab, .out]) (by
    have key : ∀ x1, ∀ (x0) (x2 : Dev) (x3) (a : Dev), changesOnly [.hdr, .ctr, .eth, .fab, .out] a (pump x0 x1 x2 x3).1 ↔ changesOnly [.hdr, .ctr, .eth, .fab, .out] a x2 := by
      intro x1
      induction x1 with
      | zero => intro x0 x2 x3 a; simp [pump]
      | succ n ih =>
        intro x0 x2 x3 a
        unfold pump
        repeat' first
          | (simp [*, changesOnly_foldl]; done)
          | (split <;> try first
            | (rename_i h; have h := (congrArg (fun q => q.2.2.2) h).symm; dsimp only at h; subst h)
            | (rename_i h; have h := (congrArg (fun q => q.2.2) h).symm; dsimp only at h; subst h)
            | (rename_i h; have h := (congrArg (fun q => q.2) h).symm; dsimp only at h; subst h)
            | (rename_i h _; have h := (congrArg (fun q => q.2) h).symm; dsimp only at h; subst h))
          | dsimp only
          | refine (changesOnly_foldl _ _ _ fun b x => ?_).2 ?_
    exact (key x1 x0 x2 x3 x2).2 (changesOnly_self _ _)) hl

@[simp] theorem Dev.route_only {l : List Comp} {a : Dev} (x0 : Dev) (x1) (hl : [.hdr, .ctr, .eth, .fab, .out] ⊆ l) :
    changesOnly l a (Dev.route x0 x1).1 ↔ changesOnly l a x0 :=
  changesOnly.peel (k := [.hdr, .ctr, .eth, .fab, .out]) (by
    unfold Dev.route
    repeat' first
      | (simp [changesOnly_foldl]; done)
      | (split <;> try first
          | (rename_i h; have h := (congrArg (fun q => q.2.2.2) h).symm; dsimp only at h; subst h)
          | (rename_i h; have h := (congrArg (fun q => q.2.2) h).symm; dsimp only at h; subst h)
          | (rename_i h; have h := (congrArg (fun q => q.2) h).symm; dsimp only at h; subst h)
          | (rename_i h _; have h := (congrArg (fun q => q.2) h).symm; dsimp only at h; subst h))
      | dsimp only
      | refine (changesOnly_foldl _ _ _ fun b x => ?_).2 ?_) hl

@[simp] theorem Dev.runFlow_only {l : List Comp} {a : Dev} (x0 : Dev) (x1) (hl : [.hdr, .ctr, .eth, .fab, .out] ⊆ l) :
    changesOnly l a (Dev.runFlow x0 x1) ↔ changesOnly l a x0 :=
  changesOnly.peel (k := [.hdr, .ctr, .eth, .fab, .out]) (by
    unfold Dev.runFlow
    repeat' first
      | (simp [changesOnly_foldl]; done)
      | (split <;> try first
          | (rename_i h; have h := (congrArg (fun q => q.2.2.2) h).symm; dsimp only at h; subst h)
          | (rename_i h; have h := (congrArg (fun q => q.2.2) h).symm; dsimp only at h; subst h)
          | (rename_i h; have h := (congrArg (fun q => q.2) h).symm; dsimp only at h; subst h)
          | (rename_i h _; have h := (congrArg (fun q => q.2) h).symm; dsimp only at h; subst h))
      | dsimp only
      | refine (changesOnly_foldl _ _ _ fun b x => ?_).2 ?_) hl

@[simp] theorem Dev.runFlows_only {l : List Comp} {a : Dev} (x0 : Dev) (hl : [.hdr, .ctr, .eth, .fab, .out] ⊆ l) :
    changesOnly l a (Dev.runFlows x0) ↔ changesOnly l a x0 :=
  changesOnly.peel (k := [.hdr, .ctr, .eth, .fab, .out]) (by
    unfold Dev.runFlows
    repeat' first
      | (simp [changesOnly_foldl]; done)
      | (split <;> try first
          | (rename_i h; have h := (congrArg (fun q => q.2.2.2) h).symm; dsimp only at h; subst h)
          | (rename_i h; have h := (congrArg (fun q => q.2.2) h).symm; dsimp only at h; subst h)
          | (rename_i h; have h := (congrArg (fun q => q.2) h).symm; dsimp only at h; subst h)
          | (rename_i h _; have h := (congrArg (fun q => q.2) h).symm; dsimp only at h; subst h))
      | dsimp only
      | refine (changesOnly_foldl _ _ _ fun b x => ?_).2 ?_) hl

@[simp] theorem Dev.fabSend_only {l : List Comp} {a : Dev} (x0 : Dev) (x1) (x2) (x3) (x4) (x5) (hl : [.hdr, .ctr, .eth, .fab, .out] ⊆ l) :
    changesOnly l a (Dev.fabSend x0 x1 x2 x3 x4 x5) ↔ changesOnly l a x0 :=
  changesOnly.peel (k := [.hdr, .ctr, .eth, .fab, .out]) (by
    unfold Dev.fabSend
    repeat' first
      | (simp [changesOnly_foldl]; done)
      | (split <;> try first
          | (rename_i h; have h := (congrArg (fun q => q.2.2.2) h).symm; dsimp only at h; subst h)
          | (rename_i h; have h := (congrArg (fun q => q.2.2) h).symm; dsimp only at h; subst h)
          | (rename_i h; have h := (congrArg (fun q => q.2) h).symm; dsimp only at h; subst h)
          | (rename_i h _; have h := (congrArg (fun q => q.2) h).symm; dsimp only at h; subst h))
      | dsimp only
      | refine (changesOnly_foldl _ _ _ fun b x => ?_).2 ?_) hl

end Sys2Proof.Machine
end

