-- ==== Sys2Proof/Laws/OnlyTree.lean ====
section
/-!
SUPPORT. The components that each operation of Machine/Tree.lean can change.
-/

namespace Sys2Proof.Machine

set_option linter.unusedSimpArgs false

open Sys2Proof.Safety

@[simp] theorem Dev.setTree_only {l : List Comp} {a : Dev} (x0 : Dev) (x1) (hl : [.fab] ⊆ l) :
    changesOnly l a (Dev.setTree x0 x1) ↔ changesOnly l a x0 :=
  changesOnly.peel (k := [.fab]) (by
    unfold Dev.setTree
    repeat' first
      | (simp [changesOnly_foldl]; done)
      | (split <;> try first
          | (rename_i h; have h := (congrArg (fun q => q.2.2.2) h).symm; dsimp only at h; subst h)
          | (rename_i h; have h := (congrArg (fun q => q.2.2) h).symm; dsimp only at h; subst h)
          | (rename_i h; have h := (congrArg (fun q => q.2) h).symm; dsimp only at h; subst h)
          | (rename_i h _; have h := (congrArg (fun q => q.2) h).symm; dsimp only at h; subst h))
      | dsimp only
      | refine (changesOnly_foldl _ _ _ fun b x => ?_).2 ?_) hl

@[simp] theorem Dev.delTree_only {l : List Comp} {a : Dev} (x0 : Dev) (x1) (hl : [.fab] ⊆ l) :
    changesOnly l a (Dev.delTree x0 x1) ↔ changesOnly l a x0 :=
  changesOnly.peel (k := [.fab]) (by
    unfold Dev.delTree
    repeat' first
      | (simp [changesOnly_foldl]; done)
      | (split <;> try first
          | (rename_i h; have h := (congrArg (fun q => q.2.2.2) h).symm; dsimp only at h; subst h)
          | (rename_i h; have h := (congrArg (fun q => q.2.2) h).symm; dsimp only at h; subst h)
          | (rename_i h; have h := (congrArg (fun q => q.2) h).symm; dsimp only at h; subst h)
          | (rename_i h _; have h := (congrArg (fun q => q.2) h).symm; dsimp only at h; subst h))
      | dsimp only
      | refine (changesOnly_foldl _ _ _ fun b x => ?_).2 ?_) hl

@[simp] theorem Dev.treeCtrl_only {l : List Comp} {a : Dev} (x0 : Dev) (x1) (x2) (x3) (x4) (hl : [.hdr, .ctr, .eth, .fab, .out] ⊆ l) :
    changesOnly l a (Dev.treeCtrl x0 x1 x2 x3 x4) ↔ changesOnly l a x0 :=
  changesOnly.peel (k := [.hdr, .ctr, .eth, .fab, .out]) (by
    unfold Dev.treeCtrl
    repeat' first
      | (simp [changesOnly_foldl]; done)
      | (split <;> try first
          | (rename_i h; have h := (congrArg (fun q => q.2.2.2) h).symm; dsimp only at h; subst h)
          | (rename_i h; have h := (congrArg (fun q => q.2.2) h).symm; dsimp only at h; subst h)
          | (rename_i h; have h := (congrArg (fun q => q.2) h).symm; dsimp only at h; subst h)
          | (rename_i h _; have h := (congrArg (fun q => q.2) h).symm; dsimp only at h; subst h))
      | dsimp only
      | refine (changesOnly_foldl _ _ _ fun b x => ?_).2 ?_) hl

@[simp] theorem Dev.treeEnd_only {l : List Comp} {a : Dev} (x0 : Dev) (x1) (x2) (hl : [.hdr, .ctr, .mem, .poison, .cores, .sigs, .tier, .fab] ⊆ l) :
    changesOnly l a (Dev.treeEnd x0 x1 x2) ↔ changesOnly l a x0 :=
  changesOnly.peel (k := [.hdr, .ctr, .mem, .poison, .cores, .sigs, .tier, .fab]) (by
    unfold Dev.treeEnd
    repeat' first
      | (simp [changesOnly_foldl]; done)
      | (split <;> try first
          | (rename_i h; have h := (congrArg (fun q => q.2.2.2) h).symm; dsimp only at h; subst h)
          | (rename_i h; have h := (congrArg (fun q => q.2.2) h).symm; dsimp only at h; subst h)
          | (rename_i h; have h := (congrArg (fun q => q.2) h).symm; dsimp only at h; subst h)
          | (rename_i h _; have h := (congrArg (fun q => q.2) h).symm; dsimp only at h; subst h))
      | dsimp only
      | refine (changesOnly_foldl _ _ _ fun b x => ?_).2 ?_) hl

@[simp] theorem Dev.treeCheck_only {l : List Comp} {a : Dev} (x0 : Dev) (x1) (hl : [.hdr, .ctr, .mem, .poison, .cores, .sigs, .tier, .fab] ⊆ l) :
    changesOnly l a (Dev.treeCheck x0 x1) ↔ changesOnly l a x0 :=
  changesOnly.peel (k := [.hdr, .ctr, .mem, .poison, .cores, .sigs, .tier, .fab]) (by
    unfold Dev.treeCheck
    repeat' first
      | (simp [changesOnly_foldl]; done)
      | (split <;> try first
          | (rename_i h; have h := (congrArg (fun q => q.2.2.2) h).symm; dsimp only at h; subst h)
          | (rename_i h; have h := (congrArg (fun q => q.2.2) h).symm; dsimp only at h; subst h)
          | (rename_i h; have h := (congrArg (fun q => q.2) h).symm; dsimp only at h; subst h)
          | (rename_i h _; have h := (congrArg (fun q => q.2) h).symm; dsimp only at h; subst h))
      | dsimp only
      | refine (changesOnly_foldl _ _ _ fun b x => ?_).2 ?_) hl

@[simp] theorem Dev.treeFeed_only {l : List Comp} {a : Dev} (x : Dev × Tree × Bool) (i) (hl : [.hdr, .ctr, .tier, .eth, .fab, .errm, .out] ⊆ l) :
    changesOnly l a (Dev.treeFeed x i).1 ↔ changesOnly l a x.1 :=
  changesOnly.peel (k := [.hdr, .ctr, .tier, .eth, .fab, .errm, .out]) (by
    unfold Dev.treeFeed
    repeat' first
      | (simp; done)
      | split
      | dsimp only) hl


@[simp] theorem Dev.treePump_only {l : List Comp} {a : Dev} (x0 : Dev) (x1) (hl : [.hdr, .ctr, .mem, .poison, .isles, .cores, .sigs, .tier, .eth, .fab, .errm, .out] ⊆ l) :
    changesOnly l a (Dev.treePump x0 x1) ↔ changesOnly l a x0 :=
  changesOnly.peel (k := [.hdr, .ctr, .mem, .poison, .isles, .cores, .sigs, .tier, .eth, .fab, .errm, .out]) (by
    unfold Dev.treePump
    repeat' first
      | (simp [changesOnly_foldl]; done)
      | (split <;> try first
          | (rename_i h; have h := (congrArg (fun q => q.2.2.2) h).symm; dsimp only at h; subst h)
          | (rename_i h; have h := (congrArg (fun q => q.2.2) h).symm; dsimp only at h; subst h)
          | (rename_i h; have h := (congrArg (fun q => q.2) h).symm; dsimp only at h; subst h)
          | (rename_i h _; have h := (congrArg (fun q => q.2) h).symm; dsimp only at h; subst h))
      | dsimp only
      | refine (changesOnly_foldl _ _ _ fun b x => ?_).2 ?_
      | (simp (maxDischargeDepth := 6) [-List.foldl_append, changesOnly_foldl, changesOnly_foldl_1, changesOnly_foldl_2, changesOnly_foldl_22]; done)) hl

@[simp] theorem Dev.treeGo_only {l : List Comp} {a : Dev} (x0 : Dev) (x1) (x2) (x3) (x4) (hl : [.hdr, .ctr, .mem, .poison, .isles, .cores, .sigs, .tier, .eth, .fab, .errm, .out] ⊆ l) :
    changesOnly l a (Dev.treeGo x0 x1 x2 x3 x4) ↔ changesOnly l a x0 :=
  changesOnly.peel (k := [.hdr, .ctr, .mem, .poison, .isles, .cores, .sigs, .tier, .eth, .fab, .errm, .out]) (by
    unfold Dev.treeGo
    repeat' first
      | (simp [changesOnly_foldl]; done)
      | (split <;> try first
          | (rename_i h; have h := (congrArg (fun q => q.2.2.2) h).symm; dsimp only at h; subst h)
          | (rename_i h; have h := (congrArg (fun q => q.2.2) h).symm; dsimp only at h; subst h)
          | (rename_i h; have h := (congrArg (fun q => q.2) h).symm; dsimp only at h; subst h)
          | (rename_i h _; have h := (congrArg (fun q => q.2) h).symm; dsimp only at h; subst h))
      | dsimp only
      | refine (changesOnly_foldl _ _ _ fun b x => ?_).2 ?_) hl

@[simp] theorem treeStart_only {l : List Comp} {a : Dev} (x0) (x1) (x2) (x3 : Dev) (hl : [.hdr, .ctr, .irq, .mem, .poison, .isles, .cores, .sigs, .tier, .rings, .eth, .fab, .errm, .out] ⊆ l) :
    changesOnly l a (treeStart x0 x1 x2 x3) ↔ changesOnly l a x3 :=
  changesOnly.peel (k := [.hdr, .ctr, .irq, .mem, .poison, .isles, .cores, .sigs, .tier, .rings, .eth, .fab, .errm, .out]) (by
    unfold treeStart
    repeat' first
      | (simp [changesOnly_foldl]; done)
      | (split <;> try first
          | (rename_i h; have h := (congrArg (fun q => q.2.2.2) h).symm; dsimp only at h; subst h)
          | (rename_i h; have h := (congrArg (fun q => q.2.2) h).symm; dsimp only at h; subst h)
          | (rename_i h; have h := (congrArg (fun q => q.2) h).symm; dsimp only at h; subst h)
          | (rename_i h _; have h := (congrArg (fun q => q.2) h).symm; dsimp only at h; subst h))
      | dsimp only
      | refine (changesOnly_foldl _ _ _ fun b x => ?_).2 ?_) hl

@[simp] theorem tackMsg_only {l : List Comp} {a : Dev} (x0) (x1 : Dev) (hl : [.hdr, .ctr, .mem, .poison, .isles, .cores, .sigs, .tier, .eth, .fab, .errm, .out] ⊆ l) :
    changesOnly l a (tackMsg x0 x1) ↔ changesOnly l a x1 :=
  changesOnly.peel (k := [.hdr, .ctr, .mem, .poison, .isles, .cores, .sigs, .tier, .eth, .fab, .errm, .out]) (by
    unfold tackMsg
    repeat' first
      | (simp [changesOnly_foldl]; done)
      | (split <;> try first
          | (rename_i h; have h := (congrArg (fun q => q.2.2.2) h).symm; dsimp only at h; subst h)
          | (rename_i h; have h := (congrArg (fun q => q.2.2) h).symm; dsimp only at h; subst h)
          | (rename_i h; have h := (congrArg (fun q => q.2) h).symm; dsimp only at h; subst h)
          | (rename_i h _; have h := (congrArg (fun q => q.2) h).symm; dsimp only at h; subst h))
      | dsimp only
      | refine (changesOnly_foldl _ _ _ fun b x => ?_).2 ?_) hl

@[simp] theorem peeledMsg_only {l : List Comp} {a : Dev} (x0) (x1 : Dev) (hl : [.hdr, .ctr, .mem, .poison, .isles, .cores, .sigs, .tier, .eth, .fab, .errm, .out] ⊆ l) :
    changesOnly l a (peeledMsg x0 x1) ↔ changesOnly l a x1 :=
  changesOnly.peel (k := [.hdr, .ctr, .mem, .poison, .isles, .cores, .sigs, .tier, .eth, .fab, .errm, .out]) (by
    unfold peeledMsg
    repeat' first
      | (simp [changesOnly_foldl]; done)
      | (split <;> try first
          | (rename_i h; have h := (congrArg (fun q => q.2.2.2) h).symm; dsimp only at h; subst h)
          | (rename_i h; have h := (congrArg (fun q => q.2.2) h).symm; dsimp only at h; subst h)
          | (rename_i h; have h := (congrArg (fun q => q.2) h).symm; dsimp only at h; subst h)
          | (rename_i h _; have h := (congrArg (fun q => q.2) h).symm; dsimp only at h; subst h))
      | dsimp only
      | refine (changesOnly_foldl _ _ _ fun b x => ?_).2 ?_) hl

@[simp] theorem Dev.regraft_only {l : List Comp} {a : Dev} (x0 : Dev) (x1) (x2) (hl : [.hdr, .ctr, .mem, .poison, .cores, .sigs, .tier, .eth, .fab, .out] ⊆ l) :
    changesOnly l a (Dev.regraft x0 x1 x2) ↔ changesOnly l a x0 :=
  changesOnly.peel (k := [.hdr, .ctr, .mem, .poison, .cores, .sigs, .tier, .eth, .fab, .out]) (by
    unfold Dev.regraft
    repeat' first
      | (simp [changesOnly_foldl]; done)
      | (split <;> try first
          | (rename_i h; have h := (congrArg (fun q => q.2.2.2) h).symm; dsimp only at h; subst h)
          | (rename_i h; have h := (congrArg (fun q => q.2.2) h).symm; dsimp only at h; subst h)
          | (rename_i h; have h := (congrArg (fun q => q.2) h).symm; dsimp only at h; subst h)
          | (rename_i h _; have h := (congrArg (fun q => q.2) h).symm; dsimp only at h; subst h))
      | dsimp only
      | refine (changesOnly_foldl _ _ _ fun b x => ?_).2 ?_) hl

@[simp] theorem graftMsg_only {l : List Comp} {a : Dev} (x0) (x1 : Dev) (hl : [.hdr, .ctr, .mem, .poison, .isles, .cores, .sigs, .tier, .eth, .fab, .errm, .out] ⊆ l) :
    changesOnly l a (graftMsg x0 x1) ↔ changesOnly l a x1 :=
  changesOnly.peel (k := [.hdr, .ctr, .mem, .poison, .isles, .cores, .sigs, .tier, .eth, .fab, .errm, .out]) (by
    unfold graftMsg
    repeat' first
      | (simp [changesOnly_foldl]; done)
      | (split <;> try first
          | (rename_i h; have h := (congrArg (fun q => q.2.2.2) h).symm; dsimp only at h; subst h)
          | (rename_i h; have h := (congrArg (fun q => q.2.2) h).symm; dsimp only at h; subst h)
          | (rename_i h; have h := (congrArg (fun q => q.2) h).symm; dsimp only at h; subst h)
          | (rename_i h _; have h := (congrArg (fun q => q.2) h).symm; dsimp only at h; subst h))
      | dsimp only
      | refine (changesOnly_foldl _ _ _ fun b x => ?_).2 ?_) hl

@[simp] theorem treeDataMsg_only {l : List Comp} {a : Dev} (x0) (x1) (x2 : Dev) (hl : [.hdr, .ctr, .mem, .poison, .isles, .cores, .sigs, .tier, .eth, .fab, .errm, .out] ⊆ l) :
    changesOnly l a (treeDataMsg x0 x1 x2) ↔ changesOnly l a x2 :=
  changesOnly.peel (k := [.hdr, .ctr, .mem, .poison, .isles, .cores, .sigs, .tier, .eth, .fab, .errm, .out]) (by
    unfold treeDataMsg
    repeat' first
      | (simp [changesOnly_foldl]; done)
      | (split <;> try first
          | (rename_i h; have h := (congrArg (fun q => q.2.2.2) h).symm; dsimp only at h; subst h)
          | (rename_i h; have h := (congrArg (fun q => q.2.2) h).symm; dsimp only at h; subst h)
          | (rename_i h; have h := (congrArg (fun q => q.2) h).symm; dsimp only at h; subst h)
          | (rename_i h _; have h := (congrArg (fun q => q.2) h).symm; dsimp only at h; subst h))
      | dsimp only
      | refine (changesOnly_foldl _ _ _ fun b x => ?_).2 ?_) hl

@[simp] theorem treeRoundAt_only {l : List Comp} {a : Dev} (x0) (x1) (x2 : Dev) (hl : [.hdr, .ctr, .mem, .poison, .isles, .cores, .sigs, .tier, .eth, .fab, .errm, .out] ⊆ l) :
    changesOnly l a (treeRoundAt x0 x1 x2) ↔ changesOnly l a x2 :=
  changesOnly.peel (k := [.hdr, .ctr, .mem, .poison, .isles, .cores, .sigs, .tier, .eth, .fab, .errm, .out]) (by
    unfold treeRoundAt
    repeat' first
      | (simp [changesOnly_foldl]; done)
      | (split <;> try first
          | (rename_i h; have h := (congrArg (fun q => q.2.2.2) h).symm; dsimp only at h; subst h)
          | (rename_i h; have h := (congrArg (fun q => q.2.2) h).symm; dsimp only at h; subst h)
          | (rename_i h; have h := (congrArg (fun q => q.2) h).symm; dsimp only at h; subst h)
          | (rename_i h _; have h := (congrArg (fun q => q.2) h).symm; dsimp only at h; subst h))
      | dsimp only
      | refine (changesOnly_foldl _ _ _ fun b x => ?_).2 ?_
      | (simp (maxDischargeDepth := 6) [changesOnly_foldl, changesOnly_foldl_1, changesOnly_foldl_2, changesOnly_foldl_22]; done)
      | refine (changesOnly_foldl_2 _ _ _ fun b x => ?_).2 ?_
      | refine (changesOnly_foldl_22 _ _ _ fun b x => ?_).2 ?_
      | refine (changesOnly_foldl_1 _ _ _ fun b x => ?_).2 ?_) hl

@[simp] theorem Dev.treeLost_only {l : List Comp} {a : Dev} (x0) (x1 : Dev) (x2) (hl : [.hdr, .ctr, .mem, .poison, .isles, .cores, .sigs, .tier, .eth, .fab, .errm, .out] ⊆ l) :
    changesOnly l a (Dev.treeLost x0 x1 x2) ↔ changesOnly l a x1 :=
  changesOnly.peel (k := [.hdr, .ctr, .mem, .poison, .isles, .cores, .sigs, .tier, .eth, .fab, .errm, .out]) (by
    unfold Dev.treeLost
    repeat' first
      | (simp [changesOnly_foldl]; done)
      | (split <;> try first
          | (rename_i h; have h := (congrArg (fun q => q.2.2.2) h).symm; dsimp only at h; subst h)
          | (rename_i h; have h := (congrArg (fun q => q.2.2) h).symm; dsimp only at h; subst h)
          | (rename_i h; have h := (congrArg (fun q => q.2) h).symm; dsimp only at h; subst h)
          | (rename_i h _; have h := (congrArg (fun q => q.2) h).symm; dsimp only at h; subst h))
      | dsimp only
      | refine (changesOnly_foldl _ _ _ fun b x => ?_).2 ?_) hl

@[simp] theorem Dev.treesLost_only {l : List Comp} {a : Dev} (x0 : Dev) (x1) (hl : [.hdr, .ctr, .mem, .poison, .isles, .cores, .sigs, .tier, .eth, .fab, .errm, .out] ⊆ l) :
    changesOnly l a (Dev.treesLost x0 x1) ↔ changesOnly l a x0 :=
  changesOnly.peel (k := [.hdr, .ctr, .mem, .poison, .isles, .cores, .sigs, .tier, .eth, .fab, .errm, .out]) (by
    unfold Dev.treesLost
    repeat' first
      | (simp [changesOnly_foldl]; done)
      | (split <;> try first
          | (rename_i h; have h := (congrArg (fun q => q.2.2.2) h).symm; dsimp only at h; subst h)
          | (rename_i h; have h := (congrArg (fun q => q.2.2) h).symm; dsimp only at h; subst h)
          | (rename_i h; have h := (congrArg (fun q => q.2) h).symm; dsimp only at h; subst h)
          | (rename_i h _; have h := (congrArg (fun q => q.2) h).symm; dsimp only at h; subst h))
      | dsimp only
      | refine (changesOnly_foldl _ _ _ fun b x => ?_).2 ?_) hl

@[simp] theorem Dev.endTrees_only {l : List Comp} {a : Dev} (x0 : Dev) (hl : [.hdr, .ctr, .mem, .poison, .cores, .sigs, .tier, .fab] ⊆ l) :
    changesOnly l a (Dev.endTrees x0) ↔ changesOnly l a x0 :=
  changesOnly.peel (k := [.hdr, .ctr, .mem, .poison, .cores, .sigs, .tier, .fab]) (by
    unfold Dev.endTrees
    repeat' first
      | (simp [changesOnly_foldl]; done)
      | (split <;> try first
          | (rename_i h; have h := (congrArg (fun q => q.2.2.2) h).symm; dsimp only at h; subst h)
          | (rename_i h; have h := (congrArg (fun q => q.2.2) h).symm; dsimp only at h; subst h)
          | (rename_i h; have h := (congrArg (fun q => q.2) h).symm; dsimp only at h; subst h)
          | (rename_i h _; have h := (congrArg (fun q => q.2) h).symm; dsimp only at h; subst h))
      | dsimp only
      | refine (changesOnly_foldl _ _ _ fun b x => ?_).2 ?_) hl

@[simp] theorem Dev.dropTrees_only {l : List Comp} {a : Dev} (x0 : Dev) (x1) (hl : [.fab] ⊆ l) :
    changesOnly l a (Dev.dropTrees x0 x1) ↔ changesOnly l a x0 :=
  changesOnly.peel (k := [.fab]) (by
    unfold Dev.dropTrees
    repeat' first
      | (simp [changesOnly_foldl]; done)
      | (split <;> try first
          | (rename_i h; have h := (congrArg (fun q => q.2.2.2) h).symm; dsimp only at h; subst h)
          | (rename_i h; have h := (congrArg (fun q => q.2.2) h).symm; dsimp only at h; subst h)
          | (rename_i h; have h := (congrArg (fun q => q.2) h).symm; dsimp only at h; subst h)
          | (rename_i h _; have h := (congrArg (fun q => q.2) h).symm; dsimp only at h; subst h))
      | dsimp only
      | refine (changesOnly_foldl _ _ _ fun b x => ?_).2 ?_) hl

end Sys2Proof.Machine
end

