-- ==== Sys2Proof/Laws/OnlyFabric.lean ====
section
/-!
SUPPORT. The components that each operation of Machine/Fabric.lean can change.
-/

namespace Sys2Proof.Machine

set_option linter.unusedSimpArgs false

open Sys2Proof.Safety

@[simp] theorem Dev.setRecvFlow_only {l : List Comp} {a : Dev} (x0 : Dev) (x1) (hl : [.fab] ⊆ l) :
    changesOnly l a (Dev.setRecvFlow x0 x1) ↔ changesOnly l a x0 :=
  changesOnly.peel (k := [.fab]) (by
    unfold Dev.setRecvFlow
    repeat' first
      | (simp [changesOnly_foldl]; done)
      | (split <;> try first
          | (rename_i h; have h := (congrArg (fun q => q.2.2.2) h).symm; dsimp only at h; subst h)
          | (rename_i h; have h := (congrArg (fun q => q.2.2) h).symm; dsimp only at h; subst h)
          | (rename_i h; have h := (congrArg (fun q => q.2) h).symm; dsimp only at h; subst h)
          | (rename_i h _; have h := (congrArg (fun q => q.2) h).symm; dsimp only at h; subst h))
      | dsimp only
      | refine (changesOnly_foldl _ _ _ fun b x => ?_).2 ?_) hl

@[simp] theorem Dev.sendAck_only {l : List Comp} {a : Dev} (x0 : Dev) (x1) (hl : [.hdr, .ctr, .eth, .fab, .out] ⊆ l) :
    changesOnly l a (Dev.sendAck x0 x1) ↔ changesOnly l a x0 :=
  changesOnly.peel (k := [.hdr, .ctr, .eth, .fab, .out]) (by
    unfold Dev.sendAck
    repeat' first
      | (simp [changesOnly_foldl]; done)
      | (split <;> try first
          | (rename_i h; have h := (congrArg (fun q => q.2.2.2) h).symm; dsimp only at h; subst h)
          | (rename_i h; have h := (congrArg (fun q => q.2.2) h).symm; dsimp only at h; subst h)
          | (rename_i h; have h := (congrArg (fun q => q.2) h).symm; dsimp only at h; subst h)
          | (rename_i h _; have h := (congrArg (fun q => q.2) h).symm; dsimp only at h; subst h))
      | dsimp only
      | refine (changesOnly_foldl _ _ _ fun b x => ?_).2 ?_) hl

@[simp] theorem Dev.takeRx_only {l : List Comp} {a : Dev} (x0 : Dev) (x1) (hl : [.ctr, .eth, .out] ⊆ l) :
    changesOnly l a (Dev.takeRx x0 x1) ↔ changesOnly l a x0 :=
  changesOnly.peel (k := [.ctr, .eth, .out]) (by
    unfold Dev.takeRx
    repeat' first
      | (simp [changesOnly_foldl]; done)
      | (split <;> try first
          | (rename_i h; have h := (congrArg (fun q => q.2.2.2) h).symm; dsimp only at h; subst h)
          | (rename_i h; have h := (congrArg (fun q => q.2.2) h).symm; dsimp only at h; subst h)
          | (rename_i h; have h := (congrArg (fun q => q.2) h).symm; dsimp only at h; subst h)
          | (rename_i h _; have h := (congrArg (fun q => q.2) h).symm; dsimp only at h; subst h))
      | dsimp only
      | refine (changesOnly_foldl _ _ _ fun b x => ?_).2 ?_) hl

/-- The device that a verdict on a packet leaves. -/
def RxVerdict.dev : RxVerdict → Dev
  | .drop d => d
  | .pass d _ => d

@[simp] theorem changesOnly_verdict {l : List Comp} {a : Dev} {x y : RxVerdict} {p : Prop} [Decidable p] :
    changesOnly l a (if p then x else y).dev ↔ if p then changesOnly l a x.dev else changesOnly l a y.dev := by
  split <;> rfl

@[simp] theorem changesOnly_drop {l : List Comp} {a d : Dev} : changesOnly l a (RxVerdict.drop d).dev ↔ changesOnly l a d := Iff.rfl

@[simp] theorem changesOnly_pass {l : List Comp} {a d : Dev} {b : List Byte} :
    changesOnly l a (RxVerdict.pass d b).dev ↔ changesOnly l a d := Iff.rfl

@[simp] theorem Dev.checkSyn_only {l : List Comp} {a : Dev} (d : Dev) (k) (b) (hl : [.cores, .errm, .eth, .fab, .isles, .mem, .out, .ctr, .hdr, .poison, .rede, .sigs, .tier, .tokx] ⊆ l) :
    changesOnly l a (d.checkSyn k b).dev ↔ changesOnly l a d :=
  changesOnly.peel (k := [.cores, .errm, .eth, .fab, .isles, .mem, .out, .ctr, .hdr, .poison, .rede, .sigs, .tier, .tokx]) (by
    unfold Dev.checkSyn
    repeat' first
      | (simp; done)
      | split
      | dsimp only) hl

@[simp] theorem Dev.checkEpoch_only {l : List Comp} {a : Dev} (d : Dev) (k) (t) (b) (hl : [.cores, .errm, .eth, .fab, .isles, .mem, .out, .ctr, .hdr, .poison, .rede, .sigs, .tier, .tokx] ⊆ l) :
    changesOnly l a (d.checkEpoch k t b).dev ↔ changesOnly l a d :=
  changesOnly.peel (k := [.cores, .errm, .eth, .fab, .isles, .mem, .out, .ctr, .hdr, .poison, .rede, .sigs, .tier, .tokx]) (by
    unfold Dev.checkEpoch
    repeat' first
      | (simp; done)
      | split
      | dsimp only) hl

@[simp] theorem Dev.check_only {l : List Comp} {a : Dev} (d : Dev) (k) (t) (hl : [.cores, .errm, .eth, .fab, .isles, .mem, .out, .ctr, .hdr, .poison, .rede, .sigs, .tier, .tokx] ⊆ l) :
    changesOnly l a (d.check k t).dev ↔ changesOnly l a d :=
  changesOnly.peel (k := [.cores, .errm, .eth, .fab, .isles, .mem, .out, .ctr, .hdr, .poison, .rede, .sigs, .tier, .tokx]) (by
    unfold Dev.check
    repeat' first
      | (simp; done)
      | split
      | dsimp only) hl

@[simp] theorem Dev.accept_only {l : List Comp} {a : Dev} (d : Dev) (k) (t) (f) (hf : ∀ b y, changesOnly l b (f b y))
    (hl : [.cores, .errm, .eth, .fab, .isles, .mem, .out, .ctr, .hdr, .poison, .rede, .sigs, .tier, .tokx] ⊆ l) : changesOnly l a (d.accept k t f) ↔ changesOnly l a d :=
  changesOnly.peel (k := l) (by
    have h := (Dev.check_only (l := l) (a := d) d k t hl).2 (changesOnly_self _ _)
    unfold Dev.accept
    split
    · rename_i e; rw [e] at h; exact h
    · rename_i e; rw [e] at h; exact h.trans (hf _ _)) (fun _ h => h)


@[simp] theorem Dev.rxFlow_only {l : List Comp} {a : Dev} (x0 : Dev) (x1) (x2) (x3) (hl : [.hdr, .ctr, .eth, .fab, .out] ⊆ l) :
    changesOnly l a (Dev.rxFlow x0 x1 x2 x3) ↔ changesOnly l a x0 :=
  changesOnly.peel (k := [.hdr, .ctr, .eth, .fab, .out]) (by
    unfold Dev.rxFlow
    repeat' first
      | (simp [changesOnly_foldl]; done)
      | (split <;> try first
          | (rename_i h; have h := (congrArg (fun q => q.2.2.2) h).symm; dsimp only at h; subst h)
          | (rename_i h; have h := (congrArg (fun q => q.2.2) h).symm; dsimp only at h; subst h)
          | (rename_i h; have h := (congrArg (fun q => q.2) h).symm; dsimp only at h; subst h)
          | (rename_i h _; have h := (congrArg (fun q => q.2) h).symm; dsimp only at h; subst h))
      | dsimp only
      | refine (changesOnly_foldl _ _ _ fun b x => ?_).2 ?_) hl

@[simp] theorem dataPkt_only {l : List Comp} {a : Dev} (x0) (x1 : Dev) (hl : [.hdr, .ctr, .mem, .poison, .isles, .cores, .sigs, .rede, .tokx, .tier, .eth, .fab, .errm, .out] ⊆ l) :
    changesOnly l a (dataPkt x0 x1) ↔ changesOnly l a x1 :=
  changesOnly.peel (k := [.hdr, .ctr, .mem, .poison, .isles, .cores, .sigs, .rede, .tokx, .tier, .eth, .fab, .errm, .out]) (by
    unfold dataPkt
    repeat' first
      | (simp [changesOnly_foldl]; done)
      | (split <;> try first
          | (rename_i h; have h := (congrArg (fun q => q.2.2.2) h).symm; dsimp only at h; subst h)
          | (rename_i h; have h := (congrArg (fun q => q.2.2) h).symm; dsimp only at h; subst h)
          | (rename_i h; have h := (congrArg (fun q => q.2) h).symm; dsimp only at h; subst h)
          | (rename_i h _; have h := (congrArg (fun q => q.2) h).symm; dsimp only at h; subst h))
      | dsimp only
      | refine (changesOnly_foldl _ _ _ fun b x => ?_).2 ?_) hl

@[simp] theorem ctrlPkt_only {l : List Comp} {a : Dev} (x0) (x1 : Dev) (hl : [.hdr, .ctr, .mem, .poison, .isles, .cores, .sigs, .rede, .tokx, .tier, .eth, .fab, .errm, .out] ⊆ l) :
    changesOnly l a (ctrlPkt x0 x1) ↔ changesOnly l a x1 :=
  changesOnly.peel (k := [.hdr, .ctr, .mem, .poison, .isles, .cores, .sigs, .rede, .tokx, .tier, .eth, .fab, .errm, .out]) (by
    unfold ctrlPkt
    repeat' first
      | (simp [changesOnly_foldl]; done)
      | (split <;> try first
          | (rename_i h; have h := (congrArg (fun q => q.2.2.2) h).symm; dsimp only at h; subst h)
          | (rename_i h; have h := (congrArg (fun q => q.2.2) h).symm; dsimp only at h; subst h)
          | (rename_i h; have h := (congrArg (fun q => q.2) h).symm; dsimp only at h; subst h)
          | (rename_i h _; have h := (congrArg (fun q => q.2) h).symm; dsimp only at h; subst h))
      | dsimp only
      | refine (changesOnly_foldl _ _ _ fun b x => ?_).2 ?_) hl

@[simp] theorem ackRun_only {l : List Comp} {a : Dev} (x0) (x1 : Dev) (x2) (hl : [.hdr, .ctr, .eth, .fab, .out] ⊆ l) :
    changesOnly l a (ackRun x0 x1 x2) ↔ changesOnly l a x1 :=
  changesOnly.peel (k := [.hdr, .ctr, .eth, .fab, .out]) (by
    unfold ackRun
    repeat' first
      | (simp [changesOnly_foldl]; done)
      | (split <;> try first
          | (rename_i h; have h := (congrArg (fun q => q.2.2.2) h).symm; dsimp only at h; subst h)
          | (rename_i h; have h := (congrArg (fun q => q.2.2) h).symm; dsimp only at h; subst h)
          | (rename_i h; have h := (congrArg (fun q => q.2) h).symm; dsimp only at h; subst h)
          | (rename_i h _; have h := (congrArg (fun q => q.2) h).symm; dsimp only at h; subst h))
      | dsimp only
      | refine (changesOnly_foldl _ _ _ fun b x => ?_).2 ?_) hl

@[simp] theorem ackPkt_only {l : List Comp} {a : Dev} (x0) (x1 : Dev) (hl : [.hdr, .ctr, .mem, .poison, .isles, .cores, .sigs, .rede, .tokx, .tier, .eth, .fab, .errm, .out] ⊆ l) :
    changesOnly l a (ackPkt x0 x1) ↔ changesOnly l a x1 :=
  changesOnly.peel (k := [.hdr, .ctr, .mem, .poison, .isles, .cores, .sigs, .rede, .tokx, .tier, .eth, .fab, .errm, .out]) (by
    unfold ackPkt
    repeat' first
      | (simp [changesOnly_foldl]; done)
      | (split <;> try first
          | (rename_i h; have h := (congrArg (fun q => q.2.2.2) h).symm; dsimp only at h; subst h)
          | (rename_i h; have h := (congrArg (fun q => q.2.2) h).symm; dsimp only at h; subst h)
          | (rename_i h; have h := (congrArg (fun q => q.2) h).symm; dsimp only at h; subst h)
          | (rename_i h _; have h := (congrArg (fun q => q.2) h).symm; dsimp only at h; subst h))
      | dsimp only
      | refine (changesOnly_foldl _ _ _ fun b x => ?_).2 ?_) hl

@[simp] theorem keepalivePkt_only {l : List Comp} {a : Dev} (x0) (x1 : Dev) (hl : [.hdr, .ctr, .mem, .poison, .isles, .cores, .sigs, .rede, .tokx, .tier, .eth, .fab, .errm, .out] ⊆ l) :
    changesOnly l a (keepalivePkt x0 x1) ↔ changesOnly l a x1 :=
  changesOnly.peel (k := [.hdr, .ctr, .mem, .poison, .isles, .cores, .sigs, .rede, .tokx, .tier, .eth, .fab, .errm, .out]) (by
    unfold keepalivePkt
    repeat' first
      | (simp [changesOnly_foldl]; done)
      | (split <;> try first
          | (rename_i h; have h := (congrArg (fun q => q.2.2.2) h).symm; dsimp only at h; subst h)
          | (rename_i h; have h := (congrArg (fun q => q.2.2) h).symm; dsimp only at h; subst h)
          | (rename_i h; have h := (congrArg (fun q => q.2) h).symm; dsimp only at h; subst h)
          | (rename_i h _; have h := (congrArg (fun q => q.2) h).symm; dsimp only at h; subst h))
      | dsimp only
      | refine (changesOnly_foldl _ _ _ fun b x => ?_).2 ?_) hl

@[simp] theorem Dev.linkUpIf_only {l : List Comp} {a : Dev} (x0 : Dev) (x1) (hl : [.hdr, .ctr, .eth, .fab, .out] ⊆ l) :
    changesOnly l a (Dev.linkUpIf x0 x1) ↔ changesOnly l a x0 :=
  changesOnly.peel (k := [.hdr, .ctr, .eth, .fab, .out]) (by
    unfold Dev.linkUpIf
    repeat' first
      | (simp [changesOnly_foldl]; done)
      | (split <;> try first
          | (rename_i h; have h := (congrArg (fun q => q.2.2.2) h).symm; dsimp only at h; subst h)
          | (rename_i h; have h := (congrArg (fun q => q.2.2) h).symm; dsimp only at h; subst h)
          | (rename_i h; have h := (congrArg (fun q => q.2) h).symm; dsimp only at h; subst h)
          | (rename_i h _; have h := (congrArg (fun q => q.2) h).symm; dsimp only at h; subst h))
      | dsimp only
      | refine (changesOnly_foldl _ _ _ fun b x => ?_).2 ?_) hl

@[simp] theorem Dev.learn_only {l : List Comp} {a : Dev} (x0 : Dev) (x1) (x2) (hl : [.hdr, .ctr, .mem, .poison, .isles, .cores, .sigs, .rede, .tokx, .tier, .eth, .fab, .errm, .out] ⊆ l) :
    changesOnly l a (Dev.learn x0 x1 x2) ↔ changesOnly l a x0 :=
  changesOnly.peel (k := [.hdr, .ctr, .mem, .poison, .isles, .cores, .sigs, .rede, .tokx, .tier, .eth, .fab, .errm, .out]) (by
    unfold Dev.learn
    repeat' first
      | (simp [changesOnly_foldl]; done)
      | (split <;> try first
          | (rename_i h; have h := (congrArg (fun q => q.2.2.2) h).symm; dsimp only at h; subst h)
          | (rename_i h; have h := (congrArg (fun q => q.2.2) h).symm; dsimp only at h; subst h)
          | (rename_i h; have h := (congrArg (fun q => q.2) h).symm; dsimp only at h; subst h)
          | (rename_i h _; have h := (congrArg (fun q => q.2) h).symm; dsimp only at h; subst h))
      | dsimp only
      | refine (changesOnly_foldl _ _ _ fun b x => ?_).2 ?_) hl

@[simp] theorem Dev.refuseLink_only {l : List Comp} {a : Dev} (x0 : Dev) (x1) (hl : [.hdr, .ctr, .fab] ⊆ l) :
    changesOnly l a (Dev.refuseLink x0 x1) ↔ changesOnly l a x0 :=
  changesOnly.peel (k := [.hdr, .ctr, .fab]) (by
    unfold Dev.refuseLink
    repeat' first
      | (simp [changesOnly_foldl]; done)
      | (split <;> try first
          | (rename_i h; have h := (congrArg (fun q => q.2.2.2) h).symm; dsimp only at h; subst h)
          | (rename_i h; have h := (congrArg (fun q => q.2.2) h).symm; dsimp only at h; subst h)
          | (rename_i h; have h := (congrArg (fun q => q.2) h).symm; dsimp only at h; subst h)
          | (rename_i h _; have h := (congrArg (fun q => q.2) h).symm; dsimp only at h; subst h))
      | dsimp only
      | refine (changesOnly_foldl _ _ _ fun b x => ?_).2 ?_) hl

@[simp] theorem helloRun_only {l : List Comp} {a : Dev} (x0) (x1 : Dev) (x2) (hl : [.hdr, .ctr, .mem, .poison, .isles, .cores, .sigs, .rede, .tokx, .tier, .eth, .fab, .errm, .out] ⊆ l) :
    changesOnly l a (helloRun x0 x1 x2) ↔ changesOnly l a x1 :=
  changesOnly.peel (k := [.hdr, .ctr, .mem, .poison, .isles, .cores, .sigs, .rede, .tokx, .tier, .eth, .fab, .errm, .out]) (by
    unfold helloRun
    repeat' first
      | (simp [changesOnly_foldl]; done)
      | (split <;> try first
          | (rename_i h; have h := (congrArg (fun q => q.2.2.2) h).symm; dsimp only at h; subst h)
          | (rename_i h; have h := (congrArg (fun q => q.2.2) h).symm; dsimp only at h; subst h)
          | (rename_i h; have h := (congrArg (fun q => q.2) h).symm; dsimp only at h; subst h)
          | (rename_i h _; have h := (congrArg (fun q => q.2) h).symm; dsimp only at h; subst h))
      | dsimp only
      | refine (changesOnly_foldl _ _ _ fun b x => ?_).2 ?_) hl

@[simp] theorem helloPkt_only {l : List Comp} {a : Dev} (x0) (x1 : Dev) (hl : [.hdr, .ctr, .mem, .poison, .isles, .cores, .sigs, .rede, .tokx, .tier, .eth, .fab, .errm, .out] ⊆ l) :
    changesOnly l a (helloPkt x0 x1) ↔ changesOnly l a x1 :=
  changesOnly.peel (k := [.hdr, .ctr, .mem, .poison, .isles, .cores, .sigs, .rede, .tokx, .tier, .eth, .fab, .errm, .out]) (by
    unfold helloPkt
    repeat' first
      | (simp [changesOnly_foldl]; done)
      | (split <;> try first
          | (rename_i h; have h := (congrArg (fun q => q.2.2.2) h).symm; dsimp only at h; subst h)
          | (rename_i h; have h := (congrArg (fun q => q.2.2) h).symm; dsimp only at h; subst h)
          | (rename_i h; have h := (congrArg (fun q => q.2) h).symm; dsimp only at h; subst h)
          | (rename_i h _; have h := (congrArg (fun q => q.2) h).symm; dsimp only at h; subst h))
      | dsimp only
      | refine (changesOnly_foldl _ _ _ fun b x => ?_).2 ?_) hl

@[simp] theorem helloAckRun_only {l : List Comp} {a : Dev} (x0) (x1 : Dev) (x2) (hl : [.hdr, .ctr, .eth, .fab, .out] ⊆ l) :
    changesOnly l a (helloAckRun x0 x1 x2) ↔ changesOnly l a x1 :=
  changesOnly.peel (k := [.hdr, .ctr, .eth, .fab, .out]) (by
    unfold helloAckRun
    repeat' first
      | (simp [changesOnly_foldl]; done)
      | (split <;> try first
          | (rename_i h; have h := (congrArg (fun q => q.2.2.2) h).symm; dsimp only at h; subst h)
          | (rename_i h; have h := (congrArg (fun q => q.2.2) h).symm; dsimp only at h; subst h)
          | (rename_i h; have h := (congrArg (fun q => q.2) h).symm; dsimp only at h; subst h)
          | (rename_i h _; have h := (congrArg (fun q => q.2) h).symm; dsimp only at h; subst h))
      | dsimp only
      | refine (changesOnly_foldl _ _ _ fun b x => ?_).2 ?_) hl

@[simp] theorem helloAckPkt_only {l : List Comp} {a : Dev} (x0) (x1 : Dev) (hl : [.hdr, .ctr, .mem, .poison, .isles, .cores, .sigs, .rede, .tokx, .tier, .eth, .fab, .errm, .out] ⊆ l) :
    changesOnly l a (helloAckPkt x0 x1) ↔ changesOnly l a x1 :=
  changesOnly.peel (k := [.hdr, .ctr, .mem, .poison, .isles, .cores, .sigs, .rede, .tokx, .tier, .eth, .fab, .errm, .out]) (by
    unfold helloAckPkt
    repeat' first
      | (simp [changesOnly_foldl]; done)
      | (split <;> try first
          | (rename_i h; have h := (congrArg (fun q => q.2.2.2) h).symm; dsimp only at h; subst h)
          | (rename_i h; have h := (congrArg (fun q => q.2.2) h).symm; dsimp only at h; subst h)
          | (rename_i h; have h := (congrArg (fun q => q.2) h).symm; dsimp only at h; subst h)
          | (rename_i h _; have h := (congrArg (fun q => q.2) h).symm; dsimp only at h; subst h))
      | dsimp only
      | refine (changesOnly_foldl _ _ _ fun b x => ?_).2 ?_) hl

@[simp] theorem fencedPkt_only {l : List Comp} {a : Dev} (x0) (x1 : Dev) (hl : [.hdr, .ctr, .mem, .poison, .isles, .cores, .sigs, .rede, .tokx, .tier, .eth, .fab, .errm, .out] ⊆ l) :
    changesOnly l a (fencedPkt x0 x1) ↔ changesOnly l a x1 :=
  changesOnly.peel (k := [.hdr, .ctr, .mem, .poison, .isles, .cores, .sigs, .rede, .tokx, .tier, .eth, .fab, .errm, .out]) (by
    unfold fencedPkt
    repeat' first
      | (simp [changesOnly_foldl]; done)
      | (split <;> try first
          | (rename_i h; have h := (congrArg (fun q => q.2.2.2) h).symm; dsimp only at h; subst h)
          | (rename_i h; have h := (congrArg (fun q => q.2.2) h).symm; dsimp only at h; subst h)
          | (rename_i h; have h := (congrArg (fun q => q.2) h).symm; dsimp only at h; subst h)
          | (rename_i h _; have h := (congrArg (fun q => q.2) h).symm; dsimp only at h; subst h))
      | dsimp only
      | refine (changesOnly_foldl _ _ _ fun b x => ?_).2 ?_) hl

@[simp] theorem helloAgain_only {l : List Comp} {a : Dev} (x0) (x1 : Dev) (hl : [.hdr, .ctr, .isles, .eth, .fab, .out] ⊆ l) :
    changesOnly l a (helloAgain x0 x1) ↔ changesOnly l a x1 :=
  changesOnly.peel (k := [.hdr, .ctr, .isles, .eth, .fab, .out]) (by
    unfold helloAgain
    repeat' first
      | (simp [changesOnly_foldl]; done)
      | (split <;> try first
          | (rename_i h; have h := (congrArg (fun q => q.2.2.2) h).symm; dsimp only at h; subst h)
          | (rename_i h; have h := (congrArg (fun q => q.2.2) h).symm; dsimp only at h; subst h)
          | (rename_i h; have h := (congrArg (fun q => q.2) h).symm; dsimp only at h; subst h)
          | (rename_i h _; have h := (congrArg (fun q => q.2) h).symm; dsimp only at h; subst h))
      | dsimp only
      | refine (changesOnly_foldl _ _ _ fun b x => ?_).2 ?_) hl

@[simp] theorem ackDelay_only {l : List Comp} {a : Dev} (x0) (x1) (x2 : Dev) (hl : [.hdr, .ctr, .isles, .eth, .fab, .out] ⊆ l) :
    changesOnly l a (ackDelay x0 x1 x2) ↔ changesOnly l a x2 :=
  changesOnly.peel (k := [.hdr, .ctr, .isles, .eth, .fab, .out]) (by
    unfold ackDelay
    repeat' first
      | (simp [changesOnly_foldl]; done)
      | (split <;> try first
          | (rename_i h; have h := (congrArg (fun q => q.2.2.2) h).symm; dsimp only at h; subst h)
          | (rename_i h; have h := (congrArg (fun q => q.2.2) h).symm; dsimp only at h; subst h)
          | (rename_i h; have h := (congrArg (fun q => q.2) h).symm; dsimp only at h; subst h)
          | (rename_i h _; have h := (congrArg (fun q => q.2) h).symm; dsimp only at h; subst h))
      | dsimp only
      | refine (changesOnly_foldl _ _ _ fun b x => ?_).2 ?_) hl

@[simp] theorem rtoFlow_only {l : List Comp} {a : Dev} (x0) (x1) (x2 : Dev) (hl : [.hdr, .ctr, .isles, .eth, .fab, .out] ⊆ l) :
    changesOnly l a (rtoFlow x0 x1 x2) ↔ changesOnly l a x2 :=
  changesOnly.peel (k := [.hdr, .ctr, .isles, .eth, .fab, .out]) (by
    unfold rtoFlow
    repeat' first
      | (simp [changesOnly_foldl]; done)
      | (split <;> try first
          | (rename_i h; have h := (congrArg (fun q => q.2.2.2) h).symm; dsimp only at h; subst h)
          | (rename_i h; have h := (congrArg (fun q => q.2.2) h).symm; dsimp only at h; subst h)
          | (rename_i h; have h := (congrArg (fun q => q.2) h).symm; dsimp only at h; subst h)
          | (rename_i h _; have h := (congrArg (fun q => q.2) h).symm; dsimp only at h; subst h))
      | dsimp only
      | refine (changesOnly_foldl _ _ _ fun b x => ?_).2 ?_) hl

@[simp] theorem rateEnd_only {l : List Comp} {a : Dev} (x0 : Dev) (hl : [.fab] ⊆ l) :
    changesOnly l a (rateEnd x0) ↔ changesOnly l a x0 :=
  changesOnly.peel (k := [.fab]) (by
    unfold rateEnd
    repeat' first
      | (simp [changesOnly_foldl]; done)
      | (split <;> try first
          | (rename_i h; have h := (congrArg (fun q => q.2.2.2) h).symm; dsimp only at h; subst h)
          | (rename_i h; have h := (congrArg (fun q => q.2.2) h).symm; dsimp only at h; subst h)
          | (rename_i h; have h := (congrArg (fun q => q.2) h).symm; dsimp only at h; subst h)
          | (rename_i h _; have h := (congrArg (fun q => q.2) h).symm; dsimp only at h; subst h))
      | dsimp only
      | refine (changesOnly_foldl _ _ _ fun b x => ?_).2 ?_) hl

@[simp] theorem Dev.clipRates_only {l : List Comp} {a : Dev} (x0 : Dev) (hl : [.fab] ⊆ l) :
    changesOnly l a (Dev.clipRates x0) ↔ changesOnly l a x0 :=
  changesOnly.peel (k := [.fab]) (by
    unfold Dev.clipRates
    repeat' first
      | (simp [changesOnly_foldl]; done)
      | (split <;> try first
          | (rename_i h; have h := (congrArg (fun q => q.2.2.2) h).symm; dsimp only at h; subst h)
          | (rename_i h; have h := (congrArg (fun q => q.2.2) h).symm; dsimp only at h; subst h)
          | (rename_i h; have h := (congrArg (fun q => q.2) h).symm; dsimp only at h; subst h)
          | (rename_i h _; have h := (congrArg (fun q => q.2) h).symm; dsimp only at h; subst h))
      | dsimp only
      | refine (changesOnly_foldl _ _ _ fun b x => ?_).2 ?_) hl

@[simp] theorem kaSend_only {l : List Comp} {a : Dev} (x0) (x1 : Dev) (hl : [.hdr, .ctr, .eth, .fab, .out] ⊆ l) :
    changesOnly l a (kaSend x0 x1) ↔ changesOnly l a x1 :=
  changesOnly.peel (k := [.hdr, .ctr, .eth, .fab, .out]) (by
    unfold kaSend
    repeat' first
      | (simp [changesOnly_foldl]; done)
      | (split <;> try first
          | (rename_i h; have h := (congrArg (fun q => q.2.2.2) h).symm; dsimp only at h; subst h)
          | (rename_i h; have h := (congrArg (fun q => q.2.2) h).symm; dsimp only at h; subst h)
          | (rename_i h; have h := (congrArg (fun q => q.2) h).symm; dsimp only at h; subst h)
          | (rename_i h _; have h := (congrArg (fun q => q.2) h).symm; dsimp only at h; subst h))
      | dsimp only
      | refine (changesOnly_foldl _ _ _ fun b x => ?_).2 ?_) hl

@[simp] theorem kaLink_only {l : List Comp} {a : Dev} (x0) (x1 : Dev) (x2) (hl : [.hdr, .ctr, .mem, .poison, .isles, .cores, .sigs, .rede, .tokx, .tier, .eth, .fab, .errm, .out] ⊆ l) :
    changesOnly l a (kaLink x0 x1 x2) ↔ changesOnly l a x1 :=
  changesOnly.peel (k := [.hdr, .ctr, .mem, .poison, .isles, .cores, .sigs, .rede, .tokx, .tier, .eth, .fab, .errm, .out]) (by
    unfold kaLink
    repeat' first
      | (simp [changesOnly_foldl]; done)
      | (split <;> try first
          | (rename_i h; have h := (congrArg (fun q => q.2.2.2) h).symm; dsimp only at h; subst h)
          | (rename_i h; have h := (congrArg (fun q => q.2.2) h).symm; dsimp only at h; subst h)
          | (rename_i h; have h := (congrArg (fun q => q.2) h).symm; dsimp only at h; subst h)
          | (rename_i h _; have h := (congrArg (fun q => q.2) h).symm; dsimp only at h; subst h))
      | dsimp only
      | refine (changesOnly_foldl _ _ _ fun b x => ?_).2 ?_) hl

@[simp] theorem kaCheck_only {l : List Comp} {a : Dev} (x0 : Dev) (hl : [.hdr, .ctr, .mem, .poison, .isles, .cores, .sigs, .rede, .tokx, .tier, .eth, .fab, .errm, .out] ⊆ l) :
    changesOnly l a (kaCheck x0) ↔ changesOnly l a x0 :=
  changesOnly.peel (k := [.hdr, .ctr, .mem, .poison, .isles, .cores, .sigs, .rede, .tokx, .tier, .eth, .fab, .errm, .out]) (by
    unfold kaCheck
    repeat' first
      | (simp [changesOnly_foldl]; done)
      | (split <;> try first
          | (rename_i h; have h := (congrArg (fun q => q.2.2.2) h).symm; dsimp only at h; subst h)
          | (rename_i h; have h := (congrArg (fun q => q.2.2) h).symm; dsimp only at h; subst h)
          | (rename_i h; have h := (congrArg (fun q => q.2) h).symm; dsimp only at h; subst h)
          | (rename_i h _; have h := (congrArg (fun q => q.2) h).symm; dsimp only at h; subst h))
      | dsimp only
      | refine (changesOnly_foldl _ _ _ fun b x => ?_).2 ?_) hl

@[simp] theorem identityWrite_only {l : List Comp} {a : Dev} (x0) (x1) (x2) (x3 : Dev) (hl : [.hdr, .regs, .parts, .fab] ⊆ l) :
    changesOnly l a (identityWrite x0 x1 x2 x3) ↔ changesOnly l a x3 :=
  changesOnly.peel (k := [.hdr, .regs, .parts, .fab]) (by
    unfold identityWrite
    repeat' first
      | (simp [changesOnly_foldl]; done)
      | (split <;> try first
          | (rename_i h; have h := (congrArg (fun q => q.2.2.2) h).symm; dsimp only at h; subst h)
          | (rename_i h; have h := (congrArg (fun q => q.2.2) h).symm; dsimp only at h; subst h)
          | (rename_i h; have h := (congrArg (fun q => q.2) h).symm; dsimp only at h; subst h)
          | (rename_i h _; have h := (congrArg (fun q => q.2) h).symm; dsimp only at h; subst h))
      | dsimp only
      | refine (changesOnly_foldl _ _ _ fun b x => ?_).2 ?_) hl

@[simp] theorem Dev.setTblSts_only {l : List Comp} {a : Dev} (x0 : Dev) (x1) (hl : [.fab] ⊆ l) :
    changesOnly l a (Dev.setTblSts x0 x1) ↔ changesOnly l a x0 :=
  changesOnly.peel (k := [.fab]) (by
    unfold Dev.setTblSts
    repeat' first
      | (simp [changesOnly_foldl]; done)
      | (split <;> try first
          | (rename_i h; have h := (congrArg (fun q => q.2.2.2) h).symm; dsimp only at h; subst h)
          | (rename_i h; have h := (congrArg (fun q => q.2.2) h).symm; dsimp only at h; subst h)
          | (rename_i h; have h := (congrArg (fun q => q.2) h).symm; dsimp only at h; subst h)
          | (rename_i h _; have h := (congrArg (fun q => q.2) h).symm; dsimp only at h; subst h))
      | dsimp only
      | refine (changesOnly_foldl _ _ _ fun b x => ?_).2 ?_) hl

@[simp] theorem Dev.tblShow_only {l : List Comp} {a : Dev} (x0 : Dev) (x1) (hl : [.regs] ⊆ l) :
    changesOnly l a (Dev.tblShow x0 x1) ↔ changesOnly l a x0 :=
  changesOnly.peel (k := [.regs]) (by
    unfold Dev.tblShow
    repeat' first
      | (simp [changesOnly_foldl]; done)
      | (split <;> try first
          | (rename_i h; have h := (congrArg (fun q => q.2.2.2) h).symm; dsimp only at h; subst h)
          | (rename_i h; have h := (congrArg (fun q => q.2.2) h).symm; dsimp only at h; subst h)
          | (rename_i h; have h := (congrArg (fun q => q.2) h).symm; dsimp only at h; subst h)
          | (rename_i h _; have h := (congrArg (fun q => q.2) h).symm; dsimp only at h; subst h))
      | dsimp only
      | refine (changesOnly_foldl _ _ _ fun b x => ?_).2 ?_) hl

@[simp] theorem tblRead_only {l : List Comp} {a : Dev} (x0 : Dev) (hl : [.regs, .fab] ⊆ l) :
    changesOnly l a (tblRead x0) ↔ changesOnly l a x0 :=
  changesOnly.peel (k := [.regs, .fab]) (by
    unfold tblRead
    repeat' first
      | (simp [changesOnly_foldl]; done)
      | (split <;> try first
          | (rename_i h; have h := (congrArg (fun q => q.2.2.2) h).symm; dsimp only at h; subst h)
          | (rename_i h; have h := (congrArg (fun q => q.2.2) h).symm; dsimp only at h; subst h)
          | (rename_i h; have h := (congrArg (fun q => q.2) h).symm; dsimp only at h; subst h)
          | (rename_i h _; have h := (congrArg (fun q => q.2) h).symm; dsimp only at h; subst h))
      | dsimp only
      | refine (changesOnly_foldl _ _ _ fun b x => ?_).2 ?_) hl

@[simp] theorem tblWrite_only {l : List Comp} {a : Dev} (x0 : Dev) (hl : [.hdr, .ctr, .eth, .fab, .out] ⊆ l) :
    changesOnly l a (tblWrite x0) ↔ changesOnly l a x0 :=
  changesOnly.peel (k := [.hdr, .ctr, .eth, .fab, .out]) (by
    unfold tblWrite
    repeat' first
      | (simp [changesOnly_foldl]; done)
      | (split <;> try first
          | (rename_i h; have h := (congrArg (fun q => q.2.2.2) h).symm; dsimp only at h; subst h)
          | (rename_i h; have h := (congrArg (fun q => q.2.2) h).symm; dsimp only at h; subst h)
          | (rename_i h; have h := (congrArg (fun q => q.2) h).symm; dsimp only at h; subst h)
          | (rename_i h _; have h := (congrArg (fun q => q.2) h).symm; dsimp only at h; subst h))
      | dsimp only
      | refine (changesOnly_foldl _ _ _ fun b x => ?_).2 ?_) hl

@[simp] theorem tblCmd_only {l : List Comp} {a : Dev} (x0) (x1) (x2 : Dev) (hl : [.hdr, .ctr, .regs, .parts, .eth, .fab, .out] ⊆ l) :
    changesOnly l a (tblCmd x0 x1 x2) ↔ changesOnly l a x2 :=
  changesOnly.peel (k := [.hdr, .ctr, .regs, .parts, .eth, .fab, .out]) (by
    unfold tblCmd
    repeat' first
      | (simp [changesOnly_foldl]; done)
      | (split <;> try first
          | (rename_i h; have h := (congrArg (fun q => q.2.2.2) h).symm; dsimp only at h; subst h)
          | (rename_i h; have h := (congrArg (fun q => q.2.2) h).symm; dsimp only at h; subst h)
          | (rename_i h; have h := (congrArg (fun q => q.2) h).symm; dsimp only at h; subst h)
          | (rename_i h _; have h := (congrArg (fun q => q.2) h).symm; dsimp only at h; subst h))
      | dsimp only
      | refine (changesOnly_foldl _ _ _ fun b x => ?_).2 ?_
      | refine (Dev.privOnly_only _ _ _ _ _ (fun b => ?_) (by simp)).2 ?_
      | refine (Dev.through_only _ _ _ _ _ (fun b => ?_) (by simp)).2 ?_) hl

@[simp] theorem Dev.fabUp_only {l : List Comp} {a : Dev} (x0 : Dev) (hl : [.hdr, .ctr, .eth, .fab, .out] ⊆ l) :
    changesOnly l a (Dev.fabUp x0) ↔ changesOnly l a x0 :=
  changesOnly.peel (k := [.hdr, .ctr, .eth, .fab, .out]) (by
    unfold Dev.fabUp
    repeat' first
      | (simp [changesOnly_foldl]; done)
      | (split <;> try first
          | (rename_i h; have h := (congrArg (fun q => q.2.2.2) h).symm; dsimp only at h; subst h)
          | (rename_i h; have h := (congrArg (fun q => q.2.2) h).symm; dsimp only at h; subst h)
          | (rename_i h; have h := (congrArg (fun q => q.2) h).symm; dsimp only at h; subst h)
          | (rename_i h _; have h := (congrArg (fun q => q.2) h).symm; dsimp only at h; subst h))
      | dsimp only
      | refine (changesOnly_foldl _ _ _ fun b x => ?_).2 ?_) hl

@[simp] theorem Dev.fabOff_only {l : List Comp} {a : Dev} (x0 : Dev) (hl : [.fab] ⊆ l) :
    changesOnly l a (Dev.fabOff x0) ↔ changesOnly l a x0 :=
  changesOnly.peel (k := [.fab]) (by
    unfold Dev.fabOff
    repeat' first
      | (simp [changesOnly_foldl]; done)
      | (split <;> try first
          | (rename_i h; have h := (congrArg (fun q => q.2.2.2) h).symm; dsimp only at h; subst h)
          | (rename_i h; have h := (congrArg (fun q => q.2.2) h).symm; dsimp only at h; subst h)
          | (rename_i h; have h := (congrArg (fun q => q.2) h).symm; dsimp only at h; subst h)
          | (rename_i h _; have h := (congrArg (fun q => q.2) h).symm; dsimp only at h; subst h))
      | dsimp only
      | refine (changesOnly_foldl _ _ _ fun b x => ?_).2 ?_) hl

end Sys2Proof.Machine
end

