-- ==== Sys2Proof/Laws/OnlyEth.lean ====
section
/-!
SUPPORT. The components that each operation of Machine/Eth.lean can change.
-/

namespace Sys2Proof.Machine

set_option linter.unusedSimpArgs false

open Sys2Proof.Safety

@[simp] theorem pfcAgain_only {l : List Comp} {a : Dev} (x0) (x1) (x2 : Dev) (hl : [.ctr, .isles, .eth, .out] ⊆ l) :
    changesOnly l a (pfcAgain x0 x1 x2) ↔ changesOnly l a x2 :=
  changesOnly.peel (k := [.ctr, .isles, .eth, .out]) (by
    unfold pfcAgain
    repeat' first
      | (simp [changesOnly_foldl]; done)
      | (split <;> try first
          | (rename_i h; have h := (congrArg (fun q => q.2.2.2) h).symm; dsimp only at h; subst h)
          | (rename_i h; have h := (congrArg (fun q => q.2.2) h).symm; dsimp only at h; subst h)
          | (rename_i h; have h := (congrArg (fun q => q.2) h).symm; dsimp only at h; subst h)
          | (rename_i h _; have h := (congrArg (fun q => q.2) h).symm; dsimp only at h; subst h))
      | dsimp only
      | refine (changesOnly_foldl _ _ _ fun b x => ?_).2 ?_) hl

@[simp] theorem pfcOne_only {l : List Comp} {a : Dev} (x0) (x1 : Dev) (x2) (hl : [.ctr, .eth] ⊆ l) :
    changesOnly l a (pfcOne x0 x1 x2) ↔ changesOnly l a x1 :=
  changesOnly.peel (k := [.ctr, .eth]) (by
    unfold pfcOne
    repeat' first
      | (simp [changesOnly_foldl]; done)
      | (split <;> try first
          | (rename_i h; have h := (congrArg (fun q => q.2.2.2) h).symm; dsimp only at h; subst h)
          | (rename_i h; have h := (congrArg (fun q => q.2.2) h).symm; dsimp only at h; subst h)
          | (rename_i h; have h := (congrArg (fun q => q.2) h).symm; dsimp only at h; subst h)
          | (rename_i h _; have h := (congrArg (fun q => q.2) h).symm; dsimp only at h; subst h))
      | dsimp only
      | refine (changesOnly_foldl _ _ _ fun b x => ?_).2 ?_) hl

@[simp] theorem pfcRx_only {l : List Comp} {a : Dev} (x0) (x1) (x2) (x3 : Dev) (hl : [.ctr, .eth] ⊆ l) :
    changesOnly l a (pfcRx x0 x1 x2 x3) ↔ changesOnly l a x3 :=
  changesOnly.peel (k := [.ctr, .eth]) (by
    unfold pfcRx
    repeat' first
      | (simp [changesOnly_foldl]; done)
      | (split <;> try first
          | (rename_i h; have h := (congrArg (fun q => q.2.2.2) h).symm; dsimp only at h; subst h)
          | (rename_i h; have h := (congrArg (fun q => q.2.2) h).symm; dsimp only at h; subst h)
          | (rename_i h; have h := (congrArg (fun q => q.2) h).symm; dsimp only at h; subst h)
          | (rename_i h _; have h := (congrArg (fun q => q.2) h).symm; dsimp only at h; subst h))
      | dsimp only
      | refine (changesOnly_foldl _ _ _ fun b x => ?_).2 ?_) hl

@[simp] theorem pauseEnd_only {l : List Comp} {a : Dev} (x0) (x1) (x2 : Dev) (hl : [.isles, .eth] ⊆ l) :
    changesOnly l a (pauseEnd x0 x1 x2) ↔ changesOnly l a x2 :=
  changesOnly.peel (k := [.isles, .eth]) (by
    unfold pauseEnd
    repeat' first
      | (simp [changesOnly_foldl]; done)
      | (split <;> try first
          | (rename_i h; have h := (congrArg (fun q => q.2.2.2) h).symm; dsimp only at h; subst h)
          | (rename_i h; have h := (congrArg (fun q => q.2.2) h).symm; dsimp only at h; subst h)
          | (rename_i h; have h := (congrArg (fun q => q.2) h).symm; dsimp only at h; subst h)
          | (rename_i h _; have h := (congrArg (fun q => q.2) h).symm; dsimp only at h; subst h))
      | dsimp only
      | refine (changesOnly_foldl _ _ _ fun b x => ?_).2 ?_) hl

@[simp] theorem Dev.setLanes_only {l : List Comp} {a : Dev} (x0 : Dev) (x1) (x2) (hl : [.hdr, .eth] ⊆ l) :
    changesOnly l a (Dev.setLanes x0 x1 x2) ↔ changesOnly l a x0 :=
  changesOnly.peel (k := [.hdr, .eth]) (by
    unfold Dev.setLanes
    repeat' first
      | (simp [changesOnly_foldl]; done)
      | (split <;> try first
          | (rename_i h; have h := (congrArg (fun q => q.2.2.2) h).symm; dsimp only at h; subst h)
          | (rename_i h; have h := (congrArg (fun q => q.2.2) h).symm; dsimp only at h; subst h)
          | (rename_i h; have h := (congrArg (fun q => q.2) h).symm; dsimp only at h; subst h)
          | (rename_i h _; have h := (congrArg (fun q => q.2) h).symm; dsimp only at h; subst h))
      | dsimp only
      | refine (changesOnly_foldl _ _ _ fun b x => ?_).2 ?_) hl

@[simp] theorem Dev.subDown_only {l : List Comp} {a : Dev} (x0 : Dev) (x1) (hl : [.hdr, .ctr, .mem, .poison, .isles, .cores, .sigs, .rede, .tokx, .tier, .eth, .fab, .errm, .out] ⊆ l) :
    changesOnly l a (Dev.subDown x0 x1) ↔ changesOnly l a x0 :=
  changesOnly.peel (k := [.hdr, .ctr, .mem, .poison, .isles, .cores, .sigs, .rede, .tokx, .tier, .eth, .fab, .errm, .out]) (by
    unfold Dev.subDown
    repeat' first
      | (simp [changesOnly_foldl]; done)
      | (split <;> try first
          | (rename_i h; have h := (congrArg (fun q => q.2.2.2) h).symm; dsimp only at h; subst h)
          | (rename_i h; have h := (congrArg (fun q => q.2.2) h).symm; dsimp only at h; subst h)
          | (rename_i h; have h := (congrArg (fun q => q.2) h).symm; dsimp only at h; subst h)
          | (rename_i h _; have h := (congrArg (fun q => q.2) h).symm; dsimp only at h; subst h))
      | dsimp only
      | refine (changesOnly_foldl _ _ _ fun b x => ?_).2 ?_) hl

@[simp] theorem Dev.capOut_only {l : List Comp} {a : Dev} (x0 : Dev) (x1) (hl : [.eth, .out] ⊆ l) :
    changesOnly l a (Dev.capOut x0 x1) ↔ changesOnly l a x0 :=
  changesOnly.peel (k := [.eth, .out]) (by
    unfold Dev.capOut
    repeat' first
      | (simp [changesOnly_foldl]; done)
      | (split <;> try first
          | (rename_i h; have h := (congrArg (fun q => q.2.2.2) h).symm; dsimp only at h; subst h)
          | (rename_i h; have h := (congrArg (fun q => q.2.2) h).symm; dsimp only at h; subst h)
          | (rename_i h; have h := (congrArg (fun q => q.2) h).symm; dsimp only at h; subst h)
          | (rename_i h _; have h := (congrArg (fun q => q.2) h).symm; dsimp only at h; subst h))
      | dsimp only
      | refine (changesOnly_foldl _ _ _ fun b x => ?_).2 ?_) hl

@[simp] theorem subUp_only {l : List Comp} {a : Dev} (x0) (x1 : Dev) (hl : [.hdr, .eth, .out] ⊆ l) :
    changesOnly l a (subUp x0 x1) ↔ changesOnly l a x1 :=
  changesOnly.peel (k := [.hdr, .eth, .out]) (by
    unfold subUp
    repeat' first
      | (simp [changesOnly_foldl]; done)
      | (split <;> try first
          | (rename_i h; have h := (congrArg (fun q => q.2.2.2) h).symm; dsimp only at h; subst h)
          | (rename_i h; have h := (congrArg (fun q => q.2.2) h).symm; dsimp only at h; subst h)
          | (rename_i h; have h := (congrArg (fun q => q.2) h).symm; dsimp only at h; subst h)
          | (rename_i h _; have h := (congrArg (fun q => q.2) h).symm; dsimp only at h; subst h))
      | dsimp only
      | refine (changesOnly_foldl _ _ _ fun b x => ?_).2 ?_) hl

@[simp] theorem subLost_only {l : List Comp} {a : Dev} (x0) (x1 : Dev) (hl : [.hdr, .ctr, .mem, .poison, .isles, .cores, .sigs, .rede, .tokx, .tier, .eth, .fab, .errm, .out] ⊆ l) :
    changesOnly l a (subLost x0 x1) ↔ changesOnly l a x1 :=
  changesOnly.peel (k := [.hdr, .ctr, .mem, .poison, .isles, .cores, .sigs, .rede, .tokx, .tier, .eth, .fab, .errm, .out]) (by
    unfold subLost
    repeat' first
      | (simp [changesOnly_foldl]; done)
      | (split <;> try first
          | (rename_i h; have h := (congrArg (fun q => q.2.2.2) h).symm; dsimp only at h; subst h)
          | (rename_i h; have h := (congrArg (fun q => q.2.2) h).symm; dsimp only at h; subst h)
          | (rename_i h; have h := (congrArg (fun q => q.2) h).symm; dsimp only at h; subst h)
          | (rename_i h _; have h := (congrArg (fun q => q.2) h).symm; dsimp only at h; subst h))
      | dsimp only
      | refine (changesOnly_foldl _ _ _ fun b x => ?_).2 ?_) hl

@[simp] theorem capAgain_only {l : List Comp} {a : Dev} (x0) (x1 : Dev) (hl : [.isles, .eth, .out] ⊆ l) :
    changesOnly l a (capAgain x0 x1) ↔ changesOnly l a x1 :=
  changesOnly.peel (k := [.isles, .eth, .out]) (by
    unfold capAgain
    repeat' first
      | (simp [changesOnly_foldl]; done)
      | (split <;> try first
          | (rename_i h; have h := (congrArg (fun q => q.2.2.2) h).symm; dsimp only at h; subst h)
          | (rename_i h; have h := (congrArg (fun q => q.2.2) h).symm; dsimp only at h; subst h)
          | (rename_i h; have h := (congrArg (fun q => q.2) h).symm; dsimp only at h; subst h)
          | (rename_i h _; have h := (congrArg (fun q => q.2) h).symm; dsimp only at h; subst h))
      | dsimp only
      | refine (changesOnly_foldl _ _ _ fun b x => ?_).2 ?_) hl

@[simp] theorem ebbMsg_only {l : List Comp} {a : Dev} (k) (m) (f) (d : Dev) (hf : ∀ b, changesOnly l b (f b))
    (hl : [.ctr] ⊆ l) : changesOnly l a (ebbMsg k m f d) ↔ changesOnly l a d :=
  changesOnly.peel (k := l) (by
    have hctr : Comp.ctr ∈ l := hl (by simp)
    have hg : ∀ a b, changesOnly l a (f b) ↔ changesOnly l a b := fun a b => (hf b).peel fun _ h => h
    unfold ebbMsg
    repeat' first
      | (simp [hg, hctr]; done)
      | (split <;> try first
          | (rename_i h; have h := (congrArg (fun q => q.2) h).symm; dsimp only at h; subst h))
      | dsimp only) (fun _ h => h)


@[simp] theorem capRx_only {l : List Comp} {a : Dev} (x0) (x1) (x2 : Dev) (hl : [.ctr, .eth] ⊆ l) :
    changesOnly l a (capRx x0 x1 x2) ↔ changesOnly l a x2 :=
  changesOnly.peel (k := [.ctr, .eth]) (by
    unfold capRx
    repeat' first
      | (simp [changesOnly_foldl]; done)
      | (split <;> try first
          | (rename_i h; have h := (congrArg (fun q => q.2.2.2) h).symm; dsimp only at h; subst h)
          | (rename_i h; have h := (congrArg (fun q => q.2.2) h).symm; dsimp only at h; subst h)
          | (rename_i h; have h := (congrArg (fun q => q.2) h).symm; dsimp only at h; subst h)
          | (rename_i h _; have h := (congrArg (fun q => q.2) h).symm; dsimp only at h; subst h))
      | dsimp only
      | refine (changesOnly_foldl _ _ _ fun b x => ?_).2 ?_) hl

@[simp] theorem capEnd_only {l : List Comp} {a : Dev} (x0) (x1 : Dev) (hl : [.isles, .eth] ⊆ l) :
    changesOnly l a (capEnd x0 x1) ↔ changesOnly l a x1 :=
  changesOnly.peel (k := [.isles, .eth]) (by
    unfold capEnd
    repeat' first
      | (simp [changesOnly_foldl]; done)
      | (split <;> try first
          | (rename_i h; have h := (congrArg (fun q => q.2.2.2) h).symm; dsimp only at h; subst h)
          | (rename_i h; have h := (congrArg (fun q => q.2.2) h).symm; dsimp only at h; subst h)
          | (rename_i h; have h := (congrArg (fun q => q.2) h).symm; dsimp only at h; subst h)
          | (rename_i h _; have h := (congrArg (fun q => q.2) h).symm; dsimp only at h; subst h))
      | dsimp only
      | refine (changesOnly_foldl _ _ _ fun b x => ?_).2 ?_) hl

@[simp] theorem windowEnd_only {l : List Comp} {a : Dev} (x0) (x1 : Dev) (hl : [.isles, .eth, .out] ⊆ l) :
    changesOnly l a (windowEnd x0 x1) ↔ changesOnly l a x1 :=
  changesOnly.peel (k := [.isles, .eth, .out]) (by
    unfold windowEnd
    repeat' first
      | (simp [changesOnly_foldl]; done)
      | (split <;> try first
          | (rename_i h; have h := (congrArg (fun q => q.2.2.2) h).symm; dsimp only at h; subst h)
          | (rename_i h; have h := (congrArg (fun q => q.2.2) h).symm; dsimp only at h; subst h)
          | (rename_i h; have h := (congrArg (fun q => q.2) h).symm; dsimp only at h; subst h)
          | (rename_i h _; have h := (congrArg (fun q => q.2) h).symm; dsimp only at h; subst h))
      | dsimp only
      | refine (changesOnly_foldl _ _ _ fun b x => ?_).2 ?_) hl

@[simp] theorem Dev.ebbHold_only {l : List Comp} {a : Dev} (x0 : Dev) (x1) (x2) (x3) (hl : [.eth] ⊆ l) :
    changesOnly l a (Dev.ebbHold x0 x1 x2 x3) ↔ changesOnly l a x0 :=
  changesOnly.peel (k := [.eth]) (by
    unfold Dev.ebbHold
    repeat' first
      | (simp [changesOnly_foldl]; done)
      | (split <;> try first
          | (rename_i h; have h := (congrArg (fun q => q.2.2.2) h).symm; dsimp only at h; subst h)
          | (rename_i h; have h := (congrArg (fun q => q.2.2) h).symm; dsimp only at h; subst h)
          | (rename_i h; have h := (congrArg (fun q => q.2) h).symm; dsimp only at h; subst h)
          | (rename_i h _; have h := (congrArg (fun q => q.2) h).symm; dsimp only at h; subst h))
      | dsimp only
      | refine (changesOnly_foldl _ _ _ fun b x => ?_).2 ?_) hl

@[simp] theorem shedReqRx_only {l : List Comp} {a : Dev} (x0) (x1) (x2 : Dev) (hl : [.ctr, .eth, .out] ⊆ l) :
    changesOnly l a (shedReqRx x0 x1 x2) ↔ changesOnly l a x2 :=
  changesOnly.peel (k := [.ctr, .eth, .out]) (by
    unfold shedReqRx
    repeat' first
      | (simp [changesOnly_foldl]; done)
      | (split <;> try first
          | (rename_i h; have h := (congrArg (fun q => q.2.2.2) h).symm; dsimp only at h; subst h)
          | (rename_i h; have h := (congrArg (fun q => q.2.2) h).symm; dsimp only at h; subst h)
          | (rename_i h; have h := (congrArg (fun q => q.2) h).symm; dsimp only at h; subst h)
          | (rename_i h _; have h := (congrArg (fun q => q.2) h).symm; dsimp only at h; subst h))
      | dsimp only
      | refine (changesOnly_foldl _ _ _ fun b x => ?_).2 ?_) hl

@[simp] theorem shedAgain_only {l : List Comp} {a : Dev} (x0) (x1 : Dev) (hl : [.isles, .eth, .out] ⊆ l) :
    changesOnly l a (shedAgain x0 x1) ↔ changesOnly l a x1 :=
  changesOnly.peel (k := [.isles, .eth, .out]) (by
    unfold shedAgain
    repeat' first
      | (simp [changesOnly_foldl]; done)
      | (split <;> try first
          | (rename_i h; have h := (congrArg (fun q => q.2.2.2) h).symm; dsimp only at h; subst h)
          | (rename_i h; have h := (congrArg (fun q => q.2.2) h).symm; dsimp only at h; subst h)
          | (rename_i h; have h := (congrArg (fun q => q.2) h).symm; dsimp only at h; subst h)
          | (rename_i h _; have h := (congrArg (fun q => q.2) h).symm; dsimp only at h; subst h))
      | dsimp only
      | refine (changesOnly_foldl _ _ _ fun b x => ?_).2 ?_) hl

@[simp] theorem shedAckRx_only {l : List Comp} {a : Dev} (x0) (x1) (x2 : Dev) (hl : [.ctr, .eth] ⊆ l) :
    changesOnly l a (shedAckRx x0 x1 x2) ↔ changesOnly l a x2 :=
  changesOnly.peel (k := [.ctr, .eth]) (by
    unfold shedAckRx
    repeat' first
      | (simp [changesOnly_foldl]; done)
      | (split <;> try first
          | (rename_i h; have h := (congrArg (fun q => q.2.2.2) h).symm; dsimp only at h; subst h)
          | (rename_i h; have h := (congrArg (fun q => q.2.2) h).symm; dsimp only at h; subst h)
          | (rename_i h; have h := (congrArg (fun q => q.2) h).symm; dsimp only at h; subst h)
          | (rename_i h _; have h := (congrArg (fun q => q.2) h).symm; dsimp only at h; subst h))
      | dsimp only
      | refine (changesOnly_foldl _ _ _ fun b x => ?_).2 ?_
      | refine (ebbMsg_only _ _ _ _ (fun b => ?_) (by simp)).2 ?_) hl

@[simp] theorem shedNakRx_only {l : List Comp} {a : Dev} (x0) (x1) (x2 : Dev) (hl : [.ctr, .eth] ⊆ l) :
    changesOnly l a (shedNakRx x0 x1 x2) ↔ changesOnly l a x2 :=
  changesOnly.peel (k := [.ctr, .eth]) (by
    unfold shedNakRx
    repeat' first
      | (simp [changesOnly_foldl]; done)
      | (split <;> try first
          | (rename_i h; have h := (congrArg (fun q => q.2.2.2) h).symm; dsimp only at h; subst h)
          | (rename_i h; have h := (congrArg (fun q => q.2.2) h).symm; dsimp only at h; subst h)
          | (rename_i h; have h := (congrArg (fun q => q.2) h).symm; dsimp only at h; subst h)
          | (rename_i h _; have h := (congrArg (fun q => q.2) h).symm; dsimp only at h; subst h))
      | dsimp only
      | refine (changesOnly_foldl _ _ _ fun b x => ?_).2 ?_
      | refine (ebbMsg_only _ _ _ _ (fun b => ?_) (by simp)).2 ?_) hl

@[simp] theorem rateWindowEnd_only {l : List Comp} {a : Dev} (x0) (x1 : Dev) (hl : [.isles, .eth, .out] ⊆ l) :
    changesOnly l a (rateWindowEnd x0 x1) ↔ changesOnly l a x1 :=
  changesOnly.peel (k := [.isles, .eth, .out]) (by
    unfold rateWindowEnd
    repeat' first
      | (simp [changesOnly_foldl]; done)
      | (split <;> try first
          | (rename_i h; have h := (congrArg (fun q => q.2.2.2) h).symm; dsimp only at h; subst h)
          | (rename_i h; have h := (congrArg (fun q => q.2.2) h).symm; dsimp only at h; subst h)
          | (rename_i h; have h := (congrArg (fun q => q.2) h).symm; dsimp only at h; subst h)
          | (rename_i h _; have h := (congrArg (fun q => q.2) h).symm; dsimp only at h; subst h))
      | dsimp only
      | refine (changesOnly_foldl _ _ _ fun b x => ?_).2 ?_) hl

@[simp] theorem wakeRx_only {l : List Comp} {a : Dev} (x0) (x1) (x2 : Dev) (hl : [.ctr, .eth, .out] ⊆ l) :
    changesOnly l a (wakeRx x0 x1 x2) ↔ changesOnly l a x2 :=
  changesOnly.peel (k := [.ctr, .eth, .out]) (by
    unfold wakeRx
    repeat' first
      | (simp [changesOnly_foldl]; done)
      | (split <;> try first
          | (rename_i h; have h := (congrArg (fun q => q.2.2.2) h).symm; dsimp only at h; subst h)
          | (rename_i h; have h := (congrArg (fun q => q.2.2) h).symm; dsimp only at h; subst h)
          | (rename_i h; have h := (congrArg (fun q => q.2) h).symm; dsimp only at h; subst h)
          | (rename_i h _; have h := (congrArg (fun q => q.2) h).symm; dsimp only at h; subst h))
      | dsimp only
      | refine (changesOnly_foldl _ _ _ fun b x => ?_).2 ?_
      | refine (ebbMsg_only _ _ _ _ (fun b => ?_) (by simp)).2 ?_) hl

@[simp] theorem wakeAckRx_only {l : List Comp} {a : Dev} (x0) (x1) (x2 : Dev) (hl : [.ctr, .eth] ⊆ l) :
    changesOnly l a (wakeAckRx x0 x1 x2) ↔ changesOnly l a x2 :=
  changesOnly.peel (k := [.ctr, .eth]) (by
    unfold wakeAckRx
    repeat' first
      | (simp [changesOnly_foldl]; done)
      | (split <;> try first
          | (rename_i h; have h := (congrArg (fun q => q.2.2.2) h).symm; dsimp only at h; subst h)
          | (rename_i h; have h := (congrArg (fun q => q.2.2) h).symm; dsimp only at h; subst h)
          | (rename_i h; have h := (congrArg (fun q => q.2) h).symm; dsimp only at h; subst h)
          | (rename_i h _; have h := (congrArg (fun q => q.2) h).symm; dsimp only at h; subst h))
      | dsimp only
      | refine (changesOnly_foldl _ _ _ fun b x => ?_).2 ?_
      | refine (ebbMsg_only _ _ _ _ (fun b => ?_) (by simp)).2 ?_) hl

@[simp] theorem Dev.fallBack_only {l : List Comp} {a : Dev} (x0 : Dev) (x1) (hl : [.hdr, .ctr, .mem, .poison, .isles, .cores, .sigs, .rede, .tokx, .tier, .eth, .fab, .errm, .out] ⊆ l) :
    changesOnly l a (Dev.fallBack x0 x1) ↔ changesOnly l a x0 :=
  changesOnly.peel (k := [.hdr, .ctr, .mem, .poison, .isles, .cores, .sigs, .rede, .tokx, .tier, .eth, .fab, .errm, .out]) (by
    unfold Dev.fallBack
    repeat' first
      | (simp [changesOnly_foldl]; done)
      | (split <;> try first
          | (rename_i h; have h := (congrArg (fun q => q.2.2.2) h).symm; dsimp only at h; subst h)
          | (rename_i h; have h := (congrArg (fun q => q.2.2) h).symm; dsimp only at h; subst h)
          | (rename_i h; have h := (congrArg (fun q => q.2) h).symm; dsimp only at h; subst h)
          | (rename_i h _; have h := (congrArg (fun q => q.2) h).symm; dsimp only at h; subst h))
      | dsimp only
      | refine (changesOnly_foldl _ _ _ fun b x => ?_).2 ?_) hl

@[simp] theorem wakeAgain_only {l : List Comp} {a : Dev} (x0) (x1 : Dev) (hl : [.hdr, .ctr, .mem, .poison, .isles, .cores, .sigs, .rede, .tokx, .tier, .eth, .fab, .errm, .out] ⊆ l) :
    changesOnly l a (wakeAgain x0 x1) ↔ changesOnly l a x1 :=
  changesOnly.peel (k := [.hdr, .ctr, .mem, .poison, .isles, .cores, .sigs, .rede, .tokx, .tier, .eth, .fab, .errm, .out]) (by
    unfold wakeAgain
    repeat' first
      | (simp [changesOnly_foldl]; done)
      | (split <;> try first
          | (rename_i h; have h := (congrArg (fun q => q.2.2.2) h).symm; dsimp only at h; subst h)
          | (rename_i h; have h := (congrArg (fun q => q.2.2) h).symm; dsimp only at h; subst h)
          | (rename_i h; have h := (congrArg (fun q => q.2) h).symm; dsimp only at h; subst h)
          | (rename_i h _; have h := (congrArg (fun q => q.2) h).symm; dsimp only at h; subst h))
      | dsimp only
      | refine (changesOnly_foldl _ _ _ fun b x => ?_).2 ?_) hl

@[simp] theorem aligned_only {l : List Comp} {a : Dev} (x0) (x1 : Dev) (hl : [.hdr, .ctr, .eth, .fab] ⊆ l) :
    changesOnly l a (aligned x0 x1) ↔ changesOnly l a x1 :=
  changesOnly.peel (k := [.hdr, .ctr, .eth, .fab]) (by
    unfold aligned
    repeat' first
      | (simp [changesOnly_foldl]; done)
      | (split <;> try first
          | (rename_i h; have h := (congrArg (fun q => q.2.2.2) h).symm; dsimp only at h; subst h)
          | (rename_i h; have h := (congrArg (fun q => q.2.2) h).symm; dsimp only at h; subst h)
          | (rename_i h; have h := (congrArg (fun q => q.2) h).symm; dsimp only at h; subst h)
          | (rename_i h _; have h := (congrArg (fun q => q.2) h).symm; dsimp only at h; subst h))
      | dsimp only
      | refine (changesOnly_foldl _ _ _ fun b x => ?_).2 ?_) hl

@[simp] theorem alignLate_only {l : List Comp} {a : Dev} (x0) (x1 : Dev) (hl : [.hdr, .ctr, .mem, .poison, .isles, .cores, .sigs, .rede, .tokx, .tier, .eth, .fab, .errm, .out] ⊆ l) :
    changesOnly l a (alignLate x0 x1) ↔ changesOnly l a x1 :=
  changesOnly.peel (k := [.hdr, .ctr, .mem, .poison, .isles, .cores, .sigs, .rede, .tokx, .tier, .eth, .fab, .errm, .out]) (by
    unfold alignLate
    repeat' first
      | (simp [changesOnly_foldl]; done)
      | (split <;> try first
          | (rename_i h; have h := (congrArg (fun q => q.2.2.2) h).symm; dsimp only at h; subst h)
          | (rename_i h; have h := (congrArg (fun q => q.2.2) h).symm; dsimp only at h; subst h)
          | (rename_i h; have h := (congrArg (fun q => q.2) h).symm; dsimp only at h; subst h)
          | (rename_i h _; have h := (congrArg (fun q => q.2) h).symm; dsimp only at h; subst h))
      | dsimp only
      | refine (changesOnly_foldl _ _ _ fun b x => ?_).2 ?_) hl

@[simp] theorem Dev.deliverFrame_only {l : List Comp} {a : Dev} (x0 : Dev) (x1) (x2) (hl : [.ctr, .eth, .out] ⊆ l) :
    changesOnly l a (Dev.deliverFrame x0 x1 x2) ↔ changesOnly l a x0 :=
  changesOnly.peel (k := [.ctr, .eth, .out]) (by
    unfold Dev.deliverFrame
    repeat' first
      | (simp [changesOnly_foldl]; done)
      | (split <;> try first
          | (rename_i h; have h := (congrArg (fun q => q.2.2.2) h).symm; dsimp only at h; subst h)
          | (rename_i h; have h := (congrArg (fun q => q.2.2) h).symm; dsimp only at h; subst h)
          | (rename_i h; have h := (congrArg (fun q => q.2) h).symm; dsimp only at h; subst h)
          | (rename_i h _; have h := (congrArg (fun q => q.2) h).symm; dsimp only at h; subst h))
      | dsimp only
      | refine (changesOnly_foldl _ _ _ fun b x => ?_).2 ?_) hl

@[simp] theorem ebbFrame_only {l : List Comp} {a : Dev} (x0) (x1) (x2 : Dev) (hl : [.ctr, .eth, .out] ⊆ l) :
    changesOnly l a (ebbFrame x0 x1 x2) ↔ changesOnly l a x2 :=
  changesOnly.peel (k := [.ctr, .eth, .out]) (by
    unfold ebbFrame
    repeat' first
      | (simp [changesOnly_foldl]; done)
      | (split <;> try first
          | (rename_i h; have h := (congrArg (fun q => q.2.2.2) h).symm; dsimp only at h; subst h)
          | (rename_i h; have h := (congrArg (fun q => q.2.2) h).symm; dsimp only at h; subst h)
          | (rename_i h; have h := (congrArg (fun q => q.2) h).symm; dsimp only at h; subst h)
          | (rename_i h _; have h := (congrArg (fun q => q.2) h).symm; dsimp only at h; subst h))
      | dsimp only
      | refine (changesOnly_foldl _ _ _ fun b x => ?_).2 ?_) hl

@[simp] theorem frameRx_only {l : List Comp} {a : Dev} (x0) (x1) (x2 : Dev) (hl : [.ctr, .eth, .out] ⊆ l) :
    changesOnly l a (frameRx x0 x1 x2) ↔ changesOnly l a x2 :=
  changesOnly.peel (k := [.ctr, .eth, .out]) (by
    unfold frameRx
    repeat' first
      | (simp [changesOnly_foldl]; done)
      | (split <;> try first
          | (rename_i h; have h := (congrArg (fun q => q.2.2.2) h).symm; dsimp only at h; subst h)
          | (rename_i h; have h := (congrArg (fun q => q.2.2) h).symm; dsimp only at h; subst h)
          | (rename_i h; have h := (congrArg (fun q => q.2) h).symm; dsimp only at h; subst h)
          | (rename_i h _; have h := (congrArg (fun q => q.2) h).symm; dsimp only at h; subst h))
      | dsimp only
      | refine (changesOnly_foldl _ _ _ fun b x => ?_).2 ?_) hl

@[simp] theorem Dev.sendFrame_only {l : List Comp} {a : Dev} (x0 : Dev) (x1) (x2) (x3) (hl : [.ctr, .eth, .out, .free] ⊆ l) :
    changesOnly l a (Dev.sendFrame x0 x1 x2 x3) ↔ changesOnly l a x0 :=
  changesOnly.peel (k := [.ctr, .eth, .out, .free]) (by
    unfold Dev.sendFrame
    repeat' first
      | (simp [changesOnly_foldl]; done)
      | (split <;> try first
          | (rename_i h; have h := (congrArg (fun q => q.2.2.2) h).symm; dsimp only at h; subst h)
          | (rename_i h; have h := (congrArg (fun q => q.2.2) h).symm; dsimp only at h; subst h)
          | (rename_i h; have h := (congrArg (fun q => q.2) h).symm; dsimp only at h; subst h)
          | (rename_i h _; have h := (congrArg (fun q => q.2) h).symm; dsimp only at h; subst h))
      | dsimp only
      | refine (changesOnly_foldl _ _ _ fun b x => ?_).2 ?_) hl

@[simp] theorem frameTx_only {l : List Comp} {a : Dev} (x0) (x1 : Dev) (hl : [.ctr, .eth, .out, .free] ⊆ l) :
    changesOnly l a (frameTx x0 x1) ↔ changesOnly l a x1 :=
  changesOnly.peel (k := [.ctr, .eth, .out, .free]) (by
    unfold frameTx
    repeat' first
      | (simp [changesOnly_foldl]; done)
      | (split <;> try first
          | (rename_i h; have h := (congrArg (fun q => q.2.2.2) h).symm; dsimp only at h; subst h)
          | (rename_i h; have h := (congrArg (fun q => q.2.2) h).symm; dsimp only at h; subst h)
          | (rename_i h; have h := (congrArg (fun q => q.2) h).symm; dsimp only at h; subst h)
          | (rename_i h _; have h := (congrArg (fun q => q.2) h).symm; dsimp only at h; subst h))
      | dsimp only
      | refine (changesOnly_foldl _ _ _ fun b x => ?_).2 ?_) hl

@[simp] theorem modeWrite_only {l : List Comp} {a : Dev} (x0) (x1) (x2) (x3 : Dev) (hl : [.hdr, .ctr, .regs, .parts, .mem, .poison, .isles, .cores, .sigs, .rede, .tokx, .tier, .eth, .fab, .errm, .out] ⊆ l) :
    changesOnly l a (modeWrite x0 x1 x2 x3) ↔ changesOnly l a x3 :=
  changesOnly.peel (k := [.hdr, .ctr, .regs, .parts, .mem, .poison, .isles, .cores, .sigs, .rede, .tokx, .tier, .eth, .fab, .errm, .out]) (by
    unfold modeWrite
    repeat' first
      | (simp [changesOnly_foldl]; done)
      | (split <;> try first
          | (rename_i h; have h := (congrArg (fun q => q.2.2.2) h).symm; dsimp only at h; subst h)
          | (rename_i h; have h := (congrArg (fun q => q.2.2) h).symm; dsimp only at h; subst h)
          | (rename_i h; have h := (congrArg (fun q => q.2) h).symm; dsimp only at h; subst h)
          | (rename_i h _; have h := (congrArg (fun q => q.2) h).symm; dsimp only at h; subst h))
      | dsimp only
      | refine (changesOnly_foldl _ _ _ fun b x => ?_).2 ?_
      | refine (Dev.privOnly_only _ _ _ _ _ (fun b => ?_) (by simp)).2 ?_
      | refine (Dev.through_only _ _ _ _ _ (fun b => ?_) (by simp)).2 ?_) hl

@[simp] theorem qpWrite_only {l : List Comp} {a : Dev} (x0) (x1) (x2) (x3) (x4) (x5 : Dev) (hl : [.hdr, .ctr, .regs, .parts, .eth, .fab, .out] ⊆ l) :
    changesOnly l a (qpWrite x0 x1 x2 x3 x4 x5) ↔ changesOnly l a x5 :=
  changesOnly.peel (k := [.hdr, .ctr, .regs, .parts, .eth, .fab, .out]) (by
    unfold qpWrite
    repeat' first
      | (simp [changesOnly_foldl]; done)
      | (split <;> try first
          | (rename_i h; have h := (congrArg (fun q => q.2.2.2) h).symm; dsimp only at h; subst h)
          | (rename_i h; have h := (congrArg (fun q => q.2.2) h).symm; dsimp only at h; subst h)
          | (rename_i h; have h := (congrArg (fun q => q.2) h).symm; dsimp only at h; subst h)
          | (rename_i h _; have h := (congrArg (fun q => q.2) h).symm; dsimp only at h; subst h))
      | dsimp only
      | refine (changesOnly_foldl _ _ _ fun b x => ?_).2 ?_) hl

@[simp] theorem ebbCtlWrite_only {l : List Comp} {a : Dev} (x0) (x1) (x2) (x3 : Dev) (hl : [.hdr, .regs, .parts, .eth] ⊆ l) :
    changesOnly l a (ebbCtlWrite x0 x1 x2 x3) ↔ changesOnly l a x3 :=
  changesOnly.peel (k := [.hdr, .regs, .parts, .eth]) (by
    unfold ebbCtlWrite
    repeat' first
      | (simp [changesOnly_foldl]; done)
      | (split <;> try first
          | (rename_i h; have h := (congrArg (fun q => q.2.2.2) h).symm; dsimp only at h; subst h)
          | (rename_i h; have h := (congrArg (fun q => q.2.2) h).symm; dsimp only at h; subst h)
          | (rename_i h; have h := (congrArg (fun q => q.2) h).symm; dsimp only at h; subst h)
          | (rename_i h _; have h := (congrArg (fun q => q.2) h).symm; dsimp only at h; subst h))
      | dsimp only
      | refine (changesOnly_foldl _ _ _ fun b x => ?_).2 ?_
      | refine (Dev.privOnly_only _ _ _ _ _ (fun b => ?_) (by simp)).2 ?_
      | refine (Dev.through_only _ _ _ _ _ (fun b => ?_) (by simp)).2 ?_) hl

end Sys2Proof.Machine
end

