-- ==== Sys2Proof/Laws/OnlyDma.lean ====
section
/-!
SUPPORT. The components that each operation of Machine/Dma.lean can change.
-/

namespace Sys2Proof.Machine

set_option linter.unusedSimpArgs false

open Sys2Proof.Safety

@[simp] theorem Dev.updDma_only {l : List Comp} {a : Dev} (x0 : Dev) (x1) (x2) (hl : [.dmae] ⊆ l) :
    changesOnly l a (Dev.updDma x0 x1 x2) ↔ changesOnly l a x0 :=
  changesOnly.peel (k := [.dmae]) (by
    unfold Dev.updDma
    repeat' first
      | (simp [changesOnly_foldl]; done)
      | (split <;> try first
          | (rename_i h; have h := (congrArg (fun q => q.2.2.2) h).symm; dsimp only at h; subst h)
          | (rename_i h; have h := (congrArg (fun q => q.2.2) h).symm; dsimp only at h; subst h)
          | (rename_i h; have h := (congrArg (fun q => q.2) h).symm; dsimp only at h; subst h)
          | (rename_i h _; have h := (congrArg (fun q => q.2) h).symm; dsimp only at h; subst h))
      | dsimp only
      | refine (changesOnly_foldl _ _ _ fun b x => ?_).2 ?_) hl

@[simp] theorem Dev.updChan_only {l : List Comp} {a : Dev} (x0 : Dev) (x1) (x2) (x3) (hl : [.dmae] ⊆ l) :
    changesOnly l a (Dev.updChan x0 x1 x2 x3) ↔ changesOnly l a x0 :=
  changesOnly.peel (k := [.dmae]) (by
    unfold Dev.updChan
    repeat' first
      | (simp [changesOnly_foldl]; done)
      | (split <;> try first
          | (rename_i h; have h := (congrArg (fun q => q.2.2.2) h).symm; dsimp only at h; subst h)
          | (rename_i h; have h := (congrArg (fun q => q.2.2) h).symm; dsimp only at h; subst h)
          | (rename_i h; have h := (congrArg (fun q => q.2) h).symm; dsimp only at h; subst h)
          | (rename_i h _; have h := (congrArg (fun q => q.2) h).symm; dsimp only at h; subst h))
      | dsimp only
      | refine (changesOnly_foldl _ _ _ fun b x => ?_).2 ?_) hl

@[simp] theorem Dev.dmaCnt_only {l : List Comp} {a : Dev} (x0 : Dev) (x1) (x2) (x3) (hl : [.ctr] ⊆ l) :
    changesOnly l a (Dev.dmaCnt x0 x1 x2 x3) ↔ changesOnly l a x0 :=
  changesOnly.peel (k := [.ctr]) (by
    unfold Dev.dmaCnt
    repeat' first
      | (simp [changesOnly_foldl]; done)
      | (split <;> try first
          | (rename_i h; have h := (congrArg (fun q => q.2.2.2) h).symm; dsimp only at h; subst h)
          | (rename_i h; have h := (congrArg (fun q => q.2.2) h).symm; dsimp only at h; subst h)
          | (rename_i h; have h := (congrArg (fun q => q.2) h).symm; dsimp only at h; subst h)
          | (rename_i h _; have h := (congrArg (fun q => q.2) h).symm; dsimp only at h; subst h))
      | dsimp only
      | refine (changesOnly_foldl _ _ _ fun b x => ?_).2 ?_) hl

@[simp] theorem Dev.dmaRead_only {l : List Comp} {a : Dev} (x0 : Dev) (x1) (x2) (x3) (hl : [.hdr, .ctr, .tier] ⊆ l) :
    changesOnly l a (Dev.dmaRead x0 x1 x2 x3).2 ↔ changesOnly l a x0 :=
  changesOnly.peel (k := [.hdr, .ctr, .tier]) (by
    unfold Dev.dmaRead
    repeat' first
      | (simp [changesOnly_foldl]; done)
      | (split <;> try first
          | (rename_i h; have h := (congrArg (fun q => q.2.2.2) h).symm; dsimp only at h; subst h)
          | (rename_i h; have h := (congrArg (fun q => q.2.2) h).symm; dsimp only at h; subst h)
          | (rename_i h; have h := (congrArg (fun q => q.2) h).symm; dsimp only at h; subst h)
          | (rename_i h _; have h := (congrArg (fun q => q.2) h).symm; dsimp only at h; subst h))
      | dsimp only
      | refine (changesOnly_foldl _ _ _ fun b x => ?_).2 ?_) hl

@[simp] theorem Dev.dmaWrite_only {l : List Comp} {a : Dev} (x0 : Dev) (x1) (x2) (x3) (x4) (hl : [.hdr, .ctr, .mem, .poison, .cores, .tier] ⊆ l) :
    changesOnly l a (Dev.dmaWrite x0 x1 x2 x3 x4) ↔ changesOnly l a x0 :=
  changesOnly.peel (k := [.hdr, .ctr, .mem, .poison, .cores, .tier]) (by
    unfold Dev.dmaWrite
    repeat' first
      | (simp [changesOnly_foldl]; done)
      | (split <;> try first
          | (rename_i h; have h := (congrArg (fun q => q.2.2.2) h).symm; dsimp only at h; subst h)
          | (rename_i h; have h := (congrArg (fun q => q.2.2) h).symm; dsimp only at h; subst h)
          | (rename_i h; have h := (congrArg (fun q => q.2) h).symm; dsimp only at h; subst h)
          | (rename_i h _; have h := (congrArg (fun q => q.2) h).symm; dsimp only at h; subst h))
      | dsimp only
      | refine (changesOnly_foldl _ _ _ fun b x => ?_).2 ?_) hl

@[simp] theorem Dev.dmaPrepare_only {l : List Comp} {a : Dev} (x0 : Dev) (x1) (x2) (x3) (x4) (hl : [.ctr, .mem, .poison, .isles, .tier] ⊆ l) :
    changesOnly l a (Dev.dmaPrepare x0 x1 x2 x3 x4).2 ↔ changesOnly l a x0 :=
  changesOnly.peel (k := [.ctr, .mem, .poison, .isles, .tier]) (by
    unfold Dev.dmaPrepare
    repeat' first
      | (simp [changesOnly_foldl]; done)
      | (split <;> try first
          | (rename_i h; have h := (congrArg (fun q => q.2.2.2) h).symm; dsimp only at h; subst h)
          | (rename_i h; have h := (congrArg (fun q => q.2.2) h).symm; dsimp only at h; subst h)
          | (rename_i h; have h := (congrArg (fun q => q.2) h).symm; dsimp only at h; subst h)
          | (rename_i h _; have h := (congrArg (fun q => q.2) h).symm; dsimp only at h; subst h))
      | dsimp only
      | refine (changesOnly_foldl _ _ _ fun b x => ?_).2 ?_) hl

@[simp] theorem Dev.dmaMark_only {l : List Comp} {a : Dev} (x0 : Dev) (x1) (x2) (x3) (hl : [.poison] ⊆ l) :
    changesOnly l a (Dev.dmaMark x0 x1 x2 x3) ↔ changesOnly l a x0 :=
  changesOnly.peel (k := [.poison]) (by
    unfold Dev.dmaMark
    repeat' first
      | (simp [changesOnly_foldl]; done)
      | (split <;> try first
          | (rename_i h; have h := (congrArg (fun q => q.2.2.2) h).symm; dsimp only at h; subst h)
          | (rename_i h; have h := (congrArg (fun q => q.2.2) h).symm; dsimp only at h; subst h)
          | (rename_i h; have h := (congrArg (fun q => q.2) h).symm; dsimp only at h; subst h)
          | (rename_i h _; have h := (congrArg (fun q => q.2) h).symm; dsimp only at h; subst h))
      | dsimp only
      | refine (changesOnly_foldl _ _ _ fun b x => ?_).2 ?_) hl

@[simp] theorem dmaTail_only {l : List Comp} {a : Dev} (x0) (x1) (x2) (x3 : Dev) (hl : [.hdr, .parts, .dmae] ⊆ l) :
    changesOnly l a (dmaTail x0 x1 x2 x3) ↔ changesOnly l a x3 :=
  changesOnly.peel (k := [.hdr, .parts, .dmae]) (by
    unfold dmaTail
    repeat' first
      | (simp [changesOnly_foldl]; done)
      | (split <;> try first
          | (rename_i h; have h := (congrArg (fun q => q.2.2.2) h).symm; dsimp only at h; subst h)
          | (rename_i h; have h := (congrArg (fun q => q.2.2) h).symm; dsimp only at h; subst h)
          | (rename_i h; have h := (congrArg (fun q => q.2) h).symm; dsimp only at h; subst h)
          | (rename_i h _; have h := (congrArg (fun q => q.2) h).symm; dsimp only at h; subst h))
      | dsimp only
      | refine (changesOnly_foldl _ _ _ fun b x => ?_).2 ?_) hl

@[simp] theorem Dev.dmaRefuse_only {l : List Comp} {a : Dev} (x0 : Dev) (x1) (x2) (x3) (hl : [.hdr, .ctr, .dmae] ⊆ l) :
    changesOnly l a (Dev.dmaRefuse x0 x1 x2 x3) ↔ changesOnly l a x0 :=
  changesOnly.peel (k := [.hdr, .ctr, .dmae]) (by
    unfold Dev.dmaRefuse
    repeat' first
      | (simp [changesOnly_foldl]; done)
      | (split <;> try first
          | (rename_i h; have h := (congrArg (fun q => q.2.2.2) h).symm; dsimp only at h; subst h)
          | (rename_i h; have h := (congrArg (fun q => q.2.2) h).symm; dsimp only at h; subst h)
          | (rename_i h; have h := (congrArg (fun q => q.2) h).symm; dsimp only at h; subst h)
          | (rename_i h _; have h := (congrArg (fun q => q.2) h).symm; dsimp only at h; subst h))
      | dsimp only
      | refine (changesOnly_foldl _ _ _ fun b x => ?_).2 ?_) hl

@[simp] theorem dmaStart_only {l : List Comp} {a : Dev} (x0) (x1 : Dev) (hl : [.hdr, .ctr, .mem, .poison, .isles, .tier, .dmae, .errm, .free] ⊆ l) :
    changesOnly l a (dmaStart x0 x1) ↔ changesOnly l a x1 :=
  changesOnly.peel (k := [.hdr, .ctr, .mem, .poison, .isles, .tier, .dmae, .errm, .free]) (by
    unfold dmaStart
    repeat' first
      | (simp [changesOnly_foldl]; done)
      | (split <;> try first
          | (rename_i h; have h := (congrArg (fun q => q.2.2.2) h).symm; dsimp only at h; subst h)
          | (rename_i h; have h := (congrArg (fun q => q.2.2) h).symm; dsimp only at h; subst h)
          | (rename_i h; have h := (congrArg (fun q => q.2) h).symm; dsimp only at h; subst h)
          | (rename_i h _; have h := (congrArg (fun q => q.2) h).symm; dsimp only at h; subst h))
      | dsimp only
      | refine (changesOnly_foldl _ _ _ fun b x => ?_).2 ?_) hl

@[simp] theorem dmaIn_only {l : List Comp} {a : Dev} (x0) (x1) (x2) (x3) (x4) (x5 : Dev) (hl : [.hdr, .ctr, .mem, .poison, .cores, .tier] ⊆ l) :
    changesOnly l a (dmaIn x0 x1 x2 x3 x4 x5) ↔ changesOnly l a x5 :=
  changesOnly.peel (k := [.hdr, .ctr, .mem, .poison, .cores, .tier]) (by
    have key : ∀ x4, ∀ (x0) (x1) (x2) (x3) (x5 : Dev) (a : Dev), changesOnly [.hdr, .ctr, .mem, .poison, .cores, .tier] a (dmaIn x0 x1 x2 x3 x4 x5) ↔ changesOnly [.hdr, .ctr, .mem, .poison, .cores, .tier] a x5 := by
      intro x4
      induction x4 with
      | nil => intro x0 x1 x2 x3 x5 a; simp [dmaIn]
      | cons y ys ih =>
        intro x0 x1 x2 x3 x5 a
        unfold dmaIn
        repeat' first
          | (simp [*, changesOnly_foldl]; done)
          | (split <;> try first
            | (rename_i h; have h := (congrArg (fun q => q.2.2.2) h).symm; dsimp only at h; subst h)
            | (rename_i h; have h := (congrArg (fun q => q.2.2) h).symm; dsimp only at h; subst h)
            | (rename_i h; have h := (congrArg (fun q => q.2) h).symm; dsimp only at h; subst h)
            | (rename_i h _; have h := (congrArg (fun q => q.2) h).symm; dsimp only at h; subst h))
          | dsimp only
          | refine (changesOnly_foldl _ _ _ fun b x => ?_).2 ?_
    exact (key x4 x0 x1 x2 x3 x5 x5).2 (changesOnly_self _ _)) hl

@[simp] theorem dmaOut_only {l : List Comp} {a : Dev} (x0) (x1) (x2 : Dev) (hl : [.hdr, .ctr, .tier, .out] ⊆ l) :
    changesOnly l a (dmaOut x0 x1 x2).2 ↔ changesOnly l a x2 :=
  changesOnly.peel (k := [.hdr, .ctr, .tier, .out]) (by
    have key : ∀ x1, ∀ (x0) (x2 : Dev) (a : Dev), changesOnly [.hdr, .ctr, .tier, .out] a (dmaOut x0 x1 x2).2 ↔ changesOnly [.hdr, .ctr, .tier, .out] a x2 := by
      intro x1
      induction x1 with
      | nil => intro x0 x2 a; simp [dmaOut]
      | cons y ys ih =>
        intro x0 x2 a
        unfold dmaOut
        repeat' first
          | (simp [*, changesOnly_foldl]; done)
          | (split <;> try first
            | (rename_i h; have h := (congrArg (fun q => q.2.2.2) h).symm; dsimp only at h; subst h)
            | (rename_i h; have h := (congrArg (fun q => q.2.2) h).symm; dsimp only at h; subst h)
            | (rename_i h; have h := (congrArg (fun q => q.2) h).symm; dsimp only at h; subst h)
            | (rename_i h _; have h := (congrArg (fun q => q.2) h).symm; dsimp only at h; subst h))
          | dsimp only
          | refine (changesOnly_foldl _ _ _ fun b x => ?_).2 ?_
    exact (key x1 x0 x2 x2).2 (changesOnly_self _ _)) hl

@[simp] theorem Dev.dmaAwake_only {l : List Comp} {a : Dev} (x0 : Dev) (x1) (x2) (x3) (hl : [.ctr, .mem, .poison, .isles, .tier] ⊆ l) :
    changesOnly l a (Dev.dmaAwake x0 x1 x2 x3).2 ↔ changesOnly l a x0 :=
  changesOnly.peel (k := [.ctr, .mem, .poison, .isles, .tier]) (by
    unfold Dev.dmaAwake
    repeat' first
      | (simp [changesOnly_foldl]; done)
      | (split <;> try first
          | (rename_i h; have h := (congrArg (fun q => q.2.2.2) h).symm; dsimp only at h; subst h)
          | (rename_i h; have h := (congrArg (fun q => q.2.2) h).symm; dsimp only at h; subst h)
          | (rename_i h; have h := (congrArg (fun q => q.2) h).symm; dsimp only at h; subst h)
          | (rename_i h _; have h := (congrArg (fun q => q.2) h).symm; dsimp only at h; subst h))
      | dsimp only
      | refine (changesOnly_foldl _ _ _ fun b x => ?_).2 ?_
      | (simp (maxDischargeDepth := 6) [changesOnly_foldl, changesOnly_foldl_1, changesOnly_foldl_2, changesOnly_foldl_22]; done)
      | refine (changesOnly_foldl_2 _ _ _ fun b x => ?_).2 ?_
      | refine (changesOnly_foldl_22 _ _ _ fun b x => ?_).2 ?_
      | refine (changesOnly_foldl_1 _ _ _ fun b x => ?_).2 ?_) hl

@[simp] theorem Dev.dmaMove_only {l : List Comp} {a : Dev} (x0 : Dev) (x1) (x2) (x3) (x4) (x5) (hl : [.hdr, .ctr, .mem, .poison, .cores, .tier, .errm, .out] ⊆ l) :
    changesOnly l a (Dev.dmaMove x0 x1 x2 x3 x4 x5) ↔ changesOnly l a x0 :=
  changesOnly.peel (k := [.hdr, .ctr, .mem, .poison, .cores, .tier, .errm, .out]) (by
    unfold Dev.dmaMove
    repeat' first
      | (simp [changesOnly_foldl]; done)
      | (split <;> try first
          | (rename_i h; have h := (congrArg (fun q => q.2.2.2) h).symm; dsimp only at h; subst h)
          | (rename_i h; have h := (congrArg (fun q => q.2.2) h).symm; dsimp only at h; subst h)
          | (rename_i h; have h := (congrArg (fun q => q.2) h).symm; dsimp only at h; subst h)
          | (rename_i h _; have h := (congrArg (fun q => q.2) h).symm; dsimp only at h; subst h))
      | dsimp only
      | refine (changesOnly_foldl _ _ _ fun b x => ?_).2 ?_) hl

@[simp] theorem Dev.dmaAts_only {l : List Comp} {a : Dev} (x0 : Dev) (x1) (x2) (hl : [.ctr, .free] ⊆ l) :
    changesOnly l a (Dev.dmaAts x0 x1 x2) ↔ changesOnly l a x0 :=
  changesOnly.peel (k := [.ctr, .free]) (by
    unfold Dev.dmaAts
    repeat' first
      | (simp [changesOnly_foldl]; done)
      | (split <;> try first
          | (rename_i h; have h := (congrArg (fun q => q.2.2.2) h).symm; dsimp only at h; subst h)
          | (rename_i h; have h := (congrArg (fun q => q.2.2) h).symm; dsimp only at h; subst h)
          | (rename_i h; have h := (congrArg (fun q => q.2) h).symm; dsimp only at h; subst h)
          | (rename_i h _; have h := (congrArg (fun q => q.2) h).symm; dsimp only at h; subst h))
      | dsimp only
      | refine (changesOnly_foldl _ _ _ fun b x => ?_).2 ?_) hl

@[simp] theorem dmaDone_only {l : List Comp} {a : Dev} (x0) (x1) (x2) (x3 : Dev) (hl : [.hdr, .ctr, .mem, .poison, .isles, .cores, .sigs, .tier, .dmae, .errm, .out, .free] ⊆ l) :
    changesOnly l a (dmaDone x0 x1 x2 x3) ↔ changesOnly l a x3 :=
  changesOnly.peel (k := [.hdr, .ctr, .mem, .poison, .isles, .cores, .sigs, .tier, .dmae, .errm, .out, .free]) (by
    unfold dmaDone
    repeat' first
      | (simp [changesOnly_foldl]; done)
      | (split <;> try first
          | (rename_i h; have h := (congrArg (fun q => q.2.2.2) h).symm; dsimp only at h; subst h)
          | (rename_i h; have h := (congrArg (fun q => q.2.2) h).symm; dsimp only at h; subst h)
          | (rename_i h; have h := (congrArg (fun q => q.2) h).symm; dsimp only at h; subst h)
          | (rename_i h _; have h := (congrArg (fun q => q.2) h).symm; dsimp only at h; subst h))
      | dsimp only
      | refine (changesOnly_foldl _ _ _ fun b x => ?_).2 ?_
      | (simp (maxDischargeDepth := 6) [changesOnly_foldl, changesOnly_foldl_1, changesOnly_foldl_2, changesOnly_foldl_22]; done)
      | refine (changesOnly_foldl_2 _ _ _ fun b x => ?_).2 ?_
      | refine (changesOnly_foldl_22 _ _ _ fun b x => ?_).2 ?_
      | refine (changesOnly_foldl_1 _ _ _ fun b x => ?_).2 ?_) hl

@[simp] theorem Dev.dmaAbandon_only {l : List Comp} {a : Dev} (x0) (x1 : Dev) (x2) (hl : [.hdr, .ctr, .poison, .tier, .dmae] ⊆ l) :
    changesOnly l a (Dev.dmaAbandon x0 x1 x2) ↔ changesOnly l a x1 :=
  changesOnly.peel (k := [.hdr, .ctr, .poison, .tier, .dmae]) (by
    unfold Dev.dmaAbandon
    repeat' first
      | (simp [changesOnly_foldl]; done)
      | (split <;> try first
          | (rename_i h; have h := (congrArg (fun q => q.2.2.2) h).symm; dsimp only at h; subst h)
          | (rename_i h; have h := (congrArg (fun q => q.2.2) h).symm; dsimp only at h; subst h)
          | (rename_i h; have h := (congrArg (fun q => q.2) h).symm; dsimp only at h; subst h)
          | (rename_i h _; have h := (congrArg (fun q => q.2) h).symm; dsimp only at h; subst h))
      | dsimp only
      | refine (changesOnly_foldl _ _ _ fun b x => ?_).2 ?_
      | (simp (maxDischargeDepth := 6) [changesOnly_foldl]; done)) hl

@[simp] theorem Dev.dmaHalt_only {l : List Comp} {a : Dev} (x0 : Dev) (x1) (x2) (x3) (x4) (x5) (hl : [.st, .hdr, .ctr, .poison, .tier, .dmae] ⊆ l) :
    changesOnly l a (Dev.dmaHalt x0 x1 x2 x3 x4 x5) ↔ changesOnly l a x0 :=
  changesOnly.peel (k := [.st, .hdr, .ctr, .poison, .tier, .dmae]) (by
    unfold Dev.dmaHalt
    repeat' first
      | (simp [changesOnly_foldl]; done)
      | (split <;> try first
          | (rename_i h; have h := (congrArg (fun q => q.2.2.2) h).symm; dsimp only at h; subst h)
          | (rename_i h; have h := (congrArg (fun q => q.2.2) h).symm; dsimp only at h; subst h)
          | (rename_i h; have h := (congrArg (fun q => q.2) h).symm; dsimp only at h; subst h)
          | (rename_i h _; have h := (congrArg (fun q => q.2) h).symm; dsimp only at h; subst h))
      | dsimp only
      | refine (changesOnly_foldl _ _ _ fun b x => ?_).2 ?_) hl

@[simp] theorem dmaBusErr_only {l : List Comp} {a : Dev} (x0) (x1) (x2) (x3) (x4 : Dev) (hl : [.st, .hdr, .ctr, .poison, .tier, .dmae] ⊆ l) :
    changesOnly l a (dmaBusErr x0 x1 x2 x3 x4) ↔ changesOnly l a x4 :=
  changesOnly.peel (k := [.st, .hdr, .ctr, .poison, .tier, .dmae]) (by
    unfold dmaBusErr
    repeat' first
      | (simp [changesOnly_foldl]; done)
      | (split <;> try first
          | (rename_i h; have h := (congrArg (fun q => q.2.2.2) h).symm; dsimp only at h; subst h)
          | (rename_i h; have h := (congrArg (fun q => q.2.2) h).symm; dsimp only at h; subst h)
          | (rename_i h; have h := (congrArg (fun q => q.2) h).symm; dsimp only at h; subst h)
          | (rename_i h _; have h := (congrArg (fun q => q.2) h).symm; dsimp only at h; subst h))
      | dsimp only
      | refine (changesOnly_foldl _ _ _ fun b x => ?_).2 ?_) hl

@[simp] theorem dmaSkipHead_only {l : List Comp} {a : Dev} (x0) (x1) (x2 : Dev) (hl : [.hdr, .parts, .dmae] ⊆ l) :
    changesOnly l a (dmaSkipHead x0 x1 x2) ↔ changesOnly l a x2 :=
  changesOnly.peel (k := [.hdr, .parts, .dmae]) (by
    unfold dmaSkipHead
    repeat' first
      | (simp [changesOnly_foldl]; done)
      | (split <;> try first
          | (rename_i h; have h := (congrArg (fun q => q.2.2.2) h).symm; dsimp only at h; subst h)
          | (rename_i h; have h := (congrArg (fun q => q.2.2) h).symm; dsimp only at h; subst h)
          | (rename_i h; have h := (congrArg (fun q => q.2) h).symm; dsimp only at h; subst h)
          | (rename_i h _; have h := (congrArg (fun q => q.2) h).symm; dsimp only at h; subst h))
      | dsimp only
      | refine (changesOnly_foldl _ _ _ fun b x => ?_).2 ?_) hl

@[simp] theorem dmaRestart_only {l : List Comp} {a : Dev} (x0) (x1) (x2) (x3 : Dev) (hl : [.st, .hdr, .parts, .dmae] ⊆ l) :
    changesOnly l a (dmaRestart x0 x1 x2 x3) ↔ changesOnly l a x3 :=
  changesOnly.peel (k := [.st, .hdr, .parts, .dmae]) (by
    unfold dmaRestart
    repeat' first
      | (simp [changesOnly_foldl]; done)
      | (split <;> try first
          | (rename_i h; have h := (congrArg (fun q => q.2.2.2) h).symm; dsimp only at h; subst h)
          | (rename_i h; have h := (congrArg (fun q => q.2.2) h).symm; dsimp only at h; subst h)
          | (rename_i h; have h := (congrArg (fun q => q.2) h).symm; dsimp only at h; subst h)
          | (rename_i h _; have h := (congrArg (fun q => q.2) h).symm; dsimp only at h; subst h))
      | dsimp only
      | refine (changesOnly_foldl _ _ _ fun b x => ?_).2 ?_
      | refine (Dev.privOnly_only _ _ _ _ _ (fun b => ?_) (by simp)).2 ?_
      | refine (Dev.through_only _ _ _ _ _ (fun b => ?_) (by simp)).2 ?_) hl

@[simp] theorem dmaMaint_only {l : List Comp} {a : Dev} (x0) (x1) (x2) (x3 : Dev) (hl : [.hdr, .parts, .dmae] ⊆ l) :
    changesOnly l a (dmaMaint x0 x1 x2 x3) ↔ changesOnly l a x3 :=
  changesOnly.peel (k := [.hdr, .parts, .dmae]) (by
    unfold dmaMaint
    repeat' first
      | (simp [changesOnly_foldl]; done)
      | (split <;> try first
          | (rename_i h; have h := (congrArg (fun q => q.2.2.2) h).symm; dsimp only at h; subst h)
          | (rename_i h; have h := (congrArg (fun q => q.2.2) h).symm; dsimp only at h; subst h)
          | (rename_i h; have h := (congrArg (fun q => q.2) h).symm; dsimp only at h; subst h)
          | (rename_i h _; have h := (congrArg (fun q => q.2) h).symm; dsimp only at h; subst h))
      | dsimp only
      | refine (changesOnly_foldl _ _ _ fun b x => ?_).2 ?_) hl

end Sys2Proof.Machine
end

