-- ==== Sys2Proof/Laws/OnlyTier.lean ====
section
/-!
SUPPORT. The components that each operation of Machine/Tier.lean can change.
-/

namespace Sys2Proof.Machine

set_option linter.unusedSimpArgs false

open Sys2Proof.Safety

theorem Dev.mapOne_only {l : List Comp} {a d d' : Dev} {c : MapCmd} {i : Nat} (h : d.mapOne c i = some d')
    (hl : [.mem, .poison, .tier] ⊆ l) : changesOnly l a d' ↔ changesOnly l a d := by
  have ht : Comp.tier ∈ l := hl (by simp)
  have hm : Comp.mem ∈ l := hl (by simp)
  have hp : Comp.poison ∈ l := hl (by simp)
  unfold Dev.mapOne at h
  dsimp only at h
  split at h
  · cases h; simp [ht]
  · cases ha : d.t1Alloc c.part.val c.size with
    | none => rw [ha] at h; cases h
    | some r =>
      rw [ha] at h
      cases h
      simp only [Dev.setPage_only, Dev.t1Zero_only, List.cons_subset, List.nil_subset, ht, hm, hp, and_true, true_and]
      exact Dev.t1Alloc_only (c := r.1) ha hl
  · cases h; simp [ht]
  · cases hs : (d.t3Slots c.part.val c.big).head? with
    | none => rw [hs] at h; cases h
    | some r => rw [hs] at h; cases h; simp [ht]
  · cases h; simp [ht]
  · cases h; simp [ht]


theorem Dev.mapAll_only {l : List Comp} {a d' : Dev} {c : MapCmd} : ∀ {m i : Nat} {d : Dev}, Dev.mapAll c m i d = some d' →
    [.mem, .poison, .tier] ⊆ l → (changesOnly l a d' ↔ changesOnly l a d)
  | 0, _, _, h, _ => by cases h; rfl
  | m + 1, i, d, h, hl => by
    unfold Dev.mapAll at h
    cases ho : d.mapOne c i with
    | none => rw [ho] at h; cases h
    | some d1 =>
      rw [ho] at h
      exact (Dev.mapAll_only h hl).trans (Dev.mapOne_only ho hl)


@[simp] theorem Dev.mapHead_only {l : List Comp} {a : Dev} (x0 : Dev) (hl : [.hdr, .ctr, .tier, .eth, .fab, .out] ⊆ l) :
    changesOnly l a (Dev.mapHead x0) ↔ changesOnly l a x0 :=
  changesOnly.peel (k := [.hdr, .ctr, .tier, .eth, .fab, .out]) (by
    unfold Dev.mapHead
    repeat' first
      | (simp [changesOnly_foldl]; done)
      | (split <;> try first
          | (rename_i h; have h := (congrArg (fun q => q.2.2.2) h).symm; dsimp only at h; subst h)
          | (rename_i h; have h := (congrArg (fun q => q.2.2) h).symm; dsimp only at h; subst h)
          | (rename_i h; have h := (congrArg (fun q => q.2) h).symm; dsimp only at h; subst h)
          | (rename_i h _; have h := (congrArg (fun q => q.2) h).symm; dsimp only at h; subst h))
      | dsimp only
      | refine (changesOnly_foldl _ _ _ fun b x => ?_).2 ?_) hl

@[simp] theorem Dev.mapEnd_only {l : List Comp} {a : Dev} (x0 : Dev) (x1) (x2) (x3) (hl : [.hdr, .ctr, .sigs, .tier, .eth, .fab, .out] ⊆ l) :
    changesOnly l a (Dev.mapEnd x0 x1 x2 x3) ↔ changesOnly l a x0 :=
  changesOnly.peel (k := [.hdr, .ctr, .sigs, .tier, .eth, .fab, .out]) (by
    unfold Dev.mapEnd
    repeat' first
      | (simp [changesOnly_foldl]; done)
      | (split <;> try first
          | (rename_i h; have h := (congrArg (fun q => q.2.2.2) h).symm; dsimp only at h; subst h)
          | (rename_i h; have h := (congrArg (fun q => q.2.2) h).symm; dsimp only at h; subst h)
          | (rename_i h; have h := (congrArg (fun q => q.2) h).symm; dsimp only at h; subst h)
          | (rename_i h _; have h := (congrArg (fun q => q.2) h).symm; dsimp only at h; subst h))
      | dsimp only
      | refine (changesOnly_foldl _ _ _ fun b x => ?_).2 ?_) hl

@[simp] theorem mapWrite_only {l : List Comp} {a : Dev} (x0) (x1) (x2 : Dev) (hl : [.hdr, .ctr, .tier, .eth, .fab, .out] ⊆ l) :
    changesOnly l a (mapWrite x0 x1 x2) ↔ changesOnly l a x2 :=
  changesOnly.peel (k := [.hdr, .ctr, .tier, .eth, .fab, .out]) (by
    unfold mapWrite
    repeat' first
      | (simp [changesOnly_foldl]; done)
      | (split <;> try first
          | (rename_i h; have h := (congrArg (fun q => q.2.2.2) h).symm; dsimp only at h; subst h)
          | (rename_i h; have h := (congrArg (fun q => q.2.2) h).symm; dsimp only at h; subst h)
          | (rename_i h; have h := (congrArg (fun q => q.2) h).symm; dsimp only at h; subst h)
          | (rename_i h _; have h := (congrArg (fun q => q.2) h).symm; dsimp only at h; subst h))
      | dsimp only
      | refine (changesOnly_foldl _ _ _ fun b x => ?_).2 ?_) hl

@[simp] theorem mapVia_only {l : List Comp} {a : Dev} (x0) (x1) (x2 : Dev) (hl : [.hdr, .ctr, .parts, .tier, .eth, .fab, .out] ⊆ l) :
    changesOnly l a (mapVia x0 x1 x2) ↔ changesOnly l a x2 :=
  changesOnly.peel (k := [.hdr, .ctr, .parts, .tier, .eth, .fab, .out]) (by
    unfold mapVia
    repeat' first
      | (simp [changesOnly_foldl]; done)
      | (split <;> try first
          | (rename_i h; have h := (congrArg (fun q => q.2.2.2) h).symm; dsimp only at h; subst h)
          | (rename_i h; have h := (congrArg (fun q => q.2.2) h).symm; dsimp only at h; subst h)
          | (rename_i h; have h := (congrArg (fun q => q.2) h).symm; dsimp only at h; subst h)
          | (rename_i h _; have h := (congrArg (fun q => q.2) h).symm; dsimp only at h; subst h))
      | dsimp only
      | refine (changesOnly_foldl _ _ _ fun b x => ?_).2 ?_) hl

@[simp] theorem Dev.forget_only {l : List Comp} {a : Dev} (x0 : Dev) (x1) (x2) (hl : [.tier] ⊆ l) :
    changesOnly l a (Dev.forget x0 x1 x2) ↔ changesOnly l a x0 :=
  changesOnly.peel (k := [.tier]) (by
    unfold Dev.forget
    repeat' first
      | (simp [changesOnly_foldl]; done)
      | (split <;> try first
          | (rename_i h; have h := (congrArg (fun q => q.2.2.2) h).symm; dsimp only at h; subst h)
          | (rename_i h; have h := (congrArg (fun q => q.2.2) h).symm; dsimp only at h; subst h)
          | (rename_i h; have h := (congrArg (fun q => q.2) h).symm; dsimp only at h; subst h)
          | (rename_i h _; have h := (congrArg (fun q => q.2) h).symm; dsimp only at h; subst h))
      | dsimp only
      | refine (changesOnly_foldl _ _ _ fun b x => ?_).2 ?_) hl

@[simp] theorem Dev.putProbe_only {l : List Comp} {a : Dev} (x0 : Dev) (x1) (x2) (x3) (hl : [.regs] ⊆ l) :
    changesOnly l a (Dev.putProbe x0 x1 x2 x3) ↔ changesOnly l a x0 :=
  changesOnly.peel (k := [.regs]) (by
    unfold Dev.putProbe
    repeat' first
      | (simp [changesOnly_foldl]; done)
      | (split <;> try first
          | (rename_i h; have h := (congrArg (fun q => q.2.2.2) h).symm; dsimp only at h; subst h)
          | (rename_i h; have h := (congrArg (fun q => q.2.2) h).symm; dsimp only at h; subst h)
          | (rename_i h; have h := (congrArg (fun q => q.2) h).symm; dsimp only at h; subst h)
          | (rename_i h _; have h := (congrArg (fun q => q.2) h).symm; dsimp only at h; subst h))
      | dsimp only
      | refine (changesOnly_foldl _ _ _ fun b x => ?_).2 ?_) hl

@[simp] theorem mapDone_only {l : List Comp} {a : Dev} (x0 : Dev) (hl : [.hdr, .ctr, .regs, .mem, .poison, .sigs, .tier, .eth, .fab, .out] ⊆ l) :
    changesOnly l a (mapDone x0) ↔ changesOnly l a x0 :=
  changesOnly.peel (k := [.hdr, .ctr, .regs, .mem, .poison, .sigs, .tier, .eth, .fab, .out]) (by
    unfold mapDone
    repeat' first
      | (simp [changesOnly_foldl]; done)
      | (split <;> try first
          | (rename_i h; have h := (congrArg (fun q => q.2.2.2) h).symm; dsimp only at h; subst h)
          | (rename_i h; have h := (congrArg (fun q => q.2.2) h).symm; dsimp only at h; subst h)
          | (rename_i h; have h := (congrArg (fun q => q.2) h).symm; dsimp only at h; subst h)
          | (rename_i h _; have h := (congrArg (fun q => q.2) h).symm; dsimp only at h; subst h))
      | dsimp only
      | refine (changesOnly_foldl _ _ _ fun b x => ?_).2 ?_
      | (rename_i h _ _ _; simp [Dev.mapAll_only h]; done)) hl

@[simp] theorem flushDone_only {l : List Comp} {a : Dev} (x0 : Dev) (hl : [.hdr, .ctr, .regs, .mem, .poison, .sigs, .tier, .eth, .fab, .out] ⊆ l) :
    changesOnly l a (flushDone x0) ↔ changesOnly l a x0 :=
  changesOnly.peel (k := [.hdr, .ctr, .regs, .mem, .poison, .sigs, .tier, .eth, .fab, .out]) (by
    unfold flushDone
    repeat' first
      | (simp [changesOnly_foldl]; done)
      | (split <;> try first
          | (rename_i h; have h := (congrArg (fun q => q.2.2.2) h).symm; dsimp only at h; subst h)
          | (rename_i h; have h := (congrArg (fun q => q.2.2) h).symm; dsimp only at h; subst h)
          | (rename_i h; have h := (congrArg (fun q => q.2) h).symm; dsimp only at h; subst h)
          | (rename_i h _; have h := (congrArg (fun q => q.2) h).symm; dsimp only at h; subst h))
      | dsimp only
      | refine (changesOnly_foldl _ _ _ fun b x => ?_).2 ?_) hl

@[simp] theorem Dev.lostChunk_only {l : List Comp} {a : Dev} (x0 : Dev) (x1) (x2) (x3) (hl : [.hdr, .ctr, .flash, .errm] ⊆ l) :
    changesOnly l a (Dev.lostChunk x0 x1 x2 x3).2 ↔ changesOnly l a x0 :=
  changesOnly.peel (k := [.hdr, .ctr, .flash, .errm]) (by
    unfold Dev.lostChunk
    repeat' first
      | (simp [changesOnly_foldl]; done)
      | (split <;> try first
          | (rename_i h; have h := (congrArg (fun q => q.2.2.2) h).symm; dsimp only at h; subst h)
          | (rename_i h; have h := (congrArg (fun q => q.2.2) h).symm; dsimp only at h; subst h)
          | (rename_i h; have h := (congrArg (fun q => q.2) h).symm; dsimp only at h; subst h)
          | (rename_i h _; have h := (congrArg (fun q => q.2) h).symm; dsimp only at h; subst h))
      | dsimp only
      | refine (changesOnly_foldl _ _ _ fun b x => ?_).2 ?_) hl

@[simp] theorem Dev.putChunk_only {l : List Comp} {a : Dev} (x0 : Dev) (x1) (x2) (x3) (x4) (x5) (hl : [.mem, .poison, .cores, .tier] ⊆ l) :
    changesOnly l a (Dev.putChunk x0 x1 x2 x3 x4 x5) ↔ changesOnly l a x0 :=
  changesOnly.peel (k := [.mem, .poison, .cores, .tier]) (by
    unfold Dev.putChunk
    repeat' first
      | (simp [changesOnly_foldl]; done)
      | (split <;> try first
          | (rename_i h; have h := (congrArg (fun q => q.2.2.2) h).symm; dsimp only at h; subst h)
          | (rename_i h; have h := (congrArg (fun q => q.2.2) h).symm; dsimp only at h; subst h)
          | (rename_i h; have h := (congrArg (fun q => q.2) h).symm; dsimp only at h; subst h)
          | (rename_i h _; have h := (congrArg (fun q => q.2) h).symm; dsimp only at h; subst h))
      | dsimp only
      | refine (changesOnly_foldl _ _ _ fun b x => ?_).2 ?_) hl

@[simp] theorem fillDone_only {l : List Comp} {a : Dev} (x0) (x1) (x2) (x3) (x4) (x5 : Dev) (hl : [.hdr, .ctr, .mem, .poison, .cores, .tier, .flash, .errm] ⊆ l) :
    changesOnly l a (fillDone x0 x1 x2 x3 x4 x5) ↔ changesOnly l a x5 :=
  changesOnly.peel (k := [.hdr, .ctr, .mem, .poison, .cores, .tier, .flash, .errm]) (by
    unfold fillDone
    repeat' first
      | (simp [changesOnly_foldl]; done)
      | (split <;> try first
          | (rename_i h; have h := (congrArg (fun q => q.2.2.2) h).symm; dsimp only at h; subst h)
          | (rename_i h; have h := (congrArg (fun q => q.2.2) h).symm; dsimp only at h; subst h)
          | (rename_i h; have h := (congrArg (fun q => q.2) h).symm; dsimp only at h; subst h)
          | (rename_i h _; have h := (congrArg (fun q => q.2) h).symm; dsimp only at h; subst h))
      | dsimp only
      | refine (changesOnly_foldl _ _ _ fun b x => ?_).2 ?_) hl

@[simp] theorem Dev.charge_only {l : List Comp} {a : Dev} (x0 : Dev) (x1) (hl : [.hdr, .ctr, .flash] ⊆ l) :
    changesOnly l a (Dev.charge x0 x1) ↔ changesOnly l a x0 :=
  changesOnly.peel (k := [.hdr, .ctr, .flash]) (by
    unfold Dev.charge
    repeat' first
      | (simp [changesOnly_foldl]; done)
      | (split <;> try first
          | (rename_i h; have h := (congrArg (fun q => q.2.2.2) h).symm; dsimp only at h; subst h)
          | (rename_i h; have h := (congrArg (fun q => q.2.2) h).symm; dsimp only at h; subst h)
          | (rename_i h; have h := (congrArg (fun q => q.2) h).symm; dsimp only at h; subst h)
          | (rename_i h _; have h := (congrArg (fun q => q.2) h).symm; dsimp only at h; subst h))
      | dsimp only
      | refine (changesOnly_foldl _ _ _ fun b x => ?_).2 ?_) hl

@[simp] theorem Dev.sectorOut_only {l : List Comp} {a : Dev} (x0) (x1) (x2) (x3) (x4 : Dev) (x5) (hl : [.hdr, .ctr, .mem, .poison, .cores, .errm, .out] ⊆ l) :
    changesOnly l a (Dev.sectorOut x0 x1 x2 x3 x4 x5) ↔ changesOnly l a x4 :=
  changesOnly.peel (k := [.hdr, .ctr, .mem, .poison, .cores, .errm, .out]) (by
    unfold Dev.sectorOut
    repeat' first
      | (simp [changesOnly_foldl]; done)
      | (split <;> try first
          | (rename_i h; have h := (congrArg (fun q => q.2.2.2) h).symm; dsimp only at h; subst h)
          | (rename_i h; have h := (congrArg (fun q => q.2.2) h).symm; dsimp only at h; subst h)
          | (rename_i h; have h := (congrArg (fun q => q.2) h).symm; dsimp only at h; subst h)
          | (rename_i h _; have h := (congrArg (fun q => q.2) h).symm; dsimp only at h; subst h))
      | dsimp only
      | refine (changesOnly_foldl _ _ _ fun b x => ?_).2 ?_) hl

@[simp] theorem Dev.wbFinish_only {l : List Comp} {a : Dev} (x0 : Dev) (x1) (x2) (x3) (x4) (x5) (x6) (hl : [.hdr, .ctr, .mem, .poison, .cores, .tier, .flash, .errm, .out] ⊆ l) :
    changesOnly l a (Dev.wbFinish x0 x1 x2 x3 x4 x5 x6) ↔ changesOnly l a x0 :=
  changesOnly.peel (k := [.hdr, .ctr, .mem, .poison, .cores, .tier, .flash, .errm, .out]) (by
    unfold Dev.wbFinish
    repeat' first
      | (simp [changesOnly_foldl]; done)
      | (split <;> try first
          | (rename_i h; have h := (congrArg (fun q => q.2.2.2) h).symm; dsimp only at h; subst h)
          | (rename_i h; have h := (congrArg (fun q => q.2.2) h).symm; dsimp only at h; subst h)
          | (rename_i h; have h := (congrArg (fun q => q.2) h).symm; dsimp only at h; subst h)
          | (rename_i h _; have h := (congrArg (fun q => q.2) h).symm; dsimp only at h; subst h))
      | dsimp only
      | refine (changesOnly_foldl _ _ _ fun b x => ?_).2 ?_) hl

@[simp] theorem Dev.wbFail_only {l : List Comp} {a : Dev} (x0 : Dev) (x1) (x2) (x3) (x4) (x5) (hl : [.hdr, .ctr, .tier, .errm] ⊆ l) :
    changesOnly l a (Dev.wbFail x0 x1 x2 x3 x4 x5) ↔ changesOnly l a x0 :=
  changesOnly.peel (k := [.hdr, .ctr, .tier, .errm]) (by
    unfold Dev.wbFail
    repeat' first
      | (simp [changesOnly_foldl]; done)
      | (split <;> try first
          | (rename_i h; have h := (congrArg (fun q => q.2.2.2) h).symm; dsimp only at h; subst h)
          | (rename_i h; have h := (congrArg (fun q => q.2.2) h).symm; dsimp only at h; subst h)
          | (rename_i h; have h := (congrArg (fun q => q.2) h).symm; dsimp only at h; subst h)
          | (rename_i h _; have h := (congrArg (fun q => q.2) h).symm; dsimp only at h; subst h))
      | dsimp only
      | refine (changesOnly_foldl _ _ _ fun b x => ?_).2 ?_) hl

@[simp] theorem wbDone_only {l : List Comp} {a : Dev} (x0) (x1) (x2 : Dev) (hl : [.hdr, .ctr, .mem, .poison, .cores, .tier, .flash, .errm, .out] ⊆ l) :
    changesOnly l a (wbDone x0 x1 x2) ↔ changesOnly l a x2 :=
  changesOnly.peel (k := [.hdr, .ctr, .mem, .poison, .cores, .tier, .flash, .errm, .out]) (by
    unfold wbDone
    repeat' first
      | (simp [changesOnly_foldl]; done)
      | (split <;> try first
          | (rename_i h; have h := (congrArg (fun q => q.2.2.2) h).symm; dsimp only at h; subst h)
          | (rename_i h; have h := (congrArg (fun q => q.2.2) h).symm; dsimp only at h; subst h)
          | (rename_i h; have h := (congrArg (fun q => q.2) h).symm; dsimp only at h; subst h)
          | (rename_i h _; have h := (congrArg (fun q => q.2) h).symm; dsimp only at h; subst h))
      | dsimp only
      | refine (changesOnly_foldl _ _ _ fun b x => ?_).2 ?_) hl

@[simp] theorem wbFailed_only {l : List Comp} {a : Dev} (x0) (x1) (x2 : Dev) (hl : [.hdr, .ctr, .tier, .errm] ⊆ l) :
    changesOnly l a (wbFailed x0 x1 x2) ↔ changesOnly l a x2 :=
  changesOnly.peel (k := [.hdr, .ctr, .tier, .errm]) (by
    unfold wbFailed
    repeat' first
      | (simp [changesOnly_foldl]; done)
      | (split <;> try first
          | (rename_i h; have h := (congrArg (fun q => q.2.2.2) h).symm; dsimp only at h; subst h)
          | (rename_i h; have h := (congrArg (fun q => q.2.2) h).symm; dsimp only at h; subst h)
          | (rename_i h; have h := (congrArg (fun q => q.2) h).symm; dsimp only at h; subst h)
          | (rename_i h _; have h := (congrArg (fun q => q.2) h).symm; dsimp only at h; subst h))
      | dsimp only
      | refine (changesOnly_foldl _ _ _ fun b x => ?_).2 ?_) hl

@[simp] theorem wbRetry_only {l : List Comp} {a : Dev} (x0) (x1) (x2 : Dev) (hl : [.ctr, .isles, .tier] ⊆ l) :
    changesOnly l a (wbRetry x0 x1 x2) ↔ changesOnly l a x2 :=
  changesOnly.peel (k := [.ctr, .isles, .tier]) (by
    unfold wbRetry
    repeat' first
      | (simp [changesOnly_foldl]; done)
      | (split <;> try first
          | (rename_i h; have h := (congrArg (fun q => q.2.2.2) h).symm; dsimp only at h; subst h)
          | (rename_i h; have h := (congrArg (fun q => q.2.2) h).symm; dsimp only at h; subst h)
          | (rename_i h; have h := (congrArg (fun q => q.2) h).symm; dsimp only at h; subst h)
          | (rename_i h _; have h := (congrArg (fun q => q.2) h).symm; dsimp only at h; subst h))
      | dsimp only
      | refine (changesOnly_foldl _ _ _ fun b x => ?_).2 ?_) hl

@[simp] theorem Dev.shrink_only {l : List Comp} {a : Dev} (x0) (x1) (x2) (x3 : Dev) (hl : [.ctr, .tier] ⊆ l) :
    changesOnly l a (Dev.shrink x0 x1 x2 x3) ↔ changesOnly l a x3 :=
  changesOnly.peel (k := [.ctr, .tier]) (by
    have key : ∀ x2, ∀ (x0) (x1) (x3 : Dev) (a : Dev), changesOnly [.ctr, .tier] a (Dev.shrink x0 x1 x2 x3) ↔ changesOnly [.ctr, .tier] a x3 := by
      intro x2
      induction x2 with
      | zero => intro x0 x1 x3 a; simp [Dev.shrink]
      | succ n ih =>
        intro x0 x1 x3 a
        unfold Dev.shrink
        repeat' first
          | (simp [*, changesOnly_foldl]; done)
          | (split <;> try first
            | (rename_i h; have h := (congrArg (fun q => q.2.2.2) h).symm; dsimp only at h; subst h)
            | (rename_i h; have h := (congrArg (fun q => q.2.2) h).symm; dsimp only at h; subst h)
            | (rename_i h; have h := (congrArg (fun q => q.2) h).symm; dsimp only at h; subst h)
            | (rename_i h _; have h := (congrArg (fun q => q.2) h).symm; dsimp only at h; subst h))
          | dsimp only
          | refine (changesOnly_foldl _ _ _ fun b x => ?_).2 ?_
    exact (key x2 x0 x1 x3 x3).2 (changesOnly_self _ _)) hl

@[simp] theorem cacheWrite_only {l : List Comp} {a : Dev} (x0) (x1) (x2 : Dev) (hl : [.hdr, .ctr, .tier] ⊆ l) :
    changesOnly l a (cacheWrite x0 x1 x2) ↔ changesOnly l a x2 :=
  changesOnly.peel (k := [.hdr, .ctr, .tier]) (by
    unfold cacheWrite
    repeat' first
      | (simp [changesOnly_foldl]; done)
      | (split <;> try first
          | (rename_i h; have h := (congrArg (fun q => q.2.2.2) h).symm; dsimp only at h; subst h)
          | (rename_i h; have h := (congrArg (fun q => q.2.2) h).symm; dsimp only at h; subst h)
          | (rename_i h; have h := (congrArg (fun q => q.2) h).symm; dsimp only at h; subst h)
          | (rename_i h _; have h := (congrArg (fun q => q.2) h).symm; dsimp only at h; subst h))
      | dsimp only
      | refine (changesOnly_foldl _ _ _ fun b x => ?_).2 ?_) hl

@[simp] theorem Dev.updPilot_only {l : List Comp} {a : Dev} (x0 : Dev) (x1) (x2) (hl : [.tier] ⊆ l) :
    changesOnly l a (Dev.updPilot x0 x1 x2) ↔ changesOnly l a x0 :=
  changesOnly.peel (k := [.tier]) (by
    unfold Dev.updPilot
    repeat' first
      | (simp [changesOnly_foldl]; done)
      | (split <;> try first
          | (rename_i h; have h := (congrArg (fun q => q.2.2.2) h).symm; dsimp only at h; subst h)
          | (rename_i h; have h := (congrArg (fun q => q.2.2) h).symm; dsimp only at h; subst h)
          | (rename_i h; have h := (congrArg (fun q => q.2) h).symm; dsimp only at h; subst h)
          | (rename_i h _; have h := (congrArg (fun q => q.2) h).symm; dsimp only at h; subst h))
      | dsimp only
      | refine (changesOnly_foldl _ _ _ fun b x => ?_).2 ?_) hl

@[simp] theorem Dev.pilotNow_only {l : List Comp} {a : Dev} (x0 : Dev) (x1) (hl : [.tier] ⊆ l) :
    changesOnly l a (Dev.pilotNow x0 x1).2 ↔ changesOnly l a x0 :=
  changesOnly.peel (k := [.tier]) (by
    unfold Dev.pilotNow
    repeat' first
      | (simp [changesOnly_foldl]; done)
      | (split <;> try first
          | (rename_i h; have h := (congrArg (fun q => q.2.2.2) h).symm; dsimp only at h; subst h)
          | (rename_i h; have h := (congrArg (fun q => q.2.2) h).symm; dsimp only at h; subst h)
          | (rename_i h; have h := (congrArg (fun q => q.2) h).symm; dsimp only at h; subst h)
          | (rename_i h _; have h := (congrArg (fun q => q.2) h).symm; dsimp only at h; subst h))
      | dsimp only
      | refine (changesOnly_foldl _ _ _ fun b x => ?_).2 ?_) hl

@[simp] theorem Dev.stageFills_only {l : List Comp} {a : Dev} (x0 : Dev) (x1) (x2) (x3) (hl : [.ctr, .mem, .poison, .tier] ⊆ l) :
    changesOnly l a (Dev.stageFills x0 x1 x2 x3) ↔ changesOnly l a x0 :=
  changesOnly.peel (k := [.ctr, .mem, .poison, .tier]) (by
    unfold Dev.stageFills
    repeat' first
      | (simp [changesOnly_foldl]; done)
      | (split <;> try first
          | (rename_i h; have h := (congrArg (fun q => q.2.2.2) h).symm; dsimp only at h; subst h)
          | (rename_i h; have h := (congrArg (fun q => q.2.2) h).symm; dsimp only at h; subst h)
          | (rename_i h; have h := (congrArg (fun q => q.2) h).symm; dsimp only at h; subst h)
          | (rename_i h _; have h := (congrArg (fun q => q.2) h).symm; dsimp only at h; subst h))
      | dsimp only
      | refine (changesOnly_foldl _ _ _ fun b x => ?_).2 ?_) hl

@[simp] theorem pilotEntry_only {l : List Comp} {a : Dev} (n) (c) (p) (st : Bool × Dev) (ie) (hl : [.ctr, .mem, .poison, .tier] ⊆ l) :
    changesOnly l a (pilotEntry n c p st ie).2 ↔ changesOnly l a st.2 :=
  changesOnly.peel (k := [.ctr, .mem, .poison, .tier]) (by
    unfold pilotEntry
    repeat' first
      | (simp; done)
      | split
      | dsimp only) hl


@[simp] theorem Dev.pilotFault_only {l : List Comp} {a : Dev} (x0 : Dev) (x1) (hl : [.hdr, .tier] ⊆ l) :
    changesOnly l a (Dev.pilotFault x0 x1) ↔ changesOnly l a x0 :=
  changesOnly.peel (k := [.hdr, .tier]) (by
    unfold Dev.pilotFault
    repeat' first
      | (simp [changesOnly_foldl]; done)
      | (split <;> try first
          | (rename_i h; have h := (congrArg (fun q => q.2.2.2) h).symm; dsimp only at h; subst h)
          | (rename_i h; have h := (congrArg (fun q => q.2.2) h).symm; dsimp only at h; subst h)
          | (rename_i h; have h := (congrArg (fun q => q.2) h).symm; dsimp only at h; subst h)
          | (rename_i h _; have h := (congrArg (fun q => q.2) h).symm; dsimp only at h; subst h))
      | dsimp only
      | refine (changesOnly_foldl _ _ _ fun b x => ?_).2 ?_) hl

@[simp] theorem pilotPass_only {l : List Comp} {a : Dev} (x0) (x1 : Dev) (hl : [.hdr, .ctr, .mem, .poison, .tier] ⊆ l) :
    changesOnly l a (pilotPass x0 x1) ↔ changesOnly l a x1 :=
  changesOnly.peel (k := [.hdr, .ctr, .mem, .poison, .tier]) (by
    unfold pilotPass
    repeat' first
      | (simp [changesOnly_foldl]; done)
      | (split <;> try first
          | (rename_i h; have h := (congrArg (fun q => q.2.2.2) h).symm; dsimp only at h; subst h)
          | (rename_i h; have h := (congrArg (fun q => q.2.2) h).symm; dsimp only at h; subst h)
          | (rename_i h; have h := (congrArg (fun q => q.2) h).symm; dsimp only at h; subst h)
          | (rename_i h _; have h := (congrArg (fun q => q.2) h).symm; dsimp only at h; subst h))
      | dsimp only
      | refine (changesOnly_foldl _ _ _ fun b x => ?_).2 ?_
      | (simp (maxDischargeDepth := 6) [changesOnly_foldl, changesOnly_foldl_1, changesOnly_foldl_2, changesOnly_foldl_22]; done)
      | refine (changesOnly_foldl_2 _ _ _ fun b x => ?_).2 ?_
      | refine (changesOnly_foldl_22 _ _ _ fun b x => ?_).2 ?_
      | refine (changesOnly_foldl_1 _ _ _ fun b x => ?_).2 ?_) hl

@[simp] theorem Dev.toSram_only {l : List Comp} {a : Dev} (x0 : Dev) (x1) (x2) (hl : [.hdr, .ctr, .mem, .poison, .cores, .tier, .errm] ⊆ l) :
    changesOnly l a (Dev.toSram x0 x1 x2) ↔ changesOnly l a x0 :=
  changesOnly.peel (k := [.hdr, .ctr, .mem, .poison, .cores, .tier, .errm]) (by
    unfold Dev.toSram
    repeat' first
      | (simp [changesOnly_foldl]; done)
      | (split <;> try first
          | (rename_i h; have h := (congrArg (fun q => q.2.2.2) h).symm; dsimp only at h; subst h)
          | (rename_i h; have h := (congrArg (fun q => q.2.2) h).symm; dsimp only at h; subst h)
          | (rename_i h; have h := (congrArg (fun q => q.2) h).symm; dsimp only at h; subst h)
          | (rename_i h _; have h := (congrArg (fun q => q.2) h).symm; dsimp only at h; subst h))
      | dsimp only
      | refine (changesOnly_foldl _ _ _ fun b x => ?_).2 ?_) hl

@[simp] theorem stagingDone_only {l : List Comp} {a : Dev} (x0) (x1) (x2 : Dev) (hl : [.hdr, .ctr, .mem, .poison, .cores, .sigs, .tier, .errm] ⊆ l) :
    changesOnly l a (stagingDone x0 x1 x2) ↔ changesOnly l a x2 :=
  changesOnly.peel (k := [.hdr, .ctr, .mem, .poison, .cores, .sigs, .tier, .errm]) (by
    unfold stagingDone
    repeat' first
      | (simp [changesOnly_foldl]; done)
      | (split <;> try first
          | (rename_i h; have h := (congrArg (fun q => q.2.2.2) h).symm; dsimp only at h; subst h)
          | (rename_i h; have h := (congrArg (fun q => q.2.2) h).symm; dsimp only at h; subst h)
          | (rename_i h; have h := (congrArg (fun q => q.2) h).symm; dsimp only at h; subst h)
          | (rename_i h _; have h := (congrArg (fun q => q.2) h).symm; dsimp only at h; subst h))
      | dsimp only
      | refine (changesOnly_foldl _ _ _ fun b x => ?_).2 ?_) hl

@[simp] theorem pilotWrite_only {l : List Comp} {a : Dev} (x0) (x1) (x2 : Dev) (hl : [.hdr, .ctr, .regs, .tier] ⊆ l) :
    changesOnly l a (pilotWrite x0 x1 x2) ↔ changesOnly l a x2 :=
  changesOnly.peel (k := [.hdr, .ctr, .regs, .tier]) (by
    unfold pilotWrite
    repeat' first
      | (simp [changesOnly_foldl]; done)
      | (split <;> try first
          | (rename_i h; have h := (congrArg (fun q => q.2.2.2) h).symm; dsimp only at h; subst h)
          | (rename_i h; have h := (congrArg (fun q => q.2.2) h).symm; dsimp only at h; subst h)
          | (rename_i h; have h := (congrArg (fun q => q.2) h).symm; dsimp only at h; subst h)
          | (rename_i h _; have h := (congrArg (fun q => q.2) h).symm; dsimp only at h; subst h))
      | dsimp only
      | refine (changesOnly_foldl _ _ _ fun b x => ?_).2 ?_) hl

end Sys2Proof.Machine
end

