-- ==== Sys2Proof/Laws/OnlySecure.lean ====
section
/-!
SUPPORT. The components that each operation of Machine/Secure.lean can change.
-/

namespace Sys2Proof.Machine

set_option linter.unusedSimpArgs false

open Sys2Proof.Safety

@[simp] theorem Dev.updSec_only {l : List Comp} {a : Dev} (x0 : Dev) (x1) (hl : [.sec] ⊆ l) :
    changesOnly l a (Dev.updSec x0 x1) ↔ changesOnly l a x0 :=
  changesOnly.peel (k := [.sec]) (by
    unfold Dev.updSec
    repeat' first
      | (simp [changesOnly_foldl]; done)
      | (split <;> try first
          | (rename_i h; have h := (congrArg (fun q => q.2.2.2) h).symm; dsimp only at h; subst h)
          | (rename_i h; have h := (congrArg (fun q => q.2.2) h).symm; dsimp only at h; subst h)
          | (rename_i h; have h := (congrArg (fun q => q.2) h).symm; dsimp only at h; subst h)
          | (rename_i h _; have h := (congrArg (fun q => q.2) h).symm; dsimp only at h; subst h))
      | dsimp only
      | refine (changesOnly_foldl _ _ _ fun b x => ?_).2 ?_) hl

@[simp] theorem fwLoad_only {l : List Comp} {a : Dev} (x0 : Dev) (hl : [.hdr, .sec] ⊆ l) :
    changesOnly l a (fwLoad x0) ↔ changesOnly l a x0 :=
  changesOnly.peel (k := [.hdr, .sec]) (by
    unfold fwLoad
    repeat' first
      | (simp [changesOnly_foldl]; done)
      | (split <;> try first
          | (rename_i h; have h := (congrArg (fun q => q.2.2.2) h).symm; dsimp only at h; subst h)
          | (rename_i h; have h := (congrArg (fun q => q.2.2) h).symm; dsimp only at h; subst h)
          | (rename_i h; have h := (congrArg (fun q => q.2) h).symm; dsimp only at h; subst h)
          | (rename_i h _; have h := (congrArg (fun q => q.2) h).symm; dsimp only at h; subst h))
      | dsimp only
      | refine (changesOnly_foldl _ _ _ fun b x => ?_).2 ?_) hl

@[simp] theorem fwLoadDone_only {l : List Comp} {a : Dev} (x0) (x1) (x2 : Dev) (hl : [.hdr, .ctr, .sec] ⊆ l) :
    changesOnly l a (fwLoadDone x0 x1 x2) ↔ changesOnly l a x2 :=
  changesOnly.peel (k := [.hdr, .ctr, .sec]) (by
    unfold fwLoadDone
    repeat' first
      | (simp [changesOnly_foldl]; done)
      | (split <;> try first
          | (rename_i h; have h := (congrArg (fun q => q.2.2.2) h).symm; dsimp only at h; subst h)
          | (rename_i h; have h := (congrArg (fun q => q.2.2) h).symm; dsimp only at h; subst h)
          | (rename_i h; have h := (congrArg (fun q => q.2) h).symm; dsimp only at h; subst h)
          | (rename_i h _; have h := (congrArg (fun q => q.2) h).symm; dsimp only at h; subst h))
      | dsimp only
      | refine (changesOnly_foldl _ _ _ fun b x => ?_).2 ?_) hl

@[simp] theorem fwSelect_only {l : List Comp} {a : Dev} (x0 : Dev) (hl : [.hdr, .sec] ⊆ l) :
    changesOnly l a (fwSelect x0) ↔ changesOnly l a x0 :=
  changesOnly.peel (k := [.hdr, .sec]) (by
    unfold fwSelect
    repeat' first
      | (simp [changesOnly_foldl]; done)
      | (split <;> try first
          | (rename_i h; have h := (congrArg (fun q => q.2.2.2) h).symm; dsimp only at h; subst h)
          | (rename_i h; have h := (congrArg (fun q => q.2.2) h).symm; dsimp only at h; subst h)
          | (rename_i h; have h := (congrArg (fun q => q.2) h).symm; dsimp only at h; subst h)
          | (rename_i h _; have h := (congrArg (fun q => q.2) h).symm; dsimp only at h; subst h))
      | dsimp only
      | refine (changesOnly_foldl _ _ _ fun b x => ?_).2 ?_) hl

@[simp] theorem svnRaise_only {l : List Comp} {a : Dev} (x0) (x1) (x2 : Dev) (hl : [.hdr, .ctr, .sec] ⊆ l) :
    changesOnly l a (svnRaise x0 x1 x2) ↔ changesOnly l a x2 :=
  changesOnly.peel (k := [.hdr, .ctr, .sec]) (by
    unfold svnRaise
    repeat' first
      | (simp [changesOnly_foldl]; done)
      | (split <;> try first
          | (rename_i h; have h := (congrArg (fun q => q.2.2.2) h).symm; dsimp only at h; subst h)
          | (rename_i h; have h := (congrArg (fun q => q.2.2) h).symm; dsimp only at h; subst h)
          | (rename_i h; have h := (congrArg (fun q => q.2) h).symm; dsimp only at h; subst h)
          | (rename_i h _; have h := (congrArg (fun q => q.2) h).symm; dsimp only at h; subst h))
      | dsimp only
      | refine (changesOnly_foldl _ _ _ fun b x => ?_).2 ?_) hl

@[simp] theorem svnAuto_only {l : List Comp} {a : Dev} (x0 : Dev) (hl : [.hdr, .ctr, .sec] ⊆ l) :
    changesOnly l a (svnAuto x0) ↔ changesOnly l a x0 :=
  changesOnly.peel (k := [.hdr, .ctr, .sec]) (by
    unfold svnAuto
    repeat' first
      | (simp [changesOnly_foldl]; done)
      | (split <;> try first
          | (rename_i h; have h := (congrArg (fun q => q.2.2.2) h).symm; dsimp only at h; subst h)
          | (rename_i h; have h := (congrArg (fun q => q.2.2) h).symm; dsimp only at h; subst h)
          | (rename_i h; have h := (congrArg (fun q => q.2) h).symm; dsimp only at h; subst h)
          | (rename_i h _; have h := (congrArg (fun q => q.2) h).symm; dsimp only at h; subst h))
      | dsimp only
      | refine (changesOnly_foldl _ _ _ fun b x => ?_).2 ?_) hl

@[simp] theorem Dev.kDone_only {l : List Comp} {a : Dev} (x0 : Dev) (x1) (hl : [.hdr, .sec] ⊆ l) :
    changesOnly l a (Dev.kDone x0 x1) ↔ changesOnly l a x0 :=
  changesOnly.peel (k := [.hdr, .sec]) (by
    unfold Dev.kDone
    repeat' first
      | (simp [changesOnly_foldl]; done)
      | (split <;> try first
          | (rename_i h; have h := (congrArg (fun q => q.2.2.2) h).symm; dsimp only at h; subst h)
          | (rename_i h; have h := (congrArg (fun q => q.2.2) h).symm; dsimp only at h; subst h)
          | (rename_i h; have h := (congrArg (fun q => q.2) h).symm; dsimp only at h; subst h)
          | (rename_i h _; have h := (congrArg (fun q => q.2) h).symm; dsimp only at h; subst h))
      | dsimp only
      | refine (changesOnly_foldl _ _ _ fun b x => ?_).2 ?_) hl

@[simp] theorem Dev.forgetCounters_only {l : List Comp} {a : Dev} (x0 : Dev) (x1) (x2) (hl : [.fab] ⊆ l) :
    changesOnly l a (Dev.forgetCounters x0 x1 x2) ↔ changesOnly l a x0 :=
  changesOnly.peel (k := [.fab]) (by
    unfold Dev.forgetCounters
    repeat' first
      | (simp [changesOnly_foldl]; done)
      | (split <;> try first
          | (rename_i h; have h := (congrArg (fun q => q.2.2.2) h).symm; dsimp only at h; subst h)
          | (rename_i h; have h := (congrArg (fun q => q.2.2) h).symm; dsimp only at h; subst h)
          | (rename_i h; have h := (congrArg (fun q => q.2) h).symm; dsimp only at h; subst h)
          | (rename_i h _; have h := (congrArg (fun q => q.2) h).symm; dsimp only at h; subst h))
      | dsimp only
      | refine (changesOnly_foldl _ _ _ fun b x => ?_).2 ?_) hl

@[simp] theorem keyInstall_only {l : List Comp} {a : Dev} (x0 : Dev) (hl : [.hdr, .ctr, .eth, .fab, .sec, .out] ⊆ l) :
    changesOnly l a (keyInstall x0) ↔ changesOnly l a x0 :=
  changesOnly.peel (k := [.hdr, .ctr, .eth, .fab, .sec, .out]) (by
    unfold keyInstall
    repeat' first
      | (simp [changesOnly_foldl]; done)
      | (split <;> try first
          | (rename_i h; have h := (congrArg (fun q => q.2.2.2) h).symm; dsimp only at h; subst h)
          | (rename_i h; have h := (congrArg (fun q => q.2.2) h).symm; dsimp only at h; subst h)
          | (rename_i h; have h := (congrArg (fun q => q.2) h).symm; dsimp only at h; subst h)
          | (rename_i h _; have h := (congrArg (fun q => q.2) h).symm; dsimp only at h; subst h))
      | dsimp only
      | refine (changesOnly_foldl _ _ _ fun b x => ?_).2 ?_) hl

@[simp] theorem keyClear_only {l : List Comp} {a : Dev} (x0 : Dev) (hl : [.hdr, .fab, .sec] ⊆ l) :
    changesOnly l a (keyClear x0) ↔ changesOnly l a x0 :=
  changesOnly.peel (k := [.hdr, .fab, .sec]) (by
    unfold keyClear
    repeat' first
      | (simp [changesOnly_foldl]; done)
      | (split <;> try first
          | (rename_i h; have h := (congrArg (fun q => q.2.2.2) h).symm; dsimp only at h; subst h)
          | (rename_i h; have h := (congrArg (fun q => q.2.2) h).symm; dsimp only at h; subst h)
          | (rename_i h; have h := (congrArg (fun q => q.2) h).symm; dsimp only at h; subst h)
          | (rename_i h _; have h := (congrArg (fun q => q.2) h).symm; dsimp only at h; subst h))
      | dsimp only
      | refine (changesOnly_foldl _ _ _ fun b x => ?_).2 ?_) hl

@[simp] theorem keyTransmit_only {l : List Comp} {a : Dev} (x0 : Dev) (hl : [.hdr, .ctr, .eth, .fab, .sec, .out] ⊆ l) :
    changesOnly l a (keyTransmit x0) ↔ changesOnly l a x0 :=
  changesOnly.peel (k := [.hdr, .ctr, .eth, .fab, .sec, .out]) (by
    unfold keyTransmit
    repeat' first
      | (simp [changesOnly_foldl]; done)
      | (split <;> try first
          | (rename_i h; have h := (congrArg (fun q => q.2.2.2) h).symm; dsimp only at h; subst h)
          | (rename_i h; have h := (congrArg (fun q => q.2.2) h).symm; dsimp only at h; subst h)
          | (rename_i h; have h := (congrArg (fun q => q.2) h).symm; dsimp only at h; subst h)
          | (rename_i h _; have h := (congrArg (fun q => q.2) h).symm; dsimp only at h; subst h))
      | dsimp only
      | refine (changesOnly_foldl _ _ _ fun b x => ?_).2 ?_) hl

@[simp] theorem Dev.dropKeys_only {l : List Comp} {a : Dev} (x0 : Dev) (x1) (hl : [.fab, .sec] ⊆ l) :
    changesOnly l a (Dev.dropKeys x0 x1) ↔ changesOnly l a x0 :=
  changesOnly.peel (k := [.fab, .sec]) (by
    unfold Dev.dropKeys
    repeat' first
      | (simp [changesOnly_foldl]; done)
      | (split <;> try first
          | (rename_i h; have h := (congrArg (fun q => q.2.2.2) h).symm; dsimp only at h; subst h)
          | (rename_i h; have h := (congrArg (fun q => q.2.2) h).symm; dsimp only at h; subst h)
          | (rename_i h; have h := (congrArg (fun q => q.2) h).symm; dsimp only at h; subst h)
          | (rename_i h _; have h := (congrArg (fun q => q.2) h).symm; dsimp only at h; subst h))
      | dsimp only
      | refine (changesOnly_foldl _ _ _ fun b x => ?_).2 ?_) hl

@[simp] theorem Dev.setSpdm_only {l : List Comp} {a : Dev} (x0 : Dev) (x1) (x2) (hl : [.sec] ⊆ l) :
    changesOnly l a (Dev.setSpdm x0 x1 x2) ↔ changesOnly l a x0 :=
  changesOnly.peel (k := [.sec]) (by
    unfold Dev.setSpdm
    repeat' first
      | (simp [changesOnly_foldl]; done)
      | (split <;> try first
          | (rename_i h; have h := (congrArg (fun q => q.2.2.2) h).symm; dsimp only at h; subst h)
          | (rename_i h; have h := (congrArg (fun q => q.2.2) h).symm; dsimp only at h; subst h)
          | (rename_i h; have h := (congrArg (fun q => q.2) h).symm; dsimp only at h; subst h)
          | (rename_i h _; have h := (congrArg (fun q => q.2) h).symm; dsimp only at h; subst h))
      | dsimp only
      | refine (changesOnly_foldl _ _ _ fun b x => ?_).2 ?_) hl

@[simp] theorem Dev.spdmOut_only {l : List Comp} {a : Dev} (x0 : Dev) (x1) (x2) (hl : [.ctr, .sec, .out] ⊆ l) :
    changesOnly l a (Dev.spdmOut x0 x1 x2) ↔ changesOnly l a x0 :=
  changesOnly.peel (k := [.ctr, .sec, .out]) (by
    unfold Dev.spdmOut
    repeat' first
      | (simp [changesOnly_foldl]; done)
      | (split <;> try first
          | (rename_i h; have h := (congrArg (fun q => q.2.2.2) h).symm; dsimp only at h; subst h)
          | (rename_i h; have h := (congrArg (fun q => q.2.2) h).symm; dsimp only at h; subst h)
          | (rename_i h; have h := (congrArg (fun q => q.2) h).symm; dsimp only at h; subst h)
          | (rename_i h _; have h := (congrArg (fun q => q.2) h).symm; dsimp only at h; subst h))
      | dsimp only
      | refine (changesOnly_foldl _ _ _ fun b x => ?_).2 ?_) hl

@[simp] theorem Dev.spdmErr_only {l : List Comp} {a : Dev} (x0 : Dev) (x1) (x2) (x3) (hl : [.ctr, .sec, .out] ⊆ l) :
    changesOnly l a (Dev.spdmErr x0 x1 x2 x3) ↔ changesOnly l a x0 :=
  changesOnly.peel (k := [.ctr, .sec, .out]) (by
    unfold Dev.spdmErr
    repeat' first
      | (simp [changesOnly_foldl]; done)
      | (split <;> try first
          | (rename_i h; have h := (congrArg (fun q => q.2.2.2) h).symm; dsimp only at h; subst h)
          | (rename_i h; have h := (congrArg (fun q => q.2.2) h).symm; dsimp only at h; subst h)
          | (rename_i h; have h := (congrArg (fun q => q.2) h).symm; dsimp only at h; subst h)
          | (rename_i h _; have h := (congrArg (fun q => q.2) h).symm; dsimp only at h; subst h))
      | dsimp only
      | refine (changesOnly_foldl _ _ _ fun b x => ?_).2 ?_) hl

@[simp] theorem Dev.spdmAt_only {l : List Comp} {a : Dev} (d : Dev) (via) (ph) (f) (hd : changesOnly l a d) (hf : ∀ x, changesOnly l a (f x))
    (hl : [.ctr, .out, .sec] ⊆ l) : changesOnly l a (d.spdmAt via ph f) := by
  have h1 : Comp.ctr ∈ l := hl (by simp)
  have h2 : Comp.out ∈ l := hl (by simp)
  have h3 : Comp.sec ∈ l := hl (by simp)
  unfold Dev.spdmAt
  split <;> simp [*]


@[simp] theorem getVersion_only {l : List Comp} {a : Dev} (x0) (x1) (x2 : Dev) (hl : [.ctr, .sec, .out] ⊆ l) :
    changesOnly l a (getVersion x0 x1 x2) ↔ changesOnly l a x2 :=
  changesOnly.peel (k := [.ctr, .sec, .out]) (by
    unfold getVersion
    repeat' first
      | (simp [changesOnly_foldl]; done)
      | (split <;> try first
          | (rename_i h; have h := (congrArg (fun q => q.2.2.2) h).symm; dsimp only at h; subst h)
          | (rename_i h; have h := (congrArg (fun q => q.2.2) h).symm; dsimp only at h; subst h)
          | (rename_i h; have h := (congrArg (fun q => q.2) h).symm; dsimp only at h; subst h)
          | (rename_i h _; have h := (congrArg (fun q => q.2) h).symm; dsimp only at h; subst h))
      | dsimp only
      | refine (changesOnly_foldl _ _ _ fun b x => ?_).2 ?_) hl

@[simp] theorem getCapabilities_only {l : List Comp} {a : Dev} (x0) (x1) (x2 : Dev) (hl : [.ctr, .sec, .out] ⊆ l) :
    changesOnly l a (getCapabilities x0 x1 x2) ↔ changesOnly l a x2 :=
  changesOnly.peel (k := [.ctr, .sec, .out]) (by
    unfold getCapabilities
    repeat' first
      | (simp [changesOnly_foldl]; done)
      | (split <;> try first
          | (rename_i h; have h := (congrArg (fun q => q.2.2.2) h).symm; dsimp only at h; subst h)
          | (rename_i h; have h := (congrArg (fun q => q.2.2) h).symm; dsimp only at h; subst h)
          | (rename_i h; have h := (congrArg (fun q => q.2) h).symm; dsimp only at h; subst h)
          | (rename_i h _; have h := (congrArg (fun q => q.2) h).symm; dsimp only at h; subst h))
      | dsimp only
      | refine (changesOnly_foldl _ _ _ fun b x => ?_).2 ?_) hl

@[simp] theorem negotiateAlgorithms_only {l : List Comp} {a : Dev} (x0) (x1) (x2 : Dev) (hl : [.ctr, .sec, .out] ⊆ l) :
    changesOnly l a (negotiateAlgorithms x0 x1 x2) ↔ changesOnly l a x2 :=
  changesOnly.peel (k := [.ctr, .sec, .out]) (by
    unfold negotiateAlgorithms
    repeat' first
      | (simp [changesOnly_foldl]; done)
      | (split <;> try first
          | (rename_i h; have h := (congrArg (fun q => q.2.2.2) h).symm; dsimp only at h; subst h)
          | (rename_i h; have h := (congrArg (fun q => q.2.2) h).symm; dsimp only at h; subst h)
          | (rename_i h; have h := (congrArg (fun q => q.2) h).symm; dsimp only at h; subst h)
          | (rename_i h _; have h := (congrArg (fun q => q.2) h).symm; dsimp only at h; subst h))
      | dsimp only
      | refine (changesOnly_foldl _ _ _ fun b x => ?_).2 ?_) hl

@[simp] theorem getDigests_only {l : List Comp} {a : Dev} (x0) (x1) (x2 : Dev) (hl : [.ctr, .sec, .out] ⊆ l) :
    changesOnly l a (getDigests x0 x1 x2) ↔ changesOnly l a x2 :=
  changesOnly.peel (k := [.ctr, .sec, .out]) (by
    unfold getDigests
    repeat' first
      | (simp [changesOnly_foldl]; done)
      | (split <;> try first
          | (rename_i h; have h := (congrArg (fun q => q.2.2.2) h).symm; dsimp only at h; subst h)
          | (rename_i h; have h := (congrArg (fun q => q.2.2) h).symm; dsimp only at h; subst h)
          | (rename_i h; have h := (congrArg (fun q => q.2) h).symm; dsimp only at h; subst h)
          | (rename_i h _; have h := (congrArg (fun q => q.2) h).symm; dsimp only at h; subst h))
      | dsimp only
      | refine (changesOnly_foldl _ _ _ fun b x => ?_).2 ?_) hl

@[simp] theorem getCertificate_only {l : List Comp} {a : Dev} (x0) (x1) (x2) (x3) (x4 : Dev) (hl : [.ctr, .sec, .out] ⊆ l) :
    changesOnly l a (getCertificate x0 x1 x2 x3 x4) ↔ changesOnly l a x4 :=
  changesOnly.peel (k := [.ctr, .sec, .out]) (by
    unfold getCertificate
    repeat' first
      | (simp [changesOnly_foldl]; done)
      | (split <;> try first
          | (rename_i h; have h := (congrArg (fun q => q.2.2.2) h).symm; dsimp only at h; subst h)
          | (rename_i h; have h := (congrArg (fun q => q.2.2) h).symm; dsimp only at h; subst h)
          | (rename_i h; have h := (congrArg (fun q => q.2) h).symm; dsimp only at h; subst h)
          | (rename_i h _; have h := (congrArg (fun q => q.2) h).symm; dsimp only at h; subst h))
      | dsimp only
      | refine (changesOnly_foldl _ _ _ fun b x => ?_).2 ?_) hl

@[simp] theorem Dev.rewrite_only {l : List Comp} {a : Dev} (x0 : Dev) (x1) (hl : [.gen] ⊆ l) :
    changesOnly l a (Dev.rewrite x0 x1) ↔ changesOnly l a x0 :=
  changesOnly.peel (k := [.gen]) (by
    unfold Dev.rewrite
    repeat' first
      | (simp [changesOnly_foldl]; done)
      | (split <;> try first
          | (rename_i h; have h := (congrArg (fun q => q.2.2.2) h).symm; dsimp only at h; subst h)
          | (rename_i h; have h := (congrArg (fun q => q.2.2) h).symm; dsimp only at h; subst h)
          | (rename_i h; have h := (congrArg (fun q => q.2) h).symm; dsimp only at h; subst h)
          | (rename_i h _; have h := (congrArg (fun q => q.2) h).symm; dsimp only at h; subst h))
      | dsimp only
      | refine (changesOnly_foldl _ _ _ fun b x => ?_).2 ?_) hl

@[simp] theorem Dev.nonce_only {l : List Comp} {a : Dev} (x0 : Dev) (hl : [.free] ⊆ l) :
    changesOnly l a (Dev.nonce x0).2 ↔ changesOnly l a x0 :=
  changesOnly.peel (k := [.free]) (by
    unfold Dev.nonce
    repeat' first
      | (simp [changesOnly_foldl]; done)
      | (split <;> try first
          | (rename_i h; have h := (congrArg (fun q => q.2.2.2) h).symm; dsimp only at h; subst h)
          | (rename_i h; have h := (congrArg (fun q => q.2.2) h).symm; dsimp only at h; subst h)
          | (rename_i h; have h := (congrArg (fun q => q.2) h).symm; dsimp only at h; subst h)
          | (rename_i h _; have h := (congrArg (fun q => q.2) h).symm; dsimp only at h; subst h))
      | dsimp only
      | refine (changesOnly_foldl _ _ _ fun b x => ?_).2 ?_) hl

@[simp] theorem challenge_only {l : List Comp} {a : Dev} (x0) (x1) (x2 : Dev) (hl : [.ctr, .sec, .out, .free] ⊆ l) :
    changesOnly l a (challenge x0 x1 x2) ↔ changesOnly l a x2 :=
  changesOnly.peel (k := [.ctr, .sec, .out, .free]) (by
    unfold challenge
    repeat' first
      | (simp [changesOnly_foldl]; done)
      | (split <;> try first
          | (rename_i h; have h := (congrArg (fun q => q.2.2.2) h).symm; dsimp only at h; subst h)
          | (rename_i h; have h := (congrArg (fun q => q.2.2) h).symm; dsimp only at h; subst h)
          | (rename_i h; have h := (congrArg (fun q => q.2) h).symm; dsimp only at h; subst h)
          | (rename_i h _; have h := (congrArg (fun q => q.2) h).symm; dsimp only at h; subst h))
      | dsimp only
      | refine (changesOnly_foldl _ _ _ fun b x => ?_).2 ?_) hl

@[simp] theorem getMeasurements_only {l : List Comp} {a : Dev} (x0) (x1) (x2) (x3 : Dev) (hl : [.ctr, .sec, .out, .free] ⊆ l) :
    changesOnly l a (getMeasurements x0 x1 x2 x3) ↔ changesOnly l a x3 :=
  changesOnly.peel (k := [.ctr, .sec, .out, .free]) (by
    unfold getMeasurements
    repeat' first
      | (simp [changesOnly_foldl]; done)
      | (split <;> try first
          | (rename_i h; have h := (congrArg (fun q => q.2.2.2) h).symm; dsimp only at h; subst h)
          | (rename_i h; have h := (congrArg (fun q => q.2.2) h).symm; dsimp only at h; subst h)
          | (rename_i h; have h := (congrArg (fun q => q.2) h).symm; dsimp only at h; subst h)
          | (rename_i h _; have h := (congrArg (fun q => q.2) h).symm; dsimp only at h; subst h))
      | dsimp only
      | refine (changesOnly_foldl _ _ _ fun b x => ?_).2 ?_) hl

@[simp] theorem chunkGet_only {l : List Comp} {a : Dev} (x0) (x1) (x2) (x3 : Dev) (hl : [.ctr, .sec, .out] ⊆ l) :
    changesOnly l a (chunkGet x0 x1 x2 x3) ↔ changesOnly l a x3 :=
  changesOnly.peel (k := [.ctr, .sec, .out]) (by
    unfold chunkGet
    repeat' first
      | (simp [changesOnly_foldl]; done)
      | (split <;> try first
          | (rename_i h; have h := (congrArg (fun q => q.2.2.2) h).symm; dsimp only at h; subst h)
          | (rename_i h; have h := (congrArg (fun q => q.2.2) h).symm; dsimp only at h; subst h)
          | (rename_i h; have h := (congrArg (fun q => q.2) h).symm; dsimp only at h; subst h)
          | (rename_i h _; have h := (congrArg (fun q => q.2) h).symm; dsimp only at h; subst h))
      | dsimp only
      | refine (changesOnly_foldl _ _ _ fun b x => ?_).2 ?_) hl

@[simp] theorem respondIfReady_only {l : List Comp} {a : Dev} (x0) (x1 : Dev) (hl : [.ctr, .sec, .out] ⊆ l) :
    changesOnly l a (respondIfReady x0 x1) ↔ changesOnly l a x1 :=
  changesOnly.peel (k := [.ctr, .sec, .out]) (by
    unfold respondIfReady
    repeat' first
      | (simp [changesOnly_foldl]; done)
      | (split <;> try first
          | (rename_i h; have h := (congrArg (fun q => q.2.2.2) h).symm; dsimp only at h; subst h)
          | (rename_i h; have h := (congrArg (fun q => q.2.2) h).symm; dsimp only at h; subst h)
          | (rename_i h; have h := (congrArg (fun q => q.2) h).symm; dsimp only at h; subst h)
          | (rename_i h _; have h := (congrArg (fun q => q.2) h).symm; dsimp only at h; subst h))
      | dsimp only
      | refine (changesOnly_foldl _ _ _ fun b x => ?_).2 ?_) hl

@[simp] theorem spdmOther_only {l : List Comp} {a : Dev} (x0) (x1) (x2 : Dev) (hl : [.ctr, .sec, .out] ⊆ l) :
    changesOnly l a (spdmOther x0 x1 x2) ↔ changesOnly l a x2 :=
  changesOnly.peel (k := [.ctr, .sec, .out]) (by
    unfold spdmOther
    repeat' first
      | (simp [changesOnly_foldl]; done)
      | (split <;> try first
          | (rename_i h; have h := (congrArg (fun q => q.2.2.2) h).symm; dsimp only at h; subst h)
          | (rename_i h; have h := (congrArg (fun q => q.2.2) h).symm; dsimp only at h; subst h)
          | (rename_i h; have h := (congrArg (fun q => q.2) h).symm; dsimp only at h; subst h)
          | (rename_i h _; have h := (congrArg (fun q => q.2) h).symm; dsimp only at h; subst h))
      | dsimp only
      | refine (changesOnly_foldl _ _ _ fun b x => ?_).2 ?_) hl

@[simp] theorem Dev.mgmtOut_only {l : List Comp} {a : Dev} (x0 : Dev) (x1) (x2) (x3) (hl : [.ctr, .out] ⊆ l) :
    changesOnly l a (Dev.mgmtOut x0 x1 x2 x3) ↔ changesOnly l a x0 :=
  changesOnly.peel (k := [.ctr, .out]) (by
    unfold Dev.mgmtOut
    repeat' first
      | (simp [changesOnly_foldl]; done)
      | (split <;> try first
          | (rename_i h; have h := (congrArg (fun q => q.2.2.2) h).symm; dsimp only at h; subst h)
          | (rename_i h; have h := (congrArg (fun q => q.2.2) h).symm; dsimp only at h; subst h)
          | (rename_i h; have h := (congrArg (fun q => q.2) h).symm; dsimp only at h; subst h)
          | (rename_i h _; have h := (congrArg (fun q => q.2) h).symm; dsimp only at h; subst h))
      | dsimp only
      | refine (changesOnly_foldl _ _ _ fun b x => ?_).2 ?_) hl

@[simp] theorem Dev.mgmtReq_only {l : List Comp} {a : Dev} (d : Dev) (t) (c) (f) (hf : ∀ b, changesOnly l b (f b))
    (hl : [.ctr, .out] ⊆ l) : changesOnly l a (d.mgmtReq t c f) ↔ changesOnly l a d :=
  changesOnly.peel (k := l) (by
    have hctr : Comp.ctr ∈ l := hl (by simp)
    have hout : Comp.out ∈ l := hl (by simp)
    have hg : ∀ a b, changesOnly l a (f b) ↔ changesOnly l a b := fun a b => (hf b).peel fun _ h => h
    unfold Dev.mgmtReq
    repeat' first
      | (simp [hg, hctr, hout]; done)
      | (split <;> try first
          | (rename_i h; have h := (congrArg (fun q => q.2) h).symm; dsimp only at h; subst h))
      | dsimp only) (fun _ h => h)


@[simp] theorem mgmtUnknown_only {l : List Comp} {a : Dev} (x0) (x1) (x2 : Dev) (hl : [.ctr, .out] ⊆ l) :
    changesOnly l a (mgmtUnknown x0 x1 x2) ↔ changesOnly l a x2 :=
  changesOnly.peel (k := [.ctr, .out]) (by
    unfold mgmtUnknown
    repeat' first
      | (simp [changesOnly_foldl]; done)
      | (split <;> try first
          | (rename_i h; have h := (congrArg (fun q => q.2.2.2) h).symm; dsimp only at h; subst h)
          | (rename_i h; have h := (congrArg (fun q => q.2.2) h).symm; dsimp only at h; subst h)
          | (rename_i h; have h := (congrArg (fun q => q.2) h).symm; dsimp only at h; subst h)
          | (rename_i h _; have h := (congrArg (fun q => q.2) h).symm; dsimp only at h; subst h))
      | dsimp only
      | refine (changesOnly_foldl _ _ _ fun b x => ?_).2 ?_) hl

@[simp] theorem Dev.ctlOut_only {l : List Comp} {a : Dev} (x0 : Dev) (x1) (x2) (x3) (hl : [.out] ⊆ l) :
    changesOnly l a (Dev.ctlOut x0 x1 x2 x3) ↔ changesOnly l a x0 :=
  changesOnly.peel (k := [.out]) (by
    unfold Dev.ctlOut
    repeat' first
      | (simp [changesOnly_foldl]; done)
      | (split <;> try first
          | (rename_i h; have h := (congrArg (fun q => q.2.2.2) h).symm; dsimp only at h; subst h)
          | (rename_i h; have h := (congrArg (fun q => q.2.2) h).symm; dsimp only at h; subst h)
          | (rename_i h; have h := (congrArg (fun q => q.2) h).symm; dsimp only at h; subst h)
          | (rename_i h _; have h := (congrArg (fun q => q.2) h).symm; dsimp only at h; subst h))
      | dsimp only
      | refine (changesOnly_foldl _ _ _ fun b x => ?_).2 ?_) hl

@[simp] theorem setEid_only {l : List Comp} {a : Dev} (x0) (x1) (x2 : Dev) (hl : [.boot, .out] ⊆ l) :
    changesOnly l a (setEid x0 x1 x2) ↔ changesOnly l a x2 :=
  changesOnly.peel (k := [.boot, .out]) (by
    unfold setEid
    repeat' first
      | (simp [changesOnly_foldl]; done)
      | (split <;> try first
          | (rename_i h; have h := (congrArg (fun q => q.2.2.2) h).symm; dsimp only at h; subst h)
          | (rename_i h; have h := (congrArg (fun q => q.2.2) h).symm; dsimp only at h; subst h)
          | (rename_i h; have h := (congrArg (fun q => q.2) h).symm; dsimp only at h; subst h)
          | (rename_i h _; have h := (congrArg (fun q => q.2) h).symm; dsimp only at h; subst h))
      | dsimp only
      | refine (changesOnly_foldl _ _ _ fun b x => ?_).2 ?_) hl

@[simp] theorem getEid_only {l : List Comp} {a : Dev} (x0) (x1 : Dev) (hl : [.out] ⊆ l) :
    changesOnly l a (getEid x0 x1) ↔ changesOnly l a x1 :=
  changesOnly.peel (k := [.out]) (by
    unfold getEid
    repeat' first
      | (simp [changesOnly_foldl]; done)
      | (split <;> try first
          | (rename_i h; have h := (congrArg (fun q => q.2.2.2) h).symm; dsimp only at h; subst h)
          | (rename_i h; have h := (congrArg (fun q => q.2.2) h).symm; dsimp only at h; subst h)
          | (rename_i h; have h := (congrArg (fun q => q.2) h).symm; dsimp only at h; subst h)
          | (rename_i h _; have h := (congrArg (fun q => q.2) h).symm; dsimp only at h; subst h))
      | dsimp only
      | refine (changesOnly_foldl _ _ _ fun b x => ?_).2 ?_) hl

@[simp] theorem getMctpVersion_only {l : List Comp} {a : Dev} (x0) (x1) (x2 : Dev) (hl : [.out] ⊆ l) :
    changesOnly l a (getMctpVersion x0 x1 x2) ↔ changesOnly l a x2 :=
  changesOnly.peel (k := [.out]) (by
    unfold getMctpVersion
    repeat' first
      | (simp [changesOnly_foldl]; done)
      | (split <;> try first
          | (rename_i h; have h := (congrArg (fun q => q.2.2.2) h).symm; dsimp only at h; subst h)
          | (rename_i h; have h := (congrArg (fun q => q.2.2) h).symm; dsimp only at h; subst h)
          | (rename_i h; have h := (congrArg (fun q => q.2) h).symm; dsimp only at h; subst h)
          | (rename_i h _; have h := (congrArg (fun q => q.2) h).symm; dsimp only at h; subst h))
      | dsimp only
      | refine (changesOnly_foldl _ _ _ fun b x => ?_).2 ?_) hl

@[simp] theorem getMsgTypes_only {l : List Comp} {a : Dev} (x0) (x1 : Dev) (hl : [.out] ⊆ l) :
    changesOnly l a (getMsgTypes x0 x1) ↔ changesOnly l a x1 :=
  changesOnly.peel (k := [.out]) (by
    unfold getMsgTypes
    repeat' first
      | (simp [changesOnly_foldl]; done)
      | (split <;> try first
          | (rename_i h; have h := (congrArg (fun q => q.2.2.2) h).symm; dsimp only at h; subst h)
          | (rename_i h; have h := (congrArg (fun q => q.2.2) h).symm; dsimp only at h; subst h)
          | (rename_i h; have h := (congrArg (fun q => q.2) h).symm; dsimp only at h; subst h)
          | (rename_i h _; have h := (congrArg (fun q => q.2) h).symm; dsimp only at h; subst h))
      | dsimp only
      | refine (changesOnly_foldl _ _ _ fun b x => ?_).2 ?_) hl

@[simp] theorem getVendor_only {l : List Comp} {a : Dev} (x0) (x1) (x2 : Dev) (hl : [.out] ⊆ l) :
    changesOnly l a (getVendor x0 x1 x2) ↔ changesOnly l a x2 :=
  changesOnly.peel (k := [.out]) (by
    unfold getVendor
    repeat' first
      | (simp [changesOnly_foldl]; done)
      | (split <;> try first
          | (rename_i h; have h := (congrArg (fun q => q.2.2.2) h).symm; dsimp only at h; subst h)
          | (rename_i h; have h := (congrArg (fun q => q.2.2) h).symm; dsimp only at h; subst h)
          | (rename_i h; have h := (congrArg (fun q => q.2) h).symm; dsimp only at h; subst h)
          | (rename_i h _; have h := (congrArg (fun q => q.2) h).symm; dsimp only at h; subst h))
      | dsimp only
      | refine (changesOnly_foldl _ _ _ fun b x => ?_).2 ?_) hl

@[simp] theorem assignI3c_only {l : List Comp} {a : Dev} (x0) (x1 : Dev) (hl : [.boot] ⊆ l) :
    changesOnly l a (assignI3c x0 x1) ↔ changesOnly l a x1 :=
  changesOnly.peel (k := [.boot]) (by
    unfold assignI3c
    repeat' first
      | (simp [changesOnly_foldl]; done)
      | (split <;> try first
          | (rename_i h; have h := (congrArg (fun q => q.2.2.2) h).symm; dsimp only at h; subst h)
          | (rename_i h; have h := (congrArg (fun q => q.2.2) h).symm; dsimp only at h; subst h)
          | (rename_i h; have h := (congrArg (fun q => q.2) h).symm; dsimp only at h; subst h)
          | (rename_i h _; have h := (congrArg (fun q => q.2) h).symm; dsimp only at h; subst h))
      | dsimp only
      | refine (changesOnly_foldl _ _ _ fun b x => ?_).2 ?_) hl

@[simp] theorem setdasa_only {l : List Comp} {a : Dev} (x0) (x1) (x2 : Dev) (hl : [.boot] ⊆ l) :
    changesOnly l a (setdasa x0 x1 x2) ↔ changesOnly l a x2 :=
  changesOnly.peel (k := [.boot]) (by
    unfold setdasa
    repeat' first
      | (simp [changesOnly_foldl]; done)
      | (split <;> try first
          | (rename_i h; have h := (congrArg (fun q => q.2.2.2) h).symm; dsimp only at h; subst h)
          | (rename_i h; have h := (congrArg (fun q => q.2.2) h).symm; dsimp only at h; subst h)
          | (rename_i h; have h := (congrArg (fun q => q.2) h).symm; dsimp only at h; subst h)
          | (rename_i h _; have h := (congrArg (fun q => q.2) h).symm; dsimp only at h; subst h))
      | dsimp only
      | refine (changesOnly_foldl _ _ _ fun b x => ?_).2 ?_) hl

@[simp] theorem recoveryAsk_only {l : List Comp} {a : Dev} (x0) (x1 : Dev) (hl : [.ctr, .boot, .out] ⊆ l) :
    changesOnly l a (recoveryAsk x0 x1) ↔ changesOnly l a x1 :=
  changesOnly.peel (k := [.ctr, .boot, .out]) (by
    unfold recoveryAsk
    repeat' first
      | (simp [changesOnly_foldl]; done)
      | (split <;> try first
          | (rename_i h; have h := (congrArg (fun q => q.2.2.2) h).symm; dsimp only at h; subst h)
          | (rename_i h; have h := (congrArg (fun q => q.2.2) h).symm; dsimp only at h; subst h)
          | (rename_i h; have h := (congrArg (fun q => q.2) h).symm; dsimp only at h; subst h)
          | (rename_i h _; have h := (congrArg (fun q => q.2) h).symm; dsimp only at h; subst h))
      | dsimp only
      | refine (changesOnly_foldl _ _ _ fun b x => ?_).2 ?_) hl

end Sys2Proof.Machine
end

