-- ==== Sys2Proof/Laws/OnlyHalt.lean ====
section
/-!
SUPPORT. The components that each operation of Machine/Halt.lean can change.
-/

namespace Sys2Proof.Machine

set_option linter.unusedSimpArgs false

open Sys2Proof.Safety

@[simp] theorem Dev.quiesceBlk_only {l : List Comp} {a : Dev} (x0 : Dev) (x1) (hl : [.st, .hdr, .ctr, .mem, .poison, .cores, .sigs, .nwch, .opte, .tier, .strm, .free] ⊆ l) :
    changesOnly l a (Dev.quiesceBlk x0 x1) ↔ changesOnly l a x0 :=
  changesOnly.peel (k := [.st, .hdr, .ctr, .mem, .poison, .cores, .sigs, .nwch, .opte, .tier, .strm, .free]) (by
    unfold Dev.quiesceBlk
    repeat' first
      | (simp [changesOnly_foldl]; done)
      | (split <;> try first
          | (rename_i h; have h := (congrArg (fun q => q.2.2.2) h).symm; dsimp only at h; subst h)
          | (rename_i h; have h := (congrArg (fun q => q.2.2) h).symm; dsimp only at h; subst h)
          | (rename_i h; have h := (congrArg (fun q => q.2) h).symm; dsimp only at h; subst h)
          | (rename_i h _; have h := (congrArg (fun q => q.2) h).symm; dsimp only at h; subst h))
      | dsimp only
      | refine (changesOnly_foldl _ _ _ fun b x => ?_).2 ?_) hl

@[simp] theorem Dev.drainBlk_only {l : List Comp} {a : Dev} (x0 : Dev) (x1) (hl : [.st, .hdr] ⊆ l) :
    changesOnly l a (Dev.drainBlk x0 x1) ↔ changesOnly l a x0 :=
  changesOnly.peel (k := [.st, .hdr]) (by
    unfold Dev.drainBlk
    repeat' first
      | (simp [changesOnly_foldl]; done)
      | (split <;> try first
          | (rename_i h; have h := (congrArg (fun q => q.2.2.2) h).symm; dsimp only at h; subst h)
          | (rename_i h; have h := (congrArg (fun q => q.2.2) h).symm; dsimp only at h; subst h)
          | (rename_i h; have h := (congrArg (fun q => q.2) h).symm; dsimp only at h; subst h)
          | (rename_i h _; have h := (congrArg (fun q => q.2) h).symm; dsimp only at h; subst h))
      | dsimp only
      | refine (changesOnly_foldl _ _ _ fun b x => ?_).2 ?_) hl

@[simp] theorem Dev.haltBlk_only {l : List Comp} {a : Dev} (x0 : Dev) (x1) (hl : [.st, .hdr] ⊆ l) :
    changesOnly l a (Dev.haltBlk x0 x1) ↔ changesOnly l a x0 :=
  changesOnly.peel (k := [.st, .hdr]) (by
    unfold Dev.haltBlk
    repeat' first
      | (simp [changesOnly_foldl]; done)
      | (split <;> try first
          | (rename_i h; have h := (congrArg (fun q => q.2.2.2) h).symm; dsimp only at h; subst h)
          | (rename_i h; have h := (congrArg (fun q => q.2.2) h).symm; dsimp only at h; subst h)
          | (rename_i h; have h := (congrArg (fun q => q.2) h).symm; dsimp only at h; subst h)
          | (rename_i h _; have h := (congrArg (fun q => q.2) h).symm; dsimp only at h; subst h))
      | dsimp only
      | refine (changesOnly_foldl _ _ _ fun b x => ?_).2 ?_) hl

@[simp] theorem Dev.markLoad_only {l : List Comp} {a : Dev} (x0 : Dev) (x1) (x2) (hl : [.poison] ⊆ l) :
    changesOnly l a (Dev.markLoad x0 x1 x2) ↔ changesOnly l a x0 :=
  changesOnly.peel (k := [.poison]) (by
    unfold Dev.markLoad
    repeat' first
      | (simp [changesOnly_foldl]; done)
      | (split <;> try first
          | (rename_i h; have h := (congrArg (fun q => q.2.2.2) h).symm; dsimp only at h; subst h)
          | (rename_i h; have h := (congrArg (fun q => q.2.2) h).symm; dsimp only at h; subst h)
          | (rename_i h; have h := (congrArg (fun q => q.2) h).symm; dsimp only at h; subst h)
          | (rename_i h _; have h := (congrArg (fun q => q.2) h).symm; dsimp only at h; subst h))
      | dsimp only
      | refine (changesOnly_foldl _ _ _ fun b x => ?_).2 ?_) hl

@[simp] theorem Dev.markStore_only {l : List Comp} {a : Dev} (x0 : Dev) (x1) (x2) (x3) (hl : [.poison] ⊆ l) :
    changesOnly l a (Dev.markStore x0 x1 x2 x3) ↔ changesOnly l a x0 :=
  changesOnly.peel (k := [.poison]) (by
    unfold Dev.markStore
    repeat' first
      | (simp [changesOnly_foldl]; done)
      | (split <;> try first
          | (rename_i h; have h := (congrArg (fun q => q.2.2.2) h).symm; dsimp only at h; subst h)
          | (rename_i h; have h := (congrArg (fun q => q.2.2) h).symm; dsimp only at h; subst h)
          | (rename_i h; have h := (congrArg (fun q => q.2) h).symm; dsimp only at h; subst h)
          | (rename_i h _; have h := (congrArg (fun q => q.2) h).symm; dsimp only at h; subst h))
      | dsimp only
      | refine (changesOnly_foldl _ _ _ fun b x => ?_).2 ?_) hl

@[simp] theorem Dev.abandon_only {l : List Comp} {a : Dev} (x0 : Dev) (x1) (x2) (x3) (hl : [.ctr, .mem, .poison, .cores] ⊆ l) :
    changesOnly l a (Dev.abandon x0 x1 x2 x3) ↔ changesOnly l a x0 :=
  changesOnly.peel (k := [.ctr, .mem, .poison, .cores]) (by
    unfold Dev.abandon
    repeat' first
      | (simp [changesOnly_foldl]; done)
      | (split <;> try first
          | (rename_i h; have h := (congrArg (fun q => q.2.2.2) h).symm; dsimp only at h; subst h)
          | (rename_i h; have h := (congrArg (fun q => q.2.2) h).symm; dsimp only at h; subst h)
          | (rename_i h; have h := (congrArg (fun q => q.2) h).symm; dsimp only at h; subst h)
          | (rename_i h _; have h := (congrArg (fun q => q.2) h).symm; dsimp only at h; subst h))
      | dsimp only
      | refine (changesOnly_foldl _ _ _ fun b x => ?_).2 ?_) hl

@[simp] theorem Dev.dropAwaits_only {l : List Comp} {a : Dev} (x0 : Dev) (x1) (x2) (x3) (hl : [.poison, .sigs, .nwch] ⊆ l) :
    changesOnly l a (Dev.dropAwaits x0 x1 x2 x3) ↔ changesOnly l a x0 :=
  changesOnly.peel (k := [.poison, .sigs, .nwch]) (by
    unfold Dev.dropAwaits
    repeat' first
      | (simp [changesOnly_foldl]; done)
      | (split <;> try first
          | (rename_i h; have h := (congrArg (fun q => q.2.2.2) h).symm; dsimp only at h; subst h)
          | (rename_i h; have h := (congrArg (fun q => q.2.2) h).symm; dsimp only at h; subst h)
          | (rename_i h; have h := (congrArg (fun q => q.2) h).symm; dsimp only at h; subst h)
          | (rename_i h _; have h := (congrArg (fun q => q.2) h).symm; dsimp only at h; subst h))
      | dsimp only
      | refine (changesOnly_foldl _ _ _ fun b x => ?_).2 ?_) hl

@[simp] theorem Dev.haltCore_only {l : List Comp} {a : Dev} (x0 : Dev) (x1) (hl : [.st, .hdr, .ctr, .mem, .poison, .cores, .sigs, .nwch] ⊆ l) :
    changesOnly l a (Dev.haltCore x0 x1) ↔ changesOnly l a x0 :=
  changesOnly.peel (k := [.st, .hdr, .ctr, .mem, .poison, .cores, .sigs, .nwch]) (by
    unfold Dev.haltCore
    repeat' first
      | (simp [changesOnly_foldl]; done)
      | (split <;> try first
          | (rename_i h; have h := (congrArg (fun q => q.2.2.2) h).symm; dsimp only at h; subst h)
          | (rename_i h; have h := (congrArg (fun q => q.2.2) h).symm; dsimp only at h; subst h)
          | (rename_i h; have h := (congrArg (fun q => q.2) h).symm; dsimp only at h; subst h)
          | (rename_i h _; have h := (congrArg (fun q => q.2) h).symm; dsimp only at h; subst h))
      | dsimp only
      | refine (changesOnly_foldl _ _ _ fun b x => ?_).2 ?_) hl

@[simp] theorem Dev.dropCore_only {l : List Comp} {a : Dev} (x0 : Dev) (x1) (hl : [.cores, .nwch] ⊆ l) :
    changesOnly l a (Dev.dropCore x0 x1) ↔ changesOnly l a x0 :=
  changesOnly.peel (k := [.cores, .nwch]) (by
    unfold Dev.dropCore
    repeat' first
      | (simp [changesOnly_foldl]; done)
      | (split <;> try first
          | (rename_i h; have h := (congrArg (fun q => q.2.2.2) h).symm; dsimp only at h; subst h)
          | (rename_i h; have h := (congrArg (fun q => q.2.2) h).symm; dsimp only at h; subst h)
          | (rename_i h; have h := (congrArg (fun q => q.2) h).symm; dsimp only at h; subst h)
          | (rename_i h _; have h := (congrArg (fun q => q.2) h).symm; dsimp only at h; subst h))
      | dsimp only
      | refine (changesOnly_foldl _ _ _ fun b x => ?_).2 ?_) hl

@[simp] theorem Dev.haltOpte_only {l : List Comp} {a : Dev} (x0 : Dev) (x1) (x2) (hl : [.st, .hdr, .ctr, .poison, .sigs, .opte, .free] ⊆ l) :
    changesOnly l a (Dev.haltOpte x0 x1 x2) ↔ changesOnly l a x0 :=
  changesOnly.peel (k := [.st, .hdr, .ctr, .poison, .sigs, .opte, .free]) (by
    unfold Dev.haltOpte
    repeat' first
      | (simp [changesOnly_foldl]; done)
      | (split <;> try first
          | (rename_i h; have h := (congrArg (fun q => q.2.2.2) h).symm; dsimp only at h; subst h)
          | (rename_i h; have h := (congrArg (fun q => q.2.2) h).symm; dsimp only at h; subst h)
          | (rename_i h; have h := (congrArg (fun q => q.2) h).symm; dsimp only at h; subst h)
          | (rename_i h _; have h := (congrArg (fun q => q.2) h).symm; dsimp only at h; subst h))
      | dsimp only
      | refine (changesOnly_foldl _ _ _ fun b x => ?_).2 ?_) hl

@[simp] theorem Dev.haltRede_only {l : List Comp} {a : Dev} (x0 : Dev) (x1) (x2) (hl : [.st, .hdr, .poison, .sigs, .rede] ⊆ l) :
    changesOnly l a (Dev.haltRede x0 x1 x2) ↔ changesOnly l a x0 :=
  changesOnly.peel (k := [.st, .hdr, .poison, .sigs, .rede]) (by
    unfold Dev.haltRede
    repeat' first
      | (simp [changesOnly_foldl]; done)
      | (split <;> try first
          | (rename_i h; have h := (congrArg (fun q => q.2.2.2) h).symm; dsimp only at h; subst h)
          | (rename_i h; have h := (congrArg (fun q => q.2.2) h).symm; dsimp only at h; subst h)
          | (rename_i h; have h := (congrArg (fun q => q.2) h).symm; dsimp only at h; subst h)
          | (rename_i h _; have h := (congrArg (fun q => q.2) h).symm; dsimp only at h; subst h))
      | dsimp only
      | refine (changesOnly_foldl _ _ _ fun b x => ?_).2 ?_) hl

@[simp] theorem Dev.haltMvec_only {l : List Comp} {a : Dev} (x0 : Dev) (x1) (x2) (hl : [.st, .hdr, .ctr, .mem, .poison, .cores, .sigs, .mvec, .nwch] ⊆ l) :
    changesOnly l a (Dev.haltMvec x0 x1 x2) ↔ changesOnly l a x0 :=
  changesOnly.peel (k := [.st, .hdr, .ctr, .mem, .poison, .cores, .sigs, .mvec, .nwch]) (by
    unfold Dev.haltMvec
    repeat' first
      | (simp [changesOnly_foldl]; done)
      | (split <;> try first
          | (rename_i h; have h := (congrArg (fun q => q.2.2.2) h).symm; dsimp only at h; subst h)
          | (rename_i h; have h := (congrArg (fun q => q.2.2) h).symm; dsimp only at h; subst h)
          | (rename_i h; have h := (congrArg (fun q => q.2) h).symm; dsimp only at h; subst h)
          | (rename_i h _; have h := (congrArg (fun q => q.2) h).symm; dsimp only at h; subst h))
      | dsimp only
      | refine (changesOnly_foldl _ _ _ fun b x => ?_).2 ?_) hl

@[simp] theorem Dev.haltStrm_only {l : List Comp} {a : Dev} (x0 : Dev) (x1) (hl : [.st, .hdr, .strm] ⊆ l) :
    changesOnly l a (Dev.haltStrm x0 x1) ↔ changesOnly l a x0 :=
  changesOnly.peel (k := [.st, .hdr, .strm]) (by
    unfold Dev.haltStrm
    repeat' first
      | (simp [changesOnly_foldl]; done)
      | (split <;> try first
          | (rename_i h; have h := (congrArg (fun q => q.2.2.2) h).symm; dsimp only at h; subst h)
          | (rename_i h; have h := (congrArg (fun q => q.2.2) h).symm; dsimp only at h; subst h)
          | (rename_i h; have h := (congrArg (fun q => q.2) h).symm; dsimp only at h; subst h)
          | (rename_i h _; have h := (congrArg (fun q => q.2) h).symm; dsimp only at h; subst h))
      | dsimp only
      | refine (changesOnly_foldl _ _ _ fun b x => ?_).2 ?_) hl

@[simp] theorem Dev.haltUnit_only {l : List Comp} {a : Dev} (x0 : Dev) (x1) (x2) (hl : [.st, .hdr, .ctr, .mem, .poison, .cores, .sigs, .mvec, .nwch, .opte, .rede, .tier, .dmae, .strm, .free] ⊆ l) :
    changesOnly l a (Dev.haltUnit x0 x1 x2) ↔ changesOnly l a x0 :=
  changesOnly.peel (k := [.st, .hdr, .ctr, .mem, .poison, .cores, .sigs, .mvec, .nwch, .opte, .rede, .tier, .dmae, .strm, .free]) (by
    unfold Dev.haltUnit
    repeat' first
      | (simp [changesOnly_foldl]; done)
      | (split <;> try first
          | (rename_i h; have h := (congrArg (fun q => q.2.2.2) h).symm; dsimp only at h; subst h)
          | (rename_i h; have h := (congrArg (fun q => q.2.2) h).symm; dsimp only at h; subst h)
          | (rename_i h; have h := (congrArg (fun q => q.2) h).symm; dsimp only at h; subst h)
          | (rename_i h _; have h := (congrArg (fun q => q.2) h).symm; dsimp only at h; subst h))
      | dsimp only
      | refine (changesOnly_foldl _ _ _ fun b x => ?_).2 ?_) hl

@[simp] theorem Dev.haltCluster_only {l : List Comp} {a : Dev} (x0 : Dev) (x1) (hl : [.st, .hdr, .ctr, .mem, .poison, .cores, .sigs, .mvec, .nwch, .opte, .rede, .tier, .dmae, .strm, .free] ⊆ l) :
    changesOnly l a (Dev.haltCluster x0 x1) ↔ changesOnly l a x0 :=
  changesOnly.peel (k := [.st, .hdr, .ctr, .mem, .poison, .cores, .sigs, .mvec, .nwch, .opte, .rede, .tier, .dmae, .strm, .free]) (by
    unfold Dev.haltCluster
    repeat' first
      | (simp [changesOnly_foldl]; done)
      | (split <;> try first
          | (rename_i h; have h := (congrArg (fun q => q.2.2.2) h).symm; dsimp only at h; subst h)
          | (rename_i h; have h := (congrArg (fun q => q.2.2) h).symm; dsimp only at h; subst h)
          | (rename_i h; have h := (congrArg (fun q => q.2) h).symm; dsimp only at h; subst h)
          | (rename_i h _; have h := (congrArg (fun q => q.2) h).symm; dsimp only at h; subst h))
      | dsimp only
      | refine (changesOnly_foldl _ _ _ fun b x => ?_).2 ?_) hl

@[simp] theorem Dev.setPart_only {l : List Comp} {a : Dev} (x0 : Dev) (x1) (x2) (hl : [.parts] ⊆ l) :
    changesOnly l a (Dev.setPart x0 x1 x2) ↔ changesOnly l a x0 :=
  changesOnly.peel (k := [.parts]) (by
    unfold Dev.setPart
    repeat' first
      | (simp [changesOnly_foldl]; done)
      | (split <;> try first
          | (rename_i h; have h := (congrArg (fun q => q.2.2.2) h).symm; dsimp only at h; subst h)
          | (rename_i h; have h := (congrArg (fun q => q.2.2) h).symm; dsimp only at h; subst h)
          | (rename_i h; have h := (congrArg (fun q => q.2) h).symm; dsimp only at h; subst h)
          | (rename_i h _; have h := (congrArg (fun q => q.2) h).symm; dsimp only at h; subst h))
      | dsimp only
      | refine (changesOnly_foldl _ _ _ fun b x => ?_).2 ?_) hl

@[simp] theorem Dev.haltPart_only {l : List Comp} {a : Dev} (x0 : Dev) (x1) (hl : [.st, .hdr, .ctr, .parts, .mem, .poison, .cores, .sigs, .mvec, .nwch, .opte, .rede, .tier, .dmae, .fab, .strm, .free] ⊆ l) :
    changesOnly l a (Dev.haltPart x0 x1) ↔ changesOnly l a x0 :=
  changesOnly.peel (k := [.st, .hdr, .ctr, .parts, .mem, .poison, .cores, .sigs, .mvec, .nwch, .opte, .rede, .tier, .dmae, .fab, .strm, .free]) (by
    unfold Dev.haltPart
    repeat' first
      | (simp [changesOnly_foldl]; done)
      | (split <;> try first
          | (rename_i h; have h := (congrArg (fun q => q.2.2.2) h).symm; dsimp only at h; subst h)
          | (rename_i h; have h := (congrArg (fun q => q.2.2) h).symm; dsimp only at h; subst h)
          | (rename_i h; have h := (congrArg (fun q => q.2) h).symm; dsimp only at h; subst h)
          | (rename_i h _; have h := (congrArg (fun q => q.2) h).symm; dsimp only at h; subst h))
      | dsimp only
      | refine (changesOnly_foldl _ _ _ fun b x => ?_).2 ?_) hl

@[simp] theorem Dev.haltDevice_only {l : List Comp} {a : Dev} (x0 : Dev) (hl : [.st, .hdr, .ctr, .parts, .mem, .poison, .cores, .sigs, .mvec, .nwch, .opte, .rede, .tier, .dmae, .fab, .strm, .free] ⊆ l) :
    changesOnly l a (Dev.haltDevice x0) ↔ changesOnly l a x0 :=
  changesOnly.peel (k := [.st, .hdr, .ctr, .parts, .mem, .poison, .cores, .sigs, .mvec, .nwch, .opte, .rede, .tier, .dmae, .fab, .strm, .free]) (by
    unfold Dev.haltDevice
    repeat' first
      | (simp [changesOnly_foldl]; done)
      | (split <;> try first
          | (rename_i h; have h := (congrArg (fun q => q.2.2.2) h).symm; dsimp only at h; subst h)
          | (rename_i h; have h := (congrArg (fun q => q.2.2) h).symm; dsimp only at h; subst h)
          | (rename_i h; have h := (congrArg (fun q => q.2) h).symm; dsimp only at h; subst h)
          | (rename_i h _; have h := (congrArg (fun q => q.2) h).symm; dsimp only at h; subst h))
      | dsimp only
      | refine (changesOnly_foldl _ _ _ fun b x => ?_).2 ?_) hl

@[simp] theorem Dev.haltAll_only {l : List Comp} {a : Dev} (x0 : Dev) (hl : [.st, .hdr, .ctr, .mem, .poison, .cores, .sigs, .mvec, .nwch, .opte, .rede, .tier, .dmae, .strm, .free] ⊆ l) :
    changesOnly l a (Dev.haltAll x0) ↔ changesOnly l a x0 :=
  changesOnly.peel (k := [.st, .hdr, .ctr, .mem, .poison, .cores, .sigs, .mvec, .nwch, .opte, .rede, .tier, .dmae, .strm, .free]) (by
    unfold Dev.haltAll
    repeat' first
      | (simp [changesOnly_foldl]; done)
      | (split <;> try first
          | (rename_i h; have h := (congrArg (fun q => q.2.2.2) h).symm; dsimp only at h; subst h)
          | (rename_i h; have h := (congrArg (fun q => q.2.2) h).symm; dsimp only at h; subst h)
          | (rename_i h; have h := (congrArg (fun q => q.2) h).symm; dsimp only at h; subst h)
          | (rename_i h _; have h := (congrArg (fun q => q.2) h).symm; dsimp only at h; subst h))
      | dsimp only
      | refine (changesOnly_foldl _ _ _ fun b x => ?_).2 ?_) hl

end Sys2Proof.Machine
end

