-- ==== Sys2Proof/Laws/OnlyErrors.lean ====
section
/-!
SUPPORT. The components that each operation of Machine/Errors.lean can change.
-/

namespace Sys2Proof.Machine

set_option linter.unusedSimpArgs false

open Sys2Proof.Safety

@[simp] theorem Dev.contain_only {l : List Comp} {a : Dev} (x0 : Dev) (x1) (x2) (hl : [.st, .hdr, .ctr, .parts, .mem, .poison, .cores, .sigs, .mvec, .nwch, .opte, .rede, .tier, .dmae, .fab, .strm, .errm, .free] ⊆ l) :
    changesOnly l a (Dev.contain x0 x1 x2) ↔ changesOnly l a x0 :=
  changesOnly.peel (k := [.st, .hdr, .ctr, .parts, .mem, .poison, .cores, .sigs, .mvec, .nwch, .opte, .rede, .tier, .dmae, .fab, .strm, .errm, .free]) (by
    unfold Dev.contain
    repeat' first
      | (simp [changesOnly_foldl]; done)
      | (split <;> try first
          | (rename_i h; have h := (congrArg (fun q => q.2.2.2) h).symm; dsimp only at h; subst h)
          | (rename_i h; have h := (congrArg (fun q => q.2.2) h).symm; dsimp only at h; subst h)
          | (rename_i h; have h := (congrArg (fun q => q.2) h).symm; dsimp only at h; subst h)
          | (rename_i h _; have h := (congrArg (fun q => q.2) h).symm; dsimp only at h; subst h))
      | dsimp only
      | refine (changesOnly_foldl _ _ _ fun b x => ?_).2 ?_) hl

@[simp] theorem Dev.endHandling_only {l : List Comp} {a : Dev} (x0 : Dev) (x1) (hl : [.errm] ⊆ l) :
    changesOnly l a (Dev.endHandling x0 x1) ↔ changesOnly l a x0 :=
  changesOnly.peel (k := [.errm]) (by
    unfold Dev.endHandling
    repeat' first
      | (simp [changesOnly_foldl]; done)
      | (split <;> try first
          | (rename_i h; have h := (congrArg (fun q => q.2.2.2) h).symm; dsimp only at h; subst h)
          | (rename_i h; have h := (congrArg (fun q => q.2.2) h).symm; dsimp only at h; subst h)
          | (rename_i h; have h := (congrArg (fun q => q.2) h).symm; dsimp only at h; subst h)
          | (rename_i h _; have h := (congrArg (fun q => q.2) h).symm; dsimp only at h; subst h))
      | dsimp only
      | refine (changesOnly_foldl _ _ _ fun b x => ?_).2 ?_) hl

@[simp] theorem Dev.uError_only {l : List Comp} {a : Dev} (x0 : Dev) (x1) (x2) (x3) (x4) (x5) (hl : [.st, .hdr, .ctr, .parts, .mem, .poison, .cores, .sigs, .mvec, .nwch, .opte, .rede, .tier, .dmae, .fab, .strm, .errm, .free] ⊆ l) :
    changesOnly l a (Dev.uError x0 x1 x2 x3 x4 x5) ↔ changesOnly l a x0 :=
  changesOnly.peel (k := [.st, .hdr, .ctr, .parts, .mem, .poison, .cores, .sigs, .mvec, .nwch, .opte, .rede, .tier, .dmae, .fab, .strm, .errm, .free]) (by
    unfold Dev.uError
    repeat' first
      | (simp [changesOnly_foldl]; done)
      | (split <;> try first
          | (rename_i h; have h := (congrArg (fun q => q.2.2.2) h).symm; dsimp only at h; subst h)
          | (rename_i h; have h := (congrArg (fun q => q.2.2) h).symm; dsimp only at h; subst h)
          | (rename_i h; have h := (congrArg (fun q => q.2) h).symm; dsimp only at h; subst h)
          | (rename_i h _; have h := (congrArg (fun q => q.2) h).symm; dsimp only at h; subst h))
      | dsimp only
      | refine (changesOnly_foldl _ _ _ fun b x => ?_).2 ?_) hl

@[simp] theorem Dev.corrected_only {l : List Comp} {a : Dev} (x0 : Dev) (x1) (x2) (x3) (x4) (x5) (hl : [.hdr, .ctr, .errm] ⊆ l) :
    changesOnly l a (Dev.corrected x0 x1 x2 x3 x4 x5) ↔ changesOnly l a x0 :=
  changesOnly.peel (k := [.hdr, .ctr, .errm]) (by
    unfold Dev.corrected
    repeat' first
      | (simp [changesOnly_foldl]; done)
      | (split <;> try first
          | (rename_i h; have h := (congrArg (fun q => q.2.2.2) h).symm; dsimp only at h; subst h)
          | (rename_i h; have h := (congrArg (fun q => q.2.2) h).symm; dsimp only at h; subst h)
          | (rename_i h; have h := (congrArg (fun q => q.2) h).symm; dsimp only at h; subst h)
          | (rename_i h _; have h := (congrArg (fun q => q.2) h).symm; dsimp only at h; subst h))
      | dsimp only
      | refine (changesOnly_foldl _ _ _ fun b x => ?_).2 ?_) hl

@[simp] theorem Dev.poisonFound_only {l : List Comp} {a : Dev} (x0 : Dev) (x1) (x2) (x3) (x4) (hl : [.hdr, .ctr, .poison, .errm] ⊆ l) :
    changesOnly l a (Dev.poisonFound x0 x1 x2 x3 x4) ↔ changesOnly l a x0 :=
  changesOnly.peel (k := [.hdr, .ctr, .poison, .errm]) (by
    unfold Dev.poisonFound
    repeat' first
      | (simp [changesOnly_foldl]; done)
      | (split <;> try first
          | (rename_i h; have h := (congrArg (fun q => q.2.2.2) h).symm; dsimp only at h; subst h)
          | (rename_i h; have h := (congrArg (fun q => q.2.2) h).symm; dsimp only at h; subst h)
          | (rename_i h; have h := (congrArg (fun q => q.2) h).symm; dsimp only at h; subst h)
          | (rename_i h _; have h := (congrArg (fun q => q.2) h).symm; dsimp only at h; subst h))
      | dsimp only
      | refine (changesOnly_foldl _ _ _ fun b x => ?_).2 ?_) hl

@[simp] theorem Dev.rewriteCluster_only {l : List Comp} {a : Dev} (x0 : Dev) (x1) (hl : [.gen] ⊆ l) :
    changesOnly l a (Dev.rewriteCluster x0 x1) ↔ changesOnly l a x0 :=
  changesOnly.peel (k := [.gen]) (by
    unfold Dev.rewriteCluster
    repeat' first
      | (simp [changesOnly_foldl]; done)
      | (split <;> try first
          | (rename_i h; have h := (congrArg (fun q => q.2.2.2) h).symm; dsimp only at h; subst h)
          | (rename_i h; have h := (congrArg (fun q => q.2.2) h).symm; dsimp only at h; subst h)
          | (rename_i h; have h := (congrArg (fun q => q.2) h).symm; dsimp only at h; subst h)
          | (rename_i h _; have h := (congrArg (fun q => q.2) h).symm; dsimp only at h; subst h))
      | dsimp only
      | refine (changesOnly_foldl _ _ _ fun b x => ?_).2 ?_) hl

@[simp] theorem Dev.updClus_only {l : List Comp} {a : Dev} (x0 : Dev) (x1) (x2) (hl : [.clus] ⊆ l) :
    changesOnly l a (Dev.updClus x0 x1 x2) ↔ changesOnly l a x0 :=
  changesOnly.peel (k := [.clus]) (by
    unfold Dev.updClus
    repeat' first
      | (simp [changesOnly_foldl]; done)
      | (split <;> try first
          | (rename_i h; have h := (congrArg (fun q => q.2.2.2) h).symm; dsimp only at h; subst h)
          | (rename_i h; have h := (congrArg (fun q => q.2.2) h).symm; dsimp only at h; subst h)
          | (rename_i h; have h := (congrArg (fun q => q.2) h).symm; dsimp only at h; subst h)
          | (rename_i h _; have h := (congrArg (fun q => q.2) h).symm; dsimp only at h; subst h))
      | dsimp only
      | refine (changesOnly_foldl _ _ _ fun b x => ?_).2 ?_) hl

@[simp] theorem Dev.setSlot_only {l : List Comp} {a : Dev} (x0 : Dev) (x1) (x2) (x3) (hl : [.clus] ⊆ l) :
    changesOnly l a (Dev.setSlot x0 x1 x2 x3) ↔ changesOnly l a x0 :=
  changesOnly.peel (k := [.clus]) (by
    unfold Dev.setSlot
    repeat' first
      | (simp [changesOnly_foldl]; done)
      | (split <;> try first
          | (rename_i h; have h := (congrArg (fun q => q.2.2.2) h).symm; dsimp only at h; subst h)
          | (rename_i h; have h := (congrArg (fun q => q.2.2) h).symm; dsimp only at h; subst h)
          | (rename_i h; have h := (congrArg (fun q => q.2) h).symm; dsimp only at h; subst h)
          | (rename_i h _; have h := (congrArg (fun q => q.2) h).symm; dsimp only at h; subst h))
      | dsimp only
      | refine (changesOnly_foldl _ _ _ fun b x => ?_).2 ?_) hl

@[simp] theorem Dev.freshCore_only {l : List Comp} {a : Dev} (x0 : Dev) (x1) (hl : [.st, .hdr, .regs, .mem, .poison, .cores, .evc] ⊆ l) :
    changesOnly l a (Dev.freshCore x0 x1) ↔ changesOnly l a x0 :=
  changesOnly.peel (k := [.st, .hdr, .regs, .mem, .poison, .cores, .evc]) (by
    unfold Dev.freshCore
    repeat' first
      | (simp [changesOnly_foldl]; done)
      | (split <;> try first
          | (rename_i h; have h := (congrArg (fun q => q.2.2.2) h).symm; dsimp only at h; subst h)
          | (rename_i h; have h := (congrArg (fun q => q.2.2) h).symm; dsimp only at h; subst h)
          | (rename_i h; have h := (congrArg (fun q => q.2) h).symm; dsimp only at h; subst h)
          | (rename_i h _; have h := (congrArg (fun q => q.2) h).symm; dsimp only at h; subst h))
      | dsimp only
      | refine (changesOnly_foldl _ _ _ fun b x => ?_).2 ?_) hl

@[simp] theorem Dev.freshIsle_only {l : List Comp} {a : Dev} (x0 : Dev) (x1) (hl : [.st, .hdr, .regs, .isles] ⊆ l) :
    changesOnly l a (Dev.freshIsle x0 x1) ↔ changesOnly l a x0 :=
  changesOnly.peel (k := [.st, .hdr, .regs, .isles]) (by
    unfold Dev.freshIsle
    repeat' first
      | (simp [changesOnly_foldl]; done)
      | (split <;> try first
          | (rename_i h; have h := (congrArg (fun q => q.2.2.2) h).symm; dsimp only at h; subst h)
          | (rename_i h; have h := (congrArg (fun q => q.2.2) h).symm; dsimp only at h; subst h)
          | (rename_i h; have h := (congrArg (fun q => q.2) h).symm; dsimp only at h; subst h)
          | (rename_i h _; have h := (congrArg (fun q => q.2) h).symm; dsimp only at h; subst h))
      | dsimp only
      | refine (changesOnly_foldl _ _ _ fun b x => ?_).2 ?_) hl

@[simp] theorem Dev.withdraw_only {l : List Comp} {a : Dev} (x0 : Dev) (x1) (hl : [.st, .hdr, .ctr, .gen, .parts, .mem, .poison, .cores, .sigs, .clus, .mvec, .nwch, .opte, .rede, .tier, .dmae, .fab, .strm, .errm, .free] ⊆ l) :
    changesOnly l a (Dev.withdraw x0 x1) ↔ changesOnly l a x0 :=
  changesOnly.peel (k := [.st, .hdr, .ctr, .gen, .parts, .mem, .poison, .cores, .sigs, .clus, .mvec, .nwch, .opte, .rede, .tier, .dmae, .fab, .strm, .errm, .free]) (by
    unfold Dev.withdraw
    repeat' first
      | (simp [changesOnly_foldl]; done)
      | (split <;> try first
          | (rename_i h; have h := (congrArg (fun q => q.2.2.2) h).symm; dsimp only at h; subst h)
          | (rename_i h; have h := (congrArg (fun q => q.2.2) h).symm; dsimp only at h; subst h)
          | (rename_i h; have h := (congrArg (fun q => q.2) h).symm; dsimp only at h; subst h)
          | (rename_i h _; have h := (congrArg (fun q => q.2) h).symm; dsimp only at h; subst h))
      | dsimp only
      | refine (changesOnly_foldl _ _ _ fun b x => ?_).2 ?_) hl

@[simp] theorem Dev.coreDead_only {l : List Comp} {a : Dev} (x0 : Dev) (x1) (x2) (hl : [.st, .hdr, .ctr, .regs, .gen, .parts, .mem, .poison, .isles, .cores, .evc, .sigs, .clus, .mvec, .nwch, .opte, .rede, .tier, .dmae, .fab, .strm, .errm, .free] ⊆ l) :
    changesOnly l a (Dev.coreDead x0 x1 x2) ↔ changesOnly l a x0 :=
  changesOnly.peel (k := [.st, .hdr, .ctr, .regs, .gen, .parts, .mem, .poison, .isles, .cores, .evc, .sigs, .clus, .mvec, .nwch, .opte, .rede, .tier, .dmae, .fab, .strm, .errm, .free]) (by
    unfold Dev.coreDead
    repeat' first
      | (simp [changesOnly_foldl]; done)
      | (split <;> try first
          | (rename_i h; have h := (congrArg (fun q => q.2.2.2) h).symm; dsimp only at h; subst h)
          | (rename_i h; have h := (congrArg (fun q => q.2.2) h).symm; dsimp only at h; subst h)
          | (rename_i h; have h := (congrArg (fun q => q.2) h).symm; dsimp only at h; subst h)
          | (rename_i h _; have h := (congrArg (fun q => q.2) h).symm; dsimp only at h; subst h))
      | dsimp only
      | refine (changesOnly_foldl _ _ _ fun b x => ?_).2 ?_) hl

@[simp] theorem deadRevive_only {l : List Comp} {a : Dev} (x0) (x1) (x2 : Dev) (hl : [.hdr, .ctr, .isles, .clus, .errm] ⊆ l) :
    changesOnly l a (deadRevive x0 x1 x2) ↔ changesOnly l a x2 :=
  changesOnly.peel (k := [.hdr, .ctr, .isles, .clus, .errm]) (by
    unfold deadRevive
    repeat' first
      | (simp [changesOnly_foldl]; done)
      | (split <;> try first
          | (rename_i h; have h := (congrArg (fun q => q.2.2.2) h).symm; dsimp only at h; subst h)
          | (rename_i h; have h := (congrArg (fun q => q.2.2) h).symm; dsimp only at h; subst h)
          | (rename_i h; have h := (congrArg (fun q => q.2) h).symm; dsimp only at h; subst h)
          | (rename_i h _; have h := (congrArg (fun q => q.2) h).symm; dsimp only at h; subst h))
      | dsimp only
      | refine (changesOnly_foldl _ _ _ fun b x => ?_).2 ?_) hl

@[simp] theorem probe_only {l : List Comp} {a : Dev} (x0) (x1) (x2) (x3 : Dev) (hl : [.st, .hdr, .ctr, .regs, .gen, .parts, .mem, .poison, .isles, .cores, .evc, .sigs, .clus, .mvec, .nwch, .opte, .rede, .tier, .dmae, .fab, .strm, .errm, .free] ⊆ l) :
    changesOnly l a (probe x0 x1 x2 x3) ↔ changesOnly l a x3 :=
  changesOnly.peel (k := [.st, .hdr, .ctr, .regs, .gen, .parts, .mem, .poison, .isles, .cores, .evc, .sigs, .clus, .mvec, .nwch, .opte, .rede, .tier, .dmae, .fab, .strm, .errm, .free]) (by
    unfold probe
    repeat' first
      | (simp [changesOnly_foldl]; done)
      | (split <;> try first
          | (rename_i h; have h := (congrArg (fun q => q.2.2.2) h).symm; dsimp only at h; subst h)
          | (rename_i h; have h := (congrArg (fun q => q.2.2) h).symm; dsimp only at h; subst h)
          | (rename_i h; have h := (congrArg (fun q => q.2) h).symm; dsimp only at h; subst h)
          | (rename_i h _; have h := (congrArg (fun q => q.2) h).symm; dsimp only at h; subst h))
      | dsimp only
      | refine (changesOnly_foldl _ _ _ fun b x => ?_).2 ?_) hl

@[simp] theorem slotReturn_only {l : List Comp} {a : Dev} (x0) (x1) (x2) (x3 : Dev) (hl : [.hdr, .parts, .clus] ⊆ l) :
    changesOnly l a (slotReturn x0 x1 x2 x3) ↔ changesOnly l a x3 :=
  changesOnly.peel (k := [.hdr, .parts, .clus]) (by
    unfold slotReturn
    repeat' first
      | (simp [changesOnly_foldl]; done)
      | (split <;> try first
          | (rename_i h; have h := (congrArg (fun q => q.2.2.2) h).symm; dsimp only at h; subst h)
          | (rename_i h; have h := (congrArg (fun q => q.2.2) h).symm; dsimp only at h; subst h)
          | (rename_i h; have h := (congrArg (fun q => q.2) h).symm; dsimp only at h; subst h)
          | (rename_i h _; have h := (congrArg (fun q => q.2) h).symm; dsimp only at h; subst h))
      | dsimp only
      | refine (changesOnly_foldl _ _ _ fun b x => ?_).2 ?_) hl

@[simp] theorem slotTest_only {l : List Comp} {a : Dev} (x0) (x1) (x2) (x3 : Dev) (hl : [.gen, .clus] ⊆ l) :
    changesOnly l a (slotTest x0 x1 x2 x3) ↔ changesOnly l a x3 :=
  changesOnly.peel (k := [.gen, .clus]) (by
    unfold slotTest
    repeat' first
      | (simp [changesOnly_foldl]; done)
      | (split <;> try first
          | (rename_i h; have h := (congrArg (fun q => q.2.2.2) h).symm; dsimp only at h; subst h)
          | (rename_i h; have h := (congrArg (fun q => q.2.2) h).symm; dsimp only at h; subst h)
          | (rename_i h; have h := (congrArg (fun q => q.2) h).symm; dsimp only at h; subst h)
          | (rename_i h _; have h := (congrArg (fun q => q.2) h).symm; dsimp only at h; subst h))
      | dsimp only
      | refine (changesOnly_foldl _ _ _ fun b x => ?_).2 ?_) hl

@[simp] theorem slotRetire_only {l : List Comp} {a : Dev} (x0) (x1) (x2) (x3 : Dev) (hl : [.st, .hdr, .ctr, .regs, .gen, .parts, .mem, .poison, .isles, .cores, .evc, .sigs, .clus, .mvec, .nwch, .opte, .rede, .tier, .dmae, .fab, .strm, .errm, .free] ⊆ l) :
    changesOnly l a (slotRetire x0 x1 x2 x3) ↔ changesOnly l a x3 :=
  changesOnly.peel (k := [.st, .hdr, .ctr, .regs, .gen, .parts, .mem, .poison, .isles, .cores, .evc, .sigs, .clus, .mvec, .nwch, .opte, .rede, .tier, .dmae, .fab, .strm, .errm, .free]) (by
    unfold slotRetire
    repeat' first
      | (simp [changesOnly_foldl]; done)
      | (split <;> try first
          | (rename_i h; have h := (congrArg (fun q => q.2.2.2) h).symm; dsimp only at h; subst h)
          | (rename_i h; have h := (congrArg (fun q => q.2.2) h).symm; dsimp only at h; subst h)
          | (rename_i h; have h := (congrArg (fun q => q.2) h).symm; dsimp only at h; subst h)
          | (rename_i h _; have h := (congrArg (fun q => q.2) h).symm; dsimp only at h; subst h))
      | dsimp only
      | refine (changesOnly_foldl _ _ _ fun b x => ?_).2 ?_
      | refine (Dev.privOnly_only _ _ _ _ _ (fun b => ?_) (by simp)).2 ?_
      | refine (Dev.through_only _ _ _ _ _ (fun b => ?_) (by simp)).2 ?_) hl

@[simp] theorem reinstate_only {l : List Comp} {a : Dev} (x0) (x1) (x2 : Dev) (hl : [.st, .hdr, .regs, .gen, .parts, .mem, .poison, .isles, .cores, .evc, .clus, .errm] ⊆ l) :
    changesOnly l a (reinstate x0 x1 x2) ↔ changesOnly l a x2 :=
  changesOnly.peel (k := [.st, .hdr, .regs, .gen, .parts, .mem, .poison, .isles, .cores, .evc, .clus, .errm]) (by
    unfold reinstate
    repeat' first
      | (simp [changesOnly_foldl]; done)
      | (split <;> try first
          | (rename_i h; have h := (congrArg (fun q => q.2.2.2) h).symm; dsimp only at h; subst h)
          | (rename_i h; have h := (congrArg (fun q => q.2.2) h).symm; dsimp only at h; subst h)
          | (rename_i h; have h := (congrArg (fun q => q.2) h).symm; dsimp only at h; subst h)
          | (rename_i h _; have h := (congrArg (fun q => q.2) h).symm; dsimp only at h; subst h))
      | dsimp only
      | refine (changesOnly_foldl _ _ _ fun b x => ?_).2 ?_
      | refine (Dev.privOnly_only _ _ _ _ _ (fun b => ?_) (by simp)).2 ?_
      | refine (Dev.through_only _ _ _ _ _ (fun b => ?_) (by simp)).2 ?_) hl

@[simp] theorem errorDetect_only {l : List Comp} {a : Dev} (x0) (x1) (x2) (x3) (x4 : Dev) (hl : [.st, .hdr, .ctr, .regs, .gen, .parts, .mem, .poison, .isles, .cores, .evc, .sigs, .clus, .mvec, .nwch, .opte, .rede, .tier, .dmae, .fab, .strm, .errm, .free] ⊆ l) :
    changesOnly l a (errorDetect x0 x1 x2 x3 x4) ↔ changesOnly l a x4 :=
  changesOnly.peel (k := [.st, .hdr, .ctr, .regs, .gen, .parts, .mem, .poison, .isles, .cores, .evc, .sigs, .clus, .mvec, .nwch, .opte, .rede, .tier, .dmae, .fab, .strm, .errm, .free]) (by
    unfold errorDetect
    repeat' first
      | (simp [changesOnly_foldl]; done)
      | (split <;> try first
          | (rename_i h; have h := (congrArg (fun q => q.2.2.2) h).symm; dsimp only at h; subst h)
          | (rename_i h; have h := (congrArg (fun q => q.2.2) h).symm; dsimp only at h; subst h)
          | (rename_i h; have h := (congrArg (fun q => q.2) h).symm; dsimp only at h; subst h)
          | (rename_i h _; have h := (congrArg (fun q => q.2) h).symm; dsimp only at h; subst h))
      | dsimp only
      | refine (changesOnly_foldl _ _ _ fun b x => ?_).2 ?_) hl

@[simp] theorem sramScrub_only {l : List Comp} {a : Dev} (x0) (x1) (x2) (x3 : Dev) (hl : [.hdr, .ctr, .poison, .errm] ⊆ l) :
    changesOnly l a (sramScrub x0 x1 x2 x3) ↔ changesOnly l a x3 :=
  changesOnly.peel (k := [.hdr, .ctr, .poison, .errm]) (by
    unfold sramScrub
    repeat' first
      | (simp [changesOnly_foldl]; done)
      | (split <;> try first
          | (rename_i h; have h := (congrArg (fun q => q.2.2.2) h).symm; dsimp only at h; subst h)
          | (rename_i h; have h := (congrArg (fun q => q.2.2) h).symm; dsimp only at h; subst h)
          | (rename_i h; have h := (congrArg (fun q => q.2) h).symm; dsimp only at h; subst h)
          | (rename_i h _; have h := (congrArg (fun q => q.2) h).symm; dsimp only at h; subst h))
      | dsimp only
      | refine (changesOnly_foldl _ _ _ fun b x => ?_).2 ?_) hl

@[simp] theorem hbmScrub_only {l : List Comp} {a : Dev} (x0) (x1) (x2) (x3 : Dev) (hl : [.hdr, .ctr, .poison, .errm] ⊆ l) :
    changesOnly l a (hbmScrub x0 x1 x2 x3) ↔ changesOnly l a x3 :=
  changesOnly.peel (k := [.hdr, .ctr, .poison, .errm]) (by
    unfold hbmScrub
    repeat' first
      | (simp [changesOnly_foldl]; done)
      | (split <;> try first
          | (rename_i h; have h := (congrArg (fun q => q.2.2.2) h).symm; dsimp only at h; subst h)
          | (rename_i h; have h := (congrArg (fun q => q.2.2) h).symm; dsimp only at h; subst h)
          | (rename_i h; have h := (congrArg (fun q => q.2) h).symm; dsimp only at h; subst h)
          | (rename_i h _; have h := (congrArg (fun q => q.2) h).symm; dsimp only at h; subst h))
      | dsimp only
      | refine (changesOnly_foldl _ _ _ fun b x => ?_).2 ?_) hl

@[simp] theorem errmPop_only {l : List Comp} {a : Dev} (x0 : Dev) (hl : [.errm] ⊆ l) :
    changesOnly l a (errmPop x0) ↔ changesOnly l a x0 :=
  changesOnly.peel (k := [.errm]) (by
    unfold errmPop
    repeat' first
      | (simp [changesOnly_foldl]; done)
      | (split <;> try first
          | (rename_i h; have h := (congrArg (fun q => q.2.2.2) h).symm; dsimp only at h; subst h)
          | (rename_i h; have h := (congrArg (fun q => q.2.2) h).symm; dsimp only at h; subst h)
          | (rename_i h; have h := (congrArg (fun q => q.2) h).symm; dsimp only at h; subst h)
          | (rename_i h _; have h := (congrArg (fun q => q.2) h).symm; dsimp only at h; subst h))
      | dsimp only
      | refine (changesOnly_foldl _ _ _ fun b x => ?_).2 ?_) hl

@[simp] theorem Dev.setSide_only {l : List Comp} {a : Dev} (x0 : Dev) (x1) (x2) (hl : [.halt, .brake] ⊆ l) :
    changesOnly l a (Dev.setSide x0 x1 x2) ↔ changesOnly l a x0 :=
  changesOnly.peel (k := [.halt, .brake]) (by
    unfold Dev.setSide
    repeat' first
      | (simp [changesOnly_foldl]; done)
      | (split <;> try first
          | (rename_i h; have h := (congrArg (fun q => q.2.2.2) h).symm; dsimp only at h; subst h)
          | (rename_i h; have h := (congrArg (fun q => q.2.2) h).symm; dsimp only at h; subst h)
          | (rename_i h; have h := (congrArg (fun q => q.2) h).symm; dsimp only at h; subst h)
          | (rename_i h _; have h := (congrArg (fun q => q.2) h).symm; dsimp only at h; subst h))
      | dsimp only
      | refine (changesOnly_foldl _ _ _ fun b x => ?_).2 ?_) hl

@[simp] theorem Dev.sideRec_only {l : List Comp} {a : Dev} (x0 : Dev) (x1) (hl : [.hdr, .ctr, .errm] ⊆ l) :
    changesOnly l a (Dev.sideRec x0 x1) ↔ changesOnly l a x0 :=
  changesOnly.peel (k := [.hdr, .ctr, .errm]) (by
    unfold Dev.sideRec
    repeat' first
      | (simp [changesOnly_foldl]; done)
      | (split <;> try first
          | (rename_i h; have h := (congrArg (fun q => q.2.2.2) h).symm; dsimp only at h; subst h)
          | (rename_i h; have h := (congrArg (fun q => q.2.2) h).symm; dsimp only at h; subst h)
          | (rename_i h; have h := (congrArg (fun q => q.2) h).symm; dsimp only at h; subst h)
          | (rename_i h _; have h := (congrArg (fun q => q.2) h).symm; dsimp only at h; subst h))
      | dsimp only
      | refine (changesOnly_foldl _ _ _ fun b x => ?_).2 ?_) hl

@[simp] theorem Dev.assertSide_only {l : List Comp} {a : Dev} (x0 : Dev) (x1) (x2) (hl : [.hdr, .ctr, .errm, .halt, .brake] ⊆ l) :
    changesOnly l a (Dev.assertSide x0 x1 x2) ↔ changesOnly l a x0 :=
  changesOnly.peel (k := [.hdr, .ctr, .errm, .halt, .brake]) (by
    unfold Dev.assertSide
    repeat' first
      | (simp [changesOnly_foldl]; done)
      | (split <;> try first
          | (rename_i h; have h := (congrArg (fun q => q.2.2.2) h).symm; dsimp only at h; subst h)
          | (rename_i h; have h := (congrArg (fun q => q.2.2) h).symm; dsimp only at h; subst h)
          | (rename_i h; have h := (congrArg (fun q => q.2) h).symm; dsimp only at h; subst h)
          | (rename_i h _; have h := (congrArg (fun q => q.2) h).symm; dsimp only at h; subst h))
      | dsimp only
      | refine (changesOnly_foldl _ _ _ fun b x => ?_).2 ?_) hl

@[simp] theorem brakeOn_only {l : List Comp} {a : Dev} (x0) (x1 : Dev) (hl : [.hdr, .ctr, .pwr, .errm, .halt, .brake] ⊆ l) :
    changesOnly l a (brakeOn x0 x1) ↔ changesOnly l a x1 :=
  changesOnly.peel (k := [.hdr, .ctr, .pwr, .errm, .halt, .brake]) (by
    unfold brakeOn
    repeat' first
      | (simp [changesOnly_foldl]; done)
      | (split <;> try first
          | (rename_i h; have h := (congrArg (fun q => q.2.2.2) h).symm; dsimp only at h; subst h)
          | (rename_i h; have h := (congrArg (fun q => q.2.2) h).symm; dsimp only at h; subst h)
          | (rename_i h; have h := (congrArg (fun q => q.2) h).symm; dsimp only at h; subst h)
          | (rename_i h _; have h := (congrArg (fun q => q.2) h).symm; dsimp only at h; subst h))
      | dsimp only
      | refine (changesOnly_foldl _ _ _ fun b x => ?_).2 ?_) hl

@[simp] theorem sideOff_only {l : List Comp} {a : Dev} (x0) (x1 : Dev) (hl : [.hdr, .halt, .brake] ⊆ l) :
    changesOnly l a (sideOff x0 x1) ↔ changesOnly l a x1 :=
  changesOnly.peel (k := [.hdr, .halt, .brake]) (by
    unfold sideOff
    repeat' first
      | (simp [changesOnly_foldl]; done)
      | (split <;> try first
          | (rename_i h; have h := (congrArg (fun q => q.2.2.2) h).symm; dsimp only at h; subst h)
          | (rename_i h; have h := (congrArg (fun q => q.2.2) h).symm; dsimp only at h; subst h)
          | (rename_i h; have h := (congrArg (fun q => q.2) h).symm; dsimp only at h; subst h)
          | (rename_i h _; have h := (congrArg (fun q => q.2) h).symm; dsimp only at h; subst h))
      | dsimp only
      | refine (changesOnly_foldl _ _ _ fun b x => ?_).2 ?_) hl

@[simp] theorem sideGlitch_only {l : List Comp} {a : Dev} (x0) (x1 : Dev) (hl : [.ctr] ⊆ l) :
    changesOnly l a (sideGlitch x0 x1) ↔ changesOnly l a x1 :=
  changesOnly.peel (k := [.ctr]) (by
    unfold sideGlitch
    repeat' first
      | (simp [changesOnly_foldl]; done)
      | (split <;> try first
          | (rename_i h; have h := (congrArg (fun q => q.2.2.2) h).symm; dsimp only at h; subst h)
          | (rename_i h; have h := (congrArg (fun q => q.2.2) h).symm; dsimp only at h; subst h)
          | (rename_i h; have h := (congrArg (fun q => q.2) h).symm; dsimp only at h; subst h)
          | (rename_i h _; have h := (congrArg (fun q => q.2) h).symm; dsimp only at h; subst h))
      | dsimp only
      | refine (changesOnly_foldl _ _ _ fun b x => ?_).2 ?_) hl

@[simp] theorem sideHeld_only {l : List Comp} {a : Dev} (x0) (x1 : Dev) (hl : [.hdr, .ctr, .isles, .errm, .halt, .brake] ⊆ l) :
    changesOnly l a (sideHeld x0 x1) ↔ changesOnly l a x1 :=
  changesOnly.peel (k := [.hdr, .ctr, .isles, .errm, .halt, .brake]) (by
    unfold sideHeld
    repeat' first
      | (simp [changesOnly_foldl]; done)
      | (split <;> try first
          | (rename_i h; have h := (congrArg (fun q => q.2.2.2) h).symm; dsimp only at h; subst h)
          | (rename_i h; have h := (congrArg (fun q => q.2.2) h).symm; dsimp only at h; subst h)
          | (rename_i h; have h := (congrArg (fun q => q.2) h).symm; dsimp only at h; subst h)
          | (rename_i h _; have h := (congrArg (fun q => q.2) h).symm; dsimp only at h; subst h))
      | dsimp only
      | refine (changesOnly_foldl _ _ _ fun b x => ?_).2 ?_) hl

@[simp] theorem Dev.resumeSide_only {l : List Comp} {a : Dev} (x0 : Dev) (x1) (x2) (hl : [.hdr, .ctr, .eth, .fab, .pwr, .halt, .brake, .out] ⊆ l) :
    changesOnly l a (Dev.resumeSide x0 x1 x2) ↔ changesOnly l a x0 :=
  changesOnly.peel (k := [.hdr, .ctr, .eth, .fab, .pwr, .halt, .brake, .out]) (by
    unfold Dev.resumeSide
    repeat' first
      | (simp [changesOnly_foldl]; done)
      | (split <;> try first
          | (rename_i h; have h := (congrArg (fun q => q.2.2.2) h).symm; dsimp only at h; subst h)
          | (rename_i h; have h := (congrArg (fun q => q.2.2) h).symm; dsimp only at h; subst h)
          | (rename_i h; have h := (congrArg (fun q => q.2) h).symm; dsimp only at h; subst h)
          | (rename_i h _; have h := (congrArg (fun q => q.2) h).symm; dsimp only at h; subst h))
      | dsimp only
      | refine (changesOnly_foldl _ _ _ fun b x => ?_).2 ?_) hl

end Sys2Proof.Machine
end

