-- ==== Sys2Proof/Laws/OnlySampled.lean ====
section
/-!
SUPPORT. The components that each operation of Machine/Sampled.lean can change.
-/

namespace Sys2Proof.Machine

set_option linter.unusedSimpArgs false

open Sys2Proof.Safety

@[simp] theorem hwDone_only {l : List Comp} {a : Dev} (x0) (x1 : Dev) (hl : [.st, .hdr, .ctr, .parts, .mem, .poison, .cores, .sigs, .mvec, .nwch, .opte, .rede, .tier, .dmae, .fab, .strm, .errm, .free] ⊆ l) :
    changesOnly l a (hwDone x0 x1) ↔ changesOnly l a x1 :=
  changesOnly.peel (k := [.st, .hdr, .ctr, .parts, .mem, .poison, .cores, .sigs, .mvec, .nwch, .opte, .rede, .tier, .dmae, .fab, .strm, .errm, .free]) (by
    unfold hwDone
    repeat' first
      | (simp [changesOnly_foldl]; done)
      | (split <;> try first
          | (rename_i h; have h := (congrArg (fun q => q.2.2.2) h).symm; dsimp only at h; subst h)
          | (rename_i h; have h := (congrArg (fun q => q.2.2) h).symm; dsimp only at h; subst h)
          | (rename_i h; have h := (congrArg (fun q => q.2) h).symm; dsimp only at h; subst h)
          | (rename_i h _; have h := (congrArg (fun q => q.2) h).symm; dsimp only at h; subst h))
      | dsimp only
      | refine (changesOnly_foldl _ _ _ fun b x => ?_).2 ?_) hl

end Sys2Proof.Machine
end

