-- ==== Sys2Proof/Laws/OnlyShelf.lean ====
section
/-!
SUPPORT. The components that each operation of Machine/Shelf.lean can change.
-/

namespace Sys2Proof.Machine

set_option linter.unusedSimpArgs false

open Sys2Proof.Safety

@[simp] theorem Dev.enableBlk_only {l : List Comp} {a : Dev} (x0 : Dev) (x1) (hl : [.st, .hdr] ⊆ l) :
    changesOnly l a (Dev.enableBlk x0 x1) ↔ changesOnly l a x0 :=
  changesOnly.peel (k := [.st, .hdr]) (by
    unfold Dev.enableBlk
    repeat' first
      | (simp [changesOnly_foldl]; done)
      | (split <;> try first
          | (rename_i h; have h := (congrArg (fun q => q.2.2.2) h).symm; dsimp only at h; subst h)
          | (rename_i h; have h := (congrArg (fun q => q.2.2) h).symm; dsimp only at h; subst h)
          | (rename_i h; have h := (congrArg (fun q => q.2) h).symm; dsimp only at h; subst h)
          | (rename_i h _; have h := (congrArg (fun q => q.2) h).symm; dsimp only at h; subst h))
      | dsimp only
      | refine (changesOnly_foldl _ _ _ fun b x => ?_).2 ?_) hl

@[simp] theorem Dev.restartBlk_only {l : List Comp} {a : Dev} (x0 : Dev) (x1) (hl : [.st, .hdr] ⊆ l) :
    changesOnly l a (Dev.restartBlk x0 x1) ↔ changesOnly l a x0 :=
  changesOnly.peel (k := [.st, .hdr]) (by
    unfold Dev.restartBlk
    repeat' first
      | (simp [changesOnly_foldl]; done)
      | (split <;> try first
          | (rename_i h; have h := (congrArg (fun q => q.2.2.2) h).symm; dsimp only at h; subst h)
          | (rename_i h; have h := (congrArg (fun q => q.2.2) h).symm; dsimp only at h; subst h)
          | (rename_i h; have h := (congrArg (fun q => q.2) h).symm; dsimp only at h; subst h)
          | (rename_i h _; have h := (congrArg (fun q => q.2) h).symm; dsimp only at h; subst h))
      | dsimp only
      | refine (changesOnly_foldl _ _ _ fun b x => ?_).2 ?_) hl

@[simp] theorem Dev.cpRead_only {l : List Comp} {a : Dev} (x0 : Dev) (x1) (x2) (x3) (hl : [.hdr, .ctr, .tier] ⊆ l) :
    changesOnly l a (Dev.cpRead x0 x1 x2 x3).2 ↔ changesOnly l a x0 :=
  changesOnly.peel (k := [.hdr, .ctr, .tier]) (by
    unfold Dev.cpRead
    repeat' first
      | (simp [changesOnly_foldl]; done)
      | (split <;> try first
          | (rename_i h; have h := (congrArg (fun q => q.2.2.2) h).symm; dsimp only at h; subst h)
          | (rename_i h; have h := (congrArg (fun q => q.2.2) h).symm; dsimp only at h; subst h)
          | (rename_i h; have h := (congrArg (fun q => q.2) h).symm; dsimp only at h; subst h)
          | (rename_i h _; have h := (congrArg (fun q => q.2) h).symm; dsimp only at h; subst h))
      | dsimp only
      | refine (changesOnly_foldl _ _ _ fun b x => ?_).2 ?_) hl

@[simp] theorem Dev.updCl_only {l : List Comp} {a : Dev} (x0 : Dev) (x1) (x2) (hl : [.clus] ⊆ l) :
    changesOnly l a (Dev.updCl x0 x1 x2) ↔ changesOnly l a x0 :=
  changesOnly.peel (k := [.clus]) (by
    unfold Dev.updCl
    repeat' first
      | (simp [changesOnly_foldl]; done)
      | (split <;> try first
          | (rename_i h; have h := (congrArg (fun q => q.2.2.2) h).symm; dsimp only at h; subst h)
          | (rename_i h; have h := (congrArg (fun q => q.2.2) h).symm; dsimp only at h; subst h)
          | (rename_i h; have h := (congrArg (fun q => q.2) h).symm; dsimp only at h; subst h)
          | (rename_i h _; have h := (congrArg (fun q => q.2) h).symm; dsimp only at h; subst h))
      | dsimp only
      | refine (changesOnly_foldl _ _ _ fun b x => ?_).2 ?_) hl

@[simp] theorem Dev.zeroCounters_only {l : List Comp} {a : Dev} (x0 : Dev) (x1) (hl : [.evc] ⊆ l) :
    changesOnly l a (Dev.zeroCounters x0 x1) ↔ changesOnly l a x0 :=
  changesOnly.peel (k := [.evc]) (by
    unfold Dev.zeroCounters
    repeat' first
      | (simp [changesOnly_foldl]; done)
      | (split <;> try first
          | (rename_i h; have h := (congrArg (fun q => q.2.2.2) h).symm; dsimp only at h; subst h)
          | (rename_i h; have h := (congrArg (fun q => q.2.2) h).symm; dsimp only at h; subst h)
          | (rename_i h; have h := (congrArg (fun q => q.2) h).symm; dsimp only at h; subst h)
          | (rename_i h _; have h := (congrArg (fun q => q.2) h).symm; dsimp only at h; subst h))
      | dsimp only
      | refine (changesOnly_foldl _ _ _ fun b x => ?_).2 ?_) hl

@[simp] theorem Dev.freshEngines_only {l : List Comp} {a : Dev} (x0 : Dev) (x1) (hl : [.cores] ⊆ l) :
    changesOnly l a (Dev.freshEngines x0 x1) ↔ changesOnly l a x0 :=
  changesOnly.peel (k := [.cores]) (by
    unfold Dev.freshEngines
    repeat' first
      | (simp [changesOnly_foldl]; done)
      | (split <;> try first
          | (rename_i h; have h := (congrArg (fun q => q.2.2.2) h).symm; dsimp only at h; subst h)
          | (rename_i h; have h := (congrArg (fun q => q.2.2) h).symm; dsimp only at h; subst h)
          | (rename_i h; have h := (congrArg (fun q => q.2) h).symm; dsimp only at h; subst h)
          | (rename_i h _; have h := (congrArg (fun q => q.2) h).symm; dsimp only at h; subst h))
      | dsimp only
      | refine (changesOnly_foldl _ _ _ fun b x => ?_).2 ?_) hl

@[simp] theorem launchPre_only {l : List Comp} {a : Dev} (x0) (x1) (x2) (x3 : Dev) (hl : [.hdr, .ctr, .mem, .poison, .isles, .tier] ⊆ l) :
    changesOnly l a (launchPre x0 x1 x2 x3).2 ↔ changesOnly l a x3 :=
  changesOnly.peel (k := [.hdr, .ctr, .mem, .poison, .isles, .tier]) (by
    unfold launchPre
    repeat' first
      | (simp [changesOnly_foldl]; done)
      | (split <;> try first
          | (rename_i h; have h := (congrArg (fun q => q.2.2.2) h).symm; dsimp only at h; subst h)
          | (rename_i h; have h := (congrArg (fun q => q.2.2) h).symm; dsimp only at h; subst h)
          | (rename_i h; have h := (congrArg (fun q => q.2) h).symm; dsimp only at h; subst h)
          | (rename_i h _; have h := (congrArg (fun q => q.2) h).symm; dsimp only at h; subst h))
      | dsimp only
      | refine (changesOnly_foldl _ _ _ fun b x => ?_).2 ?_) hl

@[simp] theorem launchCheck_only {l : List Comp} {a : Dev} (x0) (x1) (x2) (x3) (x4 : Dev) (hl : [.hdr, .ctr, .tier] ⊆ l) :
    changesOnly l a (launchCheck x0 x1 x2 x3 x4).2.2.2 ↔ changesOnly l a x4 :=
  changesOnly.peel (k := [.hdr, .ctr, .tier]) (by
    unfold launchCheck
    repeat' first
      | (simp [changesOnly_foldl]; done)
      | (split <;> try first
          | (rename_i h; have h := (congrArg (fun q => q.2.2.2) h).symm; dsimp only at h; subst h)
          | (rename_i h; have h := (congrArg (fun q => q.2.2) h).symm; dsimp only at h; subst h)
          | (rename_i h; have h := (congrArg (fun q => q.2) h).symm; dsimp only at h; subst h)
          | (rename_i h _; have h := (congrArg (fun q => q.2) h).symm; dsimp only at h; subst h))
      | dsimp only
      | refine (changesOnly_foldl _ _ _ fun b x => ?_).2 ?_
      | (simp (maxDischargeDepth := 6) [changesOnly_foldl, changesOnly_foldl_1, changesOnly_foldl_2, changesOnly_foldl_22]; done)
      | refine (changesOnly_foldl_2 _ _ _ fun b x => ?_).2 ?_
      | refine (changesOnly_foldl_22 _ _ _ fun b x => ?_).2 ?_
      | refine (changesOnly_foldl_1 _ _ _ fun b x => ?_).2 ?_) hl

@[simp] theorem Dev.launchRun_only {l : List Comp} {a : Dev} (x0 : Dev) (x1) (x2) (x3) (hl : [.st, .hdr, .cores, .evc, .clus] ⊆ l) :
    changesOnly l a (Dev.launchRun x0 x1 x2 x3) ↔ changesOnly l a x0 :=
  changesOnly.peel (k := [.st, .hdr, .cores, .evc, .clus]) (by
    unfold Dev.launchRun
    repeat' first
      | (simp [changesOnly_foldl]; done)
      | (split <;> try first
          | (rename_i h; have h := (congrArg (fun q => q.2.2.2) h).symm; dsimp only at h; subst h)
          | (rename_i h; have h := (congrArg (fun q => q.2.2) h).symm; dsimp only at h; subst h)
          | (rename_i h; have h := (congrArg (fun q => q.2) h).symm; dsimp only at h; subst h)
          | (rename_i h _; have h := (congrArg (fun q => q.2) h).symm; dsimp only at h; subst h))
      | dsimp only
      | refine (changesOnly_foldl _ _ _ fun b x => ?_).2 ?_) hl

@[simp] theorem launch_only {l : List Comp} {a : Dev} (x0) (x1) (x2) (x3) (x4) (x5 : Dev) (hl : [.st, .hdr, .ctr, .irq, .mem, .poison, .isles, .cores, .evc, .clus, .tier, .rings, .out] ⊆ l) :
    changesOnly l a (launch x0 x1 x2 x3 x4 x5) ↔ changesOnly l a x5 :=
  changesOnly.peel (k := [.st, .hdr, .ctr, .irq, .mem, .poison, .isles, .cores, .evc, .clus, .tier, .rings, .out]) (by
    unfold launch
    repeat' first
      | (simp [changesOnly_foldl]; done)
      | (split <;> try first
          | (rename_i h; have h := (congrArg (fun q => q.2.2.2) h).symm; dsimp only at h; subst h)
          | (rename_i h; have h := (congrArg (fun q => q.2.2) h).symm; dsimp only at h; subst h)
          | (rename_i h; have h := (congrArg (fun q => q.2) h).symm; dsimp only at h; subst h)
          | (rename_i h _; have h := (congrArg (fun q => q.2) h).symm; dsimp only at h; subst h))
      | dsimp only
      | refine (changesOnly_foldl _ _ _ fun b x => ?_).2 ?_) hl

@[simp] theorem Dev.parkBegin_only {l : List Comp} {a : Dev} (x0 : Dev) (x1) (hl : [.st, .hdr, .ctr, .mem, .poison, .cores, .sigs, .clus, .nwch, .opte, .tier, .strm, .free] ⊆ l) :
    changesOnly l a (Dev.parkBegin x0 x1) ↔ changesOnly l a x0 :=
  changesOnly.peel (k := [.st, .hdr, .ctr, .mem, .poison, .cores, .sigs, .clus, .nwch, .opte, .tier, .strm, .free]) (by
    unfold Dev.parkBegin
    repeat' first
      | (simp [changesOnly_foldl]; done)
      | (split <;> try first
          | (rename_i h; have h := (congrArg (fun q => q.2.2.2) h).symm; dsimp only at h; subst h)
          | (rename_i h; have h := (congrArg (fun q => q.2.2) h).symm; dsimp only at h; subst h)
          | (rename_i h; have h := (congrArg (fun q => q.2) h).symm; dsimp only at h; subst h)
          | (rename_i h _; have h := (congrArg (fun q => q.2) h).symm; dsimp only at h; subst h))
      | dsimp only
      | refine (changesOnly_foldl _ _ _ fun b x => ?_).2 ?_) hl

@[simp] theorem Dev.parkEnd_only {l : List Comp} {a : Dev} (x0 : Dev) (x1) (x2) (x3) (hl : [.hdr, .ctr, .cores, .evc, .clus, .nwch, .opte, .shelves] ⊆ l) :
    changesOnly l a (Dev.parkEnd x0 x1 x2 x3) ↔ changesOnly l a x0 :=
  changesOnly.peel (k := [.hdr, .ctr, .cores, .evc, .clus, .nwch, .opte, .shelves]) (by
    unfold Dev.parkEnd
    repeat' first
      | (simp [changesOnly_foldl]; done)
      | (split <;> try first
          | (rename_i h; have h := (congrArg (fun q => q.2.2.2) h).symm; dsimp only at h; subst h)
          | (rename_i h; have h := (congrArg (fun q => q.2.2) h).symm; dsimp only at h; subst h)
          | (rename_i h; have h := (congrArg (fun q => q.2) h).symm; dsimp only at h; subst h)
          | (rename_i h _; have h := (congrArg (fun q => q.2) h).symm; dsimp only at h; subst h))
      | dsimp only
      | refine (changesOnly_foldl _ _ _ fun b x => ?_).2 ?_) hl

@[simp] theorem park_only {l : List Comp} {a : Dev} (x0) (x1) (x2) (x3) (x4 : Dev) (hl : [.st, .hdr, .ctr, .irq, .mem, .poison, .cores, .sigs, .clus, .nwch, .opte, .tier, .rings, .strm, .out, .free] ⊆ l) :
    changesOnly l a (park x0 x1 x2 x3 x4) ↔ changesOnly l a x4 :=
  changesOnly.peel (k := [.st, .hdr, .ctr, .irq, .mem, .poison, .cores, .sigs, .clus, .nwch, .opte, .tier, .rings, .strm, .out, .free]) (by
    unfold park
    repeat' first
      | (simp [changesOnly_foldl]; done)
      | (split <;> try first
          | (rename_i h; have h := (congrArg (fun q => q.2.2.2) h).symm; dsimp only at h; subst h)
          | (rename_i h; have h := (congrArg (fun q => q.2.2) h).symm; dsimp only at h; subst h)
          | (rename_i h; have h := (congrArg (fun q => q.2) h).symm; dsimp only at h; subst h)
          | (rename_i h _; have h := (congrArg (fun q => q.2) h).symm; dsimp only at h; subst h))
      | dsimp only
      | refine (changesOnly_foldl _ _ _ fun b x => ?_).2 ?_) hl

@[simp] theorem Dev.freeWins_only {l : List Comp} {a : Dev} (x0 : Dev) (x1) (x2) (hl : [.cores] ⊆ l) :
    changesOnly l a (Dev.freeWins x0 x1 x2) ↔ changesOnly l a x0 :=
  changesOnly.peel (k := [.cores]) (by
    unfold Dev.freeWins
    repeat' first
      | (simp [changesOnly_foldl]; done)
      | (split <;> try first
          | (rename_i h; have h := (congrArg (fun q => q.2.2.2) h).symm; dsimp only at h; subst h)
          | (rename_i h; have h := (congrArg (fun q => q.2.2) h).symm; dsimp only at h; subst h)
          | (rename_i h; have h := (congrArg (fun q => q.2) h).symm; dsimp only at h; subst h)
          | (rename_i h _; have h := (congrArg (fun q => q.2) h).symm; dsimp only at h; subst h))
      | dsimp only
      | refine (changesOnly_foldl _ _ _ fun b x => ?_).2 ?_) hl

@[simp] theorem Dev.dropShelf_only {l : List Comp} {a : Dev} (x0 : Dev) (x1) (x2) (hl : [.cores, .shelves] ⊆ l) :
    changesOnly l a (Dev.dropShelf x0 x1 x2) ↔ changesOnly l a x0 :=
  changesOnly.peel (k := [.cores, .shelves]) (by
    unfold Dev.dropShelf
    repeat' first
      | (simp [changesOnly_foldl]; done)
      | (split <;> try first
          | (rename_i h; have h := (congrArg (fun q => q.2.2.2) h).symm; dsimp only at h; subst h)
          | (rename_i h; have h := (congrArg (fun q => q.2.2) h).symm; dsimp only at h; subst h)
          | (rename_i h; have h := (congrArg (fun q => q.2) h).symm; dsimp only at h; subst h)
          | (rename_i h _; have h := (congrArg (fun q => q.2) h).symm; dsimp only at h; subst h))
      | dsimp only
      | refine (changesOnly_foldl _ _ _ fun b x => ?_).2 ?_) hl

@[simp] theorem Dev.restoreCore_only {l : List Comp} {a : Dev} (x0 : Dev) (x1) (x2) (hl : [.cores, .evc] ⊆ l) :
    changesOnly l a (Dev.restoreCore x0 x1 x2) ↔ changesOnly l a x0 :=
  changesOnly.peel (k := [.cores, .evc]) (by
    unfold Dev.restoreCore
    repeat' first
      | (simp [changesOnly_foldl]; done)
      | (split <;> try first
          | (rename_i h; have h := (congrArg (fun q => q.2.2.2) h).symm; dsimp only at h; subst h)
          | (rename_i h; have h := (congrArg (fun q => q.2.2) h).symm; dsimp only at h; subst h)
          | (rename_i h; have h := (congrArg (fun q => q.2) h).symm; dsimp only at h; subst h)
          | (rename_i h _; have h := (congrArg (fun q => q.2) h).symm; dsimp only at h; subst h))
      | dsimp only
      | refine (changesOnly_foldl _ _ _ fun b x => ?_).2 ?_) hl

@[simp] theorem Dev.restoreCluster_only {l : List Comp} {a : Dev} (x0 : Dev) (x1) (hl : [.cores, .evc, .nwch] ⊆ l) :
    changesOnly l a (Dev.restoreCluster x0 x1) ↔ changesOnly l a x0 :=
  changesOnly.peel (k := [.cores, .evc, .nwch]) (by
    unfold Dev.restoreCluster
    repeat' first
      | (simp [changesOnly_foldl]; done)
      | (split <;> try first
          | (rename_i h; have h := (congrArg (fun q => q.2.2.2) h).symm; dsimp only at h; subst h)
          | (rename_i h; have h := (congrArg (fun q => q.2.2) h).symm; dsimp only at h; subst h)
          | (rename_i h; have h := (congrArg (fun q => q.2) h).symm; dsimp only at h; subst h)
          | (rename_i h _; have h := (congrArg (fun q => q.2) h).symm; dsimp only at h; subst h))
      | dsimp only
      | refine (changesOnly_foldl _ _ _ fun b x => ?_).2 ?_) hl

@[simp] theorem Dev.resumeBegin_only {l : List Comp} {a : Dev} (x0 : Dev) (x1) (x2) (x3) (hl : [.cores, .evc, .clus, .nwch, .shelves] ⊆ l) :
    changesOnly l a (Dev.resumeBegin x0 x1 x2 x3).2 ↔ changesOnly l a x0 :=
  changesOnly.peel (k := [.cores, .evc, .clus, .nwch, .shelves]) (by
    unfold Dev.resumeBegin
    repeat' first
      | (simp [changesOnly_foldl]; done)
      | (split <;> try first
          | (rename_i h; have h := (congrArg (fun q => q.2.2.2) h).symm; dsimp only at h; subst h)
          | (rename_i h; have h := (congrArg (fun q => q.2.2) h).symm; dsimp only at h; subst h)
          | (rename_i h; have h := (congrArg (fun q => q.2) h).symm; dsimp only at h; subst h)
          | (rename_i h _; have h := (congrArg (fun q => q.2) h).symm; dsimp only at h; subst h))
      | dsimp only
      | refine (changesOnly_foldl _ _ _ fun b x => ?_).2 ?_) hl

@[simp] theorem Dev.resumeEnd_only {l : List Comp} {a : Dev} (x0 : Dev) (x1) (hl : [.st, .hdr, .clus] ⊆ l) :
    changesOnly l a (Dev.resumeEnd x0 x1) ↔ changesOnly l a x0 :=
  changesOnly.peel (k := [.st, .hdr, .clus]) (by
    unfold Dev.resumeEnd
    repeat' first
      | (simp [changesOnly_foldl]; done)
      | (split <;> try first
          | (rename_i h; have h := (congrArg (fun q => q.2.2.2) h).symm; dsimp only at h; subst h)
          | (rename_i h; have h := (congrArg (fun q => q.2.2) h).symm; dsimp only at h; subst h)
          | (rename_i h; have h := (congrArg (fun q => q.2) h).symm; dsimp only at h; subst h)
          | (rename_i h _; have h := (congrArg (fun q => q.2) h).symm; dsimp only at h; subst h))
      | dsimp only
      | refine (changesOnly_foldl _ _ _ fun b x => ?_).2 ?_) hl

@[simp] theorem reloadAll_only {l : List Comp} {a : Dev} (x0) (x1) (x2 : Dev) (hl : [.hdr, .ctr, .mem, .poison, .isles, .cores, .tier] ⊆ l) :
    changesOnly l a (reloadAll x0 x1 x2).2 ↔ changesOnly l a x2 :=
  changesOnly.peel (k := [.hdr, .ctr, .mem, .poison, .isles, .cores, .tier]) (by
    have key : ∀ x1, ∀ (x0) (x2 : Dev) (a : Dev), changesOnly [.hdr, .ctr, .mem, .poison, .isles, .cores, .tier] a (reloadAll x0 x1 x2).2 ↔ changesOnly [.hdr, .ctr, .mem, .poison, .isles, .cores, .tier] a x2 := by
      intro x1
      induction x1 with
      | nil => intro x0 x2 a; simp [reloadAll]
      | cons y ys ih =>
        intro x0 x2 a
        unfold reloadAll
        repeat' first
          | (simp [*, changesOnly_foldl]; done)
          | (split <;> try first
            | (rename_i h; have h := (congrArg (fun q => q.2.2.2) h).symm; dsimp only at h; subst h)
            | (rename_i h; have h := (congrArg (fun q => q.2.2) h).symm; dsimp only at h; subst h)
            | (rename_i h; have h := (congrArg (fun q => q.2) h).symm; dsimp only at h; subst h)
            | (rename_i h _; have h := (congrArg (fun q => q.2) h).symm; dsimp only at h; subst h))
          | dsimp only
          | refine (changesOnly_foldl _ _ _ fun b x => ?_).2 ?_
    exact (key x1 x0 x2 x2).2 (changesOnly_self _ _)) hl

@[simp] theorem Dev.resumeGo_only {l : List Comp} {a : Dev} (x0 : Dev) (x1) (x2) (hl : [.st, .hdr, .ctr, .irq, .mem, .poison, .isles, .cores, .clus, .tier, .rings, .out] ⊆ l) :
    changesOnly l a (Dev.resumeGo x0 x1 x2) ↔ changesOnly l a x0 :=
  changesOnly.peel (k := [.st, .hdr, .ctr, .irq, .mem, .poison, .isles, .cores, .clus, .tier, .rings, .out]) (by
    unfold Dev.resumeGo
    repeat' first
      | (simp [changesOnly_foldl]; done)
      | (split <;> try first
          | (rename_i h; have h := (congrArg (fun q => q.2.2.2) h).symm; dsimp only at h; subst h)
          | (rename_i h; have h := (congrArg (fun q => q.2.2) h).symm; dsimp only at h; subst h)
          | (rename_i h; have h := (congrArg (fun q => q.2) h).symm; dsimp only at h; subst h)
          | (rename_i h _; have h := (congrArg (fun q => q.2) h).symm; dsimp only at h; subst h))
      | dsimp only
      | refine (changesOnly_foldl _ _ _ fun b x => ?_).2 ?_) hl

@[simp] theorem Dev.resumeStart_only {l : List Comp} {a : Dev} (x0 : Dev) (x1) (x2) (x3) (x4) (x5) (hl : [.st, .hdr, .ctr, .irq, .mem, .poison, .isles, .cores, .evc, .clus, .nwch, .shelves, .tier, .rings, .out] ⊆ l) :
    changesOnly l a (Dev.resumeStart x0 x1 x2 x3 x4 x5) ↔ changesOnly l a x0 :=
  changesOnly.peel (k := [.st, .hdr, .ctr, .irq, .mem, .poison, .isles, .cores, .evc, .clus, .nwch, .shelves, .tier, .rings, .out]) (by
    unfold Dev.resumeStart
    repeat' first
      | (simp [changesOnly_foldl]; done)
      | (split <;> try first
          | (rename_i h; have h := (congrArg (fun q => q.2.2.2) h).symm; dsimp only at h; subst h)
          | (rename_i h; have h := (congrArg (fun q => q.2.2) h).symm; dsimp only at h; subst h)
          | (rename_i h; have h := (congrArg (fun q => q.2) h).symm; dsimp only at h; subst h)
          | (rename_i h _; have h := (congrArg (fun q => q.2) h).symm; dsimp only at h; subst h))
      | dsimp only
      | refine (changesOnly_foldl _ _ _ fun b x => ?_).2 ?_) hl

@[simp] theorem resumeCmd_only {l : List Comp} {a : Dev} (x0) (x1) (x2) (x3 : Dev) (hl : [.st, .hdr, .ctr, .irq, .mem, .poison, .isles, .cores, .evc, .clus, .nwch, .shelves, .tier, .rings, .out] ⊆ l) :
    changesOnly l a (resumeCmd x0 x1 x2 x3) ↔ changesOnly l a x3 :=
  changesOnly.peel (k := [.st, .hdr, .ctr, .irq, .mem, .poison, .isles, .cores, .evc, .clus, .nwch, .shelves, .tier, .rings, .out]) (by
    unfold resumeCmd
    repeat' first
      | (simp [changesOnly_foldl]; done)
      | (split <;> try first
          | (rename_i h; have h := (congrArg (fun q => q.2.2.2) h).symm; dsimp only at h; subst h)
          | (rename_i h; have h := (congrArg (fun q => q.2.2) h).symm; dsimp only at h; subst h)
          | (rename_i h; have h := (congrArg (fun q => q.2) h).symm; dsimp only at h; subst h)
          | (rename_i h _; have h := (congrArg (fun q => q.2) h).symm; dsimp only at h; subst h))
      | dsimp only
      | refine (changesOnly_foldl _ _ _ fun b x => ?_).2 ?_) hl

@[simp] theorem switchCmd_only {l : List Comp} {a : Dev} (x0) (x1) (x2) (x3) (x4 : Dev) (hl : [.st, .hdr, .ctr, .irq, .mem, .poison, .isles, .cores, .sigs, .clus, .nwch, .opte, .tier, .rings, .strm, .out, .free] ⊆ l) :
    changesOnly l a (switchCmd x0 x1 x2 x3 x4) ↔ changesOnly l a x4 :=
  changesOnly.peel (k := [.st, .hdr, .ctr, .irq, .mem, .poison, .isles, .cores, .sigs, .clus, .nwch, .opte, .tier, .rings, .strm, .out, .free]) (by
    unfold switchCmd
    repeat' first
      | (simp [changesOnly_foldl]; done)
      | (split <;> try first
          | (rename_i h; have h := (congrArg (fun q => q.2.2.2) h).symm; dsimp only at h; subst h)
          | (rename_i h; have h := (congrArg (fun q => q.2.2) h).symm; dsimp only at h; subst h)
          | (rename_i h; have h := (congrArg (fun q => q.2) h).symm; dsimp only at h; subst h)
          | (rename_i h _; have h := (congrArg (fun q => q.2) h).symm; dsimp only at h; subst h))
      | dsimp only
      | refine (changesOnly_foldl _ _ _ fun b x => ?_).2 ?_) hl

@[simp] theorem parkQuiesced_only {l : List Comp} {a : Dev} (x0) (x1 : Dev) (hl : [.st, .hdr, .ctr, .irq, .mem, .poison, .isles, .cores, .evc, .clus, .nwch, .opte, .shelves, .tier, .rings, .out] ⊆ l) :
    changesOnly l a (parkQuiesced x0 x1) ↔ changesOnly l a x1 :=
  changesOnly.peel (k := [.st, .hdr, .ctr, .irq, .mem, .poison, .isles, .cores, .evc, .clus, .nwch, .opte, .shelves, .tier, .rings, .out]) (by
    unfold parkQuiesced
    repeat' first
      | (simp [changesOnly_foldl]; done)
      | (split <;> try first
          | (rename_i h; have h := (congrArg (fun q => q.2.2.2) h).symm; dsimp only at h; subst h)
          | (rename_i h; have h := (congrArg (fun q => q.2.2) h).symm; dsimp only at h; subst h)
          | (rename_i h; have h := (congrArg (fun q => q.2) h).symm; dsimp only at h; subst h)
          | (rename_i h _; have h := (congrArg (fun q => q.2) h).symm; dsimp only at h; subst h))
      | dsimp only
      | refine (changesOnly_foldl _ _ _ fun b x => ?_).2 ?_) hl

@[simp] theorem importCmd_only {l : List Comp} {a : Dev} (x0) (x1) (x2) (x3) (x4 : Dev) (hl : [.hdr, .ctr, .irq, .mem, .poison, .isles, .shelves, .tier, .rings, .out] ⊆ l) :
    changesOnly l a (importCmd x0 x1 x2 x3 x4) ↔ changesOnly l a x4 :=
  changesOnly.peel (k := [.hdr, .ctr, .irq, .mem, .poison, .isles, .shelves, .tier, .rings, .out]) (by
    unfold importCmd
    repeat' first
      | (simp [changesOnly_foldl]; done)
      | (split <;> try first
          | (rename_i h; have h := (congrArg (fun q => q.2.2.2) h).symm; dsimp only at h; subst h)
          | (rename_i h; have h := (congrArg (fun q => q.2.2) h).symm; dsimp only at h; subst h)
          | (rename_i h; have h := (congrArg (fun q => q.2) h).symm; dsimp only at h; subst h)
          | (rename_i h _; have h := (congrArg (fun q => q.2) h).symm; dsimp only at h; subst h))
      | dsimp only
      | refine (changesOnly_foldl _ _ _ fun b x => ?_).2 ?_) hl

end Sys2Proof.Machine
end

