-- ==== Sys2Proof/Laws/OnlyReset.lean ====
section
/-!
SUPPORT. The components that each operation of Machine/Reset.lean can change.
-/

namespace Sys2Proof.Machine

set_option linter.unusedSimpArgs false

open Sys2Proof.Safety

@[simp] theorem Dev.freshPage_only {l : List Comp} {a : Dev} (x0 : Dev) (x1) (hl : [.st, .hdr, .regs] ⊆ l) :
    changesOnly l a (Dev.freshPage x0 x1) ↔ changesOnly l a x0 :=
  changesOnly.peel (k := [.st, .hdr, .regs]) (by
    unfold Dev.freshPage
    repeat' first
      | (simp [changesOnly_foldl]; done)
      | (split <;> try first
          | (rename_i h; have h := (congrArg (fun q => q.2.2.2) h).symm; dsimp only at h; subst h)
          | (rename_i h; have h := (congrArg (fun q => q.2.2) h).symm; dsimp only at h; subst h)
          | (rename_i h; have h := (congrArg (fun q => q.2) h).symm; dsimp only at h; subst h)
          | (rename_i h _; have h := (congrArg (fun q => q.2) h).symm; dsimp only at h; subst h))
      | dsimp only
      | refine (changesOnly_foldl _ _ _ fun b x => ?_).2 ?_) hl

@[simp] theorem Dev.clearCore_only {l : List Comp} {a : Dev} (x0 : Dev) (x1) (hl : [.poison, .cores, .evc, .sigs, .nwch] ⊆ l) :
    changesOnly l a (Dev.clearCore x0 x1) ↔ changesOnly l a x0 :=
  changesOnly.peel (k := [.poison, .cores, .evc, .sigs, .nwch]) (by
    unfold Dev.clearCore
    repeat' first
      | (simp [changesOnly_foldl]; done)
      | (split <;> try first
          | (rename_i h; have h := (congrArg (fun q => q.2.2.2) h).symm; dsimp only at h; subst h)
          | (rename_i h; have h := (congrArg (fun q => q.2.2) h).symm; dsimp only at h; subst h)
          | (rename_i h; have h := (congrArg (fun q => q.2) h).symm; dsimp only at h; subst h)
          | (rename_i h _; have h := (congrArg (fun q => q.2) h).symm; dsimp only at h; subst h))
      | dsimp only
      | refine (changesOnly_foldl _ _ _ fun b x => ?_).2 ?_) hl

@[simp] theorem Dev.clearNwch_only {l : List Comp} {a : Dev} (x0 : Dev) (x1) (hl : [.cores, .nwch] ⊆ l) :
    changesOnly l a (Dev.clearNwch x0 x1) ↔ changesOnly l a x0 :=
  changesOnly.peel (k := [.cores, .nwch]) (by
    unfold Dev.clearNwch
    repeat' first
      | (simp [changesOnly_foldl]; done)
      | (split <;> try first
          | (rename_i h; have h := (congrArg (fun q => q.2.2.2) h).symm; dsimp only at h; subst h)
          | (rename_i h; have h := (congrArg (fun q => q.2.2) h).symm; dsimp only at h; subst h)
          | (rename_i h; have h := (congrArg (fun q => q.2) h).symm; dsimp only at h; subst h)
          | (rename_i h _; have h := (congrArg (fun q => q.2) h).symm; dsimp only at h; subst h))
      | dsimp only
      | refine (changesOnly_foldl _ _ _ fun b x => ?_).2 ?_) hl

@[simp] theorem Dev.clearMvec_only {l : List Comp} {a : Dev} (x0 : Dev) (x1) (hl : [.mvec] ⊆ l) :
    changesOnly l a (Dev.clearMvec x0 x1) ↔ changesOnly l a x0 :=
  changesOnly.peel (k := [.mvec]) (by
    unfold Dev.clearMvec
    repeat' first
      | (simp [changesOnly_foldl]; done)
      | (split <;> try first
          | (rename_i h; have h := (congrArg (fun q => q.2.2.2) h).symm; dsimp only at h; subst h)
          | (rename_i h; have h := (congrArg (fun q => q.2.2) h).symm; dsimp only at h; subst h)
          | (rename_i h; have h := (congrArg (fun q => q.2) h).symm; dsimp only at h; subst h)
          | (rename_i h _; have h := (congrArg (fun q => q.2) h).symm; dsimp only at h; subst h))
      | dsimp only
      | refine (changesOnly_foldl _ _ _ fun b x => ?_).2 ?_) hl

@[simp] theorem Dev.clearStrm_only {l : List Comp} {a : Dev} (x0 : Dev) (x1) (hl : [.strm] ⊆ l) :
    changesOnly l a (Dev.clearStrm x0 x1) ↔ changesOnly l a x0 :=
  changesOnly.peel (k := [.strm]) (by
    unfold Dev.clearStrm
    repeat' first
      | (simp [changesOnly_foldl]; done)
      | (split <;> try first
          | (rename_i h; have h := (congrArg (fun q => q.2.2.2) h).symm; dsimp only at h; subst h)
          | (rename_i h; have h := (congrArg (fun q => q.2.2) h).symm; dsimp only at h; subst h)
          | (rename_i h; have h := (congrArg (fun q => q.2) h).symm; dsimp only at h; subst h)
          | (rename_i h _; have h := (congrArg (fun q => q.2) h).symm; dsimp only at h; subst h))
      | dsimp only
      | refine (changesOnly_foldl _ _ _ fun b x => ?_).2 ?_) hl

@[simp] theorem Dev.dropSigs_only {l : List Comp} {a : Dev} (x0 : Dev) (x1) (hl : [.sigs] ⊆ l) :
    changesOnly l a (Dev.dropSigs x0 x1) ↔ changesOnly l a x0 :=
  changesOnly.peel (k := [.sigs]) (by
    unfold Dev.dropSigs
    repeat' first
      | (simp [changesOnly_foldl]; done)
      | (split <;> try first
          | (rename_i h; have h := (congrArg (fun q => q.2.2.2) h).symm; dsimp only at h; subst h)
          | (rename_i h; have h := (congrArg (fun q => q.2.2) h).symm; dsimp only at h; subst h)
          | (rename_i h; have h := (congrArg (fun q => q.2) h).symm; dsimp only at h; subst h)
          | (rename_i h _; have h := (congrArg (fun q => q.2) h).symm; dsimp only at h; subst h))
      | dsimp only
      | refine (changesOnly_foldl _ _ _ fun b x => ?_).2 ?_) hl

@[simp] theorem Dev.dropShelves_only {l : List Comp} {a : Dev} (x0 : Dev) (x1) (hl : [.cores, .shelves] ⊆ l) :
    changesOnly l a (Dev.dropShelves x0 x1) ↔ changesOnly l a x0 :=
  changesOnly.peel (k := [.cores, .shelves]) (by
    unfold Dev.dropShelves
    repeat' first
      | (simp [changesOnly_foldl]; done)
      | (split <;> try first
          | (rename_i h; have h := (congrArg (fun q => q.2.2.2) h).symm; dsimp only at h; subst h)
          | (rename_i h; have h := (congrArg (fun q => q.2.2) h).symm; dsimp only at h; subst h)
          | (rename_i h; have h := (congrArg (fun q => q.2) h).symm; dsimp only at h; subst h)
          | (rename_i h _; have h := (congrArg (fun q => q.2) h).symm; dsimp only at h; subst h))
      | dsimp only
      | refine (changesOnly_foldl _ _ _ fun b x => ?_).2 ?_) hl

@[simp] theorem Dev.scrubCluster_only {l : List Comp} {a : Dev} (x0 : Dev) (x1) (hl : [.st, .hdr, .regs, .mem, .poison, .isles, .cores, .evc, .sigs, .clus, .nwch, .opte, .rede, .shelves] ⊆ l) :
    changesOnly l a (Dev.scrubCluster x0 x1) ↔ changesOnly l a x0 :=
  changesOnly.peel (k := [.st, .hdr, .regs, .mem, .poison, .isles, .cores, .evc, .sigs, .clus, .nwch, .opte, .rede, .shelves]) (by
    unfold Dev.scrubCluster
    repeat' first
      | (simp [changesOnly_foldl]; done)
      | (split <;> try first
          | (rename_i h; have h := (congrArg (fun q => q.2.2.2) h).symm; dsimp only at h; subst h)
          | (rename_i h; have h := (congrArg (fun q => q.2.2) h).symm; dsimp only at h; subst h)
          | (rename_i h; have h := (congrArg (fun q => q.2) h).symm; dsimp only at h; subst h)
          | (rename_i h _; have h := (congrArg (fun q => q.2) h).symm; dsimp only at h; subst h))
      | dsimp only
      | refine (changesOnly_foldl _ _ _ fun b x => ?_).2 ?_) hl

@[simp] theorem Dev.scrubMvec_only {l : List Comp} {a : Dev} (x0 : Dev) (x1) (hl : [.st, .hdr, .regs, .mvec] ⊆ l) :
    changesOnly l a (Dev.scrubMvec x0 x1) ↔ changesOnly l a x0 :=
  changesOnly.peel (k := [.st, .hdr, .regs, .mvec]) (by
    unfold Dev.scrubMvec
    repeat' first
      | (simp [changesOnly_foldl]; done)
      | (split <;> try first
          | (rename_i h; have h := (congrArg (fun q => q.2.2.2) h).symm; dsimp only at h; subst h)
          | (rename_i h; have h := (congrArg (fun q => q.2.2) h).symm; dsimp only at h; subst h)
          | (rename_i h; have h := (congrArg (fun q => q.2) h).symm; dsimp only at h; subst h)
          | (rename_i h _; have h := (congrArg (fun q => q.2) h).symm; dsimp only at h; subst h))
      | dsimp only
      | refine (changesOnly_foldl _ _ _ fun b x => ?_).2 ?_) hl

@[simp] theorem Dev.scrubPch_only {l : List Comp} {a : Dev} (x0 : Dev) (x1) (hl : [.mem, .poison] ⊆ l) :
    changesOnly l a (Dev.scrubPch x0 x1) ↔ changesOnly l a x0 :=
  changesOnly.peel (k := [.mem, .poison]) (by
    unfold Dev.scrubPch
    repeat' first
      | (simp [changesOnly_foldl]; done)
      | (split <;> try first
          | (rename_i h; have h := (congrArg (fun q => q.2.2.2) h).symm; dsimp only at h; subst h)
          | (rename_i h; have h := (congrArg (fun q => q.2.2) h).symm; dsimp only at h; subst h)
          | (rename_i h; have h := (congrArg (fun q => q.2) h).symm; dsimp only at h; subst h)
          | (rename_i h _; have h := (congrArg (fun q => q.2) h).symm; dsimp only at h; subst h))
      | dsimp only
      | refine (changesOnly_foldl _ _ _ fun b x => ?_).2 ?_) hl

@[simp] theorem Dev.scrubDma_only {l : List Comp} {a : Dev} (x0 : Dev) (x1) (x2) (hl : [.st, .hdr, .regs, .dmae] ⊆ l) :
    changesOnly l a (Dev.scrubDma x0 x1 x2) ↔ changesOnly l a x0 :=
  changesOnly.peel (k := [.st, .hdr, .regs, .dmae]) (by
    unfold Dev.scrubDma
    repeat' first
      | (simp [changesOnly_foldl]; done)
      | (split <;> try first
          | (rename_i h; have h := (congrArg (fun q => q.2.2.2) h).symm; dsimp only at h; subst h)
          | (rename_i h; have h := (congrArg (fun q => q.2.2) h).symm; dsimp only at h; subst h)
          | (rename_i h; have h := (congrArg (fun q => q.2) h).symm; dsimp only at h; subst h)
          | (rename_i h _; have h := (congrArg (fun q => q.2) h).symm; dsimp only at h; subst h))
      | dsimp only
      | refine (changesOnly_foldl _ _ _ fun b x => ?_).2 ?_) hl

@[simp] theorem Dev.scrubStrm_only {l : List Comp} {a : Dev} (x0 : Dev) (x1) (hl : [.st, .hdr, .regs, .strm] ⊆ l) :
    changesOnly l a (Dev.scrubStrm x0 x1) ↔ changesOnly l a x0 :=
  changesOnly.peel (k := [.st, .hdr, .regs, .strm]) (by
    unfold Dev.scrubStrm
    repeat' first
      | (simp [changesOnly_foldl]; done)
      | (split <;> try first
          | (rename_i h; have h := (congrArg (fun q => q.2.2.2) h).symm; dsimp only at h; subst h)
          | (rename_i h; have h := (congrArg (fun q => q.2.2) h).symm; dsimp only at h; subst h)
          | (rename_i h; have h := (congrArg (fun q => q.2) h).symm; dsimp only at h; subst h)
          | (rename_i h _; have h := (congrArg (fun q => q.2) h).symm; dsimp only at h; subst h))
      | dsimp only
      | refine (changesOnly_foldl _ _ _ fun b x => ?_).2 ?_) hl

@[simp] theorem Dev.scrubQp_only {l : List Comp} {a : Dev} (x0 : Dev) (x1) (x2) (hl : [.ctr, .regs, .eth, .out] ⊆ l) :
    changesOnly l a (Dev.scrubQp x0 x1 x2) ↔ changesOnly l a x0 :=
  changesOnly.peel (k := [.ctr, .regs, .eth, .out]) (by
    unfold Dev.scrubQp
    repeat' first
      | (simp [changesOnly_foldl]; done)
      | (split <;> try first
          | (rename_i h; have h := (congrArg (fun q => q.2.2.2) h).symm; dsimp only at h; subst h)
          | (rename_i h; have h := (congrArg (fun q => q.2.2) h).symm; dsimp only at h; subst h)
          | (rename_i h; have h := (congrArg (fun q => q.2) h).symm; dsimp only at h; subst h)
          | (rename_i h _; have h := (congrArg (fun q => q.2) h).symm; dsimp only at h; subst h))
      | dsimp only
      | refine (changesOnly_foldl _ _ _ fun b x => ?_).2 ?_) hl

@[simp] theorem Dev.scrubNs_only {l : List Comp} {a : Dev} (x0 : Dev) (x1) (hl : [.mem, .poison, .flash] ⊆ l) :
    changesOnly l a (Dev.scrubNs x0 x1) ↔ changesOnly l a x0 :=
  changesOnly.peel (k := [.mem, .poison, .flash]) (by
    unfold Dev.scrubNs
    repeat' first
      | (simp [changesOnly_foldl]; done)
      | (split <;> try first
          | (rename_i h; have h := (congrArg (fun q => q.2.2.2) h).symm; dsimp only at h; subst h)
          | (rename_i h; have h := (congrArg (fun q => q.2.2) h).symm; dsimp only at h; subst h)
          | (rename_i h; have h := (congrArg (fun q => q.2) h).symm; dsimp only at h; subst h)
          | (rename_i h _; have h := (congrArg (fun q => q.2) h).symm; dsimp only at h; subst h))
      | dsimp only
      | refine (changesOnly_foldl _ _ _ fun b x => ?_).2 ?_) hl

@[simp] theorem Dev.scrubTier_only {l : List Comp} {a : Dev} (x0 : Dev) (x1) (hl : [.hdr, .ctr, .tier, .eth, .fab, .out] ⊆ l) :
    changesOnly l a (Dev.scrubTier x0 x1) ↔ changesOnly l a x0 :=
  changesOnly.peel (k := [.hdr, .ctr, .tier, .eth, .fab, .out]) (by
    unfold Dev.scrubTier
    repeat' first
      | (simp [changesOnly_foldl]; done)
      | (split <;> try first
          | (rename_i h; have h := (congrArg (fun q => q.2.2.2) h).symm; dsimp only at h; subst h)
          | (rename_i h; have h := (congrArg (fun q => q.2.2) h).symm; dsimp only at h; subst h)
          | (rename_i h; have h := (congrArg (fun q => q.2) h).symm; dsimp only at h; subst h)
          | (rename_i h _; have h := (congrArg (fun q => q.2) h).symm; dsimp only at h; subst h))
      | dsimp only
      | refine (changesOnly_foldl _ _ _ fun b x => ?_).2 ?_) hl

@[simp] theorem Dev.abandonRings_only {l : List Comp} {a : Dev} (x0 : Dev) (x1) (x2) (hl : [.hdr, .ctr, .irq, .rings, .out] ⊆ l) :
    changesOnly l a (Dev.abandonRings x0 x1 x2) ↔ changesOnly l a x0 :=
  changesOnly.peel (k := [.hdr, .ctr, .irq, .rings, .out]) (by
    unfold Dev.abandonRings
    repeat' first
      | (simp [changesOnly_foldl]; done)
      | (split <;> try first
          | (rename_i h; have h := (congrArg (fun q => q.2.2.2) h).symm; dsimp only at h; subst h)
          | (rename_i h; have h := (congrArg (fun q => q.2.2) h).symm; dsimp only at h; subst h)
          | (rename_i h; have h := (congrArg (fun q => q.2) h).symm; dsimp only at h; subst h)
          | (rename_i h _; have h := (congrArg (fun q => q.2) h).symm; dsimp only at h; subst h))
      | dsimp only
      | refine (changesOnly_foldl _ _ _ fun b x => ?_).2 ?_) hl

@[simp] theorem Dev.emptyRings_only {l : List Comp} {a : Dev} (x0 : Dev) (x1) (hl : [.rings] ⊆ l) :
    changesOnly l a (Dev.emptyRings x0 x1) ↔ changesOnly l a x0 :=
  changesOnly.peel (k := [.rings]) (by
    unfold Dev.emptyRings
    repeat' first
      | (simp [changesOnly_foldl]; done)
      | (split <;> try first
          | (rename_i h; have h := (congrArg (fun q => q.2.2.2) h).symm; dsimp only at h; subst h)
          | (rename_i h; have h := (congrArg (fun q => q.2.2) h).symm; dsimp only at h; subst h)
          | (rename_i h; have h := (congrArg (fun q => q.2) h).symm; dsimp only at h; subst h)
          | (rename_i h _; have h := (congrArg (fun q => q.2) h).symm; dsimp only at h; subst h))
      | dsimp only
      | refine (changesOnly_foldl _ _ _ fun b x => ?_).2 ?_) hl

@[simp] theorem Dev.clearIrq_only {l : List Comp} {a : Dev} (x0 : Dev) (x1) (hl : [.irq] ⊆ l) :
    changesOnly l a (Dev.clearIrq x0 x1) ↔ changesOnly l a x0 :=
  changesOnly.peel (k := [.irq]) (by
    unfold Dev.clearIrq
    repeat' first
      | (simp [changesOnly_foldl]; done)
      | (split <;> try first
          | (rename_i h; have h := (congrArg (fun q => q.2.2.2) h).symm; dsimp only at h; subst h)
          | (rename_i h; have h := (congrArg (fun q => q.2.2) h).symm; dsimp only at h; subst h)
          | (rename_i h; have h := (congrArg (fun q => q.2) h).symm; dsimp only at h; subst h)
          | (rename_i h _; have h := (congrArg (fun q => q.2) h).symm; dsimp only at h; subst h))
      | dsimp only
      | refine (changesOnly_foldl _ _ _ fun b x => ?_).2 ?_) hl

@[simp] theorem Dev.clearNeg_only {l : List Comp} {a : Dev} (x0 : Dev) (x1) (x2) (hl : [.hdr] ⊆ l) :
    changesOnly l a (Dev.clearNeg x0 x1 x2) ↔ changesOnly l a x0 :=
  changesOnly.peel (k := [.hdr]) (by
    unfold Dev.clearNeg
    repeat' first
      | (simp [changesOnly_foldl]; done)
      | (split <;> try first
          | (rename_i h; have h := (congrArg (fun q => q.2.2.2) h).symm; dsimp only at h; subst h)
          | (rename_i h; have h := (congrArg (fun q => q.2.2) h).symm; dsimp only at h; subst h)
          | (rename_i h; have h := (congrArg (fun q => q.2) h).symm; dsimp only at h; subst h)
          | (rename_i h _; have h := (congrArg (fun q => q.2) h).symm; dsimp only at h; subst h))
      | dsimp only
      | refine (changesOnly_foldl _ _ _ fun b x => ?_).2 ?_) hl

@[simp] theorem Dev.updPart_only {l : List Comp} {a : Dev} (x0 : Dev) (x1) (x2) (hl : [.parts] ⊆ l) :
    changesOnly l a (Dev.updPart x0 x1 x2) ↔ changesOnly l a x0 :=
  changesOnly.peel (k := [.parts]) (by
    unfold Dev.updPart
    repeat' first
      | (simp [changesOnly_foldl]; done)
      | (split <;> try first
          | (rename_i h; have h := (congrArg (fun q => q.2.2.2) h).symm; dsimp only at h; subst h)
          | (rename_i h; have h := (congrArg (fun q => q.2.2) h).symm; dsimp only at h; subst h)
          | (rename_i h; have h := (congrArg (fun q => q.2) h).symm; dsimp only at h; subst h)
          | (rename_i h _; have h := (congrArg (fun q => q.2) h).symm; dsimp only at h; subst h))
      | dsimp only
      | refine (changesOnly_foldl _ _ _ fun b x => ?_).2 ?_) hl

@[simp] theorem Dev.partResetStart_only {l : List Comp} {a : Dev} (x0 : Dev) (x1) (hl : [.st, .hdr, .ctr, .parts, .irq, .mem, .poison, .cores, .sigs, .nwch, .opte, .tier, .rings, .strm, .out, .free] ⊆ l) :
    changesOnly l a (Dev.partResetStart x0 x1) ↔ changesOnly l a x0 :=
  changesOnly.peel (k := [.st, .hdr, .ctr, .parts, .irq, .mem, .poison, .cores, .sigs, .nwch, .opte, .tier, .rings, .strm, .out, .free]) (by
    unfold Dev.partResetStart
    repeat' first
      | (simp [changesOnly_foldl]; done)
      | (split <;> try first
          | (rename_i h; have h := (congrArg (fun q => q.2.2.2) h).symm; dsimp only at h; subst h)
          | (rename_i h; have h := (congrArg (fun q => q.2.2) h).symm; dsimp only at h; subst h)
          | (rename_i h; have h := (congrArg (fun q => q.2) h).symm; dsimp only at h; subst h)
          | (rename_i h _; have h := (congrArg (fun q => q.2) h).symm; dsimp only at h; subst h))
      | dsimp only
      | refine (changesOnly_foldl _ _ _ fun b x => ?_).2 ?_) hl

@[simp] theorem partReset_only {l : List Comp} {a : Dev} (x0) (x1) (x2 : Dev) (hl : [.st, .hdr, .ctr, .parts, .irq, .mem, .poison, .cores, .sigs, .nwch, .opte, .tier, .rings, .strm, .out, .free] ⊆ l) :
    changesOnly l a (partReset x0 x1 x2) ↔ changesOnly l a x2 :=
  changesOnly.peel (k := [.st, .hdr, .ctr, .parts, .irq, .mem, .poison, .cores, .sigs, .nwch, .opte, .tier, .rings, .strm, .out, .free]) (by
    unfold partReset
    repeat' first
      | (simp [changesOnly_foldl]; done)
      | (split <;> try first
          | (rename_i h; have h := (congrArg (fun q => q.2.2.2) h).symm; dsimp only at h; subst h)
          | (rename_i h; have h := (congrArg (fun q => q.2.2) h).symm; dsimp only at h; subst h)
          | (rename_i h; have h := (congrArg (fun q => q.2) h).symm; dsimp only at h; subst h)
          | (rename_i h _; have h := (congrArg (fun q => q.2) h).symm; dsimp only at h; subst h))
      | dsimp only
      | refine (changesOnly_foldl _ _ _ fun b x => ?_).2 ?_) hl

@[simp] theorem resetLimit_only {l : List Comp} {a : Dev} (x0) (x1 : Dev) (hl : [.st, .hdr, .ctr, .parts, .mem, .poison, .isles, .cores, .sigs, .mvec, .nwch, .opte, .rede, .tier, .dmae, .strm, .free] ⊆ l) :
    changesOnly l a (resetLimit x0 x1) ↔ changesOnly l a x1 :=
  changesOnly.peel (k := [.st, .hdr, .ctr, .parts, .mem, .poison, .isles, .cores, .sigs, .mvec, .nwch, .opte, .rede, .tier, .dmae, .strm, .free]) (by
    unfold resetLimit
    repeat' first
      | (simp [changesOnly_foldl]; done)
      | (split <;> try first
          | (rename_i h; have h := (congrArg (fun q => q.2.2.2) h).symm; dsimp only at h; subst h)
          | (rename_i h; have h := (congrArg (fun q => q.2.2) h).symm; dsimp only at h; subst h)
          | (rename_i h; have h := (congrArg (fun q => q.2) h).symm; dsimp only at h; subst h)
          | (rename_i h _; have h := (congrArg (fun q => q.2) h).symm; dsimp only at h; subst h))
      | dsimp only
      | refine (changesOnly_foldl _ _ _ fun b x => ?_).2 ?_) hl

@[simp] theorem Dev.scrubPart_only {l : List Comp} {a : Dev} (x0 : Dev) (x1) (hl : [.st, .hdr, .ctr, .regs, .mem, .poison, .isles, .cores, .evc, .sigs, .clus, .mvec, .nwch, .opte, .rede, .tokx, .shelves, .tier, .dmae, .eth, .fab, .strm, .out] ⊆ l) :
    changesOnly l a (Dev.scrubPart x0 x1) ↔ changesOnly l a x0 :=
  changesOnly.peel (k := [.st, .hdr, .ctr, .regs, .mem, .poison, .isles, .cores, .evc, .sigs, .clus, .mvec, .nwch, .opte, .rede, .tokx, .shelves, .tier, .dmae, .eth, .fab, .strm, .out]) (by
    unfold Dev.scrubPart
    repeat' first
      | (simp [changesOnly_foldl]; done)
      | (split <;> try first
          | (rename_i h; have h := (congrArg (fun q => q.2.2.2) h).symm; dsimp only at h; subst h)
          | (rename_i h; have h := (congrArg (fun q => q.2.2) h).symm; dsimp only at h; subst h)
          | (rename_i h; have h := (congrArg (fun q => q.2) h).symm; dsimp only at h; subst h)
          | (rename_i h _; have h := (congrArg (fun q => q.2) h).symm; dsimp only at h; subst h))
      | dsimp only
      | refine (changesOnly_foldl _ _ _ fun b x => ?_).2 ?_) hl

@[simp] theorem Dev.resetAnswers_only {l : List Comp} {a : Dev} (x0 : Dev) (x1) (hl : [.hdr, .ctr, .irq, .rings, .out] ⊆ l) :
    changesOnly l a (Dev.resetAnswers x0 x1) ↔ changesOnly l a x0 :=
  changesOnly.peel (k := [.hdr, .ctr, .irq, .rings, .out]) (by
    unfold Dev.resetAnswers
    repeat' first
      | (simp [changesOnly_foldl]; done)
      | (split <;> try first
          | (rename_i h; have h := (congrArg (fun q => q.2.2.2) h).symm; dsimp only at h; subst h)
          | (rename_i h; have h := (congrArg (fun q => q.2.2) h).symm; dsimp only at h; subst h)
          | (rename_i h; have h := (congrArg (fun q => q.2) h).symm; dsimp only at h; subst h)
          | (rename_i h _; have h := (congrArg (fun q => q.2) h).symm; dsimp only at h; subst h))
      | dsimp only
      | refine (changesOnly_foldl _ _ _ fun b x => ?_).2 ?_) hl

@[simp] theorem resetDone_only {l : List Comp} {a : Dev} (x0) (x1 : Dev) (hl : [.st, .hdr, .ctr, .regs, .parts, .irq, .mem, .poison, .isles, .cores, .evc, .sigs, .clus, .mvec, .nwch, .opte, .rede, .tokx, .shelves, .tier, .rings, .dmae, .eth, .fab, .strm, .errm, .out] ⊆ l) :
    changesOnly l a (resetDone x0 x1) ↔ changesOnly l a x1 :=
  changesOnly.peel (k := [.st, .hdr, .ctr, .regs, .parts, .irq, .mem, .poison, .isles, .cores, .evc, .sigs, .clus, .mvec, .nwch, .opte, .rede, .tokx, .shelves, .tier, .rings, .dmae, .eth, .fab, .strm, .errm, .out]) (by
    unfold resetDone
    repeat' first
      | (simp [changesOnly_foldl]; done)
      | (split <;> try first
          | (rename_i h; have h := (congrArg (fun q => q.2.2.2) h).symm; dsimp only at h; subst h)
          | (rename_i h; have h := (congrArg (fun q => q.2.2) h).symm; dsimp only at h; subst h)
          | (rename_i h; have h := (congrArg (fun q => q.2) h).symm; dsimp only at h; subst h)
          | (rename_i h _; have h := (congrArg (fun q => q.2) h).symm; dsimp only at h; subst h))
      | dsimp only
      | refine (changesOnly_foldl _ _ _ fun b x => ?_).2 ?_) hl

@[simp] theorem vfReset_only {l : List Comp} {a : Dev} (x0) (x1 : Dev) (hl : [.st, .hdr, .ctr, .parts, .irq, .mem, .poison, .cores, .sigs, .nwch, .opte, .tier, .rings, .strm, .out, .free] ⊆ l) :
    changesOnly l a (vfReset x0 x1) ↔ changesOnly l a x1 :=
  changesOnly.peel (k := [.st, .hdr, .ctr, .parts, .irq, .mem, .poison, .cores, .sigs, .nwch, .opte, .tier, .rings, .strm, .out, .free]) (by
    unfold vfReset
    repeat' first
      | (simp [changesOnly_foldl]; done)
      | (split <;> try first
          | (rename_i h; have h := (congrArg (fun q => q.2.2.2) h).symm; dsimp only at h; subst h)
          | (rename_i h; have h := (congrArg (fun q => q.2.2) h).symm; dsimp only at h; subst h)
          | (rename_i h; have h := (congrArg (fun q => q.2) h).symm; dsimp only at h; subst h)
          | (rename_i h _; have h := (congrArg (fun q => q.2) h).symm; dsimp only at h; subst h))
      | dsimp only
      | refine (changesOnly_foldl _ _ _ fun b x => ?_).2 ?_) hl

end Sys2Proof.Machine
end

