-- ==== Sys2Proof/Laws/OnlyBoot.lean ====
section
/-!
SUPPORT. The components that each operation of Machine/Boot.lean can change.
-/

namespace Sys2Proof.Machine

set_option linter.unusedSimpArgs false

open Sys2Proof.Safety

@[simp] theorem Dev.cutCommit_only {l : List Comp} {a : Dev} (x0 : Dev) (hl : [.ctr, .parts, .boot, .out] ⊆ l) :
    changesOnly l a (Dev.cutCommit x0) ↔ changesOnly l a x0 :=
  changesOnly.peel (k := [.ctr, .parts, .boot, .out]) (by
    unfold Dev.cutCommit
    repeat' first
      | (simp [changesOnly_foldl]; done)
      | (split <;> try first
          | (rename_i h; have h := (congrArg (fun q => q.2.2.2) h).symm; dsimp only at h; subst h)
          | (rename_i h; have h := (congrArg (fun q => q.2.2) h).symm; dsimp only at h; subst h)
          | (rename_i h; have h := (congrArg (fun q => q.2) h).symm; dsimp only at h; subst h)
          | (rename_i h _; have h := (congrArg (fun q => q.2) h).symm; dsimp only at h; subst h))
      | dsimp only
      | refine (changesOnly_foldl _ _ _ fun b x => ?_).2 ?_) hl

@[simp] theorem Dev.bare_only {l : List Comp} {a : Dev} (d : Dev) (hl : [.st, .hdr, .ctr, .snap, .regs, .parts, .irq, .isles, .cores, .evc, .sigs, .clus, .mvec, .nwch, .opte, .rede, .tokx, .shelves, .tier, .flash, .rings, .dmae, .eth, .fab, .strm, .pwr, .errm, .sec, .boot] ⊆ l) :
    changesOnly l a d.bare ↔ changesOnly l a d :=
  changesOnly.peel (k := [.st, .hdr, .ctr, .snap, .regs, .parts, .irq, .isles, .cores, .evc, .sigs, .clus, .mvec, .nwch, .opte, .rede, .tokx, .shelves, .tier, .flash, .rings, .dmae, .eth, .fab, .strm, .pwr, .errm, .sec, .boot]) (fun x hx => by cases x <;> first | rfl | simp at hx) hl


@[simp] theorem Dev.reboot_only {l : List Comp} {a : Dev} (x0 : Dev) (x1) (x2) (hl : [.st, .hdr, .ctr, .snap, .regs, .parts, .irq, .isles, .cores, .evc, .sigs, .clus, .mvec, .nwch, .opte, .rede, .tokx, .shelves, .tier, .flash, .rings, .dmae, .eth, .fab, .strm, .pwr, .errm, .sec, .boot, .out] ⊆ l) :
    changesOnly l a (Dev.reboot x0 x1 x2) ↔ changesOnly l a x0 :=
  changesOnly.peel (k := [.st, .hdr, .ctr, .snap, .regs, .parts, .irq, .isles, .cores, .evc, .sigs, .clus, .mvec, .nwch, .opte, .rede, .tokx, .shelves, .tier, .flash, .rings, .dmae, .eth, .fab, .strm, .pwr, .errm, .sec, .boot, .out]) (by
    unfold Dev.reboot
    repeat' first
      | (simp [changesOnly_foldl]; done)
      | (split <;> try first
          | (rename_i h; have h := (congrArg (fun q => q.2.2.2) h).symm; dsimp only at h; subst h)
          | (rename_i h; have h := (congrArg (fun q => q.2.2) h).symm; dsimp only at h; subst h)
          | (rename_i h; have h := (congrArg (fun q => q.2) h).symm; dsimp only at h; subst h)
          | (rename_i h _; have h := (congrArg (fun q => q.2) h).symm; dsimp only at h; subst h))
      | dsimp only
      | refine (changesOnly_foldl _ _ _ fun b x => ?_).2 ?_) hl

@[simp] theorem Dev.devReset_only {l : List Comp} {a : Dev} (x0 : Dev) (x1) (x2) (hl : [.st, .hdr, .ctr, .snap, .regs, .parts, .irq, .isles, .cores, .evc, .sigs, .clus, .mvec, .nwch, .opte, .rede, .tokx, .shelves, .tier, .flash, .rings, .dmae, .eth, .fab, .strm, .pwr, .errm, .sec, .boot, .out] ⊆ l) :
    changesOnly l a (Dev.devReset x0 x1 x2) ↔ changesOnly l a x0 :=
  changesOnly.peel (k := [.st, .hdr, .ctr, .snap, .regs, .parts, .irq, .isles, .cores, .evc, .sigs, .clus, .mvec, .nwch, .opte, .rede, .tokx, .shelves, .tier, .flash, .rings, .dmae, .eth, .fab, .strm, .pwr, .errm, .sec, .boot, .out]) (by
    unfold Dev.devReset
    repeat' first
      | (simp [changesOnly_foldl]; done)
      | (split <;> try first
          | (rename_i h; have h := (congrArg (fun q => q.2.2.2) h).symm; dsimp only at h; subst h)
          | (rename_i h; have h := (congrArg (fun q => q.2.2) h).symm; dsimp only at h; subst h)
          | (rename_i h; have h := (congrArg (fun q => q.2) h).symm; dsimp only at h; subst h)
          | (rename_i h _; have h := (congrArg (fun q => q.2) h).symm; dsimp only at h; subst h))
      | dsimp only
      | refine (changesOnly_foldl _ _ _ fun b x => ?_).2 ?_) hl

@[simp] theorem Dev.resetIfWaits_only {l : List Comp} {a : Dev} (x0 : Dev) (hl : [.st, .hdr, .ctr, .snap, .regs, .parts, .irq, .isles, .cores, .evc, .sigs, .clus, .mvec, .nwch, .opte, .rede, .tokx, .shelves, .tier, .flash, .rings, .dmae, .eth, .fab, .strm, .pwr, .errm, .sec, .boot, .out] ⊆ l) :
    changesOnly l a (Dev.resetIfWaits x0) ↔ changesOnly l a x0 :=
  changesOnly.peel (k := [.st, .hdr, .ctr, .snap, .regs, .parts, .irq, .isles, .cores, .evc, .sigs, .clus, .mvec, .nwch, .opte, .rede, .tokx, .shelves, .tier, .flash, .rings, .dmae, .eth, .fab, .strm, .pwr, .errm, .sec, .boot, .out]) (by
    unfold Dev.resetIfWaits
    repeat' first
      | (simp [changesOnly_foldl]; done)
      | (split <;> try first
          | (rename_i h; have h := (congrArg (fun q => q.2.2.2) h).symm; dsimp only at h; subst h)
          | (rename_i h; have h := (congrArg (fun q => q.2.2) h).symm; dsimp only at h; subst h)
          | (rename_i h; have h := (congrArg (fun q => q.2) h).symm; dsimp only at h; subst h)
          | (rename_i h _; have h := (congrArg (fun q => q.2) h).symm; dsimp only at h; subst h))
      | dsimp only
      | refine (changesOnly_foldl _ _ _ fun b x => ?_).2 ?_) hl

@[simp] theorem Dev.inputLost_only {l : List Comp} {a : Dev} (x0 : Dev) (hl : [.st, .hdr, .ctr, .snap, .regs, .parts, .irq, .isles, .cores, .evc, .sigs, .clus, .mvec, .nwch, .opte, .rede, .tokx, .shelves, .tier, .flash, .rings, .dmae, .eth, .fab, .strm, .pwr, .errm, .sec, .boot, .out] ⊆ l) :
    changesOnly l a (Dev.inputLost x0) ↔ changesOnly l a x0 :=
  changesOnly.peel (k := [.st, .hdr, .ctr, .snap, .regs, .parts, .irq, .isles, .cores, .evc, .sigs, .clus, .mvec, .nwch, .opte, .rede, .tokx, .shelves, .tier, .flash, .rings, .dmae, .eth, .fab, .strm, .pwr, .errm, .sec, .boot, .out]) (by
    unfold Dev.inputLost
    repeat' first
      | (simp [changesOnly_foldl]; done)
      | (split <;> try first
          | (rename_i h; have h := (congrArg (fun q => q.2.2.2) h).symm; dsimp only at h; subst h)
          | (rename_i h; have h := (congrArg (fun q => q.2.2) h).symm; dsimp only at h; subst h)
          | (rename_i h; have h := (congrArg (fun q => q.2) h).symm; dsimp only at h; subst h)
          | (rename_i h _; have h := (congrArg (fun q => q.2) h).symm; dsimp only at h; subst h))
      | dsimp only
      | refine (changesOnly_foldl _ _ _ fun b x => ?_).2 ?_) hl

end Sys2Proof.Machine
end

