-- ==== Sys2Proof/Laws/OnlyCommit.lean ====
section
/-!
SUPPORT. The components that each operation of Machine/Commit.lean can change.
-/

namespace Sys2Proof.Machine

set_option linter.unusedSimpArgs false

open Sys2Proof.Safety

@[simp] theorem Dev.updCommit_only {l : List Comp} {a : Dev} (x0 : Dev) (x1) (hl : [.parts] ⊆ l) :
    changesOnly l a (Dev.updCommit x0 x1) ↔ changesOnly l a x0 :=
  changesOnly.peel (k := [.parts]) (by
    unfold Dev.updCommit
    repeat' first
      | (simp [changesOnly_foldl]; done)
      | (split <;> try first
          | (rename_i h; have h := (congrArg (fun q => q.2.2.2) h).symm; dsimp only at h; subst h)
          | (rename_i h; have h := (congrArg (fun q => q.2.2) h).symm; dsimp only at h; subst h)
          | (rename_i h; have h := (congrArg (fun q => q.2) h).symm; dsimp only at h; subst h)
          | (rename_i h _; have h := (congrArg (fun q => q.2) h).symm; dsimp only at h; subst h))
      | dsimp only
      | refine (changesOnly_foldl _ _ _ fun b x => ?_).2 ?_) hl

@[simp] theorem Dev.setOutcome_only {l : List Comp} {a : Dev} (x0 : Dev) (x1) (hl : [.hdr, .ctr, .parts] ⊆ l) :
    changesOnly l a (Dev.setOutcome x0 x1) ↔ changesOnly l a x0 :=
  changesOnly.peel (k := [.hdr, .ctr, .parts]) (by
    unfold Dev.setOutcome
    repeat' first
      | (simp [changesOnly_foldl]; done)
      | (split <;> try first
          | (rename_i h; have h := (congrArg (fun q => q.2.2.2) h).symm; dsimp only at h; subst h)
          | (rename_i h; have h := (congrArg (fun q => q.2.2) h).symm; dsimp only at h; subst h)
          | (rename_i h; have h := (congrArg (fun q => q.2) h).symm; dsimp only at h; subst h)
          | (rename_i h _; have h := (congrArg (fun q => q.2) h).symm; dsimp only at h; subst h))
      | dsimp only
      | refine (changesOnly_foldl _ _ _ fun b x => ?_).2 ?_) hl

@[simp] theorem Dev.discard_only {l : List Comp} {a : Dev} (x0 : Dev) (x1) (hl : [.hdr, .ctr, .parts] ⊆ l) :
    changesOnly l a (Dev.discard x0 x1) ↔ changesOnly l a x0 :=
  changesOnly.peel (k := [.hdr, .ctr, .parts]) (by
    unfold Dev.discard
    repeat' first
      | (simp [changesOnly_foldl]; done)
      | (split <;> try first
          | (rename_i h; have h := (congrArg (fun q => q.2.2.2) h).symm; dsimp only at h; subst h)
          | (rename_i h; have h := (congrArg (fun q => q.2.2) h).symm; dsimp only at h; subst h)
          | (rename_i h; have h := (congrArg (fun q => q.2) h).symm; dsimp only at h; subst h)
          | (rename_i h _; have h := (congrArg (fun q => q.2) h).symm; dsimp only at h; subst h))
      | dsimp only
      | refine (changesOnly_foldl _ _ _ fun b x => ?_).2 ?_) hl

@[simp] theorem Dev.ctl_only {l : List Comp} {a : Dev} (d : Dev) (o) (f) (hf : ∀ b, changesOnly l b (f b))
    (hl : [.hdr, .parts] ⊆ l) : changesOnly l a (d.ctl o f) ↔ changesOnly l a d :=
  changesOnly.peel (k := l) (by
    have hhdr : Comp.hdr ∈ l := hl (by simp)
    have hparts : Comp.parts ∈ l := hl (by simp)
    have hg : ∀ a b, changesOnly l a (f b) ↔ changesOnly l a b := fun a b => (hf b).peel fun _ h => h
    unfold Dev.ctl
    repeat' first
      | (simp [hg, hhdr, hparts]; done)
      | (split <;> try first
          | (rename_i h; have h := (congrArg (fun q => q.2) h).symm; dsimp only at h; subst h))
      | dsimp only) (fun _ h => h)


@[simp] theorem stage_only {l : List Comp} {a : Dev} (x0 : Dev) (hl : [.hdr, .ctr, .parts] ⊆ l) :
    changesOnly l a (stage x0) ↔ changesOnly l a x0 :=
  changesOnly.peel (k := [.hdr, .ctr, .parts]) (by
    unfold stage
    repeat' first
      | (simp [changesOnly_foldl]; done)
      | (split <;> try first
          | (rename_i h; have h := (congrArg (fun q => q.2.2.2) h).symm; dsimp only at h; subst h)
          | (rename_i h; have h := (congrArg (fun q => q.2.2) h).symm; dsimp only at h; subst h)
          | (rename_i h; have h := (congrArg (fun q => q.2) h).symm; dsimp only at h; subst h)
          | (rename_i h _; have h := (congrArg (fun q => q.2) h).symm; dsimp only at h; subst h))
      | dsimp only
      | refine (changesOnly_foldl _ _ _ fun b x => ?_).2 ?_) hl

@[simp] theorem stagedWrite_only {l : List Comp} {a : Dev} (x0) (x1) (x2 : Dev) (hl : [.hdr, .parts] ⊆ l) :
    changesOnly l a (stagedWrite x0 x1 x2) ↔ changesOnly l a x2 :=
  changesOnly.peel (k := [.hdr, .parts]) (by
    unfold stagedWrite
    repeat' first
      | (simp [changesOnly_foldl]; done)
      | (split <;> try first
          | (rename_i h; have h := (congrArg (fun q => q.2.2.2) h).symm; dsimp only at h; subst h)
          | (rename_i h; have h := (congrArg (fun q => q.2.2) h).symm; dsimp only at h; subst h)
          | (rename_i h; have h := (congrArg (fun q => q.2) h).symm; dsimp only at h; subst h)
          | (rename_i h _; have h := (congrArg (fun q => q.2) h).symm; dsimp only at h; subst h))
      | dsimp only
      | refine (changesOnly_foldl _ _ _ fun b x => ?_).2 ?_) hl

@[simp] theorem sealIt_only {l : List Comp} {a : Dev} (x0 : Dev) (hl : [.hdr, .ctr, .parts] ⊆ l) :
    changesOnly l a (sealIt x0) ↔ changesOnly l a x0 :=
  changesOnly.peel (k := [.hdr, .ctr, .parts]) (by
    unfold sealIt
    repeat' first
      | (simp [changesOnly_foldl]; done)
      | (split <;> try first
          | (rename_i h; have h := (congrArg (fun q => q.2.2.2) h).symm; dsimp only at h; subst h)
          | (rename_i h; have h := (congrArg (fun q => q.2.2) h).symm; dsimp only at h; subst h)
          | (rename_i h; have h := (congrArg (fun q => q.2) h).symm; dsimp only at h; subst h)
          | (rename_i h _; have h := (congrArg (fun q => q.2) h).symm; dsimp only at h; subst h))
      | dsimp only
      | refine (changesOnly_foldl _ _ _ fun b x => ?_).2 ?_) hl

@[simp] theorem abort_only {l : List Comp} {a : Dev} (x0 : Dev) (hl : [.hdr, .ctr, .parts] ⊆ l) :
    changesOnly l a (abort x0) ↔ changesOnly l a x0 :=
  changesOnly.peel (k := [.hdr, .ctr, .parts]) (by
    unfold abort
    repeat' first
      | (simp [changesOnly_foldl]; done)
      | (split <;> try first
          | (rename_i h; have h := (congrArg (fun q => q.2.2.2) h).symm; dsimp only at h; subst h)
          | (rename_i h; have h := (congrArg (fun q => q.2.2) h).symm; dsimp only at h; subst h)
          | (rename_i h; have h := (congrArg (fun q => q.2) h).symm; dsimp only at h; subst h)
          | (rename_i h _; have h := (congrArg (fun q => q.2) h).symm; dsimp only at h; subst h))
      | dsimp only
      | refine (changesOnly_foldl _ _ _ fun b x => ?_).2 ?_) hl

@[simp] theorem windowExpire_only {l : List Comp} {a : Dev} (x0 : Dev) (hl : [.hdr, .ctr, .parts, .isles] ⊆ l) :
    changesOnly l a (windowExpire x0) ↔ changesOnly l a x0 :=
  changesOnly.peel (k := [.hdr, .ctr, .parts, .isles]) (by
    unfold windowExpire
    repeat' first
      | (simp [changesOnly_foldl]; done)
      | (split <;> try first
          | (rename_i h; have h := (congrArg (fun q => q.2.2.2) h).symm; dsimp only at h; subst h)
          | (rename_i h; have h := (congrArg (fun q => q.2.2) h).symm; dsimp only at h; subst h)
          | (rename_i h; have h := (congrArg (fun q => q.2) h).symm; dsimp only at h; subst h)
          | (rename_i h _; have h := (congrArg (fun q => q.2) h).symm; dsimp only at h; subst h))
      | dsimp only
      | refine (changesOnly_foldl _ _ _ fun b x => ?_).2 ?_) hl

@[simp] theorem query_only {l : List Comp} {a : Dev} (x0) (x1 : Dev) (hl : [.ctr, .out] ⊆ l) :
    changesOnly l a (query x0 x1) ↔ changesOnly l a x1 :=
  changesOnly.peel (k := [.ctr, .out]) (by
    unfold query
    repeat' first
      | (simp [changesOnly_foldl]; done)
      | (split <;> try first
          | (rename_i h; have h := (congrArg (fun q => q.2.2.2) h).symm; dsimp only at h; subst h)
          | (rename_i h; have h := (congrArg (fun q => q.2.2) h).symm; dsimp only at h; subst h)
          | (rename_i h; have h := (congrArg (fun q => q.2) h).symm; dsimp only at h; subst h)
          | (rename_i h _; have h := (congrArg (fun q => q.2) h).symm; dsimp only at h; subst h))
      | dsimp only
      | refine (changesOnly_foldl _ _ _ fun b x => ?_).2 ?_) hl

@[simp] theorem sign_only {l : List Comp} {a : Dev} (x0) (x1) (x2) (x3) (x4 : Dev) (hl : [.hdr, .ctr, .parts, .boot, .out] ⊆ l) :
    changesOnly l a (sign x0 x1 x2 x3 x4) ↔ changesOnly l a x4 :=
  changesOnly.peel (k := [.hdr, .ctr, .parts, .boot, .out]) (by
    unfold sign
    repeat' first
      | (simp [changesOnly_foldl]; done)
      | (split <;> try first
          | (rename_i h; have h := (congrArg (fun q => q.2.2.2) h).symm; dsimp only at h; subst h)
          | (rename_i h; have h := (congrArg (fun q => q.2.2) h).symm; dsimp only at h; subst h)
          | (rename_i h; have h := (congrArg (fun q => q.2) h).symm; dsimp only at h; subst h)
          | (rename_i h _; have h := (congrArg (fun q => q.2) h).symm; dsimp only at h; subst h))
      | dsimp only
      | refine (changesOnly_foldl _ _ _ fun b x => ?_).2 ?_
      | refine (Dev.mgmtReq_only _ _ _ _ (fun b => ?_) (by simp)).2 ?_) hl

@[simp] theorem enrol_only {l : List Comp} {a : Dev} (x0) (x1) (x2) (x3) (x4) (x5 : Dev) (hl : [.ctr, .store, .out] ⊆ l) :
    changesOnly l a (enrol x0 x1 x2 x3 x4 x5) ↔ changesOnly l a x5 :=
  changesOnly.peel (k := [.ctr, .store, .out]) (by
    unfold enrol
    repeat' first
      | (simp [changesOnly_foldl]; done)
      | (split <;> try first
          | (rename_i h; have h := (congrArg (fun q => q.2.2.2) h).symm; dsimp only at h; subst h)
          | (rename_i h; have h := (congrArg (fun q => q.2.2) h).symm; dsimp only at h; subst h)
          | (rename_i h; have h := (congrArg (fun q => q.2) h).symm; dsimp only at h; subst h)
          | (rename_i h _; have h := (congrArg (fun q => q.2) h).symm; dsimp only at h; subst h))
      | dsimp only
      | refine (changesOnly_foldl _ _ _ fun b x => ?_).2 ?_) hl

@[simp] theorem commitPoint_only {l : List Comp} {a : Dev} (x0 : Dev) (hl : [.st, .hdr, .ctr, .parts, .store, .mem, .poison, .cores, .sigs, .nwch, .opte, .tier, .eth, .fab, .strm, .out, .free] ⊆ l) :
    changesOnly l a (commitPoint x0) ↔ changesOnly l a x0 :=
  changesOnly.peel (k := [.st, .hdr, .ctr, .parts, .store, .mem, .poison, .cores, .sigs, .nwch, .opte, .tier, .eth, .fab, .strm, .out, .free]) (by
    unfold commitPoint
    repeat' first
      | (simp [changesOnly_foldl]; done)
      | (split <;> try first
          | (rename_i h; have h := (congrArg (fun q => q.2.2.2) h).symm; dsimp only at h; subst h)
          | (rename_i h; have h := (congrArg (fun q => q.2.2) h).symm; dsimp only at h; subst h)
          | (rename_i h; have h := (congrArg (fun q => q.2) h).symm; dsimp only at h; subst h)
          | (rename_i h _; have h := (congrArg (fun q => q.2) h).symm; dsimp only at h; subst h))
      | dsimp only
      | refine (changesOnly_foldl _ _ _ fun b x => ?_).2 ?_) hl

@[simp] theorem drainIdle_only {l : List Comp} {a : Dev} (x0 : Dev) (hl : [.st, .hdr, .parts] ⊆ l) :
    changesOnly l a (drainIdle x0) ↔ changesOnly l a x0 :=
  changesOnly.peel (k := [.st, .hdr, .parts]) (by
    unfold drainIdle
    repeat' first
      | (simp [changesOnly_foldl]; done)
      | (split <;> try first
          | (rename_i h; have h := (congrArg (fun q => q.2.2.2) h).symm; dsimp only at h; subst h)
          | (rename_i h; have h := (congrArg (fun q => q.2.2) h).symm; dsimp only at h; subst h)
          | (rename_i h; have h := (congrArg (fun q => q.2) h).symm; dsimp only at h; subst h)
          | (rename_i h _; have h := (congrArg (fun q => q.2) h).symm; dsimp only at h; subst h))
      | dsimp only
      | refine (changesOnly_foldl _ _ _ fun b x => ?_).2 ?_) hl

@[simp] theorem drainGrace_only {l : List Comp} {a : Dev} (x0 : Dev) (hl : [.st, .hdr, .ctr, .parts, .mem, .poison, .isles, .cores, .sigs, .mvec, .nwch, .opte, .rede, .tier, .dmae, .eth, .fab, .strm, .out, .free] ⊆ l) :
    changesOnly l a (drainGrace x0) ↔ changesOnly l a x0 :=
  changesOnly.peel (k := [.st, .hdr, .ctr, .parts, .mem, .poison, .isles, .cores, .sigs, .mvec, .nwch, .opte, .rede, .tier, .dmae, .eth, .fab, .strm, .out, .free]) (by
    unfold drainGrace
    repeat' first
      | (simp [changesOnly_foldl]; done)
      | (split <;> try first
          | (rename_i h; have h := (congrArg (fun q => q.2.2.2) h).symm; dsimp only at h; subst h)
          | (rename_i h; have h := (congrArg (fun q => q.2.2) h).symm; dsimp only at h; subst h)
          | (rename_i h; have h := (congrArg (fun q => q.2) h).symm; dsimp only at h; subst h)
          | (rename_i h _; have h := (congrArg (fun q => q.2) h).symm; dsimp only at h; subst h))
      | dsimp only
      | refine (changesOnly_foldl _ _ _ fun b x => ?_).2 ?_) hl

@[simp] theorem Dev.scrubMoved_only {l : List Comp} {a : Dev} (x0 : Dev) (hl : [.st, .hdr, .ctr, .regs, .mem, .poison, .isles, .cores, .evc, .sigs, .clus, .mvec, .nwch, .opte, .rede, .shelves, .flash, .dmae, .eth, .strm, .out] ⊆ l) :
    changesOnly l a (Dev.scrubMoved x0) ↔ changesOnly l a x0 :=
  changesOnly.peel (k := [.st, .hdr, .ctr, .regs, .mem, .poison, .isles, .cores, .evc, .sigs, .clus, .mvec, .nwch, .opte, .rede, .shelves, .flash, .dmae, .eth, .strm, .out]) (by
    unfold Dev.scrubMoved
    repeat' first
      | (simp [changesOnly_foldl]; done)
      | (split <;> try first
          | (rename_i h; have h := (congrArg (fun q => q.2.2.2) h).symm; dsimp only at h; subst h)
          | (rename_i h; have h := (congrArg (fun q => q.2.2) h).symm; dsimp only at h; subst h)
          | (rename_i h; have h := (congrArg (fun q => q.2) h).symm; dsimp only at h; subst h)
          | (rename_i h _; have h := (congrArg (fun q => q.2) h).symm; dsimp only at h; subst h))
      | dsimp only
      | refine (changesOnly_foldl _ _ _ fun b x => ?_).2 ?_) hl

@[simp] theorem Dev.beforeSwitch_only {l : List Comp} {a : Dev} (x0 : Dev) (x1) (hl : [.hdr, .ctr, .cores, .shelves, .tier, .flash, .eth, .fab, .out] ⊆ l) :
    changesOnly l a (Dev.beforeSwitch x0 x1) ↔ changesOnly l a x0 :=
  changesOnly.peel (k := [.hdr, .ctr, .cores, .shelves, .tier, .flash, .eth, .fab, .out]) (by
    unfold Dev.beforeSwitch
    repeat' first
      | (simp [changesOnly_foldl]; done)
      | (split <;> try first
          | (rename_i h; have h := (congrArg (fun q => q.2.2.2) h).symm; dsimp only at h; subst h)
          | (rename_i h; have h := (congrArg (fun q => q.2.2) h).symm; dsimp only at h; subst h)
          | (rename_i h; have h := (congrArg (fun q => q.2) h).symm; dsimp only at h; subst h)
          | (rename_i h _; have h := (congrArg (fun q => q.2) h).symm; dsimp only at h; subst h))
      | dsimp only
      | refine (changesOnly_foldl _ _ _ fun b x => ?_).2 ?_) hl

@[simp] theorem Dev.switchTable_only {l : List Comp} {a : Dev} (x0 : Dev) (hl : [.hdr, .ctr, .regs, .gen, .parts, .cores, .shelves, .tier, .flash, .rings, .eth, .fab, .sec, .out] ⊆ l) :
    changesOnly l a (Dev.switchTable x0) ↔ changesOnly l a x0 :=
  changesOnly.peel (k := [.hdr, .ctr, .regs, .gen, .parts, .cores, .shelves, .tier, .flash, .rings, .eth, .fab, .sec, .out]) (by
    unfold Dev.switchTable
    repeat' first
      | (simp [changesOnly_foldl]; done)
      | (split <;> try first
          | (rename_i h; have h := (congrArg (fun q => q.2.2.2) h).symm; dsimp only at h; subst h)
          | (rename_i h; have h := (congrArg (fun q => q.2.2) h).symm; dsimp only at h; subst h)
          | (rename_i h; have h := (congrArg (fun q => q.2) h).symm; dsimp only at h; subst h)
          | (rename_i h _; have h := (congrArg (fun q => q.2) h).symm; dsimp only at h; subst h))
      | dsimp only
      | refine (changesOnly_foldl _ _ _ fun b x => ?_).2 ?_) hl

@[simp] theorem scrubDone_only {l : List Comp} {a : Dev} (x0 : Dev) (hl : [.st, .hdr, .ctr, .snap, .regs, .gen, .parts, .store, .irq, .mem, .poison, .isles, .cores, .evc, .sigs, .clus, .mvec, .nwch, .opte, .rede, .tokx, .shelves, .tier, .flash, .rings, .dmae, .eth, .fab, .strm, .pwr, .errm, .sec, .boot, .out] ⊆ l) :
    changesOnly l a (scrubDone x0) ↔ changesOnly l a x0 :=
  changesOnly.peel (k := [.st, .hdr, .ctr, .snap, .regs, .gen, .parts, .store, .irq, .mem, .poison, .isles, .cores, .evc, .sigs, .clus, .mvec, .nwch, .opte, .rede, .tokx, .shelves, .tier, .flash, .rings, .dmae, .eth, .fab, .strm, .pwr, .errm, .sec, .boot, .out]) (by
    unfold scrubDone
    repeat' first
      | (simp [changesOnly_foldl]; done)
      | (split <;> try first
          | (rename_i h; have h := (congrArg (fun q => q.2.2.2) h).symm; dsimp only at h; subst h)
          | (rename_i h; have h := (congrArg (fun q => q.2.2) h).symm; dsimp only at h; subst h)
          | (rename_i h; have h := (congrArg (fun q => q.2) h).symm; dsimp only at h; subst h)
          | (rename_i h _; have h := (congrArg (fun q => q.2) h).symm; dsimp only at h; subst h))
      | dsimp only
      | refine (changesOnly_foldl _ _ _ fun b x => ?_).2 ?_) hl

end Sys2Proof.Machine
end

