-- ==== Sys2Proof/Laws/OnlyBlocks.lean ====
section
/-!
SUPPORT. The components that each operation of Machine/Blocks.lean can change.
-/

namespace Sys2Proof.Machine

set_option linter.unusedSimpArgs false

open Sys2Proof.Safety

@[simp] theorem Dev.header_only {l : List Comp} {a : Dev} (d : Dev) (v) (p) (off) (f) (hf : ∀ b, changesOnly l b (f b))
    (hl : [.hdr, .parts] ⊆ l) : changesOnly l a (d.header v p off f) ↔ changesOnly l a d :=
  changesOnly.peel (k := l) (by
    have hhdr : Comp.hdr ∈ l := hl (by simp)
    have hparts : Comp.parts ∈ l := hl (by simp)
    have hg : ∀ a b, changesOnly l a (f b) ↔ changesOnly l a b := fun a b => (hf b).peel fun _ h => h
    unfold Dev.header
    repeat' first
      | (simp [hg, hhdr, hparts]; done)
      | (split <;> try first
          | (rename_i h; have h := (congrArg (fun q => q.2) h).symm; dsimp only at h; subst h))
      | dsimp only) (fun _ h => h)


@[simp] theorem negWrite_only {l : List Comp} {a : Dev} (x0) (x1) (x2) (x3) (x4 : Dev) (hl : [.hdr, .parts] ⊆ l) :
    changesOnly l a (negWrite x0 x1 x2 x3 x4) ↔ changesOnly l a x4 :=
  changesOnly.peel (k := [.hdr, .parts]) (by
    unfold negWrite
    repeat' first
      | (simp [changesOnly_foldl]; done)
      | (split <;> try first
          | (rename_i h; have h := (congrArg (fun q => q.2.2.2) h).symm; dsimp only at h; subst h)
          | (rename_i h; have h := (congrArg (fun q => q.2.2) h).symm; dsimp only at h; subst h)
          | (rename_i h; have h := (congrArg (fun q => q.2) h).symm; dsimp only at h; subst h)
          | (rename_i h _; have h := (congrArg (fun q => q.2) h).symm; dsimp only at h; subst h))
      | dsimp only
      | refine (changesOnly_foldl _ _ _ fun b x => ?_).2 ?_) hl

@[simp] theorem evtWrite_only {l : List Comp} {a : Dev} (x0) (x1) (x2) (x3) (x4) (x5 : Dev) (hl : [.hdr, .parts] ⊆ l) :
    changesOnly l a (evtWrite x0 x1 x2 x3 x4 x5) ↔ changesOnly l a x5 :=
  changesOnly.peel (k := [.hdr, .parts]) (by
    unfold evtWrite
    repeat' first
      | (simp [changesOnly_foldl]; done)
      | (split <;> try first
          | (rename_i h; have h := (congrArg (fun q => q.2.2.2) h).symm; dsimp only at h; subst h)
          | (rename_i h; have h := (congrArg (fun q => q.2.2) h).symm; dsimp only at h; subst h)
          | (rename_i h; have h := (congrArg (fun q => q.2) h).symm; dsimp only at h; subst h)
          | (rename_i h _; have h := (congrArg (fun q => q.2) h).symm; dsimp only at h; subst h))
      | dsimp only
      | refine (changesOnly_foldl _ _ _ fun b x => ?_).2 ?_) hl

@[simp] theorem Dev.ctlVia_only {l : List Comp} {a : Dev} (d : Dev) (v) (p) (f) (hf : ∀ b, changesOnly l b (f b))
    (hl : [.hdr, .parts] ⊆ l) : changesOnly l a (d.ctlVia v p f) ↔ changesOnly l a d :=
  changesOnly.peel (k := l) (by
    have hhdr : Comp.hdr ∈ l := hl (by simp)
    have hparts : Comp.parts ∈ l := hl (by simp)
    have hg : ∀ a b, changesOnly l a (f b) ↔ changesOnly l a b := fun a b => (hf b).peel fun _ h => h
    unfold Dev.ctlVia
    repeat' first
      | (simp [hg, hhdr, hparts]; done)
      | (split <;> try first
          | (rename_i h; have h := (congrArg (fun q => q.2) h).symm; dsimp only at h; subst h))
      | dsimp only) (fun _ h => h)


@[simp] theorem Dev.blkOff_only {l : List Comp} {a : Dev} (x0 : Dev) (x1) (hl : [.fab] ⊆ l) :
    changesOnly l a (Dev.blkOff x0 x1) ↔ changesOnly l a x0 :=
  changesOnly.peel (k := [.fab]) (by
    unfold Dev.blkOff
    repeat' first
      | (simp [changesOnly_foldl]; done)
      | (split <;> try first
          | (rename_i h; have h := (congrArg (fun q => q.2.2.2) h).symm; dsimp only at h; subst h)
          | (rename_i h; have h := (congrArg (fun q => q.2.2) h).symm; dsimp only at h; subst h)
          | (rename_i h; have h := (congrArg (fun q => q.2) h).symm; dsimp only at h; subst h)
          | (rename_i h _; have h := (congrArg (fun q => q.2) h).symm; dsimp only at h; subst h))
      | dsimp only
      | refine (changesOnly_foldl _ _ _ fun b x => ?_).2 ?_) hl

@[simp] theorem ctlWrite_only {l : List Comp} {a : Dev} (x0) (x1) (x2) (x3) (x4 : Dev) (hl : [.st, .hdr, .ctr, .parts, .mem, .poison, .cores, .sigs, .nwch, .opte, .tier, .fab, .strm, .free] ⊆ l) :
    changesOnly l a (ctlWrite x0 x1 x2 x3 x4) ↔ changesOnly l a x4 :=
  changesOnly.peel (k := [.st, .hdr, .ctr, .parts, .mem, .poison, .cores, .sigs, .nwch, .opte, .tier, .fab, .strm, .free]) (by
    unfold ctlWrite
    repeat' first
      | (simp [changesOnly_foldl]; done)
      | (split <;> try first
          | (rename_i h; have h := (congrArg (fun q => q.2.2.2) h).symm; dsimp only at h; subst h)
          | (rename_i h; have h := (congrArg (fun q => q.2.2) h).symm; dsimp only at h; subst h)
          | (rename_i h; have h := (congrArg (fun q => q.2) h).symm; dsimp only at h; subst h)
          | (rename_i h _; have h := (congrArg (fun q => q.2) h).symm; dsimp only at h; subst h))
      | dsimp only
      | refine (changesOnly_foldl _ _ _ fun b x => ?_).2 ?_
      | refine (Dev.ctlVia_only _ _ _ _ (fun b => ?_) (by simp)).2 ?_) hl

@[simp] theorem blockReady_only {l : List Comp} {a : Dev} (x0) (x1 : Dev) (hl : [.st, .hdr, .ctr, .eth, .fab, .strm, .out] ⊆ l) :
    changesOnly l a (blockReady x0 x1) ↔ changesOnly l a x1 :=
  changesOnly.peel (k := [.st, .hdr, .ctr, .eth, .fab, .strm, .out]) (by
    unfold blockReady
    repeat' first
      | (simp [changesOnly_foldl]; done)
      | (split <;> try first
          | (rename_i h; have h := (congrArg (fun q => q.2.2.2) h).symm; dsimp only at h; subst h)
          | (rename_i h; have h := (congrArg (fun q => q.2.2) h).symm; dsimp only at h; subst h)
          | (rename_i h; have h := (congrArg (fun q => q.2) h).symm; dsimp only at h; subst h)
          | (rename_i h _; have h := (congrArg (fun q => q.2) h).symm; dsimp only at h; subst h))
      | dsimp only
      | refine (changesOnly_foldl _ _ _ fun b x => ?_).2 ?_) hl

@[simp] theorem Dev.clearHdr_only {l : List Comp} {a : Dev} (x0 : Dev) (x1) (hl : [.hdr, .ctr, .snap] ⊆ l) :
    changesOnly l a (Dev.clearHdr x0 x1) ↔ changesOnly l a x0 :=
  changesOnly.peel (k := [.hdr, .ctr, .snap]) (by
    unfold Dev.clearHdr
    repeat' first
      | (simp [changesOnly_foldl]; done)
      | (split <;> try first
          | (rename_i h; have h := (congrArg (fun q => q.2.2.2) h).symm; dsimp only at h; subst h)
          | (rename_i h; have h := (congrArg (fun q => q.2.2) h).symm; dsimp only at h; subst h)
          | (rename_i h; have h := (congrArg (fun q => q.2) h).symm; dsimp only at h; subst h)
          | (rename_i h _; have h := (congrArg (fun q => q.2) h).symm; dsimp only at h; subst h))
      | dsimp only
      | refine (changesOnly_foldl _ _ _ fun b x => ?_).2 ?_) hl

@[simp] theorem Dev.clearSummary_only {l : List Comp} {a : Dev} (x0 : Dev) (x1) (hl : [.irq] ⊆ l) :
    changesOnly l a (Dev.clearSummary x0 x1) ↔ changesOnly l a x0 :=
  changesOnly.peel (k := [.irq]) (by
    unfold Dev.clearSummary
    repeat' first
      | (simp [changesOnly_foldl]; done)
      | (split <;> try first
          | (rename_i h; have h := (congrArg (fun q => q.2.2.2) h).symm; dsimp only at h; subst h)
          | (rename_i h; have h := (congrArg (fun q => q.2.2) h).symm; dsimp only at h; subst h)
          | (rename_i h; have h := (congrArg (fun q => q.2) h).symm; dsimp only at h; subst h)
          | (rename_i h _; have h := (congrArg (fun q => q.2) h).symm; dsimp only at h; subst h))
      | dsimp only
      | refine (changesOnly_foldl _ _ _ fun b x => ?_).2 ?_) hl

@[simp] theorem Dev.freshRings_only {l : List Comp} {a : Dev} (x0 : Dev) (x1) (hl : [.irq, .rings] ⊆ l) :
    changesOnly l a (Dev.freshRings x0 x1) ↔ changesOnly l a x0 :=
  changesOnly.peel (k := [.irq, .rings]) (by
    unfold Dev.freshRings
    repeat' first
      | (simp [changesOnly_foldl]; done)
      | (split <;> try first
          | (rename_i h; have h := (congrArg (fun q => q.2.2.2) h).symm; dsimp only at h; subst h)
          | (rename_i h; have h := (congrArg (fun q => q.2.2) h).symm; dsimp only at h; subst h)
          | (rename_i h; have h := (congrArg (fun q => q.2) h).symm; dsimp only at h; subst h)
          | (rename_i h _; have h := (congrArg (fun q => q.2) h).symm; dsimp only at h; subst h))
      | dsimp only
      | refine (changesOnly_foldl _ _ _ fun b x => ?_).2 ?_) hl

@[simp] theorem Dev.clearUnit_only {l : List Comp} {a : Dev} (x0 : Dev) (x1) (hl : [.hdr, .ctr, .parts, .irq, .mem, .poison, .isles, .cores, .evc, .sigs, .clus, .mvec, .nwch, .opte, .rede, .tokx, .tier, .rings, .dmae, .eth, .fab, .strm, .pwr, .errm, .sec, .out] ⊆ l) :
    changesOnly l a (Dev.clearUnit x0 x1) ↔ changesOnly l a x0 :=
  changesOnly.peel (k := [.hdr, .ctr, .parts, .irq, .mem, .poison, .isles, .cores, .evc, .sigs, .clus, .mvec, .nwch, .opte, .rede, .tokx, .tier, .rings, .dmae, .eth, .fab, .strm, .pwr, .errm, .sec, .out]) (by
    unfold Dev.clearUnit
    repeat' first
      | (simp [changesOnly_foldl]; done)
      | (split <;> try first
          | (rename_i h; have h := (congrArg (fun q => q.2.2.2) h).symm; dsimp only at h; subst h)
          | (rename_i h; have h := (congrArg (fun q => q.2.2) h).symm; dsimp only at h; subst h)
          | (rename_i h; have h := (congrArg (fun q => q.2) h).symm; dsimp only at h; subst h)
          | (rename_i h _; have h := (congrArg (fun q => q.2) h).symm; dsimp only at h; subst h))
      | dsimp only
      | refine (changesOnly_foldl _ _ _ fun b x => ?_).2 ?_) hl

@[simp] theorem Dev.resetUnit_only {l : List Comp} {a : Dev} (x0 : Dev) (x1) (hl : [.st, .hdr, .ctr, .snap, .regs, .parts, .irq, .mem, .poison, .isles, .cores, .evc, .sigs, .clus, .mvec, .nwch, .opte, .rede, .tokx, .tier, .rings, .dmae, .eth, .fab, .strm, .pwr, .errm, .sec, .out] ⊆ l) :
    changesOnly l a (Dev.resetUnit x0 x1) ↔ changesOnly l a x0 :=
  changesOnly.peel (k := [.st, .hdr, .ctr, .snap, .regs, .parts, .irq, .mem, .poison, .isles, .cores, .evc, .sigs, .clus, .mvec, .nwch, .opte, .rede, .tokx, .tier, .rings, .dmae, .eth, .fab, .strm, .pwr, .errm, .sec, .out]) (by
    unfold Dev.resetUnit
    repeat' first
      | (simp [changesOnly_foldl]; done)
      | (split <;> try first
          | (rename_i h; have h := (congrArg (fun q => q.2.2.2) h).symm; dsimp only at h; subst h)
          | (rename_i h; have h := (congrArg (fun q => q.2.2) h).symm; dsimp only at h; subst h)
          | (rename_i h; have h := (congrArg (fun q => q.2) h).symm; dsimp only at h; subst h)
          | (rename_i h _; have h := (congrArg (fun q => q.2) h).symm; dsimp only at h; subst h))
      | dsimp only
      | refine (changesOnly_foldl _ _ _ fun b x => ?_).2 ?_) hl

@[simp] theorem blockReset_only {l : List Comp} {a : Dev} (x0) (x1) (x2 : Dev) (hl : [.st, .hdr, .ctr, .snap, .regs, .parts, .irq, .mem, .poison, .isles, .cores, .evc, .sigs, .clus, .mvec, .nwch, .opte, .rede, .tokx, .tier, .rings, .dmae, .eth, .fab, .strm, .pwr, .errm, .sec, .out] ⊆ l) :
    changesOnly l a (blockReset x0 x1 x2) ↔ changesOnly l a x2 :=
  changesOnly.peel (k := [.st, .hdr, .ctr, .snap, .regs, .parts, .irq, .mem, .poison, .isles, .cores, .evc, .sigs, .clus, .mvec, .nwch, .opte, .rede, .tokx, .tier, .rings, .dmae, .eth, .fab, .strm, .pwr, .errm, .sec, .out]) (by
    unfold blockReset
    repeat' first
      | (simp [changesOnly_foldl]; done)
      | (split <;> try first
          | (rename_i h; have h := (congrArg (fun q => q.2.2.2) h).symm; dsimp only at h; subst h)
          | (rename_i h; have h := (congrArg (fun q => q.2.2) h).symm; dsimp only at h; subst h)
          | (rename_i h; have h := (congrArg (fun q => q.2) h).symm; dsimp only at h; subst h)
          | (rename_i h _; have h := (congrArg (fun q => q.2) h).symm; dsimp only at h; subst h))
      | dsimp only
      | refine (changesOnly_foldl _ _ _ fun b x => ?_).2 ?_
      | refine (Dev.ctlVia_only _ _ _ _ (fun b => ?_) (by simp)).2 ?_) hl

@[simp] theorem Dev.sumClear_only {l : List Comp} {a : Dev} (x0 : Dev) (x1) (x2) (x3) (hl : [.irq] ⊆ l) :
    changesOnly l a (Dev.sumClear x0 x1 x2 x3) ↔ changesOnly l a x0 :=
  changesOnly.peel (k := [.irq]) (by
    unfold Dev.sumClear
    repeat' first
      | (simp [changesOnly_foldl]; done)
      | (split <;> try first
          | (rename_i h; have h := (congrArg (fun q => q.2.2.2) h).symm; dsimp only at h; subst h)
          | (rename_i h; have h := (congrArg (fun q => q.2.2) h).symm; dsimp only at h; subst h)
          | (rename_i h; have h := (congrArg (fun q => q.2) h).symm; dsimp only at h; subst h)
          | (rename_i h _; have h := (congrArg (fun q => q.2) h).symm; dsimp only at h; subst h))
      | dsimp only
      | refine (changesOnly_foldl _ _ _ fun b x => ?_).2 ?_) hl

@[simp] theorem sumWrite_only {l : List Comp} {a : Dev} (x0) (x1) (x2) (x3 : Dev) (hl : [.hdr, .parts, .irq] ⊆ l) :
    changesOnly l a (sumWrite x0 x1 x2 x3) ↔ changesOnly l a x3 :=
  changesOnly.peel (k := [.hdr, .parts, .irq]) (by
    unfold sumWrite
    repeat' first
      | (simp [changesOnly_foldl]; done)
      | (split <;> try first
          | (rename_i h; have h := (congrArg (fun q => q.2.2.2) h).symm; dsimp only at h; subst h)
          | (rename_i h; have h := (congrArg (fun q => q.2.2) h).symm; dsimp only at h; subst h)
          | (rename_i h; have h := (congrArg (fun q => q.2) h).symm; dsimp only at h; subst h)
          | (rename_i h _; have h := (congrArg (fun q => q.2) h).symm; dsimp only at h; subst h))
      | dsimp only
      | refine (changesOnly_foldl _ _ _ fun b x => ?_).2 ?_) hl

end Sys2Proof.Machine
end

