-- ==== Sys2Proof/Laws/OnlyStart.lean ====
section
/-!
SUPPORT. The components that each operation of Machine/Start.lean can change.
-/

namespace Sys2Proof.Machine

set_option linter.unusedSimpArgs false

open Sys2Proof.Safety

@[simp] theorem Dev.updBoot_only {l : List Comp} {a : Dev} (x0 : Dev) (x1) (hl : [.boot] ⊆ l) :
    changesOnly l a (Dev.updBoot x0 x1) ↔ changesOnly l a x0 :=
  changesOnly.peel (k := [.boot]) (by
    unfold Dev.updBoot
    repeat' first
      | (simp [changesOnly_foldl]; done)
      | (split <;> try first
          | (rename_i h; have h := (congrArg (fun q => q.2.2.2) h).symm; dsimp only at h; subst h)
          | (rename_i h; have h := (congrArg (fun q => q.2.2) h).symm; dsimp only at h; subst h)
          | (rename_i h; have h := (congrArg (fun q => q.2) h).symm; dsimp only at h; subst h)
          | (rename_i h _; have h := (congrArg (fun q => q.2) h).symm; dsimp only at h; subst h))
      | dsimp only
      | refine (changesOnly_foldl _ _ _ fun b x => ?_).2 ?_) hl

@[simp] theorem auxUp_only {l : List Comp} {a : Dev} (x0) (x1) (x2) (x3 : Dev) (hl : [.st, .hdr, .ctr, .snap, .regs, .parts, .irq, .isles, .cores, .evc, .sigs, .clus, .mvec, .nwch, .opte, .rede, .tokx, .shelves, .tier, .flash, .rings, .dmae, .eth, .fab, .strm, .pwr, .errm, .halt, .brake, .sec, .boot] ⊆ l) :
    changesOnly l a (auxUp x0 x1 x2 x3) ↔ changesOnly l a x3 :=
  changesOnly.peel (k := [.st, .hdr, .ctr, .snap, .regs, .parts, .irq, .isles, .cores, .evc, .sigs, .clus, .mvec, .nwch, .opte, .rede, .tokx, .shelves, .tier, .flash, .rings, .dmae, .eth, .fab, .strm, .pwr, .errm, .halt, .brake, .sec, .boot]) (by
    unfold auxUp
    repeat' first
      | (simp [changesOnly_foldl]; done)
      | (split <;> try first
          | (rename_i h; have h := (congrArg (fun q => q.2.2.2) h).symm; dsimp only at h; subst h)
          | (rename_i h; have h := (congrArg (fun q => q.2.2) h).symm; dsimp only at h; subst h)
          | (rename_i h; have h := (congrArg (fun q => q.2) h).symm; dsimp only at h; subst h)
          | (rename_i h _; have h := (congrArg (fun q => q.2) h).symm; dsimp only at h; subst h))
      | dsimp only
      | refine (changesOnly_foldl _ _ _ fun b x => ?_).2 ?_) hl

@[simp] theorem auxDown_only {l : List Comp} {a : Dev} (x0 : Dev) (hl : [.st, .hdr, .ctr, .snap, .regs, .parts, .irq, .isles, .cores, .evc, .sigs, .clus, .mvec, .nwch, .opte, .rede, .tokx, .shelves, .tier, .flash, .rings, .dmae, .eth, .fab, .strm, .pwr, .errm, .halt, .brake, .sec, .boot] ⊆ l) :
    changesOnly l a (auxDown x0) ↔ changesOnly l a x0 :=
  changesOnly.peel (k := [.st, .hdr, .ctr, .snap, .regs, .parts, .irq, .isles, .cores, .evc, .sigs, .clus, .mvec, .nwch, .opte, .rede, .tokx, .shelves, .tier, .flash, .rings, .dmae, .eth, .fab, .strm, .pwr, .errm, .halt, .brake, .sec, .boot]) (by
    unfold auxDown
    repeat' first
      | (simp [changesOnly_foldl]; done)
      | (split <;> try first
          | (rename_i h; have h := (congrArg (fun q => q.2.2.2) h).symm; dsimp only at h; subst h)
          | (rename_i h; have h := (congrArg (fun q => q.2.2) h).symm; dsimp only at h; subst h)
          | (rename_i h; have h := (congrArg (fun q => q.2) h).symm; dsimp only at h; subst h)
          | (rename_i h _; have h := (congrArg (fun q => q.2) h).symm; dsimp only at h; subst h))
      | dsimp only
      | refine (changesOnly_foldl _ _ _ fun b x => ?_).2 ?_) hl

@[simp] theorem plpDone_only {l : List Comp} {a : Dev} (x0 : Dev) (hl : [.hdr, .flash] ⊆ l) :
    changesOnly l a (plpDone x0) ↔ changesOnly l a x0 :=
  changesOnly.peel (k := [.hdr, .flash]) (by
    unfold plpDone
    repeat' first
      | (simp [changesOnly_foldl]; done)
      | (split <;> try first
          | (rename_i h; have h := (congrArg (fun q => q.2.2.2) h).symm; dsimp only at h; subst h)
          | (rename_i h; have h := (congrArg (fun q => q.2.2) h).symm; dsimp only at h; subst h)
          | (rename_i h; have h := (congrArg (fun q => q.2) h).symm; dsimp only at h; subst h)
          | (rename_i h _; have h := (congrArg (fun q => q.2) h).symm; dsimp only at h; subst h))
      | dsimp only
      | refine (changesOnly_foldl _ _ _ fun b x => ?_).2 ?_) hl

@[simp] theorem Dev.enterRecovery_only {l : List Comp} {a : Dev} (x0 : Dev) (hl : [.hdr, .ctr, .boot] ⊆ l) :
    changesOnly l a (Dev.enterRecovery x0) ↔ changesOnly l a x0 :=
  changesOnly.peel (k := [.hdr, .ctr, .boot]) (by
    unfold Dev.enterRecovery
    repeat' first
      | (simp [changesOnly_foldl]; done)
      | (split <;> try first
          | (rename_i h; have h := (congrArg (fun q => q.2.2.2) h).symm; dsimp only at h; subst h)
          | (rename_i h; have h := (congrArg (fun q => q.2.2) h).symm; dsimp only at h; subst h)
          | (rename_i h; have h := (congrArg (fun q => q.2) h).symm; dsimp only at h; subst h)
          | (rename_i h _; have h := (congrArg (fun q => q.2) h).symm; dsimp only at h; subst h))
      | dsimp only
      | refine (changesOnly_foldl _ _ _ fun b x => ?_).2 ?_) hl

@[simp] theorem Dev.stepFailed_only {l : List Comp} {a : Dev} (x0 : Dev) (x1) (x2) (hl : [.hdr, .ctr, .boot] ⊆ l) :
    changesOnly l a (Dev.stepFailed x0 x1 x2) ↔ changesOnly l a x0 :=
  changesOnly.peel (k := [.hdr, .ctr, .boot]) (by
    unfold Dev.stepFailed
    repeat' first
      | (simp [changesOnly_foldl]; done)
      | (split <;> try first
          | (rename_i h; have h := (congrArg (fun q => q.2.2.2) h).symm; dsimp only at h; subst h)
          | (rename_i h; have h := (congrArg (fun q => q.2.2) h).symm; dsimp only at h; subst h)
          | (rename_i h; have h := (congrArg (fun q => q.2) h).symm; dsimp only at h; subst h)
          | (rename_i h _; have h := (congrArg (fun q => q.2) h).symm; dsimp only at h; subst h))
      | dsimp only
      | refine (changesOnly_foldl _ _ _ fun b x => ?_).2 ?_) hl

@[simp] theorem step2_only {l : List Comp} {a : Dev} (x0) (x1) (x2 : Dev) (hl : [.hdr, .ctr, .sec, .boot] ⊆ l) :
    changesOnly l a (step2 x0 x1 x2) ↔ changesOnly l a x2 :=
  changesOnly.peel (k := [.hdr, .ctr, .sec, .boot]) (by
    unfold step2
    repeat' first
      | (simp [changesOnly_foldl]; done)
      | (split <;> try first
          | (rename_i h; have h := (congrArg (fun q => q.2.2.2) h).symm; dsimp only at h; subst h)
          | (rename_i h; have h := (congrArg (fun q => q.2.2) h).symm; dsimp only at h; subst h)
          | (rename_i h; have h := (congrArg (fun q => q.2) h).symm; dsimp only at h; subst h)
          | (rename_i h _; have h := (congrArg (fun q => q.2) h).symm; dsimp only at h; subst h))
      | dsimp only
      | refine (changesOnly_foldl _ _ _ fun b x => ?_).2 ?_) hl

@[simp] theorem Dev.mapCluster_only {l : List Comp} {a : Dev} (x0) (x1 : Dev) (x2) (hl : [.st, .clus] ⊆ l) :
    changesOnly l a (Dev.mapCluster x0 x1 x2) ↔ changesOnly l a x1 :=
  changesOnly.peel (k := [.st, .clus]) (by
    unfold Dev.mapCluster
    repeat' first
      | (simp [changesOnly_foldl]; done)
      | (split <;> try first
          | (rename_i h; have h := (congrArg (fun q => q.2.2.2) h).symm; dsimp only at h; subst h)
          | (rename_i h; have h := (congrArg (fun q => q.2.2) h).symm; dsimp only at h; subst h)
          | (rename_i h; have h := (congrArg (fun q => q.2) h).symm; dsimp only at h; subst h)
          | (rename_i h _; have h := (congrArg (fun q => q.2) h).symm; dsimp only at h; subst h))
      | dsimp only
      | refine (changesOnly_foldl _ _ _ fun b x => ?_).2 ?_) hl

@[simp] theorem step8_only {l : List Comp} {a : Dev} (x0 : Dev) (hl : [.hdr, .ctr, .gen, .parts, .store, .mem, .poison, .isles, .cores, .sigs, .rede, .tokx, .tier, .flash, .eth, .fab, .pwr, .errm, .sec, .boot, .out] ⊆ l) :
    changesOnly l a (step8 x0) ↔ changesOnly l a x0 :=
  changesOnly.peel (k := [.hdr, .ctr, .gen, .parts, .store, .mem, .poison, .isles, .cores, .sigs, .rede, .tokx, .tier, .flash, .eth, .fab, .pwr, .errm, .sec, .boot, .out]) (by
    unfold step8
    repeat' first
      | (simp [changesOnly_foldl]; done)
      | (split <;> try first
          | (rename_i h; have h := (congrArg (fun q => q.2.2.2) h).symm; dsimp only at h; subst h)
          | (rename_i h; have h := (congrArg (fun q => q.2.2) h).symm; dsimp only at h; subst h)
          | (rename_i h; have h := (congrArg (fun q => q.2) h).symm; dsimp only at h; subst h)
          | (rename_i h _; have h := (congrArg (fun q => q.2) h).symm; dsimp only at h; subst h))
      | dsimp only
      | refine (changesOnly_foldl _ _ _ fun b x => ?_).2 ?_) hl

@[simp] theorem stepDone_only {l : List Comp} {a : Dev} (x0) (x1) (x2) (x3 : Dev) (hl : [.st, .hdr, .ctr, .gen, .parts, .store, .mem, .poison, .isles, .cores, .sigs, .clus, .rede, .tokx, .tier, .flash, .eth, .fab, .pwr, .errm, .sec, .boot, .out] ⊆ l) :
    changesOnly l a (stepDone x0 x1 x2 x3) ↔ changesOnly l a x3 :=
  changesOnly.peel (k := [.st, .hdr, .ctr, .gen, .parts, .store, .mem, .poison, .isles, .cores, .sigs, .clus, .rede, .tokx, .tier, .flash, .eth, .fab, .pwr, .errm, .sec, .boot, .out]) (by
    unfold stepDone
    repeat' first
      | (simp [changesOnly_foldl]; done)
      | (split <;> try first
          | (rename_i h; have h := (congrArg (fun q => q.2.2.2) h).symm; dsimp only at h; subst h)
          | (rename_i h; have h := (congrArg (fun q => q.2.2) h).symm; dsimp only at h; subst h)
          | (rename_i h; have h := (congrArg (fun q => q.2) h).symm; dsimp only at h; subst h)
          | (rename_i h _; have h := (congrArg (fun q => q.2) h).symm; dsimp only at h; subst h))
      | dsimp only
      | refine (changesOnly_foldl _ _ _ fun b x => ?_).2 ?_) hl

@[simp] theorem Dev.wakeUp_only {l : List Comp} {a : Dev} (x0 : Dev) (hl : [.st, .hdr, .ctr, .snap, .regs, .parts, .irq, .isles, .cores, .evc, .sigs, .clus, .mvec, .nwch, .opte, .rede, .tokx, .shelves, .tier, .flash, .rings, .dmae, .eth, .fab, .strm, .pwr, .errm, .sec, .boot, .out] ⊆ l) :
    changesOnly l a (Dev.wakeUp x0) ↔ changesOnly l a x0 :=
  changesOnly.peel (k := [.st, .hdr, .ctr, .snap, .regs, .parts, .irq, .isles, .cores, .evc, .sigs, .clus, .mvec, .nwch, .opte, .rede, .tokx, .shelves, .tier, .flash, .rings, .dmae, .eth, .fab, .strm, .pwr, .errm, .sec, .boot, .out]) (by
    unfold Dev.wakeUp
    repeat' first
      | (simp [changesOnly_foldl]; done)
      | (split <;> try first
          | (rename_i h; have h := (congrArg (fun q => q.2.2.2) h).symm; dsimp only at h; subst h)
          | (rename_i h; have h := (congrArg (fun q => q.2.2) h).symm; dsimp only at h; subst h)
          | (rename_i h; have h := (congrArg (fun q => q.2) h).symm; dsimp only at h; subst h)
          | (rename_i h _; have h := (congrArg (fun q => q.2) h).symm; dsimp only at h; subst h))
      | dsimp only
      | refine (changesOnly_foldl _ _ _ fun b x => ?_).2 ?_) hl

@[simp] theorem perstOn_only {l : List Comp} {a : Dev} (x0 : Dev) (hl : [.st, .hdr, .ctr, .snap, .regs, .parts, .irq, .isles, .cores, .evc, .sigs, .clus, .mvec, .nwch, .opte, .rede, .tokx, .shelves, .tier, .flash, .rings, .dmae, .eth, .fab, .strm, .pwr, .errm, .sec, .boot, .out] ⊆ l) :
    changesOnly l a (perstOn x0) ↔ changesOnly l a x0 :=
  changesOnly.peel (k := [.st, .hdr, .ctr, .snap, .regs, .parts, .irq, .isles, .cores, .evc, .sigs, .clus, .mvec, .nwch, .opte, .rede, .tokx, .shelves, .tier, .flash, .rings, .dmae, .eth, .fab, .strm, .pwr, .errm, .sec, .boot, .out]) (by
    unfold perstOn
    repeat' first
      | (simp [changesOnly_foldl]; done)
      | (split <;> try first
          | (rename_i h; have h := (congrArg (fun q => q.2.2.2) h).symm; dsimp only at h; subst h)
          | (rename_i h; have h := (congrArg (fun q => q.2.2) h).symm; dsimp only at h; subst h)
          | (rename_i h; have h := (congrArg (fun q => q.2) h).symm; dsimp only at h; subst h)
          | (rename_i h _; have h := (congrArg (fun q => q.2) h).symm; dsimp only at h; subst h))
      | dsimp only
      | refine (changesOnly_foldl _ _ _ fun b x => ?_).2 ?_) hl

@[simp] theorem perstOff_only {l : List Comp} {a : Dev} (x0 : Dev) (hl : [.st, .hdr, .ctr, .snap, .regs, .parts, .irq, .isles, .cores, .evc, .sigs, .clus, .mvec, .nwch, .opte, .rede, .tokx, .shelves, .tier, .flash, .rings, .dmae, .eth, .fab, .strm, .pwr, .errm, .sec, .boot, .out] ⊆ l) :
    changesOnly l a (perstOff x0) ↔ changesOnly l a x0 :=
  changesOnly.peel (k := [.st, .hdr, .ctr, .snap, .regs, .parts, .irq, .isles, .cores, .evc, .sigs, .clus, .mvec, .nwch, .opte, .rede, .tokx, .shelves, .tier, .flash, .rings, .dmae, .eth, .fab, .strm, .pwr, .errm, .sec, .boot, .out]) (by
    unfold perstOff
    repeat' first
      | (simp [changesOnly_foldl]; done)
      | (split <;> try first
          | (rename_i h; have h := (congrArg (fun q => q.2.2.2) h).symm; dsimp only at h; subst h)
          | (rename_i h; have h := (congrArg (fun q => q.2.2) h).symm; dsimp only at h; subst h)
          | (rename_i h; have h := (congrArg (fun q => q.2) h).symm; dsimp only at h; subst h)
          | (rename_i h _; have h := (congrArg (fun q => q.2) h).symm; dsimp only at h; subst h))
      | dsimp only
      | refine (changesOnly_foldl _ _ _ fun b x => ?_).2 ?_) hl

@[simp] theorem Dev.clearView_only {l : List Comp} {a : Dev} (x0 : Dev) (x1) (hl : [.hdr, .ctr, .snap] ⊆ l) :
    changesOnly l a (Dev.clearView x0 x1) ↔ changesOnly l a x0 :=
  changesOnly.peel (k := [.hdr, .ctr, .snap]) (by
    unfold Dev.clearView
    repeat' first
      | (simp [changesOnly_foldl]; done)
      | (split <;> try first
          | (rename_i h; have h := (congrArg (fun q => q.2.2.2) h).symm; dsimp only at h; subst h)
          | (rename_i h; have h := (congrArg (fun q => q.2.2) h).symm; dsimp only at h; subst h)
          | (rename_i h; have h := (congrArg (fun q => q.2) h).symm; dsimp only at h; subst h)
          | (rename_i h _; have h := (congrArg (fun q => q.2) h).symm; dsimp only at h; subst h))
      | dsimp only
      | refine (changesOnly_foldl _ _ _ fun b x => ?_).2 ?_) hl

@[simp] theorem pfReset_only {l : List Comp} {a : Dev} (x0 : Dev) (hl : [.hdr, .ctr, .snap, .regs, .parts, .irq, .rings] ⊆ l) :
    changesOnly l a (pfReset x0) ↔ changesOnly l a x0 :=
  changesOnly.peel (k := [.hdr, .ctr, .snap, .regs, .parts, .irq, .rings]) (by
    unfold pfReset
    repeat' first
      | (simp [changesOnly_foldl]; done)
      | (split <;> try first
          | (rename_i h; have h := (congrArg (fun q => q.2.2.2) h).symm; dsimp only at h; subst h)
          | (rename_i h; have h := (congrArg (fun q => q.2.2) h).symm; dsimp only at h; subst h)
          | (rename_i h; have h := (congrArg (fun q => q.2) h).symm; dsimp only at h; subst h)
          | (rename_i h _; have h := (congrArg (fun q => q.2) h).symm; dsimp only at h; subst h))
      | dsimp only
      | refine (changesOnly_foldl _ _ _ fun b x => ?_).2 ?_) hl

@[simp] theorem devReset_only {l : List Comp} {a : Dev} (x0) (x1) (x2 : Dev) (hl : [.st, .hdr, .ctr, .snap, .regs, .parts, .irq, .isles, .cores, .evc, .sigs, .clus, .mvec, .nwch, .opte, .rede, .tokx, .shelves, .tier, .flash, .rings, .dmae, .eth, .fab, .strm, .pwr, .errm, .sec, .boot, .out] ⊆ l) :
    changesOnly l a (devReset x0 x1 x2) ↔ changesOnly l a x2 :=
  changesOnly.peel (k := [.st, .hdr, .ctr, .snap, .regs, .parts, .irq, .isles, .cores, .evc, .sigs, .clus, .mvec, .nwch, .opte, .rede, .tokx, .shelves, .tier, .flash, .rings, .dmae, .eth, .fab, .strm, .pwr, .errm, .sec, .boot, .out]) (by
    unfold devReset
    repeat' first
      | (simp [changesOnly_foldl]; done)
      | (split <;> try first
          | (rename_i h; have h := (congrArg (fun q => q.2.2.2) h).symm; dsimp only at h; subst h)
          | (rename_i h; have h := (congrArg (fun q => q.2.2) h).symm; dsimp only at h; subst h)
          | (rename_i h; have h := (congrArg (fun q => q.2) h).symm; dsimp only at h; subst h)
          | (rename_i h _; have h := (congrArg (fun q => q.2) h).symm; dsimp only at h; subst h))
      | dsimp only
      | refine (changesOnly_foldl _ _ _ fun b x => ?_).2 ?_) hl

@[simp] theorem recoverLoad_only {l : List Comp} {a : Dev} (x0) (x1) (x2) (x3) (x4) (x5) (x6) (x7 : Dev) (hl : [.hdr, .ctr, .irq, .mem, .poison, .cores, .rings, .dmae, .sec, .out, .free] ⊆ l) :
    changesOnly l a (recoverLoad x0 x1 x2 x3 x4 x5 x6 x7) ↔ changesOnly l a x7 :=
  changesOnly.peel (k := [.hdr, .ctr, .irq, .mem, .poison, .cores, .rings, .dmae, .sec, .out, .free]) (by
    unfold recoverLoad
    repeat' first
      | (simp [changesOnly_foldl]; done)
      | (split <;> try first
          | (rename_i h; have h := (congrArg (fun q => q.2.2.2) h).symm; dsimp only at h; subst h)
          | (rename_i h; have h := (congrArg (fun q => q.2.2) h).symm; dsimp only at h; subst h)
          | (rename_i h; have h := (congrArg (fun q => q.2) h).symm; dsimp only at h; subst h)
          | (rename_i h _; have h := (congrArg (fun q => q.2) h).symm; dsimp only at h; subst h))
      | dsimp only
      | refine (changesOnly_foldl _ _ _ fun b x => ?_).2 ?_) hl

@[simp] theorem status_only {l : List Comp} {a : Dev} (x0) (x1 : Dev) (hl : [.hdr, .ctr, .irq, .rings, .out] ⊆ l) :
    changesOnly l a (status x0 x1) ↔ changesOnly l a x1 :=
  changesOnly.peel (k := [.hdr, .ctr, .irq, .rings, .out]) (by
    unfold status
    repeat' first
      | (simp [changesOnly_foldl]; done)
      | (split <;> try first
          | (rename_i h; have h := (congrArg (fun q => q.2.2.2) h).symm; dsimp only at h; subst h)
          | (rename_i h; have h := (congrArg (fun q => q.2.2) h).symm; dsimp only at h; subst h)
          | (rename_i h; have h := (congrArg (fun q => q.2) h).symm; dsimp only at h; subst h)
          | (rename_i h _; have h := (congrArg (fun q => q.2) h).symm; dsimp only at h; subst h))
      | dsimp only
      | refine (changesOnly_foldl _ _ _ fun b x => ?_).2 ?_) hl

@[simp] theorem flashRebuild_only {l : List Comp} {a : Dev} (x0) (x1) (x2 : Dev) (hl : [.hdr, .ctr, .irq, .flash, .rings, .boot, .out] ⊆ l) :
    changesOnly l a (flashRebuild x0 x1 x2) ↔ changesOnly l a x2 :=
  changesOnly.peel (k := [.hdr, .ctr, .irq, .flash, .rings, .boot, .out]) (by
    unfold flashRebuild
    repeat' first
      | (simp [changesOnly_foldl]; done)
      | (split <;> try first
          | (rename_i h; have h := (congrArg (fun q => q.2.2.2) h).symm; dsimp only at h; subst h)
          | (rename_i h; have h := (congrArg (fun q => q.2.2) h).symm; dsimp only at h; subst h)
          | (rename_i h; have h := (congrArg (fun q => q.2) h).symm; dsimp only at h; subst h)
          | (rename_i h _; have h := (congrArg (fun q => q.2) h).symm; dsimp only at h; subst h))
      | dsimp only
      | refine (changesOnly_foldl _ _ _ fun b x => ?_).2 ?_) hl

@[simp] theorem power_only {l : List Comp} {a : Dev} (x0) (x1) (x2 : Dev) (hl : [.st, .hdr, .ctr, .snap, .regs, .parts, .irq, .mem, .poison, .isles, .cores, .evc, .sigs, .clus, .mvec, .nwch, .opte, .rede, .tokx, .shelves, .tier, .flash, .rings, .dmae, .eth, .fab, .strm, .pwr, .errm, .sec, .boot, .out] ⊆ l) :
    changesOnly l a (power x0 x1 x2) ↔ changesOnly l a x2 :=
  changesOnly.peel (k := [.st, .hdr, .ctr, .snap, .regs, .parts, .irq, .mem, .poison, .isles, .cores, .evc, .sigs, .clus, .mvec, .nwch, .opte, .rede, .tokx, .shelves, .tier, .flash, .rings, .dmae, .eth, .fab, .strm, .pwr, .errm, .sec, .boot, .out]) (by
    unfold power
    repeat' first
      | (simp [changesOnly_foldl]; done)
      | (split <;> try first
          | (rename_i h; have h := (congrArg (fun q => q.2.2.2) h).symm; dsimp only at h; subst h)
          | (rename_i h; have h := (congrArg (fun q => q.2.2) h).symm; dsimp only at h; subst h)
          | (rename_i h; have h := (congrArg (fun q => q.2) h).symm; dsimp only at h; subst h)
          | (rename_i h _; have h := (congrArg (fun q => q.2) h).symm; dsimp only at h; subst h))
      | dsimp only
      | refine (changesOnly_foldl _ _ _ fun b x => ?_).2 ?_) hl

@[simp] theorem retrain_only {l : List Comp} {a : Dev} (x0) (x1) (x2) (x3 : Dev) (hl : [.ctr, .boot] ⊆ l) :
    changesOnly l a (retrain x0 x1 x2 x3) ↔ changesOnly l a x3 :=
  changesOnly.peel (k := [.ctr, .boot]) (by
    unfold retrain
    repeat' first
      | (simp [changesOnly_foldl]; done)
      | (split <;> try first
          | (rename_i h; have h := (congrArg (fun q => q.2.2.2) h).symm; dsimp only at h; subst h)
          | (rename_i h; have h := (congrArg (fun q => q.2.2) h).symm; dsimp only at h; subst h)
          | (rename_i h; have h := (congrArg (fun q => q.2) h).symm; dsimp only at h; subst h)
          | (rename_i h _; have h := (congrArg (fun q => q.2) h).symm; dsimp only at h; subst h))
      | dsimp only
      | refine (changesOnly_foldl _ _ _ fun b x => ?_).2 ?_) hl

@[simp] theorem unmask_only {l : List Comp} {a : Dev} (x0) (x1) (x2 : Dev) (hl : [.ctr, .irq, .out] ⊆ l) :
    changesOnly l a (unmask x0 x1 x2) ↔ changesOnly l a x2 :=
  changesOnly.peel (k := [.ctr, .irq, .out]) (by
    unfold unmask
    repeat' first
      | (simp [changesOnly_foldl]; done)
      | (split <;> try first
          | (rename_i h; have h := (congrArg (fun q => q.2.2.2) h).symm; dsimp only at h; subst h)
          | (rename_i h; have h := (congrArg (fun q => q.2.2) h).symm; dsimp only at h; subst h)
          | (rename_i h; have h := (congrArg (fun q => q.2) h).symm; dsimp only at h; subst h)
          | (rename_i h _; have h := (congrArg (fun q => q.2) h).symm; dsimp only at h; subst h))
      | dsimp only
      | refine (changesOnly_foldl _ _ _ fun b x => ?_).2 ?_) hl

end Sys2Proof.Machine
end

