-- ==== Sys2Proof/Laws/State.lean ====
section
/-!
SUPPORT. What each shared update of the device leaves as it was, field by field: no later proof unfolds a record
update for it.
-/

namespace Sys2Proof.Machine

/-! ### Dev.updHdr -/

section
variable (d : Dev) (v : View) (p : Page) (f : Hdr → Hdr)

@[simp] theorem Dev.updHdr_parts : (d.updHdr v p f).parts = d.parts := rfl
@[simp] theorem Dev.updHdr_store : (d.updHdr v p f).store = d.store := rfl
@[simp] theorem Dev.updHdr_irq : (d.updHdr v p f).irq = d.irq := rfl
@[simp] theorem Dev.updHdr_mem : (d.updHdr v p f).mem = d.mem := rfl
@[simp] theorem Dev.updHdr_poison : (d.updHdr v p f).poison = d.poison := rfl
@[simp] theorem Dev.updHdr_isles : (d.updHdr v p f).isles = d.isles := rfl
@[simp] theorem Dev.updHdr_cores : (d.updHdr v p f).cores = d.cores := rfl
@[simp] theorem Dev.updHdr_evc : (d.updHdr v p f).evc = d.evc := rfl
@[simp] theorem Dev.updHdr_sigs : (d.updHdr v p f).sigs = d.sigs := rfl
@[simp] theorem Dev.updHdr_clus : (d.updHdr v p f).clus = d.clus := rfl
@[simp] theorem Dev.updHdr_mvec : (d.updHdr v p f).mvec = d.mvec := rfl
@[simp] theorem Dev.updHdr_nwch : (d.updHdr v p f).nwch = d.nwch := rfl
@[simp] theorem Dev.updHdr_opte : (d.updHdr v p f).opte = d.opte := rfl
@[simp] theorem Dev.updHdr_rede : (d.updHdr v p f).rede = d.rede := rfl
@[simp] theorem Dev.updHdr_tokx : (d.updHdr v p f).tokx = d.tokx := rfl
@[simp] theorem Dev.updHdr_shelves : (d.updHdr v p f).shelves = d.shelves := rfl
@[simp] theorem Dev.updHdr_tier : (d.updHdr v p f).tier = d.tier := rfl
@[simp] theorem Dev.updHdr_flash : (d.updHdr v p f).flash = d.flash := rfl
@[simp] theorem Dev.updHdr_rings : (d.updHdr v p f).rings = d.rings := rfl
@[simp] theorem Dev.updHdr_dmae : (d.updHdr v p f).dmae = d.dmae := rfl
@[simp] theorem Dev.updHdr_eth : (d.updHdr v p f).eth = d.eth := rfl
@[simp] theorem Dev.updHdr_fab : (d.updHdr v p f).fab = d.fab := rfl
@[simp] theorem Dev.updHdr_strm : (d.updHdr v p f).strm = d.strm := rfl
@[simp] theorem Dev.updHdr_pwr : (d.updHdr v p f).pwr = d.pwr := rfl
@[simp] theorem Dev.updHdr_errm : (d.updHdr v p f).errm = d.errm := rfl
@[simp] theorem Dev.updHdr_halt : (d.updHdr v p f).halt = d.halt := rfl
@[simp] theorem Dev.updHdr_brake : (d.updHdr v p f).brake = d.brake := rfl
@[simp] theorem Dev.updHdr_sec : (d.updHdr v p f).sec = d.sec := rfl
@[simp] theorem Dev.updHdr_boot : (d.updHdr v p f).boot = d.boot := rfl
@[simp] theorem Dev.updHdr_out : (d.updHdr v p f).out = d.out := rfl
@[simp] theorem Dev.updHdr_free : (d.updHdr v p f).free = d.free := rfl
@[simp] theorem Dev.updHdr_pg_st : (d.updHdr v p f).pg.st = d.pg.st := rfl
@[simp] theorem Dev.updHdr_pg_ctr : (d.updHdr v p f).pg.ctr = d.pg.ctr := rfl
@[simp] theorem Dev.updHdr_pg_snap : (d.updHdr v p f).pg.snap = d.pg.snap := rfl
@[simp] theorem Dev.updHdr_pg_regs : (d.updHdr v p f).pg.regs = d.pg.regs := rfl
@[simp] theorem Dev.updHdr_pg_gen : (d.updHdr v p f).pg.gen = d.pg.gen := rfl

end

/-! ### Dev.evt -/

section
variable (d : Dev) (v : View) (p : Page) (m : Nat)

@[simp] theorem Dev.evt_parts : (d.evt v p m).parts = d.parts := rfl
@[simp] theorem Dev.evt_store : (d.evt v p m).store = d.store := rfl
@[simp] theorem Dev.evt_irq : (d.evt v p m).irq = d.irq := rfl
@[simp] theorem Dev.evt_mem : (d.evt v p m).mem = d.mem := rfl
@[simp] theorem Dev.evt_poison : (d.evt v p m).poison = d.poison := rfl
@[simp] theorem Dev.evt_isles : (d.evt v p m).isles = d.isles := rfl
@[simp] theorem Dev.evt_cores : (d.evt v p m).cores = d.cores := rfl
@[simp] theorem Dev.evt_evc : (d.evt v p m).evc = d.evc := rfl
@[simp] theorem Dev.evt_sigs : (d.evt v p m).sigs = d.sigs := rfl
@[simp] theorem Dev.evt_clus : (d.evt v p m).clus = d.clus := rfl
@[simp] theorem Dev.evt_mvec : (d.evt v p m).mvec = d.mvec := rfl
@[simp] theorem Dev.evt_nwch : (d.evt v p m).nwch = d.nwch := rfl
@[simp] theorem Dev.evt_opte : (d.evt v p m).opte = d.opte := rfl
@[simp] theorem Dev.evt_rede : (d.evt v p m).rede = d.rede := rfl
@[simp] theorem Dev.evt_tokx : (d.evt v p m).tokx = d.tokx := rfl
@[simp] theorem Dev.evt_shelves : (d.evt v p m).shelves = d.shelves := rfl
@[simp] theorem Dev.evt_tier : (d.evt v p m).tier = d.tier := rfl
@[simp] theorem Dev.evt_flash : (d.evt v p m).flash = d.flash := rfl
@[simp] theorem Dev.evt_rings : (d.evt v p m).rings = d.rings := rfl
@[simp] theorem Dev.evt_dmae : (d.evt v p m).dmae = d.dmae := rfl
@[simp] theorem Dev.evt_eth : (d.evt v p m).eth = d.eth := rfl
@[simp] theorem Dev.evt_fab : (d.evt v p m).fab = d.fab := rfl
@[simp] theorem Dev.evt_strm : (d.evt v p m).strm = d.strm := rfl
@[simp] theorem Dev.evt_pwr : (d.evt v p m).pwr = d.pwr := rfl
@[simp] theorem Dev.evt_errm : (d.evt v p m).errm = d.errm := rfl
@[simp] theorem Dev.evt_halt : (d.evt v p m).halt = d.halt := rfl
@[simp] theorem Dev.evt_brake : (d.evt v p m).brake = d.brake := rfl
@[simp] theorem Dev.evt_sec : (d.evt v p m).sec = d.sec := rfl
@[simp] theorem Dev.evt_boot : (d.evt v p m).boot = d.boot := rfl
@[simp] theorem Dev.evt_out : (d.evt v p m).out = d.out := rfl
@[simp] theorem Dev.evt_free : (d.evt v p m).free = d.free := rfl
@[simp] theorem Dev.evt_pg_st : (d.evt v p m).pg.st = d.pg.st := rfl
@[simp] theorem Dev.evt_pg_ctr : (d.evt v p m).pg.ctr = d.pg.ctr := rfl
@[simp] theorem Dev.evt_pg_snap : (d.evt v p m).pg.snap = d.pg.snap := rfl
@[simp] theorem Dev.evt_pg_regs : (d.evt v p m).pg.regs = d.pg.regs := rfl
@[simp] theorem Dev.evt_pg_gen : (d.evt v p m).pg.gen = d.pg.gen := rfl

end

/-! ### Dev.evtP -/

section
variable (d : Dev) (p : Page) (m : Nat) (part : Option Nat)

@[simp] theorem Dev.evtP_parts : (d.evtP p m part).parts = d.parts := by cases part <;> rfl
@[simp] theorem Dev.evtP_store : (d.evtP p m part).store = d.store := by cases part <;> rfl
@[simp] theorem Dev.evtP_irq : (d.evtP p m part).irq = d.irq := by cases part <;> rfl
@[simp] theorem Dev.evtP_mem : (d.evtP p m part).mem = d.mem := by cases part <;> rfl
@[simp] theorem Dev.evtP_poison : (d.evtP p m part).poison = d.poison := by cases part <;> rfl
@[simp] theorem Dev.evtP_isles : (d.evtP p m part).isles = d.isles := by cases part <;> rfl
@[simp] theorem Dev.evtP_cores : (d.evtP p m part).cores = d.cores := by cases part <;> rfl
@[simp] theorem Dev.evtP_evc : (d.evtP p m part).evc = d.evc := by cases part <;> rfl
@[simp] theorem Dev.evtP_sigs : (d.evtP p m part).sigs = d.sigs := by cases part <;> rfl
@[simp] theorem Dev.evtP_clus : (d.evtP p m part).clus = d.clus := by cases part <;> rfl
@[simp] theorem Dev.evtP_mvec : (d.evtP p m part).mvec = d.mvec := by cases part <;> rfl
@[simp] theorem Dev.evtP_nwch : (d.evtP p m part).nwch = d.nwch := by cases part <;> rfl
@[simp] theorem Dev.evtP_opte : (d.evtP p m part).opte = d.opte := by cases part <;> rfl
@[simp] theorem Dev.evtP_rede : (d.evtP p m part).rede = d.rede := by cases part <;> rfl
@[simp] theorem Dev.evtP_tokx : (d.evtP p m part).tokx = d.tokx := by cases part <;> rfl
@[simp] theorem Dev.evtP_shelves : (d.evtP p m part).shelves = d.shelves := by cases part <;> rfl
@[simp] theorem Dev.evtP_tier : (d.evtP p m part).tier = d.tier := by cases part <;> rfl
@[simp] theorem Dev.evtP_flash : (d.evtP p m part).flash = d.flash := by cases part <;> rfl
@[simp] theorem Dev.evtP_rings : (d.evtP p m part).rings = d.rings := by cases part <;> rfl
@[simp] theorem Dev.evtP_dmae : (d.evtP p m part).dmae = d.dmae := by cases part <;> rfl
@[simp] theorem Dev.evtP_eth : (d.evtP p m part).eth = d.eth := by cases part <;> rfl
@[simp] theorem Dev.evtP_fab : (d.evtP p m part).fab = d.fab := by cases part <;> rfl
@[simp] theorem Dev.evtP_strm : (d.evtP p m part).strm = d.strm := by cases part <;> rfl
@[simp] theorem Dev.evtP_pwr : (d.evtP p m part).pwr = d.pwr := by cases part <;> rfl
@[simp] theorem Dev.evtP_errm : (d.evtP p m part).errm = d.errm := by cases part <;> rfl
@[simp] theorem Dev.evtP_halt : (d.evtP p m part).halt = d.halt := by cases part <;> rfl
@[simp] theorem Dev.evtP_brake : (d.evtP p m part).brake = d.brake := by cases part <;> rfl
@[simp] theorem Dev.evtP_sec : (d.evtP p m part).sec = d.sec := by cases part <;> rfl
@[simp] theorem Dev.evtP_boot : (d.evtP p m part).boot = d.boot := by cases part <;> rfl
@[simp] theorem Dev.evtP_out : (d.evtP p m part).out = d.out := by cases part <;> rfl
@[simp] theorem Dev.evtP_free : (d.evtP p m part).free = d.free := by cases part <;> rfl
@[simp] theorem Dev.evtP_pg_st : (d.evtP p m part).pg.st = d.pg.st := by cases part <;> rfl
@[simp] theorem Dev.evtP_pg_ctr : (d.evtP p m part).pg.ctr = d.pg.ctr := by cases part <;> rfl
@[simp] theorem Dev.evtP_pg_snap : (d.evtP p m part).pg.snap = d.pg.snap := by cases part <;> rfl
@[simp] theorem Dev.evtP_pg_regs : (d.evtP p m part).pg.regs = d.pg.regs := by cases part <;> rfl
@[simp] theorem Dev.evtP_pg_gen : (d.evtP p m part).pg.gen = d.pg.gen := by cases part <;> rfl

end

/-! ### Dev.evtAll -/

section
variable (d : Dev) (p : Page) (m : Nat)

@[simp] theorem Dev.evtAll_parts : (d.evtAll p m).parts = d.parts :=
  List.foldlRecOn View.all _ (motive := fun (b : Dev) => b.parts = d.parts) rfl fun b hb _ _ => by simpa using hb
@[simp] theorem Dev.evtAll_store : (d.evtAll p m).store = d.store :=
  List.foldlRecOn View.all _ (motive := fun (b : Dev) => b.store = d.store) rfl fun b hb _ _ => by simpa using hb
@[simp] theorem Dev.evtAll_irq : (d.evtAll p m).irq = d.irq :=
  List.foldlRecOn View.all _ (motive := fun (b : Dev) => b.irq = d.irq) rfl fun b hb _ _ => by simpa using hb
@[simp] theorem Dev.evtAll_mem : (d.evtAll p m).mem = d.mem :=
  List.foldlRecOn View.all _ (motive := fun (b : Dev) => b.mem = d.mem) rfl fun b hb _ _ => by simpa using hb
@[simp] theorem Dev.evtAll_poison : (d.evtAll p m).poison = d.poison :=
  List.foldlRecOn View.all _ (motive := fun (b : Dev) => b.poison = d.poison) rfl fun b hb _ _ => by simpa using hb
@[simp] theorem Dev.evtAll_isles : (d.evtAll p m).isles = d.isles :=
  List.foldlRecOn View.all _ (motive := fun (b : Dev) => b.isles = d.isles) rfl fun b hb _ _ => by simpa using hb
@[simp] theorem Dev.evtAll_cores : (d.evtAll p m).cores = d.cores :=
  List.foldlRecOn View.all _ (motive := fun (b : Dev) => b.cores = d.cores) rfl fun b hb _ _ => by simpa using hb
@[simp] theorem Dev.evtAll_evc : (d.evtAll p m).evc = d.evc :=
  List.foldlRecOn View.all _ (motive := fun (b : Dev) => b.evc = d.evc) rfl fun b hb _ _ => by simpa using hb
@[simp] theorem Dev.evtAll_sigs : (d.evtAll p m).sigs = d.sigs :=
  List.foldlRecOn View.all _ (motive := fun (b : Dev) => b.sigs = d.sigs) rfl fun b hb _ _ => by simpa using hb
@[simp] theorem Dev.evtAll_clus : (d.evtAll p m).clus = d.clus :=
  List.foldlRecOn View.all _ (motive := fun (b : Dev) => b.clus = d.clus) rfl fun b hb _ _ => by simpa using hb
@[simp] theorem Dev.evtAll_mvec : (d.evtAll p m).mvec = d.mvec :=
  List.foldlRecOn View.all _ (motive := fun (b : Dev) => b.mvec = d.mvec) rfl fun b hb _ _ => by simpa using hb
@[simp] theorem Dev.evtAll_nwch : (d.evtAll p m).nwch = d.nwch :=
  List.foldlRecOn View.all _ (motive := fun (b : Dev) => b.nwch = d.nwch) rfl fun b hb _ _ => by simpa using hb
@[simp] theorem Dev.evtAll_opte : (d.evtAll p m).opte = d.opte :=
  List.foldlRecOn View.all _ (motive := fun (b : Dev) => b.opte = d.opte) rfl fun b hb _ _ => by simpa using hb
@[simp] theorem Dev.evtAll_rede : (d.evtAll p m).rede = d.rede :=
  List.foldlRecOn View.all _ (motive := fun (b : Dev) => b.rede = d.rede) rfl fun b hb _ _ => by simpa using hb
@[simp] theorem Dev.evtAll_tokx : (d.evtAll p m).tokx = d.tokx :=
  List.foldlRecOn View.all _ (motive := fun (b : Dev) => b.tokx = d.tokx) rfl fun b hb _ _ => by simpa using hb
@[simp] theorem Dev.evtAll_shelves : (d.evtAll p m).shelves = d.shelves :=
  List.foldlRecOn View.all _ (motive := fun (b : Dev) => b.shelves = d.shelves) rfl fun b hb _ _ => by simpa using hb
@[simp] theorem Dev.evtAll_tier : (d.evtAll p m).tier = d.tier :=
  List.foldlRecOn View.all _ (motive := fun (b : Dev) => b.tier = d.tier) rfl fun b hb _ _ => by simpa using hb
@[simp] theorem Dev.evtAll_flash : (d.evtAll p m).flash = d.flash :=
  List.foldlRecOn View.all _ (motive := fun (b : Dev) => b.flash = d.flash) rfl fun b hb _ _ => by simpa using hb
@[simp] theorem Dev.evtAll_rings : (d.evtAll p m).rings = d.rings :=
  List.foldlRecOn View.all _ (motive := fun (b : Dev) => b.rings = d.rings) rfl fun b hb _ _ => by simpa using hb
@[simp] theorem Dev.evtAll_dmae : (d.evtAll p m).dmae = d.dmae :=
  List.foldlRecOn View.all _ (motive := fun (b : Dev) => b.dmae = d.dmae) rfl fun b hb _ _ => by simpa using hb
@[simp] theorem Dev.evtAll_eth : (d.evtAll p m).eth = d.eth :=
  List.foldlRecOn View.all _ (motive := fun (b : Dev) => b.eth = d.eth) rfl fun b hb _ _ => by simpa using hb
@[simp] theorem Dev.evtAll_fab : (d.evtAll p m).fab = d.fab :=
  List.foldlRecOn View.all _ (motive := fun (b : Dev) => b.fab = d.fab) rfl fun b hb _ _ => by simpa using hb
@[simp] theorem Dev.evtAll_strm : (d.evtAll p m).strm = d.strm :=
  List.foldlRecOn View.all _ (motive := fun (b : Dev) => b.strm = d.strm) rfl fun b hb _ _ => by simpa using hb
@[simp] theorem Dev.evtAll_pwr : (d.evtAll p m).pwr = d.pwr :=
  List.foldlRecOn View.all _ (motive := fun (b : Dev) => b.pwr = d.pwr) rfl fun b hb _ _ => by simpa using hb
@[simp] theorem Dev.evtAll_errm : (d.evtAll p m).errm = d.errm :=
  List.foldlRecOn View.all _ (motive := fun (b : Dev) => b.errm = d.errm) rfl fun b hb _ _ => by simpa using hb
@[simp] theorem Dev.evtAll_halt : (d.evtAll p m).halt = d.halt :=
  List.foldlRecOn View.all _ (motive := fun (b : Dev) => b.halt = d.halt) rfl fun b hb _ _ => by simpa using hb
@[simp] theorem Dev.evtAll_brake : (d.evtAll p m).brake = d.brake :=
  List.foldlRecOn View.all _ (motive := fun (b : Dev) => b.brake = d.brake) rfl fun b hb _ _ => by simpa using hb
@[simp] theorem Dev.evtAll_sec : (d.evtAll p m).sec = d.sec :=
  List.foldlRecOn View.all _ (motive := fun (b : Dev) => b.sec = d.sec) rfl fun b hb _ _ => by simpa using hb
@[simp] theorem Dev.evtAll_boot : (d.evtAll p m).boot = d.boot :=
  List.foldlRecOn View.all _ (motive := fun (b : Dev) => b.boot = d.boot) rfl fun b hb _ _ => by simpa using hb
@[simp] theorem Dev.evtAll_out : (d.evtAll p m).out = d.out :=
  List.foldlRecOn View.all _ (motive := fun (b : Dev) => b.out = d.out) rfl fun b hb _ _ => by simpa using hb
@[simp] theorem Dev.evtAll_free : (d.evtAll p m).free = d.free :=
  List.foldlRecOn View.all _ (motive := fun (b : Dev) => b.free = d.free) rfl fun b hb _ _ => by simpa using hb
@[simp] theorem Dev.evtAll_pg_st : (d.evtAll p m).pg.st = d.pg.st :=
  List.foldlRecOn View.all _ (motive := fun (b : Dev) => b.pg.st = d.pg.st) rfl fun b hb _ _ => by simpa using hb
@[simp] theorem Dev.evtAll_pg_ctr : (d.evtAll p m).pg.ctr = d.pg.ctr :=
  List.foldlRecOn View.all _ (motive := fun (b : Dev) => b.pg.ctr = d.pg.ctr) rfl fun b hb _ _ => by simpa using hb
@[simp] theorem Dev.evtAll_pg_snap : (d.evtAll p m).pg.snap = d.pg.snap :=
  List.foldlRecOn View.all _ (motive := fun (b : Dev) => b.pg.snap = d.pg.snap) rfl fun b hb _ _ => by simpa using hb
@[simp] theorem Dev.evtAll_pg_regs : (d.evtAll p m).pg.regs = d.pg.regs :=
  List.foldlRecOn View.all _ (motive := fun (b : Dev) => b.pg.regs = d.pg.regs) rfl fun b hb _ _ => by simpa using hb
@[simp] theorem Dev.evtAll_pg_gen : (d.evtAll p m).pg.gen = d.pg.gen :=
  List.foldlRecOn View.all _ (motive := fun (b : Dev) => b.pg.gen = d.pg.gen) rfl fun b hb _ _ => by simpa using hb

end

/-! ### Dev.err -/

section
variable (d : Dev) (v : View) (p : Page) (code : Nat)

@[simp] theorem Dev.err_parts : (d.err v p code).parts = d.parts := rfl
@[simp] theorem Dev.err_store : (d.err v p code).store = d.store := rfl
@[simp] theorem Dev.err_irq : (d.err v p code).irq = d.irq := rfl
@[simp] theorem Dev.err_mem : (d.err v p code).mem = d.mem := rfl
@[simp] theorem Dev.err_poison : (d.err v p code).poison = d.poison := rfl
@[simp] theorem Dev.err_isles : (d.err v p code).isles = d.isles := rfl
@[simp] theorem Dev.err_cores : (d.err v p code).cores = d.cores := rfl
@[simp] theorem Dev.err_evc : (d.err v p code).evc = d.evc := rfl
@[simp] theorem Dev.err_sigs : (d.err v p code).sigs = d.sigs := rfl
@[simp] theorem Dev.err_clus : (d.err v p code).clus = d.clus := rfl
@[simp] theorem Dev.err_mvec : (d.err v p code).mvec = d.mvec := rfl
@[simp] theorem Dev.err_nwch : (d.err v p code).nwch = d.nwch := rfl
@[simp] theorem Dev.err_opte : (d.err v p code).opte = d.opte := rfl
@[simp] theorem Dev.err_rede : (d.err v p code).rede = d.rede := rfl
@[simp] theorem Dev.err_tokx : (d.err v p code).tokx = d.tokx := rfl
@[simp] theorem Dev.err_shelves : (d.err v p code).shelves = d.shelves := rfl
@[simp] theorem Dev.err_tier : (d.err v p code).tier = d.tier := rfl
@[simp] theorem Dev.err_flash : (d.err v p code).flash = d.flash := rfl
@[simp] theorem Dev.err_rings : (d.err v p code).rings = d.rings := rfl
@[simp] theorem Dev.err_dmae : (d.err v p code).dmae = d.dmae := rfl
@[simp] theorem Dev.err_eth : (d.err v p code).eth = d.eth := rfl
@[simp] theorem Dev.err_fab : (d.err v p code).fab = d.fab := rfl
@[simp] theorem Dev.err_strm : (d.err v p code).strm = d.strm := rfl
@[simp] theorem Dev.err_pwr : (d.err v p code).pwr = d.pwr := rfl
@[simp] theorem Dev.err_errm : (d.err v p code).errm = d.errm := rfl
@[simp] theorem Dev.err_halt : (d.err v p code).halt = d.halt := rfl
@[simp] theorem Dev.err_brake : (d.err v p code).brake = d.brake := rfl
@[simp] theorem Dev.err_sec : (d.err v p code).sec = d.sec := rfl
@[simp] theorem Dev.err_boot : (d.err v p code).boot = d.boot := rfl
@[simp] theorem Dev.err_out : (d.err v p code).out = d.out := rfl
@[simp] theorem Dev.err_free : (d.err v p code).free = d.free := rfl
@[simp] theorem Dev.err_pg_st : (d.err v p code).pg.st = d.pg.st := rfl
@[simp] theorem Dev.err_pg_ctr : (d.err v p code).pg.ctr = d.pg.ctr := rfl
@[simp] theorem Dev.err_pg_snap : (d.err v p code).pg.snap = d.pg.snap := rfl
@[simp] theorem Dev.err_pg_regs : (d.err v p code).pg.regs = d.pg.regs := rfl
@[simp] theorem Dev.err_pg_gen : (d.err v p code).pg.gen = d.pg.gen := rfl

end

/-! ### Dev.errP -/

section
variable (d : Dev) (p : Page) (code : Nat) (part : Option Nat)

@[simp] theorem Dev.errP_parts : (d.errP p code part).parts = d.parts := by cases part <;> rfl
@[simp] theorem Dev.errP_store : (d.errP p code part).store = d.store := by cases part <;> rfl
@[simp] theorem Dev.errP_irq : (d.errP p code part).irq = d.irq := by cases part <;> rfl
@[simp] theorem Dev.errP_mem : (d.errP p code part).mem = d.mem := by cases part <;> rfl
@[simp] theorem Dev.errP_poison : (d.errP p code part).poison = d.poison := by cases part <;> rfl
@[simp] theorem Dev.errP_isles : (d.errP p code part).isles = d.isles := by cases part <;> rfl
@[simp] theorem Dev.errP_cores : (d.errP p code part).cores = d.cores := by cases part <;> rfl
@[simp] theorem Dev.errP_evc : (d.errP p code part).evc = d.evc := by cases part <;> rfl
@[simp] theorem Dev.errP_sigs : (d.errP p code part).sigs = d.sigs := by cases part <;> rfl
@[simp] theorem Dev.errP_clus : (d.errP p code part).clus = d.clus := by cases part <;> rfl
@[simp] theorem Dev.errP_mvec : (d.errP p code part).mvec = d.mvec := by cases part <;> rfl
@[simp] theorem Dev.errP_nwch : (d.errP p code part).nwch = d.nwch := by cases part <;> rfl
@[simp] theorem Dev.errP_opte : (d.errP p code part).opte = d.opte := by cases part <;> rfl
@[simp] theorem Dev.errP_rede : (d.errP p code part).rede = d.rede := by cases part <;> rfl
@[simp] theorem Dev.errP_tokx : (d.errP p code part).tokx = d.tokx := by cases part <;> rfl
@[simp] theorem Dev.errP_shelves : (d.errP p code part).shelves = d.shelves := by cases part <;> rfl
@[simp] theorem Dev.errP_tier : (d.errP p code part).tier = d.tier := by cases part <;> rfl
@[simp] theorem Dev.errP_flash : (d.errP p code part).flash = d.flash := by cases part <;> rfl
@[simp] theorem Dev.errP_rings : (d.errP p code part).rings = d.rings := by cases part <;> rfl
@[simp] theorem Dev.errP_dmae : (d.errP p code part).dmae = d.dmae := by cases part <;> rfl
@[simp] theorem Dev.errP_eth : (d.errP p code part).eth = d.eth := by cases part <;> rfl
@[simp] theorem Dev.errP_fab : (d.errP p code part).fab = d.fab := by cases part <;> rfl
@[simp] theorem Dev.errP_strm : (d.errP p code part).strm = d.strm := by cases part <;> rfl
@[simp] theorem Dev.errP_pwr : (d.errP p code part).pwr = d.pwr := by cases part <;> rfl
@[simp] theorem Dev.errP_errm : (d.errP p code part).errm = d.errm := by cases part <;> rfl
@[simp] theorem Dev.errP_halt : (d.errP p code part).halt = d.halt := by cases part <;> rfl
@[simp] theorem Dev.errP_brake : (d.errP p code part).brake = d.brake := by cases part <;> rfl
@[simp] theorem Dev.errP_sec : (d.errP p code part).sec = d.sec := by cases part <;> rfl
@[simp] theorem Dev.errP_boot : (d.errP p code part).boot = d.boot := by cases part <;> rfl
@[simp] theorem Dev.errP_out : (d.errP p code part).out = d.out := by cases part <;> rfl
@[simp] theorem Dev.errP_free : (d.errP p code part).free = d.free := by cases part <;> rfl
@[simp] theorem Dev.errP_pg_st : (d.errP p code part).pg.st = d.pg.st := by cases part <;> rfl
@[simp] theorem Dev.errP_pg_ctr : (d.errP p code part).pg.ctr = d.pg.ctr := by cases part <;> rfl
@[simp] theorem Dev.errP_pg_snap : (d.errP p code part).pg.snap = d.pg.snap := by cases part <;> rfl
@[simp] theorem Dev.errP_pg_regs : (d.errP p code part).pg.regs = d.pg.regs := by cases part <;> rfl
@[simp] theorem Dev.errP_pg_gen : (d.errP p code part).pg.gen = d.pg.gen := by cases part <;> rfl

end

/-! ### Dev.cnt -/

section
variable (d : Dev) (v : View) (p : Page) (n k : Nat)

@[simp] theorem Dev.cnt_parts : (d.cnt v p n k).parts = d.parts := rfl
@[simp] theorem Dev.cnt_store : (d.cnt v p n k).store = d.store := rfl
@[simp] theorem Dev.cnt_irq : (d.cnt v p n k).irq = d.irq := rfl
@[simp] theorem Dev.cnt_mem : (d.cnt v p n k).mem = d.mem := rfl
@[simp] theorem Dev.cnt_poison : (d.cnt v p n k).poison = d.poison := rfl
@[simp] theorem Dev.cnt_isles : (d.cnt v p n k).isles = d.isles := rfl
@[simp] theorem Dev.cnt_cores : (d.cnt v p n k).cores = d.cores := rfl
@[simp] theorem Dev.cnt_evc : (d.cnt v p n k).evc = d.evc := rfl
@[simp] theorem Dev.cnt_sigs : (d.cnt v p n k).sigs = d.sigs := rfl
@[simp] theorem Dev.cnt_clus : (d.cnt v p n k).clus = d.clus := rfl
@[simp] theorem Dev.cnt_mvec : (d.cnt v p n k).mvec = d.mvec := rfl
@[simp] theorem Dev.cnt_nwch : (d.cnt v p n k).nwch = d.nwch := rfl
@[simp] theorem Dev.cnt_opte : (d.cnt v p n k).opte = d.opte := rfl
@[simp] theorem Dev.cnt_rede : (d.cnt v p n k).rede = d.rede := rfl
@[simp] theorem Dev.cnt_tokx : (d.cnt v p n k).tokx = d.tokx := rfl
@[simp] theorem Dev.cnt_shelves : (d.cnt v p n k).shelves = d.shelves := rfl
@[simp] theorem Dev.cnt_tier : (d.cnt v p n k).tier = d.tier := rfl
@[simp] theorem Dev.cnt_flash : (d.cnt v p n k).flash = d.flash := rfl
@[simp] theorem Dev.cnt_rings : (d.cnt v p n k).rings = d.rings := rfl
@[simp] theorem Dev.cnt_dmae : (d.cnt v p n k).dmae = d.dmae := rfl
@[simp] theorem Dev.cnt_eth : (d.cnt v p n k).eth = d.eth := rfl
@[simp] theorem Dev.cnt_fab : (d.cnt v p n k).fab = d.fab := rfl
@[simp] theorem Dev.cnt_strm : (d.cnt v p n k).strm = d.strm := rfl
@[simp] theorem Dev.cnt_pwr : (d.cnt v p n k).pwr = d.pwr := rfl
@[simp] theorem Dev.cnt_errm : (d.cnt v p n k).errm = d.errm := rfl
@[simp] theorem Dev.cnt_halt : (d.cnt v p n k).halt = d.halt := rfl
@[simp] theorem Dev.cnt_brake : (d.cnt v p n k).brake = d.brake := rfl
@[simp] theorem Dev.cnt_sec : (d.cnt v p n k).sec = d.sec := rfl
@[simp] theorem Dev.cnt_boot : (d.cnt v p n k).boot = d.boot := rfl
@[simp] theorem Dev.cnt_out : (d.cnt v p n k).out = d.out := rfl
@[simp] theorem Dev.cnt_free : (d.cnt v p n k).free = d.free := rfl
@[simp] theorem Dev.cnt_pg_st : (d.cnt v p n k).pg.st = d.pg.st := rfl
@[simp] theorem Dev.cnt_pg_hdr : (d.cnt v p n k).pg.hdr = d.pg.hdr := rfl
@[simp] theorem Dev.cnt_pg_snap : (d.cnt v p n k).pg.snap = d.pg.snap := rfl
@[simp] theorem Dev.cnt_pg_regs : (d.cnt v p n k).pg.regs = d.pg.regs := rfl
@[simp] theorem Dev.cnt_pg_gen : (d.cnt v p n k).pg.gen = d.pg.gen := rfl

end

/-! ### Dev.cntP -/

section
variable (d : Dev) (p : Page) (n k : Nat) (part : Option Nat)

@[simp] theorem Dev.cntP_parts : (d.cntP p n k part).parts = d.parts := by cases part <;> rfl
@[simp] theorem Dev.cntP_store : (d.cntP p n k part).store = d.store := by cases part <;> rfl
@[simp] theorem Dev.cntP_irq : (d.cntP p n k part).irq = d.irq := by cases part <;> rfl
@[simp] theorem Dev.cntP_mem : (d.cntP p n k part).mem = d.mem := by cases part <;> rfl
@[simp] theorem Dev.cntP_poison : (d.cntP p n k part).poison = d.poison := by cases part <;> rfl
@[simp] theorem Dev.cntP_isles : (d.cntP p n k part).isles = d.isles := by cases part <;> rfl
@[simp] theorem Dev.cntP_cores : (d.cntP p n k part).cores = d.cores := by cases part <;> rfl
@[simp] theorem Dev.cntP_evc : (d.cntP p n k part).evc = d.evc := by cases part <;> rfl
@[simp] theorem Dev.cntP_sigs : (d.cntP p n k part).sigs = d.sigs := by cases part <;> rfl
@[simp] theorem Dev.cntP_clus : (d.cntP p n k part).clus = d.clus := by cases part <;> rfl
@[simp] theorem Dev.cntP_mvec : (d.cntP p n k part).mvec = d.mvec := by cases part <;> rfl
@[simp] theorem Dev.cntP_nwch : (d.cntP p n k part).nwch = d.nwch := by cases part <;> rfl
@[simp] theorem Dev.cntP_opte : (d.cntP p n k part).opte = d.opte := by cases part <;> rfl
@[simp] theorem Dev.cntP_rede : (d.cntP p n k part).rede = d.rede := by cases part <;> rfl
@[simp] theorem Dev.cntP_tokx : (d.cntP p n k part).tokx = d.tokx := by cases part <;> rfl
@[simp] theorem Dev.cntP_shelves : (d.cntP p n k part).shelves = d.shelves := by cases part <;> rfl
@[simp] theorem Dev.cntP_tier : (d.cntP p n k part).tier = d.tier := by cases part <;> rfl
@[simp] theorem Dev.cntP_flash : (d.cntP p n k part).flash = d.flash := by cases part <;> rfl
@[simp] theorem Dev.cntP_rings : (d.cntP p n k part).rings = d.rings := by cases part <;> rfl
@[simp] theorem Dev.cntP_dmae : (d.cntP p n k part).dmae = d.dmae := by cases part <;> rfl
@[simp] theorem Dev.cntP_eth : (d.cntP p n k part).eth = d.eth := by cases part <;> rfl
@[simp] theorem Dev.cntP_fab : (d.cntP p n k part).fab = d.fab := by cases part <;> rfl
@[simp] theorem Dev.cntP_strm : (d.cntP p n k part).strm = d.strm := by cases part <;> rfl
@[simp] theorem Dev.cntP_pwr : (d.cntP p n k part).pwr = d.pwr := by cases part <;> rfl
@[simp] theorem Dev.cntP_errm : (d.cntP p n k part).errm = d.errm := by cases part <;> rfl
@[simp] theorem Dev.cntP_halt : (d.cntP p n k part).halt = d.halt := by cases part <;> rfl
@[simp] theorem Dev.cntP_brake : (d.cntP p n k part).brake = d.brake := by cases part <;> rfl
@[simp] theorem Dev.cntP_sec : (d.cntP p n k part).sec = d.sec := by cases part <;> rfl
@[simp] theorem Dev.cntP_boot : (d.cntP p n k part).boot = d.boot := by cases part <;> rfl
@[simp] theorem Dev.cntP_out : (d.cntP p n k part).out = d.out := by cases part <;> rfl
@[simp] theorem Dev.cntP_free : (d.cntP p n k part).free = d.free := by cases part <;> rfl
@[simp] theorem Dev.cntP_pg_st : (d.cntP p n k part).pg.st = d.pg.st := by cases part <;> rfl
@[simp] theorem Dev.cntP_pg_hdr : (d.cntP p n k part).pg.hdr = d.pg.hdr := by cases part <;> rfl
@[simp] theorem Dev.cntP_pg_snap : (d.cntP p n k part).pg.snap = d.pg.snap := by cases part <;> rfl
@[simp] theorem Dev.cntP_pg_regs : (d.cntP p n k part).pg.regs = d.pg.regs := by cases part <;> rfl
@[simp] theorem Dev.cntP_pg_gen : (d.cntP p n k part).pg.gen = d.pg.gen := by cases part <;> rfl

end

/-! ### Dev.setRegAt -/

section
variable (d : Dev) (p : Page) (sc off : Nat) (w : Word)

@[simp] theorem Dev.setRegAt_parts : (d.setRegAt p sc off w).parts = d.parts := rfl
@[simp] theorem Dev.setRegAt_store : (d.setRegAt p sc off w).store = d.store := rfl
@[simp] theorem Dev.setRegAt_irq : (d.setRegAt p sc off w).irq = d.irq := rfl
@[simp] theorem Dev.setRegAt_mem : (d.setRegAt p sc off w).mem = d.mem := rfl
@[simp] theorem Dev.setRegAt_poison : (d.setRegAt p sc off w).poison = d.poison := rfl
@[simp] theorem Dev.setRegAt_isles : (d.setRegAt p sc off w).isles = d.isles := rfl
@[simp] theorem Dev.setRegAt_cores : (d.setRegAt p sc off w).cores = d.cores := rfl
@[simp] theorem Dev.setRegAt_evc : (d.setRegAt p sc off w).evc = d.evc := rfl
@[simp] theorem Dev.setRegAt_sigs : (d.setRegAt p sc off w).sigs = d.sigs := rfl
@[simp] theorem Dev.setRegAt_clus : (d.setRegAt p sc off w).clus = d.clus := rfl
@[simp] theorem Dev.setRegAt_mvec : (d.setRegAt p sc off w).mvec = d.mvec := rfl
@[simp] theorem Dev.setRegAt_nwch : (d.setRegAt p sc off w).nwch = d.nwch := rfl
@[simp] theorem Dev.setRegAt_opte : (d.setRegAt p sc off w).opte = d.opte := rfl
@[simp] theorem Dev.setRegAt_rede : (d.setRegAt p sc off w).rede = d.rede := rfl
@[simp] theorem Dev.setRegAt_tokx : (d.setRegAt p sc off w).tokx = d.tokx := rfl
@[simp] theorem Dev.setRegAt_shelves : (d.setRegAt p sc off w).shelves = d.shelves := rfl
@[simp] theorem Dev.setRegAt_tier : (d.setRegAt p sc off w).tier = d.tier := rfl
@[simp] theorem Dev.setRegAt_flash : (d.setRegAt p sc off w).flash = d.flash := rfl
@[simp] theorem Dev.setRegAt_rings : (d.setRegAt p sc off w).rings = d.rings := rfl
@[simp] theorem Dev.setRegAt_dmae : (d.setRegAt p sc off w).dmae = d.dmae := rfl
@[simp] theorem Dev.setRegAt_eth : (d.setRegAt p sc off w).eth = d.eth := rfl
@[simp] theorem Dev.setRegAt_fab : (d.setRegAt p sc off w).fab = d.fab := rfl
@[simp] theorem Dev.setRegAt_strm : (d.setRegAt p sc off w).strm = d.strm := rfl
@[simp] theorem Dev.setRegAt_pwr : (d.setRegAt p sc off w).pwr = d.pwr := rfl
@[simp] theorem Dev.setRegAt_errm : (d.setRegAt p sc off w).errm = d.errm := rfl
@[simp] theorem Dev.setRegAt_halt : (d.setRegAt p sc off w).halt = d.halt := rfl
@[simp] theorem Dev.setRegAt_brake : (d.setRegAt p sc off w).brake = d.brake := rfl
@[simp] theorem Dev.setRegAt_sec : (d.setRegAt p sc off w).sec = d.sec := rfl
@[simp] theorem Dev.setRegAt_boot : (d.setRegAt p sc off w).boot = d.boot := rfl
@[simp] theorem Dev.setRegAt_out : (d.setRegAt p sc off w).out = d.out := rfl
@[simp] theorem Dev.setRegAt_free : (d.setRegAt p sc off w).free = d.free := rfl
@[simp] theorem Dev.setRegAt_pg_st : (d.setRegAt p sc off w).pg.st = d.pg.st := rfl
@[simp] theorem Dev.setRegAt_pg_hdr : (d.setRegAt p sc off w).pg.hdr = d.pg.hdr := rfl
@[simp] theorem Dev.setRegAt_pg_ctr : (d.setRegAt p sc off w).pg.ctr = d.pg.ctr := rfl
@[simp] theorem Dev.setRegAt_pg_snap : (d.setRegAt p sc off w).pg.snap = d.pg.snap := rfl
@[simp] theorem Dev.setRegAt_pg_gen : (d.setRegAt p sc off w).pg.gen = d.pg.gen := rfl

end

/-! ### Dev.setReg -/

section
variable (d : Dev) (p : Page) (off x : Nat)

@[simp] theorem Dev.setReg_parts : (d.setReg p off x).parts = d.parts := rfl
@[simp] theorem Dev.setReg_store : (d.setReg p off x).store = d.store := rfl
@[simp] theorem Dev.setReg_irq : (d.setReg p off x).irq = d.irq := rfl
@[simp] theorem Dev.setReg_mem : (d.setReg p off x).mem = d.mem := rfl
@[simp] theorem Dev.setReg_poison : (d.setReg p off x).poison = d.poison := rfl
@[simp] theorem Dev.setReg_isles : (d.setReg p off x).isles = d.isles := rfl
@[simp] theorem Dev.setReg_cores : (d.setReg p off x).cores = d.cores := rfl
@[simp] theorem Dev.setReg_evc : (d.setReg p off x).evc = d.evc := rfl
@[simp] theorem Dev.setReg_sigs : (d.setReg p off x).sigs = d.sigs := rfl
@[simp] theorem Dev.setReg_clus : (d.setReg p off x).clus = d.clus := rfl
@[simp] theorem Dev.setReg_mvec : (d.setReg p off x).mvec = d.mvec := rfl
@[simp] theorem Dev.setReg_nwch : (d.setReg p off x).nwch = d.nwch := rfl
@[simp] theorem Dev.setReg_opte : (d.setReg p off x).opte = d.opte := rfl
@[simp] theorem Dev.setReg_rede : (d.setReg p off x).rede = d.rede := rfl
@[simp] theorem Dev.setReg_tokx : (d.setReg p off x).tokx = d.tokx := rfl
@[simp] theorem Dev.setReg_shelves : (d.setReg p off x).shelves = d.shelves := rfl
@[simp] theorem Dev.setReg_tier : (d.setReg p off x).tier = d.tier := rfl
@[simp] theorem Dev.setReg_flash : (d.setReg p off x).flash = d.flash := rfl
@[simp] theorem Dev.setReg_rings : (d.setReg p off x).rings = d.rings := rfl
@[simp] theorem Dev.setReg_dmae : (d.setReg p off x).dmae = d.dmae := rfl
@[simp] theorem Dev.setReg_eth : (d.setReg p off x).eth = d.eth := rfl
@[simp] theorem Dev.setReg_fab : (d.setReg p off x).fab = d.fab := rfl
@[simp] theorem Dev.setReg_strm : (d.setReg p off x).strm = d.strm := rfl
@[simp] theorem Dev.setReg_pwr : (d.setReg p off x).pwr = d.pwr := rfl
@[simp] theorem Dev.setReg_errm : (d.setReg p off x).errm = d.errm := rfl
@[simp] theorem Dev.setReg_halt : (d.setReg p off x).halt = d.halt := rfl
@[simp] theorem Dev.setReg_brake : (d.setReg p off x).brake = d.brake := rfl
@[simp] theorem Dev.setReg_sec : (d.setReg p off x).sec = d.sec := rfl
@[simp] theorem Dev.setReg_boot : (d.setReg p off x).boot = d.boot := rfl
@[simp] theorem Dev.setReg_out : (d.setReg p off x).out = d.out := rfl
@[simp] theorem Dev.setReg_free : (d.setReg p off x).free = d.free := rfl
@[simp] theorem Dev.setReg_pg_st : (d.setReg p off x).pg.st = d.pg.st := rfl
@[simp] theorem Dev.setReg_pg_hdr : (d.setReg p off x).pg.hdr = d.pg.hdr := rfl
@[simp] theorem Dev.setReg_pg_ctr : (d.setReg p off x).pg.ctr = d.pg.ctr := rfl
@[simp] theorem Dev.setReg_pg_snap : (d.setReg p off x).pg.snap = d.pg.snap := rfl
@[simp] theorem Dev.setReg_pg_gen : (d.setReg p off x).pg.gen = d.pg.gen := rfl

end

/-! ### Dev.setRegP -/

section
variable (d : Dev) (p : Page) (n off x : Nat)

@[simp] theorem Dev.setRegP_parts : (d.setRegP p n off x).parts = d.parts := rfl
@[simp] theorem Dev.setRegP_store : (d.setRegP p n off x).store = d.store := rfl
@[simp] theorem Dev.setRegP_irq : (d.setRegP p n off x).irq = d.irq := rfl
@[simp] theorem Dev.setRegP_mem : (d.setRegP p n off x).mem = d.mem := rfl
@[simp] theorem Dev.setRegP_poison : (d.setRegP p n off x).poison = d.poison := rfl
@[simp] theorem Dev.setRegP_isles : (d.setRegP p n off x).isles = d.isles := rfl
@[simp] theorem Dev.setRegP_cores : (d.setRegP p n off x).cores = d.cores := rfl
@[simp] theorem Dev.setRegP_evc : (d.setRegP p n off x).evc = d.evc := rfl
@[simp] theorem Dev.setRegP_sigs : (d.setRegP p n off x).sigs = d.sigs := rfl
@[simp] theorem Dev.setRegP_clus : (d.setRegP p n off x).clus = d.clus := rfl
@[simp] theorem Dev.setRegP_mvec : (d.setRegP p n off x).mvec = d.mvec := rfl
@[simp] theorem Dev.setRegP_nwch : (d.setRegP p n off x).nwch = d.nwch := rfl
@[simp] theorem Dev.setRegP_opte : (d.setRegP p n off x).opte = d.opte := rfl
@[simp] theorem Dev.setRegP_rede : (d.setRegP p n off x).rede = d.rede := rfl
@[simp] theorem Dev.setRegP_tokx : (d.setRegP p n off x).tokx = d.tokx := rfl
@[simp] theorem Dev.setRegP_shelves : (d.setRegP p n off x).shelves = d.shelves := rfl
@[simp] theorem Dev.setRegP_tier : (d.setRegP p n off x).tier = d.tier := rfl
@[simp] theorem Dev.setRegP_flash : (d.setRegP p n off x).flash = d.flash := rfl
@[simp] theorem Dev.setRegP_rings : (d.setRegP p n off x).rings = d.rings := rfl
@[simp] theorem Dev.setRegP_dmae : (d.setRegP p n off x).dmae = d.dmae := rfl
@[simp] theorem Dev.setRegP_eth : (d.setRegP p n off x).eth = d.eth := rfl
@[simp] theorem Dev.setRegP_fab : (d.setRegP p n off x).fab = d.fab := rfl
@[simp] theorem Dev.setRegP_strm : (d.setRegP p n off x).strm = d.strm := rfl
@[simp] theorem Dev.setRegP_pwr : (d.setRegP p n off x).pwr = d.pwr := rfl
@[simp] theorem Dev.setRegP_errm : (d.setRegP p n off x).errm = d.errm := rfl
@[simp] theorem Dev.setRegP_halt : (d.setRegP p n off x).halt = d.halt := rfl
@[simp] theorem Dev.setRegP_brake : (d.setRegP p n off x).brake = d.brake := rfl
@[simp] theorem Dev.setRegP_sec : (d.setRegP p n off x).sec = d.sec := rfl
@[simp] theorem Dev.setRegP_boot : (d.setRegP p n off x).boot = d.boot := rfl
@[simp] theorem Dev.setRegP_out : (d.setRegP p n off x).out = d.out := rfl
@[simp] theorem Dev.setRegP_free : (d.setRegP p n off x).free = d.free := rfl
@[simp] theorem Dev.setRegP_pg_st : (d.setRegP p n off x).pg.st = d.pg.st := rfl
@[simp] theorem Dev.setRegP_pg_hdr : (d.setRegP p n off x).pg.hdr = d.pg.hdr := rfl
@[simp] theorem Dev.setRegP_pg_ctr : (d.setRegP p n off x).pg.ctr = d.pg.ctr := rfl
@[simp] theorem Dev.setRegP_pg_snap : (d.setRegP p n off x).pg.snap = d.pg.snap := rfl
@[simp] theorem Dev.setRegP_pg_gen : (d.setRegP p n off x).pg.gen = d.pg.gen := rfl

end

/-! ### Dev.wrReg -/

section
variable (d : Dev) (v : View) (p : Page) (off : Nat) (w : Word)

@[simp] theorem Dev.wrReg_parts : (d.wrReg v p off w).parts = d.parts := by unfold Dev.wrReg; split <;> rfl
@[simp] theorem Dev.wrReg_store : (d.wrReg v p off w).store = d.store := by unfold Dev.wrReg; split <;> rfl
@[simp] theorem Dev.wrReg_irq : (d.wrReg v p off w).irq = d.irq := by unfold Dev.wrReg; split <;> rfl
@[simp] theorem Dev.wrReg_mem : (d.wrReg v p off w).mem = d.mem := by unfold Dev.wrReg; split <;> rfl
@[simp] theorem Dev.wrReg_poison : (d.wrReg v p off w).poison = d.poison := by unfold Dev.wrReg; split <;> rfl
@[simp] theorem Dev.wrReg_isles : (d.wrReg v p off w).isles = d.isles := by unfold Dev.wrReg; split <;> rfl
@[simp] theorem Dev.wrReg_cores : (d.wrReg v p off w).cores = d.cores := by unfold Dev.wrReg; split <;> rfl
@[simp] theorem Dev.wrReg_evc : (d.wrReg v p off w).evc = d.evc := by unfold Dev.wrReg; split <;> rfl
@[simp] theorem Dev.wrReg_sigs : (d.wrReg v p off w).sigs = d.sigs := by unfold Dev.wrReg; split <;> rfl
@[simp] theorem Dev.wrReg_clus : (d.wrReg v p off w).clus = d.clus := by unfold Dev.wrReg; split <;> rfl
@[simp] theorem Dev.wrReg_mvec : (d.wrReg v p off w).mvec = d.mvec := by unfold Dev.wrReg; split <;> rfl
@[simp] theorem Dev.wrReg_nwch : (d.wrReg v p off w).nwch = d.nwch := by unfold Dev.wrReg; split <;> rfl
@[simp] theorem Dev.wrReg_opte : (d.wrReg v p off w).opte = d.opte := by unfold Dev.wrReg; split <;> rfl
@[simp] theorem Dev.wrReg_rede : (d.wrReg v p off w).rede = d.rede := by unfold Dev.wrReg; split <;> rfl
@[simp] theorem Dev.wrReg_tokx : (d.wrReg v p off w).tokx = d.tokx := by unfold Dev.wrReg; split <;> rfl
@[simp] theorem Dev.wrReg_shelves : (d.wrReg v p off w).shelves = d.shelves := by unfold Dev.wrReg; split <;> rfl
@[simp] theorem Dev.wrReg_tier : (d.wrReg v p off w).tier = d.tier := by unfold Dev.wrReg; split <;> rfl
@[simp] theorem Dev.wrReg_flash : (d.wrReg v p off w).flash = d.flash := by unfold Dev.wrReg; split <;> rfl
@[simp] theorem Dev.wrReg_rings : (d.wrReg v p off w).rings = d.rings := by unfold Dev.wrReg; split <;> rfl
@[simp] theorem Dev.wrReg_dmae : (d.wrReg v p off w).dmae = d.dmae := by unfold Dev.wrReg; split <;> rfl
@[simp] theorem Dev.wrReg_eth : (d.wrReg v p off w).eth = d.eth := by unfold Dev.wrReg; split <;> rfl
@[simp] theorem Dev.wrReg_fab : (d.wrReg v p off w).fab = d.fab := by unfold Dev.wrReg; split <;> rfl
@[simp] theorem Dev.wrReg_strm : (d.wrReg v p off w).strm = d.strm := by unfold Dev.wrReg; split <;> rfl
@[simp] theorem Dev.wrReg_pwr : (d.wrReg v p off w).pwr = d.pwr := by unfold Dev.wrReg; split <;> rfl
@[simp] theorem Dev.wrReg_errm : (d.wrReg v p off w).errm = d.errm := by unfold Dev.wrReg; split <;> rfl
@[simp] theorem Dev.wrReg_halt : (d.wrReg v p off w).halt = d.halt := by unfold Dev.wrReg; split <;> rfl
@[simp] theorem Dev.wrReg_brake : (d.wrReg v p off w).brake = d.brake := by unfold Dev.wrReg; split <;> rfl
@[simp] theorem Dev.wrReg_sec : (d.wrReg v p off w).sec = d.sec := by unfold Dev.wrReg; split <;> rfl
@[simp] theorem Dev.wrReg_boot : (d.wrReg v p off w).boot = d.boot := by unfold Dev.wrReg; split <;> rfl
@[simp] theorem Dev.wrReg_out : (d.wrReg v p off w).out = d.out := by unfold Dev.wrReg; split <;> rfl
@[simp] theorem Dev.wrReg_free : (d.wrReg v p off w).free = d.free := by unfold Dev.wrReg; split <;> rfl
@[simp] theorem Dev.wrReg_pg_st : (d.wrReg v p off w).pg.st = d.pg.st := by unfold Dev.wrReg; split <;> rfl
@[simp] theorem Dev.wrReg_pg_hdr : (d.wrReg v p off w).pg.hdr = d.pg.hdr := by unfold Dev.wrReg; split <;> rfl
@[simp] theorem Dev.wrReg_pg_ctr : (d.wrReg v p off w).pg.ctr = d.pg.ctr := by unfold Dev.wrReg; split <;> rfl
@[simp] theorem Dev.wrReg_pg_snap : (d.wrReg v p off w).pg.snap = d.pg.snap := by unfold Dev.wrReg; split <;> rfl
@[simp] theorem Dev.wrReg_pg_gen : (d.wrReg v p off w).pg.gen = d.pg.gen := by unfold Dev.wrReg; split <;> rfl

end

/-! ### Dev.clearRegs -/

section
variable (d : Dev) (p : Page)

@[simp] theorem Dev.clearRegs_parts : (d.clearRegs p).parts = d.parts := rfl
@[simp] theorem Dev.clearRegs_store : (d.clearRegs p).store = d.store := rfl
@[simp] theorem Dev.clearRegs_irq : (d.clearRegs p).irq = d.irq := rfl
@[simp] theorem Dev.clearRegs_mem : (d.clearRegs p).mem = d.mem := rfl
@[simp] theorem Dev.clearRegs_poison : (d.clearRegs p).poison = d.poison := rfl
@[simp] theorem Dev.clearRegs_isles : (d.clearRegs p).isles = d.isles := rfl
@[simp] theorem Dev.clearRegs_cores : (d.clearRegs p).cores = d.cores := rfl
@[simp] theorem Dev.clearRegs_evc : (d.clearRegs p).evc = d.evc := rfl
@[simp] theorem Dev.clearRegs_sigs : (d.clearRegs p).sigs = d.sigs := rfl
@[simp] theorem Dev.clearRegs_clus : (d.clearRegs p).clus = d.clus := rfl
@[simp] theorem Dev.clearRegs_mvec : (d.clearRegs p).mvec = d.mvec := rfl
@[simp] theorem Dev.clearRegs_nwch : (d.clearRegs p).nwch = d.nwch := rfl
@[simp] theorem Dev.clearRegs_opte : (d.clearRegs p).opte = d.opte := rfl
@[simp] theorem Dev.clearRegs_rede : (d.clearRegs p).rede = d.rede := rfl
@[simp] theorem Dev.clearRegs_tokx : (d.clearRegs p).tokx = d.tokx := rfl
@[simp] theorem Dev.clearRegs_shelves : (d.clearRegs p).shelves = d.shelves := rfl
@[simp] theorem Dev.clearRegs_tier : (d.clearRegs p).tier = d.tier := rfl
@[simp] theorem Dev.clearRegs_flash : (d.clearRegs p).flash = d.flash := rfl
@[simp] theorem Dev.clearRegs_rings : (d.clearRegs p).rings = d.rings := rfl
@[simp] theorem Dev.clearRegs_dmae : (d.clearRegs p).dmae = d.dmae := rfl
@[simp] theorem Dev.clearRegs_eth : (d.clearRegs p).eth = d.eth := rfl
@[simp] theorem Dev.clearRegs_fab : (d.clearRegs p).fab = d.fab := rfl
@[simp] theorem Dev.clearRegs_strm : (d.clearRegs p).strm = d.strm := rfl
@[simp] theorem Dev.clearRegs_pwr : (d.clearRegs p).pwr = d.pwr := rfl
@[simp] theorem Dev.clearRegs_errm : (d.clearRegs p).errm = d.errm := rfl
@[simp] theorem Dev.clearRegs_halt : (d.clearRegs p).halt = d.halt := rfl
@[simp] theorem Dev.clearRegs_brake : (d.clearRegs p).brake = d.brake := rfl
@[simp] theorem Dev.clearRegs_sec : (d.clearRegs p).sec = d.sec := rfl
@[simp] theorem Dev.clearRegs_boot : (d.clearRegs p).boot = d.boot := rfl
@[simp] theorem Dev.clearRegs_out : (d.clearRegs p).out = d.out := rfl
@[simp] theorem Dev.clearRegs_free : (d.clearRegs p).free = d.free := rfl
@[simp] theorem Dev.clearRegs_pg_st : (d.clearRegs p).pg.st = d.pg.st := rfl
@[simp] theorem Dev.clearRegs_pg_hdr : (d.clearRegs p).pg.hdr = d.pg.hdr := rfl
@[simp] theorem Dev.clearRegs_pg_ctr : (d.clearRegs p).pg.ctr = d.pg.ctr := rfl
@[simp] theorem Dev.clearRegs_pg_snap : (d.clearRegs p).pg.snap = d.pg.snap := rfl
@[simp] theorem Dev.clearRegs_pg_gen : (d.clearRegs p).pg.gen = d.pg.gen := rfl

end

/-! ### Dev.setPst -/

section
variable (d : Dev) (p : Page) (x : PageSt)

@[simp] theorem Dev.setPst_parts : (d.setPst p x).parts = d.parts := rfl
@[simp] theorem Dev.setPst_store : (d.setPst p x).store = d.store := rfl
@[simp] theorem Dev.setPst_irq : (d.setPst p x).irq = d.irq := rfl
@[simp] theorem Dev.setPst_mem : (d.setPst p x).mem = d.mem := rfl
@[simp] theorem Dev.setPst_poison : (d.setPst p x).poison = d.poison := rfl
@[simp] theorem Dev.setPst_isles : (d.setPst p x).isles = d.isles := rfl
@[simp] theorem Dev.setPst_cores : (d.setPst p x).cores = d.cores := rfl
@[simp] theorem Dev.setPst_evc : (d.setPst p x).evc = d.evc := rfl
@[simp] theorem Dev.setPst_sigs : (d.setPst p x).sigs = d.sigs := rfl
@[simp] theorem Dev.setPst_clus : (d.setPst p x).clus = d.clus := rfl
@[simp] theorem Dev.setPst_mvec : (d.setPst p x).mvec = d.mvec := rfl
@[simp] theorem Dev.setPst_nwch : (d.setPst p x).nwch = d.nwch := rfl
@[simp] theorem Dev.setPst_opte : (d.setPst p x).opte = d.opte := rfl
@[simp] theorem Dev.setPst_rede : (d.setPst p x).rede = d.rede := rfl
@[simp] theorem Dev.setPst_tokx : (d.setPst p x).tokx = d.tokx := rfl
@[simp] theorem Dev.setPst_shelves : (d.setPst p x).shelves = d.shelves := rfl
@[simp] theorem Dev.setPst_tier : (d.setPst p x).tier = d.tier := rfl
@[simp] theorem Dev.setPst_flash : (d.setPst p x).flash = d.flash := rfl
@[simp] theorem Dev.setPst_rings : (d.setPst p x).rings = d.rings := rfl
@[simp] theorem Dev.setPst_dmae : (d.setPst p x).dmae = d.dmae := rfl
@[simp] theorem Dev.setPst_eth : (d.setPst p x).eth = d.eth := rfl
@[simp] theorem Dev.setPst_fab : (d.setPst p x).fab = d.fab := rfl
@[simp] theorem Dev.setPst_strm : (d.setPst p x).strm = d.strm := rfl
@[simp] theorem Dev.setPst_pwr : (d.setPst p x).pwr = d.pwr := rfl
@[simp] theorem Dev.setPst_errm : (d.setPst p x).errm = d.errm := rfl
@[simp] theorem Dev.setPst_halt : (d.setPst p x).halt = d.halt := rfl
@[simp] theorem Dev.setPst_brake : (d.setPst p x).brake = d.brake := rfl
@[simp] theorem Dev.setPst_sec : (d.setPst p x).sec = d.sec := rfl
@[simp] theorem Dev.setPst_boot : (d.setPst p x).boot = d.boot := rfl
@[simp] theorem Dev.setPst_out : (d.setPst p x).out = d.out := rfl
@[simp] theorem Dev.setPst_free : (d.setPst p x).free = d.free := rfl
@[simp] theorem Dev.setPst_pg_hdr : (d.setPst p x).pg.hdr = d.pg.hdr := rfl
@[simp] theorem Dev.setPst_pg_ctr : (d.setPst p x).pg.ctr = d.pg.ctr := rfl
@[simp] theorem Dev.setPst_pg_snap : (d.setPst p x).pg.snap = d.pg.snap := rfl
@[simp] theorem Dev.setPst_pg_regs : (d.setPst p x).pg.regs = d.pg.regs := rfl
@[simp] theorem Dev.setPst_pg_gen : (d.setPst p x).pg.gen = d.pg.gen := rfl

end

/-! ### Dev.toState -/

section
variable (d : Dev) (p : Page) (x : BlkState)

@[simp] theorem Dev.toState_parts : (d.toState p x).parts = d.parts := by unfold Dev.toState; split <;> simp
@[simp] theorem Dev.toState_store : (d.toState p x).store = d.store := by unfold Dev.toState; split <;> simp
@[simp] theorem Dev.toState_irq : (d.toState p x).irq = d.irq := by unfold Dev.toState; split <;> simp
@[simp] theorem Dev.toState_mem : (d.toState p x).mem = d.mem := by unfold Dev.toState; split <;> simp
@[simp] theorem Dev.toState_poison : (d.toState p x).poison = d.poison := by unfold Dev.toState; split <;> simp
@[simp] theorem Dev.toState_isles : (d.toState p x).isles = d.isles := by unfold Dev.toState; split <;> simp
@[simp] theorem Dev.toState_cores : (d.toState p x).cores = d.cores := by unfold Dev.toState; split <;> simp
@[simp] theorem Dev.toState_evc : (d.toState p x).evc = d.evc := by unfold Dev.toState; split <;> simp
@[simp] theorem Dev.toState_sigs : (d.toState p x).sigs = d.sigs := by unfold Dev.toState; split <;> simp
@[simp] theorem Dev.toState_clus : (d.toState p x).clus = d.clus := by unfold Dev.toState; split <;> simp
@[simp] theorem Dev.toState_mvec : (d.toState p x).mvec = d.mvec := by unfold Dev.toState; split <;> simp
@[simp] theorem Dev.toState_nwch : (d.toState p x).nwch = d.nwch := by unfold Dev.toState; split <;> simp
@[simp] theorem Dev.toState_opte : (d.toState p x).opte = d.opte := by unfold Dev.toState; split <;> simp
@[simp] theorem Dev.toState_rede : (d.toState p x).rede = d.rede := by unfold Dev.toState; split <;> simp
@[simp] theorem Dev.toState_tokx : (d.toState p x).tokx = d.tokx := by unfold Dev.toState; split <;> simp
@[simp] theorem Dev.toState_shelves : (d.toState p x).shelves = d.shelves := by unfold Dev.toState; split <;> simp
@[simp] theorem Dev.toState_tier : (d.toState p x).tier = d.tier := by unfold Dev.toState; split <;> simp
@[simp] theorem Dev.toState_flash : (d.toState p x).flash = d.flash := by unfold Dev.toState; split <;> simp
@[simp] theorem Dev.toState_rings : (d.toState p x).rings = d.rings := by unfold Dev.toState; split <;> simp
@[simp] theorem Dev.toState_dmae : (d.toState p x).dmae = d.dmae := by unfold Dev.toState; split <;> simp
@[simp] theorem Dev.toState_eth : (d.toState p x).eth = d.eth := by unfold Dev.toState; split <;> simp
@[simp] theorem Dev.toState_fab : (d.toState p x).fab = d.fab := by unfold Dev.toState; split <;> simp
@[simp] theorem Dev.toState_strm : (d.toState p x).strm = d.strm := by unfold Dev.toState; split <;> simp
@[simp] theorem Dev.toState_pwr : (d.toState p x).pwr = d.pwr := by unfold Dev.toState; split <;> simp
@[simp] theorem Dev.toState_errm : (d.toState p x).errm = d.errm := by unfold Dev.toState; split <;> simp
@[simp] theorem Dev.toState_halt : (d.toState p x).halt = d.halt := by unfold Dev.toState; split <;> simp
@[simp] theorem Dev.toState_brake : (d.toState p x).brake = d.brake := by unfold Dev.toState; split <;> simp
@[simp] theorem Dev.toState_sec : (d.toState p x).sec = d.sec := by unfold Dev.toState; split <;> simp
@[simp] theorem Dev.toState_boot : (d.toState p x).boot = d.boot := by unfold Dev.toState; split <;> simp
@[simp] theorem Dev.toState_out : (d.toState p x).out = d.out := by unfold Dev.toState; split <;> simp
@[simp] theorem Dev.toState_free : (d.toState p x).free = d.free := by unfold Dev.toState; split <;> simp
@[simp] theorem Dev.toState_pg_ctr : (d.toState p x).pg.ctr = d.pg.ctr := by unfold Dev.toState; split <;> simp
@[simp] theorem Dev.toState_pg_snap : (d.toState p x).pg.snap = d.pg.snap := by unfold Dev.toState; split <;> simp
@[simp] theorem Dev.toState_pg_regs : (d.toState p x).pg.regs = d.pg.regs := by unfold Dev.toState; split <;> simp
@[simp] theorem Dev.toState_pg_gen : (d.toState p x).pg.gen = d.pg.gen := by unfold Dev.toState; split <;> simp

end

/-! ### Dev.setCore -/

section
variable (d : Dev) (i : Nat) (c : Core)

@[simp] theorem Dev.setCore_pg : (d.setCore i c).pg = d.pg := rfl
@[simp] theorem Dev.setCore_parts : (d.setCore i c).parts = d.parts := rfl
@[simp] theorem Dev.setCore_store : (d.setCore i c).store = d.store := rfl
@[simp] theorem Dev.setCore_irq : (d.setCore i c).irq = d.irq := rfl
@[simp] theorem Dev.setCore_mem : (d.setCore i c).mem = d.mem := rfl
@[simp] theorem Dev.setCore_poison : (d.setCore i c).poison = d.poison := rfl
@[simp] theorem Dev.setCore_isles : (d.setCore i c).isles = d.isles := rfl
@[simp] theorem Dev.setCore_evc : (d.setCore i c).evc = d.evc := rfl
@[simp] theorem Dev.setCore_sigs : (d.setCore i c).sigs = d.sigs := rfl
@[simp] theorem Dev.setCore_clus : (d.setCore i c).clus = d.clus := rfl
@[simp] theorem Dev.setCore_mvec : (d.setCore i c).mvec = d.mvec := rfl
@[simp] theorem Dev.setCore_nwch : (d.setCore i c).nwch = d.nwch := rfl
@[simp] theorem Dev.setCore_opte : (d.setCore i c).opte = d.opte := rfl
@[simp] theorem Dev.setCore_rede : (d.setCore i c).rede = d.rede := rfl
@[simp] theorem Dev.setCore_tokx : (d.setCore i c).tokx = d.tokx := rfl
@[simp] theorem Dev.setCore_shelves : (d.setCore i c).shelves = d.shelves := rfl
@[simp] theorem Dev.setCore_tier : (d.setCore i c).tier = d.tier := rfl
@[simp] theorem Dev.setCore_flash : (d.setCore i c).flash = d.flash := rfl
@[simp] theorem Dev.setCore_rings : (d.setCore i c).rings = d.rings := rfl
@[simp] theorem Dev.setCore_dmae : (d.setCore i c).dmae = d.dmae := rfl
@[simp] theorem Dev.setCore_eth : (d.setCore i c).eth = d.eth := rfl
@[simp] theorem Dev.setCore_fab : (d.setCore i c).fab = d.fab := rfl
@[simp] theorem Dev.setCore_strm : (d.setCore i c).strm = d.strm := rfl
@[simp] theorem Dev.setCore_pwr : (d.setCore i c).pwr = d.pwr := rfl
@[simp] theorem Dev.setCore_errm : (d.setCore i c).errm = d.errm := rfl
@[simp] theorem Dev.setCore_halt : (d.setCore i c).halt = d.halt := rfl
@[simp] theorem Dev.setCore_brake : (d.setCore i c).brake = d.brake := rfl
@[simp] theorem Dev.setCore_sec : (d.setCore i c).sec = d.sec := rfl
@[simp] theorem Dev.setCore_boot : (d.setCore i c).boot = d.boot := rfl
@[simp] theorem Dev.setCore_out : (d.setCore i c).out = d.out := rfl
@[simp] theorem Dev.setCore_free : (d.setCore i c).free = d.free := rfl

end

/-! ### Dev.updCore -/

section
variable (d : Dev) (i : Nat) (f : Core → Core)

@[simp] theorem Dev.updCore_pg : (d.updCore i f).pg = d.pg := rfl
@[simp] theorem Dev.updCore_parts : (d.updCore i f).parts = d.parts := rfl
@[simp] theorem Dev.updCore_store : (d.updCore i f).store = d.store := rfl
@[simp] theorem Dev.updCore_irq : (d.updCore i f).irq = d.irq := rfl
@[simp] theorem Dev.updCore_mem : (d.updCore i f).mem = d.mem := rfl
@[simp] theorem Dev.updCore_poison : (d.updCore i f).poison = d.poison := rfl
@[simp] theorem Dev.updCore_isles : (d.updCore i f).isles = d.isles := rfl
@[simp] theorem Dev.updCore_evc : (d.updCore i f).evc = d.evc := rfl
@[simp] theorem Dev.updCore_sigs : (d.updCore i f).sigs = d.sigs := rfl
@[simp] theorem Dev.updCore_clus : (d.updCore i f).clus = d.clus := rfl
@[simp] theorem Dev.updCore_mvec : (d.updCore i f).mvec = d.mvec := rfl
@[simp] theorem Dev.updCore_nwch : (d.updCore i f).nwch = d.nwch := rfl
@[simp] theorem Dev.updCore_opte : (d.updCore i f).opte = d.opte := rfl
@[simp] theorem Dev.updCore_rede : (d.updCore i f).rede = d.rede := rfl
@[simp] theorem Dev.updCore_tokx : (d.updCore i f).tokx = d.tokx := rfl
@[simp] theorem Dev.updCore_shelves : (d.updCore i f).shelves = d.shelves := rfl
@[simp] theorem Dev.updCore_tier : (d.updCore i f).tier = d.tier := rfl
@[simp] theorem Dev.updCore_flash : (d.updCore i f).flash = d.flash := rfl
@[simp] theorem Dev.updCore_rings : (d.updCore i f).rings = d.rings := rfl
@[simp] theorem Dev.updCore_dmae : (d.updCore i f).dmae = d.dmae := rfl
@[simp] theorem Dev.updCore_eth : (d.updCore i f).eth = d.eth := rfl
@[simp] theorem Dev.updCore_fab : (d.updCore i f).fab = d.fab := rfl
@[simp] theorem Dev.updCore_strm : (d.updCore i f).strm = d.strm := rfl
@[simp] theorem Dev.updCore_pwr : (d.updCore i f).pwr = d.pwr := rfl
@[simp] theorem Dev.updCore_errm : (d.updCore i f).errm = d.errm := rfl
@[simp] theorem Dev.updCore_halt : (d.updCore i f).halt = d.halt := rfl
@[simp] theorem Dev.updCore_brake : (d.updCore i f).brake = d.brake := rfl
@[simp] theorem Dev.updCore_sec : (d.updCore i f).sec = d.sec := rfl
@[simp] theorem Dev.updCore_boot : (d.updCore i f).boot = d.boot := rfl
@[simp] theorem Dev.updCore_out : (d.updCore i f).out = d.out := rfl
@[simp] theorem Dev.updCore_free : (d.updCore i f).free = d.free := rfl

end

/-! ### Dev.setIsle -/

section
variable (d : Dev) (i : Nat) (x : Isle)

@[simp] theorem Dev.setIsle_pg : (d.setIsle i x).pg = d.pg := rfl
@[simp] theorem Dev.setIsle_parts : (d.setIsle i x).parts = d.parts := rfl
@[simp] theorem Dev.setIsle_store : (d.setIsle i x).store = d.store := rfl
@[simp] theorem Dev.setIsle_irq : (d.setIsle i x).irq = d.irq := rfl
@[simp] theorem Dev.setIsle_mem : (d.setIsle i x).mem = d.mem := rfl
@[simp] theorem Dev.setIsle_poison : (d.setIsle i x).poison = d.poison := rfl
@[simp] theorem Dev.setIsle_cores : (d.setIsle i x).cores = d.cores := rfl
@[simp] theorem Dev.setIsle_evc : (d.setIsle i x).evc = d.evc := rfl
@[simp] theorem Dev.setIsle_sigs : (d.setIsle i x).sigs = d.sigs := rfl
@[simp] theorem Dev.setIsle_clus : (d.setIsle i x).clus = d.clus := rfl
@[simp] theorem Dev.setIsle_mvec : (d.setIsle i x).mvec = d.mvec := rfl
@[simp] theorem Dev.setIsle_nwch : (d.setIsle i x).nwch = d.nwch := rfl
@[simp] theorem Dev.setIsle_opte : (d.setIsle i x).opte = d.opte := rfl
@[simp] theorem Dev.setIsle_rede : (d.setIsle i x).rede = d.rede := rfl
@[simp] theorem Dev.setIsle_tokx : (d.setIsle i x).tokx = d.tokx := rfl
@[simp] theorem Dev.setIsle_shelves : (d.setIsle i x).shelves = d.shelves := rfl
@[simp] theorem Dev.setIsle_tier : (d.setIsle i x).tier = d.tier := rfl
@[simp] theorem Dev.setIsle_flash : (d.setIsle i x).flash = d.flash := rfl
@[simp] theorem Dev.setIsle_rings : (d.setIsle i x).rings = d.rings := rfl
@[simp] theorem Dev.setIsle_dmae : (d.setIsle i x).dmae = d.dmae := rfl
@[simp] theorem Dev.setIsle_eth : (d.setIsle i x).eth = d.eth := rfl
@[simp] theorem Dev.setIsle_fab : (d.setIsle i x).fab = d.fab := rfl
@[simp] theorem Dev.setIsle_strm : (d.setIsle i x).strm = d.strm := rfl
@[simp] theorem Dev.setIsle_pwr : (d.setIsle i x).pwr = d.pwr := rfl
@[simp] theorem Dev.setIsle_errm : (d.setIsle i x).errm = d.errm := rfl
@[simp] theorem Dev.setIsle_halt : (d.setIsle i x).halt = d.halt := rfl
@[simp] theorem Dev.setIsle_brake : (d.setIsle i x).brake = d.brake := rfl
@[simp] theorem Dev.setIsle_sec : (d.setIsle i x).sec = d.sec := rfl
@[simp] theorem Dev.setIsle_boot : (d.setIsle i x).boot = d.boot := rfl
@[simp] theorem Dev.setIsle_out : (d.setIsle i x).out = d.out := rfl
@[simp] theorem Dev.setIsle_free : (d.setIsle i x).free = d.free := rfl

end

/-! ### Dev.updIsle -/

section
variable (d : Dev) (i : Nat) (f : Isle → Isle)

@[simp] theorem Dev.updIsle_pg : (d.updIsle i f).pg = d.pg := rfl
@[simp] theorem Dev.updIsle_parts : (d.updIsle i f).parts = d.parts := rfl
@[simp] theorem Dev.updIsle_store : (d.updIsle i f).store = d.store := rfl
@[simp] theorem Dev.updIsle_irq : (d.updIsle i f).irq = d.irq := rfl
@[simp] theorem Dev.updIsle_mem : (d.updIsle i f).mem = d.mem := rfl
@[simp] theorem Dev.updIsle_poison : (d.updIsle i f).poison = d.poison := rfl
@[simp] theorem Dev.updIsle_cores : (d.updIsle i f).cores = d.cores := rfl
@[simp] theorem Dev.updIsle_evc : (d.updIsle i f).evc = d.evc := rfl
@[simp] theorem Dev.updIsle_sigs : (d.updIsle i f).sigs = d.sigs := rfl
@[simp] theorem Dev.updIsle_clus : (d.updIsle i f).clus = d.clus := rfl
@[simp] theorem Dev.updIsle_mvec : (d.updIsle i f).mvec = d.mvec := rfl
@[simp] theorem Dev.updIsle_nwch : (d.updIsle i f).nwch = d.nwch := rfl
@[simp] theorem Dev.updIsle_opte : (d.updIsle i f).opte = d.opte := rfl
@[simp] theorem Dev.updIsle_rede : (d.updIsle i f).rede = d.rede := rfl
@[simp] theorem Dev.updIsle_tokx : (d.updIsle i f).tokx = d.tokx := rfl
@[simp] theorem Dev.updIsle_shelves : (d.updIsle i f).shelves = d.shelves := rfl
@[simp] theorem Dev.updIsle_tier : (d.updIsle i f).tier = d.tier := rfl
@[simp] theorem Dev.updIsle_flash : (d.updIsle i f).flash = d.flash := rfl
@[simp] theorem Dev.updIsle_rings : (d.updIsle i f).rings = d.rings := rfl
@[simp] theorem Dev.updIsle_dmae : (d.updIsle i f).dmae = d.dmae := rfl
@[simp] theorem Dev.updIsle_eth : (d.updIsle i f).eth = d.eth := rfl
@[simp] theorem Dev.updIsle_fab : (d.updIsle i f).fab = d.fab := rfl
@[simp] theorem Dev.updIsle_strm : (d.updIsle i f).strm = d.strm := rfl
@[simp] theorem Dev.updIsle_pwr : (d.updIsle i f).pwr = d.pwr := rfl
@[simp] theorem Dev.updIsle_errm : (d.updIsle i f).errm = d.errm := rfl
@[simp] theorem Dev.updIsle_halt : (d.updIsle i f).halt = d.halt := rfl
@[simp] theorem Dev.updIsle_brake : (d.updIsle i f).brake = d.brake := rfl
@[simp] theorem Dev.updIsle_sec : (d.updIsle i f).sec = d.sec := rfl
@[simp] theorem Dev.updIsle_boot : (d.updIsle i f).boot = d.boot := rfl
@[simp] theorem Dev.updIsle_out : (d.updIsle i f).out = d.out := rfl
@[simp] theorem Dev.updIsle_free : (d.updIsle i f).free = d.free := rfl

end

/-! ### Dev.reach -/

section
variable (d : Dev) (i t : Nat)

@[simp] theorem Dev.reach_pg : (d.reach i t).pg = d.pg := rfl
@[simp] theorem Dev.reach_parts : (d.reach i t).parts = d.parts := rfl
@[simp] theorem Dev.reach_store : (d.reach i t).store = d.store := rfl
@[simp] theorem Dev.reach_irq : (d.reach i t).irq = d.irq := rfl
@[simp] theorem Dev.reach_mem : (d.reach i t).mem = d.mem := rfl
@[simp] theorem Dev.reach_poison : (d.reach i t).poison = d.poison := rfl
@[simp] theorem Dev.reach_cores : (d.reach i t).cores = d.cores := rfl
@[simp] theorem Dev.reach_evc : (d.reach i t).evc = d.evc := rfl
@[simp] theorem Dev.reach_sigs : (d.reach i t).sigs = d.sigs := rfl
@[simp] theorem Dev.reach_clus : (d.reach i t).clus = d.clus := rfl
@[simp] theorem Dev.reach_mvec : (d.reach i t).mvec = d.mvec := rfl
@[simp] theorem Dev.reach_nwch : (d.reach i t).nwch = d.nwch := rfl
@[simp] theorem Dev.reach_opte : (d.reach i t).opte = d.opte := rfl
@[simp] theorem Dev.reach_rede : (d.reach i t).rede = d.rede := rfl
@[simp] theorem Dev.reach_tokx : (d.reach i t).tokx = d.tokx := rfl
@[simp] theorem Dev.reach_shelves : (d.reach i t).shelves = d.shelves := rfl
@[simp] theorem Dev.reach_tier : (d.reach i t).tier = d.tier := rfl
@[simp] theorem Dev.reach_flash : (d.reach i t).flash = d.flash := rfl
@[simp] theorem Dev.reach_rings : (d.reach i t).rings = d.rings := rfl
@[simp] theorem Dev.reach_dmae : (d.reach i t).dmae = d.dmae := rfl
@[simp] theorem Dev.reach_eth : (d.reach i t).eth = d.eth := rfl
@[simp] theorem Dev.reach_fab : (d.reach i t).fab = d.fab := rfl
@[simp] theorem Dev.reach_strm : (d.reach i t).strm = d.strm := rfl
@[simp] theorem Dev.reach_pwr : (d.reach i t).pwr = d.pwr := rfl
@[simp] theorem Dev.reach_errm : (d.reach i t).errm = d.errm := rfl
@[simp] theorem Dev.reach_halt : (d.reach i t).halt = d.halt := rfl
@[simp] theorem Dev.reach_brake : (d.reach i t).brake = d.brake := rfl
@[simp] theorem Dev.reach_sec : (d.reach i t).sec = d.sec := rfl
@[simp] theorem Dev.reach_boot : (d.reach i t).boot = d.boot := rfl
@[simp] theorem Dev.reach_out : (d.reach i t).out = d.out := rfl
@[simp] theorem Dev.reach_free : (d.reach i t).free = d.free := rfl

end

/-! ### Dev.wake -/

section
variable (d : Dev) (i : Nat)

@[simp] theorem Dev.wake_parts : (d.wake i).parts = d.parts := by unfold Dev.wake; dsimp only; (repeat' split) <;> simp
@[simp] theorem Dev.wake_store : (d.wake i).store = d.store := by unfold Dev.wake; dsimp only; (repeat' split) <;> simp
@[simp] theorem Dev.wake_irq : (d.wake i).irq = d.irq := by unfold Dev.wake; dsimp only; (repeat' split) <;> simp
@[simp] theorem Dev.wake_mem : (d.wake i).mem = d.mem := by unfold Dev.wake; dsimp only; (repeat' split) <;> simp
@[simp] theorem Dev.wake_poison : (d.wake i).poison = d.poison := by unfold Dev.wake; dsimp only; (repeat' split) <;> simp
@[simp] theorem Dev.wake_cores : (d.wake i).cores = d.cores := by unfold Dev.wake; dsimp only; (repeat' split) <;> simp
@[simp] theorem Dev.wake_evc : (d.wake i).evc = d.evc := by unfold Dev.wake; dsimp only; (repeat' split) <;> simp
@[simp] theorem Dev.wake_sigs : (d.wake i).sigs = d.sigs := by unfold Dev.wake; dsimp only; (repeat' split) <;> simp
@[simp] theorem Dev.wake_clus : (d.wake i).clus = d.clus := by unfold Dev.wake; dsimp only; (repeat' split) <;> simp
@[simp] theorem Dev.wake_mvec : (d.wake i).mvec = d.mvec := by unfold Dev.wake; dsimp only; (repeat' split) <;> simp
@[simp] theorem Dev.wake_nwch : (d.wake i).nwch = d.nwch := by unfold Dev.wake; dsimp only; (repeat' split) <;> simp
@[simp] theorem Dev.wake_opte : (d.wake i).opte = d.opte := by unfold Dev.wake; dsimp only; (repeat' split) <;> simp
@[simp] theorem Dev.wake_rede : (d.wake i).rede = d.rede := by unfold Dev.wake; dsimp only; (repeat' split) <;> simp
@[simp] theorem Dev.wake_tokx : (d.wake i).tokx = d.tokx := by unfold Dev.wake; dsimp only; (repeat' split) <;> simp
@[simp] theorem Dev.wake_shelves : (d.wake i).shelves = d.shelves := by unfold Dev.wake; dsimp only; (repeat' split) <;> simp
@[simp] theorem Dev.wake_tier : (d.wake i).tier = d.tier := by unfold Dev.wake; dsimp only; (repeat' split) <;> simp
@[simp] theorem Dev.wake_flash : (d.wake i).flash = d.flash := by unfold Dev.wake; dsimp only; (repeat' split) <;> simp
@[simp] theorem Dev.wake_rings : (d.wake i).rings = d.rings := by unfold Dev.wake; dsimp only; (repeat' split) <;> simp
@[simp] theorem Dev.wake_dmae : (d.wake i).dmae = d.dmae := by unfold Dev.wake; dsimp only; (repeat' split) <;> simp
@[simp] theorem Dev.wake_eth : (d.wake i).eth = d.eth := by unfold Dev.wake; dsimp only; (repeat' split) <;> simp
@[simp] theorem Dev.wake_fab : (d.wake i).fab = d.fab := by unfold Dev.wake; dsimp only; (repeat' split) <;> simp
@[simp] theorem Dev.wake_strm : (d.wake i).strm = d.strm := by unfold Dev.wake; dsimp only; (repeat' split) <;> simp
@[simp] theorem Dev.wake_pwr : (d.wake i).pwr = d.pwr := by unfold Dev.wake; dsimp only; (repeat' split) <;> simp
@[simp] theorem Dev.wake_errm : (d.wake i).errm = d.errm := by unfold Dev.wake; dsimp only; (repeat' split) <;> simp
@[simp] theorem Dev.wake_halt : (d.wake i).halt = d.halt := by unfold Dev.wake; dsimp only; (repeat' split) <;> simp
@[simp] theorem Dev.wake_brake : (d.wake i).brake = d.brake := by unfold Dev.wake; dsimp only; (repeat' split) <;> simp
@[simp] theorem Dev.wake_sec : (d.wake i).sec = d.sec := by unfold Dev.wake; dsimp only; (repeat' split) <;> simp
@[simp] theorem Dev.wake_boot : (d.wake i).boot = d.boot := by unfold Dev.wake; dsimp only; (repeat' split) <;> simp
@[simp] theorem Dev.wake_out : (d.wake i).out = d.out := by unfold Dev.wake; dsimp only; (repeat' split) <;> simp
@[simp] theorem Dev.wake_free : (d.wake i).free = d.free := by unfold Dev.wake; dsimp only; (repeat' split) <;> simp
@[simp] theorem Dev.wake_pg_st : (d.wake i).pg.st = d.pg.st := by unfold Dev.wake; dsimp only; (repeat' split) <;> simp
@[simp] theorem Dev.wake_pg_hdr : (d.wake i).pg.hdr = d.pg.hdr := by unfold Dev.wake; dsimp only; (repeat' split) <;> simp
@[simp] theorem Dev.wake_pg_snap : (d.wake i).pg.snap = d.pg.snap := by unfold Dev.wake; dsimp only; (repeat' split) <;> simp
@[simp] theorem Dev.wake_pg_regs : (d.wake i).pg.regs = d.pg.regs := by unfold Dev.wake; dsimp only; (repeat' split) <;> simp
@[simp] theorem Dev.wake_pg_gen : (d.wake i).pg.gen = d.pg.gen := by unfold Dev.wake; dsimp only; (repeat' split) <;> simp

end

/-! ### Dev.put -/

section
variable (d : Dev) (o : Output)

@[simp] theorem Dev.put_pg : (d.put o).pg = d.pg := rfl
@[simp] theorem Dev.put_parts : (d.put o).parts = d.parts := rfl
@[simp] theorem Dev.put_store : (d.put o).store = d.store := rfl
@[simp] theorem Dev.put_irq : (d.put o).irq = d.irq := rfl
@[simp] theorem Dev.put_mem : (d.put o).mem = d.mem := rfl
@[simp] theorem Dev.put_poison : (d.put o).poison = d.poison := rfl
@[simp] theorem Dev.put_isles : (d.put o).isles = d.isles := rfl
@[simp] theorem Dev.put_cores : (d.put o).cores = d.cores := rfl
@[simp] theorem Dev.put_evc : (d.put o).evc = d.evc := rfl
@[simp] theorem Dev.put_sigs : (d.put o).sigs = d.sigs := rfl
@[simp] theorem Dev.put_clus : (d.put o).clus = d.clus := rfl
@[simp] theorem Dev.put_mvec : (d.put o).mvec = d.mvec := rfl
@[simp] theorem Dev.put_nwch : (d.put o).nwch = d.nwch := rfl
@[simp] theorem Dev.put_opte : (d.put o).opte = d.opte := rfl
@[simp] theorem Dev.put_rede : (d.put o).rede = d.rede := rfl
@[simp] theorem Dev.put_tokx : (d.put o).tokx = d.tokx := rfl
@[simp] theorem Dev.put_shelves : (d.put o).shelves = d.shelves := rfl
@[simp] theorem Dev.put_tier : (d.put o).tier = d.tier := rfl
@[simp] theorem Dev.put_flash : (d.put o).flash = d.flash := rfl
@[simp] theorem Dev.put_rings : (d.put o).rings = d.rings := rfl
@[simp] theorem Dev.put_dmae : (d.put o).dmae = d.dmae := rfl
@[simp] theorem Dev.put_eth : (d.put o).eth = d.eth := rfl
@[simp] theorem Dev.put_fab : (d.put o).fab = d.fab := rfl
@[simp] theorem Dev.put_strm : (d.put o).strm = d.strm := rfl
@[simp] theorem Dev.put_pwr : (d.put o).pwr = d.pwr := rfl
@[simp] theorem Dev.put_errm : (d.put o).errm = d.errm := rfl
@[simp] theorem Dev.put_halt : (d.put o).halt = d.halt := rfl
@[simp] theorem Dev.put_brake : (d.put o).brake = d.brake := rfl
@[simp] theorem Dev.put_sec : (d.put o).sec = d.sec := rfl
@[simp] theorem Dev.put_boot : (d.put o).boot = d.boot := rfl
@[simp] theorem Dev.put_free : (d.put o).free = d.free := rfl

end

/-! ### Dev.signal -/

section
variable (d : Dev) (w : Word) (n : Fin 16) (src : Nat)

@[simp] theorem Dev.signal_pg : (d.signal w n src).pg = d.pg := by unfold Dev.signal; split <;> rfl
@[simp] theorem Dev.signal_parts : (d.signal w n src).parts = d.parts := by unfold Dev.signal; split <;> rfl
@[simp] theorem Dev.signal_store : (d.signal w n src).store = d.store := by unfold Dev.signal; split <;> rfl
@[simp] theorem Dev.signal_irq : (d.signal w n src).irq = d.irq := by unfold Dev.signal; split <;> rfl
@[simp] theorem Dev.signal_mem : (d.signal w n src).mem = d.mem := by unfold Dev.signal; split <;> rfl
@[simp] theorem Dev.signal_poison : (d.signal w n src).poison = d.poison := by unfold Dev.signal; split <;> rfl
@[simp] theorem Dev.signal_isles : (d.signal w n src).isles = d.isles := by unfold Dev.signal; split <;> rfl
@[simp] theorem Dev.signal_cores : (d.signal w n src).cores = d.cores := by unfold Dev.signal; split <;> rfl
@[simp] theorem Dev.signal_evc : (d.signal w n src).evc = d.evc := by unfold Dev.signal; split <;> rfl
@[simp] theorem Dev.signal_clus : (d.signal w n src).clus = d.clus := by unfold Dev.signal; split <;> rfl
@[simp] theorem Dev.signal_mvec : (d.signal w n src).mvec = d.mvec := by unfold Dev.signal; split <;> rfl
@[simp] theorem Dev.signal_nwch : (d.signal w n src).nwch = d.nwch := by unfold Dev.signal; split <;> rfl
@[simp] theorem Dev.signal_opte : (d.signal w n src).opte = d.opte := by unfold Dev.signal; split <;> rfl
@[simp] theorem Dev.signal_rede : (d.signal w n src).rede = d.rede := by unfold Dev.signal; split <;> rfl
@[simp] theorem Dev.signal_tokx : (d.signal w n src).tokx = d.tokx := by unfold Dev.signal; split <;> rfl
@[simp] theorem Dev.signal_shelves : (d.signal w n src).shelves = d.shelves := by unfold Dev.signal; split <;> rfl
@[simp] theorem Dev.signal_tier : (d.signal w n src).tier = d.tier := by unfold Dev.signal; split <;> rfl
@[simp] theorem Dev.signal_flash : (d.signal w n src).flash = d.flash := by unfold Dev.signal; split <;> rfl
@[simp] theorem Dev.signal_rings : (d.signal w n src).rings = d.rings := by unfold Dev.signal; split <;> rfl
@[simp] theorem Dev.signal_dmae : (d.signal w n src).dmae = d.dmae := by unfold Dev.signal; split <;> rfl
@[simp] theorem Dev.signal_eth : (d.signal w n src).eth = d.eth := by unfold Dev.signal; split <;> rfl
@[simp] theorem Dev.signal_fab : (d.signal w n src).fab = d.fab := by unfold Dev.signal; split <;> rfl
@[simp] theorem Dev.signal_strm : (d.signal w n src).strm = d.strm := by unfold Dev.signal; split <;> rfl
@[simp] theorem Dev.signal_pwr : (d.signal w n src).pwr = d.pwr := by unfold Dev.signal; split <;> rfl
@[simp] theorem Dev.signal_errm : (d.signal w n src).errm = d.errm := by unfold Dev.signal; split <;> rfl
@[simp] theorem Dev.signal_halt : (d.signal w n src).halt = d.halt := by unfold Dev.signal; split <;> rfl
@[simp] theorem Dev.signal_brake : (d.signal w n src).brake = d.brake := by unfold Dev.signal; split <;> rfl
@[simp] theorem Dev.signal_sec : (d.signal w n src).sec = d.sec := by unfold Dev.signal; split <;> rfl
@[simp] theorem Dev.signal_boot : (d.signal w n src).boot = d.boot := by unfold Dev.signal; split <;> rfl
@[simp] theorem Dev.signal_out : (d.signal w n src).out = d.out := by unfold Dev.signal; split <;> rfl
@[simp] theorem Dev.signal_free : (d.signal w n src).free = d.free := by unfold Dev.signal; split <;> rfl

end

/-! ### Dev.queueRec -/

section
variable (d : Dev) (r : ErrRec)

@[simp] theorem Dev.queueRec_parts : (d.queueRec r).parts = d.parts := by unfold Dev.queueRec; dsimp only; (repeat' split) <;> simp
@[simp] theorem Dev.queueRec_store : (d.queueRec r).store = d.store := by unfold Dev.queueRec; dsimp only; (repeat' split) <;> simp
@[simp] theorem Dev.queueRec_irq : (d.queueRec r).irq = d.irq := by unfold Dev.queueRec; dsimp only; (repeat' split) <;> simp
@[simp] theorem Dev.queueRec_mem : (d.queueRec r).mem = d.mem := by unfold Dev.queueRec; dsimp only; (repeat' split) <;> simp
@[simp] theorem Dev.queueRec_poison : (d.queueRec r).poison = d.poison := by unfold Dev.queueRec; dsimp only; (repeat' split) <;> simp
@[simp] theorem Dev.queueRec_isles : (d.queueRec r).isles = d.isles := by unfold Dev.queueRec; dsimp only; (repeat' split) <;> simp
@[simp] theorem Dev.queueRec_cores : (d.queueRec r).cores = d.cores := by unfold Dev.queueRec; dsimp only; (repeat' split) <;> simp
@[simp] theorem Dev.queueRec_evc : (d.queueRec r).evc = d.evc := by unfold Dev.queueRec; dsimp only; (repeat' split) <;> simp
@[simp] theorem Dev.queueRec_sigs : (d.queueRec r).sigs = d.sigs := by unfold Dev.queueRec; dsimp only; (repeat' split) <;> simp
@[simp] theorem Dev.queueRec_clus : (d.queueRec r).clus = d.clus := by unfold Dev.queueRec; dsimp only; (repeat' split) <;> simp
@[simp] theorem Dev.queueRec_mvec : (d.queueRec r).mvec = d.mvec := by unfold Dev.queueRec; dsimp only; (repeat' split) <;> simp
@[simp] theorem Dev.queueRec_nwch : (d.queueRec r).nwch = d.nwch := by unfold Dev.queueRec; dsimp only; (repeat' split) <;> simp
@[simp] theorem Dev.queueRec_opte : (d.queueRec r).opte = d.opte := by unfold Dev.queueRec; dsimp only; (repeat' split) <;> simp
@[simp] theorem Dev.queueRec_rede : (d.queueRec r).rede = d.rede := by unfold Dev.queueRec; dsimp only; (repeat' split) <;> simp
@[simp] theorem Dev.queueRec_tokx : (d.queueRec r).tokx = d.tokx := by unfold Dev.queueRec; dsimp only; (repeat' split) <;> simp
@[simp] theorem Dev.queueRec_shelves : (d.queueRec r).shelves = d.shelves := by unfold Dev.queueRec; dsimp only; (repeat' split) <;> simp
@[simp] theorem Dev.queueRec_tier : (d.queueRec r).tier = d.tier := by unfold Dev.queueRec; dsimp only; (repeat' split) <;> simp
@[simp] theorem Dev.queueRec_flash : (d.queueRec r).flash = d.flash := by unfold Dev.queueRec; dsimp only; (repeat' split) <;> simp
@[simp] theorem Dev.queueRec_rings : (d.queueRec r).rings = d.rings := by unfold Dev.queueRec; dsimp only; (repeat' split) <;> simp
@[simp] theorem Dev.queueRec_dmae : (d.queueRec r).dmae = d.dmae := by unfold Dev.queueRec; dsimp only; (repeat' split) <;> simp
@[simp] theorem Dev.queueRec_eth : (d.queueRec r).eth = d.eth := by unfold Dev.queueRec; dsimp only; (repeat' split) <;> simp
@[simp] theorem Dev.queueRec_fab : (d.queueRec r).fab = d.fab := by unfold Dev.queueRec; dsimp only; (repeat' split) <;> simp
@[simp] theorem Dev.queueRec_strm : (d.queueRec r).strm = d.strm := by unfold Dev.queueRec; dsimp only; (repeat' split) <;> simp
@[simp] theorem Dev.queueRec_pwr : (d.queueRec r).pwr = d.pwr := by unfold Dev.queueRec; dsimp only; (repeat' split) <;> simp
@[simp] theorem Dev.queueRec_halt : (d.queueRec r).halt = d.halt := by unfold Dev.queueRec; dsimp only; (repeat' split) <;> simp
@[simp] theorem Dev.queueRec_brake : (d.queueRec r).brake = d.brake := by unfold Dev.queueRec; dsimp only; (repeat' split) <;> simp
@[simp] theorem Dev.queueRec_sec : (d.queueRec r).sec = d.sec := by unfold Dev.queueRec; dsimp only; (repeat' split) <;> simp
@[simp] theorem Dev.queueRec_boot : (d.queueRec r).boot = d.boot := by unfold Dev.queueRec; dsimp only; (repeat' split) <;> simp
@[simp] theorem Dev.queueRec_out : (d.queueRec r).out = d.out := by unfold Dev.queueRec; dsimp only; (repeat' split) <;> simp
@[simp] theorem Dev.queueRec_free : (d.queueRec r).free = d.free := by unfold Dev.queueRec; dsimp only; (repeat' split) <;> simp
@[simp] theorem Dev.queueRec_pg_st : (d.queueRec r).pg.st = d.pg.st := by unfold Dev.queueRec; dsimp only; (repeat' split) <;> simp
@[simp] theorem Dev.queueRec_pg_snap : (d.queueRec r).pg.snap = d.pg.snap := by unfold Dev.queueRec; dsimp only; (repeat' split) <;> simp
@[simp] theorem Dev.queueRec_pg_regs : (d.queueRec r).pg.regs = d.pg.regs := by unfold Dev.queueRec; dsimp only; (repeat' split) <;> simp
@[simp] theorem Dev.queueRec_pg_gen : (d.queueRec r).pg.gen = d.pg.gen := by unfold Dev.queueRec; dsimp only; (repeat' split) <;> simp

end

/-! ### Dev.record -/

section
variable (d : Dev) (code : Nat) (p : Page) (sev : Sev) (dom : Dom) (n : Option Nat) (ak a i : Nat) (e : Bool)

@[simp] theorem Dev.record_parts : (d.record code p sev dom n ak a i e).parts = d.parts := by simp [Dev.record]
@[simp] theorem Dev.record_store : (d.record code p sev dom n ak a i e).store = d.store := by simp [Dev.record]
@[simp] theorem Dev.record_irq : (d.record code p sev dom n ak a i e).irq = d.irq := by simp [Dev.record]
@[simp] theorem Dev.record_mem : (d.record code p sev dom n ak a i e).mem = d.mem := by simp [Dev.record]
@[simp] theorem Dev.record_poison : (d.record code p sev dom n ak a i e).poison = d.poison := by simp [Dev.record]
@[simp] theorem Dev.record_isles : (d.record code p sev dom n ak a i e).isles = d.isles := by simp [Dev.record]
@[simp] theorem Dev.record_cores : (d.record code p sev dom n ak a i e).cores = d.cores := by simp [Dev.record]
@[simp] theorem Dev.record_evc : (d.record code p sev dom n ak a i e).evc = d.evc := by simp [Dev.record]
@[simp] theorem Dev.record_sigs : (d.record code p sev dom n ak a i e).sigs = d.sigs := by simp [Dev.record]
@[simp] theorem Dev.record_clus : (d.record code p sev dom n ak a i e).clus = d.clus := by simp [Dev.record]
@[simp] theorem Dev.record_mvec : (d.record code p sev dom n ak a i e).mvec = d.mvec := by simp [Dev.record]
@[simp] theorem Dev.record_nwch : (d.record code p sev dom n ak a i e).nwch = d.nwch := by simp [Dev.record]
@[simp] theorem Dev.record_opte : (d.record code p sev dom n ak a i e).opte = d.opte := by simp [Dev.record]
@[simp] theorem Dev.record_rede : (d.record code p sev dom n ak a i e).rede = d.rede := by simp [Dev.record]
@[simp] theorem Dev.record_tokx : (d.record code p sev dom n ak a i e).tokx = d.tokx := by simp [Dev.record]
@[simp] theorem Dev.record_shelves : (d.record code p sev dom n ak a i e).shelves = d.shelves := by simp [Dev.record]
@[simp] theorem Dev.record_tier : (d.record code p sev dom n ak a i e).tier = d.tier := by simp [Dev.record]
@[simp] theorem Dev.record_flash : (d.record code p sev dom n ak a i e).flash = d.flash := by simp [Dev.record]
@[simp] theorem Dev.record_rings : (d.record code p sev dom n ak a i e).rings = d.rings := by simp [Dev.record]
@[simp] theorem Dev.record_dmae : (d.record code p sev dom n ak a i e).dmae = d.dmae := by simp [Dev.record]
@[simp] theorem Dev.record_eth : (d.record code p sev dom n ak a i e).eth = d.eth := by simp [Dev.record]
@[simp] theorem Dev.record_fab : (d.record code p sev dom n ak a i e).fab = d.fab := by simp [Dev.record]
@[simp] theorem Dev.record_strm : (d.record code p sev dom n ak a i e).strm = d.strm := by simp [Dev.record]
@[simp] theorem Dev.record_pwr : (d.record code p sev dom n ak a i e).pwr = d.pwr := by simp [Dev.record]
@[simp] theorem Dev.record_halt : (d.record code p sev dom n ak a i e).halt = d.halt := by simp [Dev.record]
@[simp] theorem Dev.record_brake : (d.record code p sev dom n ak a i e).brake = d.brake := by simp [Dev.record]
@[simp] theorem Dev.record_sec : (d.record code p sev dom n ak a i e).sec = d.sec := by simp [Dev.record]
@[simp] theorem Dev.record_boot : (d.record code p sev dom n ak a i e).boot = d.boot := by simp [Dev.record]
@[simp] theorem Dev.record_out : (d.record code p sev dom n ak a i e).out = d.out := by simp [Dev.record]
@[simp] theorem Dev.record_free : (d.record code p sev dom n ak a i e).free = d.free := by simp [Dev.record]
@[simp] theorem Dev.record_pg_st : (d.record code p sev dom n ak a i e).pg.st = d.pg.st := by simp [Dev.record]
@[simp] theorem Dev.record_pg_snap : (d.record code p sev dom n ak a i e).pg.snap = d.pg.snap := by simp [Dev.record]
@[simp] theorem Dev.record_pg_regs : (d.record code p sev dom n ak a i e).pg.regs = d.pg.regs := by simp [Dev.record]
@[simp] theorem Dev.record_pg_gen : (d.record code p sev dom n ak a i e).pg.gen = d.pg.gen := by simp [Dev.record]

end

/-! ### Dev.poisonRead -/

section
variable (d : Dev) (p : Page) (ak a : Nat) (n : Option Nat)

@[simp] theorem Dev.poisonRead_parts : (d.poisonRead p ak a n).parts = d.parts := by simp [Dev.poisonRead]
@[simp] theorem Dev.poisonRead_store : (d.poisonRead p ak a n).store = d.store := by simp [Dev.poisonRead]
@[simp] theorem Dev.poisonRead_irq : (d.poisonRead p ak a n).irq = d.irq := by simp [Dev.poisonRead]
@[simp] theorem Dev.poisonRead_mem : (d.poisonRead p ak a n).mem = d.mem := by simp [Dev.poisonRead]
@[simp] theorem Dev.poisonRead_poison : (d.poisonRead p ak a n).poison = d.poison := by simp [Dev.poisonRead]
@[simp] theorem Dev.poisonRead_isles : (d.poisonRead p ak a n).isles = d.isles := by simp [Dev.poisonRead]
@[simp] theorem Dev.poisonRead_cores : (d.poisonRead p ak a n).cores = d.cores := by simp [Dev.poisonRead]
@[simp] theorem Dev.poisonRead_evc : (d.poisonRead p ak a n).evc = d.evc := by simp [Dev.poisonRead]
@[simp] theorem Dev.poisonRead_sigs : (d.poisonRead p ak a n).sigs = d.sigs := by simp [Dev.poisonRead]
@[simp] theorem Dev.poisonRead_clus : (d.poisonRead p ak a n).clus = d.clus := by simp [Dev.poisonRead]
@[simp] theorem Dev.poisonRead_mvec : (d.poisonRead p ak a n).mvec = d.mvec := by simp [Dev.poisonRead]
@[simp] theorem Dev.poisonRead_nwch : (d.poisonRead p ak a n).nwch = d.nwch := by simp [Dev.poisonRead]
@[simp] theorem Dev.poisonRead_opte : (d.poisonRead p ak a n).opte = d.opte := by simp [Dev.poisonRead]
@[simp] theorem Dev.poisonRead_rede : (d.poisonRead p ak a n).rede = d.rede := by simp [Dev.poisonRead]
@[simp] theorem Dev.poisonRead_tokx : (d.poisonRead p ak a n).tokx = d.tokx := by simp [Dev.poisonRead]
@[simp] theorem Dev.poisonRead_shelves : (d.poisonRead p ak a n).shelves = d.shelves := by simp [Dev.poisonRead]
@[simp] theorem Dev.poisonRead_tier : (d.poisonRead p ak a n).tier = d.tier := by simp [Dev.poisonRead]
@[simp] theorem Dev.poisonRead_flash : (d.poisonRead p ak a n).flash = d.flash := by simp [Dev.poisonRead]
@[simp] theorem Dev.poisonRead_rings : (d.poisonRead p ak a n).rings = d.rings := by simp [Dev.poisonRead]
@[simp] theorem Dev.poisonRead_dmae : (d.poisonRead p ak a n).dmae = d.dmae := by simp [Dev.poisonRead]
@[simp] theorem Dev.poisonRead_eth : (d.poisonRead p ak a n).eth = d.eth := by simp [Dev.poisonRead]
@[simp] theorem Dev.poisonRead_fab : (d.poisonRead p ak a n).fab = d.fab := by simp [Dev.poisonRead]
@[simp] theorem Dev.poisonRead_strm : (d.poisonRead p ak a n).strm = d.strm := by simp [Dev.poisonRead]
@[simp] theorem Dev.poisonRead_pwr : (d.poisonRead p ak a n).pwr = d.pwr := by simp [Dev.poisonRead]
@[simp] theorem Dev.poisonRead_halt : (d.poisonRead p ak a n).halt = d.halt := by simp [Dev.poisonRead]
@[simp] theorem Dev.poisonRead_brake : (d.poisonRead p ak a n).brake = d.brake := by simp [Dev.poisonRead]
@[simp] theorem Dev.poisonRead_sec : (d.poisonRead p ak a n).sec = d.sec := by simp [Dev.poisonRead]
@[simp] theorem Dev.poisonRead_boot : (d.poisonRead p ak a n).boot = d.boot := by simp [Dev.poisonRead]
@[simp] theorem Dev.poisonRead_out : (d.poisonRead p ak a n).out = d.out := by simp [Dev.poisonRead]
@[simp] theorem Dev.poisonRead_free : (d.poisonRead p ak a n).free = d.free := by simp [Dev.poisonRead]
@[simp] theorem Dev.poisonRead_pg_st : (d.poisonRead p ak a n).pg.st = d.pg.st := by simp [Dev.poisonRead]
@[simp] theorem Dev.poisonRead_pg_snap : (d.poisonRead p ak a n).pg.snap = d.pg.snap := by simp [Dev.poisonRead]
@[simp] theorem Dev.poisonRead_pg_regs : (d.poisonRead p ak a n).pg.regs = d.pg.regs := by simp [Dev.poisonRead]
@[simp] theorem Dev.poisonRead_pg_gen : (d.poisonRead p ak a n).pg.gen = d.pg.gen := by simp [Dev.poisonRead]

end

/-! ### Dev.violate -/

section
variable (d : Dev) (n off : Nat)

@[simp] theorem Dev.violate_store : (d.violate n off).store = d.store := by simp [Dev.violate]
@[simp] theorem Dev.violate_irq : (d.violate n off).irq = d.irq := by simp [Dev.violate]
@[simp] theorem Dev.violate_mem : (d.violate n off).mem = d.mem := by simp [Dev.violate]
@[simp] theorem Dev.violate_poison : (d.violate n off).poison = d.poison := by simp [Dev.violate]
@[simp] theorem Dev.violate_isles : (d.violate n off).isles = d.isles := by simp [Dev.violate]
@[simp] theorem Dev.violate_cores : (d.violate n off).cores = d.cores := by simp [Dev.violate]
@[simp] theorem Dev.violate_evc : (d.violate n off).evc = d.evc := by simp [Dev.violate]
@[simp] theorem Dev.violate_sigs : (d.violate n off).sigs = d.sigs := by simp [Dev.violate]
@[simp] theorem Dev.violate_clus : (d.violate n off).clus = d.clus := by simp [Dev.violate]
@[simp] theorem Dev.violate_mvec : (d.violate n off).mvec = d.mvec := by simp [Dev.violate]
@[simp] theorem Dev.violate_nwch : (d.violate n off).nwch = d.nwch := by simp [Dev.violate]
@[simp] theorem Dev.violate_opte : (d.violate n off).opte = d.opte := by simp [Dev.violate]
@[simp] theorem Dev.violate_rede : (d.violate n off).rede = d.rede := by simp [Dev.violate]
@[simp] theorem Dev.violate_tokx : (d.violate n off).tokx = d.tokx := by simp [Dev.violate]
@[simp] theorem Dev.violate_shelves : (d.violate n off).shelves = d.shelves := by simp [Dev.violate]
@[simp] theorem Dev.violate_tier : (d.violate n off).tier = d.tier := by simp [Dev.violate]
@[simp] theorem Dev.violate_flash : (d.violate n off).flash = d.flash := by simp [Dev.violate]
@[simp] theorem Dev.violate_rings : (d.violate n off).rings = d.rings := by simp [Dev.violate]
@[simp] theorem Dev.violate_dmae : (d.violate n off).dmae = d.dmae := by simp [Dev.violate]
@[simp] theorem Dev.violate_eth : (d.violate n off).eth = d.eth := by simp [Dev.violate]
@[simp] theorem Dev.violate_fab : (d.violate n off).fab = d.fab := by simp [Dev.violate]
@[simp] theorem Dev.violate_strm : (d.violate n off).strm = d.strm := by simp [Dev.violate]
@[simp] theorem Dev.violate_pwr : (d.violate n off).pwr = d.pwr := by simp [Dev.violate]
@[simp] theorem Dev.violate_errm : (d.violate n off).errm = d.errm := by simp [Dev.violate]
@[simp] theorem Dev.violate_halt : (d.violate n off).halt = d.halt := by simp [Dev.violate]
@[simp] theorem Dev.violate_brake : (d.violate n off).brake = d.brake := by simp [Dev.violate]
@[simp] theorem Dev.violate_sec : (d.violate n off).sec = d.sec := by simp [Dev.violate]
@[simp] theorem Dev.violate_boot : (d.violate n off).boot = d.boot := by simp [Dev.violate]
@[simp] theorem Dev.violate_out : (d.violate n off).out = d.out := by simp [Dev.violate]
@[simp] theorem Dev.violate_free : (d.violate n off).free = d.free := by simp [Dev.violate]
@[simp] theorem Dev.violate_pg_st : (d.violate n off).pg.st = d.pg.st := by simp [Dev.violate]
@[simp] theorem Dev.violate_pg_ctr : (d.violate n off).pg.ctr = d.pg.ctr := by simp [Dev.violate]
@[simp] theorem Dev.violate_pg_snap : (d.violate n off).pg.snap = d.pg.snap := by simp [Dev.violate]
@[simp] theorem Dev.violate_pg_regs : (d.violate n off).pg.regs = d.pg.regs := by simp [Dev.violate]
@[simp] theorem Dev.violate_pg_gen : (d.violate n off).pg.gen = d.pg.gen := by simp [Dev.violate]

end

/-! ### Dev.violR -/

section
variable (d : Dev) (n : Fin 16) (p : Page) (off : Nat)

@[simp] theorem Dev.violR_store : (d.violR n p off).store = d.store := by simp [Dev.violR]
@[simp] theorem Dev.violR_irq : (d.violR n p off).irq = d.irq := by simp [Dev.violR]
@[simp] theorem Dev.violR_mem : (d.violR n p off).mem = d.mem := by simp [Dev.violR]
@[simp] theorem Dev.violR_poison : (d.violR n p off).poison = d.poison := by simp [Dev.violR]
@[simp] theorem Dev.violR_isles : (d.violR n p off).isles = d.isles := by simp [Dev.violR]
@[simp] theorem Dev.violR_cores : (d.violR n p off).cores = d.cores := by simp [Dev.violR]
@[simp] theorem Dev.violR_evc : (d.violR n p off).evc = d.evc := by simp [Dev.violR]
@[simp] theorem Dev.violR_sigs : (d.violR n p off).sigs = d.sigs := by simp [Dev.violR]
@[simp] theorem Dev.violR_clus : (d.violR n p off).clus = d.clus := by simp [Dev.violR]
@[simp] theorem Dev.violR_mvec : (d.violR n p off).mvec = d.mvec := by simp [Dev.violR]
@[simp] theorem Dev.violR_nwch : (d.violR n p off).nwch = d.nwch := by simp [Dev.violR]
@[simp] theorem Dev.violR_opte : (d.violR n p off).opte = d.opte := by simp [Dev.violR]
@[simp] theorem Dev.violR_rede : (d.violR n p off).rede = d.rede := by simp [Dev.violR]
@[simp] theorem Dev.violR_tokx : (d.violR n p off).tokx = d.tokx := by simp [Dev.violR]
@[simp] theorem Dev.violR_shelves : (d.violR n p off).shelves = d.shelves := by simp [Dev.violR]
@[simp] theorem Dev.violR_tier : (d.violR n p off).tier = d.tier := by simp [Dev.violR]
@[simp] theorem Dev.violR_flash : (d.violR n p off).flash = d.flash := by simp [Dev.violR]
@[simp] theorem Dev.violR_rings : (d.violR n p off).rings = d.rings := by simp [Dev.violR]
@[simp] theorem Dev.violR_dmae : (d.violR n p off).dmae = d.dmae := by simp [Dev.violR]
@[simp] theorem Dev.violR_eth : (d.violR n p off).eth = d.eth := by simp [Dev.violR]
@[simp] theorem Dev.violR_fab : (d.violR n p off).fab = d.fab := by simp [Dev.violR]
@[simp] theorem Dev.violR_strm : (d.violR n p off).strm = d.strm := by simp [Dev.violR]
@[simp] theorem Dev.violR_pwr : (d.violR n p off).pwr = d.pwr := by simp [Dev.violR]
@[simp] theorem Dev.violR_errm : (d.violR n p off).errm = d.errm := by simp [Dev.violR]
@[simp] theorem Dev.violR_halt : (d.violR n p off).halt = d.halt := by simp [Dev.violR]
@[simp] theorem Dev.violR_brake : (d.violR n p off).brake = d.brake := by simp [Dev.violR]
@[simp] theorem Dev.violR_sec : (d.violR n p off).sec = d.sec := by simp [Dev.violR]
@[simp] theorem Dev.violR_boot : (d.violR n p off).boot = d.boot := by simp [Dev.violR]
@[simp] theorem Dev.violR_out : (d.violR n p off).out = d.out := by simp [Dev.violR]
@[simp] theorem Dev.violR_free : (d.violR n p off).free = d.free := by simp [Dev.violR]
@[simp] theorem Dev.violR_pg_st : (d.violR n p off).pg.st = d.pg.st := by simp [Dev.violR]
@[simp] theorem Dev.violR_pg_ctr : (d.violR n p off).pg.ctr = d.pg.ctr := by simp [Dev.violR]
@[simp] theorem Dev.violR_pg_snap : (d.violR n p off).pg.snap = d.pg.snap := by simp [Dev.violR]
@[simp] theorem Dev.violR_pg_regs : (d.violR n p off).pg.regs = d.pg.regs := by simp [Dev.violR]
@[simp] theorem Dev.violR_pg_gen : (d.violR n p off).pg.gen = d.pg.gen := by simp [Dev.violR]

end

/-! ### Dev.msix -/

section
variable (d : Dev) (v : View) (k : Nat)

@[simp] theorem Dev.msix_parts : (d.msix v k).parts = d.parts := by unfold Dev.msix; dsimp only; (repeat' split) <;> simp
@[simp] theorem Dev.msix_store : (d.msix v k).store = d.store := by unfold Dev.msix; dsimp only; (repeat' split) <;> simp
@[simp] theorem Dev.msix_mem : (d.msix v k).mem = d.mem := by unfold Dev.msix; dsimp only; (repeat' split) <;> simp
@[simp] theorem Dev.msix_poison : (d.msix v k).poison = d.poison := by unfold Dev.msix; dsimp only; (repeat' split) <;> simp
@[simp] theorem Dev.msix_isles : (d.msix v k).isles = d.isles := by unfold Dev.msix; dsimp only; (repeat' split) <;> simp
@[simp] theorem Dev.msix_cores : (d.msix v k).cores = d.cores := by unfold Dev.msix; dsimp only; (repeat' split) <;> simp
@[simp] theorem Dev.msix_evc : (d.msix v k).evc = d.evc := by unfold Dev.msix; dsimp only; (repeat' split) <;> simp
@[simp] theorem Dev.msix_sigs : (d.msix v k).sigs = d.sigs := by unfold Dev.msix; dsimp only; (repeat' split) <;> simp
@[simp] theorem Dev.msix_clus : (d.msix v k).clus = d.clus := by unfold Dev.msix; dsimp only; (repeat' split) <;> simp
@[simp] theorem Dev.msix_mvec : (d.msix v k).mvec = d.mvec := by unfold Dev.msix; dsimp only; (repeat' split) <;> simp
@[simp] theorem Dev.msix_nwch : (d.msix v k).nwch = d.nwch := by unfold Dev.msix; dsimp only; (repeat' split) <;> simp
@[simp] theorem Dev.msix_opte : (d.msix v k).opte = d.opte := by unfold Dev.msix; dsimp only; (repeat' split) <;> simp
@[simp] theorem Dev.msix_rede : (d.msix v k).rede = d.rede := by unfold Dev.msix; dsimp only; (repeat' split) <;> simp
@[simp] theorem Dev.msix_tokx : (d.msix v k).tokx = d.tokx := by unfold Dev.msix; dsimp only; (repeat' split) <;> simp
@[simp] theorem Dev.msix_shelves : (d.msix v k).shelves = d.shelves := by unfold Dev.msix; dsimp only; (repeat' split) <;> simp
@[simp] theorem Dev.msix_tier : (d.msix v k).tier = d.tier := by unfold Dev.msix; dsimp only; (repeat' split) <;> simp
@[simp] theorem Dev.msix_flash : (d.msix v k).flash = d.flash := by unfold Dev.msix; dsimp only; (repeat' split) <;> simp
@[simp] theorem Dev.msix_rings : (d.msix v k).rings = d.rings := by unfold Dev.msix; dsimp only; (repeat' split) <;> simp
@[simp] theorem Dev.msix_dmae : (d.msix v k).dmae = d.dmae := by unfold Dev.msix; dsimp only; (repeat' split) <;> simp
@[simp] theorem Dev.msix_eth : (d.msix v k).eth = d.eth := by unfold Dev.msix; dsimp only; (repeat' split) <;> simp
@[simp] theorem Dev.msix_fab : (d.msix v k).fab = d.fab := by unfold Dev.msix; dsimp only; (repeat' split) <;> simp
@[simp] theorem Dev.msix_strm : (d.msix v k).strm = d.strm := by unfold Dev.msix; dsimp only; (repeat' split) <;> simp
@[simp] theorem Dev.msix_pwr : (d.msix v k).pwr = d.pwr := by unfold Dev.msix; dsimp only; (repeat' split) <;> simp
@[simp] theorem Dev.msix_errm : (d.msix v k).errm = d.errm := by unfold Dev.msix; dsimp only; (repeat' split) <;> simp
@[simp] theorem Dev.msix_halt : (d.msix v k).halt = d.halt := by unfold Dev.msix; dsimp only; (repeat' split) <;> simp
@[simp] theorem Dev.msix_brake : (d.msix v k).brake = d.brake := by unfold Dev.msix; dsimp only; (repeat' split) <;> simp
@[simp] theorem Dev.msix_sec : (d.msix v k).sec = d.sec := by unfold Dev.msix; dsimp only; (repeat' split) <;> simp
@[simp] theorem Dev.msix_boot : (d.msix v k).boot = d.boot := by unfold Dev.msix; dsimp only; (repeat' split) <;> simp
@[simp] theorem Dev.msix_free : (d.msix v k).free = d.free := by unfold Dev.msix; dsimp only; (repeat' split) <;> simp
@[simp] theorem Dev.msix_pg_st : (d.msix v k).pg.st = d.pg.st := by unfold Dev.msix; dsimp only; (repeat' split) <;> simp
@[simp] theorem Dev.msix_pg_hdr : (d.msix v k).pg.hdr = d.pg.hdr := by unfold Dev.msix; dsimp only; (repeat' split) <;> simp
@[simp] theorem Dev.msix_pg_snap : (d.msix v k).pg.snap = d.pg.snap := by unfold Dev.msix; dsimp only; (repeat' split) <;> simp
@[simp] theorem Dev.msix_pg_regs : (d.msix v k).pg.regs = d.pg.regs := by unfold Dev.msix; dsimp only; (repeat' split) <;> simp
@[simp] theorem Dev.msix_pg_gen : (d.msix v k).pg.gen = d.pg.gen := by unfold Dev.msix; dsimp only; (repeat' split) <;> simp

end

/-! ### Dev.summarise -/

section
variable (d : Dev) (v : View) (i : Nat)

@[simp] theorem Dev.summarise_parts : (d.summarise v i).parts = d.parts := by unfold Dev.summarise; dsimp only; split <;> simp
@[simp] theorem Dev.summarise_store : (d.summarise v i).store = d.store := by unfold Dev.summarise; dsimp only; split <;> simp
@[simp] theorem Dev.summarise_mem : (d.summarise v i).mem = d.mem := by unfold Dev.summarise; dsimp only; split <;> simp
@[simp] theorem Dev.summarise_poison : (d.summarise v i).poison = d.poison := by unfold Dev.summarise; dsimp only; split <;> simp
@[simp] theorem Dev.summarise_isles : (d.summarise v i).isles = d.isles := by unfold Dev.summarise; dsimp only; split <;> simp
@[simp] theorem Dev.summarise_cores : (d.summarise v i).cores = d.cores := by unfold Dev.summarise; dsimp only; split <;> simp
@[simp] theorem Dev.summarise_evc : (d.summarise v i).evc = d.evc := by unfold Dev.summarise; dsimp only; split <;> simp
@[simp] theorem Dev.summarise_sigs : (d.summarise v i).sigs = d.sigs := by unfold Dev.summarise; dsimp only; split <;> simp
@[simp] theorem Dev.summarise_clus : (d.summarise v i).clus = d.clus := by unfold Dev.summarise; dsimp only; split <;> simp
@[simp] theorem Dev.summarise_mvec : (d.summarise v i).mvec = d.mvec := by unfold Dev.summarise; dsimp only; split <;> simp
@[simp] theorem Dev.summarise_nwch : (d.summarise v i).nwch = d.nwch := by unfold Dev.summarise; dsimp only; split <;> simp
@[simp] theorem Dev.summarise_opte : (d.summarise v i).opte = d.opte := by unfold Dev.summarise; dsimp only; split <;> simp
@[simp] theorem Dev.summarise_rede : (d.summarise v i).rede = d.rede := by unfold Dev.summarise; dsimp only; split <;> simp
@[simp] theorem Dev.summarise_tokx : (d.summarise v i).tokx = d.tokx := by unfold Dev.summarise; dsimp only; split <;> simp
@[simp] theorem Dev.summarise_shelves : (d.summarise v i).shelves = d.shelves := by unfold Dev.summarise; dsimp only; split <;> simp
@[simp] theorem Dev.summarise_tier : (d.summarise v i).tier = d.tier := by unfold Dev.summarise; dsimp only; split <;> simp
@[simp] theorem Dev.summarise_flash : (d.summarise v i).flash = d.flash := by unfold Dev.summarise; dsimp only; split <;> simp
@[simp] theorem Dev.summarise_rings : (d.summarise v i).rings = d.rings := by unfold Dev.summarise; dsimp only; split <;> simp
@[simp] theorem Dev.summarise_dmae : (d.summarise v i).dmae = d.dmae := by unfold Dev.summarise; dsimp only; split <;> simp
@[simp] theorem Dev.summarise_eth : (d.summarise v i).eth = d.eth := by unfold Dev.summarise; dsimp only; split <;> simp
@[simp] theorem Dev.summarise_fab : (d.summarise v i).fab = d.fab := by unfold Dev.summarise; dsimp only; split <;> simp
@[simp] theorem Dev.summarise_strm : (d.summarise v i).strm = d.strm := by unfold Dev.summarise; dsimp only; split <;> simp
@[simp] theorem Dev.summarise_pwr : (d.summarise v i).pwr = d.pwr := by unfold Dev.summarise; dsimp only; split <;> simp
@[simp] theorem Dev.summarise_errm : (d.summarise v i).errm = d.errm := by unfold Dev.summarise; dsimp only; split <;> simp
@[simp] theorem Dev.summarise_halt : (d.summarise v i).halt = d.halt := by unfold Dev.summarise; dsimp only; split <;> simp
@[simp] theorem Dev.summarise_brake : (d.summarise v i).brake = d.brake := by unfold Dev.summarise; dsimp only; split <;> simp
@[simp] theorem Dev.summarise_sec : (d.summarise v i).sec = d.sec := by unfold Dev.summarise; dsimp only; split <;> simp
@[simp] theorem Dev.summarise_boot : (d.summarise v i).boot = d.boot := by unfold Dev.summarise; dsimp only; split <;> simp
@[simp] theorem Dev.summarise_free : (d.summarise v i).free = d.free := by unfold Dev.summarise; dsimp only; split <;> simp
@[simp] theorem Dev.summarise_pg_st : (d.summarise v i).pg.st = d.pg.st := by unfold Dev.summarise; dsimp only; split <;> simp
@[simp] theorem Dev.summarise_pg_hdr : (d.summarise v i).pg.hdr = d.pg.hdr := by unfold Dev.summarise; dsimp only; split <;> simp
@[simp] theorem Dev.summarise_pg_snap : (d.summarise v i).pg.snap = d.pg.snap := by unfold Dev.summarise; dsimp only; split <;> simp
@[simp] theorem Dev.summarise_pg_regs : (d.summarise v i).pg.regs = d.pg.regs := by unfold Dev.summarise; dsimp only; split <;> simp
@[simp] theorem Dev.summarise_pg_gen : (d.summarise v i).pg.gen = d.pg.gen := by unfold Dev.summarise; dsimp only; split <;> simp

end

/-! ### Dev.raise -/

section
variable (d : Dev) (x : View × Page)

@[simp] theorem Dev.raise_parts : (d.raise x).parts = d.parts := by unfold Dev.raise; (repeat' split) <;> simp
@[simp] theorem Dev.raise_store : (d.raise x).store = d.store := by unfold Dev.raise; (repeat' split) <;> simp
@[simp] theorem Dev.raise_mem : (d.raise x).mem = d.mem := by unfold Dev.raise; (repeat' split) <;> simp
@[simp] theorem Dev.raise_poison : (d.raise x).poison = d.poison := by unfold Dev.raise; (repeat' split) <;> simp
@[simp] theorem Dev.raise_isles : (d.raise x).isles = d.isles := by unfold Dev.raise; (repeat' split) <;> simp
@[simp] theorem Dev.raise_cores : (d.raise x).cores = d.cores := by unfold Dev.raise; (repeat' split) <;> simp
@[simp] theorem Dev.raise_evc : (d.raise x).evc = d.evc := by unfold Dev.raise; (repeat' split) <;> simp
@[simp] theorem Dev.raise_sigs : (d.raise x).sigs = d.sigs := by unfold Dev.raise; (repeat' split) <;> simp
@[simp] theorem Dev.raise_clus : (d.raise x).clus = d.clus := by unfold Dev.raise; (repeat' split) <;> simp
@[simp] theorem Dev.raise_mvec : (d.raise x).mvec = d.mvec := by unfold Dev.raise; (repeat' split) <;> simp
@[simp] theorem Dev.raise_nwch : (d.raise x).nwch = d.nwch := by unfold Dev.raise; (repeat' split) <;> simp
@[simp] theorem Dev.raise_opte : (d.raise x).opte = d.opte := by unfold Dev.raise; (repeat' split) <;> simp
@[simp] theorem Dev.raise_rede : (d.raise x).rede = d.rede := by unfold Dev.raise; (repeat' split) <;> simp
@[simp] theorem Dev.raise_tokx : (d.raise x).tokx = d.tokx := by unfold Dev.raise; (repeat' split) <;> simp
@[simp] theorem Dev.raise_shelves : (d.raise x).shelves = d.shelves := by unfold Dev.raise; (repeat' split) <;> simp
@[simp] theorem Dev.raise_tier : (d.raise x).tier = d.tier := by unfold Dev.raise; (repeat' split) <;> simp
@[simp] theorem Dev.raise_flash : (d.raise x).flash = d.flash := by unfold Dev.raise; (repeat' split) <;> simp
@[simp] theorem Dev.raise_rings : (d.raise x).rings = d.rings := by unfold Dev.raise; (repeat' split) <;> simp
@[simp] theorem Dev.raise_dmae : (d.raise x).dmae = d.dmae := by unfold Dev.raise; (repeat' split) <;> simp
@[simp] theorem Dev.raise_eth : (d.raise x).eth = d.eth := by unfold Dev.raise; (repeat' split) <;> simp
@[simp] theorem Dev.raise_fab : (d.raise x).fab = d.fab := by unfold Dev.raise; (repeat' split) <;> simp
@[simp] theorem Dev.raise_strm : (d.raise x).strm = d.strm := by unfold Dev.raise; (repeat' split) <;> simp
@[simp] theorem Dev.raise_pwr : (d.raise x).pwr = d.pwr := by unfold Dev.raise; (repeat' split) <;> simp
@[simp] theorem Dev.raise_errm : (d.raise x).errm = d.errm := by unfold Dev.raise; (repeat' split) <;> simp
@[simp] theorem Dev.raise_halt : (d.raise x).halt = d.halt := by unfold Dev.raise; (repeat' split) <;> simp
@[simp] theorem Dev.raise_brake : (d.raise x).brake = d.brake := by unfold Dev.raise; (repeat' split) <;> simp
@[simp] theorem Dev.raise_sec : (d.raise x).sec = d.sec := by unfold Dev.raise; (repeat' split) <;> simp
@[simp] theorem Dev.raise_boot : (d.raise x).boot = d.boot := by unfold Dev.raise; (repeat' split) <;> simp
@[simp] theorem Dev.raise_free : (d.raise x).free = d.free := by unfold Dev.raise; (repeat' split) <;> simp
@[simp] theorem Dev.raise_pg_st : (d.raise x).pg.st = d.pg.st := by unfold Dev.raise; (repeat' split) <;> simp
@[simp] theorem Dev.raise_pg_hdr : (d.raise x).pg.hdr = d.pg.hdr := by unfold Dev.raise; (repeat' split) <;> simp
@[simp] theorem Dev.raise_pg_snap : (d.raise x).pg.snap = d.pg.snap := by unfold Dev.raise; (repeat' split) <;> simp
@[simp] theorem Dev.raise_pg_regs : (d.raise x).pg.regs = d.pg.regs := by unfold Dev.raise; (repeat' split) <;> simp
@[simp] theorem Dev.raise_pg_gen : (d.raise x).pg.gen = d.pg.gen := by unfold Dev.raise; (repeat' split) <;> simp

end

/-! ### Dev.finish -/

@[simp] theorem Dev.finish_parts (d : Dev) : d.finish.parts = d.parts := by
  unfold Dev.finish
  exact List.foldlRecOn d.pendingEvents Dev.raise (motive := fun b => b.parts = d.parts) rfl fun b hb a _ => by simpa using hb
@[simp] theorem Dev.finish_store (d : Dev) : d.finish.store = d.store := by
  unfold Dev.finish
  exact List.foldlRecOn d.pendingEvents Dev.raise (motive := fun b => b.store = d.store) rfl fun b hb a _ => by simpa using hb
@[simp] theorem Dev.finish_mem (d : Dev) : d.finish.mem = d.mem := by
  unfold Dev.finish
  exact List.foldlRecOn d.pendingEvents Dev.raise (motive := fun b => b.mem = d.mem) rfl fun b hb a _ => by simpa using hb
@[simp] theorem Dev.finish_poison (d : Dev) : d.finish.poison = d.poison := by
  unfold Dev.finish
  exact List.foldlRecOn d.pendingEvents Dev.raise (motive := fun b => b.poison = d.poison) rfl fun b hb a _ => by simpa using hb
@[simp] theorem Dev.finish_isles (d : Dev) : d.finish.isles = d.isles := by
  unfold Dev.finish
  exact List.foldlRecOn d.pendingEvents Dev.raise (motive := fun b => b.isles = d.isles) rfl fun b hb a _ => by simpa using hb
@[simp] theorem Dev.finish_cores (d : Dev) : d.finish.cores = d.cores := by
  unfold Dev.finish
  exact List.foldlRecOn d.pendingEvents Dev.raise (motive := fun b => b.cores = d.cores) rfl fun b hb a _ => by simpa using hb
@[simp] theorem Dev.finish_evc (d : Dev) : d.finish.evc = d.evc := by
  unfold Dev.finish
  exact List.foldlRecOn d.pendingEvents Dev.raise (motive := fun b => b.evc = d.evc) rfl fun b hb a _ => by simpa using hb
@[simp] theorem Dev.finish_sigs (d : Dev) : d.finish.sigs = d.sigs := by
  unfold Dev.finish
  exact List.foldlRecOn d.pendingEvents Dev.raise (motive := fun b => b.sigs = d.sigs) rfl fun b hb a _ => by simpa using hb
@[simp] theorem Dev.finish_clus (d : Dev) : d.finish.clus = d.clus := by
  unfold Dev.finish
  exact List.foldlRecOn d.pendingEvents Dev.raise (motive := fun b => b.clus = d.clus) rfl fun b hb a _ => by simpa using hb
@[simp] theorem Dev.finish_mvec (d : Dev) : d.finish.mvec = d.mvec := by
  unfold Dev.finish
  exact List.foldlRecOn d.pendingEvents Dev.raise (motive := fun b => b.mvec = d.mvec) rfl fun b hb a _ => by simpa using hb
@[simp] theorem Dev.finish_nwch (d : Dev) : d.finish.nwch = d.nwch := by
  unfold Dev.finish
  exact List.foldlRecOn d.pendingEvents Dev.raise (motive := fun b => b.nwch = d.nwch) rfl fun b hb a _ => by simpa using hb
@[simp] theorem Dev.finish_opte (d : Dev) : d.finish.opte = d.opte := by
  unfold Dev.finish
  exact List.foldlRecOn d.pendingEvents Dev.raise (motive := fun b => b.opte = d.opte) rfl fun b hb a _ => by simpa using hb
@[simp] theorem Dev.finish_rede (d : Dev) : d.finish.rede = d.rede := by
  unfold Dev.finish
  exact List.foldlRecOn d.pendingEvents Dev.raise (motive := fun b => b.rede = d.rede) rfl fun b hb a _ => by simpa using hb
@[simp] theorem Dev.finish_tokx (d : Dev) : d.finish.tokx = d.tokx := by
  unfold Dev.finish
  exact List.foldlRecOn d.pendingEvents Dev.raise (motive := fun b => b.tokx = d.tokx) rfl fun b hb a _ => by simpa using hb
@[simp] theorem Dev.finish_shelves (d : Dev) : d.finish.shelves = d.shelves := by
  unfold Dev.finish
  exact List.foldlRecOn d.pendingEvents Dev.raise (motive := fun b => b.shelves = d.shelves) rfl fun b hb a _ => by simpa using hb
@[simp] theorem Dev.finish_tier (d : Dev) : d.finish.tier = d.tier := by
  unfold Dev.finish
  exact List.foldlRecOn d.pendingEvents Dev.raise (motive := fun b => b.tier = d.tier) rfl fun b hb a _ => by simpa using hb
@[simp] theorem Dev.finish_flash (d : Dev) : d.finish.flash = d.flash := by
  unfold Dev.finish
  exact List.foldlRecOn d.pendingEvents Dev.raise (motive := fun b => b.flash = d.flash) rfl fun b hb a _ => by simpa using hb
@[simp] theorem Dev.finish_rings (d : Dev) : d.finish.rings = d.rings := by
  unfold Dev.finish
  exact List.foldlRecOn d.pendingEvents Dev.raise (motive := fun b => b.rings = d.rings) rfl fun b hb a _ => by simpa using hb
@[simp] theorem Dev.finish_dmae (d : Dev) : d.finish.dmae = d.dmae := by
  unfold Dev.finish
  exact List.foldlRecOn d.pendingEvents Dev.raise (motive := fun b => b.dmae = d.dmae) rfl fun b hb a _ => by simpa using hb
@[simp] theorem Dev.finish_eth (d : Dev) : d.finish.eth = d.eth := by
  unfold Dev.finish
  exact List.foldlRecOn d.pendingEvents Dev.raise (motive := fun b => b.eth = d.eth) rfl fun b hb a _ => by simpa using hb
@[simp] theorem Dev.finish_fab (d : Dev) : d.finish.fab = d.fab := by
  unfold Dev.finish
  exact List.foldlRecOn d.pendingEvents Dev.raise (motive := fun b => b.fab = d.fab) rfl fun b hb a _ => by simpa using hb
@[simp] theorem Dev.finish_strm (d : Dev) : d.finish.strm = d.strm := by
  unfold Dev.finish
  exact List.foldlRecOn d.pendingEvents Dev.raise (motive := fun b => b.strm = d.strm) rfl fun b hb a _ => by simpa using hb
@[simp] theorem Dev.finish_pwr (d : Dev) : d.finish.pwr = d.pwr := by
  unfold Dev.finish
  exact List.foldlRecOn d.pendingEvents Dev.raise (motive := fun b => b.pwr = d.pwr) rfl fun b hb a _ => by simpa using hb
@[simp] theorem Dev.finish_errm (d : Dev) : d.finish.errm = d.errm := by
  unfold Dev.finish
  exact List.foldlRecOn d.pendingEvents Dev.raise (motive := fun b => b.errm = d.errm) rfl fun b hb a _ => by simpa using hb
@[simp] theorem Dev.finish_halt (d : Dev) : d.finish.halt = d.halt := by
  unfold Dev.finish
  exact List.foldlRecOn d.pendingEvents Dev.raise (motive := fun b => b.halt = d.halt) rfl fun b hb a _ => by simpa using hb
@[simp] theorem Dev.finish_brake (d : Dev) : d.finish.brake = d.brake := by
  unfold Dev.finish
  exact List.foldlRecOn d.pendingEvents Dev.raise (motive := fun b => b.brake = d.brake) rfl fun b hb a _ => by simpa using hb
@[simp] theorem Dev.finish_sec (d : Dev) : d.finish.sec = d.sec := by
  unfold Dev.finish
  exact List.foldlRecOn d.pendingEvents Dev.raise (motive := fun b => b.sec = d.sec) rfl fun b hb a _ => by simpa using hb
@[simp] theorem Dev.finish_boot (d : Dev) : d.finish.boot = d.boot := by
  unfold Dev.finish
  exact List.foldlRecOn d.pendingEvents Dev.raise (motive := fun b => b.boot = d.boot) rfl fun b hb a _ => by simpa using hb
@[simp] theorem Dev.finish_free (d : Dev) : d.finish.free = d.free := by
  unfold Dev.finish
  exact List.foldlRecOn d.pendingEvents Dev.raise (motive := fun b => b.free = d.free) rfl fun b hb a _ => by simpa using hb
@[simp] theorem Dev.finish_pg_st (d : Dev) : d.finish.pg.st = d.pg.st := by
  unfold Dev.finish
  exact List.foldlRecOn d.pendingEvents Dev.raise (motive := fun b => b.pg.st = d.pg.st) rfl fun b hb a _ => by simpa using hb
@[simp] theorem Dev.finish_pg_hdr (d : Dev) : d.finish.pg.hdr = d.pg.hdr := by
  unfold Dev.finish
  exact List.foldlRecOn d.pendingEvents Dev.raise (motive := fun b => b.pg.hdr = d.pg.hdr) rfl fun b hb a _ => by simpa using hb
@[simp] theorem Dev.finish_pg_snap (d : Dev) : d.finish.pg.snap = d.pg.snap := by
  unfold Dev.finish
  exact List.foldlRecOn d.pendingEvents Dev.raise (motive := fun b => b.pg.snap = d.pg.snap) rfl fun b hb a _ => by simpa using hb
@[simp] theorem Dev.finish_pg_regs (d : Dev) : d.finish.pg.regs = d.pg.regs := by
  unfold Dev.finish
  exact List.foldlRecOn d.pendingEvents Dev.raise (motive := fun b => b.pg.regs = d.pg.regs) rfl fun b hb a _ => by simpa using hb
@[simp] theorem Dev.finish_pg_gen (d : Dev) : d.finish.pg.gen = d.pg.gen := by
  unfold Dev.finish
  exact List.foldlRecOn d.pendingEvents Dev.raise (motive := fun b => b.pg.gen = d.pg.gen) rfl fun b hb a _ => by simpa using hb

end Sys2Proof.Machine
end

