-- ==== Sys2Proof/Laws/Exec.lean ====
section
/-!
SUPPORT. What every command's meaning comes to: an effect on the device, closed by the event summary, with the queue as
it was; or the fault that a page no module has raises.
-/

namespace Sys2Proof.Machine

theorem onDev_cases (f : Dev → Dev) (s : State) : (∃ g, onDev f s = onDev g s) ∨ onDev f s = .fault .noSuchUnit :=
  .inl ⟨f, rfl⟩

theorem onPage_cases (ok : Bool) (f : Dev → Dev) (s : State) :
    (∃ g, onPage ok f s = onDev g s) ∨ onPage ok f s = .fault .noSuchUnit := by
  cases ok
  · exact .inr rfl
  · exact .inl ⟨f, rfl⟩

/-- Every command is an effect on the device or names a page that no module has. -/
theorem exec_cases (c : Instr) (s : State) : (∃ g, exec c s = onDev g s) ∨ exec c s = .fault .noSuchUnit := by
  cases c <;> unfold exec <;> dsimp only <;> first | exact onPage_cases _ _ s | exact onDev_cases _ s

/-- The state that a command leaves keeps the queue. -/
theorem exec_pending (c : Instr) (s t : State) (h : exec c s = .next t) : t.pending = s.pending := by
  rcases exec_cases c s with ⟨g, hg⟩ | hg <;> rw [hg] at h
  · cases h; rfl
  · cases h

end Sys2Proof.Machine
end

