-- ==== Sys2Proof/Laws/SMap.lean ====
section
/-!
SUPPORT. Laws of sparse tables: what reads back after a put, and that puts, erasures and filters keep the canonical form.
-/

namespace Sys2Proof

variable {α : Type}

theorem SMap.find?_insert (m : SMap α) (k : Nat) (v : α) : (m.insert k v).find? k = some v := by
  induction m with
  | nil => simp [SMap.insert, SMap.find?]
  | cons e m ih =>
    obtain ⟨j, a⟩ := e
    simp only [SMap.insert]
    split
    · simp [SMap.find?]
    · split
      · simp [SMap.find?]
      · have : j ≠ k := by omega
        simp [SMap.find?, this, ih]

theorem SMap.find?_insert_ne (m : SMap α) (k j : Nat) (v : α) (h : j ≠ k) : (m.insert k v).find? j = m.find? j := by
  induction m with
  | nil => simp [SMap.insert, SMap.find?, Ne.symm h]
  | cons e m ih =>
    obtain ⟨i, a⟩ := e
    simp only [SMap.insert]
    split
    · simp [SMap.find?, Ne.symm h]
    · split
      · rename_i h2; subst h2; simp [SMap.find?, Ne.symm h]
      · simp [SMap.find?, ih]

theorem SMap.find?_erase_ne (m : SMap α) (k j : Nat) (h : j ≠ k) : (m.erase k).find? j = m.find? j := by
  induction m with
  | nil => rfl
  | cons e m ih =>
    obtain ⟨i, a⟩ := e
    by_cases hi : i = k
    · have hij : i ≠ j := fun h' => h (h'.symm.trans hi)
      simp only [SMap.erase, List.filter, hi, ne_eq, not_true_eq_false, decide_false, SMap.find?]
      subst hi
      simpa [hij, SMap.erase] using ih
    · simp only [SMap.erase, List.filter, hi, ne_eq, not_false_eq_true, decide_true, SMap.find?]
      split
      · rfl
      · exact ih

theorem SMap.find?_none_of_rising (m : SMap α) (b k : Nat) (h : SMap.rising m b = true) (hk : k < b) : m.find? k = none := by
  induction m generalizing b with
  | nil => rfl
  | cons e m ih =>
    obtain ⟨j, a⟩ := e
    simp only [SMap.rising, Bool.and_eq_true, decide_eq_true_eq] at h
    have : j ≠ k := by omega
    simp [SMap.find?, this, ih (j + 1) h.2 (by omega)]

/-- An erased key is not listed. -/
@[simp] theorem SMap.find?_erase (m : SMap α) (k : Nat) : (m.erase k).find? k = none := by
  induction m with
  | nil => rfl
  | cons e m ih =>
    obtain ⟨j, a⟩ := e
    by_cases hj : j = k
    · simpa [SMap.erase, List.filter, hj] using ih
    · simpa [SMap.erase, List.filter, hj, SMap.find?] using ih

theorem SMap.rising_mono (m : SMap α) (b c : Nat) (h : SMap.rising m b = true) (hc : c ≤ b) : SMap.rising m c = true := by
  cases m with
  | nil => rfl
  | cons e m =>
    simp only [SMap.rising, Bool.and_eq_true, decide_eq_true_eq] at h ⊢
    exact ⟨by omega, h.2⟩

theorem SMap.rising_insert (m : SMap α) (b k : Nat) (v : α) (h : SMap.rising m b = true) (hk : b ≤ k) :
    SMap.rising (m.insert k v) b = true := by
  induction m generalizing b with
  | nil => simp [SMap.insert, SMap.rising, hk]
  | cons e m ih =>
    obtain ⟨j, a⟩ := e
    simp only [SMap.rising, Bool.and_eq_true, decide_eq_true_eq] at h
    simp only [SMap.insert]
    split
    · simp only [SMap.rising, Bool.and_eq_true, decide_eq_true_eq]
      exact ⟨hk, by omega, h.2⟩
    · split
      · rename_i hkj; subst hkj; simp [SMap.rising, h.1, h.2]
      · simp only [SMap.rising, Bool.and_eq_true, decide_eq_true_eq]
        exact ⟨h.1, ih (j + 1) h.2 (by omega)⟩

theorem SMap.rising_filter (m : SMap α) (b : Nat) (p : Nat × α → Bool) (h : SMap.rising m b = true) :
    SMap.rising (m.filter p) b = true := by
  induction m generalizing b with
  | nil => rfl
  | cons e m ih =>
    obtain ⟨j, a⟩ := e
    simp only [SMap.rising, Bool.and_eq_true, decide_eq_true_eq] at h
    simp only [List.filter]
    split
    · simp [SMap.rising, h.1, ih (j + 1) h.2]
    · exact rising_mono _ (j + 1) b (ih (j + 1) h.2) (by omega)

theorem SMap.rising_erase (m : SMap α) (b k : Nat) (h : SMap.rising m b = true) : SMap.rising (m.erase k) b = true :=
  rising_filter m b _ h

theorem SMap.mem_insert (m : SMap α) (k : Nat) (v : α) (e : Nat × α) (h : e ∈ m.insert k v) : e = (k, v) ∨ e ∈ m := by
  induction m with
  | nil => simpa [SMap.insert] using h
  | cons x m ih =>
    obtain ⟨j, a⟩ := x
    simp only [SMap.insert] at h
    split at h
    · simpa using h
    · split at h
      · simp only [List.mem_cons] at h ⊢
        rcases h with h | h
        · exact .inl h
        · exact .inr (.inr h)
      · simp only [List.mem_cons] at h ⊢
        rcases h with h | h
        · exact .inr (.inl h)
        · rcases ih h with h | h
          · exact .inl h
          · exact .inr (.inr h)

theorem SMap.mem_erase (m : SMap α) (k : Nat) (e : Nat × α) (h : e ∈ m.erase k) : e ∈ m := (List.mem_filter.mp h).1

section
variable [DecidableEq α]

theorem SMap.wf_iff (dflt : α) (m : SMap α) : SMap.wf dflt m = true ↔ SMap.rising m 0 = true ∧ ∀ e ∈ m, e.2 ≠ dflt := by
  simp [SMap.wf, List.all_eq_true]

/-- A put keeps the canonical form. -/
theorem SMap.wf_put (dflt : α) (m : SMap α) (k : Nat) (v : α) (h : SMap.wf dflt m = true) :
    SMap.wf dflt (m.put dflt k v) = true := by
  rw [wf_iff] at h ⊢
  unfold SMap.put
  split
  · exact ⟨rising_erase m 0 k h.1, fun e he => h.2 e (mem_erase m k e he)⟩
  · rename_i hv
    refine ⟨rising_insert m 0 k v h.1 (by omega), fun e he => ?_⟩
    rcases mem_insert m k v e he with rfl | he
    · exact hv
    · exact h.2 e he

/-- A filter keeps the canonical form. -/
theorem SMap.wf_filter (dflt : α) (m : SMap α) (p : Nat × α → Bool) (h : SMap.wf dflt m = true) :
    SMap.wf dflt (m.filter p) = true := by
  rw [wf_iff] at h ⊢
  exact ⟨rising_filter m 0 p h.1, fun e he => h.2 e (List.mem_filter.mp he).1⟩

theorem SMap.wf_dropRange (dflt : α) (m : SMap α) (lo hi : Nat) (h : SMap.wf dflt m = true) :
    SMap.wf dflt (m.dropRange lo hi) = true := wf_filter dflt m _ h

theorem SMap.wf_upd (dflt : α) (m : SMap α) (k : Nat) (f : α → α) (h : SMap.wf dflt m = true) :
    SMap.wf dflt (m.upd dflt k f) = true := wf_put dflt m k _ h

/-- What was put reads back. -/
@[simp] theorem SMap.get_put (dflt : α) (m : SMap α) (k : Nat) (v : α) : (m.put dflt k v).get dflt k = v := by
  unfold SMap.put SMap.get
  split
  · rename_i hv; rw [find?_erase, hv]; rfl
  · rw [find?_insert]; rfl

/-- Every other key reads as before. -/
@[simp] theorem SMap.get_put_ne (dflt e : α) (m : SMap α) (k j : Nat) (v : α) (h : j ≠ k) :
    (m.put dflt k v).get e j = m.get e j := by
  unfold SMap.put SMap.get
  split
  · rw [find?_erase_ne m k j h]
  · rw [find?_insert_ne m k j v h]

@[simp] theorem SMap.get_upd (dflt : α) (m : SMap α) (k : Nat) (f : α → α) :
    (m.upd dflt k f).get dflt k = f (m.get dflt k) := get_put dflt m k _

@[simp] theorem SMap.get_upd_ne (dflt e : α) (m : SMap α) (k j : Nat) (f : α → α) (h : j ≠ k) :
    (m.upd dflt k f).get e j = m.get e j := get_put_ne dflt e m k j _ h

end

@[simp] theorem SMap.get_insert (m : SMap α) (dflt : α) (k : Nat) (v : α) : (m.insert k v).get dflt k = v := by
  simp [SMap.get, find?_insert]

@[simp] theorem SMap.get_insert_ne (m : SMap α) (dflt : α) (k j : Nat) (v : α) (h : j ≠ k) :
    (m.insert k v).get dflt j = m.get dflt j := by simp [SMap.get, find?_insert_ne m k j v h]

/-! ### Sets -/

theorem SSet.mem_add (m : SSet) (k j : Nat) : j ∈ SSet.add m k ↔ j = k ∨ j ∈ m := by
  induction m with
  | nil => simp [SSet.add]
  | cons i m ih =>
    simp only [SSet.add]
    split
    · simp
    · split
      · rename_i h; subst h; simp
      · simp only [List.mem_cons, ih]; exact or_left_comm

@[simp] theorem SSet.contains_add (m : SSet) (k : Nat) : (SSet.add m k).contains k = true := by
  simp [SSet.mem_add]

theorem SSet.mem_del (m : SSet) (k j : Nat) : j ∈ SSet.del m k ↔ j ∈ m ∧ j ≠ k := by simp [SSet.del]

end Sys2Proof
end

