-- ==== Sys2Proof/Laws/Mem.lean ====
section
/-!
SUPPORT. Laws of the module's memory: every operation on it keeps the canonical form; a byte written reads back, and a
write leaves every other byte alone.
-/

namespace Sys2Proof.Machine

theorem memWf_put (m : List Host.Cell) (k : Nat) (b : Byte) (h : memWf m = true) : memWf (SMap.put m memUnlisted k b) = true :=
  SMap.wf_put _ m k b h

theorem memWf_memWrite (m : List Host.Cell) (k : Nat) (bs : List Byte) (h : memWf m = true) : memWf (memWrite m k bs) = true := by
  induction bs generalizing m k with
  | nil => exact h
  | cons b bs ih => exact ih _ _ (memWf_put m k b h)

theorem memWf_memZero (m : List Host.Cell) (k n : Nat) (h : memWf m = true) : memWf (memZero m k n) = true :=
  SMap.wf_dropRange _ m _ _ h

theorem memWf_filter (m : List Host.Cell) (p : Host.Cell → Bool) (h : memWf m = true) : memWf (m.filter p) = true :=
  SMap.wf_filter _ m p h

/-- A byte outside those written reads as before. -/
theorem memGet_memWrite_other (m : List Host.Cell) (k a : Nat) (bs : List Byte) (h : a < k ∨ k + bs.length ≤ a) :
    memGet (memWrite m k bs) a = memGet m a := by
  induction bs generalizing m k with
  | nil => rfl
  | cons b bs ih =>
    simp only [List.length_cons] at h
    rw [memWrite, ih _ _ (by omega)]
    exact SMap.get_put_ne _ _ m k a b (by omega)

/-- The byte written reads back. -/
theorem memGet_memWrite (m : List Host.Cell) (k i : Nat) (bs : List Byte) (hi : i < bs.length) :
    memGet (memWrite m k bs) (k + i) = bs[i] := by
  induction bs generalizing m k i with
  | nil => simp at hi
  | cons b bs ih =>
    rw [memWrite]
    cases i with
    | zero =>
      rw [memGet_memWrite_other _ _ _ _ (by omega)]
      exact SMap.get_put _ m k b
    | succ i =>
      simp only [List.length_cons] at hi
      have := ih (SMap.put m memUnlisted k b) (k + 1) i (by omega)
      rw [show k + (i + 1) = k + 1 + i from by omega, this]
      rfl

@[simp] theorem Dev.breakWins_mem (d : Dev) (k n : Nat) : (d.breakWins k n).mem = d.mem := by
  unfold Dev.breakWins; dsimp only; split <;> rfl

@[simp] theorem Dev.wrBad_mem (d : Dev) (k : Nat) (bs : List Byte) (bad : List Nat) :
    (d.wrBad k bs bad).mem = memWrite d.mem k bs := by simp [Dev.wrBad]

@[simp] theorem Dev.wr_mem (d : Dev) (k : Nat) (bs : List Byte) : (d.wr k bs).mem = memWrite d.mem k bs := by simp [Dev.wr]

@[simp] theorem Dev.mark_mem (d : Dev) (k n : Nat) : (d.mark k n).mem = d.mem := by unfold Dev.mark; split <;> rfl

@[simp] theorem Dev.zero_mem (d : Dev) (k n : Nat) : (d.zero k n).mem = memZero d.mem k n := rfl

theorem Dev.wrAll_memWf (ws : List MemWr) (d : Dev) (h : memWf d.mem = true) : memWf (d.wrAll ws).mem = true := by
  induction ws generalizing d with
  | nil => exact h
  | cons w ws ih => exact ih _ (by rw [Dev.wrBad_mem]; exact memWf_memWrite _ _ _ h)

@[simp] theorem Dev.markAll_mem (ws : List MemWr) (d : Dev) : (d.markAll ws).mem = d.mem := by
  induction ws generalizing d with
  | nil => rfl
  | cons w ws ih => exact (ih _).trans (Dev.mark_mem d _ _)

/-- T1 bytes that are zeroed leave the canonical form. -/
theorem Dev.t1Zero_memWf (d : Dev) (ps : List Nat) (a n : Nat) (h : memWf d.mem = true) :
    memWf (d.t1Zero ps a n).mem = true := by
  unfold Dev.t1Zero
  exact memWf_filter _ _ h

end Sys2Proof.Machine
end

