-- ==== Sys2Proof/Tests/Slice0.lean ====
section
/-!
SUPPORT. Small tests: ill-formed commands are refused by the check, every statement's hypotheses are met by a concrete
state and operands (theorems wit_…), and results that the spec's examples and tables give (theorems test_…).
-/

namespace Sys2Proof.Tests

open Sys2Proof.Machine Sys2Proof.Safety

set_option maxRecDepth 100000
set_option Elab.async false

/-! ### States to start from -/

/-- The device at reset. -/
def d0 : Dev := Dev.reset
/-- Version 1.3 is in force on a page in a view. -/
def neg (v : View) (p : Page) (d : Dev) : Dev := d.updHdr v p fun h => { h with neg := some (1, 3) }
/-- A page in a state, enabled. -/
def at_ (p : Page) (x : BlkState) (d : Dev) : Dev := d.setPst p ⟨x, true, false⟩
/-- A state with nothing waiting. -/
def st (d : Dev) : State := { pending := [], dev := d }
/-- What a command leaves. -/
def after (c : Instr) (d : Dev) : Option Dev := match exec c (st d) with
  | .next t => some t.dev
  | _ => none
/-- A command leaves a device that passes a test. -/
def leaves (c : Instr) (d : Dev) (f : Dev → Bool) : Bool := (after c d).any f

/-- A device with a page open for VF 0 as for the PF. -/
def opened (p : Page) : Dev := neg (.vf 0) p (neg .pf p d0)
/-- CORE page 0 in a state; the PF view and VF 0 have it. -/
def core0 (x : BlkState) : Dev := at_ (pCore 0) x d0

/-! ### The check of well-formed commands: each refuses an ill-formed one -/

/-- An island that R42 does not have, and a page beyond its block's count. -/
def noPage : Page := ⟨.ethp, 12⟩
/-- A packet with nothing in it. -/
def pkt : Packet :=
  { link := 0, sub := ⟨0, 0⟩, ver := 0x10, flags := 0, part := 0xFF, srcDev := 2, dstDev := 1, srcEpoch := 1, dstEpoch := 1,
    flow := 0x0FF0, key := 0, ce := 0, psn := 0, ack := 0, ctr := 0, sealed := [], gcmTag := zbytes 16, headerOk := true, ecnCe := false }

theorem wf_registerWrite : (Instr.registerWrite (.vf 0) 0x2000000 4 0).wf = false ∧ (Instr.registerWrite .pf 0 3 0).wf = false ∧
    (Instr.registerWrite .pf 0xFFFFFFC 4 0).wf = true := by decide +kernel
theorem wf_pages : (Instr.counterLowRead .pf noPage 0).wf = false ∧ (Instr.counter64Read .pf noPage 0).wf = false ∧
    (Instr.rcRead .pf noPage 0 0).wf = false ∧ (Instr.rcRead .pf pDevc 0x1000 0).wf = false ∧
    (Instr.blkNegWrite .pf noPage 1 3).wf = false ∧ (Instr.blkEvtWrite .pf noPage 0 0 0).wf = false ∧
    (Instr.blockEnable .pf noPage false).wf = false ∧ (Instr.blockReady noPage).wf = false ∧
    (Instr.blockQuiesce .pf noPage).wf = false ∧ (Instr.blockUnquiesce .pf noPage).wf = false ∧
    (Instr.blockDisable .pf noPage).wf = false ∧ (Instr.blockDrained noPage).wf = false ∧
    (Instr.blockReset .pf noPage).wf = false ∧ (Instr.errorDetect 0x201 noPage 0 0).wf = false ∧
    (Instr.blockReady ⟨.ethp, 11⟩).wf = true := by decide +kernel
theorem wf_isles : (Instr.isleTimerLoRead .pf 0x13C).wf = false ∧ (Instr.isleStateReq .pf 0x125 0).wf = false ∧
    (Instr.islandDescentStart 0x13C).wf = false ∧ (Instr.islandDescentDone 0x125).wf = false ∧
    (Instr.islandAutoIdle 0x127).wf = false ∧ (Instr.islandExitDone 0x13C).wf = false ∧ (Instr.sramSaveDone 0x13C).wf = false ∧
    (Instr.sramRestoreDone 0x13C).wf = false ∧ (Instr.isleFreqWrite .pf 0x13C 0).wf = false ∧
    (Instr.freqChangeApply 0x13C).wf = false ∧ (Instr.freqChangeApply 0x13B).wf = true := by decide +kernel
theorem wf_others : (Instr.sramScrubPass 272 0 []).wf = false ∧ (Instr.sramScrubPass 271 0 []).wf = true ∧
    (Instr.pfcFrame ⟨0, 0⟩ 1 [0]).wf = false ∧ (Instr.helloResend 1024).wf = false ∧ (Instr.keepaliveSend 1024).wf = false ∧
    (Instr.scaleRoll 0 1024).wf = false := by decide +kernel
theorem wf_packets : ∀ c ∈ [Instr.data, .ctrl, .ack, .keepalive, .hello, .helloAck, .fenced],
    (c pkt).wf = true ∧ (c { pkt with link := 1024 }).wf = false ∧ (c { pkt with gcmTag := [] }).wf = false := by decide +kernel

/-! ### Registers, headers, blocks -/

theorem wit_registerWrite : d0.pageAt .pf 0xFFFFFFC = none ∧
    (opened pFlsh).pageAt .pf (pFlsh.pfBase + 0x1C) = some pFlsh ∧ opens (opened pFlsh) .pf pFlsh := by unfold opens; decide +kernel
theorem wit_open : opens (opened pDevc) .pf pDevc ∧ opens (opened pPart) (.vf 0) pPart ∧ opens (opened pTier) .pf pTier ∧
    opens (opened (pIsle 0)) (.vf 0) (pIsle 0) ∧ opens (opened (sumPage .pf)) .pf (sumPage .pf) := by unfold opens; decide +kernel
/-- TIER with a recorded fault of partition 0. -/
def faulted : Dev := (neg .pf pTier d0).tierFault 0 0x10000 0x0102 agLoad
theorem wit_tierFault : opens faulted .pf pTier ∧ (faulted.tier.fault.find? (faulted.selPart .pf pTier)).isSome = true := by
  unfold opens; decide +kernel
theorem wit_header : d0.reaches .pf pDevc = true ∧ (d0.hdrOf .pf pDevc).neg = none ∧
    ((at_ pDevc .running (opened pDevc)).hdrOf .pf pDevc).neg ≠ none ∧ (at_ pDevc .running (opened pDevc)).bst pDevc = .running ∧
    ((d0.err .pf pDevc 5).hdrOf .pf pDevc).errCode ≠ 0 := by decide +kernel
theorem wit_blockControl : d0.reaches (.vf 0) (pCore 0) = true ∧ (pCore 0).shared = false ∧ pDevc.shared = true ∧
    d0.pst (pCore 0) = ⟨.disabled, false, false⟩ ∧ (core0 .running).pst (pCore 0) = ⟨.running, true, false⟩ ∧
    ((core0 .quiesced).setPst (pCore 0) ⟨.quiesced, true, true⟩).pst (pCore 0) = ⟨.quiesced, true, true⟩ ∧
    (core0 .enabling).bst (pCore 0) = .enabling ∧ (core0 .halted).bst (pCore 0) = .halted ∧ d0.bst (pCore 16) = .absent ∧
    (core0 .quiescing).unitBusy (pCore 0) = false := by decide +kernel
theorem wit_blockReset : releases .pf (pCore 0) = true ∧ (core0 .halted).largerHandled (pCore 0) = false ∧
    d0.largerHandled (pCore 0) = false ∧ (core0 .resetting).bst (pCore 0) = .resetting := by decide +kernel

/-- R98: minor 7 is answered with 3, major 2 with a refusal. -/
theorem test_blkNeg : leaves (.blkNegWrite .pf pDevc 1 7) d0 (fun d => (d.hdrOf .pf pDevc).neg == some (1, 3)) = true ∧
    leaves (.blkNegWrite .pf pDevc 2 0) d0 (fun d => (d.hdrOf .pf pDevc).neg == none && (d.hdrOf .pf pDevc).errCode == 2#16) = true := by
  decide +kernel
/-- R20: a bit that arrives with the write that clears it ends set. -/
theorem test_blkEvt : leaves (.blkEvtWrite .pf pDevc 3 1 0) (d0.evt .pf pDevc 7) (fun d => (d.hdrOf .pf pDevc).evt == 5#32) = true := by
  decide +kernel
/-- R93: the low word is returned, the high word kept for the view, the counter cleared. -/
theorem test_counterRead : leaves (.counterLowRead .pf pDevc 0) ((neg .pf pDevc d0).cnt .pf pDevc 0 0x100000002)
    (fun d => d.out == [.read .pf 2] && d.pg.snap.get 0#32 (ckey .pf pDevc 0) == 1#32 && d.pg.ctr.get 0 (ckey .pf pDevc 0) == 0) = true ∧
    leaves (.counter64Read .pf pDevc 0) ((neg .pf pDevc d0).cnt .pf pDevc 0 0x100000002) (fun d => d.out == [.read .pf 0x100000002]) =
      true := by decide +kernel
/-- R86: Disabled, Enabling, Running, Quiescing, Quiesced, Running, and back to Disabled. -/
theorem test_blockStates : leaves (.blockEnable .pf (pCore 0) false) d0 (fun d => d.bst (pCore 0) == .enabling) = true ∧
    leaves (.blockReady (pCore 0)) (core0 .enabling) (fun d => d.bst (pCore 0) == .running) = true ∧
    leaves (.blockQuiesce .pf (pCore 0)) (core0 .running) (fun d => d.bst (pCore 0) == .quiescing) = true ∧
    leaves (.blockDrained (pCore 0)) (core0 .quiescing) (fun d => d.bst (pCore 0) == .quiesced) = true := by decide +kernel
theorem test_blockStates' :
    leaves (.blockUnquiesce .pf (pCore 0)) ((core0 .quiesced).setPst (pCore 0) ⟨.quiesced, true, true⟩) (fun d => d.bst (pCore 0) == .running) =
      true ∧
    leaves (.blockDisable .pf (pCore 0)) (core0 .quiesced) (fun d => d.bst (pCore 0) == .disabled) = true ∧
    leaves (.blockReset .pf (pCore 0)) (core0 .halted) (fun d => d.bst (pCore 0) == .disabled) = true ∧
    leaves (.blockReset .pf (pCore 0)) (core0 .running) (fun d => d.bst (pCore 0) == .running) = true := by decide +kernel

/-! ### Partitions and dual commit -/

/-- PART is open in the PF view, and the dual commit is in a state. -/
def commitAt (x : CommitState) : Dev :=
  let d := neg .pf pPart d0
  { d with parts := { d.parts with staged := d.parts.live, commit := { d.parts.commit with state := x } } }
/-- The same with a custodian enrolled. -/
def enrolled (x : CommitState) : Dev := { commitAt x with store := { d0.store with enrolled := true } }

theorem wit_proposal : opens (commitAt .idle) .pf pPart ∧ (enrolled .idle).parts.commit.state = .idle ∧
    (enrolled .idle).store.enrolled = true ∧ (commitAt .idle).store.enrolled = false ∧ ({ commitAt .staging with parts := { (commitAt .staging).parts with staged := [] } }).stagedBad = false ∧
    ((commitAt .staging).hdrOf .pf pPart).errCode = 0 := by unfold opens; decide +kernel
/-- R119, R124: a staged table that gives a cluster to two partitions is refused. -/
def twice : Dev := { commitAt .staging with
  parts := { (commitAt .staging).parts with staged := (SMap.put (commitAt .staging).parts.staged 0#32 32 1#32) } }
theorem wit_sealBad : twice.stagedBad = true ∧ opens twice .pf pPart := by unfold opens; decide +kernel
theorem wit_custodian : d0.boot.aux = true ∧ d0.boot.mgmtBusy = false ∧ (commitAt .sealed).parts.commit.state = .sealed ∧
    (commitAt .sealed).timer ioIsle ≤ (commitAt .sealed).parts.commit.deadline ∧
    ((commitAt .sealed).reach ioIsle 5).parts.commit.deadline < ((commitAt .sealed).reach ioIsle 5).timer ioIsle ∧
    (zbytes 4).length ≤ 1860 ∧ 1860 < (zbytes 1861).length ∧ d0.store.leafQ = none ∧ (enrolled .sealed).store.enrolled = true := by
  decide +kernel
/-- PROV_N low now and at power-on, no custodian: an enrolment with keys and signatures of their lengths. -/
def provisioning : Dev := { d0 with boot := { d0.boot with provLow := true, provSampled := true } }
theorem wit_enroll : provisioning.store.enrolled = false ∧ provisioning.boot.provSampled = true ∧ provisioning.boot.provLow = true ∧
    (zbytes 97).length = 97 ∧ (zbytes 48).length = 48 ∧ (zbytes 96).length = 96 := by decide +kernel
/-- Applying, before and in the scrub. -/
def applying (scrub : Bool) : Dev :=
  let d := commitAt .applying
  { d with parts := { d.parts with commit := { d.parts.commit with scrubbing := scrub } } }
theorem wit_applied : (commitAt .verifying).parts.commit.state = .verifying ∧
    (applying false).parts.commit.scrubbing = false ∧ (applying false).movedUnits.any (applying false).unitBusy = false ∧
    (applying false).lentMoved = [] ∧ (applying true).parts.commit.scrubbing = true ∧ (applying true).boot.resetWaits = none := by
  decide +kernel
/-- Partition 0 in reset. -/
def resetting (x : PartState) : Dev := d0.updPart 0 fun p => { p with inReset := true, state := x }
/-- The operator's ring 0 runs and holds one entry. -/
def opRing : Dev := (((d0.setReg (ringPage 16) 0x080 1).setReg (ringPage 16) 0x08C 1).setReg (ringPage 16) 0x0A0 1)
theorem wit_partReset : (resetting .draining).parts.live = d0.parts.live ∧ ((resetting .draining).partSt 0).inReset = true ∧
    ((resetting .draining).partSt 0).state = .draining ∧
    ((resetting .scrubbing).unitsOf 0).any (resetting .scrubbing).unitBusy = false ∧ d0.boot.step = 8 ∧
    (d0.partSt 0).inReset = false := by decide +kernel

/-- R125: the staged table starts as the live one; without a custodian the outcome is 10. -/
theorem test_commitStage : leaves (.commitStage false false) (enrolled .idle)
      (fun d => d.parts.commit.state == .staging && d.parts.staged == d.parts.live) = true ∧
    leaves (.commitStage false false) (commitAt .idle) (fun d => d.parts.commit.outcome == 10#8) = true ∧
    leaves (.commitSeal false false) twice (fun d => d.parts.commit.outcome == 9#8) = true := by decide +kernel
/-- R130, R128: abort leaves outcome 3, the window's end 4. -/
theorem test_commitEnds : leaves (.commitAbort false false) (commitAt .sealed) (fun d => d.parts.commit.outcome == 3#8) = true ∧
    leaves .commitWindowExpire (commitAt .sealed) (fun d => d.parts.commit.outcome == 4#8) = true ∧
    leaves .commitPoint (commitAt .verifying) (fun d => d.parts.commit.count == 1#64 && d.parts.commit.state == .applying) = true ∧
    leaves .commitDrainIdle (applying false) (fun d => d.parts.commit.scrubbing) = true := by decide +kernel

/-! ### Cores -/

/-- Bytes with a little-endian field written at an offset. -/
def put (x : List Byte) (o n v : Nat) : List Byte := splice x o (leBytes n v)
/-- n bytes with fields (offset, bytes, value). -/
def build (n : Nat) (l : List (Nat × Nat × Nat)) : List Byte := l.foldl (fun x f => put x f.1 f.2.1 f.2.2) (zbytes n)
/-- A descriptor: an opcode and its fields (R235). -/
def mk (op : Nat) (l : List (Nat × Nat × Nat)) : Desc := build 64 ((0, 1, op) :: l)
def c0 : CoreId := ⟨0, 0⟩
/-- Core 0 of cluster 0 runs with a queue. -/
def atQ (q : Nat) (l : List Desc) : Dev := (core0 .running).updEng 0 q fun e => { e with queue := l }
/-- What holds of a head that is ready, as one test. -/
def ready (d : Dev) (q part : Nat) (x : Desc) (rest : List Desc) : Bool :=
  d.clusterOwner 0 == some part && ((d.core (d.instOf c0)).eng q).queue == x :: rest && !((d.core (d.instOf c0)).eng q).stopped &&
    !((d.core (d.instOf c0)).eng q).ended && d.mayIssue (d.instOf c0) && !d.engBusy (d.instOf c0) q &&
    headRefusal d (d.instOf c0) part q x == 0 && d.unmet (d.instOf c0) x == [] && issueRefusal (d.sram (d.instOf c0)) x == 0
theorem headReady_of (d : Dev) (q part : Nat) (x : Desc) (rest : List Desc) (h : ready d q part x rest = true) :
    headReady d c0 q part x rest := by
  simp only [ready, Bool.and_eq_true, beq_iff_eq, Bool.not_eq_true'] at h
  obtain ⟨⟨⟨⟨⟨⟨⟨⟨h1, h2⟩, h3⟩, h4⟩, h5⟩, h6⟩, h7⟩, h8⟩, h9⟩ := h
  exact ⟨h1, h2, h3, h4, h5, h6, h7, h8, h9⟩
theorem headRuns_of (d : Dev) (q part : Nat) (x : Desc) (rest : List Desc)
    (h : (ready d q part x rest && !d.predSkips (d.instOf c0) x) = true) : headRuns d c0 q part x rest := by
  simp only [Bool.and_eq_true, Bool.not_eq_true'] at h
  exact ⟨headReady_of _ _ _ _ _ h.1, .inr h.2⟩

/-- NOP, END, LOAD (4096 bytes of address 0x10000), STORE (32 bytes to the cluster buffer), SUBMIT to NWCH, POST. -/
def xNop : Desc := mk 0 []
def xEnd : Desc := mk 1 []
def xLoad : Desc := mk 0x10 [(0x20, 8, 0x10000), (0x2C, 3, 4096), (0x30, 4, 1)]
def xFetch : Desc := mk 0x11 [(0x20, 8, 0x10000), (0x28, 1, 2), (0x29, 1, 1)]
def xStore : Desc := mk 0x20 [(0x20, 8, 0x40), (0x28, 4, 0x80), (0x2C, 3, 32), (0x2F, 1, 1), (0x30, 4, 1)]
def xSubmit : Desc := mk 0x22 [(0x20, 3, 3 * 2097152)]
def xPost : Desc := mk 0x23 [(0x20, 8, 0x1122)]
theorem wit_nop : headRuns (atQ 0 [xNop]) c0 0 0 xNop [] ∧ headRuns (atQ 0 [xEnd]) c0 0 0 xEnd [] ∧
    headRuns (atQ 2 [xEnd, xNop]) c0 2 0 xEnd [xNop] :=
  ⟨headRuns_of _ _ _ _ _ (by decide +kernel), headRuns_of _ _ _ _ _ (by decide +kernel), headRuns_of _ _ _ _ _ (by decide +kernel)⟩
/-- A STORE of 32 bytes under predicate 'skip if counter 0 reads 0'. -/
def xSkip : Desc := put xStore 1 1 1
theorem wit_skips : headSkips (atQ 3 [put xSkip 0xA 2 0x8000]) c0 3 0 (put xSkip 0xA 2 0x8000) [] :=
  ⟨headReady_of _ _ _ _ _ (by decide +kernel), by decide +kernel, by decide +kernel⟩
theorem wit_refused : headRefusal (atQ 2 [xStore]) 0 0 2 xStore = 1 ∧ dOp xStore = 0x20 ∧
    headRefusal (atQ 3 [put xStore 0x2C 3 0]) 0 0 3 (put xStore 0x2C 3 0) ≠ 0 := by decide +kernel
theorem wit_moves : headRuns (atQ 0 [xLoad]) c0 0 0 xLoad [] ∧ headRuns (atQ 0 [xFetch]) c0 0 0 xFetch [] ∧
    headRuns (atQ 3 [xStore]) c0 3 0 xStore [] ∧ headRuns (atQ 3 [xSubmit]) c0 3 0 xSubmit [] ∧
    headRuns (atQ 3 [xPost]) c0 3 0 xPost [] :=
  ⟨headRuns_of _ _ _ _ _ (by decide +kernel), headRuns_of _ _ _ _ _ (by decide +kernel), headRuns_of _ _ _ _ _ (by decide +kernel),
    headRuns_of _ _ _ _ _ (by decide +kernel), headRuns_of _ _ _ _ _ (by decide +kernel)⟩
/-- A STORE whose core's counter 0 was awaited and holds: R239's signed comparison across the wrap. -/
theorem test_wait : ctrHolds 0 0xFFFFFFFF = true ∧ ctrHolds 5 6 = false ∧ ctrHolds 0x80000000 0 = false ∧
    ctrHolds 0x7FFFFFFF 0 = true := by decide +kernel
/-- R255: a NOP leaves its queue, an END ends the engine, a STORE stands in flight with its bytes. -/
theorem test_issues : leaves (.endOp ⟨c0, 2⟩) (atQ 2 [xEnd]) (fun d => (d.core 0).ve.ended) = true ∧
    leaves (.store c0) (atQ 3 [xStore]) (fun d => (d.core 0).st.queue == [] && (d.core 0).sto.length == 1) = true ∧
    leaves (.store c0) (atQ 3 [put xStore 0x2C 3 0]) (fun d => (d.core 0).st.stopped) = true ∧
    leaves (.load c0) (atQ 0 [xLoad]) (fun d => (d.core 0).loads.map (·.out.map (·.len)) == [List.replicate 16 256]) = true := by
  decide +kernel
/-- The same devices a command later: a LOAD with its requests, a STORE, a SUBMIT, a POST in flight. -/
def issued (c : Instr) (d : Dev) : Dev := (after c d).getD d
theorem wit_arrivals : ((pickReq ((issued (.load c0) (atQ 0 [xLoad])).core 0).loads 0 0).map fun t => t.2.2.2.len) = some 256 ∧
    ((issued (.load c0) (atQ 0 [xLoad])).prepare 0 agLoad false 0x10000 4096).1 = true ∧
    (pickReq ((issued (.fetch c0) (atQ 0 [xFetch])).core 0).loads 0 0).isSome = true ∧
    (((issued (.store c0) (atQ 3 [xStore])).core 0).oldest (· == .store)).isSome = true ∧
    ((issued (.store c0) (atQ 3 [xStore])).prepareLines 0 0 (Mv.of xStore)).1 = true ∧
    (((issued (.submit c0) (atQ 3 [xSubmit])).core 0).sto.map (·.kind)) = [.submit 3] ∧
    ((issued (.post c0) (atQ 3 [xPost])).core 0).sto.map (·.kind) = [.post] ∧
    (d0.setReg (ringPage 0) 0x108 0x104).cqRoom 0 = true ∧
    (d0.ring 0).held = [] ∧ d0.corePart 0 = some 0 := by decide +kernel
/-- R255: a stored line stands in the cluster buffer, and nothing beside it changes. -/
theorem test_store : leaves (.storeDone c0)
      (issued (.store c0) { atQ 3 [xStore] with mem := memWrite [] (sramKey 0 0x80) (leBytes 32 0x0123456789) })
      (fun d => memRead d.mem (bufKey 0 0x40) 6 == [0x89, 0x67, 0x45, 0x23, 0x01, 0] && memGet d.mem (bufKey 0 0x60) == 0) = true := by
  decide +kernel

/-! ### Signals and engine registers -/

/-- Signals under way: to counter 5 of cluster 0 with increment 3, and to counter 63 of core 15 of cluster 0. -/
def sigsOf (l : List (Nat × Fin 16)) : Dev := { d0 with sigs := l.map fun x => ⟨BitVec.ofNat 32 x.1, x.2, 7⟩ }
def wClus : Nat := 3 * 0x1000000 + 0x30005
def wCore : Nat := 0x1000000 + 0x20F3F
theorem wit_signal : (sigsOf [(wClus, 0)]).sigFirst 0 ⟨0x03030005#32, 0, 7⟩ = true ∧ d0.clusterOwner 0 = some 0 ∧
    sigScope 0x03030005#32 = true ∧ sigRsv 0x01020F3F#32 = 0 ∧ sigIndex 0x01020F3F#32 = 63 ∧ (d0.clus' 0).withdrawn = false ∧
    (d0.clus' 0).parked = false ∧ (d0.isle (d0.inst 0 15)).state = .fired ∧ (d0.isle (fabIsle 0)).state = .fired ∧
    d0.clusterOwner 0 ≠ some (3 : Fin 16).val := by decide +kernel
theorem wit_engineRegisters : opens (neg .pf (pCore 0) (atQ 2 [xNop])) .pf (pCore ((atQ 2 [xNop]).instOf c0)) ∧
    ((((atQ 2 [xNop]).updEng 0 2 fun e => { e with stopped := true, reason := 1 }).core 0).eng 2).stopped = true ∧
    d0.stillBlk (pCore 0) = true ∧ (core0 .running).stillBlk (pCore 0) = false ∧ d0.clusterStill 0 = true ∧
    (core0 .running).clusterStill 0 = false ∧ opens (neg .pf (pClst 0) d0) .pf (pClst 0) := by unfold opens; decide +kernel
/-- R262: 0xFFFFFFFF and an increment of 3 wrap to 2; a signal of another partition is dropped. -/
theorem test_signal :
    leaves (.signalArrive 0) { sigsOf [(wClus, 0)] with evc := [(0x10005, 0xFFFFFFFF#32)] }
      (fun d => d.evc.get 0#32 0x10005 == 2#32 && d.sigs == []) = true ∧
    leaves (.signalArrive 0) (sigsOf [(wClus, 3)]) (fun d => d.evc == [] && d.sigs == []) = true ∧
    leaves (.signalArrive 0) (sigsOf [(wCore, 0)]) (fun d => d.evc == [(15 * 64 + 63, 1#32)]) = true := by decide +kernel
theorem test_skipHead : leaves (.engineSkipHead .pf ⟨c0, 2⟩)
      ((neg .pf (pCore 0) (atQ 2 [xStore, xNop])).updEng 0 2 fun e => { e with stopped := true, reason := 1 })
      (fun d => (d.core 0).ve.queue == [xNop] && !(d.core 0).ve.stopped) = true := by decide +kernel

/-! ### Arithmetic -/

/-- MATMUL of 16 × 16 × 16: a at 0 BF16, b at 0x400 BF16, o at 0x800 FP32. -/
def xMat : Desc := mk 0x30 [(0x20, 4, 1 * 0x200000), (0x24, 4, 32 + 1 * 0x200000), (0x28, 4, 64),
  (0x34, 2, 16), (0x36, 2, 16), (0x38, 3, 16), (0x3C, 4, 0)]
/-- ADD of two FP32 elements at 0 and 0x40 to 0x80. -/
def xAdd : Desc := mk 0x40 [(0x24, 4, 0x40), (0x2C, 4, 0x80), (0x30, 3, 2)]
/-- A plan whose grant has come. -/
def grant : Plan := ⟨1000, true, 1, 1⟩
/-- MATMUL and ADD at their heads with and without the grant. -/
def atMat (p : Option Plan) : Dev := (atQ 1 [xMat]).updCore 0 fun c => { c with arrPlan := p }
def atVec (x : Desc) (p : Option Plan) : Dev := (atQ 2 [x]).updCore 0 fun c => { c with vecPlan := p }
theorem wit_matmul : headRuns (atMat none) c0 1 0 xMat [] ∧ headRuns (atMat (some grant)) c0 1 0 xMat [] ∧ dOp xMat = 0x30 :=
  ⟨headRuns_of _ _ _ _ _ (by decide +kernel), headRuns_of _ _ _ _ _ (by decide +kernel), by decide +kernel⟩
/-- One descriptor for each of the vector commands; FMA has a third source. -/
def xVec (op : Nat) : Desc := put (if op = 0x4C then put xAdd 0x24 4 0 else
  if op ∈ [0x40, 0x41, 0x42, 0x43, 0x46, 0x47, 0x48, 0x49, 0x4A, 0x51] then xAdd else put xAdd 0x24 4 0) 0 1 op
theorem wit_vectors : (vecCommands.all fun k => ready (atVec (xVec k.2) none) 2 0 (xVec k.2) []) = true ∧
    headRuns (atVec xAdd (some grant)) c0 2 0 xAdd [] :=
  ⟨by decide +kernel, headRuns_of _ _ _ _ _ (by decide +kernel)⟩
/-- A flight whose work is four bytes at 0x80. -/
def flight : Flight := ⟨xAdd, [⟨sramKey 0 0x80, [1, 2, 3, 4], []⟩], [], none, [], none, false, 0, [], [], 1000, 0⟩
theorem wit_arithmeticDone : (((core0 .running).updCore 0 fun c => { c with arr := [flight], vec := [flight] }).core 0).arr = [flight] ∧
    ((core0 .running).wakeKeys ((flight.writes.map fun (w : MemWr) => w.key).filter fun k => keyIsle k != some 0)).1 = true ∧
    (core0 .running).corePart 0 = some 0 := by decide +kernel
/-- 1.5 + 2.5 = 4.0 in the first element, and the second is 0. -/
theorem test_add : leaves (.vectorOpDone c0)
      (issued (.add c0) { atVec xAdd (some grant) with
        mem := memWrite (memWrite [] (sramKey 0 0) (leBytes 4 0x3FC00000)) (sramKey 0 0x40) (leBytes 4 0x40200000) })
      (fun d => memRead d.mem (sramKey 0 0x80) 8 == leBytes 8 0x40800000) = true := by decide +kernel
/-- A row of A is (2, 0, …), a row of B (3, 0, …): o[0][0] is 6.0. -/
theorem test_matmul : leaves (.matmulDone c0)
      (issued (.matmul c0) { atMat (some grant) with
        mem := memWrite (memWrite [] (sramKey 0 0) (leBytes 2 0x4000)) (sramKey 0 0x400) (leBytes 2 0x4040) })
      (fun d => memRead d.mem (sramKey 0 0x800) 8 == leBytes 8 0x40C00000) = true := by decide +kernel

/-- MATVEC of one token by a 64 × 64 BF16 matrix, o in FP32. -/
def xMv : Desc := mk 0xC0 [(0x20, 4, 1 * 0x200000), (0x24, 4, 1 * 0x200000), (0x28, 4, 64), (0x2C, 2, 64), (0x2E, 2, 64), (0x30, 4, 1)]
def atMv (x : Desc) (p : Option Plan) : Dev :=
  { at_ (pMvec 0) .running d0 with mvec := d0.mvec.put .reset 0 { Mvec.reset with queue := [(0, x)], plan := p } }
theorem wit_matvec : d0.mvecOwner 0 = some 0 ∧ mvRefuses xMv = false ∧ mvRefuses (put xMv 0x2C 2 0) = true ∧
    (atMv xMv none).bst (pMvec 0) = .running ∧ (atMv xMv (some grant)).halt.effect = false ∧
    ((atMv xMv (some grant)).wakeKeys ((atMv xMv (some grant)).mvKeys 0)).1 = true ∧
    { Mvec.reset with cur := some (0, flight) }.cur = some (0, flight) := by decide +kernel
/-- R230: a K of 0 is refused, and the error page shows 0x0101. -/
theorem test_matvec : leaves (.matvec 0) (atMv (put xMv 0x2C 2 0) none)
      (fun d => (d.hdrOf .pf (pMvec 0)).errCode == 0x0101#16 && (d.mvec.get .reset 0).queue == []) = true ∧
    leaves (.matvec 0) (atMv xMv (some grant)) (fun d => (d.mvec.get .reset 0).cur.isSome) = true := by decide +kernel

/-! ### Numbers (chapter 4) -/

/-- Example 1 of chapter 4: −3.3 in FP32 (0xC0533333) to BF16, FP16 and the tensor formats. -/
def m33 : Val := vOf 0xC0533333#32
theorem test_formats : (FloatFmt.bf16.conv m33).bits = 0xC053 ∧ (FloatFmt.fp16.conv m33).bits = 0xC29A ∧
    (FloatFmt.e4m3.conv m33).bits = 0xC5 ∧ (FloatFmt.e5m2.conv m33).bits = 0xC3 := by decide +kernel
/-- Example 2 of chapter 4: the MXFP4 block of 7.5, 5.0, 0.7, 2.6 and −1.2. -/
def block4 : List Outgoing := ([0x40F00000, 0x40A00000, 0x3F333333, 0x40266666, 0xBF99999A].map fun w =>
  (⟨vOf w, false⟩ : Outgoing)) ++ List.replicate 27 ⟨.zero false, false⟩
theorem test_mxfp4 : encodeRow 9 block4 none = ([0x46#8, 0x30#8, 0x08#8] ++ zbytes 13, [0x80#8], .none) ∧
    (encodeRow 9 block4 (some 0x7F)).1 = zbytes 16 ∧ (encodeRow 9 block4 (some 0x7F)).2.1 = [0xFF#8] := by decide +kernel
/-- Witness and result of R245: 0x7FC00000 is a NaN. -/
theorem wit_nan : vOf 0x7FC00000#32 = .nan ∧ vOf 0xFF800000#32 = .inf true ∧ vOf 0x7F800000#32 = .inf false ∧
    vecElem 0 0x48 0 0x7FC00000#32 0 0 = ⟨.zero false, false⟩ := by decide +kernel
/-- Example 1 of chapter 6: 0xFFFFFFFE against 3 does not hold; after five more increments it does. -/
theorem test_waitExample : ctrHolds 0xFFFFFFFE 3 = false ∧ ctrHolds 3 3 = true := by decide +kernel

/-! ### Shelves -/

/-- Page va 0x10000 of partition 0 in T1, 64 KiB, writable. -/
def mapped (d : Dev) : Dev := d.setPage 1 ⟨false, true, .t1 0⟩
/-- Bytes at va 0x10000. -/
def bytesAt (d : Dev) (off : Nat) (b : List Byte) : Dev := (mapped d).tWrite 0 agTier (0x10000 + off) b []
/-- Partition 0's ring 0 and completion ring run and hold one entry. -/
def ringed (d : Dev) : Dev :=
  let d := ((at_ (ringPage 0) .running d).setReg (ringPage 0) 0x088 0x104).setReg (ringPage 0) 0x108 0x104
  { d with parts := { d.parts with vfEnabled := [0] }, rings := [(0, { Ring.reset with tails := [(0, 1)] })] }
def r0 : RingId := ⟨0, 0⟩
def en : Entry := ⟨5, false, true⟩
/-- A command in progress on ring 0. -/
def runs (c : RunCmd) (d : Dev) : Dev := { ringed d with rings := [(0, { Ring.reset with running := [(0, (c, en, 1))] })] }
def takes (d : Dev) (mask : Nat) : Bool := d.ringReady 0 0 && !d.halt.effect && !d.clustersBusy 0 0 mask
theorem ringTakes_of (d : Dev) (mask : Nat) (b : Bool) (h : takes d mask = true) : ringTakes d 0 0 mask b := by
  simp only [takes, Bool.and_eq_true, Bool.not_eq_true'] at h
  exact ⟨h.1.1, fun _ => h.1.2, h.2⟩
/-- Cluster 0 with an image of partition 0 in slot 3. -/
def shelved : Dev := { ringed d0 with shelves := [(shelfKey 0 3, (d0.shelfImage [0], 1))] }
theorem wit_launch : ringTakes (ringed (mapped d0)) 0 0 1 true ∧ (launchPre 0 [0] 0x10000 (ringed (mapped d0))).1 = true ∧
    (launchCheck 0 [0] 1 0x10000 (ringed (mapped d0))).1 = 0 ∧ (launchCheck 0 [0] 2 0x10000 (ringed (mapped d0))).1 = 0x41 ∧
    bitsSet 1 16 = [0] := ⟨ringTakes_of _ _ _ (by decide +kernel), by decide +kernel, by decide +kernel, by decide +kernel, by decide +kernel⟩
theorem wit_park : ringTakes (ringed d0) 0 0 1 false ∧ (ringed d0).parkStatus 0 0 [0] = 0 ∧ (ringed d0).parkStatus 0 64 [0] = 3 ∧
    ((runs (.park 0 1) d0).ring 0).running.find? 0 = some (.park 0 1, en, 1) ∧
    (runs (.park 0 1) d0).unitsStill ((runs (.park 0 1) d0).parkUnits [0]) = true :=
  ⟨ringTakes_of _ _ _ (by decide +kernel), by decide +kernel, by decide +kernel, by decide +kernel, by decide +kernel⟩
theorem wit_resume : (shelved.shelfAt 0 3).isSome = true ∧ shelved.resumeStatus 0 3 false = (0, 0) ∧ shelved.resumeStatus 0 4 false = (1, 0) ∧
    (shelved.shelfAt 0 3).map (shelved.reloads 3) = some [] ∧ (shelved.ring 0).running.find? 0 = none ∧
    shelved.shelfMask 0 3 = 1 ∧ shelved.resumeStatus 0 3 true = (0, 0) ∧ shelved.parkStatus 0 5 [0] = 0 ∧
    shelved.parkStatus 0 3 [0] = 2 := by decide +kernel
theorem wit_import : ((ringed (mapped d0)).readTable 0 0x10000 64 imageTail).2.1 = true ∧
    ((ringed (mapped d0)).readTable 0 0x10000 64 imageTail).2.2.importStatus 0 0 0x10000 none ≠ 0 := by decide +kernel
/-- R284: an image's magic, version, mask and length; with no entry in use, it is counters, queue lengths and its head. -/
def isImage (b : List Byte) : Bool := b.take 8 == leBytes 4 0x53564C45 ++ leBytes 2 1 ++ leBytes 2 1 && fld b 8 4 == 64 + 1024 + 16 * 272 &&
  b.length == 64 + 1024 + 16 * 272
theorem test_image : isImage (d0.shelfImage [0]) = true := by decide +kernel
theorem test_park : leaves (.park r0 en 0 1) (ringed d0) (fun d => (d.clus' 0).shelf == .parking) = true ∧
    leaves (.parkQuiesced r0) (runs (.park 0 1) d0) (fun d => (d.clus' 0).shelf == .empty && d.shelves.length == 1) = true := by
  decide +kernel

/-! ### Shards and trees -/

/-- An update record: SGD without momentum, one dimension of 4, w at va 0x10800, t in `t`. -/
def rec4 (ndim : Nat) (t : Nat) : List Byte := build 256 [(0, 1, 1), (1, 1, 0xFF), (2, 1, 0xFF), (3, 1, 0xFF), (4, 1, 0), (5, 1, ndim),
  (6, 1, 1), (0x10, 8, t), (0x30, 8, 0x10800), (0x38, 8, 0x10900), (0x80, 4, 4), (0xC0, 4, 4), (0xE0, 8, 0x03FF03FF03FF03FF)]
def recAt (b : List Byte) : Dev := bytesAt d0 0 b
theorem wit_export : takes (ringed d0) 0 = true ∧ (exportPre 0 0x10000 0 0x11000 0x1000 (recAt (rec4 1 0))).1 = true ∧
    (((recAt (rec4 1 0)).cpRead 0 0x10000 256).1.map fun b => (recAt (rec4 1 0)).recBad 0 (UpRec.of b)) = some false ∧
    (((recAt (rec4 0 0)).cpRead 0 0x10000 256).1.map fun b => (recAt (rec4 0 0)).recBad 0 (UpRec.of b)) = some true ∧
    ((recAt (rec4 1 0)).sections 0 (UpRec.of (rec4 1 0)).arrays).2.1 = false ∧
    (recAt (rec4 1 0)).faults 0 agTier true 0x11000 432 = none ∧ fld (zbytes 64) 0 4 = 0 ∧ fld (put (zbytes 64) 0 4 7) 0 4 ≠ 0 := by
  decide +kernel
/-- A shard record of that tensor at step 9, up to its digest; with the digest it is whole. -/
def shardBody : List Byte := shardHead (UpRec.of (rec4 1 9)) (zbytes 32) 432 [] ++ sectionBytes ⟨0, 0, 1, 0, [(4, 0, 4)]⟩ (zbytes 8) []
theorem wit_shardOk : shardOk (shardBody ++ sha384Bytes shardBody) = true := by
  unfold shardOk
  refine (Bool.and_eq_true _ _).mpr ⟨by decide +kernel, decide_eq_true ?_⟩
  have h : (shardBody ++ sha384Bytes shardBody).length - 48 = shardBody.length := by decide +kernel
  rw [h, List.drop_left, List.take_left]
theorem wit_importShard : shardOk (zbytes 400) = false ∧
    shardDiffers (shardRec (shardBody ++ sha384Bytes shardBody)) (UpRec.of (rec4 1 9)) = false ∧
    shardDiffers (shardRec (shardBody ++ sha384Bytes shardBody)) (UpRec.of (put (rec4 1 9) 0x18 4 1)) = true ∧
    (shardRec (shardBody ++ sha384Bytes shardBody)).t = 9 ∧ (UpRec.of (rec4 1 9)).named = [] ∧ (UpRec.of (rec4 1 8)).t = 8 ∧
    overlaps [(4, 0, 4)] [(4, 0, 4)] = true ∧ overlaps [(4, 0, 2)] [(4, 2, 2)] = false ∧
    (recAt (rec4 1 9)).faults 0 agTier true 0x10800 8 = none := by decide +kernel

/-- A tree record: two nodes, this device the root; its window 64 KiB, its object 256 bytes at va 0x10100. -/
def treeHead : List Byte := build 64 [(0, 4, 0x54564C45), (4, 2, 1), (6, 2, 2), (0x0C, 4, 65536), (0x10, 8, 256), (0x18, 8, 0x10100),
  (0x20, 4, 77), (0x28, 4, 65536), (0x2C, 1, 4)]
def treeTab : List Byte := leBytes 2 0 ++ leBytes 2 0 ++ leBytes 2 0xFFFF ++ zbytes 2 ++ leBytes 2 9 ++ leBytes 2 0 ++ leBytes 2 0 ++ zbytes 2
/-- A tree at a node of it. -/
def tree (me : Nat) (server : Option Nat) (held : Nat) (kids : List TreeKid) : Tree :=
  ⟨0, 0x10000, 2, me, 65536, 256, 0x10100, 77, 0, 65536, 4, [(0, 0, 0xFFFF), (9, 0, 0)], server, held, kids, false, 0, false, 500⟩
def treed (t : Tree) : Dev := { mapped d0 with fab := { d0.fab with trees := [t] } }
def tm (node off : Nat) : TreeMsg := ⟨0, node, 77, BitVec.ofNat 64 off⟩
theorem wit_treeStart : takes (ringed (mapped d0)) 0 = true ∧ ((mapped d0).prepare 0 agTier false 0x10000 64).1 = true ∧
    (mapped d0).inT1 0 0x10000 80 = true ∧ ((mapped d0).tRead 0 agTier 0x10000 80).1.fault = false := by decide +kernel
theorem wit_treeStatus : (d0.ownP, d0.selfDev, d0.treeStatus 0 treeHead treeTab, d0.treeStatus 0 (zbytes 64) treeTab) = (8192, 0, 0, 0x43) := by
  decide +kernel
theorem wit_treeMsgs : (treed (tree 1 (some 0) 0 [])).tree? 0 77 = some (tree 1 (some 0) 0 []) ∧ d0.tree? 0 77 = none ∧
    ((treed (tree 1 (some 0) 0 [])).prepare 0 agEngine true 0x10100 16).1 = true ∧
    (treed (tree 1 (some 0) 0 [])).faults 0 agEngine true 0x10100 16 = none := by decide +kernel
/-- R538: sixteen bytes in order are written and held; a TACK never goes back. -/
theorem test_tree : leaves (.treeData (tm 0 0) (leBytes 16 0x1122)) (treed (tree 1 (some 0) 0 []))
      (fun d => d.fab.trees.map (·.held) == [16] && memRead d.mem (t1Place (d0.pchsOf 0) 0x100) 2 == [0x22, 0x11]) = true ∧
    leaves (.treeData (tm 0 17) (leBytes 16 1)) (treed (tree 1 (some 0) 0 [])) (fun d => d.fab.trees.map (·.held) == [0]) = true ∧
    leaves (.tack (tm 1 4)) (treed (tree 0 none 256 [⟨1, 9, 256, 0, none⟩])) (fun d => d.fab.trees.map (·.kids.map (·.ack)) == [[9]]) = true ∧
    leaves (.tack (tm 1 256)) (treed (tree 0 none 256 [⟨1, 9, 256, 0, none⟩])) (fun d => d.fab.trees == []) = true := by
  decide +kernel

/-! ### Rings and DMA -/

theorem wit_ringRegisters : opens (neg (.vf 0) (ringPage 0) (ringed d0)) (.vf 0) (ringPage 0) ∧ (ringed d0).ringReady 0 0 = true ∧
    ringSize ((ringed d0).sqCfg 0 0) = 16 ∧ ((ringed d0).sqCfg 0 0).testBit 8 = true ∧ (d0.sqCfg 0 0).testBit 8 = false ∧
    ((ringed d0).cqCfg 0).testBit 8 = true ∧ (ringed d0).bst (ringPage 0) ≠ .halted ∧ ((ringed d0).ring 0).held = [] ∧
    opens (neg .pf (ringPage 16) d0) .pf (ringPage 16) := by unfold opens; decide +kernel
/-- R551: a ring of 16 takes tail 15, and drops 16; with the head at 0, a tail of 1 does not go back to 0. -/
theorem test_doorbell : leaves (.sqTailDoorbell (.vf 0) (.vf 0) 0 15) (neg (.vf 0) (ringPage 0) (ringed d0))
      (fun d => (d.ring 0).tails.get 0 0 == 15) = true ∧
    leaves (.sqTailDoorbell (.vf 0) (.vf 0) 0 16) (neg (.vf 0) (ringPage 0) (ringed d0))
      (fun d => (d.ring 0).tails.get 0 0 == 1 && (d.hdrOf (.vf 0) (ringPage 0)).errCode == 0x0101#16) = true ∧
    leaves (.sqTailDoorbell (.vf 0) (.vf 0) 0 0) (neg (.vf 0) (ringPage 0) (ringed d0))
      (fun d => (d.ring 0).tails.get 0 0 == 1) = true := by decide +kernel

def ch0 : ChanId := ⟨0, 0⟩
/-- Engine 0 belongs to partition 0; channel 0's ring stands at va 0x10000 with one descriptor: 64 bytes to va 0x10200. -/
def xDma : Desc := build 64 [(0, 1, 1), (0x10, 8, 0x10200), (0x18, 4, 64), (0x1C, 4, 1)]
def dmaAt (b : Desc) (x : BlkState) : Dev :=
  ((((bytesAt (at_ (pDmae 0) x d0) 0 b).setReg (pDmae 0) 0x100 0x10000).setReg (pDmae 0) 0x108 0x103).updChan 0 0 fun c => { c with tail := 1 })
def dmaRun : Dev := (dmaAt xDma .running).updChan 0 0 fun c => { c with run := [xDma] }
theorem wit_dma : (dmaAt xDma .running).dmaRuns 0 = true ∧ ((dmaAt xDma .running).chCfg 0 0).testBit 8 = true ∧
    (dmaAt xDma .running).chSize 0 0 = 8 ∧ (dmaAt xDma .running).chBase 0 0 = 0x10000 ∧
    ((dmaAt xDma .running).dmaPrepare 0 false 0x10000 64).1 = true ∧ (dmaAt xDma .running).dmaRefusal 0 xDma = 0 ∧
    ((dmaAt xDma .running).dmaRead 0 0x10000 64).1.bytes = xDma ∧ (dmaAt xDma .running).dmaRefusal 0 (put xDma 0 1 3) ≠ 0 ∧
    d0.dmaWait (Dx.of xDma) = true ∧ (dmaRun.dmaAwake 0 false (dmaRun.dmaPieces 0 (Dx.of xDma))).1 = true ∧
    dmaRun.dmaeOwner 0 = some 0 ∧ dmaRun.bst (pDmae 0) ≠ .halted ∧ (dmaRun.chan 0 0).run = [xDma] := by decide +kernel
theorem wit_dmaRegisters : opens (neg .pf (pDmae 0) (dmaAt xDma .halted)) .pf (pDmae 0) ∧ (dmaAt xDma .halted).bst (pDmae 0) = .halted ∧
    { d0.boot with recovery := true }.recovery = true ∧ d0.boot.recovery = false ∧ d0.bst (pDmae 0) = .disabled ∧ d0.dmaeOwner 0 ≠ none ∧
    ({ d0 with parts := { d0.parts with live := [] } }).dmaeOwner 0 = none := by unfold opens; decide +kernel
/-- R568: the 64 bytes from the host stand at va 0x10200. R572: a bus error leaves the engine Halted. -/
theorem test_dma : leaves (.dmaDescriptorDone ch0 (leBytes 64 0xABCD) []) dmaRun
      (fun d => memRead d.mem (t1Place (d0.pchsOf 0) 0x200) 3 == [0xCD, 0xAB, 0] && (d.chan 0 0).head == 1) = true ∧
    leaves (.dmaBusError ch0 false 3 0x55) dmaRun (fun d => d.bst (pDmae 0) == .halted && (d.dma 0).halt == (0, false, 3, 0x55)) = true ∧
    leaves (.dmaDescriptorStart ch0) (dmaAt (put xDma 0 1 3) .running) (fun d => (d.chan 0 0).stopped && (d.chan 0 0).reason == 1) = true := by
  decide +kernel

/-! ### Memory tiers -/

/-- A map command of the PF for partition 0: va 0x20000, one 64 KiB page, tier in the argument. -/
def mc (cmd tier : Nat) : MapCmd :=
  { view := 0, part := 0, cmd := cmd, va := 0x20000, bk := 0, arg := tier + 16, sig := 0x03030005#32, begun := true, left := [] }
def cmdAt (c : MapCmd) (d : Dev) : Dev := d.updTier fun t => { t with cmds := [c], sts := [(0, ⟨true, 0, 0⟩)] }
/-- Page va 0x20000 of partition 0 with a T2 home, its frame at offset 0x10000 of the T1 space. -/
def frame0 : Frame := ⟨0x10000, [0], [3], 0, [], [0], []⟩
def cached (h : Home) (f : Frame) : Dev := (d0.setPage 2 ⟨false, true, h⟩).setFrame 2 f
theorem wit_mapWindow : opens (neg .pf pTier d0) .pf pTier ∧ (d0.tier.sts.get ⟨false, 0, 0⟩ 0).busy = false ∧ d0.tier.cmds = [] ∧
    ((cmdAt (mc 1 1) d0).tier.sts.get ⟨false, 0, 0⟩ 0).busy = true ∧ (cmdAt (mc 1 1) d0).tier.cmds = [mc 1 1] ∧
    d0.mapCheck (mc 1 1) = 0 ∧ d0.mapCheck (mc 1 2) = 0 ∧ d0.mapCheck (mc 1 4) = 0 ∧ d0.mapCheck (mc 1 5) = 0 ∧ d0.mapCheck (mc 1 0) = 0 ∧
    d0.mapCheck (mc 1 7) = 7 ∧ firstFit (d0.t1Taken 0) 65536 ((d0.pchsOf 0).length * pchBytes) = some 0 ∧ (mc 1 1).pages = 1 ∧
    (mc 5 0).badRun = false ∧ { mc 5 0 with va := 1 }.badRun = true ∧ d0.page? 0 0x20000 = none ∧
    ((cached (.t2 0x1000) frame0).page? 0 0x20000).isSome = true ∧ (cached (.t2 0x1000) frame0).runCheck (mc 3 2) = 0 ∧
    d0.runCheck (mc 3 2) = 3 ∧ (mc 2 2).left = [] := by unfold opens; decide +kernel
/-- R296: a MAP into T1 takes the lowest place; it ends with status 0, one page done, and its signal. -/
theorem test_map : leaves .mapCommandDone (cmdAt (mc 1 1) d0)
      (fun d => d.tier.pages.find? 2 == some ⟨false, true, .t1 0⟩ && d.tier.cmds == [] && d.sigs.length == 1 &&
        d.tier.sts.get ⟨false, 0, 0⟩ 0 == ⟨false, 0, 1⟩) = true ∧
    leaves .mapCommandDone (cmdAt (mc 2 2) (cached (.t2 0x1000) { frame0 with dirty := [] }))
      (fun d => d.tier.pages == [] && d.tier.frames == []) = true := by decide +kernel

/-- The same frame while chunk 0 fills for the load engine. -/
def filling : Frame := { frame0 with valid := [], dirty := [], wb := [], filling := [(0, agLoad)] }
/-- A failed write-back of chunk 0, to be tried again at 100,000. -/
def failed : Frame := { frame0 with wb := [], fails := [(0, (1, 100000))] }
theorem wit_cache : (cached (.t2 0) filling).page? 0 0x20000 = some (0x20000, ⟨false, true, .t2 0⟩) ∧
    (cached (.t2 0) filling).tier.frames.find? (pgKey 0 0x20000) = some filling ∧ filling.filling.find? 0 = some agLoad ∧
    (Home.t2 0).tier ≠ 4 ∧ { d0 with flash := { d0.flash with state := .normal } }.flashServes = true ∧ d0.flash.marked.get [] 0 = [] ∧
    (cached (.t2 0) filling).tier.fault.find? 0 = none ∧ (cached (.t2 0) frame0).wbAt 0 0x20000 = some (0x20000, ⟨false, true, .t2 0⟩, frame0, 0) ∧
    0 ∈ frame0.wb ∧ 0 ∉ failed.wb ∧ failed.fails.find? 0 = some (1, 100000) := by decide +kernel
theorem wit_flashBudget : 65536 ≤ d0.credit 0 ∧ { d0 with flash := { d0.flash with spent := [(0, d0.creditCap 0)] } }.credit 0 < 65536 ∧
    d0.flash.plp = false ∧ (Home.t4 0 0).tier = 4 ∧ (Home.t3 1 1 0 0).tier ≠ 4 := by decide +kernel
theorem wit_pool : opens (neg .pf pTier d0) .pf pTier ∧ d0.tier.pool.get 0 0 = 0 ∧ d0.usage 0 1 + 2097152 ≤ d0.quota 0 1 ∧
    d0.quota 0 1 < d0.usage 0 1 + 2097152 * 0xFFFFF ∧ d0.poolUsed 0 = 0 := by unfold opens; decide +kernel
/-- R340: the dirty sector goes out to its home. R635: the first failure is tried again 1 ms later. -/
theorem test_writeBack : leaves (.writeBackDone 0 0x20000) (cached (.t2 0x9000) frame0)
      (fun d => (d.tier.frames.find? 2).map (·.dirty) == some [] &&
        d.out.any fun o => match o with | .t2Write p b x => p == 0 && b == 0xC000 && x.length == 4096 | _ => false) = true ∧
    leaves (.writeBackFail 0 0x20000) (cached (.t2 0x9000) frame0)
      (fun d => (d.tier.frames.find? 2).map (·.fails) == some [(0, (1, 100000))]) = true ∧
    leaves (.tierCacheWrite .pf 3) (neg .pf pTier d0) (fun d => d.tier.pool.get 0 0 == 3) = true := by decide +kernel

/-- A pilot table at va 0x10000 with one entry: va 0x20000, position 0, lead 4, counter 3 of cluster 0. -/
def pEnt : List Byte := build 32 [(0, 8, 0x20000), (10, 1, 4), (12, 2, 1)]
def piloted (on : Bool) (pos : Nat) : Dev :=
  let d := ((bytesAt (cached (.t2 0x1000) { frame0 with dirty := [], wb := [] }) 0 (put pEnt 8 2 pos)).setRegP pTier 0 0x080 0x10000).setRegP pTier 0 0x088
    (47 * 65536)
  if on then (((d.setRegP pTier 0 0x08C 0x10003).updTier fun t => { t with pool := [(0, 1)] }).updPilot 0 fun p => { p with running := true }) else d
theorem wit_pilot : opens (neg .pf pTier (piloted false 0)) .pf pTier ∧ bit ((piloted false 0).regP pTier 0 0x08C) 16 = false ∧
    bit ((piloted true 0).regP pTier 0 0x08C) 16 = true ∧ d0.clusterOwner 0 = some 0 ∧ (piloted true 0).pilotTable 0 = some [PEnt.of pEnt] ∧
    d0.pilotTable 0 = none ∧ ((piloted true 0).pilot 0).running = true ∧ (d0.pilot 0).running = false := by unfold opens; decide +kernel
theorem wit_pilotTimes : (piloted true 0).pilotPeriod 0 = 48 ∧ ((piloted true 0).pilotNow 0).1 = 0 ∧
    (piloted true 0).bytesOf ((piloted true 0).runKeys 0 (PEnt.of pEnt)) = 65536 ∧ (piloted true 0).tier.pool.get 0 0 = 1 ∧
    { d0 with parts := { d0.parts with live := [] } }.clusterOwner 0 ≠ some 0 := by decide +kernel
/-- An entry at position 4 with a lead of 4 is staged at counter 0; at position 5 it is not. -/
theorem test_pilot : leaves (.pilotPass 0) (piloted true 4) (fun d => (d.pilot 0).staging == [0] && (d.pilot 0).pinned == [(0, [2])]) = true ∧
    leaves (.pilotPass 0) (piloted true 5) (fun d => (d.pilot 0).staging == []) = true := by decide +kernel
/-- Staging entry 0, its one chunk valid. -/
def staging : Dev := (piloted true 0).updPilot 0 fun p => { p with staging := [0], marks := [(0, 0)], pinned := [(0, [2])] }
theorem wit_staged : 0 ∈ (staging.pilot 0).staging ∧ (staging.pilotTable 0).map (·.map PEnt.size) = some [65536] ∧
    (staging.tier.frames.find? 2).map (·.valid.length) = some 1 ∧ (0 : Nat) ∉ (d0.pilot 0).staging := by decide +kernel

/-! ### Lending -/

def lm (lease first frames : Nat) : LendMsg := ⟨9, 0, BitVec.ofNat 32 lease, BitVec.ofNat 32 first, BitVec.ofNat 32 frames, 0⟩
/-- A device whose partition 0 owns no pseudo-channel of stack 7, the last of which is marked lendable. -/
def lender : Dev := ({ d0 with parts := { d0.parts with live := SMap.put d0.parts.live 0#32 8 0#32 } }).setReg pLend 0x05C 0x80000000
def lent1 : Lent := ⟨4, 9, 0, [(0, 293760)], [0], some 700⟩
def lease1 : Lease := ⟨9, 4, 0, [0, 1], [], [], false⟩
def lease2 : Lease := ⟨5, 8, 0, [0], [], [], false⟩
/-- One lease from device 9 for partition 0 with frames 0 and 1. -/
def borrower (r : List Nat) : Dev := d0.updTier fun t => { t with leases := [{ lease1 with reclaim := r }] }
/-- Page va 0x20000 is homed in frame 1 of the lease. -/
def onT3 (r : List Nat) : Dev := (borrower r).setPage 2 ⟨false, true, .t3 9 4 1 0⟩
/-- A second lease holds a free frame. -/
def twoLeases : Dev := (onT3 [1]).updTier fun t => { t with leases := t.leases ++ [lease2] }
/-- The same page with a lender to ask. -/
def asking1 : Dev := (onT3 [1]).setReg pLend 0x080 0x10009
theorem wit_lender : lender.lendable.head? = some (255 * 1152) ∧ d0.lendable.take 5 = [] ∧
    (lender.updTier fun t => { t with lent := [lent1] }).tier.lent.find? (fun (l : Lent) => l.id == 4 && l.dev == 9) = some lent1 ∧
    d0.tier.lent.find? (fun (l : Lent) => l.id == 4) = none ∧ lent1.deadline = some 700 ∧
    opens (neg .pf pLend lender) .pf pLend := by unfold opens; decide +kernel
/-- A LEASE_REQ waits for device 9's answer. -/
def waiting1 : Dev := ((d0.setReg pLend 0x080 0x10009).setReg pLend 0x084 0x10005).updTier fun t => { t with wait := some ⟨0, 0, 9, 2, 100⟩ }
theorem wit_borrower : waiting1.tier.wait = some ⟨0, 0, 9, 2, 100⟩ ∧ (waiting1.peersFrom 1).head? = some (1, 5) ∧
    (waiting1.peersFrom 2).head? = none ∧ (borrower []).lease? 9 4 = some lease1 ∧ d0.lease? 9 4 = none ∧
    (onT3 []).leasePages 9 4 (fun g => g == 1) ≠ [] ∧ (onT3 []).leasePages 9 4 (fun g => g == 0) = [] ∧ (borrower []).tier.leases = [lease1] ∧
    (onT3 [1]).page? 0 0x20000 = some (0x20000, ⟨false, true, .t3 9 4 1 0⟩) ∧ ((onT3 [1]).lease? 9 4).map (·.reclaim) = some [1] ∧
    (twoLeases.t3Other 0 false 9 4).head? = some (5, 8, 0, 0) ∧ (onT3 [1]).t3Other 0 false 9 4 = [] ∧ (onT3 [1]).tier.wait = none ∧
    d0.peersFrom 0 = [] ∧ (asking1.lease? 9 4).map (fun (l : Lease) => (l.reclaim, l.asked)) = some ([1], false) ∧ asking1.tier.wait = none ∧
    asking1.page? 0 0x20000 = some (0x20000, ⟨false, true, .t3 9 4 1 0⟩) ∧ asking1.t3Other 0 false 9 4 = [] ∧ (asking1.peersFrom 0).head? = some (0, 9) ∧
    (onT3 [0, 1]).usage 0 1 + 65536 ≤ (onT3 [0, 1]).quota 0 1 ∧ ((onT3 [0, 1]).t1Alloc 0 65536).map (·.1) = some 0 ∧
    { onT3 [0, 1] with parts := { d0.parts with live := [] } }.quota 0 1 < 65536 := by decide +kernel
/-- R326: a grant becomes a lease of numbered frames. R330: a free frame is released at once; a used one waits. -/
theorem test_lending : leaves (.leaseGrant (lm 4 0 2)) waiting1 (fun d => d.tier.leases == [lease1] && d.tier.wait == none) = true ∧
    leaves (.reclaim (lm 4 0 1)) (onT3 []) (fun d => d.tier.leases.map (·.frames) == [[1]]) = true ∧
    leaves (.reclaim (lm 4 1 1)) (onT3 []) (fun d => d.tier.leases.map (·.reclaim) == [[1]]) = true ∧
    leaves (.revoked (lm 4 1 1)) (onT3 []) (fun d => (d.tier.pages.find? 2).map (·.home) == some .t3gone) = true ∧
    leaves (.t3PageRelocated 0 0x20000 []) twoLeases (fun d => (d.tier.pages.find? 2).map (·.home) == some (.t3 5 8 0 0)) = true := by
  decide +kernel

/-! ### Flash -/

theorem wit_flash : d0.flash.state = .mounting ∧ d0.flashServes = false ∧ { d0 with flash := { d0.flash with state := .normal } }.flashServes = true ∧
    d0.anyT4 = false ∧ (cached (.t4 0 0) frame0).anyT4 = true ∧ { d0 with flash := { d0.flash with plp := true } }.flash.plp = true ∧
    d0.boot.aux = true := by decide +kernel
/-- The operator's ring holds one entry. -/
def opRinged : Dev := ((at_ (ringPage 16) .running d0).setReg (ringPage 16) 0x088 0x104).setReg (ringPage 16) 0x108 0x104
theorem wit_rebuild : ringTakes { opRinged with rings := [(16, { Ring.reset with tails := [(0, 1)] })] } 16 0 0 false :=
  ⟨by decide +kernel, fun h => (by cases h), by decide +kernel⟩
/-- R347: below 10 % of the reserve the flash is degraded. R350: a refill of 400 GB an hour returns 400,000 bytes. -/
theorem test_flash : leaves (.badBlockRetire 1 [7]) { d0 with flash := { d0.flash with state := .normal, spare := 100 } }
      (fun d => d.flash.state == .degraded && d.flash.spare == 99 && d.flash.marked.get [] 7 == List.range 1024) = true ∧
    leaves .writeBudgetRefill { d0 with flash := { d0.flash with spent := [(0, 1000000)] } } (fun d => d.flash.spent.get 0 0 == 600000) = true ∧
    leaves .powerLossSequence d0 (fun d => d.flash.plp && d.flash.state == .unmounted && d.boot.step == 2) = true := by decide +kernel

/-! ### Cluster engines -/

/-- The queue's head in cluster 0, as one test. -/
def headed (d : Dev) (p : Page) (q : List (Nat × Desc)) (stopped : Bool) (x : Desc) (rest : List (Nat × Desc)) : Bool :=
  d.clusterOwner 0 == some 0 && q == (0, x) :: rest && !stopped && d.clReady p 0
theorem engineHead_of (d : Dev) (p : Page) (q : List (Nat × Desc)) (b : Bool) (x : Desc) (rest : List (Nat × Desc))
    (h : headed d p q b x rest = true) : engineHead d p 0 0 q b x rest := by
  simp only [headed, Bool.and_eq_true, beq_iff_eq, Bool.not_eq_true'] at h
  exact ⟨h.1.1.1, ⟨0, h.1.1.2⟩, h.1.2, h.2⟩
theorem engineRuns_of (d : Dev) (p : Page) (q : List (Nat × Desc)) (b : Bool) (r : Nat) (x : Desc) (rest : List (Nat × Desc))
    (h : (headed d p q b x rest && r == 0 && d.unmet 0 x == [] && !d.predSkips 0 x) = true) : engineRuns d p 0 0 q b r x rest := by
  simp only [Bool.and_eq_true, beq_iff_eq, Bool.not_eq_true'] at h
  exact ⟨engineHead_of d p q b x rest h.1.1.1, h.1.1.2, h.1.2, h.2⟩

/-- OPT_UPDATE, OPT_LATE (holding area at va 0x10A00, ready counter 0) and OPT_DIGCMP of two digests. -/
def xUpd : Desc := mk 0x80 [(0x20, 8, 0x10000)]
def xLate (drain : Nat) (v : Nat) : Desc := mk 0x81 [(0x20, 8, 0x10000), (0x28, 2, 0x8100), (0x2A, 1, drain), (0x2C, 4, v), (0x30, 8, 0x10A00)]
def xDig : Desc := mk 0x82 [(0x20, 8, 0x10000), (0x28, 8, 0x10040), (0x30, 4, 0x03030005)]
/-- The update record of the shard tests with lag 4 and element count 4, its holding area with a count. -/
def heldRec (cnt : Nat) : Dev := (recAt (put (rec4 1 0) 6 1 4)).tWrite 0 agTier 0x10A00 (build 16 [(0, 4, cnt), (8, 8, 4)]) []
def opted (x : Desc) (d : Dev) : Dev := (at_ (pOpte 0) .running d).updOp 0 fun o => { o with q := { o.q with queue := [(0, x)] } }
theorem wit_opt : engineRuns (opted xUpd (heldRec 0)) (pOpte 0) 0 0 [(0, xUpd)] false (optRefusal xUpd) xUpd [] ∧
    engineRuns (opted (xLate 0 1) (heldRec 0)) (pOpte 0) 0 0 [(0, xLate 0 1)] false (optRefusal (xLate 0 1)) (xLate 0 1) [] ∧
    engineRuns (opted xDig (heldRec 0)) (pOpte 0) 0 0 [(0, xDig)] false (optRefusal xDig) xDig [] :=
  ⟨engineRuns_of _ _ _ _ _ _ _ (by decide +kernel), engineRuns_of _ _ _ _ _ _ _ (by decide +kernel), engineRuns_of _ _ _ _ _ _ _ (by decide +kernel)⟩
theorem wit_optHead : ((opted xUpd d0).op 0).q.queue = [(0, xUpd)] ∧ ((opted xUpd d0).op 0).cur = none ∧ optRefusal (put xUpd 0x28 2 1) ≠ 0 ∧
    (opted (put xUpd 0xA 2 0x8100) d0).predSkips 0 (put (put xUpd 1 1 1) 0xA 2 0x8100) = true ∧ (d0.op 0).q.stopped = false ∧
    opens (neg .pf (pOpte 0) d0) .pf (pOpte 0) := by unfold opens; decide +kernel
/-- The spans of a read are there and sound, the record is good. -/
def readsOk (d : Dev) (l : List (Nat × Nat)) : Bool := (d.prepareAll 0 agEngine false l).1 &&
  l.all fun x => !(d.tRead 0 agEngine x.1 x.2).1.fault && (d.tRead 0 agEngine x.1 x.2).1.bad == []
theorem wit_optRead : readsOk (heldRec 0) [(0x10000, 256), (0x10A00, 64)] = true ∧
    ((UpRec.of ((heldRec 0).tRead 0 agEngine 0x10000 256).1.bytes).refusal, (UpRec.of (put (rec4 1 0) 6 1 9)).refusal) = (0, 0x23) ∧
    readsOk (heldRec 0) [(0x10040, 64)] = true ∧ d0.clHolds 0 0x8100 1 = false ∧ d0.clHolds 0 0x8100 0 = true ∧
    fld ((heldRec 3).tRead 0 agEngine 0x10A00 64).1.bytes 0 4 = 3 ∧ (UpRec.of (rec4 1 0)).skipNf = false := by decide +kernel
theorem wit_optSpans : ((heldRec 0).prepareAll 0 agEngine false
    ((((UpRec.of (rec4 1 0)).grad, (0 : Int)) :: ((UpRec.of (rec4 1 0)).arrays.map fun (a : PArr) => (a, (0 : Int)))).flatMap
      fun (a : PArr × Int) => a.1.spans)).1 = true ∧
    ((mapped d0).prepareAll 0 agEngine true [(0x10800, 8)]).1 = true := by decide +kernel
/-- Example 1 of chapter 9: 0x3F7FA000 with r rounds to 0x3F7F below 0x6000 and to 0x3F80 from it on, for both signs. -/
theorem test_stochastic : ([0x0000, 0x5FFF, 0x6000, 0xFFFF].map fun r => (srFloat .bf16 0x3F7FA000#32 r).bits) = [0x3F7F, 0x3F7F, 0x3F80, 0x3F80] ∧
    ([0x5FFF, 0x6000].map fun r => (srFloat .bf16 0xBF7FA000#32 r).bits) = [0xBF7F, 0xBF80] := by decide +kernel
/-- Example 2 of chapter 9: the fourth late update is held while ready does not hold. -/
theorem test_late : leaves (.optLate 0) (opted (xLate 0 1) (heldRec 3)) (fun d => (d.op 0).held == some 0x8100 && (d.op 0).cur == none) = true ∧
    leaves (.optLate 0) (opted (xLate 0 1) (heldRec 1)) (fun d => ((d.op 0).cur.map (·.writes.map (·.va))) == some [0x10A00, 0x10A40]) = true := by
  decide +kernel

/-! ### Numerics watch -/

/-- Entry 5 of cluster 0: E4M3, hlen 4, margin 1, with the history of chapter 10's Example 1 and its next maximum 5.0. -/
def ent (x : EntState) : Entry192 :=
  { Entry192.reset with state := x, version := 1, fmt := 3, hlen := 4, hcount := 4, margin := 1, calLeft := 4, producers := 1, stepAmax := 0x40A00000#32
                        history := [0x40466666#32, 0x40333333#32, 0x4059999A#32, 0x40533333#32], lastRoll := 7#32 }
def watched (x : EntState) : Dev := (at_ (pNwch 0) .running d0).updEntry 0 5 fun _ => ent x
def rep (m : Nat) : Report := ⟨5, BitVec.ofNat 32 m, false, 8, 0, false⟩
def reported (x : EntState) : Dev := (watched x).updNw 0 fun n => { n with reports := [rep 0x40C00000] }
theorem wit_watch : ((reported .live).nw 0).reports[0]? = some (rep 0x40C00000) ∧ (d0.nw 0).reports[0]? = none ∧
    ((reported .calibrating).entry 0 5).state = .calibrating ∧ (ent .calibrating).settled = false ∧ (ent .calibrating).producers ≤ 1 ∧
    ((watched .live).entry 0 5).state = .live ∧ (watched .live).stepVal 0 (ent .live) ≠ (ent .live).lastRoll ∧
    (watched .live).stepVal 0 { ent .live with lastRoll := 0#32 } = 0#32 ∧ (d0.entry 0 5).state = .free := by decide +kernel
/-- A producer of core 0's array engine that awaits conversion, settled and granted. -/
def awaited : Await := ⟨0, 1, put xMat 0x28 4 (64 + 3 * 0x200000), 5, 0, true, 0, 0, true, 0⟩
def awaiting : Dev := (at_ (pCore 0) .running (watched .live)).updNw 0 fun n => { n with awaits := [awaited] }
theorem wit_conversion : (awaiting.nw 0).awaits[0]? = some awaited ∧ awaiting.atBoundary awaited = true ∧ awaited.settled = true ∧
    awaited.granted = true ∧ awaited.queue ≠ 4 ∧ (d0.wakeKeys (d0.mvKeys 0)).1 = true := by decide +kernel
/-- A captured segment with products 1.0 and 2.0 and a sum of 3.0, or of 5.0. -/
def capture (sum : Nat) : Capture := ⟨⟨3, 2, [⟨none, [0x3F800000#32, 0x40000000#32], some (BitVec.ofNat 32 sum), 0, false⟩]⟩, 9⟩
def captured (sum : Nat) : Dev := d0.updCore 0 fun k => { k with capture := some (capture sum) }
theorem wit_sampled : ((captured 0x40400000).core 0).capture = some (capture 0x40400000) ∧ (d0.core 0).capture = none ∧
    (capture 0x40400000).seg.outs.any (outMismatch 1) = false ∧ (capture 0x40A00000).seg.outs.any (outMismatch 1) = true ∧
    d0.errm.queue.length < 256 := by decide +kernel
/-- Example 1 of chapter 10: history maximum 3.4 gives scale byte 0x79; the step's 5.0 overwrites 3.1 and gives 0x7A. -/
theorem test_scale : chooseScale (histMax (ent .live)) 3 1 = 0x79#8 ∧
    leaves (.scaleRoll 0 5) (watched .live) (fun d => (d.entry 0 5).scale == 0x7A#8 && (d.entry 0 5).hpos == 1) = true ∧
    leaves (.scaleReport 0 0) (reported .live) (fun d => (d.entry 0 5).stepAmax == 0x40C00000#32) = true ∧
    leaves (.hwRecomputeDone c0) (captured 0x40A00000) (fun d => (d.nw 0).hwLast == some (0, 3, 9)) = true := by decide +kernel

/-- SC_OP of command 1 (READ) and of command 2 on entry 5 at va 0x10000. -/
def xSc (cmd : Nat) : Desc := mk 0x90 [(0x20, 8, 0x10000), (0x28, 2, 5 + cmd * 1024)]
def scAt (x : Desc) (d : Dev) : Dev := (at_ (pNwch 0) .running d).updNw 0 fun n => { n with queue := [(0, x)] }
def image : List Byte := (ent .live).bytes
theorem wit_scale : imageBad image = false ∧ imageBad (zbytes 192) = true ∧ awaiting.awaits 0 5 = true ∧ d0.awaits 0 5 = false ∧
    opens (neg .pf (pNwch 0) d0) .pf (pNwch 0) ∧ scRefusal (xSc 1) = 0 ∧ scRefusal (xSc 0) ≠ 0 ∧
    (mapped d0).inT1w 0 0x10000 196 = true ∧ d0.inT1w 0 0x10000 196 = false ∧ ((mapped d0).tRead 0 agEngine 0x10000 192).1.fault = false ∧
    ((mapped d0).tRead 0 agEngine 0x10000 192).1.bad = [] := by unfold opens; decide +kernel
theorem wit_scOp : engineRuns (scAt (xSc 1) (mapped d0)) (pNwch 0) 0 0 [(0, xSc 1)] false (scRefusal (xSc 1)) (xSc 1) [] ∧
    engineRuns (scAt (xSc 2) (mapped d0)) (pNwch 0) 0 0 [(0, xSc 2)] false (scRefusal (xSc 2)) (xSc 2) [] ∧ scCmd (xSc 2) = 2 :=
  ⟨engineRuns_of _ _ _ _ _ _ _ (by decide +kernel), engineRuns_of _ _ _ _ _ _ _ (by decide +kernel), by decide +kernel⟩
/-- R422: a FREE of a gradient's entry ends with status 3, a CALIBRATE of a Free entry with 7, an entry 0x3FF with 1. -/
theorem test_scCommand : (scCommand 0 5 4 [] ((watched .live).updEntry 0 5 fun e => { e with grad := true })).1 = 3 ∧
    (scCommand 0 5 5 [] d0).1 = 7 ∧ (scCommand 0 0x3FF 1 [] d0).1 = 1 ∧ (scCommand 0 5 3 [] (watched .live)).1 = 5 ∧
    ((scCommand 0 5 2 image d0).2.entry 0 5).hlen = 4 := by decide +kernel

/-! ### Reduction, pipeline links, token exchange -/

/-- A group record: this cluster alone, or with the same cluster of device 9 on one inner ring; pieces of 256 elements. -/
def group (g : Nat) : List Byte := build (0x40 + 8 * g + 24) ([(0, 4, 0x47564C45), (4, 2, 1), (6, 1, g), (7, 1, 1), (8, 2, 1), (10, 1, 1), (14, 2, 1)] ++
  if g = 1 then [] else [(0x48, 2, 9), (0x51, 1, 1)])
/-- RED_CHAIN of 16 elements of the buffer at 0 to the buffer at 0x100, tag 77. -/
def xChain : Desc := mk 0xA0 [(0x20, 8, 0x10000), (0x28, 8, 2 ^ 52), (0x30, 8, 2 ^ 52 + 0x100), (0x38, 4, 16), (0x3C, 4, 77)]
def redAt (i : Nat) (x : Desc) (d : Dev) : Dev :=
  (((at_ (pRede 0) .running d).setReg (pRede 0) 0x058 0x1000).updRed 0 fun r => r.setQ i { r.q i with queue := [(0, x)] })
def chained (g : Nat) : Dev := redAt 0 xChain (bytesAt d0 0 (group g))
theorem wit_red : engineRuns (chained 1) (pRede 0) 0 0 [(0, xChain)] false (redRefusal 0 xChain) xChain [] :=
  engineRuns_of _ _ _ _ _ _ _ (by decide +kernel)
theorem wit_redHead : redRefusal 0 (put xChain 0 1 0xA4) ≠ 0 ∧ ((chained 1).readTable 0 0x10000 0x40 groupTail).2.1 = true ∧
    (((chained 1).readTable 0 0x10000 0x40 groupTail).1.filter groupOk).isSome = true ∧ groupOk (group 2) = true ∧
    ((redAt 0 xChain (mapped d0)).readTable 0 0x10000 0x40 groupTail).1.filter groupOk = none ∧
    (RedPath.mk (RedBody.of xChain) (Group.of (group 1))).np = 1 ∧ (RedPath.mk (RedBody.of xChain) (Group.of (group 1))).nodes = 1 ∧
    (RedPath.mk (RedBody.of xChain) (Group.of (group 1))).inner = 1 ∧ (RedPath.mk (RedBody.of xChain) (Group.of (group 2))).links = 1 ∧
    (chained 1).firstPoison (bufKey 0 0) 64 = none ∧ ((chained 1).red 0).held = [] := by decide +kernel
/-- The chain of two members after this one, the chain's start (index 0), has issued; and as its tail. -/
def act (left : SSet) (todo : SSet) : RedAct := ⟨xChain, Group.of (group 2), [], todo, [], left, [], [], 0⟩
def acting (left todo : SSet) : Dev := (at_ (pRede 0) .running d0).updRed 0 fun r => { r with act := some (act left todo) }
def rm (tag sender elems : Nat) (b : List Byte) : RedMsg :=
  ⟨9, 0, 0, 0, BitVec.ofNat 32 tag, 0, BitVec.ofNat 32 elems, 16, 1, BitVec.ofNat 16 sender, b⟩
theorem wit_redMsgs : (acting [0] [0]).clusterOwner 0 = some 0 ∧ ((acting [0] [0]).redAwake 0).1 = true ∧
    (RedBody.of xChain).tag = 77 ∧ (act [0] [0]).path.agrees 1 (rm 77 1 16 (zbytes 64)) = true ∧ (act [0] [0]).path.agrees 1 (rm 77 0 16 (zbytes 64)) = false ∧
    (act [0] [0]).stale 1 (rm 77 1 16 (zbytes 64)) = false ∧ (act [0] []).stale 1 (rm 77 1 16 (zbytes 64)) = true ∧
    ((chained 2).red 0).nextTag = some 77 ∧ (d0.red 0).nextTag ≠ some 77 := by decide +kernel
theorem wit_redWake : (acting [0, 1] [0]).redAwake 0 = (true, acting [0, 1] [0]) ∧ (act [0, 1] []).left.del 0 ≠ [] ∧
    (act [0] [0]).path.b.srcBuf = true ∧ (act [0] [0]).path.b.dstBuf = true ∧ (act [0] [0]).path.elems 0 * 4 ≤ bufBytes ∧
    ((acting [0] [0]).red 0).comb = none ∧ opens (neg .pf (pRede 0) d0) .pf (pRede 0) := by unfold opens; decide +kernel
/-- R431, R445: alone, a chain copies its piece and ends with status 0. R443: a message of the wrong length ends it with 3. -/
theorem test_chain : leaves (.redChain 0) { chained 1 with mem := memWrite (chained 1).mem (bufKey 0 0) (leBytes 4 0x3F800000) }
      (fun d => (d.red 0).lastStatus == 0 && (d.red 0).act == none && memRead d.mem (bufKey 0 0x100) 4 == leBytes 4 0x3F800000) = true ∧
    leaves (.runningSum 0 (rm 77 1 16 (zbytes 60))) (acting [0] [0]) (fun d => (d.red 0).lastStatus == 3 && (d.red 0).act == none) = true ∧
    leaves (.redeNoProgressTimeout 0 0) (acting [0] [0]) (fun d => (d.red 0).lastStatus == 1) = true := by decide +kernel

/-- A link record: role, two slots of 64 bytes at va 0x10400, link 6 with device 9; sent and freed. -/
def link (role sent freed : Nat) : List Byte := build 64 [(0, 4, 0x4C564C45), (4, 2, 1), (6, 1, role), (7, 1, 2), (8, 4, 64), (12, 4, 6), (0x10, 2, 9),
  (0x18, 8, 0x10400), (0x20, 1, 3), (0x21, 1, 4), (0x28, 8, sent), (0x30, 8, freed)]
/-- PIPE_SEND of 64 bytes of the buffer, and PIPE_FREE of one slot. -/
def xSend : Desc := mk 0xA4 [(0x20, 8, 0x10000), (0x28, 8, 2 ^ 52), (0x30, 4, 64)]
def xFree : Desc := mk 0xA5 [(0x20, 8, 0x10000), (0x28, 1, 1)]
theorem wit_pipe : engineRuns (redAt 1 xSend (bytesAt d0 0 (link 0 0 0))) (pRede 0) 0 0 [(0, xSend)] false (redRefusal 1 xSend) xSend [] ∧
    engineRuns (redAt 1 xFree (bytesAt d0 0 (link 1 0 0))) (pRede 0) 0 0 [(0, xFree)] false (redRefusal 1 xFree) xFree [] :=
  ⟨engineRuns_of _ _ _ _ _ _ _ (by decide +kernel), engineRuns_of _ _ _ _ _ _ _ (by decide +kernel)⟩
theorem wit_links : ((bytesAt d0 0 (link 0 0 0)).readLink 0 0x10000).1 = some (Link.of (link 0 0 0)) ∧
    ((bytesAt d0 0 (link 0 0 0)).readLink 0 0x10000).2.1 = true ∧ ((Link.of (link 0 2 0)).q, (Link.of (link 0 2 0)).slotBytes) = (2, 64) ∧
    ((mapped d0).readLink 0 0x10000).1 = none ∧ ((mapped d0).redReady 0 true false 0 64).1 = true ∧
    ((mapped d0).redSrc 0 0 true 0 64).1.isSome = true ∧ ((mapped d0).prepare 0 agEngine true 0x10440 64).1 = true ∧
    (at_ (pRede 0) .running d0).redAwake 0 = (true, at_ (pRede 0) .running d0) := by decide +kernel
/-- R450: with two slots taken a PIPE_SEND is held; with one free it is sent and counted. R452: a credit is added. -/
theorem test_pipe : leaves (.pipeSend 0) (redAt 1 xSend (bytesAt d0 0 (link 0 2 0))) (fun d => (d.red 0).pipe == some 9) = true ∧
    leaves (.pipeSend 0) (redAt 1 xSend (bytesAt d0 0 (link 0 2 1)))
      (fun d => (d.red 0).pipe == none && memRead d.mem (t1Place (d0.pchsOf 0) 0x28) 1 == [3]) = true ∧
    leaves (.pipeCredit 0 0x10000 { rm 6 0 0 [] with count := 2 }) (at_ (pRede 0) .running (bytesAt d0 0 (link 0 2 1)))
      (fun d => memRead d.mem (t1Place (d0.pchsOf 0) 0x30) 1 == [3] && d.sigs.length == 1) = true := by decide +kernel

/-- A route record (2 experts, map at va 0x10200, return buffer at va 0x10800, rows of 64 bytes, cf 256) and an expert map of two
experts on one member. -/
def route : List Byte := build 64 [(0, 4, 0x52564C45), (4, 2, 1), (6, 2, 2), (8, 8, 0x10200), (0x10, 8, 0x10800), (0x18, 4, 64), (0x1C, 2, 256)]
def emap : List Byte := build 88 [(0, 4, 0x58564C45), (4, 2, 1), (6, 2, 2), (8, 2, 1), (24, 1, 1), (56, 1, 1), (62, 1, 1)]
/-- TOK_ROUTE of two tokens with k = 1; TOK_RETURN of slot 0; TOK_COMBINE to va 0x10C00. -/
def xRoute : Desc := mk 0xA8 [(0x20, 8, 0x10000), (0x28, 8, 0x10400), (0x30, 8, 0x10600), (0x38, 4, 2 + 65536), (0x3C, 4, 5)]
def xReturn : Desc := mk 0xA9 [(0x20, 8, 0x10800), (0x28, 1, 0), (0x2C, 4, 5)]
def xComb : Desc := mk 0xAA [(0x20, 8, 0x10000), (0x28, 8, 0x10C00), (0x30, 2, 1), (0x3C, 4, 5)]
def routed : Dev := (bytesAt d0 0 route).tWrite 0 agTier 0x10200 emap []
/-- Slot 0 of die 0: buffer at va 0x10800, rows of 64 bytes, capacity 1, one source, counts at va 0x10F00; its table at va 0x10E00. -/
def slotted : Dev := ((routed.tWrite 0 agTier 0x10E00 (build 32 [(0, 8, 0x10800), (8, 4, 64), (12, 2, 1), (14, 2, 1), (24, 8, 0x10F00)]) []).setRegP
  (pTokx 0) 0 0x044 0x10E00).setRegP (pTokx 0) 0 0x04C 1
theorem wit_tok : engineRuns (redAt 2 xRoute routed) (pRede 0) 0 0 [(0, xRoute)] false (redRefusal 2 xRoute) xRoute [] ∧
    engineRuns (redAt 2 xReturn slotted) (pRede 0) 0 0 [(0, xReturn)] false (redRefusal 2 xReturn) xReturn [] ∧
    engineRuns (redAt 2 xComb routed) (pRede 0) 0 0 [(0, xComb)] false (redRefusal 2 xComb) xComb [] :=
  ⟨engineRuns_of _ _ _ _ _ _ _ (by decide +kernel), engineRuns_of _ _ _ _ _ _ _ (by decide +kernel), engineRuns_of _ _ _ _ _ _ _ (by decide +kernel)⟩
theorem wit_route : (routed.readTable 0 0x10000 64 fun _ => 0).2.1 = true ∧
    ((routed.readTable 0 0x10000 64 fun _ => 0).1.map Route.of).filter (fun (q : Route) => q.ok) = some (Route.of route) ∧
    ((routed.readTable 0 0x10200 16 expTail).1.filter expOk).isSome = true ∧ (ExpMap.of emap).experts.length = 2 ∧ (Route.of route).e = 2 ∧
    (Route.of route).me < (ExpMap.of emap).members.length ∧ (routed.tRead 0 agEngine 0x10400 128).1.fault = false ∧
    (routed.tRead 0 agEngine 0x10600 128).1.bad = [] := by decide +kernel
theorem wit_slot : slotted.slotCount 0 0 = 1 ∧ ((slotted.slotEnt 0 0 0).1.map fun e => (e.buf, e.rowBytes, e.cap, e.nsrc)) = some (0x10800, 64, 1, 1) ∧
    (slotted.slotEnt 0 0 0).2.1 = true ∧ (slotted.prepareAll 0 agEngine true [(0x10F00, 2), (0x10800, 64), (0x10E00, 32)]).1 = true ∧
    slotted.tokx.done = [] ∧ (slotted.tRead 0 agEngine 0x10F00 2).1.fault = false := by decide +kernel
/-- One row of token 0 is out with member 0 slot 0; and a combine waits for it. -/
def outRow (o : List TokRow) : Dev := (at_ (pRede 0) .running routed).updRed 0 fun r => { r with runs := [⟨5, 0x10800, 64, 1, [], o, 0⟩] }
theorem wit_rows : (outRow [⟨0, 0, 0, 0, 9⟩]).redAwake 0 = (true, outRow [⟨0, 0, 0, 0, 9⟩]) ∧ ((outRow []).red 0).runs.map (·.open_) = [[]] ∧
    ((outRow []).prepareAll 0 agEngine true [(0x10800, 64)]).1 = true ∧ ((outRow []).red 0).comb = none ∧
    ((slotted.updTokx fun t => { t with open_ := [⟨0, 0, 0, 5, [], [], 0, 0⟩] }).tokx.open_.find? fun (o : SlotTag) => o.is 0 0 0 5).isSome = true := by
  decide +kernel
/-- R462: the last source of a slot completes its tag. R464: the row comes back and is closed. -/
theorem test_tokens : leaves (.tokenRows 0 0 { rm 5 0 1 (leBytes 64 0x77) with sender := 0 }) slotted
      (fun d => d.tokx.done == [(0, 0, 0, 5)] && memRead d.mem (t1Place (d0.pchsOf 0) 0x800) 1 == [0x77]) = true ∧
    leaves (.tokenReturn 0 { rm 5 0 1 (leBytes 64 0x77) with sender := 0 }) (outRow [⟨0, 0, 0, 0, 9⟩])
      (fun d => (d.red 0).runs.map (fun r => (r.open_, r.status)) == [([], 0)]) = true ∧
    leaves (.tokenReturn 0 { rm 5 0 0 [] with sender := 0 }) (outRow [⟨0, 0, 0, 0, 9⟩])
      (fun d => (d.red 0).runs.map (fun r => (r.open_, r.status)) == [([], 5)]) = true := by decide +kernel

/-! ### Ethernet ports -/

/-- A register is given a value where its reset value is a free one, so that no comparison with that one is needed. -/
def raw (p : Page) (off v : Nat) (d : Dev) : Dev := { d with pg := { d.pg with regs := d.pg.regs.insert (rkey p 0 off) (BitVec.ofNat 32 v) } }
def s0 : SubId := ⟨0, 0⟩
/-- Sub-port 0 of port 0 with four lanes, a partner that can shed, and the source address 0A:00:00:00:00:00. -/
def mac : Nat := 0x0A0000000000
def port4 (f : SubPort → SubPort) : Dev :=
  ((raw (pEthp 0) 0x080 0x0A (raw (pEthp 0) 0x084 0x10000 ((List.range 15).foldl (fun (d : Dev) n => raw (pEthp 0) (0x088 + 8 * n) 0 (raw (pEthp 0) (0x08C + 8 * n) 0 d)) d0))).setReg (pEthp 0) 0x160 0x80323201).setSub 0
    (f { SubPort.reset with lanes := 4, capUntil := 300000000 })
def em (seq lanes : Nat) : EbbMsg := ⟨0xB0, BitVec.ofNat 16 seq, BitVec.ofNat 8 lanes, 1, true⟩
theorem wit_ebb : (d0.sub 0).lanes = 0 ∧ s0.sub.val < splitSubs (d0.reg (pEthp 0) 0x040) ∧ d0.pwr.state < 2 ∧ d0.boot.recovery = false ∧
    6 ≤ d0.boot.step ∧ ((port4 id).sub 0).capUntil ≠ 0 ∧ (port4 id).mayShed 0 = true ∧ d0.mayShed 0 = false ∧
    ((port4 fun p => { p with rateTx := 10000000, lanes := 2 }).sub 0).lanes ≠ (port4 id).fullLanes 0 ∧
    2 * 125 * 1000 * 50 < 10000000 * 100 ∧ (port4 id).srcAddr 0 = some mac ∧ lowerLanes 4 = 2 := by decide +kernel
theorem wit_ebbState : ((port4 fun p => { p with req := some ⟨3, 2, 1, 0⟩ }).sub 0).req = some ⟨3, 2, 1, 0⟩ ∧
    ((port4 fun p => { p with wakeReq := some ⟨3, 4, 3, 0⟩ }).sub 0).wakeReq = some ⟨3, 4, 3, 0⟩ ∧
    ((port4 fun p => { p with hold := some ⟨2, 0, false⟩ }).sub 0).hold = some ⟨2, 0, false⟩ ∧
    ((port4 fun p => { p with pause := [(3, 50)], xoff := [(3, 0)] }).sub 0).pause.find? 3 = some 50 ∧ (d0.sub 0).xoff.find? 3 = none ∧
    (em 3 2).clean = true ∧ { em 3 2 with clean := false }.clean = false ∧
    d0.xonBytes 0 < (port4 fun p => { p with rx := [⟨3, 0, 1000000⟩] }).rxOcc 0 3 ∧ d0.rxOcc 0 3 ≤ d0.xonBytes 0 := by decide +kernel
/-- R498: a request that this side may grant is acknowledged and holds the sub-port. R500: the third WAKE unanswered takes the link down. -/
theorem test_ebb : leaves (.shedReq s0 (em 3 2)) (port4 id) (fun d => (d.sub 0).hold == some ⟨2, 0, false⟩ && d.out.contains (.ebb s0 3 3 2 0)) = true ∧
    leaves (.shedReq s0 (em 3 1)) (port4 id) (fun d => (d.sub 0).hold == none && d.out.contains (.ebb s0 4 3 1 0)) = true ∧
    leaves (.wakeResend s0) (port4 fun p => { p with wakeReq := some ⟨3, 4, 3, 0⟩ }) (fun d => (d.sub 0).lanes == 0 && (d.sub 0).fails == 1) = true ∧
    leaves (.linkUp s0) d0 (fun d => (d.sub 0).lanes == 4) = true := by decide +kernel

/-- A frame to 0x0A on sub-port 0: 60 bytes of type 0x1234, and the queue pair that takes every VLAN of that type. -/
def fr (n : Nat) : RxFrame := ⟨put (put (beBytes 6 0x0A ++ zbytes n) 12 1 0x12) 13 1 0x34, true, false⟩
theorem wit_frames : ((port4 id).sub 0).lanes ≠ 0 ∧ 64 ≤ (fr 54).bytes.length + 4 ∧ (fr 53).bytes.length + 4 < 64 ∧
    (port4 id).daOk 0 ((fr 54).bytes.take 6) = false ∧ ((port4 id).setReg (pEthp 0) 0x048 0x20000).daOk 0 ((fr 54).bytes.take 6) = true ∧
    (port4 id).qpFor 0 (ethView (fr 54).bytes) (ipView (ethView (fr 54).bytes)) = none ∧ (port4 id).qpLeaving 0 0 = false ∧
    Nat.max 1518 (Nat.min 9216 (bits (d0.reg (pEthp 0) 0x048) 13 0)) < (fr 9300).bytes.length + 4 := by decide +kernel
/-- An enabled kind-2 queue pair 0, and a frame that waits to be sent. -/
def tx (pri : Nat) (q : Option Nat) : TxItem := ⟨pri, q, 0, none, 0, 100, false, zbytes 12 ++ [10, 0, 0, 1], zbytes 12 ++ [10, 0, 0, 2], 2, 47410, [1, 2, 3]⟩
theorem wit_transmit : ((port4 fun p => { p with tx := [tx 3 none] }).sub 0).hold = none ∧
    (admitted 1000 [tx 3 none]).find? (fun (x : TxItem) => x.qp.isNone) = some (tx 3 none) ∧
    (admitted 1000 [tx 3 (some 0)]).find? (fun (x : TxItem) => x.qp.isNone) = none ∧ turnOf [tx 3 (some 0)] none = some (tx 3 (some 0)) ∧
    drr (fun _ => 256) (fun n => if n = 3 then some 100 else none) 400 0 [] = some (3, 11, [(3, 156)]) ∧
    drr (fun _ => 256) (fun _ => none) 400 0 [] = none := by decide +kernel
theorem wit_ports : opens (neg .pf (pEthp 0) d0) .pf (pEthp 0) ∧ d0.bst (pEthp 0) = .disabled ∧ (at_ (pEthp 0) .running d0).bst (pEthp 0) ≠ .disabled ∧
    d0.qpReach (.vf 0) 0 0 = true ∧ d0.qpOwner 0 0 = some 0 ∧ bit (d0.qpCfg 0 0) 0 = false ∧
    bit ((d0.setReg (pEthp 0) 0x400 1).qpCfg 0 0) 0 = true ∧ splitSubs (d0.reg (pEthp 0) 0x040) = 1 ∧ d0.strmOwner 0 = some 0 := by
  unfold opens; decide +kernel
/-- R475: the checks in their order. R487: the firmware's frame goes first. -/
theorem test_frames : leaves (.frameReceive s0 { fr 54 with fcsOk := false }) (neg .pf (pEthp 0) (port4 id)) (fun d => d.pg.ctr.get 0 (ckey .pf (pEthp 0) 4) == 1) = true ∧
    leaves (.frameReceive s0 (fr 53)) (neg .pf (pEthp 0) (port4 id)) (fun d => d.pg.ctr.get 0 (ckey .pf (pEthp 0) 5) == 1) = true ∧
    leaves (.frameReceive s0 (fr 54)) (neg .pf (pEthp 0) (port4 id)) (fun d => d.pg.ctr.get 0 (ckey .pf (pEthp 0) 9) == 1) = true ∧
    leaves (.frameTransmit s0) (port4 fun p => { p with tx := [tx 3 (some 0), tx 5 none] })
      (fun d => (d.sub 0).tx == [tx 3 (some 0)] && d.out.any fun o => match o with | .frame i b => i == s0 && fldBE b 6 6 == mac && fldBE b 12 2 == 0x0800 && fld b 15 1 == 2 && fldBE b 36 2 == 47410 | _ => false) = true := by decide +kernel

/-- The checksum of the IPv4 header 4500 0073 0000 4000 4011 .... c0a8 0001 c0a8 00c7, computed by hand. -/
theorem test_checksum : inetSum (beBytes 8 0x4500007300004000 ++ beBytes 4 0x40110000 ++ beBytes 8 0xc0a80001c0a800c7) = 0xb861 := by decide +kernel

/-! ### Transport -/

/-- A member with device number 3 and epoch 7, its peer link 0 up to device 9 of epoch 5, and key 0 of partition 0. -/
def net (f : PLink → PLink) : Dev :=
  let d := (d0.setReg pFabt 0x040 3).setReg pFabt 0x044 7
  { d with fab := { d.fab with state := .member, peers := [(9, ⟨5, [], .up⟩)],
                               links := [(0, f { PLink.reset with entry := build 32 [(0, 2, 9), (4, 1, 1)], state := .up, major := 1 })] }
           sec := { d.sec with keys := [(keyTarget 0 * 2, leBytes 32 0x1234)] } }
def fpkt (se psn : Nat) : Packet :=
  { link := 0, sub := s0, ver := 0x10, flags := 0, part := 0, srcDev := 9, dstDev := 3, srcEpoch := BitVec.ofNat 32 se, dstEpoch := 7, flow := 1, key := 0, ce := 0
    psn := BitVec.ofNat 32 psn, ack := 0, ctr := 1, sealed := [1], gcmTag := zbytes 16, headerOk := true, ecnCe := false }
/-- A packet of the known epoch whose payload opens passes the checks, whatever it holds: the cipher itself is a free function. -/
theorem wit_pass (body : List Byte) (h : ((net id).takeRx 0).unseal (fpkt 5 0) 1 = some body) : ∃ d, (net id).check (fpkt 5 0) 1 = .pass d body := by
  have e : (net id).check (fpkt 5 0) 1 =
      (((net id).takeRx 0).updLink 0 fun l => { l with heard := true }).checkEpoch (fpkt 5 0) 1 body := by
    unfold Dev.check
    rw [if_neg (by decide +kernel), if_neg (by decide +kernel), if_neg (by decide +kernel)]
    change (match ((net id).takeRx 0).unseal (fpkt 5 0) 1 with | none => _ | some body => _) = _
    rw [h]; rfl
  rw [e]
  unfold Dev.checkEpoch Dev.checkSyn
  rw [if_neg (by decide +kernel), if_neg (by intro ⟨h, _⟩; cases h), if_neg (by decide +kernel), if_neg (by decide +kernel), if_neg (by decide +kernel), if_neg (by decide +kernel)]
  exact ⟨_, rfl⟩
theorem wit_packets : d0.fab.state ≠ .member ∧ (net id).fab.state = .member ∧ ((net id).link 0).speaks (fpkt 5 0) 1 = true ∧ ((net id).link 0).valid = true ∧
    (fpkt 5 0).dstDev.toNat = (net id).selfDev ∧ { fpkt 5 0 with dstDev := 4 }.dstDev.toNat ≠ (net id).selfDev ∧
    { fpkt 5 0 with headerOk := false }.headerOk = false ∧ (net id).known 9 = 5 ∧ d0.unseal (fpkt 5 0) 1 = none ∧
    (fpkt 4 0).srcEpoch.toNat < (net id).known 9 ∧ (net id).known 9 < (fpkt 6 0).srcEpoch.toNat ∧ (net id).selfEpoch = 7 := by decide +kernel
/-- HELLO bodies with versions 1.0, and with a lowest version above 1.0. -/
def helloBody (lo : Nat) : List Byte := beBytes 2 0x4548 ++ beBytes 2 0x100 ++ beBytes 2 lo ++ zbytes 18 ++ beBytes 2 8 ++ zbytes 6
theorem wit_bodies : helloOk (helloBody 0x100) = true ∧ helloOk (zbytes 3) = false ∧ fldBE (helloBody 0x200) 4 2 = 0x200 ∧ fldBE (helloBody 0x100) 2 2 = 0x100 ∧
    zeros (zbytes 8) 0 8 = true ∧ fldBE (beBytes 2 3 ++ beBytes 4 7 ++ zbytes 10) 2 4 = 7 := by decide +kernel
/-- R515: on a device that is no member, and for a payload that does not open, a packet has no effect on a flow. -/
theorem test_packets : leaves (.data (fpkt 5 0)) d0 (fun d => d.fab.recv == []) = true ∧
    leaves (.data { fpkt 5 0 with dstDev := 4 }) (neg .pf pFabt (net id)) (fun d => d.fab.recv == [] && d.pg.ctr.get 0 (ckey .pf pFabt 12) == 1) = true ∧
    leaves (.data { fpkt 5 0 with part := 1 }) (neg .pf pFabt (net id)) (fun d => d.pg.ctr.get 0 (ckey .pf pFabt 13) == 1) = true := by decide +kernel
/-- R521, R522: psn 0 in order moves a new flow on; psn 2 is held. -/
theorem test_flow : ((net id).rxFlow (fpkt 5 0) 1 []).fab.recv.map (·.e) = [1] ∧ ((net id).rxFlow (fpkt 5 2) 1 []).fab.recv.map (fun f => (f.e, f.held.length)) = [(0, 1)] := by
  decide +kernel

/-- A sending flow with one packet out, and a receiving one that owes an ACK. -/
def flows : Dev := { net id with fab := { (net id).fab with
  send := [⟨9, 1, 1, true, some 0, [⟨0, 1, 0, [], 40, true⟩], [], 400000, 64, 16, 2⟩], recv := [⟨9, 1, 4, [], 3, some 50, 0, 0, []⟩] } }
theorem wit_fabric : ((net fun l => { l with state := .hello }).link 0).state = .hello ∧ ((net id).link 0).got = false ∧ ((net id).link 0).spoke = false ∧
    d0.fab.recv = [] ∧ flows.fab.recv.map (·.first) = [some 50] ∧ flows.fab.send.map (·.unacked.length) = [1] ∧ d0.fab.send = [] ∧
    ((net id).link 0).state = .up ∧ ((net id).link 0).heard = false ∧ ((net id).link 0).misses + 1 < Nat.max 1 (bits 0x300000 27 20) ∧
    Nat.max 1 (bits (d0.reg pFabt 0x050) 27 20) ≥ 1 ∧ ((net fun l => { l with misses := 300 }).link 0).misses = 300 := by decide +kernel
theorem wit_identity : opens (neg .pf pFabt d0) .pf pFabt ∧ d0.bst pFabt = .disabled ∧ (at_ pFabt .running d0).bst pFabt ≠ .disabled ∧ d0.fab.fencedId = none ∧
    (d0.wrReg .pf pFabt 0x040 5#32).selfDev = 5 ∧ d0.selfDev ≠ 5 ∧ tblReserved 0 (zbytes 32) = true ∧ tblReserved 0 (put (zbytes 32) 31 1 1) = false ∧
    tblReserved 1 (zbytes 32) = true ∧ ((net id).link 0).valid = true ∧ (d0.link 5).valid = false ∧ bits (d0.reg pFabt 0x070) 10 10 = 0 := by
  unfold opens; decide +kernel
/-- Example 1 of chapter 13: 64 packets acknowledged, 16 of them marked: 400 Gb/s falls by 1/8 to 350. -/
theorem test_rate : leaves .rateWindow (((flows.setReg pFabt 0x058 0x01010000).setReg (pEthp 0) 0x040 0)) (fun d => d.fab.send.map (fun f => (f.acked, f.marked)) == [(0, 0)]) = true ∧
    (400000 - 400000 * Nat.min 16 64 / (2 * 64)) = 350000 := by decide +kernel

/-! ### Streams -/

def deco0 : Page := ⟨.deco, 0⟩
/-- Context 0 and engine 0 Running, up to 64 bytes for a picture, engine weight 1 for partitions 0 and 1. -/
def strm (src : Nat) (f : Ctx → Ctx) (g : Deco → Deco) : Dev :=
  (((((((at_ deco0 .running (at_ (pStrm 0) .running d0)).setReg (pStrm 0) 0x040 src).setReg (pStrm 0) 0x044 0x77).setReg (pStrm 0) 0x04C 1).setReg
    deco0 0x040 1).setReg (pStrm 0) 0x10C 2).updCtx 0 f).updDeco 0 g
def pic (ident : Nat) : Picture := ⟨[5], ident, 0, 0, 0, true, 16, 16⟩
def asm (ident next : Nat) : Ctx → Ctx := fun x => { x with asm := some ⟨pic ident, next, 0⟩ }
/-- A packet with the ingest header, and an RTP packet, of picture 9. -/
def raw1 (flags index : Nat) (data : List Byte) : List Byte :=
  beBytes 2 0x4549 ++ beBytes 1 1 ++ beBytes 1 flags ++ beBytes 4 9 ++ beBytes 2 index ++ beBytes 2 data.length ++ data
def rtp1 (seq mark : Nat) : List Byte := [0x80] ++ beBytes 1 (mark * 128) ++ beBytes 2 seq ++ beBytes 4 9 ++ beBytes 4 0x77 ++ [1, 2, 3, 4, 1, 6, 7, 8, 9]
theorem wit_raw : d0.bst (pStrm 0) ≠ .running ∧ (strm 0 id id).bst (pStrm 0) = .running ∧ (strm 0 id id).strmRtp 0 = false ∧
    (12 ≤ (raw1 1 0 [7]).length ∧ fldBE (raw1 1 0 [7]) 0 2 = 0x4549 ∧ fld (raw1 1 0 [7]) 2 1 = 1 ∧ bits (fld (raw1 1 0 [7]) 3 1) 7 2 = 0 ∧
      12 + fldBE (raw1 1 0 [7]) 10 2 ≤ (raw1 1 0 [7]).length) ∧ (¬ 12 ≤ [0#8].length) ∧
    bit (fld (raw1 1 0 [7]) 3 1) 0 = true ∧ fldBE (raw1 1 0 [7]) 8 2 = 0 ∧ bit (fld (raw1 1 0 [7]) 3 1) 1 = false ∧
    (strm 0 id id).reg (pStrm 0) 0x04C * 64 = 64 ∧ bit (fld (raw1 0 3 [7]) 3 1) 0 = false ∧ fldBE (raw1 0 3 [7]) 8 2 = 3 ∧
    ((strm 0 (asm 9 3) id).sctx 0).asm.map (fun a => (a.pic.ident, a.next)) = some (9, 3) ∧ (raw1 0 3 (zbytes 64)).length = 76 ∧
    bit (fld (raw1 2 3 [7]) 3 1) 1 = true ∧ fldBE (raw1 0 3 [7]) 4 4 = 9 := by decide +kernel
theorem wit_rtp : (strm 1 id id).strmRtp 0 = true ∧ rtpPayload [1] = none ∧ (rtpPayload (rtp1 5 0)).isSome = true ∧
    bits (fld (rtp1 5 0) 1 1) 6 0 = bits ((strm 1 id id).reg (pStrm 0) 0x040) 14 8 ∧ bits ((strm 0x101 id id).reg (pStrm 0) 0x040) 14 8 = 1 ∧
    fldBE (rtp1 5 0) 8 4 = (strm 1 id id).reg (pStrm 0) 0x044 ∧ bit ((strm 5 id id).reg (pStrm 0) 0x040) 2 = true ∧
    ((strm 1 (fun x => { x with nextSeq := some 4 }) id).sctx 0).nextSeq = some 4 ∧ fldBE (rtp1 5 0) 2 2 = 5 ∧ fldBE (rtp1 5 0) 4 4 = 9 ∧
    bit (fld (rtp1 5 1) 1 1) 7 = true ∧ bit (fld (rtp1 5 0) 1 1) 7 = false ∧ ((strm 1 (fun x => { x with skip := some 9 }) id).sctx 0).skip = some 9 ∧
    ((strm 1 id id).sctx 0).skip ≠ some 9 ∧ (rtpPayload (rtp1 5 0)).map (fun p => jpegPayload p false) = some (.data [9]) ∧
    (strm 1 id id).strmCodec 0 = 0 ∧ (strm 3 id id).strmCodec 0 = 1 ∧ h265Payload [2, 1, 7] = .data [0, 0, 0, 1, 2, 1, 7] := by decide +kernel
/-- The headers of a picture are read by a free function: with what it may answer, the last fragment queues the picture. -/
theorem wit_lastFragment (h : Config.pictureInfo 0 0 [] [5, 7] = ⟨true, true, 16, 16⟩) :
    let d := ((strm 0 (asm 9 3) id).setReg (pStrm 0) 0x048 0x00100010)
    let i := Config.pictureInfo (d.strmCodec 0) 0 (d.earlier 0) ([5] ++ [7])
    i.supported = true ∧ d.sizeOk 0 i.width i.height = true ∧ (d.sctx 0).waiting.length < 4 ∧ (d.sctx 0).waitIrap = false := by
  have a : ((strm 0 (asm 9 3) id).setReg (pStrm 0) 0x048 0x00100010).strmCodec 0 = 0 := by decide +kernel
  have b : ((strm 0 (asm 9 3) id).setReg (pStrm 0) 0x048 0x00100010).earlier 0 = [] := by decide +kernel
  simp only [a, b]
  change (Config.pictureInfo 0 0 [] [5, 7]).supported = true ∧ _ ∧ _ ∧ _
  change _ ∧ Dev.sizeOk _ 0 (Config.pictureInfo 0 0 [] [5, 7]).width (Config.pictureInfo 0 0 [] [5, 7]).height = true ∧ _
  rw [h]
  decide +kernel
/-- R583: 8 in the place of 7 loses the picture; the RTP fragment in order joins; R585: the time-out drops. -/
theorem test_packetsOf : leaves (.streamPacket 0 (raw1 1 0 [7])) (strm 0 id id) (fun d => (d.sctx 0).asm == some ⟨⟨[7], 9, 0, 0, 0, false, 0, 0⟩, 1, 0⟩) = true ∧
    leaves (.streamPacket 0 (raw1 0 4 [7])) (strm 0 (asm 9 3) id) (fun d => (d.sctx 0).asm == none && (d.sctx 0).drops == 1) = true ∧
    leaves (.streamPacket 0 (raw1 0 3 [7])) (strm 0 (asm 9 3) id) (fun d => (d.sctx 0).asm.map (·.pic.bytes) == some [5, 7]) = true ∧
    leaves (.streamPacket 0 (rtp1 5 0)) (strm 1 (fun x => { asm 9 0 x with nextSeq := some 5 }) id)
      (fun d => (d.sctx 0).asm.map (·.pic.bytes) == some [5, 9] && (d.sctx 0).nextSeq == some 6) = true ∧
    leaves (.streamPacket 0 (rtp1 6 0)) (strm 1 (fun x => { asm 9 0 x with nextSeq := some 5 }) id)
      (fun d => (d.sctx 0).asm == none && (d.sctx 0).skip == some 9 && (d.sctx 0).drops == 1) = true ∧
    leaves (.assemblyTimeout 0) (strm 0 (asm 9 3) id) (fun d => (d.sctx 0).asm == none && (d.sctx 0).drops == 1) = true := by decide +kernel

/-- Slot 0 active with one picture written, slot 1 armed. -/
def batch (x : Ctx) : Ctx := { x with active := some 0, written := 1, slot0 := ⟨true, 0, false⟩, slot1 := ⟨true, 0, false⟩ }
theorem wit_slots : ((strm 0 id id).sctx 0).asm = none ∧ ((strm 0 (asm 9 3) id).sctx 0).asm = some ⟨pic 9, 3, 0⟩ ∧ (d0.sctx 0).active = none ∧
    ((strm 0 batch id).sctx 0).active = some 0 ∧ ((strm 0 batch id).sctx 0).written ≠ 0 ∧
    ((strm 0 batch id).setReg (pStrm 0) 0x088 50).reg (pStrm 0) 0x088 ≠ 0 ∧ (strm 0 batch id).strmOwner 0 = some 0 ∧
    opens (neg .pf (pStrm 0) d0) .pf (pStrm 0) ∧ (((strm 0 batch id).sctx 0).slot 0).own = true ∧ ((d0.sctx 0).slot 0).own = false ∧
    d0.armBad 0 0 = true ∧ ((((d0.setReg (pStrm 0) 0x108 64).setReg (pStrm 0) 0x10C 1).setReg (pStrm 0) 0x118 0)).armBad 0 0 = false := by
  unfold opens; decide +kernel
def waiting (x : Ctx) : Ctx := { x with waiting := [pic 9] }
theorem wit_decodes : d0.bst deco0 ≠ .running ∧ (strm 0 waiting id).bst deco0 = .running ∧ ((strm 0 waiting id).decoSt 0).cur = none ∧
    (strm 0 waiting id).decoWeight 0 0 ≠ 0 ∧ (strm 0 waiting id).decoNext 0 0 = some 0 ∧ (strm 0 waiting id).decoWaiting 0 0 ≠ [] ∧
    ((strm 0 waiting id).sctx 0).waiting = [pic 9] ∧ ((strm 0 waiting id).decoSt 0).turn = 0 ∧
    (strm 0 waiting id).picCost 0 (pic 9) ≤ ((strm 0 waiting fun x => { x with deficit := [(0, 5000)] }).decoSt 0).deficit.get 0 0 ∧
    ((strm 0 waiting fun x => { x with turn := 15 }).decoSt 0).turn = 15 ∧ (15 + 1) % 16 = 0 ∧ ((strm 0 waiting id).setReg deco0 0x07C 0).decoWeight 0 15 = 0 ∧
    (strm 0 waiting id).picCost 0 (pic 9) ≤ 1048576 ∧ (d0.decoSt 0).cur.isSome = false ∧
    ((strm 0 id fun x => { x with cur := some (0, pic 9, 2768) }).decoSt 0).cur = some (0, pic 9, 2768) ∧ d0.strmOwner 47 = some 0 ∧
    { d0 with parts := { d0.parts with live := [] } }.strmOwner 0 = none := by decide +kernel
def img (w : Nat) : Config.Decoded := ⟨0, w, 16, false, 2, 2, false, [], [], []⟩
/-- A decoded picture, whatever the codec makes of its bytes, is the one that is asked for, and its place is awake. -/
def busy (x : Deco) : Deco := { x with cur := some (0, pic 9, 2768) }
theorem wit_decoded (h : Config.decodePicture 0 0 [] [5] = some [img 16]) :
    let d := strm 0 batch busy
    let x := d.sctx 0
    Config.decodePicture (d.strmCodec 0) (b2n (d.strmRtp 0)) (x.refs.map fun (p : Picture) => p.bytes) (pic 9).bytes = some [img 16] ∧
    (x.refs ++ [pic 9])[(img 16).index]? = some (pic 9) ∧ (d.slotAwake 0 0 1).1 = true ∧ d.cropOk 0 (img 16) = true ∧
    (d.setReg (pStrm 0) 0x054 0x00200020).cropOk 0 (img 16) = false ∧ x.active = some 0 ∧ x.written + 1 = d.slotReg 0 0 0x0C ∧
    x.written + 1 ≠ (d.setReg (pStrm 0) 0x10C 4).slotReg 0 0 0x0C ∧ d.bst (pStrm 0) = .running ∧ x.waitIrap = false := by
  refine ⟨h, ?_⟩
  decide +kernel

/-! ### Islands -/

def isl (f : Isle → Isle) : Dev := d0.updIsle 0 f
theorem wit_islands : (isleKind 0).isSome = true ∧ (isleKind 0x110).isSome = true ∧ (isleKind 0x13B).isSome = true ∧ opens (neg .pf (pIsle 0) d0) .pf (pIsle 0) ∧
    opens (neg (.vf 0) (pIsle 0x130) d0) (.vf 0) (pIsle 0x130) ∧ d0.unused 0 = false ∧ d0.unused 16 = true ∧ d0.armed 16 = false ∧ d0.saves 0 = false ∧
    (d0.setReg (pIsle 0) 0x04C 8).saves 0 = true ∧ (d0.setReg (pIsle 0) 0x04C 8).saveArea 0 = false ∧ (d0.clus' 0).slots.getD 0 .dead = .active ∧
    (d0.isle 0).state = .fired ∧ IsleState.ofCode 2 = some .banked ∧ ((isl fun x => { x with state := .cold }).isle 0).state = .cold ∧
    ((isl fun x => { x with state := .held }).isle 0).move = .rest ∧ ((isl fun x => { x with state := .held, move := .descending }).isle 0).move ≠ .exiting := by
  unfold opens; decide +kernel
theorem wit_descents : (isl id).isleBusy 0 = false ∧ ((isl fun x => { x with req := .damped }).isle 0).req = .damped ∧
    (d0.mvec.get .reset 0).cur.isSome = false ∧ ((isl fun x => { x with move := .descending, wake := true }).isle 0).wake = true ∧
    ((isl fun x => { x with move := .descending, state := .damped, saved := true }).isle 0).saved = true ∧
    ((isl fun x => { x with move := .exiting, state := .cold }).isle 0).move = .exiting ∧ (d0.isle 0).move ≠ .exiting ∧
    d0.clusterOwner 0 = some 0 ∧ d0.clusterOwner (300 / 17) = none ∧ ((isl fun x => { x with move := .saving }).isle 0).move = .saving ∧
    ((isl fun x => { x with move := .restoring }).isle 0).move = .restoring ∧ bits ((d0.setReg (pIsle 0) 0x04C 0x201).reg (pIsle 0) 0x04C) 2 0 = 1 ∧
    (isl id).isleIdle 0 = true ∧ (isl id).mayAsk false 0 .held = true ∧ (isl id).mayAsk false 0 .cold = false := by decide +kernel
/-- R605: Cold is refused while the core runs for a partition. R608: a wake that waits starts the exit. R49: from Cold the timer starts at 0. -/
theorem test_islands : leaves (.isleStateReq .pf 0 4) (neg .pf (pIsle 0) d0) (fun d => (d.isle 0).req == .fired && d.pg.ctr.get 0 (ckey .pf (pIsle 0) 6) == 1) = true ∧
    leaves (.isleStateReq .pf 0 2) (neg .pf (pIsle 0) d0) (fun d => (d.isle 0).req == .banked) = true ∧
    leaves (.islandDescentStart 0) (isl fun x => { x with req := .held }) (fun d => (d.isle 0).state == .held && (d.isle 0).move == .descending) = true ∧
    leaves (.islandDescentDone 0) (isl fun x => { x with state := .held, req := .held, move := .descending, wake := true }) (fun d => (d.isle 0).move == .exiting) = true ∧
    leaves (.islandExitDone 0) (isl fun x => { x with state := .cold, move := .exiting, timer := 500 })
      (fun d => (d.isle 0).state == .fired && (d.isle 0).timer == 0) = true ∧
    leaves (.isleFreqWrite .pf 0 0x7F) (neg .pf (pIsle 0) d0) (fun d => (d.isle 0).target == 84) = true := by decide +kernel

/-! ### Power -/

def pw (f : Pwr → Pwr) : Dev := d0.updPwr f
def plan9 : Plan := ⟨1000, false, 1, 1⟩
theorem wit_power : 500 < 1000 + sumN ((pw id).waitingPlans.map (·.2)) / 1000 ∧ (pw fun p => { p with g := 2000000 }).pwr.g = 2000000 ∧
    1150000 < 2000000 ∧ (pw fun p => { p with brake := true }).pwr.brake = true ∧ d0.waitingPlans = [] ∧
    (d0.updCore 0 fun c => { c with arrPlan := some plan9 }).waitingPlans = [(0, 1000)] ∧ ((d0.updCore 0 fun c => { c with arrPlan := some plan9 }).core 0).arrPlan = some plan9 ∧
    1000 * Nat.max 200 (Nat.min 960 (d0.reg pPwrc 0x048)) = 960000 ∧ (pw fun p => { p with overs := 40 }).pwr.overs = 40 ∧ (d0.die 0).cap ≤ 84 ∧
    ((d0.setDie 0 { d0.die 0 with emergency := true, run105 := 9 }).die 0).emergency = true ∧ ((d0.setDie 0 { d0.die 0 with emergency := true, run105 := 9 }).die 0).run105 = 9 ∧
    d0.pwr.state ≠ 2 ∧ d0.pwr.moving ≠ some 2 ∧ (pw fun p => { p with under := true }).pwr.under = true ∧ d0.pwr.under = false := by decide +kernel
theorem wit_ladder : opens (neg .pf pPwrc d0) .pf pPwrc ∧ (pw fun p => { p with moving := some 1 }).pwr.moving.isSome = true ∧ d0.pwr.state = 0 ∧ d0.pwr.moving = none ∧
    d0.ladderRefuses = false ∧ (core0 .running).ladderRefuses = true ∧ bit (d0.regAt pPwrc 0 0x040).toNat 4 = false ∧
    bit ((d0.setReg pPwrc 0x040 0x10).regAt pPwrc 0 0x040).toNat 4 = true ∧ (d0.isle 0).state = .fired ∧
    (List.range 0x120).all (fun i => (({ d0 with isles := (List.range 0x120).map fun i => (i, { d0.isle i with state := .held }) } : Dev).isle i).state ≠ .fired) = true ∧
    (pw fun p => { p with state := 1 }).pwr.state = 1 ∧ d0.tier.lent = [] ∧ (pw fun p => { p with moving := some 3 }).pwr.moving = some 3 := by
  unfold opens; decide +kernel
/-- Chapter 16: the steps of the cap and thermal loops, the undervoltage brake, the ladder. -/
theorem test_power : leaves (.capWindow 970000) d0 (fun d => (d.die 0).cap == 83 && d.pwr.overs == 1) = true ∧
    leaves (.thermalReading 101 104 90 99) d0 (fun d => (d.die 0).thermal == 80 && (d.die 1).thermal == 16 && (d.die 1).emergency && (d.die 2).thermal == 84 && (d.die 3).thermal == 84) = true ∧
    leaves .undervoltage d0 (fun d => (d.die 0).cap == 48 && d.pwr.under) = true ∧
    leaves (.deviceStandby .pf) (neg .pf pPwrc d0) (fun d => d.pwr.moving == some 2 && d.flash.state == .unmounted) = true ∧
    leaves (.deviceStandby .pf) (neg .pf pPwrc (core0 .running)) (fun d => d.pwr.moving == none) = true := by decide +kernel

/-! ### Errors, slots and sideband inputs -/

def errOf (h : List Dom) : Dev := { d0 with errm := { d0.errm with handled := h } }
theorem wit_errors : (pCore 0).valid = true ∧ d0.errm.queue.length < 224 ∧ (d0.reg pErrm 0x048) = 16 ∧ d0.handledAt (pCore 0) = false ∧
    (errOf [.core 0]).handledAt (pCore 0) = true ∧ ({ d0 with errm := { d0.errm with ce := [((pCore 0).key, 15)] } } : Dev).errm.ce.get 0 (pCore 0).key + 1 = 16 ∧
    Dom.device ∈ (errOf [.device]).errm.handled ∧ Dom.device ∉ d0.errm.handled ∧ (errOf [.core 0]).errm.handled.find? (fun h => (errOf [.core 0]).domIn (.core 0) h) = some (.core 0) ∧
    d0.errm.handled.find? (fun h => d0.domIn (.cluster 0) h) = none ∧ d0.bst (pCore 0) ≠ .absent ∧ d0.bst (pClst 0) ≠ .absent ∧ d0.bst pDevc ≠ .absent ∧
    (d0.clus' 0).slots.getD 0 .dead = .active ∧ (d0.clus' 0).withdrawn = false ∧ opens (neg .pf pErrm d0) .pf pErrm := by
  unfold opens; decide +kernel
/-- Cluster 0 with slot 3 in a state. -/
def slot3 (x : SlotState) : Dev := d0.setSlot 0 3 x
theorem wit_slotsOf : (d0.clus' 0).slots.length = 17 ∧ (d0.clus' 0).map.length = 16 ∧ d0.logical 3 = some 3 ∧ (d0.isle 3).state = .fired ∧ d0.halt.effect = false ∧
    ({ d0 with halt := { d0.halt with effect := true } } : Dev).halt.effect = true ∧ Nat.max 1 (bits (d0.reg (pClst 0) 0x048) 23 16) = 8 ∧
    ((slot3 .dead).clus' 0).slots.getD 3 .dead = .dead ∧ ((slot3 .fenced).clus' 0).slots.getD 3 .dead = .fenced ∧ ((slot3 .testing).clus' 0).slots.getD 3 .dead = .testing ∧
    (d0.clus' 0).slots.getD 16 .dead = .spare ∧ ((d0.updClus 0 fun k => { k with withdrawn := true }).clus' 0).withdrawn = true ∧
    opens (neg .pf (pClst 0) d0) .pf (pClst 0) ∧
    16 ≤ ((List.range 17).filter fun s => (d0.clus' 0).slots.getD s .dead == .active || (d0.clus' 0).slots.getD s .dead == .spare).length := by
  unfold opens; decide +kernel
/-- R642, R643, R647: a core's error halts it, a second one in it escalates to its cluster, and an unanswered probe brings the spare in. -/
theorem test_errors : leaves (.errorDetect 0x209 (pCore 0) 0 0) d0 (fun d => d.errm.handled == [.core 0] && d.bst (pCore 0) == .halted && (d.errm.queue.map (·.code)).head? == some 0x209#16) = true ∧
    leaves (.errorDetect 0x209 (pCore 0) 0 0) (errOf [.core 0]) (fun d => d.errm.handled.contains (.cluster 0) && (d.errm.queue.map (·.code)).contains 0x210#16) = true ∧
    leaves (.errorDetect 0x205 (pCore 0) 0 0) d0 (fun d => d.errm.queue.map (·.sev) == [.p] && d.errm.seq == 1) = true ∧
    leaves (.coreProbe 0 3 false) (d0.updClus 0 fun k => { k with misses := [(3, 7)] })
      (fun d => (d.clus' 0).slots.getD 3 .absent == .dead && (d.clus' 0).map.getD 3 (0, 0) == (16, 1)) = true ∧
    leaves (.deadSlotRevive 0 3) (slot3 .dead) (fun d => (d.clus' 0).slots.getD 3 .absent == .fenced) = true := by decide +kernel
theorem wit_sideband : (d0.side .halt).asserted = false ∧ (({ d0 with brake := { d0.brake with asserted := true, effect := true } } : Dev).side .brake).asserted = true ∧
    (({ d0 with halt := { d0.halt with held10 := true } } : Dev).side .halt).held10 = true ∧ d0.errm.queue.length < 223 ∧ d0.pwr.brake = false ∧
    opens (neg .pf pSide d0) .pf pSide := by unfold opens; decide +kernel
/-- R657, R658: the effect of HALT_N outlasts the pin, and resume ends it. -/
theorem test_sideband : leaves (.haltNAssert false) d0 (fun d => d.halt.effect && d.errm.queue.map (·.code) == [0x212#16]) = true ∧
    leaves (.sidebandDeassert .halt) { d0 with halt := ⟨false, true, true, false, false, 0⟩ } (fun d => d.halt.effect && !d.halt.asserted) = true ∧
    leaves (.sideResume .pf true false) (neg .pf pSide { d0 with halt := ⟨true, false, true, false, false, 0⟩ }) (fun d => !d.halt.effect) = true ∧
    leaves (.sideResume .pf true false) (neg .pf pSide { d0 with halt := ⟨false, true, true, false, false, 0⟩ }) (fun d => d.halt.effect) = true := by decide +kernel

/-! ### Security controller and management -/

def se (f : Sec → Sec) : Dev := neg .pf pSecc (d0.updSec f)
theorem wit_firmware : opens (se id) .pf pSecc ∧ (se fun x => { x with loading := some (true, 0, 8192) }).sec.loading.isSome = true ∧ (se id).sec.loading = none ∧
    bits ((se id).reg pSecc 0x058) 24 0 = 0 ∧ bits (((se id).setReg pSecc 0x058 0x2000).reg pSecc 0x058) 24 0 = 8192 ∧ 8192 % 4096 = 0 ∧
    (se id).irq.bme.contains 0 = true ∧ { (se id).irq with bme := [] }.bme.contains 0 = false ∧ ((se id).sec.slot (!(se id).sec.bootB)).valid = true ∧
    ((se fun x => { x with slotB := ⟨false, []⟩ }).sec.slot true).valid = false ∧ (se fun x => { x with loading := some (true, 0, 8192) }).sec.loading = some (true, 0, 8192) := by
  unfold opens; decide +kernel
theorem wit_svn : (se id).sec.autoSvn = false ∧ (se id).sec.fallback = false ∧ (se id).boot.step = 8 ∧ (se id).pwr.state = 0 ∧ (se id).boot.recovery = false ∧
    bit (fld (put (zbytes 16) 0xD 1 1) 0xD 1) 0 = true ∧ bit (fld (zbytes 16) 0xD 1) 0 = false ∧ (se fun x => { x with autoSvn := true }).sec.autoSvn = true := by
  decide +kernel
/-- The key window on target t and slot q. -/
def keyAt (t q : Nat) (f : Sec → Sec) : Dev := (se f).setReg pSecc 0x070 (t + 256 * q)
theorem wit_keys : opens (keyAt 0 1 id) .pf pSecc ∧ 16 < bits ((keyAt 17 0 id).reg pSecc 0x070) 4 0 ∧ (keyAt 0 0 id).sec.transmit.get 0 0 = 0 ∧
    bits ((keyAt 0 1 id).reg pSecc 0x070) 8 8 = 1 ∧ (keyAt 1 1 id).active 1 = false ∧ (keyAt 0 1 id).active 0 = true ∧
    (keyAt 0 1 id).sec.keys.get [] 1 = [] ∧ (keyAt 0 1 fun x => { x with keys := [(1, [7])] }).sec.keys.get [] 1 ≠ [] := by
  unfold opens; decide +kernel
/-- R664: a length of zero ends with 9. R680: the slot that transmits takes no key; the other one does, and transmits when asked. -/
theorem test_secure : leaves (.fwLoad .pf) (se id) (fun d => d.sec.fwStatus == 9) = true ∧
    leaves (.fwLoad .pf) ((se id).setReg pSecc 0x058 0x2000) (fun d => d.sec.loading == some (true, 0, 8192) && !d.sec.slotB.valid) = true ∧
    leaves (.fwSelect .pf) (se id) (fun d => d.sec.bootB) = true ∧
    leaves (.keyInstall .pf) (keyAt 0 0 id) (fun d => d.sec.kStatus == 2) = true ∧
    leaves (.keyInstall .pf) (keyAt 0 1 fun x => { x with kData := [(0, 5)] }) (fun d => d.sec.keys.map (·.1) == [1] && d.sec.kData == []) = true ∧
    leaves (.keySetTransmit .pf) (keyAt 0 1 fun x => { x with keys := [(1, [7])] }) (fun d => d.sec.transmit.get 0 0 == 1) = true ∧
    leaves (.svnCommit .pf) (se fun x => { x with run1 := put (zbytes 16) 0xC 1 3 }) (fun d => d.sec.svn1 == 3 && !d.sec.slotB.valid) = true := by decide +kernel

def spd (n : Nat) : Dev := d0.setSpdm .doe { Spdm.reset with phase := n, version := 0x12 }
def large (n : Nat) : Dev := d0.setSpdm .doe ⟨3, 0x12, [], 4, zbytes 4200, n⟩
theorem wit_spdm : ((spd 0).spdm .doe).phase < 1 ∧ 1 ≤ ((spd 1).spdm .doe).phase ∧ fld [0x12#8] 0 1 = 0x12 ∧ fld [0x10#8] 0 1 ≠ 0x12 ∧ fld [0x10#8] 0 1 ≠ 0x13 ∧
    ((spd 3).spdm .doe).phase = 3 ∧ fld [0x12#8, 0x83, 0, 0] 2 1 = 0 ∧ fld [0x12#8, 0x83, 1, 0] 2 1 ≠ 0 ∧ (9#8).toNat > 8 ∧ (9#8) ≠ 0xFF#8 ∧
    ((large 1).spdm .doe).large ≠ [] ∧ (4#8).toNat = ((large 1).spdm .doe).handle ∧ (1#16).toNat = ((large 1).spdm .doe).nextChunk ∧ ((spd 3).spdm .doe).large = [] ∧
    (large 1).spdm .doe = ⟨3, 0x12, [], 4, zbytes 4200, 1⟩ := by decide +kernel
/-- The certificates are a free function of the images: a request inside what it gives completes. -/
theorem wit_certificate (h : 0 < (spd 3).chain.length) : 3 ≤ ((spd 3).spdm .doe).phase ∧ (0 : Fin 8) = 0 ∧ (0#16).toNat < (spd 3).chain.length :=
  ⟨by decide +kernel, rfl, h⟩
theorem wit_management : d0.boot.aux = true ∧ { d0.boot with aux := false }.aux = false ∧ (5#8) ≠ 0 ∧ (5#8) ≠ 0xFF ∧ d0.boot.mgmtBusy = false ∧
    d0.boot.assigned = false ∧ { d0.boot with assigned := true }.assigned = true ∧ (0x3B#7) ≠ 0x3A := by decide +kernel
/-- R672: the versions. R671: the last chunk ends a large response. R674, R677, R711: the control messages, an unknown request, an address. -/
theorem test_management : leaves (.getVersion .doe [0x10, 0x84, 0, 0]) d0 (fun d => d.out == [.spdm .doe [0x10, 0x04, 0, 0, 0, 2, 0, 0x12, 0, 0x13]]) = true ∧
    leaves (.getDigests .doe [0x12, 0x81, 0, 0]) (spd 1) (fun d => (d.spdm .doe).transcript == [] && d.out.length == 1) = true ∧
    leaves (.chunkGet .doe 4 1) (large 1) (fun d => (d.spdm .doe).large == [] && (d.spdm .doe).nextChunk == 0) = true ∧
    leaves (.setEndpointId 3 9) d0 (fun d => d.boot.eid == 9 && d.out == [.mgmt 3 [0, 3, 1, 0, 0, 9, 0]]) = true ∧
    leaves (.managementUnknownRequest 3 0x77) d0 (fun d => d.out == [.mgmt 3 [0x7F, 0, 4, 0xE2, 0x1A, 3, 0x77, 0xFF]]) = true ∧
    leaves (.recovery 3) d0 (fun d => d.boot.recAsked) = true ∧ leaves (.entdaa 9) d0 (fun d => d.boot.i3c == 9 && d.boot.assigned) = true ∧
    leaves (.setdasa 0x3B 9) d0 (fun d => !d.boot.assigned) = true := by decide +kernel

/-! ### Start-up, resets, the link -/

def bo (f : Boot → Boot) : Dev := d0.updBoot f
def committing (x : CommitState) : Dev := { d0 with parts := { d0.parts with commit := { d0.parts.commit with state := x } } }
def opReady (f : Boot → Boot) : Dev := ({ opRinged with rings := [(16, { Ring.reset with tails := [(0, 1)] })] } : Dev).updBoot f
theorem wit_opRing : ringTakes (opReady id) 16 0 0 false ∧ ringTakes (opReady fun b => { b with recovery := true }) 16 0 0 false :=
  ⟨⟨by decide +kernel, fun h => (by cases h), by decide +kernel⟩, ⟨by decide +kernel, fun h => (by cases h), by decide +kernel⟩⟩
theorem wit_resets : (bo fun b => { b with perst := true }).boot.perst = true ∧ d0.boot.aux = true ∧ d0.boot.perst = false ∧ d0.boot.linkUp = true ∧ 7 ≤ d0.boot.step ∧
    (pw fun p => { p with state := 3 }).pwr.state = 3 ∧ (bo fun b => { b with step := 0 }).boot.step = 0 ∧ (bo fun b => { b with linkUp := false }).boot.linkUp = false ∧
    (committing .sealed).parts.commit.state = .sealed ∧ (committing .applying).parts.commit.state = .applying ∧ d0.parts.commit.state = .idle ∧
    (se fun x => { x with loading := some (true, 0, 8192) }).sec.loading.isSome = true ∧ d0.boot.step = 8 ∧ (bo fun b => { b with aux := false }).boot.aux = false := by
  decide +kernel
theorem wit_steps : (bo fun b => { b with step := 0 }).boot.step = 0 ∧ (bo fun b => { b with step := 1 }).boot.step = 1 ∧ (bo fun b => { b with step := 2 }).boot.step = 2 ∧
    (bo fun b => { b with step := 2, inputOk := false }).boot.inputOk = false ∧ d0.boot.inputOk = true ∧ (bo fun b => { b with step := 3 }).boot.step = 3 ∧
    (bo fun b => { b with step := 4 }).boot.step = 4 ∧ (bo fun b => { b with step := 4, recovery := true }).boot.recovery = true ∧ d0.flash.plp = false ∧
    (bo fun b => { b with step := 6, perst := true }).boot.perst = true ∧ (bo fun b => { b with step := 7 }).boot.step = 7 ∧ d0.boot.recovery = false ∧ d0.pwr.state ≠ 3 ∧
    16 ≤ ((List.range 17).filter fun q => !([] : List Nat).contains (17 * 0 + q) && (d0.clus' 0).slots.getD q .dead != .defective).length ∧
    (8#64).toNat % 8 = 0 ∧ (1#32).toNat = 1 ∧ (1#8).toNat = 1 := by decide +kernel
/-- R684, R689, R692–R694: what each start-up step, PERST# and the loss of auxiliary power leave. -/
theorem test_startup : leaves (.startupStepDone true 0 []) (bo fun b => { b with step := 0 }) (fun d => d.boot.step == 1) = true ∧
    leaves (.startupStepDone false 9 []) (bo fun b => { b with step := 1 }) (fun d => d.boot.step == 2 && d.boot.recovery && d.boot.failed == 2 && d.boot.code == 9) = true ∧
    leaves (.startupStepDone true 0 []) (bo fun b => { b with step := 6, perst := true }) (fun d => d.boot.step == 6) = true ∧
    leaves (.perstDeassert) (bo fun b => { b with perst := true }) (fun d => !d.boot.perst && d.boot.step == 8) = true ∧
    leaves .perstAssert (bo fun b => { b with step := 0 }) (fun d => d.boot.perst && d.boot.step == 0) = true ∧
    leaves (.recoverLoad en 8 1 1 [] false true) (opReady id) (fun d => (d.ring 16).tails.get 0 0 == 1 && !(d.dma 0).maint) = true := by decide +kernel
theorem wit_link : (bo fun b => { b with mgmtBusy := true }).boot.mgmtBusy = true ∧ 3 < (4#8).toNat ∧ (pw fun p => { p with moving := some 1 }).pwr.moving.isSome = true ∧
    d0.pwr.state = 0 ∧ (pw fun p => { p with state := 3 }).pwr.state = 3 ∧ d0.ladderRefuses = false ∧ ((core0 .running).cnt .pf pMgmt 0 1).ladderRefuses = true ∧
    d0.boot.step = 8 ∧ d0.boot.perst = false ∧ ({ d0 with irq := { d0.irq with pba := [4] } } : Dev).irq.pba.contains 4 = true ∧ d0.irq.bme.contains 0 = true ∧
    d0.irq.pba.contains 4 = false := by decide +kernel
/-- R677: POWER to a state in force, to one that does not exist, and to Quiet, whose answer waits. -/
theorem test_link : leaves (.power 3 0) d0 (fun d => d.out == [.mgmt 3 [0x7F, 0, 4, 0xE2, 0x1A, 3, 0x30, 0]]) = true ∧
    leaves (.power 3 4) d0 (fun d => d.out == [.mgmt 3 [0x7F, 0, 4, 0xE2, 0x1A, 3, 0x30, 0xFF]]) = true ∧
    leaves (.power 3 1) d0 (fun d => d.out == [] && d.boot.mgmtBusy && d.pwr.moving == some 1) = true ∧
    leaves (.provNChange false) d0 (fun d => d.boot.provLow) = true ∧ leaves .pcieLinkDown d0 (fun d => !d.boot.linkUp) = true ∧
    leaves (.pcieLinkRetrain 5 true 8) (bo fun b => { b with linkUp := false }) (fun d => d.boot.linkUp && d.boot.rate == 5 && d.boot.width == 8) = true := by decide +kernel

/-! ### What memory writes reach -/

/-- A place that no contained cluster shuts, one that one does, and the two pieces of a write across 256 bytes. -/
theorem wit_stores : d0.shutAt (sramKey 0 0x80) = none ∧ sramKey 0 0x80 + 4 ≤ sramKey 0 0x84 ∧ (memGet (d0.land [⟨sramKey 0 0x80, [1, 2, 3, 4], []⟩]).mem (sramKey 0 0x82) = 3#8) ∧
    (mapped d0).tr 0 agTier true 0x10000 4 0x10000 = .key (t1Place (d0.pchsOf 0) 0) ∧ (mapped d0).shutAt (t1Place (d0.pchsOf 0) 0) = none ∧
    4 ≤ 256 - 0x10000 % 256 ∧ piecesOf 0x100FE 4 = [(0x100FE, 2), (0x10100, 2)] := by decide +kernel

/-! ### All commands -/

theorem wit_all : (Instr.powerLossSequence).wf = true ∧ (Instr.blockReady ⟨.core, 272⟩).wf = false ∧ isleKind 0x13C = none ∧ (⟨.core, 272⟩ : Page).valid = false ∧
    (after .undervoltageRelease d0).isSome = true := by decide +kernel

/-! ### Steps -/

/-- The device that a step leaves. -/
def stepped (s : State) : Option (Nat × Dev) := match step s with
  | .next t => some (t.pending.length, t.dev)
  | _ => none
/-- A step takes the front command, and the others wait; a word spells no command, since the table gives no bits. -/
theorem test_step : (stepped { pending := [.pcieLinkDown, .undervoltageRelease], dev := d0 }).any (fun x => x.1 == 1 && !x.2.boot.linkUp) = true ∧
    Dev.bst d0 (pCore 0) = .disabled ∧ (d0.isle 0).state ≠ .cold ∧ (decodeTableWord 64 0).isNone = true ∧
    ((st d0).withFetchWord 64 5).pending = [] := by decide +kernel

end Sys2Proof.Tests
end

section
/-!
SUPPORT. Reads that clear (R21, R53, R113, R300): what RC_READ of BLK_ERR_CNT, PART_VIOL_READ, TIER_FAULT_INFO_READ and
ISLE_TIMER_LO_READ come to, one equation each; and the event summary sends nothing where it is up to date (R546).
-/

namespace Sys2Proof

/-- An entry found is listed. -/
theorem SMap.mem_of_find? {α : Type} {m : SMap α} {k : Nat} {a : α} (h : m.find? k = some a) : (k, a) ∈ m := by
  induction m with
  | nil => cases h
  | cons e m ih =>
    obtain ⟨j, b⟩ := e
    by_cases hj : j = k
    · simp only [SMap.find?, hj, if_true, Option.some.injEq] at h
      simp [hj, h]
    · simp only [SMap.find?, hj, if_false] at h
      exact List.mem_cons_of_mem _ (ih h)

/-- An entry listed after an update was listed before, or is the changed value at the key. -/
theorem SMap.mem_upd {α : Type} [DecidableEq α] {dflt : α} {m : SMap α} {k : Nat} {f : α → α} {e : Nat × α}
    (h : e ∈ m.upd dflt k f) : e = (k, f (m.get dflt k)) ∨ e ∈ m := by
  unfold SMap.upd SMap.put at h
  split at h
  · exact .inr (SMap.mem_erase m k e h)
  · exact SMap.mem_insert m k _ e h

end Sys2Proof

namespace Sys2Proof.Machine

open Sys2Proof.Safety

/-! ### An event summary that is up to date (R546) -/

theorem Dev.raise_eq_self {d : Dev} (h : summarised d) {vp : View × Page} (hvp : vp ∈ d.pendingEvents) : d.raise vp = d := by
  obtain ⟨v, p⟩ := vp
  unfold Dev.raise
  split
  · next hr =>
    split
    · next i hi => simp only [Dev.summarise, h v p hvp hr i hi, if_true]
    · rfl
  · rfl

theorem Dev.finish_eq_self {d : Dev} (h : summarised d) : d.finish = d :=
  List.foldlRecOn d.pendingEvents Dev.raise (motive := (· = d)) rfl fun b hb vp hvp => by
    rw [hb]; exact Dev.raise_eq_self h hvp

/-- A header whose events and enables stay raises no further page. -/
theorem Dev.pendingEvents_updHdr_subset (d : Dev) (v : View) (p : Page) (f : Hdr → Hdr)
    (hf : ∀ h, (f h).evt &&& (f h).evtEn = h.evt &&& h.evtEn) : (d.updHdr v p f).pendingEvents ⊆ d.pendingEvents := by
  intro vp hvp
  simp only [Dev.pendingEvents, List.mem_map, List.mem_filter, decide_eq_true_eq] at hvp ⊢
  obtain ⟨e, ⟨he, hpend⟩, rfl⟩ := hvp
  rcases SMap.mem_upd he with rfl | he
  · cases hfind : d.pg.hdr.find? (hkey v p) with
    | none => simp [hf, SMap.get, hfind, Hdr.reset] at hpend
    | some h0 =>
      refine ⟨(hkey v p, h0), ⟨SMap.mem_of_find? hfind, ?_⟩, rfl⟩
      simpa [hf, SMap.get, hfind] using hpend
  · exact ⟨e, ⟨he, hpend⟩, rfl⟩

theorem summarised_updHdr {d : Dev} (h : summarised d) (v : View) (p : Page) (f : Hdr → Hdr)
    (hf : ∀ h, (f h).evt &&& (f h).evtEn = h.evt &&& h.evtEn) : summarised (d.updHdr v p f) :=
  fun w q hq hr i hi => h w q (d.pendingEvents_updHdr_subset v p f hf hq) hr i hi

theorem summarised_put {d : Dev} (h : summarised d) (o : Output) : summarised (d.put o) := h

/-! ### The four reads -/

theorem Dev.readVia_of_opens {d : Dev} {v : View} {p : Page} (h : opens d v p) (f : Dev → Nat × Dev) :
    d.readVia v p f = (f d).2.put (.read v (f d).1) := by
  obtain ⟨-, hr, hn⟩ := h
  simp [Dev.readVia, hr, Option.isNone_eq_false_iff.2 hn]

/-- A read of a block-specific register where block-specific registers take accesses. -/
theorem rcRead_of_opens {d : Dev} {v : View} {p : Page} (h : opens d v p) {off : Nat} (inc : Nat)
    (hlo : 0x040 ≤ off) (hhi : off < 0xC00) (h4 : off % 4 = 0) :
    rcRead v p off inc d = { d.rcClear v p off inc with free := d.free + 1 }.put (.read v (d.regValue v p off)) := by
  have hpage : ¬(!d.reaches v p ∨ 0x1000 ≤ off) := by
    obtain ⟨-, hr, -⟩ := h
    simp [hr]; omega
  rw [rcRead, if_neg hpage, if_neg (by omega), if_neg (by omega), if_neg (by omega), Dev.readVia_of_opens h]

/-- What RC_READ of BLK_ERR_CNT leaves when inc errors arrive with it (R21), before the event summary. -/
def errCntRead (v : View) (p : Page) (inc : Nat) (d : Dev) : Dev :=
  (d.updHdr v p fun h => { h with errCnt := BitVec.ofNat 32 (sat 32 inc) }).put (.read v (d.hdrOf v p).errCnt.toNat)

theorem rcRead_errCnt (v : View) (p : Page) (inc : Nat) (d : Dev) (hr : d.reaches v p = true) :
    rcRead v p 0x024 inc d = errCntRead v p inc d := by
  simp [rcRead, hr, Dev.regValue, Dev.hdrValue, errCntRead]

theorem becomes_rcRead_errCnt (v : View) (p : Page) (inc : Nat) (s : State) (hp : p.valid = true)
    (hr : s.dev.reaches v p = true) : becomes (.rcRead v p 0x024 inc) s (errCntRead v p inc s.dev) := by
  rw [← rcRead_errCnt v p inc s.dev hr]
  show onPage p.valid (rcRead v p 0x024 inc) s = _
  rw [hp, onPage, if_pos rfl, onDev]

/-- RC_READ of BLK_ERR_CNT does what its words say wherever the event summary was up to date. -/
theorem completes_rcRead_errCnt (v : View) (p : Page) (inc : Nat) (s : State) (hp : p.valid = true)
    (hr : s.dev.reaches v p = true) (hs : summarised s.dev) :
    completes (.rcRead v p 0x024 inc) s fun d =>
      (d.hdrOf v p).errCnt = BitVec.ofNat 32 (sat 32 inc) ∧
      d.out = .read v (s.dev.hdrOf v p).errCnt.toNat :: s.dev.out ∧ changesOnly [.hdr, .out, .irq, .ctr] s.dev d := by
  have hfin : (errCntRead v p inc s.dev).finish = errCntRead v p inc s.dev :=
    Dev.finish_eq_self (summarised_put (summarised_updHdr hs v p
      (fun h => { h with errCnt := BitVec.ofNat 32 (sat 32 inc) }) fun _ => rfl) _)
  refine ⟨_, becomes_rcRead_errCnt v p inc s hp hr, rfl, ?_⟩
  rw [hfin]
  exact ⟨by simp [errCntRead, Dev.hdrOf, Dev.put, Dev.updHdr], rfl, by simp [errCntRead]⟩

/-- With nothing dropped in the same cycle, no event rises: only the partition's records change (R113). -/
theorem Dev.clearViol_zero_changesOnly (d : Dev) (v : View) : changesOnly [.parts] d (d.clearViol v 0) := by
  simp [Dev.clearViol]

theorem Dev.clearViol_zero_get (d : Dev) (v : View) :
    (d.clearViol v 0).parts.st.get .reset (d.selPart v pPart) =
      { d.parts.st.get .reset (d.selPart v pPart) with viol := 0#32, violAddr := none } := by
  simp [Dev.clearViol, sat]

theorem Dev.rearm_of_recorded {d : Dev} {v : View} {x : TierFault} (hx : d.tier.fault.find? (d.selPart v pTier) = some x) :
    (d.rearm v).tier.fault.find? (d.selPart v pTier) = some { x with armed := true } := by
  simp [Dev.rearm, hx, Dev.updTier, SMap.find?_insert]

theorem completes_partViolRead (v : View) (s : State) (h : opens s.dev v pPart) :
    completes (.partViolRead v) s fun d =>
      (d.parts.st.get .reset (s.dev.selPart v pPart)).viol = 0#32 ∧
      (d.parts.st.get .reset (s.dev.selPart v pPart)).violAddr = none ∧
      changesOnly [.parts, .out, .free, .irq, .ctr] s.dev d := by
  refine ⟨{ s with dev := (rcRead v pPart 0x04C 0 s.dev).finish }, rfl, rfl, ?_⟩
  rw [rcRead_of_opens h 0 (by decide) (by decide) (by decide)]
  have hget := s.dev.clearViol_zero_get v
  have hframe : changesOnly [.parts, .out, .free, .irq, .ctr] s.dev (s.dev.clearViol v 0) :=
    (s.dev.clearViol_zero_changesOnly v).mono (by simp)
  exact ⟨by simp [Dev.rcClear, hget], by simp [Dev.rcClear, hget], by simpa [Dev.rcClear] using hframe⟩

theorem completes_tierFaultInfoRead (v : View) (s : State) (x : TierFault) (h : opens s.dev v pTier)
    (hx : s.dev.tier.fault.find? (s.dev.selPart v pTier) = some x) :
    completes (.tierFaultInfoRead v) s fun d =>
      d.tier.fault.find? (s.dev.selPart v pTier) = some { x with armed := true } ∧
      changesOnly [.tier, .out, .free, .irq, .ctr] s.dev d := by
  refine ⟨{ s with dev := (rcRead v pTier 0x0A8 0 s.dev).finish }, rfl, rfl, ?_⟩
  rw [rcRead_of_opens h 0 (by decide) (by decide) (by decide)]
  exact ⟨by simp [Dev.rcClear, Dev.rearm_of_recorded hx], by simp [Dev.rcClear]⟩

theorem becomes_isleTimerLoRead (v : View) (i : Nat) (s : State) (hi : (isleKind i).isSome = true)
    (h : opens s.dev v (pIsle i)) :
    becomes (.isleTimerLoRead v i) s
      ((s.dev.setRegAt (pIsle i) (v.key + 1) 0x05C (BitVec.ofNat 32 (s.dev.timer i / 2 ^ 32))).put
        (.read v (s.dev.timer i % 2 ^ 32))) := by
  show onPage (isleKind i).isSome (timerRead v i) s = _
  rw [hi, onPage, if_pos rfl, onDev, timerRead, Dev.readVia_of_opens h]

/-! ### The obligation -/

/-- DEVC's power-on event stands enabled in the PF view, its summary bit clear, and the PF's MSI-X vector 0 is open. -/
def unannounced : State :=
  { pending := []
    dev := { Dev.reset.updHdr .pf pDevc fun h => { h with evtEn := 1#32 } with
             irq := { Dev.reset.irq with unmasked := [0] } } }

theorem unannounced_reaches : unannounced.dev.reaches .pf pDevc = true := by decide +kernel

/-- The summary that closes the read sends the event's message after the value read. -/
theorem unannounced_errCntRead_out :
    (errCntRead .pf pDevc 0 unannounced.dev).finish.out = [.msix .pf 0, .read .pf 0] := by decide +kernel

/-- Refutes O8: RC_READ of BLK_ERR_CNT is followed by the event summary (R546), so where an enabled event is not yet
summarised an MSI-X message leaves after the value read, and the value is not the newest output. Where the summary is up to
date the clause holds (completes_rcRead_errCnt); the other three clauses hold as stated. -/
theorem not_clearingReads : ¬ Obligations.ClearingReads := by
  unfold Obligations.ClearingReads
  rintro ⟨hErrCnt, -⟩
  obtain ⟨t, ht, -, -, hout, -⟩ := hErrCnt .pf pDevc 0 unannounced (by decide) unannounced_reaches
  rw [becomes_rcRead_errCnt .pf pDevc 0 unannounced (by decide) unannounced_reaches] at ht
  cases ht
  rw [unannounced_errCntRead_out] at hout
  cases hout

end Sys2Proof.Machine
end

section
/-!
SUPPORT. Accesses that a page takes through a view: what REGISTER_WRITE (R64–R67, R81, R92, R115, R116) and the reads of
counters (R93, R94) come to, one equation each.
-/

namespace Sys2Proof.Machine

open Sys2Proof.Safety

/-! ### Commands and accesses that nothing drops -/

/-- A command of a page that every module has is its effect on the device. -/
theorem onPage_of_valid {ok : Bool} (h : ok = true) (f : Dev → Dev) (s : State) : onPage ok f s = onDev f s := by
  rw [onPage, if_pos h]

theorem Dev.through_of_opens {d : Dev} {v : View} {p : Page} (h : opens d v p) (off : Nat) (f : Dev → Dev) :
    d.through v p off f = f d := by
  obtain ⟨-, hr, hn⟩ := h
  unfold Dev.through
  rw [if_pos hr, if_pos hn]

/-! ### REGISTER_WRITE -/

theorem regWrite_pf_of_no_page {d : Dev} {off : Nat} (h : d.pageAt .pf off = none) (size : Nat) (w : Word) :
    regWrite .pf off size w d = d.err .pf pDevc 0x0007 := by
  unfold regWrite
  rw [h]

theorem regWrite_vf_of_no_page {d : Dev} {n : Fin 16} {off : Nat} (h : d.pageAt (.vf n) off = none) (size : Nat)
    (w : Word) : regWrite (.vf n) off size w d = d.violate n.val off := by
  unfold regWrite
  rw [h]

section
variable {d : Dev} {v : View} {p : Page} {off : Nat} (h : d.pageAt v off = some p)
include h

theorem regWrite_of_misfit {size : Nat} (hs : size ≠ 4 ∨ off % 4 ≠ 0) (w : Word) :
    regWrite v off size w d = d.err v p 0x0005 := by
  unfold regWrite
  rw [h]
  exact if_pos hs

theorem regWrite_of_aligned (h4 : off % 4 = 0) (w : Word) : regWrite v off 4 w d = d.pageWr v p (off % 0x1000) w := by
  have hfit : ¬((4 : Nat) ≠ 4 ∨ off % 4 ≠ 0) := by omega
  unfold regWrite
  rw [h]
  exact if_neg hfit

/-- An aligned write whose offset in the page is a header register's. -/
theorem regWrite_header {o : Nat} (ho : off % 0x1000 = o) (h4 : o % 4 = 0) (hlo : o < 0x040) (w : Word) :
    regWrite v off 4 w d = d.hdrWr v p o w := by
  rw [regWrite_of_aligned h (by omega), ho, Dev.pageWr, if_pos hlo]

end

/-- Counters take no writes (R92). -/
theorem Dev.pageWr_counter {d : Dev} {v : View} {p : Page} (ho : opens d v p) {off : Nat} (hc : 0xC00 ≤ off) (w : Word) :
    d.pageWr v p off w = d := by
  rw [Dev.pageWr, if_neg (by omega), Dev.through_of_opens ho, if_pos hc]

/-- A block-specific write through the PF view does what the register's block says. -/
theorem Dev.pageWr_pf {d : Dev} {p : Page} (ho : opens d .pf p) {off : Nat} (hlo : 0x040 ≤ off) (hhi : off < 0xC00)
    (w : Word) : d.pageWr .pf p off w = d.blkWr .pf p off w := by
  rw [Dev.pageWr, if_neg (by omega), Dev.through_of_opens ho, if_neg (by omega)]

/-- FLSH, TOKX and DECO have plain registers only. -/
theorem Dev.blkWr_of_plain_block {p : Page} (hb : p.blk = .flsh ∨ p.blk = .tokx ∨ p.blk = .deco) (d : Dev) (v : View)
    (off : Nat) (w : Word) : d.blkWr v p off w = d.wrReg v p off w := by
  rcases hb with hb | hb | hb <;> simp only [Dev.blkWr, hb]

theorem becomes_registerWrite {v : View} {off size : Nat} {w : Word} {s : State} {d : Dev}
    (h : regWrite v off size w s.dev = d) : becomes (.registerWrite v off size w) s d := by
  subst h; rfl

/-- Settles O6: a case for each place that the offset can have, by what a write there comes to. -/
theorem registerWriteEffects : Obligations.RegisterWriteEffects := by
  intro v off size w s
  refine ⟨fun h => becomes_registerWrite (regWrite_pf_of_no_page h size w),
    fun n h => becomes_registerWrite (regWrite_vf_of_no_page h size w), fun p h => ⟨?misfit, ?evtEn, ?owner, ?counter, ?plain⟩⟩
  case misfit => exact fun hs => becomes_registerWrite (regWrite_of_misfit h hs w)
  case evtEn => exact fun ho => becomes_registerWrite (regWrite_header h ho (by decide) (by decide) w)
  case owner =>
    rintro rfl ho
    exact becomes_registerWrite (regWrite_header h ho (by decide) (by decide) w)
  case counter =>
    exact fun hopen h4 hc => becomes_registerWrite ((regWrite_of_aligned h h4 w).trans (Dev.pageWr_counter hopen hc w))
  case plain =>
    rintro hopen rfl hb h4 hlo hhi
    have hwr : s.dev.pageWr .pf p (off % 0x1000) w = s.dev.wrReg .pf p (off % 0x1000) w :=
      (Dev.pageWr_pf hopen hlo hhi w).trans (Dev.blkWr_of_plain_block hb s.dev .pf _ w)
    exact ⟨becomes_registerWrite ((regWrite_of_aligned h h4 w).trans hwr), by simp⟩

/-! ### Reads of counters -/

theorem lowRead_of_opens {d : Dev} {v : View} {p : Page} (h : opens d v p) (n : Nat) :
    lowRead v p n d =
      { d with
        pg := { d.pg with ctr := d.pg.ctr.erase (ckey v p n)
                          snap := d.pg.snap.put 0#32 (ckey v p n)
                            (BitVec.ofNat 32 (d.pg.ctr.get 0 (ckey v p n) / 2 ^ 32)) }
        out := .read v (d.pg.ctr.get 0 (ckey v p n) % 2 ^ 32) :: d.out } := by
  rw [lowRead, Dev.readVia_of_opens h]
  rfl

theorem read64_of_opens {d : Dev} {v : View} {p : Page} (h : opens d v p) (n : Nat) :
    read64 v p n d =
      { d with pg := { d.pg with ctr := d.pg.ctr.erase (ckey v p n) }
               out := .read v (d.pg.ctr.get 0 (ckey v p n)) :: d.out } := by
  rw [read64, Dev.readVia_of_opens h]
  rfl

/-- Only PART, TIER, PWRC and NWCH have registers that RC_READ clears. -/
theorem Dev.rcClear_of_no_rc {p : Page} (hpart : p.blk ≠ .part) (htier : p.blk ≠ .tier) (hpwrc : p.blk ≠ .pwrc)
    (hnwch : p.blk ≠ .nwch) (d : Dev) (v : View) (off inc : Nat) : d.rcClear v p off inc = d := by
  unfold Dev.rcClear
  split
  · exact absurd ‹p.blk = .part› hpart
  · exact absurd ‹p.blk = .tier› htier
  · exact absurd ‹p.blk = .pwrc› hpwrc
  · exact absurd ‹p.blk = .nwch› hnwch
  · rfl

theorem Dev.regValue_ctrHigh (d : Dev) (v : View) (p : Page) (n : Nat) :
    d.regValue v p (0xC04 + 8 * n) = (d.pg.snap.get 0#32 (ckey v p n)).toNat := by
  rw [Dev.regValue, if_neg (by omega), if_neg (by omega), if_neg (by omega), show (0xC04 + 8 * n - 0xC00) / 8 = n by omega]

/-- A 32-bit read of a counter's high word returns the view's snapshot, and clears what RC_READ clears in that page. -/
theorem rcRead_ctrHigh_of_opens {d : Dev} {v : View} {p : Page} (h : opens d v p) {n : Nat} (hn : n < 128) (inc : Nat) :
    rcRead v p (0xC04 + 8 * n) inc d =
      { d.rcClear v p (0xC04 + 8 * n) inc with free := d.free + 1 }.put
        (.read v (d.pg.snap.get 0#32 (ckey v p n)).toNat) := by
  have hpage : ¬(!d.reaches v p ∨ 0x1000 ≤ 0xC04 + 8 * n) := by
    obtain ⟨-, hr, -⟩ := h
    simp only [hr, Bool.not_true, Bool.false_eq_true, false_or]; omega
  rw [rcRead, if_neg hpage, if_neg (by omega), if_neg (by omega), if_neg (by omega), Dev.readVia_of_opens h,
    Dev.regValue_ctrHigh]

/-- Settles O7: each of the three reads by what it comes to in a view with a version in force. -/
theorem counterReadsClear : Obligations.CounterReadsClear := by
  intro v p n s h
  have hp : p.valid = true := h.1
  refine ⟨?low, ?whole, ?high⟩
  case low => exact (onPage_of_valid hp _ s).trans (by rw [onDev, lowRead_of_opens h])
  case whole => exact (onPage_of_valid hp _ s).trans (by rw [onDev, read64_of_opens h])
  case high =>
    intro hpart htier hpwrc hnwch inc
    refine (onPage_of_valid hp _ s).trans ?_
    rw [onDev, rcRead_ctrHigh_of_opens h n.isLt, Dev.rcClear_of_no_rc hpart htier hpwrc hnwch]
    rfl

end Sys2Proof.Machine
end

section
/-!
SUPPORT. The header of a page as commands write it (R81, R90, R91, R97–R100), and a function's event summary (R547): one
equation for each thing that a write can come to.
-/

namespace Sys2Proof.Machine

open Sys2Proof.Safety

/-! ### What a header reads after an update -/

@[simp] theorem Dev.hdrOf_updHdr (d : Dev) (v : View) (p : Page) (f : Hdr → Hdr) :
    (d.updHdr v p f).hdrOf v p = f (d.hdrOf v p) := SMap.get_upd _ _ _ _

@[simp] theorem Dev.hdrOf_finish (d : Dev) (v : View) (p : Page) : d.finish.hdrOf v p = d.hdrOf v p := by
  simp only [Dev.hdrOf, Dev.finish_pg_hdr]

theorem Dev.header_of_reaches {d : Dev} {v : View} {p : Page} (hr : d.reaches v p = true) (off : Nat) (f : Dev → Dev) :
    d.header v p off f = f d := by
  unfold Dev.header
  rw [if_pos hr]

theorem Dev.stillBlk_iff (d : Dev) (p : Page) : d.stillBlk p = true ↔ d.bst p = .disabled ∨ d.bst p = .quiesced := by
  rw [Dev.stillBlk, Bool.or_eq_true, beq_iff_eq, beq_iff_eq]
  exact or_comm

/-! ### BLK_NEG (R98, R100) -/

section
variable {d : Dev} {v : View} {p : Page} (hr : d.reaches v p = true)
include hr

theorem negWrite_of_negotiable (h : (d.hdrOf v p).neg = none ∨ d.stillBlk p = true) (major minor : Nat) :
    negWrite v p major minor d =
      if major = 1 then d.updHdr v p fun h => { h with neg := some (1, Nat.min 3 minor) }
      else (d.updHdr v p fun h => { h with neg := none }).err v p 0x0002 := by
  rw [negWrite, Dev.header_of_reaches hr, if_neg]
  rintro ⟨hn, hs⟩
  rcases h with h | h
  · rw [h] at hn; cases hn
  · rw [h] at hs; cases hs

theorem negWrite_of_fixed (hn : (d.hdrOf v p).neg ≠ none) (hs : d.stillBlk p = false) (major minor : Nat) :
    negWrite v p major minor d = d.err v p 0x0002 := by
  rw [negWrite, Dev.header_of_reaches hr, if_pos ⟨Option.isSome_iff_ne_none.2 hn, by rw [hs]; rfl⟩]

end

/-- The highest minor version implemented at or below the one asked for. -/
theorem min_three_eq_ite (n : Nat) : Nat.min 3 n = if n ≤ 3 then n else 3 := by
  show min 3 n = _
  split <;> omega

theorem becomes_blkNegWrite {v : View} {p : Page} (hp : p.valid = true) {major minor : Byte} {s : State} {d : Dev}
    (h : negWrite v p major.toNat minor.toNat s.dev = d) : becomes (.blkNegWrite v p major minor) s d := by
  subst h; exact onPage_of_valid hp _ s

/-! ### BLK_EVT (R20, R91) -/

theorem getLsbD_bit31 (i : Nat) : (0x80000000#32).getLsbD i = decide (i = 31) := by
  rw [show (0x80000000#32) = BitVec.twoPow 32 31 from rfl, BitVec.getLsbD_twoPow]
  exact decide_eq_decide.2 eq_comm

theorem getLsbD_below31 (i : Nat) : (0x7FFFFFFF#32).getLsbD i = decide (i < 31) := by
  rw [show (0x7FFFFFFF#32) = ~~~(0x80000000#32) from rfl, BitVec.getLsbD_not, getLsbD_bit31, ← decide_not, ← Bool.decide_and]
  exact decide_eq_decide.2 (by omega)

/-- An error sets no event bit but bit 31. -/
theorem Hdr.err_evt_getLsbD (h : Hdr) (code : BitVec 16) (part : Byte) {i : Nat} (hi : i < 31) :
    (h.err code part).evt.getLsbD i = h.evt.getLsbD i := by
  unfold Hdr.err
  split
  · show (h.evt ||| 0x80000000#32).getLsbD i = _
    rw [BitVec.getLsbD_or, getLsbD_bit31, decide_eq_false (Nat.ne_of_lt hi), Bool.or_false]
  · rfl

theorem Hdr.err_of_clear {h : Hdr} (hc : h.errCode = 0) (code : BitVec 16) (part : Byte) :
    h.err code part = { h with errCode := code, errPart := part, evt := h.evt ||| 0x80000000#32 } := if_pos hc

theorem Hdr.err_of_recorded {h : Hdr} (hc : h.errCode ≠ 0) (code : BitVec 16) (part : Byte) :
    h.err code part = { h with errCnt := if h.errCnt = 0xFFFFFFFF#32 then 0xFFFFFFFF#32 else h.errCnt + 1 } := by
  rw [Hdr.err, if_neg hc]
  split
  · next hmax => simp only [hmax]
  · rfl

/-- A header after the bits written 1 are cleared and the arriving events are set, before an arriving error (R20, R91). -/
def Hdr.evtCleared (h : Hdr) (w arriving : Word) : Hdr :=
  { h with errCode := if w.getLsbD 31 then 0#16 else h.errCode
           errPart := if w.getLsbD 31 then 0#8 else h.errPart
           evt := (h.evt &&& ~~~w) ||| (arriving &&& 0x7FFFFFFF#32) }

theorem Hdr.evtWrite_eq (h : Hdr) (w arriving : Word) (e : BitVec 16) (part : Byte) :
    h.evtWrite w arriving e part =
      if e = 0 then h.evtCleared w arriving else (h.evtCleared w arriving).err e part := by
  unfold Hdr.evtWrite Hdr.evtCleared
  rw [show bit w.toNat 31 = w.getLsbD 31 from rfl]
  cases w.getLsbD 31 <;> rfl

theorem Hdr.evtCleared_evt_getLsbD (h : Hdr) (w arriving : Word) {i : Nat} (hi : i < 31) :
    (h.evtCleared w arriving).evt.getLsbD i = (arriving.getLsbD i || (h.evt.getLsbD i && !w.getLsbD i)) := by
  have hi32 : i < 32 := by omega
  simp only [Hdr.evtCleared, BitVec.getLsbD_or, BitVec.getLsbD_and, BitVec.getLsbD_not, getLsbD_below31, hi, hi32,
    decide_true, Bool.true_and, Bool.and_true]
  exact Bool.or_comm _ _

theorem Hdr.evtCleared_evt_bit31 (h : Hdr) (w arriving : Word) :
    (h.evtCleared w arriving).evt.getLsbD 31 = (h.evt.getLsbD 31 && !w.getLsbD 31) := by
  simp only [Hdr.evtCleared, BitVec.getLsbD_or, BitVec.getLsbD_and, BitVec.getLsbD_not, getLsbD_below31, Nat.lt_irrefl,
    decide_false, Bool.and_false, Bool.or_false]
  rfl

/-- An event bit below 31 is what arrives, or what stood and is not cleared. -/
theorem Hdr.evtWrite_evt_getLsbD (h : Hdr) (w arriving : Word) (e : BitVec 16) (part : Byte) {i : Nat} (hi : i < 31) :
    (h.evtWrite w arriving e part).evt.getLsbD i = (arriving.getLsbD i || (h.evt.getLsbD i && !w.getLsbD i)) := by
  rw [Hdr.evtWrite_eq, ← Hdr.evtCleared_evt_getLsbD h w arriving hi]
  split
  · rfl
  · exact Hdr.err_evt_getLsbD _ e part hi

/-- A 1 written to bit 31 makes room: the arriving error is recorded. -/
theorem Hdr.evtWrite_records (h : Hdr) {w : Word} (hw : w.getLsbD 31 = true) (arriving : Word) {e : BitVec 16} (he : e ≠ 0)
    (part : Byte) :
    (h.evtWrite w arriving e part).evt.getLsbD 31 = true ∧ (h.evtWrite w arriving e part).errCode = e ∧
      (h.evtWrite w arriving e part).errCnt = h.errCnt := by
  rw [Hdr.evtWrite_eq, if_neg he, Hdr.err_of_clear (if_pos hw)]
  refine ⟨?_, rfl, rfl⟩
  rw [BitVec.getLsbD_or, getLsbD_bit31]
  exact Bool.or_true _

/-- Where a code stands and is not cleared, the arriving error is counted. -/
theorem Hdr.evtWrite_counts {h : Hdr} (hc : h.errCode ≠ 0) {w : Word} (hw : w.getLsbD 31 = false) (arriving : Word)
    {e : BitVec 16} (he : e ≠ 0) (part : Byte) :
    (h.evtWrite w arriving e part).errCode = h.errCode ∧
      (h.evtWrite w arriving e part).errCnt = if h.errCnt = 0xFFFFFFFF#32 then 0xFFFFFFFF#32 else h.errCnt + 1 := by
  have hcode : (h.evtCleared w arriving).errCode = h.errCode := if_neg (Bool.eq_false_iff.1 hw)
  rw [Hdr.evtWrite_eq, if_neg he, Hdr.err_of_recorded (by rwa [hcode])]
  exact ⟨hcode, rfl⟩

theorem evtWrite_of_reaches {d : Dev} {v : View} {p : Page} (hr : d.reaches v p = true) (w arriving : Word) (e : BitVec 16) :
    evtWrite v p w arriving e d =
      d.updHdr v p fun h => h.evtWrite w arriving e (BitVec.ofNat 8 (v.part.getD 255)) := by
  rw [evtWrite, Dev.header_of_reaches hr]

/-- BLK_EVT_WRITE changes the view's own header by Hdr.evtWrite; what else changes is the closing summary's. -/
theorem completes_blkEvtWrite {v : View} {p : Page} {s : State} (hp : p.valid = true) (hr : s.dev.reaches v p = true)
    (w arriving : Word) (e : BitVec 16) :
    completes (.blkEvtWrite v p w arriving e) s fun d =>
      changesOnly [.hdr, .irq, .out, .ctr] s.dev d ∧
      d.hdrOf v p = (s.dev.hdrOf v p).evtWrite w arriving e (BitVec.ofNat 8 (v.part.getD 255)) := by
  refine ⟨{ s with dev := (evtWrite v p w arriving e s.dev).finish }, onPage_of_valid hp _ s, rfl, ?_⟩
  rw [evtWrite_of_reaches hr]
  exact ⟨by simp, by rw [Dev.hdrOf_finish, Dev.hdrOf_updHdr]⟩

/-- What holds of a device whenever something else does holds after a command. -/
theorem completes_mono {c : Instr} {s : State} {P Q : Dev → Prop} (h : completes c s P) (hPQ : ∀ d, P d → Q d) :
    completes c s Q := by
  obtain ⟨t, hexec, hpending, hP⟩ := h
  exact ⟨t, hexec, hpending, hPQ _ hP⟩

/-! ### EVENT_SUMMARY_WRITE (R547) -/

theorem becomes_eventSummaryWrite {v : View} {s : State} (h : opens s.dev v (sumPage v)) (i : Fin 64) (w : Word) :
    becomes (.eventSummaryWrite v i w) s (s.dev.sumClear v i.val w) := by
  show onDev (sumWrite v i.val w) s = _
  rw [onDev, sumWrite, Dev.through_of_opens h]

/-! ### The obligation -/

theorem becomes_blkNegWrite_of_negotiable {v : View} {p : Page} {s : State} (hp : p.valid = true)
    (hr : s.dev.reaches v p = true) (h : (s.dev.hdrOf v p).neg = none ∨ s.dev.bst p = .disabled ∨ s.dev.bst p = .quiesced) :
    (∀ n : Byte, becomes (.blkNegWrite v p 1 n) s
      (s.dev.updHdr v p fun h => { h with neg := some (1, if n.toNat ≤ 3 then n.toNat else 3) })) ∧
    (∀ m n : Byte, m ≠ 1 → becomes (.blkNegWrite v p m n) s
      ((s.dev.updHdr v p fun h => { h with neg := none }).err v p 0x0002)) := by
  rw [← Dev.stillBlk_iff] at h
  constructor
  · intro n
    apply becomes_blkNegWrite hp
    rw [negWrite_of_negotiable hr h, if_pos (by decide), min_three_eq_ite]
  · intro m n hm
    have hm1 : m.toNat ≠ 1 := fun h1 => hm (BitVec.eq_of_toNat_eq h1)
    apply becomes_blkNegWrite hp
    rw [negWrite_of_negotiable hr h, if_neg hm1]

/-- Settles O9: the header after each write, by the cases of the write; for BLK_EVT, with and without an arriving error. -/
theorem headerWrites : Obligations.HeaderWrites := by
  refine ⟨fun v p s hp hr => ⟨becomes_blkNegWrite_of_negotiable hp hr, ?fixed, ?evt⟩, ?summary⟩
  case fixed =>
    intro hn hdis hqui m n
    have hs : s.dev.stillBlk p = false := by
      rw [Bool.eq_false_iff, Ne, Dev.stillBlk_iff]; exact not_or.2 ⟨hdis, hqui⟩
    exact becomes_blkNegWrite hp (negWrite_of_fixed hr hn hs _ _)
  case evt =>
    intro w arriving e
    refine completes_mono (completes_blkEvtWrite hp hr w arriving e) fun d ⟨hframe, hhdr⟩ => ⟨hframe, ?_⟩
    rw [hhdr]
    refine ⟨fun i hi => Hdr.evtWrite_evt_getLsbD _ w arriving e _ hi, ?_, ?_, ?_⟩
    · intro he
      rw [Hdr.evtWrite_eq, if_pos he]
      exact ⟨Hdr.evtCleared_evt_bit31 _ w arriving, rfl⟩
    · exact fun he hw => Hdr.evtWrite_records _ hw arriving he _
    · exact fun he hw hc => Hdr.evtWrite_counts hc hw arriving he _
  case summary => exact fun v i w s h => becomes_eventSummaryWrite h i w

end Sys2Proof.Machine
end

section
/-!
SUPPORT. A block reset (R87–R89, R726): what each step of it leaves in the page's state, registers, headers and counters,
and that the event summary that closes the command counts in PCIE and RING only.
-/

namespace Sys2Proof

/-! ### Ranges of a table, numbers of pages and views -/

/-- A key in a range that was dropped is not listed. -/
theorem SMap.find?_dropRange {α : Type} (m : SMap α) {lo hi k : Nat} (hlo : lo ≤ k) (hhi : k < hi) :
    (m.dropRange lo hi).find? k = none := by
  induction m with
  | nil => rfl
  | cons e m ih =>
    obtain ⟨j, a⟩ := e
    rw [SMap.dropRange, List.filter_cons]
    split
    · next hkeep =>
      have hjk : j ≠ k := by simp only [Bool.or_eq_true, decide_eq_true_eq] at hkeep; omega
      rw [SMap.find?, if_neg hjk]
      exact ih
    · exact ih

theorem SMap.get_dropRange {α : Type} (m : SMap α) (dflt : α) {lo hi k : Nat} (hlo : lo ≤ k) (hhi : k < hi) :
    (m.dropRange lo hi).get dflt k = dflt := by
  rw [SMap.get, SMap.find?_dropRange m hlo hhi]; rfl

theorem View.key_lt (v : View) : v.key < 17 := by
  cases v with
  | pf => decide
  | vf n => exact Nat.succ_lt_succ n.isLt

theorem View.mem_all (v : View) : v ∈ View.all := by
  cases v with
  | pf => exact List.mem_cons_self
  | vf n => exact List.mem_cons_of_mem _ (List.mem_map_of_mem (List.mem_finRange n))

theorem View.ofKey_key (v : View) : View.ofKey v.key = v := by
  cases v with
  | pf => rfl
  | vf n =>
    have hn : 0 < n.val + 1 ∧ n.val + 1 < 17 := ⟨Nat.succ_pos _, Nat.succ_lt_succ n.isLt⟩
    exact dif_pos hn

theorem View.key_injective : Function.Injective View.key := Function.LeftInverse.injective View.ofKey_key

theorem hkey_inj {v w : View} {p : Page} : hkey v p = hkey w p ↔ v = w :=
  ⟨fun h => View.key_injective (Nat.add_left_cancel h), fun h => h ▸ rfl⟩

theorem Page.inst_lt_of_valid {p : Page} (hp : p.valid = true) : p.inst < 4096 := by
  have hcount : p.inst < p.blk.count := by
    simp only [Page.valid, Bool.and_eq_true, decide_eq_true_eq] at hp; exact hp.1
  have hbound : p.blk.count ≤ 4096 := by cases p.blk <;> decide
  omega

theorem Page.ofKey_key {p : Page} (hi : p.inst < 4096) : Page.ofKey p.key = p := by
  obtain ⟨b, i⟩ := p
  have hb : Blk.all.getD b.idx .devc = b := by cases b <;> rfl
  have hdiv : (b.idx * 4096 + i) / 4096 = b.idx := by simp only at hi; omega
  have hmod : (b.idx * 4096 + i) % 4096 = i := by simp only at hi; omega
  rw [Page.ofKey, Page.key, hdiv, hmod, hb]

theorem Page.key_ne_of_blk_ne {p q : Page} (hp : p.inst < 4096) (hq : q.inst < 4096) (h : p.blk ≠ q.blk) :
    p.key ≠ q.key := fun hk => h (by rw [← Page.ofKey_key hp, hk, Page.ofKey_key hq])

end Sys2Proof

namespace Sys2Proof.Machine

open Sys2Proof.Safety

theorem ckey_ne_of_key_ne {p q : Page} (h : p.key ≠ q.key) (v w : View) {n m : Nat} (hn : n < 128) (hm : m < 128) :
    ckey v p n ≠ ckey w q m := by
  have := v.key_lt
  have := w.key_lt
  unfold ckey hkey
  omega

/-! ### Headers: what event bits leave (R90, R91) -/

theorem Dev.hdrOf_updHdr_ne (d : Dev) {v w : View} (h : w ≠ v) (p : Page) (f : Hdr → Hdr) :
    (d.updHdr v p f).hdrOf w p = d.hdrOf w p := SMap.get_upd_ne _ _ _ _ _ _ (mt hkey_inj.1 h)

section
variable {P : Hdr → Prop} {m : Nat} (hP : ∀ h : Hdr, P h → P { h with evt := h.evt ||| BitVec.ofNat 32 m })
include hP

/-- What setting event bits m keeps of every header, Dev.evt keeps of a page's. -/
theorem Dev.evt_keeps {d : Dev} {w : View} {p : Page} (h : P (d.hdrOf w p)) (v : View) : P ((d.evt v p m).hdrOf w p) := by
  unfold Dev.evt
  by_cases hw : w = v
  · rw [hw, Dev.hdrOf_updHdr]; exact hP _ (hw ▸ h)
  · rwa [Dev.hdrOf_updHdr_ne d hw]

theorem Dev.evtP_keeps {d : Dev} {w : View} {p : Page} (h : P (d.hdrOf w p)) (part : Option Nat) :
    P ((d.evtP p m part).hdrOf w p) := by
  cases part with
  | none => exact Dev.evt_keeps hP h .pf
  | some n => exact Dev.evt_keeps hP (Dev.evt_keeps hP h .pf) (viewOf n)

end

/-- A change of state sets the state event and nothing else of a header (R85). -/
theorem Dev.toState_keeps {P : Hdr → Prop}
    (hP : ∀ h : Hdr, P h → P { h with evt := h.evt ||| BitVec.ofNat 32 0x40000000 }) {d : Dev} {w : View} {p : Page}
    (h : P (d.hdrOf w p)) (x : BlkState) : P ((d.toState p x).hdrOf w p) := by
  unfold Dev.toState
  split
  · exact h
  · exact Dev.evtP_keeps hP (d := d.setPst p _) h _

/-- A header as a reset leaves it: at its Reset values but for the version in force and the state event. -/
def Hdr.Fresh (h : Hdr) : Prop := h.evtEn = 0 ∧ h.errCode = 0 ∧ h.errCnt = 0 ∧ h.evt &&& 0xBFFFFFFF#32 = 0

theorem Hdr.fresh_stateEvent {h : Hdr} (hf : h.Fresh) : Hdr.Fresh { h with evt := h.evt ||| BitVec.ofNat 32 0x40000000 } := by
  obtain ⟨hen, hcode, hcnt, hevt⟩ := hf
  refine ⟨hen, hcode, hcnt, ?_⟩
  show (h.evt ||| 0x40000000#32) &&& 0xBFFFFFFF#32 = 0
  rw [BitVec.and_comm, BitVec.and_or_distrib_left, BitVec.and_comm, hevt]
  rfl

/-! ### States of a page -/

@[simp] theorem Dev.pst_setPst (d : Dev) (p : Page) (x : PageSt) : (d.setPst p x).pst p = x := SMap.get_put _ _ _ _

@[simp] theorem Dev.pst_evtP (d : Dev) (p q : Page) (m : Nat) (part : Option Nat) : (d.evtP p m part).pst q = d.pst q := by
  simp only [Dev.pst, Dev.evtP_pg_st]

@[simp] theorem Dev.pst_toState (d : Dev) (p : Page) (x : BlkState) :
    (d.toState p x).pst p = { d.pst p with state := x } := by
  unfold Dev.toState
  split
  · next h => rw [← h]
  · rw [Dev.pst_evtP, Dev.pst_setPst]

/-! ### The steps of a reset -/

theorem Dev.clearRegs_regAt (d : Dev) (p : Page) {sc off : Nat} (hsc : sc < 0x100) (hoff : off < 0x1000) :
    (d.clearRegs p).regAt p sc off = regDflt p off :=
  SMap.get_dropRange _ _ (by unfold rkey; omega) (by unfold rkey; omega)

theorem Dev.clearHdr_ctr (d : Dev) (v : View) (p : Page) {n : Nat} (hn : n < 128) :
    (d.clearHdr p).pg.ctr.get 0 (ckey v p n) = 0 := by
  have := v.key_lt
  exact SMap.get_dropRange _ _ (by unfold ckey hkey; omega) (by unfold ckey hkey; omega)

/-- A header change made once in each view of a list, where making it twice is making it once. -/
theorem Dev.hdrOf_foldl_updHdr {f : Hdr → Hdr} (hf : ∀ h, f (f h) = f h) (p : Page) (w : View) (vs : List View) (d : Dev) :
    (vs.foldl (fun (d : Dev) v => d.updHdr v p f) d).hdrOf w p = if w ∈ vs then f (d.hdrOf w p) else d.hdrOf w p := by
  induction vs generalizing d with
  | nil => rfl
  | cons v vs ih =>
    rw [List.foldl_cons, ih]
    by_cases hw : w = v
    · subst hw
      rw [Dev.hdrOf_updHdr, hf, ite_self, if_pos List.mem_cons_self]
    · simp only [List.mem_cons, hw, false_or, Dev.hdrOf_updHdr_ne d hw]

theorem Dev.hdrOf_setCtrSnap (d : Dev) (ctr : SMap Nat) (snap : SMap Word) (v : View) (p : Page) :
    Dev.hdrOf { d with pg := { d.pg with ctr := ctr, snap := snap } } v p = d.hdrOf v p := rfl

theorem Dev.clearHdr_hdrOf (d : Dev) (v : View) (p : Page) :
    (d.clearHdr p).hdrOf v p = { Hdr.reset with neg := (d.hdrOf v p).neg } := by
  unfold Dev.clearHdr
  dsimp only
  rw [Dev.hdrOf_setCtrSnap, Dev.hdrOf_foldl_updHdr, if_pos v.mem_all]
  exact fun _ => rfl

/-- Blocks whose own reset work touches no header. -/
def headerKeepers : List Blk :=
  [.devc, .part, .opte, .rede, .hbmc, .flsh, .tokx, .deco, .dmae, .pwrc, .secc, .errm, .side, .mgmt]

theorem Dev.clearUnit_hdr (d : Dev) {p : Page}
    (h : p.blk ∈ headerKeepers) :
    (d.clearUnit p).pg.hdr = d.pg.hdr := by
  obtain ⟨b, i⟩ := p
  have hframe : changesOnly [.parts, .opte, .rede, .tokx, .strm, .dmae, .pwr, .sec, .errm] d (d.clearUnit ⟨b, i⟩) := by
    simp only [headerKeepers, List.mem_cons, List.not_mem_nil, or_false] at h
    rcases h with rfl | rfl | rfl | rfl | rfl | rfl | rfl | rfl | rfl | rfl | rfl | rfl | rfl | rfl <;>
      simp [Dev.clearUnit, changesOnly_foldl]
  exact hframe .hdr (by decide)

/-- The end of a reset: Disabled with enable and quiesce 0 (R726). -/
def Dev.endDisabled (d : Dev) (p : Page) : Dev :=
  ((d.setPst p { d.pst p with enable := false, quiesce := false }).toState p .disabled).blkOff p

theorem Dev.resetUnit_eq (d : Dev) (p : Page) :
    d.resetUnit p = ((((d.toState p .resetting).clearUnit p).clearRegs p).clearHdr p).endDisabled p := rfl

theorem Dev.endDisabled_changesOnly (d : Dev) (p : Page) : changesOnly [.st, .hdr, .fab] d (d.endDisabled p) := by
  simp [Dev.endDisabled]

theorem Dev.blkOff_changesOnly (d : Dev) (p : Page) : changesOnly [.fab] d (d.blkOff p) := by simp

theorem Dev.endDisabled_pst (d : Dev) (p : Page) : (d.endDisabled p).pst p = ⟨.disabled, false, false⟩ := by
  have hst : (d.endDisabled p).pg.st = _ := Dev.blkOff_changesOnly _ p .st (by decide)
  rw [Dev.pst, hst]
  show Dev.pst _ p = _
  rw [Dev.pst_toState, Dev.pst_setPst]

theorem Dev.endDisabled_keeps {P : Hdr → Prop}
    (hP : ∀ h : Hdr, P h → P { h with evt := h.evt ||| BitVec.ofNat 32 0x40000000 }) {d : Dev} {w : View} {p : Page}
    (h : P (d.hdrOf w p)) : P ((d.endDisabled p).hdrOf w p) := by
  have hhdr : (d.endDisabled p).pg.hdr = _ := Dev.blkOff_changesOnly _ p .hdr (by decide)
  rw [Dev.hdrOf, hhdr]
  exact Dev.toState_keeps hP (d := d.setPst p _) h .disabled

/-! ### What a reset leaves of its page -/

theorem Dev.resetUnit_pst (d : Dev) (p : Page) : (d.resetUnit p).pst p = ⟨.disabled, false, false⟩ :=
  Dev.endDisabled_pst _ p

theorem Dev.resetUnit_regAt (d : Dev) (p : Page) {sc off : Nat} (hsc : sc < 0x100) (hoff : off < 0x1000) :
    (d.resetUnit p).regAt p sc off = regDflt p off := by
  have hclear : ∀ b : Dev, (b.clearHdr p).pg.regs = b.pg.regs := fun b =>
    (show changesOnly [.hdr, .ctr, .snap] b (b.clearHdr p) by simp) .regs (by decide)
  have hend : (d.resetUnit p).pg.regs = _ := Dev.endDisabled_changesOnly _ p .regs (by decide)
  rw [Dev.regAt, hend, hclear]
  exact Dev.clearRegs_regAt _ p hsc hoff

theorem Dev.resetUnit_ctr (d : Dev) (v : View) (p : Page) {n : Nat} (hn : n < 128) :
    (d.resetUnit p).pg.ctr.get 0 (ckey v p n) = 0 := by
  have hend : (d.resetUnit p).pg.ctr = _ := Dev.endDisabled_changesOnly _ p .ctr (by decide)
  rw [hend]
  exact Dev.clearHdr_ctr _ v p hn

theorem Dev.resetUnit_fresh (d : Dev) (v : View) (p : Page) : ((d.resetUnit p).hdrOf v p).Fresh := by
  refine Dev.endDisabled_keeps (fun _ => Hdr.fresh_stateEvent) ?_
  rw [Dev.clearHdr_hdrOf]
  exact ⟨rfl, rfl, rfl, BitVec.zero_and⟩

theorem Dev.resetUnit_neg (d : Dev) (v : View) {p : Page}
    (h : p.blk ∈ headerKeepers) :
    ((d.resetUnit p).hdrOf v p).neg = (d.hdrOf v p).neg := by
  refine Dev.endDisabled_keeps (P := fun x => x.neg = (d.hdrOf v p).neg) (fun _ hx => hx) ?_
  rw [Dev.clearHdr_hdrOf, Dev.hdrOf, Dev.clearRegs_pg_hdr, Dev.clearUnit_hdr _ h]
  exact Dev.toState_keeps (P := fun x => x.neg = (d.hdrOf v p).neg) (fun _ hx => hx) rfl .resetting

/-! ### The event summary counts messages in PCIE and RING only (R546) -/

theorem Dev.cnt_ctr_of_ne (d : Dev) {p q : Page} (hpq : p.key ≠ q.key) (v w : View) {n m : Nat} (hn : n < 128) (hm : m < 128)
    (k : Nat) : (d.cnt w q m k).pg.ctr.get 0 (ckey v p n) = d.pg.ctr.get 0 (ckey v p n) := by
  simp only [Dev.cnt]
  exact SMap.get_upd_ne 0 0 d.pg.ctr _ _ _ (ckey_ne_of_key_ne hpq v w hn hm)

section
variable {p : Page} (hp : p.valid = true) (hpcie : p.blk ≠ .pcie) (hring : p.blk ≠ .ring) (v : View) {n : Nat} (hn : n < 128)
include hp hpcie hring hn

theorem Dev.msix_ctr (d : Dev) (w : View) (vec : Nat) :
    (d.msix w vec).pg.ctr.get 0 (ckey v p n) = d.pg.ctr.get 0 (ckey v p n) := by
  have hi : p.inst < 4096 := Page.inst_lt_of_valid hp
  unfold Dev.msix
  dsimp only
  split
  · rfl
  · split
    · cases w with
      | pf => exact Dev.cnt_ctr_of_ne _ (Page.key_ne_of_blk_ne hi (by decide) hpcie) v .pf hn (by decide) 1
      | vf k =>
        have hk : p.key ≠ (pRing k.val).key := Page.key_ne_of_blk_ne hi (by show k.val < 4096; omega) hring
        exact (Dev.cnt_ctr_of_ne _ hk v _ hn (by decide) 1).trans (Dev.cnt_ctr_of_ne _ hk v .pf hn (by decide) 1)
    · rfl

theorem Dev.raise_ctr (d : Dev) (vq : View × Page) :
    (d.raise vq).pg.ctr.get 0 (ckey v p n) = d.pg.ctr.get 0 (ckey v p n) := by
  unfold Dev.raise
  split
  · split
    · unfold Dev.summarise
      dsimp only
      split
      · rfl
      · exact Dev.msix_ctr hp hpcie hring v hn _ _ _
    · rfl
  · rfl

theorem Dev.finish_ctr (d : Dev) : d.finish.pg.ctr.get 0 (ckey v p n) = d.pg.ctr.get 0 (ckey v p n) :=
  List.foldlRecOn d.pendingEvents Dev.raise
    (motive := fun b => b.pg.ctr.get 0 (ckey v p n) = d.pg.ctr.get 0 (ckey v p n)) rfl
    fun b hb vq _ => (Dev.raise_ctr hp hpcie hring v hn b vq).trans hb

end

/-! ### BLK_CTL.reset through a view that may write it (R82, R87) -/

theorem Dev.ctlVia_of_may {d : Dev} {v : View} {p : Page} (hr : d.reaches v p = true) (hv : v = .pf ∨ p.shared = false)
    (f : Dev → Dev) : d.ctlVia v p f = f d := by
  rw [Dev.ctlVia, Dev.header_of_reaches hr]
  cases v with
  | pf => rfl
  | vf n => exact if_neg (by simpa using hv)

/-- A reset of CLST first resets the cluster's units that can be (R641). -/
def Dev.unitsFirst (d : Dev) (p : Page) : Dev :=
  if p.blk = .clst then
    (clusterEngines p.inst).foldl (fun (d : Dev) q => if (d.bst q).resettable then d.resetUnit q else d) d
  else d

theorem blockReset_of_granted {d : Dev} {v : View} {p : Page} (hr : d.reaches v p = true) (hv : v = .pf ∨ p.shared = false)
    (hst : d.bst p = .disabled ∨ d.bst p = .quiesced ∨ (d.bst p = .halted ∧ releases v p = true))
    (hl : d.largerHandled p = false) : blockReset v p d = (d.unitsFirst p).resetUnit p := by
  rw [blockReset, Dev.ctlVia_of_may hr hv, if_neg]
  · rfl
  · rintro (hno | ⟨hhalt, hno⟩ | hlarge)
    · rcases hst with h | h | ⟨h, -⟩ <;> rw [h] at hno <;> exact absurd hno (by decide)
    · rcases hst with h | h | ⟨-, hrel⟩
      · exact absurd (h.symm.trans hhalt) (by decide)
      · exact absurd (h.symm.trans hhalt) (by decide)
      · rw [hrel] at hno; exact absurd hno (by decide)
    · exact absurd (hl.symm.trans hlarge) (by decide)

theorem blockReset_of_unresettable {d : Dev} {v : View} {p : Page} (hr : d.reaches v p = true)
    (hv : v = .pf ∨ p.shared = false) (hst : (d.bst p).resettable = false) : blockReset v p d = d.err v p 0x0003 := by
  rw [blockReset, Dev.ctlVia_of_may hr hv, if_pos (.inl (by rw [hst]; rfl))]

/-- Settles O11: a granted reset ends in a reset of the page's unit, whose effects are those of its steps, and the closing
summary keeps them; in a state that R85 does not list the write is dropped. -/
theorem blockResetEffects : Obligations.BlockResetEffects := by
  intro v p s hp hr hv
  constructor
  · intro hst hl
    have hexec := onPage_of_valid hp (blockReset v p) s
    rw [onDev, blockReset_of_granted hr hv hst hl] at hexec
    refine ⟨_, hexec, rfl, ?pst, fun sc off hsc hoff => ?regs, fun hb w => ?neg, fun w => ?fresh,
      fun hpcie hring w n hn => ?ctr⟩
    case pst => rw [Dev.pst, Dev.finish_pg_st]; exact Dev.resetUnit_pst _ p
    case regs => rw [Dev.regAt, Dev.finish_pg_regs]; exact Dev.resetUnit_regAt _ p hsc hoff
    case neg =>
      have hself : s.dev.unitsFirst p = s.dev := if_neg (fun h => absurd (h ▸ hb) (by decide))
      rw [Dev.hdrOf_finish, Dev.resetUnit_neg _ w hb, hself]
    case fresh => rw [Dev.hdrOf_finish]; exact Dev.resetUnit_fresh _ w p
    case ctr => rw [Dev.finish_ctr hp hpcie hring w hn]; exact Dev.resetUnit_ctr _ w p hn
  · intro hst
    have hbad : (s.dev.bst p).resettable = false := by rcases hst with h | h | h | h | h <;> rw [h] <;> rfl
    have hexec := onPage_of_valid hp (blockReset v p) s
    rwa [onDev, blockReset_of_unresettable hr hv hbad] at hexec

end Sys2Proof.Machine
end

section
/-!
SUPPORT. What a command's effect on the device says of the command (becomes, completes), what folds and single components
keep, and what the event summary leaves of the output.
-/

namespace Sys2Proof.Machine

open Sys2Proof.Safety

/-! ### Commands by their effect on the device -/

theorem becomes_of_onDev {c : Instr} {s : State} {f : Dev → Dev} {d : Dev} (hc : exec c s = onDev f s)
    (h : f s.dev = d) : becomes c s d := by
  subst h; exact hc

theorem completes_of_onDev {c : Instr} {s : State} {f : Dev → Dev} {P : Dev → Prop} (hc : exec c s = onDev f s)
    (h : P (f s.dev).finish) : completes c s P :=
  ⟨_, hc, rfl, h⟩

theorem completes_of_becomes {c : Instr} {s : State} {d : Dev} {P : Dev → Prop} (hc : becomes c s d)
    (h : P d.finish) : completes c s P :=
  ⟨_, hc, rfl, h⟩

/-- What each step of a fold keeps, the fold keeps. -/
theorem foldl_keeps {α β : Type} {g : Dev → β} {f : Dev → α → Dev} (h : ∀ b x, g (f b x) = g b) (xs : List α) (d : Dev) :
    g (xs.foldl f d) = g d :=
  List.foldlRecOn xs f (motive := fun b => g b = g d) rfl fun b hb x _ => (h b x).trans hb

/-- The frame that a law of Laws/Only gives an update, as a frame between the devices before and after it. -/
theorem changesOnly_of_peel {k : List Comp} {b c : Dev}
    (h : ∀ {l : List Comp} {a : Dev}, k ⊆ l → (changesOnly l a c ↔ changesOnly l a b)) : changesOnly k b c :=
  (h (List.Subset.refl k)).2 (changesOnly_self k b)

@[simp] theorem Dev.timer_finish (d : Dev) (i : Nat) : d.finish.timer i = d.timer i := by
  simp only [Dev.timer, Dev.isle, Dev.finish_isles]

end Sys2Proof.Machine
end

section
/-!
SUPPORT. The proposal of a dual commit (R118, R125, R126, R128, R130): what each action of COMMIT_CTL, a write of a staged
field and the end of the window come to, an equation for each case.
-/

namespace Sys2Proof.Machine

open Sys2Proof.Safety

/-! ### Outcomes and the end of a proposal -/

@[simp] theorem Dev.setOutcome_parts (d : Dev) (o : Nat) :
    (d.setOutcome o).parts = { d.parts with commit := { d.parts.commit with outcome := BitVec.ofNat 8 o } } := rfl

@[simp] theorem Dev.discard_parts (d : Dev) (o : Nat) :
    (d.discard o).parts =
      { d.parts with
        staged := []
        commit := { d.parts.commit with state := .idle, digest := 0, deadline := 0, captured := 0
                                        outcome := BitVec.ofNat 8 o } } := rfl

/-- An outcome sets no error code (R91). -/
theorem Dev.setOutcome_errCode (d : Dev) (o : Nat) (v : View) :
    ((d.setOutcome o).hdrOf v pPart).errCode = (d.hdrOf v pPart).errCode :=
  Dev.evt_keeps (P := fun h => h.errCode = (d.hdrOf v pPart).errCode) (fun _ h => h)
    (d := d.updCommit fun c => { c with outcome := BitVec.ofNat 8 o }) rfl .pf

/-- The first error is the one recorded (R90, R91). -/
theorem Dev.err_errCode {d : Dev} {v : View} {p : Page} (h : (d.hdrOf v p).errCode = 0) (code : Nat) :
    ((d.err v p code).hdrOf v p).errCode = BitVec.ofNat 16 code := by
  rw [Dev.err, Dev.hdrOf_updHdr, Hdr.err_of_clear h]

/-! ### COMMIT_CTL (R126) -/

theorem Dev.ctl_of_single {d : Dev} (h : opens d .pf pPart) (f : Dev → Dev) : d.ctl false f = f d :=
  Dev.through_of_opens h _ _

theorem Dev.ctl_of_several {d : Dev} (h : opens d .pf pPart) {others : Bool} (ho : others = true) (f : Dev → Dev) :
    d.ctl others f = d.err .pf pPart 0x0003 := by
  rw [Dev.ctl, Dev.through_of_opens h, if_pos ho]

section
variable {d : Dev}

theorem stage_of_enrolled (hs : d.parts.commit.state = .idle) (he : d.store.enrolled = true) :
    stage d = { d with parts := { d.parts with staged := d.parts.live, commit := { d.parts.commit with state := .staging } } } := by
  rw [stage, if_neg (Decidable.not_not.2 hs), he]
  rfl

theorem stage_of_unenrolled (hs : d.parts.commit.state = .idle) (he : d.store.enrolled = false) :
    stage d = (d.setOutcome 10).err .pf pPart 0x0003 := by
  rw [stage, if_neg (Decidable.not_not.2 hs), he]
  rfl

theorem stage_of_not_idle (hs : d.parts.commit.state ≠ .idle) : stage d = d.err .pf pPart 0x0003 := if_pos hs

theorem sealIt_of_accepted (hs : d.parts.commit.state = .staging) (hb : d.stagedBad = false) :
    sealIt d =
      { d with parts := { d.parts with commit :=
        { d.parts.commit with
          state := .sealed, captured := d.parts.commit.count, digest := Config.sha384 (tableImage d.parts.staged)
          deadline := d.timer ioIsle + d.partMs 0x108 1000 3600000 } } } := by
  rw [sealIt, if_neg (Decidable.not_not.2 hs), hb]
  rfl

theorem sealIt_of_refused (hs : d.parts.commit.state = .staging) (hb : d.stagedBad = true) :
    sealIt d = d.setOutcome 9 := by
  rw [sealIt, if_neg (Decidable.not_not.2 hs), hb, if_pos rfl]

theorem sealIt_of_not_staging (hs : d.parts.commit.state ≠ .staging) : sealIt d = d.err .pf pPart 0x0003 := if_pos hs

theorem abort_of_open (hs : d.parts.commit.state = .staging ∨ d.parts.commit.state = .sealed) : abort d = d.discard 3 := by
  rcases hs with hs | hs <;> rw [abort, hs]

theorem abort_of_idle (hs : d.parts.commit.state = .idle) : abort d = d.err .pf pPart 0x0003 := by
  rw [abort, hs]

end

/-! ### Staged fields (R118) -/

/-- The device after word i of partition n's staged fields takes the writable bits of a value. -/
def Dev.putStaged (d : Dev) (n i : Nat) (value : Word) : Dev :=
  { d with parts := { d.parts with
      staged := d.parts.staged.put 0#32 (32 * n + i) (value &&& BitVec.ofNat 32 (fieldMask i)) } }

theorem stagedWrite_of_staging {d : Dev} (hs : d.parts.commit.state = .staging) (i : Nat) (value : Word) :
    stagedWrite i value d = d.putStaged (d.selPart .pf pPart) i value := if_neg (Decidable.not_not.2 hs)

theorem stagedWrite_of_not_staging {d : Dev} (hs : d.parts.commit.state ≠ .staging) (i : Nat) (value : Word) :
    stagedWrite i value d = d.err .pf pPart 0x0101 := if_pos hs

theorem fieldMask_lt (i : Nat) : fieldMask i < 2 ^ 32 := by
  unfold fieldMask
  repeat' split
  all_goals decide

theorem Dev.sw_finish (d : Dev) (n i : Nat) : d.finish.sw n i = d.sw n i := by
  simp only [Dev.sw, Dev.finish_parts]

theorem Dev.putStaged_sw (d : Dev) (n i : Nat) (value : Word) :
    (d.putStaged n i value).sw n i = value.toNat &&& fieldMask i := by
  rw [Dev.sw, Dev.putStaged, SMap.get_put, BitVec.toNat_and, BitVec.toNat_ofNat, Nat.mod_eq_of_lt (fieldMask_lt i)]

theorem Dev.putStaged_sw_other (d : Dev) {n m i j : Nat} (hi : i < 32) (hj : j < 32) (h : m ≠ n ∨ j ≠ i) (value : Word) :
    (d.putStaged n i value).sw m j = d.sw m j := by
  rw [Dev.sw, Dev.putStaged, SMap.get_put_ne _ _ _ _ _ _ (by omega), Dev.sw]

/-! ### The end of the window (R130) -/

theorem Dev.le_timer_reach (d : Dev) (i t : Nat) : t ≤ (d.reach i t).timer i := by
  rw [Dev.timer, Dev.isle, Dev.reach, Dev.updIsle, Dev.setIsle, SMap.get_put]
  split
  · exact Nat.le_refl _
  · omega

theorem windowExpire_of_sealed {d : Dev} (hs : d.parts.commit.state = .sealed) :
    windowExpire d = (d.reach ioIsle (d.parts.commit.deadline + 1)).discard 4 := if_neg (Decidable.not_not.2 hs)

/-! ### The commands -/

section
variable (a b : Bool) (s : State)

theorem exec_commitStage : exec (.commitStage a b) s = onDev (fun d => d.ctl (a || b) stage) s := rfl
theorem exec_commitSeal : exec (.commitSeal a b) s = onDev (fun d => d.ctl (a || b) sealIt) s := rfl
theorem exec_commitAbort : exec (.commitAbort a b) s = onDev (fun d => d.ctl (a || b) abort) s := rfl
theorem exec_commitWindowExpire : exec .commitWindowExpire s = onDev windowExpire s := rfl
theorem exec_stagedFieldWrite (i : Fin 32) (value : Word) :
    exec (.stagedFieldWrite i value) s =
      onDev (fun d => d.through .pf pPart (0x260 + 4 * i.val) (stagedWrite i.val value)) s := rfl

end

theorem completes_commitStage_of_unenrolled {s : State} (h : opens s.dev .pf pPart)
    (hs : s.dev.parts.commit.state = .idle) (he : s.dev.store.enrolled = false) :
    completes (.commitStage false false) s fun d =>
      d.parts.commit = { s.dev.parts.commit with outcome := 10#8 } ∧ d.parts.staged = s.dev.parts.staged ∧
      d.parts.live = s.dev.parts.live ∧
      ((s.dev.hdrOf .pf pPart).errCode = 0 → (d.hdrOf .pf pPart).errCode = 0x0003#16) := by
  refine completes_of_onDev (exec_commitStage false false s) ?_
  rw [show (false || false) = false from rfl, Dev.ctl_of_single h, stage_of_unenrolled hs he]
  simp only [Dev.finish_parts, Dev.err_parts, Dev.setOutcome_parts, Dev.hdrOf_finish, true_and]
  exact fun hc => Dev.err_errCode ((Dev.setOutcome_errCode s.dev 10 .pf).trans hc) 0x0003

theorem completes_stagedFieldWrite {s : State} (h : opens s.dev .pf pPart) (hs : s.dev.parts.commit.state = .staging)
    (i : Fin 32) (value : Word) :
    completes (.stagedFieldWrite i value) s fun d =>
      d.sw (s.dev.selPart .pf pPart) i.val = value.toNat &&& fieldMask i.val ∧
      (∀ n j, j < 32 → n ≠ s.dev.selPart .pf pPart ∨ j ≠ i.val → d.sw n j = s.dev.sw n j) ∧
      d.parts = { s.dev.parts with staged := d.parts.staged } ∧ changesOnly [.parts, .irq, .out, .ctr] s.dev d := by
  refine completes_of_onDev (exec_stagedFieldWrite s i value) ?_
  rw [Dev.through_of_opens h, stagedWrite_of_staging hs]
  refine ⟨?this, fun n j hj hne => ?other, ?parts, ?frame⟩
  case this => rw [Dev.sw_finish, Dev.putStaged_sw]
  case other => rw [Dev.sw_finish, Dev.putStaged_sw_other _ i.isLt hj hne]
  case parts => rw [Dev.finish_parts]; rfl
  case frame => simp [Dev.putStaged]

theorem completes_commitSeal_of_refused {s : State} (h : opens s.dev .pf pPart) (hs : s.dev.parts.commit.state = .staging)
    (hb : s.dev.stagedBad = true) :
    completes (.commitSeal false false) s fun d =>
      d.parts = { s.dev.parts with commit := { s.dev.parts.commit with outcome := 9#8 } } := by
  refine completes_of_onDev (exec_commitSeal false false s) ?_
  rw [show (false || false) = false from rfl, Dev.ctl_of_single h, sealIt_of_refused hs hb, Dev.finish_parts]
  rfl

theorem completes_commitAbort {s : State} (h : opens s.dev .pf pPart)
    (hs : s.dev.parts.commit.state = .staging ∨ s.dev.parts.commit.state = .sealed) :
    completes (.commitAbort false false) s fun d =>
      d.parts.commit.state = .idle ∧ d.parts.commit.outcome = 3#8 ∧ d.parts.staged = [] ∧
      d.parts.live = s.dev.parts.live ∧ changesOnly [.parts, .hdr, .ctr, .irq, .out] s.dev d := by
  refine completes_of_onDev (exec_commitAbort false false s) ?_
  rw [show (false || false) = false from rfl, Dev.ctl_of_single h, abort_of_open hs, Dev.finish_parts]
  exact ⟨rfl, rfl, rfl, rfl, by simp⟩

theorem completes_commitWindowExpire {s : State} (hs : s.dev.parts.commit.state = .sealed) :
    completes .commitWindowExpire s fun d =>
      d.parts.commit.state = .idle ∧ d.parts.commit.outcome = 4#8 ∧ d.parts.staged = [] ∧
      d.parts.live = s.dev.parts.live ∧ s.dev.parts.commit.deadline < d.timer ioIsle := by
  refine completes_of_onDev (exec_commitWindowExpire s) ?_
  rw [windowExpire_of_sealed hs, Dev.finish_parts, Dev.timer_finish]
  exact ⟨rfl, rfl, rfl, rfl, Dev.le_timer_reach s.dev ioIsle _⟩

/-! ### The obligation -/

/-- Settles O12: each action by what it comes to in the state that the proposal is in. -/
theorem commitProposal : Obligations.CommitProposal := by
  intro s h
  have single {f : Dev → Dev} {d : Dev} (hd : f s.dev = d) : s.dev.ctl (false || false) f = d :=
    (Dev.ctl_of_single h f).trans hd
  refine ⟨fun hs => ⟨fun he => ?stage, completes_commitStage_of_unenrolled h hs, ?abortIdle⟩, fun hs => ?stageNot,
    fun i value => ⟨fun hs => completes_stagedFieldWrite h hs i value, fun hs => ?fieldNot⟩,
    fun hs => ⟨fun hb => ?accept, completes_commitSeal_of_refused h hs⟩, fun hs => ?sealNot, completes_commitAbort h,
    completes_commitWindowExpire, fun a b hab => ?several⟩
  case stage => exact becomes_of_onDev (exec_commitStage false false s) (single (stage_of_enrolled hs he))
  case abortIdle => exact becomes_of_onDev (exec_commitAbort false false s) (single (abort_of_idle hs))
  case stageNot => exact becomes_of_onDev (exec_commitStage false false s) (single (stage_of_not_idle hs))
  case fieldNot =>
    exact becomes_of_onDev (exec_stagedFieldWrite s i value)
      ((Dev.through_of_opens h _ _).trans (stagedWrite_of_not_staging hs i.val value))
  case accept => exact becomes_of_onDev (exec_commitSeal false false s) (single (sealIt_of_accepted hs hb))
  case sealNot => exact becomes_of_onDev (exec_commitSeal false false s) (single (sealIt_of_not_staging hs))
  case several =>
    have dropped (f : Dev → Dev) : s.dev.ctl (a || b) f = s.dev.err .pf pPart 0x0003 := Dev.ctl_of_several h hab f
    exact ⟨becomes_of_onDev (exec_commitStage a b s) (dropped _), becomes_of_onDev (exec_commitSeal a b s) (dropped _),
      becomes_of_onDev (exec_commitAbort a b s) (dropped _)⟩

end Sys2Proof.Machine
end

section
/-!
SUPPORT. The custodian's messages (R120, R127, R128, R136–R138): what a management request comes to while no response is
owed, COMMIT_SIGN by the first check that fails, and the one enrolment.
-/

namespace Sys2Proof.Machine

open Sys2Proof.Safety

/-! ### Management requests (R677) -/

theorem Dev.mgmtReq_of_free {d : Dev} (haux : d.boot.aux = true) (hbusy : d.boot.mgmtBusy = false) (tag : BitVec 5)
    (code : Nat) (f : Dev → Dev) : d.mgmtReq tag code f = f (d.cnt .pf pMgmt 0 1) := by
  rw [Dev.mgmtReq, haux]
  simp only [Bool.not_true, Bool.false_eq_true, if_false, Dev.cnt_boot, hbusy]

@[simp] theorem Dev.mgmtOut_parts (d : Dev) (tag : BitVec 5) (code : Nat) (body : List Byte) :
    (d.mgmtOut tag code body).parts = d.parts := rfl

@[simp] theorem Dev.mgmtOut_store (d : Dev) (tag : BitVec 5) (code : Nat) (body : List Byte) :
    (d.mgmtOut tag code body).store = d.store := rfl

@[simp] theorem Dev.mgmtOut_pwr (d : Dev) (tag : BitVec 5) (code : Nat) (body : List Byte) :
    (d.mgmtOut tag code body).pwr = d.pwr := rfl

@[simp] theorem Dev.discard_store (d : Dev) (o : Nat) : (d.discard o).store = d.store := rfl

/-! ### The commands -/

section
variable (tag : BitVec 5) (s : State)

theorem exec_commitQuery : exec (.commitQuery tag) s = onDev (query tag) s := rfl
theorem exec_commitSign (m ec lm : List Byte) : exec (.commitSign tag m ec lm) s = onDev (sign tag m ec lm) s := rfl
theorem exec_enroll (ek lk es ls : List Byte) : exec (.enroll tag ek lk es ls) s = onDev (enrol tag ek lk es ls) s := rfl

end

/-! ### Answers while no response is owed -/

/-- The device that verifies a signed proposal. -/
def Dev.verifying (d : Dev) (tag : BitVec 5) (q : Nat) : Dev :=
  ({ d with boot := { d.boot with mgmtBusy := true } } : Dev).updCommit fun c =>
    { c with state := .verifying, signTag := some tag, signQ := q }

/-- The device with a custodian's keys enrolled. -/
def Dev.withCustodian (d : Dev) (ek lk : List Byte) : Dev :=
  { d with store := { d.store with ecKey := ek, lmsKey := lk, enrolled := true } }

@[simp] theorem Dev.withCustodian_only {l : List Comp} {a : Dev} (d : Dev) (ek lk : List Byte) (hl : [.store] ⊆ l) :
    changesOnly l a (d.withCustodian ek lk) ↔ changesOnly l a d := changesOnly_set_store _ hl

section
variable {d : Dev} (haux : d.boot.aux = true) (hbusy : d.boot.mgmtBusy = false) (tag : BitVec 5)
include haux hbusy

theorem query_of_sealed (hs : d.parts.commit.state = .sealed) :
    query tag d = (d.cnt .pf pMgmt 0 1).mgmtOut tag 0x21
      ([0#8, 2#8, 0#8, 0#8] ++ d.messageM ++ leBytes 8 (d.parts.commit.deadline - d.timer ioIsle) ++
        tableImage d.parts.staged) := by
  rw [query, Dev.mgmtReq_of_free haux hbusy]
  dsimp only [Dev.cnt_parts]
  rw [if_neg (Decidable.not_not.2 hs), hs]
  rfl

theorem query_of_unsealed (hs : d.parts.commit.state ≠ .sealed) :
    query tag d = (d.cnt .pf pMgmt 0 1).mgmtOut tag 0x21
      ([12#8] ++ leBytes 1 d.parts.commit.state.code ++ zbytes 2138) := by
  rw [query, Dev.mgmtReq_of_free haux hbusy]
  dsimp only [Dev.cnt_parts]
  rw [if_pos hs]
  have hz : zbytes 2 ++ zbytes (80 + 8 + 2048) = zbytes 2138 := List.replicate_append_replicate
  rw [← hz]
  simp only [List.append_assoc]

variable (m ec lm : List Byte)

theorem sign_of_early (hs : d.parts.commit.state = .idle ∨ d.parts.commit.state = .staging) :
    sign tag m ec lm d = (d.cnt .pf pMgmt 0 1).mgmtOut tag 0x22 [12#8] := by
  rw [sign, Dev.mgmtReq_of_free haux hbusy]
  rcases hs with hs | hs <;> simp only [Dev.cnt_parts, hs]

theorem sign_of_late (hs : d.parts.commit.state = .verifying ∨ d.parts.commit.state = .applying) :
    sign tag m ec lm d = (d.cnt .pf pMgmt 0 1).mgmtOut tag 0x22 [13#8] := by
  rw [sign, Dev.mgmtReq_of_free haux hbusy]
  rcases hs with hs | hs <;> simp only [Dev.cnt_parts, hs]

theorem sign_of_failed (hs : d.parts.commit.state = .sealed) (ho : d.signCheck m ec lm ≠ 0) :
    sign tag m ec lm d = ((d.cnt .pf pMgmt 0 1).discard (d.signCheck m ec lm)).mgmtOut tag 0x22
      [BitVec.ofNat 8 (d.signCheck m ec lm)] := by
  rw [sign, Dev.mgmtReq_of_free haux hbusy]
  simp only [Dev.cnt_parts, hs]
  exact if_pos ho

theorem sign_of_passed (hs : d.parts.commit.state = .sealed) (ho : d.signCheck m ec lm = 0) :
    sign tag m ec lm d = (d.cnt .pf pMgmt 0 1).verifying tag (fldBE lm 0 4) := by
  rw [sign, Dev.mgmtReq_of_free haux hbusy]
  simp only [Dev.cnt_parts, hs]
  exact if_neg (Decidable.not_not.2 ho)

theorem enrol_of_enrolled (ek lk es ls : List Byte) (he : d.store.enrolled = true) :
    enrol tag ek lk es ls d = (d.cnt .pf pMgmt 0 1).mgmtOut tag 0x20 [9#8] := by
  rw [enrol, Dev.mgmtReq_of_free haux hbusy]
  simp [he]

theorem enrol_of_good {ek lk es ls : List Byte} (he : d.store.enrolled = false) (hsam : d.boot.provSampled = true)
    (hlow : d.boot.provLow = true) (hek : ek.length = 97) (hlk : lk.length = 48) (hes : es.length = 96)
    (hls : ls.length ≤ 1860) (hec : Config.ecdsaVerify ek enrolText es = true)
    (hlms : Config.lmsVerify lk enrolText ls = true) :
    enrol tag ek lk es ls d = ((d.cnt .pf pMgmt 0 1).withCustodian ek lk).mgmtOut tag 0x20 [0#8] := by
  have hlong : ¬1860 < ls.length := by omega
  rw [enrol, Dev.mgmtReq_of_free haux hbusy]
  simp [he, hsam, hlow, hek, hlk, hes, hlong, hec, hlms, Dev.withCustodian]

end

/-! ### The checks of COMMIT_SIGN in their order (R127) -/

section
variable {d : Dev} {m ec lm : List Byte}

theorem Dev.signCheck_of_expired (h : d.parts.commit.deadline < d.timer ioIsle) : d.signCheck m ec lm = 4 := if_pos h

variable (hopen : d.timer ioIsle ≤ d.parts.commit.deadline)
include hopen

theorem Dev.signCheck_of_otherText (hm : m ≠ d.messageM) : d.signCheck m ec lm = 8 := by
  rw [Dev.signCheck, if_neg (Nat.not_lt.2 hopen), if_pos hm]

variable (hm : m = d.messageM)
include hm

theorem Dev.signCheck_of_badEcdsa (hec : Config.ecdsaVerify d.store.ecKey m ec = false) : d.signCheck m ec lm = 5 := by
  rw [Dev.signCheck, if_neg (Nat.not_lt.2 hopen), if_neg (Decidable.not_not.2 hm), hec]
  rfl

variable (hec : Config.ecdsaVerify d.store.ecKey m ec = true)
include hec

/-- Past the window, the text and the ECDSA signature, the LMS signature and its leaf decide. -/
theorem Dev.signCheck_of_goodEcdsa :
    d.signCheck m ec lm =
      if 1860 < lm.length ∨ !Config.lmsVerify d.store.lmsKey m lm then 6
      else if d.store.leafQ.any fun q => fldBE lm 0 4 ≤ q then 7
      else 0 := by
  rw [Dev.signCheck, if_neg (Nat.not_lt.2 hopen), if_neg (Decidable.not_not.2 hm), hec]
  rfl

theorem Dev.signCheck_of_badLms (hlms : 1860 < lm.length ∨ Config.lmsVerify d.store.lmsKey m lm = false) :
    d.signCheck m ec lm = 6 := by
  rw [Dev.signCheck_of_goodEcdsa hopen hm hec, if_pos]
  simpa using hlms

variable (hlen : lm.length ≤ 1860) (hlms : Config.lmsVerify d.store.lmsKey m lm = true)
include hlen hlms

theorem Dev.signCheck_of_usedLeaf {q : Nat} (hq : d.store.leafQ = some q) (hle : fldBE lm 0 4 ≤ q) :
    d.signCheck m ec lm = 7 := by
  rw [Dev.signCheck_of_goodEcdsa hopen hm hec, if_neg (by simp [hlms, hlen]), hq, if_pos (by simpa using hle)]

theorem Dev.signCheck_of_freshLeaf (hfresh : ∀ q, d.store.leafQ = some q → q < fldBE lm 0 4) :
    d.signCheck m ec lm = 0 := by
  rw [Dev.signCheck_of_goodEcdsa hopen hm hec, if_neg (by simp [hlms, hlen]), if_neg]
  cases hq : d.store.leafQ with
  | none => simp
  | some q => simpa using hfresh q hq

end

/-! ### The obligation -/

section
variable {s : State} (haux : s.dev.boot.aux = true) (hbusy : s.dev.boot.mgmtBusy = false) (tag : BitVec 5)
  {m ec lm : List Byte} (hs : s.dev.parts.commit.state = .sealed)
include haux hbusy hs

/-- A check that fails ends the proposal with its outcome; nothing but the proposal goes (R128). -/
theorem completes_commitSign_of_failed {o : Nat} (hcheck : s.dev.signCheck m ec lm = o) (ho : o ≠ 0) :
    completes (.commitSign tag m ec lm) s fun d =>
      d.parts.commit.outcome = BitVec.ofNat 8 o ∧ d.parts.commit.state = .idle ∧ d.parts.staged = [] ∧
      d.parts.live = s.dev.parts.live ∧ d.parts.commit.count = s.dev.parts.commit.count ∧ d.store = s.dev.store := by
  subst hcheck
  refine completes_of_onDev (exec_commitSign tag s m ec lm) ?_
  rw [sign_of_failed haux hbusy tag m ec lm hs ho]
  simp

theorem completes_commitSign_of_passed (hcheck : s.dev.signCheck m ec lm = 0) :
    completes (.commitSign tag m ec lm) s fun d =>
      d.parts = { s.dev.parts with commit :=
        { s.dev.parts.commit with state := .verifying, signTag := some tag, signQ := fldBE lm 0 4 } } ∧
      d.boot = { s.dev.boot with mgmtBusy := true } := by
  refine completes_of_onDev (exec_commitSign tag s m ec lm) ?_
  rw [sign_of_passed haux hbusy tag m ec lm hs hcheck, Dev.finish_parts, Dev.finish_boot]
  exact ⟨rfl, rfl⟩

end

/-- Settles O13: the query by whether a proposal is sealed, COMMIT_SIGN by the first check of R127 that fails, ENROLL by
whether a custodian is enrolled. -/
theorem custodianMessages : Obligations.CustodianMessages := by
  intro tag s haux hbusy
  refine ⟨fun hs => ?sealed, fun hs => ?unsealed, fun m ec lm => ⟨fun hs => ?checks, fun hs => ?early, fun hs => ?late⟩,
    fun ek lk es ls => ⟨fun he => ?again, fun he hsam hlow hek hlk hes hls hec hlms => ?once⟩⟩
  case sealed => exact becomes_of_onDev (exec_commitQuery tag s) (query_of_sealed haux hbusy tag hs)
  case unsealed => exact becomes_of_onDev (exec_commitQuery tag s) (query_of_unsealed haux hbusy tag hs)
  case checks =>
    have ends {o : Nat} (hcheck : s.dev.signCheck m ec lm = o) (ho : o ≠ 0) :=
      completes_commitSign_of_failed haux hbusy tag hs hcheck ho
    refine ⟨fun hexp => ends (Dev.signCheck_of_expired hexp) (by decide), fun hopen =>
      ⟨fun hm => ends (Dev.signCheck_of_otherText hopen hm) (by decide), fun hm =>
        ⟨fun hec => ends (Dev.signCheck_of_badEcdsa hopen hm hec) (by decide), fun hec =>
          ⟨fun hbad => ends (Dev.signCheck_of_badLms hopen hm hec hbad) (by decide), fun hlen hlms =>
            ⟨fun q hq hle => ends (Dev.signCheck_of_usedLeaf hopen hm hec hlen hlms hq hle) (by decide), fun hfresh =>
              completes_commitSign_of_passed haux hbusy tag hs
                (Dev.signCheck_of_freshLeaf hopen hm hec hlen hlms hfresh)⟩⟩⟩⟩⟩
  case early => exact becomes_of_onDev (exec_commitSign tag s m ec lm) (sign_of_early haux hbusy tag m ec lm hs)
  case late => exact becomes_of_onDev (exec_commitSign tag s m ec lm) (sign_of_late haux hbusy tag m ec lm hs)
  case again => exact becomes_of_onDev (exec_enroll tag s ek lk es ls) (enrol_of_enrolled haux hbusy tag ek lk es ls he)
  case once =>
    refine completes_of_onDev (exec_enroll tag s ek lk es ls) ?_
    rw [enrol_of_good haux hbusy tag he hsam hlow hek hlk hes hls hec hlms, Dev.finish_store]
    exact ⟨rfl, by simp⟩

end Sys2Proof.Machine
end

section
/-!
SUPPORT. How a dual commit is applied (R111, R122, R123, R131, R134): the commit point, the end of the drain with every unit
idle or with the grace passed, and the switch of the live table, by what each leaves of the partition tables.
-/

namespace Sys2Proof.Machine

open Sys2Proof.Safety

/-! ### The commit point (R123) -/

/-- The device at the commit point, before units that change owner are quiesced and frames are reclaimed. -/
def Dev.committed (d : Dev) : Dev :=
  { d with
    store := { d.store with table := d.parts.staged, leafQ := some d.parts.commit.signQ, nsChange := d.movedNs }
    parts := { d.parts with commit :=
      { d.parts.commit with
        state := .applying, count := d.parts.commit.count + 1, forced := false, scrubbing := false
        drainBy := d.timer ioIsle + d.partMs 0x10C 1 10000 } } }

/-- Quiescing units and reclaiming frames leaves the tables, the store, the islands, clusters and shelves. -/
theorem commitPoint_changesOnly {d : Dev} (hs : d.parts.commit.state = .verifying) :
    changesOnly [.st, .hdr, .ctr, .mem, .poison, .cores, .sigs, .nwch, .opte, .tier, .eth, .fab, .strm, .out, .free]
      d.committed (commitPoint d) := by
  rw [commitPoint, if_neg (Decidable.not_not.2 hs)]
  refine (Dev.startReclaim_only _ _ _ (by simp)).2 ?_
  refine (changesOnly_foldl _ _ _ fun b p => by simp).2 ?_
  refine (changesOnly_foldl _ _ _ fun b n => by simp).2 ?_
  exact changesOnly_self _ _

/-! ### The drain (R131) -/

theorem drainIdle_of_idle {d : Dev} (hs : d.parts.commit.state = .applying) (hscrub : d.parts.commit.scrubbing = false)
    (hbusy : d.movedUnits.any d.unitBusy = false) (hlent : d.lentMoved = []) :
    drainIdle d = (d.movedUnits.foldl (fun (d : Dev) p => d.drainBlk p) d).updCommit fun c => { c with scrubbing := true } := by
  rw [drainIdle, if_neg]
  simp [hs, hscrub, hbusy, hlent]

/-- Halting and draining units leaves the tables, the store and the islands. -/
def drainComps : List Comp :=
  [.st, .hdr, .ctr, .mem, .poison, .cores, .sigs, .mvec, .nwch, .opte, .rede, .tier, .dmae, .strm, .free]

/-- The units that change owner, at the end of the grace: those of a list are halted, the others drained. -/
def Dev.haltMoved (d : Dev) (busy : List Page) : Dev :=
  d.movedUnits.foldl (fun (d : Dev) p =>
    if busy.contains p then d.haltUnit ((d.pageOwner p).getD 0) p else d.drainBlk p) d

theorem Dev.haltMoved_changesOnly (d : Dev) (busy : List Page) : changesOnly drainComps d (d.haltMoved busy) := by
  refine (changesOnly_foldl _ _ _ fun b p => ?_).2 (changesOnly_self _ _)
  simp [drainComps]

/-- The device at the end of the grace, with the frames of moved pseudo-channels revoked. -/
def Dev.graceOver (d : Dev) : Dev :=
  (d.reach ioIsle d.parts.commit.drainBy).lentMoved.foldl (fun (d : Dev) (l : Lent) => deadline l.id d)
    (d.reach ioIsle d.parts.commit.drainBy)

theorem Dev.graceOver_changesOnly (d : Dev) :
    changesOnly [.hdr, .ctr, .mem, .poison, .isles, .tier, .eth, .fab, .out] d d.graceOver := by
  refine (changesOnly_foldl _ _ _ fun b l => ?_).2 ?_ <;> simp

theorem Dev.graceOver_of_no_lent {d : Dev} (h : d.lentMoved = []) :
    d.graceOver = d.reach ioIsle d.parts.commit.drainBy := by
  have hl : (d.reach ioIsle d.parts.commit.drainBy).lentMoved = [] := h
  rw [Dev.graceOver, hl, List.foldl_nil]

theorem Dev.movedUnits_reach (d : Dev) (i t : Nat) : (d.reach i t).movedUnits = d.movedUnits := rfl

theorem Dev.unitBusy_reach (d : Dev) (i t : Nat) : (d.reach i t).unitBusy = d.unitBusy := by
  funext p
  unfold Dev.unitBusy
  split <;> rfl

theorem not_isEmpty_filter {α : Type} (xs : List α) (p : α → Bool) : (!(xs.filter p).isEmpty) = xs.any p := by
  rw [Bool.eq_iff_iff]; simp

theorem drainGrace_of_applying {d : Dev} (hs : d.parts.commit.state = .applying)
    (hscrub : d.parts.commit.scrubbing = false) :
    drainGrace d =
      (d.graceOver.haltMoved (d.graceOver.movedUnits.filter d.graceOver.unitBusy)).updCommit fun c =>
        { c with scrubbing := true
                 forced := c.forced || !(d.graceOver.movedUnits.filter d.graceOver.unitBusy).isEmpty } := by
  rw [drainGrace, if_neg (by simp [hs, hscrub])]
  rfl

/-! ### The switch (R131 step 6) -/

/-- The partition tables without the partitions' own states. -/
def Dev.tables (d : Dev) : Parts := { d.parts with st := [] }

theorem Dev.parts_eq_tables (d : Dev) : d.parts = { d.tables with st := d.parts.st } := rfl

theorem Dev.tables_setStore (d : Dev) (x : Store) : Dev.tables { d with store := x } = d.tables := rfl

theorem Dev.tables_eq_of_changesOnly {l : List Comp} {a b : Dev} (h : changesOnly l a b) (hl : Comp.parts ∉ l) :
    b.tables = a.tables := by
  have hparts : b.parts = a.parts := h .parts hl
  rw [Dev.tables, hparts, Dev.tables]

theorem Dev.tables_setTables (d : Dev) :
    Dev.tables { d with parts := { d.parts with live := d.parts.staged, staged := [] } } =
      { d.tables with live := d.tables.staged, staged := [] } := rfl

theorem Dev.tables_foldl {α : Type} {l : List Comp} {f : Dev → α → Dev} (hl : Comp.parts ∉ l)
    (h : ∀ b x, changesOnly l b (f b x)) (xs : List α) (d : Dev) : (xs.foldl f d).tables = d.tables :=
  foldl_keeps (fun b x => Dev.tables_eq_of_changesOnly (h b x) hl) xs d

/-- The staged table becomes the live one; the proposal's own state stays. -/
theorem Dev.switchTable_tables (d : Dev) :
    d.switchTable.tables = { d.tables with live := d.tables.staged, staged := [] } := by
  unfold Dev.switchTable
  refine (Dev.tables_foldl (l := [.hdr]) (by decide) (fun b n => by simp) _ _).trans ?_
  refine (Dev.tables_foldl (l := [.gen]) (by decide) (fun b v => by simp) _ _).trans ?_
  refine (foldl_keeps (g := Dev.tables) (fun b n => ?gone) _ _).trans ?_
  case gone =>
    exact Dev.tables_eq_of_changesOnly (a := b) (b := ((b.dropKeys n).dropPartFlows n).emptyRings n)
      (l := [.fab, .sec, .rings]) (by simp) (by decide)
  refine (Dev.tables_foldl (l := [.regs]) (by decide) (fun b k => by simp) _ _).trans ?_
  rw [Dev.tables_setTables, Dev.tables_foldl (l := [.hdr]) (by decide) (fun b v => by simp),
    Dev.tables_foldl (by decide) fun b n => changesOnly_of_peel (Dev.beforeSwitch_only b n)]

/-- The device with what changes owner scrubbed, the table switched and the namespaces' change done. -/
def Dev.switched (d : Dev) : Dev :=
  { d.scrubMoved.switchTable with store := { d.scrubMoved.switchTable.store with nsChange := [] } }

theorem Dev.switched_tables (d : Dev) :
    d.switched.tables = { d.tables with live := d.tables.staged, staged := [] } := by
  have hscrub : d.scrubMoved.tables = d.tables :=
    Dev.tables_eq_of_changesOnly (changesOnly_of_peel (Dev.scrubMoved_only d)) (by decide)
  rw [Dev.switched, Dev.tables_setStore, Dev.switchTable_tables, hscrub]

/-- The staged table is live; of the rest only the partitions' own states may have changed. -/
theorem Dev.switched_parts (d : Dev) :
    ∃ st, d.switched.parts = { d.parts with live := d.parts.staged, staged := [], st := st } := by
  refine ⟨d.switched.parts.st, ?_⟩
  rw [Dev.parts_eq_tables d.switched, Dev.switched_tables]
  rfl

theorem Dev.switched_store (d : Dev) : d.switched.store = { d.store with nsChange := [] } := by
  have hscrub : d.scrubMoved.store = d.store := changesOnly_of_peel (Dev.scrubMoved_only d) .store (by decide)
  have hswitch : d.scrubMoved.switchTable.store = d.scrubMoved.store :=
    changesOnly_of_peel (Dev.switchTable_only d.scrubMoved) .store (by decide)
  rw [Dev.switched, hswitch, hscrub]

theorem Dev.switched_boot (d : Dev) : d.switched.boot = d.boot := by
  have hscrub : d.scrubMoved.boot = d.boot := changesOnly_of_peel (Dev.scrubMoved_only d) .boot (by decide)
  have hswitch : d.scrubMoved.switchTable.boot = d.scrubMoved.boot :=
    changesOnly_of_peel (Dev.switchTable_only d.scrubMoved) .boot (by decide)
  rw [← hscrub, ← hswitch]
  rfl

/-- The dual commit is Idle again with an outcome, and nothing of the proposal is left. -/
def Dev.closeCommit (d : Dev) (o : Nat) : Dev :=
  (d.updCommit fun c => { c with state := .idle, digest := 0, deadline := 0, captured := 0, scrubbing := false
                                 forced := false, signTag := none }).setOutcome o

theorem Dev.closeCommit_parts (d : Dev) (o : Nat) :
    (d.closeCommit o).parts = { d.parts with commit := { d.parts.commit with
      state := .idle, outcome := BitVec.ofNat 8 o, digest := 0, deadline := 0, captured := 0, scrubbing := false
      forced := false, signTag := none } } := rfl

theorem Dev.closeCommit_store (d : Dev) (o : Nat) : (d.closeCommit o).store = d.store := rfl

/-- The custodian's message that waits is answered with an outcome (R128). -/
def Dev.answerSign (d : Dev) (tag : Option (BitVec 5)) (o : Nat) : Dev :=
  match tag with
  | some tag => ({ d with boot := { d.boot with mgmtBusy := false } } : Dev).mgmtOut tag 0x22 [BitVec.ofNat 8 o]
  | none => d

section
variable (d : Dev) (tag : Option (BitVec 5)) (o : Nat)

@[simp] theorem Dev.answerSign_parts : (d.answerSign tag o).parts = d.parts := by cases tag <;> rfl
@[simp] theorem Dev.answerSign_store : (d.answerSign tag o).store = d.store := by cases tag <;> rfl
@[simp] theorem Dev.answerSign_resetWaits : (d.answerSign tag o).boot.resetWaits = d.boot.resetWaits := by cases tag <;> rfl

end

theorem Dev.resetIfWaits_of_none {d : Dev} (h : d.boot.resetWaits = none) : d.resetIfWaits = d := by
  rw [Dev.resetIfWaits, h]

theorem scrubDone_of_scrubbing {d : Dev} (hs : d.parts.commit.state = .applying)
    (hscrub : d.parts.commit.scrubbing = true) (hwait : d.boot.resetWaits = none) :
    scrubDone d = (d.switched.closeCommit (if d.parts.commit.forced then 2 else 1)).answerSign d.parts.commit.signTag
      (if d.parts.commit.forced then 2 else 1) := by
  rw [scrubDone, if_neg (by simp [hs, hscrub])]
  refine Dev.resetIfWaits_of_none ?_
  exact (Dev.answerSign_resetWaits (d.switched.closeCommit _) d.parts.commit.signTag _).trans
    ((congrArg Boot.resetWaits d.switched_boot).trans hwait)

/-! ### The commands -/

section
variable (s : State)

theorem exec_commitPoint : exec .commitPoint s = onDev commitPoint s := rfl
theorem exec_commitDrainIdle : exec .commitDrainIdle s = onDev drainIdle s := rfl
theorem exec_commitDrainGraceExpire : exec .commitDrainGraceExpire s = onDev drainGrace s := rfl
theorem exec_commitScrubDone : exec .commitScrubDone s = onDev scrubDone s := rfl

end

section
variable {s : State}

theorem completes_commitPoint (hs : s.dev.parts.commit.state = .verifying) :
    completes .commitPoint s fun d =>
      d.store = s.dev.committed.store ∧ d.parts = s.dev.committed.parts ∧ d.clus = s.dev.clus ∧
      d.shelves = s.dev.shelves ∧ d.isles = s.dev.isles := by
  have hframe := commitPoint_changesOnly hs
  refine completes_of_onDev (exec_commitPoint s) ?_
  simp only [Dev.finish_store, Dev.finish_parts, Dev.finish_clus, Dev.finish_shelves, Dev.finish_isles]
  exact ⟨hframe .store (by decide), hframe .parts (by decide), hframe .clus (by decide), hframe .shelves (by decide),
    hframe .isles (by decide)⟩

theorem completes_commitDrainIdle (hs : s.dev.parts.commit.state = .applying)
    (hscrub : s.dev.parts.commit.scrubbing = false) (hbusy : s.dev.movedUnits.any s.dev.unitBusy = false)
    (hlent : s.dev.lentMoved = []) :
    completes .commitDrainIdle s fun d =>
      d.parts = { s.dev.parts with commit := { s.dev.parts.commit with scrubbing := true } } ∧
      changesOnly [.st, .hdr, .parts, .irq, .out, .ctr] s.dev d := by
  have hframe : changesOnly [.st, .hdr] s.dev (s.dev.movedUnits.foldl (fun (d : Dev) p => d.drainBlk p) s.dev) :=
    (changesOnly_foldl _ _ _ fun b p => by simp).2 (changesOnly_self _ _)
  have hparts : (s.dev.movedUnits.foldl (fun (d : Dev) p => d.drainBlk p) s.dev).parts = s.dev.parts :=
    hframe .parts (by decide)
  refine completes_of_onDev (exec_commitDrainIdle s) ?_
  rw [drainIdle_of_idle hs hscrub hbusy hlent, Dev.finish_parts]
  refine ⟨?_, ?_⟩
  · rw [Dev.updCommit, hparts]
  · simpa using hframe.mono (by simp)

theorem completes_commitDrainGraceExpire (hs : s.dev.parts.commit.state = .applying)
    (hscrub : s.dev.parts.commit.scrubbing = false) :
    completes .commitDrainGraceExpire s fun d =>
      d.parts.commit.scrubbing = true ∧ d.parts.commit.state = .applying ∧
      d.parts.live = s.dev.parts.live ∧ d.parts.staged = s.dev.parts.staged ∧ d.store = s.dev.store ∧
      (s.dev.lentMoved = [] → s.dev.parts.commit.drainBy ≤ d.timer ioIsle ∧
        d.parts.commit.forced = (s.dev.parts.commit.forced || s.dev.movedUnits.any s.dev.unitBusy)) := by
  have hgrace := s.dev.graceOver_changesOnly
  have hhalt := s.dev.graceOver.haltMoved_changesOnly (s.dev.graceOver.movedUnits.filter s.dev.graceOver.unitBusy)
  have hparts : _ = s.dev.parts := (hhalt .parts (by decide)).trans (hgrace .parts (by decide))
  have hstore : _ = s.dev.store := (hhalt .store (by decide)).trans (hgrace .store (by decide))
  refine completes_of_onDev (exec_commitDrainGraceExpire s) ?_
  rw [drainGrace_of_applying hs hscrub]
  simp only [Dev.finish_parts, Dev.finish_store, Dev.timer_finish, Dev.updCommit, hparts, hstore, true_and]
  refine ⟨hs, fun hlent => ⟨?timer, ?forced⟩⟩
  case timer =>
    have hisles : _ = s.dev.graceOver.isles := hhalt .isles (by decide)
    rw [Dev.timer, Dev.isle, hisles, Dev.graceOver_of_no_lent hlent]
    exact Dev.le_timer_reach s.dev ioIsle _
  case forced =>
    rw [Dev.graceOver_of_no_lent hlent, Dev.movedUnits_reach, Dev.unitBusy_reach, not_isEmpty_filter]

theorem completes_commitScrubDone (hs : s.dev.parts.commit.state = .applying)
    (hscrub : s.dev.parts.commit.scrubbing = true) (hwait : s.dev.boot.resetWaits = none) :
    completes .commitScrubDone s fun d =>
      d.parts.live = s.dev.parts.staged ∧ d.parts.staged = [] ∧ d.parts.commit.state = .idle ∧
      d.parts.commit.outcome = (if s.dev.parts.commit.forced then 2#8 else 1#8) ∧
      d.parts.commit.count = s.dev.parts.commit.count ∧ d.parts.commit.signTag = none ∧
      d.store = { s.dev.store with nsChange := [] } := by
  refine completes_of_onDev (exec_commitScrubDone s) ?_
  rw [scrubDone_of_scrubbing hs hscrub hwait]
  obtain ⟨st, hparts⟩ := s.dev.switched_parts
  rw [Dev.finish_parts, Dev.finish_store, Dev.answerSign_parts, Dev.answerSign_store, Dev.closeCommit_parts,
    Dev.closeCommit_store, hparts, Dev.switched_store]
  refine ⟨rfl, rfl, rfl, ?outcome, rfl, rfl, rfl⟩
  case outcome =>
    dsimp only
    split <;> rfl

end

/-- Settles O14: the four commands by what each leaves of the tables, the proposal and the protected store. -/
theorem commitApplied : Obligations.CommitApplied := by
  intro s
  refine ⟨fun hs => ?point, fun hs hscrub => ⟨completes_commitDrainIdle hs hscrub,
    completes_commitDrainGraceExpire hs hscrub⟩, completes_commitScrubDone⟩
  case point =>
    refine completes_mono (completes_commitPoint hs) fun d ⟨hstore, hparts, hclus, hshelves, hisles⟩ => ?_
    rw [hstore]
    exact ⟨rfl, rfl, rfl, hparts, hclus, hshelves, hisles⟩

end Sys2Proof.Machine
end

section
/-!
SUPPORT. The POWER message (R626, R627, R677), PROV_N (R136), the host link (R544, R693), unmasking of a vector (R548) and ATS
invalidation (R543): what each comes to, case by case, and that the event summary only adds to the output.
-/

namespace Sys2Proof.Machine

open Sys2Proof.Safety

/-! ### The event summary adds to the output (R546) -/

theorem Dev.msix_out_suffix (d : Dev) (v : View) (vec : Nat) : d.out <:+ (d.msix v vec).out := by
  unfold Dev.msix
  dsimp only
  split
  · exact List.suffix_rfl
  · split
    · cases v <;> exact List.suffix_cons _ _
    · exact List.suffix_rfl

theorem Dev.summarise_out_suffix (d : Dev) (v : View) (i : Nat) : d.out <:+ (d.summarise v i).out := by
  unfold Dev.summarise
  dsimp only
  split
  · exact List.suffix_rfl
  · exact Dev.msix_out_suffix { d with irq := { d.irq with summary := d.irq.summary.add (v.key * 2048 + i % 2048) } } v _

theorem Dev.raise_out_suffix (d : Dev) (vp : View × Page) : d.out <:+ (d.raise vp).out := by
  unfold Dev.raise
  split
  · split
    · exact d.summarise_out_suffix _ _
    · exact List.suffix_rfl
  · exact List.suffix_rfl

theorem Dev.finish_out_suffix (d : Dev) : d.out <:+ d.finish.out :=
  List.foldlRecOn d.pendingEvents Dev.raise (motive := fun b => d.out <:+ b.out) List.suffix_rfl
    fun b hb vp _ => hb.trans (Dev.raise_out_suffix b vp)

/-! ### The commands -/

section
variable (s : State)

theorem exec_power (tag : BitVec 5) (target : Byte) : exec (.power tag target) s = onDev (power tag target.toNat) s := rfl
theorem exec_provNChange (level : Bool) :
    exec (.provNChange level) s = onDev (fun d => d.updBoot fun b => { b with provLow := !level }) s := rfl
theorem exec_pcieLinkDown : exec .pcieLinkDown s = onDev (fun d => d.updBoot fun b => { b with linkUp := false }) s := rfl
theorem exec_pcieLinkRetrain (rate : BitVec 3) (flit : Bool) (width : BitVec 5) :
    exec (.pcieLinkRetrain rate flit width) s = onDev (retrain rate.toNat flit width.toNat) s := rfl
theorem exec_msixVectorUnmask (fn : View) (vec : Fin 2048) :
    exec (.msixVectorUnmask fn vec) s = onDev (unmask fn vec.val) s := rfl
theorem exec_atsInvalidateRequest (fn : View) (a : BitVec 64) (n : Nat) :
    exec (.atsInvalidateRequest fn a n) s = onDev (fun d => d.cnt .pf pPcie 7 1) s := rfl

end

/-! ### POWER -/

/-- POWER's response with a status leaves first, and the ladder stays as it was. -/
def powerAnswered (tag : BitVec 5) (x : Byte) (a d : Dev) : Prop :=
  (∃ pre, d.out = pre ++ Output.mgmt tag.toNat
    ([0x7F, 0x00, 0x04, 0xE2, 0x1A] ++ beBytes 1 tag.toNat ++ [0x30, x]) :: a.out) ∧ d.pwr = a.pwr

/-- POWER's response waits for a transition or a start-up. -/
def powerWaits (tag : BitVec 5) (t : Nat) (d : Dev) : Prop :=
  d.boot.mgmtBusy = true ∧ d.pwr.mgmtTag = some tag ∧ d.pwr.target = t

theorem Dev.mgmtOut_power_out (d : Dev) (tag : BitVec 5) (x : Byte) :
    (d.mgmtOut tag 0x30 [x]).out =
      Output.mgmt tag.toNat ([0x7F, 0x00, 0x04, 0xE2, 0x1A] ++ beBytes 1 tag.toNat ++ [0x30, x]) :: d.out := rfl

@[simp] theorem Dev.mgmtOut_out (d : Dev) (tag : BitVec 5) (code : Nat) (body : List Byte) :
    (d.mgmtOut tag code body).out =
      .mgmt tag.toNat ([0x7F#8] ++ beBytes 4 0x0004E21A ++ beBytes 1 tag.toNat ++ beBytes 1 code ++ body) :: d.out := rfl

theorem Dev.moveTo_pwr (d : Dev) (t : Nat) : (d.moveTo t).pwr = { d.pwr with target := t, moving := some t } := by
  have hsettle : d.reclaimAll.flashSettle.pwr = d.pwr :=
    (show changesOnly [.hdr, .ctr, .tier, .eth, .fab, .out, .flash] d d.reclaimAll.flashSettle by simp) .pwr (by decide)
  have hdown (xs : List Nat) : (xs.foldl (fun (d : Dev) k => d.subDown k) d.reclaimAll.flashSettle).pwr = d.pwr :=
    (foldl_keeps (g := Dev.pwr) (fun b k => changesOnly_of_peel (Dev.subDown_only b k) .pwr (by decide)) xs _).trans hsettle
  unfold Dev.moveTo
  dsimp only [Dev.updPwr]
  split
  · rw [hdown]
  · rfl

/-! What POWER comes to, in the order of its checks (R627). -/

section
variable {d : Dev} (haux : d.boot.aux = true) (tag : BitVec 5) {t : Nat}

theorem power_of_no_aux (haux : d.boot.aux = false) : power tag t d = d := by
  rw [power, Dev.mgmtReq, haux]
  rfl

include haux

theorem power_of_busy (hbusy : d.boot.mgmtBusy = true) :
    power tag t d = ((d.cnt .pf pMgmt 0 1).mgmtOut tag 0x30 [13#8]).cnt .pf pMgmt 3 1 := by
  rw [power, Dev.mgmtReq, haux]
  simp only [Bool.not_true, Bool.false_eq_true, if_false, Dev.cnt_boot, hbusy, if_true]

variable (hbusy : d.boot.mgmtBusy = false)
include hbusy

theorem power_of_no_target (ht : 3 < t) :
    power tag t d = ((d.cnt .pf pMgmt 0 1).mgmtOut tag 0x30 [0xFF#8]).cnt .pf pMgmt 2 1 := by
  rw [power, Dev.mgmtReq_of_free haux hbusy]
  exact if_pos ht

variable (ht : t ≤ 3)
include ht

theorem power_of_moving (hm : d.pwr.moving.isSome = true) :
    power tag t d = (d.cnt .pf pMgmt 0 1).mgmtOut tag 0x30 [13#8] := by
  rw [power, Dev.mgmtReq_of_free haux hbusy]
  simp only [Nat.not_lt.2 ht, if_false, Dev.cnt_pwr, hm, if_true]

variable (hm : d.pwr.moving = none)
include hm

theorem power_of_in_force (hst : d.pwr.state = t) :
    power tag t d = (d.cnt .pf pMgmt 0 1).mgmtOut tag 0x30 [0#8] := by
  rw [power, Dev.mgmtReq_of_free haux hbusy]
  simp only [Nat.not_lt.2 ht, if_false, Dev.cnt_pwr, hm, hst, if_true, Option.isSome_none, Bool.false_eq_true]

/-- The device that owes a response to POWER. -/
def Dev.owePower (d : Dev) (tag : BitVec 5) : Dev :=
  { d with boot := { d.boot with mgmtBusy := true }, pwr := { d.pwr with mgmtTag := some tag } }

theorem power_of_dormant (hst : d.pwr.state = 3) (hne : t ≠ 3) :
    power tag t d = ((d.cnt .pf pMgmt 0 1).wakeUp.updPwr fun p => { p with target := t }).owePower tag := by
  rw [power, Dev.mgmtReq_of_free haux hbusy]
  simp only [Nat.not_lt.2 ht, if_false, Dev.cnt_pwr, hm, hst, if_true, Option.isSome_none, Bool.false_eq_true, hne.symm]
  rfl

variable (hdorm : d.pwr.state ≠ 3) (hst : d.pwr.state ≠ t)
include hdorm hst

theorem power_of_starting (hstep : d.boot.step ≠ 8) :
    power tag t d = (d.cnt .pf pMgmt 0 1).mgmtOut tag 0x30 [13#8] := by
  rw [power, Dev.mgmtReq_of_free haux hbusy]
  simp only [Nat.not_lt.2 ht, if_false, Dev.cnt_pwr, Dev.cnt_boot, hm, hst, hdorm, hstep, Option.isSome_none,
    Bool.false_eq_true, ne_eq, not_false_eq_true, if_true]

variable (hstep : d.boot.step = 8)
include hstep

theorem power_of_refused (h2 : 2 ≤ t) (hr : (d.cnt .pf pMgmt 0 1).ladderRefuses = true) :
    power tag t d = ((d.cnt .pf pMgmt 0 1).err .pf pPwrc 0x0101).mgmtOut tag 0x30 [9#8] := by
  rw [power, Dev.mgmtReq_of_free haux hbusy]
  simp only [Nat.not_lt.2 ht, if_false, Dev.cnt_pwr, Dev.cnt_boot, hm, hst, hdorm, hstep, Option.isSome_none,
    Bool.false_eq_true, ne_eq, not_true_eq_false, h2, hr, and_self, if_true]

theorem power_of_granted (h : t < 2 ∨ (d.cnt .pf pMgmt 0 1).ladderRefuses = false) :
    power tag t d = ((d.cnt .pf pMgmt 0 1).moveTo t).owePower tag := by
  have hgrant : ¬(2 ≤ t ∧ (d.cnt .pf pMgmt 0 1).ladderRefuses = true) := by
    rcases h with h | h
    · omega
    · simp [h]
  rw [power, Dev.mgmtReq_of_free haux hbusy]
  simp only [Nat.not_lt.2 ht, if_false, Dev.cnt_pwr, Dev.cnt_boot, hm, hst, hdorm, hstep, Option.isSome_none,
    Bool.false_eq_true, ne_eq, not_true_eq_false, hgrant]
  rfl

end

/-- An effect whose output is a response to POWER and what stood before answers so, whatever the summary adds. -/
theorem completes_power_of_answered {s : State} {tag : BitVec 5} {target x : Byte} {d : Dev}
    (h : power tag target.toNat s.dev = d) (hout : d.out = (s.dev.mgmtOut tag 0x30 [x]).out) (hpwr : d.pwr = s.dev.pwr) :
    completes (.power tag target) s (powerAnswered tag x s.dev) := by
  obtain ⟨pre, hpre⟩ := d.finish_out_suffix
  refine completes_of_onDev (exec_power s tag target) ?_
  rw [h]
  exact ⟨⟨pre, by rw [← hpre, hout, Dev.mgmtOut_power_out]⟩, by rw [Dev.finish_pwr, hpwr]⟩

theorem completes_power_of_dormant {s : State} (haux : s.dev.boot.aux = true) (hbusy : s.dev.boot.mgmtBusy = false)
    (tag : BitVec 5) {target : Byte} (ht : target.toNat ≤ 3) (hm : s.dev.pwr.moving = none) (hst : s.dev.pwr.state = 3)
    (hne : target.toNat ≠ 3) :
    completes (.power tag target) s fun d =>
      powerWaits tag target.toNat d ∧ d.boot.step = 1 ∧ d.boot.rcause = 4 := by
  refine completes_of_onDev (exec_power s tag target) ?_
  rw [power_of_dormant haux tag hbusy ht hm hst hne, powerWaits, Dev.finish_boot, Dev.finish_pwr]
  exact ⟨⟨rfl, rfl, rfl⟩, rfl, rfl⟩

theorem completes_power_of_granted {s : State} (haux : s.dev.boot.aux = true) (hbusy : s.dev.boot.mgmtBusy = false)
    (tag : BitVec 5) {target : Byte} (ht : target.toNat ≤ 3) (hm : s.dev.pwr.moving = none) (hdorm : s.dev.pwr.state ≠ 3)
    (hst : s.dev.pwr.state ≠ target.toNat) (hstep : s.dev.boot.step = 8)
    (h : target.toNat < 2 ∨ (s.dev.cnt .pf pMgmt 0 1).ladderRefuses = false) :
    completes (.power tag target) s fun d =>
      powerWaits tag target.toNat d ∧ d.pwr.moving = some target.toNat ∧ d.pwr.state = s.dev.pwr.state := by
  refine completes_of_onDev (exec_power s tag target) ?_
  rw [power_of_granted haux tag hbusy ht hm hdorm hst hstep h, powerWaits, Dev.finish_boot, Dev.finish_pwr, Dev.owePower,
    Dev.moveTo_pwr]
  exact ⟨⟨rfl, rfl, rfl⟩, rfl, rfl⟩

/-! ### The link, vectors, ATS -/

theorem retrain_of_held {d : Dev} (h : d.boot.step < 3 ∨ d.boot.perst = true) (rate : Nat) (flit : Bool) (width : Nat) :
    retrain rate flit width d = d := if_pos h

theorem retrain_of_ready {d : Dev} (hstep : 3 ≤ d.boot.step) (hperst : d.boot.perst = false) (rate : Nat) (flit : Bool)
    (width : Nat) :
    retrain rate flit width d =
      (d.updBoot fun b => { b with linkUp := true, rate := rate, flit := flit, width := width }).cnt .pf pPcie 6 1 :=
  if_neg (by rw [hperst]; simpa using hstep)

section
variable {d : Dev} (fn : View) (vec : Nat)

/-- The device with a vector of a function unmasked. -/
def Dev.unmasked (d : Dev) (fn : View) (vec : Nat) : Dev :=
  { d with irq := { d.irq with unmasked := d.irq.unmasked.add (fn.key * 2048 + vec % fn.vectors) } }

theorem unmask_of_pending (hpba : d.irq.pba.contains (fn.key * 2048 + vec % fn.vectors) = true)
    (hbme : d.irq.bme.contains fn.key = true) :
    unmask fn vec d = Dev.msix
      { d.unmasked fn vec with irq :=
        { (d.unmasked fn vec).irq with pba := d.irq.pba.del (fn.key * 2048 + vec % fn.vectors) } } fn vec :=
  if_pos (by rw [hpba, hbme]; rfl)

theorem unmask_of_quiet (h : d.irq.pba.contains (fn.key * 2048 + vec % fn.vectors) = false ∨
    d.irq.bme.contains fn.key = false) : unmask fn vec d = d.unmasked fn vec :=
  if_neg (by rcases h with h | h <;> simp only [h, Bool.false_and, Bool.and_false] <;> decide)

end

/-- Settles O52: POWER by the order of its checks; the other five events, an equation each. -/
theorem linkCommands : Obligations.LinkCommands := by
  refine ⟨fun tag target s => ⟨fun haux => ?noAux, fun haux => ⟨fun hbusy => ?busy, fun hbusy => ⟨fun ht => ?noTarget,
      fun ht hm => ?moving, fun ht hm => ⟨fun hst => ?inForce, ?dormant, fun hdorm hst =>
        ⟨fun hstep => ?starting, fun hstep h2 hr => ?refused, ?granted⟩⟩⟩⟩⟩,
    fun s => ⟨fun level => ?provN, ?linkDown, fun rate flit width => ⟨fun h => ?held, fun hstep hperst => ?ready⟩,
      fun fn vec => ⟨fun hpba hbme => ?pending, fun h => ?quiet⟩, fun fn a n => ?ats⟩⟩
  case noAux => exact becomes_of_onDev (exec_power s tag target) (power_of_no_aux tag haux)
  case busy => exact completes_power_of_answered (power_of_busy haux tag hbusy) (by simp) (by simp)
  case noTarget => exact completes_power_of_answered (power_of_no_target haux tag hbusy ht) (by simp) (by simp)
  case moving => exact completes_power_of_answered (power_of_moving haux tag hbusy ht hm) (by simp) (by simp)
  case inForce => exact completes_power_of_answered (power_of_in_force haux tag hbusy ht hm hst) (by simp) (by simp)
  case dormant => exact completes_power_of_dormant haux hbusy tag ht hm
  case starting => exact completes_power_of_answered (power_of_starting haux tag hbusy ht hm hdorm hst hstep) (by simp) (by simp)
  case refused => exact completes_power_of_answered (power_of_refused haux tag hbusy ht hm hdorm hst hstep h2 hr) (by simp) (by simp)
  case granted => exact completes_power_of_granted haux hbusy tag ht hm hdorm hst
  case provN => exact becomes_of_onDev (exec_provNChange s level) rfl
  case linkDown => exact becomes_of_onDev (exec_pcieLinkDown s) rfl
  case held => exact becomes_of_onDev (exec_pcieLinkRetrain s rate flit width) (retrain_of_held h _ _ _)
  case ready =>
    refine completes_of_onDev (exec_pcieLinkRetrain s rate flit width) ?_
    rw [retrain_of_ready hstep hperst, Dev.finish_boot]
    rfl
  case pending => exact becomes_of_onDev (exec_msixVectorUnmask s fn vec) (unmask_of_pending fn vec.val hpba hbme)
  case quiet => exact becomes_of_onDev (exec_msixVectorUnmask s fn vec) (unmask_of_quiet fn vec.val h)
  case ats => exact becomes_of_onDev (exec_atsInvalidateRequest s fn a n) rfl

end Sys2Proof.Machine
end

section
/-!
SUPPORT. The head entry of a command ring (R550, R553): an entry whose reserved bits and unused bytes are zero runs its
command, any other is answered 0x41 (R559); with the refutation of O51, whose clauses on ring commands are stated for every
entry.
-/

namespace Sys2Proof.Machine

open Sys2Proof.Safety

/-! ### The head entry by whether its reserved bits are zero -/

section
variable {d : Dev} {n i mask : Nat} {starts : Bool} (h : ringTakes d n i mask starts) {e : Entry} (run : Nat → Dev → Dev)
include h

theorem not_held_of_ringTakes : ¬((!d.ringReady n i || (starts && d.halt.effect) || d.clustersBusy n i mask) = true) := by
  obtain ⟨hready, hrun, halone⟩ := h
  simp only [hready, halone, Bool.not_true, Bool.false_or, Bool.or_false, Bool.and_eq_true]
  rintro ⟨hs, heff⟩
  exact absurd heff (by rw [hrun hs]; decide)

theorem ringCmd_of_clean (he : e.clean = true) :
    ringCmd n i e mask starts run d = run (headNext d n i) (headRead d n i) := by
  rw [ringCmd, ringTry, if_neg (not_held_of_ringTakes h), he]
  rfl

theorem ringCmd_of_unclean (he : e.clean = false) :
    ringCmd n i e mask starts run d = (headRead d n i).complete n i e (headNext d n i) 0x41 0 := by
  rw [ringCmd, ringTry, if_neg (not_held_of_ringTakes h), he]
  rfl

end

/-! ### STATUS (R696) -/

theorem exec_status (e : Entry) (s : State) : exec (.status e) s = onDev (status e) s := rfl

section
variable {s : State} (h : ringTakes s.dev 16 0 0 false) {e : Entry}
include h

/-- STATUS of a well-formed entry completes with status 0 and DEVC_BOOT[15:0]. -/
theorem becomes_status_of_clean (he : e.clean = true) :
    becomes (.status e) s ((headRead s.dev 16 0).complete 16 0 e (headNext s.dev 16 0) 0 (s.dev.bootWord % 65536)) := by
  refine becomes_of_onDev (exec_status e s) ?_
  rw [status, ringCmd_of_clean h _ he]
  rfl

/-- STATUS of an entry with a reserved bit set is answered 0x41 (R553, R559). -/
theorem becomes_status_of_unclean (he : e.clean = false) :
    becomes (.status e) s ((headRead s.dev 16 0).complete 16 0 e (headNext s.dev 16 0) 0x41 0) :=
  becomes_of_onDev (exec_status e s) (ringCmd_of_unclean h _ he)

end

/-! ### The obligation -/

/-- The operator's ring runs, its submission ring is enabled, and one entry waits in it. -/
def operatorEntry : State :=
  { pending := []
    dev := { ((Dev.reset.setPst (ringPage 16) ⟨.running, true, false⟩).setReg (ringPage 16) 0x088 0x104) with
             rings := [(16, { Ring.reset with tails := [(0, 1)] })] } }

theorem operatorEntry_ringTakes : ringTakes operatorEntry.dev 16 0 0 false :=
  ⟨by decide +kernel, nofun, by decide +kernel⟩

/-- A STATUS entry with a reserved bit set. -/
def reservedBitSet : Entry := ⟨0, false, false⟩

/-- The completion that waits carries the status. -/
theorem operatorEntry_status_rings :
    ((headRead operatorEntry.dev 16 0).complete 16 0 reservedBitSet (headNext operatorEntry.dev 16 0) 0x41 0).rings ≠
      ((headRead operatorEntry.dev 16 0).complete 16 0 reservedBitSet (headNext operatorEntry.dev 16 0) 0
        (operatorEntry.dev.bootWord % 65536)).rings := by decide +kernel

/-- Refutes O51: its clauses on the operator's ring are stated for every entry, and an entry with a reserved bit set is
answered 0x41 (R553, R559), where the clause on STATUS says 0. For an entry whose reserved bits are zero that clause holds
(becomes_status_of_clean). -/
theorem not_startCommands : ¬ Obligations.StartCommands := by
  unfold Obligations.StartCommands
  rintro ⟨-, -, -, hring⟩
  obtain ⟨hstatus, -⟩ := hring reservedBitSet 0 0 0 [] false false operatorEntry operatorEntry_ringTakes
  have heq := (becomes_status_of_unclean operatorEntry_ringTakes (e := reservedBitSet) rfl).symm.trans hstatus
  injection heq with heq
  have hrings := congrArg (fun s : State => s.dev.rings) heq
  simp only [Dev.finish_rings] at hrings
  exact operatorEntry_status_rings hrings

end Sys2Proof.Machine
end

section
/-!
SUPPORT. Heads that run and operations that complete: what a core reads after an update of one, what a head that runs comes to
(R210, R239), a transfer whose islands are awake (R608), and what the end of an operation leaves of cores and signals (R58, R397,
R406).
-/

namespace Sys2Proof.Machine

open Sys2Proof.Safety

/-! ### Cores after an update -/

@[simp] theorem Dev.core_updCore (d : Dev) (i : Nat) (f : Core → Core) : (d.updCore i f).core i = f (d.core i) :=
  SMap.get_put _ _ _ _

/-- What an update keeps of a core, it keeps of every core. -/
theorem Dev.core_updCore_keeps {β : Type} {g : Core → β} {f : Core → Core} (h : ∀ c, g (f c) = g c) (d : Dev) (i j : Nat) :
    g ((d.updCore j f).core i) = g (d.core i) := by
  by_cases hij : i = j
  · rw [hij, Dev.core_updCore, h]
  · exact congrArg g (SMap.get_put_ne _ _ _ _ _ _ hij)

theorem Dev.core_of_cores_eq {a b : Dev} (h : b.cores = a.cores) (i : Nat) : b.core i = a.core i := by
  rw [Dev.core, h, ← Dev.core]

@[simp] theorem Dev.core_finish (d : Dev) (i : Nat) : d.finish.core i = d.core i :=
  Dev.core_of_cores_eq (Dev.finish_cores d) i

@[simp] theorem Dev.core_cntP (d : Dev) (p : Page) (n k : Nat) (part : Option Nat) (i : Nat) :
    (d.cntP p n k part).core i = d.core i := Dev.core_of_cores_eq (Dev.cntP_cores d p n k part) i

@[simp] theorem Dev.core_updNw (d : Dev) (c : Nat) (f : Nwch → Nwch) (i : Nat) : (d.updNw c f).core i = d.core i := rfl

@[simp] theorem Dev.core_sendReport (d : Dev) (c : Nat) (r : Report) (i : Nat) : (d.sendReport c r).core i = d.core i := rfl

@[simp] theorem Core.eng_setEng (c : Core) (q : Nat) (e : Engine) : (c.setEng q e).eng q = e := by
  unfold Core.eng Core.setEng
  split
  · rfl
  · split
    · rfl
    · split <;> rfl

/-! ### A head that runs -/

theorem headOf_of_headRuns {d : Dev} {c : CoreId} {q part : Nat} {x : Desc} {rest : List Desc} (h : headRuns d c q part x rest) :
    headOf (d.instOf c) part q d = (.go x, d) := by
  obtain ⟨⟨-, hqueue, hstopped, hended, hmay, hfree, hchecked, hwaits, hissue⟩, hpred⟩ := h
  have hgo : (((d.core (d.instOf c)).eng q).go || !d.predSkips (d.instOf c) x) = true := by
    rcases hpred with hgo | hskip
    · rw [hgo, Bool.true_or]
    · rw [hskip, Bool.not_false, Bool.or_true]
  unfold headOf
  simp only [hqueue, hstopped, hended, hmay, hfree, hchecked, hwaits, hissue, hgo, Bool.not_true, Bool.or_self, ne_eq,
    not_true_eq_false, if_true, if_false, Bool.false_eq_true]

theorem atHead_of_headRuns {d : Dev} {c : CoreId} {q part : Nat} {x : Desc} {rest : List Desc} (h : headRuns d c q part x rest)
    {ops : Nat → Bool} (hop : ops (dOp x) = true) (run : Nat → Nat → Desc → Dev → Dev) :
    atHead c q ops run d = run (d.instOf c) part x d := by
  have howner : d.clusterOwner c.cluster.val = some part := h.1.owner
  unfold atHead
  simp only [howner, headOf_of_headRuns h, hop, if_true]

theorem Dev.popHead_core (d : Dev) (inst part q : Nat) (x : Desc) :
    (d.popHead inst part q x).core inst =
      (d.core inst).setEng q
        { (d.core inst).eng q with queue := ((d.core inst).eng q).queue.tail, go := false } := by
  have hcores : (d.popHead inst part q x).cores =
      (d.updEng inst q fun e => { e with queue := e.queue.tail, go := false }).cores := by
    unfold Dev.popHead
    dsimp only
    (repeat' split) <;> simp [Dev.freeNat]
  rw [Dev.core_of_cores_eq hcores, Dev.updEng, Dev.core_updCore]

/-! ### Transfers to islands that are awake (R608) -/

/-- Where no island that a transfer needs sleeps, none is woken. -/
theorem Dev.wakeKeys_of_awake {d : Dev} {ks : List Nat} (h : (d.wakeKeys ks).1 = true) : d.wakeKeys ks = (true, d) := by
  unfold Dev.wakeKeys at h ⊢
  dsimp only at h ⊢
  rw [h, List.isEmpty_iff.1 h, List.foldl_nil]

/-! ### The end of an operation (R58, R397, R406) -/

theorem Dev.land_changesOnly (d : Dev) (ws : List MemWr) : changesOnly [.ctr, .mem, .poison, .cores] d (d.land ws) := by simp

/-- What Dev.opEnds does before it signals: counters, spill buffers, the report or the wait for conversion, samples. -/
def Dev.opNoted (d : Dev) (inst part q : Nat) (f : Flight) (page : Page) (conv : Nat) : Dev :=
  let d := f.counts.foldl (fun (d : Dev) (k : Nat × Nat) => d.cntP page k.1 k.2 (some part)) d
  let d := match f.ringIn with
    | some t => d.cntP (pCore t.1) 10 t.2 (some part)
    | none => d
  let d := f.filled.foldl (fun (d : Dev) (t : Nat × Nat) => d.updCore t.1 fun c => { c with emptySpill := c.emptySpill.del t.2 }) d
  let d := match f.await, f.report with
    | true, some r => d.updNw (inst / 17) fun n =>
        { n with awaits := n.awaits ++ [(⟨inst, q, f.desc, r.entry, f.tIn, false, 0, conv, conv = 0, f.use⟩ : Await)] }
    | _, _ => d
  let d := match f.report with
    | some r => d.sendReport (inst / 17) r
    | none => d
  (d.sampleSegs inst f.tileSegs).sampleBlocks inst f.blocks

theorem Dev.opEnds_eq (d : Dev) (inst part q : Nat) (f : Flight) (page : Page) (src conv : Nat) :
    d.opEnds inst part q f page src conv =
      if f.await then d.opNoted inst part q f page conv
      else (d.opNoted inst part q f page conv).signal (dSig f.desc) (partFin part) src := rfl

theorem Dev.opNoted_changesOnly (d : Dev) (inst part q : Nat) (f : Flight) (page : Page) (conv : Nat) :
    changesOnly [.hdr, .ctr, .cores, .nwch] d (d.opNoted inst part q f page conv) := by
  unfold Dev.opNoted
  dsimp only
  (repeat' split) <;> simp [changesOnly_foldl]

theorem Dev.opEnds_changesOnly (d : Dev) (inst part q : Nat) (f : Flight) (page : Page) (src conv : Nat) :
    changesOnly [.hdr, .ctr, .cores, .sigs, .nwch] d (d.opEnds inst part q f page src conv) := by simp

/-- The signal of an operation that ends is sent unless the operation awaits conversion. -/
theorem Dev.opEnds_sigs (d : Dev) (inst part q : Nat) (f : Flight) (page : Page) (src conv : Nat) :
    (d.opEnds inst part q f page src conv).sigs =
      if f.await then d.sigs else d.sigs ++ sends (dSig f.desc) part src := by
  have hnoted : (d.opNoted inst part q f page conv).sigs = d.sigs := d.opNoted_changesOnly inst part q f page conv .sigs (by decide)
  rw [Dev.opEnds_eq]
  split
  · exact hnoted
  · unfold Dev.signal sends
    split
    · exact congrArg (· ++ _) hnoted
    · exact hnoted.trans (List.append_nil _).symm

/-- A core but for what the end of an operation changes in it: empty spill buffers, sample counters, the capture. -/
def Core.work (c : Core) : Core := { c with emptySpill := [], segCount := 0, blkCount := 0, capture := none }

theorem Dev.sampleSegs_work (d : Dev) (inst : Nat) (ts : List TileSeg) (i : Nat) :
    ((d.sampleSegs inst ts).core i).work = (d.core i).work := by
  unfold Dev.sampleSegs
  dsimp only
  split
  · rfl
  · refine foldl_keeps (g := fun b => (b.core i).work) (fun b t => ?_) _ _
    have hcount : ((b.updCore inst fun k => { k with segCount := k.segCount + 1 }).core i).work = (b.core i).work :=
      Dev.core_updCore_keeps (g := Core.work) (by intro; rfl) b i inst
    split
    · exact hcount
    · split
      · exact (congrArg Core.work (Dev.core_cntP _ _ _ _ _ i)).trans hcount
      · exact (Dev.core_updCore_keeps (g := Core.work) (by intro; rfl) _ i inst).trans hcount

theorem Dev.sampleBlocks_work (d : Dev) (inst : Nat) (bs : List (Nat × QBlock)) (i : Nat) :
    ((d.sampleBlocks inst bs).core i).work = (d.core i).work := by
  unfold Dev.sampleBlocks
  dsimp only
  split
  · rfl
  · refine foldl_keeps (g := fun b => (b.core i).work) (fun b t => ?_) _ _
    have hcount : ((b.updCore inst fun k => { k with blkCount := k.blkCount + 1 }).core i).work = (b.core i).work :=
      Dev.core_updCore_keeps (g := Core.work) (by intro; rfl) b i inst
    have hblock : ∀ (b : Dev) (c e : Nat) (x : QBlock), (b.qBlock c e x).cores = b.cores := fun b c e x =>
      (show changesOnly [.hdr, .ctr, .nwch] b (b.qBlock c e x) by simp) .cores (by decide)
    split
    · exact hcount
    · exact (congrArg Core.work (Dev.core_of_cores_eq (hblock _ _ _ _) i)).trans hcount

theorem Dev.opNoted_work (d : Dev) (inst part q : Nat) (f : Flight) (page : Page) (conv i : Nat) :
    ((d.opNoted inst part q f page conv).core i).work = (d.core i).work := by
  have hcounts : ∀ b : Dev,
      ((f.counts.foldl (fun (d : Dev) (k : Nat × Nat) => d.cntP page k.1 k.2 (some part)) b).core i).work = (b.core i).work :=
    foldl_keeps (g := fun b => (b.core i).work) (fun b k => congrArg Core.work (Dev.core_cntP b _ _ _ _ i)) f.counts
  have hfilled : ∀ b : Dev,
      ((f.filled.foldl (fun (d : Dev) (t : Nat × Nat) =>
        d.updCore t.1 fun c => { c with emptySpill := c.emptySpill.del t.2 }) b).core i).work = (b.core i).work :=
    foldl_keeps (g := fun b => (b.core i).work)
      (fun b t => Dev.core_updCore_keeps (g := Core.work) (by intro; rfl) b i t.1) f.filled
  unfold Dev.opNoted
  dsimp only
  rw [Dev.sampleBlocks_work, Dev.sampleSegs_work]
  (repeat' split) <;> simp only [Dev.core_sendReport, Dev.core_updNw, Dev.core_cntP, hfilled, hcounts]

/-- The end of an operation leaves the engines' queues, plans and operations in flight as they are. -/
theorem Dev.opEnds_work (d : Dev) (inst part q : Nat) (f : Flight) (page : Page) (src conv i : Nat) :
    ((d.opEnds inst part q f page src conv).core i).work = (d.core i).work := by
  rw [Dev.opEnds_eq]
  split
  · exact d.opNoted_work inst part q f page conv i
  · rw [Dev.core_of_cores_eq (Dev.signal_cores _ _ _ _)]
    exact d.opNoted_work inst part q f page conv i

end Sys2Proof.Machine
end

section
/-!
SUPPORT. MATMUL (R182, R189, R190, R617) and its completion (R58): what the first look, the grant and the last acknowledged
write come to.
-/

namespace Sys2Proof.Machine

open Sys2Proof.Safety

/-! ### MATMUL at the head of the array engine -/

/-- The device after an issuing MATMUL has read its operands: its overhead is drawn, poison that it read is recorded. -/
def Dev.matRead (d : Dev) (inst part : Nat) (x : Desc) : Dev :=
  let q := Mm.of x
  let d := { d with free := d.free + 1 }
  let spill := if dResume x && !(d.core inst).emptySpill.contains q.svBase then [q.svSpan] else []
  d.readBad (pCore inst) part (d.firstBad inst (mmReads (d.sram inst) q ++ spill))

theorem Dev.matRead_changesOnly (d : Dev) (inst part : Nat) (x : Desc) :
    changesOnly [.hdr, .ctr, .errm, .free] d (d.matRead inst part x) := by
  simp [Dev.matRead]

/-- The plan that the first look at a MATMUL fixes: its ratio and the charge to be granted (R190, R617). -/
def Dev.matPlan (d : Dev) (inst : Nat) (x : Desc) : Plan :=
  let h := shapeOf (Mm.of x) (recOf (d.sram inst) (Mm.of x)) (d.dataPort inst)
  ⟨arrCharge h.num h.den (d.isle inst).eff, false, h.num, h.den⟩

theorem runMatmul_of_no_plan {d : Dev} {i : Nat} (part : Nat) (x : Desc) (h : (d.core i).arrPlan = none) :
    runMatmul i part x d = (d.hold i 1).updCore i fun c => { c with arrPlan := some (d.matPlan i x) } := by
  unfold runMatmul
  dsimp only
  rw [h]
  rfl

theorem runMatmul_of_granted {d : Dev} {i : Nat} (part : Nat) (x : Desc) {p : Plan} (h : (d.core i).arrPlan = some p)
    (hg : p.granted = true) :
    runMatmul i part x d = ((d.matRead i part x).popHead i part 1 x).updCore i fun c =>
      { c with
        arrPlan := none
        arr := c.arr ++ [{ d with free := d.free + 1 }.matFlight i x p.charge (Config.freeNat d.free 33 % 9)]
        gang := (Mm.of x).gang
        ratio := 32768 * p.den / p.num
        emptySpill := if dResume x then c.emptySpill.del (Mm.of x).svBase else c.emptySpill } := by
  unfold runMatmul
  dsimp only
  rw [h]
  simp only [hg, Bool.not_true, Bool.false_eq_true, if_false]
  rfl

theorem matmulDone_of_awake {d : Dev} {c : CoreId} {part : Nat} {f : Flight} {fs : List Flight}
    (howner : d.corePart (d.instOf c) = some part) (harr : (d.core (d.instOf c)).arr = f :: fs)
    (hawake : (d.wakeKeys ((f.writes.map fun (w : MemWr) => w.key).filter fun k => keyIsle k != some (d.instOf c))).1 = true) :
    matmulDone c d =
      ((d.land f.writes).updCore (d.instOf c) fun k => { k with arr := fs, ratio := 0 }).opEnds (d.instOf c) part 1 f
        (pCore (d.instOf c)) (srcCore (d.instOf c) 1) 0 := by
  unfold matmulDone
  dsimp only
  rw [howner, harr]
  dsimp only
  rw [Dev.wakeKeys_of_awake hawake]
  rfl

/-! ### The commands -/

section
variable {id : CoreId} {s : State}

theorem exec_matmul : exec (.matmul id) s = onDev (atHead id 1 (· == 0x30) runMatmul) s := rfl
theorem exec_matmulDone : exec (.matmulDone id) s = onDev (matmulDone id) s := rfl

variable {part : Nat} {x : Desc} {rest : List Desc} (hop : dOp x = 0x30) (h : headRuns s.dev id 1 part x rest)
include hop h

/-- The first look at a MATMUL asks for its grant, and it stays at the head. -/
theorem completes_matmul_of_no_plan (hplan : (s.dev.core (s.dev.instOf id)).arrPlan = none) :
    completes (.matmul id) s fun d =>
      (∃ p, (d.core (s.dev.instOf id)).arrPlan = some p ∧ p.granted = false) ∧
      ((d.core (s.dev.instOf id)).eng 1).queue = x :: rest ∧ changesOnly [.cores, .irq, .out, .ctr] s.dev d := by
  refine completes_of_onDev exec_matmul ?_
  rw [atHead_of_headRuns h (by simp [hop]), runMatmul_of_no_plan part x hplan]
  refine ⟨⟨s.dev.matPlan (s.dev.instOf id) x, ?plan, rfl⟩, ?queue, ?frame⟩
  case plan => simp
  case queue =>
    rw [Dev.core_finish, Dev.core_updCore, Dev.hold, Dev.updEng, Dev.core_updCore]
    show (Core.eng (Core.setEng _ _ _) 1).queue = _
    rw [Core.eng_setEng]
    exact h.1.queue
  case frame => simp

/-- With its grant a MATMUL issues: its work is in flight, and memory is as it was. -/
theorem completes_matmul_of_granted {p : Plan} (hplan : (s.dev.core (s.dev.instOf id)).arrPlan = some p) (hg : p.granted = true) :
    completes (.matmul id) s fun d =>
      (d.core (s.dev.instOf id)).arr = (s.dev.core (s.dev.instOf id)).arr ++
        [{ s.dev with free := s.dev.free + 1 }.matFlight (s.dev.instOf id) x p.charge (Config.freeNat s.dev.free 33 % 9)] ∧
      ((d.core (s.dev.instOf id)).eng 1).queue = rest ∧ (d.core (s.dev.instOf id)).arrPlan = none ∧
      (d.core (s.dev.instOf id)).gang = (Mm.of x).gang ∧
      changesOnly [.cores, .ctr, .hdr, .errm, .free, .irq, .out] s.dev d := by
  refine completes_of_onDev exec_matmul ?_
  rw [atHead_of_headRuns h (by simp [hop]), runMatmul_of_granted part x hplan hg]
  have hread : (s.dev.matRead (s.dev.instOf id) part x).core (s.dev.instOf id) = s.dev.core (s.dev.instOf id) :=
    Dev.core_of_cores_eq (s.dev.matRead_changesOnly _ part x .cores (by decide)) _
  refine ⟨?arr, ?queue, ?plan, ?gang, ?frame⟩
  case arr => rw [Dev.core_finish, Dev.core_updCore, Dev.popHead_core, hread]; rfl
  case queue =>
    rw [Dev.core_finish, Dev.core_updCore, Dev.popHead_core, hread]
    show (Core.eng (Core.setEng _ _ _) 1).queue = _
    rw [Core.eng_setEng, h.1.queue]
    rfl
  case plan => simp
  case gang => simp
  case frame =>
    have hframe := s.dev.matRead_changesOnly (s.dev.instOf id) part x
    simp [hframe.mono]

end

/-- When the last write of a MATMUL is acknowledged its writes land, it leaves the engine, and it signals unless it awaits
conversion. -/
theorem completes_matmulDone {id : CoreId} {part : Nat} {s : State} {f : Flight} {fs : List Flight}
    (howner : s.dev.corePart (s.dev.instOf id) = some part) (harr : (s.dev.core (s.dev.instOf id)).arr = f :: fs)
    (hawake : (s.dev.wakeKeys
      ((f.writes.map fun (w : MemWr) => w.key).filter fun k => keyIsle k != some (s.dev.instOf id))).1 = true) :
    completes (.matmulDone id) s fun d =>
      d.mem = (s.dev.land f.writes).mem ∧ (d.core (s.dev.instOf id)).arr = fs ∧
      (d.sigs = if f.await then s.dev.sigs else s.dev.sigs ++ sends (dSig f.desc) part (srcCore (s.dev.instOf id) 1)) ∧
      changesOnly [.mem, .poison, .cores, .sigs, .nwch, .hdr, .ctr, .irq, .out] s.dev d := by
  refine completes_of_onDev exec_matmulDone ?_
  rw [matmulDone_of_awake howner harr hawake]
  refine ⟨?mem, ?arr, ?sigs, ?frame⟩
  case mem =>
    rw [Dev.finish_mem]
    exact Dev.opEnds_changesOnly _ _ _ _ _ _ _ _ .mem (by decide)
  case arr =>
    rw [Dev.core_finish]
    refine (congrArg Core.arr (Dev.opEnds_work _ _ _ _ _ _ _ _ _)).trans ?_
    rw [Dev.core_updCore]
    rfl
  case sigs =>
    have hland : (s.dev.land f.writes).sigs = s.dev.sigs := s.dev.land_changesOnly f.writes .sigs (by decide)
    rw [Dev.finish_sigs, Dev.opEnds_sigs, Dev.updCore_sigs, hland]
  case frame => simp

/-- Settles O20: the first look, the grant, and the last acknowledged write. -/
theorem matmulIssuesAndCompletes : Obligations.MatmulIssuesAndCompletes := by
  unfold Obligations.MatmulIssuesAndCompletes
  intro id part s
  refine ⟨fun x rest hop h => ⟨completes_matmul_of_no_plan hop h, fun p => completes_matmul_of_granted hop h⟩,
    fun f fs howner harr hawake => ?_⟩
  refine completes_mono (completes_matmulDone howner harr hawake) ?_
  rintro d ⟨hmem, harr', hsigs, hframe⟩
  exact ⟨hmem, harr', fun ha => by rw [hsigs, ha]; rfl, fun ha => by rw [hsigs, ha]; rfl, hframe⟩

end Sys2Proof.Machine
end

section
/-!
SUPPORT. The matrix-vector units (R225, R229, R230, R257, R617): what MATVEC comes to for a head that the unit refuses, for one
without a plan and for one with its grant, and what MATVEC_DONE leaves.
-/

namespace Sys2Proof.Machine

open Sys2Proof.Safety

/-! ### Headers after a block's own error and event (R90, R91) -/

/-- A header that has recorded an error keeps its code. -/
theorem Hdr.err_errCode_of_recorded {h : Hdr} (hc : h.errCode ≠ 0) (code : BitVec 16) (part : Byte) :
    (h.err code part).errCode = h.errCode := by
  rw [Hdr.err_of_recorded hc]

/-- The first error of a block's own operation is the one that the PF view records. -/
theorem Dev.errP_errCode {d : Dev} {p : Page} {code : Nat} (hcode : BitVec.ofNat 16 code ≠ 0)
    (h : (d.hdrOf .pf p).errCode = 0) (part : Option Nat) : ((d.errP p code part).hdrOf .pf p).errCode = BitVec.ofNat 16 code := by
  have hpf : ∀ b : Byte, ((d.updHdr .pf p fun h => h.err (BitVec.ofNat 16 code) b).hdrOf .pf p).errCode = BitVec.ofNat 16 code := by
    intro b
    rw [Dev.hdrOf_updHdr, Hdr.err_of_clear h]
  cases part with
  | none => exact hpf _
  | some n =>
    unfold Dev.errP
    dsimp only
    by_cases hv : View.pf = viewOf n
    · rw [← hv, Dev.hdrOf_updHdr, Hdr.err_errCode_of_recorded (by rw [hpf]; exact hcode), hpf]
    · rw [Dev.hdrOf_updHdr_ne _ hv, hpf]

/-- An event that a block raises stands in the PF view. -/
theorem Dev.evtP_sets {m i : Nat} (hm : (BitVec.ofNat 32 m).getLsbD i = true) (d : Dev) (p : Page) (part : Option Nat) :
    ((d.evtP p m part).hdrOf .pf p).evt.getLsbD i = true := by
  have hpf : ((d.evt .pf p m).hdrOf .pf p).evt.getLsbD i = true := by
    rw [Dev.evt, Dev.hdrOf_updHdr, BitVec.getLsbD_or, hm, Bool.or_true]
  cases part with
  | none => exact hpf
  | some n =>
    exact Dev.evt_keeps (P := fun h => h.evt.getLsbD i = true)
      (fun h hi => by rw [BitVec.getLsbD_or, hi, Bool.true_or]) hpf (viewOf n)

@[simp] theorem Dev.hdrOf_cntP (d : Dev) (q : Page) (n k : Nat) (part : Option Nat) (v : View) (p : Page) :
    (d.cntP q n k part).hdrOf v p = d.hdrOf v p := by
  rw [Dev.hdrOf, Dev.cntP_pg_hdr, ← Dev.hdrOf]

@[simp] theorem Dev.mvec_updMvec (d : Dev) (m : Nat) (f : Mvec → Mvec) :
    (d.updMvec m f).mvec.get .reset m = f (d.mvec.get .reset m) := SMap.get_upd _ _ _ _

/-! ### MATVEC and MATVEC_DONE -/

/-- The device after unit m has read the operands of the MATVEC that it begins: the free value of its starved cycles is drawn,
poison that it read is recorded. -/
def Dev.mvRead (d : Dev) (m inst part : Nat) (x : Desc) : Dev :=
  let q := Mx.of x
  let d := { d with free := d.free + 1 }
  let first := match d.firstBad inst [Region.span ⟨q.xBase, q.v, q.k, 1⟩] with
    | some a => some a
    | none => (List.range (Nat.min 64 q.n)).findSome? fun n => d.firstBad (d.mvInst m n) [(q.weights n).span]
  d.readBad (pMvec m) part first

theorem Dev.mvRead_changesOnly (d : Dev) (m inst part : Nat) (x : Desc) :
    changesOnly [.hdr, .ctr, .errm, .free] d (d.mvRead m inst part x) := by
  simp [Dev.mvRead]

section
variable {d : Dev} {m part : Nat} (howner : d.mvecOwner m = some part)
include howner

section
variable {i : Nat} {x : Desc} {rest : List (Nat × Desc)} (hqueue : (d.mvec.get .reset m).queue = (i, x) :: rest)
  (hcur : (d.mvec.get .reset m).cur = none) (hrun : d.bst (pMvec m) = .running) (hhalt : d.halt.effect = false)
include hqueue hcur hrun hhalt

theorem matvec_of_refused (hx : mvRefuses x = true) :
    matvec m d = (((d.updMvec m fun u => { u with queue := rest, plan := none }).errP (pMvec m) 0x0101 (some part)).cntP
      (pMvec m) 2 1 (some part)).evtP (pMvec m) 1 (some part) := by
  unfold matvec
  dsimp only
  rw [howner, hqueue, hcur]
  simp only [hrun, hhalt, hx, ne_eq, not_true_eq_false, Bool.false_eq_true, or_self, if_true, if_false]

theorem matvec_of_no_plan (hx : mvRefuses x = false) (hplan : (d.mvec.get .reset m).plan = none) :
    matvec m d = d.updMvec m fun u => { u with plan := some ⟨6000000, false, 1, 1⟩ } := by
  unfold matvec
  dsimp only
  rw [howner, hqueue, hcur, hplan]
  simp only [hrun, hhalt, hx, ne_eq, not_true_eq_false, Bool.false_eq_true, or_self, if_false]

theorem matvec_of_granted (hx : mvRefuses x = false) {p : Plan} (hplan : (d.mvec.get .reset m).plan = some p)
    (hg : p.granted = true) (hawake : (d.wakeKeys (d.mvKeys m)).1 = true) :
    matvec m d = (d.mvRead m i part x).updMvec m fun u =>
      { u with
        queue := rest
        plan := none
        cur := some (i, Dev.mvFlight { d with free := d.free + 1 } m i (Config.freeNat d.free 50) x)
        rowsLeft := (Mx.of x).n } := by
  unfold matvec
  dsimp only
  rw [howner, hqueue, hcur, hplan, Dev.wakeKeys_of_awake hawake]
  simp only [hrun, hhalt, hx, hg, ne_eq, not_true_eq_false, Bool.not_true, Bool.false_eq_true, or_self, if_false]
  rfl

end

theorem matvecDone_of_cur {i : Nat} {f : Flight} (hcur : (d.mvec.get .reset m).cur = some (i, f)) :
    matvecDone m d = ((d.land f.writes).updMvec m fun u => { u with cur := none, rowsLeft := 0 }).opEnds i part 4 f (pMvec m)
      (srcEng 3 m 0) f.charge := by
  unfold matvecDone
  rw [howner, hcur]

end

/-! ### The commands -/

section
variable {m : Fin 4} {s : State}

theorem exec_matvec : exec (.matvec m) s = onDev (matvec m.val) s := rfl
theorem exec_matvecDone : exec (.matvecDone m) s = onDev (matvecDone m.val) s := rfl

variable {part : Nat} (howner : s.dev.mvecOwner m.val = some part)
include howner

section
variable {i : Nat} {x : Desc} {rest : List (Nat × Desc)} (hqueue : (s.dev.mvec.get .reset m.val).queue = (i, x) :: rest)
  (hcur : (s.dev.mvec.get .reset m.val).cur = none) (hrun : s.dev.bst (pMvec m.val) = .running)
  (hhalt : s.dev.halt.effect = false)
include hqueue hcur hrun hhalt

/-- A head that R230 refuses leaves the queue and is counted with code 0x0101; nothing is signalled. -/
theorem completes_matvec_of_refused (hx : mvRefuses x = true) :
    completes (.matvec m) s fun d =>
      d.mvec.get .reset m.val = { s.dev.mvec.get .reset m.val with queue := rest, plan := none } ∧ d.sigs = s.dev.sigs ∧
      (d.hdrOf .pf (pMvec m.val)).evt.getLsbD 0 = true ∧
      ((s.dev.hdrOf .pf (pMvec m.val)).errCode = 0 → (d.hdrOf .pf (pMvec m.val)).errCode = 0x0101#16) ∧
      changesOnly [.mvec, .hdr, .ctr, .irq, .out] s.dev d := by
  refine completes_of_onDev exec_matvec ?_
  rw [matvec_of_refused howner hqueue hcur hrun hhalt hx]
  refine ⟨?unit, ?sigs, ?event, fun hclear => ?code, ?frame⟩
  case unit => simp
  case sigs => simp [Dev.updMvec]
  case event => rw [Dev.hdrOf_finish]; exact Dev.evtP_sets (by decide) _ _ _
  case code =>
    rw [Dev.hdrOf_finish]
    refine Dev.evtP_keeps (P := fun h => h.errCode = 0x0101#16) (fun _ h => h) ?_ _
    rw [Dev.hdrOf_cntP]
    exact Dev.errP_errCode (d := s.dev.updMvec m.val _) (code := 0x0101) (by decide) hclear (some part)
  case frame => simp

/-- A head that the unit takes asks for its grant first. -/
theorem completes_matvec_of_no_plan (hx : mvRefuses x = false) (hplan : (s.dev.mvec.get .reset m.val).plan = none) :
    completes (.matvec m) s fun d =>
      d.mvec.get .reset m.val = { s.dev.mvec.get .reset m.val with plan := some ⟨6000000, false, 1, 1⟩ } ∧
      changesOnly [.mvec, .irq, .out, .ctr] s.dev d := by
  refine completes_of_onDev exec_matvec ?_
  rw [matvec_of_no_plan howner hqueue hcur hrun hhalt hx hplan]
  exact ⟨by simp, by simp⟩

/-- With its grant, and the islands that it reads and writes awake, it begins, and memory is as it was. -/
theorem completes_matvec_of_granted (hx : mvRefuses x = false) {p : Plan} (hplan : (s.dev.mvec.get .reset m.val).plan = some p)
    (hg : p.granted = true) (hawake : (s.dev.wakeKeys (s.dev.mvKeys m.val)).1 = true) :
    completes (.matvec m) s fun d =>
      d.mvec.get .reset m.val = { queue := rest, plan := none, rowsLeft := (Mx.of x).n, cur := some (i,
        Dev.mvFlight { s.dev with free := s.dev.free + 1 } m.val i (Config.freeNat s.dev.free 50) x) } ∧
      changesOnly [.mvec, .free, .hdr, .ctr, .errm, .irq, .out] s.dev d := by
  refine completes_of_onDev exec_matvec ?_
  rw [matvec_of_granted howner hqueue hcur hrun hhalt hx hplan hg hawake]
  have hread := s.dev.mvRead_changesOnly m.val i part x
  exact ⟨by simp, by simp [hread.mono]⟩

end

/-- When the operation completes its writes land, the unit is free, and it signals unless it awaits conversion. -/
theorem completes_matvecDone {i : Nat} {f : Flight} (hcur : (s.dev.mvec.get .reset m.val).cur = some (i, f)) :
    completes (.matvecDone m) s fun d =>
      d.mem = (s.dev.land f.writes).mem ∧
      d.mvec.get .reset m.val = { s.dev.mvec.get .reset m.val with cur := none, rowsLeft := 0 } ∧
      (d.sigs = if f.await then s.dev.sigs else s.dev.sigs ++ sends (dSig f.desc) part (srcEng 3 m.val 0)) ∧
      changesOnly [.mem, .poison, .mvec, .cores, .sigs, .nwch, .hdr, .ctr, .irq, .out] s.dev d := by
  refine completes_of_onDev exec_matvecDone ?_
  rw [matvecDone_of_cur howner hcur]
  have hland := s.dev.land_changesOnly f.writes
  have hlandSigs : (s.dev.land f.writes).sigs = s.dev.sigs := hland .sigs (by decide)
  have hlandMvec : (s.dev.land f.writes).mvec = s.dev.mvec := hland .mvec (by decide)
  refine ⟨?mem, ?unit, ?sigs, ?frame⟩
  case mem =>
    rw [Dev.finish_mem]
    exact Dev.opEnds_changesOnly _ _ _ _ _ _ _ _ .mem (by decide)
  case unit =>
    have hends : ∀ b : Dev, (b.opEnds i part 4 f (pMvec m.val) (srcEng 3 m.val 0) f.charge).mvec = b.mvec := fun b =>
      b.opEnds_changesOnly _ _ _ _ _ _ _ .mvec (by decide)
    rw [Dev.finish_mvec, hends, Dev.mvec_updMvec, hlandMvec]
  case sigs =>
    rw [Dev.finish_sigs, Dev.opEnds_sigs, ← hlandSigs]
    rfl
  case frame => simp

end

/-- Settles O22: a case for each of the three things that a head can come to, and the end of an operation. -/
theorem matvecBeginsAndCompletes : Obligations.MatvecBeginsAndCompletes := by
  unfold Obligations.MatvecBeginsAndCompletes
  intro m part s howner
  refine ⟨fun i x rest hqueue hcur hrun hhalt => ⟨?refused, fun hx => ⟨?noPlan, fun p => ?granted⟩⟩, fun i f hcur => ?done⟩
  case refused => exact completes_matvec_of_refused howner hqueue hcur hrun hhalt
  case noPlan => exact completes_matvec_of_no_plan howner hqueue hcur hrun hhalt hx
  case granted => exact completes_matvec_of_granted howner hqueue hcur hrun hhalt hx
  case done =>
    refine completes_mono (completes_matvecDone howner hcur) ?_
    rintro d ⟨hmem, hunit, hsigs, hframe⟩
    exact ⟨hmem, hunit, fun ha => by rw [hsigs, ha]; rfl, fun ha => by rw [hsigs, ha]; rfl, hframe⟩

end Sys2Proof.Machine
end

section
/-!
SUPPORT. The flash: its state and spare reserve (R348, R353), what the layer's own work leaves (R343), the credits of the
write budget (R350), the rebuild (R698), and the loss and return of the main input (R345, R347, R700, R716).
-/

namespace Sys2Proof

/-- One value put under many keys reads back under each of them, and every other key reads as before. -/
theorem SMap.get_foldl_put {α : Type} [DecidableEq α] (dflt v : α) (ks : List Nat) (m : SMap α) (k : Nat) :
    (ks.foldl (fun m j => m.put dflt j v) m).get dflt k = if k ∈ ks then v else m.get dflt k := by
  induction ks generalizing m with
  | nil => rfl
  | cons j ks ih =>
    rw [List.foldl_cons, ih]
    by_cases hk : k = j
    · simp [hk]
    · simp [hk]

end Sys2Proof

namespace Sys2Proof.Machine

open Sys2Proof.Safety

/-! ### The flash state (R348, R353) -/

@[simp] theorem Dev.updFlash_flash (d : Dev) (f : Flash → Flash) : (d.updFlash f).flash = f d.flash := rfl

/-- A change of state is all that Dev.flashTo does to the flash. -/
@[simp] theorem Dev.flashTo_flash (d : Dev) (x : FlashState) : (d.flashTo x).flash = { d.flash with state := x } := by
  unfold Dev.flashTo
  split
  · next h => rw [← h]
  · rw [Dev.evtAll_flash, Dev.updFlash_flash]

section
variable {d : Dev}

theorem mountDone_of_not_mounting (h : d.flash.state ≠ .mounting) (ok : Bool) (k : Nat) : mountDone ok k d = d := if_pos h

theorem mountDone_flash (h : d.flash.state = .mounting) (ok : Bool) (k : Nat) :
    (mountDone ok k d).flash =
      { d.flash with replayed := Nat.min 0xFFFF k, state := if ok then d.flash.served else .failed } := by
  rw [mountDone, if_neg (Decidable.not_not.2 h)]
  exact Dev.flashTo_flash _ _

/-! ### The layer's own work (R343) -/

theorem Dev.flashWork_of_serving (h : d.flashServes = true) (f : Dev → Dev) : d.flashWork f = f d := if_pos h

theorem Dev.flashWork_of_not_serving (h : d.flashServes = false) (f : Dev → Dev) : d.flashWork f = d :=
  if_neg (by rw [h]; decide)

/-- The flash after a block's retirement: one spare block fewer, what parity cannot recover marked, and the state that the
reserve then gives. -/
def Flash.retired (f : Flash) (lost : List Nat) : Flash :=
  { f with spare := f.spare - 1
           marked := lost.foldl (fun m k => m.put [] k (List.range 1024)) f.marked
           state := Flash.served { f with spare := f.spare - 1 } }

theorem retireBlock_flash (h : d.flashServes = true) (k : Nat) (lost : List Nat) :
    (retireBlock k lost d).flash = d.flash.retired lost := by
  rw [retireBlock, Dev.flashWork_of_serving h, Dev.flashTo_flash, Dev.updFlash_flash, Dev.cnt_flash, Dev.cnt_flash]
  rfl

end

/-! ### The write budget (R350) -/

/-- An island whose timer had not passed an instant has reached it exactly. -/
theorem Dev.timer_reach_of_le {d : Dev} {i t : Nat} (h : d.timer i ≤ t) : (d.reach i t).timer i = t := by
  rw [Dev.timer, Dev.isle] at h
  rw [Dev.timer, Dev.isle, Dev.reach, Dev.updIsle, Dev.setIsle, SMap.get_put, Dev.isle]
  split
  · rfl
  · omega

theorem Dev.budget_reach (d : Dev) (i t n : Nat) : (d.reach i t).budget n = d.budget n := rfl

/-- The credit of one partition grows by its budget × 1,000 bytes, up to its cap. -/
def Dev.refillPart (d : Dev) (n : Nat) : Dev :=
  d.updFlash fun f => { f with spent := f.spent.put 0 n (f.spent.get 0 n - d.budget n * 1000) }

theorem refill_eq (d : Dev) :
    refill d = (List.range 16).foldl Dev.refillPart (d.reach ioIsle ((d.timer ioIsle / 360000 + 1) * 360000)) := rfl

/-- Each partition of a list without repetition grows its credit once. -/
theorem Dev.foldl_refillPart_spent {ns : List Nat} (hns : ns.Nodup) (d : Dev) {n : Nat} :
    (ns.foldl Dev.refillPart d).flash.spent.get 0 n =
      if n ∈ ns then d.flash.spent.get 0 n - d.budget n * 1000 else d.flash.spent.get 0 n := by
  induction ns generalizing d with
  | nil => rfl
  | cons m ns ih =>
    obtain ⟨hm, hns⟩ := List.nodup_cons.1 hns
    have hbudget : (d.refillPart m).budget n = d.budget n := rfl
    rw [List.foldl_cons, ih hns, hbudget, Dev.refillPart, Dev.updFlash_flash]
    by_cases h : n = m
    · subst h; simp [hm]
    · simp [h]

theorem refill_spent (d : Dev) {n : Nat} (hn : n < 16) :
    (refill d).flash.spent.get 0 n = d.flash.spent.get 0 n - d.budget n * 1000 := by
  rw [refill_eq, Dev.foldl_refillPart_spent List.nodup_range, if_pos (List.mem_range.2 hn), Dev.reach_flash, Dev.budget_reach]

theorem refill_timer (d : Dev) : (refill d).timer ioIsle = (d.timer ioIsle / 360000 + 1) * 360000 := by
  have hkeeps : ∀ (b : Dev) (n : Nat), (b.refillPart n).timer ioIsle = b.timer ioIsle := fun _ _ => rfl
  rw [refill_eq, foldl_keeps (g := fun b => b.timer ioIsle) hkeeps]
  exact Dev.timer_reach_of_le (by omega)

/-! ### FLASH_REBUILD (R698) -/

section
variable {d : Dev} (h : ringTakes d 16 0 0 false) {e : Entry} (he : e.clean = true) (sound : Bool)
include h he

theorem flashRebuild_of_mapped (ht4 : d.anyT4 = true) :
    flashRebuild e sound d = (headRead d 16 0).complete 16 0 e (headNext d 16 0) 0x48 0 := by
  rw [flashRebuild, ringCmd_of_clean h _ he]
  exact if_pos ht4

theorem flashRebuild_of_unmapped (ht4 : d.anyT4 = false) :
    flashRebuild e sound d =
      (((headRead d 16 0).updBoot fun b => { b with rebuilt := true }).flashTo
        (if sound then d.flash.served else .failed)).complete 16 0 e (headNext d 16 0) 0 0 := by
  have hnot : ¬ d.anyT4 = true := by rw [ht4]; decide
  rw [flashRebuild, ringCmd_of_clean h _ he]
  exact if_neg hnot

end

/-! ### The main input (R345, R347, R700, R716) -/

/-- The answers that a loss or a reset forces leave the step of start-up. -/
@[simp] theorem Dev.powerAnswer_boot_step (d : Dev) (st : Byte) : (d.powerAnswer st).boot.step = d.boot.step := by
  unfold Dev.powerAnswer
  split <;> rfl

@[simp] theorem Dev.cutCommit_boot_step (d : Dev) : d.cutCommit.boot.step = d.boot.step := by
  unfold Dev.cutCommit
  dsimp only
  (repeat' split) <;> rfl

/-- The device whose waiting POWER and proposal the loss of the input has answered. -/
def Dev.lossAnswered (d : Dev) : Dev := (d.powerAnswer 9#8).cutCommit

theorem Dev.lossAnswered_changesOnly (d : Dev) : changesOnly [.ctr, .pwr, .boot, .out, .parts] d d.lossAnswered := by
  simp [Dev.lossAnswered]

@[simp] theorem Dev.lossAnswered_boot_step (d : Dev) : d.lossAnswered.boot.step = d.boot.step := by
  rw [Dev.lossAnswered, Dev.cutCommit_boot_step, Dev.powerAnswer_boot_step]

/-- Nothing is lost twice, nor without auxiliary power. -/
theorem Dev.inputLost_of_lost {d : Dev} (h : d.flash.plp = true ∨ d.boot.aux = false) : d.inputLost = d :=
  if_pos (by simpa using h)

theorem Dev.inputLost_of_powered {d : Dev} (hplp : d.flash.plp = false) (haux : d.boot.aux = true) :
    d.inputLost =
      Dev.cnt { d.lossAnswered.bare with
        flash := { d.lossAnswered.bare.flash with plp := true, recovered := false, clean := false, dumpOk := false }
        pwr := { d.lossAnswered.bare.pwr with state := 0, target := 0 }
        boot := { d.lossAnswered.bare.boot with inputOk := false, step := Nat.min 2 d.lossAnswered.bare.boot.step } }
      .pf pFlsh 7 1 :=
  if_neg (by simp [hplp, haux])

theorem plpDone_of_idle {d : Dev} (h : d.flash.plp = false) : plpDone d = d := if_pos (by rw [h]; rfl)

theorem plpDone_flash {d : Dev} (h : d.flash.plp = true) :
    (plpDone d).flash =
      { d.flash with plp := false, recovered := false, dumpOk := true
                     state := if d.flash.recovered then .mounting else d.flash.state } := by
  have hplp : ¬ (!d.flash.plp) = true := by rw [h]; decide
  rw [plpDone, if_neg hplp]
  dsimp only
  split
  · rw [Dev.flashTo_flash, Dev.updFlash_flash]
  · rw [Dev.updFlash_flash]

/-! ### The commands -/

section
variable (s : State)

theorem exec_flashMountDone (ok : Bool) (k : Nat) : exec (.flashMountDone ok k) s = onDev (mountDone ok k) s := rfl
theorem exec_wearLevelling (k x : Nat) :
    exec (.wearLevelling k x) s =
      onDev (fun d => d.flashWork fun d =>
        (d.cnt .pf pFlsh 3 (65536 * k)).updFlash fun f => { f with spread := x }) s := rfl
theorem exec_garbageCollection (k : Nat) :
    exec (.garbageCollection k) s = onDev (fun d => d.flashWork fun d => d.cnt .pf pFlsh 3 (65536 * k)) s := rfl
theorem exec_readDisturbRefresh (k : Nat) :
    exec (.readDisturbRefresh k) s = onDev (fun d => d.flashWork fun d => d.cnt .pf pFlsh 4 (65536 * k)) s := rfl
theorem exec_badBlockRetire (k : Nat) (lost : List Nat) :
    exec (.badBlockRetire k lost) s = onDev (retireBlock k lost) s := rfl
theorem exec_writeBudgetRefill : exec .writeBudgetRefill s = onDev refill s := rfl
theorem exec_flashRebuild (e : Entry) (sound : Bool) : exec (.flashRebuild e sound) s = onDev (flashRebuild e sound) s := rfl
theorem exec_powerLossSequenceDone : exec .powerLossSequenceDone s = onDev plpDone s := rfl

/-- An input below its range and one above it start the same sequence (R716). -/
theorem exec_of_input_lost {c : Instr} (hc : c ∈ [Instr.powerLossSequence, .overvoltage]) :
    exec c s = onDev Dev.inputLost s := by
  simp only [List.mem_cons, List.not_mem_nil, or_false] at hc
  rcases hc with rfl | rfl <;> rfl

/-- Whatever the input comes back from, its return is noted and nothing else. -/
theorem exec_of_input_back {c : Instr} (hc : c ∈ [Instr.inputRecover, .overvoltageRecover, .mainInputInRange]) :
    exec c s = onDev (fun d => d.updBoot fun b => { b with inputOk := true }) s := by
  simp only [List.mem_cons, List.not_mem_nil, or_false] at hc
  rcases hc with rfl | rfl | rfl <;> rfl

end

section
variable {s : State}

theorem completes_badBlockRetire (h : s.dev.flashServes = true) (k : Nat) (lost : List Nat) :
    completes (.badBlockRetire k lost) s fun d => d.flash = s.dev.flash.retired lost := by
  refine completes_of_onDev (exec_badBlockRetire s k lost) ?_
  rw [Dev.finish_flash, retireBlock_flash h]

theorem completes_inputLost {c : Instr} (hc : c ∈ [Instr.powerLossSequence, .overvoltage])
    (hplp : s.dev.flash.plp = false) (haux : s.dev.boot.aux = true) :
    completes c s fun d =>
      d.flash = { s.dev.flash with state := .unmounted, plp := true, recovered := false, clean := false, dumpOk := false } ∧
      d.boot.step = Nat.min 2 s.dev.boot.step ∧ d.boot.inputOk = false ∧ d.pwr.state = 0 ∧ d.store = s.dev.store ∧
      d.parts.live = [] ∧ d.mem = s.dev.mem := by
  have hanswered := s.dev.lossAnswered_changesOnly
  have hflash : s.dev.lossAnswered.flash = s.dev.flash := hanswered .flash (by decide)
  have hstore : s.dev.lossAnswered.store = s.dev.store := hanswered .store (by decide)
  have hmem : s.dev.lossAnswered.mem = s.dev.mem := hanswered .mem (by decide)
  refine completes_of_onDev (exec_of_input_lost s hc) ?_
  rw [Dev.inputLost_of_powered hplp haux]
  simp only [Dev.finish_flash, Dev.finish_boot, Dev.finish_pwr, Dev.finish_store, Dev.finish_parts, Dev.finish_mem,
    Dev.cnt_flash, Dev.cnt_boot, Dev.cnt_pwr, Dev.cnt_store, Dev.cnt_parts, Dev.cnt_mem, Dev.bare, hflash, hstore, hmem,
    Dev.lossAnswered_boot_step, and_self]

end

/-- Settles O33: each command by the states in which it does nothing and what it leaves of the flash in the others. -/
theorem flashCommands : Obligations.FlashCommands := by
  unfold Obligations.FlashCommands
  refine ⟨fun ok k s => ⟨fun h => ?notMounting, fun h => ?mounting⟩,
    fun k x lost s => ⟨fun h => ⟨?wearIdle, ?gcIdle, ?refreshIdle, ?retireIdle⟩,
      fun h => ⟨?wear, ?gc, ?refresh, ?retire⟩⟩,
    fun s => ?refill, fun e sound s he h => ⟨fun ht4 => ?mapped, fun ht4 => ?unmapped⟩,
    fun c s hc => ⟨fun h => ?lostBefore, fun hplp haux => ?lost⟩, fun s => ⟨fun h => ?noSequence, fun h => ?sequence⟩,
    fun c s hc => ?back⟩
  case notMounting => exact becomes_of_onDev (exec_flashMountDone s ok k) (mountDone_of_not_mounting h ok k)
  case mounting =>
    refine completes_of_onDev (exec_flashMountDone s ok k) ?_
    rw [Dev.finish_flash, mountDone_flash h]
  case wearIdle => exact becomes_of_onDev (exec_wearLevelling s k x) (Dev.flashWork_of_not_serving h _)
  case gcIdle => exact becomes_of_onDev (exec_garbageCollection s k) (Dev.flashWork_of_not_serving h _)
  case refreshIdle => exact becomes_of_onDev (exec_readDisturbRefresh s k) (Dev.flashWork_of_not_serving h _)
  case retireIdle => exact becomes_of_onDev (exec_badBlockRetire s k lost) (Dev.flashWork_of_not_serving h _)
  case wear => exact becomes_of_onDev (exec_wearLevelling s k x) (Dev.flashWork_of_serving h _)
  case gc => exact becomes_of_onDev (exec_garbageCollection s k) (Dev.flashWork_of_serving h _)
  case refresh => exact becomes_of_onDev (exec_readDisturbRefresh s k) (Dev.flashWork_of_serving h _)
  case retire =>
    refine completes_mono (completes_badBlockRetire h k lost) fun d hflash => ?_
    have hmarked : ∀ c, d.flash.marked.get [] c = if c ∈ lost then List.range 1024 else s.dev.flash.marked.get [] c :=
      fun c => by rw [hflash]; exact SMap.get_foldl_put [] _ lost _ c
    rw [hflash] at hmarked ⊢
    exact ⟨rfl, rfl, fun c hc => (hmarked c).trans (if_pos hc), fun c hc => (hmarked c).trans (if_neg hc)⟩
  case refill =>
    refine completes_of_onDev (exec_writeBudgetRefill s) ?_
    rw [Dev.timer_finish, Dev.finish_flash]
    exact ⟨refill_timer s.dev, fun n => refill_spent s.dev⟩
  case mapped => exact becomes_of_onDev (exec_flashRebuild s e sound) (flashRebuild_of_mapped h he sound ht4)
  case unmapped => exact becomes_of_onDev (exec_flashRebuild s e sound) (flashRebuild_of_unmapped h he sound ht4)
  case lostBefore => exact becomes_of_onDev (exec_of_input_lost s hc) (Dev.inputLost_of_lost h)
  case lost => exact completes_inputLost hc hplp haux
  case noSequence => exact becomes_of_onDev (exec_powerLossSequenceDone s) (plpDone_of_idle h)
  case sequence =>
    refine completes_of_onDev (exec_powerLossSequenceDone s) ?_
    rw [Dev.finish_flash, plpDone_flash h]
  case back => exact becomes_of_onDev (exec_of_input_back s hc) rfl

end Sys2Proof.Machine
end

section
/-!
SUPPORT. Shard records (R389–R393): a ring command whose data are at hand, and what EXPORT_SHARD and IMPORT_SHARD come to,
one equation for each check of their order that ends them and one for the writes of a run that passes them all.
-/

namespace Sys2Proof.Machine

open Sys2Proof.Safety

/-! ### A command that may run when its entry is at the head -/

/-- A well-formed entry whose data are at hand runs (R553). -/
theorem ringTry_of_prepared {d d1 : Dev} {n i mask : Nat} {starts : Bool} (h : ringTakes d n i mask starts) {e : Entry}
    (he : e.clean = true) {pre : Dev → Bool × Dev} (hpre : pre d = (true, d1)) (run : Nat → Dev → Dev) :
    ringTry n i e mask starts pre run d = run (headNext d1 n i) (headRead d1 n i) := by
  rw [ringTry, if_neg (not_held_of_ringTakes h), he, if_pos rfl, hpre]
  rfl

/-! ### EXPORT SHARD (R389, R390) -/

/-- The record that EXPORT_SHARD writes, for the bytes of an update record. -/
def Dev.shardOut (d : Dev) (n : Nat) (b : List Byte) : List Byte :=
  let r := d.sections n (UpRec.of b).arrays
  shardRecord (UpRec.of b) ((b.drop 0x60).take 32)
    ((UpRec.of b).named.map fun i => scaleRecord i (r.2.2.entry (UpRec.of b).scCluster i).bytes) r.1

section
variable {n dst cap : Nat} {out : List Byte} {d : Dev} (hfaults : d.faults n agTier true dst out.length = none)
include hfaults

theorem exportWrite_of_misfit (h : cap < out.length ∨ dst % 64 ≠ 0) : exportWrite n dst cap out d = (4, d) := by
  rw [exportWrite, hfaults]
  exact if_pos h

theorem exportWrite_of_fit (hcap : out.length ≤ cap) (halign : dst % 64 = 0) :
    exportWrite n dst cap out d = (0, d.tWrite n agTier dst out []) := by
  rw [exportWrite, hfaults]
  exact if_neg (not_or.2 ⟨Nat.not_lt.2 hcap, Decidable.not_not.2 halign⟩)

end

section
variable {n dst cap : Nat} {b h : List Byte} {d : Dev}

theorem exportRecord_of_step (hstep : fld h 0 4 ≠ 0) : exportRecord n dst cap b h d = (2, d) := if_pos hstep

theorem exportRecord_of_readable (hstep : fld h 0 4 = 0) (hread : (d.sections n (UpRec.of b).arrays).2.1 = false) :
    exportRecord n dst cap b h d =
      exportWrite n dst cap (d.shardOut n b) (d.sections n (UpRec.of b).arrays).2.2 := by
  unfold exportRecord
  dsimp only
  rw [if_neg (Decidable.not_not.2 hstep), if_neg (by rw [hread]; decide)]
  rfl

end

section
variable {n rec hb dst cap : Nat} {d d1 : Dev} {b : List Byte} (hrec : rec < vaLimit) (hhb : hb < vaLimit) (hdst : dst < vaLimit)
  (hread : d.cpRead n rec 256 = (some b, d1))
include hrec hhb hdst hread

theorem exportRun_of_bad_record (hbad : d1.recBad n (UpRec.of b) = true) : exportRun n rec hb dst cap d = (1, d1) := by
  rw [exportRun, if_neg (by omega), hread]
  exact if_pos hbad

/-- EXPORT_SHARD of a sound record goes on with its holding area's head, all zeros where it has none. -/
theorem exportRun_of_sound_record (hsound : d1.recBad n (UpRec.of b) = false) {h : List Byte} {d2 : Dev}
    (hhold : (if hb = 0 then (some (zbytes 64), d1) else d1.cpRead n hb 64) = (some h, d2)) :
    exportRun n rec hb dst cap d = exportRecord n dst cap b h d2 := by
  rw [exportRun, if_neg (by omega), hread]
  refine (if_neg (by rw [hsound]; decide)).trans ?_
  split at hhold
  case isTrue hzero =>
    injection hhold with hh hd
    injection hh with hh
    rw [if_pos hzero, hh, hd]
  case isFalse hzero => rw [if_neg hzero, hhold]

end

/-! ### IMPORT SHARD (R392, R393) -/

/-- What an import writes into the target's arrays, for the bytes of the record and the target. -/
def shardWrites (b : List Byte) (t : UpRec) : List VaWr :=
  ((shardData b).zip ((shardRec b).arrays.zip t.arrays)).flatMap fun p => copyArr p.1 p.2.1 p.2.2

/-- The end of an import that no check refuses: the arrays, the step counter of a target at step 0, the scale entries. -/
def Dev.importWrite (d : Dev) (n tgt : Nat) (b : List Byte) (t : UpRec) : Nat × Dev :=
  let ws := if t.t = 0 then shardWrites b t ++ [⟨tgt + 0x10, leBytes 8 (shardRec b).t, []⟩] else shardWrites b t
  match ws.findSome? fun (w : VaWr) => d.faults n agTier true w.va w.bytes.length with
  | some (x, c) => (0x43, d.tierFault n x c agTier)
  | none =>
    (0, (enumFrom 0 t.named).foldl (fun (d : Dev) (k : Nat × Nat) =>
      d.importScale t.scCluster k.2
        (if k.1 < shardScales b then some ((b.drop (320 + 256 * k.1 + 16)).take 192) else none))
      (ws.foldl (fun (d : Dev) (w : VaWr) => d.tWrite n agTier w.va w.bytes w.bad) d))

/-- A target at a step of its own, with no scale entries, takes the shared elements and nothing else. -/
theorem Dev.importWrite_of_live {d : Dev} {n : Nat} {b : List Byte} {t : UpRec} (hlive : t.t ≠ 0) (hplain : t.named = [])
    (hwritable : ∀ w ∈ shardWrites b t, d.faults n agTier true w.va w.bytes.length = none) (tgt : Nat) :
    d.importWrite n tgt b t =
      (0, (shardWrites b t).foldl (fun (d : Dev) (w : VaWr) => d.tWrite n agTier w.va w.bytes w.bad) d) := by
  have hfaults : (shardWrites b t).findSome? (fun w => d.faults n agTier true w.va w.bytes.length) = none :=
    List.findSome?_eq_none_iff.2 hwritable
  unfold Dev.importWrite
  dsimp only
  rw [if_neg hlive, hfaults, hplain]
  rfl

section
variable {n src len tgt : Nat} {d d1 d2 : Dev} {b tb : List Byte} (hsrc : src < vaLimit) (htgt : tgt < vaLimit)
  (hread : d.cpRead n src len = (some b, d1)) (hreadT : d1.cpRead n tgt 256 = (some tb, d2))
include hsrc htgt hread hreadT

/-- The checks of an import that can read the record and its target, in their order. -/
theorem importShardRun_of_read :
    importShardRun n src len tgt d =
      if !shardOk b then (6, d2)
      else if d2.recBad n (UpRec.of tb) || shardDiffers (shardRec b) (UpRec.of tb) then (7, d2)
      else if (UpRec.of tb).t ≠ 0 ∧ (UpRec.of tb).t ≠ (shardRec b).t then (8, d2)
      else if ((shardRec b).arrays ++ (UpRec.of tb).arrays).any fun a => fmtMx a.fmt && a.start % 32 ≠ 0 then (9, d2)
      else if !overlaps (shardRec b).dims (UpRec.of tb).dims then (10, d2)
      else d2.importWrite n tgt b (UpRec.of tb) := by
  rw [importShardRun, if_neg (by omega), hread]
  dsimp only
  rw [hreadT]
  rfl

theorem importShardRun_of_unsound (hok : shardOk b = false) : importShardRun n src len tgt d = (6, d2) := by
  simp [importShardRun_of_read hsrc htgt hread hreadT, hok]

section
variable (hok : shardOk b = true)
include hok

theorem importShardRun_of_other_tensor (h : d2.recBad n (UpRec.of tb) = true ∨ shardDiffers (shardRec b) (UpRec.of tb) = true) :
    importShardRun n src len tgt d = (7, d2) := by
  simp [importShardRun_of_read hsrc htgt hread hreadT, hok, h]

section
variable (hsound : d2.recBad n (UpRec.of tb) = false) (hsame : shardDiffers (shardRec b) (UpRec.of tb) = false)
include hsound hsame

theorem importShardRun_of_other_step (hlive : (UpRec.of tb).t ≠ 0) (hstep : (UpRec.of tb).t ≠ (shardRec b).t) :
    importShardRun n src len tgt d = (8, d2) := by
  simp [importShardRun_of_read hsrc htgt hread hreadT, hok, hsound, hsame, hlive, hstep]

/-- With the same step count and aligned blocks, it turns on whether the boxes meet. -/
theorem importShardRun_of_aligned (hstep : (UpRec.of tb).t = (shardRec b).t)
    (haligned : (((shardRec b).arrays ++ (UpRec.of tb).arrays).any fun a => fmtMx a.fmt && a.start % 32 ≠ 0) = false) :
    importShardRun n src len tgt d =
      if !overlaps (shardRec b).dims (UpRec.of tb).dims then (10, d2) else d2.importWrite n tgt b (UpRec.of tb) := by
  rw [importShardRun_of_read hsrc htgt hread hreadT, hok, hsound, hsame, haligned, hstep]
  simp

end
end
end

/-! ### The commands -/

theorem exec_exportShard (r : RingId) (e : Entry) (rec hb dst cap : BitVec 64) (s : State) :
    exec (.exportShard r e rec hb dst cap) s = onDev (exportCmd r e rec.toNat hb.toNat dst.toNat cap.toNat) s := rfl

theorem exec_importShard (r : RingId) (e : Entry) (src len tgt : BitVec 64) (s : State) :
    exec (.importShard r e src len tgt) s = onDev (importShardCmd r e src.toNat len.toNat tgt.toNat) s := rfl

section
variable {r : RingId} {e : Entry} {d d1 : Dev} (h : ringTakes d r.part.val r.ring.val 0 false) (he : e.clean = true)
include h he

theorem exportCmd_of_prepared {rec hb dst cap : Nat} (hpre : exportPre r.part.val rec hb dst cap d = (true, d1)) :
    exportCmd r e rec hb dst cap d =
      let x := exportRun r.part.val rec hb dst cap (headRead d1 r.part.val r.ring.val)
      x.2.complete r.part.val r.ring.val e (headNext d1 r.part.val r.ring.val) x.1 0 := by
  unfold exportCmd
  dsimp only
  rw [ringTry_of_prepared h he hpre]

theorem importShardCmd_of_prepared {src len tgt : Nat} (hpre : importPre r.part.val src len tgt d = (true, d1)) :
    importShardCmd r e src len tgt d =
      let x := importShardRun r.part.val src len tgt (headRead d1 r.part.val r.ring.val)
      x.2.complete r.part.val r.ring.val e (headNext d1 r.part.val r.ring.val) x.1 0 := by
  unfold importShardCmd
  dsimp only
  rw [ringTry_of_prepared h he hpre]

end

/-- Settles O25: each command ends with the status of its run, and a run with that of the first check that fails. -/
theorem shardCommands : Obligations.ShardCommands := by
  unfold Obligations.ShardCommands
  refine ⟨fun r e rec hb dst cap s d1 he h hpre => ?exported,
    fun n rec hb dst cap d b h d1 d2 hrec hhb hdst hread hhold => ⟨fun hbad => ?badRecord, fun hsound => ⟨fun hstep => ?step,
      fun hstep hsect hfaults => ⟨fun hmisfit => ?misfit, fun hcap halign => ?fit⟩⟩⟩,
    fun r e src len tgt s d1 he h hpre => ?imported,
    fun n src len tgt d b tb d1 d2 hsrc htgt hread hreadT => ⟨fun hok => ?unsound, fun hok => ⟨fun hother => ?otherTensor,
      fun hsound hsame => ⟨fun hlive hstep => ?otherStep, fun hstep hplain haligned hlive => ⟨fun hmeet => ?apart,
        fun hmeet hwritable => ?meeting⟩⟩⟩⟩⟩
  case exported => exact becomes_of_onDev (exec_exportShard r e rec hb dst cap s) (exportCmd_of_prepared h he hpre)
  case badRecord => rw [exportRun_of_bad_record hrec hhb hdst hread hbad]
  case step => rw [exportRun_of_sound_record hrec hhb hdst hread hsound hhold, exportRecord_of_step hstep]
  case misfit =>
    rw [exportRun_of_sound_record hrec hhb hdst hread hsound hhold, exportRecord_of_readable hstep hsect]
    exact exportWrite_of_misfit hfaults hmisfit
  case fit =>
    rw [exportRun_of_sound_record hrec hhb hdst hread hsound hhold, exportRecord_of_readable hstep hsect]
    exact exportWrite_of_fit hfaults hcap halign
  case imported => exact becomes_of_onDev (exec_importShard r e src len tgt s) (importShardCmd_of_prepared h he hpre)
  case unsound => exact importShardRun_of_unsound hsrc htgt hread hreadT hok
  case otherTensor => exact importShardRun_of_other_tensor hsrc htgt hread hreadT hok hother
  case otherStep => exact importShardRun_of_other_step hsrc htgt hread hreadT hok hsound hsame hlive hstep
  case apart =>
    rw [importShardRun_of_aligned hsrc htgt hread hreadT hok hsound hsame hstep haligned, hmeet]
    rfl
  case meeting =>
    rw [importShardRun_of_aligned hsrc htgt hread hreadT hok hsound hsame hstep haligned, hmeet]
    exact Dev.importWrite_of_live hlive hplain hwritable tgt

end Sys2Proof.Machine
end

section
/-!
SUPPORT. The optimiser engines: the engine's state after each of its operations (R365, R383), what a head comes to by the order of
R364, what OPT_UPDATE (R371) and OPT_LATE (R381–R383) take up, digest comparison (R380), and the end of an update (R371).
-/

namespace Sys2Proof.Machine

open Sys2Proof.Safety

/-! ### The engine's state -/

/-- The engine after its head has left its queue. -/
def Opte.popped (o : Opte) : Opte := { o with q := { o.q with queue := o.q.queue.tail } }

/-- A run is taken up: its head leaves the queue (R371). -/
def Dev.opTakes (d : Dev) (c : Nat) (r : OptRun) : Dev :=
  d.updOp c fun o => { o.popped with cur := some r }

section
variable (d : Dev) (c : Nat)

theorem Dev.op_of_opte_eq {a b : Dev} (h : b.opte = a.opte) (c : Nat) : b.op c = a.op c := by rw [Dev.op, h, ← Dev.op]

@[simp] theorem Dev.op_updOp (f : Opte → Opte) : (d.updOp c f).op c = f (d.op c) := SMap.get_upd _ _ _ _

@[simp] theorem Dev.op_opTakes (r : OptRun) : (d.opTakes c r).op c = { (d.op c).popped with cur := some r } :=
  Dev.op_updOp d c _

@[simp] theorem Dev.op_finish : d.finish.op c = d.op c := Dev.op_of_opte_eq (Dev.finish_opte d) c

@[simp] theorem Dev.op_opCnt (k n : Nat) : (d.opCnt c k n).op c = d.op c := Dev.op_of_opte_eq (Dev.cntP_opte _ _ _ _ _) c

@[simp] theorem Dev.op_opSignal (part : Nat) (w : Word) : (d.opSignal c part w).op c = d.op c :=
  Dev.op_of_opte_eq (Dev.signal_opte _ _ _ _) c

@[simp] theorem Dev.opSignal_sigs (part : Nat) (w : Word) :
    (d.opSignal c part w).sigs = d.sigs ++ sends w part (srcEng 0 c 0) := by
  unfold Dev.opSignal Dev.signal sends
  split
  · rfl
  · exact (List.append_nil _).symm

/-- A head that issues or is gone is held no more (R383). -/
@[simp] theorem Dev.op_opUnheld : (d.opUnheld c).op c = { d.op c with held := none } := by
  unfold Dev.opUnheld
  split
  case isTrue h =>
    rw [Option.isNone_iff_eq_none] at h
    rw [← h]
  case isFalse => exact (Dev.op_opCnt _ c _ _).trans (Dev.op_updOp _ c _)

theorem Dev.opUnheld_changesOnly : changesOnly [.ctr, .opte, .free] d (d.opUnheld c) := by simp

@[simp] theorem Dev.op_opRefuse (part reason : Nat) :
    (d.opRefuse c part reason).op c =
      { d.op c with held := none, q := { (d.op c).q with stopped := true, reason := reason } } := by
  rw [Dev.opRefuse, Dev.op_opCnt, Dev.op_of_opte_eq (Dev.evtP_opte _ _ _ _), Dev.op_of_opte_eq (Dev.errP_opte _ _ _ _),
    Dev.op_updOp, Dev.op_opUnheld]

theorem Dev.opRefuse_changesOnly (part reason : Nat) :
    changesOnly [.hdr, .ctr, .opte, .free] d (d.opRefuse c part reason) := by simp

@[simp] theorem Dev.op_opFinish (part : Nat) (x : Desc) (k : Nat) : (d.opFinish c part x k).op c = (d.op c).popped := by
  rw [Dev.opFinish, Dev.op_opSignal, Dev.op_opCnt]
  exact Dev.op_updOp d c _

theorem Dev.opFinish_changesOnly (part : Nat) (x : Desc) (k : Nat) :
    changesOnly [.ctr, .sigs, .opte] d (d.opFinish c part x k) := by simp

theorem Dev.opFinish_sigs (part : Nat) (x : Desc) (k : Nat) :
    (d.opFinish c part x k).sigs = d.sigs ++ sends (dSig x) part (srcEng 0 c 0) := by
  have hcnt : ((d.opPop c).opCnt c k 1).sigs = d.sigs := Dev.cntP_sigs _ _ _ _ _
  rw [Dev.opFinish, Dev.opSignal_sigs, hcnt]

end

/-! ### Reads and preparation leave the engines and the signals -/

section
variable {d d1 : Dev} {part : Nat}

theorem Dev.prepareAll_changesOnly {agent : Nat} {wr ok : Bool} {spans : List (Nat × Nat)}
    (h : d.prepareAll part agent wr spans = (ok, d1)) : changesOnly [.ctr, .mem, .poison, .isles, .tier] d d1 := by
  have honly : changesOnly [.ctr, .mem, .poison, .isles, .tier] d (d.prepareAll part agent wr spans).2 := by simp
  rwa [h] at honly

theorem readArrs_changesOnly {arrs : List (PArr × Int)} {els : List PEls} {first : Option Nat}
    (h : readArrs part arrs d = (els, first, d1)) : changesOnly [.hdr, .ctr, .tier] d d1 := by
  have honly : changesOnly [.hdr, .ctr, .tier] d (readArrs part arrs d).2.2 := by simp
  rwa [h] at honly

theorem Dev.tRead_changesOnly {agent va n : Nat} {r : Rd} (h : d.tRead part agent va n = (r, d1)) :
    changesOnly [.hdr, .ctr, .tier] d d1 := by
  have honly : changesOnly [.hdr, .ctr, .tier] d (d.tRead part agent va n).2 := by simp
  rwa [h] at honly

theorem Dev.readBadVa_changesOnly (d : Dev) (c part : Nat) (first : Option Nat) :
    changesOnly [.hdr, .ctr, .errm] d (d.readBadVa c part first) := by simp

end

theorem Dev.op_of_changesOnly {l : List Comp} {a b : Dev} (h : changesOnly l a b) (hl : .opte ∉ l) (c : Nat) : b.op c = a.op c :=
  Dev.op_of_opte_eq (h .opte hl) c

/-- A head that has read its record and its sources is held no more; nothing else of the engine and no signal has moved. -/
theorem op_sigs_of_reads {d d1 d2 d3 : Dev} {part c : Nat} {ok1 ok2 : Bool} {spans1 spans2 : List (Nat × Nat)}
    {arrs : List (PArr × Int)} {els : List PEls} {first : Option Nat}
    (hrecord : d.prepareAll part agEngine false spans1 = (ok1, d1)) (hspans : d1.prepareAll part agEngine false spans2 = (ok2, d2))
    (hsrc : readArrs part arrs (d2.opUnheld c) = (els, first, d3)) :
    d3.op c = { d.op c with held := none } ∧ d3.sigs = d.sigs := by
  have h1 := Dev.prepareAll_changesOnly hrecord
  have h2 := Dev.prepareAll_changesOnly hspans
  have h3 := readArrs_changesOnly hsrc
  constructor
  · rw [Dev.op_of_changesOnly h3 (by decide), Dev.op_opUnheld, Dev.op_of_changesOnly h2 (by decide),
      Dev.op_of_changesOnly h1 (by decide)]
  · calc d3.sigs = (d2.opUnheld c).sigs := h3 .sigs (by decide)
      _ = d2.sigs := d2.opUnheld_changesOnly c .sigs (by decide)
      _ = d1.sigs := h2 .sigs (by decide)
      _ = d.sigs := h1 .sigs (by decide)

/-! ### The head of the queue (R240, R364, R365) -/

section
variable {d : Dev} {c part op : Nat} {x : Desc} {rest : List (Nat × Desc)} (run : Nat → Nat → Desc → Dev → Dev)
  (h : engineHead d (pOpte c) c part (d.op c).q.queue (d.op c).q.stopped x rest) (hcur : (d.op c).cur = none)
include h hcur

theorem optHead_of_head :
    optHead c op run d =
      if optRefusal x ≠ 0 then d.opRefuse c part (optRefusal x)
      else if d.unmet (17 * c) x ≠ [] ∨ dOp x ≠ op then d
      else if d.predSkips (17 * c) x then (d.opUnheld c).opFinish c part x 1
      else run c part x d := by
  obtain ⟨howner, ⟨k, hqueue⟩, hgoes, hready⟩ := h
  unfold optHead
  dsimp only
  rw [hqueue, howner, hcur]
  exact if_neg (by simp [hgoes, hready])

theorem optHead_of_refused (hr : optRefusal x ≠ 0) : optHead c op run d = d.opRefuse c part (optRefusal x) := by
  rw [optHead_of_head run h hcur, if_pos hr]

variable (hr : optRefusal x = 0) (hwaits : d.unmet (17 * c) x = []) (hop : dOp x = op)
include hr hwaits hop

theorem optHead_of_skipped (hskip : d.predSkips (17 * c) x = true) :
    optHead c op run d = (d.opUnheld c).opFinish c part x 1 := by
  rw [optHead_of_head run h hcur, if_neg (Decidable.not_not.2 hr), if_neg (by simp [hwaits, hop]), if_pos hskip]

theorem optHead_of_going (hgo : d.predSkips (17 * c) x = false) : optHead c op run d = run c part x d := by
  rw [optHead_of_head run h hcur, if_neg (Decidable.not_not.2 hr), if_neg (by simp [hwaits, hop]), if_neg (by rw [hgo]; decide)]

end

theorem optHead_of_runs {d : Dev} {c part : Nat} {x : Desc} {rest : List (Nat × Desc)}
    (h : engineRuns d (pOpte c) c part (d.op c).q.queue (d.op c).q.stopped (optRefusal x) x rest) (hcur : (d.op c).cur = none)
    {op : Nat} (hop : dOp x = op) (run : Nat → Nat → Desc → Dev → Dev) : optHead c op run d = run c part x d :=
  optHead_of_going run h.toengineHead hcur h.checked h.waits hop h.goesOn

/-! ### What an update reads -/

/-- The gradient of a record, with the scale of its table entry where its format takes one. -/
def Dev.gradArr (d : Dev) (c : Nat) (u : UpRec) : PArr × Int := (u.grad, if u.gFmt = 4 then d.tOf c u.scG else 0)

/-- The persistent state of a record as it is read. -/
def UpRec.stateArrs (u : UpRec) : List (PArr × Int) := u.arrays.map fun a => (a, 0)

/-- What OPT_LATE reads beside the state: the gradient, unless it drains, and the holding area (R381, R383). -/
def Dev.lateSrcs (d : Dev) (c : Nat) (x : Desc) (u : UpRec) : List (PArr × Int) :=
  (if oDrain x then [] else [d.gradArr c u]) ++ [(holding (oHb x) (boxCount u.dims), 0)]

/-- The gradient added to what the holding area holds. -/
def addHeld (src : List PEls) : PEls :=
  ((src.getD 0 []).zip (src.getD 1 [])).map fun p => (fadd p.2.1 p.1.1, p.1.2 || p.2.2)

/-- What is held once OPT_LATE has read its sources: the held sum alone for a drain. -/
def lateSum (x : Desc) (src : List PEls) : PEls := if oDrain x then src.getD 0 [] else addHeld src

theorem lateSum_eq (x : Desc) (src : List PEls) : lateSum x src = if !oDrain x then addHeld src else src.getD 0 [] := by
  unfold lateSum
  cases oDrain x <;> rfl

/-- The gradients that OPT_LATE applies at once, where cnt are held. -/
def lateCount (x : Desc) (cnt : Nat) : Nat := if oDrain x then cnt else cnt + 1

/-- The run that counts one gradient more in the holding area (R383). -/
def lateAdds (x : Desc) (u : UpRec) (cnt : Nat) (a : PEls) : OptRun :=
  ⟨x, [⟨oHb x, leBytes 4 (cnt + 1), []⟩, wordWrite (oHb x + 0x40) a], [(4, 1)], boxCount u.dims, 0⟩

/-- The run that applies the mean of what is held and clears the holding area (R383). -/
def lateApplies (x : Desc) (u : UpRec) (j : Nat) (a : PEls) (st : List PEls) : OptRun :=
  let r := u.update (oRec x) j (a.map fun e => (fdiv e.1 (fNat j), e.2)) st
  ⟨x, [wordWrite (oHb x) [(0#32, false)], wordWrite (oHb x + 0x40) (a.map fun _ => (0#32, false))] ++ r.1, r.2 ++ [(5, 1)],
    boxCount u.dims, j⟩

/-- OPT_LATE of a record that takes every gradient, past its checks, with cnt gradients held (R381–R383). -/
def Dev.lateGoes (d : Dev) (c part : Nat) (x : Desc) (u : UpRec) (cnt : Nat) (applies : Bool) : Dev :=
  let p := d.prepareAll part agEngine false
    ((d.lateSrcs c x u ++ if applies then u.stateArrs else []).flatMap fun a => a.1.spans)
  if !p.1 then p.2
  else
    let r := readArrs part (d.lateSrcs c x u) (p.2.opUnheld c)
    if oDrain x && cnt = 0 then (r.2.2.readBadVa c part r.2.1).opFinish c part x 0
    else if !applies then (r.2.2.readBadVa c part r.2.1).opTakes c (lateAdds x u cnt (lateSum x r.1))
    else
      let q := readArrs part u.stateArrs r.2.2
      (q.2.2.readBadVa c part (match r.2.1 with | some v => some v | none => q.2.1)).opTakes c
        (lateApplies x u (lateCount x cnt) (lateSum x r.1) q.1)

/-! ### OPT_UPDATE (R371) -/

section
variable {c part : Nat} {x : Desc} {d d1 d2 : Dev} {rb : Rd} (hop : dOp x = 0x80)
  (hprep : d.prepareAll part agEngine false [(oRec x, 256)] = (true, d1))
  (hread : d1.tRead part agEngine (oRec x) 256 = (rb, d2)) (hfault : rb.fault = false) (hbad : rb.bad = [])
include hop hprep hread hfault hbad

theorem optIssue_update_of_refused (hu : (UpRec.of rb.bytes).refusal ≠ 0) :
    optIssue c part x d = d1.opRefuse c part (UpRec.of rb.bytes).refusal := by
  simp [optIssue, hop, hprep, hread, hfault, hbad, hu]

theorem optIssue_update_of_sound (hu : (UpRec.of rb.bytes).refusal = 0) (hskip : (UpRec.of rb.bytes).skipNf = false)
    {d3 d4 d5 : Dev} {src st : List PEls} {f1 f2 : Option Nat}
    (hspans : d1.prepareAll part agEngine false
      ((d1.gradArr c (UpRec.of rb.bytes) :: (UpRec.of rb.bytes).stateArrs).flatMap fun a => a.1.spans) = (true, d3))
    (hsrc : readArrs part [d1.gradArr c (UpRec.of rb.bytes)] (d3.opUnheld c) = (src, f1, d4))
    (hst : readArrs part (UpRec.of rb.bytes).stateArrs d4 = (st, f2, d5)) :
    optIssue c part x d =
      let r := (UpRec.of rb.bytes).update (oRec x) 1 (src.getD 0 []) st
      (d5.readBadVa c part (f1.or f2)).opTakes c ⟨x, r.1, r.2, boxCount (UpRec.of rb.bytes).dims, 1⟩ := by
  rw [Dev.gradArr, UpRec.stateArrs] at hspans
  rw [Dev.gradArr] at hsrc
  rw [UpRec.stateArrs] at hst
  cases f1 <;>
    simp [optIssue, Dev.opTakes, Opte.popped, hop, hprep, hread, hfault, hbad, hu, hskip, hspans, hsrc, hst, -List.flatMap_cons]

end

/-! ### OPT_LATE (R381–R383) -/

/-- OPT_LATE reads its record and its holding area's head, and the record u is sound and takes every gradient (R364, R381). -/
structure LateReads (d : Dev) (part : Nat) (x : Desc) (d1 d2 d3 : Dev) (rb hb : Rd) (u : UpRec) : Prop where
  opcode : dOp x = 0x81
  prepared : d.prepareAll part agEngine false [(oRec x, 256), (oHb x, 64)] = (true, d1)
  record : d1.tRead part agEngine (oRec x) 256 = (rb, d2)
  holding : d2.tRead part agEngine (oHb x) 64 = (hb, d3)
  recordMapped : rb.fault = false
  recordSound : rb.bad = []
  holdingMapped : hb.fault = false
  holdingSound : hb.bad = []
  fields : UpRec.of rb.bytes = u
  accepted : u.refusal = 0
  takesAll : u.skipNf = false

section
variable {c part : Nat} {x : Desc} {d d1 d2 d3 : Dev} {rb hb : Rd} {u : UpRec} (hreads : LateReads d part x d1 d2 d3 rb hb u)
include hreads

/-- The checks of OPT_LATE that can read its record and its holding area, in their order (R364, R382, R383). -/
theorem optIssue_late_of_read {cnt : Nat} (hcnt : fld hb.bytes 0 4 = cnt) {ready : Bool}
    (hready : d1.clHolds c (oReady x) (fld x 0x2C 4) = ready) :
    optIssue c part x d =
      if u.lag ≤ cnt || fld hb.bytes 4 4 ≠ u.tidW || fld hb.bytes 8 8 ≠ boxCount u.dims then d1.opRefuse c part 0x24
      else if !ready && (if oDrain x then 0 < cnt else cnt + 1 = u.lag) then
        d1.updOp c fun o => { o with held := some (oReady x) }
      else d1.lateGoes c part x u cnt (ready && (!oDrain x || 0 < cnt)) := by
  obtain ⟨hop, hprep, hread, hreadH, hfault, hbad, hfaultH, hbadH, hrec, hu, hskip⟩ := hreads
  unfold optIssue Dev.lateGoes
  simp only [hop, hprep, hread, hreadH, hfault, hbad, hfaultH, hbadH, hrec, hu, hcnt, hready, hskip, lateSum_eq, decide_true,
    if_true, ne_eq, not_true_eq_false, decide_false, Bool.or_self, Bool.false_eq_true, if_false, Bool.not_true, Bool.false_and,
    Bool.true_and, Bool.false_or]
  rfl

theorem optIssue_late_of_misfit
    (h : ¬ (fld hb.bytes 0 4 < u.lag ∧ fld hb.bytes 4 4 = u.tidW ∧ fld hb.bytes 8 8 = boxCount u.dims)) :
    optIssue c part x d = d1.opRefuse c part 0x24 := by
  rw [optIssue_late_of_read hreads rfl rfl]
  refine if_pos ?_
  simp only [Bool.or_eq_true, decide_eq_true_eq]
  omega

theorem optIssue_late_of_fit {cnt : Nat} (hcnt : fld hb.bytes 0 4 = cnt) {ready : Bool}
    (hready : d1.clHolds c (oReady x) (fld x 0x2C 4) = ready) (hlag : cnt < u.lag)
    (hfits : fld hb.bytes 4 4 = u.tidW ∧ fld hb.bytes 8 8 = boxCount u.dims) :
    optIssue c part x d =
      if !ready && (if oDrain x then 0 < cnt else cnt + 1 = u.lag) then
        d1.updOp c fun o => { o with held := some (oReady x) }
      else d1.lateGoes c part x u cnt (ready && (!oDrain x || 0 < cnt)) := by
  rw [optIssue_late_of_read hreads hcnt hready]
  refine if_neg ?_
  simp only [Bool.or_eq_true, decide_eq_true_eq]
  omega

end

/-- While its condition does not hold, one gradient more is added where there is room. -/
theorem Dev.lateGoes_of_waiting {d d1 d2 : Dev} {c part cnt : Nat} {x : Desc} {u : UpRec} {src : List PEls} {first : Option Nat}
    (hdrain : oDrain x = false)
    (hspans : d.prepareAll part agEngine false ((d.lateSrcs c x u).flatMap fun a => a.1.spans) = (true, d1))
    (hsrc : readArrs part (d.lateSrcs c x u) (d1.opUnheld c) = (src, first, d2)) :
    d.lateGoes c part x u cnt false = (d2.readBadVa c part first).opTakes c (lateAdds x u cnt (addHeld src)) := by
  simp [Dev.lateGoes, lateSum, hdrain, hspans, hsrc]

/-- A drain of nothing held ends at once. -/
theorem Dev.lateGoes_of_empty {d d1 d2 : Dev} {c part : Nat} {x : Desc} {u : UpRec} {src : List PEls} {first : Option Nat}
    (hdrain : oDrain x = true)
    (hspans : d.prepareAll part agEngine false ((d.lateSrcs c x u).flatMap fun a => a.1.spans) = (true, d1))
    (hsrc : readArrs part (d.lateSrcs c x u) (d1.opUnheld c) = (src, first, d2)) :
    d.lateGoes c part x u 0 false = (d2.readBadVa c part first).opFinish c part x 0 := by
  simp [Dev.lateGoes, hdrain, hspans, hsrc]

/-- Once its condition holds, the mean of what is held is applied. -/
theorem Dev.lateGoes_of_ready {d d1 d2 d3 : Dev} {c part cnt : Nat} {x : Desc} {u : UpRec} {src st : List PEls} {f1 f2 : Option Nat}
    (hheld : oDrain x = true → 0 < cnt)
    (hspans : d.prepareAll part agEngine false ((d.lateSrcs c x u ++ u.stateArrs).flatMap fun a => a.1.spans) = (true, d1))
    (hsrc : readArrs part (d.lateSrcs c x u) (d1.opUnheld c) = (src, f1, d2))
    (hst : readArrs part u.stateArrs d2 = (st, f2, d3)) :
    d.lateGoes c part x u cnt true =
      (d3.readBadVa c part (f1.or f2)).opTakes c (lateApplies x u (lateCount x cnt) (lateSum x src) st) := by
  have hsome : ¬ (oDrain x && decide (cnt = 0)) = true := by
    rw [Bool.and_eq_true, decide_eq_true_eq]
    rintro ⟨hdrain, hzero⟩
    exact absurd (hheld hdrain) (by omega)
  unfold Dev.lateGoes
  dsimp only
  rw [if_pos rfl, hspans, hsrc]
  dsimp only
  rw [if_neg hsome, hst]
  cases f1 <;> rfl

/-! ### OPT_DIGCMP (R380) -/

/-- Digests that differ are an error of the engine, and the miss signal is sent. -/
def Dev.opMisses (d : Dev) (c part : Nat) (x : Desc) : Dev :=
  (((d.errP (pOpte c) 0x0102 (some part)).evtP (pOpte c) 2 (some part)).opCnt c 11 1).opSignal c part (oMiss x)

theorem Dev.op_opMisses (d : Dev) (c part : Nat) (x : Desc) : (d.opMisses c part x).op c = d.op c := by
  rw [Dev.opMisses, Dev.op_opSignal, Dev.op_opCnt, Dev.op_of_opte_eq (Dev.evtP_opte _ _ _ _),
    Dev.op_of_opte_eq (Dev.errP_opte _ _ _ _)]

theorem Dev.opMisses_sigs (d : Dev) (c part : Nat) (x : Desc) :
    (d.opMisses c part x).sigs = d.sigs ++ sends (oMiss x) part (srcEng 0 c 0) := by
  have hcnt : ∀ b : Dev, (b.opCnt c 11 1).sigs = b.sigs := fun b => Dev.cntP_sigs _ _ _ _ _
  rw [Dev.opMisses, Dev.opSignal_sigs, hcnt, Dev.evtP_sigs, Dev.errP_sigs]

section
variable {c part : Nat} {x : Desc} {d d1 d2 d3 : Dev} {a b : Rd}
  (hprep : d.prepareAll part agEngine false [(fld x 0x20 8, 64), (fld x 0x28 8, 64)] = (true, d1))
  (hreadA : d1.tRead part agEngine (fld x 0x20 8) 64 = (a, d2)) (hreadB : d2.tRead part agEngine (fld x 0x28 8) 64 = (b, d3))
  (hfaultA : a.fault = false) (hbadA : a.bad = []) (hfaultB : b.fault = false) (hbadB : b.bad = [])
include hprep hreadA hreadB hfaultA hbadA hfaultB hbadB

theorem optCompare_of_read :
    optCompare c part x d = (if a.bytes = b.bytes then d3 else d3.opMisses c part x).opFinish c part x 0 := by
  simp [optCompare, Dev.opMisses, hprep, hreadA, hreadB, hfaultA, hbadA, hfaultB, hbadB]

end

/-! ### The end of an update (R371, R388) -/

/-- The counters of an update that ends (R366, R371). -/
def Dev.opCounted (d : Dev) (c : Nat) (r : OptRun) : Dev :=
  let f := d.freeNat 62
  (((r.counts.foldl (fun (d : Dev) (k : Nat × Nat) => d.opCnt c k.1 k.2) f.2).opCnt c 12
    (cdiv r.elems 32 * Nat.max 1 r.iters + f.1)).opCnt c 13 f.1).opCnt c 0 1

theorem Dev.opCounted_changesOnly (d : Dev) (c : Nat) (r : OptRun) : changesOnly [.ctr, .free] d (d.opCounted c r) := by
  simp [Dev.opCounted, Dev.freeNat, changesOnly_foldl]

/-- The writes of an update land in order. -/
def Dev.opLands (d : Dev) (part : Nat) (ws : List VaWr) : Dev :=
  ws.foldl (fun (d : Dev) (w : VaWr) => d.tWrite part agEngine w.va w.bytes w.bad) d

theorem Dev.opLands_changesOnly (d : Dev) (part : Nat) (ws : List VaWr) :
    changesOnly [.hdr, .ctr, .mem, .poison, .cores, .tier] d (d.opLands part ws) := by
  simp [Dev.opLands, changesOnly_foldl]

theorem optDone_of_prepared {c part : Nat} {d d1 : Dev} {r : OptRun} (hcur : (d.op c).cur = some r)
    (howner : d.clusterOwner c = some part)
    (hprep : d.prepareAll part agEngine true (r.writes.map fun w => (w.va, w.bytes.length)) = (true, d1)) :
    optDone c d =
      (((d1.opLands part r.writes).opCounted c r).updOp c fun o => { o with cur := none }).opSignal c part (dSig r.desc) := by
  unfold optDone
  rw [hcur, howner]
  dsimp only
  rw [hprep]
  rfl

/-! ### The commands -/

section
variable (c : Fin 16) (s : State)

theorem exec_optUpdate : exec (.optUpdate c) s = onDev (optHead c.val 0x80 optIssue) s := rfl
theorem exec_optLate : exec (.optLate c) s = onDev (optHead c.val 0x81 optIssue) s := rfl
theorem exec_optDigcmp : exec (.optDigcmp c) s = onDev (optHead c.val 0x82 optCompare) s := rfl
theorem exec_optUpdateDone : exec (.optUpdateDone c) s = onDev (optDone c.val) s := rfl
theorem exec_opteSkipHead (v : View) : exec (.opteSkipHead v c) s = onDev (optSkip v c.val) s := rfl

/-- The three commands that issue an engine's head differ in the opcode and in what a head that runs does. -/
theorem exec_of_optCommand {k : (Fin 16 → Instr) × Nat}
    (hk : k ∈ ([(.optUpdate, 0x80), (.optLate, 0x81), (.optDigcmp, 0x82)] : List ((Fin 16 → Instr) × Nat))) :
    ∃ run, exec (k.1 c) s = onDev (optHead c.val k.2 run) s := by
  simp only [List.mem_cons, List.not_mem_nil, or_false] at hk
  rcases hk with rfl | rfl | rfl
  · exact ⟨optIssue, exec_optUpdate c s⟩
  · exact ⟨optIssue, exec_optLate c s⟩
  · exact ⟨optCompare, exec_optDigcmp c s⟩

end

section
variable {c : Fin 16} {s : State} {part : Nat} {x : Desc} {rest : List (Nat × Desc)}

section
variable (h : engineHead s.dev (pOpte c.val) c.val part (s.dev.op c.val).q.queue (s.dev.op c.val).q.stopped x rest)
  (hcur : (s.dev.op c.val).cur = none) {k : (Fin 16 → Instr) × Nat}
  (hk : k ∈ ([(.optUpdate, 0x80), (.optLate, 0x81), (.optDigcmp, 0x82)] : List ((Fin 16 → Instr) × Nat)))
include h hcur hk

theorem completes_optCommand_of_refused (hr : optRefusal x ≠ 0) :
    completes (k.1 c) s fun d =>
      d.op c.val = { s.dev.op c.val with held := none
                                         q := { (s.dev.op c.val).q with stopped := true, reason := optRefusal x } } ∧
      d.mem = s.dev.mem := by
  obtain ⟨run, hexec⟩ := exec_of_optCommand c s hk
  refine completes_of_onDev hexec ?_
  rw [optHead_of_refused run h hcur hr, Dev.op_finish, Dev.finish_mem]
  exact ⟨Dev.op_opRefuse _ _ _ _, Dev.opRefuse_changesOnly _ _ _ _ .mem (by decide)⟩

theorem completes_optCommand_of_skipped (hr : optRefusal x = 0) (hwaits : s.dev.unmet (17 * c.val) x = []) (hop : dOp x = k.2)
    (hskip : s.dev.predSkips (17 * c.val) x = true) :
    completes (k.1 c) s fun d =>
      (d.op c.val).q.queue = rest ∧ (d.op c.val).cur = none ∧ d.mem = s.dev.mem ∧
      d.sigs = s.dev.sigs ++ sends (dSig x) part (srcEng 0 c.val 0) := by
  obtain ⟨run, hexec⟩ := exec_of_optCommand c s hk
  obtain ⟨j, hqueue⟩ := h.head
  have hunheld := s.dev.opUnheld_changesOnly c.val
  have hunheldMem : (s.dev.opUnheld c.val).mem = s.dev.mem := hunheld .mem (by decide)
  have hunheldSigs : (s.dev.opUnheld c.val).sigs = s.dev.sigs := hunheld .sigs (by decide)
  refine completes_of_onDev hexec ?_
  rw [optHead_of_skipped run h hcur hr hwaits hop hskip, Dev.op_finish, Dev.finish_mem, Dev.finish_sigs, Dev.op_opFinish,
    Dev.op_opUnheld, Dev.opFinish_sigs, hunheldSigs, ← hunheldMem]
  exact ⟨by rw [Opte.popped, hqueue]; rfl, hcur, Dev.opFinish_changesOnly _ _ _ _ _ .mem (by decide), rfl⟩

end

/-- A run taken up by an engine that its reads left as it was: the head is gone and the run is in progress. -/
theorem Dev.op_taken {d b : Dev} {k : Nat} (hop : b.op c.val = { d.op c.val with held := none })
    (hqueue : (d.op c.val).q.queue = (k, x) :: rest) (first : Option Nat) (r : OptRun) :
    (((b.readBadVa c.val part first).opTakes c.val r).finish.op c.val).q.queue = rest ∧
    (((b.readBadVa c.val part first).opTakes c.val r).finish.op c.val).cur = some r := by
  have hread := Dev.op_of_changesOnly (b.readBadVa_changesOnly c.val part first) (by decide) c.val
  rw [Dev.op_finish, Dev.op_opTakes, hread, hop, Opte.popped, hqueue]
  exact ⟨rfl, rfl⟩

section
variable (hruns : engineRuns s.dev (pOpte c.val) c.val part (s.dev.op c.val).q.queue (s.dev.op c.val).q.stopped (optRefusal x) x
    rest)
  (hcur : (s.dev.op c.val).cur = none)
include hruns hcur

/-! OPT_UPDATE. -/

section
variable (hop : dOp x = 0x80) {d1 d2 : Dev} {rb : Rd}
  (hprep : s.dev.prepareAll part agEngine false [(oRec x, 256)] = (true, d1))
  (hread : d1.tRead part agEngine (oRec x) 256 = (rb, d2)) (hfault : rb.fault = false) (hbad : rb.bad = [])
include hop hprep hread hfault hbad

theorem completes_optUpdate_of_refused (hu : (UpRec.of rb.bytes).refusal ≠ 0) :
    completes (.optUpdate c) s fun d =>
      (d.op c.val).q = { (s.dev.op c.val).q with stopped := true, reason := (UpRec.of rb.bytes).refusal } := by
  refine completes_of_onDev (exec_optUpdate c s) ?_
  rw [optHead_of_runs hruns hcur hop, optIssue_update_of_refused hop hprep hread hfault hbad hu, Dev.op_finish, Dev.op_opRefuse,
    Dev.op_of_changesOnly (Dev.prepareAll_changesOnly hprep) (by decide)]

theorem completes_optUpdate_of_sound (hu : (UpRec.of rb.bytes).refusal = 0) (hskip : (UpRec.of rb.bytes).skipNf = false)
    {d3 d4 d5 : Dev} {src st : List PEls} {f1 f2 : Option Nat}
    (hspans : d1.prepareAll part agEngine false
      ((d1.gradArr c.val (UpRec.of rb.bytes) :: (UpRec.of rb.bytes).stateArrs).flatMap fun a => a.1.spans) = (true, d3))
    (hsrc : readArrs part [d1.gradArr c.val (UpRec.of rb.bytes)] (d3.opUnheld c.val) = (src, f1, d4))
    (hst : readArrs part (UpRec.of rb.bytes).stateArrs d4 = (st, f2, d5)) :
    let r := (UpRec.of rb.bytes).update (oRec x) 1 (src.getD 0 []) st
    completes (.optUpdate c) s fun d =>
      (d.op c.val).q.queue = rest ∧ (d.op c.val).cur = some ⟨x, r.1, r.2, boxCount (UpRec.of rb.bytes).dims, 1⟩ := by
  obtain ⟨k, hqueue⟩ := hruns.head
  obtain ⟨hreads, -⟩ := op_sigs_of_reads hprep hspans hsrc
  have hstate := Dev.op_of_changesOnly (readArrs_changesOnly hst) (by decide) c.val
  refine completes_of_onDev (exec_optUpdate c s) ?_
  rw [optHead_of_runs hruns hcur hop, optIssue_update_of_sound hop hprep hread hfault hbad hu hskip hspans hsrc hst]
  exact Dev.op_taken (hstate.trans hreads) hqueue _ _

end

/-! OPT_LATE. -/

section
variable {d1 d2 d3 : Dev} {rb hb : Rd} {u : UpRec} (hreads : LateReads s.dev part x d1 d2 d3 rb hb u)
include hreads

theorem completes_optLate_of_misfit
    (h : ¬ (fld hb.bytes 0 4 < u.lag ∧ fld hb.bytes 4 4 = u.tidW ∧ fld hb.bytes 8 8 = boxCount u.dims)) :
    completes (.optLate c) s fun d => (d.op c.val).q = { (s.dev.op c.val).q with stopped := true, reason := 0x24 } := by
  refine completes_of_onDev (exec_optLate c s) ?_
  rw [optHead_of_runs hruns hcur hreads.opcode,
    optIssue_late_of_misfit hreads h, Dev.op_finish, Dev.op_opRefuse,
    Dev.op_of_changesOnly (Dev.prepareAll_changesOnly hreads.prepared) (by decide)]

variable {cnt : Nat} (hcnt : fld hb.bytes 0 4 = cnt) (hlag : cnt < u.lag)
  (hfits : fld hb.bytes 4 4 = u.tidW ∧ fld hb.bytes 8 8 = boxCount u.dims)
include hcnt hlag hfits

theorem completes_optLate_of_full (hready : d1.clHolds c.val (oReady x) (fld x 0x2C 4) = false)
    (hfull : if oDrain x then 0 < cnt else cnt + 1 = u.lag) :
    completes (.optLate c) s fun d =>
      (d.op c.val).held = some (oReady x) ∧ (d.op c.val).q = (s.dev.op c.val).q := by
  refine completes_of_onDev (exec_optLate c s) ?_
  rw [optHead_of_runs hruns hcur hreads.opcode,
    optIssue_late_of_fit hreads hcnt hready hlag hfits,
    if_pos (by simp [hfull]), Dev.op_finish, Dev.op_updOp,
    Dev.op_of_changesOnly (Dev.prepareAll_changesOnly hreads.prepared) (by decide)]
  exact ⟨rfl, rfl⟩

variable {d4 d5 : Dev} {src : List PEls} {f1 : Option Nat}
  (hsrc : readArrs part (d1.lateSrcs c.val x u) (d4.opUnheld c.val) = (src, f1, d5))
include hsrc

theorem completes_optLate_of_waiting (hready : d1.clHolds c.val (oReady x) (fld x 0x2C 4) = false) (hdrain : oDrain x = false)
    (hroom : cnt + 1 ≠ u.lag)
    (hspans : d1.prepareAll part agEngine false ((d1.lateSrcs c.val x u).flatMap fun a => a.1.spans) = (true, d4)) :
    completes (.optLate c) s fun d =>
      (d.op c.val).q.queue = rest ∧ (d.op c.val).cur = some (lateAdds x u cnt (addHeld src)) := by
  obtain ⟨k, hqueue⟩ := hruns.head
  obtain ⟨hop, -⟩ := op_sigs_of_reads hreads.prepared hspans hsrc
  refine completes_of_onDev (exec_optLate c s) ?_
  rw [optHead_of_runs hruns hcur hreads.opcode,
    optIssue_late_of_fit hreads hcnt hready hlag hfits,
    if_neg (by simp [hdrain, hroom]), Bool.false_and, Dev.lateGoes_of_waiting hdrain hspans hsrc]
  exact Dev.op_taken hop hqueue _ _

theorem completes_optLate_of_empty (hdrain : oDrain x = true) (hzero : cnt = 0)
    (hspans : d1.prepareAll part agEngine false ((d1.lateSrcs c.val x u).flatMap fun a => a.1.spans) = (true, d4)) :
    completes (.optLate c) s fun d =>
      (d.op c.val).q.queue = rest ∧ (d.op c.val).cur = none ∧
      d.sigs = s.dev.sigs ++ sends (dSig x) part (srcEng 0 c.val 0) := by
  obtain ⟨k, hqueue⟩ := hruns.head
  obtain ⟨hop, hsigs⟩ := op_sigs_of_reads hreads.prepared hspans hsrc
  have hpoison := d5.readBadVa_changesOnly c.val part f1
  have hpoisonSigs : (d5.readBadVa c.val part f1).sigs = d5.sigs := hpoison .sigs (by decide)
  refine completes_of_onDev (exec_optLate c s) ?_
  subst hzero
  rw [optHead_of_runs hruns hcur hreads.opcode,
    optIssue_late_of_fit hreads hcnt rfl hlag hfits,
    if_neg (by simp [hdrain]), show (!oDrain x || decide (0 < 0)) = false by rw [hdrain]; rfl, Bool.and_false,
    Dev.lateGoes_of_empty hdrain hspans hsrc, Dev.op_finish, Dev.op_opFinish, Dev.finish_sigs, Dev.opFinish_sigs, hpoisonSigs, hsigs,
    Dev.op_of_changesOnly hpoison (by decide), hop, Opte.popped, hqueue]
  exact ⟨rfl, hcur, rfl⟩

theorem completes_optLate_of_ready (hready : d1.clHolds c.val (oReady x) (fld x 0x2C 4) = true) (hheld : oDrain x = true → 0 < cnt)
    {d6 : Dev} {st : List PEls} {f2 : Option Nat}
    (hspans : d1.prepareAll part agEngine false ((d1.lateSrcs c.val x u ++ u.stateArrs).flatMap fun a => a.1.spans) = (true, d4))
    (hst : readArrs part u.stateArrs d5 = (st, f2, d6)) :
    completes (.optLate c) s fun d =>
      (d.op c.val).q.queue = rest ∧ (d.op c.val).cur = some (lateApplies x u (lateCount x cnt) (lateSum x src) st) := by
  obtain ⟨k, hqueue⟩ := hruns.head
  obtain ⟨hop, -⟩ := op_sigs_of_reads hreads.prepared hspans hsrc
  have hstate := Dev.op_of_changesOnly (readArrs_changesOnly hst) (by decide) c.val
  have happlies : (!oDrain x || decide (0 < cnt)) = true := by
    cases hdrain : oDrain x
    · rfl
    · exact decide_eq_true (hheld hdrain)
  refine completes_of_onDev (exec_optLate c s) ?_
  rw [optHead_of_runs hruns hcur hreads.opcode,
    optIssue_late_of_fit hreads hcnt hready hlag hfits,
    if_neg (by simp), happlies, Bool.and_self, Dev.lateGoes_of_ready hheld hspans hsrc hst]
  exact Dev.op_taken (hstate.trans hop) hqueue _ _

end

/-! OPT_DIGCMP. -/

theorem completes_optDigcmp (hop : dOp x = 0x82) {d1 d2 d3 : Dev} {a b : Rd}
    (hprep : s.dev.prepareAll part agEngine false [(fld x 0x20 8, 64), (fld x 0x28 8, 64)] = (true, d1))
    (hreadA : d1.tRead part agEngine (fld x 0x20 8) 64 = (a, d2)) (hreadB : d2.tRead part agEngine (fld x 0x28 8) 64 = (b, d3))
    (hfaultA : a.fault = false) (hbadA : a.bad = []) (hfaultB : b.fault = false) (hbadB : b.bad = []) :
    let src := srcEng 0 c.val 0
    completes (.optDigcmp c) s fun d =>
      (d.op c.val).q.queue = rest ∧
      d.sigs = s.dev.sigs ++ (if a.bytes = b.bytes then [] else sends (oMiss x) part src) ++ sends (dSig x) part src := by
  obtain ⟨k, hqueue⟩ := hruns.head
  have h1 := Dev.prepareAll_changesOnly hprep
  have h2 := Dev.tRead_changesOnly hreadA
  have h3 := Dev.tRead_changesOnly hreadB
  have hreads : d3.op c.val = s.dev.op c.val := by
    rw [Dev.op_of_changesOnly h3 (by decide), Dev.op_of_changesOnly h2 (by decide), Dev.op_of_changesOnly h1 (by decide)]
  have hsigs : d3.sigs = s.dev.sigs :=
    (h3 .sigs (by decide) : d3.sigs = d2.sigs).trans ((h2 .sigs (by decide) : d2.sigs = d1.sigs).trans (h1 .sigs (by decide)))
  refine completes_of_onDev (exec_optDigcmp c s) ?_
  rw [optHead_of_runs hruns hcur hop, optCompare_of_read hprep hreadA hreadB hfaultA hbadA hfaultB hbadB, Dev.op_finish,
    Dev.finish_sigs, Dev.op_opFinish, Dev.opFinish_sigs, Opte.popped]
  split
  case isTrue => exact ⟨by rw [hreads, hqueue]; rfl, by rw [hsigs, List.append_nil]⟩
  case isFalse => exact ⟨by rw [Dev.op_opMisses, hreads, hqueue]; rfl, by rw [Dev.opMisses_sigs, hsigs]⟩

end

theorem completes_optUpdateDone {r : OptRun} {d1 : Dev} (hcur : (s.dev.op c.val).cur = some r)
    (howner : s.dev.clusterOwner c.val = some part)
    (hprep : s.dev.prepareAll part agEngine true (r.writes.map fun w => (w.va, w.bytes.length)) = (true, d1)) :
    completes (.optUpdateDone c) s fun d =>
      (d.op c.val).cur = none ∧ (d.op c.val).q = (s.dev.op c.val).q ∧ d.mem = (d1.opLands part r.writes).mem ∧
      d.sigs = s.dev.sigs ++ sends (dSig r.desc) part (srcEng 0 c.val 0) := by
  have h1 := Dev.prepareAll_changesOnly hprep
  have h2 := d1.opLands_changesOnly part r.writes
  have h3 := (d1.opLands part r.writes).opCounted_changesOnly c.val r
  have hop : ((d1.opLands part r.writes).opCounted c.val r).op c.val = s.dev.op c.val := by
    rw [Dev.op_of_changesOnly h3 (by decide), Dev.op_of_changesOnly h2 (by decide), Dev.op_of_changesOnly h1 (by decide)]
  have hsigs : ((d1.opLands part r.writes).opCounted c.val r).sigs = s.dev.sigs :=
    calc ((d1.opLands part r.writes).opCounted c.val r).sigs = (d1.opLands part r.writes).sigs := h3 .sigs (by decide)
      _ = d1.sigs := h2 .sigs (by decide)
      _ = s.dev.sigs := h1 .sigs (by decide)
  refine completes_of_onDev (exec_optUpdateDone c s) ?_
  rw [optDone_of_prepared hcur howner hprep, Dev.op_finish, Dev.finish_mem, Dev.finish_sigs, Dev.op_opSignal, Dev.op_updOp, hop,
    Dev.opSignal_sigs, ← hsigs]
  exact ⟨rfl, rfl, (Dev.signal_mem _ _ _ _).trans (h3 .mem (by decide)), rfl⟩

end

theorem optSkip_of_stopped {d : Dev} {v : View} {c : Nat} (h : opens d v (pOpte c)) (hstop : (d.op c).q.stopped = true) :
    optSkip v c d = d.updOp c fun o => { o with q := ⟨o.q.queue.tail, false, 0⟩ } :=
  (Dev.through_of_opens h _ _).trans (if_pos hstop)

theorem optSkip_of_going {d : Dev} {v : View} {c : Nat} (h : opens d v (pOpte c)) (hgo : (d.op c).q.stopped = false) :
    optSkip v c d = d :=
  (Dev.through_of_opens h _ _).trans (if_neg (by rw [hgo]; decide))

/-- Settles O34: a head by the first thing in the order of R364 that holds it back, else by what its opcode takes up; the end of
an update and the discard of a refused head, an equation each. -/
theorem optimiserCommands : Obligations.OptimiserCommands := by
  unfold Obligations.OptimiserCommands
  refine ⟨fun k c s part x rest hk h hcur => ⟨fun hr => ?refused, fun hr hwaits hop hskip => ?skipped⟩,
    fun c s part x rest d1 d2 rb hruns hcur hop hprep hread hfault hbad => ⟨fun hu => ?badRecord,
      fun hu hskip d3 d4 d5 src st f1 f2 hspans hsrc hst => ?update⟩,
    fun c s part x rest d1 d2 d3 rb hb hruns hcur hop hprep hread hreadH hfault hbad hfaultH hbadH hu hskip =>
      have hreads : LateReads s.dev part x d1 d2 d3 rb hb (UpRec.of rb.bytes) :=
        ⟨hop, hprep, hread, hreadH, hfault, hbad, hfaultH, hbadH, rfl, hu, hskip⟩
      ⟨fun hmisfit => ?misfit, fun hlag hfits => ⟨fun hready hfull => ?full,
        fun hready hdrain hroom d4 d5 src f hspans hsrc => ?waiting, fun hdrain hzero d4 d5 src f hspans hsrc => ?empty,
        fun hready hheld d4 d5 d6 src st f1 f2 hspans hsrc hst => ?ready⟩⟩,
    fun c s part x rest d1 d2 d3 a b hruns hcur hop hprep hreadA hreadB hfaultA hbadA hfaultB hbadB => ?compare,
    fun c s part r d1 hcur howner hprep => ?done,
    fun v c s h => ⟨fun hstop => ?discarded, fun hgo => ?nothing⟩⟩
  case refused => exact completes_optCommand_of_refused h hcur hk hr
  case skipped => exact completes_optCommand_of_skipped h hcur hk hr hwaits hop hskip
  case badRecord => exact completes_optUpdate_of_refused hruns hcur hop hprep hread hfault hbad hu
  case update => exact completes_optUpdate_of_sound hruns hcur hop hprep hread hfault hbad hu hskip hspans hsrc hst
  case misfit => exact completes_optLate_of_misfit hruns hcur hreads hmisfit
  case full => exact completes_optLate_of_full hruns hcur hreads rfl hlag hfits hready hfull
  case waiting => exact completes_optLate_of_waiting hruns hcur hreads rfl hlag hfits hsrc hready hdrain hroom hspans
  case empty => exact completes_optLate_of_empty hruns hcur hreads rfl hlag hfits hsrc hdrain hzero hspans
  case ready => exact completes_optLate_of_ready hruns hcur hreads rfl hlag hfits hsrc hready hheld hspans hst
  case compare => exact completes_optDigcmp hruns hcur hop hprep hreadA hreadB hfaultA hbadA hfaultB hbadB
  case done => exact completes_optUpdateDone hcur howner hprep
  case discarded => exact becomes_of_onDev (exec_opteSkipHead c s v) (optSkip_of_stopped h hstop)
  case nothing => exact becomes_of_onDev (exec_opteSkipHead c s v) (optSkip_of_going h hgo)

end Sys2Proof.Machine
end

section
/-!
SUPPORT. The numerics watch: what reads of a cluster's watch return after updates, and what settling (R406), a report (R397–R399),
a roll (R400, R401) and a conversion pass (R406) leave of it.
-/

namespace Sys2Proof.Machine

open Sys2Proof.Safety

/-! ### Reads after updates -/

section
variable {a b : Dev} (h : b.nwch = a.nwch) (c i : Nat)
include h

theorem Dev.nw_of_nwch_eq : b.nw c = a.nw c := by rw [Dev.nw, h, ← Dev.nw]

theorem Dev.entry_of_nwch_eq : b.entry c i = a.entry c i := by rw [Dev.entry, Dev.nw_of_nwch_eq h, ← Dev.entry]

end

theorem Dev.nw_of_changesOnly {l : List Comp} {a b : Dev} (h : changesOnly l a b) (hl : .nwch ∉ l) (c : Nat) : b.nw c = a.nw c :=
  Dev.nw_of_nwch_eq (h .nwch hl) c

section
variable (d : Dev) (c i : Nat)

theorem Dev.stepVal_of_evc_eq {a b : Dev} (h : b.evc = a.evc) (e : Entry192) : b.stepVal c e = a.stepVal c e := by
  rw [Dev.stepVal, h, ← Dev.stepVal]

@[simp] theorem Dev.nw_updNw (f : Nwch → Nwch) : (d.updNw c f).nw c = f (d.nw c) := SMap.get_upd _ _ _ _

/-- What an update keeps of a watch, it keeps of every watch. -/
theorem Dev.nw_updNw_keeps {β : Type} {g : Nwch → β} {f : Nwch → Nwch} (h : ∀ n, g (f n) = g n) (j : Nat) :
    g ((d.updNw j f).nw c) = g (d.nw c) := by
  by_cases hcj : c = j
  · rw [hcj, Dev.nw_updNw, h]
  · exact congrArg g (SMap.get_upd_ne _ _ _ _ _ _ hcj)

theorem Dev.nw_updEntry (f : Entry192 → Entry192) :
    (d.updEntry c i f).nw c = { d.nw c with entries := (d.nw c).entries.upd .reset i f } := Dev.nw_updNw d c _

/-- An entry of a table that was changed at that entry. -/
theorem Dev.entry_of_entries_upd {a b : Dev} {f : Entry192 → Entry192}
    (h : (b.nw c).entries = (a.nw c).entries.upd .reset i f) : b.entry c i = f (a.entry c i) := by
  rw [Dev.entry, h, SMap.get_upd, ← Dev.entry]

@[simp] theorem Dev.entry_updEntry (f : Entry192 → Entry192) : (d.updEntry c i f).entry c i = f (d.entry c i) :=
  Dev.entry_of_entries_upd c i (congrArg Nwch.entries (d.nw_updEntry c i f))

@[simp] theorem Dev.nw_finish : d.finish.nw c = d.nw c := Dev.nw_of_nwch_eq (Dev.finish_nwch d) c

@[simp] theorem Dev.entry_finish : d.finish.entry c i = d.entry c i := Dev.entry_of_nwch_eq (Dev.finish_nwch d) c i

@[simp] theorem Dev.nwCnt_nwch (k n : Nat) : (d.nwCnt c k n).nwch = d.nwch := Dev.cntP_nwch _ _ _ _ _

@[simp] theorem Dev.nwEvt_nwch (m : Nat) : (d.nwEvt c m).nwch = d.nwch := Dev.evtP_nwch _ _ _ _

@[simp] theorem Dev.nw_nwCnt (j k n : Nat) : (d.nwCnt j k n).nw c = d.nw c := Dev.nw_of_nwch_eq (Dev.nwCnt_nwch d j k n) c

@[simp] theorem Dev.nw_nwEvt (j m : Nat) : (d.nwEvt j m).nw c = d.nw c := Dev.nw_of_nwch_eq (Dev.nwEvt_nwch d j m) c

@[simp] theorem Dev.entry_nwCnt (j k n : Nat) : (d.nwCnt j k n).entry c i = d.entry c i :=
  Dev.entry_of_nwch_eq (Dev.nwCnt_nwch d j k n) c i

@[simp] theorem Dev.entry_nwEvt (j m : Nat) : (d.nwEvt j m).entry c i = d.entry c i :=
  Dev.entry_of_nwch_eq (Dev.nwEvt_nwch d j m) c i

end

/-! ### Producers that take a scale (R406) -/

/-- The producers of entry i that await its settling take t. -/
def Nwch.giveScale (n : Nwch) (i : Nat) (t : Int) : Nwch :=
  { n with awaits := n.awaits.map fun (a : Await) =>
      if a.entry = i && !a.settled then { a with settled := true, tOut := t } else a }

theorem Nwch.giveScale_settled (n : Nwch) (i : Nat) (t : Int) :
    ∀ a ∈ (n.giveScale i t).awaits, a.entry = i → a.settled = true := by
  intro a ha
  obtain ⟨b, -, rfl⟩ := List.mem_map.1 ha
  split
  case isTrue => exact fun _ => rfl
  case isFalse hb =>
    intro hi
    simpa [hi] using hb

/-- Where no producer of the entry awaits its settling, none takes a scale. -/
theorem Nwch.giveScale_eq_self {n : Nwch} {i : Nat} (h : (n.awaits.any fun (a : Await) => a.entry == i && !a.settled) = false)
    (t : Int) : n.giveScale i t = n := by
  have hawaits : (n.giveScale i t).awaits = n.awaits := by
    refine (List.map_congr_left fun a ha => if_neg ?_).trans (List.map_id _)
    simpa using List.any_eq_false.1 h a ha
  show { n with awaits := (n.giveScale i t).awaits } = n
  rw [hawaits]

/-! ### Settling (R406 step 2) -/

/-- An entry that has settled with a scale. -/
def Entry192.settledWith (e : Entry192) (scale : Byte) : Entry192 := { e with settled := true, scale := scale }

/-- The scale with which an entry settles, and the device after the choice. -/
def Dev.settleScale (d : Dev) (c i : Nat) : Byte × Dev :=
  if (d.entry c i).fmt = 3 ∨ (d.entry c i).fmt = 4 then
    d.scaleFor (vOf (d.entry c i).stepAmax) (d.entry c i).fmt 0 (d.entry c i).scale
  else ((d.entry c i).scale, d)

section
variable (d : Dev) (c i : Nat)

theorem Dev.scaleFor_nwch (h : Val) (fmt margin : Nat) (old : Byte) : (d.scaleFor h fmt margin old).2.nwch = d.nwch :=
  (show changesOnly [.free] d (d.scaleFor h fmt margin old).2 by simp) .nwch (by decide)

theorem Dev.scaleFor_fin (x : Nat) (y : Int) (fmt margin : Nat) (old : Byte) :
    (d.scaleFor (.fin false x y) fmt margin old).1 = chooseScale (.fin false x y) fmt margin := rfl

theorem Dev.settleScale_nwch : (d.settleScale c i).2.nwch = d.nwch := by
  unfold Dev.settleScale
  split
  · exact d.scaleFor_nwch _ _ _ _
  · rfl

theorem Dev.settleScale_fin {x : Nat} {y : Int} (hmax : vOf (d.entry c i).stepAmax = .fin false x y)
    (hfmt : (d.entry c i).fmt = 3 ∨ (d.entry c i).fmt = 4) :
    (d.settleScale c i).1 = chooseScale (.fin false x y) (d.entry c i).fmt 0 := by
  rw [Dev.settleScale, if_pos hfmt, hmax, Dev.scaleFor_fin]

/-- A settled entry has its scale, and its producers have taken it. -/
theorem Dev.nw_settle :
    ∃ t, (d.settle c i).nw c =
      Nwch.giveScale { d.nw c with
        entries := (d.nw c).entries.upd .reset i fun e => e.settledWith (d.settleScale c i).1 } i t := by
  refine ⟨((d.settleScale c i).2.updEntry c i fun e => e.settledWith (d.settleScale c i).1).tOf c i, ?_⟩
  rw [← Dev.nw_of_nwch_eq (d.settleScale_nwch c i) c, ← Dev.nw_updEntry]
  exact Dev.nw_updNw _ c _

theorem Dev.entry_settle :
    (d.settle c i).entry c i = (d.entry c i).settledWith (d.settleScale c i).1 := by
  obtain ⟨t, hnw⟩ := d.nw_settle c i
  exact Dev.entry_of_entries_upd (f := fun e => e.settledWith (d.settleScale c i).1) c i (congrArg Nwch.entries hnw)

theorem Dev.settle_evc : (d.settle c i).evc = d.evc :=
  (show changesOnly [.nwch, .free] d (d.settle c i) by simp) .evc (by decide)

end

/-! ### Reports (R397–R399) -/

/-- An entry after a report (R399). -/
def Entry192.reported (e : Entry192) (r : Report) : Entry192 :=
  { e with
    stepAmax := if e.stepAmax.toNat < r.amax.toNat then r.amax else e.stepAmax
    reports := (e.reports + 1) % 2 ^ 32
    zeros := (e.zeros + r.zeros) % 2 ^ 64
    elements := (e.elements + r.elems) % 2 ^ 64
    nonfin := e.nonfin || r.nonfinite
    grad := e.grad || r.grad }

/-- A report makes an entry settle: it calibrates, has not settled, and has all its reports (R406). -/
def Entry192.completedBy (e : Entry192) (r : Report) : Prop :=
  e.state = .calibrating ∧ e.settled = false ∧ (e.reported r).producers ≤ (e.reported r).reports

/-- Its scale stands: it is Live, or has settled (R406, R409). -/
def Entry192.chosen (e : Entry192) : Prop := e.state = .live ∨ (e.state = .calibrating ∧ e.settled = true)

/-- The cases of a report (R398, R399, R406, R409). -/
theorem Entry192.report_cases (e : Entry192) (r : Report) :
    e.state = .free ∨ e.chosen ∨ e.completedBy r ∨ (e.state = .calibrating ∧ e.settled = false ∧ ¬ e.completedBy r) := by
  unfold Entry192.chosen
  cases hstate : e.state
  case free => exact .inl rfl
  case live => exact .inr (.inl (.inl rfl))
  case calibrating =>
    cases hsettled : e.settled
    case true => exact .inr (.inl (.inr ⟨rfl, rfl⟩))
    case false => exact .inr (.inr ((Classical.em _).imp_right fun h => ⟨rfl, rfl, h⟩))

/-- The device after a report is added to its entry, with a non-finite one counted. -/
def Dev.reportAdded (d : Dev) (c : Nat) (r : Report) : Dev :=
  if r.nonfinite then (d.updEntry c r.entry fun e => e.reported r).nwCnt c 11 1 else d.updEntry c r.entry fun e => e.reported r

section
variable {d : Dev} {c : Nat} {r : Report}

theorem Dev.nw_reportAdded (d : Dev) (c : Nat) (r : Report) :
    (d.reportAdded c r).nw c = { d.nw c with entries := (d.nw c).entries.upd .reset r.entry fun e => e.reported r } := by
  unfold Dev.reportAdded
  split
  · rw [Dev.nw_nwCnt, Dev.nw_updEntry]
  · rw [Dev.nw_updEntry]

theorem Dev.entry_reportAdded (d : Dev) (c : Nat) (r : Report) :
    (d.reportAdded c r).entry c r.entry = (d.entry c r.entry).reported r :=
  Dev.entry_of_entries_upd (f := fun e => e.reported r) c r.entry (congrArg Nwch.entries (d.nw_reportAdded c r))

/-- What a report comes to, in the order of its cases (R398, R399, R406, R409). -/
theorem Dev.report_eq (d : Dev) (c : Nat) (r : Report) :
    d.report c r =
      if (d.entry c r.entry).state = .free then d.nwCnt c 12 1
      else if (d.entry c r.entry).state = .live then
        if (d.reportAdded c r).unsettled c r.entry then
          (d.reportAdded c r).updNw c fun n => n.giveScale r.entry ((d.reportAdded c r).tOf c r.entry)
        else d.reportAdded c r
      else if (d.entry c r.entry).settled then
        ((d.reportAdded c r).nwCnt c 9 1).updNw c fun n => n.giveScale r.entry (((d.reportAdded c r).nwCnt c 9 1).tOf c r.entry)
      else if ((d.reportAdded c r).entry c r.entry).producers ≤ ((d.reportAdded c r).entry c r.entry).reports then
        (d.reportAdded c r).settle c r.entry
      else d.reportAdded c r := rfl

theorem Dev.report_of_free (h : (d.entry c r.entry).state = .free) : d.report c r = d.nwCnt c 12 1 := by
  rw [Dev.report_eq, if_pos h]

/-- A report to a Live entry, or to one that has settled, leaves no producer of the entry waiting for a scale (R406). -/
theorem Dev.nw_report_of_chosen
    (h : (d.entry c r.entry).chosen) :
    ∃ t, (d.report c r).nw c = ((d.reportAdded c r).nw c).giveScale r.entry t := by
  refine ⟨(d.reportAdded c r).tOf c r.entry, ?_⟩
  rw [Dev.report_eq]
  rcases h with hlive | ⟨hcal, hsettled⟩
  case inl =>
    rw [if_neg (by rw [hlive]; decide), if_pos hlive]
    split
    case isTrue => exact Dev.nw_updNw _ _ _
    case isFalse h => exact (Nwch.giveScale_eq_self (Bool.not_eq_true _ ▸ h) _).symm
  case inr =>
    rw [if_neg (by rw [hcal]; decide), if_neg (by rw [hcal]; decide), if_pos hsettled, Dev.nw_updNw, Dev.nw_nwCnt]
    congr 1
    unfold Dev.tOf
    rw [Dev.entry_nwCnt]

theorem Dev.report_of_completed (h : (d.entry c r.entry).completedBy r) : d.report c r = (d.reportAdded c r).settle c r.entry := by
  obtain ⟨hcal, hsettled, hall⟩ := h
  rw [Dev.report_eq, if_neg (by rw [hcal]; decide), if_neg (by rw [hcal]; decide), if_neg (by rw [hsettled]; decide),
    if_pos (by rw [Dev.entry_reportAdded]; exact hall)]

theorem Dev.report_of_awaiting_more (hcal : (d.entry c r.entry).state = .calibrating)
    (hsettled : (d.entry c r.entry).settled = false)
    (h : ¬ (d.entry c r.entry).completedBy r) : d.report c r = d.reportAdded c r := by
  rw [Dev.report_eq, if_neg (by rw [hcal]; decide), if_neg (by rw [hcal]; decide), if_neg (by rw [hsettled]; decide), if_neg]
  rw [Dev.entry_reportAdded]
  exact fun hall => h ⟨hcal, hsettled, hall⟩

/-- A report takes nothing from the reports under way. -/
theorem Dev.nw_report_reports (d : Dev) (c : Nat) (r : Report) : ((d.report c r).nw c).reports = (d.nw c).reports := by
  have hadded : ((d.reportAdded c r).nw c).reports = (d.nw c).reports := by rw [Dev.nw_reportAdded]
  rcases (d.entry c r.entry).report_cases r with hfree | hchosen | hcompleted | ⟨hcal, hsettled, hmore⟩
  · rw [Dev.report_of_free hfree, Dev.nw_nwCnt]
  · obtain ⟨t, hnw⟩ := Dev.nw_report_of_chosen hchosen
    rw [hnw]
    exact hadded
  · obtain ⟨t, hnw⟩ := (d.reportAdded c r).nw_settle c r.entry
    rw [Dev.report_of_completed hcompleted, hnw]
    exact hadded
  · rw [Dev.report_of_awaiting_more hcal hsettled hmore, hadded]

theorem Dev.entry_report_of_counted (hfree : (d.entry c r.entry).state ≠ .free) (hmore : ¬ (d.entry c r.entry).completedBy r) :
    (d.report c r).entry c r.entry = (d.entry c r.entry).reported r := by
  rw [← Dev.entry_reportAdded]
  rcases (d.entry c r.entry).report_cases r with h | hchosen | h | ⟨hcal, hsettled, -⟩
  · exact absurd h hfree
  · obtain ⟨t, hnw⟩ := Dev.nw_report_of_chosen hchosen
    rw [Dev.entry, hnw]
    rfl
  · exact absurd h hmore
  · rw [Dev.report_of_awaiting_more hcal hsettled hmore]

theorem Dev.entry_report_of_completed (h : (d.entry c r.entry).completedBy r) :
    (d.report c r).entry c r.entry =
      ((d.entry c r.entry).reported r).settledWith ((d.reportAdded c r).settleScale c r.entry).1 := by
  rw [Dev.report_of_completed h, Dev.entry_settle, Dev.entry_reportAdded]

/-- A report to an entry whose scale stands, or that settles with it, leaves no producer of the entry waiting for a scale. -/
theorem Dev.report_settles_awaits (h : (d.entry c r.entry).chosen ∨ (d.entry c r.entry).completedBy r) :
    ∀ a ∈ ((d.report c r).nw c).awaits, a.entry = r.entry → a.settled = true := by
  rcases h with hchosen | hcompleted
  · obtain ⟨t, hnw⟩ := Dev.nw_report_of_chosen hchosen
    rw [hnw]
    exact Nwch.giveScale_settled _ _ _
  · obtain ⟨t, hnw⟩ := (d.reportAdded c r).nw_settle c r.entry
    rw [Dev.report_of_completed hcompleted, hnw]
    exact Nwch.giveScale_settled _ _ _

end

/-! ### SCALE_REPORT -/

/-- The device once report i is no longer under way. -/
def Dev.reportTaken (d : Dev) (c i : Nat) : Dev := d.updNw c fun n => { n with reports := n.reports.eraseIdx i }

theorem Dev.entry_reportTaken (d : Dev) (c i j : Nat) : (d.reportTaken c i).entry c j = d.entry c j := by
  rw [Dev.entry, Dev.reportTaken, Dev.nw_updNw, ← Dev.entry]

section
variable {c i : Nat} {d : Dev}

theorem scaleReport_of_none (h : (d.nw c).reports[i]? = none) : scaleReport c i d = d := by rw [scaleReport, h]

theorem scaleReport_of_some {r : Report} (h : (d.nw c).reports[i]? = some r) :
    scaleReport c i d = (d.reportTaken c i).report c r := by rw [scaleReport, h]; rfl

end

section
variable (c : Fin 16) (i : Nat) (s : State)

theorem exec_scaleReport : exec (.scaleReport c i) s = onDev (scaleReport c.val i) s := rfl

theorem completes_scaleReport {r : Report} (h : (s.dev.nw c.val).reports[i]? = some r) :
    let e := s.dev.entry c.val r.entry
    completes (.scaleReport c i) s fun d => (d.nw c.val).reports = (s.dev.nw c.val).reports.eraseIdx i ∧
      (e.state = .free → d.entry c.val r.entry = e) ∧
      (e.state ≠ .free → ¬ e.completedBy r → d.entry c.val r.entry = e.reported r) ∧
      (e.completedBy r → ∃ scale, d.entry c.val r.entry = (e.reported r).settledWith scale ∧
        ∀ x y, vOf (e.reported r).stepAmax = .fin false x y → e.fmt = 3 ∨ e.fmt = 4 →
          scale = chooseScale (.fin false x y) e.fmt 0) ∧
      (e.chosen ∨ e.completedBy r → ∀ a ∈ (d.nw c.val).awaits, a.entry = r.entry → a.settled = true) := by
  intro e
  have he : (s.dev.reportTaken c.val i).entry c.val r.entry = e := s.dev.entry_reportTaken _ _ _
  refine completes_of_onDev (exec_scaleReport c i s) ?_
  rw [scaleReport_of_some h]
  simp only [Dev.nw_finish, Dev.entry_finish]
  rw [← he]
  refine ⟨?reports, fun hfree => ?free, Dev.entry_report_of_counted, fun hcompleted => ?settles, Dev.report_settles_awaits⟩
  case reports => rw [Dev.nw_report_reports, Dev.reportTaken, Dev.nw_updNw]
  case free => rw [Dev.report_of_free hfree, Dev.entry_nwCnt]
  case settles =>
    refine ⟨_, Dev.entry_report_of_completed hcompleted, fun x y hmax hfmt => ?_⟩
    rw [← Dev.entry_reportAdded] at hmax
    exact (Dev.settleScale_fin _ _ _ hmax (by rw [Dev.entry_reportAdded]; exact hfmt)).trans (by rw [Dev.entry_reportAdded]; rfl)

end

/-! ### Rolls (R400, R401) -/

/-- An entry with the step's maximum in its history. -/
def Entry192.pushed (e : Entry192) : Entry192 :=
  { e with history := (slotsOf e).set e.hpos e.stepAmax, hpos := (e.hpos + 1) % e.hlen, hcount := Nat.min (e.hcount + 1) e.hlen }

/-- The roll is the last one of an entry's calibration (R404). -/
def Entry192.calEnds (e : Entry192) : Bool := e.state == .calibrating && e.calLeft ≤ 1

/-- An entry with one step of its calibration counted; with the last it is Live (R404). -/
def Entry192.calStep (e : Entry192) : Entry192 :=
  if e.state = .calibrating then { e with calLeft := e.calLeft - 1, state := if e.calEnds then .live else .calibrating } else e

/-- An entry that begins a step with a scale and a run of silent steps. -/
def Entry192.begun (e : Entry192) (scale : Byte) (run : Nat) (now : Word) : Entry192 :=
  { e with
    scale := scale, silRun := run, lastZf := if e.elements = 0 then 0x3F800000#32 else ratio32 e.zeros e.elements
    stepAmax := 0#32, reports := 0, zeros := 0, elements := 0, nonfin := false, settled := false, lastRoll := now }

/-- Before an entry rolls its waiting producers take its scale. -/
def Dev.rollSettled (d : Dev) (c i : Nat) : Dev := if d.unsettled c i then d.settle c i else d

/-- The entry that rolls differs from the one before its settling in what settling sets. -/
theorem Dev.entry_rollSettled (d : Dev) (c i : Nat) :
    ∃ scale settled, (d.rollSettled c i).entry c i = { d.entry c i with scale := scale, settled := settled } := by
  unfold Dev.rollSettled
  split
  · exact ⟨_, true, d.entry_settle c i⟩
  · exact ⟨_, _, rfl⟩

theorem Dev.rollSettled_evc (d : Dev) (c i : Nat) : (d.rollSettled c i).evc = d.evc := by
  unfold Dev.rollSettled
  split
  · exact d.settle_evc c i
  · rfl

/-- The run of silent steps that a roll leaves: it goes on for a gradient only (R412). -/
def Entry192.rollRun (e : Entry192) : Nat := if e.grad then silentRun e else e.silRun

/-- The last roll of a calibration is counted (R404). -/
def Dev.rollCounted (d : Dev) (c : Nat) (e : Entry192) : Dev := if e.calEnds then (d.nwCnt c 7 1).nwEvt c 16 else d

/-- The scale of an entry at its roll, and the device after the choice: it is chosen from the history where the entry is Live and
has a format. -/
def Dev.rollScale (d : Dev) (e : Entry192) : Byte × Dev :=
  if e.state = .live ∧ e.fmt ≠ 0 then d.scaleFor (histMax e) e.fmt e.margin e.scale else (e.scale, d)

/-- A run of silent steps that has reached its threshold is reported (R413). -/
def Dev.rollSilent (d : Dev) (c i : Nat) (e : Entry192) : Dev :=
  if e.grad && e.rollRun = silenceT e.silThr && e.silRun < e.rollRun then
    ((d.nwEvt c 4).nwCnt c 5 1).updNw c fun n => { n with silentLast := some (n.silentLast.getD i) }
  else d

theorem Dev.roll_eq (d : Dev) (c i : Nat) :
    d.roll c i =
      let d := d.rollSettled c i
      let e := (d.entry c i).pushed
      let p := (d.rollCounted c e).rollScale e.calStep
      ((p.2.rollSilent c i e.calStep).updEntry c i fun _ =>
        e.calStep.begun p.1 e.calStep.rollRun (d.stepVal c (d.entry c i))).nwCnt c 10 1 := by
  rfl

/-- Counting a step of calibration touches the state and the steps left, and nothing where the entry does not calibrate. -/
theorem Entry192.calStep_eq (e : Entry192) :
    e.calStep = { e with
      calLeft := if e.state = .calibrating then e.calLeft - 1 else e.calLeft
      state := if e.state = .calibrating then (if e.calLeft ≤ 1 then .live else .calibrating) else e.state } := by
  unfold Entry192.calStep Entry192.calEnds
  split
  case isTrue h => simp [h]
  case isFalse => rfl

theorem Dev.rollScale_of_live {d : Dev} {e : Entry192} (hlive : e.state = .live) (hfmt : e.fmt ≠ 0) {x : Nat} {y : Int}
    (hmax : histMax e = .fin false x y) : (d.rollScale e).1 = chooseScale (.fin false x y) e.fmt e.margin := by
  rw [Dev.rollScale, if_pos ⟨hlive, hfmt⟩, hmax, Dev.scaleFor_fin]

theorem Dev.entry_roll (d : Dev) (c i : Nat) :
    ∃ e b run, (∃ scale settled, e = { d.entry c i with scale := scale, settled := settled }) ∧
      (d.roll c i).entry c i = e.pushed.calStep.begun (Dev.rollScale b e.pushed.calStep).1 run (d.stepVal c (d.entry c i)) := by
  obtain ⟨scale, settled, he⟩ := d.entry_rollSettled c i
  have hnow : (d.rollSettled c i).stepVal c ((d.rollSettled c i).entry c i) = d.stepVal c (d.entry c i) := by
    rw [Dev.stepVal_of_evc_eq c (d.rollSettled_evc c i), he]
    rfl
  refine ⟨(d.rollSettled c i).entry c i, (d.rollSettled c i).rollCounted c ((d.rollSettled c i).entry c i).pushed,
    ((d.rollSettled c i).entry c i).pushed.calStep.rollRun, ⟨scale, settled, he⟩, ?_⟩
  rw [Dev.roll_eq]
  dsimp only
  rw [Dev.entry_nwCnt, Dev.entry_updEntry, hnow]

section
variable (c : Fin 16) (i : Nat) (s : State)

theorem exec_scaleRoll : exec (.scaleRoll c i) s = onDev (scaleRoll c.val i) s := rfl

theorem completes_scaleRoll (hi : i ≤ 0x3FE) (hfree : (s.dev.entry c.val i).state ≠ .free)
    (hnow : s.dev.stepVal c.val (s.dev.entry c.val i) ≠ (s.dev.entry c.val i).lastRoll) :
    let e := s.dev.entry c.val i
    completes (.scaleRoll c i) s fun d =>
      let f := d.entry c.val i
      f.history = (slotsOf e).set e.hpos e.stepAmax ∧ f.hpos = (e.hpos + 1) % e.hlen ∧
      f.hcount = Nat.min (e.hcount + 1) e.hlen ∧
      f.stepAmax = 0#32 ∧ f.reports = 0 ∧ f.zeros = 0 ∧ f.elements = 0 ∧ f.nonfin = false ∧ f.settled = false ∧
      f.lastRoll = s.dev.stepVal c.val e ∧
      (e.state = .calibrating → f.calLeft = e.calLeft - 1 ∧ f.state = if e.calLeft ≤ 1 then .live else .calibrating) ∧
      (e.state = .live → f.state = .live) ∧
      (∀ x y, f.state = .live → e.fmt ≠ 0 → histMax f = .fin false x y →
        f.scale = chooseScale (.fin false x y) e.fmt e.margin) ∧
      (e.elements = 0 → f.lastZf = 0x3F800000#32) := by
  intro e
  have hroll : scaleRoll c.val i s.dev = s.dev.roll c.val i := if_neg (not_or.2 ⟨by omega, not_or.2 ⟨hfree, hnow⟩⟩)
  obtain ⟨e0, b, run, ⟨scale, settled, he0⟩, hentry⟩ := s.dev.entry_roll c.val i
  refine completes_of_onDev (exec_scaleRoll c i s) ?_
  rw [hroll]
  dsimp only
  rw [Dev.entry_finish, hentry]
  have hscale := @Dev.rollScale_of_live b e0.pushed.calStep
  generalize (Dev.rollScale b e0.pushed.calStep).1 = chosen at hscale ⊢
  rw [Entry192.calStep_eq, he0] at hscale ⊢
  refine ⟨rfl, rfl, rfl, rfl, rfl, rfl, rfl, rfl, rfl, rfl, fun hcal => ⟨if_pos hcal, if_pos hcal⟩,
    fun hlive => (if_neg ?notCal).trans hlive, fun x y hlive hfmt hmax => hscale hlive hfmt hmax, fun hnone => if_pos hnone⟩
  case notCal =>
    show ¬ e.state = .calibrating
    rw [hlive]
    decide

end

/-! ### Conversion passes (R406) -/

/-- Sampling conversion blocks leaves the producers that await conversion as they are. -/
theorem Dev.qBlock_awaits (d : Dev) (c i : Nat) (b : QBlock) (j : Nat) : ((d.qBlock c i b).nw j).awaits = (d.nw j).awaits := by
  have hentry : ∀ (d : Dev) (f : Entry192 → Entry192), ((d.updEntry c i f).nw j).awaits = (d.nw j).awaits := fun d f =>
    Dev.nw_updNw_keeps (g := Nwch.awaits) d j (by intro; rfl) c
  have halarm : ∀ d : Dev, ((d.qAlarm c i).nw j).awaits = (d.nw j).awaits := fun d => by
    unfold Dev.qAlarm
    dsimp only
    rw [Dev.nw_updNw_keeps (g := Nwch.awaits) _ j (by intro; rfl) c, Dev.nw_nwCnt, Dev.nw_nwEvt, hentry]
  unfold Dev.qBlock
  dsimp only
  (repeat' split) <;> simp only [Dev.nw_nwCnt, hentry, halarm]

theorem Dev.sampleBlocks_awaits (d : Dev) (inst : Nat) (bs : List (Nat × QBlock)) (j : Nat) :
    ((d.sampleBlocks inst bs).nw j).awaits = (d.nw j).awaits := by
  unfold Dev.sampleBlocks
  dsimp only
  split
  · rfl
  · refine foldl_keeps (g := fun b => (b.nw j).awaits) (fun b t => ?_) _ _
    split
    · rfl
    · exact Dev.qBlock_awaits _ _ _ _ _

theorem Dev.signal_sigs (d : Dev) (w : Word) (part src : Nat) :
    (d.signal w (partFin part) src).sigs = d.sigs ++ sends w part src := by
  unfold Dev.signal sends
  split
  · rfl
  · exact (List.append_nil _).symm

/-- A conversion pass once its output is written, before its signal: off the list, counted in its page and its entry, sampled. -/
def Dev.convNoted (d : Dev) (c i part : Nat) (a : Await) (dr : Drained) (counts : Page × List (Nat × Nat)) : Dev :=
  let d := d.updNw c fun n => { n with awaits := n.awaits.eraseIdx i }
  let d := counts.2.foldl (fun (d : Dev) (k : Nat × Nat) => d.cntP counts.1 k.1 k.2 (some part)) d
  let grad := a.queue = 1 && (Mm.of a.desc).oGrad
  let d := d.updEntry c a.entry fun e =>
    if e.state = .free then e
    else { e with zeros := (e.zeros + dr.zeros) % 18446744073709551616, elements := (e.elements + dr.elems) % 18446744073709551616
                  grad := e.grad || grad }
  (d.nwCnt c 8 1).sampleBlocks a.core (withEntry a.entry dr.blocks)

theorem Dev.convNoted_changesOnly (d : Dev) (c i part : Nat) (a : Await) (dr : Drained) (counts : Page × List (Nat × Nat)) :
    changesOnly [.hdr, .ctr, .cores, .nwch] d (d.convNoted c i part a dr counts) := by
  simp [Dev.convNoted, changesOnly_foldl]

theorem Dev.convNoted_awaits (d : Dev) (c i part : Nat) (a : Await) (dr : Drained) (counts : Page × List (Nat × Nat)) :
    ((d.convNoted c i part a dr counts).nw c).awaits = (d.nw c).awaits.eraseIdx i := by
  have hcounts : ∀ b : Dev,
      (counts.2.foldl (fun (d : Dev) (k : Nat × Nat) => d.cntP counts.1 k.1 k.2 (some part)) b).nw c = b.nw c :=
    foldl_keeps (g := fun b => b.nw c) (fun b k => Dev.nw_of_nwch_eq (Dev.cntP_nwch _ _ _ _ _) c) counts.2
  unfold Dev.convNoted
  dsimp only
  rw [Dev.sampleBlocks_awaits, Dev.nw_nwCnt, Dev.nw_updEntry]
  dsimp only
  rw [hcounts, Dev.nw_updNw]

/-- The channel of a producer's signals (R58). -/
def Await.src (a : Await) : Nat := if a.queue = 4 then srcEng 3 (a.core / 17 / 4) 0 else srcCore a.core a.queue

/-- An engine may convert its producer i: settled, granted, the first such of its engine, which stands at a boundary (R406). -/
def Dev.mayConvert (d : Dev) (c i : Nat) (a : Await) : Bool :=
  a.settled && a.granted &&
  !(((d.nw c).awaits.take i).any fun (b : Await) => b.core == a.core && b.queue == a.queue && b.settled) && d.atBoundary a

theorem Dev.not_mayConvert (d : Dev) (c i : Nat) (a : Await) :
    (!a.settled || !a.granted ||
      ((d.nw c).awaits.take i).any (fun (b : Await) => b.core == a.core && b.queue == a.queue && b.settled) ||
      !d.atBoundary a) = !d.mayConvert c i a := by
  rw [Dev.mayConvert, Bool.not_and, Bool.not_and, Bool.not_and, Bool.not_not]

section
variable {c i part : Nat} {d : Dev} {a : Await} (ha : (d.nw c).awaits[i]? = some a) (howner : d.clusterOwner c = some part)
include ha howner

theorem conversionPass_of_held (hmay : d.mayConvert c i a = false) : conversionPass c i d = d := by
  rw [conversionPass, ha, howner]
  exact if_pos (by rw [d.not_mayConvert c i a, hmay]; rfl)

theorem conversionPass_of_awake (hmay : d.mayConvert c i a = true) {d1 : Dev}
    (hawake : (if a.queue = 4 then d.wakeKeys (d.mvKeys (a.core / 17 / 4)) else (true, d)) = (true, d1)) :
    conversionPass c i d =
      ((d1.land (convWrites a (d1.convDrain a))).convNoted c i part a (d1.convDrain a)
        (d1.convCounts a (d1.convDrain a).cnt)).signal (dSig a.desc) (partFin part) a.src := by
  rw [conversionPass, ha, howner]
  dsimp only
  rw [if_neg (by rw [d.not_mayConvert c i a, hmay]; decide), hawake]
  rfl

end

section
variable {c : Fin 16} {i part : Nat} {s : State} {a : Await}

theorem exec_conversionPass (c : Fin 16) (i : Nat) (s : State) :
    exec (.conversionPass c i) s = onDev (conversionPass c.val i) s := rfl

theorem completes_conversionPass (ha : (s.dev.nw c.val).awaits[i]? = some a) (howner : s.dev.clusterOwner c.val = some part)
    (hmay : s.dev.mayConvert c.val i a = true) {d1 : Dev}
    (hawake : (if a.queue = 4 then s.dev.wakeKeys (s.dev.mvKeys (a.core / 17 / 4)) else (true, s.dev)) = (true, d1)) :
    completes (.conversionPass c i) s fun d =>
      (d.nw c.val).awaits = (s.dev.nw c.val).awaits.eraseIdx i ∧
      d.mem = (d1.land (convWrites a (d1.convDrain a))).mem ∧
      d.sigs = s.dev.sigs ++ sends (dSig a.desc) part a.src := by
  have hself : d1 = s.dev := by
    split at hawake
    · have hnone := Dev.wakeKeys_of_awake (congrArg Prod.fst hawake)
      exact (congrArg Prod.snd (hawake.symm.trans hnone))
    · exact (congrArg Prod.snd hawake).symm
  have hland := d1.land_changesOnly (convWrites a (d1.convDrain a))
  have hnoted := (d1.land (convWrites a (d1.convDrain a))).convNoted_changesOnly c.val i part a (d1.convDrain a)
    (d1.convCounts a (d1.convDrain a).cnt)
  refine completes_of_onDev (exec_conversionPass c i s) ?_
  rw [conversionPass_of_awake ha howner hmay hawake]
  refine ⟨?awaits, ?mem, ?sigs⟩
  case awaits =>
    rw [Dev.nw_finish, Dev.nw_of_nwch_eq (Dev.signal_nwch _ _ _ _), Dev.convNoted_awaits,
      Dev.nw_of_changesOnly hland (by decide), hself]
  case mem =>
    rw [Dev.finish_mem, Dev.signal_mem]
    exact hnoted .mem (by decide)
  case sigs =>
    have hsigs : Dev.sigs _ = d1.sigs := (hnoted .sigs (by decide)).trans (hland .sigs (by decide))
    rw [Dev.finish_sigs, Dev.signal_sigs, hsigs, hself]

end

end Sys2Proof.Machine
end

section
/-!
SUPPORT. Errors of severity U (R637, R638, R642): containment (R641) takes nothing from what a watch has reported and from the
queued records, and a record is queued while there is room.
-/

namespace Sys2Proof.Machine

open Sys2Proof.Safety

/-! ### Containment keeps what the watch has reported (R417, R641) -/

section
variable (d : Dev) (j : Nat)

theorem Dev.dropAwaits_hwLast (c part : Nat) (pick : Await → Bool) :
    ((d.dropAwaits c part pick).nw j).hwLast = (d.nw j).hwLast := by
  unfold Dev.dropAwaits
  refine (foldl_keeps (g := fun b => (b.nw j).hwLast) (fun b a => ?_) _ _).trans
    (Dev.nw_updNw_keeps (g := Nwch.hwLast) d j (by intro; rfl) c)
  exact congrArg Nwch.hwLast (Dev.nw_of_changesOnly (l := [.poison, .sigs]) (by simp) (by decide) j)

theorem Dev.dropCore_hwLast (inst : Nat) : ((d.dropCore inst).nw j).hwLast = (d.nw j).hwLast :=
  Dev.nw_updNw_keeps (g := Nwch.hwLast) (d.setCore inst .reset) j (by intro; rfl) (inst / 17)

theorem Dev.nw_haltBlk (p : Page) : (d.haltBlk p).nw j = d.nw j :=
  Dev.nw_of_changesOnly (l := [.st, .hdr]) (by simp) (by decide) j

theorem Dev.haltCore_hwLast (inst : Nat) : ((d.haltCore inst).nw j).hwLast = (d.nw j).hwLast := by
  unfold Dev.haltCore
  dsimp only
  split
  · rw [Dev.nw_haltBlk]
  · rw [Dev.nw_haltBlk, Dev.nw_of_nwch_eq (Dev.updCore_nwch _ _ _), Dev.dropAwaits_hwLast]
    exact congrArg Nwch.hwLast (Dev.nw_of_changesOnly (l := [.ctr, .mem, .poison, .cores, .sigs])
      (by simp [changesOnly_foldl]) (by decide) j)

theorem Dev.nw_updMvec (m : Nat) (f : Mvec → Mvec) : (d.updMvec m f).nw j = d.nw j := rfl

theorem Dev.haltMvec_hwLast (m part : Nat) : ((d.haltMvec m part).nw j).hwLast = (d.nw j).hwLast := by
  unfold Dev.haltMvec
  dsimp only
  rw [Dev.nw_haltBlk, Dev.nw_updMvec]
  refine (foldl_keeps (g := fun b => (b.nw j).hwLast) (fun b k => Dev.dropAwaits_hwLast _ _ _ _ _) _ _).trans ?_
  split
  · rfl
  · exact congrArg Nwch.hwLast (Dev.nw_of_changesOnly (l := [.ctr, .mem, .poison, .cores, .sigs]) (by simp) (by decide) j)

theorem Dev.haltUnit_hwLast (part : Nat) (p : Page) : ((d.haltUnit part p).nw j).hwLast = (d.nw j).hwLast := by
  unfold Dev.haltUnit
  cases p.blk
  case core => exact d.haltCore_hwLast j _
  case mvec => exact d.haltMvec_hwLast j _ _
  case opte | rede | dmae | strm | nwch | clst =>
    exact congrArg Nwch.hwLast (Dev.nw_of_changesOnly
      (l := [.st, .hdr, .ctr, .poison, .sigs, .opte, .rede, .tier, .dmae, .strm, .free]) (by simp) (by decide) j)
  all_goals rfl

theorem Dev.haltCluster_hwLast (c : Nat) : ((d.haltCluster c).nw j).hwLast = (d.nw j).hwLast := by
  unfold Dev.haltCluster
  rw [Dev.nw_haltBlk]
  refine foldl_keeps (g := fun b => (b.nw j).hwLast) (fun b p => ?_) _ _
  split
  · rw [Dev.nw_haltBlk]
  · exact b.haltUnit_hwLast j _ p

theorem Dev.haltPart_hwLast (n : Nat) : ((d.haltPart n).nw j).hwLast = (d.nw j).hwLast := by
  have hunits : ∀ b : Dev, (((b.unitsOf n).foldl (fun (d : Dev) p => d.haltUnit n p) b).nw j).hwLast = (b.nw j).hwLast := fun b =>
    foldl_keeps (g := fun b => (b.nw j).hwLast) (fun b p => b.haltUnit_hwLast j n p) _ b
  unfold Dev.haltPart
  refine Eq.trans ?_ (hunits d)
  exact congrArg Nwch.hwLast (Dev.nw_of_changesOnly (l := [.st, .hdr, .parts, .fab]) (by simp [changesOnly_foldl]) (by decide) j)

theorem Dev.haltDevice_hwLast : ((d.haltDevice).nw j).hwLast = (d.nw j).hwLast := by
  unfold Dev.haltDevice
  rw [Dev.nw_haltBlk]
  exact foldl_keeps (g := fun b => (b.nw j).hwLast) (fun b n => b.haltPart_hwLast j n) _ _

/-- A domain's units stop (R641). -/
def Dev.haltDom (d : Dev) (dom : Dom) (dead : Bool) : Dev :=
  match dom with
  | .core i => if dead then d.dropCore i else d.haltCore i
  | .cluster c => d.haltCluster c
  | .part n => d.haltPart n
  | .device => d.haltDevice
  | .none => d

theorem Dev.haltDom_hwLast (dom : Dom) (dead : Bool) : ((d.haltDom dom dead).nw j).hwLast = (d.nw j).hwLast := by
  cases dom with
  | core i =>
    cases dead
    · exact d.haltCore_hwLast j i
    · exact d.dropCore_hwLast j i
  | cluster c => exact d.haltCluster_hwLast j c
  | part n => exact d.haltPart_hwLast j n
  | device => exact d.haltDevice_hwLast j
  | none => rfl

theorem Dev.haltDom_errm (dom : Dom) (dead : Bool) : (d.haltDom dom dead).errm = d.errm := by
  have honly : changesOnly [.st, .hdr, .ctr, .parts, .mem, .poison, .cores, .sigs, .mvec, .nwch, .opte, .rede, .tier, .dmae, .fab,
      .strm, .free] d (d.haltDom dom dead) := by
    unfold Dev.haltDom
    split <;> simp
  exact honly .errm (by decide)

/-- The device once ERRM shows that a domain is being handled, with the handling of what lies inside it merged (R640, R641). -/
def Dev.handling (d : Dev) (dom : Dom) : Dev :=
  { d with errm := { d.errm with handled := (d.errm.handled.filter fun h => !d.domIn h dom) ++ [dom] } }

theorem Dev.contain_changesOnly (dom : Dom) (dead : Bool) :
    changesOnly [.hdr, .ctr] ((d.handling dom).haltDom dom dead) (d.contain dom dead) := by
  unfold Dev.contain
  cases dom <;> simp [Dev.handling, Dev.haltDom]

theorem Dev.contain_hwLast (dom : Dom) (dead : Bool) : ((d.contain dom dead).nw j).hwLast = (d.nw j).hwLast := by
  rw [Dev.nw_of_changesOnly (d.contain_changesOnly dom dead) (by decide), Dev.haltDom_hwLast]
  rfl

theorem Dev.contain_queue (dom : Dom) (dead : Bool) : (d.contain dom dead).errm.queue = d.errm.queue := by
  have honly : (d.contain dom dead).errm = ((d.handling dom).haltDom dom dead).errm :=
    d.contain_changesOnly dom dead .errm (by decide)
  rw [honly, Dev.haltDom_errm]
  rfl

end

/-! ### Errors of severity U (R637, R638, R642) -/

theorem Dev.queueRec_queue (d : Dev) (r : ErrRec) : d.errm.queue ⊆ (d.queueRec r).errm.queue := by
  unfold Dev.queueRec
  dsimp only
  split <;> split
  · exact List.subset_append_left _ _
  · exact List.Subset.refl _
  · exact List.subset_append_left _ _
  · exact List.Subset.refl _

theorem Dev.record_queue (d : Dev) (code : Nat) (p : Page) (sev : Sev) (dom : Dom) (part : Option Nat) (akind addr isle : Nat)
    (esc : Bool) : d.errm.queue ⊆ (d.record code p sev dom part akind addr isle esc).errm.queue := d.queueRec_queue _

/-- A record of severity U is queued while the queue has room (R638). -/
theorem Dev.record_u_mem {d : Dev} (h : d.errm.queue.length < 256) (code : Nat) (p : Page) (dom : Dom) (part : Option Nat)
    (akind addr isle : Nat) (esc : Bool) :
    ∃ r ∈ (d.record code p .u dom part akind addr isle esc).errm.queue, r.code = BitVec.ofNat 16 code ∧ r.sev = .u := by
  have hqueue : ∀ r : ErrRec, r.sev = .u → (d.queueRec r).errm.queue = d.errm.queue ++ [{ r with seq := d.errm.seq }] :=
    fun r hr => by
      unfold Dev.queueRec
      dsimp only
      rw [if_pos (by rw [if_pos hr]; exact h), BitVec.add_sub_cancel]
      rfl
  rw [Dev.record, hqueue _ rfl]
  exact ⟨_, List.mem_append_right _ (List.mem_singleton_self _), rfl, rfl⟩

theorem Dev.uError_hwLast (d : Dev) (code : Nat) (p : Page) (dom : Dom) (akind addr j : Nat) :
    ((d.uError code p dom akind addr).nw j).hwLast = (d.nw j).hwLast := by
  have hrecord : ∀ (b : Dev) code p sev dom part akind addr isle esc,
      (b.record code p sev dom part akind addr isle esc).nw j = b.nw j := fun b _ _ _ _ _ _ _ _ _ =>
    Dev.nw_of_nwch_eq (Dev.record_nwch ..) j
  unfold Dev.uError
  dsimp only
  split
  · rw [hrecord]
  · split
    · rw [Dev.contain_hwLast, Dev.nw_of_nwch_eq (Dev.evt_nwch ..), Dev.nw_of_nwch_eq (Dev.cntP_nwch ..), hrecord, hrecord]
    · rw [Dev.contain_hwLast, hrecord]

theorem Dev.uError_mem {d : Dev} (h : d.errm.queue.length < 256) (code : Nat) (p : Page) (dom : Dom) (akind addr : Nat) :
    ∃ r ∈ (d.uError code p dom akind addr).errm.queue, r.code = BitVec.ofNat 16 code ∧ r.sev = .u := by
  obtain ⟨r, hr, hcode⟩ := Dev.record_u_mem h code p dom (d.domPart dom) akind addr (pageIsle p) false
  refine ⟨r, ?_, hcode⟩
  unfold Dev.uError
  dsimp only
  split
  · exact hr
  · split
    · rw [Dev.contain_queue, Dev.evt_errm, Dev.cntP_errm]
      exact Dev.record_queue _ _ _ _ _ _ _ _ _ _ hr
    · rw [Dev.contain_queue]
      exact hr

end Sys2Proof.Machine
end

section
/-!
SUPPORT. Recomputation of sampled segments (R416, R417), and the commands of the watch.
-/

namespace Sys2Proof.Machine

open Sys2Proof.Safety

/-! ### HW_RECOMPUTE_DONE (R416, R417) -/

/-- The tolerance of a cluster's hardware mode (R416). -/
def Dev.hwTol (d : Dev) (cl : Nat) : Nat := Nat.max 1 (bits (d.reg (pNwch cl) 0x040) 6 4)

/-- The device once a captured segment is recomputed: the capture has ended, one recomputation is counted. -/
def Dev.hwRecomputed (d : Dev) (c : CoreId) : Dev :=
  (d.updCore (d.instOf c) fun k => { k with capture := none }).nwCnt c.cluster.val 0 1

/-- What the unit reports in its own page for a mismatch of a segment (R417). -/
def Dev.hwReported (d : Dev) (c : CoreId) (x : Capture) : Dev :=
  let cl := c.cluster.val
  (((d.errP (pNwch cl) 0x0101 (d.clusterOwner cl)).nwEvt cl 1).nwCnt cl 2 1).updNw cl fun n =>
    { n with hwLast := some (n.hwLast.getD (c.core.val, x.seg.array % 32, x.count % 65536)) }

section
variable {d : Dev} {c : CoreId}

theorem Dev.hwTol_hwRecomputed (d : Dev) (c : CoreId) (cl : Nat) : (d.hwRecomputed c).hwTol cl = d.hwTol cl := by
  have hregs : (d.hwRecomputed c).pg.regs = d.pg.regs :=
    (show changesOnly [.ctr, .cores] d (d.hwRecomputed c) by simp [Dev.hwRecomputed]) .regs (by decide)
  rw [Dev.hwTol, Dev.reg, Dev.regAt, hregs]
  rfl

theorem hwDone_of_none (h : (d.core (d.instOf c)).capture = none) : hwDone c d = d := by
  unfold hwDone
  dsimp only
  rw [h]

section
variable {x : Capture} (h : (d.core (d.instOf c)).capture = some x)
include h

theorem hwDone_of_match (hm : x.seg.outs.any (outMismatch (d.hwTol c.cluster.val)) = false) : hwDone c d = d.hwRecomputed c := by
  rw [← Dev.hwTol_hwRecomputed d c] at hm
  unfold hwDone
  dsimp only
  rw [h]
  exact if_pos (congrArg Bool.not hm)

theorem hwDone_of_mismatch (hm : x.seg.outs.any (outMismatch (d.hwTol c.cluster.val)) = true) :
    hwDone c d = ((d.hwRecomputed c).hwReported c x).uError 0x020A (pCore (d.instOf c)) (.core (d.instOf c)) 0 0 := by
  rw [← Dev.hwTol_hwRecomputed d c] at hm
  unfold hwDone
  dsimp only
  rw [h]
  exact if_neg (fun hn => absurd (hn.symm.trans (congrArg Bool.not hm)) (by decide))

end
end

theorem exec_hwRecomputeDone (c : CoreId) (s : State) : exec (.hwRecomputeDone c) s = onDev (hwDone c) s := rfl

/-- A mismatch stands in NWCH_HW_LAST, unless an earlier one does, and where the error queue has room a record of it is queued. -/
theorem completes_hwRecomputeDone_of_mismatch {c : CoreId} {s : State} {x : Capture}
    (h : (s.dev.core (s.dev.instOf c)).capture = some x)
    (hm : x.seg.outs.any (outMismatch (s.dev.hwTol c.cluster.val)) = true) :
    completes (.hwRecomputeDone c) s fun d =>
      (d.nw c.cluster.val).hwLast =
        some ((s.dev.nw c.cluster.val).hwLast.getD (c.core.val, x.seg.array % 32, x.count % 65536)) ∧
      (s.dev.errm.queue.length < 256 → ∃ r ∈ d.errm.queue, r.code = 0x020A#16 ∧ r.sev = .u) := by
  have herrm : ((s.dev.hwRecomputed c).hwReported c x).errm = s.dev.errm :=
    (show changesOnly [.hdr, .ctr, .cores, .nwch] s.dev ((s.dev.hwRecomputed c).hwReported c x) by
      simp [Dev.hwRecomputed, Dev.hwReported]) .errm (by decide)
  refine completes_of_onDev (exec_hwRecomputeDone c s) ?_
  rw [hwDone_of_mismatch h hm, Dev.nw_finish, Dev.finish_errm, Dev.uError_hwLast]
  refine ⟨?_, fun hroom => Dev.uError_mem (by rw [herrm]; exact hroom) _ _ _ _ _⟩
  rw [Dev.hwReported, Dev.nw_updNw, Dev.nw_nwCnt, Dev.nw_nwEvt, Dev.nw_of_nwch_eq (Dev.errP_nwch _ _ _ _), Dev.hwRecomputed,
    Dev.nw_nwCnt]
  rfl

/-- Settles O35: a report by the case of its entry, a roll by whether the step counter has changed, a conversion pass by whether
its engine may take it, a recomputation by whether it agrees. -/
theorem watchCommands : Obligations.WatchCommands := by
  unfold Obligations.WatchCommands
  refine ⟨fun c i s => ⟨fun hnone => ?noReport, fun r hr => ?report⟩,
    fun c i s => ⟨fun h => ?noRoll, completes_scaleRoll c i s⟩,
    fun c i s a part ha howner => ⟨fun hmay => ?held, fun hmay d1 hawake => ?converted⟩,
    fun c s => ⟨fun hnone => ?noCapture, fun x hx => ⟨fun hm => ?agrees, fun hm => ?differs⟩⟩⟩
  case noReport => exact becomes_of_onDev (exec_scaleReport c i s) (scaleReport_of_none hnone)
  case report =>
    refine completes_mono (completes_scaleReport c i s hr) ?_
    rintro d ⟨hreports, hfree, hcounted, hsettles, hawaits⟩
    refine ⟨hreports, hfree, hcounted, fun hall => ?_, fun h => hawaits (or_assoc.2 h)⟩
    obtain ⟨scale, hentry, hscale⟩ := hsettles hall
    rw [hentry]
    refine ⟨rfl, hall.1, ?_⟩
    rintro f x y hmax rfl hfmt
    exact hscale x y hmax hfmt
  case noRoll => exact becomes_of_onDev (exec_scaleRoll c i s) (if_pos h)
  case held => exact becomes_of_onDev (exec_conversionPass c i s) (conversionPass_of_held ha howner hmay)
  case converted => exact completes_conversionPass ha howner hmay hawake
  case noCapture => exact becomes_of_onDev (exec_hwRecomputeDone c s) (hwDone_of_none hnone)
  case agrees => exact becomes_of_onDev (exec_hwRecomputeDone c s) (hwDone_of_match hx hm)
  case differs => exact completes_hwRecomputeDone_of_mismatch hx hm

end Sys2Proof.Machine
end

section
/-!
SUPPORT. Scale-table commands (R421–R423): what a command on an entry comes to in the order of its statuses, the window, SC_OP
from the head of the unit's queue, and the discard of a refused head.
-/

namespace Sys2Proof.Machine

open Sys2Proof.Safety

/-! ### Commands on an entry (R422) -/

section
variable {c i cmd : Nat} (img : List Byte) {d : Dev}

theorem scCommand_of_no_entry (cmd : Nat) (hi : 0x3FE < i) : scCommand c i cmd img d = (1, d) := if_pos hi

section
variable (hi : i ≤ 0x3FE)
include hi

theorem scCommand_read : scCommand c i 1 img d = (0, d.nwCnt c 13 1) := by
  rw [scCommand, if_neg (by omega), if_pos rfl]

theorem scCommand_settle :
    scCommand c i 3 img d = if (d.entry c i).state ≠ .calibrating then (5, d) else (0, (d.settle c i).nwCnt c 13 1) := by
  rw [scCommand, if_neg (by omega), if_neg (by decide), if_pos rfl]

/-- The commands that change an entry, past the check for producers that await conversion. -/
theorem scCommand_of_change (h : cmd = 2 ∨ cmd = 4 ∨ cmd = 5) :
    scCommand c i cmd img d =
      if d.awaits c i then (2, d)
      else if cmd = 2 then (if imageBad img then (4, d) else (0, (d.writeEntry c i img).nwCnt c 13 1))
      else if cmd = 4 then
        (if (d.entry c i).grad then (3, d) else (0, (d.updEntry c i fun e => { e with state := .free }).nwCnt c 13 1))
      else if (d.entry c i).state = .free then (7, d) else (0, (d.calibrate c i).nwCnt c 13 1) := by
  rw [scCommand, if_neg (by omega), if_neg (by omega), if_neg (by omega)]

theorem scCommand_of_awaits (h : cmd = 2 ∨ cmd = 4 ∨ cmd = 5) (ha : d.awaits c i = true) :
    scCommand c i cmd img d = (2, d) := by
  rw [scCommand_of_change img hi h, if_pos ha]

section
variable (ha : d.awaits c i = false)
include ha

theorem scCommand_write :
    scCommand c i 2 img d = if imageBad img then (4, d) else (0, (d.writeEntry c i img).nwCnt c 13 1) := by
  rw [scCommand_of_change img hi (by decide), if_neg (by rw [ha]; decide), if_pos rfl]

theorem scCommand_free :
    scCommand c i 4 img d =
      if (d.entry c i).grad then (3, d) else (0, (d.updEntry c i fun e => { e with state := .free }).nwCnt c 13 1) := by
  rw [scCommand_of_change img hi (by decide), if_neg (by rw [ha]; decide), if_neg (by decide), if_pos rfl]

theorem scCommand_calibrate :
    scCommand c i 5 img d = if (d.entry c i).state = .free then (7, d) else (0, (d.calibrate c i).nwCnt c 13 1) := by
  rw [scCommand_of_change img hi (by decide), if_neg (by rw [ha]; decide), if_neg (by decide), if_neg (by decide)]

end
end
end

/-- The entry that WRITE makes of an image, where the entry was e and the step counter stands at now (R422). -/
def Entry192.written (e : Entry192) (img : List Byte) (now : Word) : Entry192 :=
  { Entry192.of img with
    grad := (Entry192.of img).grad || e.grad, nonfin := false, settled := false, stepAmax := 0#32, reports := 0, zeros := 0
    elements := 0, qErr := 0#32, qSig := 0#32, qCount := 0, lastRoll := now }

/-- A calibration begins (R404). -/
def Entry192.calibrated (e : Entry192) : Entry192 :=
  { e with state := .calibrating, calLeft := e.hlen, hcount := 0, hpos := 0, history := [], stepAmax := 0#32, reports := 0
           zeros := 0, elements := 0, nonfin := false, settled := false }

section
variable (d : Dev) (c i : Nat)

@[simp] theorem Dev.entry_writeEntry (img : List Byte) :
    (d.writeEntry c i img).entry c i = (d.entry c i).written img (d.stepVal c (Entry192.of img)) := Dev.entry_updEntry d c i _

@[simp] theorem Dev.entry_calibrate : (d.calibrate c i).entry c i = (d.entry c i).calibrated := by
  rw [Dev.calibrate, Dev.entry_nwEvt, Dev.entry_nwCnt, Dev.entry_updEntry]
  rfl

/-- READ leaves the entry as it is, whatever its status. -/
theorem Dev.entry_scCommand_read (img : List Byte) : (scCommand c i 1 img d).2.entry c i = d.entry c i := by
  by_cases hi : 0x3FE < i
  · rw [scCommand_of_no_entry img 1 hi]
  · rw [scCommand_read img (by omega), Dev.entry_nwCnt]

/-- WRITE changes the entry only where its image can be taken and no producer of the entry awaits conversion. -/
theorem Dev.entry_scCommand_write (img : List Byte) :
    (scCommand c i 2 img d).2.entry c i =
      if 0x3FE < i ∨ d.awaits c i ∨ imageBad img then d.entry c i
      else (d.entry c i).written img (d.stepVal c (Entry192.of img)) := by
  by_cases hi : 0x3FE < i
  · rw [scCommand_of_no_entry img 2 hi, if_pos (.inl hi)]
  cases ha : d.awaits c i with
  | true => rw [scCommand_of_awaits img (by omega) (by decide) ha, if_pos (.inr (.inl rfl))]
  | false =>
    rw [scCommand_write img (by omega) ha]
    cases hbad : imageBad img with
    | true => simp
    | false => simp [hi]

/-- What WRITE makes of an entry turns on the table, the producers that await conversion, and the step counters. -/
theorem Dev.entry_scCommand_write_congr {a b : Dev} {c i : Nat} (img : List Byte) (hentries : (b.nw c).entries = (a.nw c).entries)
    (hawaits : (b.nw c).awaits = (a.nw c).awaits) (hevc : b.evc = a.evc) :
    (scCommand c i 2 img b).2.entry c i = (scCommand c i 2 img a).2.entry c i := by
  rw [Dev.entry_scCommand_write, Dev.entry_scCommand_write, Dev.awaits, Dev.awaits, hawaits, Dev.stepVal_of_evc_eq c hevc,
    Dev.entry, Dev.entry, hentries]

/-- A command leaves the unit's queue as it is. -/
theorem Dev.scCommand_queue (cmd : Nat) (img : List Byte) : ((scCommand c i cmd img d).2.nw c).queue = (d.nw c).queue := by
  have hsettle : ((d.settle c i).nw c).queue = (d.nw c).queue := by
    obtain ⟨t, hnw⟩ := d.nw_settle c i
    rw [hnw]
    rfl
  have hentry : ∀ f, ((d.updEntry c i f).nw c).queue = (d.nw c).queue := fun f => by rw [Dev.nw_updEntry]
  unfold scCommand Dev.writeEntry Dev.calibrate
  dsimp only
  (repeat' split) <;> simp only [Dev.nw_nwCnt, Dev.nw_nwEvt, hsettle, hentry]

theorem Dev.scCommand_changesOnly (cmd : Nat) (img : List Byte) :
    changesOnly [.hdr, .ctr, .nwch, .free] d (scCommand c i cmd img d).2 := by simp

end

/-! ### The window's data words (R421) -/

@[simp] theorem length_leBytes (n v : Nat) : (leBytes n v).length = n := by
  induction n generalizing v with
  | zero => rfl
  | succ n ih => rw [leBytes, List.length_cons, ih]

theorem leNat_lt (b : List Byte) : leNat b < 256 ^ b.length := by
  induction b with
  | nil => exact Nat.one_pos
  | cons x xs ih =>
    have hx := x.isLt
    rw [leNat, List.length_cons, Nat.pow_succ]
    omega

/-- The bytes of the number that a byte string spells are the string. -/
theorem leBytes_leNat (b : List Byte) : leBytes b.length (leNat b) = b := by
  induction b with
  | nil => rfl
  | cons x xs ih =>
    have hx := x.isLt
    have hhead : BitVec.ofNat 8 (x.toNat + 256 * leNat xs) = x := BitVec.eq_of_toNat_eq (by rw [BitVec.toNat_ofNat]; omega)
    have htail : (x.toNat + 256 * leNat xs) / 256 = leNat xs := by omega
    rw [leNat, List.length_cons, leBytes, hhead, htail, ih]

/-- A list that fills its pieces is cut into full ones. -/
theorem chunksOf_full {α : Type} {n : Nat} (hn : 0 < n) (k : Nat) {l : List α} (hl : l.length = n * k) :
    (chunksOf n k l).length = k ∧ (chunksOf n k l).flatten = l ∧ ∀ x ∈ chunksOf n k l, x.length = n := by
  induction k generalizing l with
  | zero => exact ⟨rfl, (List.length_eq_zero_iff.1 (by simpa using hl)).symm, fun x hx => absurd hx List.not_mem_nil⟩
  | succ k ih =>
    rw [Nat.mul_succ] at hl
    obtain ⟨hlength, hflatten, hpieces⟩ := ih (l := l.drop n) (by rw [List.length_drop]; omega)
    have hsome : ¬ l.isEmpty = true := by
      rw [List.isEmpty_iff_length_eq_zero]
      omega
    rw [chunksOf, if_neg hsome]
    refine ⟨by rw [List.length_cons, hlength], by rw [List.flatten_cons, hflatten, List.take_append_drop], fun x hx => ?_⟩
    rcases List.mem_cons.1 hx with rfl | hx
    · rw [List.length_take]
      omega
    · exact hpieces x hx

theorem length_historyBytes (e : Entry192) : (historyBytes e).length = 128 := by
  simp only [historyBytes, List.length_flatMap, length_leBytes, List.map_const', List.sum_replicate_nat, List.length_range]

theorem Entry192.length_bytes (e : Entry192) : e.bytes.length = 192 := by
  unfold Entry192.bytes zbytes
  simp only [List.length_append, length_leBytes, List.length_singleton, List.length_replicate, length_historyBytes]

section
variable (d : Dev) (p : Page)

theorem Dev.reg_setReg (off v : Nat) : (d.setReg p off v).reg p off = v % 2 ^ 32 := by
  rw [Dev.reg, Dev.regAt, Dev.setReg, Dev.setRegAt, SMap.get_put, BitVec.toNat_ofNat]

theorem Dev.reg_setReg_ne {off off' : Nat} (h : off' ≠ off) (v : Nat) : (d.setReg p off v).reg p off' = d.reg p off' :=
  congrArg BitVec.toNat (SMap.get_put_ne _ _ _ _ _ _ (by unfold rkey; omega))

/-- The words that replace the data words from word k on. -/
def Dev.setWords (d : Dev) (p : Page) (k : Nat) (ws : List (List Byte)) : Dev :=
  (enumFrom k ws).foldl (fun (d : Dev) (w : Nat × List Byte) => d.setReg p (0x100 + 4 * w.1) (leNat w.2)) d

theorem Dev.reg_setWords_of_lt (ws : List (List Byte)) {k w : Nat} (h : w < k) :
    (d.setWords p k ws).reg p (0x100 + 4 * w) = d.reg p (0x100 + 4 * w) := by
  induction ws generalizing d k with
  | nil => rfl
  | cons x xs ih => exact (ih _ (by omega)).trans (d.reg_setReg_ne p (by omega) _)

/-- Data words read as the bytes that were put there. -/
theorem Dev.regs_setWords {ws : List (List Byte)} (h : ∀ x ∈ ws, x.length = 4) (k : Nat) :
    ((List.range' k ws.length).flatMap fun w => leBytes 4 ((d.setWords p k ws).reg p (0x100 + 4 * w))) = ws.flatten := by
  induction ws generalizing d k with
  | nil => rfl
  | cons x xs ih =>
    have hx : x.length = 4 := h x List.mem_cons_self
    have hlt : leNat x < 2 ^ 32 := by simpa [hx] using leNat_lt x
    have hword : leBytes 4 ((d.setWords p k (x :: xs)).reg p (0x100 + 4 * k)) = x := by
      have hreg : (d.setWords p k (x :: xs)).reg p (0x100 + 4 * k) = leNat x := by
        refine ((d.setReg p (0x100 + 4 * k) (leNat x)).reg_setWords_of_lt p xs (Nat.lt_succ_self k)).trans ?_
        rw [Dev.reg_setReg, Nat.mod_eq_of_lt hlt]
      rw [hreg, ← hx, leBytes_leNat]
    rw [List.length_cons, List.range'_succ, List.flatMap_cons, hword, List.flatten_cons]
    exact congrArg _ (ih (d.setReg p (0x100 + 4 * k) (leNat x)) (fun y hy => h y (List.mem_cons_of_mem _ hy)) (k + 1))

/-- The data words of a cluster's window take the bytes of an image. -/
def Dev.showImage (d : Dev) (c : Nat) (b : List Byte) : Dev := d.setWords (pNwch c) 0 (chunksOf 4 48 b)

theorem Dev.scData_showImage (c : Nat) {b : List Byte} (hb : b.length = 192) : (d.showImage c b).scData c = b := by
  obtain ⟨hlength, hflatten, hwords⟩ := chunksOf_full (n := 4) (by decide) 48 hb
  have hregs := d.regs_setWords (pNwch c) hwords 0
  rw [hlength, hflatten, ← List.range_eq_range'] at hregs
  exact hregs

theorem Dev.showImage_changesOnly (c : Nat) (b : List Byte) : changesOnly [.regs] d (d.showImage c b) := by
  simp [Dev.showImage, Dev.setWords, changesOnly_foldl]

theorem Dev.scData_of_regs_eq {a b : Dev} (h : b.pg.regs = a.pg.regs) (c : Nat) : b.scData c = a.scData c := by
  unfold Dev.scData Dev.reg Dev.regAt
  rw [h]

end

/-! ### The window (R421) -/

/-- The device after a command of the window that ended with st: an image that was read stands in the data words. -/
def Dev.scShown (d : Dev) (c i cmd st : Nat) : Dev :=
  if cmd = 1 ∧ st = 0 then d.showImage c (d.entry c i).bytes else d

theorem Dev.scShown_changesOnly (d : Dev) (c i cmd st : Nat) : changesOnly [.regs] d (d.scShown c i cmd st) := by
  unfold Dev.scShown
  split
  · exact d.showImage_changesOnly c _
  · exact changesOnly_self _ _

/-- The device after a command of the window has shown its status. -/
def Dev.scEnded (d : Dev) (c st : Nat) : Dev := (d.updNw c fun n => { n with scStatus := st }).nwEvt c 32

theorem Dev.nw_scEnded (d : Dev) (c st : Nat) : (d.scEnded c st).nw c = { d.nw c with scStatus := st } := by
  rw [Dev.scEnded, Dev.nw_nwEvt, Dev.nw_updNw]

theorem Dev.scEnded_changesOnly (d : Dev) (c st : Nat) : changesOnly [.hdr, .nwch] d (d.scEnded c st) := by simp [Dev.scEnded]

theorem scWindow_of_opens {d : Dev} {v : View} {c cmd : Nat} (h : opens d v (pNwch c)) (hpos : cmd ≠ 0) (hle : cmd ≤ 5) :
    scWindow v c cmd d =
      let i := d.reg (pNwch c) 0x064
      let r := scCommand c i cmd (d.scData c) d
      (r.2.scShown c i cmd r.1).scEnded c r.1 := by
  refine (Dev.through_of_opens h _ _).trans ((if_neg hpos).trans ?_)
  dsimp only
  rw [if_neg (show ¬ 5 < cmd by omega)]
  rfl

/-- The window's commands differ in their number. -/
theorem exec_of_scCommand {k : (View → Fin 16 → Instr) × Nat} (v : View) (c : Fin 16) (s : State)
    (hk : k ∈ ([(.scRead, 1), (.scWrite, 2), (.scSettle, 3), (.scFree, 4), (.scCalibrate, 5)] :
      List ((View → Fin 16 → Instr) × Nat))) :
    exec (k.1 v c) s = onDev (scWindow v c.val k.2) s ∧ k.2 ≠ 0 ∧ k.2 ≤ 5 := by
  simp only [List.mem_cons, List.not_mem_nil, or_false] at hk
  rcases hk with rfl | rfl | rfl | rfl | rfl <;> exact ⟨rfl, by decide, by decide⟩

theorem completes_scCommand {k : (View → Fin 16 → Instr) × Nat} {v : View} {c : Fin 16} {s : State}
    (hk : k ∈ ([(.scRead, 1), (.scWrite, 2), (.scSettle, 3), (.scFree, 4), (.scCalibrate, 5)] :
      List ((View → Fin 16 → Instr) × Nat))) (h : opens s.dev v (pNwch c.val)) :
    let i := s.dev.reg (pNwch c.val) 0x064
    let r := scCommand c.val i k.2 (s.dev.scData c.val) s.dev
    completes (k.1 v c) s fun d =>
      d.nw c.val = { r.2.nw c.val with scStatus := r.1 } ∧ d.mem = s.dev.mem ∧
      (k.2 = 1 → r.1 = 0 → d.scData c.val = (s.dev.entry c.val i).bytes) := by
  intro i r
  obtain ⟨hexec, hpos, hle⟩ := exec_of_scCommand v c s hk
  have hcommand : changesOnly [.hdr, .ctr, .nwch, .free] s.dev r.2 := s.dev.scCommand_changesOnly c.val i k.2 _
  have hshown := r.2.scShown_changesOnly c.val i k.2 r.1
  have hended := (r.2.scShown c.val i k.2 r.1).scEnded_changesOnly c.val r.1
  refine completes_of_onDev hexec ?_
  rw [scWindow_of_opens h hpos hle]
  refine ⟨?watch, ?mem, fun hread hstatus => ?data⟩
  case watch => rw [Dev.nw_finish, Dev.nw_scEnded, Dev.nw_of_changesOnly hshown (by decide)]
  case mem =>
    rw [Dev.finish_mem]
    exact (hended .mem (by decide)).trans ((hshown .mem (by decide)).trans (hcommand .mem (by decide)))
  case data =>
    have hentry : r.2.entry c.val i = s.dev.entry c.val i := by
      rw [← Dev.entry_scCommand_read s.dev c.val i (s.dev.scData c.val), ← hread]
    rw [Dev.scData_of_regs_eq (Dev.finish_pg_regs _), Dev.scData_of_regs_eq (hended .regs (by decide)), Dev.scShown,
      if_pos ⟨hread, hstatus⟩, Dev.scData_showImage _ _ (Entry192.length_bytes _), hentry]

/-! ### SC_OP (R423) -/

theorem Dev.nw_nwRefuse (d : Dev) (c part reason : Nat) :
    (d.nwRefuse c part reason).nw c = { d.nw c with stopped := true, reason := reason } := by
  rw [Dev.nwRefuse, Dev.nw_nwEvt, Dev.nw_of_nwch_eq (Dev.errP_nwch _ _ _ _), Dev.nw_updNw]

theorem Dev.nwRefuse_changesOnly (d : Dev) (c part reason : Nat) : changesOnly [.hdr, .nwch] d (d.nwRefuse c part reason) := by
  simp

/-- The device once the head has left the unit's queue. -/
def Dev.scGone (d : Dev) (c : Nat) (rest : List (Nat × Desc)) : Dev := d.updNw c fun n => { n with queue := rest }

theorem Dev.nw_scGone (d : Dev) (c : Nat) (rest : List (Nat × Desc)) : (d.scGone c rest).nw c = { d.nw c with queue := rest } :=
  Dev.nw_updNw d c _

/-- What an SC_OP that ends with st writes: the image that READ took, and the status. -/
def Dev.scWritten (d : Dev) (c part : Nat) (x : Desc) (st : Nat) : Dev :=
  (if scCmd x = 1 ∧ st = 0 then d.tWrite part agEngine (scVa x) (d.entry c (scEntry x)).bytes [] else d).tWrite part agEngine
    (scVa x + 0xC0) (leBytes 4 st) []

theorem Dev.scWritten_changesOnly (d : Dev) (c part : Nat) (x : Desc) (st : Nat) :
    changesOnly [.hdr, .ctr, .mem, .poison, .cores, .tier] d (d.scWritten c part x st) := by
  unfold Dev.scWritten
  split <;> simp

/-- An SC_OP leaves the unit with its signal. -/
def Dev.scSignal (d : Dev) (c part : Nat) (x : Desc) : Dev := d.signal (dSig x) (partFin part) (srcEng 2 c 0)

/-- An SC_OP runs whole on the device that has read its image: its command, what it writes, its signal. -/
def Dev.scRun (d : Dev) (c part : Nat) (x : Desc) (img : List Byte) : Dev :=
  let r := scCommand c (scEntry x) (scCmd x) img d
  (r.2.scWritten c part x r.1).scSignal c part x

section
variable {d : Dev} {c part : Nat} {x : Desc} {rest : List (Nat × Desc)}

section
variable (h : engineHead d (pNwch c) c part (d.nw c).queue (d.nw c).stopped x rest)
include h

/-- What the head of the unit's queue comes to, in the order of R423. -/
theorem scOp_of_head :
    scOp c d =
      if scRefusal x ≠ 0 then d.nwRefuse c part (scRefusal x)
      else if d.unmet (17 * c) x ≠ [] then d
      else if d.predSkips (17 * c) x then (d.scGone c rest).scSignal c part x
      else if !d.inT1w part (scVa x) 196 then d.nwRefuse c part 0x20
      else
        let r := d.tRead part agEngine (scVa x) 192
        if scCmd x = 2 ∧ (r.1.fault ∨ r.1.bad ≠ []) then d.nwRefuse c part 0x20
        else
          (if scCmd x = 2 then ((d.scGone c rest).tRead part agEngine (scVa x) 192).2 else d.scGone c rest).scRun c part x
            r.1.bytes := by
  obtain ⟨howner, ⟨k, hqueue⟩, hgoes, hready⟩ := h
  unfold scOp
  dsimp only
  rw [hqueue, howner]
  exact if_neg (by simp [hgoes, hready])

theorem scOp_of_refused (hr : scRefusal x ≠ 0) : scOp c d = d.nwRefuse c part (scRefusal x) := by
  rw [scOp_of_head h, if_pos hr]

theorem scOp_of_skipped (hr : scRefusal x = 0) (hwaits : d.unmet (17 * c) x = []) (hskip : d.predSkips (17 * c) x = true) :
    scOp c d = (d.scGone c rest).scSignal c part x := by
  rw [scOp_of_head h, if_neg (Decidable.not_not.2 hr), if_neg (Decidable.not_not.2 hwaits), if_pos hskip]

end

section
variable (h : engineRuns d (pNwch c) c part (d.nw c).queue (d.nw c).stopped (scRefusal x) x rest)
include h

theorem scOp_of_runs :
    scOp c d =
      if !d.inT1w part (scVa x) 196 then d.nwRefuse c part 0x20
      else
        let r := d.tRead part agEngine (scVa x) 192
        if scCmd x = 2 ∧ (r.1.fault ∨ r.1.bad ≠ []) then d.nwRefuse c part 0x20
        else
          (if scCmd x = 2 then ((d.scGone c rest).tRead part agEngine (scVa x) 192).2 else d.scGone c rest).scRun c part x
            r.1.bytes := by
  rw [scOp_of_head h.toengineHead, if_neg (Decidable.not_not.2 h.checked), if_neg (Decidable.not_not.2 h.waits),
    if_neg (by rw [h.goesOn]; decide)]

theorem scOp_of_no_record (hrec : d.inT1w part (scVa x) 196 = false) : scOp c d = d.nwRefuse c part 0x20 := by
  rw [scOp_of_runs h, hrec]
  rfl

variable (hrec : d.inT1w part (scVa x) 196 = true)
include hrec

theorem scOp_of_other (hcmd : scCmd x ≠ 2) :
    scOp c d = (d.scGone c rest).scRun c part x (d.tRead part agEngine (scVa x) 192).1.bytes := by
  rw [scOp_of_runs h, hrec]
  simp [hcmd]

variable (hcmd : scCmd x = 2) {b : Rd} {d1 : Dev} (hread : d.tRead part agEngine (scVa x) 192 = (b, d1))
include hcmd hread

theorem scOp_of_unreadable_image (hbad : b.fault = true ∨ b.bad ≠ []) : scOp c d = d.nwRefuse c part 0x20 := by
  rw [scOp_of_runs h, hrec, hread]
  exact (if_neg (by decide)).trans (if_pos ⟨hcmd, hbad⟩)

theorem scOp_of_image (hfault : b.fault = false) (hbad : b.bad = []) :
    scOp c d = ((d.scGone c rest).tRead part agEngine (scVa x) 192).2.scRun c part x b.bytes := by
  rw [scOp_of_runs h, hrec, hread]
  simp [hcmd, hfault, hbad]

end
end

/-! What an SC_OP that runs leaves. -/

section
variable (d : Dev) (c part : Nat) (x : Desc) (img : List Byte)

theorem Dev.scSignal_changesOnly : changesOnly [.sigs] d (d.scSignal c part x) := by simp [Dev.scSignal]

theorem Dev.scSignal_sigs : (d.scSignal c part x).sigs = d.sigs ++ sends (dSig x) part (srcEng 2 c 0) := Dev.signal_sigs _ _ _ _

theorem Dev.nw_scRun : (d.scRun c part x img).nw c = (scCommand c (scEntry x) (scCmd x) img d).2.nw c := by
  rw [Dev.scRun, Dev.nw_of_changesOnly (Dev.scSignal_changesOnly _ _ _ _) (by decide),
    Dev.nw_of_changesOnly (Dev.scWritten_changesOnly _ _ _ _ _) (by decide)]

theorem Dev.entry_scRun (i : Nat) : (d.scRun c part x img).entry c i = (scCommand c (scEntry x) (scCmd x) img d).2.entry c i := by
  rw [Dev.entry, Dev.nw_scRun, ← Dev.entry]

theorem Dev.scRun_sigs : (d.scRun c part x img).sigs = d.sigs ++ sends (dSig x) part (srcEng 2 c 0) := by
  have hcommand := d.scCommand_changesOnly c (scEntry x) (scCmd x) img
  have hwritten := (scCommand c (scEntry x) (scCmd x) img d).2.scWritten_changesOnly c part x
    (scCommand c (scEntry x) (scCmd x) img d).1
  have hsigs : Dev.sigs _ = d.sigs := (hwritten .sigs (by decide)).trans (hcommand .sigs (by decide))
  rw [Dev.scRun, Dev.scSignal_sigs, hsigs]

end

/-! ### The commands of the table -/

section
variable {c : Fin 16} {s : State} {part : Nat} {x : Desc} {rest : List (Nat × Desc)}

theorem exec_scOp (c : Fin 16) (s : State) : exec (.scOp c) s = onDev (scOp c.val) s := rfl
theorem exec_nwchSkipHead (v : View) (c : Fin 16) (s : State) : exec (.nwchSkipHead v c) s = onDev (nwSkip v c.val) s := rfl

/-- A refused head stops the queue with its reason, and memory is as it was. -/
theorem completes_scOp_of_refused {reason : Nat} (h : scOp c.val s.dev = s.dev.nwRefuse c.val part reason) :
    completes (.scOp c) s fun d =>
      d.nw c.val = { s.dev.nw c.val with stopped := true, reason := reason } ∧ d.mem = s.dev.mem := by
  refine completes_of_onDev (exec_scOp c s) ?_
  rw [h, Dev.nw_finish, Dev.nw_nwRefuse, Dev.finish_mem]
  exact ⟨rfl, s.dev.nwRefuse_changesOnly c.val part reason .mem (by decide)⟩

theorem completes_scOp_of_skipped
    (h : engineHead s.dev (pNwch c.val) c.val part (s.dev.nw c.val).queue (s.dev.nw c.val).stopped x rest)
    (hr : scRefusal x = 0) (hwaits : s.dev.unmet (17 * c.val) x = []) (hskip : s.dev.predSkips (17 * c.val) x = true) :
    completes (.scOp c) s fun d =>
      d.nw c.val = { s.dev.nw c.val with queue := rest } ∧ d.mem = s.dev.mem ∧
      d.sigs = s.dev.sigs ++ sends (dSig x) part (srcEng 2 c.val 0) := by
  have hsignal := (s.dev.scGone c.val rest).scSignal_changesOnly c.val part x
  refine completes_of_onDev (exec_scOp c s) ?_
  rw [scOp_of_skipped h hr hwaits hskip, Dev.nw_finish, Dev.nw_of_changesOnly hsignal (by decide), Dev.nw_scGone, Dev.finish_mem,
    Dev.finish_sigs, Dev.scSignal_sigs]
  exact ⟨rfl, hsignal .mem (by decide), rfl⟩

section
variable (h : engineRuns s.dev (pNwch c.val) c.val part (s.dev.nw c.val).queue (s.dev.nw c.val).stopped (scRefusal x) x rest)
  (hrec : s.dev.inT1w part (scVa x) 196 = true)
include h hrec

theorem completes_scOp_of_other (hcmd : scCmd x ≠ 2) :
    let r := scCommand c.val (scEntry x) (scCmd x) (s.dev.tRead part agEngine (scVa x) 192).1.bytes (s.dev.scGone c.val rest)
    completes (.scOp c) s fun d =>
      d.nw c.val = r.2.nw c.val ∧ d.mem = (r.2.scWritten c.val part x r.1).mem ∧
      d.sigs = s.dev.sigs ++ sends (dSig x) part (srcEng 2 c.val 0) := by
  refine completes_of_onDev (exec_scOp c s) ?_
  rw [scOp_of_other h hrec hcmd, Dev.nw_finish, Dev.nw_scRun, Dev.finish_mem, Dev.finish_sigs, Dev.scRun_sigs]
  exact ⟨rfl, Dev.scSignal_changesOnly _ _ _ _ .mem (by decide), rfl⟩

/-- WRITE from a readable image changes the entry as the command on the device at hand does. -/
theorem completes_scOp_of_image (hcmd : scCmd x = 2) {b : Rd} {d1 : Dev}
    (hread : s.dev.tRead part agEngine (scVa x) 192 = (b, d1)) (hfault : b.fault = false) (hbad : b.bad = []) :
    completes (.scOp c) s fun d =>
      (d.nw c.val).queue = rest ∧ d.sigs = s.dev.sigs ++ sends (dSig x) part (srcEng 2 c.val 0) ∧
      (scCommand c.val (scEntry x) 2 b.bytes s.dev).2.entry c.val (scEntry x) = d.entry c.val (scEntry x) := by
  have hreads : changesOnly [.hdr, .ctr, .tier] (s.dev.scGone c.val rest)
      ((s.dev.scGone c.val rest).tRead part agEngine (scVa x) 192).2 := Dev.tRead_changesOnly rfl
  have hnw := (Dev.nw_of_changesOnly hreads (by decide) c.val).trans (s.dev.nw_scGone c.val rest)
  have hsigs : Dev.sigs _ = s.dev.sigs := hreads .sigs (by decide)
  have hevc : Dev.evc _ = s.dev.evc := hreads .evc (by decide)
  refine completes_of_onDev (exec_scOp c s) ?_
  rw [scOp_of_image h hrec hcmd hread hfault hbad, Dev.nw_finish, Dev.nw_scRun, Dev.scCommand_queue, hnw, Dev.finish_sigs,
    Dev.scRun_sigs, hsigs, Dev.entry_finish, Dev.entry_scRun, hcmd]
  exact ⟨rfl, rfl, (Dev.entry_scCommand_write_congr _ (by rw [hnw]) (by rw [hnw]) hevc).symm⟩

end
end

/-! ### NWCH_SKIP_HEAD, and the obligation -/

theorem nwSkip_of_stopped {d : Dev} {v : View} {c : Nat} (h : opens d v (pNwch c)) (hstop : (d.nw c).stopped = true) :
    nwSkip v c d = d.updNw c fun n => { n with queue := n.queue.tail, stopped := false, reason := 0 } :=
  (Dev.through_of_opens h _ _).trans (if_pos hstop)

theorem nwSkip_of_going {d : Dev} {v : View} {c : Nat} (h : opens d v (pNwch c)) (hgo : (d.nw c).stopped = false) :
    nwSkip v c d = d :=
  (Dev.through_of_opens h _ _).trans (if_neg (by rw [hgo]; decide))

/-- Settles O36: a command on an entry by the first status of R422 that applies, the window as that command followed by its status
(and its image), an SC_OP by the first thing in the order of R423 that holds its head back. -/
theorem scaleTableCommands : Obligations.ScaleTableCommands := by
  unfold Obligations.ScaleTableCommands
  refine ⟨fun c i cmd img d => ⟨scCommand_of_no_entry img cmd, fun hi => ⟨?read, ?settle,
      fun hcmd ha => scCommand_of_awaits img hi hcmd ha, fun ha => ⟨?write, ?free, ?calibrate⟩⟩⟩,
    fun k v c s hk h => completes_scCommand hk h,
    fun c s part x rest => ⟨fun h hr => ?refused, fun h hr hwaits hskip => completes_scOp_of_skipped h hr hwaits hskip,
      fun h => ⟨fun hrec => ?noRecord, fun hrec hcmd => ?other, fun hrec hcmd b d1 hread => ⟨fun hbad => ?unreadable,
        fun hfault hbad => completes_scOp_of_image h hrec hcmd hread hfault hbad⟩⟩⟩,
    fun v c s h => ⟨fun hstop => ?discarded, fun hgo => ?nothing⟩⟩
  case read =>
    rintro rfl
    rw [scCommand_read img hi]
    exact ⟨rfl, Dev.nwCnt_nwch d c 13 1⟩
  case settle =>
    rintro rfl
    rw [scCommand_settle img hi]
    refine ⟨fun hidle => if_pos hidle, fun hcal => ?_⟩
    rw [if_neg (Decidable.not_not.2 hcal), Dev.entry_nwCnt, Dev.entry_settle]
    exact ⟨rfl, rfl⟩
  case write =>
    rintro rfl
    rw [scCommand_write img hi ha]
    refine ⟨fun hbad => if_pos hbad, fun hgood => ?_⟩
    rw [if_neg (by rw [hgood]; decide), Dev.entry_nwCnt, Dev.entry_writeEntry]
    exact ⟨rfl, rfl, rfl, rfl, rfl, rfl, rfl, rfl, rfl, rfl, rfl⟩
  case free =>
    rintro rfl
    rw [scCommand_free img hi ha]
    refine ⟨fun hgrad => if_pos hgrad, fun hplain => ?_⟩
    rw [if_neg (by rw [hplain]; decide), Dev.entry_nwCnt, Dev.entry_updEntry]
    exact ⟨rfl, rfl⟩
  case calibrate =>
    rintro rfl
    rw [scCommand_calibrate img hi ha]
    refine ⟨fun hfree => if_pos hfree, fun hused => ?_⟩
    rw [if_neg hused, Dev.entry_nwCnt, Dev.entry_calibrate]
    exact ⟨rfl, rfl⟩
  case refused => exact completes_scOp_of_refused (scOp_of_refused h hr)
  case noRecord => exact completes_mono (completes_scOp_of_refused (scOp_of_no_record h hrec)) fun _ hd => hd.1
  case other => exact completes_scOp_of_other h hrec hcmd
  case unreadable =>
    exact completes_mono (completes_scOp_of_refused (scOp_of_unreadable_image h hrec hcmd hread hbad)) fun _ hd => hd.1
  case discarded => exact becomes_of_onDev (exec_nwchSkipHead v c s) (nwSkip_of_stopped h hstop)
  case nothing => exact becomes_of_onDev (exec_nwchSkipHead v c s) (nwSkip_of_going h hgo)

end Sys2Proof.Machine
end

section
/-!
SUPPORT. Sub-ports (R471, R480): how their state reads after each update, and that the fabric transport, which offers its packets
to the ports, leaves their lanes as they are (R520, R529).
-/

namespace Sys2Proof.Machine

open Sys2Proof.Safety

/-! ### A sub-port after an update -/

/-- What one element of a fold brings about, and every element keeps, holds after the fold. -/
theorem foldl_of_mem {α : Type} {P : Dev → Prop} {f : Dev → α → Dev} {x : α} (hset : ∀ b, P (f b x))
    (hkeep : ∀ b y, P b → P (f b y)) {xs : List α} (hx : x ∈ xs) (d : Dev) : P (xs.foldl f d) := by
  induction xs generalizing d with
  | nil => exact absurd hx List.not_mem_nil
  | cons y ys ih =>
    rcases List.mem_cons.1 hx with rfl | hx
    · exact List.foldlRecOn ys f (motive := P) (hset d) fun b hb z _ => hkeep b z hb
    · exact ih hx (f d y)

theorem Dev.sub_of_eth_eq {a b : Dev} (h : b.eth = a.eth) (k : Nat) : b.sub k = a.sub k := by rw [Dev.sub, h, ← Dev.sub]

theorem Dev.sub_of_changesOnly {l : List Comp} {a b : Dev} (h : changesOnly l a b) (hl : .eth ∉ l) (k : Nat) : b.sub k = a.sub k :=
  Dev.sub_of_eth_eq (h .eth hl) k

section
variable (d : Dev) (k j : Nat)

@[simp] theorem Dev.sub_finish : d.finish.sub k = d.sub k := Dev.sub_of_eth_eq d.finish_eth k

@[simp] theorem Dev.sub_ecnt (n amt : Nat) (part : Option Nat) : (d.ecnt k n amt part).sub j = d.sub j :=
  Dev.sub_of_eth_eq (d.cntP_eth _ _ _ part) j

@[simp] theorem Dev.sub_put (o : Output) : (d.put o).sub k = d.sub k := rfl

@[simp] theorem Dev.sub_setSub (x : SubPort) : (d.setSub k x).sub k = x := SMap.get_put _ _ _ _

@[simp] theorem Dev.sub_updSub (f : SubPort → SubPort) : (d.updSub k f).sub k = f (d.sub k) := d.sub_setSub k _

theorem Dev.sub_setSub_ne {j k : Nat} (h : j ≠ k) (x : SubPort) : (d.setSub k x).sub j = d.sub j := SMap.get_put_ne _ _ _ _ _ _ h

/-- What an update keeps of a sub-port, it keeps of every sub-port. -/
theorem Dev.sub_updSub_keeps {β : Type} {g : SubPort → β} {f : SubPort → SubPort} (h : ∀ x, g (f x) = g x) :
    g ((d.updSub k f).sub j) = g (d.sub j) := by
  by_cases hjk : j = k
  · rw [hjk, Dev.sub_updSub, h]
  · exact congrArg g (d.sub_setSub_ne hjk _)

end

/-! ### Lanes -/

/-- The lanes that each sub-port has in use. -/
def Dev.lanesOf (d : Dev) (k : Nat) : Nat := (d.sub k).lanes

theorem Dev.lanesOf_of_eth_eq {a b : Dev} (h : b.eth = a.eth) : b.lanesOf = a.lanesOf :=
  funext fun k => congrArg SubPort.lanes (Dev.sub_of_eth_eq h k)

theorem Dev.lanesOf_of_changesOnly {l : List Comp} {a b : Dev} (h : changesOnly l a b) (hl : .eth ∉ l) : b.lanesOf = a.lanesOf :=
  Dev.lanesOf_of_eth_eq (h .eth hl)

section
variable (d : Dev)

theorem Dev.lanesOf_updSub {f : SubPort → SubPort} (h : ∀ x, (f x).lanes = x.lanes) (k : Nat) :
    (d.updSub k f).lanesOf = d.lanesOf :=
  funext fun j => d.sub_updSub_keeps k j (g := SubPort.lanes) h

theorem Dev.lanesOf_wakeStart (k : Nat) : (d.wakeStart k).lanesOf = d.lanesOf := by
  unfold Dev.wakeStart
  dsimp only
  split
  · rfl
  · exact d.lanesOf_updSub (f := fun s => { s with seq := (s.seq + 1) % 65536, req := none, wakeReq := some _ }) (fun _ => rfl) k

theorem Dev.lanesOf_txNote (k : Nat) : (d.txNote k).lanesOf = d.lanesOf := by
  unfold Dev.txNote
  split
  · exact (Dev.lanesOf_wakeStart _ k).trans (d.lanesOf_updSub (f := fun s => { s with winBad := true }) (fun _ => rfl) k)
  · rfl

/-- A frame is offered to a sub-port (R486). -/
def Dev.offered (d : Dev) (k : Nat) (x : TxItem) : Dev := (d.updSub k fun s => { s with tx := s.tx ++ [x] }).txNote k

theorem Dev.lanesOf_offered (k : Nat) (x : TxItem) : (d.offered k x).lanesOf = d.lanesOf :=
  (Dev.lanesOf_txNote _ k).trans (d.lanesOf_updSub (f := fun s => { s with tx := s.tx ++ [x] }) (fun _ => rfl) k)

theorem Dev.lanesOf_emit (i type flags part flow ce psn ack : Nat) (body : List Byte) :
    (d.emit i type flags part flow ce psn ack body).lanesOf = d.lanesOf := by
  unfold Dev.emit
  split
  · rfl
  split
  · split <;> rfl
  extract_lets l slot k ctr ver header qp addr tag pri
  split
  extract_lets item offered spoken fab sealed counted
  have hoffered : offered.lanesOf = d.lanesOf := d.lanesOf_offered l.sub item
  have hcounted : counted.lanesOf = offered.lanesOf :=
    Dev.lanesOf_of_eth_eq ((Dev.cntP_eth _ _ _ _ _).trans (Dev.cntP_eth _ _ _ _ _))
  split
  · exact hcounted.trans hoffered
  · refine (Dev.lanesOf_of_eth_eq ?_).trans (hcounted.trans hoffered)
    rw [Dev.cntP_eth, Dev.evtP_eth]

theorem Dev.lanesOf_emitFlow (f : SendFlow) (p : FlowPkt) (again : Bool) : (d.emitFlow f p again).lanesOf = d.lanesOf := by
  unfold Dev.emitFlow
  split
  · rfl
  · dsimp only
    split
    · exact (Dev.lanesOf_of_eth_eq (Dev.cntP_eth ..)).trans (d.lanesOf_emit ..)
    · exact d.lanesOf_emit ..

theorem Dev.lanesOf_resend (f : SendFlow) (ps : List FlowPkt) :
    (ps.foldl (fun (b : Dev) p => b.emitFlow f p true) d).lanesOf = d.lanesOf :=
  foldl_keeps (g := Dev.lanesOf) (fun b p => b.lanesOf_emitFlow f p true) ps d

theorem Dev.lanesOf_route (f : SendFlow) : (d.route f).1.lanesOf = d.lanesOf := by
  unfold Dev.route
  dsimp only
  split
  · split
    · rfl
    · split
      · rfl
      · exact d.lanesOf_resend _ _
  · split
    · rfl
    · exact d.lanesOf_resend _ _

theorem Dev.lanesOf_pump (t n : Nat) (f : SendFlow) : (pump t n d f).1.lanesOf = d.lanesOf := by
  induction n generalizing d f with
  | zero => rfl
  | succ n ih =>
    unfold pump
    split
    · rfl
    · split
      · exact (ih _ _).trans (d.lanesOf_emitFlow _ _ false)
      · rfl

theorem Dev.lanesOf_runFlow (f : SendFlow) : (d.runFlow f).lanesOf = d.lanesOf := by
  have hpump := (d.route f).1.lanesOf_pump ((d.route f).1.timer ioIsle) (d.route f).2.waiting.length (d.route f).2
  exact hpump.trans (d.lanesOf_route f)

theorem Dev.lanesOf_runFlows : d.runFlows.lanesOf = d.lanesOf := by
  unfold Dev.runFlows
  exact foldl_keeps (g := Dev.lanesOf) (fun b _ => b.lanesOf_runFlow _) _ d

theorem Dev.lanesOf_fabSend (dev part cls type : Nat) (msg : List Byte) :
    (d.fabSend dev part cls type msg).lanesOf = d.lanesOf := by
  unfold Dev.fabSend
  dsimp only
  refine (Dev.lanesOf_runFlow _ _).trans ?_
  split
  · exact (Dev.lanesOf_of_eth_eq (Dev.cntP_eth ..)).trans (d.lanesOf_route _)
  · exact d.lanesOf_route _

theorem Dev.lanesOf_treeCtrl (t : Tree) (node code off : Nat) : (d.treeCtrl t node code off).lanesOf = d.lanesOf := by
  unfold Dev.treeCtrl
  split
  · rfl
  · exact d.lanesOf_fabSend ..

theorem Dev.lanesOf_treeEnd (t : Tree) (status : Nat) : (d.treeEnd t status).lanesOf = d.lanesOf :=
  Dev.lanesOf_of_changesOnly (changesOnly_of_peel (Dev.treeEnd_only d t status)) (by decide)

theorem Dev.lanesOf_treeCheck (t : Tree) : (d.treeCheck t).lanesOf = d.lanesOf :=
  Dev.lanesOf_of_changesOnly (changesOnly_of_peel (Dev.treeCheck_only d t)) (by decide)

theorem Dev.lanesOf_tRead (n agent va len : Nat) : (d.tRead n agent va len).2.lanesOf = d.lanesOf :=
  Dev.lanesOf_of_changesOnly (changesOnly_of_peel (Dev.tRead_only d n agent va len)) (by decide)

end

theorem Dev.lanesOf_treeFeed (a : Dev × Tree × Bool) (node : Nat) : (Dev.treeFeed a node).1.lanesOf = a.1.lanesOf := by
  obtain ⟨d, t, bad⟩ := a
  unfold Dev.treeFeed
  dsimp only
  split
  · rfl
  split
  · rfl
  split
  · split
    · exact (Dev.lanesOf_of_eth_eq (Dev.poisonRead_eth ..)).trans (d.lanesOf_tRead ..)
    · exact d.lanesOf_tRead ..
  · dsimp only
    split
    · exact (Dev.lanesOf_fabSend ..).trans (d.lanesOf_tRead ..)
    · exact d.lanesOf_tRead ..

theorem Dev.lanesOf_treeFeeds (nodes : List Nat) (a : Dev × Tree × Bool) : (nodes.foldl Dev.treeFeed a).1.lanesOf = a.1.lanesOf :=
  List.foldlRecOn nodes Dev.treeFeed (motive := fun b => b.1.lanesOf = a.1.lanesOf) rfl
    fun b hb node _ => (Dev.lanesOf_treeFeed b node).trans hb

section
variable (d : Dev)

/-- The spans of a tree's object that are to be read are made ready, each in its turn (R538). -/
def Dev.readySpans (d : Dev) (part : Nat) (spans : List (Nat × Nat)) : Bool × Dev :=
  spans.foldl (fun (a : Bool × Dev) (x : Nat × Nat) =>
    (a.1 && (a.2.prepare part agEngine false x.1 x.2).1, (a.2.prepare part agEngine false x.1 x.2).2)) (true, d)

theorem Dev.lanesOf_readySpans (part : Nat) (spans : List (Nat × Nat)) : (d.readySpans part spans).2.lanesOf = d.lanesOf :=
  List.foldlRecOn spans _ (motive := fun b : Bool × Dev => b.2.lanesOf = d.lanesOf) rfl fun b hb x _ =>
    (Dev.lanesOf_of_changesOnly (changesOnly_of_peel (Dev.prepare_only b.2 part agEngine false x.1 x.2)) (by decide)).trans hb

theorem Dev.lanesOf_treePump (t : Tree) : (d.treePump t).lanesOf = d.lanesOf := by
  unfold Dev.treePump
  extract_lets go spans
  dsimp only
  split
  · exact d.lanesOf_readySpans _ _
  split
  · exact (Dev.lanesOf_treeEnd _ _ _).trans ((Dev.lanesOf_treeFeeds _ _).trans (d.lanesOf_readySpans _ _))
  · exact (Dev.lanesOf_treeCheck _ _).trans ((Dev.lanesOf_treeFeeds _ _).trans (d.lanesOf_readySpans _ _))

theorem Dev.lanesOf_regraft (t : Tree) (srv : Nat) : (d.regraft t srv).lanesOf = d.lanesOf := by
  unfold Dev.regraft
  split
  · exact d.lanesOf_treeEnd t 2
  · exact (Dev.lanesOf_of_eth_eq rfl).trans (d.lanesOf_treeCtrl ..)

theorem Dev.lanesOf_treeLost (dev : Nat) (t : Tree) : (Dev.treeLost dev d t).lanesOf = d.lanesOf := by
  unfold Dev.treeLost
  dsimp only
  split
  · exact d.lanesOf_treeEnd t 2
  split
  · exact d.lanesOf_treePump _
  split
  · exact d.lanesOf_regraft _ _
  split
  · exact d.lanesOf_treePump _
  · rfl

theorem Dev.lanesOf_treesLost (dev : Nat) : (d.treesLost dev).lanesOf = d.lanesOf :=
  foldl_keeps (g := Dev.lanesOf) (fun b t => b.lanesOf_treeLost dev t) d.fab.trees d

theorem Dev.lanesOf_declareDead (n : Nat) : (d.declareDead n).lanesOf = d.lanesOf := by
  unfold Dev.declareDead
  refine (Dev.lanesOf_treesLost _ n).trans (Dev.lanesOf_of_changesOnly
    (l := [.hdr, .ctr, .mem, .poison, .isles, .cores, .sigs, .rede, .tokx, .tier, .fab, .errm]) ?_ (by decide))
  split <;> simp

theorem Dev.lanesOf_linkDown (i : Nat) : (d.linkDown i).lanesOf = d.lanesOf := by
  unfold Dev.linkDown
  dsimp only
  split
  · rfl
  split
  · exact Dev.lanesOf_runFlows _
  · exact Dev.lanesOf_declareDead _ _

theorem Dev.sub_setLanes (k n : Nat) : (d.setLanes k n).sub k = { d.sub k with lanes := n } := by
  unfold Dev.setLanes
  split
  case isTrue h => rw [← h]
  case isFalse => rw [Dev.sub_of_eth_eq (Dev.evtAll_eth _ _ _), Dev.sub_updSub]

theorem Dev.sub_setLanes_ne {j k : Nat} (h : j ≠ k) (n : Nat) : (d.setLanes k n).sub j = d.sub j := by
  unfold Dev.setLanes
  split
  · rfl
  · exact (Dev.sub_of_eth_eq (Dev.evtAll_eth _ _ _) j).trans (d.sub_setSub_ne h _)

/-- The loss of a sub-port's link takes the lanes of that sub-port only (R520). -/
theorem Dev.lanesOf_subDown (k j : Nat) : (d.subDown k).lanesOf j = if j = k then 0 else d.lanesOf j := by
  unfold Dev.subDown
  split
  case isTrue hdown =>
    split
    case isTrue hj => rw [hj, Dev.lanesOf, hdown]
    case isFalse => rfl
  case isFalse =>
    dsimp only
    rw [foldl_keeps (g := Dev.lanesOf) Dev.lanesOf_linkDown, Dev.lanesOf_updSub _
      (f := fun s => { s with req := none, wakeReq := none, hold := none, wakeNext := false, pause := [] }) (fun _ => rfl),
      Dev.lanesOf, Dev.sub_ecnt]
    split
    case isTrue hj => rw [hj, Dev.sub_setLanes]
    case isFalse hj => rw [Dev.sub_setLanes_ne _ hj, ← Dev.lanesOf]

end

end Sys2Proof.Machine
end

section
/-!
SUPPORT. Writes of ETHP_MODE, ETHP_QPq_CFG and ETHP_EBB_CTL (R493, R502, R503): the bits that a write of a plain register takes,
and what each of the three writes comes to.
-/

namespace Sys2Proof.Machine

open Sys2Proof.Safety

/-! ### Plain registers -/

theorem Dev.reg_of_changesOnly {l : List Comp} {a b : Dev} (h : changesOnly l a b) (hl : .regs ∉ l) (p : Page) (off : Nat) :
    b.reg p off = a.reg p off := by
  have hregs : b.pg.regs = a.pg.regs := h .regs hl
  rw [Dev.reg, Dev.regAt, hregs, ← Dev.regAt, ← Dev.reg]

@[simp] theorem Dev.reg_finish (d : Dev) (p : Page) (off : Nat) : d.finish.reg p off = d.reg p off :=
  Dev.reg_of_changesOnly (changesOnly_of_peel (Dev.finish_only d)) (by decide) p off

/-- A field within the writable bits takes what is written. -/
theorem bits_masked {m : Word} {hi lo : Nat} (hm : ∀ i, i < hi + 1 → lo ≤ i → m.getLsbD i = true) (a w : Word) :
    bits (a &&& ~~~m ||| w &&& m).toNat hi lo = bits w.toNat hi lo := by
  refine Nat.eq_of_testBit_eq fun i => ?_
  simp only [bits, Nat.testBit_mod_two_pow, Nat.testBit_shiftRight, BitVec.testBit_toNat]
  by_cases hi' : i < hi + 1 - lo
  · have hbit := hm (lo + i) (by omega) (by omega)
    simp [hbit]
  · simp [hi']

theorem Dev.bits_wrReg {p : Page} {off : Nat} {r : RegRow} (hr : regRow p.blk off = some r) (hscope : r.scope = .page)
    {hi lo : Nat} (hm : ∀ i, i < hi + 1 → lo ≤ i → (BitVec.ofNat 32 r.mask).getLsbD i = true) (d : Dev) (v : View) (w : Word) :
    bits ((d.wrReg v p off w).reg p off) hi lo = bits w.toNat hi lo := by
  have hsc : d.scopeOf v p off = 0 := by rw [Dev.scopeOf, hr, Option.map_some, hscope]
  rw [Dev.wrReg, hr]
  dsimp only
  rw [hsc, Dev.reg, Dev.regAt, Dev.setRegAt, SMap.get_put]
  exact bits_masked hm _ w

theorem Dev.privOnly_of_opens {d : Dev} {p : Page} (h : opens d .pf p) (off : Nat) (f : Dev → Dev) : d.privOnly .pf p off f = f d :=
  Dev.through_of_opens h off _

/-! ### ETHP_MODE (R471, R493) -/

/-- The device after the split mode of a port has changed (R493). -/
def Dev.resplit (d : Dev) (port : Nat) : Dev :=
  (List.range 64).foldl (fun (b : Dev) q => b.setReg (pEthp port) (0x400 + 16 * q) (b.qpCfg port q / 2 * 2))
    ((List.range 4).foldl (fun (b : Dev) n => b.subDown (subKey port n)) d)

section
variable {d : Dev} {port : Nat} (w : Word)

theorem bits_split_wrReg : bits ((d.wrReg .pf (pEthp port) 0x040 w).reg (pEthp port) 0x040) 1 0 = bits w.toNat 1 0 :=
  Dev.bits_wrReg (r := ⟨0x040, 4, 1, 0x33, 0, .page⟩) rfl rfl (by decide) d .pf w

theorem modeWrite_of_enabled (h : opens d .pf (pEthp port)) (hst : d.bst (pEthp port) ≠ .disabled) :
    modeWrite .pf port w d = d.err .pf (pEthp port) 0x0003 :=
  (Dev.privOnly_of_opens h _ _).trans (if_pos hst)

theorem modeWrite_of_disabled (h : opens d .pf (pEthp port)) (hst : d.bst (pEthp port) = .disabled) :
    modeWrite .pf port w d =
      if bits w.toNat 1 0 = bits (d.reg (pEthp port) 0x040) 1 0 then d.wrReg .pf (pEthp port) 0x040 w
      else (d.wrReg .pf (pEthp port) 0x040 w).resplit port := by
  refine (Dev.privOnly_of_opens h _ _).trans ((if_neg (not_not_intro hst)).trans ?_)
  dsimp only
  rw [bits_split_wrReg]
  rfl

end

section
variable (d : Dev) (port : Nat)

theorem Dev.reg_resplit : (d.resplit port).reg (pEthp port) 0x040 = d.reg (pEthp port) 0x040 := by
  refine (foldl_keeps (g := fun b => b.reg (pEthp port) 0x040) (fun b q => b.reg_setReg_ne _ (by omega) _) _ _).trans ?_
  exact foldl_keeps (g := fun b => b.reg (pEthp port) 0x040)
    (fun b n => Dev.reg_of_changesOnly (changesOnly_of_peel (Dev.subDown_only b _)) (by decide) _ _) _ d

theorem Dev.qpCfg_resplit {q : Nat} (hq : q < 64) : (d.resplit port).qpCfg port q % 2 = 0 := by
  refine foldl_of_mem (x := q) (P := fun b => b.qpCfg port q % 2 = 0) (fun b => ?cleared) (fun b y hb => ?kept)
    (List.mem_range.2 hq) _
  case cleared =>
    rw [Dev.qpCfg, Dev.reg_setReg]
    omega
  case kept =>
    by_cases hy : y = q
    · rw [hy, Dev.qpCfg, Dev.reg_setReg]
      omega
    · rwa [Dev.qpCfg, Dev.reg_setReg_ne _ _ (by omega)]

theorem Dev.lanes_resplit {n : Nat} (hn : n < 4) : ((d.resplit port).sub (subKey port n)).lanes = 0 := by
  have hregs : changesOnly [.regs] ((List.range 4).foldl (fun (b : Dev) n => b.subDown (subKey port n)) d) (d.resplit port) := by
    simp [Dev.resplit, changesOnly_foldl]
  rw [Dev.sub_of_changesOnly hregs (by decide)]
  refine foldl_of_mem (x := n) (P := fun b => b.lanesOf (subKey port n) = 0) (fun b => ?gone) (fun b y hb => ?kept)
    (List.mem_range.2 hn) d
  case gone => rw [Dev.lanesOf_subDown, if_pos rfl]
  case kept =>
    rw [Dev.lanesOf_subDown]
    split
    · rfl
    · exact hb

end

/-! ### ETHP_EBB_CTL (R502) -/

/-- The lockout of every sub-port of a port ends (R502). -/
def Dev.unlocked (d : Dev) (port : Nat) : Dev :=
  (List.range 4).foldl (fun (b : Dev) n => b.updSub (subKey port n) fun s => { s with locked := false, fails := 0 }) d

theorem ebbCtlWrite_of_opens {d : Dev} {port : Nat} (h : opens d .pf (pEthp port)) (w : Word) :
    ebbCtlWrite .pf port w d = (d.wrReg .pf (pEthp port) 0x160 w).unlocked port := Dev.privOnly_of_opens h _ _

section
variable (d : Dev) (port : Nat)

theorem Dev.reg_unlocked (p : Page) (off : Nat) : (d.unlocked port).reg p off = d.reg p off :=
  Dev.reg_of_changesOnly (l := [.eth]) (by simp [Dev.unlocked, changesOnly_foldl]) (by decide) p off

theorem Dev.sub_unlocked {n : Nat} (hn : n < 4) :
    ((d.unlocked port).sub (subKey port n)).locked = false ∧ ((d.unlocked port).sub (subKey port n)).fails = 0 := by
  refine foldl_of_mem (x := n) (P := fun b => (b.sub (subKey port n)).locked = false ∧ (b.sub (subKey port n)).fails = 0)
    (fun b => ?unlocked) (fun b y hb => ?kept) (List.mem_range.2 hn) d
  case unlocked =>
    rw [Dev.sub_updSub]
    exact ⟨rfl, rfl⟩
  case kept =>
    by_cases hy : subKey port n = subKey port y
    · rw [hy, Dev.sub_updSub]
      exact ⟨rfl, rfl⟩
    · rwa [Dev.updSub, Dev.sub_setSub_ne _ hy]

end

/-! ### ETHP_QPq_CFG with enable = 1 (R493, R503) -/

/-- What R493 drops a write of enable = 1 for. -/
def Dev.qpBarred (d : Dev) (port q n : Nat) : Prop :=
  let own := d.qpOwner port q
  let strm := bits (d.qpBind port q) 5 0
  bits n 2 1 = 0 ∨ bits n 2 1 = 3 ∨ own = none ∨ (bits n 2 1 = 2 ∧ (47 < strm ∨ d.strmOwner strm ≠ own)) ∨
    splitSubs (d.reg (pEthp port) 0x040) ≤ bits n 5 4

theorem bit_enable (w : Word) : bit (w ||| 1).toNat 0 = true := by
  rw [bit, BitVec.testBit_toNat]
  simp

/-- CFG stands once on the page, and its fields up to sub, and pri, can be written. -/
theorem regRow_qpCfg {q : Nat} (hq : q < 64) : regRow .ethp (0x400 + 16 * q) = some ⟨0x400, 16, 64, 0x73F, 0, .page⟩ :=
  (by decide : ∀ q : Fin 64, regRow .ethp (0x400 + 16 * q.val) = some ⟨0x400, 16, 64, 0x73F, 0, .page⟩) ⟨q, hq⟩

section
variable {d : Dev} {v : View} {port q : Nat} (w : Word) (h : opens d v (pEthp port))
include h

theorem qpWrite_of_foreign {m : Fin 16} (hv : v = .vf m) (hown : d.qpOwner port q ≠ some m.val) :
    qpWrite v port q 0 w d = d.violR m (pEthp port) (0x400 + 16 * q) := by
  subst hv
  have hreach : d.qpReach (.vf m) port q = false := beq_eq_false_iff_ne.2 hown
  rw [qpWrite, Dev.through_of_opens h, hreach]
  rfl

section
variable (hreach : d.qpReach v port q = true)
include hreach

/-- A write of enable = 1 through a view that reaches the queue pair. -/
theorem qpWrite_enable [Decidable (d.qpBarred port q (w ||| 1).toNat)] :
    qpWrite v port q 0 (w ||| 1) d =
      if bit (d.qpCfg port q) 0 then d.err v (pEthp port) 0x0003
      else if d.qpBarred port q (w ||| 1).toNat then d.err v (pEthp port) 0x0101
      else (d.wrReg v (pEthp port) (0x400 + 16 * q) (w ||| 1)).runFlows := by
  rw [qpWrite, Dev.through_of_opens h]
  simp only [hreach, bit_enable, Bool.not_true, Bool.false_eq_true, and_false, decide_false, Bool.not_false, and_true, and_self,
    if_false, if_true]
  exact ite_congr rfl (fun _ => rfl) fun _ => ite_congr rfl (fun _ => rfl) fun _ => rfl

theorem qpWrite_of_enabled (hen : bit (d.qpCfg port q) 0 = true) :
    qpWrite v port q 0 (w ||| 1) d = d.err v (pEthp port) 0x0003 := by
  classical
  exact (qpWrite_enable w h hreach).trans (if_pos hen)

variable (hdis : bit (d.qpCfg port q) 0 = false)
include hdis

theorem qpWrite_of_barred (hbar : d.qpBarred port q (w ||| 1).toNat) :
    qpWrite v port q 0 (w ||| 1) d = d.err v (pEthp port) 0x0101 := by
  classical
  exact (qpWrite_enable w h hreach).trans ((if_neg (Bool.eq_false_iff.1 hdis)).trans (if_pos hbar))

theorem qpWrite_of_clear (hclear : ¬ d.qpBarred port q (w ||| 1).toNat) :
    qpWrite v port q 0 (w ||| 1) d = (d.wrReg v (pEthp port) (0x400 + 16 * q) (w ||| 1)).runFlows := by
  classical
  exact (qpWrite_enable w h hreach).trans ((if_neg (Bool.eq_false_iff.1 hdis)).trans (if_neg hclear))

end
end

/-- The fields of CFG that can be written hold what was written, and the flows that then go on leave them. -/
theorem Dev.qpCfg_runFlows_wrReg {q : Nat} (hq : q < 64) (d : Dev) (v : View) (port : Nat) (w : Word) :
    let d1 := (d.wrReg v (pEthp port) (0x400 + 16 * q) w).runFlows
    bits (d1.qpCfg port q) 5 0 = bits w.toNat 5 0 ∧ bits (d1.qpCfg port q) 10 8 = bits w.toNat 10 8 := by
  intro d1
  have hcfg : d1.qpCfg port q = (d.wrReg v (pEthp port) (0x400 + 16 * q) w).qpCfg port q :=
    Dev.reg_of_changesOnly (changesOnly_of_peel (Dev.runFlows_only _)) (by decide) _ _
  rw [hcfg]
  exact ⟨Dev.bits_wrReg (regRow_qpCfg hq) rfl (by decide) d v w,
    Dev.bits_wrReg (regRow_qpCfg hq) rfl (by decide) d v w⟩

end Sys2Proof.Machine
end

section
/-!
SUPPORT. Frames received (R474 to R476, R480, R485, R491, R494) and sent (R486 to R488): what a frame that arrives comes to at each
step of R475, and what the sub-port sends next.
-/

namespace Sys2Proof.Machine

open Sys2Proof.Safety

/-! ### The MAC (R475 steps 1 to 4) -/

/-- The longest frame that a sub-port takes (R474). -/
def Dev.maxLen (d : Dev) (k : Nat) : Nat := Nat.max 1518 (Nat.min 9216 (bits (d.reg (pEthp (k / 4)) 0x048) 13 0))

/-- The device after the bytes of a frame have counted towards the windows of ebb (R497, R500). -/
def Dev.seen (d : Dev) (k len : Nat) : Dev := d.updSub k fun p => { p with winRx := p.winRx + len, rateRx := p.rateRx + len }

theorem Dev.rx_seen (d : Dev) (k len : Nat) : ((d.seen k len).sub k).rx = (d.sub k).rx := by
  rw [Dev.seen, Dev.sub_updSub]

/-- A frame that the MAC does not drop (R475 step 1). -/
def Dev.takes (d : Dev) (k : Nat) (f : RxFrame) : Prop :=
  f.fcsOk = true ∧ f.fecBad = false ∧ 64 ≤ f.bytes.length + 4 ∧ f.bytes.length + 4 ≤ d.maxLen k

/-- What becomes of a frame that the MAC does not drop (R475 steps 2 to 9). -/
def Dev.taken (d : Dev) (k : Nat) (b : List Byte) : Dev :=
  if fldBE b 12 2 = 0x8808 then
    if fldBE b 14 2 = 0x0101 then pfcRx k (fldBE b 16 2 % 256) ((List.range 8).map fun n => fldBE b (18 + 2 * n) 2) d
    else d.ecnt k 16 1 none
  else if beNat (b.take 6) = 0x0180C200000E ∧ fldBE b 12 2 = 0x88CC then d.ecnt k 17 1 none
  else if beNat (b.take 6) = 0x0180C200000E ∧ fldBE b 12 2 = 0x88B6 then ebbFrame k b d
  else d.deliverFrame k b

section
variable {d : Dev} {k : Nat} {f : RxFrame}

theorem frameRx_of_down (hdown : (d.sub k).lanes = 0) : frameRx k f d = d := if_pos hdown

section
variable (hup : (d.sub k).lanes ≠ 0)
include hup

theorem frameRx_of_up :
    frameRx k f d =
      let d1 := d.seen k (f.bytes.length + 4)
      if !f.fcsOk then d1.ecnt k 4 1 none
      else if f.fecBad then d1.ecnt k 8 1 none
      else if f.bytes.length + 4 < 64 then d1.ecnt k 5 1 none
      else if d.maxLen k < f.bytes.length + 4 then d1.ecnt k 6 1 none
      else d1.taken k f.bytes := if_neg hup

theorem frameRx_of_bad_fcs (hfcs : f.fcsOk = false) : frameRx k f d = (d.seen k (f.bytes.length + 4)).ecnt k 4 1 none := by
  rw [frameRx_of_up hup, hfcs]
  rfl

section
variable (hfcs : f.fcsOk = true)
include hfcs

theorem frameRx_of_bad_fec (hfec : f.fecBad = true) : frameRx k f d = (d.seen k (f.bytes.length + 4)).ecnt k 8 1 none := by
  rw [frameRx_of_up hup, hfcs, hfec]
  rfl

variable (hfec : f.fecBad = false)
include hfec

theorem frameRx_of_sound :
    frameRx k f d =
      let d1 := d.seen k (f.bytes.length + 4)
      if f.bytes.length + 4 < 64 then d1.ecnt k 5 1 none
      else if d.maxLen k < f.bytes.length + 4 then d1.ecnt k 6 1 none
      else d1.taken k f.bytes := by
  rw [frameRx_of_up hup, hfcs, hfec]
  rfl

theorem frameRx_of_runt (hlen : f.bytes.length + 4 < 64) : frameRx k f d = (d.seen k (f.bytes.length + 4)).ecnt k 5 1 none :=
  (frameRx_of_sound hup hfcs hfec).trans (if_pos hlen)

theorem frameRx_of_oversize (hlen : d.maxLen k < f.bytes.length + 4) :
    frameRx k f d = (d.seen k (f.bytes.length + 4)).ecnt k 6 1 none := by
  have hmax : 1518 ≤ d.maxLen k := Nat.le_max_left _ _
  exact (frameRx_of_sound hup hfcs hfec).trans ((if_neg (by omega)).trans (if_pos hlen))

end

theorem frameRx_of_takes (h : d.takes k f) : frameRx k f d = (d.seen k (f.bytes.length + 4)).taken k f.bytes := by
  obtain ⟨hfcs, hfec, hmin, hmax⟩ := h
  exact (frameRx_of_sound hup hfcs hfec).trans ((if_neg (by omega)).trans (if_neg (by omega)))

end

section
variable {b : List Byte}

theorem taken_of_other_mac_control (htype : fldBE b 12 2 = 0x8808) (hop : fldBE b 14 2 ≠ 0x0101) :
    d.taken k b = d.ecnt k 16 1 none := (if_pos htype).trans (if_neg hop)

theorem taken_of_pfc (htype : fldBE b 12 2 = 0x8808) (hop : fldBE b 14 2 = 0x0101) :
    d.taken k b = pfcRx k (fldBE b 16 2 % 256) ((List.range 8).map fun n => fldBE b (18 + 2 * n) 2) d :=
  (if_pos htype).trans (if_pos hop)

section
variable (hda : beNat (b.take 6) = 0x0180C200000E)
include hda

theorem taken_of_lldp (htype : fldBE b 12 2 = 0x88CC) : d.taken k b = d.ecnt k 17 1 none :=
  (if_neg (by omega)).trans (if_pos ⟨hda, htype⟩)

theorem taken_of_ebb (htype : fldBE b 12 2 = 0x88B6) : d.taken k b = ebbFrame k b d :=
  (if_neg (by omega)).trans ((if_neg (by omega)).trans (if_pos ⟨hda, htype⟩))

end

theorem taken_of_plain
    (h : ¬ (fldBE b 12 2 = 0x8808 ∨ (beNat (b.take 6) = 0x0180C200000E ∧ (fldBE b 12 2 = 0x88CC ∨ fldBE b 12 2 = 0x88B6)))) :
    d.taken k b = d.deliverFrame k b :=
  (if_neg (by omega)).trans ((if_neg (by omega)).trans (if_neg (by omega)))

end

/-! ### Delivery (R475 steps 5 to 9) -/

section
variable (d : Dev) (k pri j : Nat)

theorem Dev.rx_pfcOut (time : Nat) : ((d.pfcOut k pri time).sub j).rx = (d.sub j).rx := by
  refine (Dev.sub_updSub_keeps _ k j (g := SubPort.rx) (fun x => ?_)).trans (congrArg SubPort.rx (Dev.sub_ecnt _ k j 15 1 none))
  split <;> rfl

theorem Dev.rx_pfcCheck : ((d.pfcCheck k pri).sub j).rx = (d.sub j).rx := by
  unfold Dev.pfcCheck
  split
  · exact (Dev.sub_updSub_keeps _ k j (g := SubPort.rx)
      (f := fun s => { s with xoff := s.xoff.insert pri (d.timer (portIsle (k / 4))) }) fun _ => rfl).trans (d.rx_pfcOut k pri j _)
  · rfl

end

/-- A transport datagram for the control processors (R475 step 6). -/
def Dev.forFirmware (d : Dev) (b : List Byte) : Bool :=
  (ipView (ethView b)).any fun x => x.udp == some (bits (d.reg pFabt 0x04C) 15 0) && fldBE x.payload 3 1 == 255

/-- A first fragment that shows the transport's port. -/
def Dev.forTransportFragment (d : Dev) (b : List Byte) : Bool :=
  (ipView (ethView b)).any fun x => x.frag == some (bits (d.reg pFabt 0x04C) 15 0)

/-- Bytes in a sub-port's receive share (R480). -/
def Dev.rxUsed (d : Dev) (k : Nat) : Nat := ((d.sub k).rx.map (·.len)).foldl (· + ·) 0

theorem Dev.rxUsed_seen (d : Dev) (k len : Nat) : (d.seen k len).rxUsed k = d.rxUsed k := by
  rw [Dev.rxUsed, Dev.rx_seen, ← Dev.rxUsed]

/-- The frame's place in the receive share: its priority (R481), its queue pair and its length with the FCS (R474). -/
def Dev.rxItem (d : Dev) (k q : Nat) (b : List Byte) : RxItem :=
  ⟨(ethView b).pcp.getD (bits (d.reg (pEthp (k / 4)) 0x048) 20 18), q, b.length + 4⟩

section
variable {b : List Byte}

theorem deliverFrame_of_filtered (hda : d.daOk k (b.take 6) = false) : d.deliverFrame k b = d.ecnt k 9 1 none := by
  rw [Dev.deliverFrame, hda]
  rfl

section
variable (hda : d.daOk k (b.take 6) = true)
include hda

theorem deliverFrame_of_firmware (hfw : d.forFirmware b = true) : d.deliverFrame k b = d.ecnt k 17 1 none := by
  rw [Dev.deliverFrame, hda]
  exact if_pos hfw

variable (hfw : d.forFirmware b = false)
include hfw

theorem deliverFrame_of_fragment (hfrag : d.forTransportFragment b = true) : d.deliverFrame k b = d.cnt .pf pFabt 11 1 := by
  rw [Dev.deliverFrame, hda]
  exact (if_neg (Bool.eq_false_iff.1 hfw)).trans (if_pos hfrag)

variable (hfrag : d.forTransportFragment b = false)
include hfrag

theorem deliverFrame_of_unmatched (hq : d.qpFor k (ethView b) (ipView (ethView b)) = none) :
    d.deliverFrame k b = d.ecnt k 10 1 none := by
  rw [Dev.deliverFrame, hda, hq]
  exact (if_neg (Bool.eq_false_iff.1 hfw)).trans (if_neg (Bool.eq_false_iff.1 hfrag))

variable {q : Nat} (hq : d.qpFor k (ethView b) (ipView (ethView b)) = some q)
include hq

theorem deliverFrame_of_leaving (hleaving : d.qpLeaving (k / 4) q = true) : d.deliverFrame k b = d.ecnt k 13 1 none := by
  rw [Dev.deliverFrame, hda, hq]
  exact (if_neg (Bool.eq_false_iff.1 hfw)).trans ((if_neg (Bool.eq_false_iff.1 hfrag)).trans (if_pos hleaving))

variable (hstays : d.qpLeaving (k / 4) q = false)
include hstays

theorem deliverFrame_of_full (hroom : d.rxShare k < d.rxUsed k + (b.length + 4)) :
    d.deliverFrame k b = d.ecnt k 11 1 (d.qpOwner (k / 4) q) := by
  rw [Dev.deliverFrame, hda, hq]
  exact (if_neg (Bool.eq_false_iff.1 hfw)).trans ((if_neg (Bool.eq_false_iff.1 hfrag)).trans
    ((if_neg (Bool.eq_false_iff.1 hstays)).trans (if_pos hroom)))

/-- A delivered frame, marked or not (R485), joins the receive share, whatever PFC then sends (R482). -/
theorem rx_deliverFrame (hroom : d.rxUsed k + (b.length + 4) ≤ d.rxShare k) :
    ((d.deliverFrame k b).sub k).rx = (d.sub k).rx ++ [d.rxItem k q b] := by
  rw [Dev.deliverFrame, hda, hq]
  refine (congrArg (fun b : Dev => (b.sub k).rx) ((if_neg (Bool.eq_false_iff.1 hfw)).trans
    ((if_neg (Bool.eq_false_iff.1 hfrag)).trans
      ((if_neg (Bool.eq_false_iff.1 hstays)).trans (if_neg (Nat.not_lt.2 hroom)))))).trans ?_
  dsimp only
  rw [Dev.rx_pfcCheck, Dev.sub_updSub, Dev.sub_ecnt, Dev.sub_ecnt, apply_ite (Dev.sub · k), Dev.sub_ecnt, ite_self]
  rfl
end
end
end

/-! ### Sending (R486 to R488) -/

/-- A frame has left a sub-port's transmit share. -/
def SubPort.sent (p : SubPort) (x : TxItem) : SubPort :=
  { p with tx := p.tx.eraseIdx (p.tx.findIdx (· == x)), winTx := p.winTx + x.len, rateTx := p.rateTx + x.len }

/-- The quantum of a priority in a round (R487). -/
def Dev.txQuantum (d : Dev) (k n : Nat) : Nat :=
  256 * Nat.max 1 (bits (d.reg (pEthp (k / 4)) (if n < 4 then 0x150 else 0x154)) (8 * (n % 4) + 7) (8 * (n % 4)))

/-- The frame whose turn it is within a priority that is not paused (R483, R487). -/
def Dev.txPick (d : Dev) (k n : Nat) : Option TxItem :=
  if ((d.sub k).pause.find? n).any fun t => decide (d.ptimer k < t) then none
  else turnOf ((admitted (d.txShare k) (d.sub k).tx).filter fun (x : TxItem) => x.pri == n) ((d.sub k).lastQp.find? n)

/-- What the deficit round robin comes to (R487). -/
def Dev.txRound (d : Dev) (k : Nat) : Option (Nat × Nat × SMap Nat) :=
  drr (d.txQuantum k) (fun n => (d.txPick k n).map (·.len)) 400 (d.sub k).turn (d.sub k).deficit

/-- The round robin has moved on to a priority and one of its queue pairs. -/
def Dev.turned (d : Dev) (k n turn : Nat) (df : SMap Nat) (x : TxItem) : Dev :=
  d.setSub k { d.sub k with turn := turn, deficit := df, lastQp := (d.sub k).lastQp.insert n (x.qp.getD 0) }

theorem Dev.sub_turned (d : Dev) (k n turn : Nat) (df : SMap Nat) (x : TxItem) :
    (d.turned k n turn df x).sub k =
      { d.sub k with turn := turn, deficit := df, lastQp := (d.sub k).lastQp.insert n (x.qp.getD 0) } := d.sub_setSub k _

theorem Dev.sub_sendFrame (d : Dev) (k mac : Nat) (x : TxItem) : (d.sendFrame k mac x).sub k = (d.sub k).sent x := by
  unfold Dev.sendFrame
  dsimp only
  rw [apply_ite (Dev.sub · k), Dev.sub_ecnt, Dev.sub_ecnt, Dev.sub_ecnt, ite_self, Dev.sub_put, Dev.sub_setSub]
  rfl

theorem Dev.ecnt_out (d : Dev) (k n amt : Nat) (part : Option Nat) : (d.ecnt k n amt part).out = d.out := d.cntP_out _ _ _ part

/-- A frame that is sent leaves the device with its bytes (R488, R508). -/
theorem Dev.sendFrame_out (d : Dev) (k mac : Nat) (x : TxItem) :
    ∃ v, Output.frame (SubId.ofKey k) (x.wire mac v) ∈ (d.sendFrame k mac x).out := by
  unfold Dev.sendFrame
  dsimp only
  rw [apply_ite Dev.out, Dev.ecnt_out, Dev.ecnt_out, Dev.ecnt_out, ite_self]
  exact ⟨_, List.mem_cons_self⟩

/-- Sending a frame leaves it among the outputs and takes it off the share, whatever the round robin has noted before. -/
theorem sendFrame_goes {d d1 : Dev} {k : Nat} (mac : Nat) (x : TxItem) (htx : (d1.sub k).tx = (d.sub k).tx)
    (hwin : (d1.sub k).winTx = (d.sub k).winTx) :
    (∃ v, Output.frame (SubId.ofKey k) (x.wire mac v) ∈ (d1.sendFrame k mac x).finish.out) ∧
      ((d1.sendFrame k mac x).finish.sub k).tx = (d.sub k).tx.eraseIdx ((d.sub k).tx.findIdx (· == x)) ∧
      ((d1.sendFrame k mac x).finish.sub k).winTx = (d.sub k).winTx + x.len := by
  obtain ⟨v, hv⟩ := d1.sendFrame_out k mac x
  rw [Dev.sub_finish, Dev.sub_sendFrame, SubPort.sent, htx, hwin]
  exact ⟨⟨v, (Dev.finish_out_suffix _).subset hv⟩, rfl, rfl⟩

section
variable {d : Dev} {k : Nat}

theorem frameTx_of_held (h : (d.sub k).lanes = 0 ∨ (d.sub k).hold ≠ none ∨ d.srcAddr k = none) : frameTx k d = d := by
  have hsrc : (if (d.sub k).lanes = 0 ∨ (d.sub k).hold.isSome then none else d.srcAddr k) = none := by
    split
    case isTrue => rfl
    case isFalse hgo => exact (or_assoc.2 h).resolve_left fun hno => hgo (hno.imp_right Option.isSome_iff_ne_none.2)
  rw [frameTx, hsrc]

section
variable {src : Nat} (hup : (d.sub k).lanes ≠ 0) (hhold : (d.sub k).hold = none) (hsrc : d.srcAddr k = some src)
include hup hhold hsrc

theorem frameTx_of_ready :
    frameTx k d =
      match (admitted (d.txShare k) (d.sub k).tx).find? fun (x : TxItem) => x.qp.isNone with
      | some x => d.sendFrame k src x
      | none =>
        match d.txRound k with
        | none => d
        | some (n, turn, df) =>
          match d.txPick k n with
          | none => d
          | some x => (d.turned k n turn df x).sendFrame k src x := by
  have hready : (if (d.sub k).lanes = 0 ∨ (d.sub k).hold.isSome then none else d.srcAddr k) = some src := by
    rw [if_neg (by simp [hup, hhold]), hsrc]
  rw [frameTx, hready]
  rfl

theorem frameTx_of_firmware {x : TxItem} (hfw : (admitted (d.txShare k) (d.sub k).tx).find? (fun x => x.qp.isNone) = some x) :
    frameTx k d = d.sendFrame k src x := by
  rw [frameTx_of_ready hup hhold hsrc, hfw]

section
variable (hfw : (admitted (d.txShare k) (d.sub k).tx).find? (fun x => x.qp.isNone) = none)
include hfw

theorem frameTx_of_no_turn (hround : d.txRound k = none) : frameTx k d = d := by
  rw [frameTx_of_ready hup hhold hsrc, hfw, hround]

theorem frameTx_of_turn {n turn : Nat} {df : SMap Nat} {x : TxItem} (hround : d.txRound k = some (n, turn, df))
    (hpick : d.txPick k n = some x) : frameTx k d = (d.turned k n turn df x).sendFrame k src x := by
  rw [frameTx_of_ready hup hhold hsrc, hfw, hround]
  dsimp only
  rw [hpick]

end
end
end

/-! ### The commands -/

section
variable (s : State)

theorem exec_frameReceive (i : SubId) (f : RxFrame) : exec (.frameReceive i f) s = onDev (frameRx i.key f) s := rfl
theorem exec_frameTransmit (i : SubId) : exec (.frameTransmit i) s = onDev (frameTx i.key) s := rfl
theorem exec_ethpModeWrite (v : View) (port : Fin 12) (w : Word) :
    exec (.ethpModeWrite v port w) s = onDev (modeWrite v port.val w) s := rfl
theorem exec_qpEnable (v : View) (port : Fin 12) (q : Fin 64) (w : Word) :
    exec (.qpEnable v port q w) s = onDev (qpWrite v port.val q.val 0 (w ||| 1)) s := rfl
theorem exec_ebbCtlWrite (v : View) (port : Fin 12) (w : Word) :
    exec (.ebbCtlWrite v port w) s = onDev (ebbCtlWrite v port.val w) s := rfl

end

section
variable {s : State} {i : SubId} {f : RxFrame} {d : Dev}

theorem becomes_frameReceive (h : frameRx i.key f s.dev = d) : becomes (.frameReceive i f) s d :=
  becomes_of_onDev (exec_frameReceive s i f) h

/-- A frame that the MAC does not drop has the effect of the later steps of R475. -/
theorem becomes_frameReceive_of_takes (hup : (s.dev.sub i.key).lanes ≠ 0) (hw : s.dev.takes i.key f)
    (h : (s.dev.seen i.key (f.bytes.length + 4)).taken i.key f.bytes = d) : becomes (.frameReceive i f) s d :=
  becomes_frameReceive ((frameRx_of_takes hup hw).trans h)

end

/-- Settles O41: a received frame by the first step of R475 that disposes of it, a frame to send by what the sub-port may send
next, and the three registers by what refuses a write of them. -/
theorem frameCommands : Obligations.FrameCommands := by
  unfold Obligations.FrameCommands
  refine ⟨fun i f s => ?received, fun i s src => ?sent, fun port w s => ?registers, fun v port q w s => ?queuePair⟩
  case received =>
    intro k p port len most d1 type da e ip whole forMac firmware fragment
    refine ⟨fun hdown => becomes_frameReceive (frameRx_of_down hdown), fun hup =>
      ⟨fun hfcs => becomes_frameReceive (frameRx_of_bad_fcs hup hfcs),
        fun hfcs hfec => becomes_frameReceive (frameRx_of_bad_fec hup hfcs hfec),
        fun hfcs hfec hlen => becomes_frameReceive (frameRx_of_runt hup hfcs hfec hlen),
        fun hfcs hfec hlen => becomes_frameReceive (frameRx_of_oversize hup hfcs hfec hlen),
        fun hw htype hop => becomes_frameReceive_of_takes hup hw (taken_of_other_mac_control htype hop),
        fun hw htype hop => becomes_frameReceive_of_takes hup hw (taken_of_pfc htype hop),
        fun hw hda htype => becomes_frameReceive_of_takes hup hw (taken_of_lldp hda htype),
        fun hw hda htype => becomes_frameReceive_of_takes hup hw (taken_of_ebb hda htype), fun hw hplain => ?plain⟩⟩
    have hframe : frameRx k f s.dev = d1.deliverFrame k f.bytes := (frameRx_of_takes hup hw).trans (taken_of_plain hplain)
    have hrx : (d1.sub k).rx = p.rx := s.dev.rx_seen k len
    have hused : d1.rxUsed k = s.dev.rxUsed k := s.dev.rxUsed_seen k len
    refine ⟨fun hda => becomes_frameReceive (hframe.trans (deliverFrame_of_filtered hda)),
      fun hda hfw => becomes_frameReceive (hframe.trans (deliverFrame_of_firmware hda hfw)),
      fun hda hfw hfrag => becomes_frameReceive (hframe.trans (deliverFrame_of_fragment hda hfw hfrag)), fun hda hfw hfrag =>
        ⟨fun hq => becomes_frameReceive (hframe.trans (deliverFrame_of_unmatched hda hfw hfrag hq)), fun q hq =>
          ⟨fun hleaving => becomes_frameReceive (hframe.trans (deliverFrame_of_leaving hda hfw hfrag hq hleaving)),
            fun hstays hroom => becomes_frameReceive (hframe.trans (deliverFrame_of_full (d := d1) hda hfw hfrag hq hstays ?full)),
            fun hstays hroom => completes_of_onDev (exec_frameReceive s i f) ?delivered⟩⟩⟩
    case full =>
      rw [hused]
      exact hroom
    case delivered =>
      have hfits : d1.rxUsed k + (f.bytes.length + 4) ≤ d1.rxShare k := by
        rw [hused]
        exact hroom
      rw [Dev.sub_finish, hframe, rx_deliverFrame (d := d1) hda hfw hfrag hq hstays hfits, hrx]
      rfl
  case sent =>
    intro k p share quantum pick goes
    refine ⟨fun hheld => becomes_of_onDev (exec_frameTransmit s i) (frameTx_of_held hheld), fun hup hhold hsrc =>
      ⟨fun x hfw => completes_of_onDev (exec_frameTransmit s i) ?firmware, fun hfw =>
        ⟨fun hround => becomes_of_onDev (exec_frameTransmit s i) (frameTx_of_no_turn hup hhold hsrc hfw hround),
          fun n turn df x hround hpick => completes_of_onDev (exec_frameTransmit s i) ?turn⟩⟩⟩
    case firmware =>
      rw [frameTx_of_firmware hup hhold hsrc hfw]
      exact sendFrame_goes src x rfl rfl
    case turn =>
      have hsub := s.dev.sub_turned k n turn df x
      rw [frameTx_of_turn hup hhold hsrc hfw hround hpick]
      refine ⟨sendFrame_goes src x (by rw [hsub]) (by rw [hsub]), ?_⟩
      rw [Dev.sub_finish, Dev.sub_sendFrame, hsub]
      exact ⟨rfl, rfl⟩
  case registers =>
    intro p hopen
    refine ⟨fun hst => becomes_of_onDev (exec_ethpModeWrite s .pf port w) (modeWrite_of_enabled w hopen hst), fun hst =>
      ⟨fun hsame => becomes_of_onDev (exec_ethpModeWrite s .pf port w) ((modeWrite_of_disabled w hopen hst).trans (if_pos hsame)),
        fun hnew => completes_of_onDev (exec_ethpModeWrite s .pf port w) ?split⟩,
      completes_of_onDev (exec_ebbCtlWrite s .pf port w) ?ebbCtl⟩
    case split =>
      rw [modeWrite_of_disabled w hopen hst, if_neg hnew]
      simp only [Dev.qpCfg, Dev.reg_finish, Dev.sub_finish]
      exact ⟨(congrArg (bits · 1 0) (Dev.reg_resplit _ _)).trans (bits_split_wrReg w),
        fun q hq => Dev.qpCfg_resplit _ _ hq, fun n hn => Dev.lanes_resplit _ _ hn⟩
    case ebbCtl =>
      simp only [ebbCtlWrite_of_opens hopen, Dev.reg_finish, Dev.sub_finish]
      exact ⟨Dev.reg_unlocked _ _ _ _, fun n hn => Dev.sub_unlocked _ _ hn⟩
  case queuePair =>
    intro p n own strm bad hopen
    refine ⟨fun m hv hown => becomes_of_onDev (exec_qpEnable s v port q w) (qpWrite_of_foreign _ hopen hv hown), fun hreach =>
      ⟨fun hen => becomes_of_onDev (exec_qpEnable s v port q w) (qpWrite_of_enabled w hopen hreach hen), fun hdis =>
        ⟨fun hbar => becomes_of_onDev (exec_qpEnable s v port q w) (qpWrite_of_barred w hopen hreach hdis hbar),
          fun hclear => completes_of_onDev (exec_qpEnable s v port q w) ?enabled⟩⟩⟩
    rw [qpWrite_of_clear w hopen hreach hdis hclear]
    simp only [Dev.qpCfg, Dev.reg_finish]
    exact s.dev.qpCfg_runFlows_wrReg q.isLt v port.val (w ||| 1)

end Sys2Proof.Machine
end

section
/-!
SUPPORT. What a command's effect bounds, what the event summary depends on, and that every well-formed command answers: the
claims about all commands at once (CommandsKeepTheRest, EventsAreSummarised, WellFormedCommandsComplete).
-/

namespace Sys2Proof.Machine

open Sys2Proof.Safety

/-! ### The effect of a command on the device bounds what the command changes -/

theorem onDev_frame {f : Dev → Dev} {l : List Comp} {s t : State} (hf : changesOnly l s.dev (f s.dev))
    (h : onDev f s = .next t) (hl : [.ctr, .irq, .out] ⊆ l := by exact of_decide_eq_true rfl) :
    t.pending = s.pending ∧ changesOnly l s.dev t.dev := by
  cases h
  exact ⟨rfl, by simpa [hl] using hf⟩

theorem onPage_frame {ok : Bool} {f : Dev → Dev} {l : List Comp} {s t : State} (hf : changesOnly l s.dev (f s.dev))
    (h : onPage ok f s = .next t) (hl : [.ctr, .irq, .out] ⊆ l := by exact of_decide_eq_true rfl) :
    t.pending = s.pending ∧ changesOnly l s.dev t.dev := by
  cases ok
  · cases h
  · exact onDev_frame hf h hl

section
variable {l : List Comp} (d : Dev)

theorem through_changesOnly {f : Dev → Dev} (hf : ∀ b, changesOnly l b (f b)) (v : View) (p : Page) (off : Nat)
    (hl : [.hdr, .parts] ⊆ l := by exact of_decide_eq_true rfl) : changesOnly l d (d.through v p off f) :=
  (Dev.through_only d v p off f hf hl).2 (changesOnly_self l d)

theorem privOnly_changesOnly {f : Dev → Dev} (hf : ∀ b, changesOnly l b (f b)) (v : View) (p : Page) (off : Nat)
    (hl : [.hdr, .parts] ⊆ l := by exact of_decide_eq_true rfl) : changesOnly l d (d.privOnly v p off f) :=
  (Dev.privOnly_only d v p off f hf hl).2 (changesOnly_self l d)

theorem ctl_changesOnly {f : Dev → Dev} (hf : ∀ b, changesOnly l b (f b)) (others : Bool)
    (hl : [.hdr, .parts] ⊆ l := by exact of_decide_eq_true rfl) : changesOnly l d (d.ctl others f) :=
  (Dev.ctl_only d others f hf hl).2 (changesOnly_self l d)

theorem atHead_changesOnly {run : Nat → Nat → Desc → Dev → Dev} (hf : ∀ i p x b, changesOnly l b (run i p x b))
    (c : CoreId) (q : Nat) (ops : Nat → Bool)
    (hl : [.cores, .free, .hdr, .ctr, .isles, .poison, .mem, .sigs, .nwch] ⊆ l := by exact of_decide_eq_true rfl) :
    changesOnly l d (atHead c q ops run d) :=
  (atHead_only c q ops run d hf hl).2 (changesOnly_self l d)

theorem optHead_changesOnly {run : Nat → Nat → Desc → Dev → Dev} (hf : ∀ i p x b, changesOnly l b (run i p x b))
    (c op : Nat) (hl : [.opte, .sigs, .hdr, .ctr, .free] ⊆ l := by exact of_decide_eq_true rfl) :
    changesOnly l d (optHead c op run d) :=
  (optHead_only c op run d hf hl).2 (changesOnly_self l d)

theorem redHead_changesOnly {run : Nat → Nat → Desc → Dev → Dev} (hf : ∀ i p x b, changesOnly l b (run i p x b))
    (c i op : Nat) (hl : [.rede, .sigs, .hdr, .ctr] ⊆ l := by exact of_decide_eq_true rfl) :
    changesOnly l d (redHead c i op run d) :=
  (redHead_only c i op run d hf hl).2 (changesOnly_self l d)

theorem whenNoComb_changesOnly {run : Nat → Nat → Desc → Dev → Dev} (hf : ∀ i p x b, changesOnly l b (run i p x b))
    (i p : Nat) (x : Desc) (b : Dev) : changesOnly l b (whenNoComb run i p x b) :=
  (whenNoComb_only run i p x b hf (List.nil_subset l)).2 (changesOnly_self l b)

end

/-! ### The effects of the stream commands (chapter 15), by name -/

/-- STREAM_PACKET at context k. -/
def takePacket (k : Nat) (bytes : List Byte) (d : Dev) : Dev :=
  if d.bst (pStrm k) ≠ .running then d
  else
    let d := (d.strmCnt k 0 1).strmCnt k 1 bytes.length
    if d.strmRtp k then d.rtpPacket k bytes else d.rawPacket k bytes

/-- ASSEMBLY_TIMEOUT at context k. -/
def expireAssembly (k : Nat) (d : Dev) : Dev :=
  match (d.sctx k).asm with
  | none => d
  | some a =>
    if d.bst (pStrm k) ≠ .running then d
    else
      let d := d.reach (d.strmIsle k) (a.since + Nat.max 1 (d.reg (pStrm k) 0x084))
      let d := if d.strmRtp k then d.updCtx k fun x => { x with skip := some a.pic.ident } else d
      d.dropAsm k 3

/-- DECODE_START at engine e. -/
def startDecode (e : Nat) (d : Dev) : Dev :=
  let ready := (List.range 16).any fun n => d.decoWeight e n ≠ 0 && !(d.decoWaiting e n).isEmpty
  if (d.decoSt e).cur.isSome ∨ !ready ∨ d.bst ⟨.deco, e⟩ ≠ .running then d
  else
    let (idle, d) := d.freeNat 41
    decoRound e 4000 (d.decoSt e).turn false (d.cnt .pf ⟨.deco, e⟩ 3 idle)

/-- What DECODE_DONE does with a decoded picture, once its output slots' memory is awake. -/
def putDecoded (e k n : Nat) (p : Picture) (cost : Nat) (refs : List Picture)
    (res : Option (List Config.Decoded)) (d : Dev) : Dev :=
  let pg : Page := ⟨.deco, e⟩
  let d := ((d.cntP pg 0 1 (some n)).cntP pg 1 (p.width * p.height) (some n)).cntP pg 2 cost (some n)
  let d := d.updDeco e fun x => { x with cur := none }
  let d := match res with
    | none => d.dropPic k 6
    | some l =>
      let d := if d.strmCodec k = 1 then d.updCtx k fun x => { x with refs := refs ++ [p] } else d
      l.foldl (Dev.writePic k n (refs ++ [p])) d
  let d := d.flushToIrap k
  if d.bst (pStrm k) = .quiescing then d.releaseSlots k else d

/-- DECODE_DONE at engine e. -/
def endDecode (e : Nat) (d : Dev) : Dev :=
  match (d.decoSt e).cur with
  | none => d
  | some (k, p, cost) =>
    match d.strmOwner k with
    | none => d.updDeco e fun x => { x with cur := none }
    | some n =>
      let refs := (d.sctx k).refs
      let res := Config.decodePicture (d.strmCodec k) (b2n (d.strmRtp k)) (refs.map fun (p : Picture) => p.bytes) p.bytes
      let (awake, d) := d.slotAwake k n (res.getD []).length
      if !awake then d else putDecoded e k n p cost refs res d

/-- BATCH_TIMEOUT at context k. -/
def expireBatch (k : Nat) (d : Dev) : Dev :=
  let x := d.sctx k
  let lim := d.reg (pStrm k) 0x088
  if x.active.isNone ∨ x.written = 0 ∨ lim = 0 then d
  else (d.reach (d.strmIsle k) (x.batchAt + lim)).completeSlot k true

theorem exec_streamPacket (ctx : Fin 48) (bytes : List Byte) (s : State) :
    exec (.streamPacket ctx bytes) s = onDev (takePacket ctx.val bytes) s := rfl

theorem exec_assemblyTimeout (ctx : Fin 48) (s : State) : exec (.assemblyTimeout ctx) s = onDev (expireAssembly ctx.val) s := rfl

theorem exec_decodeStart (deco : Fin 6) (s : State) : exec (.decodeStart deco) s = onDev (startDecode deco.val) s := rfl

theorem exec_decodeDone (deco : Fin 6) (s : State) : exec (.decodeDone deco) s = onDev (endDecode deco.val) s := rfl

theorem exec_batchTimeout (ctx : Fin 48) (s : State) : exec (.batchTimeout ctx) s = onDev (expireBatch ctx.val) s := rfl

theorem takePacket_changesOnly (k : Nat) (bytes : List Byte) (d : Dev) :
    changesOnly [.hdr, .ctr, .mem, .poison, .cores, .tier, .strm, .free] d (takePacket k bytes d) := by
  unfold takePacket
  split
  · exact changesOnly_self _ d
  · dsimp only
    split <;> simp

theorem expireAssembly_changesOnly (k : Nat) (d : Dev) : changesOnly [.hdr, .ctr, .isles, .strm] d (expireAssembly k d) := by
  unfold expireAssembly
  split
  · exact changesOnly_self _ d
  · split
    · exact changesOnly_self _ d
    · dsimp only
      simp

theorem startDecode_changesOnly (e : Nat) (d : Dev) : changesOnly [.ctr, .strm, .free] d (startDecode e d) := by
  unfold startDecode
  dsimp only
  split
  · exact changesOnly_self _ d
  · simp

theorem putDecoded_changesOnly (e k n : Nat) (p : Picture) (cost : Nat) (refs : List Picture)
    (res : Option (List Config.Decoded)) (d : Dev) :
    changesOnly [.hdr, .ctr, .mem, .poison, .isles, .cores, .sigs, .tier, .strm, .errm, .free] d
      (putDecoded e k n p cost refs res d) := by
  unfold putDecoded
  cases res <;> dsimp only <;> simp [changesOnly_foldl]

theorem endDecode_changesOnly (e : Nat) (d : Dev) :
    changesOnly [.hdr, .ctr, .mem, .poison, .isles, .cores, .sigs, .tier, .strm, .errm, .free] d (endDecode e d) := by
  unfold endDecode
  split
  · exact changesOnly_self _ d
  · split
    · simp
    · dsimp only
      split
      · simp
      · exact changesOnly.trans (by simp) (putDecoded_changesOnly _ _ _ _ _ _ _ _)

theorem expireBatch_changesOnly (k : Nat) (d : Dev) :
    changesOnly [.hdr, .ctr, .mem, .poison, .isles, .cores, .sigs, .tier, .strm] d (expireBatch k d) := by
  unfold expireBatch
  dsimp only
  split
  · exact changesOnly_self _ d
  · simp

theorem changesOnly_ite_self {p : Prop} [Decidable p] {l : List Comp} {d e : Dev} (h : changesOnly l d e) :
    changesOnly l d (if p then e else d) := by
  split
  · exact h
  · exact changesOnly_self l d

theorem exec_frame (c : Instr) (s t : State) (h : exec c s = .next t) :
    t.pending = s.pending ∧ changesOnly (touches c) s.dev t.dev := by
  cases c with
  | counterLowRead | counter64Read | rcRead | isleTimerLoRead | blkNegWrite | blkEvtWrite | blockEnable | blockReady
  | blockQuiesce | blockUnquiesce | blockDisable | blockDrained | blockReset | isleStateReq | islandDescentStart
  | islandDescentDone | islandAutoIdle | islandExitDone | sramSaveDone | sramRestoreDone | isleFreqWrite | freqChangeApply
  | errorDetect | sramScrubPass | helloResend | keepaliveSend =>
    exact onPage_frame (by simp (disch := exact of_decide_eq_true rfl)) h
  | commitStage sealBit abortBit =>
    exact onDev_frame (f := fun d => d.ctl (sealBit || abortBit) stage)
      (ctl_changesOnly _ (fun _ => by simp (disch := exact of_decide_eq_true rfl)) _) h
  | commitSeal stageBit abortBit =>
    exact onDev_frame (f := fun d => d.ctl (stageBit || abortBit) sealIt)
      (ctl_changesOnly _ (fun _ => by simp (disch := exact of_decide_eq_true rfl)) _) h
  | commitAbort stageBit sealBit =>
    exact onDev_frame (f := fun d => d.ctl (stageBit || sealBit) abort)
      (ctl_changesOnly _ (fun _ => by simp (disch := exact of_decide_eq_true rfl)) _) h
  | stagedFieldWrite n value =>
    exact onDev_frame (f := fun d => d.through .pf pPart (0x260 + 4 * n.val) (stagedWrite n.val value))
      (through_changesOnly _ (fun _ => by simp (disch := exact of_decide_eq_true rfl)) _ _ _) h
  | vfEnableChange mask =>
    exact onDev_frame (f := fun d => { d with parts := { d.parts with vfEnabled := bitsSet mask.toNat 16 } })
      (by simp (disch := exact of_decide_eq_true rfl)) h
  | nop | endOp | load | fetch | store | submit | post | matmul =>
    exact onDev_frame
      (atHead_changesOnly _ (fun _ _ _ _ => by simp (disch := exact of_decide_eq_true rfl)) _ _ _) h
  | engineSkipHead v e =>
    exact onDev_frame (f := fun d => engSkip v (d.instOf e.at_) e.queue.val d)
      ((engSkip_only _ _ _ _ (of_decide_eq_true rfl)).2 (changesOnly_self _ _)) h
  | engineRestart v e =>
    exact onDev_frame (f := fun d => engRestart v (d.instOf e.at_) e.queue.val d)
      ((engRestart_only _ _ _ _ (of_decide_eq_true rfl)).2 (changesOnly_self _ _)) h
  | optUpdate | optLate | optDigcmp =>
    exact onDev_frame
      (optHead_changesOnly _ (fun _ _ _ _ => by simp (disch := exact of_decide_eq_true rfl)) _ _) h
  | pipeSend | pipeFree =>
    exact onDev_frame
      (redHead_changesOnly _ (fun _ _ _ _ => by simp (disch := exact of_decide_eq_true rfl)) _ _ _) h
  | tokRoute | tokReturn =>
    exact onDev_frame
      (redHead_changesOnly _
        (whenNoComb_changesOnly fun _ _ _ _ => by simp (disch := exact of_decide_eq_true rfl)) _ _ _) h
  | tierCacheWrite v value =>
    exact onDev_frame (f := fun d => d.through v pTier 0x054 (cacheWrite v value))
      (through_changesOnly _ (fun _ => by simp (disch := exact of_decide_eq_true rfl)) _ _ _) h
  | pilotEnable v value =>
    exact onDev_frame (f := fun d => d.through v pTier 0x08C (pilotWrite v value))
      (through_changesOnly _ (fun _ => by simp (disch := exact of_decide_eq_true rfl)) _ _ _) h
  | slotArm v ctx slot =>
    exact onDev_frame (f := fun d => d.through v (pStrm ctx.val) (0x11C + 32 * slot.val) (Dev.armSlot v ctx.val slot.val))
      (through_changesOnly _ (fun _ => by simp (disch := exact of_decide_eq_true rfl)) _ _ _) h
  | errmPop v =>
    exact onDev_frame (f := fun d => d.privOnly v pErrm 0x044 errmPop)
      (privOnly_changesOnly _ (fun _ => by simp (disch := exact of_decide_eq_true rfl)) _ _ _) h
  | sideResume v halt brake =>
    exact onDev_frame (f := fun d => d.privOnly v pSide 0x044 fun d => (d.resumeSide .halt halt).resumeSide .brake brake)
      (privOnly_changesOnly _ (fun _ => by simp (disch := exact of_decide_eq_true rfl)) _ _ _) h
  | fwLoad v =>
    exact onDev_frame (f := fun d => d.privOnly v pSecc 0x05C fwLoad)
      (privOnly_changesOnly _ (fun _ => by simp (disch := exact of_decide_eq_true rfl)) _ _ _) h
  | fwSelect v =>
    exact onDev_frame (f := fun d => d.privOnly v pSecc 0x05C fwSelect)
      (privOnly_changesOnly _ (fun _ => by simp (disch := exact of_decide_eq_true rfl)) _ _ _) h
  | svnCommit v =>
    exact onDev_frame (f := fun d => d.privOnly v pSecc 0x064 (svnRaise true true))
      (privOnly_changesOnly _ (fun _ => by simp (disch := exact of_decide_eq_true rfl)) _ _ _) h
  | keyInstall v =>
    exact onDev_frame (f := fun d => d.privOnly v pSecc 0x074 keyInstall)
      (privOnly_changesOnly _ (fun _ => by simp (disch := exact of_decide_eq_true rfl)) _ _ _) h
  | keyClear v =>
    exact onDev_frame (f := fun d => d.privOnly v pSecc 0x074 keyClear)
      (privOnly_changesOnly _ (fun _ => by simp (disch := exact of_decide_eq_true rfl)) _ _ _) h
  | keySetTransmit v =>
    exact onDev_frame (f := fun d => d.privOnly v pSecc 0x074 keyTransmit)
      (privOnly_changesOnly _ (fun _ => by simp (disch := exact of_decide_eq_true rfl)) _ _ _) h
  | haltNAssert chatter =>
    exact onDev_frame (f := fun d => d.assertSide .halt chatter)
      (by simp (disch := exact of_decide_eq_true rfl)) h
  | inputRecover | overvoltageRecover | mainInputInRange =>
    exact onDev_frame (f := fun d => d.updBoot fun b => { b with inputOk := true })
      (by simp (disch := exact of_decide_eq_true rfl)) h
  | pcieLinkDown =>
    exact onDev_frame (f := fun d => d.updBoot fun b => { b with linkUp := false })
      (by simp (disch := exact of_decide_eq_true rfl)) h
  | provNChange level =>
    exact onDev_frame (f := fun d => d.updBoot fun b => { b with provLow := !level })
      (by simp (disch := exact of_decide_eq_true rfl)) h
  | atsInvalidateRequest =>
    exact onDev_frame (f := fun d => d.cnt .pf pPcie 7 1)
      (by simp (disch := exact of_decide_eq_true rfl)) h
  | streamPacket ctx bytes => exact onDev_frame ((takePacket_changesOnly ctx.val bytes s.dev).mono (of_decide_eq_true rfl)) h
  | assemblyTimeout ctx => exact onDev_frame ((expireAssembly_changesOnly ctx.val s.dev).mono (of_decide_eq_true rfl)) h
  | decodeStart deco => exact onDev_frame ((startDecode_changesOnly deco.val s.dev).mono (of_decide_eq_true rfl)) h
  | decodeDone deco => exact onDev_frame ((endDecode_changesOnly deco.val s.dev).mono (of_decide_eq_true rfl)) h
  | batchTimeout ctx => exact onDev_frame ((expireBatch_changesOnly ctx.val s.dev).mono (of_decide_eq_true rfl)) h
  | hotReset =>
    exact onDev_frame (f := fun d => if d.boot.linkUp && 7 ≤ d.boot.step then d.devReset 2 false else d)
      (changesOnly_ite_self (by simp (disch := exact of_decide_eq_true rfl))) h
  | _ => exact onDev_frame (by simp (disch := exact of_decide_eq_true rfl)) h

theorem tickIsle_changesOnly (d : Dev) (i : Nat) : changesOnly [.isles] d (tickIsle d i) := by
  unfold tickIsle
  simp

theorem tick_changesOnly (d : Dev) : changesOnly [.isles] d d.tick := by
  unfold Dev.tick
  rw [changesOnly_foldl _ _ _ tickIsle_changesOnly]
  exact changesOnly_self _ d

theorem step_of_idle {s t : State} (hs : s.pending = []) (h : step s = .next t) :
    t.pending = [] ∧ t.dev = s.dev.tick := by
  rw [step, hs] at h
  obtain rfl := Host.Outcome.next.inj h
  exact ⟨rfl, by dsimp only⟩

/-- Settles O54: every command is an effect framed by the table, and an idle step ticks the islands. -/
theorem commandsKeepTheRest : Obligations.CommandsKeepTheRest := by
  refine ⟨exec_frame, fun d t h => ?_⟩
  obtain ⟨hpending, hdev⟩ := step_of_idle rfl h
  rw [hdev]
  exact ⟨hpending, tick_changesOnly d⟩

/-- Settles O1: step takes the queue apart and nothing else. -/
theorem stepRunsTheFrontCommand : Obligations.StepRunsTheFrontCommand := fun _ _ _ => rfl

/-! ### What the event summary depends on -/

/-- Two devices with the same events pending, at pages that stand at the same manifest entries of the same views. -/
structure SameEvents (d e : Dev) : Prop where
  pending : e.pendingEvents = d.pendingEvents
  reaches : e.reaches = d.reaches
  entryOf : e.entryOf = d.entryOf

theorem SameEvents.refl (d : Dev) : SameEvents d d := ⟨rfl, rfl, rfl⟩

theorem SameEvents.trans {d e f : Dev} (h : SameEvents d e) (k : SameEvents e f) : SameEvents d f :=
  ⟨k.pending.trans h.pending, k.reaches.trans h.reaches, k.entryOf.trans h.entryOf⟩

theorem sameEvents_of_kept {d e : Dev} (hhdr : e.pg.hdr = d.pg.hdr) (hparts : e.parts = d.parts) (hclus : e.clus = d.clus)
    (hboot : e.boot = d.boot) : SameEvents d e := by
  have htw : e.tw = d.tw := by funext n i; rw [Dev.tw, hparts, Dev.tw]
  have hbit : e.ownerBit = d.ownerBit := by funext i b; rw [Dev.ownerBit, htw, Dev.ownerBit]
  have hactive : e.active = d.active := by funext n; rw [Dev.active, htw, Dev.active]
  have howner : e.pageOwner = d.pageOwner := by
    funext p
    simp only [Dev.pageOwner, Dev.mvecOwner, Dev.clusterOwner, Dev.dmaeOwner, Dev.strmOwner, hbit, hactive, htw]
  have hclus' : e.clus' = d.clus' := by funext c; rw [Dev.clus', hclus, Dev.clus']
  have hlogical : e.logical = d.logical := by funext i; unfold Dev.logical; rw [hclus']
  have hreaches : e.reaches = d.reaches := by
    funext v p
    unfold Dev.reaches
    rw [howner, hlogical, hboot]
  have hposition : e.position = d.position := by
    funext v p
    unfold Dev.position
    rw [hlogical]
  have hruns : e.runs = d.runs := by
    funext v
    simp only [Dev.runs, hreaches, hposition]
  refine ⟨by rw [Dev.pendingEvents, hhdr]; rfl, hreaches, ?_⟩
  funext v p
  simp only [Dev.entryOf, hruns]

theorem Dev.raise_sameEvents (d : Dev) (vp : View × Page) : SameEvents d (d.raise vp) :=
  sameEvents_of_kept (by simp) (by simp) (by simp) (by simp)

/-! ### Raising the pending pages completes the summary (R546, R547) -/

theorem Dev.msix_summary (d : Dev) (v : View) (vec : Nat) : (d.msix v vec).irq.summary = d.irq.summary := by
  unfold Dev.msix
  dsimp only
  split
  · rfl
  · split
    · split <;> simp
    · rfl

theorem Dev.summarise_summary (d : Dev) (v : View) (i k : Nat) :
    (d.summarise v i).irq.summary.contains k = true ↔ k = v.key * 2048 + i % 2048 ∨ d.irq.summary.contains k = true := by
  unfold Dev.summarise
  dsimp only
  split
  · next h => exact ⟨.inr, fun hk => hk.elim (fun hk => hk ▸ h) id⟩
  · simp only [Dev.msix_summary, List.contains_iff_mem, SSet.mem_add]

theorem Dev.raise_summary_of_mem (d : Dev) (vp : View × Page) {k : Nat} (hk : d.irq.summary.contains k = true) :
    (d.raise vp).irq.summary.contains k = true := by
  unfold Dev.raise
  split
  · split
    · exact (d.summarise_summary _ _ k).2 (.inr hk)
    · exact hk
  · exact hk

theorem Dev.raise_summary_self (d : Dev) {v : View} {p : Page} {i : Nat} (hr : d.reaches v p = true)
    (hi : d.entryOf v p = some i) : (d.raise (v, p)).irq.summary.contains (v.key * 2048 + i % 2048) = true := by
  rw [Dev.raise, if_pos hr]
  simp only [hi]
  exact (d.summarise_summary v i _).2 (.inl rfl)

theorem Dev.foldl_raise_summary_of_mem (l : List (View × Page)) (d : Dev) {k : Nat} (hk : d.irq.summary.contains k = true) :
    (l.foldl Dev.raise d).irq.summary.contains k = true :=
  List.foldlRecOn l Dev.raise (motive := fun b => b.irq.summary.contains k = true) hk fun b hb vp _ =>
    b.raise_summary_of_mem vp hb

theorem Dev.foldl_raise_sameEvents (l : List (View × Page)) (d : Dev) : SameEvents d (l.foldl Dev.raise d) :=
  List.foldlRecOn l Dev.raise (motive := SameEvents d) (.refl d) fun b hb vp _ => hb.trans (b.raise_sameEvents vp)

theorem Dev.foldl_raise_summarises (l : List (View × Page)) (d : Dev) {v : View} {p : Page} {i : Nat} (hp : (v, p) ∈ l)
    (hr : d.reaches v p = true) (hi : d.entryOf v p = some i) :
    (l.foldl Dev.raise d).irq.summary.contains (v.key * 2048 + i % 2048) = true := by
  induction l generalizing d with
  | nil => cases hp
  | cons vp l ih =>
    rcases List.mem_cons.1 hp with rfl | hp
    · exact Dev.foldl_raise_summary_of_mem l _ (d.raise_summary_self hr hi)
    · have hsame := d.raise_sameEvents vp
      exact ih (d.raise vp) hp (by rw [hsame.reaches, hr]) (by rw [hsame.entryOf, hi])

theorem summarised_finish (d : Dev) : summarised d.finish := by
  intro v p hp hr i hi
  have hsame : SameEvents d d.finish := Dev.foldl_raise_sameEvents d.pendingEvents d
  rw [hsame.pending] at hp
  rw [hsame.reaches] at hr
  rw [hsame.entryOf] at hi
  exact Dev.foldl_raise_summarises d.pendingEvents d hp hr hi

theorem summarised_of_sameEvents {d e : Dev} (hsame : SameEvents d e) (hirq : e.irq = d.irq) (h : summarised d) :
    summarised e := by
  intro v p hp hr i hi
  rw [hirq]
  rw [hsame.pending] at hp
  rw [hsame.reaches] at hr
  rw [hsame.entryOf] at hi
  exact h v p hp hr i hi

theorem summarised_tick {d : Dev} (h : summarised d) : summarised d.tick := by
  have hkept := tick_changesOnly d
  exact summarised_of_sameEvents
    (sameEvents_of_kept (hkept .hdr (by decide)) (hkept .parts (by decide)) (hkept .clus (by decide)) (hkept .boot (by decide)))
    (hkept .irq (by decide)) h

/-- Settles O5: every command ends in Dev.finish, which raises each pending page once. -/
theorem eventsAreSummarised : Obligations.EventsAreSummarised := by
  refine ⟨fun c s t h => ?_, fun s t hs hsum h => ?_⟩
  · rcases exec_cases c s with ⟨g, hg⟩ | hg <;> rw [hg] at h
    · cases h
      exact summarised_finish (g s.dev)
    · cases h
  · rw [(step_of_idle hs h).2]
    exact summarised_tick hsum

/-- Settles O4: at reset no event is enabled. -/
theorem resetIsSummarised : Obligations.ResetIsSummarised := by
  have hnone : State.reset.dev.pendingEvents = [] := by decide +kernel
  intro v p hp
  rw [hnone] at hp
  cases hp

/-! ### Every command answers, but for a number that no module has (log entry 8) -/

theorem onPage_answers {ok wf : Bool} (h : ok = false → wf = false) (f : Dev → Dev) (s : State) :
    (∃ t, onPage ok f s = .next t ∧ t.pending = s.pending) ∨ (onPage ok f s = .fault .noSuchUnit ∧ wf = false) := by
  cases ok with
  | false => exact .inr ⟨rfl, h rfl⟩
  | true => exact .inl ⟨_, rfl, rfl⟩

theorem onPage_of_invalid {ok : Bool} (h : ok = false) (f : Dev → Dev) (s : State) :
    onPage ok f s = .fault .noSuchUnit := by
  rw [onPage, h, if_neg Bool.false_ne_true]

theorem wf_rcRead_of_invalid {p : Page} (h : p.valid = false) (v : View) (off : Nat) (inc : Nat) :
    (Instr.rcRead v p off inc).wf = false := by
  simp [Instr.wf, h]

theorem exec_answers (c : Instr) (s : State) :
    (∃ t, exec c s = .next t ∧ t.pending = s.pending) ∨ (exec c s = .fault .noSuchUnit ∧ c.wf = false) := by
  cases c with
  | counterLowRead | counter64Read | blkNegWrite | blkEvtWrite | blockEnable | blockReady | blockQuiesce | blockUnquiesce
  | blockDisable | blockDrained | blockReset | errorDetect => exact onPage_answers id _ s
  | rcRead v p off inc => exact onPage_answers (wf_rcRead_of_invalid · v off inc) _ s
  | isleTimerLoRead | isleStateReq | islandDescentStart | islandDescentDone | islandAutoIdle | islandExitDone | sramSaveDone
  | sramRestoreDone | isleFreqWrite | freqChangeApply => exact onPage_answers id _ s
  | sramScrubPass | helloResend | keepaliveSend => exact onPage_answers id _ s
  | _ => exact .inl ⟨_, rfl, rfl⟩

/-- Settles O55: the one fault is onPage's, for a number that no module has. -/
theorem wellFormedCommandsComplete : Obligations.WellFormedCommandsComplete := by
  refine ⟨fun c s hc => ?_, fun c s => (exec_answers c s).imp_left fun ⟨t, ht, _⟩ => ⟨t, ht⟩, ?_⟩
  · refine (exec_answers c s).resolve_right fun hfault => ?_
    rw [hc] at hfault
    exact Bool.noConfusion hfault.2
  · intro v n x y r maj mnr w a e q k addr bad s
    refine ⟨fun p hp => ?_, fun i hi => ?_, fun i hi => ?_, fun i hi => ?_⟩
    · have hfault := onPage_of_invalid hp (s := s)
      simp only [List.forall_mem_cons]
      exact ⟨hfault _, hfault _, hfault _, hfault _, hfault _, hfault _, hfault _, hfault _, hfault _, hfault _, hfault _,
        hfault _, hfault _, List.forall_mem_nil _⟩
    · have hisle : (isleKind i).isSome = false := by rw [hi]; rfl
      have hfault := onPage_of_invalid hisle (s := s)
      simp only [List.forall_mem_cons]
      exact ⟨hfault _, hfault _, hfault _, hfault _, hfault _, hfault _, hfault _, hfault _, hfault _, hfault _,
        List.forall_mem_nil _⟩
    · exact onPage_of_invalid (decide_eq_false (by omega)) _ s
    · exact ⟨onPage_of_invalid (decide_eq_false (by omega)) _ s, onPage_of_invalid (decide_eq_false (by omega)) _ s⟩

end Sys2Proof.Machine
end

section
/-!
SUPPORT. What a write of the device's memory reaches: each write of an operation (Dev.land) and each piece of a translated write
(Dev.tWrite) keeps every translation, so that it lands where its address stood at the start.
-/

namespace Sys2Proof.Machine

open Sys2Proof.Safety


/-! ### Writes of the device's memory (Dev.land, Dev.tWrite): what they reach -/

/-- Two devices that translate every address alike and whose clusters are contained alike. -/
structure SamePlaces (d e : Dev) : Prop where
  parts : e.parts = d.parts
  clus : e.clus = d.clus
  states : e.pg.st = d.pg.st
  pages : e.tier.pages = d.tier.pages
  frames : ∀ k, (e.tier.frames.find? k).map (fun f => (f.valid, f.slot)) = (d.tier.frames.find? k).map fun f => (f.valid, f.slot)

theorem SamePlaces.refl (d : Dev) : SamePlaces d d := ⟨rfl, rfl, rfl, rfl, fun _ => rfl⟩

theorem SamePlaces.trans {d e f : Dev} (h : SamePlaces d e) (k : SamePlaces e f) : SamePlaces d f :=
  ⟨k.parts.trans h.parts, k.clus.trans h.clus, k.states.trans h.states, k.pages.trans h.pages,
    fun x => (k.frames x).trans (h.frames x)⟩

theorem samePlaces_of_changesOnly {d e : Dev} (h : changesOnly [.hdr, .ctr, .mem, .poison, .cores] d e) : SamePlaces d e :=
  have htier : e.tier = d.tier := h .tier (by decide)
  ⟨h .parts (by decide), h .clus (by decide), h .st (by decide), by rw [htier], fun k => by rw [htier]⟩

theorem SamePlaces.shutAt {d e : Dev} (h : SamePlaces d e) (k : Nat) : e.shutAt k = d.shutAt k := by
  unfold Dev.shutAt Dev.bst Dev.pst
  rw [h.states]

theorem SamePlaces.tr {d e : Dev} (h : SamePlaces d e) (p agent : Nat) (wr : Bool) (va n x : Nat) :
    e.tr p agent wr va n x = d.tr p agent wr va n x := by
  have htw : e.tw = d.tw := by funext i j; rw [Dev.tw, h.parts, Dev.tw]
  have howner : e.clusterOwner = d.clusterOwner := by funext c; rw [Dev.clusterOwner, Dev.ownerBit, htw]; rfl
  have hpchs : e.pchsOf = d.pchsOf := by funext k; rw [Dev.pchsOf, htw, Dev.pchsOf]
  have hinst : e.inst = d.inst := by
    funext c i
    unfold Dev.inst Dev.slotOf Dev.clus'
    rw [h.clus]
  have hpage : e.page? p x = d.page? p x := by
    unfold Dev.page?
    rw [h.pages]
  unfold Dev.tr
  rw [hpage]
  cases d.page? p x with
  | none => rfl
  | some bg =>
    obtain ⟨b, g⟩ := bg
    have hframe := h.frames (pgKey p b)
    dsimp only
    rw [howner, hpchs, hinst]
    cases he : e.tier.frames.find? (pgKey p b) <;> cases hd : d.tier.frames.find? (pgKey p b) <;> rw [he, hd] at hframe
    case some.none.some => cases hframe
    case some.some.none => cases hframe
    case some.some.some f f' =>
      obtain ⟨hvalid, hslot⟩ := Prod.mk.inj (Option.some.inj hframe)
      dsimp only
      rw [hvalid, hslot]

/-- A piece of a write that goes through marks the sectors of the page's frame dirty, which moves no byte. -/
theorem Dev.dirty_samePlaces (d : Dev) (p x n : Nat) : SamePlaces d (d.dirty p x n) := by
  unfold Dev.dirty
  split
  · exact .refl d
  · split
    · exact .refl d
    · next b _ _ _ f hf =>
      refine ⟨rfl, rfl, rfl, rfl, fun k => ?_⟩
      by_cases hk : k = pgKey p b
      · subst hk
        rw [hf]
        exact congrArg (Option.map fun f => (f.valid, f.slot)) (SMap.find?_insert d.tier.frames _ _)
      · exact congrArg _ (SMap.find?_insert_ne _ _ _ _ hk)

theorem Dev.dirty_mem (d : Dev) (p x n : Nat) : (d.dirty p x n).mem = d.mem := by
  have h : changesOnly [.tier] d (d.dirty p x n) := by simp
  exact h .mem (by decide)

theorem Dev.hbmCount_mem (d : Dev) (p n k len : Nat) : (d.hbmCount p n k len).mem = d.mem := by
  have h : changesOnly [.ctr] d (d.hbmCount p n k len) := by simp
  exact h .mem (by decide)

section
variable {d : Dev} {p agent va : Nat} {bytes : List Byte} {bad : List Nat} {x : Nat × Nat} {k : Nat}

/-- The device that a piece of a write leaves when it lands at a key. -/
theorem wrPiece_of_key (hk : d.tr p agent true va bytes.length x.1 = .key k) (hshut : d.shutAt k = none) :
    Dev.wrPiece p agent va bytes bad d x =
      ((d.wrBad k ((bytes.drop (x.1 - va)).take x.2)
        ((bad.filter fun i => x.1 - va ≤ i && i < x.1 - va + x.2).map (· - (x.1 - va)))).hbmCount p 1 k x.2).dirty p x.1 x.2 := by
  unfold Dev.wrPiece
  rw [hk]
  dsimp only
  rw [hshut]

theorem wrPiece_of_shut {c : Nat} (hk : d.tr p agent true va bytes.length x.1 = .key k) (hshut : d.shutAt k = some c) :
    Dev.wrPiece p agent va bytes bad d x = d.cntP (pClst c) 3 1 (d.clusterOwner c) := by
  unfold Dev.wrPiece
  rw [hk]
  dsimp only
  rw [hshut]

theorem wrPiece_of_no_key (hk : ∀ k, d.tr p agent true va bytes.length x.1 ≠ .key k) :
    Dev.wrPiece p agent va bytes bad d x = d := by
  unfold Dev.wrPiece
  split
  · next k h => exact absurd h (hk k)
  · rfl

/-- What a piece of a write can do: it lands at its key, or memory stays. -/
theorem wrPiece_cases (p agent va : Nat) (bytes : List Byte) (bad : List Nat) (d : Dev) (x : Nat × Nat) :
    SamePlaces d (Dev.wrPiece p agent va bytes bad d x) ∧
      ((Dev.wrPiece p agent va bytes bad d x).mem = d.mem ∨
        ∃ k, d.tr p agent true va bytes.length x.1 = .key k ∧ d.shutAt k = none ∧
          (Dev.wrPiece p agent va bytes bad d x).mem = memWrite d.mem k ((bytes.drop (x.1 - va)).take x.2)) := by
  by_cases hkey : ∃ k, d.tr p agent true va bytes.length x.1 = .key k
  · obtain ⟨k, hk⟩ := hkey
    cases hshut : d.shutAt k with
    | none =>
      rw [wrPiece_of_key hk hshut]
      refine ⟨.trans (samePlaces_of_changesOnly (by simp)) (Dev.dirty_samePlaces ..), .inr ⟨k, hk, hshut, ?_⟩⟩
      rw [Dev.dirty_mem, Dev.hbmCount_mem, Dev.wrBad_mem]
    | some c =>
      rw [wrPiece_of_shut hk hshut]
      exact ⟨samePlaces_of_changesOnly (by simp), .inl (by simp)⟩
  · rw [wrPiece_of_no_key fun k hk => hkey ⟨k, hk⟩]
    exact ⟨.refl d, .inl rfl⟩

theorem memGet_wrPiece_other {a : Nat}
    (ha : ∀ k, d.tr p agent true va bytes.length x.1 = .key k → d.shutAt k = none → a < k ∨ k + x.2 ≤ a) :
    memGet (Dev.wrPiece p agent va bytes bad d x).mem a = memGet d.mem a := by
  rcases (wrPiece_cases p agent va bytes bad d x).2 with hmem | ⟨k, hk, hshut, hmem⟩ <;> rw [hmem]
  refine memGet_memWrite_other _ _ _ _ ((ha k hk hshut).imp_right fun h => ?_)
  have : ((bytes.drop (x.1 - va)).take x.2).length ≤ x.2 := List.length_take_le ..
  omega

/-- Faults and recency, which end a write, leave memory as the pieces left it. -/
theorem Dev.tWrite_mem (d : Dev) (p agent va : Nat) (bytes : List Byte) (bad : List Nat) :
    (d.tWrite p agent va bytes bad).mem =
      ((piecesOf va bytes.length).foldl (Dev.wrPiece p agent va bytes bad) d).mem := by
  have h : changesOnly [.hdr, .ctr, .tier] ((piecesOf va bytes.length).foldl (Dev.wrPiece p agent va bytes bad) d)
      (d.tWrite p agent va bytes bad) := by
    unfold Dev.tWrite
    dsimp only
    rw [changesOnly_foldl _ _ _ fun b u => by simp]
    split <;> simp
  exact h .mem (by decide)

theorem memGet_tWrite_other {a : Nat}
    (ha : ∀ x, x ∈ piecesOf va bytes.length → ∀ k, d.tr p agent true va bytes.length x.1 = .key k → d.shutAt k = none →
      a < k ∨ k + x.2 ≤ a) : memGet (d.tWrite p agent va bytes bad).mem a = memGet d.mem a := by
  rw [Dev.tWrite_mem]
  refine (List.foldlRecOn (piecesOf va bytes.length) (Dev.wrPiece p agent va bytes bad)
    (motive := fun e => SamePlaces d e ∧ memGet e.mem a = memGet d.mem a) ⟨.refl d, rfl⟩ fun e he x hx => ?_).2
  obtain ⟨hsame, hmem⟩ := he
  refine ⟨hsame.trans (wrPiece_cases p agent va bytes bad e x).1, ?_⟩
  rw [memGet_wrPiece_other, hmem]
  intro k hk hshut
  rw [hsame.tr] at hk
  rw [hsame.shutAt] at hshut
  exact ha x hx k hk hshut

theorem piecesOf_of_aligned {va n : Nat} (hn : 0 < n) (hfit : n ≤ 256 - va % 256) : piecesOf va n = [(va, n)] := by
  have hk : Nat.min n (256 - va % 256) = n := Nat.min_eq_left hfit
  rw [piecesOf, cut256, if_neg (by omega)]
  dsimp only
  rw [hk, Nat.sub_self, cut256, if_pos rfl]

theorem memGet_tWrite {i : Nat} (hfit : bytes.length ≤ 256 - va % 256) (hk : d.tr p agent true va bytes.length va = .key k)
    (hshut : d.shutAt k = none) (hi : i < bytes.length) :
    memGet (d.tWrite p agent va bytes bad).mem (k + i) = bytes.getD i 0#8 := by
  rw [Dev.tWrite_mem, piecesOf_of_aligned (by omega) hfit, List.foldl_cons, List.foldl_nil,
    wrPiece_of_key hk hshut, Dev.dirty_mem, Dev.hbmCount_mem, Dev.wrBad_mem]
  dsimp only
  rw [Nat.sub_self, List.drop_zero, List.take_length, memGet_memWrite _ _ _ _ hi, List.getD_eq_getElem _ _ hi]

end

/-! ### The writes of an engine's operation -/

/-- One write of an operation, at a cluster that is contained or not. -/
def landOne (d : Dev) (w : MemWr) : Dev :=
  match d.shutAt w.key with
  | some c => d.cntP (pClst c) 3 1 (d.clusterOwner c)
  | none => d.wrBad w.key w.bytes w.bad

theorem Dev.land_eq_foldl (d : Dev) (ws : List MemWr) : d.land ws = ws.foldl landOne d := rfl

theorem landOne_of_shut {d : Dev} {w : MemWr} {c : Nat} (h : d.shutAt w.key = some c) :
    landOne d w = d.cntP (pClst c) 3 1 (d.clusterOwner c) := by
  rw [landOne, h]

theorem landOne_of_open {d : Dev} {w : MemWr} (h : d.shutAt w.key = none) : landOne d w = d.wrBad w.key w.bytes w.bad := by
  rw [landOne, h]

theorem landOne_changesOnly (d : Dev) (w : MemWr) : changesOnly [.hdr, .ctr, .mem, .poison, .cores] d (landOne d w) := by
  unfold landOne
  split <;> simp

theorem Dev.land_samePlaces (d : Dev) (ws : List MemWr) : SamePlaces d (d.land ws) :=
  List.foldlRecOn ws landOne (motive := SamePlaces d) (.refl d) fun e he w _ =>
    he.trans (samePlaces_of_changesOnly (landOne_changesOnly e w))

theorem memGet_landOne_other {d : Dev} {w : MemWr} {a : Nat}
    (ha : d.shutAt w.key = none → a < w.key ∨ w.key + w.bytes.length ≤ a) : memGet (landOne d w).mem a = memGet d.mem a := by
  cases hshut : d.shutAt w.key with
  | some c => rw [landOne_of_shut hshut]; simp
  | none =>
    rw [landOne_of_open hshut, Dev.wrBad_mem]
    exact memGet_memWrite_other _ _ _ _ (ha hshut)

theorem memGet_land_other {d : Dev} {ws : List MemWr} {a : Nat}
    (ha : ∀ w, w ∈ ws → d.shutAt w.key = none → a < w.key ∨ w.key + w.bytes.length ≤ a) :
    memGet (d.land ws).mem a = memGet d.mem a := by
  refine (List.foldlRecOn ws landOne (motive := fun e => SamePlaces d e ∧ memGet e.mem a = memGet d.mem a)
    ⟨.refl d, rfl⟩ fun e he w hw => ?_).2
  obtain ⟨hsame, hmem⟩ := he
  refine ⟨hsame.trans (samePlaces_of_changesOnly (landOne_changesOnly e w)), ?_⟩
  rw [memGet_landOne_other fun hshut => ha w hw (hsame.shutAt w.key ▸ hshut), hmem]

theorem memGet_land_last {d : Dev} (ws : List MemWr) {w : MemWr} {i : Nat} (hshut : d.shutAt w.key = none)
    (hi : i < w.bytes.length) : memGet (d.land (ws ++ [w])).mem (w.key + i) = w.bytes.getD i 0#8 := by
  have hopen : (d.land ws).shutAt w.key = none := ((d.land_samePlaces ws).shutAt w.key).trans hshut
  rw [Dev.land_eq_foldl, List.foldl_append, List.foldl_cons, List.foldl_nil, ← Dev.land_eq_foldl, landOne_of_open hopen,
    Dev.wrBad_mem, memGet_memWrite _ _ _ _ hi, List.getD_eq_getElem _ _ hi]

/-- Settles O53: the pieces of a write keep every translation, so each lands where the address stood at its start. -/
theorem storesReachTheirBytesOnly : Obligations.StoresReachTheirBytesOnly :=
  ⟨fun _ _ _ ha => memGet_land_other ha, fun _ ws _ _ hshut hi => memGet_land_last ws hshut hi,
    fun _ _ _ _ _ _ _ ha => memGet_tWrite_other ha, fun _ _ _ _ _ _ _ _ hfit hk hshut hi => memGet_tWrite hfit hk hshut hi⟩

end Sys2Proof.Machine
end

section
/-!
SUPPORT. The record sequence after a corrected error (Dev.corrected), and a count that the obligation ErrorCommands reads as a
32-bit word.
-/

namespace Sys2Proof.Machine

open Sys2Proof.Safety


/-! ### How far corrected errors move the record sequence (R637, R639) -/

theorem Dev.queueRec_seq (d : Dev) (r : ErrRec) : (d.queueRec r).errm.seq = d.errm.seq + 1 := by
  unfold Dev.queueRec
  dsimp only
  split <;> split <;> rfl

theorem Dev.record_seq (d : Dev) (code : Nat) (p : Page) (sev : Sev) (dom : Dom) (part : Option Nat) (akind addr isle : Nat)
    (esc : Bool) : (d.record code p sev dom part akind addr isle esc).errm.seq = d.errm.seq + 1 := d.queueRec_seq _

theorem seq_foldl_record {f : Dev → Nat → Dev} (hf : ∀ d i, (f d i).errm.seq = d.errm.seq + 1) (n : Nat) (d : Dev) :
    ((List.range n).foldl f d).errm.seq = d.errm.seq + BitVec.ofNat 32 n := by
  induction n with
  | zero => simp
  | succ n ih =>
    rw [List.range_succ, List.foldl_append, List.foldl_cons, List.foldl_nil, hf, ih, BitVec.add_assoc]
    congr 1
    exact BitVec.ofNat_add_ofNat _ _

/-- Each threshold that the count of a page passes writes one record. -/
theorem Dev.corrected_seq {d : Dev} {p : Page} (hout : d.handledAt p = false) (code akind addr : Nat) :
    (d.corrected code p 1 akind addr).errm.seq =
      d.errm.seq + BitVec.ofNat 32 ((d.errm.ce.get 0 p.key + 1) / Nat.max 1 (d.reg pErrm 0x048)) := by
  unfold Dev.corrected
  rw [if_neg Nat.one_ne_zero]
  by_cases hp : p.blk = .hbmc
  case pos =>
    have hout' : ((d.cnt .pf pErrm 3 1).cnt .pf p 5 1).handledAt p = false := hout
    simp only [if_pos hp, hout', Bool.false_eq_true, if_false]
    exact seq_foldl_record (fun d _ => d.record_seq ..) _ _
  case neg =>
    have hout' : (d.cnt .pf pErrm 3 1).handledAt p = false := hout
    simp only [if_neg hp, hout', Bool.false_eq_true, if_false]
    exact seq_foldl_record (fun d _ => d.record_seq ..) _ _

/-- A state in which the block DEVC has 2 ^ 32 - 1 corrected errors counted. -/
def manyCorrected : State :=
  { State.reset with dev := { Dev.reset with errm := { Errm.reset with ce := [(pDevc.key, 0xFFFFFFFF)] } } }

theorem errorDetect_of_corrected (p : Page) (akind addr : Nat) (d : Dev) :
    errorDetect 0x201 p akind addr d = d.corrected 0x201 p 1 akind addr := rfl

theorem exec_errorDetect {p : Page} (hp : p.valid = true) (code : BitVec 16) (akind : Fin 4) (addr : BitVec 64) (s : State) :
    exec (.errorDetect code p akind addr) s = onDev (errorDetect code.toNat p akind.val addr.toNat) s :=
  onPage_of_valid hp _ s

theorem manyCorrected_seq (akind addr : Nat) :
    (errorDetect 0x201 pDevc akind addr manyCorrected.dev).errm.seq = 0x10000000#32 := by
  have hout : manyCorrected.dev.handledAt pDevc = false := by decide +kernel
  have hcount : (manyCorrected.dev.errm.ce.get 0 pDevc.key + 1) / Nat.max 1 (manyCorrected.dev.reg pErrm 0x048) = 0x10000000 := by
    decide +kernel
  have hseq : manyCorrected.dev.errm.seq = 0#32 := by decide +kernel
  rw [errorDetect_of_corrected, Dev.corrected_seq hout, hcount, hseq]
  decide +kernel

/-- Refutes O47: the obligation divides the count by the threshold as 32-bit words, where 2 ^ 32 reads 0, and the model
divides the numbers themselves. From the state manyCorrected one corrected error writes 2 ^ 28 records, and the obligation
would have it write none. -/
theorem not_errorCommands : ¬ Obligations.ErrorCommands := by
  unfold Obligations.ErrorCommands
  rintro ⟨hdetect, -⟩
  obtain ⟨-, -, hcorrected, -⟩ := hdetect 0x201#16 pDevc 0 0 manyCorrected rfl
  obtain ⟨-, -, -, hseq⟩ := hcorrected (.inl rfl)
  obtain ⟨t, ht, -, -, hclaim⟩ := hseq (by decide +kernel)
  rw [exec_errorDetect (by decide)] at ht
  have hdev := congrArg (fun u => u.dev.errm.seq) (Host.Outcome.next.inj ht)
  dsimp only at hdev
  rw [Dev.finish_errm, show (0x201#16).toNat = 0x201 from rfl, manyCorrected_seq] at hdev
  rw [← hdev] at hclaim
  exact absurd hclaim (by decide +kernel)

end Sys2Proof.Machine
end

section
/-!
SUPPORT. Relay trees (chapter 13): the record that starts a tree, the messages of a tree that stands and of one that does not.
-/

namespace Sys2Proof.Machine

open Sys2Proof.Safety


theorem exec_treeStart (r : RingId) (e : Entry) (record : BitVec 64) (s : State) :
    exec (.treeStart r e record) s = onDev (treeStart r e record.toNat) s := rfl

theorem exec_tack (m : TreeMsg) (s : State) : exec (.tack m) s = onDev (tackMsg m) s := rfl

theorem exec_peeled (m : TreeMsg) (s : State) : exec (.peeled m) s = onDev (peeledMsg m) s := rfl

theorem exec_graft (m : TreeMsg) (s : State) : exec (.graft m) s = onDev (graftMsg m) s := rfl

theorem exec_treeData (m : TreeMsg) (bytes : List Byte) (s : State) :
    exec (.treeData m bytes) s = onDev (treeDataMsg m bytes) s := rfl

theorem exec_treeRound (p : Fin 16) (tag : BitVec 32) (s : State) :
    exec (.treeRound p tag) s = onDev (treeRoundAt p.val tag.toNat) s := rfl

/-! ### TREE_START (R536) -/

/-- The bytes of a tree record at va, header and node table. -/
def Dev.treeRecordLen (d : Dev) (n va : Nat) : Nat := 64 + 8 * Nat.min 1024 (fld (d.tRead n agTier va 64).1.bytes 6 2)

section
variable {r : RingId} {e : Entry} {va : Nat} {d d0 d1 : Dev} (htakes : ringTakes d r.part.val r.ring.val 0 true)
  (hclean : e.clean = true) (hva : va < vaLimit) (halign : va % 64 = 0)
  (hpre : d.prepare r.part.val agTier false va 64 = (true, d0))
  (htab : d0.prepare r.part.val agTier false va (Nat.min 8256 (d0.treeRecordLen r.part.val va)) = (true, d1))
include htakes hclean hva halign hpre htab

/-- A record that can be read is read, and its status decides whether the tree starts. -/
theorem treeStart_of_readable {x : Rd} {d2 : Dev}
    (hread : (headRead d1 r.part.val r.ring.val).tRead r.part.val agTier va
      ((headRead d1 r.part.val r.ring.val).treeRecordLen r.part.val va) = (x, d2))
    (hfault : x.fault = false) (hbad : x.bad = [])
    (hin : d2.inT1 r.part.val va ((headRead d1 r.part.val r.ring.val).treeRecordLen r.part.val va) = true) :
    treeStart r e va d =
      (if d2.treeStatus r.part.val (x.bytes.take 64) (x.bytes.drop 64) = 0 then
          d2.treeGo r.part va (x.bytes.take 64) (x.bytes.drop 64) else d2).complete r.part.val r.ring.val e
        (headNext d1 r.part.val r.ring.val) (d2.treeStatus r.part.val (x.bytes.take 64) (x.bytes.drop 64)) 0 := by
  unfold Dev.treeRecordLen at hread hin htab
  unfold treeStart
  dsimp only
  rw [ringTry_of_prepared htakes hclean]
  case hpre =>
    rw [if_neg (by omega), hpre]
    exact htab
  rw [if_neg (by omega), hread]
  simp [hfault, hbad, hin, halign]

end

/-! ### Messages for a tree that no record started -/

section
variable {m : TreeMsg} {d : Dev} (h : d.tree? m.part.val m.tag.toNat = none)
include h

theorem tackMsg_of_no_tree : tackMsg m d = d := by rw [tackMsg, h]

theorem peeledMsg_of_no_tree : peeledMsg m d = d := by rw [peeledMsg, h]

theorem graftMsg_of_no_tree : graftMsg m d = d := by rw [graftMsg, h]

theorem treeDataMsg_of_no_tree (b : List Byte) : treeDataMsg m b d = d := by rw [treeDataMsg, h]

theorem treeRoundAt_of_no_tree : treeRoundAt m.part.val m.tag.toNat d = d := by rw [treeRoundAt, h]

end

/-! ### Messages of a tree (R538, R539) -/

section
variable {m : TreeMsg} {d : Dev} {t : Tree} (h : d.tree? m.part.val m.tag.toNat = some t)
include h

theorem tackMsg_of_tree :
    tackMsg m d = d.treePump { t with kids := t.kids.map fun (k : TreeKid) =>
      if k.node = m.fromNode then { k with ack := max k.ack (min t.length m.offset.toNat) } else k } := by
  rw [tackMsg, h]

theorem peeledMsg_of_other (hs : t.server ≠ some m.fromNode) : peeledMsg m d = d := by
  rw [peeledMsg, h]
  exact if_pos (.inl hs)

theorem peeledMsg_of_leaf (hs : t.server = some m.fromNode) (hp : t.peeled = false) (hk : t.kids = []) :
    peeledMsg m d = d.treePump { t with peeled := true } := by
  rw [peeledMsg, h]
  simp [hs, hp, hk]

theorem graftMsg_of_child (hn : m.fromNode < t.nodes) (hs : t.server ≠ some m.fromNode) (hp : t.peeled = false) :
    graftMsg m d = d.treePump { t with kids := (t.kids.filter fun (k : TreeKid) => k.node != m.fromNode) ++
      [⟨m.fromNode, min t.length m.offset.toNat, min t.length m.offset.toNat, 0, none⟩] } := by
  rw [graftMsg, h]
  dsimp only
  rw [if_neg (by omega), if_neg hs, hp]
  rfl

theorem treeRoundAt_of_leaf (hk : t.kids = []) :
    treeRoundAt m.part.val m.tag.toNat d = (d.reach ioIsle t.roundAt).treePump
      { t with roundAt := t.roundAt + max 1 (d.reg pFabt 0x064) } := by
  rw [treeRoundAt, h]
  simp only [hk, List.foldl_nil]
  rw [← hk]
  rfl

theorem treeDataMsg_of_refused {b : List Byte} (hb : t.server = none ∨ t.held < m.offset.toNat) : treeDataMsg m b d = d := by
  rw [treeDataMsg, h]
  refine if_pos (hb.imp (fun hs => ?_) .inl)
  rw [hs]
  rfl

theorem treeDataMsg_of_taken {b new : List Byte} {d1 : Dev}
    (hnew : new = (b.drop (t.held - m.offset.toNat)).take (t.length - t.held)) (hs : t.server ≠ none)
    (ho : m.offset.toNat ≤ t.held) (hne : new ≠ [])
    (hpre : d.prepare m.part.val agEngine true (t.object + t.held) new.length = (true, d1))
    (hfaults : d1.faults m.part.val agEngine true (t.object + t.held) new.length = none) :
    treeDataMsg m b d =
      ((d1.tWrite m.part.val agEngine (t.object + t.held) new []).treeCtrl { t with held := t.held + new.length } m.fromNode 1
        (t.held + new.length)).treePump { t with held := t.held + new.length } := by
  rw [treeDataMsg, h]
  dsimp only
  rw [← hnew, if_neg (by simp [hs, hne]; omega), hpre]
  simp [hfaults]

end

/-- Settles O26: each message is one of the cases of its meaning. -/
theorem treeCommands : Obligations.TreeCommands := by
  constructor
  · intro r e rec s d0 d1 hclean n i va len htakes hva halign hpre htab rd x d2 hd t hfault hbad hin
    have hstart := treeStart_of_readable htakes hclean hva halign hpre htab (x := x) (d2 := d2) rfl hfault hbad hin
    refine ⟨fun hst => becomes_of_onDev (exec_treeStart r e rec s) ?refused, fun hst =>
      becomes_of_onDev (exec_treeStart r e rec s) ?started⟩
    case refused => rw [hstart, if_neg hst]
    case started => rw [hstart, if_pos hst, hst]
  · intro m s
    refine ⟨fun h => ?absent, fun t h => ?present⟩
    case absent =>
      exact ⟨becomes_of_onDev (exec_tack m s) (tackMsg_of_no_tree h), becomes_of_onDev (exec_peeled m s) (peeledMsg_of_no_tree h),
        becomes_of_onDev (exec_graft m s) (graftMsg_of_no_tree h),
        fun b => becomes_of_onDev (exec_treeData m b s) (treeDataMsg_of_no_tree h b),
        becomes_of_onDev (exec_treeRound m.part m.tag s) (treeRoundAt_of_no_tree h)⟩
    case present =>
      exact ⟨becomes_of_onDev (exec_tack m s) (tackMsg_of_tree h),
        fun hs => becomes_of_onDev (exec_peeled m s) (peeledMsg_of_other h hs),
        fun hs hp hk => becomes_of_onDev (exec_peeled m s) (peeledMsg_of_leaf h hs hp hk),
        fun hn hs hp => becomes_of_onDev (exec_graft m s) (graftMsg_of_child h hn hs hp),
        fun hk => becomes_of_onDev (exec_treeRound m.part m.tag s) (treeRoundAt_of_leaf h hk),
        fun b hb => becomes_of_onDev (exec_treeData m b s) (treeDataMsg_of_refused h hb),
        fun b new d1 hnew hs ho hne hpre hfaults =>
          becomes_of_onDev (exec_treeData m b s) (treeDataMsg_of_taken h hnew hs ho hne hpre hfaults)⟩

end Sys2Proof.Machine
end

section
/-!
SUPPORT. The DMA engines (R563–R577): what each command leaves of the channels, the halt record and memory.
-/

namespace Sys2Proof.Machine

open Sys2Proof.Safety


/-! ### The engines and their channels -/

theorem Dev.bst_of_st {d e : Dev} (h : e.pg.st = d.pg.st) (p : Page) : e.bst p = d.bst p := by
  rw [Dev.bst, Dev.pst, h, ← Dev.pst, ← Dev.bst]

theorem Dev.dma_of_dmae {d e : Dev} (h : e.dmae = d.dmae) (i : Nat) : e.dma i = d.dma i := by
  rw [Dev.dma, h, ← Dev.dma]

theorem Dev.chan_of_dmae {d e : Dev} (h : e.dmae = d.dmae) (i k : Nat) : e.chan i k = d.chan i k := by
  rw [Dev.chan, Dev.dma_of_dmae h, ← Dev.chan]

theorem Dev.chSize_of_regs {d e : Dev} (h : e.pg.regs = d.pg.regs) (i k : Nat) : e.chSize i k = d.chSize i k := by
  rw [Dev.chSize, Dev.chCfg, Dev.reg, Dev.regAt, h, ← Dev.regAt, ← Dev.reg, ← Dev.chCfg, ← Dev.chSize]

theorem Dev.dmaeOwner_of_parts {d e : Dev} (h : e.parts = d.parts) (i : Nat) : e.dmaeOwner i = d.dmaeOwner i := by
  have htw : e.tw = d.tw := by funext n k; rw [Dev.tw, h, ← Dev.tw]
  rw [Dev.dmaeOwner, Dev.ownerBit, htw, ← Dev.ownerBit, ← Dev.dmaeOwner]

@[simp] theorem Dev.dma_updDma (d : Dev) (e : Nat) (f : Dmae → Dmae) : (d.updDma e f).dma e = f (d.dma e) :=
  SMap.get_upd _ _ _ _

@[simp] theorem Dev.chan_updChan (d : Dev) (e i : Nat) (f : Chan → Chan) : (d.updChan e i f).chan e i = f (d.chan e i) := by
  unfold Dev.updChan Dev.chan
  rw [Dev.dma_updDma]
  exact SMap.get_upd _ _ _ _

theorem Dev.chan_updChan_ne (d : Dev) (e i : Nat) (f : Chan → Chan) {k : Nat} (hk : k ≠ i) :
    (d.updChan e i f).chan e k = d.chan e k := by
  unfold Dev.updChan Dev.chan
  rw [Dev.dma_updDma]
  exact SMap.get_upd_ne _ _ _ _ _ _ hk

section
variable (v : View) (c : ChanId) (w : Word) (toHost : Bool) (cause : BitVec 4) (addr : BitVec 64) (data : List Byte)
  (bad : List Nat) (s : State)

theorem exec_dmaTailDoorbell : exec (.dmaTailDoorbell v c w) s = onDev (dmaTail v c w) s := rfl

theorem exec_dmaSkip : exec (.dmaSkip v c) s = onDev (dmaSkipHead v c) s := rfl

theorem exec_dmaDescriptorStart : exec (.dmaDescriptorStart c) s = onDev (dmaStart c) s := rfl

theorem exec_dmaDescriptorDone : exec (.dmaDescriptorDone c data bad) s = onDev (dmaDone c data bad) s := rfl

theorem exec_dmaBusError :
    exec (.dmaBusError c toHost cause addr) s = onDev (dmaBusErr c toHost cause.toNat addr.toNat) s := rfl

theorem exec_dmaRestartReplay (e : Fin 32) : exec (.dmaRestartReplay v e) s = onDev (dmaRestart v e.val false) s := rfl

theorem exec_dmaRestartFlush (e : Fin 32) : exec (.dmaRestartFlush v e) s = onDev (dmaRestart v e.val true) s := rfl

theorem exec_dmaMaintWrite (e : Fin 32) (on : Bool) : exec (.dmaMaintWrite v e on) s = onDev (dmaMaint v e.val on) s := rfl

end

/-! ### Tail doorbell and skip (R563, R571) -/

section
variable {v : View} {c : ChanId} {d : Dev} (hopen : opens d v (pDmae c.eng.val))
include hopen

theorem dmaTail_of_opens (w : Word) :
    dmaTail v c w d =
      if d.chSize c.eng.val c.ch.val ≤ w.toNat % 4096 ∨
          (w.toNat % 4096 + d.chSize c.eng.val c.ch.val - (d.chan c.eng.val c.ch.val).head) % d.chSize c.eng.val c.ch.val <
            ((d.chan c.eng.val c.ch.val).tail + d.chSize c.eng.val c.ch.val - (d.chan c.eng.val c.ch.val).head) %
              d.chSize c.eng.val c.ch.val then d.err v (pDmae c.eng.val) 0x0101
      else d.updChan c.eng.val c.ch.val fun x => { x with tail := w.toNat % 4096 } := by
  unfold dmaTail
  rw [Dev.through_of_opens hopen]
  rfl

theorem dmaSkipHead_of_stopped (hs : (d.chan c.eng.val c.ch.val).stopped = true) :
    dmaSkipHead v c d = d.updChan c.eng.val c.ch.val fun x =>
      { x with stopped := false, reason := 0, abandoned := false, head := (x.head + 1) % d.chSize c.eng.val c.ch.val } := by
  unfold dmaSkipHead
  rw [Dev.through_of_opens hopen]
  refine if_neg ?_
  rw [hs]
  decide

end

/-! ### Start of a descriptor (R567, R571) -/

/-- Preparing and reading leave the channels as they were. -/
theorem dmae_of_read {d d1 d2 : Dev} {e a : Nat} {r : Rd} (hpre : d.dmaPrepare e false a 64 = (true, d1))
    (hread : d1.dmaRead e a 64 = (r, d2)) : d2.dmae = d.dmae := by
  have h1 : changesOnly [.ctr, .mem, .poison, .isles, .tier] d (d.dmaPrepare e false a 64).2 := by simp
  have h2 : changesOnly [.hdr, .ctr, .tier] d1 (d1.dmaRead e a 64).2 := by simp
  rw [hpre] at h1
  rw [hread] at h2
  exact (h2 .dmae (by decide)).trans (h1 .dmae (by decide))

/-- What DMA_DESCRIPTOR_START does with a descriptor that it has read. -/
def startRead (c : ChanId) (x : Chan) (r : Rd) (d : Dev) : Dev :=
  let e := c.eng.val
  let i := c.ch.val
  if d.dmaRefusal e r.bytes ≠ 0 then (if x.run.isEmpty then d.dmaRefuse e i (d.dmaRefusal e r.bytes) else d)
  else if !d.dmaWait (Dx.of r.bytes) then d
  else
    let d := match r.first with
      | some g => d.poisonRead (pDmae e) (if (d.dma e).maint then 2 else 1) g (d.dmaeOwner e)
      | none => d
    let d := if bit (Dx.of r.bytes).wid 15 then
        let (k, d) := d.freeNat 6
        d.dmaCnt e 6 k else d
    d.updChan e i fun x => { x with run := x.run ++ [r.bytes], abandoned := false }

section
variable {c : ChanId} {d d1 : Dev} {place : Nat}
  (hplace : place = ((d.chan c.eng.val c.ch.val).head + (d.chan c.eng.val c.ch.val).run.length) % d.chSize c.eng.val c.ch.val)
  (hruns : d.dmaRuns c.eng.val = true) (hon : (d.chCfg c.eng.val c.ch.val).testBit 8 = true)
  (hgoes : (d.chan c.eng.val c.ch.val).stopped = false) (hleft : place ≠ (d.chan c.eng.val c.ch.val).tail)
  (hroom : (d.chan c.eng.val c.ch.val).run.length + 1 < d.chSize c.eng.val c.ch.val)
  (hpre : d.dmaPrepare c.eng.val false (d.chBase c.eng.val c.ch.val + 64 * place) 64 = (true, d1))
include hplace hruns hon hgoes hleft hroom hpre

variable {r : Rd} {d2 : Dev} (hread : d1.dmaRead c.eng.val (d.chBase c.eng.val c.ch.val + 64 * place) 64 = (r, d2))
include hread

theorem dmaStart_of_read : dmaStart c d = startRead c (d.chan c.eng.val c.ch.val) r d2 := by
  subst hplace
  unfold dmaStart
  dsimp only
  rw [if_neg (by simp [hruns, hgoes, bit, hon, hleft]; omega), hpre]
  dsimp only
  rw [hread]
  rfl

end

theorem startRead_of_refused {c : ChanId} {x : Chan} {r : Rd} {d : Dev} (hwhy : d.dmaRefusal c.eng.val r.bytes ≠ 0)
    (hrun : x.run = []) : startRead c x r d = d.dmaRefuse c.eng.val c.ch.val (d.dmaRefusal c.eng.val r.bytes) := by
  unfold startRead
  dsimp only
  rw [if_pos hwhy, hrun]
  rfl

/-- A descriptor that passes and need not wait joins those under way; nothing else of the channels moves, nor memory. -/
theorem startRead_of_taken {c : ChanId} {x : Chan} {r : Rd} {d : Dev} (hwhy : d.dmaRefusal c.eng.val r.bytes = 0)
    (hwait : d.dmaWait (Dx.of r.bytes) = true) :
    (startRead c x r d).chan c.eng.val c.ch.val =
        { d.chan c.eng.val c.ch.val with run := (d.chan c.eng.val c.ch.val).run ++ [r.bytes], abandoned := false } ∧
      (startRead c x r d).mem = d.mem := by
  unfold startRead
  dsimp only
  rw [if_neg (not_not_intro hwhy), hwait, if_neg (by decide)]
  generalize hnoted : (match r.first with
    | some g => d.poisonRead (pDmae c.eng.val) (if (d.dma c.eng.val).maint then 2 else 1) g (d.dmaeOwner c.eng.val)
    | none => d) = d1
  have h1 : changesOnly [.hdr, .ctr, .errm, .free] d d1 := by
    rw [← hnoted]
    split <;> simp
  have h2 : changesOnly [.hdr, .ctr, .errm, .free] d (if bit (Dx.of r.bytes).wid 15 then
      (d1.freeNat 6).2.dmaCnt c.eng.val 6 (d1.freeNat 6).1 else d1) := by
    split
    · exact h1.trans (by simp)
    · exact h1
  constructor
  · rw [Dev.chan_updChan, Dev.chan_of_dmae (h2 .dmae (by decide))]
  · exact h2 .mem (by decide)

theorem Dev.chan_dmaRefuse (d : Dev) (e i r : Nat) :
    (d.dmaRefuse e i r).chan e i = { d.chan e i with stopped := true, reason := r } ∧ (d.dmaRefuse e i r).mem = d.mem := by
  have h : changesOnly [.hdr, .ctr] (d.updChan e i fun x => { x with stopped := true, reason := r }) (d.dmaRefuse e i r) := by
    unfold Dev.dmaRefuse
    simp
  constructor
  · rw [Dev.chan_of_dmae (h .dmae (by decide)), Dev.chan_updChan]
  · exact h .mem (by decide)

/-! ### Completion (R568, R570) -/

theorem dmaDone_of_run {c : ChanId} {data : List Byte} {bad : List Nat} {d d1 : Dev} {b : Desc} {rest : List Desc}
    (hrun : (d.chan c.eng.val c.ch.val).run = b :: rest)
    (hawake : d.dmaAwake c.eng.val (Dx.of b).out (d.dmaPieces c.eng.val (Dx.of b)) = (true, d1)) :
    (dmaDone c data bad d).chan c.eng.val c.ch.val =
        { d.chan c.eng.val c.ch.val with
          run := rest, head := ((d.chan c.eng.val c.ch.val).head + 1) % d.chSize c.eng.val c.ch.val } ∧
      (dmaDone c data bad d).mem = (d1.dmaMove c.eng.val (Dx.of b).out (d.dmaPieces c.eng.val (Dx.of b)) data bad).mem ∧
      ∀ p, d.dmaeOwner c.eng.val = some p → (dmaDone c data bad d).sigs = d.sigs ++
        sends (Dx.of b).sig p (srcDma c.eng.val c.ch.val) := by
  unfold dmaDone
  dsimp only
  rw [hrun]
  dsimp only
  rw [hawake]
  dsimp only
  rw [if_neg (by decide)]
  generalize hn : sumN ((d.dmaPieces c.eng.val (Dx.of b)).map fun (p : Nat × Nat × Nat) => p.2.2) = n
  generalize hmove : d1.dmaMove c.eng.val (Dx.of b).out (d.dmaPieces c.eng.val (Dx.of b)) data bad = d2
  generalize hcounted : ((d2.dmaCnt c.eng.val 0 1).dmaCnt c.eng.val (if (Dx.of b).out then 2 else 1) n).dmaAts c.eng.val
    (Dx.of b).ats = d3
  have h1 : changesOnly [.ctr, .mem, .poison, .isles, .tier] d
      (d.dmaAwake c.eng.val (Dx.of b).out (d.dmaPieces c.eng.val (Dx.of b))).2 := by simp
  rw [hawake] at h1
  have h2 : changesOnly [.hdr, .ctr, .mem, .poison, .isles, .cores, .tier, .errm, .free, .out] d d2 := by
    rw [← hmove]
    exact (h1.mono (by decide)).trans (by simp)
  have h23 : changesOnly [.ctr, .free] d2 d3 := by
    rw [← hcounted]
    simp
  have h3 := h2.trans (h23.mono (by decide))
  have howner : (d3.updChan c.eng.val c.ch.val fun y =>
      { y with run := rest, head := (y.head + 1) % d3.chSize c.eng.val c.ch.val }).dmaeOwner c.eng.val = d.dmaeOwner c.eng.val :=
    Dev.dmaeOwner_of_parts (h3 .parts (by decide)) _
  have hchan : d3.chan c.eng.val c.ch.val = d.chan c.eng.val c.ch.val := Dev.chan_of_dmae (h3 .dmae (by decide)) _ _
  have hsize : d3.chSize c.eng.val c.ch.val = d.chSize c.eng.val c.ch.val := Dev.chSize_of_regs (h3 .regs (by decide)) _ _
  have hsigs : d3.sigs = d.sigs := h3 .sigs (by decide)
  have hmem : d3.mem = d2.mem := h23 .mem (by decide)
  rw [howner]
  cases howned : d.dmaeOwner c.eng.val with
  | none =>
    refine ⟨?_, hmem, fun p hp => nomatch hp⟩
    rw [Dev.chan_updChan, hchan, hsize]
  | some p =>
    have hsignal : ∀ e : Dev, changesOnly [.sigs] e (e.signal (Dx.of b).sig (partFin p) (srcDma c.eng.val c.ch.val)) :=
      fun e => by simp
    refine ⟨?_, (hsignal _ .mem (by decide)).trans hmem, fun q hq => ?_⟩
    · rw [Dev.chan_of_dmae (hsignal _ .dmae (by decide)), Dev.chan_updChan, hchan, hsize]
    · obtain rfl := Option.some.inj hq
      rw [Dev.signal_sigs]
      exact congrArg (· ++ _) hsigs

/-! ### Bus errors (R572, R577) -/

theorem Dev.chan_dmaAbandon (d : Dev) (e i k : Nat) :
    ((d.dmaAbandon e i).chan e k).run = if k = i then [] else (d.chan e k).run := by
  unfold Dev.dmaAbandon
  dsimp only
  split
  · next hrun =>
    split
    · next hk => rw [hk, List.isEmpty_iff.1 hrun]
    · rfl
  · generalize hmarked : (d.chan e i).run.foldl (fun (d : Dev) b =>
      if (Dx.of b).out then d
      else (d.dmaPieces e (Dx.of b)).foldl (fun (d : Dev) p => d.dmaMark e p.2.1 p.2.2) d) d = d1
    have h1 : changesOnly [.poison] d d1 := by
      rw [← hmarked]
      refine (changesOnly_foldl _ _ _ fun b x => ?_).2 (changesOnly_self _ d)
      split
      · exact changesOnly_self _ b
      · exact (changesOnly_foldl _ _ _ fun c p => by simp).2 (changesOnly_self _ b)
    have hcounted : ∀ (b : Dev) (n : Nat), (b.dmaCnt e 5 n).dmae = b.dmae := fun b n =>
      (show changesOnly [.ctr] b (b.dmaCnt e 5 n) by simp) .dmae (by decide)
    rw [Dev.chan_of_dmae (hcounted _ _)]
    split
    · next hk => rw [hk, Dev.chan_updChan]
    · next hk => rw [Dev.chan_updChan_ne _ _ _ _ hk, Dev.chan_of_dmae (h1 .dmae (by decide))]

/-- A stop abandons what every channel has started. -/
theorem chan_foldl_dmaAbandon {e k : Nat} (l : List Nat) (d : Dev) (h : k ∈ l ∨ (d.chan e k).run = []) :
    ((l.foldl (Dev.dmaAbandon e) d).chan e k).run = [] := by
  induction l generalizing d with
  | nil => exact h.resolve_left List.not_mem_nil
  | cons i l ih =>
    refine ih _ ?_
    rw [Dev.chan_dmaAbandon]
    by_cases hk : k = i
    · exact .inr (if_pos hk)
    · rw [if_neg hk]
      exact h.imp_left fun hmem => (List.mem_cons.1 hmem).resolve_left hk

/-- The stop of all channels: the engine is Halted with its record, nothing is under way, and memory keeps its bytes. -/
theorem dmaHalt_stops (d : Dev) (e ch : Nat) (toHost : Bool) (cause addr : Nat) :
    (d.dmaHalt e ch toHost cause addr).bst (pDmae e) = .halted ∧
      ((d.dmaHalt e ch toHost cause addr).dma e).valid = true ∧
      ((d.dmaHalt e ch toHost cause addr).dma e).halt = (ch, toHost, cause, addr) ∧
      (∀ k, k < 8 → ((d.dmaHalt e ch toHost cause addr).chan e k).run = []) ∧
      (d.dmaHalt e ch toHost cause addr).mem = d.mem := by
  unfold Dev.dmaHalt
  dsimp only
  generalize hleft : (List.range 8).foldl (Dev.dmaAbandon e) d = d1
  have h1 : changesOnly [.hdr, .ctr, .poison, .tier, .dmae] d d1 := by
    rw [← hleft]
    exact (changesOnly_foldl _ _ _ fun b i => by simp).2 (changesOnly_self _ d)
  have hruns : ∀ k, k < 8 → (d1.chan e k).run = [] := fun k hk => by
    rw [← hleft]
    exact chan_foldl_dmaAbandon _ d (.inl (List.mem_range.2 hk))
  generalize hrecorded : (d1.updDma e fun x => { x with halt := (ch, toHost, cause, addr), valid := true }) = d2
  have hdma : d2.dma e = { d1.dma e with halt := (ch, toHost, cause, addr), valid := true } := by
    rw [← hrecorded, Dev.dma_updDma]
  have h2 : changesOnly [.dmae] d1 d2 := by
    rw [← hrecorded]
    simp
  have h3 : changesOnly [.st, .hdr] d2 (d2.toState (pDmae e) .halted) := by simp
  have h4 : changesOnly [.hdr, .ctr] (d2.toState (pDmae e) .halted)
      (((d2.toState (pDmae e) .halted).dmaCnt e 4 1).evtP (pDmae e) 1 ((d2.toState (pDmae e) .halted).dmaeOwner e)) := by simp
  have hdmae := (h4 .dmae (by decide)).trans (h3 .dmae (by decide))
  refine ⟨?_, ?_, ?_, fun k hk => ?_, ?_⟩
  · rw [Dev.bst_of_st (h4 .st (by decide)), Dev.bst, Dev.pst_toState]
  · rw [Dev.dma_of_dmae hdmae, hdma]
  · rw [Dev.dma_of_dmae hdmae, hdma]
  · rw [Dev.chan_of_dmae hdmae, Dev.chan, hdma, ← Dev.chan, hruns k hk]
  · exact (h4 .mem (by decide)).trans ((h3 .mem (by decide)).trans ((h2 .mem (by decide)).trans (h1 .mem (by decide))))

section
variable (c : ChanId) (toHost : Bool) {cause : Nat} (addr : Nat) (d : Dev)

theorem dmaBusErr_of_no_cause (h : cause = 0 ∨ 5 < cause) : dmaBusErr c toHost cause addr d = d := if_pos h

theorem dmaBusErr_of_halted (h0 : cause ≠ 0) (h5 : cause ≤ 5) (hst : d.bst (pDmae c.eng.val) = .halted) :
    dmaBusErr c toHost cause addr d = d.dmaCnt c.eng.val 4 1 :=
  (if_neg (by omega)).trans (if_pos hst)

theorem dmaBusErr_of_running (h0 : cause ≠ 0) (h5 : cause ≤ 5) (hst : d.bst (pDmae c.eng.val) ≠ .halted)
    (hrun : (d.chan c.eng.val c.ch.val).run ≠ []) :
    dmaBusErr c toHost cause addr d = (d.dmaHalt c.eng.val c.ch.val toHost cause addr).errP (pDmae c.eng.val) 0x0102
      (d.dmaeOwner c.eng.val) :=
  (if_neg (by omega)).trans ((if_neg hst).trans (if_neg (by simpa using hrun)))

end

/-! ### Restart and maintenance state (R575, R576) -/

/-- What the flush of a halted engine leaves of a channel. -/
def flushedChan (x : Chan) : Chan := { Chan.reset with head := x.tail, tail := x.tail }

/-- Every channel of an engine is flushed. -/
def Dev.flushChans (d : Dev) (e : Nat) : Dev :=
  (List.range 8).foldl (fun (d : Dev) i => d.updChan e i flushedChan) d

/-- A fold that updates each element of a list by itself, read at one of them. -/
theorem foldl_updates_each {β : Type} {get : Dev → Nat → β} {f : Dev → Nat → Dev} {g : Nat → β → β}
    (hself : ∀ d i, get (f d i) i = g i (get d i)) (hother : ∀ d i k, k ≠ i → get (f d i) k = get d k) {l : List Nat}
    (hl : l.Nodup) (d : Dev) (k : Nat) : get (l.foldl f d) k = if k ∈ l then g k (get d k) else get d k := by
  induction l generalizing d with
  | nil => rfl
  | cons i l ih =>
    obtain ⟨hi, hl⟩ := List.nodup_cons.1 hl
    rw [List.foldl_cons, ih hl]
    by_cases hk : k = i
    · subst hk
      rw [if_neg hi, if_pos List.mem_cons_self, hself]
    · simp only [hother _ _ _ hk, List.mem_cons, hk, false_or]

theorem Dev.chan_flushChans (d : Dev) (e : Nat) {k : Nat} (hk : k < 8) :
    (d.flushChans e).chan e k = flushedChan (d.chan e k) :=
  (foldl_updates_each (get := fun d k => d.chan e k) (g := fun _ => flushedChan) (fun d i => d.chan_updChan e i _)
    (fun d i _ hne => d.chan_updChan_ne e i _ hne) List.nodup_range d k).trans (if_pos (List.mem_range.2 hk))

theorem Dev.valid_flushChans (d : Dev) (e : Nat) : ((d.flushChans e).dma e).valid = (d.dma e).valid :=
  List.foldlRecOn (List.range 8) (fun (d : Dev) i => d.updChan e i flushedChan)
    (motive := fun b => (b.dma e).valid = (d.dma e).valid) rfl fun b hb i _ => by
      rw [← hb]
      unfold Dev.updChan
      rw [Dev.dma_updDma]

section
variable {e : Nat} {d : Dev} (hopen : opens d .pf (pDmae e))
include hopen

theorem dmaRestart_of_running (hst : d.bst (pDmae e) ≠ .halted) (flush : Bool) :
    dmaRestart .pf e flush d = d.err .pf (pDmae e) 0x0103 :=
  (Dev.privOnly_of_opens hopen _ _).trans (if_pos hst)

/-- The state that a restart leaves the engine in. -/
def restartState (d : Dev) (e : Nat) : BlkState := if (d.pst (pDmae e)).enable then .enabling else .disabled

theorem dmaRestart_replay (hst : d.bst (pDmae e) = .halted) :
    dmaRestart .pf e false d =
      (d.updDma e fun x => { x with valid := false }).toState (pDmae e) (restartState d e) :=
  (Dev.privOnly_of_opens hopen _ _).trans (if_neg (not_not_intro hst))

theorem dmaRestart_flush (hst : d.bst (pDmae e) = .halted) :
    dmaRestart .pf e true d =
      ((d.updDma e fun x => { x with valid := false }).flushChans e).toState (pDmae e) (restartState d e) := by
  have hkept : changesOnly [.dmae] d ((d.updDma e fun x => { x with valid := false }).flushChans e) := by
    unfold Dev.flushChans
    exact (changesOnly_foldl _ _ _ fun b i => by simp).2 (by simp)
  have hpst : ((d.updDma e fun x => { x with valid := false }).flushChans e).pst (pDmae e) = d.pst (pDmae e) := by
    rw [Dev.pst, hkept .st (by decide), ← Dev.pst]
  rw [restartState, ← hpst]
  unfold dmaRestart
  rw [Dev.privOnly_of_opens hopen, if_neg (not_not_intro hst)]
  rfl

theorem dmaMaint_of_opens (on : Bool) :
    dmaMaint .pf e on d =
      if d.boot.recovery || (d.bst (pDmae e) == .disabled && (d.dmaeOwner e).isNone) then
        d.updDma e fun x => { x with maint := on }
      else d := Dev.privOnly_of_opens hopen _ _

end

/-- Settles O28: each command is one of the cases of its meaning, and what closes a command leaves channels and memory. -/
theorem dmaCommands : Obligations.DmaCommands := by
  refine ⟨?doorbell, ?start, ?done, ?busError, ?restart⟩
  case doorbell =>
    intro v c w s e i x size t hopen
    have htail := dmaTail_of_opens hopen w
    refine ⟨fun hbad => becomes_of_onDev (exec_dmaTailDoorbell v c w s) (htail.trans (if_pos hbad)), fun hlt hle =>
      becomes_of_onDev (exec_dmaTailDoorbell v c w s) (htail.trans (if_neg ?taken)), fun hstop =>
      completes_of_onDev (exec_dmaSkip v c s) ?skip⟩
    case taken => exact not_or.2 ⟨Nat.not_le.2 hlt, Nat.not_lt.2 hle⟩
    case skip =>
      rw [dmaSkipHead_of_stopped hopen hstop, Dev.chan_of_dmae (Dev.finish_dmae _), Dev.chan_updChan]
      exact ⟨rfl, by simp⟩
  case start =>
    intro c s d1 e i x size place r hruns hon hgoes hleft hroom hpre
    have hstart := dmaStart_of_read rfl hruns hon hgoes hleft hroom hpre (r := r.1) (d2 := r.2) rfl
    have hchan : r.2.chan e i = x := Dev.chan_of_dmae (dmae_of_read hpre (r := r.1) (d2 := r.2) rfl) e i
    refine ⟨fun hwhy hwait => completes_of_onDev (exec_dmaDescriptorStart c s) ?taken, fun hwhy hrun =>
      completes_of_onDev (exec_dmaDescriptorStart c s) ?refused⟩
    case taken =>
      obtain ⟨htaken, hmem⟩ := startRead_of_taken (x := x) hwhy hwait
      rw [Dev.chan_of_dmae (Dev.finish_dmae _), Dev.finish_mem, hstart, htaken, hmem, hchan]
      exact ⟨rfl, rfl⟩
    case refused =>
      obtain ⟨hstopped, hmem⟩ := r.2.chan_dmaRefuse e i (r.2.dmaRefusal e r.1.bytes)
      rw [Dev.chan_of_dmae (Dev.finish_dmae _), Dev.finish_mem, hstart, startRead_of_refused hwhy hrun, hstopped, hmem, hchan]
      exact ⟨rfl, rfl⟩
  case done =>
    intro c data bad s b rest d1 e i x ps hrun hawake
    obtain ⟨hchan, hmem, hsigs⟩ := dmaDone_of_run (data := data) (bad := bad) hrun hawake
    refine completes_of_onDev (exec_dmaDescriptorDone c data bad s) ?_
    rw [Dev.chan_of_dmae (Dev.finish_dmae _), Dev.finish_mem, Dev.finish_sigs]
    exact ⟨hchan, hmem, hsigs⟩
  case busError =>
    intro c toHost cause addr s e
    have hexec := exec_dmaBusError c toHost cause addr s
    refine ⟨fun hno => becomes_of_onDev hexec (dmaBusErr_of_no_cause c toHost _ _ (hno.imp_left ?zero)), fun h0 h5 =>
      ⟨fun hst => becomes_of_onDev hexec (dmaBusErr_of_halted c toHost _ _ (mt ?nonzero h0) h5 hst), fun hst hrun =>
        completes_of_onDev hexec ?halts⟩⟩
    case zero => rintro rfl; rfl
    case nonzero => exact fun h => BitVec.eq_of_toNat_eq h
    case halts =>
      have h0' : cause.toNat ≠ 0 := mt (fun h => BitVec.eq_of_toNat_eq h) h0
      rw [dmaBusErr_of_running c toHost addr.toNat s.dev h0' h5 hst hrun]
      obtain ⟨hhalted, hvalid, hrecord, hruns, hmem⟩ := dmaHalt_stops s.dev e c.ch.val toHost cause.toNat addr.toNat
      generalize s.dev.dmaHalt c.eng.val c.ch.val toHost cause.toNat addr.toNat = d at *
      have hkept : changesOnly [.hdr, .ctr, .irq, .out] d
        (d.errP (pDmae c.eng.val) 0x0102 (s.dev.dmaeOwner c.eng.val)).finish := by simp
      refine ⟨?_, ?_, ?_, fun k hk => ?_, ?_⟩
      · rw [Dev.bst_of_st (hkept .st (by decide)), hhalted]
      · rw [Dev.dma_of_dmae (hkept .dmae (by decide)), hvalid]
      · rw [Dev.dma_of_dmae (hkept .dmae (by decide)), hrecord]
      · rw [Dev.chan_of_dmae (hkept .dmae (by decide)), hruns k hk]
      · rw [hkept .mem (by decide), hmem]
  case restart =>
    intro e s hopen p next
    refine ⟨fun hst => ?refused, fun hst => ⟨completes_of_onDev (exec_dmaRestartReplay .pf s e) ?replay,
      completes_of_onDev (exec_dmaRestartFlush .pf s e) ?flush⟩, fun on => ?maint⟩
    case refused =>
      exact ⟨becomes_of_onDev (exec_dmaRestartReplay .pf s e) (dmaRestart_of_running hopen hst false),
        becomes_of_onDev (exec_dmaRestartFlush .pf s e) (dmaRestart_of_running hopen hst true)⟩
    case replay =>
      rw [dmaRestart_replay hopen hst]
      generalize hd : (s.dev.updDma e.val fun x => { x with valid := false }) = d
      have hdma : d.dma e.val = { s.dev.dma e.val with valid := false } := by rw [← hd, Dev.dma_updDma]
      have hstate : changesOnly [.st, .hdr, .irq, .out, .ctr] d (d.toState p (restartState s.dev e.val)).finish := by simp
      refine ⟨?_, ?_, ?_⟩
      · rw [Dev.bst_of_st (Dev.finish_pg_st _), Dev.bst, Dev.pst_toState]
        rfl
      · rw [Dev.dma_of_dmae (hstate .dmae (by decide)), hdma]
      · refine changesOnly.trans (b := d) ?_ (hstate.mono (by decide))
        rw [← hd]
        simp
    case flush =>
      rw [dmaRestart_flush hopen hst]
      generalize hd : (s.dev.updDma e.val fun x => { x with valid := false }) = d
      have hdma : d.dma e.val = { s.dev.dma e.val with valid := false } := by rw [← hd, Dev.dma_updDma]
      have hkept : changesOnly [.dmae] s.dev (d.flushChans e.val) := by
        rw [← hd]
        unfold Dev.flushChans
        exact (changesOnly_foldl _ _ _ fun b i => by simp).2 (by simp)
      have hstate : changesOnly [.st, .hdr, .irq, .out, .ctr] (d.flushChans e.val)
        ((d.flushChans e.val).toState p (restartState s.dev e.val)).finish := by simp
      refine ⟨?_, ?_, fun k hk => ?_, (hkept.mono (by decide)).trans (hstate.mono (by decide))⟩
      · rw [Dev.bst_of_st (Dev.finish_pg_st _), Dev.bst, Dev.pst_toState]
        rfl
      · rw [Dev.dma_of_dmae (hstate .dmae (by decide)), Dev.valid_flushChans, hdma]
      · rw [Dev.chan_of_dmae (hstate .dmae (by decide)), Dev.chan_flushChans _ _ hk, Dev.chan, hdma]
        rfl
    case maint =>
      have hexec := exec_dmaMaintWrite .pf s e on
      have hmaint := dmaMaint_of_opens hopen on
      refine ⟨fun h => becomes_of_onDev hexec (hmaint.trans (if_pos ?_)), fun hrec h =>
        becomes_of_onDev hexec (hmaint.trans (if_neg ?_))⟩
      · simpa using h
      · simpa [hrec, imp_iff_not_or] using h

end Sys2Proof.Machine
end

section
/-!
SUPPORT. SPDM connections and the management messages (R671–R677, R699, R711): the response of each request.
-/

namespace Sys2Proof.Machine

open Sys2Proof.Safety


/-! ### What leaves the device with a command -/

/-- An output that a command put out before the event summary closed it. -/
theorem out_finish {d : Dev} {o : Output} {l : List Output} (h : d.out = o :: l) : ∃ pre, d.finish.out = pre ++ o :: l := by
  obtain ⟨pre, hpre⟩ := d.finish_out_suffix
  exact ⟨pre, by rw [← hpre, h]⟩

/-! ### An SPDM connection (R671, R672) -/

@[simp] theorem Dev.spdm_setSpdm (d : Dev) (via : SpdmVia) (x : Spdm) : (d.setSpdm via x).spdm via = x := by cases via <;> rfl

@[simp] theorem Dev.out_setSpdm (d : Dev) (via : SpdmVia) (x : Spdm) : (d.setSpdm via x).out = d.out := rfl

theorem Dev.spdm_of_sec {d e : Dev} (h : e.sec = d.sec) (via : SpdmVia) : e.spdm via = d.spdm via := by
  cases via <;> simp only [Dev.spdm, h]

theorem Dev.spdm_finish (d : Dev) (via : SpdmVia) : d.finish.spdm via = d.spdm via := Dev.spdm_of_sec (Dev.finish_sec d) via

section
variable {d : Dev} {via : SpdmVia} {b : List Byte}

theorem spdmOut_of_small (h : b.length ≤ 4096) :
    (d.spdmOut via b).out = .spdm via b :: d.out ∧ (d.spdmOut via b).spdm via = d.spdm via := by
  unfold Dev.spdmOut
  dsimp only
  rw [if_pos h]
  exact ⟨rfl, Dev.spdm_of_sec rfl via⟩

theorem spdmOut_of_large (h : 4096 < b.length) :
    (d.spdmOut via b).spdm via =
      { d.spdm via with handle := ((d.spdm via).handle + 1) % 256, large := b, nextChunk := 0 } := by
  unfold Dev.spdmOut
  dsimp only
  rw [if_neg (Nat.not_le.2 h)]
  cases via <;> rfl

/-- A short response is sent, and the connection stands as it was set. -/
theorem spdmOut_sent {x : Spdm} {l : List Output} (h : b.length ≤ 4096) (hx : d.spdm via = x) (hl : d.out = l) :
    (∃ pre, (d.spdmOut via b).finish.out = pre ++ Output.spdm via b :: l) ∧ (d.spdmOut via b).finish.spdm via = x := by
  obtain ⟨hout, hspdm⟩ := spdmOut_of_small (d := d) (via := via) h
  rw [hl] at hout
  exact ⟨out_finish hout, by rw [Dev.spdm_finish, hspdm, hx]⟩

end

/-- A response of a connection x before and y set for it: sent, or kept for CHUNK_GET. -/
def answered (via : SpdmVia) (x : Spdm) (l : List Output) (b : List Byte) (d : Dev) : Prop :=
  (b.length ≤ 4096 → (∃ pre, d.out = pre ++ Output.spdm via b :: l) ∧ (d.spdm via).large = x.large ∧
    (d.spdm via).handle = x.handle) ∧
  (4096 < b.length → (d.spdm via).large = b ∧ (d.spdm via).nextChunk = 0 ∧ (d.spdm via).handle = (x.handle + 1) % 256)

/-- The response is answered on the connection as the request set it. -/
theorem spdmOut_answered {d : Dev} {via : SpdmVia} {b : List Byte} {x y : Spdm} {l : List Output} (hlarge : y.large = x.large)
    (hhandle : y.handle = x.handle) (hl : d.out = l) :
    answered via x l b ((d.setSpdm via y).spdmOut via b).finish ∧
      (((d.setSpdm via y).spdmOut via b).finish.spdm via).transcript = y.transcript := by
  have hy : (d.setSpdm via y).spdm via = y := Dev.spdm_setSpdm d via y
  have hout : (d.setSpdm via y).out = l := hl
  generalize d.setSpdm via y = e at *
  rw [← hy] at hlarge hhandle ⊢
  refine ⟨⟨fun h => ?_, fun h => ?_⟩, ?_⟩
  · obtain ⟨hsent, hspdm⟩ := spdmOut_sent h rfl hout
    rw [hspdm]
    exact ⟨hsent, hlarge, hhandle⟩
  · rw [Dev.spdm_finish, spdmOut_of_large h]
    exact ⟨rfl, rfl, by rw [← hhandle]⟩
  · rw [Dev.spdm_finish]
    rcases Nat.lt_or_ge 4096 b.length with h | h
    · rw [spdmOut_of_large h]
    · rw [(spdmOut_of_small h).2]

theorem Dev.spdmAt_early {d : Dev} {via : SpdmVia} {n : Nat} (h : (d.spdm via).phase < n) (f : Spdm → Dev) :
    d.spdmAt via n f = d.spdmErr via 4 0 := if_pos h

theorem Dev.spdmAt_ready {d : Dev} {via : SpdmVia} {n : Nat} (h : n ≤ (d.spdm via).phase) (f : Spdm → Dev) :
    d.spdmAt via n f = f (d.spdm via) := if_neg (Nat.not_lt.2 h)

section
variable (via : SpdmVia) (req : List Byte) (s : State)

theorem exec_getVersion : exec (.getVersion via req) s = onDev (getVersion via req) s := rfl
theorem exec_getCapabilities : exec (.getCapabilities via req) s = onDev (getCapabilities via req) s := rfl
theorem exec_negotiateAlgorithms : exec (.negotiateAlgorithms via req) s = onDev (negotiateAlgorithms via req) s := rfl
theorem exec_getDigests : exec (.getDigests via req) s = onDev (getDigests via req) s := rfl
theorem exec_challenge : exec (.challenge via req) s = onDev (challenge via req) s := rfl
theorem exec_respondIfReady : exec (.respondIfReady via req) s = onDev (respondIfReady via) s := rfl
theorem exec_spdmUnsupportedRequest (code : Byte) :
    exec (.spdmUnsupportedRequest via code) s = onDev (spdmOther via code.toNat) s := rfl
theorem exec_getMeasurements (index : Byte) :
    exec (.getMeasurements via index req) s = onDev (getMeasurements via index.toNat req) s := rfl
theorem exec_getCertificate (slot : Fin 8) (off len : BitVec 16) :
    exec (.getCertificate via slot off len) s = onDev (getCertificate via slot.val off.toNat len.toNat) s := rfl
theorem exec_chunkGet (handle : Byte) (seq : BitVec 16) :
    exec (.chunkGet via handle seq) s = onDev (chunkGet via handle.toNat seq.toNat) s := rfl

end

/-! ### The requests of a connection (R672) -/

section
variable {via : SpdmVia} {req : List Byte} {d : Dev}

theorem getVersion_answers :
    (∃ pre, (getVersion via req d).finish.out = pre ++ Output.spdm via [0x10, 0x04, 0, 0, 0, 2, 0, 0x12, 0, 0x13] :: d.out) ∧
      (getVersion via req d).finish.spdm via =
        { Spdm.reset with
          phase := 1, handle := (d.spdm via).handle, transcript := req ++ [0x10, 0x04, 0, 0, 0, 2, 0, 0x12, 0, 0x13] } := by
  have hresp : [0x10#8, 0x04#8, 0#8, 0#8, 0#8, 2#8] ++ leBytes 2 0x1200 ++ leBytes 2 0x1300 =
      [0x10, 0x04, 0, 0, 0, 2, 0, 0x12, 0, 0x13] := by decide
  unfold getVersion
  rw [hresp]
  exact spdmOut_sent (by decide) (Dev.spdm_setSpdm d via _) rfl

theorem getCapabilities_of_other_version (hp : 1 ≤ (d.spdm via).phase) (h2 : fld req 0 1 ≠ 0x12) (h3 : fld req 0 1 ≠ 0x13) :
    getCapabilities via req d = d.spdmErr via 0x41 0 :=
  (Dev.spdmAt_ready hp _).trans (if_pos ⟨h2, h3⟩)

theorem getCapabilities_answers (hp : 1 ≤ (d.spdm via).phase) (hv : fld req 0 1 = 0x12 ∨ fld req 0 1 = 0x13) :
    ∃ b : List Byte, (∃ pre, (getCapabilities via req d).finish.out = pre ++ Output.spdm via b :: d.out) ∧
      (getCapabilities via req d).finish.spdm via =
        { d.spdm via with phase := 2, version := fld req 0 1, transcript := (d.spdm via).transcript ++ req ++ b } ∧
      b.length = 20 ∧ fld b 1 1 = 0x61 ∧ fld b 8 4 = capFlags := by
  have heq : getCapabilities via req d = _ := (Dev.spdmAt_ready hp _).trans (if_neg (by omega))
  rw [heq]
  dsimp only
  generalize Config.fuseBits 7 8 = fuse
  obtain ⟨hsent, hspdm⟩ := spdmOut_sent (b := beBytes 1 (fld req 0 1) ++ [0x61#8, 0#8, 0#8, 0#8] ++ beBytes 1 fuse.toNat ++
    zbytes 2 ++ leBytes 4 capFlags ++ leBytes 4 4096 ++ leBytes 4 65536) (show 20 ≤ 4096 by decide) (Dev.spdm_setSpdm d via _) rfl
  exact ⟨_, hsent, hspdm, rfl, rfl, rfl⟩

theorem negotiateAlgorithms_answers (hp : 2 ≤ (d.spdm via).phase) :
    ∃ b : List Byte, (∃ pre, (negotiateAlgorithms via req d).finish.out = pre ++ Output.spdm via b :: d.out) ∧
      (negotiateAlgorithms via req d).finish.spdm via =
        { d.spdm via with phase := 3, transcript := (d.spdm via).transcript ++ req ++ b } ∧
      b.length = 36 ∧ fld b 1 1 = 0x63 ∧ fld b 8 4 = 4 ∧ fld b 12 4 = 0x80 ∧ fld b 16 4 = 2 := by
  have heq : negotiateAlgorithms via req d = _ := Dev.spdmAt_ready hp _
  rw [heq]
  dsimp only
  obtain ⟨hsent, hspdm⟩ := spdmOut_sent (b := beBytes 1 (d.spdm via).version ++ [0x63#8, 0#8, 0#8] ++ leBytes 2 36 ++ [1#8, 0#8] ++
    leBytes 4 4 ++ leBytes 4 0x80 ++ leBytes 4 2 ++ zbytes 16) (show 36 ≤ 4096 by decide) (Dev.spdm_setSpdm d via _) rfl
  exact ⟨_, hsent, hspdm, rfl, rfl, rfl, rfl, rfl⟩

theorem length_sha (b : List Byte) : (sha b).length = 48 := by simp [sha, beBytes, length_leBytes]

theorem getDigests_answers (hp : 3 ≤ (d.spdm via).phase) :
    (∃ pre, (getDigests via req d).finish.out = pre ++ Output.spdm via
        (beBytes 1 (d.spdm via).version ++ [0x01, 0, 1] ++ sha d.chain) :: d.out) ∧
      (getDigests via req d).finish.spdm via =
        { d.spdm via with transcript := (d.spdm via).transcript ++ req ++
            (beBytes 1 (d.spdm via).version ++ [0x01, 0, 1] ++ sha d.chain) } := by
  have heq : getDigests via req d = _ := Dev.spdmAt_ready hp _
  rw [heq]
  exact spdmOut_sent (by simp [length_sha, beBytes, length_leBytes]) (Dev.spdm_setSpdm d via _) rfl

theorem getCertificate_of_absent {slot off len : Nat} (hp : 3 ≤ (d.spdm via).phase) (h : slot ≠ 0 ∨ d.chain.length ≤ off) :
    getCertificate via slot off len d = d.spdmErr via 1 0 :=
  (Dev.spdmAt_ready hp _).trans (if_pos h)

theorem getCertificate_answers {off len : Nat} (hp : 3 ≤ (d.spdm via).phase) (h : off < d.chain.length) :
    answered via (d.spdm via) d.out (beBytes 1 (d.spdm via).version ++ [0x02, 0, 0] ++
        leBytes 2 ((d.chain.drop off).take len).length ++
        leBytes 2 (d.chain.length - off - ((d.chain.drop off).take len).length) ++ (d.chain.drop off).take len)
      (getCertificate via 0 off len d).finish := by
  have heq : getCertificate via 0 off len d = _ := (Dev.spdmAt_ready hp _).trans (if_neg (by omega))
  rw [heq]
  exact (spdmOut_answered rfl rfl rfl).1

theorem challenge_of_slot (hp : 3 ≤ (d.spdm via).phase) (h : fld req 2 1 ≠ 0) : challenge via req d = d.spdmErr via 1 0 :=
  (Dev.spdmAt_ready hp _).trans (if_pos h)

theorem Dev.chain_nonce (d : Dev) : d.nonce.2.chain = d.chain := rfl

theorem Dev.measSummary_nonce (d : Dev) : d.nonce.2.measSummary = d.measSummary := rfl

theorem Dev.out_nonce (d : Dev) : d.nonce.2.out = d.out := rfl

theorem Dev.length_nonce (d : Dev) : d.nonce.1.length = 32 := by simp [Dev.nonce, beBytes, length_leBytes]

/-- The response of CHALLENGE before its signature. -/
def challengeResponse (v : Nat) (req chain summary nonce : List Byte) : List Byte :=
  beBytes 1 v ++ [0x03#8, 0#8, 1#8] ++ sha chain ++ nonce ++ (if fld req 3 1 = 0 then [] else summary) ++ leBytes 2 0 ++
    (if v = 0x13 then (req.drop 36).take 8 else [])

theorem challenge_of_ready (hp : 3 ≤ (d.spdm via).phase) (h : fld req 2 1 = 0) :
    challenge via req d =
      (d.nonce.2.setSpdm via { d.spdm via with transcript := [] }).spdmOut via
        (challengeResponse (d.spdm via).version req d.chain d.measSummary d.nonce.1 ++
          Config.ecdsaSign 1 ((d.spdm via).transcript ++ req ++
            challengeResponse (d.spdm via).version req d.chain d.measSummary d.nonce.1)) := by
  unfold challenge challengeResponse
  rw [Dev.spdmAt_ready hp]
  dsimp only
  rw [if_neg (not_not_intro h), Dev.chain_nonce, Dev.measSummary_nonce, List.take_zero]

theorem challenge_answers (hp : 3 ≤ (d.spdm via).phase) (h : fld req 2 1 = 0) :
    ∃ nonce : List Byte, nonce.length = 32 ∧
      let b := challengeResponse (d.spdm via).version req d.chain d.measSummary nonce
      answered via (d.spdm via) d.out (b ++ Config.ecdsaSign 1 ((d.spdm via).transcript ++ req ++ b))
          (challenge via req d).finish ∧
        ((challenge via req d).finish.spdm via).transcript = [] := by
  refine ⟨d.nonce.1, d.length_nonce, ?_⟩
  rw [challenge_of_ready hp h]
  exact spdmOut_answered rfl rfl d.out_nonce

/-- The blocks that GET_MEASUREMENTS returns for an index (R674). -/
def measIds (index : Nat) : List Nat := if index = 0 then [] else if index = 0xFF then [1, 2, 3, 4, 5, 6, 7, 8] else [index]

/-- The response of GET_MEASUREMENTS before its signature. -/
def measResponse (v : Nat) (index : Nat) (req blocks nonce : List Byte) : List Byte :=
  beBytes 1 v ++ [0x60#8] ++ beBytes 1 (if index = 0 then 8 else 0) ++ [0#8] ++
    beBytes 1 (measIds index).length ++ leBytes 3 blocks.length ++ blocks ++ nonce ++ leBytes 2 0 ++
    (if v = 0x13 then (req.drop 37).take 8 else [])

theorem getMeasurements_of_no_block {index : Nat} (hp : 3 ≤ (d.spdm via).phase) (h8 : 8 < index) (hff : index ≠ 0xFF) :
    getMeasurements via index req d = d.spdmErr via 1 0 :=
  (Dev.spdmAt_ready hp _).trans (if_pos ⟨h8, hff⟩)

theorem getMeasurements_of_ready {index : Nat} {b : List Byte} (hp : 3 ≤ (d.spdm via).phase) (h : index ≤ 8 ∨ index = 0xFF)
    (hb : b = measResponse (d.spdm via).version index req ((measIds index).flatMap d.measBlock) d.nonce.1) :
    getMeasurements via index req d =
      if bit (fld req 2 1) 0 then
        (d.nonce.2.setSpdm via { d.spdm via with transcript := [] }).spdmOut via
          (b ++ Config.ecdsaSign 1 ((d.spdm via).transcript ++ req ++ b))
      else (d.nonce.2.setSpdm via { d.spdm via with transcript := (d.spdm via).transcript ++ req ++ b }).spdmOut via b := by
  subst hb
  unfold getMeasurements measResponse measIds
  rw [Dev.spdmAt_ready hp]
  dsimp only
  rw [if_neg (by omega), List.flatMap_eq_foldl]

theorem getMeasurements_answers {index : Nat} (hp : 3 ≤ (d.spdm via).phase) (h : index ≤ 8 ∨ index = 0xFF) :
    ∃ nonce : List Byte, nonce.length = 32 ∧
      let b := measResponse (d.spdm via).version index req ((measIds index).flatMap d.measBlock) nonce
      if bit (fld req 2 1) 0 then
        answered via (d.spdm via) d.out (b ++ Config.ecdsaSign 1 ((d.spdm via).transcript ++ req ++ b))
            (getMeasurements via index req d).finish ∧
          ((getMeasurements via index req d).finish.spdm via).transcript = []
      else
        answered via (d.spdm via) d.out b (getMeasurements via index req d).finish ∧
          ((getMeasurements via index req d).finish.spdm via).transcript = (d.spdm via).transcript ++ req ++ b := by
  refine ⟨d.nonce.1, d.length_nonce, ?_⟩
  dsimp only
  rw [getMeasurements_of_ready hp h rfl]
  split <;> exact spdmOut_answered rfl rfl d.out_nonce

theorem chunkGet_of_no_piece {handle seq : Nat} (hp : 2 ≤ (d.spdm via).phase)
    (h : (d.spdm via).large = [] ∨ handle ≠ (d.spdm via).handle ∨ seq ≠ (d.spdm via).nextChunk) :
    chunkGet via handle seq d = d.spdmErr via 1 0 :=
  (Dev.spdmAt_ready hp _).trans (if_pos (h.imp_left List.isEmpty_iff.2))

/-- The response that carries piece seq of a large response. -/
def chunkResponse (x : Spdm) (seq : Nat) : List Byte :=
  beBytes 1 x.version ++ [0x06] ++ beBytes 1 (b2n (decide (x.large.length ≤ 4080 * (seq + 1)))) ++ beBytes 1 x.handle ++
    leBytes 2 seq ++ [0, 0] ++ leBytes 4 ((x.large.drop (4080 * seq)).take 4080).length ++
    (if seq = 0 then leBytes 4 x.large.length else []) ++ (x.large.drop (4080 * seq)).take 4080

/-- Only the first piece carries the whole response's size. -/
theorem chunkResponse_of_later (x : Spdm) {seq : Nat} (h : 0 < seq) :
    chunkResponse x seq =
      beBytes 1 x.version ++ [0x06] ++ beBytes 1 (b2n (decide (x.large.length ≤ 4080 * (seq + 1)))) ++ beBytes 1 x.handle ++
        leBytes 2 seq ++ [0, 0] ++ leBytes 4 ((x.large.drop (4080 * seq)).take 4080).length ++
        (x.large.drop (4080 * seq)).take 4080 := by
  rw [chunkResponse, if_neg (by omega), List.append_nil]

theorem length_chunkResponse_le (x : Spdm) (seq : Nat) : (chunkResponse x seq).length ≤ 4096 := by
  have hpiece : ((x.large.drop (4080 * seq)).take 4080).length ≤ 4080 := List.length_take_le ..
  have hsize : (if seq = 0 then leBytes 4 x.large.length else []).length ≤ 4 := by split <;> simp [length_leBytes]
  simp only [chunkResponse, List.length_append, beBytes, List.length_reverse, length_leBytes, List.length_cons, List.length_nil]
  omega

theorem chunkGet_answers (hp : 2 ≤ (d.spdm via).phase) (hl : (d.spdm via).large ≠ []) :
    (∃ pre, (chunkGet via (d.spdm via).handle (d.spdm via).nextChunk d).finish.out =
        pre ++ Output.spdm via (chunkResponse (d.spdm via) (d.spdm via).nextChunk) :: d.out) ∧
      (chunkGet via (d.spdm via).handle (d.spdm via).nextChunk d).finish.spdm via =
        { d.spdm via with
          nextChunk := if (d.spdm via).large.length ≤ 4080 * ((d.spdm via).nextChunk + 1) then 0 else (d.spdm via).nextChunk + 1
          large := if (d.spdm via).large.length ≤ 4080 * ((d.spdm via).nextChunk + 1) then [] else (d.spdm via).large } := by
  have heq : chunkGet via (d.spdm via).handle (d.spdm via).nextChunk d = _ :=
    (Dev.spdmAt_ready hp _).trans (if_neg (by simpa using hl))
  rw [heq]
  exact spdmOut_sent (length_chunkResponse_le _ _) (Dev.spdm_setSpdm d via _) rfl

end

/-! ### MCTP control and management messages (R676, R677, R699), I3C addresses (R711) -/

section
variable {d : Dev} (tag : BitVec 5)

/-- The answer to a MCTP control message. -/
def Dev.ctlAnswer (d : Dev) (tag : BitVec 5) (cmd : Nat) (b : List Byte) : Dev :=
  d.put (.mgmt tag.toNat ([0] ++ beBytes 1 tag.toNat ++ beBytes 1 cmd ++ b))

/-- The answer to a management request. -/
def replied (tag : BitVec 5) (code : Nat) (b : List Byte) (l : List Output) (d : Dev) : Prop :=
  ∃ pre, d.out = pre ++ Output.mgmt tag.toNat ([0x7F, 0x00, 0x04, 0xE2, 0x1A] ++ beBytes 1 tag.toNat ++ beBytes 1 code ++ b) :: l

theorem Dev.ctlOut_of_aux (h : d.boot.aux = true) (cmd : Nat) (b : List Byte) : d.ctlOut tag cmd b = d.ctlAnswer tag cmd b :=
  if_pos h

theorem setEid_of_reserved (h : d.boot.aux = true) {e : Byte} (he : e = 0 ∨ e = 0xFF) :
    setEid tag e d = d.ctlAnswer tag 1 [2] := by
  unfold setEid
  rw [h, if_neg (by decide)]
  exact (if_pos he).trans (Dev.ctlOut_of_aux tag h 1 _)

theorem setEid_of_endpoint (h : d.boot.aux = true) {e : Byte} (h0 : e ≠ 0) (hff : e ≠ 0xFF) :
    setEid tag e d = Dev.ctlAnswer { d with boot := { d.boot with eid := e } } tag 1 [0, 0, e, 0] := by
  unfold setEid
  rw [h, if_neg (by decide)]
  exact (if_neg (not_or.2 ⟨h0, hff⟩)).trans (Dev.ctlOut_of_aux (d := { d with boot := { d.boot with eid := e } }) tag h 1 _)

theorem getMctpVersion_of_aux (h : d.boot.aux = true) (t : Byte) :
    getMctpVersion tag t d =
      d.ctlAnswer tag 4 (if t = 0 ∨ t = 5 ∨ t = 0x7F ∨ t = 0xFF then [0, 1, 0xF1, 0xF3, 0xF1, 0] else [0x80]) := by
  have hserved : (t = 0xFF#8 ∨ msgTypes.contains t = true) ↔ (t = 0 ∨ t = 5 ∨ t = 0x7F ∨ t = 0xFF) := by
    simp only [msgTypes, List.contains_iff_mem, List.mem_cons, List.not_mem_nil, or_false]
    tauto
  unfold getMctpVersion
  simp only [hserved, Dev.ctlOut_of_aux tag h]
  split <;> rfl

theorem getVendor_of_aux (h : d.boot.aux = true) (k : Byte) :
    getVendor tag k d = d.ctlAnswer tag 6 (if k = 0 then [0, 0xFF, 1, 0, 4, 0xE2, 0x1A, 0, 0] else [2]) := by
  unfold getVendor
  simp only [Dev.ctlOut_of_aux tag h]
  split
  · next hk => exact congrArg _ (if_pos hk).symm
  · next hk => exact congrArg _ (if_neg hk).symm

theorem Dev.mgmtReq_of_busy {d : Dev} (haux : d.boot.aux = true) (hbusy : d.boot.mgmtBusy = true) (tag : BitVec 5)
    (code : Nat) (f : Dev → Dev) :
    d.mgmtReq tag code f = ((d.cnt .pf pMgmt 0 1).mgmtOut tag code [13#8]).cnt .pf pMgmt 3 1 := by
  rw [Dev.mgmtReq, haux]
  simp only [Bool.not_true, Bool.false_eq_true, if_false, Dev.cnt_boot, hbusy, if_true]

theorem mgmtUnknown_replies (h : d.boot.aux = true) (code : Nat) :
    replied tag code [if d.boot.mgmtBusy then 13 else 0xFF] d.out (mgmtUnknown tag code d).finish := by
  unfold mgmtUnknown
  cases hbusy : d.boot.mgmtBusy with
  | false =>
    rw [Dev.mgmtReq_of_free h hbusy]
    exact out_finish rfl
  | true =>
    rw [Dev.mgmtReq_of_busy h hbusy]
    exact out_finish rfl

theorem recoveryAsk_replies (h : d.boot.aux = true) :
    replied tag 0x31 [if d.boot.mgmtBusy then 13 else 0] d.out (recoveryAsk tag d).finish ∧
      (recoveryAsk tag d).finish.boot.recAsked = (d.boot.recAsked || !d.boot.mgmtBusy) := by
  unfold recoveryAsk
  rw [Dev.finish_boot]
  cases hbusy : d.boot.mgmtBusy with
  | false =>
    rw [Dev.mgmtReq_of_free h hbusy]
    exact ⟨out_finish rfl, (Bool.or_true _).symm⟩
  | true =>
    rw [Dev.mgmtReq_of_busy h hbusy]
    exact ⟨out_finish rfl, (Bool.or_false _).symm⟩

end

theorem assignI3c_of_free {d : Dev} (haux : d.boot.aux = true) (hfree : d.boot.assigned = false) (a : BitVec 7) :
    assignI3c a d = { d with boot := { d.boot with i3c := a, assigned := true } } := by
  rw [assignI3c, haux, hfree]
  rfl

theorem assignI3c_of_taken {d : Dev} (h : d.boot.aux = false ∨ d.boot.assigned = true) (a : BitVec 7) : assignI3c a d = d := by
  refine if_neg ?_
  rcases h with h | h <;> simp [h]

theorem setdasa_of_taken {d : Dev} (h : d.boot.aux = false ∨ d.boot.assigned = true) (fixed a : BitVec 7) :
    setdasa fixed a d = d := by
  unfold setdasa
  rw [assignI3c_of_taken h, ite_self]

/-! ### The claim -/

section
variable (tag : BitVec 5) (s : State)

theorem exec_setEndpointId (e : Byte) : exec (.setEndpointId tag e) s = onDev (setEid tag e) s := rfl
theorem exec_getEndpointId : exec (.getEndpointId tag) s = onDev (getEid tag) s := rfl
theorem exec_getMctpVersionSupport (t : Byte) : exec (.getMctpVersionSupport tag t) s = onDev (getMctpVersion tag t) s := rfl
theorem exec_getMessageTypeSupport : exec (.getMessageTypeSupport tag) s = onDev (getMsgTypes tag) s := rfl
theorem exec_getVendorDefinedMsgSupport (k : Byte) :
    exec (.getVendorDefinedMsgSupport tag k) s = onDev (getVendor tag k) s := rfl
theorem exec_managementUnknownRequest (code : Byte) :
    exec (.managementUnknownRequest tag code) s = onDev (mgmtUnknown tag code.toNat) s := rfl
theorem exec_recovery : exec (.recovery tag) s = onDev (recoveryAsk tag) s := rfl
theorem exec_entdaa (a : BitVec 7) : exec (.entdaa a) s = onDev (assignI3c a) s := rfl
theorem exec_setdasa (fixed a : BitVec 7) : exec (.setdasa fixed a) s = onDev (setdasa fixed a) s := rfl

end

theorem byte_eq_zero_iff (b : Byte) : b = 0 ↔ b.toNat = 0 := by
  rw [← BitVec.toNat_inj]; rfl

theorem byte_eq_max_iff (b : Byte) : b = 0xFF ↔ b.toNat = 0xFF := by
  rw [← BitVec.toNat_inj]; rfl

/-- Settles O50: each request is one of the cases of its meaning, and a response that is put out stays in what leaves the device. -/
theorem managementCommands : Obligations.ManagementCommands := by
  refine ⟨?spdm, ?control, ?i3c⟩
  case spdm =>
    intro via req s x v sent early answer
    refine ⟨?version, fun h => becomes_of_onDev (exec_getCapabilities via req s) (Dev.spdmAt_early h _),
      fun h => becomes_of_onDev (exec_negotiateAlgorithms via req s) (Dev.spdmAt_early h _),
      fun h => becomes_of_onDev (exec_getDigests via req s) (Dev.spdmAt_early h _),
      fun h => becomes_of_onDev (exec_challenge via req s) (Dev.spdmAt_early h _),
      fun hp h2 h3 => becomes_of_onDev (exec_getCapabilities via req s) (getCapabilities_of_other_version hp h2 h3),
      fun hp hv => completes_of_onDev (exec_getCapabilities via req s) ?capabilities,
      fun hp => completes_of_onDev (exec_negotiateAlgorithms via req s) ?algorithms,
      fun hp => completes_of_onDev (exec_getDigests via req s) ?digests,
      fun hp h => becomes_of_onDev (exec_challenge via req s) (challenge_of_slot hp h),
      fun hp h => completes_of_onDev (exec_challenge via req s) ?challenge,
      becomes_of_onDev (exec_respondIfReady via req s) rfl,
      fun code => becomes_of_onDev (exec_spdmUnsupportedRequest via s code) rfl, ?measurements, ?certificate, ?chunk⟩
    case version =>
      refine completes_of_onDev (exec_getVersion via req s) ?_
      obtain ⟨hsent, hspdm⟩ := getVersion_answers (via := via) (req := req) (d := s.dev)
      rw [hspdm]
      exact ⟨hsent, rfl, rfl, rfl⟩
    case capabilities =>
      obtain ⟨b, hsent, hspdm, hlen, hcode, hflags⟩ := getCapabilities_answers hp hv
      rw [hspdm]
      exact ⟨rfl, rfl, b, hsent, hlen, hcode, hflags, rfl⟩
    case algorithms =>
      obtain ⟨b, hsent, hspdm, hlen, hcode, h8, h12, h16⟩ := negotiateAlgorithms_answers (req := req) hp
      rw [hspdm]
      exact ⟨rfl, b, hsent, hlen, hcode, h8, h12, h16, rfl⟩
    case digests =>
      obtain ⟨hsent, hspdm⟩ := getDigests_answers (req := req) hp
      rw [hspdm]
      exact ⟨hsent, rfl⟩
    case challenge =>
      obtain ⟨nonce, hlen, hanswer, hcleared⟩ := challenge_answers hp h
      exact ⟨hcleared, nonce, hlen, hanswer⟩
    case measurements =>
      intro index
      refine ⟨fun h => becomes_of_onDev (exec_getMeasurements via req s index) (Dev.spdmAt_early h _),
        fun hp h8 hff => becomes_of_onDev (exec_getMeasurements via req s index)
          (getMeasurements_of_no_block hp h8 (mt (byte_eq_max_iff index).2 hff)),
        fun hp h => completes_of_onDev (exec_getMeasurements via req s index) ?_⟩
      obtain ⟨nonce, hlen, hanswer⟩ := getMeasurements_answers (req := req) hp (h.imp_right (byte_eq_max_iff index).1)
      refine ⟨nonce, hlen, ?_⟩
      unfold measResponse measIds at hanswer
      simp only [byte_eq_zero_iff, byte_eq_max_iff]
      exact hanswer
    case certificate =>
      intro slot off len
      refine ⟨fun h => becomes_of_onDev (exec_getCertificate via s slot off len) (Dev.spdmAt_early h _),
        fun hp h => becomes_of_onDev (exec_getCertificate via s slot off len)
          (getCertificate_of_absent hp (h.imp_left (mt fun h0 => Fin.ext h0))), fun hp hslot h => ?_⟩
      subst hslot
      exact completes_of_onDev (exec_getCertificate via s 0 off len) (getCertificate_answers hp h)
    case chunk =>
      intro handle seq
      refine ⟨fun h => becomes_of_onDev (exec_chunkGet via s handle seq) (Dev.spdmAt_early h _),
        fun hp h => becomes_of_onDev (exec_chunkGet via s handle seq) (chunkGet_of_no_piece hp h), fun hp hl hh hs => ?_⟩
      refine completes_of_onDev (exec_chunkGet via s handle seq) ?_
      rw [hh, hs]
      obtain ⟨hsent, hspdm⟩ := chunkGet_answers hp hl
      rw [hspdm]
      refine ⟨by simp [x], by simp [x], fun hnext => ?_⟩
      rw [← chunkResponse_of_later _ hnext]
      exact hsent
  case control =>
    intro tag s haux answer reply
    refine ⟨fun e => ⟨fun h => becomes_of_onDev (exec_setEndpointId tag s e) (setEid_of_reserved tag haux h),
        fun h0 hff => becomes_of_onDev (exec_setEndpointId tag s e) (setEid_of_endpoint tag haux h0 hff)⟩,
      becomes_of_onDev (exec_getEndpointId tag s) (Dev.ctlOut_of_aux tag haux 2 _),
      fun t => becomes_of_onDev (exec_getMctpVersionSupport tag s t) (getMctpVersion_of_aux tag haux t),
      becomes_of_onDev (exec_getMessageTypeSupport tag s) (Dev.ctlOut_of_aux tag haux 5 _),
      fun k => becomes_of_onDev (exec_getVendorDefinedMsgSupport tag s k) (getVendor_of_aux tag haux k),
      fun code => completes_of_onDev (exec_managementUnknownRequest tag s code) (mgmtUnknown_replies tag haux code.toNat),
      completes_of_onDev (exec_recovery tag s) (recoveryAsk_replies tag haux)⟩
  case i3c =>
    intro fixed a s
    refine ⟨fun haux hfree => ?free, fun h => ?taken, fun hfixed => ?other⟩
    case free =>
      have hassign := assignI3c_of_free haux hfree a
      exact ⟨becomes_of_onDev (exec_entdaa s a) hassign, becomes_of_onDev (exec_setdasa s 0x3A a) ((if_pos rfl).trans hassign)⟩
    case taken =>
      exact ⟨becomes_of_onDev (exec_entdaa s a) (assignI3c_of_taken h a),
        becomes_of_onDev (exec_setdasa s fixed a) (setdasa_of_taken h fixed a)⟩
    case other => exact becomes_of_onDev (exec_setdasa s fixed a) (if_neg hfixed)

end Sys2Proof.Machine
end

section
/-!
SUPPORT. O46: the governor, the cap and thermal loops, undervoltage, and the device ladder.
-/

namespace Sys2Proof.Machine

open Sys2Proof.Safety


/-! ### Reading one die, one core, one island after an update -/

theorem Dev.die_of_pwr {d e : Dev} (h : e.pwr.dies = d.pwr.dies) (n : Nat) : e.die n = d.die n := by
  rw [Dev.die, h, ← Dev.die]

@[simp] theorem Dev.die_setDie (d : Dev) (n : Nat) (x : DiePwr) : (d.setDie n x).die n = x := SMap.get_put _ _ _ _

theorem Dev.die_setDie_ne (d : Dev) {n k : Nat} (x : DiePwr) (h : k ≠ n) : (d.setDie n x).die k = d.die k :=
  SMap.get_put_ne _ _ _ _ _ _ h

/-- Every die is changed by one function of its own reading. -/
theorem die_foldl_setDie (f : Nat → DiePwr → DiePwr) (d : Dev) {n : Nat} (hn : n < 4) :
    ((List.range 4).foldl (fun d n => d.setDie n (f n (d.die n))) d).die n = f n (d.die n) :=
  (foldl_updates_each (get := Dev.die) (g := f) (fun d i => d.die_setDie i _) (fun d _ _ hk => d.die_setDie_ne _ hk)
    List.nodup_range d n).trans (if_pos (List.mem_range.2 hn))

theorem setDie_pwr (d : Dev) (n : Nat) (x : DiePwr) : (d.setDie n x).pwr = { d.pwr with dies := d.pwr.dies.put .reset n x } := rfl

theorem Dev.core_updCore_ne (d : Dev) {i k : Nat} (f : Core → Core) (h : k ≠ i) : (d.updCore i f).core k = d.core k :=
  SMap.get_put_ne _ _ _ _ _ _ h

@[simp] theorem Dev.isle_setIsle (d : Dev) (i : Nat) (x : Isle) : (d.setIsle i x).isle i = x := SMap.get_put _ _ _ _

theorem Dev.isle_setIsle_ne (d : Dev) {i k : Nat} (x : Isle) (h : k ≠ i) : (d.setIsle i x).isle k = d.isle k :=
  SMap.get_put_ne _ _ _ _ _ _ h

theorem Dev.isle_of_isles {d e : Dev} (h : e.isles = d.isles) (i : Nat) : e.isle i = d.isle i := by
  rw [Dev.isle, h, ← Dev.isle]

theorem Dev.showIsle_isles (d : Dev) (i : Nat) (x : Isle) : (d.showIsle i x).isles = (d.setIsle i x).isles := by
  unfold Dev.showIsle
  dsimp only
  split
  · rfl
  · simp

theorem Dev.isle_showIsle (d : Dev) (i : Nat) (x : Isle) : (d.showIsle i x).isle i = x := by
  rw [Dev.isle_of_isles (d.showIsle_isles i x), Dev.isle_setIsle]

theorem Dev.isle_showIsle_ne (d : Dev) {i k : Nat} (x : Isle) (h : k ≠ i) : (d.showIsle i x).isle k = d.isle k := by
  rw [Dev.isle_of_isles (d.showIsle_isles i x), Dev.isle_setIsle_ne _ _ h]

section
variable (s : State) (v : View)

theorem exec_governorUpdate (m : Nat) (volt amp : BitVec 16) :
    exec (.governorUpdate m volt amp) s = onDev (governor m volt amp) s := rfl
theorem exec_capWindow (avg : Nat) : exec (.capWindow avg) s = onDev (capWindow avg) s := rfl
theorem exec_thermalReading (t0 t1 t2 t3 : Byte) :
    exec (.thermalReading t0 t1 t2 t3) s = onDev (thermal [t0.toNat, t1.toNat, t2.toNat, t3.toNat]) s := rfl
theorem exec_undervoltage : exec .undervoltage s = onDev underOn s := rfl
theorem exec_undervoltageRelease : exec .undervoltageRelease s = onDev underOff s := rfl
theorem exec_autoQuiet : exec .autoQuiet s = onDev autoQuiet s := rfl
theorem exec_deviceWake : exec .deviceWake s = onDev deviceWake s := rfl
theorem exec_deviceStateChangeDone : exec .deviceStateChangeDone s = onDev ladderDone s := rfl

/-- The four ladder commands write their own target. -/
theorem exec_ladder {c : (View → Instr) × Nat}
    (hc : c ∈ ([(.deviceRun, 0), (.deviceQuiet, 1), (.deviceStandby, 2), (.deviceDormant, 3)] : List ((View → Instr) × Nat))) :
    exec (c.1 v) s = onDev (ladderWrite v c.2) s := by
  simp only [List.mem_cons, List.not_mem_nil, or_false] at hc
  rcases hc with rfl | rfl | rfl | rfl <;> rfl

end

/-! ### The governor (R616, R622) -/

/-- The envelope that an update leaves. -/
def Dev.envelopeAfter (d : Dev) (m : Nat) (volt : BitVec 16) : Nat :=
  let fast := d.braked || (List.range 4).any fun n => (d.die n).emergency
  nextG d.pwr.g m (m + sumN (d.waitingPlans.map (·.2)) / 1000) (d.slew * volt.toNat / 4)
    ((if fast then Nat.max d.slew 6 else d.slew) * volt.toNat / 4) (if d.braked then 384000 else 1150000)

/-- The device once an update has moved the envelope and drawn ballast, before its grants. -/
def Dev.enveloped (d : Dev) (m : Nat) (volt amp : BitVec 16) : Dev :=
  let g := d.envelopeAfter m volt
  let bal := g - m
  let k := if d.braked then (if g < m then Nat.max 1 (d.pwr.brakeK - 1) else Nat.min 16 (d.pwr.brakeK + 1)) else d.pwr.brakeK
  let e := d.pwr.eAcc + m
  let b := d.pwr.bAcc + bal
  let d1 := { d with pwr := { d.pwr with g := g, m := m, volt := volt, amp := amp, ballast := bal, brakeK := k,
                                         eAcc := e % 10000000, bAcc := b % 10000000 } }
  let d1 := (d1.cnt .pf pPwrc 0 (e / 10000000)).cnt .pf pPwrc 1 (b / 10000000)
  if d.waitingPlans.isEmpty then d1 else d1.cnt .pf pPwrc 2 1

theorem governor_eq (m : Nat) (volt amp : BitVec 16) (d : Dev) :
    governor m volt amp d = grantAll ((d.envelopeAfter m volt - m) * 1000) d.waitingPlans (d.enveloped m volt amp) := rfl

theorem grantAll_changesOnly (room : Nat) (w : List (Nat × Nat)) (d : Dev) :
    changesOnly [.cores, .mvec, .nwch] d (grantAll room w d) := by simp

theorem grantAll_of_unfit {room id c : Nat} (h : room < c) (rest : List (Nat × Nat)) (d : Dev) :
    grantAll room ((id, c) :: rest) d = d := by
  rw [grantAll, if_neg (Nat.not_le.2 h)]

/-- The array plan of a core is granted, if it has one. -/
def Dev.arrGranted (d : Dev) (c : Nat) : Prop := ∀ y, (d.core c).arrPlan = some y → y.granted = true

theorem Dev.grant_arrGranted_self (d : Dev) {c : Nat} (hc : c < 272) : (d.grant (2 * c)).arrGranted c := by
  intro y hy
  unfold Dev.grant at hy
  rw [if_pos (by omega), Nat.mul_div_cancel_left c (by decide), Dev.core_updCore, if_pos (by omega)] at hy
  obtain ⟨p, -, rfl⟩ := Option.map_eq_some_iff.1 hy
  rfl

theorem Dev.grant_arrGranted {d : Dev} {c : Nat} (h : d.arrGranted c) (id : Nat) : (d.grant id).arrGranted c := by
  unfold Dev.grant
  split
  · intro y hy
    by_cases hk : c = id / 2
    · subst hk
      rw [Dev.core_updCore] at hy
      split at hy
      · obtain ⟨p, -, rfl⟩ := Option.map_eq_some_iff.1 hy
        rfl
      · exact h y hy
    · rw [Dev.core_updCore_ne _ _ hk] at hy
      exact h y hy
  · split <;> exact h

theorem grantAll_arrGranted {c : Nat} (w : List (Nat × Nat)) {d : Dev} (h : d.arrGranted c) (room : Nat) :
    (grantAll room w d).arrGranted c := by
  induction w generalizing d room with
  | nil => exact h
  | cons p rest ih =>
    unfold grantAll
    split
    · exact ih (Dev.grant_arrGranted h _) _
    · exact h

theorem grantAll_grants_first {room c x : Nat} (hc : c < 272) (hx : x ≤ room) (rest : List (Nat × Nat)) (d : Dev) :
    (grantAll room ((2 * c, x) :: rest) d).arrGranted c := by
  rw [grantAll, if_pos hx]
  exact grantAll_arrGranted rest (d.grant_arrGranted_self hc) _

theorem enveloped_pwr (d : Dev) (m : Nat) (volt amp : BitVec 16) :
    (d.enveloped m volt amp).pwr =
      { d.pwr with
        g := d.envelopeAfter m volt, m := m, volt := volt, amp := amp, ballast := d.envelopeAfter m volt - m
        brakeK := if d.braked then
            (if d.envelopeAfter m volt < m then Nat.max 1 (d.pwr.brakeK - 1) else Nat.min 16 (d.pwr.brakeK + 1)) else d.pwr.brakeK
        eAcc := (d.pwr.eAcc + m) % 10000000, bAcc := (d.pwr.bAcc + (d.envelopeAfter m volt - m)) % 10000000 } := by
  unfold Dev.enveloped
  dsimp only
  split <;> rfl

theorem enveloped_changesOnly (d : Dev) (m : Nat) (volt amp : BitVec 16) :
    changesOnly [.ctr, .pwr] d (d.enveloped m volt amp) := by
  unfold Dev.enveloped
  dsimp only
  split <;> simp

/-! ### The cap loop and the thermal loop (R619–R622) -/

/-- A die's cap ceiling after a window of average avg. -/
def capStep (cap avg top x : Nat) : Nat :=
  if cap < avg then Nat.max 16 (x - 1) else if avg * 100 < cap * 97 then Nat.max (Nat.min x 84) (Nat.min top (x + 1)) else x

/-- The dies after a window. -/
def Dev.capped (d : Dev) (avg : Nat) : Dev :=
  (List.range 4).foldl (fun e n =>
    e.setDie n { e.die n with cap := capStep d.capMw avg (if d.braked then 48 else 84) (e.die n).cap }) d

/-- The windows above the cap, counted. -/
def Dev.oversAfter (d : Dev) (avg : Nat) : Nat := if d.capMw < avg then Nat.min 50 (d.pwr.overs + 1) else 0

theorem foldl_setDie_pwr (f : Nat → DiePwr → DiePwr) (l : List Nat) (d : Dev) :
    ∃ dies, (l.foldl (fun d n => d.setDie n (f n (d.die n))) d).pwr = { d.pwr with dies := dies } :=
  List.foldlRecOn l _ (motive := fun b : Dev => ∃ dies, b.pwr = { d.pwr with dies := dies }) ⟨_, rfl⟩ fun b hb n _ => by
    obtain ⟨dies, hpwr⟩ := hb
    exact ⟨b.pwr.dies.put .reset n (f n (b.die n)), by rw [setDie_pwr, hpwr]⟩

theorem Dev.die_capped (d : Dev) (avg : Nat) {n : Nat} (hn : n < 4) :
    (d.capped avg).die n = { d.die n with cap := capStep d.capMw avg (if d.braked then 48 else 84) (d.die n).cap } :=
  die_foldl_setDie (fun _ x => { x with cap := capStep d.capMw avg (if d.braked then 48 else 84) x.cap }) d hn

/-- The power state that a window leaves. -/
def Dev.windowPwr (d : Dev) (avg : Nat) : Pwr :=
  { (d.capped avg).pwr with
    avg := avg, overs := d.oversAfter avg
    capK := if 40 ≤ d.oversAfter avg then Nat.max 1 ((d.capped avg).pwr.capK - 1)
      else if avg ≤ d.capMw then Nat.min 16 ((d.capped avg).pwr.capK + 1) else (d.capped avg).pwr.capK
    brakeK := if (d.capped avg).braked then (d.capped avg).pwr.brakeK else Nat.min 16 ((d.capped avg).pwr.brakeK + 1) }

theorem capWindow_eq (avg : Nat) (d : Dev) :
    capWindow avg d =
      let e := { d.capped avg with pwr := d.windowPwr avg }
      if 40 ≤ d.oversAfter avg then e.cnt .pf pPwrc 9 1 else e := rfl

theorem capWindow_pwr (avg : Nat) (d : Dev) : (capWindow avg d).pwr = d.windowPwr avg := by
  rw [capWindow_eq]
  dsimp only
  split
  · rfl
  · rfl

theorem windowPwr_capK (avg : Nat) (d : Dev) :
    (d.windowPwr avg).capK = if 40 ≤ d.oversAfter avg then Nat.max 1 (d.pwr.capK - 1)
      else if avg ≤ d.capMw then Nat.min 16 (d.pwr.capK + 1) else d.pwr.capK := by
  obtain ⟨dies, hdies⟩ := foldl_setDie_pwr
    (fun _ x => { x with cap := capStep d.capMw avg (if d.braked then 48 else 84) x.cap }) (List.range 4) d
  have hpwr : (d.capped avg).pwr = { d.pwr with dies := dies } := hdies
  have hcapK : (d.capped avg).pwr.capK = d.pwr.capK := by rw [hpwr]
  rw [Dev.windowPwr, hcapK]

theorem die_capWindow (avg : Nat) (d : Dev) {n : Nat} (hn : n < 4) :
    (capWindow avg d).die n = { d.die n with cap := capStep d.capMw avg (if d.braked then 48 else 84) (d.die n).cap } :=
  (Dev.die_of_pwr (d := d.capped avg) (by rw [capWindow_pwr]; rfl) n).trans (d.die_capped avg hn)

/-! ### Thermal readings (R621, R628) -/

/-- The dies after their readings. -/
def Dev.heated (d : Dev) (ts : List Nat) : Dev :=
  (enumFrom 0 ts).foldl (fun d (e : Nat × Nat) => d.setDie e.1 (thermalDie e.2 (d.die e.1))) d

theorem Dev.die_heated (d : Dev) (t0 t1 t2 t3 : Nat) {n : Nat} (hn : n < 4) :
    (d.heated [t0, t1, t2, t3]).die n = thermalDie ([t0, t1, t2, t3].getD n 0) (d.die n) := by
  have hread : ∀ (i k : Nat) (e : Dev) (x : DiePwr), (e.setDie i x).die k = if k = i then x else e.die k := fun i k e x => by
    split
    · next h => rw [h, Dev.die_setDie]
    · next h => rw [Dev.die_setDie_ne _ _ h]
  simp only [Dev.heated, enumFrom, List.foldl_cons, List.foldl_nil, hread]
  interval_cases n <;> rfl

theorem Dev.heated_pwr (d : Dev) (ts : List Nat) : ∃ dies, (d.heated ts).pwr = { d.pwr with dies := dies } :=
  List.foldlRecOn (enumFrom 0 ts) _ (motive := fun b : Dev => ∃ dies, b.pwr = { d.pwr with dies := dies }) ⟨_, rfl⟩
    fun b hb e _ => by
      obtain ⟨dies, hpwr⟩ := hb
      exact ⟨_, by rw [setDie_pwr, hpwr]⟩

/-- The device with its readings and what they count: a new emergency, and a throttled millisecond. -/
def Dev.thermalNoted (d : Dev) (ts : List Nat) : Dev :=
  let was := (List.range 4).filter fun n => (d.die n).emergency
  let e := d.heated ts
  let new := ((List.range 4).filter fun n => (e.die n).emergency).filter fun n => !was.contains n
  let e := if new.isEmpty then e else (e.evt .pf pPwrc 8).cnt .pf pPwrc 6 new.length
  if was.isEmpty then e else e.cnt .pf pPwrc 5 1

theorem Dev.thermalNoted_pwr (d : Dev) (ts : List Nat) : (d.thermalNoted ts).pwr = (d.heated ts).pwr := by
  unfold Dev.thermalNoted
  dsimp only
  split <;> split <;> rfl

/-- The trip to Standby, with a halt where the ladder would refuse (R628). -/
def Dev.tripped (d : Dev) : Dev :=
  let e := ((d.updPwr fun p => { p with trip := true }).evt .pf pPwrc 4).cnt .pf pPwrc 7 1
  (if e.ladderRefuses then e.haltAll else e).moveTo 2

/-- A reading takes the device to Standby: a die at its tenth reading of 105 and no Standby yet (R621). -/
def Dev.trips (d : Dev) : Bool :=
  (List.range 4).any (fun n => 10 ≤ (d.die n).run105) && d.pwr.state != 2 && d.pwr.moving != some 2

theorem thermal_eq (ts : List Nat) (d : Dev) :
    thermal ts d = if (d.thermalNoted ts).trips then (d.thermalNoted ts).tripped else d.thermalNoted ts := rfl

theorem Dev.haltAll_pwr (d : Dev) : d.haltAll.pwr = d.pwr := changesOnly_of_peel (Dev.haltAll_only d) .pwr (by decide)

theorem Dev.tripped_pwr (d : Dev) : d.tripped.pwr = { d.pwr with trip := true, target := 2, moving := some 2 } := by
  unfold Dev.tripped
  dsimp only
  rw [Dev.moveTo_pwr]
  split
  · rw [Dev.haltAll_pwr]
    rfl
  · rfl

theorem die_thermal (t0 t1 t2 t3 : Nat) (d : Dev) {n : Nat} (hn : n < 4) :
    (thermal [t0, t1, t2, t3] d).die n = thermalDie ([t0, t1, t2, t3].getD n 0) (d.die n) := by
  rw [← Dev.die_heated d t0 t1 t2 t3 hn, thermal_eq]
  split
  · exact Dev.die_of_pwr (by rw [Dev.tripped_pwr, Dev.thermalNoted_pwr]) n
  · exact Dev.die_of_pwr (by rw [Dev.thermalNoted_pwr]) n

theorem thermalDie_run105 (t : Nat) (x : DiePwr) : (thermalDie t x).run105 = if 105 ≤ t then x.run105 + 1 else 0 := by
  unfold thermalDie
  dsimp only
  split
  · rfl
  · split
    · rfl
    · split <;> rfl

theorem thermalDie_emergency {t : Nat} (h : 104 ≤ t) (x : DiePwr) :
    thermalDie t x = { x with hot := t, run105 := if 105 ≤ t then x.run105 + 1 else 0, thermal := 16, k := 8, emergency := true } :=
  if_pos h

/-- Below 104 °C: only the thermal ceiling depends on where the reading lies. -/
theorem thermalDie_below {t : Nat} (h : t < 104) (x : DiePwr) :
    thermalDie t x =
      { x with
        hot := t, run105 := 0, emergency := x.emergency && decide (100 < t)
        k := if x.emergency && decide (100 < t) then x.k else Nat.min 16 (x.k + 1)
        thermal := if t ≤ 97 then Nat.min 84 (x.thermal + 2) else if t ≤ 99 then x.thermal else Nat.max 16 (x.thermal - 4) } := by
  have hrun : ¬ 105 ≤ t := by omega
  unfold thermalDie
  dsimp only
  rw [if_neg (Nat.not_le.2 h), if_neg hrun]
  split
  · rfl
  · split <;> rfl

/-- The tenth reading of 105 in a row takes the device to Standby, from any other state (R621). -/
theorem thermal_trips {t0 t1 t2 t3 : Nat} {d : Dev} {n : Nat} (hn : n < 4) (ht : 105 ≤ [t0, t1, t2, t3].getD n 0)
    (hrun : 9 ≤ (d.die n).run105) (hstate : d.pwr.state ≠ 2) (hmoving : d.pwr.moving ≠ some 2) :
    let e := thermal [t0, t1, t2, t3] d
    e.pwr.trip = true ∧ e.pwr.moving = some 2 ∧ e.pwr.target = 2 := by
  obtain ⟨dies, hpwr⟩ := d.heated_pwr [t0, t1, t2, t3]
  have htrips : (d.thermalNoted [t0, t1, t2, t3]).trips = true := by
    have hdie : 10 ≤ ((d.thermalNoted [t0, t1, t2, t3]).die n).run105 := by
      rw [Dev.die_of_pwr (d := d.heated [t0, t1, t2, t3]) (by rw [Dev.thermalNoted_pwr]) n, Dev.die_heated _ _ _ _ _ hn,
        thermalDie_run105, if_pos ht]
      omega
    have hany : ((List.range 4).any fun n => decide (10 ≤ ((d.thermalNoted [t0, t1, t2, t3]).die n).run105)) = true :=
      List.any_eq_true.2 ⟨n, List.mem_range.2 hn, decide_eq_true hdie⟩
    simp [Dev.trips, hany, Dev.thermalNoted_pwr, hpwr, hstate, hmoving]
  rw [thermal_eq, if_pos htrips]
  dsimp only
  rw [Dev.tripped_pwr]
  exact ⟨rfl, rfl, rfl⟩

/-! ### Undervoltage (R612) -/

theorem underOn_of_clear {d : Dev} (h : d.pwr.under = false) :
    underOn d = ((({ d with pwr := { d.pwr with under := true } } : Dev).applyBrake).evt .pf pPwrc 2).cnt .pf pPwrc 4 1 :=
  if_neg (by simp [h])

theorem Dev.applyBrake_pwr (d : Dev) : ∃ dies, d.applyBrake.pwr = { d.pwr with dies := dies } :=
  foldl_setDie_pwr (fun _ x => { x with cap := Nat.min 48 x.cap }) (List.range 4) d

theorem Dev.die_applyBrake (d : Dev) {n : Nat} (hn : n < 4) : d.applyBrake.die n = { d.die n with cap := Nat.min 48 (d.die n).cap } :=
  die_foldl_setDie (fun _ x => { x with cap := Nat.min 48 x.cap }) d hn

/-! ### The device ladder (R624–R627) -/

theorem Dev.flashSettle_flash (d : Dev) : d.flashSettle.flash.state = .unmounted ∧ d.flashSettle.flash.clean = true := by
  unfold Dev.flashSettle Dev.flashTo
  split
  case isTrue h => exact ⟨h, rfl⟩
  case isFalse =>
    rw [show ((((d.updFlash fun f => { f with clean := true }).updFlash fun f => { f with state := .unmounted }).evtAll pFlsh 1)).flash =
        ((d.updFlash fun f => { f with clean := true }).updFlash fun f => { f with state := .unmounted }).flash from
      changesOnly_of_peel (Dev.evtAll_only _ _ _) .flash (by decide)]
    exact ⟨rfl, rfl⟩

theorem Dev.lanesOf_downAll (d : Dev) {k : Nat} (hk : k < 48) :
    ((List.range 48).foldl (fun (d : Dev) k => d.subDown k) d).lanesOf k = 0 :=
  (foldl_updates_each (get := Dev.lanesOf) (g := fun _ _ => 0) (fun d i => by rw [Dev.lanesOf_subDown, if_pos rfl])
    (fun d i k hne => by rw [Dev.lanesOf_subDown, if_neg hne]) List.nodup_range d k).trans (if_pos (List.mem_range.2 hk))

theorem Dev.flash_foldl_subDown (xs : List Nat) (d : Dev) : (xs.foldl (fun (d : Dev) k => d.subDown k) d).flash = d.flash :=
  foldl_keeps (g := Dev.flash) (fun b k => changesOnly_of_peel (Dev.subDown_only b k) .flash (by decide)) xs d

theorem Dev.lanesOf_updPwr (d : Dev) (f : Pwr → Pwr) (k : Nat) : (d.updPwr f).lanesOf k = d.lanesOf k := rfl

theorem Dev.flash_updPwr (d : Dev) (f : Pwr → Pwr) : (d.updPwr f).flash = d.flash := rfl

/-- Before Standby and Dormant the flash is left unmounted and the links go down (R626). -/
theorem Dev.moveTo_low (d : Dev) {t : Nat} (ht : 2 ≤ t) :
    (d.moveTo t).flash.state = .unmounted ∧ (d.moveTo t).flash.clean = true ∧ ∀ k, k < 48 → ((d.moveTo t).sub k).lanes = 0 := by
  have hmove : d.moveTo t = ((List.range 48).foldl (fun (d : Dev) k => d.subDown k) d.reclaimAll.flashSettle).updPwr
      fun p => { p with target := t, moving := some t } := by
    rw [Dev.moveTo, if_pos ht]
  have hflash : (d.moveTo t).flash = d.reclaimAll.flashSettle.flash := by
    rw [hmove, Dev.flash_updPwr, Dev.flash_foldl_subDown]
  obtain ⟨hstate, hclean⟩ := d.reclaimAll.flashSettle_flash
  rw [hflash]
  refine ⟨hstate, hclean, fun k hk => ?_⟩
  change (d.moveTo t).lanesOf k = 0
  rw [hmove, Dev.lanesOf_updPwr, Dev.lanesOf_downAll _ hk]

theorem Dev.moveTo_high (d : Dev) {t : Nat} (ht : t < 2) :
    d.moveTo t = d.updPwr fun p => { p with target := t, moving := some t } := by
  rw [Dev.moveTo, if_neg (Nat.not_le.2 ht)]

section
variable {d : Dev} {t : Nat}

theorem ladderWrite_of_idle (hopen : opens d .pf pPwrc) (h : d.pwr.moving.isSome = true ∨ d.pwr.state = t) :
    ladderWrite .pf t d = d := by
  rw [ladderWrite, Dev.privOnly_of_opens hopen]
  exact if_pos h

theorem ladderWrite_of_refused (hopen : opens d .pf pPwrc) (hm : d.pwr.moving = none) (hs : d.pwr.state ≠ t) (ht : 2 ≤ t)
    (hr : d.ladderRefuses = true) : ladderWrite .pf t d = d.err .pf pPwrc 0x0101 := by
  rw [ladderWrite, Dev.privOnly_of_opens hopen]
  exact (if_neg (by simp [hm, hs])).trans (if_pos ⟨ht, hr⟩)

theorem ladderWrite_of_begun (hopen : opens d .pf pPwrc) (hm : d.pwr.moving = none) (hs : d.pwr.state ≠ t)
    (hr : t < 2 ∨ d.ladderRefuses = false) : ladderWrite .pf t d = d.moveTo t := by
  rw [ladderWrite, Dev.privOnly_of_opens hopen]
  refine (if_neg (by simp [hm, hs])).trans (if_neg fun ⟨ht, hrefuse⟩ => ?_)
  rcases hr with hlt | hno
  · omega
  · simp [hno] at hrefuse

end

/-- Quiet is not entered by itself: not asked for, not in Run, in transition, or with an island Fired (R625). -/
def Dev.staysLoud (d : Dev) : Prop :=
  bit (d.regAt pPwrc 0 0x040).toNat 4 = false ∨ d.pwr.state ≠ 0 ∨ d.pwr.moving.isSome = true ∨
    ∃ i, i < 0x120 ∧ (d.isle i).state = .fired

theorem not_still_iff (d : Dev) :
    (!(List.range 0x120).all fun i => (d.isle i).state != .fired) = true ↔ ∃ i, i < 0x120 ∧ (d.isle i).state = .fired := by
  simp only [Bool.not_eq_true', List.all_eq_false, List.mem_range, bne_iff_ne, Decidable.not_not]

theorem autoQuiet_of_stays {d : Dev} (h : d.staysLoud) : autoQuiet d = d := by
  refine if_pos ?_
  rw [not_still_iff]
  exact h.imp_left (by simp)

theorem autoQuiet_of_still {d : Dev} (h : ¬ d.staysLoud) :
    autoQuiet d = (d.reach ioIsle (d.timer ioIsle + d.reg pPwrc 0x044)).moveTo 1 := by
  refine if_neg fun hstays => h ?_
  rw [not_still_iff] at hstays
  exact hstays.imp_left (by simp)

theorem deviceWake_of_quiet {d : Dev} (hs : d.pwr.state = 1) (hm : d.pwr.moving = none) : deviceWake d = d.moveTo 0 :=
  if_pos ⟨hs, by simp [hm]⟩

theorem deviceWake_of_other {d : Dev} (h : d.pwr.state ≠ 1 ∨ d.pwr.moving.isSome = true) : deviceWake d = d := by
  refine if_neg fun ⟨hs, hm⟩ => ?_
  rcases h with h | h
  · exact h hs
  · simp [Option.isNone_iff_eq_none.1 hm] at h

/-! ### The end of a transition (R624) -/

/-- Island i as device state t has it. -/
def ladderIsle (t i : Nat) (x : Isle) : Isle :=
  let low : IsleState := if t = 0 then x.req else if t = 1 ∨ 272 ≤ i then .held else .banked
  { x with state := if t ≠ 0 ∧ low.code ≤ x.state.code then x.state else low, move := if t = 0 then .rest else x.move }

theorem Dev.isle_ladderIsles (d : Dev) (t : Nat) {i : Nat} (hi : i < 0x120) : (d.ladderIsles t).isle i = ladderIsle t i (d.isle i) :=
  (foldl_updates_each (get := Dev.isle) (g := ladderIsle t) (fun d i => d.isle_showIsle i _) (fun d _ _ hk => d.isle_showIsle_ne _ hk)
    List.nodup_range d i).trans (if_pos (List.mem_range.2 hi))

theorem ladderIsle_run (i : Nat) (x : Isle) : (ladderIsle 0 i x).state = x.req ∧ (ladderIsle 0 i x).move = .rest := ⟨rfl, rfl⟩

theorem ladderIsle_quiet (i : Nat) (x : Isle) : 1 ≤ (ladderIsle 1 i x).state.code := by
  have hstate : (ladderIsle 1 i x).state = if 1 ≤ x.state.code then x.state else .held := by
    simp [ladderIsle, show IsleState.held.code = 1 from rfl]
  rw [hstate]
  split
  · assumption
  · exact Nat.le_refl _

theorem ladderIsle_low {t i : Nat} (ht : 2 ≤ t) (hi : i < 272) (x : Isle) : 2 ≤ (ladderIsle t i x).state.code := by
  have h0 : t ≠ 0 := by omega
  have hcore : ¬ (t = 1 ∨ 272 ≤ i) := by omega
  have hbanked : 2 ≤ IsleState.banked.code := by decide
  unfold ladderIsle
  dsimp only
  rw [if_neg h0, if_neg hcore]
  split
  · next h => exact Nat.le_trans hbanked h.2
  · exact hbanked

/-- The device once a transition to t has ended, before a waiting POWER message is answered. -/
def Dev.arrived (d : Dev) (t : Nat) : Dev :=
  let e := d.ladderIsles t
  let e := if t = 3 then e.goDormant else e
  let e := (e.updPwr fun p => { p with state := t, moving := none }).evt .pf pPwrc 0x10
  if t = 1 then e.cnt .pf pPwrc 8 1 else e

theorem ladderDone_of_rest {d : Dev} (h : d.pwr.moving = none) : ladderDone d = d := by
  rw [ladderDone, h]

section
variable {d : Dev} {t : Nat} (hm : d.pwr.moving = some t)
include hm

theorem ladderDone_of_lent (ht : 2 ≤ t) (hl : d.tier.lent ≠ []) : ladderDone d = d := by
  rw [ladderDone, hm]
  exact if_pos ⟨ht, by simp [hl]⟩

theorem ladderDone_of_free (h : t < 2 ∨ d.tier.lent = []) : ladderDone d = (d.arrived t).powerAnswer 0#8 := by
  rw [ladderDone, hm]
  refine if_neg fun ⟨ht, hl⟩ => ?_
  rcases h with hlt | hnil
  · omega
  · simp [hnil] at hl

end

theorem Dev.arrived_pwr (d : Dev) (t : Nat) : (d.arrived t).pwr = { d.pwr with state := t, moving := none } := by
  have hisles : (d.ladderIsles t).pwr = d.pwr := changesOnly_of_peel (Dev.ladderIsles_only d t) .pwr (by decide)
  rw [← hisles]
  unfold Dev.arrived
  generalize d.ladderIsles t = e
  dsimp only
  split <;> split <;> rfl

theorem Dev.arrived_isle (d : Dev) (t : Nat) {i : Nat} (hi : i < 0x120) : (d.arrived t).isle i = ladderIsle t i (d.isle i) := by
  rw [← d.isle_ladderIsles t hi]
  refine Dev.isle_of_isles ?_ i
  unfold Dev.arrived
  generalize d.ladderIsles t = e
  dsimp only
  split <;> split <;> rfl

theorem Dev.arrived_dormant (d : Dev) : (d.arrived 3).cores = [] ∧ (d.arrived 3).sigs = [] ∧ (d.arrived 3).boot.linkUp = false :=
  ⟨rfl, rfl, rfl⟩

theorem Dev.powerAnswer_pwr (d : Dev) (st : Byte) : (d.powerAnswer st).pwr = { d.pwr with mgmtTag := none } := by
  unfold Dev.powerAnswer
  split
  · next h => rw [← h]
  · rfl

theorem Dev.powerAnswer_linkUp (d : Dev) (st : Byte) : (d.powerAnswer st).boot.linkUp = d.boot.linkUp := by
  unfold Dev.powerAnswer
  split <;> rfl

theorem Dev.powerAnswer_free {d : Dev} (h : d.pwr.mgmtTag.isSome = true) (st : Byte) : (d.powerAnswer st).boot.mgmtBusy = false := by
  obtain ⟨tag, htag⟩ := Option.isSome_iff_exists.1 h
  rw [Dev.powerAnswer, htag]
  rfl

/-- A transition that ends (R624): the device state, the islands as it has them, and what Dormant loses. -/
theorem ladderDone_arrives {d : Dev} {t : Nat} (hm : d.pwr.moving = some t) (h : t < 2 ∨ d.tier.lent = []) :
    let e := ladderDone d
    e.pwr = { d.pwr with state := t, moving := none, mgmtTag := none } ∧
    (d.pwr.mgmtTag.isSome = true → e.boot.mgmtBusy = false) ∧
    (∀ i, i < 0x120 → e.isle i = ladderIsle t i (d.isle i)) ∧
    (t = 3 → e.cores = [] ∧ e.sigs = [] ∧ e.boot.linkUp = false) := by
  dsimp only
  rw [ladderDone_of_free hm h]
  have hanswer : changesOnly [.ctr, .pwr, .boot, .out] (d.arrived t) ((d.arrived t).powerAnswer 0#8) := by simp
  refine ⟨by rw [Dev.powerAnswer_pwr, Dev.arrived_pwr], fun htag => Dev.powerAnswer_free ?_ _, fun i hi => ?_, ?_⟩
  · rw [Dev.arrived_pwr]
    exact htag
  · rw [Dev.isle_of_isles (hanswer .isles (by decide)), Dev.arrived_isle _ _ hi]
  · rintro rfl
    obtain ⟨hcores, hsigs, hlink⟩ := d.arrived_dormant
    exact ⟨(hanswer .cores (by decide)).trans hcores, (hanswer .sigs (by decide)).trans hsigs,
      (Dev.powerAnswer_linkUp _ _).trans hlink⟩

theorem Dev.die_finish (d : Dev) (n : Nat) : d.finish.die n = d.die n := Dev.die_of_pwr (by rw [Dev.finish_pwr]) n

/-- Settles O46: each command is one of the cases of its meaning, and what closes a command leaves power, cores and islands. -/
theorem powerCommands : Obligations.PowerCommands := by
  refine ⟨?governor, ?cap, ?thermal, ?under, ?ladder, ?rest⟩
  case governor =>
    intro m volt amp s p w want rate brake fast up down ceiling
    refine completes_of_onDev (exec_governorUpdate s m volt amp) ?_
    have hgrant := grantAll_changesOnly ((s.dev.envelopeAfter m volt - m) * 1000) s.dev.waitingPlans (s.dev.enveloped m volt amp)
    have hpre := enveloped_changesOnly s.dev m volt amp
    have hpwr := (hgrant .pwr (by decide)).trans (enveloped_pwr s.dev m volt amp)
    have hcore (d : Dev) (c : Nat) : d.finish.core c = d.core c := by rw [Dev.core, Dev.finish_cores, ← Dev.core]
    have hg : s.dev.envelopeAfter m volt = nextG p.g m want up down ceiling := rfl
    simp only [Dev.finish_pwr, Dev.finish_cores, Dev.finish_mvec, Dev.finish_nwch, hcore, governor_eq]
    simp only [hpwr]
    refine ⟨trivial, trivial, trivial, trivial, fun hlt hle => ?rises, fun h => ?falls, fun hb => if_neg (ne_true_of_eq_false hb),
      fun hb => if_pos hb, fun hw => ?none, fun c rest hw => ?unfit, fun c x rest y hc hw hx hy => ?first⟩
    case rises => rw [hg, nextG, if_pos ⟨hlt, hle⟩]
    case falls => rw [hg, nextG, if_neg (by omega)]
    case none =>
      have hnil : s.dev.waitingPlans = [] := hw
      rw [hnil, grantAll]
      exact ⟨hpre .cores (by decide), hpre .mvec (by decide), hpre .nwch (by decide)⟩
    case unfit =>
      have hcons : s.dev.waitingPlans = (2 * c, (s.dev.envelopeAfter m volt - m) * 1000 + 1) :: rest := hw
      rw [hcons, grantAll_of_unfit (Nat.lt_succ_self _)]
      exact hpre .cores (by decide)
    case first =>
      have hcons : s.dev.waitingPlans = (2 * c, x) :: rest := hw
      rw [hcons] at hy
      exact grantAll_grants_first hc hx rest _ y hy
  case cap =>
    intro avg s p cap top
    refine completes_of_onDev (exec_capWindow s avg) ?_
    simp only [Dev.finish_pwr, Dev.die_finish, capWindow_pwr, windowPwr_capK]
    refine ⟨rfl, rfl, fun h => if_pos h, fun h => if_neg (Nat.not_le.2 h), fun n hn => ?_⟩
    rw [die_capWindow _ _ hn]
    refine ⟨fun h => if_pos h, fun hle hlow => ?_, fun hlow hx => ?_⟩
    · exact (if_neg (Nat.not_lt.2 hle)).trans (if_neg (Nat.not_lt.2 hlow))
    · have hle : ¬ cap < avg := by omega
      refine ((if_neg hle).trans (if_pos hlow)).trans ?_
      rw [show Nat.min (s.dev.die n).cap 84 = (s.dev.die n).cap from Nat.min_eq_left hx]
      rfl
  case thermal =>
    intro t0 t1 t2 t3 s n hn t x
    refine completes_of_onDev (exec_thermalReading s t0 t1 t2 t3) ?_
    have ht : [t0.toNat, t1.toNat, t2.toNat, t3.toNat].getD n 0 = ([t0, t1, t2, t3].getD n 0#8).toNat := by interval_cases n <;> rfl
    have hdie : (thermal [t0.toNat, t1.toNat, t2.toNat, t3.toNat] s.dev).finish.die n = thermalDie t x := by
      rw [Dev.die_finish, die_thermal _ _ _ _ _ hn, ht]
    simp only [hdie, Dev.finish_pwr]
    have htrips (h : 105 ≤ t) (hrun : 9 ≤ x.run105) := thermal_trips hn (h.trans_eq ht.symm) hrun
    by_cases h : 104 ≤ t
    · rw [thermalDie_emergency h]
      exact ⟨rfl, rfl, rfl, fun _ => ⟨rfl, rfl, rfl⟩, by omega, by omega, by omega, by omega, htrips⟩
    · have h105 : ¬ 105 ≤ t := by omega
      rw [thermalDie_below (Nat.not_le.1 h)]
      refine ⟨rfl, rfl, (if_neg h105).symm, fun hhot => absurd hhot h, fun _ =>
        ⟨rfl, fun he => if_pos he, fun he => if_neg (ne_true_of_eq_false he)⟩,
        fun hle => if_pos hle, fun hlt hle => (if_neg (Nat.not_le.2 hlt)).trans (if_pos hle), fun hlt _ => ?_, htrips⟩
      have h97 : ¬ t ≤ 97 := by omega
      exact (if_neg h97).trans (if_neg (Nat.not_le.2 hlt))
  case under =>
    intro s
    refine ⟨fun h => becomes_of_onDev (exec_undervoltage s) (if_pos h), fun h => completes_of_onDev (exec_undervoltage s) ?_,
      becomes_of_onDev (exec_undervoltageRelease s) rfl⟩
    obtain ⟨dies, hpwr⟩ := ({ s.dev with pwr := { s.dev.pwr with under := true } } : Dev).applyBrake_pwr
    have hunder : (underOn s.dev).finish.pwr.under = true := by
      rw [Dev.finish_pwr, underOn_of_clear h]
      exact congrArg Pwr.under hpwr
    refine ⟨hunder, by rw [Dev.braked, hunder, Bool.or_true], fun n hn => ?_⟩
    rw [Dev.die_finish, underOn_of_clear h]
    exact congrArg DiePwr.cap (Dev.die_applyBrake _ hn)
  case ladder =>
    intro c s hc hopen p
    have hexec := exec_ladder s .pf hc
    refine ⟨fun h => becomes_of_onDev hexec (ladderWrite_of_idle hopen h), fun hm hs =>
      ⟨fun ht => becomes_of_onDev hexec ((ladderWrite_of_begun hopen hm hs (.inl ht)).trans (s.dev.moveTo_high ht)),
       fun ht hr => becomes_of_onDev hexec (ladderWrite_of_refused hopen hm hs ht hr), fun ht hr => completes_of_onDev hexec ?_⟩⟩
    have hsub (d : Dev) (k : Nat) : d.finish.sub k = d.sub k := Dev.sub_of_eth_eq (Dev.finish_eth d) k
    obtain ⟨hstate, hclean, hlanes⟩ := s.dev.moveTo_low ht
    simp only [hsub, Dev.finish_pwr, Dev.finish_flash, ladderWrite_of_begun hopen hm hs (.inr hr), Dev.moveTo_pwr]
    exact ⟨trivial, trivial, rfl, hstate, hclean, hlanes⟩
  case rest =>
    intro s p stays
    refine ⟨fun h => becomes_of_onDev (exec_autoQuiet s) (autoQuiet_of_stays h), fun h => completes_of_onDev (exec_autoQuiet s) ?quiet,
      fun hs hm => becomes_of_onDev (exec_deviceWake s) ((deviceWake_of_quiet hs hm).trans (s.dev.moveTo_high (by decide))),
      fun h => becomes_of_onDev (exec_deviceWake s) (deviceWake_of_other h),
      fun h => becomes_of_onDev (exec_deviceStateChangeDone s) (ladderDone_of_rest h), fun t hm =>
        ⟨fun ht hl => becomes_of_onDev (exec_deviceStateChangeDone s) (ladderDone_of_lent hm ht hl), fun h =>
          completes_of_onDev (exec_deviceStateChangeDone s) ?done⟩⟩
    case quiet =>
      rw [Dev.finish_pwr, Dev.timer_finish, autoQuiet_of_still h, Dev.moveTo_high _ (by decide : 1 < 2)]
      exact ⟨rfl, rfl, Dev.le_timer_reach s.dev ioIsle _⟩
    case done =>
      obtain ⟨hpwr, hbusy, hisle, hdormant⟩ := ladderDone_arrives hm h
      have hfin (d : Dev) (i : Nat) : d.finish.isle i = d.isle i := Dev.isle_of_isles (Dev.finish_isles d) i
      simp only [Dev.finish_pwr, Dev.finish_boot, Dev.finish_cores, Dev.finish_sigs, hfin, hpwr]
      refine ⟨trivial, trivial, trivial, hbusy, fun i hi => ?_, hdormant⟩
      rw [hisle i hi]
      refine ⟨?_, ?_, fun ht hcore => ladderIsle_low ht hcore _⟩
      · rintro rfl
        exact ladderIsle_run i _
      · rintro rfl
        exact ladderIsle_quiet i _

end Sys2Proof.Machine
end

section
/-!
SUPPORT. O44: packets and pictures under assembly, batch slots, decode engines.
-/

namespace Sys2Proof.Machine

open Sys2Proof.Safety


/-! ### What a stream context reads -/

/-- e reads as d at what the stream contexts name: page states, registers, owners. -/
structure SameNames (d e : Dev) : Prop where
  st : e.pg.st = d.pg.st
  regs : e.pg.regs = d.pg.regs
  parts : e.parts = d.parts

/-- What stream writes, counts and events may touch, but for islands and the stream state. -/
abbrev besideStreams : List Comp := [.hdr, .ctr, .mem, .poison, .cores, .sigs, .tier, .errm, .free]

theorem sameNames_of_changesOnly {d e : Dev}
    (h : changesOnly [.hdr, .ctr, .mem, .poison, .isles, .cores, .sigs, .tier, .strm, .errm, .free] d e) : SameNames d e :=
  ⟨h .st (by decide), h .regs (by decide), h .parts (by decide)⟩

section
variable {d e : Dev} (h : SameNames d e) (k : Nat)
include h

theorem SameNames.bst (p : Page) : e.bst p = d.bst p := Dev.bst_of_st h.st p
theorem SameNames.reg (p : Page) (off : Nat) : e.reg p off = d.reg p off := by
  rw [Dev.reg, Dev.regAt, h.regs, ← Dev.regAt, ← Dev.reg]
theorem SameNames.owner : e.strmOwner k = d.strmOwner k := by
  unfold Dev.strmOwner Dev.ownerBit Dev.tw
  rw [h.parts]
theorem SameNames.deco : e.strmDeco k = d.strmDeco k := by rw [Dev.strmDeco, h.reg, ← Dev.strmDeco]
theorem SameNames.codec : e.strmCodec k = d.strmCodec k := by rw [Dev.strmCodec, h.reg, ← Dev.strmCodec]
theorem SameNames.rtp : e.strmRtp k = d.strmRtp k := by rw [Dev.strmRtp, h.reg, ← Dev.strmRtp]
theorem SameNames.isle : e.strmIsle k = d.strmIsle k := by rw [Dev.strmIsle, h.deco, ← Dev.strmIsle]
theorem SameNames.slotReg (s off : Nat) : e.slotReg k s off = d.slotReg k s off := by rw [Dev.slotReg, h.reg, ← Dev.slotReg]
theorem SameNames.sizeOk (x y : Nat) : e.sizeOk k x y = d.sizeOk k x y := by
  unfold Dev.sizeOk
  rw [h.reg, h.codec]
theorem SameNames.cropOk (q : Config.Decoded) : e.cropOk k q = d.cropOk k q := by
  unfold Dev.cropOk Dev.cropOf
  rw [h.reg, h.reg, h.reg]
theorem SameNames.picCost (p : Picture) : e.picCost k p = d.picCost k p := by
  unfold Dev.picCost
  rw [h.reg, h.codec]
theorem SameNames.decoWeight (i n : Nat) : e.decoWeight i n = d.decoWeight i n := h.reg _ _

end

theorem Dev.sctx_of_strm {d e : Dev} (h : e.strm = d.strm) (k : Nat) : e.sctx k = d.sctx k := by rw [Dev.sctx, h, ← Dev.sctx]

theorem Dev.decoSt_of_strm {d e : Dev} (h : e.strm = d.strm) (i : Nat) : e.decoSt i = d.decoSt i := by
  rw [Dev.decoSt, h, ← Dev.decoSt]

theorem Dev.timer_of_isles {d e : Dev} (h : e.isles = d.isles) (i : Nat) : e.timer i = d.timer i := by
  rw [Dev.timer, Dev.isle_of_isles h, ← Dev.timer]

theorem Dev.earlier_of {d e : Dev} {k : Nat} (hdeco : e.decoSt (e.strmDeco k) = d.decoSt (d.strmDeco k))
    (hrefs : (e.sctx k).refs = (d.sctx k).refs) (hwaiting : (e.sctx k).waiting = (d.sctx k).waiting) : e.earlier k = d.earlier k := by
  unfold Dev.earlier
  rw [hdeco, hrefs, hwaiting]

@[simp] theorem Dev.sctx_updCtx (d : Dev) (k : Nat) (f : Ctx → Ctx) : (d.updCtx k f).sctx k = f (d.sctx k) := SMap.get_upd _ _ _ _

@[simp] theorem Dev.decoSt_updCtx (d : Dev) (k : Nat) (f : Ctx → Ctx) (e : Nat) : (d.updCtx k f).decoSt e = d.decoSt e := rfl

@[simp] theorem Dev.decoSt_updDeco (d : Dev) (e : Nat) (f : Deco → Deco) : (d.updDeco e f).decoSt e = f (d.decoSt e) :=
  SMap.get_upd _ _ _ _

@[simp] theorem Dev.sctx_updDeco (d : Dev) (e : Nat) (f : Deco → Deco) (k : Nat) : (d.updDeco e f).sctx k = d.sctx k := rfl

@[simp] theorem Dev.sctx_strmCnt (d : Dev) (k n v j : Nat) : (d.strmCnt k n v).sctx j = d.sctx j :=
  Dev.sctx_of_strm (changesOnly_of_peel (Dev.strmCnt_only d k n v) .strm (by decide)) j

@[simp] theorem Dev.sctx_strmEvt (d : Dev) (k m j : Nat) : (d.strmEvt k m).sctx j = d.sctx j :=
  Dev.sctx_of_strm (changesOnly_of_peel (Dev.strmEvt_only d k m) .strm (by decide)) j

@[simp] theorem Dev.sctx_toWorkspace (d : Dev) (k : Nat) (b : List Byte) (j : Nat) : (d.toWorkspace k b).sctx j = d.sctx j :=
  Dev.sctx_of_strm (changesOnly_of_peel (Dev.toWorkspace_only d k b) .strm (by decide)) j

@[simp] theorem Dev.sctx_reach (d : Dev) (i t j : Nat) : (d.reach i t).sctx j = d.sctx j := rfl

/-! ### Pictures under assembly (R581–R585) -/

/-- A context that loses a picture: at codec 1 it waits for the next IRAP picture, but for a drop under R597. -/
def Ctx.lost (x : Ctx) (h265 : Bool) : Ctx := { x with drops := Nat.min 0xFFFFFFFF (x.drops + 1), waitIrap := x.waitIrap || h265 }

theorem Dev.sctx_dropPic (d : Dev) (k ctr : Nat) : (d.dropPic k ctr).sctx k = (d.sctx k).lost (d.strmCodec k == 1 && ctr != 9) := by
  have h : SameNames d ((d.strmCnt k ctr 1).strmEvt k 4) := sameNames_of_changesOnly (by simp)
  unfold Dev.dropPic
  dsimp only
  rw [Dev.sctx_updCtx, h.codec, Dev.sctx_strmEvt, Dev.sctx_strmCnt, Ctx.lost]

theorem Dev.sctx_dropAsm_none {d : Dev} {k : Nat} (h : (d.sctx k).asm = none) (ctr : Nat) : d.dropAsm k ctr = d :=
  if_pos (by simp [h])

theorem Dev.sctx_dropAsm_some {d : Dev} {k : Nat} {a : Assembly} (h : (d.sctx k).asm = some a) (ctr : Nat) :
    (d.dropAsm k ctr).sctx k = { (d.sctx k).lost (d.strmCodec k == 1 && ctr != 9) with asm := none } := by
  rw [Dev.dropAsm, if_neg (by simp [h]), Dev.sctx_updCtx, Dev.sctx_dropPic]

section
variable {d : Dev} {k : Nat} {a : Assembly} {f : Frag}

/-- A fragment past the room of a picture loses it. -/
theorem Dev.sctx_addFrag_over (h : d.reg (pStrm k) 0x04C * 64 < (a.pic.bytes ++ f.data).length) :
    (d.addFrag k a f).sctx k =
      { ({ d.sctx k with asm := some a, skip := if f.last then none else some f.ident } : Ctx).lost (d.strmCodec k == 1) with
        asm := none } := by
  have hn : SameNames d (d.toWorkspace k f.data) := sameNames_of_changesOnly (by simp)
  have hasm (e : Dev) (g : Ctx → Ctx) : SameNames e (e.updCtx k g) := ⟨rfl, rfl, rfl⟩
  unfold Dev.addFrag
  dsimp only
  rw [if_pos (by rw [hn.reg]; exact h), Dev.sctx_dropAsm_some (a := a) (by rw [Dev.sctx_updCtx]), Dev.sctx_updCtx,
    (hasm _ _).codec, hn.codec, Dev.sctx_toWorkspace, show (4 != 9) = true from rfl, Bool.and_true]

/-- A fragment with room joins the picture. -/
theorem Dev.sctx_addFrag_more (h : (a.pic.bytes ++ f.data).length ≤ d.reg (pStrm k) 0x04C * 64) (hl : f.last = false) :
    (d.addFrag k a f).sctx k =
      { d.sctx k with asm := some { a with pic := { a.pic with bytes := a.pic.bytes ++ f.data }, next := a.next + 1 } } := by
  have hn : SameNames d (d.toWorkspace k f.data) := sameNames_of_changesOnly (by simp)
  unfold Dev.addFrag
  dsimp only
  rw [if_neg (by rw [hn.reg]; exact Nat.not_lt.2 h), if_neg (by simp [hl]), Dev.sctx_updCtx, Dev.sctx_toWorkspace]

theorem Dev.addFrag_last (h : (a.pic.bytes ++ f.data).length ≤ d.reg (pStrm k) 0x04C * 64) (hl : f.last = true) :
    d.addFrag k a f = (d.toWorkspace k f.data).assembled k { a.pic with bytes := a.pic.bytes ++ f.data } := by
  have hn : SameNames d (d.toWorkspace k f.data) := sameNames_of_changesOnly (by simp)
  unfold Dev.addFrag
  dsimp only
  rw [if_neg (by rw [hn.reg]; exact Nat.not_lt.2 h), if_pos hl]

theorem Dev.sctx_newAsm_more (h : f.data.length ≤ d.reg (pStrm k) 0x04C * 64) (hl : f.last = false) :
    (d.newAsm k f).sctx k =
      { d.sctx k with skip := none, asm := some ⟨⟨f.data, f.ident, f.ssrc, f.seq, 0, false, 0, 0⟩, 1, d.timer (d.strmIsle k)⟩ } := by
  have hn : SameNames d (d.updCtx k fun x => { x with skip := none }) := ⟨rfl, rfl, rfl⟩
  unfold Dev.newAsm
  dsimp only
  rw [Dev.sctx_addFrag_more (by rw [hn.reg]; exact h) hl, Dev.sctx_updCtx, hn.isle]
  rfl

end

theorem Dev.assembled_of_new {d : Dev} {k : Nat} (p : Picture) :
    d.assembled k p =
      (let e := d.updCtx k fun x => { x with asm := none }
      let i := Config.pictureInfo (d.strmCodec k) (b2n (d.strmRtp k)) (d.earlier k) p.bytes
      let irap := i.irap || d.strmCodec k == 0
      if (d.sctx k).waitIrap ∧ !irap then e.dropPic k 8
      else if !i.supported ∨ !d.sizeOk k i.width i.height then e.dropPic k 5
      else if 4 ≤ (d.sctx k).waiting.length then e.dropPic k 7
      else e.updCtx k fun x => { x with
        waiting := x.waiting ++ [{ p with irap := irap, width := i.width, height := i.height, stamp := d.timer (d.strmIsle k) }]
        waitIrap := false }) := by
  have hx := d.sctx_updCtx k fun x => { x with asm := none }
  have hn : SameNames d (d.updCtx k fun x => { x with asm := none }) := ⟨rfl, rfl, rfl⟩
  have he : (d.updCtx k fun x => { x with asm := none }).earlier k = d.earlier k := Dev.earlier_of rfl (by rw [hx]) (by rw [hx])
  unfold Dev.assembled
  dsimp only
  rw [he, hn.codec, hn.rtp, hn.isle, hn.sizeOk, hx]
  rfl

/-- A picture with all its packets waits for the engine (R586). -/
theorem Dev.sctx_assembled {d : Dev} {k : Nat} {p : Picture} (i : Config.PicInfo)
    (hi : Config.pictureInfo (d.strmCodec k) (b2n (d.strmRtp k)) (d.earlier k) p.bytes = i) (hs : i.supported = true)
    (hz : d.sizeOk k i.width i.height = true) (hw : (d.sctx k).waiting.length < 4)
    (hirap : (d.sctx k).waitIrap = false ∨ i.irap = true ∨ d.strmCodec k = 0) :
    (d.assembled k p).sctx k =
      { d.sctx k with
        asm := none, waitIrap := false
        waiting := (d.sctx k).waiting ++ [{ p with
          irap := i.irap || d.strmCodec k == 0, width := i.width, height := i.height, stamp := d.timer (d.strmIsle k) }] } := by
  have hskip : ¬ ((d.sctx k).waitIrap = true ∧ (!(i.irap || d.strmCodec k == 0)) = true) := by
    rcases hirap with h | h | h <;> simp [h]
  rw [Dev.assembled_of_new]
  dsimp only
  rw [hi, if_neg hskip, if_neg (by simp [hs, hz]), if_neg (Nat.not_le.2 hw), Dev.sctx_updCtx, Dev.sctx_updCtx]

/-! ### Packets with the ingest header (R582) -/

/-- The device as a packet is counted. -/
abbrev Dev.heard (d : Dev) (k : Nat) (b : List Byte) : Dev := (d.strmCnt k 0 1).strmCnt k 1 b.length

theorem heard_sameNames (d : Dev) (k : Nat) (b : List Byte) : SameNames d (d.heard k b) := sameNames_of_changesOnly (by simp)

theorem heard_strm (d : Dev) (k : Nat) (b : List Byte) : (d.heard k b).strm = d.strm :=
  (show changesOnly [.ctr] d (d.heard k b) by simp) .strm (by decide)

theorem heard_timer (d : Dev) (k : Nat) (b : List Byte) (i : Nat) : (d.heard k b).timer i = d.timer i :=
  Dev.timer_of_isles ((show changesOnly [.ctr] d (d.heard k b) by simp) .isles (by decide)) i

section
variable {k : Nat} {b : List Byte} {d : Dev}

theorem takePacket_of_still (h : d.bst (pStrm k) ≠ .running) : takePacket k b d = d := if_pos h

theorem takePacket_of_raw (hrun : d.bst (pStrm k) = .running) (h : d.strmRtp k = false) :
    takePacket k b d = (d.heard k b).rawPacket k b :=
  (if_neg (by simp [hrun])).trans (if_neg (by rw [(heard_sameNames d k b).rtp, h]; exact Bool.false_ne_true))

theorem takePacket_of_rtp (hrun : d.bst (pStrm k) = .running) (h : d.strmRtp k = true) :
    takePacket k b d = (d.heard k b).rtpPacket k b :=
  (if_neg (by simp [hrun])).trans (if_pos (by rw [(heard_sameNames d k b).rtp, h]))

/-- The ingest header as it has to be (R582). -/
def rawWhole (b : List Byte) : Prop :=
  12 ≤ b.length ∧ fldBE b 0 2 = 0x4549 ∧ fld b 2 1 = 1 ∧ bits (fld b 3 1) 7 2 = 0 ∧ 12 + fldBE b 10 2 ≤ b.length

/-- The fragment that an ingest packet carries. -/
def rawFrag (b : List Byte) : Frag := ⟨fldBE b 4 4, 0, 0, (b.drop 12).take (fldBE b 10 2), bit (fld b 3 1) 1⟩

theorem rawPacket_of_malformed (h : ¬ rawWhole b) : d.rawPacket k b = d.strmCnt k 10 1 :=
  if_pos (by unfold rawWhole at h; omega)

theorem rawPacket_of_whole (h : rawWhole b) :
    d.rawPacket k b =
      if bit (fld b 3 1) 0 then
        let e := d.dropAsm k 3
        if fldBE b 8 2 = 0 then e.newAsm k (rawFrag b) else e.dropPic k 3
      else
        match (d.sctx k).asm with
        | none => d
        | some a => if a.pic.ident = (rawFrag b).ident ∧ a.next = fldBE b 8 2 then d.addFrag k a (rawFrag b) else d.dropAsm k 3 :=
  if_neg (by unfold rawWhole at h; omega)

theorem rawPacket_of_first (h : rawWhole b) (hf : bit (fld b 3 1) 0 = true) (h0 : fldBE b 8 2 = 0) :
    d.rawPacket k b = (d.dropAsm k 3).newAsm k (rawFrag b) := by
  rw [rawPacket_of_whole h, if_pos hf]
  exact if_pos h0

variable {a : Assembly} (h : rawWhole b) (hf : bit (fld b 3 1) 0 = false) (ha : (d.sctx k).asm = some a)
include h hf ha

theorem rawPacket_of_next (hi : a.pic.ident = fldBE b 4 4) (hn : a.next = fldBE b 8 2) :
    d.rawPacket k b = d.addFrag k a (rawFrag b) := by
  rw [rawPacket_of_whole h, if_neg (by simp [hf]), ha]
  exact if_pos ⟨hi, hn⟩

theorem rawPacket_of_other (ho : a.pic.ident ≠ fldBE b 4 4 ∨ a.next ≠ fldBE b 8 2) : d.rawPacket k b = d.dropAsm k 3 := by
  rw [rawPacket_of_whole h, if_neg (by simp [hf]), ha]
  exact if_neg fun ⟨hi, hn⟩ => ho.elim (· hi) (· hn)

end

/-- Ingest packets of a Running context, as O44 states them. -/
theorem rawPackets (k : Nat) (b : List Byte) {d : Dev} (hrun : d.bst (pStrm k) = .running) (hraw : d.strmRtp k = false) :
    let x := d.sctx k
    let room := d.reg (pStrm k) 0x04C * 64
    let part := (b.drop 12).take (fldBE b 10 2)
    let lostOne := Nat.min 0xFFFFFFFF (x.drops + 1)
    let e := takePacket k b d
    (¬ rawWhole b → e = (d.heard k b).strmCnt k 10 1) ∧
    (rawWhole b → bit (fld b 3 1) 0 = true → fldBE b 8 2 = 0 → bit (fld b 3 1) 1 = false → part.length ≤ room →
      ∃ a, (e.sctx k).asm = some a ∧ a.pic.ident = fldBE b 4 4 ∧ a.pic.bytes = part ∧ a.next = 1 ∧
        a.since = d.timer (d.strmIsle k) ∧ (x.asm.isSome = true → (e.sctx k).drops = lostOne)) ∧
    (∀ a, rawWhole b → bit (fld b 3 1) 0 = false → x.asm = some a →
      (a.pic.ident ≠ fldBE b 4 4 ∨ a.next ≠ fldBE b 8 2 → (e.sctx k).asm = none ∧ (e.sctx k).drops = lostOne) ∧
      (a.pic.ident = fldBE b 4 4 → a.next = fldBE b 8 2 →
        (room < a.pic.bytes.length + part.length → (e.sctx k).asm = none ∧ (e.sctx k).drops = lostOne) ∧
        (a.pic.bytes.length + part.length ≤ room → bit (fld b 3 1) 1 = false →
          e.sctx k = { x with asm := some { a with pic := { a.pic with bytes := a.pic.bytes ++ part }, next := a.next + 1 } }) ∧
        (a.pic.bytes.length + part.length ≤ room → bit (fld b 3 1) 1 = true →
          let i := Config.pictureInfo (d.strmCodec k) 0 (d.earlier k) (a.pic.bytes ++ part)
          i.supported = true → d.sizeOk k i.width i.height = true → x.waiting.length < 4 →
          x.waitIrap = false ∨ i.irap = true ∨ d.strmCodec k = 0 →
            (e.sctx k).asm = none ∧ (e.sctx k).drops = x.drops ∧ ∃ p, (e.sctx k).waiting = x.waiting ++ [p] ∧
              p.bytes = a.pic.bytes ++ part ∧ p.ident = a.pic.ident ∧ p.width = i.width ∧ p.height = i.height))) := by
  intro x room part lostOne e
  have hn := heard_sameNames d k b
  have hx : (d.heard k b).sctx k = x := Dev.sctx_of_strm (heard_strm d k b) k
  have he : e = (d.heard k b).rawPacket k b := takePacket_of_raw hrun hraw
  rw [he]
  refine ⟨rawPacket_of_malformed, fun hw hf h0 hl hroom => ?first, fun a hw hf ha => ?later⟩
  case first =>
    have hd : SameNames (d.heard k b) ((d.heard k b).dropAsm k 3) := sameNames_of_changesOnly (by simp)
    have htimer : ((d.heard k b).dropAsm k 3).timer (((d.heard k b).dropAsm k 3).strmIsle k) = d.timer (d.strmIsle k) := by
      rw [hd.isle, hn.isle, Dev.timer_of_isles (changesOnly_of_peel (Dev.dropAsm_only _ k 3) .isles (by decide)), heard_timer]
    rw [rawPacket_of_first hw hf h0, Dev.sctx_newAsm_more (by rw [hd.reg, hn.reg]; exact hroom) hl]
    refine ⟨_, rfl, rfl, rfl, rfl, htimer, fun hasm => ?_⟩
    obtain ⟨a, ha⟩ := Option.isSome_iff_exists.1 hasm
    dsimp only
    rw [Dev.sctx_dropAsm_some (a := a) (by rw [hx, ha]), hx]
    rfl
  case later =>
    have ha' : ((d.heard k b).sctx k).asm = some a := by rw [hx, ha]
    refine ⟨fun ho => ?other, fun hi hnext => ?next⟩
    case other =>
      rw [rawPacket_of_other hw hf ha' ho, Dev.sctx_dropAsm_some ha', hx]
      exact ⟨rfl, rfl⟩
    case next =>
      rw [rawPacket_of_next hw hf ha' hi hnext]
      have hlen : (a.pic.bytes ++ (rawFrag b).data).length = a.pic.bytes.length + part.length := List.length_append
      have hfits (hroom : a.pic.bytes.length + part.length ≤ room) :
          (a.pic.bytes ++ (rawFrag b).data).length ≤ (d.heard k b).reg (pStrm k) 0x04C * 64 := by
        rw [hlen, hn.reg]
        exact hroom
      refine ⟨fun hover => ?long, fun hroom hl => ?more, fun hroom hl => ?last⟩
      case long =>
        rw [Dev.sctx_addFrag_over (by rw [hlen, hn.reg]; exact hover), hx]
        exact ⟨rfl, rfl⟩
      case more =>
        rw [Dev.sctx_addFrag_more (hfits hroom) hl, hx]
        rfl
      case last =>
        intro i hs hz hwait hirap
        rw [Dev.addFrag_last (hfits hroom) hl]
        have hw2 : SameNames d ((d.heard k b).toWorkspace k (rawFrag b).data) := sameNames_of_changesOnly (by simp)
        have hstrm : ((d.heard k b).toWorkspace k (rawFrag b).data).strm = d.strm :=
          (show changesOnly [.hdr, .ctr, .mem, .poison, .cores, .tier, .free] d
            ((d.heard k b).toWorkspace k (rawFrag b).data) by simp) .strm (by decide)
        have hx2 := Dev.sctx_of_strm hstrm k
        have he2 : ((d.heard k b).toWorkspace k (rawFrag b).data).earlier k = d.earlier k :=
          Dev.earlier_of (by rw [hw2.deco, Dev.decoSt_of_strm hstrm]) (by rw [hx2]) (by rw [hx2])
        rw [Dev.sctx_assembled i (by rw [hw2.codec, hw2.rtp, he2, hraw]; rfl) hs (by rw [hw2.sizeOk]; exact hz)
          (by rw [hx2]; exact hwait) (by rw [hx2, hw2.codec]; exact hirap), hx2]
        exact ⟨rfl, rfl, _, rfl, rfl, rfl, rfl, rfl⟩

/-! ### RTP packets (R583) -/

section
variable (d : Dev) (k : Nat)

theorem Dev.nextSeq_dropPic (ctr : Nat) : ((d.dropPic k ctr).sctx k).nextSeq = (d.sctx k).nextSeq := by
  rw [Dev.sctx_dropPic, Ctx.lost]

theorem Dev.nextSeq_dropAsm (ctr : Nat) : ((d.dropAsm k ctr).sctx k).nextSeq = (d.sctx k).nextSeq := by
  cases h : (d.sctx k).asm with
  | none => rw [Dev.sctx_dropAsm_none h]
  | some a => rw [Dev.sctx_dropAsm_some h, Ctx.lost]

theorem Dev.nextSeq_assembled (p : Picture) : ((d.assembled k p).sctx k).nextSeq = (d.sctx k).nextSeq := by
  rw [Dev.assembled_of_new]
  dsimp only
  split
  · rw [Dev.nextSeq_dropPic, Dev.sctx_updCtx]
  · split
    · rw [Dev.nextSeq_dropPic, Dev.sctx_updCtx]
    · split
      · rw [Dev.nextSeq_dropPic, Dev.sctx_updCtx]
      · rw [Dev.sctx_updCtx, Dev.sctx_updCtx]

theorem Dev.nextSeq_addFrag (a : Assembly) (f : Frag) : ((d.addFrag k a f).sctx k).nextSeq = (d.sctx k).nextSeq := by
  unfold Dev.addFrag
  dsimp only
  split
  · rw [Dev.nextSeq_dropAsm, Dev.sctx_updCtx, Dev.sctx_toWorkspace]
  · split
    · rw [Dev.nextSeq_assembled, Dev.sctx_toWorkspace]
    · rw [Dev.sctx_updCtx, Dev.sctx_toWorkspace]

theorem Dev.nextSeq_newAsm (f : Frag) : ((d.newAsm k f).sctx k).nextSeq = (d.sctx k).nextSeq := by
  rw [Dev.newAsm, Dev.nextSeq_addFrag, Dev.sctx_updCtx]

theorem Dev.nextSeq_rtpData (f : Frag) (pay : List Byte) : ((d.rtpData k f pay).sctx k).nextSeq = (d.sctx k).nextSeq := by
  unfold Dev.rtpData
  dsimp only
  split
  · rw [Dev.nextSeq_dropAsm, Dev.sctx_updCtx, Dev.sctx_strmCnt]
  · rw [Dev.nextSeq_dropPic, Dev.sctx_updCtx]
  · split
    · rw [Dev.nextSeq_newAsm]
    · rw [Dev.nextSeq_addFrag]

theorem Dev.nextSeq_rtpGap (x : Ctx) (ident : Nat) (after : Option Nat) :
    ((d.rtpGap k x ident after).sctx k).nextSeq = (d.sctx k).nextSeq := by
  rw [Dev.rtpGap, Dev.sctx_updCtx]
  split
  · rfl
  · exact d.nextSeq_dropPic k 3

theorem Dev.nextSeq_rtpTake (x : Ctx) (f : Frag) (pay : List Byte) (after : Option Nat) :
    ((d.rtpTake k x f pay after).sctx k).nextSeq = (d.sctx k).nextSeq := by
  unfold Dev.rtpTake
  split
  · rw [Dev.sctx_updCtx]
  · rw [Dev.nextSeq_rtpData]
    split
    · split
      · rfl
      · exact d.nextSeq_dropAsm k 3
    · rfl

end

/-- The RTP packet is of the context's payload type and source (R583). -/
def Dev.rtpOurs (d : Dev) (k : Nat) (b : List Byte) : Prop :=
  bits (fld b 1 1) 6 0 = bits (d.reg (pStrm k) 0x040) 14 8 ∧
    (bit (d.reg (pStrm k) 0x040) 2 = true ∨ fldBE b 8 4 = d.reg (pStrm k) 0x044)

/-- The fragment that an RTP packet carries, without its data. -/
def rtpFrag (b : List Byte) : Frag := ⟨fldBE b 4 4, fldBE b 8 4, fldBE b 2 2, [], bit (fld b 1 1) 7⟩

/-- What is skipped after a packet of a picture that is lost. -/
def rtpAfter (b : List Byte) : Option Nat := if bit (fld b 1 1) 7 then none else some (fldBE b 4 4)

/-- The device as an RTP packet has moved the sequence number on. -/
abbrev Dev.sequenced (d : Dev) (k : Nat) (b : List Byte) : Dev :=
  d.updCtx k fun x => { x with nextSeq := some ((fldBE b 2 2 + 1) % 65536) }

section
variable {d : Dev} {k : Nat} {b pay : List Byte}

theorem rtpPacket_of_malformed (h : rtpPayload b = none) : d.rtpPacket k b = d.strmCnt k 10 1 := by
  rw [Dev.rtpPacket, h]

theorem rtpPacket_of_foreign (h : rtpPayload b = some pay) (ho : ¬ d.rtpOurs k b) : d.rtpPacket k b = d.strmCnt k 10 1 := by
  rw [Dev.rtpPacket, h]
  refine if_pos ?_
  by_contra hno
  rw [not_or] at hno
  obtain ⟨htype, hsrc⟩ := hno
  exact ho ⟨by simpa using htype, by simpa [or_iff_not_imp_left] using hsrc⟩

theorem rtpPacket_of_ours (h : rtpPayload b = some pay) (ho : d.rtpOurs k b) :
    d.rtpPacket k b =
      if (d.sctx k).nextSeq.any (· != fldBE b 2 2) then (d.sequenced k b).rtpGap k (d.sctx k) (fldBE b 4 4) (rtpAfter b)
      else (d.sequenced k b).rtpTake k (d.sctx k) (rtpFrag b) pay (rtpAfter b) := by
  obtain ⟨htype, hsrc⟩ := ho
  rw [Dev.rtpPacket, h]
  refine if_neg ?_
  rintro (hne | ⟨hany, hne⟩)
  · exact hne htype
  · rcases hsrc with hon | heq
    · simp [hon] at hany
    · exact hne heq

theorem late_iff (x : Ctx) (seq : Nat) : x.nextSeq.any (· != seq) = true ↔ ∃ n, x.nextSeq = some n ∧ n ≠ seq := by
  simp [Option.any_eq_true]

end

theorem Dev.sctx_rtpGap (d : Dev) (k : Nat) (x : Ctx) (ident : Nat) (after : Option Nat) :
    (d.rtpGap k x ident after).sctx k =
      { (if x.skip = some ident then d.sctx k else (d.sctx k).lost (d.strmCodec k == 1)) with asm := none, skip := after } := by
  rw [Dev.rtpGap, Dev.sctx_updCtx]
  split
  · rfl
  · rw [Dev.sctx_dropPic, show (3 != 9) = true from rfl, Bool.and_true]

theorem Dev.rtpTake_skips {d : Dev} {k : Nat} {x : Ctx} {f : Frag} (h : x.skip = some f.ident) (pay : List Byte) (after : Option Nat) :
    d.rtpTake k x f pay after = d.updCtx k fun x => { x with skip := after } := if_pos h

/-- A fragment in order of the picture under assembly. -/
theorem Dev.rtpTake_joins {d : Dev} {k : Nat} {x : Ctx} {f : Frag} {pay y : List Byte} {a : Assembly} (after : Option Nat)
    (hs : x.skip ≠ some f.ident) (hx : x.asm = some a) (ha : (d.sctx k).asm = some a) (hi : a.pic.ident = f.ident)
    (hy : (if d.strmCodec k = 1 then h265Payload pay else jpegPayload pay false) = .data y) :
    d.rtpTake k x f pay after = d.addFrag k a { f with data := y } := by
  rw [Dev.rtpTake, if_neg hs, hx]
  dsimp only
  rw [if_pos hi, Dev.rtpData]
  dsimp only
  rw [ha, Option.isNone_some, hy]

/-- RTP packets of a Running context, as O44 states them. -/
theorem rtpPackets (k : Nat) (b : List Byte) {d : Dev} (hrun : d.bst (pStrm k) = .running) (hrtp : d.strmRtp k = true) :
    let x := d.sctx k
    let ident := fldBE b 4 4
    let late : Prop := ∃ n, x.nextSeq = some n ∧ n ≠ fldBE b 2 2
    let e := takePacket k b d
    (rtpPayload b = none → e = (d.heard k b).strmCnt k 10 1) ∧
    (∀ pay, rtpPayload b = some pay →
      (¬ d.rtpOurs k b → e = (d.heard k b).strmCnt k 10 1) ∧
      (d.rtpOurs k b →
        (e.sctx k).nextSeq = some ((fldBE b 2 2 + 1) % 65536) ∧
        (late → (e.sctx k).asm = none ∧ (e.sctx k).skip = rtpAfter b ∧
          (e.sctx k).drops = if x.skip = some ident then x.drops else Nat.min 0xFFFFFFFF (x.drops + 1)) ∧
        (¬ late → x.skip = some ident → (e.sctx k).skip = rtpAfter b ∧ (e.sctx k).asm = x.asm ∧ (e.sctx k).drops = x.drops) ∧
        (∀ a y, ¬ late → x.skip ≠ some ident → x.asm = some a → a.pic.ident = ident → bit (fld b 1 1) 7 = false →
          (if d.strmCodec k = 1 then h265Payload pay else jpegPayload pay false) = .data y →
          a.pic.bytes.length + y.length ≤ d.reg (pStrm k) 0x04C * 64 →
            ∃ a', (e.sctx k).asm = some a' ∧ a'.since = a.since ∧ a'.pic = { a.pic with bytes := a.pic.bytes ++ y }))) := by
  intro x ident late e
  have hn := heard_sameNames d k b
  have hx : (d.heard k b).sctx k = x := Dev.sctx_of_strm (heard_strm d k b) k
  have he : e = (d.heard k b).rtpPacket k b := takePacket_of_rtp hrun hrtp
  have hours : (d.heard k b).rtpOurs k b ↔ d.rtpOurs k b := by rw [Dev.rtpOurs, hn.reg, hn.reg, ← Dev.rtpOurs]
  rw [he]
  refine ⟨rtpPacket_of_malformed, fun pay hpay => ⟨fun ho => rtpPacket_of_foreign hpay (mt hours.1 ho), fun ho => ?_⟩⟩
  have hpacket := rtpPacket_of_ours hpay (hours.2 ho)
  rw [hx] at hpacket
  have hseq : ((d.heard k b).sequenced k b).sctx k = { x with nextSeq := some ((fldBE b 2 2 + 1) % 65536) } := by
    rw [Dev.sctx_updCtx, hx]
  have hlate (h : late) := hpacket.trans (if_pos ((late_iff x _).2 h))
  have hinOrder (h : ¬ late) := hpacket.trans (if_neg (mt (late_iff x _).1 h))
  refine ⟨?sequence, fun h => ?gap, fun h hskip => ?skipped, fun a y h hskip ha hi hl hy hroom => ?joins⟩
  case sequence =>
    rw [hpacket]
    split
    · rw [Dev.nextSeq_rtpGap, hseq]
    · rw [Dev.nextSeq_rtpTake, hseq]
  case gap =>
    rw [hlate h, Dev.sctx_rtpGap, hseq]
    refine ⟨rfl, rfl, ?_⟩
    split <;> rfl
  case skipped =>
    rw [hinOrder h, Dev.rtpTake_skips (f := rtpFrag b) hskip, Dev.sctx_updCtx, hseq]
    exact ⟨rfl, rfl, rfl⟩
  case joins =>
    have hs : SameNames (d.heard k b) ((d.heard k b).sequenced k b) := ⟨rfl, rfl, rfl⟩
    rw [hinOrder h, Dev.rtpTake_joins (rtpAfter b) (f := rtpFrag b) hskip ha (by rw [hseq]; exact ha) hi
      (by rw [hs.codec, hn.codec]; exact hy),
      Dev.sctx_addFrag_more (by rw [hs.reg, hn.reg, List.length_append]; exact hroom) hl, hseq]
    exact ⟨_, rfl, rfl, rfl⟩

/-! ### Batch slots (R594–R599) and the two timeouts -/

theorem expireAssembly_of_idle {k : Nat} {d : Dev} (h : (d.sctx k).asm = none ∨ d.bst (pStrm k) ≠ .running) :
    expireAssembly k d = d := by
  unfold expireAssembly
  rcases h with h | h
  · rw [h]
  · split
    · rfl
    · exact if_pos h

theorem expireAssembly_drops {k : Nat} {d : Dev} {a : Assembly} (ha : (d.sctx k).asm = some a) (hrun : d.bst (pStrm k) = .running) :
    let e := expireAssembly k d
    (e.sctx k).asm = none ∧ (e.sctx k).drops = Nat.min 0xFFFFFFFF ((d.sctx k).drops + 1) ∧
    a.since + Nat.max 1 (d.reg (pStrm k) 0x084) ≤ e.timer (e.strmIsle k) ∧
    (d.strmRtp k = true → (e.sctx k).skip = some a.pic.ident) := by
  intro e
  have hrtp (i t : Nat) : (d.reach i t).strmRtp k = d.strmRtp k := rfl
  have hall := sameNames_of_changesOnly ((expireAssembly_changesOnly k d).mono (of_decide_eq_true rfl))
  have hold : e = (if d.strmRtp k then
      (d.reach (d.strmIsle k) (a.since + Nat.max 1 (d.reg (pStrm k) 0x084))).updCtx k fun x => { x with skip := some a.pic.ident }
      else d.reach (d.strmIsle k) (a.since + Nat.max 1 (d.reg (pStrm k) 0x084))).dropAsm k 3 := by
    change expireAssembly k d = _
    unfold expireAssembly
    rw [ha]
    dsimp only
    rw [if_neg (by simp [hrun]), hrtp]
  have htimer : a.since + Nat.max 1 (d.reg (pStrm k) 0x084) ≤ e.timer (e.strmIsle k) := by
    rw [hall.isle, hold, Dev.timer_of_isles (changesOnly_of_peel (Dev.dropAsm_only _ k 3) .isles (by decide))]
    split <;> exact Dev.le_timer_reach d _ _
  refine ⟨?_, ?_, htimer, fun hr => ?_⟩
  · rw [hold, Dev.sctx_dropAsm_some (a := a) (by split <;> simp [ha])]
  · rw [hold, Dev.sctx_dropAsm_some (a := a) (by split <;> simp [ha])]
    split <;> simp [Ctx.lost]
  · rw [hold, Dev.sctx_dropAsm_some (a := a) (by split <;> simp [ha]), if_pos hr]
    simp [Ctx.lost]

@[simp] theorem Ctx.slot_setSlot (x : Ctx) (s : Nat) (b : BatchSlot) : (x.setSlot s b).slot s = b := by
  unfold Ctx.setSlot Ctx.slot
  split <;> rfl

@[simp] theorem Ctx.slot_setSlot_other (x : Ctx) (s : Nat) (b : BatchSlot) : (x.setSlot s b).slot (1 - s) = x.slot (1 - s) := by
  unfold Ctx.setSlot Ctx.slot
  by_cases h : s = 0
  · simp [h]
  · simp [h, show 1 - s = 0 by omega]

/-- A context whose active slot s completes; the other slot is active next if it is armed (R597, R599). -/
def Ctx.completed (x : Ctx) (s : Nat) (early : Bool) : Ctx :=
  let y := x.setSlot s ⟨false, x.written, early⟩
  { y with active := if (y.slot (1 - s)).own then some (1 - s) else none, written := 0, batchAt := 0 }

theorem Ctx.completed_spec (x : Ctx) (s : Nat) (early : Bool) :
    (x.completed s early).slot s = ⟨false, x.written, early⟩ ∧ (x.completed s early).written = 0 ∧
    (x.completed s early).active = if (x.slot (1 - s)).own then some (1 - s) else none :=
  ⟨x.slot_setSlot s _, rfl, by rw [← x.slot_setSlot_other s ⟨false, x.written, early⟩]; rfl⟩

theorem Ctx.completed_drops (x : Ctx) (s : Nat) (early : Bool) : (x.completed s early).drops = x.drops := by
  unfold Ctx.completed Ctx.setSlot
  split <;> rfl

@[simp] theorem Dev.sctx_strmWrite (d : Dev) (k n va : Nat) (b : List Byte) (bad : List Nat) (j : Nat) :
    (d.strmWrite k n va b bad).sctx j = d.sctx j :=
  Dev.sctx_of_strm (changesOnly_of_peel (Dev.strmWrite_only d k n va b bad) .strm (by decide)) j

@[simp] theorem Dev.sctx_signal (d : Dev) (w : Word) (p : Fin 16) (src j : Nat) : (d.signal w p src).sctx j = d.sctx j :=
  Dev.sctx_of_strm (changesOnly_of_peel (Dev.signal_only d w p src) .strm (by decide)) j

theorem Dev.sctx_completeSlot {d : Dev} {k s n : Nat} (ha : (d.sctx k).active = some s) (ho : d.strmOwner k = some n) (early : Bool) :
    (d.completeSlot k early).sctx k = (d.sctx k).completed s early := by
  have hrecords (xs : List Nat) : (xs.foldl (fun (e : Dev) i =>
      e.strmWrite k n (e.slotVa k s 0x10 + 32 * ((d.sctx k).written + i) + 0x16) [0xFF#8] []) d).sctx k = d.sctx k :=
    foldl_keeps (g := fun e => e.sctx k) (fun e i => e.sctx_strmWrite k n _ _ _ k) xs d
  unfold Dev.completeSlot
  rw [ha, ho]
  dsimp only
  split <;> simp only [Dev.sctx_strmCnt, Dev.sctx_strmEvt, Dev.sctx_signal, Dev.sctx_updCtx, hrecords, Ctx.completed]

section
variable {k : Nat} {d : Dev}

theorem expireBatch_of_idle (h : (d.sctx k).active = none ∨ (d.sctx k).written = 0 ∨ d.reg (pStrm k) 0x088 = 0) :
    expireBatch k d = d := if_pos (by simpa using h)

theorem expireBatch_of_due {s : Nat} (ha : (d.sctx k).active = some s) (hw : (d.sctx k).written ≠ 0) (hl : d.reg (pStrm k) 0x088 ≠ 0) :
    expireBatch k d = (d.reach (d.strmIsle k) ((d.sctx k).batchAt + d.reg (pStrm k) 0x088)).completeSlot k true :=
  if_neg (by simp [ha, hw, hl])

theorem timer_expireBatch {s : Nat} (ha : (d.sctx k).active = some s) (hw : (d.sctx k).written ≠ 0) (hl : d.reg (pStrm k) 0x088 ≠ 0) :
    (d.sctx k).batchAt + d.reg (pStrm k) 0x088 ≤ (expireBatch k d).timer ((expireBatch k d).strmIsle k) := by
  have hall := sameNames_of_changesOnly ((expireBatch_changesOnly k d).mono (of_decide_eq_true rfl))
  rw [hall.isle, expireBatch_of_due ha hw hl,
    Dev.timer_of_isles (changesOnly_of_peel (Dev.completeSlot_only _ k true) .isles (by decide))]
  exact Dev.le_timer_reach d _ _

end

section
variable {v : View} {k s : Nat} {d : Dev}

theorem armSlot_of_owned (h : ((d.sctx k).slot s).own = true) : Dev.armSlot v k s d = d := if_pos h

theorem armSlot_of_bad (h : ((d.sctx k).slot s).own = false) (hb : d.armBad k s = true) :
    Dev.armSlot v k s d = (d.err v (pStrm k) 0x0101).strmCnt k 12 1 :=
  (if_neg (by simp [h])).trans (if_pos hb)

theorem armSlot_arms (h : ((d.sctx k).slot s).own = false) (hb : d.armBad k s = false) :
    let y := (Dev.armSlot v k s d).sctx k
    y.slot s = ⟨true, 0, false⟩ ∧ y.slot (1 - s) = (d.sctx k).slot (1 - s) ∧
    y.active = (if (d.sctx k).active.isNone then some s else (d.sctx k).active) ∧ ((d.sctx k).active = none → y.written = 0) := by
  have hactive : ((d.sctx k).setSlot s ⟨true, 0, false⟩).active = (d.sctx k).active := by
    unfold Ctx.setSlot
    split <;> rfl
  rw [Dev.armSlot, if_neg (by simp [h]), if_neg (by simp [hb]), Dev.sctx_updCtx]
  dsimp only
  rw [hactive]
  have hslot := (d.sctx k).slot_setSlot s ⟨true, 0, false⟩
  have hother := (d.sctx k).slot_setSlot_other s ⟨true, 0, false⟩
  split
  · exact ⟨hslot, hother, rfl, fun _ => rfl⟩
  · next hsome => exact ⟨hslot, hother, hactive, fun hnone => absurd (by simp [hnone]) hsome⟩

end

/-! ### Decode engines (R601, R602) -/

/-- A partition has a picture that waits for engine e. -/
def Dev.decoReady (d : Dev) (e : Nat) : Prop := ∃ n, n < 16 ∧ d.decoWeight e n ≠ 0 ∧ d.decoWaiting e n ≠ []

theorem startDecode_of_idle {e : Nat} {d : Dev}
    (h : (d.decoSt e).cur.isSome = true ∨ ¬ d.decoReady e ∨ d.bst ⟨.deco, e⟩ ≠ .running) :
    startDecode e d = d := by
  refine if_pos (h.imp_right (Or.imp_left fun hno => ?_))
  rw [Bool.not_eq_true', List.any_eq_false]
  intro n hn hready
  simp only [Bool.and_eq_true, decide_eq_true_eq, Bool.not_eq_true', List.isEmpty_eq_false_iff] at hready
  exact hno ⟨n, List.mem_range.1 hn, hready⟩

theorem Dev.decoWaiting_of_next {d : Dev} {e n k : Nat} (h : d.decoNext e n = some k) : d.decoWaiting e n ≠ [] := by
  intro hnil
  rw [Dev.decoNext, hnil] at h
  cases hl : (d.decoSt e).lastCtx.find? n <;> simp [hl] at h

/-- Two devices at which the engines choose alike: names, contexts and the last contexts served. -/
theorem Dev.decoNext_of {d d' : Dev} {e : Nat} (hn : SameNames d d') (hx : ∀ k, d'.sctx k = d.sctx k)
    (hl : (d'.decoSt e).lastCtx = (d.decoSt e).lastCtx) (n : Nat) : d'.decoNext e n = d.decoNext e n := by
  have hw : d'.decoWaiting e n = d.decoWaiting e n := by
    unfold Dev.decoWaiting
    simp only [hn.owner, hn.deco, hn.bst, hx]
  unfold Dev.decoNext
  rw [hw, hl]

/-- The engine's round starts on a device with the same streams, from the partition whose turn it is. -/
theorem startDecode_of_ready {e : Nat} {d : Dev} (hc : (d.decoSt e).cur = none) (hr : d.decoReady e)
    (hrun : d.bst ⟨.deco, e⟩ = .running) :
    ∃ d', SameNames d d' ∧ d'.strm = d.strm ∧ startDecode e d = decoRound e 4000 (d.decoSt e).turn false d' := by
  have hkeep : changesOnly [.ctr, .free] d ((d.freeNat 41).2.cnt .pf ⟨.deco, e⟩ 3 (d.freeNat 41).1) := by simp
  obtain ⟨n, hn, hw, hwait⟩ := hr
  have hready : ((List.range 16).any fun n => d.decoWeight e n ≠ 0 && !(d.decoWaiting e n).isEmpty) = true :=
    List.any_eq_true.2 ⟨n, List.mem_range.2 hn, by simp [hw, hwait]⟩
  exact ⟨_, sameNames_of_changesOnly (hkeep.mono (of_decide_eq_true rfl)), hkeep .strm (by decide),
    if_neg (not_or.2 ⟨by simp [hc], not_or.2 ⟨by rw [hready]; decide, by simp [hrun]⟩⟩)⟩

/-- A partition's deficit with its quantum, at the first visit of a round. -/
def Dev.topped (d : Dev) (e n : Nat) (quantum : Bool) : Dev :=
  if quantum then d.updDeco e fun x => { x with deficit := x.deficit.upd 0 n fun c => c + d.decoWeight e n * 1048576 } else d

theorem updDeco_sameNames (d : Dev) (e : Nat) (f : Deco → Deco) : SameNames d (d.updDeco e f) := ⟨rfl, rfl, rfl⟩

section
variable (d : Dev) (e n : Nat) (quantum : Bool)

theorem Dev.topped_sameNames : SameNames d (d.topped e n quantum) := by
  unfold Dev.topped
  split
  · exact updDeco_sameNames d e _
  · exact ⟨rfl, rfl, rfl⟩

theorem Dev.sctx_topped (k : Nat) : (d.topped e n quantum).sctx k = d.sctx k := by
  unfold Dev.topped
  split
  · exact d.sctx_updDeco e _ k
  · rfl

theorem Dev.deficit_topped : ((d.topped e n quantum).decoSt e).deficit.get 0 n =
    if quantum then (d.decoSt e).deficit.get 0 n + d.decoWeight e n * 1048576 else (d.decoSt e).deficit.get 0 n := by
  cases quantum with
  | false => rfl
  | true =>
    unfold Dev.topped
    rw [if_pos rfl, if_pos rfl, Dev.decoSt_updDeco]
    dsimp only
    rw [SMap.get_upd]

/-- The picture of a context goes to the engine. -/
theorem Dev.decoServe_spec {k cost : Nat} {p : Picture} {rest : List Picture} (hp : (d.sctx k).waiting = p :: rest) :
    let e1 := d.decoServe e n k p cost
    (e1.decoSt e).cur = some (k, p, cost) ∧ (e1.decoSt e).deficit.get 0 n = (d.decoSt e).deficit.get 0 n - cost ∧
    (e1.decoSt e).turn = n ∧ (e1.decoSt e).lastCtx.find? n = some k ∧ (e1.sctx k).waiting = rest := by
  unfold Dev.decoServe
  dsimp only
  rw [Dev.decoSt_updDeco, Dev.sctx_updDeco, Dev.sctx_updCtx]
  dsimp only
  rw [SMap.get_upd, SMap.find?_insert, hp]
  exact ⟨rfl, rfl, rfl, rfl, rfl⟩

end

section
variable {e n k : Nat} {d : Dev} {p : Picture} {rest : List Picture}

/-- A visit whose deficit pays, with its quantum added or not. -/
theorem decoRound_serves (fuel : Nat) (quantum : Bool) (hw : d.decoWeight e n ≠ 0) (hnext : d.decoNext e n = some k)
    (hp : (d.sctx k).waiting = p :: rest)
    (hcost : d.picCost k p ≤ ((d.topped e n quantum).decoSt e).deficit.get 0 n) :
    decoRound e (fuel + 1) n quantum d = (d.topped e n quantum).decoServe e n k p (d.picCost k p) := by
  have hp' := (congrArg Ctx.waiting (d.sctx_topped e n quantum k)).trans hp
  have hc := (d.topped_sameNames e n quantum).picCost k p
  rw [← hc] at hcost ⊢
  rw [decoRound, if_neg hw, hnext]
  dsimp only
  rw [← Dev.topped, hp']
  exact if_pos hcost

/-- A partition without weight is passed over, and its deficit is forgotten. -/
theorem decoRound_passes (fuel : Nat) (quantum : Bool) (hw : d.decoWeight e n = 0) :
    decoRound e (fuel + 1) n quantum d =
      decoRound e fuel ((n + 1) % 16) true (d.updDeco e fun x => { x with deficit := x.deficit.erase n }) := by
  rw [decoRound, if_pos hw]

end

section
variable {e n k : Nat} {d : Dev} {p : Picture} {rest : List Picture} (hc : (d.decoSt e).cur = none)
  (hrun : d.bst ⟨.deco, e⟩ = .running) (hn : n < 16) (hw : d.decoWeight e n ≠ 0) (hnext : d.decoNext e n = some k)
  (hp : (d.sctx k).waiting = p :: rest)
include hc hrun hn hw hnext hp

/-- The partition whose turn it is, while its deficit pays (R602). -/
theorem startDecode_serves (ht : (d.decoSt e).turn = n) (hcost : d.picCost k p ≤ (d.decoSt e).deficit.get 0 n) :
    let e1 := startDecode e d
    (e1.decoSt e).cur = some (k, p, d.picCost k p) ∧
    (e1.decoSt e).deficit.get 0 n = (d.decoSt e).deficit.get 0 n - d.picCost k p ∧
    (e1.decoSt e).turn = n ∧ (e1.decoSt e).lastCtx.find? n = some k ∧ (e1.sctx k).waiting = rest := by
  obtain ⟨d', hsame, hstrm, hround⟩ := startDecode_of_ready hc ⟨n, hn, hw, Dev.decoWaiting_of_next hnext⟩ hrun
  have hst := Dev.decoSt_of_strm hstrm e
  have hctx := Dev.sctx_of_strm hstrm
  have hdeficit : ((d'.topped e n false).decoSt e).deficit.get 0 n = (d.decoSt e).deficit.get 0 n := by
    rw [Dev.deficit_topped, if_neg Bool.false_ne_true, hst]
  rw [hround, ht, show 4000 = 3999 + 1 from rfl,
    decoRound_serves 3999 false (by rw [hsame.decoWeight]; exact hw) (by rw [Dev.decoNext_of hsame hctx (by rw [hst])]; exact hnext)
      (by rw [hctx]; exact hp) (by rw [hdeficit, hsame.picCost]; exact hcost), ← hsame.picCost k p, ← hdeficit]
  exact Dev.decoServe_spec _ e n (by rw [Dev.sctx_topped, hctx]; exact hp)

/-- The partition after one without weight, with its quantum (R602). -/
theorem startDecode_serves_next (ht : ((d.decoSt e).turn + 1) % 16 = n) (hne : (d.decoSt e).turn ≠ n)
    (h0 : d.decoWeight e (d.decoSt e).turn = 0)
    (hcost : d.picCost k p ≤ (d.decoSt e).deficit.get 0 n + d.decoWeight e n * 1048576) :
    let e1 := startDecode e d
    (e1.decoSt e).cur = some (k, p, d.picCost k p) ∧
    (e1.decoSt e).deficit.get 0 n = (d.decoSt e).deficit.get 0 n + d.decoWeight e n * 1048576 - d.picCost k p ∧
    (e1.decoSt e).turn = n ∧ (e1.sctx k).waiting = rest := by
  obtain ⟨d', hsame, hstrm, hround⟩ := startDecode_of_ready hc ⟨n, hn, hw, Dev.decoWaiting_of_next hnext⟩ hrun
  have hst := Dev.decoSt_of_strm hstrm e
  have hctx := Dev.sctx_of_strm hstrm
  have hpass := decoRound_passes (d := d') (e := e) (n := (d.decoSt e).turn) 3999 false (by rw [hsame.decoWeight]; exact h0)
  generalize hd2 : d'.updDeco e (fun x => { x with deficit := x.deficit.erase (d.decoSt e).turn }) = d2 at hpass
  have hst2 : d2.decoSt e = { d.decoSt e with deficit := (d.decoSt e).deficit.erase (d.decoSt e).turn } := by
    rw [← hd2, Dev.decoSt_updDeco, hst]
  have hctx2 (j : Nat) : d2.sctx j = d.sctx j := by rw [← hd2, Dev.sctx_updDeco, hctx]
  have hsame2 : SameNames d d2 := by
    have hupd := updDeco_sameNames d' e fun x => { x with deficit := x.deficit.erase (d.decoSt e).turn }
    rw [hd2] at hupd
    exact ⟨hupd.st.trans hsame.st, hupd.regs.trans hsame.regs, hupd.parts.trans hsame.parts⟩
  have hdeficit : ((d2.topped e n true).decoSt e).deficit.get 0 n = (d.decoSt e).deficit.get 0 n + d.decoWeight e n * 1048576 := by
    rw [Dev.deficit_topped, if_pos rfl, hst2, hsame2.decoWeight]
    dsimp only
    rw [SMap.get, SMap.find?_erase_ne _ _ _ hne.symm, ← SMap.get]
  rw [hround, show 4000 = 3999 + 1 from rfl, hpass, ht, show 3999 = 3998 + 1 from rfl,
    decoRound_serves 3998 true (by rw [hsame2.decoWeight]; exact hw)
      (by rw [Dev.decoNext_of hsame2 hctx2 (by rw [hst2])]; exact hnext)
      (by rw [hctx2]; exact hp) (by rw [hdeficit, hsame2.picCost]; exact hcost), ← hsame2.picCost k p, ← hdeficit]
  obtain ⟨hcur, hdef, hturn, -, hwait⟩ :=
    Dev.decoServe_spec (d2.topped e n true) e n (cost := d2.picCost k p) (by rw [Dev.sctx_topped, hctx2]; exact hp)
  exact ⟨hcur, hdef, hturn, hwait⟩

end

/-! ### Decoded pictures (R588, R597, R598) -/

/-- A decoded picture in the active slot, once its bytes and its record are written. -/
def Dev.pictured (d : Dev) (k i : Nat) : Dev :=
  d.updCtx k fun x => { x with drops := 0, written := i + 1, batchAt := if i = 0 then d.timer (d.strmIsle k) else x.batchAt }

/-- The bytes and the record of a picture, written to slot s (R593, R598). -/
def Dev.storePic (d : Dev) (k n s : Nat) (p : Picture) (q : Config.Decoded) : Dev :=
  let i := (d.sctx k).written
  let (bytes, d) := d.tensor k q
  let va := d.slotVa k s 0 + i * d.slotReg k s 0x08
  let work := d.strmVa k 0x078
  let fault := (d.faults n agStrm true va bytes.length).isSome
  let lost := !d.inT1w n work (d.reg (pStrm k) 0x080 * 65536)
  let poison := (piecesOf work (d.reg (pStrm k) 0x080 * 65536)).any fun (x : Nat × Nat) =>
    match d.tr n agStrm false work 1 x.1 with
    | .key g => (d.firstPoison g x.2).isSome
    | _ => false
  let (hit, d) := if poison then d.freeBool 42 else (false, d)
  let d :=
    if fault then
      let d := (d.strmCnt k 15 1).strmEvt k 8
      match d.faults n agStrm true va bytes.length with
      | some (x, c) => d.tierFault n x c agStrm
      | none => d
    else if lost then (d.strmCnt k 15 1).strmEvt k 8
    else
      let d := if hit then d.poisonRead (pStrm k) 1 work (some n) else d
      (d.tWrite n agStrm va bytes (if hit then List.range bytes.length else [])).strmCnt k 2 1
  let status := if fault ∨ lost then 2 else if hit then 3 else 0
  d.strmWrite k n (d.slotVa k s 0x10 + 32 * i) (d.picRecord k p q status) []

theorem storePic_changesOnly (d : Dev) (k n s : Nat) (p : Picture) (q : Config.Decoded) :
    changesOnly besideStreams d (d.storePic k n s p q) := by
  unfold Dev.storePic
  dsimp only
  simp
  intro _
  split <;> simp

theorem Dev.timer_pictured (d : Dev) (k i j : Nat) : (d.pictured k i).timer j = d.timer j := by
  unfold Dev.pictured
  exact Dev.timer_of_isles (changesOnly_of_peel (Dev.updCtx_only d k _) .isles (by decide)) j

theorem pictured_sameNames (d : Dev) (k i : Nat) : SameNames d (d.pictured k i) := by
  unfold Dev.pictured
  exact sameNames_of_changesOnly (by simp)

section
variable {d : Dev} {k n : Nat} {all : List Picture} {q : Config.Decoded}

theorem writePic_eq : Dev.writePic k n all d q =
    match all[q.index]? with
    | none => d
    | some p =>
      if !d.cropOk k q then d.dropPic k 5
      else
        match (d.sctx k).active with
        | none => d.dropPic k 9
        | some s =>
          let e := (d.storePic k n s p q).pictured k (d.sctx k).written
          if (d.sctx k).written + 1 = e.slotReg k s 0x0C then e.completeSlot k false else e := rfl

variable {p : Picture} (hp : all[q.index]? = some p)
include hp

theorem writePic_of_unfit (h : d.cropOk k q = false) : Dev.writePic k n all d q = d.dropPic k 5 := by
  rw [writePic_eq, hp]
  exact if_pos (by simp [h])

theorem writePic_of_no_slot (h : d.cropOk k q = true) (ha : (d.sctx k).active = none) :
    Dev.writePic k n all d q = d.dropPic k 9 := by
  rw [writePic_eq, hp]
  dsimp only
  rw [if_neg (by simp [h]), ha]

/-- A picture that fits is written beside the stream state; then it counts in its batch. -/
theorem writePic_of_slot {s : Nat} (h : d.cropOk k q = true) (ha : (d.sctx k).active = some s) :
    Dev.writePic k n all d q =
      let e := (d.storePic k n s p q).pictured k (d.sctx k).written
      if (d.sctx k).written + 1 = e.slotReg k s 0x0C then e.completeSlot k false else e := by
  rw [writePic_eq, hp]
  dsimp only
  rw [if_neg (by simp [h]), ha]

end

theorem Dev.decoSt_dropPic (d : Dev) (k ctr e : Nat) : (d.dropPic k ctr).decoSt e = d.decoSt e := by
  unfold Dev.dropPic
  dsimp only
  rw [Dev.decoSt_updCtx]
  exact Dev.decoSt_of_strm ((show changesOnly [.hdr, .ctr] d ((d.strmCnt k ctr 1).strmEvt k 4) by simp) .strm (by decide)) e

theorem Dev.decoSt_completeSlot (d : Dev) (k : Nat) (early : Bool) (e : Nat) : (d.completeSlot k early).decoSt e = d.decoSt e := by
  have hwrite (n va : Nat) (b : List Byte) (d : Dev) : (d.strmWrite k n va b []).decoSt e = d.decoSt e :=
    Dev.decoSt_of_strm (changesOnly_of_peel (Dev.strmWrite_only d k n va b []) .strm (by decide)) e
  have hcnt (c v : Nat) (d : Dev) : (d.strmCnt k c v).decoSt e = d.decoSt e :=
    Dev.decoSt_of_strm (changesOnly_of_peel (Dev.strmCnt_only d k c v) .strm (by decide)) e
  have hevt (m : Nat) (d : Dev) : (d.strmEvt k m).decoSt e = d.decoSt e :=
    Dev.decoSt_of_strm (changesOnly_of_peel (Dev.strmEvt_only d k m) .strm (by decide)) e
  have hsignal (w : Word) (p : Fin 16) (src : Nat) (d : Dev) : (d.signal w p src).decoSt e = d.decoSt e :=
    Dev.decoSt_of_strm (changesOnly_of_peel (Dev.signal_only d w p src) .strm (by decide)) e
  unfold Dev.completeSlot
  split
  case h_1 s n _ _ =>
    have hrecords (w : Nat) (xs : List Nat) : (xs.foldl (fun (e : Dev) i =>
        e.strmWrite k n (e.slotVa k s 0x10 + 32 * (w + i) + 0x16) [0xFF#8] []) d).decoSt e = d.decoSt e :=
      foldl_keeps (g := fun d => d.decoSt e) (fun d i => hwrite n _ _ d) xs d
    dsimp only
    split <;> simp only [hcnt, hevt, hsignal, Dev.decoSt_updCtx, hrecords]
  case h_2 => rfl

/-- The engine as a picture leaves it: the picture is counted, and the engine is free. -/
def Dev.handed (d : Dev) (e n : Nat) (p : Picture) (cost : Nat) : Dev :=
  (((d.cntP ⟨.deco, e⟩ 0 1 (some n)).cntP ⟨.deco, e⟩ 1 (p.width * p.height) (some n)).cntP ⟨.deco, e⟩ 2 cost (some n)).updDeco e
    fun x => { x with cur := none }

section
variable (d : Dev) (e n : Nat) (p : Picture) (cost : Nat)

theorem handed_sameNames : SameNames d (d.handed e n p cost) := by
  unfold Dev.handed
  exact sameNames_of_changesOnly (by simp)

theorem Dev.cur_handed : ((d.handed e n p cost).decoSt e).cur = none := by rw [Dev.handed, Dev.decoSt_updDeco]

theorem Dev.sctx_handed (k : Nat) : (d.handed e n p cost).sctx k = d.sctx k :=
  (Dev.sctx_updDeco _ e _ k).trans (Dev.sctx_of_strm ((show changesOnly [.ctr] d
    (((d.cntP ⟨.deco, e⟩ 0 1 (some n)).cntP ⟨.deco, e⟩ 1 (p.width * p.height) (some n)).cntP ⟨.deco, e⟩ 2 cost (some n)) by simp)
    .strm (by decide)) k)

end

theorem flushToIrap_of_calm {d : Dev} {k : Nat} (h : (d.sctx k).waitIrap = false) : d.flushToIrap k = d := if_pos (by simp [h])

/-- What follows a picture at the engine: drops up to the next IRAP picture, and the release of a context that quiesces. -/
def Dev.closePicture (d : Dev) (k : Nat) : Dev :=
  let d := d.flushToIrap k
  if d.bst (pStrm k) = .quiescing then d.releaseSlots k else d

theorem closePicture_of_calm {d : Dev} {k : Nat} (h : (d.sctx k).waitIrap = false) (hrun : d.bst (pStrm k) = .running) :
    d.closePicture k = d := by
  unfold Dev.closePicture
  rw [flushToIrap_of_calm h]
  exact if_neg (by simp [hrun])

section
variable {d : Dev} {e k n : Nat} {p : Picture} {cost : Nat} (refs : List Picture)

theorem putDecoded_none : putDecoded e k n p cost refs none d = ((d.handed e n p cost).dropPic k 6).closePicture k := rfl

theorem putDecoded_some (l : List Config.Decoded) :
    putDecoded e k n p cost refs (some l) d =
      (l.foldl (Dev.writePic k n (refs ++ [p])) (if (d.handed e n p cost).strmCodec k = 1
        then (d.handed e n p cost).updCtx k fun x => { x with refs := refs ++ [p] } else d.handed e n p cost)).closePicture k := rfl

variable (hrun : d.bst (pStrm k) = .running)
include hrun

theorem putDecoded_fails (h0 : d.strmCodec k = 0) (hw : (d.sctx k).waitIrap = false) :
    putDecoded e k n p cost refs none d = (d.handed e n p cost).dropPic k 6 := by
  have hn := handed_sameNames d e n p cost
  have hdrop : SameNames (d.handed e n p cost) ((d.handed e n p cost).dropPic k 6) := sameNames_of_changesOnly (by simp)
  rw [putDecoded_none, closePicture_of_calm ?calm (by rw [hdrop.bst, hn.bst, hrun])]
  rw [Dev.sctx_dropPic, Dev.sctx_handed, hn.codec, h0, Ctx.lost, hw]
  rfl

theorem putDecoded_writes (h0 : d.strmCodec k = 0) {q : Config.Decoded}
    (hw : ((Dev.writePic k n (refs ++ [p]) (d.handed e n p cost) q).sctx k).waitIrap = false) :
    putDecoded e k n p cost refs (some [q]) d = Dev.writePic k n (refs ++ [p]) (d.handed e n p cost) q := by
  have hn := handed_sameNames d e n p cost
  have hwrite : SameNames (d.handed e n p cost) (Dev.writePic k n (refs ++ [p]) (d.handed e n p cost) q) :=
    sameNames_of_changesOnly (by simp)
  have hcodec : ¬ (d.handed e n p cost).strmCodec k = 1 := by
    rw [hn.codec, h0]
    decide
  rw [putDecoded_some, if_neg hcodec, List.foldl_cons, List.foldl_nil, closePicture_of_calm hw (by rw [hwrite.bst, hn.bst, hrun])]

end

/-- What the decoder makes of the picture at the engine. -/
abbrev Dev.decodedOf (d : Dev) (k : Nat) (p : Picture) : Option (List Config.Decoded) :=
  Config.decodePicture (d.strmCodec k) (b2n (d.strmRtp k)) ((d.sctx k).refs.map fun (p : Picture) => p.bytes) p.bytes

theorem endDecode_of_idle {d : Dev} {e : Nat} (h : (d.decoSt e).cur = none) : endDecode e d = d := by
  unfold endDecode
  rw [h]

theorem slotAwake_none (d : Dev) (k n : Nat) : d.slotAwake k n 0 = (true, d) := by
  unfold Dev.slotAwake
  split
  · rfl
  · rw [show ∀ m, Nat.min 0 m = 0 from Nat.zero_min]
    rfl

section
variable {d : Dev} {e k : Nat} {p : Picture} {cost : Nat} (hcur : (d.decoSt e).cur = some (k, p, cost))
include hcur

theorem endDecode_of_no_owner (h : d.strmOwner k = none) : endDecode e d = d.updDeco e fun x => { x with cur := none } := by
  unfold endDecode
  rw [hcur]
  dsimp only
  rw [h]

theorem endDecode_of_owner {n : Nat} (h : d.strmOwner k = some n) :
    endDecode e d =
      if !(d.slotAwake k n ((d.decodedOf k p).getD []).length).1 then (d.slotAwake k n ((d.decodedOf k p).getD []).length).2
      else putDecoded e k n p cost (d.sctx k).refs (d.decodedOf k p) (d.slotAwake k n ((d.decodedOf k p).getD []).length).2 := by
  unfold endDecode
  rw [hcur]
  dsimp only
  rw [h]

variable {n : Nat} (howner : d.strmOwner k = some n) (hrun : d.bst (pStrm k) = .running) (h0 : d.strmCodec k = 0)
  (hw : (d.sctx k).waitIrap = false)
include howner hrun h0 hw

/-- A picture that does not decode is dropped. -/
theorem endDecode_fails (hres : d.decodedOf k p = none) :
    ((endDecode e d).decoSt e).cur = none ∧ ((endDecode e d).sctx k).drops = Nat.min 0xFFFFFFFF ((d.sctx k).drops + 1) := by
  rw [endDecode_of_owner hcur howner, hres, Option.getD_none, List.length_nil, slotAwake_none]
  dsimp only
  rw [Bool.not_true, if_neg Bool.false_ne_true, putDecoded_fails _ hrun h0 hw, Dev.decoSt_dropPic, Dev.cur_handed,
    Dev.sctx_dropPic, Dev.sctx_handed]
  exact ⟨rfl, rfl⟩

omit hw in
/-- A picture that decodes, whose place is awake, is written or dropped on a device with the same streams. -/
theorem endDecode_writes {q : Config.Decoded} (hres : d.decodedOf k p = some [q]) (hawake : (d.slotAwake k n 1).1 = true) :
    ∃ d', SameNames d d' ∧ d'.sctx k = d.sctx k ∧ (d'.decoSt e).cur = none ∧
      (((Dev.writePic k n ((d.sctx k).refs ++ [p]) d' q).sctx k).waitIrap = false →
        endDecode e d = Dev.writePic k n ((d.sctx k).refs ++ [p]) d' q) := by
  have hkeep : changesOnly [.ctr, .mem, .poison, .isles, .tier] d (d.slotAwake k n 1).2 := by simp
  have h1 := sameNames_of_changesOnly (hkeep.mono (of_decide_eq_true rfl))
  have h2 := handed_sameNames (d.slotAwake k n 1).2 e n p cost
  refine ⟨(d.slotAwake k n 1).2.handed e n p cost, ⟨h2.st.trans h1.st, h2.regs.trans h1.regs, h2.parts.trans h1.parts⟩,
    (Dev.sctx_handed _ e n p cost k).trans (Dev.sctx_of_strm (hkeep .strm (by decide)) k), Dev.cur_handed _ e n p cost, fun hcalm => ?_⟩
  rw [endDecode_of_owner hcur howner, hres, Option.getD_some, List.length_singleton, hawake, Bool.not_true, if_neg Bool.false_ne_true]
  exact putDecoded_writes _ (h1.bst _ ▸ hrun) (h1.codec k ▸ h0) hcalm

end

section
variable {d : Dev} {e k n : Nat} {p : Picture} {cost : Nat} {q : Config.Decoded} {pic : Picture}
  (hcur : (d.decoSt e).cur = some (k, p, cost)) (howner : d.strmOwner k = some n) (hrun : d.bst (pStrm k) = .running)
  (h0 : d.strmCodec k = 0) (hw : (d.sctx k).waitIrap = false) (hres : d.decodedOf k p = some [q])
  (hpic : ((d.sctx k).refs ++ [p])[q.index]? = some pic) (hawake : (d.slotAwake k n 1).1 = true)
include hcur howner hrun h0 hw hres hpic hawake

/-- A picture that does not fit or finds no slot is dropped (R591, R597). -/
theorem endDecode_drops (h : d.cropOk k q = false ∨ (d.sctx k).active = none) :
    ((endDecode e d).decoSt e).cur = none ∧ ((endDecode e d).sctx k).drops = Nat.min 0xFFFFFFFF ((d.sctx k).drops + 1) := by
  obtain ⟨d', hn, hx, hfree, hwrites⟩ := endDecode_writes hcur howner hrun h0 hres hawake
  have hdrop : ∃ c, Dev.writePic k n ((d.sctx k).refs ++ [p]) d' q = d'.dropPic k c := by
    by_cases hfit : d'.cropOk k q = true
    · rw [hn.cropOk] at hfit
      exact ⟨9, writePic_of_no_slot hpic (by rw [hn.cropOk]; exact hfit) (by rw [hx]; exact h.resolve_left (by simp [hfit]))⟩
    · exact ⟨5, writePic_of_unfit hpic (by simpa using hfit)⟩
  obtain ⟨c, hdrop⟩ := hdrop
  rw [hdrop] at hwrites
  rw [hwrites (by rw [Dev.sctx_dropPic, hn.codec, h0, hx, Ctx.lost, hw]; rfl), Dev.decoSt_dropPic, hfree, Dev.sctx_dropPic, hx]
  exact ⟨rfl, rfl⟩

/-- A picture that fits goes into the active slot; one that fills it completes the slot (R597–R599). -/
theorem endDecode_stores {slot : Nat} (hfit : d.cropOk k q = true) (ha : (d.sctx k).active = some slot) :
    let x := d.sctx k
    let e1 := endDecode e d
    let y := e1.sctx k
    (x.written + 1 ≠ d.slotReg k slot 0x0C →
      (e1.decoSt e).cur = none ∧ y.drops = 0 ∧ y.written = x.written + 1 ∧ y.active = some slot ∧
      (x.written = 0 → y.batchAt = e1.timer (e1.strmIsle k))) ∧
    (x.written + 1 = d.slotReg k slot 0x0C →
      (e1.decoSt e).cur = none ∧ y.drops = 0 ∧ y.written = 0 ∧ y.slot slot = ⟨false, x.written + 1, false⟩ ∧
      y.active = if (x.slot (1 - slot)).own then some (1 - slot) else none) := by
  obtain ⟨d', hn, hx, hfree, hwrites⟩ := endDecode_writes hcur howner hrun h0 hres hawake
  have hwrite := writePic_of_slot (n := n) hpic (by rw [hn.cropOk]; exact hfit) (by rw [hx]; exact ha)
  have hstore := storePic_changesOnly d' k n slot pic q
  have hs := sameNames_of_changesOnly (hstore.mono (of_decide_eq_true rfl))
  rw [hx] at hwrite
  generalize d'.storePic k n slot pic q = d2 at hwrite hstore hs
  have hctx : (d2.pictured k (d.sctx k).written).sctx k = { d.sctx k with
      drops := 0, written := (d.sctx k).written + 1
      batchAt := if (d.sctx k).written = 0 then d2.timer (d2.strmIsle k) else (d.sctx k).batchAt } := by
    rw [Dev.pictured, Dev.sctx_updCtx, Dev.sctx_of_strm (hstore .strm (by decide)), hx]
  have hpic2 := pictured_sameNames d2 k (d.sctx k).written
  have hpn : SameNames d (d2.pictured k (d.sctx k).written) :=
    ⟨hpic2.st.trans (hs.st.trans hn.st), hpic2.regs.trans (hs.regs.trans hn.regs), hpic2.parts.trans (hs.parts.trans hn.parts)⟩
  have hcur2 : ((d2.pictured k (d.sctx k).written).decoSt e).cur = none := by
    rw [Dev.pictured, Dev.decoSt_updCtx, Dev.decoSt_of_strm (hstore .strm (by decide)), hfree]
  dsimp only at hwrite
  rw [hpn.slotReg] at hwrite
  refine ⟨fun hmore => ?more, fun hfull => ?full⟩
  case more =>
    rw [if_neg hmore] at hwrite
    rw [hwrite] at hwrites
    rw [hwrites (by rw [hctx]; exact hw)]
    refine ⟨hcur2, by rw [hctx], by rw [hctx], by rw [hctx]; exact ha, fun hfirst => ?_⟩
    rw [hctx, hpic2.isle, Dev.timer_pictured]
    exact if_pos hfirst
  case full =>
    rw [if_pos hfull] at hwrite
    rw [hwrite] at hwrites
    have hdone := Dev.sctx_completeSlot (d := d2.pictured k (d.sctx k).written) (s := slot) (n := n) (by rw [hctx]; exact ha)
      (by rw [hpn.owner]; exact howner) false
    obtain ⟨hslot, hwritten, hactive⟩ := Ctx.completed_spec ((d2.pictured k (d.sctx k).written).sctx k) slot false
    have hcalm : (((d2.pictured k (d.sctx k).written).sctx k).completed slot false).waitIrap = false := by
      rw [hctx, ← hw]
      unfold Ctx.completed Ctx.setSlot
      split <;> rfl
    rw [hwrites (by rw [hdone]; exact hcalm), Dev.decoSt_completeSlot, hdone]
    refine ⟨hcur2, ?_, hwritten, ?_, ?_⟩
    · rw [Ctx.completed_drops, hctx]
    · rw [hslot, hctx]
    · rw [hactive, hctx]
      rfl

end

theorem Dev.sctx_finish (d : Dev) (k : Nat) : d.finish.sctx k = d.sctx k := Dev.sctx_of_strm (Dev.finish_strm d) k

theorem Dev.decoSt_finish (d : Dev) (e : Nat) : d.finish.decoSt e = d.decoSt e := Dev.decoSt_of_strm (Dev.finish_strm d) e

theorem Dev.strmIsle_finish (d : Dev) (k : Nat) : d.finish.strmIsle k = d.strmIsle k := by
  unfold Dev.strmIsle Dev.strmDeco
  rw [Dev.reg_finish]

theorem exec_slotArm (v : View) (ctx : Fin 48) (slot : Fin 2) (s : State) :
    exec (.slotArm v ctx slot) s =
      onDev (fun d => d.through v (pStrm ctx.val) (0x11C + 32 * slot.val) (Dev.armSlot v ctx.val slot.val)) s := rfl

/-- Settles O44: each command is one of the cases of its meaning, and what closes a command leaves the streams. -/
theorem streamCommands : Obligations.StreamCommands := by
  refine ⟨?packet, ?timeouts, ?arm, ?start, ?done⟩
  case packet =>
    intro ctx b s k x d0 room lostOne
    have hexec := exec_streamPacket ctx b s
    refine ⟨fun h => becomes_of_onDev hexec (takePacket_of_still h), fun hrun hraw => ?raw, fun hrun hrtp => ?rtp⟩
    case raw =>
      obtain ⟨hbad, hfirst, hlater⟩ := rawPackets k b hrun hraw
      intro flags ident part whole
      refine ⟨fun h => becomes_of_onDev hexec (hbad h), fun hw hf h0 hl hroom => completes_of_onDev hexec ?_, fun a hw hf ha => ?_⟩
      · rw [Dev.sctx_finish]
        exact hfirst hw hf h0 hl hroom
      · obtain ⟨hother, hnext⟩ := hlater a hw hf ha
        refine ⟨fun ho => completes_of_onDev hexec ?_, fun hi hn => ?_⟩
        · rw [Dev.sctx_finish]
          exact hother ho
        · obtain ⟨hlong, hmore, hlast⟩ := hnext hi hn
          refine ⟨fun h => completes_of_onDev hexec ?_, fun h hl => completes_of_onDev hexec ?_, fun h hl => ?_⟩
          · rw [Dev.sctx_finish]
            exact hlong h
          · rw [Dev.sctx_finish, hmore h hl]
            exact ⟨_, rfl, rfl, rfl, rfl⟩
          · intro i hs hz hwait hirap
            refine completes_of_onDev hexec ?_
            rw [Dev.sctx_finish, ← hi]
            exact hlast h hl hs hz hwait hirap
    case rtp =>
      obtain ⟨hbad, hgood⟩ := rtpPackets k b hrun hrtp
      intro src ident seq last after late
      refine ⟨fun h => becomes_of_onDev hexec (hbad h), fun pay hpay => ?_⟩
      obtain ⟨hforeign, hours⟩ := hgood pay hpay
      intro ours
      refine ⟨fun h => becomes_of_onDev hexec (hforeign h), fun h => ?_⟩
      obtain ⟨hseq, hgap, hskipped, hjoins⟩ := hours h
      refine ⟨completes_of_onDev hexec ?_, fun hl => completes_of_onDev hexec ?_, fun hl hs => completes_of_onDev hexec ?_,
        fun a y hl hs ha hi hlast hy hroom => completes_of_onDev hexec ?_⟩
      · rw [Dev.sctx_finish]
        exact hseq
      · rw [Dev.sctx_finish]
        exact hgap hl
      · rw [Dev.sctx_finish]
        exact hskipped hl hs
      · rw [Dev.sctx_finish]
        exact hjoins a y hl hs ha hi hlast hy hroom
  case timeouts =>
    intro ctx s k x
    refine ⟨fun h => becomes_of_onDev (exec_assemblyTimeout ctx s) (expireAssembly_of_idle h), fun a ha hrun =>
      completes_of_onDev (exec_assemblyTimeout ctx s) ?assembly, fun h =>
      becomes_of_onDev (exec_batchTimeout ctx s) (expireBatch_of_idle h), fun q n ha hw hl howner =>
      completes_of_onDev (exec_batchTimeout ctx s) ?batch⟩
    case assembly =>
      rw [Dev.sctx_finish, Dev.timer_finish, Dev.strmIsle_finish]
      exact expireAssembly_drops ha hrun
    case batch =>
      rw [Dev.sctx_finish, Dev.timer_finish, Dev.strmIsle_finish]
      have htimer := timer_expireBatch ha hw hl
      have hctx : (expireBatch k s.dev).sctx k = x.completed q true := by
        rw [expireBatch_of_due ha hw hl]
        exact Dev.sctx_completeSlot (d := s.dev.reach (s.dev.strmIsle k) (x.batchAt + s.dev.reg (pStrm k) 0x088)) (n := n) ha howner true
      obtain ⟨hslot, hwritten, hactive⟩ := x.completed_spec q true
      rw [hctx]
      exact ⟨hslot, hwritten, hactive, htimer⟩
  case arm =>
    intro v ctx slot s k x hopen
    have hexec := exec_slotArm v ctx slot s
    have harm : s.dev.through v (pStrm ctx.val) (0x11C + 32 * slot.val) (Dev.armSlot v ctx.val slot.val) =
      Dev.armSlot v k slot.val s.dev := Dev.through_of_opens hopen _ _
    refine ⟨fun h => becomes_of_onDev hexec (harm.trans (armSlot_of_owned h)), fun h hb =>
      becomes_of_onDev hexec (harm.trans (armSlot_of_bad h hb)), fun h hb => completes_of_onDev hexec ?_⟩
    rw [harm, Dev.sctx_finish]
    exact armSlot_arms h hb
  case start =>
    intro e n k p rest s x ready w cost
    have hexec := exec_decodeStart e s
    refine ⟨fun h => becomes_of_onDev hexec (startDecode_of_idle h), fun hc hrun hn hw hnext hp =>
      ⟨fun ht hcost => completes_of_onDev hexec ?_, fun ht hne h0 hcost => completes_of_onDev hexec ?_⟩⟩
    · rw [Dev.decoSt_finish, Dev.sctx_finish]
      exact startDecode_serves hc hrun hn hw hnext hp ht hcost
    · rw [Dev.decoSt_finish, Dev.sctx_finish]
      exact startDecode_serves_next hc hrun hn hw hnext hp ht hne h0 hcost
  case done =>
    intro e s
    have hexec := exec_decodeDone e s
    refine ⟨fun h => becomes_of_onDev hexec (endDecode_of_idle h), fun k p cost hcur => ?_⟩
    intro x res lostOne
    refine ⟨fun hno => completes_of_onDev hexec ?_, fun n howner hrun h0 hw => ⟨fun hres => completes_of_onDev hexec ?_,
      fun q pic hres hpic hawake => ⟨fun h => completes_of_onDev hexec ?_, fun slot hfit ha =>
        ⟨fun hmore => completes_of_onDev hexec ?_, fun hfull => completes_of_onDev hexec ?_⟩⟩⟩⟩
    · rw [Dev.decoSt_finish, endDecode_of_no_owner hcur hno, Dev.decoSt_updDeco]
    · rw [Dev.decoSt_finish, Dev.sctx_finish]
      exact endDecode_fails hcur howner hrun h0 hw hres
    · rw [Dev.decoSt_finish, Dev.sctx_finish]
      exact endDecode_drops hcur howner hrun h0 hw hres hpic hawake h
    · rw [Dev.decoSt_finish, Dev.sctx_finish, Dev.timer_finish, Dev.strmIsle_finish]
      exact (endDecode_stores hcur howner hrun h0 hw hres hpic hawake hfit ha).1 hmore
    · rw [Dev.decoSt_finish, Dev.sctx_finish]
      exact (endDecode_stores hcur howner hrun h0 hw hres hpic hawake hfit ha).2 hfull

end Sys2Proof.Machine
end

section
/-!
SUPPORT. What sending, relaying and the loss of peers keep of the fabric transport.
-/

namespace Sys2Proof.Machine

open Sys2Proof.Safety


/-! ### What sending keeps of the transport -/

/-- The transport but for what sending and relaying move on: sending flows, seal counters, trees, and which links spoke. -/
def Dev.fabKept (d : Dev) : Fab × (Nat → PLink) :=
  ({ d.fab with links := [], send := [], txCtr := [], exhausted := [], trees := [] }, fun i => { d.link i with spoke := false })

theorem Dev.fabKept_of_fab {d e : Dev} (h : e.fab = d.fab) : e.fabKept = d.fabKept := by
  rw [Dev.fabKept, h, funext fun i => show e.link i = d.link i by rw [Dev.link, h, ← Dev.link], ← Dev.fabKept]

theorem Dev.fabKept_of_changesOnly {l : List Comp} {d e : Dev} (h : changesOnly l d e) (hl : .fab ∉ l) : e.fabKept = d.fabKept :=
  Dev.fabKept_of_fab (h .fab hl)

@[simp] theorem Dev.link_setLink (d : Dev) (i : Nat) (x : PLink) : (d.setLink i x).link i = x := SMap.get_put _ _ _ _

theorem Dev.link_setLink_ne (d : Dev) {i j : Nat} (h : j ≠ i) (x : PLink) : (d.setLink i x).link j = d.link j :=
  SMap.get_put_ne _ _ _ _ _ _ h

@[simp] theorem Dev.link_updLink (d : Dev) (i : Nat) (f : PLink → PLink) : (d.updLink i f).link i = f (d.link i) :=
  d.link_setLink i _

theorem Dev.fabKept_updLink {d : Dev} {i : Nat} {f : PLink → PLink}
    (h : { f (d.link i) with spoke := false } = { d.link i with spoke := false }) : (d.updLink i f).fabKept = d.fabKept := by
  refine Prod.ext rfl (funext fun j => ?_)
  change { (d.updLink i f).link j with spoke := false } = { d.link j with spoke := false }
  by_cases hj : j = i
  · rw [hj, Dev.link_updLink, h]
  · rw [Dev.updLink, Dev.link_setLink_ne _ hj]

section
variable {d e : Dev} (h : e.fabKept = d.fabKept)
include h

theorem Dev.state_of_fabKept : e.fab.state = d.fab.state := congrArg (fun p => p.1.state) h
theorem Dev.fencedId_of_fabKept : e.fab.fencedId = d.fab.fencedId := congrArg (fun p => p.1.fencedId) h
theorem Dev.peers_of_fabKept : e.fab.peers = d.fab.peers := congrArg (fun p => p.1.peers) h
theorem Dev.tblSts_of_fabKept : e.fab.tblSts = d.fab.tblSts := congrArg (fun p => p.1.tblSts) h
theorem Dev.link_of_fabKept (i : Nat) : { e.link i with spoke := false } = { d.link i with spoke := false } :=
  congrFun (congrArg Prod.snd h) i
theorem Dev.linkState_of_fabKept (i : Nat) : (e.link i).state = (d.link i).state := by
  have hlink := congrArg PLink.state (Dev.link_of_fabKept h i)
  exact hlink
theorem Dev.peer_of_fabKept (n : Nat) : e.peer n = d.peer n := by rw [Dev.peer, Dev.peers_of_fabKept h, ← Dev.peer]
theorem Dev.known_of_fabKept (n : Nat) : e.known n = d.known n := by rw [Dev.known, Dev.peer_of_fabKept h, ← Dev.known]

end

section
variable (d : Dev)

theorem Dev.fabKept_exhausted (x : SSet) : ({ d with fab := { d.fab with exhausted := x } } : Dev).fabKept = d.fabKept := rfl

theorem Dev.fabKept_txCtr (x : SMap Nat) : ({ d with fab := { d.fab with txCtr := x } } : Dev).fabKept = d.fabKept := rfl

theorem Dev.fabKept_trees (x : List Tree) : ({ d with fab := { d.fab with trees := x } } : Dev).fabKept = d.fabKept := rfl

theorem Dev.fabKept_send (x : List SendFlow) : ({ d with fab := { d.fab with send := x } } : Dev).fabKept = d.fabKept := rfl

theorem Dev.fabKept_cntP (p : Page) (n v : Nat) (part : Option Nat) : (d.cntP p n v part).fabKept = d.fabKept :=
  Dev.fabKept_of_fab (d.cntP_fab p n v part)

theorem Dev.fabKept_evtP (p : Page) (m : Nat) (part : Option Nat) : (d.evtP p m part).fabKept = d.fabKept :=
  Dev.fabKept_of_fab (d.evtP_fab p m part)

theorem Dev.fabKept_offered (k : Nat) (x : TxItem) : (d.offered k x).fabKept = d.fabKept :=
  Dev.fabKept_of_changesOnly (l := [.eth, .out]) (by simp [Dev.offered]) (by decide)

theorem Dev.fabKept_emit (i type flags part flow ce psn ack : Nat) (body : List Byte) :
    (d.emit i type flags part flow ce psn ack body).fabKept = d.fabKept := by
  unfold Dev.emit
  split
  · rfl
  split
  · split
    · exact Dev.fabKept_of_fab (d.cnt_fab ..)
    · rfl
  extract_lets l slot k ctr ver header qp addr tag pri udp own
  split
  extract_lets item offered spoken fab sealed counted
  have hoffered : offered.fabKept = d.fabKept := d.fabKept_offered l.sub item
  have hspoken : spoken.fabKept = offered.fabKept := Dev.fabKept_updLink rfl
  have hsealed : sealed.fabKept = spoken.fabKept := spoken.fabKept_txCtr _
  have hcounted : counted.fabKept = sealed.fabKept := (Dev.fabKept_cntP _ _ _ _ _).trans (Dev.fabKept_cntP _ _ _ _ _)
  have hkept := hcounted.trans (hsealed.trans (hspoken.trans hoffered))
  split
  · exact hkept
  · rw [Dev.fabKept_cntP, Dev.fabKept_evtP]
    exact (counted.fabKept_exhausted _).trans hkept

theorem Dev.fabKept_emitFlow (f : SendFlow) (p : FlowPkt) (again : Bool) : (d.emitFlow f p again).fabKept = d.fabKept := by
  unfold Dev.emitFlow
  split
  · rfl
  · dsimp only
    split
    · exact (Dev.fabKept_cntP _ _ _ _ _).trans (d.fabKept_emit ..)
    · exact d.fabKept_emit ..

theorem Dev.fabKept_resend (f : SendFlow) (ps : List FlowPkt) :
    (ps.foldl (fun (b : Dev) p => b.emitFlow f p true) d).fabKept = d.fabKept :=
  foldl_keeps (g := Dev.fabKept) (fun b p => b.fabKept_emitFlow f p true) ps d

theorem Dev.fabKept_route (f : SendFlow) : (d.route f).1.fabKept = d.fabKept := by
  unfold Dev.route
  dsimp only
  split
  · split
    · rfl
    · split
      · rfl
      · exact d.fabKept_resend _ _
  · split
    · rfl
    · exact d.fabKept_resend _ _

theorem Dev.fabKept_pump (t n : Nat) (f : SendFlow) : (pump t n d f).1.fabKept = d.fabKept := by
  induction n generalizing d f with
  | zero => rfl
  | succ n ih =>
    unfold pump
    split
    · rfl
    · split
      · exact (ih _ _).trans (d.fabKept_emitFlow _ _ false)
      · rfl

theorem Dev.fabKept_runFlow (f : SendFlow) : (d.runFlow f).fabKept = d.fabKept := by
  have hpump := (d.route f).1.fabKept_pump ((d.route f).1.timer ioIsle) (d.route f).2.waiting.length (d.route f).2
  exact (Dev.fabKept_send _ _).trans (hpump.trans (d.fabKept_route f))

theorem Dev.fabKept_runFlows : d.runFlows.fabKept = d.fabKept := by
  unfold Dev.runFlows
  exact foldl_keeps (g := Dev.fabKept) (fun b _ => b.fabKept_runFlow _) _ d

theorem Dev.fabKept_fabSend (dev part cls type : Nat) (msg : List Byte) :
    (d.fabSend dev part cls type msg).fabKept = d.fabKept := by
  unfold Dev.fabSend
  dsimp only
  refine (Dev.fabKept_runFlow _ _).trans ?_
  split
  · exact (Dev.fabKept_cntP _ _ _ _ _).trans (d.fabKept_route _)
  · exact d.fabKept_route _

theorem Dev.fabKept_treeCtrl (t : Tree) (node code off : Nat) : (d.treeCtrl t node code off).fabKept = d.fabKept := by
  unfold Dev.treeCtrl
  split
  · rfl
  · exact d.fabKept_fabSend ..

theorem Dev.fabKept_treeEnd (t : Tree) (status : Nat) : (d.treeEnd t status).fabKept = d.fabKept := by
  unfold Dev.treeEnd
  extract_lets n marked written
  have hwritten : written.fabKept = d.fabKept :=
    Dev.fabKept_of_changesOnly (l := [.hdr, .ctr, .mem, .poison, .cores, .tier]) (by simp [written, marked]) (by decide)
  have hgone : (written.delTree t).fabKept = written.fabKept := written.fabKept_trees _
  have hsignal : ((written.delTree t).signal t.sig t.part srcTree).fabKept = (written.delTree t).fabKept :=
    Dev.fabKept_of_changesOnly (changesOnly_of_peel (Dev.signal_only _ t.sig t.part srcTree)) (by decide)
  exact hsignal.trans (hgone.trans hwritten)

theorem Dev.fabKept_treeCheck (t : Tree) : (d.treeCheck t).fabKept = d.fabKept := by
  unfold Dev.treeCheck
  split
  · exact d.fabKept_treeEnd t _
  · exact d.fabKept_trees _

theorem Dev.fabKept_poisonRead (p : Page) (r va : Nat) (part : Option Nat) : (d.poisonRead p r va part).fabKept = d.fabKept :=
  Dev.fabKept_of_changesOnly (changesOnly_of_peel (Dev.poisonRead_only d p r va part)) (by decide)

theorem Dev.fabKept_tRead (n agent va len : Nat) : (d.tRead n agent va len).2.fabKept = d.fabKept :=
  Dev.fabKept_of_changesOnly (changesOnly_of_peel (Dev.tRead_only d n agent va len)) (by decide)

end

theorem Dev.fabKept_treeFeed (a : Dev × Tree × Bool) (node : Nat) : (Dev.treeFeed a node).1.fabKept = a.1.fabKept := by
  obtain ⟨d, t, bad⟩ := a
  unfold Dev.treeFeed
  dsimp only
  split
  · rfl
  split
  · rfl
  split
  · split
    · exact (Dev.fabKept_poisonRead _ _ _ _ _).trans (d.fabKept_tRead ..)
    · exact d.fabKept_tRead ..
  · dsimp only
    split
    · exact (Dev.fabKept_fabSend ..).trans (d.fabKept_tRead ..)
    · exact d.fabKept_tRead ..

theorem Dev.fabKept_treeFeeds (nodes : List Nat) (a : Dev × Tree × Bool) : (nodes.foldl Dev.treeFeed a).1.fabKept = a.1.fabKept :=
  List.foldlRecOn nodes Dev.treeFeed (motive := fun b => b.1.fabKept = a.1.fabKept) rfl
    fun b hb node _ => (Dev.fabKept_treeFeed b node).trans hb

section
variable (d : Dev)

theorem Dev.fabKept_readySpans (part : Nat) (spans : List (Nat × Nat)) : (d.readySpans part spans).2.fabKept = d.fabKept :=
  List.foldlRecOn spans _ (motive := fun b : Bool × Dev => b.2.fabKept = d.fabKept) rfl fun b hb x _ =>
    (Dev.fabKept_of_changesOnly (changesOnly_of_peel (Dev.prepare_only b.2 part agEngine false x.1 x.2)) (by decide)).trans hb

theorem Dev.fabKept_treePump (t : Tree) : (d.treePump t).fabKept = d.fabKept := by
  unfold Dev.treePump
  extract_lets go spans
  dsimp only
  split
  · exact d.fabKept_readySpans _ _
  split
  · exact (Dev.fabKept_treeEnd _ _ _).trans ((Dev.fabKept_treeFeeds _ _).trans (d.fabKept_readySpans _ _))
  · exact (Dev.fabKept_treeCheck _ _).trans ((Dev.fabKept_treeFeeds _ _).trans (d.fabKept_readySpans _ _))

theorem Dev.fabKept_regraft (t : Tree) (srv : Nat) : (d.regraft t srv).fabKept = d.fabKept := by
  unfold Dev.regraft
  split
  · exact d.fabKept_treeEnd t 2
  · exact (Dev.fabKept_trees _ _).trans (d.fabKept_treeCtrl ..)

theorem Dev.fabKept_treeLost (dev : Nat) (t : Tree) : (Dev.treeLost dev d t).fabKept = d.fabKept := by
  unfold Dev.treeLost
  dsimp only
  split
  · exact d.fabKept_treeEnd t 2
  split
  · exact d.fabKept_treePump _
  split
  · exact d.fabKept_regraft _ _
  split
  · exact d.fabKept_treePump _
  · rfl

theorem Dev.fabKept_treesLost (dev : Nat) : (d.treesLost dev).fabKept = d.fabKept :=
  foldl_keeps (g := Dev.fabKept) (fun b t => b.fabKept_treeLost dev t) d.fab.trees d

theorem Dev.fabKept_peerLost (dev : Nat) : (d.peerLost dev).fabKept = d.fabKept :=
  Dev.fabKept_of_changesOnly (changesOnly_of_peel (Dev.peerLost_only d dev)) (by decide)

theorem Dev.fabKept_endTrees : d.endTrees.fabKept = d.fabKept :=
  foldl_keeps (g := Dev.fabKept) (fun b t => b.fabKept_treeEnd t 2) d.fab.trees d

end

end Sys2Proof.Machine
end

section
/-!
SUPPORT. O43: the transport's timed events, its identity and its table window.
-/

namespace Sys2Proof.Machine

open Sys2Proof.Safety


section
variable (s : State) (v : View)

theorem exec_helloResend {i : Nat} (hi : i < 1024) : exec (.helloResend i) s = onDev (helloAgain i) s := if_pos (decide_eq_true hi)
theorem exec_keepaliveSend {i : Nat} (hi : i < 1024) : exec (.keepaliveSend i) s = onDev (kaSend i) s := if_pos (decide_eq_true hi)
theorem exec_ackDelayExpire (dev flow : BitVec 16) : exec (.ackDelayExpire dev flow) s = onDev (ackDelay dev flow) s := rfl
theorem exec_retransmitTimeout (dev flow : BitVec 16) : exec (.retransmitTimeout dev flow) s = onDev (rtoFlow dev flow) s := rfl
theorem exec_rateWindow : exec .rateWindow s = onDev rateEnd s := rfl
theorem exec_keepaliveCheck : exec .keepaliveCheck s = onDev kaCheck s := rfl

theorem exec_identity {k : (View → Word → Instr) × Nat} (w : Word)
    (hk : k ∈ ([(.fabtSelfWrite, 0x040), (.fabtEpochWrite, 0x044)] : List ((View → Word → Instr) × Nat))) :
    exec (k.1 v w) s = onDev (identityWrite v k.2 w) s := by
  simp only [List.mem_cons, List.not_mem_nil, or_false] at hk
  rcases hk with rfl | rfl <;> rfl

end

/-! ### HELLO and KEEPALIVE by the clock (R516, R527) -/

section
variable {d : Dev} {i : Nat}

theorem Dev.link_of_fab {d e : Dev} (h : e.fab = d.fab) (i : Nat) : e.link i = d.link i := by rw [Dev.link, h, ← Dev.link]

theorem Dev.link_finish (d : Dev) (i : Nat) : d.finish.link i = d.link i := Dev.link_of_fab (Dev.finish_fab d) i

theorem Dev.timer_emit (d : Dev) (i type flags part flow ce psn ack : Nat) (body : List Byte) (j : Nat) :
    (d.emit i type flags part flow ce psn ack body).timer j = d.timer j :=
  Dev.timer_of_isles (changesOnly_of_peel (Dev.emit_only d i type flags part flow ce psn ack body) .isles (by decide)) j

/-- A link that has sent HELLO waits for its answer; all else of it but what marks that it spoke stays. -/
theorem Dev.link_sendHello (d : Dev) (i : Nat) :
    { (d.sendHello i).link i with spoke := false } =
      { d.link i with spoke := false, state := .hello, sent := true, helloAt := d.timer ioIsle } := by
  have h := Dev.link_of_fabKept (d.fabKept_emit i 5 0 255 0x0FF0 0 0 0 (d.helloBody 0 0)) i
  rw [Dev.sendHello, Dev.link_updLink]
  exact congrArg (fun l : PLink => { l with state := .hello, sent := true, helloAt := d.timer ioIsle }) h

theorem Dev.tblSts_sendHello (d : Dev) (i : Nat) : (d.sendHello i).fab.tblSts = d.fab.tblSts := by
  rw [Dev.sendHello, show ∀ (e : Dev) f, (e.updLink i f).fab.tblSts = e.fab.tblSts from fun _ _ => rfl]
  exact Dev.tblSts_of_fabKept (d.fabKept_emit ..)

theorem Dev.timer_sendHello (d : Dev) (i j : Nat) : (d.sendHello i).timer j = d.timer j :=
  Dev.timer_of_isles (changesOnly_of_peel (Dev.sendHello_only d i) .isles (by decide)) j

theorem helloAgain_of_answered (h : (d.link i).state ≠ .hello ∨ (d.link i).got = true) : helloAgain i d = d := by
  refine if_neg fun ⟨_, _, hstate, hgot⟩ => ?_
  rcases h with h | h
  · exact h hstate
  · simp [h] at hgot

theorem helloAgain_of_waiting (hm : d.fab.state = .member) (hv : (d.link i).valid = true) (hs : (d.link i).state = .hello)
    (hg : (d.link i).got = false) : helloAgain i d = (d.reach ioIsle ((d.link i).helloAt + 100000)).sendHello i :=
  if_pos ⟨hm, hv, hs, by simp [hg]⟩

theorem kaSend_of_quiet (hs : (d.link i).state = .up) (hq : (d.link i).spoke = false) (hm : d.fab.state = .member) :
    kaSend i d = (d.emit i 4 0 255 0x0FF0 0 0 0 (zbytes 8)).cnt .pf pFabt 17 1 :=
  if_pos ⟨hs, by simp [hq], hm⟩

theorem kaSend_of_other (h : (d.link i).state ≠ .up ∨ (d.link i).spoke = true) : kaSend i d = d := by
  refine if_neg fun ⟨hs, hq, _⟩ => ?_
  rcases h with h | h
  · exact h hs
  · simp [h] at hq

end

/-! ### Flows by the clock (R523–R525) -/

/-- A flow that stands last, after those that a test does not find, is the one found. -/
theorem find?_filter_append {α : Type} {p : α → Bool} {x : α} (hx : p x = true) (l : List α) :
    (l.filter (fun y => !p y) ++ [x]).find? p = some x := by
  have hnone : (l.filter fun y => !p y).find? p = none := by
    rw [List.find?_eq_none]
    intro y hy
    simpa using (List.mem_filter.1 hy).2
  rw [List.find?_append, hnone, List.find?_singleton, hx]
  rfl

/-- Flow (dev, flow), among receiving and among sending flows. -/
abbrev isRecv (dev flow : Nat) (f : RecvFlow) : Bool := f.dev == dev && f.flow == flow
abbrev isSend (dev flow : Nat) (f : SendFlow) : Bool := f.dev == dev && f.flow == flow

theorem Dev.find?_setRecvFlow (d : Dev) (f : RecvFlow) : (d.setRecvFlow f).fab.recv.find? (isRecv f.dev f.flow) = some f :=
  find?_filter_append (p := isRecv f.dev f.flow) (by simp [isRecv]) d.fab.recv

theorem Dev.find?_setSendFlow (d : Dev) (f : SendFlow) : (d.setSendFlow f).fab.send.find? (isSend f.dev f.flow) = some f :=
  find?_filter_append (p := isSend f.dev f.flow) (by simp [isSend]) d.fab.send

theorem isRecv_iff (dev flow : Nat) (f : RecvFlow) : isRecv dev flow f = true ↔ f.dev = dev ∧ f.flow = flow := by simp [isRecv]
theorem isSend_iff (dev flow : Nat) (f : SendFlow) : isSend dev flow f = true ↔ f.dev = dev ∧ f.flow = flow := by simp [isSend]

section
variable {d : Dev} {dev flow : BitVec 16}

theorem ackDelay_of_none (h : d.fab.recv.find? (isRecv dev.toNat flow.toNat) = none) : ackDelay dev flow d = d := by
  rw [ackDelay, h]

/-- The owed ACK goes out, and the flow owes none (R523). -/
theorem ackDelay_of_owed {f : RecvFlow} {t : Nat} (h : d.fab.recv.find? (isRecv dev.toNat flow.toNat) = some f) (ht : f.first = some t) :
    (ackDelay dev flow d).fab.recv.find? (isRecv dev.toNat flow.toNat) = some { f with since := 0, first := none, ce := 0 } ∧
    t + 500 ≤ (ackDelay dev flow d).timer ioIsle := by
  have hown : f.dev = dev.toNat ∧ f.flow = flow.toNat := (isRecv_iff _ _ f).1 (List.find?_some h)
  have hack : ackDelay dev flow d = (d.reach ioIsle (t + 500)).sendAck f := by
    rw [ackDelay, h]
    dsimp only
    rw [ht]
  rw [hack, Dev.sendAck]
  refine ⟨?_, ?_⟩
  · rw [← hown.1, ← hown.2]
    exact Dev.find?_setRecvFlow _ { f with since := 0, first := none, ce := 0 }
  · refine Nat.le_trans (d.le_timer_reach ioIsle (t + 500)) (Nat.le_of_eq ?_)
    exact (Dev.timer_emit (d.reach ioIsle (t + 500)) f.link 2 0 (flowPart f.flow) f.flow (Nat.min 255 f.ce) 0 f.e
      (ackBitmap f) ioIsle).symm

theorem rtoFlow_of_none (h : d.fab.send.find? (isSend dev.toNat flow.toNat) = none) : rtoFlow dev flow d = d := by
  rw [rtoFlow, h]

theorem Dev.timer_resend (d : Dev) (f : SendFlow) (ps : List FlowPkt) (j : Nat) :
    (ps.foldl (fun (b : Dev) p => b.emitFlow f p true) d).timer j = d.timer j :=
  foldl_keeps (g := fun b => b.timer j)
    (fun b p => Dev.timer_of_isles (changesOnly_of_peel (Dev.emitFlow_only b f p true) .isles (by decide)) j) ps d

/-- A flow as a timeout at time t leaves it: what waited lim ticks was sent again, and the timeout doubles up to top. -/
def SendFlow.timedOut (f : SendFlow) (t lim top : Nat) : SendFlow :=
  { f with
    unacked := f.unacked.map fun (q : FlowPkt) => if decide (q.at_ + lim ≤ t) then { q with at_ := t } else q
    k := Nat.min (f.k + 1) top }

theorem SendFlow.psn_timedOut (f : SendFlow) (t lim top : Nat) : (f.timedOut t lim top).unacked.map (·.psn) = f.unacked.map (·.psn) := by
  rw [SendFlow.timedOut, List.map_map]
  refine List.map_congr_left fun q _ => ?_
  dsimp only [Function.comp]
  split <;> rfl

/-- The time at which the oldest packet of a flow, p or another, has waited for the timeout. -/
def Dev.rtoTime (d : Dev) (f : SendFlow) (p : FlowPkt) : Nat :=
  f.unacked.foldl (fun m (q : FlowPkt) => Nat.min m q.at_) p.at_ + d.rto f.k

theorem rtoFlow_of_some {f : SendFlow} {p : FlowPkt} {ps : List FlowPkt}
    (h : d.fab.send.find? (isSend dev.toNat flow.toNat) = some f) (hp : f.unacked = p :: ps) :
    rtoFlow dev flow d =
      let e := d.reach ioIsle (d.rtoTime f p)
      ((f.unacked.filter fun q => decide (q.at_ + e.rto f.k ≤ e.timer ioIsle)).foldl (fun b q => b.emitFlow f q true) e).setSendFlow
        (f.timedOut (e.timer ioIsle) (e.rto f.k) (Nat.min 10 (bits (e.reg pFabt 0x054) 23 20))) := by
  rw [rtoFlow, h]
  dsimp only
  split
  case h_1 hnil => rw [hnil] at hp; cases hp
  case h_2 q qs hq =>
    obtain ⟨rfl, rfl⟩ : q = p ∧ qs = ps := by simpa [hq] using hp
    rfl

/-- The packets that are due go again, and the timeout doubles up to its limit (R524). -/
theorem rtoFlow_of_due {f : SendFlow} {p : FlowPkt} {ps : List FlowPkt} (h : d.fab.send.find? (isSend dev.toNat flow.toNat) = some f)
    (hp : f.unacked = p :: ps) :
    ∃ g, (rtoFlow dev flow d).fab.send.find? (isSend dev.toNat flow.toNat) = some g ∧
      g.k = Nat.min (f.k + 1) (Nat.min 10 (bits (d.reg pFabt 0x054) 23 20)) ∧ g.unacked.map (·.psn) = f.unacked.map (·.psn) ∧
      g.waiting = f.waiting ∧ d.rtoTime f p ≤ (rtoFlow dev flow d).timer ioIsle := by
  obtain ⟨hdev, hflow⟩ := (isSend_iff _ _ f).1 (List.find?_some h)
  rw [rtoFlow_of_some h hp, ← hdev, ← hflow]
  refine ⟨_, Dev.find?_setSendFlow _ (f.timedOut _ _ _), rfl, f.psn_timedOut _ _ _, rfl, ?_⟩
  exact Nat.le_trans (d.le_timer_reach ioIsle _) (Nat.le_of_eq ((d.reach ioIsle (d.rtoTime f p)).timer_resend f _ ioIsle).symm)

end

/-- A flow's rate at the end of a window, by what was acknowledged and marked (R525). -/
theorem ccRate_eq (line ai rmin : Nat) (f : SendFlow) :
    ccRate line ai rmin f =
      if f.acked = 0 then Nat.min f.rate line
      else if f.marked = 0 then Nat.min (f.rate + ai) line
      else Nat.min line (Nat.max rmin (f.rate - f.rate * Nat.min f.marked f.acked / (2 * f.acked))) := by
  unfold ccRate
  dsimp only
  split
  · rfl
  · split
    · change min (min line (f.rate + ai)) line = min (f.rate + ai) line
      omega
    · exact Nat.min_comm _ _

theorem rateEnd_send (d : Dev) :
    (rateEnd d).fab.send = d.fab.send.map fun (f : SendFlow) => { f with
      acked := 0
      marked := 0
      rate := match f.link with
        | none => f.rate
        | some i =>
          if f.acked = 0 then Nat.min f.rate (d.lineRate i)
          else if f.marked = 0 then Nat.min (f.rate + 1000 * bits (d.reg pFabt 0x058) 23 16) (d.lineRate i)
          else Nat.min (d.lineRate i) (Nat.max (1000 * Nat.max 1 (bits (d.reg pFabt 0x058) 31 24))
            (f.rate - f.rate * Nat.min f.marked f.acked / (2 * f.acked))) } := by
  refine List.map_congr_left fun f _ => ?_
  simp only [ccRate_eq]
  cases f.link <;> rfl

/-! ### The loss of links and peers (R528, R529) -/

/-- A peer that is declared dead, before what the other units lose with it. -/
def Dev.buried (d : Dev) (n : Nat) : Dev :=
  let d := d.dropFlows fun dev _ => dev == n
  let d := match d.peer n with
    | some p => d.setPeer n { p with state := .dead }
    | none => d
  { d with fab := { d.fab with synCtr := d.fab.synCtr.dropRange (n * 512) ((n + 1) * 512) } }

theorem declareDead_eq (d : Dev) (n : Nat) :
    d.declareDead n = ((((d.buried n).evtAll pFabt 1).cnt .pf pFabt 19 1).peerLost n).treesLost n := rfl

theorem Dev.fabKept_declareDead (d : Dev) (n : Nat) : (d.declareDead n).fabKept = (d.buried n).fabKept := by
  rw [declareDead_eq, Dev.fabKept_treesLost, Dev.fabKept_peerLost]
  exact Dev.fabKept_of_fab ((Dev.cnt_fab ..).trans (Dev.evtAll_fab ..))

theorem Dev.link_buried (d : Dev) (n i : Nat) : (d.buried n).link i = d.link i := by
  unfold Dev.buried
  dsimp only
  split <;> rfl

theorem Dev.peer_buried {d : Dev} {n : Nat} {p : Peer} (h : d.peer n = some p) : (d.buried n).peer n = some { p with state := .dead } := by
  have hdrop : (d.dropFlows fun dev _ => dev == n).peer n = some p := h
  unfold Dev.buried
  dsimp only
  rw [hdrop]
  exact SMap.find?_insert _ _ _

theorem Dev.state_declareDead (d : Dev) (n i : Nat) : ((d.declareDead n).link i).state = (d.link i).state :=
  (Dev.linkState_of_fabKept (d.fabKept_declareDead n) i).trans (by rw [Dev.link_buried])

/-- A map of one entry, with that entry changed. -/
theorem SMap.mem_put_single {α : Type} [DecidableEq α] {dflt a v : α} {i : Nat} {e : Nat × α}
    (h : e ∈ SMap.put [(i, a)] dflt i v) : e = (i, v) := by
  unfold SMap.put at h
  split at h
  · simp [SMap.erase] at h
  · simpa [SMap.insert] using h

theorem SMap.put_single {α : Type} [DecidableEq α] {dflt v : α} (i : Nat) (a : α) (h : v ≠ dflt) :
    SMap.put [(i, a)] dflt i v = [(i, v)] := by
  rw [SMap.put, if_neg h]
  simp [SMap.insert]

/-- The only link goes down, and its device is dead (R529). -/
theorem linkDown_of_only {d : Dev} {i : Nat} {l : PLink} (hl : d.fab.links = [(i, l)]) (hs : l.state = .up) :
    ((d.linkDown i).link i).state = .down ∧
    ∀ p, d.peer l.dev = some p → (d.linkDown i).peer l.dev = some { p with state := .dead } := by
  have hi : d.link i = l := by simp [Dev.link, hl, SMap.get, SMap.find?]
  have hdown (f : PLink → PLink) (hf : (f l).state = .down) (n : Nat) :
      ((d.updLink i f).fab.links.any fun (e : Nat × PLink) => e.2.state == .up && e.2.dev == n) = false := by
    rw [List.any_eq_false]
    intro e he
    have he' : e ∈ SMap.put [(i, l)] .reset i (f l) := by rwa [← hl, ← hi]
    simp [SMap.mem_put_single he', hf]
  unfold Dev.linkDown
  dsimp only
  rw [hi, if_neg (not_not.2 hs), hdown _ rfl, if_neg Bool.false_ne_true]
  refine ⟨?_, fun p hp => ?_⟩
  · rw [Dev.state_declareDead, Dev.link_updLink]
  · rw [Dev.peer_of_fabKept (Dev.fabKept_declareDead _ _)]
    exact Dev.peer_buried hp

section
variable {d : Dev} {i : Nat} {l : PLink} (hl : d.fab.links = [(i, l)])
include hl

/-- The keepalive boundary on a device with one link looks at that link (R528). -/
theorem kaCheck_of_only : ∃ e, e.fab = d.fab ∧ kaCheck d = kaLink (Nat.max 1 (bits (d.reg pFabt 0x050) 27 20)) e i := by
  refine ⟨d.reach ioIsle ((d.timer ioIsle + Nat.max 1000 (bits (d.reg pFabt 0x050) 19 0) - 1) /
    Nat.max 1000 (bits (d.reg pFabt 0x050) 19 0) * Nat.max 1000 (bits (d.reg pFabt 0x050) 19 0)), rfl, ?_⟩
  unfold kaCheck
  dsimp only
  rw [show ∀ t, (d.reach ioIsle t).fab = d.fab from fun _ => rfl, hl]
  rfl

theorem Dev.link_of_only : d.link i = l := by simp [Dev.link, hl, SMap.get, SMap.find?]

variable (hs : l.state = .up)
include hs

theorem kaLink_of_heard (hh : l.heard = true) (dead : Nat) :
    (kaLink dead d i).link i = { l with misses := 0, heard := false, spoke := false } := by
  unfold kaLink
  dsimp only
  rw [Dev.link_of_only hl, if_neg (not_not.2 hs), if_pos hh, Dev.link_setLink]

theorem kaLink_of_missed (hh : l.heard = false) {dead : Nat} (hd : l.misses + 1 < dead) :
    (kaLink dead d i).link i = { l with misses := l.misses + 1, spoke := false } := by
  unfold kaLink
  dsimp only
  rw [Dev.link_of_only hl, if_neg (not_not.2 hs), if_neg (by simp [hh]), if_neg (Nat.not_le.2 hd), Dev.link_of_fab (Dev.cnt_fab ..),
    Dev.link_setLink]

theorem kaLink_of_lost (hh : l.heard = false) {dead : Nat} (hd : dead ≤ l.misses + 1) :
    ((kaLink dead d i).link i).state = .down ∧
    ∀ p, d.peer l.dev = some p → (kaLink dead d i).peer l.dev = some { p with state := .dead } := by
  have hne : ({ l with misses := l.misses + 1, spoke := false } : PLink) ≠ .reset := by
    intro h
    have hstate := congrArg PLink.state h
    rw [hs] at hstate
    cases hstate
  have hlinks : ((d.setLink i { l with misses := l.misses + 1, spoke := false }).cnt .pf pFabt 18 1).fab.links =
      [(i, { l with misses := l.misses + 1, spoke := false })] := by
    rw [Dev.cnt_fab]
    exact (congrArg (fun m => SMap.put m .reset i _) hl).trans (SMap.put_single i l hne)
  unfold kaLink
  dsimp only
  rw [Dev.link_of_only hl, if_neg (not_not.2 hs), if_neg (by simp [hh]), if_pos hd]
  exact linkDown_of_only (l := { l with misses := l.misses + 1, spoke := false }) hlinks hs

end

/-! ### Identity (R534, R535) -/

section
variable {d : Dev} {off : Nat} {w : Word} (hopen : opens d .pf pFabt)
include hopen

/-- The identity is the fenced one, or an older one of its number. -/
def Dev.refenced (d e : Dev) : Prop := ∃ x, d.fab.fencedId = some x ∧ e.selfDev = x.1 ∧ e.selfEpoch ≤ x.2

omit hopen in
theorem refenced_iff (d e : Dev) :
    (d.fab.fencedId.any fun (x : Nat × Nat) => e.selfDev == x.1 && decide (e.selfEpoch ≤ x.2)) = true ↔ d.refenced e := by
  simp [Dev.refenced, Option.any_eq_true]

theorem identityWrite_of_enabled (h : d.bst pFabt ≠ .disabled) : identityWrite .pf off w d = d.err .pf pFabt 0x0101 := by
  rw [identityWrite, Dev.privOnly_of_opens hopen]
  exact if_pos h

variable (hd : d.bst pFabt = .disabled)
include hd

theorem identityWrite_of_fenced (h : d.refenced (d.wrReg .pf pFabt off w)) : identityWrite .pf off w d = d.err .pf pFabt 0x0101 := by
  rw [identityWrite, Dev.privOnly_of_opens hopen]
  exact (if_neg (not_not.2 hd)).trans (if_pos ((refenced_iff _ _).2 h))

variable (h : ¬ d.refenced (d.wrReg .pf pFabt off w))
include h

theorem identityWrite_of_same (hdev : (d.wrReg .pf pFabt off w).selfDev = d.selfDev)
    (hepoch : (d.wrReg .pf pFabt off w).selfEpoch = d.selfEpoch) : identityWrite .pf off w d = d.wrReg .pf pFabt off w := by
  rw [identityWrite, Dev.privOnly_of_opens hopen]
  exact (if_neg (not_not.2 hd)).trans ((if_neg (mt (refenced_iff _ _).1 h)).trans (if_pos ⟨hdev, hepoch⟩))

theorem identityWrite_of_new
    (hne : (d.wrReg .pf pFabt off w).selfDev ≠ d.selfDev ∨ (d.wrReg .pf pFabt off w).selfEpoch ≠ d.selfEpoch) :
    identityWrite .pf off w d =
      let e := d.wrReg .pf pFabt off w
      { e with fab := { e.fab with
          send := [], recv := [], state := .off
          txCtr := if e.selfEpoch = d.selfEpoch then e.fab.txCtr else []
          exhausted := if e.selfEpoch = d.selfEpoch then e.fab.exhausted else [] } } := by
  rw [identityWrite, Dev.privOnly_of_opens hopen]
  exact (if_neg (not_not.2 hd)).trans ((if_neg (mt (refenced_iff _ _).1 h)).trans
    (if_neg fun ⟨hdev, hepoch⟩ => hne.elim (· hdev) (· hepoch)))

end

/-! ### The table window (R507) -/

theorem fld4_lt (b : List Byte) (off : Nat) : fld b off 4 < 2 ^ 32 := by
  refine Nat.lt_of_lt_of_le (leNat_lt _) ?_
  refine (Nat.pow_le_pow_right (by decide) (n := 256) ((List.length_take_le 4 _))).trans (by decide)

theorem Dev.fab_tblShow (d : Dev) (b : List Byte) : (d.tblShow b).fab = d.fab :=
  foldl_keeps (g := Dev.fab) (f := fun d w => d.setReg pFabt (0x080 + 4 * w) (fld b (4 * w) 4)) (fun _ _ => rfl) _ d

theorem Dev.reg_tblShow (d : Dev) (b : List Byte) {n : Nat} (hn : n < 8) : (d.tblShow b).reg pFabt (0x080 + 4 * n) = fld b (4 * n) 4 :=
  (foldl_updates_each (get := fun (d : Dev) n => d.reg pFabt (0x080 + 4 * n)) (g := fun n _ => fld b (4 * n) 4)
    (fun d i => (d.reg_setReg pFabt _ _).trans (Nat.mod_eq_of_lt (fld4_lt b _))) (fun d i k hk => d.reg_setReg_ne pFabt (by omega) _)
    List.nodup_range d n).trans (if_pos (List.mem_range.2 hn))

section
variable (d : Dev)

/-- The entry and the table that FABT_TBL_SEL selects. -/
abbrev Dev.tblIndex : Nat := bits (d.reg pFabt 0x070) 9 0
abbrev Dev.tblTable : Nat := bits (d.reg pFabt 0x070) 10 10

variable {d} (hopen : opens d .pf pFabt)
include hopen

theorem tblCmd_read : tblCmd .pf false d = tblRead d := Dev.privOnly_of_opens hopen _ _
theorem tblCmd_write : tblCmd .pf true d = tblWrite d := Dev.privOnly_of_opens hopen _ _

omit hopen in
theorem tblRead_of_outside (ht : d.tblTable = 0) (hi : 47 < d.tblIndex) : tblRead d = d.setTblSts 1 := if_pos ⟨ht, hi⟩

omit hopen in
theorem tblRead_shows (h : d.tblTable = 1 ∨ d.tblIndex ≤ 47) :
    tblRead d = (d.tblShow (d.tblEntry d.tblTable d.tblIndex)).setTblSts 0 := by
  refine if_neg fun ⟨ht, hi⟩ => ?_
  have ht' : d.tblTable = 0 := ht
  have hi' : 47 < d.tblIndex := hi
  omega

omit hopen in
theorem tblWrite_of_outside (ht : d.tblTable = 0) (hi : 47 < d.tblIndex) : tblWrite d = d.setTblSts 1 := if_pos ⟨ht, hi⟩

omit hopen in
theorem tblWrite_of_linked (ht : d.tblTable = 1) (hv : (d.link d.tblIndex).valid = true) (hs : (d.link d.tblIndex).state ≠ .down) :
    tblWrite d = d.setTblSts 2 := by
  have h0 : ¬ (d.tblTable = 0 ∧ 47 < d.tblIndex) := by omega
  exact (if_neg h0).trans (if_pos ⟨ht, hv, hs⟩)

omit hopen in
/-- A write that no earlier check refuses: reserved bytes first, then the table. -/
theorem tblWrite_of_free (h0 : ¬ (d.tblTable = 0 ∧ 47 < d.tblIndex))
    (h1 : ¬ (d.tblTable = 1 ∧ (d.link d.tblIndex).valid = true ∧ (d.link d.tblIndex).state ≠ .down)) :
    tblWrite d =
      if !tblReserved d.tblTable d.tblWindow then d.setTblSts 3
      else if d.tblTable = 0 then
        ({ d with fab := { d.fab with locals := d.fab.locals.put (zbytes 32) d.tblIndex d.tblWindow } } : Dev).setTblSts 0
      else
        let e := (d.setLink d.tblIndex { PLink.reset with entry := d.tblWindow }).setTblSts 0
        if (e.link d.tblIndex).valid ∧ e.fab.state = .member then e.sendHello d.tblIndex else e :=
  (if_neg h0).trans (if_neg h1)

end

theorem Dev.reg_setTblSts (d : Dev) (x : Nat) (p : Page) (off : Nat) : (d.setTblSts x).reg p off = d.reg p off := rfl

theorem tblRead_fab {d : Dev} (h : d.tblTable = 1 ∨ d.tblIndex ≤ 47) : (tblRead d).fab = { d.fab with tblSts := 0 } := by
  rw [tblRead_shows h, Dev.setTblSts, Dev.fab_tblShow]

theorem tblRead_words {d : Dev} (h : d.tblTable = 1 ∨ d.tblIndex ≤ 47) {n : Nat} (hn : n < 8) :
    (tblRead d).reg pFabt (0x080 + 4 * n) = fld (d.tblEntry d.tblTable d.tblIndex) (4 * n) 4 := by
  rw [tblRead_shows h, Dev.reg_setTblSts, Dev.reg_tblShow _ _ hn]

section
variable {d : Dev}

theorem tblWrite_of_local (ht : d.tblTable = 0) (hi : d.tblIndex ≤ 47) :
    tblWrite d = if !tblReserved 0 d.tblWindow then d.setTblSts 3
      else ({ d with fab := { d.fab with locals := d.fab.locals.put (zbytes 32) d.tblIndex d.tblWindow } } : Dev).setTblSts 0 := by
  rw [tblWrite_of_free (by omega) (by omega), ht, if_pos rfl]

theorem tblWrite_local (ht : d.tblTable = 0) (hi : d.tblIndex ≤ 47) (hr : tblReserved 0 d.tblWindow = true) :
    (tblWrite d).fab.locals.get (zbytes 32) d.tblIndex = d.tblWindow ∧ (tblWrite d).fab.tblSts = 0 := by
  rw [tblWrite_of_local ht hi, if_neg (by rw [hr]; decide)]
  exact ⟨SMap.get_put _ _ _ _, rfl⟩

theorem tblWrite_of_reserved_local (ht : d.tblTable = 0) (hi : d.tblIndex ≤ 47) (hr : tblReserved 0 d.tblWindow = false) :
    tblWrite d = d.setTblSts 3 := by
  rw [tblWrite_of_local ht hi, if_pos (by rw [hr]; rfl)]

theorem tblWrite_of_reserved_peer (ht : d.tblTable = 1)
    (h1 : (d.link d.tblIndex).valid = true → (d.link d.tblIndex).state = .down) (hr : tblReserved 1 d.tblWindow = false) :
    tblWrite d = d.setTblSts 3 := by
  rw [tblWrite_of_free (by omega) (fun ⟨_, hv, hs⟩ => hs (h1 hv)), ht, if_pos (by rw [hr]; rfl)]

end

/-- A peer entry that is written: it stands with its bytes, and starts its HELLO on a member (R516). -/
theorem tblWrite_peer {d : Dev} (ht : d.tblTable = 1)
    (h1 : (d.link d.tblIndex).valid = true → (d.link d.tblIndex).state = .down) (hr : tblReserved 1 d.tblWindow = true) :
    ((tblWrite d).link d.tblIndex).entry = d.tblWindow ∧ (tblWrite d).fab.tblSts = 0 ∧
    ((tblWrite d).link d.tblIndex).state = if bit (fld d.tblWindow 4 1) 0 && d.fab.state == .member then .hello else .unset := by
  have hwrite := tblWrite_of_free (d := d) (by omega) (fun ⟨_, hv, hs⟩ => hs (h1 hv))
  rw [ht, hr] at hwrite
  generalize d.tblIndex = i at hwrite ⊢
  generalize d.tblWindow = b at hwrite ⊢
  generalize he : (d.setLink i { PLink.reset with entry := b }).setTblSts 0 = e at hwrite
  have hlink : e.link i = { PLink.reset with entry := b } := by
    rw [← he]
    exact d.link_setLink i _
  have hstate : e.fab.state = d.fab.state := by rw [← he]; rfl
  have hsts : e.fab.tblSts = 0 := by rw [← he]; rfl
  have hvalid : (e.link i).valid = bit (fld b 4 1) 0 := by rw [hlink]; rfl
  dsimp only at hwrite
  rw [if_neg (by decide), if_neg (by decide), hvalid, hstate] at hwrite
  rw [hwrite]
  split
  case isTrue h =>
    have hsent := e.link_sendHello i
    have hkept : (e.sendHello i).fab.tblSts = e.fab.tblSts := e.tblSts_sendHello i
    refine ⟨(congrArg PLink.entry hsent).trans (by rw [hlink]), hkept.trans hsts, ?_⟩
    rw [if_pos (by simp [h])]
    exact congrArg PLink.state hsent
  case isFalse h =>
    refine ⟨by rw [hlink], hsts, ?_⟩
    rw [hlink, if_neg (by simpa using h)]
    rfl

/-- Settles O43: each command is one of the cases of its meaning, and what closes a command leaves the transport. -/
theorem fabricCommands : Obligations.FabricCommands := by
  refine ⟨?links, ?flows, ?rates, ?keepalive, ?identity, ?table⟩
  case links =>
    intro i s hi l
    refine ⟨fun hm hv hs hg => completes_of_onDev (exec_helloResend s hi) ?again, fun h =>
      becomes_of_onDev (exec_helloResend s hi) (helloAgain_of_answered h), fun hs hq hm =>
      becomes_of_onDev (exec_keepaliveSend s hi) (kaSend_of_quiet hs hq hm), fun h =>
      becomes_of_onDev (exec_keepaliveSend s hi) (kaSend_of_other h)⟩
    case again =>
      rw [helloAgain_of_waiting hm hv hs hg, Dev.link_finish, Dev.timer_finish, Dev.timer_sendHello]
      have hsent := (s.dev.reach ioIsle (l.helloAt + 100000)).link_sendHello i
      exact ⟨congrArg PLink.state hsent, congrArg PLink.sent hsent, congrArg PLink.helloAt hsent, s.dev.le_timer_reach ioIsle _⟩
  case flows =>
    intro dev flow s mine ours
    refine ⟨fun h => becomes_of_onDev (exec_ackDelayExpire s dev flow) (ackDelay_of_none h), fun f t h ht =>
      completes_of_onDev (exec_ackDelayExpire s dev flow) ?ack, fun h =>
      becomes_of_onDev (exec_retransmitTimeout s dev flow) (rtoFlow_of_none h), fun f p ps h hp =>
      completes_of_onDev (exec_retransmitTimeout s dev flow) ?rto⟩
    case ack =>
      rw [Dev.finish_fab, Dev.timer_finish]
      exact ackDelay_of_owed h ht
    case rto =>
      rw [Dev.finish_fab, Dev.timer_finish]
      exact rtoFlow_of_due h hp
  case rates =>
    intro s
    refine completes_of_onDev (exec_rateWindow s) ?_
    rw [Dev.finish_fab]
    exact rateEnd_send s.dev
  case keepalive =>
    intro s i l hl hs w
    obtain ⟨e, hfab, hcheck⟩ := kaCheck_of_only hl
    have hl' : e.fab.links = [(i, l)] := by rw [hfab, hl]
    have hpeer (n : Nat) : e.peer n = s.dev.peer n := by rw [Dev.peer, hfab, ← Dev.peer]
    refine ⟨fun hh => completes_of_onDev (exec_keepaliveCheck s) ?heard, fun hh hd =>
      completes_of_onDev (exec_keepaliveCheck s) ?missed, fun hh hd => completes_of_onDev (exec_keepaliveCheck s) ?lost⟩
    case heard =>
      rw [hcheck, Dev.link_finish, kaLink_of_heard hl' hs hh]
      exact ⟨hs, rfl, rfl⟩
    case missed =>
      rw [hcheck, Dev.link_finish, kaLink_of_missed hl' hs hh hd]
      exact ⟨hs, rfl⟩
    case lost =>
      obtain ⟨hdown, hdead⟩ := kaLink_of_lost hl' hs hh hd
      have hfin (d : Dev) (n : Nat) : d.finish.peer n = d.peer n := by rw [Dev.peer, Dev.finish_fab, ← Dev.peer]
      rw [hcheck, Dev.link_finish, hfin]
      exact ⟨hdown, fun p hp => ⟨_, hdead p (by rw [hpeer, hp]), rfl⟩⟩
  case identity =>
    intro k w s hk hopen d1 again
    have hexec := exec_identity s .pf w hk
    refine ⟨fun h => becomes_of_onDev hexec (identityWrite_of_enabled hopen h), fun hd =>
      ⟨fun h => becomes_of_onDev hexec (identityWrite_of_fenced hopen hd h), fun h hdev hepoch =>
        becomes_of_onDev hexec (identityWrite_of_same hopen hd h hdev hepoch), fun h hne => completes_of_onDev hexec ?_⟩⟩
    rw [Dev.finish_fab, Dev.selfDev, Dev.selfEpoch, Dev.reg_finish, Dev.reg_finish, identityWrite_of_new hopen hd h hne]
    exact ⟨rfl, rfl, rfl, rfl, rfl, fun hepoch => if_neg hepoch⟩
  case table =>
    intro s hopen sel i table b
    have hread : exec (.fabtTblRead .pf) s = onDev (tblCmd .pf false) s := rfl
    have hwrite : exec (.fabtTblWrite .pf) s = onDev (tblCmd .pf true) s := rfl
    have hr := tblCmd_read hopen
    have hw := tblCmd_write hopen
    refine ⟨fun ht hi => ⟨becomes_of_onDev hread (hr.trans (tblRead_of_outside ht hi)),
        becomes_of_onDev hwrite (hw.trans (tblWrite_of_outside ht hi))⟩, fun h => completes_of_onDev hread ?shows, fun ht hv hs =>
      becomes_of_onDev hwrite (hw.trans (tblWrite_of_linked ht hv hs)), fun ht hi => ?locals, fun ht h1 => ?peers⟩
    case shows =>
      rw [hr, Dev.finish_fab]
      refine ⟨tblRead_fab h, fun n hn => ?_⟩
      rw [Dev.reg_finish]
      exact tblRead_words h hn
    case locals =>
      refine ⟨fun hbad => becomes_of_onDev hwrite (hw.trans (tblWrite_of_reserved_local ht hi hbad)), fun hgood =>
        completes_of_onDev hwrite ?_⟩
      rw [hw, Dev.finish_fab]
      exact tblWrite_local ht hi hgood
    case peers =>
      refine ⟨fun hbad => becomes_of_onDev hwrite (hw.trans (tblWrite_of_reserved_peer ht h1 hbad)), fun hgood =>
        completes_of_onDev hwrite ?_⟩
      rw [hw, Dev.link_finish, Dev.finish_fab]
      exact tblWrite_peer ht h1 hgood

end Sys2Proof.Machine
end

section
/-!
SUPPORT. O42: packets, their checks, flows, acknowledgements, HELLO and FENCED.
-/

namespace Sys2Proof.Machine

open Sys2Proof.Safety


/-! ### The checks of a packet (R515, R531) -/

section
variable (k : Packet) (s : State)

theorem exec_packet {c : (Packet → Instr) × Nat}
    (hc : c ∈ ([(.data, 1), (.ack, 2), (.ctrl, 3), (.keepalive, 4), (.hello, 5), (.helloAck, 6), (.fenced, 7)] :
      List ((Packet → Instr) × Nat))) : ∃ f, exec (c.1 k) s = onDev (fun d => d.accept k c.2 f) s := by
  simp only [List.mem_cons, List.not_mem_nil, or_false] at hc
  rcases hc with rfl | rfl | rfl | rfl | rfl | rfl | rfl <;> exact ⟨_, rfl⟩

theorem exec_flowPacket {c : (Packet → Instr) × Nat} (hc : c ∈ ([(.data, 1), (.ctrl, 3)] : List ((Packet → Instr) × Nat))) :
    exec (c.1 k) s = onDev (fun d => d.accept k c.2 fun d body => d.rxFlow k c.2 body) s := by
  simp only [List.mem_cons, List.not_mem_nil, or_false] at hc
  rcases hc with rfl | rfl <;> rfl

theorem exec_ack : exec (.ack k) s = onDev (fun d => d.accept k 2 (ackRun k)) s := rfl
theorem exec_keepalive : exec (.keepalive k) s =
    onDev (fun d => d.accept k 4 fun d body => if body.length = 8 ∧ zeros body 0 8 then d else d.cnt .pf pFabt 11 1) s := rfl
theorem exec_hello : exec (.hello k) s = onDev (fun d => d.accept k 5 (helloRun k)) s := rfl
theorem exec_helloAck : exec (.helloAck k) s = onDev (fun d => d.accept k 6 (helloAckRun k)) s := rfl
theorem exec_fenced : exec (.fenced k) s = onDev (fun d => d.accept k 7 fun d body =>
    if body.length = 16 ∧ zeros body 10 6 ∧ fldBE body 0 2 = d.selfDev ∧ fldBE body 2 4 = d.selfEpoch then d.fence
    else d.cnt .pf pFabt 11 1) s := rfl

end

section
variable {d d1 : Dev} {k : Packet} {t : Nat}

theorem accept_drop (h : d.check k t = .drop d1) (f : Dev → List Byte → Dev) : d.accept k t f = d1 := by rw [Dev.accept, h]

theorem accept_pass {body : List Byte} (h : d.check k t = .pass d1 body) (f : Dev → List Byte → Dev) : d.accept k t f = f d1 body := by
  rw [Dev.accept, h]

/-- The header, the version and the link of a packet are sound (R515). -/
abbrev Dev.packetSound (d : Dev) (k : Packet) (t : Nat) : Bool :=
  k.headerOk && (d.link k.link).speaks k t && decide (k.flags.toNat < 16) && (d.link k.link).valid

theorem check_of_outsider (h : (d.takeRx k.sub.key).fab.state ≠ .member) : d.check k t = .drop (d.takeRx k.sub.key) := if_pos h

variable (hm : (d.takeRx k.sub.key).fab.state = .member)
include hm

theorem check_of_unsound (h : (d.takeRx k.sub.key).packetSound k t = false) :
    d.check k t = .drop ((d.takeRx k.sub.key).cnt .pf pFabt 11 1) :=
  (if_neg (not_not.2 hm)).trans (if_pos (congrArg not h))

variable (hs : (d.takeRx k.sub.key).packetSound k t = true)
include hs

theorem check_of_sound :
    d.check k t =
      if k.dstDev.toNat ≠ (d.takeRx k.sub.key).selfDev then .drop ((d.takeRx k.sub.key).cnt .pf pFabt 12 1)
      else
        match (d.takeRx k.sub.key).unseal k t with
        | none => .drop (((d.takeRx k.sub.key).cnt .pf pFabt 13 1).evt .pf pFabt 0x10)
        | some body => ((d.takeRx k.sub.key).updLink k.link fun l => { l with heard := true }).checkEpoch k t body :=
  (if_neg (not_not.2 hm)).trans (if_neg (ne_true_of_eq_false (congrArg not hs)))

theorem check_of_other_device (h : k.dstDev.toNat ≠ (d.takeRx k.sub.key).selfDev) :
    d.check k t = .drop ((d.takeRx k.sub.key).cnt .pf pFabt 12 1) := by
  rw [check_of_sound hm hs, if_pos h]

variable (hd : k.dstDev.toNat = (d.takeRx k.sub.key).selfDev)
include hd

theorem check_of_sealed (h : (d.takeRx k.sub.key).unseal k t = none) :
    d.check k t = .drop (((d.takeRx k.sub.key).cnt .pf pFabt 13 1).evt .pf pFabt 0x10) := by
  rw [check_of_sound hm hs, if_neg (not_not.2 hd), h]

theorem check_of_opened {body : List Byte} (h : (d.takeRx k.sub.key).unseal k t = some body) :
    d.check k t = ((d.takeRx k.sub.key).updLink k.link fun l => { l with heard := true }).checkEpoch k t body := by
  rw [check_of_sound hm hs, if_neg (not_not.2 hd), h]

end

section
variable {d : Dev} {k : Packet} {t : Nat} {body : List Byte}

/-- The source's epoch is over: below the known one, or of a peer that is dead (R531). -/
def Dev.staleEpoch (d : Dev) (k : Packet) : Prop :=
  k.srcEpoch.toNat < d.known k.srcDev.toNat ∨
    (k.srcEpoch.toNat = d.known k.srcDev.toNat ∧ ∃ p, d.peer k.srcDev.toNat = some p ∧ p.state = .dead)

theorem stale_iff (d : Dev) (k : Packet) :
    (k.srcEpoch.toNat < d.known k.srcDev.toNat ∨ (k.srcEpoch.toNat = d.known k.srcDev.toNat ∧
      ((d.peer k.srcDev.toNat).any fun (p : Peer) => p.state == .dead) = true)) ↔ d.staleEpoch k := by
  simp [Dev.staleEpoch, Option.any_eq_true]

theorem checkEpoch_of_stale (h : d.staleEpoch k) :
    d.checkEpoch k t body = .drop ((d.cnt .pf pFabt 14 1).sendFenced k.link k.srcDev.toNat k.srcEpoch.toNat) :=
  if_pos ((stale_iff d k).2 h)

variable (h : ¬ d.staleEpoch k) (ht : t ≠ 5)
include h ht

theorem checkEpoch_of_unknown (hk : d.known k.srcDev.toNat < k.srcEpoch.toNat) : d.checkEpoch k t body = .drop (d.cnt .pf pFabt 14 1) :=
  (if_neg (mt (stale_iff d k).1 h)).trans ((if_neg fun h5 => ht h5.1).trans (if_pos ⟨ht, hk⟩))

theorem checkEpoch_of_known (hk : k.srcEpoch.toNat = d.known k.srcDev.toNat) (he : k.dstEpoch.toNat = d.selfEpoch) :
    d.checkEpoch k t body = d.checkSyn k body := by
  have hnew : ¬ (t ≠ 5 ∧ d.known k.srcDev.toNat < k.srcEpoch.toNat) := fun hlt => absurd hlt.2 (by rw [hk]; exact lt_irrefl _)
  have hold : ¬ (k.dstEpoch.toNat ≠ 0 ∧ k.dstEpoch.toNat < d.selfEpoch) := fun hlt => absurd hlt.2 (by rw [he]; exact lt_irrefl _)
  have hahead : ¬ d.selfEpoch < k.dstEpoch.toNat := by rw [he]; exact lt_irrefl _
  exact (if_neg (mt (stale_iff d k).1 h)).trans ((if_neg fun h5 => ht h5.1).trans ((if_neg hnew).trans
    ((if_neg hold).trans (if_neg hahead))))

end

section
variable (d : Dev) (k : Packet) (body : List Byte)

/-- The counter last authenticated for a packet's source, partition and key. -/
abbrev Dev.seenCtr (d : Dev) (k : Packet) : Option Nat := d.fab.synCtr.find? (k.srcDev.toNat * 512 + k.part.toNat * 2 + k.key.val)

theorem checkSyn_of_replay (hf : bit k.flags.toNat 3 = true) (h : ∃ n, d.seenCtr k = some n ∧ k.ctr.toNat ≤ n) :
    d.checkSyn k body = .drop (d.cntP pFabt 5 1 (if k.part.toNat < 16 then some k.part.toNat else none)) :=
  if_pos (by simpa [hf, Option.any_eq_true] using h)

theorem checkSyn_of_fresh (h : bit k.flags.toNat 3 = false ∨ ∀ n, d.seenCtr k = some n → n < k.ctr.toNat) :
    ∃ d1, d.checkSyn k body = .pass d1 body ∧ changesOnly [.fab] d d1 := by
  refine ⟨_, if_neg ?_, by simp⟩
  rw [Bool.and_eq_true, Option.any_eq_true]
  rintro ⟨hf, n, hn, hle⟩
  rcases h with h | h
  · rw [h] at hf
    cases hf
  · exact absurd (h n hn) (Nat.not_lt.2 (of_decide_eq_true hle))

end

/-! ### DATA and CTRL (R521–R523) -/

/-- The receiving flow of a packet as the packet finds it, with a congestion mark counted. -/
def Dev.rxTarget (d : Dev) (k : Packet) : RecvFlow :=
  let f := if bit k.flags.toNat 3 then RecvFlow.new k.srcDev.toNat k.flow.toNat k.link
    else { d.recvFlow k.srcDev.toNat k.flow.toNat k.link with link := k.link }
  if k.ecnCe then { f with ce := f.ce + 1 } else f

/-- The partition to which a packet's flow counts. -/
def rxOwn (k : Packet) : Option Nat := if flowPart k.flow.toNat < 16 then some (flowPart k.flow.toNat) else none

/-- The distance of a packet from the next one that a flow waits for. -/
def rxOff (k : Packet) (f : RecvFlow) : Nat := (k.psn.toNat + 2 ^ 32 - f.e) % 2 ^ 32

/-- A flow that has taken in a packet. -/
def RecvFlow.takes (f : RecvFlow) (k : Packet) (type time : Nat) (body : List Byte) : RecvFlow :=
  { f with held := f.held.insert k.psn.toNat (type, k.flags.toNat, body), since := f.since + 1, first := some (f.first.getD time) }

theorem rxFlow_eq (d : Dev) (k : Packet) (type : Nat) (body : List Byte) :
    d.rxFlow k type body =
      let f := d.rxTarget k
      let d := if k.ecnCe then d.cntP pFabt 6 1 (rxOwn k) else d
      if 255 < rxOff k f ∨ (f.held.find? k.psn.toNat).isSome then (d.cntP pFabt 5 1 (rxOwn k)).sendAck f
      else
        let r := deliver 256 (f.takes k type (d.timer ioIsle) body) 0 0
        let d := (d.cntP pFabt 2 r.2.1 (rxOwn k)).cntP pFabt 3 r.2.2 (rxOwn k)
        if rxOff k f ≠ 0 ∨ 8 ≤ r.1.since then d.sendAck r.1 else d.setRecvFlow r.1 := by
  unfold Dev.rxFlow Dev.rxTarget
  cases k.ecnCe <;> rfl

theorem Dev.recvFlow_own (d : Dev) (dev flow link : Nat) :
    (d.recvFlow dev flow link).dev = dev ∧ (d.recvFlow dev flow link).flow = flow := by
  unfold Dev.recvFlow
  cases h : d.fab.recv.find? (isRecv dev flow) with
  | none => exact ⟨rfl, rfl⟩
  | some f => exact (isRecv_iff dev flow f).1 (List.find?_some h)

/-- The flow of a packet, as the statement of O42 names it. -/
abbrev Dev.rxNamed (d : Dev) (k : Packet) : RecvFlow :=
  if bit k.flags.toNat 3 then RecvFlow.new k.srcDev.toNat k.flow.toNat k.link else d.recvFlow k.srcDev.toNat k.flow.toNat k.link

theorem rxTarget_spec (d : Dev) (k : Packet) :
    (d.rxTarget k).e = (d.rxNamed k).e ∧ (d.rxTarget k).held = (d.rxNamed k).held ∧
    (d.rxTarget k).dev = k.srcDev.toNat ∧ (d.rxTarget k).flow = k.flow.toNat := by
  have hown := d.recvFlow_own k.srcDev.toNat k.flow.toNat k.link
  unfold Dev.rxTarget Dev.rxNamed
  cases bit k.flags.toNat 3 <;> cases k.ecnCe
  · exact ⟨rfl, rfl, hown.1, hown.2⟩
  · exact ⟨rfl, rfl, hown.1, hown.2⟩
  · exact ⟨rfl, rfl, rfl, rfl⟩
  · exact ⟨rfl, rfl, rfl, rfl⟩

theorem Dev.recvFlow_setRecvFlow (d : Dev) (f : RecvFlow) (link : Nat) : (d.setRecvFlow f).recvFlow f.dev f.flow link = f := by
  unfold Dev.recvFlow
  rw [show (d.setRecvFlow f).fab.recv.find? (fun g : RecvFlow => g.dev == f.dev && g.flow == f.flow) = some f from
    d.find?_setRecvFlow f]
  rfl

theorem Dev.recvFlow_sendAck (d : Dev) (f : RecvFlow) (link : Nat) :
    (d.sendAck f).recvFlow f.dev f.flow link = { f with since := 0, first := none, ce := 0 } :=
  Dev.recvFlow_setRecvFlow _ { f with since := 0, first := none, ce := 0 } link

theorem deliver_of_gap {f : RecvFlow} (h : f.held.find? f.e = none) (fuel n b : Nat) : deliver fuel f n b = (f, n, b) := by
  cases fuel with
  | zero => rfl
  | succ fuel => rw [deliver, h]

/-- The one packet held, in order, is delivered. -/
theorem deliver_of_next {f : RecvFlow} {x : Nat × Nat × List Byte} (h : f.held = [(f.e, x)]) (fuel n b : Nat) :
    ∃ msg, (deliver (fuel + 1) f n b).1 = { f with held := [], e := (f.e + 1) % 2 ^ 32, msg := msg } := by
  obtain ⟨type, flags, body⟩ := x
  have hfind : f.held.find? f.e = some (type, flags, body) := by simp [h, SMap.find?]
  have herase : f.held.erase f.e = [] := by simp [h, SMap.erase]
  rw [deliver, hfind, herase]
  dsimp only
  rw [deliver_of_gap rfl]
  exact ⟨_, rfl⟩

section
variable {d : Dev} {k : Packet} (type : Nat) (body : List Byte)

/-- What acknowledges a packet again leaves the flow where it was. -/
theorem rxFlow_of_outside (h : 255 < rxOff k (d.rxNamed k) ∨ ((d.rxNamed k).held.find? k.psn.toNat).isSome = true) :
    let g := (d.rxFlow k type body).recvFlow k.srcDev.toNat k.flow.toNat k.link
    g.e = (d.rxNamed k).e ∧ g.held = (d.rxNamed k).held ∧ g.since = 0 := by
  obtain ⟨he, hheld, hdev, hflow⟩ := rxTarget_spec d k
  have hout : 255 < rxOff k (d.rxTarget k) ∨ ((d.rxTarget k).held.find? k.psn.toNat).isSome = true := by
    rwa [rxOff, he, hheld, ← rxOff]
  rw [rxFlow_eq]
  dsimp only
  rw [if_pos hout, ← hdev, ← hflow, Dev.recvFlow_sendAck]
  exact ⟨he, hheld, rfl⟩

/-- A packet that finds nothing held: taken in, with what the flow delivers of it. -/
theorem rxFlow_of_inside (hoff : rxOff k (d.rxNamed k) ≤ 255) (hnil : (d.rxNamed k).held = []) :
    ∃ f n b, f.e = (d.rxNamed k).e ∧ f.held = [(k.psn.toNat, (type, k.flags.toNat, body))] ∧ f.dev = k.srcDev.toNat ∧
      f.flow = k.flow.toNat ∧ ∃ d1 : Dev, d.rxFlow k type body =
        if rxOff k (d.rxNamed k) ≠ 0 ∨ 8 ≤ (deliver 256 f n b).1.since then d1.sendAck (deliver 256 f n b).1
        else d1.setRecvFlow (deliver 256 f n b).1 := by
  obtain ⟨he, hheld, hdev, hflow⟩ := rxTarget_spec d k
  have hrx : rxOff k (d.rxTarget k) = rxOff k (d.rxNamed k) := by rw [rxOff, he, ← rxOff]
  have hin : ¬ (255 < rxOff k (d.rxTarget k) ∨ ((d.rxTarget k).held.find? k.psn.toNat).isSome = true) := by
    rw [hrx, hheld, hnil]
    rintro (hlt | hsome)
    · exact absurd hlt (Nat.not_lt.2 hoff)
    · cases hsome
  have hflowEq := rxFlow_eq d k type body
  dsimp only at hflowEq
  rw [if_neg hin, hrx] at hflowEq
  refine ⟨(d.rxTarget k).takes k type ((if k.ecnCe then d.cntP pFabt 6 1 (rxOwn k) else d).timer ioIsle) body, 0, 0,
    he, ?_, hdev, hflow, _, hflowEq⟩
  change (d.rxTarget k).held.insert _ _ = _
  rw [hheld, hnil]
  rfl

theorem psn_of_next {e : Nat} (he : e < 2 ^ 32) (h : (k.psn.toNat + 2 ^ 32 - e) % 2 ^ 32 = 0) : k.psn.toNat = e := by
  have hpsn := k.psn.isLt
  omega

/-- A packet in order moves the flow on. -/
theorem rxFlow_of_next (he : (d.rxNamed k).e < 2 ^ 32) (h0 : rxOff k (d.rxNamed k) = 0) (hnil : (d.rxNamed k).held = []) :
    let g := (d.rxFlow k type body).recvFlow k.srcDev.toNat k.flow.toNat k.link
    g.e = ((d.rxNamed k).e + 1) % 2 ^ 32 ∧ g.held = [] := by
  obtain ⟨f, n, b, hfe, hheld, hdev, hflow, d1, hrun⟩ := rxFlow_of_inside (d := d) (k := k) type body (by omega) hnil
  have hpsn : k.psn.toNat = f.e := hfe ▸ psn_of_next he h0
  obtain ⟨msg, hdone⟩ := deliver_of_next (f := f) (by rw [hheld, hpsn]) 255 n b
  rw [hrun, hdone, ← hfe, ← hdev, ← hflow]
  dsimp only
  split
  · exact ⟨congrArg RecvFlow.e (Dev.recvFlow_sendAck d1 { f with held := [], e := (f.e + 1) % 2 ^ 32, msg := msg } k.link),
      congrArg RecvFlow.held (Dev.recvFlow_sendAck d1 { f with held := [], e := (f.e + 1) % 2 ^ 32, msg := msg } k.link)⟩
  · exact ⟨congrArg RecvFlow.e (Dev.recvFlow_setRecvFlow d1 { f with held := [], e := (f.e + 1) % 2 ^ 32, msg := msg } k.link),
      congrArg RecvFlow.held (Dev.recvFlow_setRecvFlow d1 { f with held := [], e := (f.e + 1) % 2 ^ 32, msg := msg } k.link)⟩

/-- A packet out of order is held and acknowledged at once. -/
theorem rxFlow_of_later (h0 : 0 < rxOff k (d.rxNamed k)) (hoff : rxOff k (d.rxNamed k) ≤ 255) (hnil : (d.rxNamed k).held = []) :
    let g := (d.rxFlow k type body).recvFlow k.srcDev.toNat k.flow.toNat k.link
    g.e = (d.rxNamed k).e ∧ g.held = [(k.psn.toNat, (type, k.flags.toNat, body))] ∧ g.since = 0 := by
  obtain ⟨f, n, b, hfe, hheld, hdev, hflow, d1, hrun⟩ := rxFlow_of_inside (d := d) (k := k) type body hoff hnil
  have hpsn : k.psn.toNat ≠ f.e := by
    intro heq
    rw [rxOff, ← hfe, ← heq] at h0
    have hlt := k.psn.isLt
    omega
  have hgap : f.held.find? f.e = none := by simp [hheld, SMap.find?, hpsn]
  rw [hrun, deliver_of_gap hgap, if_pos (.inl (Nat.pos_iff_ne_zero.1 h0)), ← hfe, ← hheld, ← hdev, ← hflow, Dev.recvFlow_sendAck]
  exact ⟨rfl, rfl, rfl⟩

end

/-! ### ACK (R524, R525) -/

/-- What choosing a link and sending leave of a flow: its identity and its counts; what is unacknowledged only grows at the end. -/
structure FlowKept (f g : SendFlow) : Prop where
  dev : g.dev = f.dev
  flow : g.flow = f.flow
  acked : g.acked = f.acked
  marked : g.marked = f.marked
  k : g.k = f.k
  unacked : f.unacked <+: g.unacked

theorem FlowKept.refl (f : SendFlow) : FlowKept f f := ⟨rfl, rfl, rfl, rfl, rfl, List.prefix_rfl⟩

theorem FlowKept.trans {f g h : SendFlow} (a : FlowKept f g) (b : FlowKept g h) : FlowKept f h :=
  ⟨b.dev.trans a.dev, b.flow.trans a.flow, b.acked.trans a.acked, b.marked.trans a.marked, b.k.trans a.k, a.unacked.trans b.unacked⟩

theorem route_flowKept (d : Dev) (f : SendFlow) : FlowKept f (d.route f).2 := by
  unfold Dev.route
  dsimp only
  split
  · split
    · exact .refl f
    · split <;> exact ⟨rfl, rfl, rfl, rfl, rfl, List.prefix_rfl⟩
  · split
    · exact .refl f
    · exact ⟨rfl, rfl, rfl, rfl, rfl, List.prefix_rfl⟩

theorem pump_flowKept (t n : Nat) (d : Dev) (f : SendFlow) : FlowKept f (pump t n d f).2 := by
  induction n generalizing d f with
  | zero => exact .refl f
  | succ n ih =>
    unfold pump
    split
    · exact .refl f
    · split
      · dsimp only
        refine FlowKept.trans ?_ (ih _ _)
        exact ⟨rfl, rfl, rfl, rfl, rfl, List.prefix_append _ _⟩
      · exact .refl f

theorem Dev.sendFlow_setSendFlow (d : Dev) (f : SendFlow) : (d.setSendFlow f).sendFlow f.dev f.flow = f := by
  unfold Dev.sendFlow
  rw [show (d.setSendFlow f).fab.send.find? (fun g : SendFlow => g.dev == f.dev && g.flow == f.flow) = some f from
    d.find?_setSendFlow f]
  rfl

/-- A flow that is brought on is found with its identity and counts (R520, R522). -/
theorem runFlow_flowKept (d : Dev) (f : SendFlow) : FlowKept f ((d.runFlow f).sendFlow f.dev f.flow) := by
  have hkept := (route_flowKept d f).trans
    (pump_flowKept ((d.route f).1.timer ioIsle) (d.route f).2.waiting.length (d.route f).1 (d.route f).2)
  have hrun : d.runFlow f = (pump ((d.route f).1.timer ioIsle) (d.route f).2.waiting.length (d.route f).1 (d.route f).2).1.setSendFlow
      (pump ((d.route f).1.timer ioIsle) (d.route f).2.waiting.length (d.route f).1 (d.route f).2).2 := rfl
  rw [hrun, ← hkept.dev, ← hkept.flow, Dev.sendFlow_setSendFlow]
  exact hkept

theorem Dev.sendFlow_own (d : Dev) (dev flow : Nat) : (d.sendFlow dev flow).dev = dev ∧ (d.sendFlow dev flow).flow = flow := by
  unfold Dev.sendFlow
  cases h : d.fab.send.find? (isSend dev flow) with
  | none => exact ⟨rfl, rfl⟩
  | some f => exact (isSend_iff dev flow f).1 (List.find?_some h)

/-- The packets of a flow that an ACK leaves. -/
def unackedAfter (k : Packet) (f : SendFlow) (body : List Byte) : List FlowPkt :=
  f.unacked.filter fun (p : FlowPkt) => !ackedBy k.ack.toNat body p.psn

/-- An ACK brings on a flow with what it covers taken off and counted. -/
theorem ackRun_eq (k : Packet) (d : Dev) (body : List Byte) :
    let f := d.sendFlow k.srcDev.toNat k.flow.toNat
    let gone := f.unacked.length - (unackedAfter k f body).length
    ∃ (d1 : Dev) (u : List FlowPkt), ackRun k d body = d1.runFlow { f with
        unacked := u, acked := f.acked + gone, marked := f.marked + k.ce.toNat, k := if 0 < gone then 0 else f.k } ∧
      u.map (·.psn) = (unackedAfter k f body).map (·.psn) := by
  refine ⟨_, _, rfl, ?_⟩
  rw [List.map_map]
  refine List.map_congr_left fun p _ => ?_
  dsimp only [Function.comp]
  split <;> rfl

theorem ackRun_spec (k : Packet) (d : Dev) (body : List Byte) :
    let f := d.sendFlow k.srcDev.toNat k.flow.toNat
    let left := unackedAfter k f body
    let gone := f.unacked.length - left.length
    let g := (ackRun k d body).sendFlow k.srcDev.toNat k.flow.toNat
    g.acked = f.acked + gone ∧ g.marked = f.marked + k.ce.toNat ∧ g.k = (if 0 < gone then 0 else f.k) ∧
    (g.unacked.take left.length).map (·.psn) = left.map (·.psn) := by
  obtain ⟨hdev, hflow⟩ := d.sendFlow_own k.srcDev.toNat k.flow.toNat
  obtain ⟨d1, u, hrun, hpsn⟩ := ackRun_eq k d body
  intro f left gone g
  have hkept := runFlow_flowKept d1 { f with
    unacked := u, acked := f.acked + gone, marked := f.marked + k.ce.toNat, k := if 0 < gone then 0 else f.k }
  dsimp only at hkept
  rw [← hrun, hdev, hflow] at hkept
  have hlen : left.length = u.length := by rw [← List.length_map (f := fun p : FlowPkt => p.psn), ← hpsn, List.length_map]
  refine ⟨hkept.acked, hkept.marked, hkept.k, ?_⟩
  rw [hlen, ← List.prefix_iff_eq_take.1 hkept.unacked]
  exact hpsn

/-! ### HELLO, HELLO_ACK and FENCED (R516–R518, R531–R533) -/

theorem Dev.known_of_peers {d e : Dev} (h : e.fab.peers = d.fab.peers) (n : Nat) : e.known n = d.known n := by
  rw [Dev.known, Dev.peer, h, ← Dev.peer, ← Dev.known]

theorem Dev.known_setPeer (d : Dev) (n : Nat) (p : Peer) : (d.setPeer n p).known n = p.epoch := by
  rw [Dev.known, Dev.peer, show (d.setPeer n p).fab.peers = d.fab.peers.insert n p from rfl, SMap.find?_insert]
  rfl

/-- A peer that changes but for its epoch keeps all epochs known. -/
theorem Dev.known_setPeer_same {d : Dev} {n : Nat} {p q : Peer} (hp : d.peer n = some p) (he : q.epoch = p.epoch) (m : Nat) :
    (d.setPeer n q).known m = d.known m := by
  by_cases hm : m = n
  · rw [hm, Dev.known_setPeer, he, Dev.known, hp]
    rfl
  · rw [Dev.known, Dev.peer, show (d.setPeer n q).fab.peers = d.fab.peers.insert n q from rfl, SMap.find?_insert_ne _ _ _ _ hm]
    rfl

theorem Dev.known_finish (d : Dev) (n : Nat) : d.finish.known n = d.known n := Dev.known_of_peers (by rw [Dev.finish_fab]) n

/-- The peer of a link that comes up is Up. -/
def Dev.peerUp (d : Dev) (n : Nat) : Dev :=
  match d.peer n with
  | some p => d.setPeer n { p with state := .up }
  | none => d

theorem Dev.known_peerUp (d : Dev) (n m : Nat) : (d.peerUp n).known m = d.known m := by
  unfold Dev.peerUp
  split
  · next p hp => exact Dev.known_setPeer_same (q := { p with state := .up }) hp rfl m
  · rfl

theorem Dev.link_peerUp (d : Dev) (n i : Nat) : (d.peerUp n).link i = d.link i := by
  unfold Dev.peerUp
  split <;> rfl

theorem linkUpIf_of_complete {d : Dev} {i : Nat} (hs : (d.link i).sent = true) (hg : (d.link i).got = true)
    (hr : (d.link i).state ≠ .refused) :
    d.linkUpIf i = ((d.setLink i { d.link i with state := .up, misses := 0, heard := true }).peerUp (d.link i).dev).runFlows :=
  if_pos (by simp [hs, hg, hr])

theorem linkUpIf_of_incomplete {d : Dev} {i : Nat}
    (h : ¬ ((d.link i).sent = true ∧ (d.link i).got = true ∧ (d.link i).state ≠ .refused)) : d.linkUpIf i = d :=
  if_neg (by simpa [and_assoc] using h)

/-- A link whose exchange is complete is up, with the version and the packet size that it had (R517). -/
theorem link_linkUpIf {d : Dev} {i : Nat} (hs : (d.link i).sent = true) (hg : (d.link i).got = true)
    (hr : (d.link i).state ≠ .refused) :
    { (d.linkUpIf i).link i with spoke := false } =
      { d.link i with spoke := false, state := .up, misses := 0, heard := true } := by
  rw [linkUpIf_of_complete hs hg hr, Dev.link_of_fabKept (Dev.fabKept_runFlows _) i, Dev.link_peerUp, Dev.link_setLink]

theorem known_linkUpIf (d : Dev) (i n : Nat) : (d.linkUpIf i).known n = d.known n := by
  by_cases h : (d.link i).sent = true ∧ (d.link i).got = true ∧ (d.link i).state ≠ .refused
  · obtain ⟨hs, hg, hr⟩ := h
    rw [linkUpIf_of_complete hs hg hr, Dev.known_of_fabKept (Dev.fabKept_runFlows _), Dev.known_peerUp]
    rfl
  · rw [linkUpIf_of_incomplete h]

theorem Dev.link_refuseLink (d : Dev) (i : Nat) : (d.refuseLink i).link i = { d.link i with state := .refused } := by
  rw [Dev.refuseLink, Dev.link_of_fab (Dev.cnt_fab ..), Dev.link_of_fab (Dev.evt_fab ..), Dev.link_updLink]

theorem known_refuseLink (d : Dev) (i n : Nat) : (d.refuseLink i).known n = d.known n :=
  Dev.known_of_peers (by rw [Dev.refuseLink, Dev.cnt_fab, Dev.evt_fab]; rfl) n

/-- A higher epoch is known from then on (R531). -/
theorem known_learn {d : Dev} {k : Packet} (h : d.known k.srcDev.toNat < k.srcEpoch.toNat) (body : List Byte) :
    (d.learn k body).known k.srcDev.toNat = k.srcEpoch.toNat := by
  unfold Dev.learn
  dsimp only
  rw [if_pos h, Dev.known_of_peers (congrArg Fab.peers (Dev.evtAll_fab ..)), Dev.known_setPeer]

theorem ownP_of_changesOnly {l : List Comp} {d e : Dev} (h : changesOnly l d e) (hl : .regs ∉ l) : e.ownP = d.ownP := by
  rw [Dev.ownP, Dev.reg_of_changesOnly h hl, ← Dev.ownP]

/-- The two version ranges meet at version 1.0 only (R517). -/
theorem chooseVersion_meets {max1 min1 : Nat} (hlo : min1 ≤ 0x100) (hhi : 0x100 ≤ max1) :
    chooseVersion max1 min1 0x100 0x100 = some 0x100 := by
  unfold chooseVersion
  have hmax : Nat.max min1 0x100 = 0x100 := Nat.max_eq_right hlo
  have hmin : Nat.min max1 0x100 = 0x100 := Nat.min_eq_right hhi
  rw [hmax, hmin, if_pos (le_refl _)]

theorem chooseVersion_misses {max1 min1 : Nat} (h : 0x100 < min1 ∨ max1 < 0x100) : chooseVersion max1 min1 0x100 0x100 = none := by
  refine if_neg fun hle => ?_
  have hle' : max min1 0x100 ≤ min max1 0x100 := hle
  omega

section
variable {d : Dev} {k : Packet} {body : List Byte}

theorem helloRun_of_malformed (h : helloOk body = false) : helloRun k d body = d.cnt .pf pFabt 11 1 := if_pos (by rw [h]; rfl)

/-- The device once a HELLO's sender is learnt and answered with a version. -/
def Dev.answered (d : Dev) (k : Packet) (body : List Byte) (major minor : Nat) : Dev :=
  (d.learn k body).emit k.link 6 0 255 0x0FF0 0 0 0 ((d.learn k body).helloBody major minor)

theorem known_answered (major minor n : Nat) : (d.answered k body major minor).known n = (d.learn k body).known n :=
  Dev.known_of_fabKept (Dev.fabKept_emit _ _ _ _ _ _ _ _ _ _) n

theorem ownP_answered (major minor : Nat) : (d.answered k body major minor).ownP = d.ownP :=
  ownP_of_changesOnly (l := [.hdr, .ctr, .mem, .poison, .isles, .cores, .sigs, .rede, .tokx, .tier, .eth, .fab, .errm, .out])
    (by simp [Dev.answered]) (by decide)

theorem helloRun_of_common (h : helloOk body = true) (hlo : fldBE body 4 2 ≤ 0x100) (hhi : 0x100 ≤ fldBE body 2 2) :
    helloRun k d body =
      let e := d.answered k body 1 0
      (e.updLink k.link fun l =>
        { l with
          state := if l.state = .up then .up else .hello, major := 1, minor := 0, sent := true, got := true
          psize := Nat.min e.ownP (1024 * Nat.max 1 (fldBE body 0x18 2)) }).linkUpIf k.link := by
  unfold helloRun
  rw [if_neg (by rw [h]; decide)]
  dsimp only
  rw [chooseVersion_meets hlo hhi]
  rfl

theorem helloRun_of_refused (h : helloOk body = true) (hv : 0x100 < fldBE body 4 2 ∨ fldBE body 2 2 < 0x100) :
    helloRun k d body = (d.answered k body 0 0).refuseLink k.link := by
  unfold helloRun
  rw [if_neg (by rw [h]; decide)]
  dsimp only
  rw [chooseVersion_misses hv]
  rfl

/-- A HELLO with a common version brings the link up (R517). -/
theorem helloRun_link (h : helloOk body = true) (hlo : fldBE body 4 2 ≤ 0x100) (hhi : 0x100 ≤ fldBE body 2 2) :
    let l := (helloRun k d body).link k.link
    l.state = .up ∧ l.major = 1 ∧ l.minor = 0 ∧ l.psize = Nat.min d.ownP (1024 * Nat.max 1 (fldBE body 0x18 2)) := by
  rw [helloRun_of_common h hlo hhi]
  dsimp only
  have hlink := link_linkUpIf (d := (d.answered k body 1 0).updLink k.link fun l =>
    { l with
      state := if l.state = .up then .up else .hello, major := 1, minor := 0, sent := true, got := true
      psize := Nat.min (d.answered k body 1 0).ownP (1024 * Nat.max 1 (fldBE body 0x18 2)) }) (i := k.link)
    (by rw [Dev.link_updLink]) (by rw [Dev.link_updLink]) (by rw [Dev.link_updLink]; dsimp only; split <;> decide)
  rw [Dev.link_updLink, ownP_answered] at hlink
  rw [ownP_answered]
  exact ⟨congrArg PLink.state hlink, congrArg PLink.major hlink, congrArg PLink.minor hlink, congrArg PLink.psize hlink⟩

theorem helloRun_known (h : helloOk body = true) (hk : d.known k.srcDev.toNat < k.srcEpoch.toNat) :
    (helloRun k d body).known k.srcDev.toNat = k.srcEpoch.toNat := by
  by_cases hv : fldBE body 4 2 ≤ 0x100 ∧ 0x100 ≤ fldBE body 2 2
  · rw [helloRun_of_common h hv.1 hv.2]
    dsimp only
    rw [known_linkUpIf, ← known_learn hk body]
    exact known_answered 1 0 _
  · rw [helloRun_of_refused h (by omega), known_refuseLink, known_answered, known_learn hk]

theorem helloAckRun_of_malformed (h : helloOk body = false) : helloAckRun k d body = d.cnt .pf pFabt 11 1 := if_pos (by rw [h]; rfl)

theorem helloAckRun_of_none (h : helloOk body = true) (h0 : fldBE body 6 2 = 0) : helloAckRun k d body = d.refuseLink k.link :=
  (if_neg (by rw [h]; decide)).trans (if_pos h0)

/-- The sender of a HELLO_ACK is a peer from then on. -/
def Dev.peered (d : Dev) (k : Packet) (body : List Byte) : Dev :=
  match d.peer k.srcDev.toNat with
  | some _ => d
  | none => d.setPeer k.srcDev.toNat ⟨k.srcEpoch.toNat, (body.drop 8).take 16, .down⟩

theorem Dev.link_peered (i : Nat) : (d.peered k body).link i = d.link i := by
  unfold Dev.peered
  split <;> rfl

theorem Dev.ownP_peered : (d.peered k body).ownP = d.ownP := by
  unfold Dev.peered
  split <;> rfl

theorem helloAckRun_of_common (h : helloOk body = true) (hv : fldBE body 6 2 = 0x100) :
    helloAckRun k d body =
      ((d.peered k body).updLink k.link fun l =>
        { l with
          major := 1, minor := 0, got := true
          psize := Nat.min (d.peered k body).ownP (1024 * Nat.max 1 (fldBE body 0x18 2)) }).linkUpIf k.link :=
  (if_neg (by rw [h]; decide)).trans ((if_neg (by rw [hv]; decide)).trans (if_neg (not_not.2 hv)))

/-- A HELLO_ACK with a version brings up a link that has sent its HELLO (R517). -/
theorem helloAckRun_link (h : helloOk body = true) (hv : fldBE body 6 2 = 0x100) (hs : (d.link k.link).sent = true)
    (hr : (d.link k.link).state ≠ .refused) :
    let l := (helloAckRun k d body).link k.link
    l.state = .up ∧ l.got = true ∧ l.psize = Nat.min d.ownP (1024 * Nat.max 1 (fldBE body 0x18 2)) := by
  rw [helloAckRun_of_common h hv]
  dsimp only
  have hlink := link_linkUpIf (d := (d.peered k body).updLink k.link fun l =>
    { l with
      major := 1, minor := 0, got := true
      psize := Nat.min (d.peered k body).ownP (1024 * Nat.max 1 (fldBE body 0x18 2)) }) (i := k.link)
    (by rw [Dev.link_updLink, Dev.link_peered]; exact hs) (by rw [Dev.link_updLink])
    (by rw [Dev.link_updLink, Dev.link_peered]; exact hr)
  rw [Dev.link_updLink, Dev.ownP_peered] at hlink
  rw [Dev.ownP_peered]
  exact ⟨congrArg PLink.state hlink, congrArg PLink.got hlink, congrArg PLink.psize hlink⟩

end

/-- A device that fences itself keeps the identity that was fenced (R535). -/
theorem fence_spec (d : Dev) : d.fence.fab.state = .fenced ∧ d.fence.fab.fencedId = some (d.selfDev, d.selfEpoch) := by
  have hkept : d.fence.fabKept = ({ d with fab := { d.fab with
      state := .fenced, fencedId := some (d.selfDev, d.selfEpoch), send := [], recv := [] } } : Dev).fabKept := by
    rw [Dev.fence, Dev.fabKept_of_changesOnly (changesOnly_of_peel (Dev.allRemoteLost_only _)) (by decide),
      Dev.fabKept_of_fab (Dev.evtAll_fab ..), Dev.fabKept_endTrees]
  exact ⟨Dev.state_of_fabKept hkept, Dev.fencedId_of_fabKept hkept⟩

/-- Settles O42: each packet is one of the cases of its checks and of its meaning, and what closes a command leaves the transport. -/
theorem packetCommands : Obligations.PacketCommands := by
  refine ⟨?drops, ?checks, ?flows, ?acks, ?alive, ?hellos⟩
  case drops =>
    intro c k s d1 hc hdrop
    obtain ⟨f, hexec⟩ := exec_packet k s hc
    exact becomes_of_onDev hexec (accept_drop hdrop f)
  case checks =>
    intro k t d d1 l sound
    refine ⟨check_of_outsider, fun hm => ⟨check_of_unsound hm, check_of_other_device hm, fun hs hd => ⟨check_of_sealed hm hs hd,
      fun body hopen => ?opened⟩⟩⟩
    case opened =>
      have hcheck := check_of_opened hm hs hd hopen
      intro d2 src old seen
      refine ⟨fun h => hcheck.trans (checkEpoch_of_stale h), fun h ht hk => hcheck.trans (checkEpoch_of_unknown h ht hk),
        fun h ht hk he => ⟨fun hf hseen => ?_, fun hfresh => ?_⟩⟩
      · exact hcheck.trans ((checkEpoch_of_known h ht hk he).trans (checkSyn_of_replay d2 k body hf hseen))
      · obtain ⟨d3, hpass, hkeep⟩ := checkSyn_of_fresh d2 k body hfresh
        exact ⟨d3, hcheck.trans ((checkEpoch_of_known h ht hk he).trans hpass), hkeep⟩
  case flows =>
    intro c k s d1 body hc hpass src flow f off
    have hfin (d : Dev) : d.finish.recvFlow src flow k.link = d.recvFlow src flow k.link := by
      rw [Dev.recvFlow, Dev.finish_fab, ← Dev.recvFlow]
    refine completes_of_onDev (exec_flowPacket k s hc) ?_
    rw [accept_pass hpass, hfin]
    exact ⟨rxFlow_of_outside c.2 body, rxFlow_of_next c.2 body, rxFlow_of_later c.2 body⟩
  case acks =>
    intro k s d1 body hpass f left gone
    refine completes_of_onDev (exec_ack k s) ?_
    rw [accept_pass hpass, Dev.sendFlow, Dev.finish_fab, ← Dev.sendFlow]
    exact ackRun_spec k d1 body
  case alive =>
    intro k s d1 body hpass
    have haccept := accept_pass hpass fun d body => if body.length = 8 ∧ zeros body 0 8 then d else d.cnt .pf pFabt 11 1
    exact ⟨fun h => becomes_of_onDev (exec_keepalive k s) (haccept.trans (if_pos h)),
      fun h => becomes_of_onDev (exec_keepalive k s) (haccept.trans (if_neg h))⟩
  case hellos =>
    intro k s d1 body n
    refine ⟨fun hpass => ⟨fun h => becomes_of_onDev (exec_hello k s) ((accept_pass hpass _).trans (helloRun_of_malformed h)),
        fun h => completes_of_onDev (exec_hello k s) ?hello⟩,
      fun hpass => ⟨fun h => becomes_of_onDev (exec_helloAck k s) ((accept_pass hpass _).trans (helloAckRun_of_malformed h)),
        fun h h0 => completes_of_onDev (exec_helloAck k s) ?refused, fun h hv hs hr =>
        completes_of_onDev (exec_helloAck k s) ?helloAck⟩,
      fun hpass => ?fenced⟩
    case hello =>
      rw [accept_pass hpass, Dev.known_finish, Dev.link_finish]
      refine ⟨helloRun_known h, helloRun_link h, fun hv => ?_⟩
      rw [helloRun_of_refused h hv, Dev.link_refuseLink]
    case refused =>
      rw [accept_pass hpass, Dev.link_finish, helloAckRun_of_none h h0, Dev.link_refuseLink]
    case helloAck =>
      rw [accept_pass hpass, Dev.link_finish]
      exact helloAckRun_link h hv hs hr
    case fenced =>
      intro ours
      refine ⟨fun h => completes_of_onDev (exec_fenced k s) ?_, fun h =>
        becomes_of_onDev (exec_fenced k s) ((accept_pass hpass _).trans (if_neg h))⟩
      rw [accept_pass hpass, if_pos h, Dev.finish_fab]
      exact fence_spec d1

end Sys2Proof.Machine
end
